-- ==== Sys2Proof/Word.lean ====
section
/-!
DEFINITION. The plainest words of the model: bytes, 32-bit register words, and the sparse sorted map
(a list of key and value pairs) in which memories, register files and collections of like units are held.
-/
namespace Sys2Proof

/-- A byte. -/
abbrev Byte := BitVec 8

/-- A 32-bit register word (R666). -/
abbrev Word32 := BitVec 32

/-- A sparse map by a natural key, sorted by key. -/
abbrev Map (α : Type) := List (Nat × α)

/-- Byte-addressed memory: the same shape as `List Host.Cell`, addresses strictly rising. -/
abbrev Mem := Map Byte

end Sys2Proof
end

