-- ==== Sys2Proof/Syntax.lean ====
section
/-!
DEFINITION. The commands of the block: one constructor per row of spec/opcode_table.json. A command is something that
reaches the part from outside (a register write, a doorbell, a flit, a pin) or a step that one of the part's own agents
takes (an engine operation, a timer that expires, firmware that finishes). What the outside world chooses (a value, a
sensor reading, the part time t at which a timer expires) is an operand.
-/
namespace Sys2Proof

/-- A context number. -/
abbrev CtxId := Fin 64
/-- A physical array unit (R13). -/
abbrev AuId := Fin 192
/-- A part-wide function number (Table 11.2). -/
abbrev FnId := Fin 32
/-- A context slot of a virtual function. -/
abbrev SlotId := Fin 16
/-- A host port: 0 HPA, 1 HPB. -/
abbrev PortId := Fin 2
/-- A link port L0 to L15. -/
abbrev LinkId := Fin 16
/-- A die. -/
abbrev DieId := Fin 2
/-- A stack of HBM, M0 to M11. -/
abbrev StackId := Fin 12
/-- A Stencil slot of an AU. -/
abbrev StnId := Fin 16
/-- A queue of an AU (Table 4.2). -/
abbrev QueueId := Fin 22
/-- An engine of an AU (Table 4.1). -/
abbrev EngId := Fin 4
/-- A unit that runs operations: 0 pipeline, 1 load port, 2 drain port, 3 Screed, 4 Trowel lane, 5 MOVE engine. -/
abbrev UnitId := Fin 6
/-- A tagged agent of an AU: Stencil slots 0 to 15, and 16 for the MOVE engine. -/
abbrev AgentId := Fin 17
/-- A semaphore. -/
abbrev SemId := Fin 256

inductive Instr where
  /-- CREATE_PF (R489): A PF writes CREATE to CTX_CTL of a FREE context; the context becomes EMPTY and that PF owns it, and HPA wins a same-cycle tie. -/
  | createPf (c : CtxId) (hpa : Bool) (hpb : Bool)
  /-- CREATE_VF (R490): A VF writes CREATE on an empty slot page; the part binds the lowest FREE context to the slot, or sets CREATE_FAIL. -/
  | createVf (f : FnId) (j : SlotId)
  /-- DESTROY (R492): A write of DESTROY to CTX_CTL stops the context's agents, aborts its commands, closes its windows, unmaps its memory and sets it FREE. -/
  | destroy (f : FnId) (c : CtxId)
  /-- DESTRUCTION_COMPLETE (R492): Destruction ends, within 100 ms, and the context becomes FREE. -/
  | destructionComplete (c : CtxId)
  /-- HUB_ADMIN_WRITE (R449): The admin PF hands the admin role to the other port by writing HUB_ADMIN. -/
  | hubAdminWrite (f : FnId) (v : Word32)
  /-- ADMIN_GRACE_EXPIRY (R449): The admin port has been lost for HOST_GRACE seconds while the other port is up, so the admin role moves by itself. -/
  | adminGraceExpiry (t : Nat)
  /-- HUB_SYNC_GO (R480): A function writes GO to HUB_SYNC_REQ to request a summary; the write is ignored while BUSY is set. -/
  | hubSyncGo (f : FnId) (v : Word32)
  /-- SYNC_SUMMARY_WRITTEN (R480): The part writes the summary, within 10 ms, and sets DONE and STATUS. -/
  | syncSummaryWritten (f : FnId)
  /-- RING_CTL_WRITE (R458): A write to CTX_RING_CTL changes the ring set-up or EN; when EN goes from 0 to 1 all four pointers reset and the phase becomes 1. -/
  | ringCtlWrite (f : FnId) (c : CtxId) (v : Word32)
  /-- DB_CMD_TAIL (R460): A host doorbell write announces new descriptors by giving a new CMD_TAIL. -/
  | dbCmdTail (f : FnId) (k : CtxId) (v : Word32) (size : Nat)
  /-- DB_CPL_HEAD (R460): A host doorbell write announces consumed completions by giving a new CPL_HEAD. -/
  | dbCplHead (f : FnId) (k : CtxId) (v : Word32) (size : Nat)
  /-- DOORBELL_ACCEPTED (R461): The part reads the latest doorbell value, within 1 µs of its arrival. -/
  | doorbellAccepted (c : CtxId)
  /-- DESCRIPTOR_START (R464): The part starts the next announced descriptor, in ring order, once completion-ring credit allows. -/
  | descriptorStart (c : CtxId)
  /-- IRQ_DELAY_EXPIRY (R472): DELAY_US expires after the first IRQ completion and the context's vector fires. -/
  | irqDelayExpiry (c : CtxId) (t : Nat)
  /-- EVT_CTL_WRITE (R473): A write to EVT_CTL enables the event ring or changes its size; enabling resets head, tail and phase. -/
  | evtCtlWrite (f : FnId) (v : Word32)
  /-- EVT_HEAD_WRITE (R476): Host software consumes event records by writing EVT_HEAD, which may return room in the ring. -/
  | evtHeadWrite (f : FnId) (v : Word32)
  /-- LOAD_PROGRAM (R173): The command reads, verifies and places a program image, then maps buffers, copies INIT data, sets flags and builds tables. -/
  | loadProgram (c : CtxId) (k : Nat)
  /-- RUN (R493): The command reads the coat and group tables, sets a0 and ra on every control core and starts every logical AU at its entry point. -/
  | run (c : CtxId) (k : Nat)
  /-- RUN_COMPLETE (R494): Every logical AU has finished, so the RUN completes and the context returns to READY. -/
  | runComplete (c : CtxId)
  /-- SET_STEP (R307): The command writes η values for step s or s + 1 into the step-size table, or is refused by its outcome table. -/
  | setStep (c : CtxId) (k : Nat)
  /-- SECURE_NOW (R553): The command marks an epoch as pending for the next boundary and completes when the epoch is taken or commits. -/
  | secureNow (c : CtxId) (k : Nat)
  /-- RESTORE (R557): RESTORE with SHARD clear brings the context back to a committed epoch in the order of Table 13.7. -/
  | restore (c : CtxId) (k : Nat)
  /-- RESTORE_SHARD (R559): RESTORE with SHARD set writes the listed pages into the adopt buffer and verifies them. -/
  | restoreShard (c : CtxId) (k : Nat)
  /-- OPEN_WINDOW (R408): The command opens a window over a range of a logical buffer and returns its handle. -/
  | openWindow (c : CtxId) (k : Nat)
  /-- CLOSE_WINDOW (R411): The command moves a window to DRAINING and closes it once the accepted transactions have completed. -/
  | closeWindow (c : CtxId) (k : Nat)
  /-- FENCE (R478): The command waits for every earlier command of its ring, and optionally for its events, before later commands start. -/
  | fence (c : CtxId) (k : Nat)
  /-- PREEMPT (R503): The command pre-empts a READY or RUNNING context with cause HOST, or changes the cause of a DISPLACED context to HOST. -/
  | preempt (c : CtxId) (k : Nat)
  /-- PREEMPTION_SAVE_COMPLETE (R504): The save of every logical AU's state ends, the AUs are cleared and freed, and the context becomes PREEMPTED. -/
  | preemptionSaveComplete (c : CtxId)
  /-- RESUME (R511): The command places a PREEMPTED context, displacing others if needed, and restores its state. -/
  | resume (c : CtxId) (k : Nat)
  /-- RESUMPTION_COMPLETE (R507): The state is restored, the flags and parked mailbox changes are applied and the agents restart. -/
  | resumptionComplete (c : CtxId)
  /-- DISPLACED_RESUME (R502): The scheduler resumes the first waiting DISPLACED context once enough AUs are free. -/
  | displacedResume
  /-- SET_MEMBERSHIP (R563): The command checks and installs a membership table, fencing any removed member and starting adoption. -/
  | setMembership (c : CtxId) (k : Nat)
  /-- SHARD_ADOPTED (R566): An adopter finishes writing and verifying its share and sends SHARE_DONE to every member. -/
  | shardAdopted (c : CtxId)
  /-- SHARD_COMMIT (R566): Every share of the removed member is done, so SET_MEMBERSHIP completes with OK on every member. -/
  | shardCommit (c : CtxId)
  /-- ROLLBACK (R571): A second failure during adoption rolls every member back to the highest common epoch and adopts the new shard from it. -/
  | rollback (c : CtxId)
  /-- RESYNC (R479): The command writes a snapshot summary of the function's contexts to host memory. -/
  | resync (c : CtxId) (k : Nat)
  /-- COPY (R366): The command copies bytes between host and virtual memory, converting formats if asked, and sets a flag on OK. -/
  | copy (c : CtxId) (k : Nat)
  /-- MAP (R368): The command maps HBM or host-pageable pages into the context's virtual space. -/
  | map (c : CtxId) (k : Nat)
  /-- UNMAP (R369): The command invalidates a mapped range, writes back dirty pages unless DISCARD is set, and frees the frames. -/
  | unmap (c : CtxId) (k : Nat)
  /-- SET_CAP (R588): The command sets the host power cap, optionally waiting until input power meets the new Ceff. -/
  | setCap (c : CtxId) (k : Nat)
  /-- QUERY_ENERGY (R598): The command returns a context's or the part's energy and can write an energy record. -/
  | queryEnergy (c : CtxId) (k : Nat)
  /-- PLACE_HINT (R499): The command records pins or groups and, with APPLY, re-places the context now. -/
  | placeHint (c : CtxId) (k : Nat)
  /-- FAILURE_NOTICE (R554): The command updates the mean steps between failures M and returns the new interval. -/
  | failureNotice (c : CtxId) (k : Nat)
  /-- BAR4_ACCESS (R452): A host access through BAR4 is translated into the selected context's virtual memory, or refused and counted. -/
  | bar4Access (p : PortId) (write : Bool) (off : Nat) (len : Nat) (data : List Byte)
  /-- BAR0_REGISTER_WRITE (R667): A BAR0 write to a register with no row of its own applies the W1C, RW and WO rules, or is refused or ignored. -/
  | bar0RegisterWrite (f : FnId) (off : Nat) (size : Nat) (v : Nat)
  /-- RC_READ (R671): A read of an RC field returns its value and clears it, when the reader may write its register. -/
  | rcRead (f : FnId) (off : Nat) (size : Nat)
  /-- LO_READ_LATCH (R673): A read of an RO _LO register latches the high half for the next _HI read of the same function. -/
  | loReadLatch (f : FnId) (off : Nat) (size : Nat)
  /-- HAWK_DEBUG_READ (R205): A read of AU_HAWK_DBG registers samples Hawk bytes and the slot tag without waiting or changing a tag. -/
  | hawkDebugRead (f : FnId) (a : AuId) (off : Nat)
  /-- SEC_DIAG_GO (R653): A write of GO to SEC_DIAG_CTL reads a page-table entry of an owned context, or sets DENIED. -/
  | secDiagGo (f : FnId) (v : Word32)
  /-- PWR_CTL_MODE_WRITE (R590): A write of MODE in PWR_CTL changes the power mode within 1 ms. -/
  | pwrCtlModeWrite (f : FnId) (v : Word32)
  /-- PWR_CAP_WRITE (R589): A write to PWR_CAP sets the host cap, rounded and clamped. -/
  | pwrCapWrite (f : FnId) (v : Word32)
  /-- LNK_PORT_CTL_WRITE (R388): A write of ENABLE or MODE in LNK_PORT_CTL disables a port or sends it into TRAINING or TEST. -/
  | lnkPortCtlWrite (f : FnId) (p : LinkId) (v : Word32)
  /-- LNK_PART_ID_WRITE (R388): Writing a part identifier lets enabled ports leave DISABLED and enter TRAINING. -/
  | lnkPartIdWrite (f : FnId) (v : Word32)
  /-- SEC_LC_REQ_GO (R646): The admin PF submits a life-cycle token through SEC_LC_REQ. -/
  | secLcReqGo (f : FnId) (v : Word32)
  /-- LIFECYCLE_TRANSITION (R648): An accepted token makes its life-cycle transition, committed by the last fuse write. -/
  | lifecycleTransition
  /-- DEBUG_EXPIRY (R648): A FIELD-DEBUG period reaches its DURATION and the part returns to SEALED. -/
  | debugExpiry (t : Nat)
  /-- SEC_UPD_GO (R628): A write of GO starts staging a firmware image into the slot that is not running. -/
  | secUpdGo (f : FnId) (v : Word32)
  /-- FW_STAGED (R628): Staging ends, the status is set and the directory names the trial slot as PENDING on success. -/
  | fwStaged
  /-- SEC_UPD_COMMIT (R631): A write of COMMIT raises the rollback count and commits the running trial slot. -/
  | secUpdCommit (f : FnId) (v : Word32)
  /-- SEC_LOG_HEAD_WRITE (R639): Host software consumes log records by writing SEC_LOG_HEAD, which may return room in the log ring. -/
  | secLogHeadWrite (f : FnId) (v : Word32)
  /-- LOG_RECORD (R638): A trace point writes a log record to the retention buffer and, if its severity allows, to the log rings. -/
  | logRecord (sev : Nat) (src : Nat) (point : Nat) (data : List Byte)
  /-- CORE_INSTRUCTION (R125): A control core executes a standard RV64IMAC instruction or CSR access. -/
  | coreInstruction (a : AuId)
  /-- CORE_PAGE_WAIT_END (R126): A control-core access that waited for a page-in proceeds once the page is resident. -/
  | corePageWaitEnd (a : AuId)
  /-- LOGICAL_AU_EXIT (R128): A control core transfers control to the exit address and ends. -/
  | logicalAuExit (a : AuId)
  /-- DX_ISSUE (R136): The core issues an operation word to an engine, holding while its FIFO is full. -/
  | dxIssue (a : AuId)
  /-- DX_TRYISSUE (R136): The core issues an operation word if a FIFO place is free, and reports whether it did. -/
  | dxTryissue (a : AuId)
  /-- FIFO_PLACE_FREE (R136): A FIFO place frees and a held dx.issue completes. -/
  | fifoPlaceFree (a : AuId)
  /-- DX_STN_LD (R153): The core loads a Stencil descriptor into a slot, holding while the slot's Stencil is active or pending. -/
  | dxStnLd (a : AuId)
  /-- DX_STN_GO (R154): The core checks and starts the slot's Stencil. -/
  | dxStnGo (a : AuId)
  /-- DX_STN_POS (R161): The core reads the runs completed by a slot's Stencil. -/
  | dxStnPos (a : AuId)
  /-- DX_STN_WAIT (R161): The core holds until the slot's Stencil is done. -/
  | dxStnWait (a : AuId)
  /-- DX_STN_STAT (R161): The core reads a slot's active, pending, halted and done status. -/
  | dxStnStat (a : AuId)
  /-- DX_FSET (R148): The core sets a flag once its earlier stores are complete. -/
  | dxFset (a : AuId)
  /-- DX_FCLR (R148): The core clears a flag once its earlier stores are complete. -/
  | dxFclr (a : AuId)
  /-- DX_FWAIT (R161): The core holds until a flag is set. -/
  | dxFwait (a : AuId)
  /-- DX_FWAITC (R161): The core holds until a flag is clear. -/
  | dxFwaitc (a : AuId)
  /-- DX_FWAITX (R147): The core holds until a flag is set and clears it in the same action. -/
  | dxFwaitx (a : AuId)
  /-- FLAG_WAIT_SATISFIED (R147): A flag reaches the waited value and a held wait proceeds; one WCLR waiter is chosen in rotating order. -/
  | flagWaitSatisfied (a : AuId)
  /-- DX_FTEST (R161): The core reads a flag's value. -/
  | dxFtest (a : AuId)
  /-- DX_QLVL (R171): The core reads the bytes in a queue. -/
  | dxQlvl (a : AuId)
  /-- DX_FLVL (R171): The core reads the operations waiting in an engine's FIFO. -/
  | dxFlvl (a : AuId)
  /-- DX_FPACE (R161): The core holds until a FIFO holds at most rs1 operations. -/
  | dxFpace (a : AuId)
  /-- DX_QPACE (R161): The core holds until a queue holds at least rs1 bytes. -/
  | dxQpace (a : AuId)
  /-- DX_LOOP (R164): The core starts a hardware loop with the latched count of its level. -/
  | dxLoop (a : AuId)
  /-- DX_BRK (R168): The core leaves loop L and every loop inside it. -/
  | dxBrk (a : AuId)
  /-- DX_WHERE (R498): The core reads the placement word of a logical name. -/
  | dxWhere (a : AuId)
  /-- DX_SEM_ACQ (R512): The core acquires a semaphore, waiting while another context holds it. -/
  | dxSemAcq (a : AuId)
  /-- SEM_GRANTED (R512): A released semaphore passes to the next waiting context in priority order. -/
  | semGranted (n : SemId)
  /-- DX_SEM_REL (R513): The core releases a semaphore its context holds. -/
  | dxSemRel (a : AuId)
  /-- OP_START_AFTER_WAIT (R139): An engine operation with WEN starts in the cycle in which its flag test succeeds, clearing the flag if WCLR. -/
  | opStartAfterWait (a : AuId) (u : UnitId)
  /-- COMPUTE (R60): An array compute operation streams rows through the array under one function and accumulates the column results. -/
  | compute (a : AuId)
  /-- SWAP_BANK_HELD (R58): A swapping row held in BC enters MUL once the bank it needs is HELD. -/
  | swapBankHeld (a : AuId)
  /-- WLOAD (R56): The load port writes a weight tile into the target bank of each named quadrant. -/
  | wload (a : AuId)
  /-- WLOAD_COMPLETE (R56): A WLOAD finishes, its bank becomes HELD and records the tile's format. -/
  | wloadComplete (a : AuId)
  /-- ADAPT_LOAD (R68): The load port writes an adapter piece into the adapter store and updates the directory. -/
  | adaptLoad (a : AuId)
  /-- DRAIN (R64): The drain port reads accumulator rows, converts them and pushes them to an output queue. -/
  | drain (a : AuId)
  /-- SETF (R140): A SETF operation sets a flag once every earlier operation in its FIFO is complete. -/
  | setf (a : AuId) (e : EngId)
  /-- CLRF (R140): A CLRF operation clears a flag once every earlier operation in its FIFO is complete. -/
  | clrf (a : AuId) (e : EngId)
  /-- NOP (R140): A NOP takes effect with no work, serving as a pure wait when WEN is set. -/
  | nop (a : AuId) (e : EngId)
  /-- NORM (R264): The Screed normalises each row and optionally writes NORM records. -/
  | norm (a : AuId)
  /-- NORM_BWD (R264): The Screed computes the norm's input gradient and optionally accumulates dγ and dβ. -/
  | normBwd (a : AuId)
  /-- ACT (R266): The Screed applies an activation function to each row. -/
  | act (a : AuId)
  /-- ACT_BWD (R266): The Screed computes an activation's backward form. -/
  | actBwd (a : AuId)
  /-- SMAX (R275): The Screed computes a soft-maximum chunk and writes a SOFTMAX record per row. -/
  | smax (a : AuId)
  /-- SMAX_BWD (R277): The Screed computes the soft-maximum gradient from the merged record. -/
  | smaxBwd (a : AuId)
  /-- MERGE (R276): The Screed folds a chunk record and output into a running record and output. -/
  | merge (a : AuId)
  /-- ELEM (R267): The Screed applies an element function such as add, dropout or rotary position. -/
  | elem (a : AuId)
  /-- LOSS (R269): The Screed computes logit gradients and the loss value from the SOFTMAX record. -/
  | loss (a : AuId)
  /-- VMOVE (R271): The Screed moves words between a queue and its side memory. -/
  | vmove (a : AuId)
  /-- SETP (R257): The Screed sets one group of its parameter registers. -/
  | setp (a : AuId)
  /-- ROWRED (R270): The Screed reduces each row to one value written into word 2 of its record. -/
  | rowred (a : AuId)
  /-- UPDATE (R296): The Trowel lane updates one tile's MW48 master weight and writes both narrow orders. -/
  | update (a : AuId)
  /-- UPDATE_ETA_ARRIVES (R308): An UPDATE waiting for η starts once SET_STEP supplies it. -/
  | updateEtaArrives (a : AuId)
  /-- STEP_SIZE_LATE (R308): An UPDATE has waited LATE_US for η and the event is raised, once per step. -/
  | stepSizeLate (a : AuId) (t : Nat)
  /-- ACCUM (R292): The Trowel lane adds a reduced slice into an FP32 accumulation tile. -/
  | accum (a : AuId)
  /-- TMUL (R313): The Trowel lane multiplies two FP32 tiles into C, used for factor statistics and preconditioning. -/
  | tmul (a : AuId)
  /-- XFER (R359): The MOVE engine moves bytes as a MOVE descriptor states. -/
  | xfer (a : AuId)
  /-- MOVE_PAGE_IN (R355): The MOVE engine starts page-ins of the PAGEABLE pages in a range. -/
  | movePageIn (a : AuId)
  /-- ROLLER (R376): The MOVE engine starts a Roller multicast transfer. -/
  | roller (a : AuId)
  /-- STENCIL_SEGMENT_ISSUE (R155): A Stencil issues its next demand or run-ahead segment under the staging and in-flight bounds. -/
  | stencilSegmentIssue (a : AuId) (st : StnId) (ra : Bool)
  /-- STENCIL_DONE (R159): A Stencil's last byte arrives and its done flag is set. -/
  | stencilDone (a : AuId) (st : StnId)
  /-- STREAM_HALT_RESUME (R347): A stream halted at a page-in resumes from its saved position once the page is resident. -/
  | streamHaltResume (a : AuId) (st : StnId)
  /-- SEGMENT_COMPLETE (R352): A segment's bytes reach their destination, and it releases its tag and staging buffer. -/
  | segmentComplete (id : Nat)
  /-- STAGING_BUFFER_FREE (R209): A released staging buffer lets a waiting segment issue. -/
  | stagingBufferFree (a : AuId) (st : StnId)
  /-- QUEUE_RECORD_READY (R130): A whole record becomes present in a queue, or space frees, and a waiting consumer or producer proceeds. -/
  | queueRecordReady (a : AuId) (src : QueueId) (dst : QueueId) (n : Nat)
  /-- SLOT_VISIT_BEGIN (R196): A tagged agent begins a PRODUCE or CONSUME visit once the slot's tag allows. -/
  | slotVisitBegin (a : AuId) (g : AgentId)
  /-- SLOT_VISIT_END (R197): A tagged visit ends and the slot becomes FULL, or its CNT falls and it becomes EMPTY. -/
  | slotVisitEnd (a : AuId) (g : AgentId)
  /-- SLOT_TIMEOUT (R201): A tagged agent waits SLOT_WAIT_LIMIT cycles on a slot and the context is faulted. -/
  | slotTimeout (a : AuId) (g : AgentId) (t : Nat)
  /-- SLOT_BUSY (R213): A remote access cannot begin its visit within 40 µs and is refused with SLOT_BUSY. -/
  | slotBusy (id : Nat) (t : Nat)
  /-- HAWK_HOT_WINDOW_END (R189): A Hawk hot-bank window of 65,536 cycles ends and AU_HAWK_HOT is rewritten. -/
  | hawkHotWindowEnd (a : AuId) (counts : List Nat) (t : Nat)
  /-- HAWK_ECC_ERROR (R192): A Hawk line error is corrected and counted, or is uncorrectable and handled as a memory error. -/
  | hawkEccError (a : AuId) (off : Nat) (uncorr : Bool)
  /-- HBM_HOT_WINDOW_END (R363): An HBM hot-bank window ends and the hot banks are counted. -/
  | hbmHotWindowEnd (hot : List Nat) (t : Nat)
  /-- HBM_CORRECTED_ERROR (R328): An HBM read corrects an error and counts it. -/
  | hbmCorrectedError (dpa : Nat)
  /-- MEM_UNCORR (R330): An uncorrectable HBM error tears down the owning context and raises the event. -/
  | memUncorr (dpa : Nat)
  /-- HBM_SCRUB (R329): The controller scrubs each stack once every 24 hours in the background. -/
  | hbmScrub (m : StackId) (t : Nat)
  /-- PAGE_IN_START (R341): A demand access to a PAGEABLE page sets it IN_TRANSIT and starts copying it from host memory. -/
  | pageInStart (c : CtxId) (va : Nat)
  /-- PAGE_IN_COMPLETE (R341): The page copy ends, the entry becomes RESIDENT and waiting agents proceed. -/
  | pageInComplete (c : CtxId) (page : Nat)
  /-- ROLLER_SEGMENT_ISSUE (R376): The Roller issues the next segment to every attached receiver while all are within SLACK. -/
  | rollerSegmentIssue (id : Nat)
  /-- ROLLER_DETACH (R377): The Roller has waited SLACK × SEG_NS on a slow receiver, detaches it and starts unicast replay. -/
  | rollerDetach (id : Nat) (t : Nat)
  /-- ROLLER_RCV_FAILED (R378): A Roller receiver fails and its STATUS becomes FAILED. -/
  | rollerRcvFailed (id : Nat) (r : Nat)
  /-- ROLLER_COMPLETE (R379): Every receiver is finished, so the transfer and its ROLLER operation are complete. -/
  | rollerComplete (id : Nat)
  /-- ROLLER_DELIVERY (R374): Every piece is in place at a LOCAL receiver and its delivery flag is set. -/
  | rollerDelivery (id : Nat) (r : Nat)
  /-- PORT_TRAINING_DONE (R387): Training of a port ends in success, which means UP, or in failure, which means DOWN. -/
  | portTrainingDone (p : LinkId) (ok : Bool) (partner : Nat) (partnerPort : Nat)
  /-- LINK_DOWN (R389): A port leaves UP, abandoning the flits it holds and failing its own transactions. -/
  | linkDown (p : LinkId) (reason : Nat)
  /-- DOWN_RETRAIN_TIMER (R387): A DOWN port retries training every 100 ms. -/
  | downRetrainTimer (p : LinkId) (t : Nat)
  /-- LANE_LOSS_OF_LOCK (R386): A lane loses lock and an X4 port goes DOWN. -/
  | laneLossOfLock (p : LinkId) (lane : Nat)
  /-- FLIT_RECEIVE (R391): A flit is received on a port and buffered or discarded as sequencing requires. -/
  | flitReceive (p : LinkId) (seq : Nat) (vc : Nat) (kind : Nat) (body : List Byte)
  /-- SIDE_WORD_RECEIVE (R393): A side word carrying ACK, NAK or CREDIT is received and applied. -/
  | sideWordReceive (p : LinkId) (w : Nat)
  /-- UNCORRECTABLE_CODEWORD (R399): A receiver meets an uncorrectable codeword and sends NAK. -/
  | uncorrectableCodeword (p : LinkId) (t : Nat)
  /-- REPLAY_BOUND_EXCEEDED (R400): Replays exceed the bound within 20 µs and the port goes DOWN. -/
  | replayBoundExceeded (p : LinkId) (t : Nat)
  /-- TRANSACTION_FORWARD (R402): A transaction not addressed to this part is forwarded, or discarded as unreachable. -/
  | transactionForward (n : Nat)
  /-- WINDOW_ARRIVAL (R412): A WRITE, READ or collective landing header is checked at its window and accepted, held or refused. -/
  | windowArrival (n : Nat)
  /-- WINDOW_WRITE_COMPLETE (R410): An accepted write completes, COMPLETE is sent and the arrival count may set the window flag. -/
  | windowWriteComplete (id : Nat)
  /-- HOLD_RECEIVE (R415): The origin receives HOLD and schedules a resend with doubling wait. -/
  | holdReceive (n : Nat)
  /-- HOLD_RESEND (R415): The hold wait expires and the origin resends the refused transaction. -/
  | holdResend (p : LinkId) (slot : Nat) (t : Nat)
  /-- COMPLETE_RECEIVE (R432): The origin receives COMPLETE or READ_DATA and completes the transaction, or discards a stale one. -/
  | completeReceive (n : Nat)
  /-- ABORT_RECEIVE (R431): A destination receives ABORT and remembers the TSEQ so later duplicates are discarded. -/
  | abortReceive (n : Nat)
  /-- TRANSACTION_TIMEOUT (R430): A transaction receives no answer within LNK_TIMEOUT; the origin abandons it, sends ABORT and completes it with LINK_TIMEOUT. -/
  | transactionTimeout (p : LinkId) (slot : Nat) (t : Nat)
  /-- MEMBER_RECEIVE (R406): A MEMBER notice is taken and sets a rank bit or updates the epoch exchange. -/
  | memberReceive (n : Nat)
  /-- LINK_WORK_POST (R417): The program stores POSTED into a link work entry; the link engine starts it within 1 µs. -/
  | linkWorkPost (c : CtxId) (idx : Nat)
  /-- LINK_WORK_START (R417): The link engine starts a POSTED entry once FENCE, slots and the STARTED limit allow. -/
  | linkWorkStart (c : CtxId) (idx : Nat)
  /-- LINK_WORK_COMPLETE (R418): An entry finishes and the part writes STATUS, FAIL_OFF, STATE and then the flag. -/
  | linkWorkComplete (c : CtxId) (idx : Nat)
  /-- COLL_CHUNK_RECEIVE (R424): A collective chunk or partial arrives and is reduced, forwarded or landed. -/
  | collChunkReceive (n : Nat)
  /-- COLL_ABORT_RECEIVE (R427): COLL_ABORT arrives and the member's matching entry fails. -/
  | collAbortReceive (n : Nat)
  /-- COLL_TIMEOUT (R427): An entry waits COLL_WAIT for a member's matching entry and fails. -/
  | collTimeout (c : CtxId) (idx : Nat) (t : Nat)
  /-- STEP_END_EXCHANGE (R429): Every member has contributed to STEP_END, and each applies the merged amaxes and maps. -/
  | stepEndExchange (c : CtxId)
  /-- TIME_SAMPLE (R434): A part-time sample from the link partner adjusts the counter's rate or steps it at first lock. -/
  | timeSample (partner : Nat) (hops : Nat) (t : Nat)
  /-- TIME_UNLOCKED (R436): No time sample arrives for 1 ms, so LOCKED clears and the event is raised. -/
  | timeUnlocked (t : Nat)
  /-- PRBS_TEST (R438): In mode TEST each lane checker counts symbol errors against its PRBS pattern. -/
  | prbsTest (p : LinkId) (locked : Nat) (errs : List Nat)
  /-- PERST_N_ASSERT (R443): PERST_N of a port is asserted and resets that port and its functions alone. -/
  | perstNAssert (p : PortId) (t : Nat)
  /-- PERST_N_DEASSERT (R611): PERST_N is released and the port starts link training and configuration answers. -/
  | perstNDeassert (p : PortId)
  /-- HOT_RESET (R450): A hot reset is received and the port is lost. -/
  | hotReset (p : PortId) (t : Nat)
  /-- HOST_PORT_LOST (R450): A lost port pre-empts its functions' contexts, disables their rings and sets LOST. -/
  | hostPortLost (p : PortId) (t : Nat)
  /-- HOST_PORT_UP (R485): A port's data link comes up and the event is raised. -/
  | hostPortUp (p : PortId) (speed : Nat) (width : Nat) (flit : Bool)
  /-- HOST_GRACE_EXPIRED (R450): HOST_GRACE expires with a port still lost or rings disabled, and those contexts are destroyed. -/
  | hostGraceExpired (p : PortId) (t : Nat)
  /-- FUNCTION_LEVEL_RESET (R451): A Function Level Reset destroys the function's contexts at once. -/
  | functionLevelReset (f : FnId)
  /-- IDE_INSECURE (R454): An IDE stream enters the Insecure state, which counts as loss of the port. -/
  | ideInsecure (p : PortId) (n : Nat) (t : Nat)
  /-- SPDM_REQUEST (R655): A DOE mailbox SPDM request such as CHALLENGE or GET_MEASUREMENTS is answered. -/
  | spdmRequest (p : PortId) (req : List Byte)
  /-- IDE_KM_REQUEST (R454): An IDE_KM message over DOE programs IDE keys. -/
  | ideKmRequest (p : PortId) (req : List Byte)
  /-- DEADLOCK_WINDOW_EXPIRY (R517): The deadlock count reaches DEADLOCK_WINDOW; CTX_DEADLOCK is raised and the context torn down. -/
  | deadlockWindowExpiry (c : CtxId) (t : Nat)
  /-- SLOWDOWN_WINDOW_END (R520): Every 10 ms the slowdown is computed into CTX_SLOWDOWN and the event raised if at THRESH. -/
  | slowdownWindowEnd (c : CtxId) (intf : List Nat) (t : Nat)
  /-- STASH_REQUEST (R230): The program stores REQUEST in a directory entry and the manager writes GRANTED or THINNED. -/
  | stashRequest (c : CtxId) (coat : Nat) (mslot : Nat)
  /-- STASH_RELEASE (R229): The program stores RELEASE and the manager frees the granules and writes FREE. -/
  | stashRelease (c : CtxId) (coat : Nat) (mslot : Nat)
  /-- STEP_CLOSE (R530): The program stores s into CLOSE, and the part performs the step boundary of Table 13.4. -/
  | stepClose (c : CtxId)
  /-- STEP_BOUNDARY_OPEN (R530): The boundary's waits are satisfied, and it advances the step, opens s + 1 and sets BFLAG. -/
  | stepBoundaryOpen (c : CtxId)
  /-- PENDING_PAGE_FIRST_WRITE (R537): The first write to a PENDING page takes a shadow frame and copies the segment it touches before proceeding. -/
  | pendingPageFirstWrite (c : CtxId) (page : Nat)
  /-- SHADOW_FRAME_FREE (R538): A copy-out releases a shadow frame and a waiting first write proceeds. -/
  | shadowFrameFree (c : CtxId)
  /-- SECURE_PAGE_COPY (R539): The copier copies and hashes one secured page to every enabled target. -/
  | securePageCopy (c : CtxId)
  /-- SECURED (R541): Every page and hash of the epoch is complete on every target, so the headers commit and E_last advances. -/
  | secured (c : CtxId)
  /-- SECURE_FAILED (R543): A copy or header write to a target fails and the securing is abandoned. -/
  | secureFailed (c : CtxId) (target : Nat)
  /-- SOLVER_JOB_COMPLETE (R317): A solver finishes a refresh job, writing roots into the unused bank or failing. -/
  | solverJobComplete (n : Nat)
  /-- INPUT_UNDERVOLTAGE (R576): The input stays below 40.0 V for 100 µs and the host side is switched off. -/
  | inputUndervoltage (mv : Nat) (t : Nat)
  /-- INPUT_OVERVOLTAGE (R576): The input stays above 62.0 V for 100 µs and the host side is switched off. -/
  | inputOvervoltage (mv : Nat) (t : Nat)
  /-- INPUT_BELOW_SERVICE_MIN (R576): The input falls below 36.0 V and the service side turns off. -/
  | inputBelowServiceMin (mv : Nat)
  /-- INPUT_RISE (R609): The input reaches 36.0 V and the service converter starts. -/
  | inputRise (mv : Nat)
  /-- VOLTAGE_CAP_UPDATE (R580): Every 1 ms the voltage cap is recomputed and Ceff updated. -/
  | voltageCapUpdate (mv : Nat) (t : Nat)
  /-- CAP_CONTROL_TICK (R582): Every 1 ms the cap layer adjusts domain voltages and clocks to hold input power within Ceff. -/
  | capControlTick (watts : Nat) (t : Nat)
  /-- EXCURSION_CUT (R582): 10 µs input power exceeds X or the excursion allowance, so domain clocks are cut. -/
  | excursionCut (watts : Nat) (t : Nat)
  /-- CURRENT_LIMIT (R583): Input current exceeds 64 A for 2 µs and every AU clock is stretched. -/
  | currentLimit (ma : Nat) (t : Nat)
  /-- CURRENT_LIMIT_END (R583): The current has been below 60 A for 100 µs and the stretch ends. -/
  | currentLimitEnd (ma : Nat) (t : Nat)
  /-- CAP_FLOOR (R584): Input power exceeds Ceff with every domain at its floor, so idle cycles are inserted in HBM and link egress. -/
  | capFloor (watts : Nat) (t : Nat)
  /-- DROOP_STRETCH (R593): An AU's rail falls more than THRESH below set point and its clock period doubles. -/
  | droopStretch (a : AuId)
  /-- DROOP_END (R593): The rail stays within half THRESH for 64 stretched cycles and the stretch ends. -/
  | droopEnd (a : AuId)
  /-- ENERGY_UPDATE (R595): Every 10 µs the energy counters are updated and energy attributed to contexts. -/
  | energyUpdate (uj : List Nat) (t : Nat)
  /-- THERMAL_SENSOR_READ (R600): Every 100 µs the sensors are read and throttling begins, steps or ends. -/
  | thermalSensorRead (aus : List Nat) (hubs : List Nat) (stks : List Nat) (t : Nat)
  /-- THERMAL_TRIP (R602): A sensor stays at its trip point for 10 µs and the power stage removes host-side power. -/
  | thermalTrip (sensor : Nat) (n : Nat) (deg : Nat) (t : Nat)
  /-- STAGE_FAULT (R614): The power stage switches itself off on an internal fault. -/
  | stageFault
  /-- HOST_POWER_ON (R609): The service side powers the host side on and the rails ramp in order. -/
  | hostPowerOn
  /-- SERVICE_RESET (R613): A service-side reset request resets the whole host side with the rails kept up. -/
  | serviceReset
  /-- ROM_BOOT (R625): The boot ROM reads the fuses and directory, chooses and verifies a slot and starts stage 1. -/
  | romBoot
  /-- STAGE1_RUN (R618): Stage 1 trains the interfaces, loads and checks the main firmware, and resets on a hash failure. -/
  | stage1Run (ok : Bool)
  /-- FW_READY (R618): The main firmware starts its compartments and becomes ready. -/
  | fwReady
  /-- FW_RESTART (R633): A compartment faults and the supervisor rebuilds and restarts it within 50 ms. -/
  | fwRestart (comp : Nat) (cause : Nat) (t : Nat)
  /-- COMPARTMENT_HEARTBEAT_MISS (R633): A compartment misses its heartbeat for 100 ms, which is a fault. -/
  | compartmentHeartbeatMiss (comp : Nat) (t : Nat)
  /-- FW_HALTED (R634): Repeated faults or a supervisor failure halt the firmware and stop every AU. -/
  | fwHalted (comp : Nat) (cause : Nat) (t : Nat)
  /-- FW_MEMORY_UNCORR (R635): An uncorrectable error in firmware memory reloads a code page, restarts a compartment, tears down a context or halts. -/
  | fwMemoryUncorr (kind : Nat) (n : Nat) (t : Nat)
  /-- JTAG_INSTRUCTION (R649): A JTAG instruction runs within the reach of the life-cycle state, or acts as BYPASS and is counted. -/
  | jtagInstruction (ir : Nat) (dr : Nat)
  /-- IDENTITY_READ (R659): Scaffold reads the part's identity across the barrier. -/
  | identityRead
  /-- TELEMETRY (R659): Scaffold reads power, thermal and status telemetry across the barrier. -/
  | telemetry
  /-- POWER_CAP (R659): Scaffold sets or withdraws the service cap across the barrier. -/
  | powerCap (w : Nat)
  /-- RESET (R659): Scaffold requests a host-side reset PULSE, HOLD or RELEASE across the barrier. -/
  | reset (kind : Nat)
  /-- LIFECYCLE (R659): Scaffold passes a life-cycle token across the barrier. -/
  | lifecycle (token : List Byte)
  /-- LOG_PULL (R659): Scaffold reads up to 16 log records from the retention buffer. -/
  | logPull (n : Nat)
  /-- POWER (R658): The rack orders Scaffold to switch the host side off or on. -/
  | power (on : Bool)
  /-- COOLANT_SET (R658): The rack sets Scaffold's coolant warning and off thresholds. -/
  | coolantSet (warn : Nat) (off : Nat)
  /-- COOLANT_WARNING (R661): The coolant outlet reaches the warning threshold, or a thermistor fails, and Scaffold imposes a 1,000 W service cap. -/
  | coolantWarning (deg : Nat) (thermistorOk : Bool)
  /-- COOLANT_WARNING_CLEAR (R661): The outlet falls 3 °C below the warning threshold and the rack's cap is restored. -/
  | coolantWarningClear (deg : Nat)
  /-- COOLANT_OFF (R661): The outlet stays at the off threshold for 1 s and Scaffold powers the host side off. -/
  | coolantOff (deg : Nat) (t : Nat)
  /-- LEAK_DETECTED (R661): LEAK_N stays low for 10 ms and Scaffold powers the host side off. -/
  | leakDetected (t : Nat)
  /-- SVC_RST_N (R607): SVC_RST_N resets the service side only. -/
  | svcRstN
  /-- CONFIGURATION_REQUEST (R611): A PCIe configuration read or write reaches a host port and is answered with Configuration Request Retry Status, or completed, possibly enabling VFs or changing the BAR4 size. -/
  | configurationRequest (p : PortId) (vf : Nat) (write : Bool) (off : Nat) (v : Nat)
  /-- ENTER_COMPLIANCE (R483): A host port enters the PCIe compliance states through Enter Compliance or Polling.Compliance and transmits the compliance patterns. -/
  | enterCompliance (p : PortId)
  deriving DecidableEq, Repr

end Sys2Proof
end

