-- ==== Sys2Proof/Config.lean ====
section
/-!
DEFINITION. What the spec leaves free: opaque constants without a body, so that no proof can see a value of them.
A statement that holds of the model holds for every value of every one of them.
-/
namespace Sys2Proof.Config

/-- A free value: what the spec leaves open at the k-th open point of a run (k is the counter `State.free`). -/
opaque free : Nat → Nat

/-- A free value named by what it is and by two keys: bytes past the adapter store (0), FP32 added to an integer accumulator
entry (1), and the like; the model's uses name the first number. -/
opaque keyed : Nat → Nat → Nat → Nat

/-- The order in which an adder tree adds (R61, R97): at step k of the sum numbered (seed, row, column), which of the
remaining terms are added next. -/
opaque treePick : Nat → Nat → Nat → Nat → Nat

/-- Sign and payload of a NaN that the part writes in a format (Table 3.2 gives only "fraction nonzero"). -/
opaque nanBits : Nat → Nat

/-- FP32 results of the special functions, which the spec gives only to within a bound: function, then operand bits. -/
opaque special : Nat → Nat → Nat

/-- The bytes by which LAYOUT (Table 13.5) gives one page of the page list: class, buffer, offset. The spec names the three and gives
no widths. -/
opaque pageCode : Nat → Nat → Nat → List (BitVec 8)

/-- Whether an ECDSA P-256 signature verifies: key digest, message digest, signature (FIPS 186-5 is outside the spec). -/
opaque ecdsaOk : Nat → Nat → Nat → Bool

/-- What ECDSA P-256 signs: the signature over a message by a key (FIPS 186-5 is outside the spec). -/
opaque ecdsaSign : Nat → Nat → Nat

end Sys2Proof.Config
end

