-- ==== Sys2Proof/Machine/AuTypes.lean ====
section
/-!
DEFINITION. The state of one array unit (Table 1.2): matrix array, adapter store, queues, command FIFOs, Stencils, Hawk,
control core. Screed, Trowel and MOVE state stand beside them in the same record.
-/
namespace Sys2Proof.Machine

/-! ## Matrix array -/

/-- What a weight bank records of the load that filled it (R56). -/
structure TileFmt where
  fmt : Nat
  bs : Nat
  bdir : Nat
  deriving DecidableEq, Repr

/-- One weight bank of one quadrant (R40). `loaded` is none until a WLOAD has completed into it: zero weights and no
recorded format (R54). `tile` is the quadrant's tile record as the WLOAD took it (R86). -/
structure Bank where
  loaded : Option TileFmt
  tile : List Byte
  deriving DecidableEq, Repr

/-- One quadrant: its two banks, which of them is ACTIVE (false A, true B), and which is being loaded, if one is. -/
structure Quad where
  a : Bank
  b : Bank
  activeB : Bool
  loading : Option Bool
  deriving DecidableEq, Repr

/-- One entry of the adapter directory (R67, R68): key (variant, kind), rank code, depth code, format, pages. -/
structure AdapterEntry where
  variant : Nat
  up : Bool
  rank : Nat
  kt : Nat
  fmt : Nat
  page : Nat
  pages : Nat
  deriving DecidableEq, Repr

/-- An operation in a command FIFO: its word and its number in the order issued to that engine. -/
structure FifoOp where
  seq : Nat
  word : Nat
  deriving DecidableEq, Repr

/-- An operation that a unit has started and not completed: how many rows or bytes it has done, what it has taken so far,
and whether events that are raised once per operation have been raised. `data` is the operation's own buffer; `regs` are
its own numbers (checkpoint values an operation keeps between its rows). -/
structure ActiveOp where
  seq : Nat
  word : Nat
  done : Nat
  data : List Byte
  regs : List Nat
  swapped : Bool
  nonfin : Bool
  sat : Bool
  deriving DecidableEq, Repr

/-- The accumulator entry kinds of R44 and R97. -/
inductive AccKind where
  | unwritten | fp | int
  deriving DecidableEq, Repr

/-- One accumulator entry: 32 bits and the kind of the compute operation that last wrote it. -/
structure AccEntry where
  bits : Nat
  kind : AccKind
  deriving DecidableEq, Repr

/-- The matrix array's own state. Accumulators are keyed slice · 16384 + slice row · 64 + column; u rows · 64 + entry. -/
structure ArraySt where
  quads : List Quad
  acc : Map AccEntry
  u : Map Nat
  store : Mem
  dir : List AdapterEntry
  deriving DecidableEq, Repr

/-! ## Queues and Stencils -/

/-- One queue (R130, R157): its bytes in order, each marked as a value byte (false) or a scale byte (true), and the space
held for fetches in flight, by role. -/
structure Queue where
  data : List (Bool × Byte)
  heldV : Nat
  heldS : Nat
  deriving DecidableEq, Repr

/-- Where a Stencil slot stands (R158, R159). -/
inductive StnState where
  | idle | pending | active | done
  deriving DecidableEq, Repr

/-- One Stencil slot: its descriptor in logical form (R153), its state, and its streamed position. -/
structure StnSlot where
  desc : List Byte
  st : StnState
  startSeq : Nat          -- order of dx.stn.go, to choose the next pending Stencil
  lastRuns : Nat          -- runs that the slot's previous Stencil completed
  issued : Nat            -- bytes of the stream issued so far
  moved : Nat             -- bytes that are at their destination
  segs : Nat              -- segments in flight
  halted : Bool           -- halted at a page-in or a demand fault (R347)
  visit : Option (Nat × Nat)          -- the visit under way: Hawk slot, bytes moved when it began (R195)
  waitSlot : Option (Nat × Nat × Nat) -- the slot waited on, since when, SLOT_WAIT_EXP in force for the wait
  deriving DecidableEq, Repr

/-! ## Hawk -/

/-- The states of a slot tag (Table 5.2). -/
inductive TagState where
  | empty | filling | full
  deriving DecidableEq, Repr

/-- A slot tag (R193) and the number of CONSUME visits under way (R197). -/
structure SlotTag where
  st : TagState
  ncons : Nat
  cnt : Nat
  visits : Nat
  deriving DecidableEq, Repr

/-! ## Control core -/

/-- What holds a control core in place (R136, R158, R161, R126, R512). -/
inductive CoreWait where
  | none
  | issue | stnLd | stnGo | stnWait
  | flag (f : Nat)
  | pace
  | sem (s : Nat)
  | page (va : Nat)
  deriving DecidableEq, Repr

/-- One running hardware loop (R164): level, first and end address of the body, iterations left. -/
structure LoopSt where
  level : Nat
  start : Nat
  stop : Nat
  left : Nat
  deriving DecidableEq, Repr

/-- The control core: program counter, x1 to x31, loop counts, running loops, the load reservation, counters. -/
structure CoreSt where
  running : Bool
  finished : Bool         -- it has transferred control to the exit address (R128)
  pc : BitVec 64
  x : Map (BitVec 64)
  lc : Map (BitVec 64)
  loops : List LoopSt     -- innermost first
  resv : Option (Nat × Nat)
  cycle : Nat
  instret : Nat
  wait : CoreWait
  deriving DecidableEq, Repr

/-! ## Screed and Trowel -/

/-- The Screed's own state: side memory, the SETP registers (R257), and its row buffer: the input rows of the row under way as
bytes taken so far, the scale bytes kept for a group of input rows, by queue, the output rows made and not yet pushed, by
queue, and the rows of a group of output rows that is not complete, by queue, as FP32 bits. -/
structure ScreedSt where
  side : Mem
  params : Map Nat
  inp : List (List Byte)
  grp : Map (List Byte)
  outs : Map (List (Bool × Byte))
  held : Map (List (List Nat))
  deriving DecidableEq, Repr

/-- The Trowel lane's own state: its tile buffer, as the operand records taken so far and the results not yet pushed (R289), and
since when its next UPDATE has waited for η (R308). -/
structure TrowelSt where
  inp : List (List Byte)
  out : List (Bool × Byte)
  late : Option Nat
  deriving DecidableEq, Repr

/-! ## The AU -/

/-- One array unit. FIFOs are numbered by engine (Table 4.1); units: 0 pipeline, 1 load port, 2 drain port,
3 Screed, 4 Trowel lane, 5 MOVE. -/
structure Au where
  asg : Option (Nat × Nat)     -- context and logical AU placed here
  part : Nat                   -- Hawk partition mode (Table 5.1)
  faulted : Bool
  core : CoreSt
  fifos : Map (List FifoOp)
  nextSeq : Nat
  acts : Map ActiveOp
  array : ArraySt
  queues : Map Queue
  stns : Map StnSlot
  hawk : Mem
  tags : Map SlotTag
  moveWait : Option (Nat × Nat × Nat × Nat) -- logical AU and slot that a MOVE transfer waits on, since when, SLOT_WAIT_EXP
  moveSrc : Option (Nat × Nat)  -- logical AU and slot of the MOVE transfer's CONSUME visit
  moveDst : Option (Nat × Nat)  -- logical AU and slot of its PRODUCE visit
  screed : ScreedSt
  trowel : TrowelSt
  rsvHeld : Nat                -- staging buffers of the AU's reserve in use (R209)
  shHeld : Nat                 -- shared staging buffers held
  raHeld : Nat                 -- shared staging buffers held by run-ahead fetches
  hotRun : Map Nat             -- consecutive windows in which a bank has been hot (R190)
  deriving DecidableEq, Repr

/-- A bank as at context creation (R54). -/
def Bank.reset : Bank := ⟨none, []⟩

/-- A quadrant as at context creation: bank A ACTIVE, bank B HELD (R54). -/
def Quad.reset : Quad := ⟨Bank.reset, Bank.reset, false, none⟩

/-- The array cleared. -/
def ArraySt.reset : ArraySt := ⟨[Quad.reset, Quad.reset, Quad.reset, Quad.reset], [], [], [], []⟩

/-- A queue with nothing in it. -/
def Queue.reset : Queue := ⟨[], 0, 0⟩

/-- A Stencil slot with nothing loaded: a descriptor of zeros. -/
def StnSlot.reset : StnSlot := ⟨List.replicate 64 0, .idle, 0, 0, 0, 0, 0, false, none, none⟩

/-- A slot tag EMPTY. -/
def SlotTag.reset : SlotTag := ⟨.empty, 0, 0, 0⟩

/-- A control core at rest. -/
def CoreSt.reset : CoreSt := ⟨false, false, 0, [], [], [], none, 0, 0, .none⟩

/-- An AU with no logical AU placed on it, cleared (R191). -/
def Au.reset : Au :=
  { asg := none, part := 0, faulted := false, core := CoreSt.reset, fifos := [], nextSeq := 0, acts := [],
    array := ArraySt.reset, queues := [], stns := [], hawk := [], tags := [], moveWait := none, moveSrc := none, moveDst := none,
    screed := ⟨[], [], [], [], [], []⟩, trowel := ⟨[], [], none⟩, rsvHeld := 0, shHeld := 0, raHeld := 0, hotRun := [] }

end Sys2Proof.Machine
end

