-- ==== Sys2Proof/Machine/Maps.lean ====
section
/-!
DEFINITION. Reading and writing sparse maps and memories, byte order (R8), and bit fields. Everything that lays bytes
or bits out is said here once.
-/
namespace Sys2Proof.Machine

/-! ## Sparse maps -/

/-- The entry listed at key k. -/
def mfind {α : Type} : Map α → Nat → Option α
  | [], _ => none
  | (k', v) :: m, k => if k' = k then some v else mfind m k

/-- The entry at key k, or d where none is listed. -/
def mget {α : Type} (d : α) (m : Map α) (k : Nat) : α := (mfind m k).getD d

/-- List v at key k, keeping the keys rising. -/
def mput {α : Type} : Map α → Nat → α → Map α
  | [], k, v => [(k, v)]
  | (k', v') :: m, k, v =>
    if k < k' then (k, v) :: (k', v') :: m
    else if k = k' then (k, v) :: m
    else (k', v') :: mput m k v

/-- Remove the entry at key k. -/
def mdel {α : Type} : Map α → Nat → Map α
  | [], _ => []
  | (k', v') :: m, k => if k' = k then mdel m k else (k', v') :: mdel m k

/-- Write v at key k in a map in which an unlisted key reads as d: the canonical form lists no entry equal to d. -/
def mset {α : Type} [DecidableEq α] (d : α) (m : Map α) (k : Nat) (v : α) : Map α :=
  if v = d then mdel m k else mput m k v

/-- Remove every entry whose key satisfies p. -/
def mdrop {α : Type} (p : Nat → Bool) (m : Map α) : Map α := m.filter fun e => !p e.1

/-- The keys rise strictly. -/
def msorted {α : Type} : Map α → Bool
  | [] => true
  | (k, _) :: m => (m.head?.all fun e => k < e.1) && msorted m

/-- The canonical form of a map whose unlisted keys read as d: keys rising and no entry equal to d. -/
def mcanon {α : Type} [DecidableEq α] (d : α) (m : Map α) : Bool :=
  msorted m && m.all fun e => e.2 != d

/-! ## Memory of bytes -/

/-- One byte: an unlisted address reads as 0. -/
def rdByte (m : Mem) (a : Nat) : Byte := mget 0#8 m a

/-- Write one byte. -/
def wrByte (m : Mem) (a : Nat) (b : Byte) : Mem := mset 0#8 m a b

/-- The canonical form of a memory. -/
abbrev Memory.wf (m : Mem) : Bool := mcanon 0#8 m

/-- n bytes from address a. -/
def rdBytes (m : Mem) (a : Nat) : Nat → List Byte
  | 0 => []
  | n + 1 => rdByte m a :: rdBytes m (a + 1) n

/-- Write the bytes bs from address a on. -/
def wrBytes (m : Mem) (a : Nat) : List Byte → Mem
  | [] => m
  | b :: bs => wrBytes (wrByte m a b) (a + 1) bs

/-- Clear n bytes from address a. -/
def zeroBytes (m : Mem) (a n : Nat) : Mem := mdrop (fun k => decide (a ≤ k) && decide (k < a + n)) m

/-- The number that bytes spell, the first the least significant (R8). -/
def leNat : List Byte → Nat
  | [] => 0
  | b :: bs => b.toNat + 256 * leNat bs

/-- The n little-endian bytes of a number (R8). -/
def natLe : Nat → Nat → List Byte
  | 0, _ => []
  | n + 1, v => BitVec.ofNat 8 v :: natLe n (v / 256)

/-- Bytes [off, off + n) of a record, read as a number; bytes past its end read 0. -/
def fieldLe (bs : List Byte) (off n : Nat) : Nat := leNat ((bs.drop off).take n)

/-- The byte at an offset of a record as a number. -/
def byteAt (bs : List Byte) (off : Nat) : Nat := fieldLe bs off 1

/-- A record of n bytes, 0 but for the fields given as (offset, width, value). -/
def layOut (n : Nat) : List (Nat × Nat × Nat) → List Byte
  | [] => List.replicate n 0
  | (off, w, v) :: fs =>
    let r := layOut n fs
    r.take off ++ natLe w v ++ r.drop (off + w)

/-- Every byte of a record in [a, b) is 0. -/
def zeroIn (bs : List Byte) (a b : Nat) : Bool := ((bs.drop a).take (b - a)).all (· == 0)

/-! ## Bits -/

/-- Bits [hi:lo] of a number. -/
def bits (w hi lo : Nat) : Nat := (w / 2 ^ lo) % 2 ^ (hi + 1 - lo)

/-- Bit n of a number. -/
def bit (w n : Nat) : Bool := (w / 2 ^ n) % 2 == 1

/-- Bits [hi:lo] of w replaced by v. -/
def putBits (w hi lo v : Nat) : Nat :=
  w - 2 ^ lo * bits w hi lo + 2 ^ lo * (v % 2 ^ (hi + 1 - lo))

/-- A Bool as a bit. -/
def b2n (b : Bool) : Nat := if b then 1 else 0

/-- A value of w bits read as two's complement. -/
def toInt (w v : Nat) : Int := if v % 2 ^ w < 2 ^ (w - 1) then (v % 2 ^ w : Nat) else (v % 2 ^ w : Nat) - (2 ^ w : Nat)

/-- The two's complement value of w bits of an integer. -/
def ofInt (w : Nat) (v : Int) : Nat := (v % (2 ^ w : Nat)).toNat

/-- a + b, no more than top. -/
def satAdd (top a b : Nat) : Nat := min top (a + b)

/-- a / b, rounded up. -/
def ceilDiv (a b : Nat) : Nat := if a % b = 0 then a / b else a / b + 1

/-- p rounded up to a multiple of a. -/
def roundUp (p a : Nat) : Nat := ceilDiv p a * a

/-- The first element of a list that satisfies p, with its position. -/
def findAt {α : Type} (p : α → Bool) : List α → Nat → Option (Nat × α)
  | [], _ => none
  | x :: xs, n => if p x then some (n, x) else findAt p xs (n + 1)

/-- The list with its element at position n replaced. -/
def setAt {α : Type} : List α → Nat → α → List α
  | [], _, _ => []
  | _ :: xs, 0, y => y :: xs
  | x :: xs, n + 1, y => x :: setAt xs n y

end Sys2Proof.Machine
end

