-- ==== Sys2Proof/Machine/DustTypes.lean ====
section
/-!
DEFINITION. The state of the Dust sheet of one context (13_resilience.md): the securing table as read, the securing under
way, the epochs, the interval rule, the boundary that is held and the adoption of a removed member's shard.
-/
namespace Sys2Proof.Machine

/-- A region entry of the securing table (Table 13.2). -/
structure DustRegion where
  base : Nat
  bytes : Nat
  cls : Nat
  deriving DecidableEq, Repr

/-- The securing table as read at the start of the RUN (Table 13.1). -/
structure DustTable where
  va : Nat
  bflag : Nat
  bflagEn : Bool
  regions : List DustRegion
  mtab : Nat
  adopt : Nat
  adoptBytes : Nat
  deriving DecidableEq, Repr

/-- A page of the secured set (R528): class, logical buffer, offset in it, and virtual page number (VA[51:21]). -/
structure SecPage where
  own : Bool
  lbuf : Nat
  off : Nat
  page : Nat
  deriving DecidableEq, Repr

/-- How far a page of the secured set is (R536, R537, R539): PENDING; with a shadow frame whose segments are copied as listed
(taken in the order given); with all its bytes on their way to the targets, its shadow frame, if it had one, not yet released; or
DONE. -/
inductive Mark where
  | pending
  | shadow (frame order : Nat) (segs : List Nat)
  | sent (frame : Option Nat)
  | done
  deriving DecidableEq, Repr

/-- How far a securing is at one target: 0 its header is being written with STATE WRITING, 1 its pages, 2 its hashes, 3 its STATE
COMMITTED, 4 committed; pieces sent of what is being written; writes not yet answered. -/
structure TgtSt where
  phase : Nat
  next : Nat
  out : Nat
  deriving DecidableEq, Repr

/-- A securing under way (R536 to R543): epoch, sequence number, the header as written at its start, the secured set and the mark
of each page, the hashes recorded so far, the page being copied, how far it is at each enabled target, a copy that failed (target,
status), and what the cost sample needs. -/
structure Securing where
  epoch : Nat
  seq : Nat
  head : List Byte
  pages : List SecPage
  marks : List Mark
  hashes : Map Nat
  nextOrder : Nat
  cur : Option Nat
  tgts : Map TgtSt
  failed : Option (Nat × Nat)
  startedAt : Nat
  startStep : Nat
  bytes : Nat
  deriving DecidableEq, Repr

/-- An adopt entry (Table 13.9). -/
structure AdoptEntry where
  adopter : Nat
  source : Nat
  buddy : Nat
  handle : Nat
  first : Nat
  pages : Nat
  dest : Nat
  deriving DecidableEq, Repr

/-- What is being fetched from an image for a RESTORE, a rollback or an adoption. `part` is the part and the window handle that the
image is behind, or none for host memory at `addr`; `want` the epoch wanted; `layout` the LAYOUT that it must have; `stage` 0 and 1
the headers of the two slots, 2 the hashes of the slot chosen, 3 to 5 the same of the verify peer, 6 the pages; `base` and
`peerBase` where the slot chosen begins; `peers` the images in which a verify peer is looked for, the first being tried; `plan` the
pages still to be fetched (page in the image, OWN, virtual address to write). -/
structure ImgFetch where
  part : Option (Nat × Nat)
  addr : Nat
  want : Option Nat
  layout : Option Nat
  ownPages : Nat
  stage : Nat
  head0 : List Byte
  head : List Byte
  base : Nat
  hashes : List Nat
  peers : List (Nat × Nat)
  peerHead : List Byte
  peerBase : Nat
  peerHashes : List Nat
  plan : List (Nat × Bool × Nat)
  again : Bool
  done : Nat
  refetched : Nat
  deriving DecidableEq, Repr

/-- The adoption of the shard of a removed member (R565 to R571): group, removed member, and its membership epoch; entries of this
member still to be adopted and the fetch under way; whether this member's share is done; adopters whose shares are awaited; pages
adopted, as pages of the adopt buffer; whether a share was abandoned, and whether a page failed verification twice; and how far a
rollback to a second removed member is (0 none, 1 offers, 2 agreements, 3 restoring), with the epoch agreed. -/
structure Adoption where
  group : Nat
  removed : Nat
  epoch : Nat
  source : Nat × Nat            -- the removed member's image: part and window handle
  entries : List AdoptEntry
  cur : Option ImgFetch
  mineDone : Bool
  awaited : List Nat
  pages : List Nat
  total : Nat
  abandoned : Bool
  failedTwice : Bool
  rollback : Nat
  agreed : Option Nat
  deriving DecidableEq, Repr

/-- The Dust sheet of one context. -/
structure DustSt where
  table : Option DustTable
  securing : Option Securing
  seq : Nat                       -- SEQ of the next securing
  pLast : Option Nat              -- P_last
  eLast : Option Nat              -- E_last
  reserve : List Nat              -- shadow frames of the reserve that are free (R538)
  reserveAll : List Nat           -- every frame of the reserve
  costKnown : Bool                -- the first cost sample has been taken (R551)
  lastNotice : Option Nat         -- step of the previous FAILURE_NOTICE (R552)
  lastFailed : Option Nat         -- identifier of the failed part that it named (R554)
  wantNow : Bool                  -- a SECURE_NOW is pending (R532)
  failedLast : Bool               -- the last securing failed (R543)
  adoptedSince : Bool             -- pages adopted since the last epoch (R532)
  groupReq : Bool                 -- a member of the securing group requests an epoch at the next boundary (R532)
  stepEnds : List Nat             -- groups whose STEP_END has completed in this step (R533)
  adoptPages : List Nat           -- pages of the adopt buffer filled by adoption or a shard restore
  closing : Option Nat            -- the step that the boundary under way closes
  stage : Nat                     -- steps of Table 13.4 done: 0 none, 1 step 1, 3 steps 1 to 3
  closeSeq : Map Nat              -- by logical AU: operations issued before the boundary was requested (R288)
  heldSince : Nat                 -- since when step 2 has been reached
  stalled : Bool                  -- SECURE_STALL has been raised for this boundary
  adoption : Option Adoption
  restore : Option ImgFetch       -- a RESTORE, or the restore of a rollback, under way
  fetchAsked : Nat                -- pieces asked of the range of an image being read
  scratch : Mem                   -- bytes of an image as fetched, by offset in the image
  fetchOut : Nat                  -- reads of the image that are out
  fetchFail : Option Nat          -- status of one that failed
  queued : Option (List Byte)     -- a membership table that waits (Table 13.10)
  deriving DecidableEq, Repr

def DustSt.reset : DustSt :=
  { table := none, securing := none, seq := 0, pLast := none, eLast := none, reserve := [], reserveAll := [], costKnown := false,
    lastNotice := none, lastFailed := none, wantNow := false, failedLast := false, adoptedSince := false, groupReq := false, stepEnds := [], adoptPages := [], closing := none,
    stage := 0, closeSeq := [], heldSince := 0, stalled := false, adoption := none, restore := none, fetchAsked := 0, scratch := [], fetchOut := 0, fetchFail := none,
    queued := none }

end Sys2Proof.Machine
end

