-- ==== Sys2Proof/Machine/HostTypes.lean ====
section
/-!
DEFINITION. The state of a context (12_contexts.md, 11_host.md) and of the host ports and functions.
-/
namespace Sys2Proof.Machine

/-- The states of Table 12.1. -/
inductive CtxState where
  | free | empty | loading | ready | running | preempting | preempted | resuming | faulted | restoring | destroying
  deriving DecidableEq, Repr

/-- The causes of R487. -/
inductive Cause where
  | host | displaced | hostLost
  deriving DecidableEq, Repr

/-- How far a started command has come: started and not yet begun; under way (its numbers are the command's own);
or complete in all but its completion entry, which waits for room in the mailbox (R508). -/
inductive CmdPhase where
  | started
  | underway (a b : Nat)
  | held (status result : Nat)
  deriving DecidableEq, Repr

/-- A command taken from a ring and not yet complete: its 64 descriptor bytes (R467), its phase, when it was taken,
and the energy attributed to it so far, in µJ (R597). -/
structure Cmd where
  desc : List Byte
  phase : CmdPhase
  takenAt : Nat
  energy : Nat
  deriving DecidableEq, Repr

/-- The rings of a context: the four free-running 16-bit pointers (R457), doorbell values that have arrived and not been
read (R461), the commands started and not completed, oldest first, and the interrupt moderation of R472. -/
structure RingSt where
  cmdHead : BitVec 16
  cmdTail : BitVec 16
  cplTail : BitVec 16
  cplHead : BitVec 16
  dbTail : Option (BitVec 16)
  dbHead : Option (BitVec 16)
  cmds : List Cmd
  irqCount : Nat
  irqSince : Option Nat
  deriving DecidableEq, Repr

/-- A flag change parked in the completion mailbox (R507): flag and new value. -/
structure Parked where
  flag : Nat
  value : Bool
  deriving DecidableEq, Repr

/-- One SPDM, DOE or IDE stream state of a host port (R454): stream number, secure. -/
structure IdeStream where
  num : Nat
  secure : Bool
  deriving DecidableEq, Repr

/-- A host port (R441 to R455): data link, PERST_N, loss, the size of BAR4 (log₂ of bytes), VFs enabled, IDE streams. -/
structure HostPort where
  dlUp : Bool
  flit : Bool
  speed : Nat
  width : Nat
  perst : Bool               -- PERST_N asserted
  perstAt : Nat              -- when PERST_N was last released
  answering : Bool           -- answers configuration requests (R611)
  compliance : Bool          -- in the PCIe compliance states (R483)
  lost : Bool
  lostAt : Nat
  grace : Bool               -- HOST_GRACE is running since the last loss
  numVfs : Nat
  bar4 : Nat
  ide : List IdeStream
  ideKeys : Map Nat          -- keys programmed through IDE_KM, by slot
  deriving DecidableEq, Repr

/-- What each function has of its own besides its registers: the latched high halves of R673, event records discarded
since the last EVENTS_LOST (R476), MSI-X enables (configuration space), and the slot pages with CREATE_FAIL set (R490). -/
structure Fn where
  latches : Map Nat
  lost : Nat
  msixEn : Bool
  msixMask : Bool
  createFail : List Nat
  deriving DecidableEq, Repr

def RingSt.reset : RingSt := ⟨0, 0, 0, 0, none, none, [], 0, none⟩

def Fn.reset : Fn := ⟨[], 0, false, false, []⟩

def HostPort.reset : HostPort :=
  { dlUp := false, flit := false, speed := 0, width := 0, perst := true, perstAt := 0, answering := false, compliance := false, lost := false, lostAt := 0, grace := false,
    numVfs := 0, bar4 := 36, ide := [], ideKeys := [] }

end Sys2Proof.Machine
end

