-- ==== Sys2Proof/Machine/LinkTypes.lean ====
section
/-!
DEFINITION. The state of the Omwen links (10_omwen_links.md): ports, flits, transactions, windows, link work entries,
collectives and part time.
-/
namespace Sys2Proof.Machine

/-- Port states (Table 10.3). -/
inductive PortState where
  | disabled | training | up | down | fenced | test
  deriving DecidableEq, Repr

/-- A transaction header (Table 10.6). -/
structure Hdr where
  op : Nat
  hops : Nat
  dst : Nat
  org : Nat
  txn : Nat
  tseq : Nat
  handle : Nat
  offset : Nat
  length : Nat
  status : Nat
  args : List Byte      -- bytes 32 to 63
  deriving DecidableEq, Repr

/-- A transaction as it travels: header, data, virtual channel (Table 10.7). -/
structure LTxn where
  hdr : Hdr
  data : List Byte
  vc : Nat
  deriving DecidableEq, Repr

/-- A flit (R390): virtual channel, KIND of Table 10.4, and its 256 bytes (a HEAD flit begins with the 64-byte header). -/
structure Flit where
  vc : Nat
  kind : Nat
  body : List Byte
  deriving DecidableEq, Repr

/-- A flit in a replay buffer: link sequence number (R391), the flit, part time of its first transmission, the transaction of
this part whose flit it is (none: forwarded or hop-local), and whether it has been replayed. -/
structure SentFlit where
  seq : Nat
  flit : Flit
  at_ : Nat
  slot : Option Nat
  replayed : Bool
  deriving DecidableEq, Repr

/-- A transaction, or a LINK flit, that waits to be sent on a port: its virtual channel, its flits, and the transaction of this
part that it is (none: forwarded or an answer). -/
structure WaitTxn where
  vc : Nat
  flits : List Flit
  slot : Option Nat
  deriving DecidableEq, Repr

/-- A transaction partly received on a virtual channel: its header's bytes and data so far. -/
structure RxPart where
  hdr : Hdr
  data : List Byte
  flits : Nat
  deriving DecidableEq, Repr

/-- A link port (R385 to R400). Counts that software sees as RC registers stand in the register file. -/
structure LinkPort where
  state : PortState
  fence : Bool                 -- carries a fence, kept while DISABLED (R388)
  lanesOk : Nat
  partner : Nat
  partnerPort : Nat
  downAt : Nat                 -- when training was last tried
  retry : Bool                 -- DOWN, with training being retried
  txIndex : Nat                -- flit index, sent (R392)
  rxIndex : Nat                -- flit index, received
  txSeq : Nat                  -- next link sequence number to send
  rxSeq : Nat                  -- next link sequence number expected
  nakFor : Option Nat          -- waiting for a replay from this number (R399)
  waiting : List WaitTxn       -- what waits to be sent, in order of arrival
  sent : List SentFlit         -- replay buffer, oldest first, at most 1,024 (R399)
  replays : List Nat           -- part times of recent replays (R400)
  sideBad : Bool               -- a flit of the side word being received lay in an uncorrectable codeword (R393)
  rxPart : Map RxPart          -- by virtual channel
  rxUsed : Map Nat             -- receive-buffer flits in use, by virtual channel (R396)
  rxFreed : Map Nat            -- flits freed since reset, by virtual channel, modulo 4,096
  txUsed : Map Nat             -- flits of the partner's buffer taken, by virtual channel
  txFreedSeen : Map Nat        -- FREED last received, by virtual channel
  prbsLocked : Nat
  deriving DecidableEq, Repr

/-- Whose transaction a slot holds: a WRITE or READ entry of a context's link work ring, a collective's chunk, a receiver of a
Roller transfer, the securing copier writing to a target, or an image being read for an adoption or a restore. -/
inductive TxnUser where
  | entry (c idx : Nat)
  | coll (c idx : Nat)
  | roller (id rcv : Nat)
  | secure (c target : Nat)
  | fetch (c : Nat)
  deriving DecidableEq, Repr

/-- An outstanding transaction of this part (R398, R430): its port and slot are its key port · 4096 + slot. `holdUntil`
and `holdWait` are the wait of R415 (in ns); `bufs` are the staging buffers that a READ holds, as (die, buffers). -/
structure Txn where
  user : TxnUser
  t : LTxn
  dst : Nat
  ctx : Nat
  bufs : Nat × Nat
  sentAt : Nat
  holdUntil : Option Nat
  holdWait : Nat
  deriving DecidableEq, Repr

/-- Window states (R411). -/
inductive WinState where
  | open_ | draining | closed
  deriving DecidableEq, Repr

/-- A window (R407 to R411). -/
structure Window where
  st : WinState
  gen : Nat
  ctx : Nat
  canWrite : Bool
  canRead : Bool
  tagMode : Nat
  ncons : Nat
  flag : Nat
  flagEn : Bool
  group : Nat
  expect : Nat
  lbuf : Nat
  off : Nat
  size : Nat
  count : Nat
  closing : Bool        -- a CLOSE_WINDOW command waits for it
  deriving DecidableEq, Repr

/-- A transaction accepted at a window and not yet answered: the window's index, the transaction, bytes done, since when it has
made no progress, and what a READ has read. -/
structure Accept where
  win : Nat
  t : LTxn
  done : Nat
  since : Nat
  got : List Byte
  deriving DecidableEq, Repr

/-- A TSEQ that this part, as destination, has completed or had aborted (R431): origin, TSEQ, part time. -/
structure SeenTseq where
  org : Nat
  tseq : Nat
  at_ : Nat
  deriving DecidableEq, Repr

/-- A STARTED link work entry (R417 to R421): its 64 bytes as read, how far it has come, the failure at the lowest offset
(offset, status). For a collective: its number k on the group, and chunks sent, landed and still waiting. -/
structure LinkEntry where
  bytes : List Byte
  issued : Nat              -- bytes (or chunks) issued so far
  out : Nat                 -- transactions outstanding
  popped : Nat              -- bytes or chunks taken from a source queue
  outbox : List (Nat × Nat × List Byte) -- chunks that wait to be sent: phase (0 reduce, 1 gather, 2 step end), chunk, bytes
  fail : Option (Nat × Nat)
  collSeq : Nat
  landed : List Nat         -- chunks landed here
  sentC : Nat               -- chunks sent on
  own : Map (List Byte)     -- this member's own chunks taken from the source, by chunk
  waiting : Map (List Byte) -- partials that arrived before the member's own chunk (R426)
  since : Nat
  result : Option (Nat × Nat) -- status and FAIL_OFF, complete but held for want of room in the mailbox (R508)
  deriving DecidableEq, Repr

/-- Part time and its synchronisation (R434 to R436). -/
structure TimeSt where
  locked : Bool
  everLocked : Bool
  hops : Nat
  offset : Int
  lastSample : Nat
  rate : Int                -- correction in parts per million, at most 1,000 in magnitude
  deriving DecidableEq, Repr

/-- A collective group as SET_MEMBERSHIP installs it: members' identifiers in rank order, this part's rank, the ring
channels (successor, predecessor, egress port), the ownership map, and the counts of R422; and for the Dust sheet, by rank, the part
and window that hold the member's image. -/
structure Group where
  epoch : Nat
  members : List Nat
  rank : Nat
  rings : List (Nat × Nat × Nat)
  owners : List Nat
  images : List (Nat × Nat)
  securing : Bool
  nextColl : Nat
  aborted : List (Nat × Nat)  -- collectives that another member has failed before this one posted them: sequence, status
  deriving DecidableEq, Repr

/-- The notices of R406 for one group, at a membership epoch: parts whose SHARE_DONE, EPOCH_OFFER and EPOCH_AGREE have arrived,
and the lowest epoch offered. -/
structure Notices where
  epoch : Nat
  done : List Nat
  offers : List Nat
  offered : Nat
  agrees : List Nat
  deriving DecidableEq, Repr

/-- The links of the part. -/
structure LinkSt where
  ports : Map LinkPort
  routes : Map Nat            -- route entries, as LNK_RT_DATA shows them, by destination (R403)
  txns : Map Txn
  tseq : Map Nat              -- next TSEQ by destination part
  inbox : List (Nat × LTxn)   -- transactions taken off a link and not yet dealt with: arrival port, transaction
  windows : Map Window
  gens : Map Nat              -- last generation by window index
  accepts : Map Accept
  nextAccept : Nat
  seen : List SeenTseq
  fenced : List Nat           -- parts fenced at this part (R437)
  time : TimeSt
  toAt : Map Nat              -- millisecond after that of the last LINK_TIMEOUT event, by context (R440)
  deriving DecidableEq, Repr

def LinkPort.reset : LinkPort :=
  { state := .disabled, fence := false, lanesOk := 0, partner := 0xFFFF, partnerPort := 0, downAt := 0, retry := false, txIndex := 0, rxIndex := 0,
    txSeq := 0, rxSeq := 0, nakFor := none, waiting := [], sent := [], replays := [], sideBad := false, rxPart := [],
    rxUsed := [], rxFreed := [], txUsed := [], txFreedSeen := [], prbsLocked := 0 }

def LinkSt.reset : LinkSt :=
  { ports := [], routes := [], txns := [], tseq := [], inbox := [], windows := [], gens := [], accepts := [], nextAccept := 0,
    seen := [], fenced := [], time := ⟨false, false, 0, 0, 0, 0⟩, toAt := [] }

end Sys2Proof.Machine
end

