-- ==== Sys2Proof/Machine/MemTypes.lean ====
section
/-!
DEFINITION. The state of the memory system (09_memory.md): page-table entries, frames, segments in flight, page-ins and
Roller transfers.
-/
namespace Sys2Proof.Machine

/-- The leaf types of Table 9.4; an absent entry is INVALID. -/
inductive PteType where
  | resident | pageable | inTransit
  deriving DecidableEq, Repr

/-- How a mapping was made: by the loader (its logical buffer; the image is buffer 0), by MAP with KIND HBM, or by MAP with
KIND HOST_PAGEABLE. -/
inductive Origin where
  | loader (lbuf : Nat)
  | mapHbm
  | mapHost
  deriving DecidableEq, Repr

/-- A leaf page-table entry (Table 9.3). `addr` is the DPA of a RESIDENT page or the host bus address of a PAGEABLE one;
`backing` keeps the host bus address of a page that is PAGEABLE or was paged in; `big` marks a 1 GiB page. -/
structure Pte where
  ty : PteType
  big : Bool
  addr : Nat
  backing : Nat
  port : Nat
  write : Bool
  dirty : Bool
  accessed : Bool
  protect : Bool
  origin : Origin
  stks : Nat
  deriving DecidableEq, Repr

/-- A 2 MiB frame of HBM that is in use or has an error history: its owner (a context, none for the part itself), whether
a page-in filled it, corrected errors in this scrub period, an uncorrectable error, and retirement (R333). -/
structure Frame where
  used : Bool
  owner : Option Nat
  pagedIn : Bool
  corrected : Nat
  uncorr : Bool
  retired : Bool
  deriving DecidableEq, Repr

/-- Who issued a segment (Table 9.5). -/
inductive Issuer where
  | stencil (au st : Nat)
  | move (au : Nat)
  | roller (id rcv : Nat)
  | hub (c : Nat)
  | link (c : Nat)
  deriving DecidableEq, Repr

/-- One end of a transfer: virtual memory of a context, the Hawk of an AU, a queue of an AU, or host memory at a port. -/
inductive MemEnd where
  | virt (c va : Nat)
  | hawk (au off : Nat)
  | queue (au q : Nat) (scales : Bool)
  | host (port addr : Nat)
  deriving DecidableEq, Repr

/-- A segment in flight (R350 to R353): it holds one tag and one staging buffer of its die until it completes. -/
structure Seg where
  issuer : Issuer
  die : Nat
  rsv : Bool            -- the buffer came from the AU's reserve
  runahead : Bool
  src : MemEnd
  dst : MemEnd
  len : Nat
  data : List Byte      -- bytes taken from the source already (a write segment takes them from its queue at issue)
  bank : Option Nat     -- stack, pseudo-channel and bank it occupies, as one number (R326)
  deriving DecidableEq, Repr

/-- A page-in under way: context, page number (VA[51:21]), frame. -/
structure PageIn where
  ctx : Nat
  page : Nat
  frame : Nat
  deriving DecidableEq, Repr

/-- A demand access that waits for a page-in (R341): context, address, agent (as AGENT of MEM_FAULT_INFO; 7 marks a hub agent that
is not a COPY or an image read), AU, write. -/
structure Want where
  ctx : Nat
  va : Nat
  agent : Nat
  au : Nat
  write : Bool
  deriving DecidableEq, Repr

/-- The STATUS of a Roller receiver (Table 9.13). -/
inductive RcvStatus where
  | pending | done | replayed | failed
  deriving DecidableEq, Repr

/-- A Roller receiver: its entry's bytes, segments issued to it, segments written at it, whether attached, STATUS, and the status
of the failure that has been met and not yet dealt with. -/
structure Rcv where
  entry : List Byte
  sent : Nat
  written : Nat
  attached : Bool
  status : RcvStatus
  fail : Option Nat
  deriving DecidableEq, Repr

/-- A Roller transfer under way (R371 to R379): the logical AU that issued it, the operation's number, where its receiver list
lies, and its segments as (source in Stencil BASE form, offset at the receiver, bytes). -/
structure RollerXfer where
  ctx : Nat
  lau : Nat
  seq : Nat
  rlist : Nat
  slack : Nat
  segNs : Nat
  segs : List (Nat × Nat × Nat)
  issued : Nat
  waitingSince : Option Nat
  rcvs : List Rcv
  deriving DecidableEq, Repr

/-- The memory system of the part. Frames are numbered stack · 18432 + frame of the stack; memory is keyed by DPA. -/
structure MemSt where
  hbm : Mem
  frames : Map Frame
  nextFrame : Nat             -- where the rotation over frames goes on (R496)
  segs : Map Seg
  nextSeg : Nat
  sharedUsed : Map Nat        -- shared staging buffers in use, by die
  pageIns : List PageIn
  wants : List Want            -- accesses that wait for a page-in
  fails : List (Nat × Nat × Nat) -- failed page-ins that a hub agent has not seen yet: context, page, reason
  clock : Nat                 -- where the clock sweep of R344 goes on
  rollers : Map RollerXfer
  nextRoller : Nat
  hotRun : Map Nat            -- consecutive windows in which an HBM bank has been hot (R364)
  scrubbedAt : Map Nat        -- part time at which each stack's last scrub ended
  deriving DecidableEq, Repr

def Frame.reset : Frame := ⟨false, none, false, 0, false, false⟩

def MemSt.reset : MemSt :=
  { hbm := [], frames := [], nextFrame := 0, segs := [], nextSeg := 0, sharedUsed := [], pageIns := [], wants := [], fails := [], clock := 0,
    rollers := [], nextRoller := 0, hotRun := [], scrubbedAt := [] }

end Sys2Proof.Machine
end

