-- ==== Sys2Proof/Machine/Numerics.lean ====
section
/-!
DEFINITION. Number formats, scaling and rounding (03_numerics.md): the format codes of Table 3.1, exact values,
rounding (R92 to R95), write-time block scales (R87, R90), delayed scales (R102, R103, R110) and FP32 arithmetic (R61).
-/
namespace Sys2Proof.Machine

/-! ## Exact values -/

/-- An exact value: a NaN, an infinity, or (−1)^neg · m · 2^e. -/
inductive Num where
  | nan
  | inf (neg : Bool)
  | fin (neg : Bool) (m : Nat) (e : Int)
  deriving DecidableEq, Repr

/-- 2^n for a natural exponent given as an integer (0 and below give 1). -/
def pow2 (n : Int) : Nat := 2 ^ n.toNat

/-- The mantissa of m · 2^e when it is written with the smaller exponent f ≤ e. -/
def scaleTo (m : Nat) (e f : Int) : Nat := m * pow2 (e - f)

/-- Magnitudes compared: m₁ · 2^e₁ < m₂ · 2^e₂. -/
def magLt (m₁ : Nat) (e₁ : Int) (m₂ : Nat) (e₂ : Int) : Bool :=
  let f := min e₁ e₂
  scaleTo m₁ e₁ f < scaleTo m₂ e₂ f

/-- ⌊log₂ (m · 2^e)⌋ of a nonzero magnitude. -/
def ilog2 (m : Nat) (e : Int) : Int := (Nat.log2 m : Int) + e

/-- Exact sum. -/
def numAdd : Num → Num → Num
  | .nan, _ => .nan
  | _, .nan => .nan
  | .inf a, .inf b => if a = b then .inf a else .nan
  | .inf a, _ => .inf a
  | _, .inf b => .inf b
  | .fin a m e, .fin b n f =>
    let g := min e f
    let x : Int := if a then -(scaleTo m e g : Int) else scaleTo m e g
    let y : Int := if b then -(scaleTo n f g : Int) else scaleTo n f g
    let z := x + y
    if z = 0 then .fin (a && b) 0 g else .fin (decide (z < 0)) z.natAbs g

/-- Exact product. -/
def numMul : Num → Num → Num
  | .nan, _ => .nan
  | _, .nan => .nan
  | .inf a, .inf b => .inf (a != b)
  | .inf a, .fin b n _ => if n = 0 then .nan else .inf (a != b)
  | .fin a m _, .inf b => if m = 0 then .nan else .inf (a != b)
  | .fin a m e, .fin b n f => .fin (a != b) (m * n) (e + f)

/-- Negation. -/
def numNeg : Num → Num
  | .nan => .nan
  | .inf a => .inf (!a)
  | .fin a m e => .fin (!a) m e

/-- Magnitude. -/
def numAbs : Num → Num
  | .nan => .nan
  | .inf _ => .inf false
  | .fin _ m e => .fin false m e

/-- v · 2^k. -/
def numScale (v : Num) (k : Int) : Num :=
  match v with
  | .fin a m e => .fin a m (e + k)
  | w => w

/-- The integer i. -/
def numInt (i : Int) : Num := .fin (decide (i < 0)) i.natAbs 0

/-- Is the value zero? -/
def numZero : Num → Bool
  | .fin _ m _ => m == 0
  | _ => false

/-- Is the value finite? -/
def numFinite : Num → Bool
  | .fin _ _ _ => true
  | _ => false

/-- a < b, false when either is a NaN; the zeros are equal. -/
def numLt : Num → Num → Bool
  | .nan, _ => false
  | _, .nan => false
  | .inf a, .inf b => a && !b
  | .inf a, .fin _ _ _ => a
  | .fin _ _ _, .inf b => !b
  | .fin a m e, .fin b n f =>
    let g := min e f
    let x : Int := if a then -(scaleTo m e g : Int) else scaleTo m e g
    let y : Int := if b then -(scaleTo n f g : Int) else scaleTo n f g
    decide (x < y)

/-- The larger of two values; a NaN yields the other. -/
def numMax (a b : Num) : Num :=
  match a, b with
  | .nan, _ => b
  | _, .nan => a
  | _, _ => if numLt a b then b else a

/-! ## Formats -/

/-- A floating-point encoding of Table 3.2: fraction bits, exponent bits, bias, and what its top exponent means:
0 infinity and NaN as in IEEE 754; 1 NaN only where the fraction is all ones (E4M3); 2 neither. -/
structure FFmt where
  mb : Nat
  eb : Nat
  bias : Int
  top : Nat
  deriving DecidableEq, Repr

def fp32 : FFmt := ⟨23, 8, 127, 0⟩
def bf16 : FFmt := ⟨7, 8, 127, 0⟩
def fp16 : FFmt := ⟨10, 5, 15, 0⟩
def e4m3 : FFmt := ⟨3, 4, 7, 1⟩
def e5m2 : FFmt := ⟨2, 5, 15, 0⟩
def e3m2 : FFmt := ⟨2, 3, 3, 2⟩
def e2m3 : FFmt := ⟨3, 2, 1, 2⟩
def e2m1 : FFmt := ⟨1, 2, 1, 2⟩
/-- MW48 (Table 3.3): the exponent, infinities and NaNs of FP32, 39 fraction bits (R81). -/
def mw48 : FFmt := ⟨39, 8, 127, 0⟩
/-- IEEE 754 binary64, in which the Trowel lane computes (R296). -/
def fp64 : FFmt := ⟨52, 11, 1023, 0⟩

/-- Largest biased exponent of a finite number. -/
def FFmt.maxExp (f : FFmt) : Nat := if f.top = 0 then 2 ^ f.eb - 2 else 2 ^ f.eb - 1

/-- Largest normal as mantissa and exponent. -/
def FFmt.maxM (f : FFmt) : Nat := if f.top = 1 then 2 ^ (f.mb + 1) - 2 else 2 ^ (f.mb + 1) - 1
def FFmt.maxE (f : FFmt) : Int := (f.maxExp : Int) - f.bias - f.mb

/-- emax, the exponent of the largest normal. -/
def FFmt.emax (f : FFmt) : Int := (f.maxExp : Int) - f.bias

/-- The exponent of the smallest normal, less the fraction bits: that of the smallest subnormal. -/
def FFmt.minE (f : FFmt) : Int := 1 - f.bias - f.mb

/-- The value that bits spell (Table 3.2). -/
def FFmt.decode (f : FFmt) (w : Nat) : Num :=
  let s := bit w (f.mb + f.eb)
  let e := bits w (f.mb + f.eb - 1) f.mb
  let m := bits w (f.mb - 1) 0
  if f.top = 0 ∧ e = 2 ^ f.eb - 1 then (if m = 0 then .inf s else .nan)
  else if f.top = 1 ∧ e = 2 ^ f.eb - 1 ∧ m = 2 ^ f.mb - 1 then .nan
  else if e = 0 then .fin s m f.minE
  else .fin s (2 ^ f.mb + m) ((e : Int) - f.bias - f.mb)

/-- The bits of a NaN: sign and fraction are free, the fraction is nonzero (E4M3 has one NaN of each sign). -/
def FFmt.nan (f : FFmt) : Nat :=
  let p := Config.nanBits (64 * f.mb + f.eb)
  let sgn := p % 2
  let frac := if f.top = 1 then 2 ^ f.mb - 1 else p / 2 % (2 ^ f.mb - 1) + 1
  2 ^ (f.mb + f.eb) * sgn + 2 ^ f.mb * (2 ^ f.eb - 1) + frac

/-- The bits of a representable finite magnitude m · 2^e with sign s. -/
def FFmt.pack (f : FFmt) (s : Bool) (m : Nat) (e : Int) : Nat :=
  let sg := 2 ^ (f.mb + f.eb) * b2n s
  if m = 0 then sg
  else
    let l := ilog2 m e
    if l < 1 - f.bias then
      sg + (if e < f.minE then m / pow2 (f.minE - e) else scaleTo m e f.minE)
    else
      let q := l - f.mb
      let n := if e < q then m / pow2 (q - e) else scaleTo m e q
      sg + 2 ^ f.mb * (l + f.bias).toNat + (n - 2 ^ f.mb)

/-! ## Rounding -/

/-- A rounding: to nearest with ties to even, or stochastic with a 16-bit draw (Table 3.5). -/
inductive Rnd where
  | rne
  | sr (draw : Nat)
  deriving DecidableEq, Repr

/-- m / 2^k rounded to an integer (R93 for the stochastic mode). -/
def roundShift (r : Rnd) (m k : Nat) : Nat :=
  let lo := m / 2 ^ k
  let rem := m % 2 ^ k
  match r with
  | .rne => if 2 * rem > 2 ^ k ∨ (2 * rem = 2 ^ k ∧ lo % 2 = 1) then lo + 1 else lo
  | .sr d => if d % 65536 < 65536 * rem / 2 ^ k then lo + 1 else lo

/-- A magnitude rounded to a format whose exponent range has no upper bound (R95): mantissa and exponent. -/
def FFmt.roundMag (f : FFmt) (r : Rnd) (m : Nat) (e : Int) : Nat × Int :=
  if m = 0 then (0, f.minE)
  else
    let q := max (ilog2 m e - f.mb) f.minE
    if q ≤ e then (m, e) else (roundShift r m (q - e).toNat, q)

/-- What a narrowing did, as Plumb counts it (R96). -/
structure NarrowRes where
  bits : Nat
  flushed : Bool
  overflow : Bool
  nonfin : Bool
  deriving DecidableEq, Repr

/-- How a format answers a value beyond its range and an infinity (Table 3.6). -/
inductive Beyond where
  | ieee | satInf | satNan | sat
  deriving DecidableEq, Repr

/-- Narrowing to a floating-point format (Table 3.6). -/
def FFmt.narrow (f : FFmt) (b : Beyond) (r : Rnd) (v : Num) : NarrowRes :=
  let top := f.mb + f.eb
  let maxBits := f.pack false f.maxM f.maxE
  let infBits := 2 ^ f.mb * (2 ^ f.eb - 1)
  match v with
  | .nan => ⟨if b = .sat then 0 else f.nan, false, false, true⟩
  | .inf s =>
    match b with
    | .ieee => ⟨2 ^ top * b2n s + infBits, false, false, true⟩
    | .satInf => ⟨2 ^ top * b2n s + infBits, false, false, true⟩
    | .satNan => ⟨f.nan, false, false, true⟩
    | .sat => ⟨2 ^ top * b2n s + maxBits, false, true, true⟩
  | .fin s m e =>
    let p := f.roundMag r m e
    if magLt f.maxM f.maxE p.1 p.2 then
      match b with
      | .ieee => ⟨2 ^ top * b2n s + infBits, false, false, false⟩
      | _ => ⟨2 ^ top * b2n s + maxBits, false, true, false⟩
    else ⟨f.pack s p.1 p.2, p.1 == 0 && m != 0, false, false⟩

/-- Narrowing to a signed integer of w bits (Table 3.6). -/
def narrowInt (w : Nat) (r : Rnd) (v : Num) : NarrowRes :=
  let hi : Int := 2 ^ (w - 1) - 1
  let lo : Int := -(2 ^ (w - 1))
  match v with
  | .nan => ⟨0, false, false, true⟩
  | .inf s => ⟨ofInt w (if s then lo else hi), false, true, true⟩
  | .fin s m e =>
    let n : Nat := if 0 ≤ e then scaleTo m e 0 else roundShift r m (-e).toNat
    let i : Int := if s then -(n : Int) else n
    if i < lo then ⟨ofInt w lo, false, true, false⟩
    else if hi < i then ⟨ofInt w hi, false, true, false⟩
    else ⟨ofInt w i, i == 0 && m != 0, false, false⟩

/-! ## FP32 arithmetic -/

/-- A value rounded to nearest in a format, as IEEE 754 does. -/
def FFmt.round (f : FFmt) (v : Num) : Num := f.decode (f.narrow .ieee .rne v).bits

/-- Bits of a value rounded to FP32. -/
def to32 (v : Num) : Nat := (fp32.narrow .ieee .rne v).bits

/-- The value that FP32 bits spell. -/
def of32 (w : Nat) : Num := fp32.decode w

/-- FP32 addition, round to nearest even (R61). -/
def add32 (a b : Num) : Num := fp32.round (numAdd a b)

/-- FP32 multiplication, round to nearest even. -/
def mul32 (a b : Num) : Num := fp32.round (numMul a b)

/-- Long division: |a| / |b| to k binary places below, with a sticky last bit. -/
def divMag (m n : Nat) (k : Nat) : Nat :=
  let q := 2 ^ k * m / n
  if 2 ^ k * m % n = 0 then 2 * q else 2 * q + 1

/-- Quotient rounded to nearest even in a format. -/
def FFmt.div (f : FFmt) (a b : Num) : Num :=
  match a, b with
  | .nan, _ => .nan
  | _, .nan => .nan
  | .inf _, .inf _ => .nan
  | .inf s, .fin t _ _ => .inf (s != t)
  | .fin s _ _, .inf t => .fin (s != t) 0 0
  | .fin s m e, .fin t n g =>
    if n = 0 then (if m = 0 then .nan else .inf (s != t))
    else
      let k := f.mb + 8 + Nat.log2 n
      f.round (.fin (s != t) (divMag m n k) (e - g - k - 1))

/-- Square root rounded to nearest even in a format. -/
def FFmt.sqrt (f : FFmt) (a : Num) : Num :=
  match a with
  | .nan => .nan
  | .inf s => if s then .nan else .inf false
  | .fin s m e =>
    if m = 0 then .fin s 0 0
    else if s then .nan
    else
      let k : Nat := 2 * (f.mb + 8)
      let m' := if e % 2 = 0 then 2 ^ k * m else 2 ^ k * (2 * m)
      let e' := (if e % 2 = 0 then e else e - 1) / 2
      let q := Nat.sqrt m'
      let q' := if q * q = m' then 2 * q else 2 * q + 1
      f.round (.fin false q' (e' - k / 2 - 1))

/-- A product as the array forms it (R61): exact, but a value that leaves the FP32 range overflows or becomes
subnormal. -/
def prod32 (a b : Num) : Num :=
  let p := numMul a b
  match p with
  | .fin _ m e =>
    if m = 0 then p
    else if ilog2 m e < -126 then fp32.round p
    else match fp32.round p with
      | .inf s => .inf s
      | _ => p
  | _ => p

/-- Remove the element at position i. -/
def pickAt {α : Type} (d : α) : List α → Nat → α × List α
  | [], _ => (d, [])
  | x :: xs, 0 => (x, xs)
  | x :: xs, n + 1 => let p := pickAt d xs n; (p.1, x :: p.2)

/-- An FP32 sum in an order that the spec leaves open (R61, R97): while two terms remain, two that the free order picks
are replaced by their FP32 sum. -/
def treeSum (pick : Nat → Nat) : Nat → List Num → Num
  | 0, xs => xs.headD (.fin false 0 0)
  | n + 1, xs =>
    match xs with
    | [] => .fin false 0 0
    | [x] => x
    | _ =>
      let p := pickAt .nan xs (pick (2 * n) % xs.length)
      let q := pickAt .nan p.2 (pick (2 * n + 1) % p.2.length)
      treeSum pick n (add32 p.1 q.1 :: q.2)

/-! ## Format codes -/

/-- Bits per element of a format code (Table 3.1). -/
def fmtBits (c : Nat) : Nat :=
  match c with
  | 0x0 => 32 | 0x1 => 16 | 0x2 => 16 | 0x3 => 8 | 0x4 => 8 | 0x5 => 6 | 0x6 => 6 | 0x7 => 4
  | 0x8 => 8 | 0x9 => 4 | 0xA => 8 | 0xB => 8 | 0xC => 6 | 0xD => 6 | 0xE => 4 | _ => 32

/-- The block-scaled codes 0xA to 0xE. -/
def fmtIsMx (c : Nat) : Bool := decide (0xA ≤ c) && decide (c ≤ 0xE)

/-- The integer codes: INT8, INT4 and INT32. -/
def fmtIsInt (c : Nat) : Bool := c == 0x8 || c == 0x9 || c == 0xF

/-- The 4- and 6-bit operands of R40. -/
def fmtIs46 (c : Nat) : Bool := decide (fmtBits c ≤ 6)

/-- The element encoding of a floating-point format code. -/
def fmtF (c : Nat) : FFmt :=
  match c with
  | 0x0 => fp32 | 0x1 => bf16 | 0x2 => fp16 | 0x3 => e4m3 | 0x4 => e5m2 | 0x5 => e3m2 | 0x6 => e2m3 | 0x7 => e2m1
  | 0xA => e4m3 | 0xB => e5m2 | 0xC => e3m2 | 0xD => e2m3 | 0xE => e2m1 | _ => fp32

/-- How an unscaled format code answers values beyond its range (Table 3.6). -/
def fmtBeyond (c : Nat) : Beyond :=
  match c with
  | 0x0 => .ieee | 0x1 => .ieee | 0x2 => .ieee | 0x3 => .satNan | 0x4 => .satInf | _ => .sat

/-- The block size of a 2-bit block size code. -/
def bsOf (code : Nat) : Nat := 16 * 2 ^ (code % 4)

/-- K_t, the tile depth of an operand format (R40). -/
def ktOf (c : Nat) : Nat := if fmtIs46 c then 256 else 128

/-- The element value of bits under a format code, without its block's scale. -/
def elemVal (c w : Nat) : Num :=
  if c = 0x8 then numInt (toInt 8 w)
  else if c = 0x9 then numInt (toInt 4 w)
  else if c = 0xF then numInt (toInt 32 w)
  else (fmtF c).decode w

/-- The value of an element under an E8M0 scale byte (R84, R85). -/
def scaledVal (c w scale : Nat) : Num :=
  if fmtIsMx c then (if scale = 0xFF then .nan else numScale (elemVal c w) ((scale : Int) - 127)) else elemVal c w

/-- Narrowing of one value to an unscaled format code under a rounding (Table 3.6). -/
def narrow (c : Nat) (r : Rnd) (v : Num) : NarrowRes :=
  if c = 0x8 then narrowInt 8 r v
  else if c = 0x9 then narrowInt 4 r v
  else if c = 0xF then narrowInt 32 r v
  else (fmtF c).narrow (fmtBeyond c) r v

/-! ## Packing (R80) -/

/-- Bytes that n elements of a format code take in one row, padded as R80 states. -/
def rowBytes (c n : Nat) : Nat :=
  let b := fmtBits c
  if b = 6 then 3 * ceilDiv n 4 else if b = 4 then ceilDiv n 2 else n * (b / 8)

/-- Element i of a packed row. -/
def unpackElem (c : Nat) (row : List Byte) (i : Nat) : Nat :=
  let b := fmtBits c
  if b = 6 then bits (fieldLe row (3 * (i / 4)) 3) (6 * (i % 4) + 5) (6 * (i % 4))
  else if b = 4 then bits (byteAt row (i / 2)) (4 * (i % 2) + 3) (4 * (i % 2))
  else fieldLe row (i * (b / 8)) (b / 8)

/-- The number that elements of b bits each spell, the first the least significant. -/
def packNum (b : Nat) : List Nat → Nat
  | [] => 0
  | x :: xs => x % 2 ^ b + 2 ^ b * packNum b xs

/-- The packed bytes of a row of elements. -/
def packRow (c : Nat) (xs : List Nat) : List Byte := natLe (rowBytes c xs.length) (packNum (fmtBits c) xs)

/-! ## Block scales -/

/-- The largest magnitude of a list of values (R87's amax), zero when there is none finite. -/
def amaxOf (vs : List Num) : Num := vs.foldl (fun a v => numMax a (numAbs v)) (.fin false 0 0)

/-- R87's exponent for an amax: the smallest at which no element exceeds the largest normal. -/
def writeExp (f : FFmt) (a : Num) : Int :=
  match a with
  | .fin _ m e =>
    if m = 0 then -127
    else
      let x := ilog2 m e - f.emax
      let x := if magLt f.maxM f.maxE m (e - x) then x + 1 else x
      max x (-127)
  | _ => -127

/-- A block narrowed: its scale byte and its elements with what Plumb counts. -/
structure BlockRes where
  scale : Nat
  elems : List NarrowRes
  deriving DecidableEq, Repr

/-- The roundings of a list of elements: `draws` gives the rounding of each position. -/
def narrowEach (c : Nat) (x : Int) (rs : Nat → Rnd) : Nat → List Num → List NarrowRes
  | _, [] => []
  | i, v :: vs => (fmtF c).narrow .sat (rs i) (numScale v (-x)) :: narrowEach c x rs (i + 1) vs

/-- Write-time scaling of one block (R87); rs i is the rounding of its i-th element. -/
def writeBlock (c : Nat) (rs : Nat → Rnd) (vs : List Num) : BlockRes :=
  if vs.all numFinite then
    let x := writeExp (fmtF c) (amaxOf vs)
    ⟨(x + 127).toNat, narrowEach c x rs 0 vs⟩
  else ⟨0xFF, vs.map fun v => ⟨0, false, false, !numFinite v⟩⟩

/-- Encoding of a block at a scale chosen beforehand (R103, R110): overflow is marked element by element. -/
def delayedBlock (c : Nat) (x : Int) (rs : Nat → Rnd) (vs : List Num) : BlockRes :=
  if vs.all numFinite then ⟨(x + 127).toNat, narrowEach c x rs 0 vs⟩
  else ⟨0xFF, vs.map fun v => ⟨0, false, false, !numFinite v⟩⟩

/-- R102: the outer exponent that a history of E8M0 entries gives (no entry that is not empty: none). -/
def outerExp (f : FFmt) (hist : List Nat) : Option Int :=
  match hist.filter (· != 0xFF) with
  | [] => none
  | e :: es => some (min (max (((es.foldl max e : Nat) : Int) - 127 + 1 - f.emax) (-127)) 127)

/-- R100: the history entry of a step's amax. -/
def histEntry (a : Num) : Nat :=
  match a with
  | .fin _ m e => if m = 0 ∨ ilog2 m e < -127 then 0 else (min (ilog2 m e + 127) 0xFE).toNat
  | _ => 0

/-- R110: the exponent of a warm-up step. -/
def warmupExp (f : FFmt) (a : Num) : Int :=
  match a with
  | .fin _ m e =>
    if m = 0 then -127
    else
      let x := ilog2 m (e + 1) - f.emax
      let x := if magLt f.maxM f.maxE m (e + 1 - x) then x + 1 else x
      min (max x (-127)) 127
  | _ => -127

/-- Split a list into runs of n (the last may be shorter). -/
def chunksGo {α : Type} (n : Nat) : Nat → List α → List (List α)
  | 0, _ => []
  | k + 1, xs => if xs.isEmpty then [] else xs.take n :: chunksGo n k (xs.drop n)

def chunks {α : Type} (n : Nat) (xs : List α) : List (List α) := chunksGo n xs.length xs

end Sys2Proof.Machine
end

