-- ==== Sys2Proof/Machine/StepTypes.lean ====
section
/-!
DEFINITION. What a context keeps for its steps: step sizes (R304 to R310), parameter groups and matrix layers (R302,
R311 to R320), the undercoat store (R219 to R238), amaxes and Plumb counts of the step in progress (R100, R113).
-/
namespace Sys2Proof.Machine

/-- The step-size table (R305): a group is listed in `cur` or `next` where its valid bit is set. `started` lists groups whose
UPDATE has started in the step in force, `late` says that STEP_SIZE_LATE has been raised in it. -/
structure EtaTab where
  cur : Map Nat
  next : Map Nat
  started : List Nat
  late : Bool
  deriving DecidableEq, Repr

/-- How the refresh job of a matrix layer stands (R316 to R319). A failure keeps the factor (false L) and the reason. -/
inductive JobState where
  | running
  | good
  | failed (right : Bool) (reason damp : Nat)
  deriving DecidableEq, Repr

/-- A matrix layer's refresh: the step whose boundary took the snapshot, and the job's state. -/
structure Refresh where
  step : Nat
  st : JobState
  deriving DecidableEq, Repr

/-- A job in the queue of the solvers (R321): context, entry of its matrix layer table, and whether a factor of the snapshot
holds a non-finite element. -/
structure SolverJob where
  ctx : Nat
  entry : Nat
  badL : Bool
  badR : Bool
  deriving DecidableEq, Repr

/-- What the part took of the coat table header (Table 6.1), as virtual addresses. -/
structure CoatHdr where
  store : Nat
  bytes : Nat
  coats : Nat
  micro : Nat
  dir : Nat
  stream : Nat
  deriving DecidableEq, Repr

/-- A stash entry that is GRANTED or THINNED, as the manager keeps it. -/
structure StashEnt where
  granted : Bool
  off : Nat
  gran : Nat
  base : Nat
  deriving DecidableEq, Repr

/-- The undercoat store of a context: CTX_COAT_BASE as latched at the RUN, the header once checked, entries by index in the
directory, whether a request has been thinned in this step, most granules held in this step, and whether the stream key
has been derived since LOAD_PROGRAM. -/
structure CoatSt where
  base : Nat
  checked : Bool
  hdr : Option CoatHdr
  entries : Map StashEnt
  thinned : Bool
  most : Nat
  keyed : Bool
  deriving DecidableEq, Repr

/-- Plumb's counts of one layer in the step in progress (Table 3.8); `owned` counts the master weights updated. -/
structure PlumbCnt where
  narrowed : Nat
  flushed : Nat
  unchanged : Nat
  zeroTiles : Nat
  overflows : Nat
  nonfin : Nat
  owned : Nat
  deriving DecidableEq, Repr

/-- Numeric state: this step's amax of each delayed-scaled tensor, the exponent of each tensor in warm-up, Plumb's counts and
quiet runs by layer, and the delayed-scaled tensors that enter warm-up at the next boundary because a member of their group lacks
the history (R109). -/
structure NumSt where
  amax : Map Num
  warm : Map Nat
  plumb : Map PlumbCnt
  quiet : Map Nat
  rewarm : List Nat
  deriving DecidableEq, Repr

def EtaTab.reset : EtaTab := ⟨[], [], [], false⟩
def CoatSt.reset : CoatSt := ⟨0, false, none, [], false, 0, false⟩
def PlumbCnt.reset : PlumbCnt := ⟨0, 0, 0, 0, 0, 0, 0⟩
def NumSt.reset : NumSt := ⟨[], [], [], [], []⟩

end Sys2Proof.Machine
end

