-- ==== Sys2Proof/Machine/CtxTypes.lean ====
section
/-!
DEFINITION. The state of one context (12_contexts.md), everything of it but its registers.
-/
namespace Sys2Proof.Machine

/-- A LAU record of the loaded image (Table 4.19). -/
structure LauRec where
  entry : Nat
  part : Nat
  deriving DecidableEq, Repr

/-- An LBUF record of the loaded image (Table 4.19) and where the loader put the buffer: `va` is its virtual base for a VIRT
buffer, its offset in the Hawk of its logical AU for a HAWK buffer. -/
structure LbufRec where
  size : Nat
  space : Nat
  page : Nat
  lau : Nat
  region : Nat
  va : Nat
  deriving DecidableEq, Repr

/-- A TENSOR record of the loaded image (Table 4.19). -/
structure TensorRec where
  lbuf : Nat
  layer : Nat
  fmt : Nat
  block : Nat
  round : Nat
  kind : Nat
  offset : Nat
  size : Nat
  deriving DecidableEq, Repr

/-- What the loader keeps of a program (R122, R173): its declarations, its step-size schedule and where the image lies. -/
structure Program where
  laus : List LauRec
  lbufs : List LbufRec
  tensors : List TensorRec
  stepSrc : Nat
  sched : List Byte
  imageVa : Nat
  imageBytes : Nat
  codeOff : Nat
  codeBytes : Nat
  initFlags : Nat
  deriving DecidableEq, Repr

/-- One context. -/
structure Ctx where
  st : CtxState
  owner : Option Nat
  slot : Option Nat
  cause : Cause
  before : CtxState
  ring : RingSt
  prog : Option Program
  place : Map Nat
  lastPlace : Map Nat
  gen : Nat
  pins : Map Nat
  groups : Map Nat
  stackPins : Map Nat
  flags : BitVec 256
  mbox : List Parked
  saved : Map Au
  saveFrames : List Nat
  pt : Map Pte
  runAt : Nat
  runStart : Nat
  runNs : Nat
  progressAt : Nat
  displacedAt : Nat
  slowAt : Nat               -- when the last slowdown window ended (R520)
  slowRun : Nat              -- RUN_NS then
  slowRaised : Option Nat    -- when CTX_SLOWDOWN was last raised
  runUj : Nat                -- µJ credited to RUN completions (Table 14.10)
  dropped : Nat              -- completions dropped under R450, saturating at 16 bits
  startedAt : Nat
  exitVa : Nat               -- the exit address of the RUN under way (R493)
  hostLost : Bool            -- its rings were disabled by the loss of the port and have not been enabled since (R450)
  inherit : Option Cause     -- it was resumed on a loan of priority, from a pre-emption with this cause (R516)
  eta : EtaTab
  trwGroups : List Byte         -- the parameter-group table as read at the RUN (R302); empty: absent
  mats : List (List Byte)    -- the entries of the matrix layer table as read at the RUN (R311)
  refresh : Map Refresh      -- refresh jobs, by entry of the matrix layer table
  refreshNow : Bool          -- restored: the next boundary starts a refresh whatever its step (R320)
  coat : CoatSt
  num : NumSt
  dust : DustSt
  posted : List Nat          -- entries of the link work ring that are POSTED
  linkWork : Map LinkEntry   -- STARTED entries of the link work ring, by index
  colls : Map Group          -- collective groups, by number
  notices : Map Notices      -- membership notices, by group
  deriving DecidableEq, Repr

/-- A FREE context. -/
def Ctx.reset : Ctx :=
  { st := .free, owner := none, slot := none, cause := .host, before := .free, ring := RingSt.reset, prog := none, place := [],
    lastPlace := [], gen := 0, pins := [], groups := [], stackPins := [], flags := 0, mbox := [], saved := [], saveFrames := [],
    pt := [], runAt := 0, runStart := 0, runNs := 0, progressAt := 0,
    displacedAt := 0, slowAt := 0, slowRun := 0, slowRaised := none, runUj := 0, dropped := 0, startedAt := 0, exitVa := 0, hostLost := false, inherit := none, eta := EtaTab.reset, trwGroups := [], mats := [], refresh := [], refreshNow := false,
    coat := CoatSt.reset, num := NumSt.reset, dust := DustSt.reset, posted := [], linkWork := [], colls := [], notices := [] }

end Sys2Proof.Machine
end

