-- ==== Sys2Proof/Machine/PowerTypes.lean ====
section
/-!
DEFINITION. The state of the power, clock and thermal machinery (14_power_package.md).
-/
namespace Sys2Proof.Machine

/-- A throttle of domain clocks (Table 14.11): the highest clock it allows in MHz, whether it is in force (a sensor has begun it and
none has ended it), and since when, while it is not, the clock has been let rise by 10 MHz per ms. -/
structure Throttle where
  mhz : Nat
  on : Bool
  riseAt : Nat
  deriving DecidableEq, Repr

/-- The service side (Table 14.1, R578, R658 to R661): on or off; the input voltage in mV as its own monitor last read it; cause and
unit of the last host-side reset or switch-off; when the last thermal trip happened; the rack's request for a cap; whether a coolant
warning is in force; thresholds in °C; a leak; the reset hold; the identity as copied at the last firmware ready; its own log, as the
reasons of its actions (1 coolant warning, 2 coolant off, 3 leak, 4 thermistor). -/
structure SvcSt where
  on : Bool
  mv : Nat
  cause : Nat
  unit : Nat
  tripAt : Option Nat
  rackCap : Option Nat
  coolant : Bool
  warn : Nat
  off : Nat
  leak : Bool
  hold : Bool
  identity : List Byte
  log : List Nat
  deriving DecidableEq, Repr

/-- The power manager and what it watches: the voltage cap; domain clocks (MHz) and voltages (mV); the last 100 averages of 1 ms;
whether every AU clock is stretched (R583), whether idle cycles are inserted (R584), AUs stretched by droop (R593); temperatures of
AUs, hub sensors and stacks; throttles of each domain by its AUs' sensors and by the hub sensors, bandwidth limits of stacks in percent (R600), since when any
throttle has been in force; energies in µJ (R595); and when an event of each kind of R616 was last raised. -/
structure PowerSt where
  hostOn : Bool
  vcap : Nat
  mhz : Map Nat
  mv : Map Nat
  watts : List Nat
  stretch : Bool
  idle : Bool
  droop : List Nat
  tAu : Map Nat
  tHub : Map Nat
  tStack : Map Nat
  thrDomain : Map Throttle
  thrHub : Map Throttle
  thrStack : Map Nat
  throttledAt : Option Nat
  uj : Map Nat               -- counters by kind · 256 + unit, as PWR_ENERGY_SEL numbers them
  lastLimit : Option Nat
  lastCut : Option Nat
  lastFloor : Option Nat
  svc : SvcSt
  deriving DecidableEq, Repr

def SvcSt.reset : SvcSt :=
  { on := true, mv := 48000, cause := 0, unit := 0, tripAt := none, rackCap := none, coolant := false, warn := 55, off := 65,
    leak := false, hold := false, identity := [], log := [] }

def PowerSt.reset : PowerSt :=
  { hostOn := true, vcap := 2400, mhz := [], mv := [], watts := [], stretch := false, idle := false, droop := [], tAu := [], tHub := [],
    tStack := [], thrDomain := [], thrHub := [], thrStack := [], throttledAt := none, uj := [], lastLimit := none, lastCut := none,
    lastFloor := none, svc := SvcSt.reset }

end Sys2Proof.Machine
end

