-- ==== Sys2Proof/Machine/RegNames.lean ====
section
/-!
DEFINITION. The names of the registers: each is its offset in BAR0 of a physical function (Tables 16.1 to 16.3).
Registers of which each function has its own copy (the HUB_SYNC registers, HUB_STATUS, AU_HAWK_DBG_SEL, the MSI-X table)
stand above the map, in copy f (`privBase f`).
-/
namespace Sys2Proof.Machine

/-- Where function f's own copies of per-function registers stand (R448). -/
def privBase (f : Nat) : Nat := 0x1000000 * (f + 1)

def HUB_ID : Nat := 0x0
def HUB_FW_VERSION : Nat := 0x4
def HUB_IF_VERSION : Nat := 0x8
def HUB_ADMIN : Nat := 0xC
def HUB_STATUS (f : Nat) : Nat := privBase f + 0x10
def HUB_TIME_LO : Nat := 0x14
def HUB_TIME_HI : Nat := 0x18
def HUB_CTX_FREE : Nat := 0x1C
def HUB_SYNC_ADDR_LO (f : Nat) : Nat := privBase f + 0x100
def HUB_SYNC_ADDR_HI (f : Nat) : Nat := privBase f + 0x104
def HUB_SYNC_SIZE (f : Nat) : Nat := privBase f + 0x108
def HUB_SYNC_REQ (f : Nat) : Nat := privBase f + 0x10C
def PCIE_PORT_STATUS (p : Nat) : Nat := 0x100000 + 0x80000 * p + 0x0
def PCIE_PORT_CTL (p : Nat) : Nat := 0x100000 + 0x80000 * p + 0x4
def PCIE_PORT_FLAGS (p : Nat) : Nat := 0x100000 + 0x80000 * p + 0x8
def PCIE_ERR_CNT (p : Nat) : Nat := 0x100000 + 0x80000 * p + 0xC
def PCIE_BAR4_SEL_LO (p : Nat) : Nat := 0x100000 + 0x80000 * p + 0x10
def PCIE_BAR4_SEL_HI (p : Nat) : Nat := 0x100000 + 0x80000 * p + 0x14
def PCIE_BAR4_FAULT (p : Nat) : Nat := 0x100000 + 0x80000 * p + 0x18
def PCIE_VF_CTL (p : Nat) (i : Nat) : Nat := 0x100000 + 0x80000 * p + 0x40 + 4 * i
def CTX_CMD_BASE_LO (c : Nat) : Nat := 0x200000 + 0x1000 * c + 0x0
def CTX_CMD_BASE_HI (c : Nat) : Nat := 0x200000 + 0x1000 * c + 0x4
def CTX_CPL_BASE_LO (c : Nat) : Nat := 0x200000 + 0x1000 * c + 0x8
def CTX_CPL_BASE_HI (c : Nat) : Nat := 0x200000 + 0x1000 * c + 0xC
def CTX_RING_CTL (c : Nat) : Nat := 0x200000 + 0x1000 * c + 0x10
def CTX_RING_PTRS (c : Nat) : Nat := 0x200000 + 0x1000 * c + 0x14
def CTX_RING_STATUS (c : Nat) : Nat := 0x200000 + 0x1000 * c + 0x18
def CTX_RING_EVT_CNT (c : Nat) : Nat := 0x200000 + 0x1000 * c + 0x1C
def CTX_IRQ_CTL (c : Nat) : Nat := 0x200000 + 0x1000 * c + 0x20
def CTX_RING_HOST (c : Nat) : Nat := 0x200000 + 0x1000 * c + 0x24
def CTX_CTL (c : Nat) : Nat := 0x200000 + 0x1000 * c + 0x100
def CTX_STATE (c : Nat) : Nat := 0x200000 + 0x1000 * c + 0x104
def CTX_SCHED (c : Nat) : Nat := 0x200000 + 0x1000 * c + 0x108
def CTX_PLACE_SEL (c : Nat) : Nat := 0x200000 + 0x1000 * c + 0x10C
def CTX_PLACE_LO (c : Nat) : Nat := 0x200000 + 0x1000 * c + 0x110
def CTX_PLACE_HI (c : Nat) : Nat := 0x200000 + 0x1000 * c + 0x114
def CTX_MBOX (c : Nat) : Nat := 0x200000 + 0x1000 * c + 0x118
def CTX_FAULT_INFO (c : Nat) : Nat := 0x200000 + 0x1000 * c + 0x11C
def CTX_DIAG_LO (c : Nat) : Nat := 0x200000 + 0x1000 * c + 0x120
def CTX_DIAG_HI (c : Nat) : Nat := 0x200000 + 0x1000 * c + 0x124
def CTX_SLOWDOWN (c : Nat) : Nat := 0x200000 + 0x1000 * c + 0x128
def CTX_RUN_NS_LO (c : Nat) : Nat := 0x200000 + 0x1000 * c + 0x12C
def CTX_RUN_NS_HI (c : Nat) : Nat := 0x200000 + 0x1000 * c + 0x130
def CTX_INTF_NS_LO (c : Nat) : Nat := 0x200000 + 0x1000 * c + 0x134
def CTX_INTF_NS_HI (c : Nat) : Nat := 0x200000 + 0x1000 * c + 0x138
def CTX_SCHED_STATUS (c : Nat) : Nat := 0x200000 + 0x1000 * c + 0x13C
def CTX_SCHED_EVT_CNT (c : Nat) : Nat := 0x200000 + 0x1000 * c + 0x140
def CTX_ENERGY_LO (c : Nat) : Nat := 0x200000 + 0x1000 * c + 0xD00
def CTX_ENERGY_HI (c : Nat) : Nat := 0x200000 + 0x1000 * c + 0xD04
def CTX_COAT_BASE_LO (c : Nat) : Nat := 0x200000 + 0x1000 * c + 0xE00
def CTX_COAT_BASE_HI (c : Nat) : Nat := 0x200000 + 0x1000 * c + 0xE04
def CTX_STASH_STATUS (c : Nat) : Nat := 0x200000 + 0x1000 * c + 0xE08
def CTX_STASH_EVT_CNT (c : Nat) : Nat := 0x200000 + 0x1000 * c + 0xE0C
def CTX_STASH_USED (c : Nat) : Nat := 0x200000 + 0x1000 * c + 0xE10
def CTX_STASH_PEAK (c : Nat) : Nat := 0x200000 + 0x1000 * c + 0xE14
def CTX_RNG_SEED_LO (c : Nat) : Nat := 0x200000 + 0x1000 * c + 0xE18
def CTX_RNG_SEED_HI (c : Nat) : Nat := 0x200000 + 0x1000 * c + 0xE1C
def CTX_HAWK_CTL (c : Nat) : Nat := 0x200000 + 0x1000 * c + 0xF00
def CTX_SEM_SEL : Nat := 0x280000
def CTX_SEM_MASK_LO : Nat := 0x280004
def CTX_SEM_MASK_HI : Nat := 0x280008
def CTX_SEM_STATE : Nat := 0x28000C
def CTX_FN_PRIO (i : Nat) : Nat := 0x280010 + 4 * i
def CTX_SLOW_CTL : Nat := 0x280090
def EVT_BASE_LO (f : Nat) : Nat := 0x300000 + 0x100 * f + 0x0
def EVT_BASE_HI (f : Nat) : Nat := 0x300000 + 0x100 * f + 0x4
def EVT_CTL (f : Nat) : Nat := 0x300000 + 0x100 * f + 0x8
def EVT_HEAD (f : Nat) : Nat := 0x300000 + 0x100 * f + 0xC
def EVT_TAIL (f : Nat) : Nat := 0x300000 + 0x100 * f + 0x10
def EVT_LOST (f : Nat) : Nat := 0x300000 + 0x100 * f + 0x14
def PWR_CTL : Nat := 0x400000
def PWR_CAP : Nat := 0x400004
def PWR_CAP_STATUS : Nat := 0x400008
def PWR_INPUT : Nat := 0x40000C
def PWR_INPUT_W : Nat := 0x400010
def PWR_STATUS : Nat := 0x400014
def PWR_EVT_CNT : Nat := 0x400018
def PWR_DOMAIN_SEL : Nat := 0x40001C
def PWR_DOMAIN : Nat := 0x400020
def PWR_TEMP : Nat := 0x400024
def PWR_RESET_CAUSE : Nat := 0x400028
def PWR_DROOP_CTL : Nat := 0x40002C
def PWR_ENERGY_SEL : Nat := 0x400030
def PWR_ENERGY_LO : Nat := 0x400034
def PWR_ENERGY_HI : Nat := 0x400038
def SEC_BOOT_STATUS : Nat := 0x500000
def SEC_LC : Nat := 0x500004
def SEC_FUSE : Nat := 0x500008
def SEC_FW_STATUS : Nat := 0x50000C
def SEC_STATUS : Nat := 0x500010
def SEC_EVT_CNT : Nat := 0x500014
def SEC_TRACE_EN : Nat := 0x500018
def SEC_LC_NONCE (i : Nat) : Nat := 0x500020 + 4 * i
def SEC_LC_REQ_ADDR_LO : Nat := 0x500030
def SEC_LC_REQ_ADDR_HI : Nat := 0x500034
def SEC_LC_REQ : Nat := 0x500038
def SEC_UPD_ADDR_LO : Nat := 0x500040
def SEC_UPD_ADDR_HI : Nat := 0x500044
def SEC_UPD_LEN : Nat := 0x500048
def SEC_UPD_CTL : Nat := 0x50004C
def SEC_LOG_BASE_LO (p : Nat) : Nat := 0x501000 + 0x100 * p + 0x0
def SEC_LOG_BASE_HI (p : Nat) : Nat := 0x501000 + 0x100 * p + 0x4
def SEC_LOG_CTL (p : Nat) : Nat := 0x501000 + 0x100 * p + 0x8
def SEC_LOG_HEAD (p : Nat) : Nat := 0x501000 + 0x100 * p + 0xC
def SEC_LOG_TAIL (p : Nat) : Nat := 0x501000 + 0x100 * p + 0x10
def SEC_LOG_LOST (p : Nat) : Nat := 0x501000 + 0x100 * p + 0x14
def SEC_DIAG_CTL (p : Nat) : Nat := 0x501000 + 0x100 * p + 0x18
def SEC_DIAG_VA_LO (p : Nat) : Nat := 0x501000 + 0x100 * p + 0x1C
def SEC_DIAG_VA_HI (p : Nat) : Nat := 0x501000 + 0x100 * p + 0x20
def SEC_DIAG_PTE_LO (p : Nat) : Nat := 0x501000 + 0x100 * p + 0x24
def SEC_DIAG_PTE_HI (p : Nat) : Nat := 0x501000 + 0x100 * p + 0x28
def TRW_CTL (c : Nat) : Nat := 0x600000 + 0x100 * c + 0x0
def TRW_STATUS (c : Nat) : Nat := 0x600000 + 0x100 * c + 0x4
def TRW_EVT_CNT0 (c : Nat) : Nat := 0x600000 + 0x100 * c + 0x8
def TRW_EVT_CNT1 (c : Nat) : Nat := 0x600000 + 0x100 * c + 0xC
def TRW_GRP_BASE_LO (c : Nat) : Nat := 0x600000 + 0x100 * c + 0x10
def TRW_GRP_BASE_HI (c : Nat) : Nat := 0x600000 + 0x100 * c + 0x14
def TRW_MAT_BASE_LO (c : Nat) : Nat := 0x600000 + 0x100 * c + 0x18
def TRW_MAT_BASE_HI (c : Nat) : Nat := 0x600000 + 0x100 * c + 0x1C
def TRW_WS_BASE_LO (c : Nat) : Nat := 0x600000 + 0x100 * c + 0x20
def TRW_WS_BASE_HI (c : Nat) : Nat := 0x600000 + 0x100 * c + 0x24
def TRW_STEP_LO (c : Nat) : Nat := 0x600000 + 0x100 * c + 0x28
def TRW_STEP_HI (c : Nat) : Nat := 0x600000 + 0x100 * c + 0x2C
def TRW_ETA_SEL (c : Nat) : Nat := 0x600000 + 0x100 * c + 0x30
def TRW_ETA_VAL (c : Nat) : Nat := 0x600000 + 0x100 * c + 0x34
def TRW_ETA_STATE (c : Nat) : Nat := 0x600000 + 0x100 * c + 0x38
def TRW_UPDATES (c : Nat) : Nat := 0x600000 + 0x100 * c + 0x3C
def TRW_SOLVER0 : Nat := 0x608000
def TRW_SOLVER1 : Nat := 0x608004
def TRW_SOLVER_QLEN : Nat := 0x608008
def DST_CTL (c : Nat) : Nat := 0x680000 + 0x100 * c + 0x0
def DST_STATUS (c : Nat) : Nat := 0x680000 + 0x100 * c + 0x4
def DST_EVT_CNT (c : Nat) : Nat := 0x680000 + 0x100 * c + 0x8
def DST_TBL_BASE_LO (c : Nat) : Nat := 0x680000 + 0x100 * c + 0xC
def DST_TBL_BASE_HI (c : Nat) : Nat := 0x680000 + 0x100 * c + 0x10
def DST_T0_LO (c : Nat) : Nat := 0x680000 + 0x100 * c + 0x14
def DST_T0_HI (c : Nat) : Nat := 0x680000 + 0x100 * c + 0x18
def DST_T1_LO (c : Nat) : Nat := 0x680000 + 0x100 * c + 0x1C
def DST_T1_HI (c : Nat) : Nat := 0x680000 + 0x100 * c + 0x20
def DST_SHADOW (c : Nat) : Nat := 0x680000 + 0x100 * c + 0x24
def DST_RATE (c : Nat) : Nat := 0x680000 + 0x100 * c + 0x28
def DST_MTBF (c : Nat) : Nat := 0x680000 + 0x100 * c + 0x2C
def DST_COST (c : Nat) : Nat := 0x680000 + 0x100 * c + 0x30
def DST_INTERVAL (c : Nat) : Nat := 0x680000 + 0x100 * c + 0x34
def DST_EPOCH_LO (c : Nat) : Nat := 0x680000 + 0x100 * c + 0x38
def DST_EPOCH_HI (c : Nat) : Nat := 0x680000 + 0x100 * c + 0x3C
def DST_PROGRESS (c : Nat) : Nat := 0x680000 + 0x100 * c + 0x40
def DST_MEMBER (c : Nat) : Nat := 0x680000 + 0x100 * c + 0x44
def DST_MEPOCH_LO (c : Nat) : Nat := 0x680000 + 0x100 * c + 0x48
def DST_MEPOCH_HI (c : Nat) : Nat := 0x680000 + 0x100 * c + 0x4C
def DST_SHADOW_USED (c : Nat) : Nat := 0x680000 + 0x100 * c + 0x50
def PLB_CTL (c : Nat) : Nat := 0x700000 + 0x100 * c + 0x0
def PLB_THRESH (c : Nat) : Nat := 0x700000 + 0x100 * c + 0x4
def PLB_STATUS (c : Nat) : Nat := 0x700000 + 0x100 * c + 0x8
def PLB_EVT_CNT0 (c : Nat) : Nat := 0x700000 + 0x100 * c + 0xC
def PLB_EVT_CNT1 (c : Nat) : Nat := 0x700000 + 0x100 * c + 0x10
def PLB_EVT_CNT2 (c : Nat) : Nat := 0x700000 + 0x100 * c + 0x14
def PLB_REC_BASE_LO (c : Nat) : Nat := 0x700000 + 0x100 * c + 0x18
def PLB_REC_BASE_HI (c : Nat) : Nat := 0x700000 + 0x100 * c + 0x1C
def PLB_LAYERS (c : Nat) : Nat := 0x700000 + 0x100 * c + 0x20
def PLB_SCALE_BASE_LO (c : Nat) : Nat := 0x700000 + 0x100 * c + 0x24
def PLB_SCALE_BASE_HI (c : Nat) : Nat := 0x700000 + 0x100 * c + 0x28
def PLB_TENSORS (c : Nat) : Nat := 0x700000 + 0x100 * c + 0x2C
def PLB_STEP_LO (c : Nat) : Nat := 0x700000 + 0x100 * c + 0x30
def PLB_STEP_HI (c : Nat) : Nat := 0x700000 + 0x100 * c + 0x34
def PLB_WARMUP (c : Nat) : Nat := 0x700000 + 0x100 * c + 0x38
def AU_ID (n : Nat) : Nat := 0x800000 + 0x1000 * n + 0x0
def AU_ARRAY_GEOM (n : Nat) : Nat := 0x800000 + 0x1000 * n + 0x100
def AU_ARRAY_STATUS (n : Nat) : Nat := 0x800000 + 0x1000 * n + 0x104
def AU_ACC_STATUS (n : Nat) : Nat := 0x800000 + 0x1000 * n + 0x108
def AU_ARRAY_EVT_CNT0 (n : Nat) : Nat := 0x800000 + 0x1000 * n + 0x10C
def AU_ARRAY_EVT_CNT1 (n : Nat) : Nat := 0x800000 + 0x1000 * n + 0x110
def AU_ARRAY_ROWS_LO (n : Nat) : Nat := 0x800000 + 0x1000 * n + 0x114
def AU_ARRAY_ROWS_HI (n : Nat) : Nat := 0x800000 + 0x1000 * n + 0x118
def AU_ARRAY_WSTALL_LO (n : Nat) : Nat := 0x800000 + 0x1000 * n + 0x11C
def AU_ARRAY_WSTALL_HI (n : Nat) : Nat := 0x800000 + 0x1000 * n + 0x120
def AU_FIFO_LEVEL (n : Nat) : Nat := 0x800000 + 0x1000 * n + 0x200
def AU_QLVL (n : Nat) (i : Nat) : Nat := 0x800000 + 0x1000 * n + 0x204 + 4 * i
def AU_ISSUE_STALL_LO (n : Nat) : Nat := 0x800000 + 0x1000 * n + 0x230
def AU_ISSUE_STALL_HI (n : Nat) : Nat := 0x800000 + 0x1000 * n + 0x234
def AU_RA_DROP (n : Nat) : Nat := 0x800000 + 0x1000 * n + 0x238
def AU_PROG_STATUS (n : Nat) : Nat := 0x800000 + 0x1000 * n + 0x23C
def AU_STN_ACTIVE (n : Nat) : Nat := 0x800000 + 0x1000 * n + 0x240
def AU_PROG_EVT_CNT (n : Nat) : Nat := 0x800000 + 0x1000 * n + 0x244
def AU_HAWK_SIZE (n : Nat) : Nat := 0x800000 + 0x1000 * n + 0x300
def AU_HAWK_PART (n : Nat) : Nat := 0x800000 + 0x1000 * n + 0x304
def AU_HAWK_STATUS (n : Nat) : Nat := 0x800000 + 0x1000 * n + 0x308
def AU_HAWK_EVT_CNT (n : Nat) : Nat := 0x800000 + 0x1000 * n + 0x30C
def AU_HAWK_HOT (n : Nat) : Nat := 0x800000 + 0x1000 * n + 0x310
def AU_HAWK_TAGS (n : Nat) : Nat := 0x800000 + 0x1000 * n + 0x314
def AU_HAWK_TWAIT_LO (n : Nat) : Nat := 0x800000 + 0x1000 * n + 0x318
def AU_HAWK_TWAIT_HI (n : Nat) : Nat := 0x800000 + 0x1000 * n + 0x31C
def AU_STG_HELD (n : Nat) : Nat := 0x800000 + 0x1000 * n + 0x320
def AU_STG_POOL (n : Nat) : Nat := 0x800000 + 0x1000 * n + 0x324
def AU_HAWK_DBG_SEL (f n : Nat) : Nat := privBase f + 0x800000 + 0x1000 * n + 0x328
def AU_HAWK_DBG_TAG (n : Nat) : Nat := 0x800000 + 0x1000 * n + 0x32C
def AU_HAWK_ECC (n : Nat) : Nat := 0x800000 + 0x1000 * n + 0x330
def AU_HAWK_DBG_DATA (n : Nat) (i : Nat) : Nat := 0x800000 + 0x1000 * n + 0x340 + 4 * i
def AU_SCR_GEOM (n : Nat) : Nat := 0x800000 + 0x1000 * n + 0x400
def AU_SCR_STATUS (n : Nat) : Nat := 0x800000 + 0x1000 * n + 0x404
def AU_SCR_EVT_CNT (n : Nat) : Nat := 0x800000 + 0x1000 * n + 0x408
def AU_SCR_ELEMS_LO (n : Nat) : Nat := 0x800000 + 0x1000 * n + 0x40C
def AU_SCR_ELEMS_HI (n : Nat) : Nat := 0x800000 + 0x1000 * n + 0x410
def AU_SCR_STALL_LO (n : Nat) : Nat := 0x800000 + 0x1000 * n + 0x414
def AU_SCR_STALL_HI (n : Nat) : Nat := 0x800000 + 0x1000 * n + 0x418
def AU_PWR_STATUS (n : Nat) : Nat := 0x800000 + 0x1000 * n + 0x500
def AU_DROOP_CNT (n : Nat) : Nat := 0x800000 + 0x1000 * n + 0x504
def AU_DROOP_CYC_LO (n : Nat) : Nat := 0x800000 + 0x1000 * n + 0x508
def AU_DROOP_CYC_HI (n : Nat) : Nat := 0x800000 + 0x1000 * n + 0x50C
def LNK_PORT_CTL (p : Nat) : Nat := 0xC00000 + 0x4000 * p + 0x0
def LNK_PORT_STATUS (p : Nat) : Nat := 0xC00000 + 0x4000 * p + 0x4
def LNK_PARTNER (p : Nat) : Nat := 0xC00000 + 0x4000 * p + 0x8
def LNK_PORT_FLAGS (p : Nat) : Nat := 0xC00000 + 0x4000 * p + 0xC
def LNK_FEC_CORR (p : Nat) : Nat := 0xC00000 + 0x4000 * p + 0x10
def LNK_FEC_UNCORR (p : Nat) : Nat := 0xC00000 + 0x4000 * p + 0x14
def LNK_REPLAY_CNT (p : Nat) : Nat := 0xC00000 + 0x4000 * p + 0x18
def LNK_TXN (p : Nat) : Nat := 0xC00000 + 0x4000 * p + 0x1C
def LNK_RXBUF (p : Nat) : Nat := 0xC00000 + 0x4000 * p + 0x20
def LNK_PRBS_CTL (p : Nat) : Nat := 0xC00000 + 0x4000 * p + 0x24
def LNK_PRBS_ERR (p : Nat) (i : Nat) : Nat := 0xC00000 + 0x4000 * p + 0x28 + 4 * i
def LNK_PART_ID : Nat := 0xC40000
def LNK_TIMEOUT : Nat := 0xC40004
def LNK_TIME_CTL : Nat := 0xC40008
def LNK_TIME_STATUS : Nat := 0xC4000C
def LNK_RT_SEL : Nat := 0xC40010
def LNK_RT_DATA : Nat := 0xC40014
def LNK_STATUS : Nat := 0xC40018
def LNK_EVT_CNT : Nat := 0xC4001C
def LNK_WINDOWS : Nat := 0xC40020
def LNK_WR_BASE_LO (c : Nat) : Nat := 0xC50000 + 0x100 * c + 0x0
def LNK_WR_BASE_HI (c : Nat) : Nat := 0xC50000 + 0x100 * c + 0x4
def LNK_WR_CTL (c : Nat) : Nat := 0xC50000 + 0x100 * c + 0x8
def LNK_CTX_TXN (c : Nat) : Nat := 0xC50000 + 0x100 * c + 0xC
def MEM_GEOM : Nat := 0xE00000
def MEM_STATUS : Nat := 0xE00004
def MEM_EVT_CNT0 : Nat := 0xE00008
def MEM_EVT_CNT1 : Nat := 0xE0000C
def MEM_TAGS : Nat := 0xE00010
def MEM_PC_SEL : Nat := 0xE00014
def MEM_PC_LVL : Nat := 0xE00018
def MEM_HOT_LAST : Nat := 0xE0001C
def MEM_ROLLER_CTL : Nat := 0xE00020
def MEM_ROLLER_STATUS : Nat := 0xE00024
def MEM_ECC (i : Nat) : Nat := 0xE00040 + 4 * i
def MEM_PAGING : Nat := 0xE00070
def MEM_PT_ROOT_LO (c : Nat) : Nat := 0xE10000 + 0x100 * c + 0x0
def MEM_PT_ROOT_HI (c : Nat) : Nat := 0xE10000 + 0x100 * c + 0x4
def MEM_FAULT_VA_LO (c : Nat) : Nat := 0xE10000 + 0x100 * c + 0x8
def MEM_FAULT_VA_HI (c : Nat) : Nat := 0xE10000 + 0x100 * c + 0xC
def MEM_FAULT_INFO (c : Nat) : Nat := 0xE10000 + 0x100 * c + 0x10
def MEM_PAGED (c : Nat) : Nat := 0xE10000 + 0x100 * c + 0x14
def MEM_FRAMES (c : Nat) : Nat := 0xE10000 + 0x100 * c + 0x18

end Sys2Proof.Machine
end

