-- ==== Sys2Proof/Machine/RegTypes.lean ====
section
/-!
DEFINITION. What the register tables are made of: the access types of Table 0.4 and a field of a register.
-/
namespace Sys2Proof.Machine

/-- The access types of Table 0.4 (R9). -/
inductive Access where
  | ro | rw | w1c | w1s | wo | rc
  deriving DecidableEq, Repr

/-- One field of a register: bits [hi:lo], its access type and its Reset value (R676). -/
structure FieldSpec where
  hi : Nat
  lo : Nat
  acc : Access
  rst : Nat
  deriving DecidableEq, Repr

end Sys2Proof.Machine
end

