-- ==== Sys2Proof/Machine/RegTables.lean ====
section
/-!
DEFINITION. The register tables of the spec, one list per block of Table 16.1: offset within the block, and
the fields with their access types (Table 0.4) and Reset values. Reserved bits have no entry (R10, R667).
-/
namespace Sys2Proof.Machine

open Access

/-- The HUB block (Tables 11.13, 16.4, 16.5). -/
def hubRegs : List (Nat × List FieldSpec) := [
  (0x000, [⟨31, 16, ro, 0x1F2C⟩, ⟨15, 0, ro, 0x4802⟩]), -- HUB_ID: VENDOR DEVICE
  (0x004, [⟨31, 24, ro, 0x0⟩, ⟨23, 16, ro, 0x0⟩, ⟨15, 0, ro, 0x0⟩]), -- HUB_FW_VERSION: MAJOR MINOR BUILD
  (0x008, [⟨31, 16, ro, 0x0⟩, ⟨15, 0, ro, 0x0⟩]), -- HUB_IF_VERSION: MAJOR MINOR
  (0x00C, [⟨8, 8, ro, 0x0⟩, ⟨0, 0, rw, 0x0⟩]), -- HUB_ADMIN: SELF PORT
  (0x010, [⟨9, 9, w1c, 0x0⟩, ⟨8, 8, ro, 0x0⟩, ⟨7, 7, ro, 0x0⟩, ⟨6, 6, ro, 0x0⟩, ⟨5, 5, ro, 0x0⟩, ⟨4, 4, ro, 0x0⟩, ⟨3, 3, ro, 0x0⟩, ⟨2, 2, ro, 0x0⟩, ⟨1, 1, ro, 0x0⟩]), -- HUB_STATUS: BAD_ACCESS FW_READY AU MEM LNK PWR SEC CTX PORT
  (0x014, [⟨31, 0, ro, 0x0⟩]), -- HUB_TIME_LO: TIME
  (0x018, [⟨31, 0, ro, 0x0⟩]), -- HUB_TIME_HI: TIME
  (0x01C, [⟨6, 0, ro, 0x40⟩]) -- HUB_CTX_FREE: FREE
  ]

/-- The HUB_SYNC block (Table 11.14, one copy per function). -/
def syncRegs : List (Nat × List FieldSpec) := [
  (0x100, [⟨31, 6, rw, 0x0⟩]), -- HUB_SYNC_ADDR_LO: ADDR_LO
  (0x104, [⟨31, 0, rw, 0x0⟩]), -- HUB_SYNC_ADDR_HI: ADDR_HI
  (0x108, [⟨31, 0, rw, 0x0⟩]), -- HUB_SYNC_SIZE: SIZE
  (0x10C, [⟨15, 8, ro, 0x0⟩, ⟨2, 2, w1c, 0x0⟩, ⟨1, 1, ro, 0x0⟩, ⟨0, 0, wo, 0x0⟩]) -- HUB_SYNC_REQ: STATUS DONE BUSY GO
  ]

/-- The PCIE block (Tables 11.15 to 11.17). -/
def pcieRegs : List (Nat × List FieldSpec) := [
  (0x000, [⟨23, 20, ro, 0x0⟩, ⟨15, 15, ro, 0x0⟩, ⟨14, 14, ro, 0x0⟩, ⟨13, 11, ro, 0x0⟩, ⟨10, 6, ro, 0x0⟩, ⟨1, 1, ro, 0x0⟩, ⟨0, 0, ro, 0x0⟩]), -- PCIE_PORT_STATUS: NUM_VFS DL_UP FLIT SPEED WIDTH IDE_SECURE ADMIN
  (0x004, [⟨31, 16, rw, 0x1E⟩]), -- PCIE_PORT_CTL: HOST_GRACE
  (0x008, [⟨3, 3, w1c, 0x0⟩, ⟨2, 2, w1c, 0x0⟩, ⟨1, 1, w1c, 0x0⟩, ⟨0, 0, w1c, 0x0⟩]), -- PCIE_PORT_FLAGS: DENIED BAR4_FAULT GRACE_EXPIRED LOST
  (0x00C, [⟨31, 16, rc, 0x0⟩, ⟨15, 8, rc, 0x0⟩, ⟨7, 0, rc, 0x0⟩]), -- PCIE_ERR_CNT: CORR NONFATAL FATAL
  (0x010, [⟨31, 30, rw, 0x0⟩, ⟨7, 7, rw, 0x0⟩, ⟨5, 0, rw, 0x0⟩]), -- PCIE_BAR4_SEL_LO: VA_LO EN CTX
  (0x014, [⟨19, 0, rw, 0x0⟩]), -- PCIE_BAR4_SEL_HI: VA_HI
  (0x018, [⟨31, 0, rc, 0x0⟩]), -- PCIE_BAR4_FAULT: FAULTS
  (0x044, [⟨4, 0, rw, 0x4⟩]), -- PCIE_VF_CTLn: MAX_CTX
  (0x048, [⟨4, 0, rw, 0x4⟩]), -- PCIE_VF_CTLn: MAX_CTX
  (0x04C, [⟨4, 0, rw, 0x4⟩]), -- PCIE_VF_CTLn: MAX_CTX
  (0x050, [⟨4, 0, rw, 0x4⟩]), -- PCIE_VF_CTLn: MAX_CTX
  (0x054, [⟨4, 0, rw, 0x4⟩]), -- PCIE_VF_CTLn: MAX_CTX
  (0x058, [⟨4, 0, rw, 0x4⟩]), -- PCIE_VF_CTLn: MAX_CTX
  (0x05C, [⟨4, 0, rw, 0x4⟩]), -- PCIE_VF_CTLn: MAX_CTX
  (0x060, [⟨4, 0, rw, 0x4⟩]), -- PCIE_VF_CTLn: MAX_CTX
  (0x064, [⟨4, 0, rw, 0x4⟩]), -- PCIE_VF_CTLn: MAX_CTX
  (0x068, [⟨4, 0, rw, 0x4⟩]), -- PCIE_VF_CTLn: MAX_CTX
  (0x06C, [⟨4, 0, rw, 0x4⟩]), -- PCIE_VF_CTLn: MAX_CTX
  (0x070, [⟨4, 0, rw, 0x4⟩]), -- PCIE_VF_CTLn: MAX_CTX
  (0x074, [⟨4, 0, rw, 0x4⟩]), -- PCIE_VF_CTLn: MAX_CTX
  (0x078, [⟨4, 0, rw, 0x4⟩]), -- PCIE_VF_CTLn: MAX_CTX
  (0x07C, [⟨4, 0, rw, 0x4⟩]) -- PCIE_VF_CTLn: MAX_CTX
  ]

/-- The CTX block (Tables 11.18, 11.19, 12.9 to 12.11, 6.9 to 6.12, 5.4, 14.21). -/
def ctxRegs : List (Nat × List FieldSpec) := [
  (0x000, [⟨31, 12, rw, 0x0⟩]), -- CTX_CMD_BASE_LO: ADDR_LO
  (0x004, [⟨31, 0, rw, 0x0⟩]), -- CTX_CMD_BASE_HI: ADDR_HI
  (0x008, [⟨31, 12, rw, 0x0⟩]), -- CTX_CPL_BASE_LO: ADDR_LO
  (0x00C, [⟨31, 0, rw, 0x0⟩]), -- CTX_CPL_BASE_HI: ADDR_HI
  (0x010, [⟨31, 31, rw, 0x0⟩, ⟨11, 8, rw, 0x0⟩, ⟨3, 0, rw, 0x0⟩]), -- CTX_RING_CTL: EN CPL_SIZE CMD_SIZE
  (0x014, [⟨31, 16, ro, 0x0⟩, ⟨15, 0, ro, 0x0⟩]), -- CTX_RING_PTRS: CPL_TAIL CMD_HEAD
  (0x018, [⟨31, 16, ro, 0x0⟩, ⟨3, 3, w1c, 0x0⟩, ⟨2, 2, w1c, 0x0⟩, ⟨1, 1, w1c, 0x0⟩, ⟨0, 0, w1c, 0x0⟩]), -- CTX_RING_STATUS: OUTSTANDING LOST DROPPED BAD_HEAD BAD_TAIL
  (0x01C, [⟨31, 16, rc, 0x0⟩, ⟨15, 8, rc, 0x0⟩, ⟨7, 0, rc, 0x0⟩]), -- CTX_RING_EVT_CNT: DROPPED_CNT BAD_HEAD_CNT BAD_TAIL_CNT
  (0x020, [⟨23, 8, rw, 0x0⟩, ⟨7, 0, rw, 0x1⟩]), -- CTX_IRQ_CTL: DELAY_US COUNT
  (0x024, [⟨31, 16, ro, 0x0⟩, ⟨15, 0, ro, 0x0⟩]), -- CTX_RING_HOST: CPL_HEAD CMD_TAIL
  (0x100, [⟨31, 31, wo, 0x0⟩, ⟨30, 30, wo, 0x0⟩]), -- CTX_CTL: CREATE DESTROY
  (0x104, [⟨31, 24, ro, 0x0⟩, ⟨23, 16, ro, 0xFF⟩, ⟨15, 13, ro, 0x0⟩, ⟨12, 12, ro, 0x0⟩, ⟨11, 11, ro, 0x0⟩, ⟨10, 10, ro, 0x0⟩, ⟨9, 8, ro, 0x0⟩, ⟨3, 0, ro, 0x0⟩]), -- CTX_STATE: LAUS OWNER EPRIO LENT CREATE_FAIL RUN_ACTIVE CAUSE STATE
  (0x108, [⟨20, 16, rw, 0x14⟩, ⟨2, 0, rw, 0x0⟩]), -- CTX_SCHED: DL_EXP PRIO
  (0x10C, [⟨31, 28, rw, 0x0⟩, ⟨11, 0, rw, 0x0⟩]), -- CTX_PLACE_SEL: KIND INDEX
  (0x110, [⟨31, 0, ro, 0x0⟩]), -- CTX_PLACE_LO: PLACE
  (0x114, [⟨31, 0, ro, 0x0⟩]), -- CTX_PLACE_HI: PLACE
  (0x118, [⟨26, 16, ro, 0x0⟩, ⟨10, 0, ro, 0x0⟩]), -- CTX_MBOX: PEAK USED
  (0x11C, [⟨31, 16, ro, 0x0⟩, ⟨15, 8, ro, 0x0⟩, ⟨7, 0, ro, 0x0⟩]), -- CTX_FAULT_INFO: CODE AU COUNT
  (0x120, [⟨31, 6, rw, 0x0⟩, ⟨0, 0, rw, 0x0⟩]), -- CTX_DIAG_LO: ADDR_LO EN
  (0x124, [⟨31, 0, rw, 0x0⟩]), -- CTX_DIAG_HI: ADDR_HI
  (0x128, [⟨31, 16, rc, 0x100⟩, ⟨15, 0, ro, 0x100⟩]), -- CTX_SLOWDOWN: PEAK LAST
  (0x12C, [⟨31, 0, ro, 0x0⟩]), -- CTX_RUN_NS_LO: RUN_NS
  (0x130, [⟨31, 0, ro, 0x0⟩]), -- CTX_RUN_NS_HI: RUN_NS
  (0x134, [⟨31, 0, ro, 0x0⟩]), -- CTX_INTF_NS_LO: INTF_NS
  (0x138, [⟨31, 0, ro, 0x0⟩]), -- CTX_INTF_NS_HI: INTF_NS
  (0x13C, [⟨4, 4, w1c, 0x0⟩, ⟨3, 3, w1c, 0x0⟩, ⟨2, 2, w1c, 0x0⟩, ⟨1, 1, w1c, 0x0⟩, ⟨0, 0, w1c, 0x0⟩]), -- CTX_SCHED_STATUS: SLOW MBOX_FULL INHERIT DEADLOCK FAULT
  (0x140, [⟨31, 24, rc, 0x0⟩, ⟨23, 16, rc, 0x0⟩, ⟨15, 8, rc, 0x0⟩, ⟨7, 0, rc, 0x0⟩]), -- CTX_SCHED_EVT_CNT: DEADLOCK_CNT INHERIT_CNT MBOX_CNT PREEMPT_CNT
  (0xD00, [⟨31, 0, ro, 0x0⟩]), -- CTX_ENERGY_LO: UJ
  (0xD04, [⟨31, 0, ro, 0x0⟩]), -- CTX_ENERGY_HI: UJ
  (0xE00, [⟨31, 6, rw, 0x0⟩]), -- CTX_COAT_BASE_LO: OFFSET_LO
  (0xE04, [⟨31, 20, rw, 0x0⟩, ⟨19, 0, rw, 0x0⟩]), -- CTX_COAT_BASE_HI: LBUF OFFSET_HI
  (0xE08, [⟨2, 2, w1c, 0x0⟩, ⟨1, 1, w1c, 0x0⟩, ⟨0, 0, w1c, 0x0⟩]), -- CTX_STASH_STATUS: REDERIVED PROTOCOL THINNED
  (0xE0C, [⟨31, 16, rc, 0x0⟩, ⟨15, 8, rc, 0x0⟩, ⟨7, 0, rc, 0x0⟩]), -- CTX_STASH_EVT_CNT: THIN_CNT PROTOCOL_CNT REDERIVE_CNT
  (0xE10, [⟨24, 0, ro, 0x0⟩]), -- CTX_STASH_USED: GRANULES
  (0xE14, [⟨24, 0, ro, 0x0⟩]), -- CTX_STASH_PEAK: GRANULES
  (0xE18, [⟨31, 0, rw, 0x0⟩]), -- CTX_RNG_SEED_LO: SEED
  (0xE1C, [⟨31, 0, rw, 0x0⟩]), -- CTX_RNG_SEED_HI: SEED
  (0xF00, [⟨4, 0, rw, 0x16⟩]) -- CTX_HAWK_CTL: SLOT_WAIT_EXP
  ]

/-- The scheduler block (Table 12.12). -/
def schedRegs : List (Nat × List FieldSpec) := [
  (0x000, [⟨7, 0, rw, 0x0⟩]), -- CTX_SEM_SEL: SEM
  (0x004, [⟨31, 0, rw, 0x0⟩]), -- CTX_SEM_MASK_LO: MASK
  (0x008, [⟨31, 0, rw, 0x0⟩]), -- CTX_SEM_MASK_HI: MASK
  (0x00C, [⟨31, 31, ro, 0x0⟩, ⟨29, 24, ro, 0x0⟩, ⟨22, 16, ro, 0x0⟩]), -- CTX_SEM_STATE: HELD HOLDER WAITERS
  (0x010, [⟨2, 0, rw, 0x3⟩]), -- CTX_FN_PRIOf: MAXPRIO
  (0x014, [⟨2, 0, rw, 0x3⟩]), -- CTX_FN_PRIOf: MAXPRIO
  (0x018, [⟨2, 0, rw, 0x3⟩]), -- CTX_FN_PRIOf: MAXPRIO
  (0x01C, [⟨2, 0, rw, 0x3⟩]), -- CTX_FN_PRIOf: MAXPRIO
  (0x020, [⟨2, 0, rw, 0x3⟩]), -- CTX_FN_PRIOf: MAXPRIO
  (0x024, [⟨2, 0, rw, 0x3⟩]), -- CTX_FN_PRIOf: MAXPRIO
  (0x028, [⟨2, 0, rw, 0x3⟩]), -- CTX_FN_PRIOf: MAXPRIO
  (0x02C, [⟨2, 0, rw, 0x3⟩]), -- CTX_FN_PRIOf: MAXPRIO
  (0x030, [⟨2, 0, rw, 0x3⟩]), -- CTX_FN_PRIOf: MAXPRIO
  (0x034, [⟨2, 0, rw, 0x3⟩]), -- CTX_FN_PRIOf: MAXPRIO
  (0x038, [⟨2, 0, rw, 0x3⟩]), -- CTX_FN_PRIOf: MAXPRIO
  (0x03C, [⟨2, 0, rw, 0x3⟩]), -- CTX_FN_PRIOf: MAXPRIO
  (0x040, [⟨2, 0, rw, 0x3⟩]), -- CTX_FN_PRIOf: MAXPRIO
  (0x044, [⟨2, 0, rw, 0x3⟩]), -- CTX_FN_PRIOf: MAXPRIO
  (0x048, [⟨2, 0, rw, 0x3⟩]), -- CTX_FN_PRIOf: MAXPRIO
  (0x04C, [⟨2, 0, rw, 0x3⟩]), -- CTX_FN_PRIOf: MAXPRIO
  (0x050, [⟨2, 0, rw, 0x3⟩]), -- CTX_FN_PRIOf: MAXPRIO
  (0x054, [⟨2, 0, rw, 0x3⟩]), -- CTX_FN_PRIOf: MAXPRIO
  (0x058, [⟨2, 0, rw, 0x3⟩]), -- CTX_FN_PRIOf: MAXPRIO
  (0x05C, [⟨2, 0, rw, 0x3⟩]), -- CTX_FN_PRIOf: MAXPRIO
  (0x060, [⟨2, 0, rw, 0x3⟩]), -- CTX_FN_PRIOf: MAXPRIO
  (0x064, [⟨2, 0, rw, 0x3⟩]), -- CTX_FN_PRIOf: MAXPRIO
  (0x068, [⟨2, 0, rw, 0x3⟩]), -- CTX_FN_PRIOf: MAXPRIO
  (0x06C, [⟨2, 0, rw, 0x3⟩]), -- CTX_FN_PRIOf: MAXPRIO
  (0x070, [⟨2, 0, rw, 0x3⟩]), -- CTX_FN_PRIOf: MAXPRIO
  (0x074, [⟨2, 0, rw, 0x3⟩]), -- CTX_FN_PRIOf: MAXPRIO
  (0x078, [⟨2, 0, rw, 0x3⟩]), -- CTX_FN_PRIOf: MAXPRIO
  (0x07C, [⟨2, 0, rw, 0x3⟩]), -- CTX_FN_PRIOf: MAXPRIO
  (0x080, [⟨2, 0, rw, 0x3⟩]), -- CTX_FN_PRIOf: MAXPRIO
  (0x084, [⟨2, 0, rw, 0x3⟩]), -- CTX_FN_PRIOf: MAXPRIO
  (0x088, [⟨2, 0, rw, 0x3⟩]), -- CTX_FN_PRIOf: MAXPRIO
  (0x08C, [⟨2, 0, rw, 0x3⟩]), -- CTX_FN_PRIOf: MAXPRIO
  (0x090, [⟨31, 16, rw, 0x180⟩]) -- CTX_SLOW_CTL: THRESH
  ]

/-- The EVT block (Table 11.20). -/
def evtRegs : List (Nat × List FieldSpec) := [
  (0x000, [⟨31, 12, rw, 0x0⟩]), -- EVT_BASE_LO: ADDR_LO
  (0x004, [⟨31, 0, rw, 0x0⟩]), -- EVT_BASE_HI: ADDR_HI
  (0x008, [⟨31, 31, rw, 0x0⟩, ⟨3, 0, rw, 0x0⟩]), -- EVT_CTL: EN SIZE
  (0x00C, [⟨15, 0, rw, 0x0⟩]), -- EVT_HEAD: HEAD
  (0x010, [⟨15, 0, ro, 0x0⟩]), -- EVT_TAIL: TAIL
  (0x014, [⟨31, 0, rc, 0x0⟩]) -- EVT_LOST: LOST
  ]

/-- The PWR block (Tables 14.19 to 14.21). -/
def pwrRegs : List (Nat × List FieldSpec) := [
  (0x000, [⟨1, 0, rw, 0x0⟩]), -- PWR_CTL: MODE
  (0x004, [⟨11, 0, rw, 0x960⟩]), -- PWR_CAP: HOST_CAP_W
  (0x008, [⟨31, 30, ro, 0x0⟩, ⟨27, 16, ro, 0x960⟩, ⟨11, 0, ro, 0x960⟩]), -- PWR_CAP_STATUS: LIMIT SVC_CAP_W EFF_CAP_W
  (0x00C, [⟨31, 16, ro, 0x0⟩, ⟨15, 0, ro, 0x0⟩]), -- PWR_INPUT: IIN VIN
  (0x010, [⟨31, 16, ro, 0x0⟩, ⟨15, 0, ro, 0x0⟩]), -- PWR_INPUT_W: AVG100_W AVG1_W
  (0x014, [⟨31, 31, ro, 0x0⟩, ⟨6, 6, w1c, 0x0⟩, ⟨5, 5, w1c, 0x0⟩, ⟨4, 4, w1c, 0x0⟩, ⟨3, 3, w1c, 0x0⟩, ⟨2, 2, w1c, 0x0⟩, ⟨1, 1, w1c, 0x0⟩, ⟨0, 0, w1c, 0x0⟩]), -- PWR_STATUS: THROTTLING CAP_FLOOR OV_WARN DERATED EXCURSION_CUT CURRENT_LIMIT THROTTLE_HBM THROTTLE_DIE
  (0x018, [⟨31, 24, rc, 0x0⟩, ⟨23, 16, rc, 0x0⟩, ⟨15, 8, rc, 0x0⟩, ⟨7, 0, rc, 0x0⟩]), -- PWR_EVT_CNT: THROTTLE_CNT ILIMIT_CNT CUT_CNT FLOOR_CNT
  (0x01C, [⟨4, 0, rw, 0x0⟩]), -- PWR_DOMAIN_SEL: DOMAIN
  (0x020, [⟨25, 16, ro, 0x0⟩, ⟨10, 0, ro, 0x0⟩]), -- PWR_DOMAIN: MV MHZ
  (0x024, [⟨31, 24, ro, 0x0⟩, ⟨23, 16, ro, 0x0⟩, ⟨15, 8, ro, 0x0⟩, ⟨7, 0, ro, 0x0⟩]), -- PWR_TEMP: HBM_MAX HUB_MAX AU_MAX AU_HOT
  (0x028, [⟨15, 8, ro, 0x0⟩, ⟨3, 0, ro, 0x0⟩]), -- PWR_RESET_CAUSE: UNIT CAUSE
  (0x02C, [⟨2, 0, rw, 0x3⟩]), -- PWR_DROOP_CTL: THRESH
  (0x030, [⟨10, 8, rw, 0x0⟩, ⟨7, 0, rw, 0x0⟩]), -- PWR_ENERGY_SEL: KIND INDEX
  (0x034, [⟨31, 0, ro, 0x0⟩]), -- PWR_ENERGY_LO: UJ
  (0x038, [⟨31, 0, ro, 0x0⟩]) -- PWR_ENERGY_HI: UJ
  ]

/-- The SEC block (Tables 15.18, 15.19). -/
def secRegs : List (Nat × List FieldSpec) := [
  (0x000, [⟨27, 24, ro, 0x0⟩, ⟨19, 16, ro, 0x0⟩, ⟨9, 9, ro, 0x0⟩, ⟨8, 8, ro, 0x0⟩, ⟨1, 1, ro, 0x0⟩, ⟨0, 0, ro, 0x0⟩]), -- SEC_BOOT_STATUS: STAGE SKIP_REASON TRIAL SLOT B_FAILED A_FAILED
  (0x004, [⟨16, 16, ro, 0x0⟩, ⟨11, 8, ro, 0x0⟩, ⟨7, 0, ro, 0x0⟩]), -- SEC_LC: OWNER DEBUG_MASK STATE
  (0x008, [⟨29, 29, ro, 0x0⟩, ⟨28, 24, ro, 0x0⟩, ⟨23, 20, ro, 0x0⟩, ⟨6, 0, ro, 0x0⟩]), -- SEC_FUSE: GRADE LC_COUNT REVOKED ROLLBACK
  (0x00C, [⟨31, 30, ro, 0x0⟩, ⟨8, 0, ro, 0x0⟩]), -- SEC_FW_STATUS: STATE UP
  (0x010, [⟨5, 5, w1c, 0x0⟩, ⟨4, 4, w1c, 0x0⟩, ⟨3, 3, w1c, 0x0⟩, ⟨2, 2, w1c, 0x0⟩, ⟨1, 1, w1c, 0x0⟩, ⟨0, 0, w1c, 0x0⟩]), -- SEC_STATUS: REFUSED LOG_LOST COMMITTED STAGED FALLBACK RESTART
  (0x014, [⟨31, 16, rc, 0x0⟩, ⟨15, 8, rc, 0x0⟩, ⟨7, 0, rc, 0x0⟩]), -- SEC_EVT_CNT: RESTART_CNT REFUSED_CNT FALLBACK_CNT
  (0x018, [⟨17, 0, rw, 0x15555⟩]), -- SEC_TRACE_EN: LEVEL
  (0x020, [⟨31, 0, ro, 0x0⟩]), -- SEC_LC_NONCEk: NONCE
  (0x024, [⟨31, 0, ro, 0x0⟩]), -- SEC_LC_NONCEk: NONCE
  (0x028, [⟨31, 0, ro, 0x0⟩]), -- SEC_LC_NONCEk: NONCE
  (0x02C, [⟨31, 0, ro, 0x0⟩]), -- SEC_LC_NONCEk: NONCE
  (0x030, [⟨31, 6, rw, 0x0⟩]), -- SEC_LC_REQ_ADDR_LO: ADDR_LO
  (0x034, [⟨31, 0, rw, 0x0⟩]), -- SEC_LC_REQ_ADDR_HI: ADDR_HI
  (0x038, [⟨15, 8, ro, 0x0⟩, ⟨1, 1, ro, 0x0⟩, ⟨0, 0, wo, 0x0⟩]), -- SEC_LC_REQ: STATUS BUSY GO
  (0x040, [⟨31, 12, rw, 0x0⟩]), -- SEC_UPD_ADDR_LO: ADDR_LO
  (0x044, [⟨31, 0, rw, 0x0⟩]), -- SEC_UPD_ADDR_HI: ADDR_HI
  (0x048, [⟨24, 0, rw, 0x0⟩]), -- SEC_UPD_LEN: BYTES
  (0x04C, [⟨15, 8, ro, 0x0⟩, ⟨3, 3, ro, 0x0⟩, ⟨2, 2, ro, 0x0⟩, ⟨1, 1, wo, 0x0⟩, ⟨0, 0, wo, 0x0⟩]) -- SEC_UPD_CTL: STATUS SLOT BUSY COMMIT GO
  ]

/-- The SEC log block (Table 15.20). -/
def seclogRegs : List (Nat × List FieldSpec) := [
  (0x000, [⟨31, 12, rw, 0x0⟩]), -- SEC_LOG_BASE_LO: ADDR_LO
  (0x004, [⟨31, 0, rw, 0x0⟩]), -- SEC_LOG_BASE_HI: ADDR_HI
  (0x008, [⟨31, 31, rw, 0x0⟩, ⟨3, 0, rw, 0x0⟩]), -- SEC_LOG_CTL: EN SIZE
  (0x00C, [⟨15, 0, rw, 0x0⟩]), -- SEC_LOG_HEAD: HEAD
  (0x010, [⟨15, 0, ro, 0x0⟩]), -- SEC_LOG_TAIL: TAIL
  (0x014, [⟨31, 0, rc, 0x0⟩]), -- SEC_LOG_LOST: LOST
  (0x018, [⟨15, 10, rw, 0x0⟩, ⟨9, 8, rw, 0x0⟩, ⟨2, 2, ro, 0x0⟩, ⟨1, 1, ro, 0x0⟩, ⟨0, 0, wo, 0x0⟩]), -- SEC_DIAG_CTL: CTX LEVEL DENIED DONE GO
  (0x01C, [⟨31, 0, rw, 0x0⟩]), -- SEC_DIAG_VA_LO: VA_LO
  (0x020, [⟨19, 0, rw, 0x0⟩]), -- SEC_DIAG_VA_HI: VA_HI
  (0x024, [⟨31, 0, ro, 0x0⟩]), -- SEC_DIAG_PTE_LO: PTE
  (0x028, [⟨31, 0, ro, 0x0⟩]) -- SEC_DIAG_PTE_HI: PTE
  ]

/-- The TRW block (Tables 8.13 to 8.18). -/
def trwRegs : List (Nat × List FieldSpec) := [
  (0x000, [⟨31, 16, rw, 0x3E8⟩, ⟨0, 0, ro, 0x0⟩]), -- TRW_CTL: LATE_US SRC
  (0x004, [⟨5, 5, w1c, 0x0⟩, ⟨4, 4, w1c, 0x0⟩, ⟨3, 3, w1c, 0x0⟩, ⟨2, 2, w1c, 0x0⟩, ⟨1, 1, w1c, 0x0⟩, ⟨0, 0, w1c, 0x0⟩]), -- TRW_STATUS: TABLE OPERAND STEP_LATE NONFIN PLATE FALLBACK
  (0x008, [⟨31, 16, rc, 0x0⟩, ⟨15, 0, rc, 0x0⟩]), -- TRW_EVT_CNT0: NONFIN_CNT FALLBACK_CNT
  (0x00C, [⟨31, 24, rc, 0x0⟩, ⟨23, 16, rc, 0x0⟩, ⟨15, 8, rc, 0x0⟩, ⟨7, 0, rc, 0x0⟩]), -- TRW_EVT_CNT1: LATE_CNT PLATE_CNT OPERAND_CNT TABLE_CNT
  (0x010, [⟨31, 6, rw, 0x0⟩]), -- TRW_GRP_BASE_LO: OFFSET_LO
  (0x014, [⟨31, 20, rw, 0x0⟩, ⟨19, 0, rw, 0x0⟩]), -- TRW_GRP_BASE_HI: LBUF OFFSET_HI
  (0x018, [⟨31, 6, rw, 0x0⟩]), -- TRW_MAT_BASE_LO: OFFSET_LO
  (0x01C, [⟨31, 20, rw, 0x0⟩, ⟨19, 0, rw, 0x0⟩]), -- TRW_MAT_BASE_HI: LBUF OFFSET_HI
  (0x020, [⟨31, 6, rw, 0x0⟩]), -- TRW_WS_BASE_LO: OFFSET_LO
  (0x024, [⟨31, 20, rw, 0x0⟩, ⟨19, 0, rw, 0x0⟩]), -- TRW_WS_BASE_HI: LBUF OFFSET_HI
  (0x028, [⟨31, 0, ro, 0x0⟩]), -- TRW_STEP_LO: STEP
  (0x02C, [⟨31, 0, ro, 0x0⟩]), -- TRW_STEP_HI: STEP
  (0x030, [⟨8, 8, rw, 0x0⟩, ⟨7, 0, rw, 0x0⟩]), -- TRW_ETA_SEL: BANK GROUP
  (0x034, [⟨31, 0, ro, 0x0⟩]), -- TRW_ETA_VAL: ETA
  (0x038, [⟨1, 1, ro, 0x0⟩, ⟨0, 0, ro, 0x0⟩]), -- TRW_ETA_STATE: NEXT_VALID CUR_VALID
  (0x03C, [⟨31, 0, ro, 0x0⟩]) -- TRW_UPDATES: UPDATES
  ]

/-- The TRW solver block (Table 8.19). -/
def solverRegs : List (Nat × List FieldSpec) := [
  (0x000, [⟨31, 31, ro, 0x0⟩, ⟨30, 30, ro, 0x0⟩, ⟨29, 28, ro, 0x0⟩, ⟨27, 22, ro, 0x0⟩, ⟨11, 0, ro, 0x0⟩]), -- TRW_SOLVER0: BUSY FACTOR ATTEMPT CTX LAYER
  (0x004, [⟨31, 31, ro, 0x0⟩, ⟨30, 30, ro, 0x0⟩, ⟨29, 28, ro, 0x0⟩, ⟨27, 22, ro, 0x0⟩, ⟨11, 0, ro, 0x0⟩]), -- TRW_SOLVER1: BUSY FACTOR ATTEMPT CTX LAYER
  (0x008, [⟨17, 0, ro, 0x0⟩]) -- TRW_SOLVER_QLEN: JOBS
  ]

/-- The DST block (Tables 13.12 to 13.14). -/
def dstRegs : List (Nat × List FieldSpec) := [
  (0x000, [⟨31, 16, rw, 0x64⟩, ⟨11, 10, rw, 0x0⟩, ⟨9, 8, rw, 0x0⟩, ⟨0, 0, rw, 0x0⟩]), -- DST_CTL: LOSS_BOUND T1_KIND T0_KIND EN
  (0x004, [⟨31, 31, ro, 0x0⟩, ⟨30, 30, ro, 0x0⟩, ⟨6, 6, w1c, 0x0⟩, ⟨5, 5, w1c, 0x0⟩, ⟨4, 4, w1c, 0x0⟩, ⟨3, 3, w1c, 0x0⟩, ⟨2, 2, w1c, 0x0⟩, ⟨1, 1, w1c, 0x0⟩, ⟨0, 0, w1c, 0x0⟩]), -- DST_STATUS: VALID IN_PROGRESS ROLLBACK SHARD_LOST REFETCH IMAGE_LOST STALL FAILED SECURED
  (0x008, [⟨31, 24, rc, 0x0⟩, ⟨23, 16, rc, 0x0⟩, ⟨15, 8, rc, 0x0⟩, ⟨7, 0, rc, 0x0⟩]), -- DST_EVT_CNT: FAIL_CNT STALL_CNT REFETCH_CNT LOST_CNT
  (0x00C, [⟨31, 6, rw, 0x0⟩]), -- DST_TBL_BASE_LO: OFFSET_LO
  (0x010, [⟨31, 20, rw, 0x0⟩, ⟨19, 0, rw, 0x0⟩]), -- DST_TBL_BASE_HI: LBUF OFFSET_HI
  (0x014, [⟨31, 0, rw, 0x0⟩]), -- DST_T0_LO: LO
  (0x018, [⟨31, 0, rw, 0x0⟩]), -- DST_T0_HI: HI
  (0x01C, [⟨31, 0, rw, 0x0⟩]), -- DST_T1_LO: LO
  (0x020, [⟨31, 0, rw, 0x0⟩]), -- DST_T1_HI: HI
  (0x024, [⟨17, 0, rw, 0x100⟩]), -- DST_SHADOW: FRAMES
  (0x028, [⟨10, 0, rw, 0xC8⟩]), -- DST_RATE: GBPS
  (0x02C, [⟨31, 0, rw, 0x186A0⟩]), -- DST_MTBF: M
  (0x030, [⟨31, 0, ro, 0x0⟩]), -- DST_COST: C
  (0x034, [⟨31, 16, ro, 0x0⟩, ⟨15, 0, ro, 0x1⟩]), -- DST_INTERVAL: SINCE I
  (0x038, [⟨31, 0, ro, 0x0⟩]), -- DST_EPOCH_LO: EPOCH
  (0x03C, [⟨31, 0, ro, 0x0⟩]), -- DST_EPOCH_HI: EPOCH
  (0x040, [⟨17, 0, ro, 0x0⟩]), -- DST_PROGRESS: PENDING
  (0x044, [⟨31, 31, ro, 0x0⟩, ⟨28, 16, ro, 0x0⟩, ⟨11, 0, ro, 0x0⟩]), -- DST_MEMBER: VALID N RANK
  (0x048, [⟨31, 0, ro, 0x0⟩]), -- DST_MEPOCH_LO: EPOCH
  (0x04C, [⟨31, 0, ro, 0x0⟩]), -- DST_MEPOCH_HI: EPOCH
  (0x050, [⟨17, 0, ro, 0x0⟩]) -- DST_SHADOW_USED: USED
  ]

/-- The PLB block (Tables 3.11 to 3.20). -/
def plbRegs : List (Nat × List FieldSpec) := [
  (0x000, [⟨31, 16, rw, 0x100⟩, ⟨4, 4, rw, 0x1⟩, ⟨3, 3, rw, 0x1⟩, ⟨2, 2, rw, 0x1⟩, ⟨1, 1, rw, 0x1⟩, ⟨0, 0, rw, 0x1⟩]), -- PLB_CTL: QUIET_STEPS NONFIN_EN FLUSH_EN OVF_EN WARMUP_EN QUIET_EN
  (0x004, [⟨31, 16, rw, 0x1⟩, ⟨15, 0, rw, 0x100⟩]), -- PLB_THRESH: OVF_THRESH FLUSH_THRESH
  (0x008, [⟨4, 4, w1c, 0x0⟩, ⟨3, 3, w1c, 0x0⟩, ⟨2, 2, w1c, 0x0⟩, ⟨1, 1, w1c, 0x0⟩, ⟨0, 0, w1c, 0x0⟩]), -- PLB_STATUS: NONFIN FLUSH OVF WARMUP QUIET
  (0x00C, [⟨31, 16, rc, 0x0⟩, ⟨15, 0, rc, 0x0⟩]), -- PLB_EVT_CNT0: QUIET_CNT WARMUP_CNT
  (0x010, [⟨31, 16, rc, 0x0⟩, ⟨15, 0, rc, 0x0⟩]), -- PLB_EVT_CNT1: OVF_CNT FLUSH_CNT
  (0x014, [⟨15, 0, rc, 0x0⟩]), -- PLB_EVT_CNT2: NONFIN_CNT
  (0x018, [⟨31, 5, ro, 0x0⟩]), -- PLB_REC_BASE_LO: ADDR_LO
  (0x01C, [⟨19, 0, ro, 0x0⟩]), -- PLB_REC_BASE_HI: ADDR_HI
  (0x020, [⟨12, 0, ro, 0x0⟩]), -- PLB_LAYERS: LAYERS
  (0x024, [⟨31, 5, ro, 0x0⟩]), -- PLB_SCALE_BASE_LO: ADDR_LO
  (0x028, [⟨19, 0, ro, 0x0⟩]), -- PLB_SCALE_BASE_HI: ADDR_HI
  (0x02C, [⟨16, 0, ro, 0x0⟩]), -- PLB_TENSORS: TENSORS
  (0x030, [⟨31, 0, ro, 0x0⟩]), -- PLB_STEP_LO: STEP
  (0x034, [⟨31, 0, ro, 0x0⟩]), -- PLB_STEP_HI: STEP
  (0x038, [⟨16, 0, ro, 0x0⟩]) -- PLB_WARMUP: IN_WARMUP
  ]

/-- The AU block (Tables 2.13 to 2.19, 4.13 to 4.18, 5.7 to 5.16, 7.10 to 7.13, 14.21, 16.5). -/
def auRegs : List (Nat × List FieldSpec) := [
  (0x000, [⟨23, 23, ro, 0x0⟩, ⟨22, 20, ro, 0x0⟩, ⟨19, 16, ro, 0x0⟩, ⟨7, 0, ro, 0x0⟩]), -- AU_ID: DIE ROW COL AU
  (0x100, [⟨31, 24, ro, 0x80⟩, ⟨23, 14, ro, 0x200⟩, ⟨11, 8, ro, 0x4⟩, ⟨7, 0, ro, 0x80⟩]), -- AU_ARRAY_GEOM: ADP_PAGES ACC_ROWS QUADS DIM
  (0x104, [⟨19, 16, ro, 0x0⟩, ⟨15, 8, ro, 0x0⟩, ⟨7, 4, ro, 0x0⟩, ⟨3, 3, ro, 0x0⟩, ⟨2, 2, ro, 0x0⟩, ⟨0, 0, ro, 0x1⟩]), -- AU_ARRAY_STATUS: BUSY SHADOW ACTIVE DRAIN_BUSY LOAD_BUSY IDLE
  (0x108, [⟨9, 9, w1c, 0x0⟩, ⟨8, 8, w1c, 0x0⟩, ⟨7, 4, w1c, 0x0⟩, ⟨3, 0, w1c, 0x0⟩]), -- AU_ACC_STATUS: ADP_MISS FMT_MISMATCH SAT NONFIN
  (0x10C, [⟨31, 16, rc, 0x0⟩, ⟨15, 0, rc, 0x0⟩]), -- AU_ARRAY_EVT_CNT0: SAT_CNT NONFIN_CNT
  (0x110, [⟨31, 16, rc, 0x0⟩, ⟨15, 0, rc, 0x0⟩]), -- AU_ARRAY_EVT_CNT1: MISMATCH_CNT ADP_MISS_CNT
  (0x114, [⟨31, 0, ro, 0x0⟩]), -- AU_ARRAY_ROWS_LO: ROWS
  (0x118, [⟨31, 0, ro, 0x0⟩]), -- AU_ARRAY_ROWS_HI: ROWS
  (0x11C, [⟨31, 0, ro, 0x0⟩]), -- AU_ARRAY_WSTALL_LO: WSTALL
  (0x120, [⟨31, 0, ro, 0x0⟩]), -- AU_ARRAY_WSTALL_HI: WSTALL
  (0x200, [⟨30, 24, ro, 0x0⟩, ⟨22, 16, ro, 0x0⟩, ⟨14, 8, ro, 0x0⟩, ⟨6, 0, ro, 0x0⟩]), -- AU_FIFO_LEVEL: MOVE_LVL TROWEL_LVL SCREED_LVL ARRAY_LVL
  (0x204, [⟨29, 16, ro, 0x0⟩, ⟨13, 0, ro, 0x0⟩]), -- AU_QLVLn: LVL_ODD LVL_EVEN
  (0x208, [⟨29, 16, ro, 0x0⟩, ⟨13, 0, ro, 0x0⟩]), -- AU_QLVLn: LVL_ODD LVL_EVEN
  (0x20C, [⟨29, 16, ro, 0x0⟩, ⟨13, 0, ro, 0x0⟩]), -- AU_QLVLn: LVL_ODD LVL_EVEN
  (0x210, [⟨29, 16, ro, 0x0⟩, ⟨13, 0, ro, 0x0⟩]), -- AU_QLVLn: LVL_ODD LVL_EVEN
  (0x214, [⟨29, 16, ro, 0x0⟩, ⟨13, 0, ro, 0x0⟩]), -- AU_QLVLn: LVL_ODD LVL_EVEN
  (0x218, [⟨29, 16, ro, 0x0⟩, ⟨13, 0, ro, 0x0⟩]), -- AU_QLVLn: LVL_ODD LVL_EVEN
  (0x21C, [⟨29, 16, ro, 0x0⟩, ⟨13, 0, ro, 0x0⟩]), -- AU_QLVLn: LVL_ODD LVL_EVEN
  (0x220, [⟨29, 16, ro, 0x0⟩, ⟨13, 0, ro, 0x0⟩]), -- AU_QLVLn: LVL_ODD LVL_EVEN
  (0x224, [⟨29, 16, ro, 0x0⟩, ⟨13, 0, ro, 0x0⟩]), -- AU_QLVLn: LVL_ODD LVL_EVEN
  (0x228, [⟨29, 16, ro, 0x0⟩, ⟨13, 0, ro, 0x0⟩]), -- AU_QLVLn: LVL_ODD LVL_EVEN
  (0x22C, [⟨29, 16, ro, 0x0⟩, ⟨13, 0, ro, 0x0⟩]), -- AU_QLVLn: LVL_ODD LVL_EVEN
  (0x230, [⟨31, 0, ro, 0x0⟩]), -- AU_ISSUE_STALL_LO: STALL
  (0x234, [⟨31, 0, ro, 0x0⟩]), -- AU_ISSUE_STALL_HI: STALL
  (0x238, [⟨31, 0, ro, 0x0⟩]), -- AU_RA_DROP: DROPS
  (0x23C, [⟨29, 24, ro, 0x0⟩, ⟨23, 16, ro, 0x0⟩, ⟨3, 3, ro, 0x0⟩, ⟨2, 2, ro, 0x0⟩, ⟨1, 1, ro, 0x0⟩, ⟨0, 0, ro, 0x0⟩]), -- AU_PROG_STATUS: CTX LAU FAULTED FINISHED RUNNING ASSIGNED
  (0x240, [⟨31, 16, ro, 0x0⟩, ⟨15, 0, ro, 0x0⟩]), -- AU_STN_ACTIVE: HALTED ACTIVE
  (0x244, [⟨31, 24, rc, 0x0⟩, ⟨23, 16, rc, 0x0⟩, ⟨15, 8, rc, 0x0⟩]), -- AU_PROG_EVT_CNT: OP_CNT BOUNDS_CNT TRAP_CNT
  (0x300, [⟨27, 20, ro, 0x20⟩, ⟨19, 0, ro, 0x2000⟩]), -- AU_HAWK_SIZE: BANKS SIZE_KIB
  (0x304, [⟨1, 0, ro, 0x0⟩]), -- AU_HAWK_PART: MODE
  (0x308, [⟨3, 3, w1c, 0x0⟩, ⟨2, 2, w1c, 0x0⟩, ⟨1, 1, w1c, 0x0⟩, ⟨0, 0, w1c, 0x0⟩]), -- AU_HAWK_STATUS: ECC_UNCORR REMOTE_REFUSED HOT SLOT_TIMEOUT
  (0x30C, [⟨31, 24, rc, 0x0⟩, ⟨23, 16, rc, 0x0⟩, ⟨15, 0, rc, 0x0⟩]), -- AU_HAWK_EVT_CNT: TIMEOUT_CNT HOT_CNT REFUSED_CNT
  (0x310, [⟨31, 0, ro, 0x0⟩]), -- AU_HAWK_HOT: BANKS
  (0x314, [⟨28, 16, ro, 0x0⟩, ⟨12, 0, ro, 0x0⟩]), -- AU_HAWK_TAGS: FILLING FULL
  (0x318, [⟨31, 0, ro, 0x0⟩]), -- AU_HAWK_TWAIT_LO: TWAIT
  (0x31C, [⟨31, 0, ro, 0x0⟩]), -- AU_HAWK_TWAIT_HI: TWAIT
  (0x320, [⟨31, 16, ro, 0x0⟩, ⟨4, 0, ro, 0x0⟩]), -- AU_STG_HELD: SHARED_HELD RSV_HELD
  (0x324, [⟨31, 16, ro, 0x1A00⟩, ⟨15, 0, ro, 0x0⟩]), -- AU_STG_POOL: SHARED_FREE RA_HELD
  (0x328, [⟨22, 6, rw, 0x0⟩]), -- AU_HAWK_DBG_SEL: LINE
  (0x32C, [⟨31, 31, ro, 0x0⟩, ⟨23, 12, ro, 0x0⟩, ⟨11, 8, ro, 0x0⟩, ⟨7, 4, ro, 0x0⟩, ⟨1, 0, ro, 0x0⟩]) -- AU_HAWK_DBG_TAG: DENIED SLOT NCONS CNT STATE
  ] ++ [
  (0x330, [⟨31, 16, rc, 0x0⟩, ⟨15, 0, rc, 0x0⟩]), -- AU_HAWK_ECC: UNCORR_CNT CORR_CNT
  (0x340, [⟨31, 0, ro, 0x0⟩]), -- AU_HAWK_DBG_DATAk: DATA
  (0x344, [⟨31, 0, ro, 0x0⟩]), -- AU_HAWK_DBG_DATAk: DATA
  (0x348, [⟨31, 0, ro, 0x0⟩]), -- AU_HAWK_DBG_DATAk: DATA
  (0x34C, [⟨31, 0, ro, 0x0⟩]), -- AU_HAWK_DBG_DATAk: DATA
  (0x350, [⟨31, 0, ro, 0x0⟩]), -- AU_HAWK_DBG_DATAk: DATA
  (0x354, [⟨31, 0, ro, 0x0⟩]), -- AU_HAWK_DBG_DATAk: DATA
  (0x358, [⟨31, 0, ro, 0x0⟩]), -- AU_HAWK_DBG_DATAk: DATA
  (0x35C, [⟨31, 0, ro, 0x0⟩]), -- AU_HAWK_DBG_DATAk: DATA
  (0x360, [⟨31, 0, ro, 0x0⟩]), -- AU_HAWK_DBG_DATAk: DATA
  (0x364, [⟨31, 0, ro, 0x0⟩]), -- AU_HAWK_DBG_DATAk: DATA
  (0x368, [⟨31, 0, ro, 0x0⟩]), -- AU_HAWK_DBG_DATAk: DATA
  (0x36C, [⟨31, 0, ro, 0x0⟩]), -- AU_HAWK_DBG_DATAk: DATA
  (0x370, [⟨31, 0, ro, 0x0⟩]), -- AU_HAWK_DBG_DATAk: DATA
  (0x374, [⟨31, 0, ro, 0x0⟩]), -- AU_HAWK_DBG_DATAk: DATA
  (0x378, [⟨31, 0, ro, 0x0⟩]), -- AU_HAWK_DBG_DATAk: DATA
  (0x37C, [⟨31, 0, ro, 0x0⟩]), -- AU_HAWK_DBG_DATAk: DATA
  (0x400, [⟨31, 24, ro, 0x80⟩, ⟨23, 16, ro, 0x80⟩, ⟨15, 0, ro, 0x100⟩]), -- AU_SCR_GEOM: LANES ROWBUF_KIB SIDE_KIB
  (0x404, [⟨1, 1, w1c, 0x0⟩, ⟨0, 0, w1c, 0x0⟩]), -- AU_SCR_STATUS: NONFIN STAT_MISS
  (0x408, [⟨31, 16, rc, 0x0⟩, ⟨15, 8, rc, 0x0⟩]), -- AU_SCR_EVT_CNT: NONFIN_CNT MISS_CNT
  (0x40C, [⟨31, 0, ro, 0x0⟩]), -- AU_SCR_ELEMS_LO: ELEMS
  (0x410, [⟨31, 0, ro, 0x0⟩]), -- AU_SCR_ELEMS_HI: ELEMS
  (0x414, [⟨31, 0, ro, 0x0⟩]), -- AU_SCR_STALL_LO: STALL
  (0x418, [⟨31, 0, ro, 0x0⟩]), -- AU_SCR_STALL_HI: STALL
  (0x500, [⟨31, 24, ro, 0x0⟩, ⟨10, 0, ro, 0x0⟩]), -- AU_PWR_STATUS: TEMP MHZ
  (0x504, [⟨31, 0, rc, 0x0⟩]), -- AU_DROOP_CNT: DROOPS
  (0x508, [⟨31, 0, ro, 0x0⟩]), -- AU_DROOP_CYC_LO: CYCLES
  (0x50C, [⟨31, 0, ro, 0x0⟩]) -- AU_DROOP_CYC_HI: CYCLES
  ]

/-- The LNK port block (Tables 10.15 to 10.17). -/
def lnkpRegs : List (Nat × List FieldSpec) := [
  (0x000, [⟨3, 3, rw, 0x0⟩, ⟨2, 1, rw, 0x0⟩, ⟨0, 0, rw, 0x0⟩]), -- LNK_PORT_CTL: LANESEL MODE ENABLE
  (0x004, [⟨7, 4, ro, 0x0⟩, ⟨2, 0, ro, 0x0⟩]), -- LNK_PORT_STATUS: LANES_OK STATE
  (0x008, [⟨19, 16, ro, 0x0⟩, ⟨15, 0, ro, 0xFFFF⟩]), -- LNK_PARTNER: PORT PART
  (0x00C, [⟨2, 2, w1c, 0x0⟩, ⟨1, 1, w1c, 0x0⟩, ⟨0, 0, w1c, 0x0⟩]), -- LNK_PORT_FLAGS: FENCED REPLAY DOWN
  (0x010, [⟨31, 0, rc, 0x0⟩]), -- LNK_FEC_CORR: CORR
  (0x014, [⟨31, 0, rc, 0x0⟩]), -- LNK_FEC_UNCORR: UNCORR
  (0x018, [⟨31, 16, rc, 0x0⟩, ⟨15, 0, rc, 0x0⟩]), -- LNK_REPLAY_CNT: DOWN_CNT REPLAYS
  (0x01C, [⟨12, 0, ro, 0x0⟩]), -- LNK_TXN: OUT
  (0x020, [⟨10, 0, ro, 0x780⟩]), -- LNK_RXBUF: SHARED_FREE
  (0x024, [⟨31, 8, rw, 0x0⟩, ⟨7, 4, ro, 0x0⟩, ⟨3, 0, rw, 0x0⟩]), -- LNK_PRBS_CTL: PATTERN LOCKED RUN
  (0x028, [⟨31, 0, rc, 0x0⟩]), -- LNK_PRBS_ERRk: ERRORS
  (0x02C, [⟨31, 0, rc, 0x0⟩]), -- LNK_PRBS_ERRk: ERRORS
  (0x030, [⟨31, 0, rc, 0x0⟩]), -- LNK_PRBS_ERRk: ERRORS
  (0x034, [⟨31, 0, rc, 0x0⟩]) -- LNK_PRBS_ERRk: ERRORS
  ]

/-- The LNK block (Tables 10.18 to 10.20). -/
def lnkRegs : List (Nat × List FieldSpec) := [
  (0x000, [⟨15, 0, rw, 0xFFFF⟩]), -- LNK_PART_ID: PART
  (0x004, [⟨31, 16, rw, 0x3E8⟩, ⟨15, 0, rw, 0xC8⟩]), -- LNK_TIMEOUT: COLL_WAIT TIMEOUT_US
  (0x008, [⟨16, 16, rw, 0x0⟩, ⟨15, 0, rw, 0xFFFF⟩]), -- LNK_TIME_CTL: SYNC_EN MASTER
  (0x00C, [⟨31, 31, ro, 0x0⟩, ⟨30, 24, ro, 0x0⟩, ⟨23, 0, ro, 0x0⟩]), -- LNK_TIME_STATUS: LOCKED HOPS OFFSET
  (0x010, [⟨15, 0, rw, 0x0⟩]), -- LNK_RT_SEL: DEST
  (0x014, [⟨31, 31, rw, 0x0⟩, ⟨30, 30, rw, 0x0⟩, ⟨3, 0, rw, 0x0⟩]), -- LNK_RT_DATA: VALID DATELINE PORT
  (0x018, [⟨3, 3, w1c, 0x0⟩, ⟨2, 2, w1c, 0x0⟩, ⟨1, 1, w1c, 0x0⟩, ⟨0, 0, w1c, 0x0⟩]), -- LNK_STATUS: PROTOCOL UNLOCKED COLL TIMEOUT
  (0x01C, [⟨31, 16, rc, 0x0⟩, ⟨15, 8, rc, 0x0⟩, ⟨7, 0, rc, 0x0⟩]), -- LNK_EVT_CNT: TIMEOUT_CNT COLL_CNT UNREACH_CNT
  (0x020, [⟨12, 0, ro, 0x0⟩]) -- LNK_WINDOWS: OPEN
  ]

/-- The LNK context block (Table 10.21). -/
def lnkcRegs : List (Nat × List FieldSpec) := [
  (0x000, [⟨31, 6, rw, 0x0⟩]), -- LNK_WR_BASE_LO: OFFSET_LO
  (0x004, [⟨31, 20, rw, 0x0⟩, ⟨19, 0, rw, 0x0⟩]), -- LNK_WR_BASE_HI: LBUF OFFSET_HI
  (0x008, [⟨31, 28, rw, 0x0⟩, ⟨11, 0, ro, 0x0⟩]), -- LNK_WR_CTL: SIZE HEAD
  (0x00C, [⟨31, 16, ro, 0x0⟩, ⟨15, 0, ro, 0x0⟩]) -- LNK_CTX_TXN: HELD OUT
  ]

/-- The MEM block (Tables 9.16 to 9.21). -/
def memRegs : List (Nat × List FieldSpec) := [
  (0x000, [⟨31, 28, ro, 0xC⟩, ⟨27, 22, ro, 0x20⟩, ⟨21, 14, ro, 0x30⟩, ⟨13, 8, ro, 0x24⟩, ⟨7, 0, ro, 0x2⟩]), -- MEM_GEOM: STACKS PCS BANKS GIB SEG_KIB
  (0x004, [⟨4, 4, w1c, 0x0⟩, ⟨3, 3, w1c, 0x0⟩, ⟨2, 2, w1c, 0x0⟩, ⟨1, 1, w1c, 0x0⟩, ⟨0, 0, w1c, 0x0⟩]), -- MEM_STATUS: RCV_FAIL DETACH HOT RETIRED UNCORR
  (0x008, [⟨31, 24, rc, 0x0⟩, ⟨23, 16, rc, 0x0⟩, ⟨15, 0, rc, 0x0⟩]), -- MEM_EVT_CNT0: UNCORR_CNT HOT_CNT DETACH_CNT
  (0x00C, [⟨31, 24, rc, 0x0⟩, ⟨15, 8, rc, 0x0⟩, ⟨7, 0, rc, 0x0⟩]), -- MEM_EVT_CNT1: FAULT_CNT RETIRE_CNT RCVFAIL_CNT
  (0x010, [⟨29, 16, ro, 0x0⟩, ⟨13, 0, ro, 0x0⟩]), -- MEM_TAGS: D1_USED D0_USED
  (0x014, [⟨8, 5, rw, 0x0⟩, ⟨4, 0, rw, 0x0⟩]), -- MEM_PC_SEL: STACK PC
  (0x018, [⟨21, 16, ro, 0x0⟩, ⟨11, 8, ro, 0x0⟩, ⟨5, 0, ro, 0x0⟩]), -- MEM_PC_LVL: BUSIEST BANK_MAX OUT
  (0x01C, [⟨31, 31, ro, 0x0⟩, ⟨30, 30, ro, 0x0⟩, ⟨29, 22, ro, 0x0⟩, ⟨21, 17, ro, 0x0⟩, ⟨5, 0, ro, 0x0⟩]), -- MEM_HOT_LAST: VALID SRC UNIT PC BANK
  (0x020, [⟨31, 16, rw, 0x64⟩, ⟨6, 0, rw, 0x8⟩]), -- MEM_ROLLER_CTL: SEG_NS SLACK_DEF
  (0x024, [⟨24, 16, ro, 0x0⟩, ⟨15, 0, ro, 0x0⟩]), -- MEM_ROLLER_STATUS: ACTIVE REPLAYING
  (0x040, [⟨31, 16, rc, 0x0⟩, ⟨15, 0, rc, 0x0⟩]), -- MEM_ECCm: UNCORR CORR
  (0x044, [⟨31, 16, rc, 0x0⟩, ⟨15, 0, rc, 0x0⟩]), -- MEM_ECCm: UNCORR CORR
  (0x048, [⟨31, 16, rc, 0x0⟩, ⟨15, 0, rc, 0x0⟩]), -- MEM_ECCm: UNCORR CORR
  (0x04C, [⟨31, 16, rc, 0x0⟩, ⟨15, 0, rc, 0x0⟩]), -- MEM_ECCm: UNCORR CORR
  (0x050, [⟨31, 16, rc, 0x0⟩, ⟨15, 0, rc, 0x0⟩]), -- MEM_ECCm: UNCORR CORR
  (0x054, [⟨31, 16, rc, 0x0⟩, ⟨15, 0, rc, 0x0⟩]), -- MEM_ECCm: UNCORR CORR
  (0x058, [⟨31, 16, rc, 0x0⟩, ⟨15, 0, rc, 0x0⟩]), -- MEM_ECCm: UNCORR CORR
  (0x05C, [⟨31, 16, rc, 0x0⟩, ⟨15, 0, rc, 0x0⟩]), -- MEM_ECCm: UNCORR CORR
  (0x060, [⟨31, 16, rc, 0x0⟩, ⟨15, 0, rc, 0x0⟩]), -- MEM_ECCm: UNCORR CORR
  (0x064, [⟨31, 16, rc, 0x0⟩, ⟨15, 0, rc, 0x0⟩]), -- MEM_ECCm: UNCORR CORR
  (0x068, [⟨31, 16, rc, 0x0⟩, ⟨15, 0, rc, 0x0⟩]), -- MEM_ECCm: UNCORR CORR
  (0x06C, [⟨31, 16, rc, 0x0⟩, ⟨15, 0, rc, 0x0⟩]), -- MEM_ECCm: UNCORR CORR
  (0x070, [⟨24, 18, ro, 0x0⟩, ⟨17, 0, ro, 0x0⟩]) -- MEM_PAGING: ACTIVE FREE
  ]

/-- The MEM context block (Table 9.22). -/
def memcRegs : List (Nat × List FieldSpec) := [
  (0x000, [⟨31, 16, ro, 0x0⟩]), -- MEM_PT_ROOT_LO: ADDR_LO
  (0x004, [⟨7, 0, ro, 0x0⟩]), -- MEM_PT_ROOT_HI: ADDR_HI
  (0x008, [⟨31, 0, ro, 0x0⟩]), -- MEM_FAULT_VA_LO: VA_LO
  (0x00C, [⟨19, 0, ro, 0x0⟩]), -- MEM_FAULT_VA_HI: VA_HI
  (0x010, [⟨31, 28, ro, 0x0⟩, ⟨27, 24, ro, 0x0⟩, ⟨23, 16, ro, 0x0⟩, ⟨0, 0, ro, 0x0⟩]), -- MEM_FAULT_INFO: REASON AGENT AU WRITE
  (0x014, [⟨31, 0, ro, 0x0⟩]), -- MEM_PAGED: PAGE_INS
  (0x018, [⟨17, 0, ro, 0x0⟩]) -- MEM_FRAMES: FRAMES
  ]

end Sys2Proof.Machine
end

