-- ==== Sys2Proof/Machine/RegFile.lean ====
section
/-!
DEFINITION. The register file: one sparse map from a register's key (its BAR0 offset; per-function copies stand at
`privBase f`) to its bits, in which an unlisted register holds its Reset value (R676). Reads of fields, writes of fields
by hardware, and the rules of a software write (R667 to R669) are said here.
-/
namespace Sys2Proof.Machine

/-- The fields of an offset within a block's table; none where the table assigns nothing (R677). -/
def tabFind : List (Nat × List FieldSpec) → Nat → List FieldSpec
  | [], _ => []
  | (o, fs) :: t, off => if o = off then fs else tabFind t off

/-- The fields of the register that stands at an offset of BAR0 of a PF (Table 16.1). The set-up page aliases are
resolved before this (R679). -/
def specAt (off : Nat) : List FieldSpec :=
  if off < 0x100 then tabFind hubRegs off
  else if off < 0x110 then tabFind syncRegs off
  else if 0xF0000 ≤ off ∧ off < 0xF0410 then
    [if off % 16 = 12 then ⟨0, 0, .rw, 1⟩ else ⟨31, 0, .rw, 0⟩]
  else if 0xF8000 ≤ off ∧ off < 0xF8010 then [⟨31, 0, .ro, 0⟩]
  else if 0x100000 ≤ off ∧ off < 0x100080 then tabFind pcieRegs (off - 0x100000)
  else if 0x180000 ≤ off ∧ off < 0x180080 then tabFind pcieRegs (off - 0x180000)
  else if 0x200000 ≤ off ∧ off < 0x240000 then tabFind ctxRegs (off % 0x1000)
  else if 0x280000 ≤ off ∧ off < 0x280094 then tabFind schedRegs (off - 0x280000)
  else if 0x300000 ≤ off ∧ off < 0x302000 then tabFind evtRegs (off % 0x100)
  else if 0x400000 ≤ off ∧ off < 0x401000 then tabFind pwrRegs (off - 0x400000)
  else if 0x500000 ≤ off ∧ off < 0x501000 then tabFind secRegs (off - 0x500000)
  else if 0x501000 ≤ off ∧ off < 0x501200 then tabFind seclogRegs (off % 0x100)
  else if 0x600000 ≤ off ∧ off < 0x604000 then tabFind trwRegs (off % 0x100)
  else if 0x608000 ≤ off ∧ off < 0x608100 then tabFind solverRegs (off - 0x608000)
  else if 0x680000 ≤ off ∧ off < 0x684000 then tabFind dstRegs (off % 0x100)
  else if 0x700000 ≤ off ∧ off < 0x704000 then tabFind plbRegs (off % 0x100)
  else if 0x800000 ≤ off ∧ off < 0x8C0000 then tabFind auRegs (off % 0x1000)
  else if 0xC00000 ≤ off ∧ off < 0xC40000 then tabFind lnkpRegs (off % 0x4000)
  else if 0xC40000 ≤ off ∧ off < 0xC40100 then tabFind lnkRegs (off - 0xC40000)
  else if 0xC50000 ≤ off ∧ off < 0xC54000 then tabFind lnkcRegs (off % 0x100)
  else if 0xE00000 ≤ off ∧ off < 0xE00100 then tabFind memRegs (off - 0xE00000)
  else if 0xE10000 ≤ off ∧ off < 0xE14000 then tabFind memcRegs (off % 0x100)
  else []

/-- The fields of a register by its key. -/
def regSpec (k : Nat) : List FieldSpec := specAt (k % 0x1000000)

/-- The Reset value of a list of fields. -/
def specReset : List FieldSpec → Nat
  | [] => 0
  | f :: fs => 2 ^ f.lo * f.rst + specReset fs

/-- The Reset value of a register (R676). MAXPRIO resets to 7 for the PFs and 3 for the VFs (Table 12.12). -/
def regReset (k : Nat) : Word32 :=
  if k = CTX_FN_PRIO 0 ∨ k = CTX_FN_PRIO 16 then 7#32 else BitVec.ofNat 32 (specReset (regSpec k))

/-- The register file. -/
abbrev RegMap := Map Word32

/-- The canonical form of the register file: keys rising, and no register listed at its Reset value. -/
def rgCanon (m : RegMap) : Bool := msorted m && m.all fun e => e.2 != regReset e.1

/-- The bits of a register. -/
def rgRead (m : RegMap) (k : Nat) : Word32 := mget (regReset k) m k

/-- A register rewritten by hardware. -/
def rgWrite (m : RegMap) (k : Nat) (v : Word32) : RegMap := mset (regReset k) m k v

/-- Field [hi:lo] of a register. -/
def rgFld (m : RegMap) (k hi lo : Nat) : Nat := bits (rgRead m k).toNat hi lo

/-- Field [hi:lo] of a register set by hardware. -/
def rgSet (m : RegMap) (k hi lo v : Nat) : RegMap := rgWrite m k (BitVec.ofNat 32 (putBits (rgRead m k).toNat hi lo v))

/-- What a software write of v makes of a register's fields: W1C fields are cleared where v has a 1, RW fields take v,
every other field keeps its value (R667, R669); WO actions are the business of the register's own command. -/
def specWrite : List FieldSpec → Nat → Nat → Nat
  | [], old, _ => old
  | f :: fs, old, v =>
    let r := specWrite fs old v
    match f.acc with
    | .rw => putBits r f.hi f.lo (bits v f.hi f.lo)
    | .w1c =>
      putBits r f.hi f.lo (BitVec.toNat (BitVec.ofNat 32 (bits old f.hi f.lo) &&& ~~~ (BitVec.ofNat 32 (bits v f.hi f.lo))))
    | .w1s => putBits r f.hi f.lo (BitVec.toNat (BitVec.ofNat 32 (bits old f.hi f.lo) ||| BitVec.ofNat 32 (bits v f.hi f.lo)))
    | _ => r

/-- A software write to a register. -/
def rgSoft (m : RegMap) (k : Nat) (v : Nat) : RegMap :=
  rgWrite m k (BitVec.ofNat 32 (specWrite (regSpec k) (rgRead m k).toNat v))

/-- What a read of a register leaves of its RC fields (R671): 0, but PEAK of CTX_SLOWDOWN returns to 0x0100. -/
def specClear : List FieldSpec → Nat → Nat
  | [], v => v
  | f :: fs, v =>
    let r := specClear fs v
    match f.acc with
    | .rc => putBits r f.hi f.lo f.rst
    | _ => r

/-- A register reads some W1C field nonzero. -/
def specW1c : List FieldSpec → Nat → Bool
  | [], _ => false
  | f :: fs, v => (f.acc == .w1c && bits v f.hi f.lo != 0) || specW1c fs v

end Sys2Proof.Machine
end

