-- ==== Sys2Proof/Machine/SecTypes.lean ====
section
/-!
DEFINITION. The state of boot, firmware, life cycle, logs and attestation (15_security_firmware.md).
-/
namespace Sys2Proof.Machine

/-- The fuses (Table 15.6): thermometer banks by their counts. -/
structure Fuses where
  keyHash : Map Nat
  revoked : Nat
  rollback : Nat
  lc : Nat
  scrap : Bool
  grade : Bool
  makerKey : Nat
  uds : Nat
  dsn : Nat
  deriving DecidableEq, Repr

/-- A life-cycle request that has been accepted and whose transition is under way: KIND, DEBUG_MASK, DURATION, OWNER_HASH, and
whether the service side sent it. -/
structure LcReq where
  kind : Nat
  mask : Nat
  seconds : Nat
  owner : Nat
  svc : Bool
  deriving DecidableEq, Repr

/-- A staging under way (R628): address and length as at GO, and the slot being written. -/
structure Staging where
  addr : Nat
  len : Nat
  slot : Nat
  deriving DecidableEq, Repr

/-- Boot, firmware and security. What outlives a loss of host power is the flash, the fuses, the owner-key hash of the owner store, and
the number of records in the crash area. The rest: version of stage 1; slots excluded at this boot (R619) and slots skipped whose
BOOT_FALLBACK has not been raised, with reasons; ROLLBACK of the running image; rollback count and life-cycle code at boot, and whether
either has changed since (R656); times of recent faults by compartment (R634); end of a FIELD-DEBUG period; request and staging under
way; the retention buffer, oldest first, and SEQ of the next record (R641); records of the crash area that are returned first at this
boot (R642); log records lost since the last LOG_LOST, by port; SPDM sessions by port; scheduler cores and control cores halted by a
debugger (R652). -/
structure SecSt where
  flash : Mem
  fuses : Fuses
  owner : Option Nat
  crashed : Nat
  stage1 : Nat
  excluded : List Nat
  skipped : List (Nat × Nat)
  rollback : Nat
  bootRollback : Nat
  bootLc : Nat
  changed : Bool
  faults : Map (List Nat)
  debugUntil : Option Nat
  lcReq : Option LcReq
  staging : Option Staging
  logs : List (List Byte)
  logSeq : Nat
  crash : List (List Byte)
  lost : Map Nat
  sessions : Map Nat
  haltedCores : List Nat
  haltedAus : List Nat
  deriving DecidableEq, Repr

def Fuses.reset : Fuses :=
  { keyHash := [], revoked := 0, rollback := 0, lc := 0, scrap := false, grade := false, makerKey := 0, uds := 0, dsn := 0 }

def SecSt.reset : SecSt :=
  { flash := [], fuses := Fuses.reset, owner := none, crashed := 0, stage1 := 0, excluded := [], skipped := [], rollback := 0,
    bootRollback := 0, bootLc := 0, changed := false, faults := [], debugUntil := none, lcReq := none, staging := none, logs := [],
    logSeq := 0, crash := [], lost := [], sessions := [], haltedCores := [], haltedAus := [] }

end Sys2Proof.Machine
end

