-- ==== Sys2Proof/Machine/State.lean ====
section
/-!
DEFINITION. The state of the part, the reasons a step can stop, and the state after reset.
-/
namespace Sys2Proof.Machine

/-- Why the machine stops with a fault. No command of this model does: a fault of the part's own kind (an event that
faults a context) is a next state. -/
inductive Fault where
  /-- Raised by no meaning: the spec gives every command an effect. Safe. -/
  | none
  deriving DecidableEq, Repr

/-- Why a command is refused. -/
inductive Refusal where
  /-- Raised by the dispatch for a command that has no meaning yet. Safe. -/
  | notModelled (mnemonic : String)
  deriving DecidableEq, Repr

/-- One semaphore (R512 to R516): which contexts may use it, its holder, the contexts that wait in order of arrival. -/
structure Sem where
  mask : Nat
  holder : Option Nat
  waiters : List Nat
  deriving DecidableEq, Repr

/-- The state of the part. -/
structure State where
  pending : List Instr      -- commands that wait, first in, first out
  now : Nat                 -- part time in ns (R434)
  free : Nat                -- the model's own: how many free values have been taken (Config.free)
  answer : List Byte        -- the model's own: what the last read or request was answered with
  regs : RegMap             -- every register of BAR0 that is not computed from the rest
  host : Mem                -- host memory, at port · 2⁶⁴ + bus address
  ports : Map HostPort
  fns : Map Fn
  ctxs : Map Ctx
  aus : Map Au
  mem : MemSt
  links : LinkSt
  sems : Map Sem
  solver : List SolverJob   -- refresh jobs that wait or run, oldest first (R321)
  totals : Map Nat          -- the counts of Table 11.10
  power : PowerSt
  sec : SecSt
  deriving DecidableEq, Repr

/-- What a command answers. -/
abbrev Out := Host.Outcome State Fault Refusal

/-- A semaphore that nobody holds and no context may use (Table 12.12). -/
def Sem.reset : Sem := ⟨0, none, []⟩

/-- The part right after reset. -/
def State.reset : State :=
  { pending := [], now := 0, free := 0, answer := [], regs := [], host := [], ports := [], fns := [], ctxs := [], aus := [],
    mem := MemSt.reset, links := LinkSt.reset, sems := [], solver := [], totals := [], power := PowerSt.reset, sec := SecSt.reset }

end Sys2Proof.Machine
end

