-- ==== Sys2Proof/Machine/Ops.lean ====
section
/-!
DEFINITION. The named operations over the state: registers, host memory, interrupts, the event rings (R472 to R477),
completion entries (R465, R470), flags and the completion mailbox (R144 to R147, R507, R508).
-/
namespace Sys2Proof.Machine

/-! ## Parts of the state -/

/-- Context c. -/
def State.ctx (s : State) (c : Nat) : Ctx := mget Ctx.reset s.ctxs c
/-- Context c replaced. -/
def State.putCtx (s : State) (c : Nat) (x : Ctx) : State := { s with ctxs := mset Ctx.reset s.ctxs c x }
/-- Context c changed. -/
def State.modCtx (s : State) (c : Nat) (f : Ctx → Ctx) : State := s.putCtx c (f (s.ctx c))
/-- Array unit n. -/
def State.au (s : State) (n : Nat) : Au := mget Au.reset s.aus n
/-- Array unit n replaced. -/
def State.putAu (s : State) (n : Nat) (a : Au) : State := { s with aus := mset Au.reset s.aus n a }
/-- Array unit n changed. -/
def State.modAu (s : State) (n : Nat) (f : Au → Au) : State := s.putAu n (f (s.au n))
/-- Function f. -/
def State.fn (s : State) (f : Nat) : Fn := mget Fn.reset s.fns f
/-- Function f changed. -/
def State.modFn (s : State) (f : Nat) (g : Fn → Fn) : State := { s with fns := mset Fn.reset s.fns f (g (s.fn f)) }
/-- Host port p. -/
def State.port (s : State) (p : Nat) : HostPort := mget HostPort.reset s.ports p
/-- Host port p changed. -/
def State.modPort (s : State) (p : Nat) (g : HostPort → HostPort) : State :=
  { s with ports := mset HostPort.reset s.ports p (g (s.port p)) }
/-- Semaphore n. -/
def State.sem (s : State) (n : Nat) : Sem := mget Sem.reset s.sems n
/-- Semaphore n replaced. -/
def State.putSem (s : State) (n : Nat) (x : Sem) : State := { s with sems := mset Sem.reset s.sems n x }

/-- Part time moves on to t (R434: it never runs backwards). -/
def State.at (s : State) (t : Nat) : State := { s with now := max s.now t }

/-- The next free value: what the spec leaves open here. -/
def State.pick (s : State) : Nat × State := (Config.free s.free, { s with free := s.free + 1 })

/-- One more in a total of Table 11.10; the totals saturate at 32 bits. -/
def State.total (s : State) (i n : Nat) : State :=
  { s with totals := mset 0 s.totals i (satAdd 0xFFFFFFFF (mget 0 s.totals i) n) }

/-! ## Registers -/

/-- The bits of register k. -/
def State.reg (s : State) (k : Nat) : Nat := (rgRead s.regs k).toNat
/-- Field [hi:lo] of register k. -/
def State.fld (s : State) (k hi lo : Nat) : Nat := rgFld s.regs k hi lo
/-- Bit n of register k. -/
def State.rbit (s : State) (k n : Nat) : Bool := bit (s.reg k) n
/-- Field [hi:lo] of register k set by hardware. -/
def State.setFld (s : State) (k hi lo v : Nat) : State := { s with regs := rgSet s.regs k hi lo v }
/-- All 32 bits of register k set by hardware. -/
def State.setReg (s : State) (k v : Nat) : State := { s with regs := rgWrite s.regs k (BitVec.ofNat 32 v) }
/-- A software write of v to register k. -/
def State.softReg (s : State) (k v : Nat) : State := { s with regs := rgSoft s.regs k v }
/-- Add n to a counter field, saturating (R670). -/
def State.count (s : State) (k hi lo n : Nat) : State :=
  s.setFld k hi lo (satAdd (2 ^ (hi + 1 - lo) - 1) (s.fld k hi lo) n)
/-- A condition occurs: its W1C bit is set and its counter counts it (R670). -/
def State.flagCount (s : State) (kf bitn kc hi lo : Nat) : State := (s.setFld kf bitn bitn 1).count kc hi lo 1
/-- A 64-bit value in a _LO, _HI pair of registers. -/
def State.reg64 (s : State) (kl kh : Nat) : Nat := s.reg kl + 2 ^ 32 * s.reg kh
/-- A 64-bit value written to a pair of registers. -/
def State.setReg64 (s : State) (kl kh v : Nat) : State := (s.setReg kl (v % 2 ^ 32)).setReg kh (v / 2 ^ 32 % 2 ^ 32)
/-- Registers whose key lies in [a, b) take their Reset values (R676). -/
def State.dropRegs (s : State) (a b : Nat) : State :=
  { s with regs := mdrop (fun k => decide (a ≤ k) && decide (k < b)) s.regs }

/-! ## Firmware (R618, R634) -/

/-- The firmware is ready and has not halted: STATE of SEC_FW_STATUS reads READY. -/
def State.fwUp (s : State) : Bool := s.fld SEC_FW_STATUS 31 30 == 1
/-- The firmware has halted (R634). -/
def State.fwHalted (s : State) : Bool := s.fld SEC_FW_STATUS 31 30 == 2
/-- BAR0 answers in full, and BAR2 and BAR4 respond (R611, R620): the firmware is, or has been, ready. -/
def State.barUp (s : State) : Bool := s.fwUp || s.fwHalted

/-! ## Functions and host memory -/

/-- The port of a function (Table 11.2). -/
def fnPort (f : Nat) : Nat := f / 16
/-- Is the function a physical one? -/
def fnIsPf (f : Nat) : Bool := f % 16 == 0
/-- The PF of a port. -/
def portPf (p : Nat) : Nat := 16 * p
/-- The admin port (R448, R449). -/
def State.adminPort (s : State) : Nat := s.fld HUB_ADMIN 0 0
/-- The admin PF. -/
def State.adminPf (s : State) : Nat := portPf s.adminPort
/-- The name of context c in the rings of function f (R446, R687): its number for a PF, its slot for a VF that holds it,
0xFF otherwise. -/
def State.ctxName (s : State) (f c : Nat) : Nat :=
  if fnIsPf f then c
  else if (s.ctx c).owner = some f then (s.ctx c).slot.getD 0xFF else 0xFF

/-- Where bus address a of the memory behind port p stands in the host memory of the state. -/
def hostKey (p a : Nat) : Nat := 2 ^ 64 * p + a % 2 ^ 64

/-- The part writes host memory: nothing arrives while the port's data link is down. -/
def State.hostWrite (s : State) (p a : Nat) (bs : List Byte) : State :=
  if (s.port p).dlUp then { s with host := wrBytes s.host (hostKey p a) bs } else s

/-- The part reads host memory: an error completion while the port's data link is down. -/
def State.hostRead (s : State) (p a n : Nat) : Option (List Byte) :=
  if (s.port p).dlUp then some (rdBytes s.host (hostKey p a) n) else none

/-! ## Interrupts -/

/-- Word i of MSI-X table entry v of a function (R683). -/
def msixKey (f v i : Nat) : Nat := privBase f + 0xF0000 + 16 * v + 4 * i
/-- The pending-bit word that holds vector v. -/
def pbaKey (f v : Nat) : Nat := privBase f + 0xF8000 + 4 * (v / 32)

/-- Vector v of function f fires (R472): a message, or a pending bit where the vector is masked. -/
def State.fire (s : State) (f v : Nat) : State :=
  if (s.fn f).msixEn then
    if (s.fn f).msixMask ∨ s.rbit (msixKey f v 3) 0 then s.setFld (pbaKey f v) (v % 32) (v % 32) 1
    else s.hostWrite (fnPort f) (s.reg64 (msixKey f v 0) (msixKey f v 1)) (natLe 4 (s.reg (msixKey f v 2)))
  else s

/-! ## Event rings -/

/-- Records of an event ring (R473). -/
def State.evtSize (s : State) (f : Nat) : Nat := 2 ^ (min (s.fld (EVT_CTL f) 3 0) 9 + 6)

/-- The phase bit of the entry at a count (R465). -/
def phaseOf (n size : Nat) : Nat := 1 - n / size % 2

/-- Entries of a ring in use: tail − head, modulo 65,536 (R457). -/
def ringUsed (tail head : Nat) : Nat := (tail + 65536 - head % 65536) % 65536

/-- An event record (Table 11.8). -/
def evtRecord (code ctxByte time phase : Nat) (payload : List Byte) : List Byte :=
  layOut 12 [(0, 2, code), (2, 1, phase), (3, 1, ctxByte), (4, 8, time)] ++ payload

/-- The event ring of f is enabled and has room. -/
def State.evtRoom (s : State) (f : Nat) : Bool :=
  s.rbit (EVT_CTL f) 31 && decide (ringUsed (s.fld (EVT_TAIL f) 15 0) (s.fld (EVT_HEAD f) 15 0) < s.evtSize f)

/-- A record written to the event ring of f, which has room (R473): the vector fires when the ring was empty (R472). -/
def State.evtPut (s : State) (f code ctxByte : Nat) (payload : List Byte) : State :=
  let tail := s.fld (EVT_TAIL f) 15 0
  let size := s.evtSize f
  let base := s.reg64 (EVT_BASE_LO f) (EVT_BASE_HI f)
  let s1 := s.hostWrite (fnPort f) (base + 32 * (tail % size)) (evtRecord code ctxByte s.now (phaseOf tail size) payload)
  let s2 := s1.setFld (EVT_TAIL f) 15 0 ((tail + 1) % 65536)
  if tail = s.fld (EVT_HEAD f) 15 0 then s2.fire f 0 else s2

/-- A record for the event ring of f: written, or discarded and counted (R476). -/
def State.evtSend (s : State) (f code ctxByte : Nat) (payload : List Byte) : State :=
  if s.evtRoom f then s.evtPut f code ctxByte payload
  else ((s.count (EVT_LOST f) 31 0 1).modFn f fun x => { x with lost := x.lost + 1 }).total 11 1

/-- Room has come back, or the ring has been enabled: EVENTS_LOST follows at once if records were discarded (R476). -/
def State.evtReturned (s : State) (f : Nat) : State :=
  if (s.fn f).lost ≠ 0 ∧ s.evtRoom f then
    (s.evtPut f 0x0106 0xFF (layOut 20 [(0, 4, min (s.fn f).lost 0xFFFFFFFF)])).modFn f fun x => { x with lost := 0 }
  else s

/-- Where an event goes (R475). -/
inductive Route where
  | ctx (c : Nat)
  | port (p : Nat)
  | all
  deriving DecidableEq, Repr

/-- An event is raised. The payload's bytes are given as (offset, width, value); `pay f` is the payload for the ring of f,
since a context field is a slot in the ring of a VF (R687). -/
def State.raiseF (s : State) (code : Nat) (r : Route) (pay : Nat → List (Nat × Nat × Nat)) : State :=
  match r with
  | .ctx c =>
    match (s.ctx c).owner with
    | some f => s.evtSend f code (s.ctxName f c) (layOut 20 (pay f))
    | none => (s.evtSend 0 code c (layOut 20 (pay 0))).evtSend 16 code c (layOut 20 (pay 16))
  | .port p =>
    let f := portPf (if (s.port p).lost then 1 - p else p)
    s.evtSend f code 0xFF (layOut 20 (pay f))
  | .all => (s.evtSend 0 code 0xFF (layOut 20 (pay 0))).evtSend 16 code 0xFF (layOut 20 (pay 16))

/-- An event whose payload names no context. -/
def State.raise (s : State) (code : Nat) (r : Route) (pay : List (Nat × Nat × Nat)) : State := s.raiseF code r fun _ => pay

/-! ## Completion entries -/

/-- Descriptors of the command ring (R456). -/
def State.cmdSize (s : State) (c : Nat) : Nat := 2 ^ (min (s.fld (CTX_RING_CTL c) 3 0) 11 + 4)
/-- Entries of the completion ring (R456). -/
def State.cplSize (s : State) (c : Nat) : Nat := 2 ^ (min (s.fld (CTX_RING_CTL c) 11 8) 11 + 4)

/-- The function that owns a context; the HPA PF where none does. -/
def State.ownerOf (s : State) (c : Nat) : Nat := (s.ctx c).owner.getD 0
/-- The port of a context's owner. -/
def State.ctxPort (s : State) (c : Nat) : Nat := fnPort (s.ownerOf c)
/-- The vector of a context (R472). -/
def State.ctxVector (s : State) (c : Nat) : Nat := 1 + s.ctxName (s.ownerOf c) c

/-- A completion entry (Table 11.6). -/
def cplEntry (status phase tag opcode head result time energy : Nat) : List Byte :=
  layOut 32 [(0, 1, status), (1, 1, phase), (2, 2, tag), (4, 1, opcode), (6, 2, head), (8, 8, result), (16, 8, time),
    (24, 8, energy)]

/-- The context's vector counts an IRQ completion and fires at COUNT of them (R472). -/
def State.irqStep (s : State) (c : Nat) : State :=
  let x := s.ctx c
  let n := x.ring.irqCount + 1
  if max 1 (s.fld (CTX_IRQ_CTL c) 7 0) ≤ n then
    (s.putCtx c { x with ring := { x.ring with irqCount := 0, irqSince := none } }).fire (s.ownerOf c) (s.ctxVector c)
  else
    s.putCtx c { x with ring := { x.ring with irqCount := n, irqSince := some (x.ring.irqSince.getD s.now) } }

/-- The completion entry of a command is written (R465), or discarded and counted while the port is lost (R450). -/
def State.cplWrite (s : State) (c : Nat) (cmd : Cmd) (status result : Nat) : State :=
  if (s.port (s.ctxPort c)).lost then
    ((s.flagCount (CTX_RING_STATUS c) 2 (CTX_RING_EVT_CNT c) 31 16).modCtx c fun x =>
      { x with dropped := satAdd 0xFFFF x.dropped 1 }).total 12 1
  else
    let r := (s.ctx c).ring
    let size := s.cplSize c
    let tail := r.cplTail.toNat
    let base := s.reg64 (CTX_CPL_BASE_LO c) (CTX_CPL_BASE_HI c)
    let e := cplEntry status (phaseOf tail size) (fieldLe cmd.desc 2 2) (byteAt cmd.desc 0) r.cmdHead.toNat result s.now
      ((cmd.energy + 500) / 1000)
    let s1 := s.hostWrite (s.ctxPort c) (base + 32 * (tail % size)) e
    let s2 := s1.modCtx c fun x => { x with ring := { x.ring with cplTail := x.ring.cplTail + 1 } }
    if bit (byteAt cmd.desc 1) 0 then s2.irqStep c else s2

/-- Command k of the outstanding commands of context c. -/
def State.cmdAt (s : State) (c k : Nat) : Option Cmd := (s.ctx c).ring.cmds[k]?

/-- Command k completes: it leaves the outstanding commands and its entry is written. The end of a COPY is the end of something in
flight (R517). -/
def State.complete (s : State) (c k status result : Nat) : State :=
  match s.cmdAt c k with
  | none => s
  | some cmd =>
    (s.modCtx c fun x =>
      { x with
        ring := { x.ring with cmds := x.ring.cmds.eraseIdx k }
        progressAt := if byteAt cmd.desc 0 = 0x0D then s.now else x.progressAt }).cplWrite c cmd status result

/-- Command k moves to another phase. -/
def State.setPhase (s : State) (c k : Nat) (ph : CmdPhase) : State :=
  s.modCtx c fun x =>
    { x with ring := { x.ring with cmds := x.ring.cmds.modify k fun d => { d with phase := ph } } }

/-- Every outstanding command of the context completes with one status, oldest first (R466). A RUN's RESULT is given. -/
def State.completeAll (s : State) (c status : Nat) (result : Cmd → Nat) : State :=
  let cmds := (s.ctx c).ring.cmds
  cmds.foldl (fun t cmd => t.cplWrite c cmd status (result cmd))
    (s.modCtx c fun x => { x with ring := { x.ring with cmds := [] } })

/-- The position of the first outstanding command of an opcode that satisfies p. -/
def State.findCmd (s : State) (c op : Nat) (p : Cmd → Bool) : Option (Nat × Cmd) :=
  findAt (fun d => byteAt d.desc 0 == op && p d) (s.ctx c).ring.cmds 0

/-! ## Flags and the completion mailbox -/

/-- Flag f of context c. -/
def State.flag (s : State) (c f : Nat) : Bool := (s.ctx c).flags.getLsbD f

/-- A 256-bit word with bit f set or cleared. -/
def flagPut (w : BitVec 256) (f : Nat) (v : Bool) : BitVec 256 :=
  if v then w ||| (1#256 <<< f) else w &&& ~~~ (1#256 <<< f)

/-- Flag f of context c takes a value (R145). -/
def State.setFlag (s : State) (c f : Nat) (v : Bool) : State :=
  s.modCtx c fun x => { x with flags := flagPut x.flags f v }

/-- The states in which flag changes that come from outside the AUs are parked (R507, R508). -/
def CtxState.parks : CtxState → Bool
  | .preempting => true
  | .preempted => true
  | .resuming => true
  | _ => false

/-- The mailbox of c holds 1,024 entries, so nothing that would change a flag may complete (R508). -/
def State.mboxFull (s : State) (c : Nat) : Bool :=
  (s.ctx c).st.parks && decide (1024 ≤ (s.ctx c).mbox.length)

/-- MAILBOX_FULL is raised (R508). -/
def State.mboxFullEvent (s : State) (c : Nat) : State :=
  (s.flagCount (CTX_SCHED_STATUS c) 3 (CTX_SCHED_EVT_CNT c) 15 8).raise 0x0907 (.ctx c) [(0, 2, (s.ctx c).mbox.length)]

/-- A completion that names a flag changes it (R145), or is parked in the mailbox, which has room (R507). -/
def State.deliverFlag (s : State) (c f : Nat) (v : Bool) : State :=
  if (s.ctx c).st.parks then
    let s1 := s.modCtx c fun x => { x with mbox := x.mbox ++ [⟨f, v⟩] }
    let n := (s1.ctx c).mbox.length
    if s1.fld (CTX_MBOX c) 26 16 < n then s1.setFld (CTX_MBOX c) 26 16 n else s1
  else s.setFlag c f v

/-! ## Access rights -/

/-- Function f owns context c (R447). -/
def State.owns (s : State) (f c : Nat) : Bool := (s.ctx c).owner == some f

/-- A write of a PF to a part-wide register while it is not the admin PF sets DENIED (R448). -/
def State.denied (s : State) (f : Nat) : State :=
  if fnIsPf f then s.setFld (PCIE_PORT_FLAGS (fnPort f)) 3 3 1 else s

/-- BAD_ACCESS in the function's own HUB_STATUS (R666, R684). -/
def State.badAccess (s : State) (f : Nat) : State := s.setFld (HUB_STATUS f) 9 9 1

/-- The logical AUs of context c and the AUs that hold them, in order of logical AU. -/
def State.ctxAus (s : State) (c : Nat) : List (Nat × Nat) := (s.ctx c).place

/-- A change of every AU that context c holds. -/
def State.modCtxAus (s : State) (c : Nat) (f : Au → Au) : State :=
  (s.ctxAus c).foldl (fun t e => t.modAu e.2 f) s

end Sys2Proof.Machine
end

