-- ==== Sys2Proof/Machine/Vm.lean ====
section
/-!
DEFINITION. Frames and translation (R325 to R346): the frames of HBM, page-table entries, and reads and writes of a
context's virtual memory, the copy into a shadow frame before the first write to a PENDING page (R537) among them.
-/
namespace Sys2Proof.Machine

/-! ## Frames -/

/-- Frames of one stack: 36 GiB of 2 MiB. -/
def stackFrames : Nat := 18432
/-- Bytes of a frame. -/
def frameBytes : Nat := 0x200000
/-- The DPA of a frame (R325). -/
def frameDpa (f : Nat) : Nat := 2 ^ 36 * (f / stackFrames) + frameBytes * (f % stackFrames)
/-- The frame that holds a DPA. -/
def dpaFrame (d : Nat) : Nat := d / 2 ^ 36 * stackFrames + d % 2 ^ 36 / frameBytes
/-- The stack of a frame. -/
def frameStack (f : Nat) : Nat := f / stackFrames

/-- A valid DPA (R325). -/
def dpaValid (d : Nat) : Bool := decide (d / 2 ^ 36 < 12) && decide (d % 2 ^ 36 < 36 * 2 ^ 30)

/-- Frame f. -/
def State.frame (s : State) (f : Nat) : Frame := mget Frame.reset s.mem.frames f
/-- Frame f replaced. -/
def State.putFrame (s : State) (f : Nat) (x : Frame) : State :=
  { s with mem := { s.mem with frames := mset Frame.reset s.mem.frames f x } }

/-- The lowest frame from b on, below e, that the sorted list of frames does not show as used or retired. -/
def freeGap (b e : Nat) : Map Frame → Option Nat
  | [] => if b < e then some b else none
  | (k, f) :: m =>
    if k < b then freeGap b e m
    else if k = b then (if f.used || f.retired then freeGap (b + 1) e m else (if b < e then some b else none))
    else (if b < e then some b else none)

/-- The lowest free frame of a stack. -/
def State.freeOfStack (s : State) (m : Nat) : Option Nat :=
  freeGap (stackFrames * m) (stackFrames * (m + 1)) s.mem.frames

/-- The first stack of the mask, in rotation from r, that has a free frame, with that frame. -/
def State.rotate (s : State) (mask : Nat) : Nat → Nat → Option (Nat × Nat)
  | 0, _ => none
  | n + 1, r =>
    if bit mask (r % 12) then
      match s.freeOfStack (r % 12) with
      | some f => some (r % 12, f)
      | none => s.rotate mask n (r + 1)
    else s.rotate mask n (r + 1)

/-- A frame in rotation over the allowed stacks (R496): it is marked used by its owner. -/
def State.allocFrame (s : State) (mask : Nat) (owner : Option Nat) (pagedIn : Bool) : Option (Nat × State) :=
  match s.rotate mask 12 s.mem.nextFrame with
  | none => none
  | some (m, f) =>
    let s1 := s.putFrame f { s.frame f with used := true, owner := owner, pagedIn := pagedIn }
    some (f, { s1 with mem := { s1.mem with nextFrame := (m + 1) % 12 } })

/-- PAGE_RETIRED (R333). -/
def State.retire (s : State) (f cause : Nat) : State :=
  ((s.putFrame f { s.frame f with retired := true }).flagCount MEM_STATUS 1 MEM_EVT_CNT1 15 8).raise 0x0303 .all
    [(0, 1, frameStack f), (1, 1, cause), (4, 8, frameDpa f)]

/-- A frame is freed: its bytes are cleared, and it is retired where its errors ask for it (R333). -/
def State.freeFrame (s : State) (f : Nat) : State :=
  let x := s.frame f
  let s1 := { s with mem := { s.mem with hbm := zeroBytes s.mem.hbm (frameDpa f) frameBytes } }
  let s2 := s1.putFrame f { x with used := false, owner := none, pagedIn := false }
  if x.retired then s2
  else if x.uncorr then s2.retire f 0
  else if 16 ≤ x.corrected then s2.retire f 1
  else s2

/-- Frames freed one after another. -/
def State.freeFrames (s : State) (fs : List Nat) : State := fs.foldl State.freeFrame s

/-- n frames in rotation; none where they cannot all be had. -/
def State.allocFrames (s : State) (mask : Nat) (owner : Option Nat) : Nat → Option (List Nat × State)
  | 0 => some ([], s)
  | n + 1 =>
    match s.allocFrame mask owner false with
    | none => none
    | some (f, s1) =>
      match s1.allocFrames mask owner n with
      | none => none
      | some (fs, s2) => some (f :: fs, s2)

/-- Every frame of [f, f + n) is free. -/
def State.rangeFree (s : State) (f n : Nat) : Bool :=
  s.mem.frames.all fun e => e.1 < f || f + n ≤ e.1 || !(e.2.used || e.2.retired)

/-- The lowest free 1 GiB-aligned range of a stack, among the first n ranges from number i on. -/
def State.bigOfStack (s : State) (m : Nat) : Nat → Nat → Option Nat
  | 0, _ => none
  | n + 1, i =>
    let f := stackFrames * m + 512 * i
    if s.rangeFree f 512 then some f else s.bigOfStack m n (i + 1)

/-- Frames f to f + n − 1 marked used by an owner. -/
def State.takeRange (s : State) (f : Nat) (owner : Option Nat) : Nat → State
  | 0 => s
  | n + 1 => (s.putFrame f { s.frame f with used := true, owner := owner }).takeRange (f + 1) owner n

/-- The first stack of the mask, in rotation, with a free 1 GiB range. -/
def State.rotateBig (s : State) (mask : Nat) : Nat → Nat → Option (Nat × Nat)
  | 0, _ => none
  | n + 1, r =>
    if bit mask (r % 12) then
      match s.bigOfStack (r % 12) 36 0 with
      | some f => some (r % 12, f)
      | none => s.rotateBig mask n (r + 1)
    else s.rotateBig mask n (r + 1)

/-- A 1 GiB page: 512 aligned frames of one stack (R327). -/
def State.allocBig (s : State) (mask : Nat) (owner : Option Nat) : Option (Nat × State) :=
  match s.rotateBig mask 12 s.mem.nextFrame with
  | none => none
  | some (m, f) =>
    let s1 := s.takeRange f owner 512
    some (f, { s1 with mem := { s1.mem with nextFrame := (m + 1) % 12 } })

/-! ## Page-table entries -/

/-- The leaf entry that maps virtual page number p (VA[51:21]), with its key: a 2 MiB page or the 1 GiB page around it. -/
def Ctx.pte (x : Ctx) (p : Nat) : Option (Nat × Pte) :=
  match mfind x.pt p with
  | some e => some (p, e)
  | none =>
    match mfind x.pt (512 * (p / 512)) with
    | some e => if e.big then some (512 * (p / 512), e) else none
    | none => none

/-- Entry k of context c changed. -/
def State.modPte (s : State) (c k : Nat) (f : Pte → Pte) : State :=
  s.modCtx c fun x => match mfind x.pt k with
    | some e => { x with pt := mput x.pt k (f e) }
    | none => x

/-- What became of an access to virtual memory: done; waiting for a page-in of the page at an address; waiting for a shadow
frame (R538); or not translatable, with the reason of Table 9.23 and the address. -/
inductive VmRes (α : Type) where
  | ok (a : α)
  | wait (va : Nat)
  | hold
  | bad (reason va : Nat)
  deriving DecidableEq, Repr

/-- The DPA behind an address of a mapped page. -/
def pteDpa (k : Nat) (e : Pte) (va : Nat) : Nat := e.addr + (va - frameBytes * k)

/-- Translation of one address (R335, R346): the entry's key, the entry and the DPA. -/
def Ctx.translate (x : Ctx) (va : Nat) (write : Bool) : VmRes (Nat × Pte × Nat) :=
  if 2 ^ 52 ≤ va then .bad 0 va
  else
    match x.pte (va / frameBytes) with
    | none => .bad 0 va
    | some (k, e) =>
      if write && !e.write then .bad 1 va
      else match e.ty with
        | .resident => .ok (k, e, pteDpa k e va)
        | _ => .wait va

/-! ## The first write to a PENDING page (R537, R538) -/

/-- The position of a page in a list of secured pages. -/
def secIndex (ps : List SecPage) (page : Nat) : Option Nat := (findAt (fun p => p.page == page) ps 0).map (·.1)

/-- Copy segment g (2 KiB) of the page at DPA src into the frame at DPA dst. -/
def copySeg (m : Mem) (src dst g : Nat) : Mem := wrBytes m (dst + 2048 * g) (rdBytes m (src + 2048 * g) 2048)

/-- Copy those of the segments gs that the shadow does not hold yet. -/
def copySegs (m : Mem) (src dst : Nat) (have_ : List Nat) : List Nat → Mem × List Nat
  | [] => (m, have_)
  | g :: gs =>
    if have_.contains g then copySegs m src dst have_ gs
    else copySegs (copySeg m src dst g) src dst (have_ ++ [g]) gs

/-- Before a write to segments gs of a protected page (entry k, virtual page p): the page gets a shadow frame if it has none, and
the segments not yet copied are copied. None: no shadow frame is free (R538). A page that the securing does not list, or whose
bytes are on their way, is not held. -/
def State.shadowFor (s : State) (c k p : Nat) (gs : List Nat) : Option State :=
  let x := s.ctx c
  match x.dust.securing, mfind x.pt k with
  | some sec, some e =>
    let go := fun (i fr order : Nat) (have_ : List Nat) (sec : Securing) (reserve : List Nat) =>
      let m := copySegs s.mem.hbm (pteDpa k e (frameBytes * p)) (frameDpa fr) have_ gs
      let sec' := { sec with
        marks := setAt sec.marks i (.shadow fr order m.2), bytes := sec.bytes + 2048 * (m.2.length - have_.length) }
      let s1 := ({ s with mem := { s.mem with hbm := m.1 } }).modCtx c fun y =>
        { y with dust := { y.dust with securing := some sec', reserve := reserve } }
      if 1024 ≤ m.2.length ∧ !e.big then s1.modPte c k fun e => { e with protect := false } else s1
    match secIndex sec.pages p with
    | none => some s
    | some i =>
      match sec.marks[i]? with
      | some (.shadow fr o have_) => some (go i fr o have_ sec x.dust.reserve)
      | some .pending =>
        match x.dust.reserve with
        | [] => none
        | fr :: rest => some (go i fr sec.nextOrder [] { sec with nextOrder := sec.nextOrder + 1 } rest)
      | _ => some s
  | _, _ => some s

/-! ## Reads and writes -/

/-- The ranges [a, a + n) cut at page boundaries: (address, bytes). -/
def pageSplit : Nat → Nat → Nat → List (Nat × Nat)
  | 0, _, _ => []
  | fuel + 1, a, n =>
    if n = 0 then []
    else
      let m := min n (frameBytes - a % frameBytes)
      (a, m) :: pageSplit fuel (a + m) (n - m)

/-- [va, va + n) by pages. -/
def pagesOf (va n : Nat) : List (Nat × Nat) := pageSplit (n / frameBytes + 2) va n

/-- Every page of a list of ranges can be accessed, or the first that cannot. -/
def Ctx.checkAll (x : Ctx) (write : Bool) : List (Nat × Nat) → VmRes Unit
  | [] => .ok ()
  | (va, _) :: rs =>
    match x.translate va write with
    | .ok _ => x.checkAll write rs
    | .wait a => .wait a
    | .hold => .hold
    | .bad r a => .bad r a

/-- The bytes of resident ranges. -/
def State.readRanges (s : State) (c : Nat) : List (Nat × Nat) → List Byte
  | [] => []
  | (va, n) :: rs =>
    match (s.ctx c).translate va false with
    | .ok (_, _, d) => rdBytes s.mem.hbm d n ++ s.readRanges c rs
    | _ => s.readRanges c rs

/-- ACCESSED, and DIRTY for a write, set in the entries of ranges (Table 9.3). -/
def State.touch (s : State) (c : Nat) (write : Bool) (rs : List (Nat × Nat)) : State :=
  rs.foldl (fun t r =>
    match (t.ctx c).pte (r.1 / frameBytes) with
    | some (k, e) =>
      if e.accessed && (e.dirty || !write) then t
      else t.modPte c k fun e => { e with accessed := true, dirty := e.dirty || write }
    | none => t) s

/-- A read of n bytes of virtual memory. -/
def State.vread (s : State) (c va n : Nat) : VmRes (List Byte × State) :=
  let rs := pagesOf va n
  match (s.ctx c).checkAll false rs with
  | .ok _ => .ok (s.readRanges c rs, s.touch c false rs)
  | .wait a => .wait a
  | .hold => .hold
  | .bad r a => .bad r a

/-- The shadows that a write to resident ranges needs. -/
def State.shadowRanges (s : State) (c : Nat) : List (Nat × Nat) → Option State
  | [] => some s
  | (va, n) :: rs =>
    match (s.ctx c).pte (va / frameBytes) with
    | some (k, e) =>
      if e.protect then
        let o := va % frameBytes
        match s.shadowFor c k (va / frameBytes) (List.range' (o / 2048) ((o + n - 1) / 2048 - o / 2048 + 1)) with
        | some s1 => s1.shadowRanges c rs
        | none => none
      else s.shadowRanges c rs
    | none => s.shadowRanges c rs

/-- Bytes put at resident ranges. -/
def State.writeRanges (s : State) (c : Nat) (bs : List Byte) : List (Nat × Nat) → State
  | [] => s
  | (va, n) :: rs =>
    match (s.ctx c).translate va true with
    | .ok (_, _, d) =>
      State.writeRanges { s with mem := { s.mem with hbm := wrBytes s.mem.hbm d (bs.take n) } } c (bs.drop n) rs
    | _ => s.writeRanges c (bs.drop n) rs

/-- Load reservations of the context's cores that the range [va, va + n) overlaps end. -/
def State.breakResv (s : State) (c va n : Nat) : State :=
  (s.ctxAus c).foldl (fun t e =>
    match (t.au e.2).core.resv with
    | some (r, m) =>
      if r < va + n ∧ va < r + m then t.modAu e.2 fun a => { a with core := { a.core with resv := none } } else t
    | none => t) s

/-- A write of bytes to virtual memory. -/
def State.vwrite (s : State) (c va : Nat) (bs : List Byte) : VmRes State :=
  let rs := pagesOf va bs.length
  match (s.ctx c).checkAll true rs with
  | .ok _ =>
    match s.shadowRanges c rs with
    | none => .hold
    | some s1 => .ok (((s1.writeRanges c bs rs).touch c true rs).breakResv c va bs.length)
  | .wait a => .wait a
  | .hold => .hold
  | .bad r a => .bad r a

/-- The bytes of a range within one page, wherever they are: in HBM, or behind the page in host memory, whence a page-in would
bring them. What is not mapped reads 0. -/
def State.peekPage (s : State) (c va n : Nat) : List Byte :=
  match (s.ctx c).pte (va / frameBytes) with
  | none => List.replicate n 0
  | some (k, e) =>
    match e.ty with
    | .resident => rdBytes s.mem.hbm (pteDpa k e va) n
    | _ => (s.hostRead e.port (e.backing + (va - frameBytes * k)) n).getD (List.replicate n 0)

/-- A read by an agent of the part as part of an action of its own: the bytes that a page-in would bring count as read. -/
def State.vpeek (s : State) (c va n : Nat) : List Byte := ((pagesOf va n).map fun r => s.peekPage c r.1 r.2).flatten

/-- An agent of the hub needs ranges of virtual memory: where a page of them waits for a page-in, the want is recorded and the
command stands until the page is there. -/
def State.hubNeeds (s : State) (c : Nat) (rs : List (Nat × Nat)) (write : Bool) (go : State → State) : State :=
  match (s.ctx c).checkAll write (rs.map fun r => pagesOf r.1 r.2).flatten with
  | .wait va =>
    let w : Want := ⟨c, va, 7, 0xFF, write⟩
    if s.mem.wants.contains w then s else { s with mem := { s.mem with wants := s.mem.wants ++ [w] } }
  | _ => go s

/-- A write within one page by an agent of the part that cannot wait: a page that is not in HBM is written where it is backed,
and where no frame of the reserve is free for a shadow (R538) a free frame joins the reserve. -/
def State.pokePage (s : State) (c va : Nat) (bs : List Byte) : State :=
  match (s.ctx c).pte (va / frameBytes) with
  | none => s
  | some (k, e) =>
    match e.ty with
    | .resident =>
      match s.vwrite c va bs with
      | .ok s1 => s1
      | .hold =>
        (match s.allocFrame 0xFFF (some c) false with
        | none => s
        | some (f, s1) =>
          match (s1.modCtx c fun x =>
            { x with dust := { x.dust with reserve := f :: x.dust.reserve, reserveAll := f :: x.dust.reserveAll } }).vwrite c va bs with
          | .ok s2 => s2
          | _ => s)
      | _ => s
    | _ => if e.write then s.hostWrite e.port (e.backing + (va - frameBytes * k)) bs else s

/-- A write by an agent of the part that cannot wait; what is not mapped, or mapped for reading only, is not written. -/
def State.vpoke (s : State) (c va : Nat) (bs : List Byte) : State :=
  (pagesOf va bs.length).foldl (fun t r => t.pokePage c r.1 ((bs.drop (r.1 - va)).take r.2)) s

/-- An agent of the part is about to write ranges: it waits for pages that are not there, and for shadow frames (R538); both are
had before anything is written. -/
def State.hubWrites (s : State) (c : Nat) (rs : List (Nat × Nat)) (go : State → State) : State :=
  s.hubNeeds c rs true fun s0 =>
    match s0.shadowRanges c (rs.map fun r => pagesOf r.1 r.2).flatten with
    | none => s
    | some s1 => go s1

/-- The page of a want. -/
def Want.page (w : Want) : Nat := w.va / frameBytes

/-- An access that waits for a page-in is recorded once (R341). -/
def State.want (s : State) (w : Want) : State :=
  if s.mem.wants.contains w then s else { s with mem := { s.mem with wants := s.mem.wants ++ [w] } }

/-! ## Logical buffers -/

/-- Where a base in Stencil BASE form leads (Table 4.8): an address of virtual memory, or an offset in the Hawk of an AU. -/
inductive Place where
  | virt (va : Nat)
  | hawk (au off : Nat)
  deriving DecidableEq, Repr

/-- The record of logical buffer b (counted from 1). -/
def Ctx.lbuf (x : Ctx) (b : Nat) : Option LbufRec :=
  if b = 0 then none
  else match x.prog with
    | some p => p.lbufs[b - 1]?
    | none => none

/-- The physical AU of logical AU l. -/
def Ctx.auOf (x : Ctx) (l : Nat) : Option Nat := mfind x.place l

/-- The place of byte `off` of logical buffer b; buffer 0 names an absolute virtual address. -/
def Ctx.locate (x : Ctx) (b off : Nat) : Option Place :=
  if b = 0 then some (.virt off)
  else match x.lbuf b with
    | none => none
    | some r =>
      if r.space = 1 then some (.virt (r.va + off))
      else (x.auOf r.lau).map fun a => .hawk a (r.va + off)

/-- The place of a base in Stencil BASE form. -/
def Ctx.base (x : Ctx) (w : Nat) : Option Place := x.locate (bits w 63 52) (bits w 51 0)

/-- The virtual address of a base in Stencil BASE form that leads into VIRT space. -/
def Ctx.baseVa (x : Ctx) (w : Nat) : Option Nat :=
  match x.base w with
  | some (.virt a) => some a
  | _ => none

/-! ## Tensors (Table 4.19) -/

/-- A tensor is delayed-scaled (R99). -/
def TensorRec.delayed (t : TensorRec) : Bool := bits t.kind 1 0 != 0

/-- Blocks of a tensor of MX format: each has its values and a scale byte. -/
def TensorRec.blocks (t : TensorRec) : Nat := ceilDiv t.size (16 * 2 ^ (t.block % 4) * fmtBits (t.fmt % 16) / 8 + 1)

/-- Bytes of one overflow map. -/
def TensorRec.mapBytes (t : TensorRec) : Nat := ceilDiv t.blocks 8

/-- Bytes of a tensor's pair of overflow maps. -/
def TensorRec.pairBytes (t : TensorRec) : Nat := roundUp (2 * t.mapBytes) 64

/-- Tensor i of the TENSOR section. -/
def Ctx.tensor (x : Ctx) (i : Nat) : Option TensorRec := match x.prog with | some p => p.tensors[i]? | none => none

/-- The scale-table entry of tensor i: its position among the delayed-scaled tensors. -/
def Ctx.scaleIndex (x : Ctx) (i : Nat) : Nat :=
  match x.prog with | some p => ((p.tensors.take i).filter TensorRec.delayed).length | none => 0

end Sys2Proof.Machine
end

