-- ==== Sys2Proof/Machine/LinkOps.lean ====
section
/-!
DEFINITION. The link layer of the Omwen links (10_omwen_links.md): headers and flits, credits, sending, routes, transaction
slots, the completion of a transaction at its origin, a port's leaving UP, and the end of link work, Roller receivers and windows
of a context that is torn down.
-/
namespace Sys2Proof.Machine

/-! ## Headers and flits (R390, R394) -/

/-- The 64 bytes of a header (Table 10.6). -/
def hdrBytes (h : Hdr) : List Byte :=
  (layOut 32 [(0, 1, h.op), (1, 1, h.hops), (2, 2, h.dst), (4, 2, h.org), (6, 2, h.txn), (8, 4, h.tseq), (12, 4, h.handle),
    (16, 8, h.offset), (24, 4, h.length), (28, 1, h.status)]) ++ (h.args ++ List.replicate 32 0).take 32

/-- The header that 64 bytes spell. -/
def hdrOf (b : List Byte) : Hdr :=
  { op := byteAt b 0, hops := byteAt b 1, dst := fieldLe b 2 2, org := fieldLe b 4 2, txn := fieldLe b 6 2, tseq := fieldLe b 8 4,
    handle := fieldLe b 12 4, offset := fieldLe b 16 8, length := fieldLe b 24 4, status := byteAt b 28, args := (b.drop 32).take 32 }

/-- Bytes made up to a multiple of a flit part. -/
def padTo (n : Nat) (bs : List Byte) : List Byte := (bs ++ List.replicate n 0).take n

/-- DATA flits of a transaction of n data bytes that a header flit does not hold. -/
def dataFlits (n : Nat) : Nat := ceilDiv (n - 192) 256

/-- Data of a list cut into flits of 256 bytes. -/
def cutFlits (vc : Nat) (bs : List Byte) : Nat → List Flit
  | 0 => []
  | n + 1 => ⟨vc, 2, padTo 256 (bs.take 256)⟩ :: cutFlits vc (bs.drop 256) n

/-- The flits of a transaction. -/
def flitsOf (t : LTxn) : List Flit :=
  ⟨t.vc, 1, hdrBytes t.hdr ++ padTo 192 (t.data.take 192)⟩ :: cutFlits t.vc (t.data.drop 192) (dataFlits t.data.length)

/-! ## Ports -/

/-- Link port p. -/
def State.lport (s : State) (p : Nat) : LinkPort := mget LinkPort.reset s.links.ports p
/-- Link port p changed. -/
def State.modLport (s : State) (p : Nat) (f : LinkPort → LinkPort) : State :=
  { s with links := { s.links with ports := mset LinkPort.reset s.links.ports p (f (s.lport p)) } }
/-- The identifier of this part. -/
def State.partId (s : State) : Nat := s.fld LNK_PART_ID 15 0

/-- Reserve of a virtual channel, and the flits all share (R396). -/
def vcReserve : Nat := 272
def rxShared : Nat := 1920

/-- Shared flits that a use of the buffer takes: what goes beyond each channel's reserve. -/
def sharedOf (used : Map Nat) : Nat := used.foldl (fun n e => n + (e.2 - vcReserve)) 0

/-- Credit for n more flits on a channel. -/
def creditOk (used : Map Nat) (vc n : Nat) : Bool := decide (sharedOf (mset 0 used vc (mget 0 used vc + n)) ≤ rxShared)

/-- Sequence number a is before b, modulo 65,536. -/
def seqBefore (a b : Nat) : Bool := a != b && decide ((b + 65536 - a) % 65536 < 32768)

/-- The entry of the waiting list that is sent next (R395): the oldest of its channel, with credit and room in the replay
buffer; CTRL first, then MGMT, then the others in order of arrival. -/
def LinkPort.nextWait (x : LinkPort) : Option (Nat × WaitTxn) :=
  let es := (List.range x.waiting.length).filterMap fun i => (x.waiting[i]?).map fun w => (i, w)
  let heads := es.filter fun e => !(es.any fun d => decide (d.1 < e.1) && d.2.vc == e.2.vc)
  let ok := heads.filter fun e =>
    creditOk x.txUsed e.2.vc e.2.flits.length && decide (x.sent.length + e.2.flits.length ≤ 1024)
  match ok.find? fun e => e.2.vc == 0 with
  | some e => some e
  | none => match ok.find? fun e => e.2.vc == 7 with
    | some e => some e
    | none => ok.head?

/-- The flits of a waiting entry leave (R391, R392, R399). -/
def LinkPort.sendWait (x : LinkPort) (now i : Nat) (w : WaitTxn) : LinkPort :=
  let n := w.flits.length
  { x with
    waiting := x.waiting.eraseIdx i
    sent := x.sent ++ (List.range n).filterMap fun j => (w.flits[j]?).map fun f => ⟨(x.txSeq + j) % 65536, f, now, w.slot, false⟩
    txSeq := (x.txSeq + n) % 65536
    txIndex := (x.txIndex + n) % 65536
    txUsed := mset 0 x.txUsed w.vc (mget 0 x.txUsed w.vc + n) }

/-- What a port in UP can send is sent. -/
def State.pumpGo (s : State) (p : Nat) : Nat → State
  | 0 => s
  | n + 1 =>
    match (s.lport p).nextWait with
    | none => s
    | some (i, w) =>
      let s1 := s.modLport p fun x => x.sendWait s.now i w
      let s2 := match w.slot with
        | none => s1
        | some k => { s1 with links := { s1.links with txns := match mfind s1.links.txns k with
            | some t => mput s1.links.txns k { t with sentAt := s1.now }
            | none => s1.links.txns } }
      s2.pumpGo p n

/-- What a port can send is sent, if it is UP. -/
def State.pump (s : State) (p : Nat) : State :=
  if (s.lport p).state = .up then s.pumpGo p (s.lport p).waiting.length else s

/-! ## Routes (R401 to R404) -/

/-- The route entry of a destination: port and DATELINE. -/
def State.route (s : State) (dst : Nat) : Option (Nat × Bool) :=
  let w := mget 0 s.links.routes dst
  if bit w 31 then some (w % 16, bit w 30) else none

/-- A destination that is this part itself (R401). -/
def State.isSelf (s : State) (dst : Nat) : Bool := dst == 0xFFFF || dst == s.partId

/-- The channel after a dateline (R403). -/
def afterDateline (dl : Bool) (vc : Nat) : Nat := if dl && (vc == 1 || vc == 3 || vc == 5) then vc + 1 else vc

/-- A transaction waits to be sent on a port. -/
def State.enqueue (s : State) (p : Nat) (t : LTxn) (slot : Option Nat) : State :=
  (s.modLport p fun x => { x with waiting := x.waiting ++ [⟨t.vc, flitsOf t, slot⟩] }).pump p

/-- A transaction reaches this part's own consumers. `p` is the port that it came over, 16 for none. -/
def State.deliver (s : State) (p : Nat) (t : LTxn) : State := { s with links := { s.links with inbox := s.links.inbox ++ [(p, t)] } }

/-- A transaction that holds no slot of this part (an answer, an abort, a notice) is sent; where it cannot go it is discarded. -/
def State.sendFree (s : State) (t : LTxn) : State :=
  if s.isSelf t.hdr.dst then s.deliver 16 t
  else match s.route t.hdr.dst with
    | none => s.count LNK_EVT_CNT 7 0 1
    | some (p, dl) =>
      if (s.lport p).state = .up then s.enqueue p { t with vc := afterDateline dl t.vc } none else s

/-- A header of this part's own making. -/
def State.ownHdr (s : State) (op dst txn tseq handle offset length status : Nat) (args : List Byte) : Hdr :=
  { op := op, hops := 0, dst := dst, org := s.partId, txn := txn, tseq := tseq, handle := handle, offset := offset, length := length,
    status := status, args := args }

/-- An answer to a transaction (R397, R412, R415): COMPLETE 4, HOLD 5 or READ_DATA 3. -/
def State.answer_ (s : State) (t : LTxn) (op status offset : Nat) (data : List Byte) : State :=
  s.sendFree ⟨s.ownHdr op t.hdr.org t.hdr.txn t.hdr.tseq t.hdr.handle offset data.length status [], data, 3⟩

/-! ## Transaction slots (R398) -/

/-- A transaction of a collective, which has a reserve of its own. -/
def TxnUser.isColl : TxnUser → Bool
  | .coll _ _ => true
  | _ => false

/-- Transactions of context c on a port, of REQ or of COLL. -/
def State.slotsOf (s : State) (p c : Nat) (coll : Bool) : Nat :=
  (s.links.txns.filter fun e => e.1 / 4096 == p && e.2.ctx == c && e.2.user.isColl == coll).length

/-- Shared slots that context c takes on a port. -/
def State.sharedSlots (s : State) (p c : Nat) : Nat := (s.slotsOf p c false - 8) + (s.slotsOf p c true - 8)

/-- A slot may be taken: the reserve of 8, or a shared slot. -/
def State.slotOk (s : State) (p c : Nat) (coll : Bool) : Bool :=
  decide (s.slotsOf p c coll < 8)
    || (decide (s.sharedSlots p c < 1024) && decide ((List.range 64).foldl (fun n d => n + s.sharedSlots p d) 0 < 3072))

/-- The lowest free slot of a port. -/
def State.freeSlot (s : State) (p : Nat) : Option Nat :=
  ((List.range 4096).find? fun i => (mfind s.links.txns (4096 * p + i)).isNone).map fun i => 4096 * p + i

/-- What comes of a transaction offered for sending: sent, waiting for a slot or a hold, or failed at issue with a status. -/
inductive SendRes where
  | sent (s : State)
  | wait
  | fail (status : Nat) (s : State)
  deriving DecidableEq, Repr

/-- A context is held by HOLD toward a destination on a channel (R415). -/
def State.heldTo (s : State) (c dst vc : Nat) : Bool :=
  s.links.txns.any fun e => e.2.ctx == c && e.2.dst == dst && e.2.t.vc == vc && e.2.holdUntil.isSome

/-- A transaction of this part is sent (R398, R404, R415, R437): a fenced destination, one without a route or behind a port that
is not UP fails at issue. -/
def State.sendTxn (s : State) (user : TxnUser) (c op dst handle offset length : Nat) (data args : List Byte) (vc : Nat)
    (bufs : Nat × Nat) : SendRes :=
  let self := s.isSelf dst
  let r := if self then some (0, false) else s.route dst
  if s.links.fenced.contains dst then .fail 0x46 s
  else match r with
    | none => .fail 0x4A (s.count LNK_EVT_CNT 7 0 1)
    | some (p, dl) =>
      if !self && (s.lport p).state != .up then .fail 0x45 s
      else if s.heldTo c dst vc || !s.slotOk p c user.isColl then .wait
      else match s.freeSlot p with
        | none => .wait
        | some k =>
          let q := mget 0 s.links.tseq dst
          let h := s.ownHdr op dst (4096 * (p % 16) + k % 4096) q handle offset length 0 args
          let t : LTxn := ⟨h, data, vc⟩
          let x : Txn := ⟨user, t, dst, c, bufs, s.now, none, 0⟩
          let s1 := { s with links := { s.links with
            txns := mput s.links.txns k x, tseq := mput s.links.tseq dst ((q + 1) % 2 ^ 32) } }
          .sent (if self then s1.deliver 16 t else s1.enqueue p { t with vc := afterDateline dl vc } (some k))

/-! ## The end of a transaction at its origin -/

/-- The failure at the lowest offset is kept (R421). -/
def lowerFail (old : Option (Nat × Nat)) (off status : Nat) : Option (Nat × Nat) :=
  match old with
  | some (o, st) => if o ≤ off then some (o, st) else some (off, status)
  | none => some (off, status)

/-- A link work entry of context c changed. -/
def State.modEntry (s : State) (c i : Nat) (f : LinkEntry → LinkEntry) : State :=
  s.modCtx c fun x => match mfind x.linkWork i with
    | some e => { x with linkWork := mput x.linkWork i (f e) }
    | none => x

/-- A receiver of a Roller transfer changed. -/
def State.modRcv (s : State) (id r : Nat) (f : Rcv → Rcv) : State :=
  match mfind s.mem.rollers id with
  | none => s
  | some x => { s with mem := { s.mem with rollers := mput s.mem.rollers id { x with rcvs := x.rcvs.modify r f } } }

/-- What the user of a transaction keeps of its end. -/
def State.txnNote (s : State) (u : TxnUser) (status off : Nat) : State :=
  match u with
  | .entry c i => s.modEntry c i fun e =>
    { e with out := e.out - 1, fail := if status = 0 then e.fail else lowerFail e.fail off status }
  | .coll c i => s.modEntry c i fun e =>
    { e with out := e.out - 1, since := s.now, fail := if status = 0 then e.fail else lowerFail e.fail off status }
  | .roller id r => s.modRcv id r fun v =>
    if status = 0 then { v with written := v.written + 1 } else { v with fail := some (v.fail.getD status) }
  | .secure c t => s.modCtx c fun x => match x.dust.securing with
    | none => x
    | some g =>
      let y := mget ⟨0, 0, 0⟩ g.tgts t
      let g1 := { g with tgts := mput g.tgts t { y with out := y.out - 1 } }
      { x with dust := { x.dust with securing := some (if status = 0 then g1 else { g1 with failed := some (g1.failed.getD (t, status)) }) } }
  | .fetch c => s.modCtx c fun x =>
    { x with dust := { x.dust with
      fetchOut := x.dust.fetchOut - 1, fetchFail := if status = 0 then x.dust.fetchFail else some (x.dust.fetchFail.getD status) } }

/-- A transaction is over at its origin: its slot and its staging buffers are free, and its user is told. -/
def State.finishTxn (s : State) (k status off : Nat) : State :=
  match mfind s.links.txns k with
  | none => s
  | some x =>
    let s1 := { s with links := { s.links with txns := mdel s.links.txns k } }
    let s2 := { s1 with mem := { s1.mem with
      sharedUsed := mset 0 s1.mem.sharedUsed x.bufs.1 (mget 0 s1.mem.sharedUsed x.bufs.1 - x.bufs.2) } }
    (s2.txnNote x.user status off).modCtx x.ctx fun c => { c with progressAt := s2.now }

/-- The flits of a transaction that are still held for replay or transmission are abandoned (R430): one already sent gives way
to an empty LINK flit, so that sequence numbers stay whole. -/
def State.dropFlits (s : State) (k : Nat) : State :=
  s.modLport (k / 4096) fun x =>
    { x with
      waiting := x.waiting.filter fun w => w.slot != some k
      sent := x.sent.map fun f => if f.slot = some k then { f with flit := ⟨0, 3, List.replicate 256 0⟩, slot := none } else f }

/-- R430, steps 1 and 2: its flits are abandoned and ABORT is sent. -/
def State.abortTxn (s : State) (k : Nat) : State :=
  match mfind s.links.txns k with
  | none => s
  | some x =>
    (s.dropFlits k).sendFree ⟨s.ownHdr 7 x.dst x.t.hdr.txn x.t.hdr.tseq x.t.hdr.handle x.t.hdr.offset 0 0 [], [], 7⟩

/-! ## A port leaves UP (R389) -/

/-- The transactions of this part whose flits a port still holds. -/
def LinkPort.heldKeys (x : LinkPort) : List Nat :=
  (x.waiting.filterMap (·.slot) ++ x.sent.filterMap (·.slot)).eraseDups

/-- A port that is not UP holds nothing: its buffers and counts begin anew. -/
def LinkPort.quiet (x : LinkPort) (st : PortState) : LinkPort :=
  { x with
    state := st, waiting := [], sent := [], replays := [], rxPart := [], rxUsed := [], rxFreed := [], txUsed := [], txFreedSeen := []
    txIndex := 0, rxIndex := 0, txSeq := 0, rxSeq := 0, nakFor := none, sideBad := false, retry := false }

/-- The port goes to a state other than UP; what it held is abandoned, and this part's transactions among it complete with
LINK_DOWN. -/
def State.portQuiet (s : State) (p : Nat) (st : PortState) : State :=
  let ks := (s.lport p).heldKeys
  ks.foldl (fun t k => t.finishTxn k 0x45 (match mfind t.links.txns k with | some x => x.t.hdr.offset | none => 0))
    (s.modLport p fun x => x.quiet st)

/-- A port in UP leaves it, with LINK_DOWN and its reason (Table 10.22). -/
def State.leaveUp (s : State) (p reason : Nat) (st : PortState) : State :=
  if (s.lport p).state = .up then
    let s1 := ((s.portQuiet p st).modLport p fun x => { x with downAt := s.now })
    (((s1.setFld (LNK_PORT_FLAGS p) 0 0 1).count (LNK_REPLAY_CNT p) 31 16 1).total 5 1).raise 0x0401 .all [(0, 1, p), (1, 1, reason)]
  else s

/-! ## Link work entries (R416 to R419) -/

/-- The base of a context's link work ring in Stencil BASE form. -/
def State.workBase (s : State) (c : Nat) : Nat :=
  let hi := s.reg (LNK_WR_BASE_HI c)
  2 ^ 52 * bits hi 31 20 + 2 ^ 32 * bits hi 19 0 + s.reg (LNK_WR_BASE_LO c)

/-- Entries of the ring (Table 10.21). -/
def State.workSize (s : State) (c : Nat) : Nat := 2 ^ (min (s.fld (LNK_WR_CTL c) 31 28) 6 + 6)

/-- The virtual address of entry i, if the context has a ring. -/
def State.workVa (s : State) (c i : Nat) : Option Nat :=
  if s.workBase c = 0 then none else ((s.ctx c).baseVa (s.workBase c)).map fun va => va + 64 * i

/-- An entry's OP and flags. -/
def LinkEntry.op (e : LinkEntry) : Nat := byteAt e.bytes 1
def LinkEntry.isColl (e : LinkEntry) : Bool := decide (2 ≤ e.op)
/-- The group of a collective. -/
def LinkEntry.group (e : LinkEntry) : Nat := fieldLe e.bytes 8 2

/-- STATUS, FAIL_OFF and then STATE written in an entry (R418). -/
def State.writeEntry (s : State) (c i status failOff st : Nat) : State :=
  match s.workVa c i with
  | none => s
  | some va => ((s.vpoke c (va + 2) (natLe 1 status)).vpoke c (va + 52) (natLe 4 (failOff % 2 ^ 32))).vpoke c va (natLe 1 st)

/-- COLL_ABORT to every other member of a group (R427). -/
def State.sendCollAborts (s : State) (c g collSeq status : Nat) : State :=
  match mfind (s.ctx c).colls g with
  | none => s
  | some x => (x.members.filter (· != s.partId)).foldl (fun t m =>
      t.sendFree ⟨t.ownHdr 8 m 0 0 (2 ^ 24 * g + collSeq % 2 ^ 24) 0 0 status [], [], 7⟩) s

/-- COLL_FAILED (R440). -/
def State.collFailed (s : State) (c g status collSeq : Nat) : State :=
  (s.flagCount LNK_STATUS 1 LNK_EVT_CNT 15 8).raise 0x0405 (.ctx c) [(0, 1, g), (1, 1, status), (4, 4, collSeq)]

/-- An entry ends FAILED (R421, R427): its transactions are abandoned, and a collective's other members are told if this member
is the first to fail. -/
def State.failEntry (s : State) (c i status failOff : Nat) (tell : Bool) : State :=
  match mfind (s.ctx c).linkWork i with
  | none => s
  | some e =>
    let ks := (s.links.txns.filter fun t => t.2.user == .entry c i || t.2.user == .coll c i).map (·.1)
    let s1 := ks.foldl (fun t k => (t.abortTxn k).finishTxn k status 0) s
    let s2 := (s1.writeEntry c i status failOff 4).modCtx c fun x => { x with linkWork := mdel x.linkWork i }
    if e.isColl then
      let s3 := s2.collFailed c e.group status e.collSeq
      if tell then s3.sendCollAborts c e.group e.collSeq status else s3
    else s2

/-! ## Roller receivers (R378) -/

/-- STATUS of receiver r written in the receiver list (Table 9.13). -/
def State.putRcvStatus (s : State) (x : RollerXfer) (r : Nat) (v : Rcv) (st : Nat) : State :=
  s.vpoke x.ctx (x.rlist + 16 * r + 2) (natLe 1 (byteAt v.entry 2 % 16 + 16 * st))

/-- A receiver fails: its STATUS is FAILED, and ROLLER_RCV_FAILED is raised. -/
def State.failRcv (s : State) (id r status : Nat) : State :=
  match mfind s.mem.rollers id with
  | none => s
  | some x => match x.rcvs[r]? with
    | none => s
    | some v =>
      if v.status = .pending then
        let s1 := s.modRcv id r fun w => { w with status := .failed, attached := false, fail := none }
        let n := ((s1.ctx x.ctx).auOf x.lau).getD 0xFF
        ((s1.putRcvStatus x r v 3).flagCount MEM_STATUS 4 MEM_EVT_CNT1 7 0).raise 0x0321 (.ctx x.ctx)
          [(0, 1, n), (2, 2, r), (4, 2, fieldLe v.entry 0 2), (6, 1, status)]
      else s

/-! ## Windows -/

/-- The windows of a context. -/
def State.winsOf (s : State) (c : Nat) : List Nat := (s.links.windows.filter fun e => e.2.ctx == c).map (·.1)

/-- A TSEQ that this part has completed or had aborted is remembered (R431); those of more than 1 ms ago are forgotten. -/
def State.rememberTseq (s : State) (org tseq : Nat) : State :=
  { s with links := { s.links with
    seen := ⟨org, tseq, s.now⟩ :: s.links.seen.filter fun x => decide (s.now < x.at_ + 1000000) } }

/-- An accepted transaction is answered and done with. -/
def State.settle (s : State) (id op status off : Nat) (data : List Byte) : State :=
  match mfind s.links.accepts id with
  | none => s
  | some a =>
    ({ s with links := { s.links with accepts := mdel s.links.accepts id } }.rememberTseq a.t.hdr.org a.t.hdr.tseq).answer_ a.t op status
      off data

/-- An accepted transaction of a context that is torn down: over a VIRT buffer it completes, over a HAWK buffer, which is gone, it
is refused. -/
def State.settleDown (s : State) (id : Nat) (w : Window) (a : Accept) : State :=
  match (s.ctx w.ctx).locate w.lbuf (w.off + a.t.hdr.offset) with
  | some (.virt va) =>
    if a.t.hdr.op = 1 then (s.vpoke w.ctx (va + a.done) (a.t.data.drop a.done)).settle id 4 0 0 []
    else s.settle id 3 0 a.t.hdr.offset (s.vpeek w.ctx va a.t.hdr.length)
  | _ => s.settle id 4 0x41 0 []

/-- The context's windows are DRAINING and then CLOSED (R414, R522). -/
def State.closeWindows (s : State) (c : Nat) : State :=
  let ws := s.winsOf c
  let s1 := (s.links.accepts.filter fun e => ws.contains e.2.win).foldl (fun t e =>
    match mfind t.links.windows e.2.win with
    | some w => t.settleDown e.1 w e.2
    | none => t) s
  { s1 with links := { s1.links with windows := s1.links.windows.filter fun e => e.2.ctx != c } }

/-! ## The teardown of a context (R522 steps 3 and 4) -/

/-- The context's outstanding transactions are abandoned as R430 describes, with LINK_TIMEOUT as their status. -/
def State.abandonTxns (s : State) (c : Nat) : State :=
  (s.links.txns.filter fun e => e.2.ctx == c && (match e.2.user with | .secure _ _ => false | _ => true)).foldl
    (fun t e => (t.abortTxn e.1).finishTxn e.1 0x44 e.2.t.hdr.offset) s

/-- The transactions of a context's securing or image reads are abandoned (R544). -/
def State.abandonHub (s : State) (c : Nat) : State :=
  (s.links.txns.filter fun e => e.2.ctx == c).foldl (fun t e => (t.abortTxn e.1).finishTxn e.1 0x44 e.2.t.hdr.offset) s

/-- The context's link work entries and collectives fail with a status. -/
def State.failEntries (s : State) (c status : Nat) : State :=
  ((s.ctx c).linkWork.foldl (fun t e => t.failEntry c e.1 status 0 true) s).modCtx c fun x => { x with posted := [] }

/-- The context's Roller receivers that are not finished fail, and its transfers end. -/
def State.failRollers (s : State) (c : Nat) : State :=
  let rs := s.mem.rollers.filter fun e => e.2.ctx == c
  let s1 := rs.foldl (fun t e => (List.range e.2.rcvs.length).foldl (fun u r => u.failRcv e.1 r 0x04) t) s
  { s1 with mem := { s1.mem with rollers := s1.mem.rollers.filter fun e => e.2.ctx != c } }

/-! ## Queues bound to link egress (R420) -/

/-- A started entry takes its bytes from queue q of logical AU l and has not popped its last one. -/
def Ctx.linkBound (x : Ctx) (l q : Nat) : Bool :=
  x.linkWork.any fun e => bit (byteAt e.2.bytes 50) 7 && byteAt e.2.bytes 50 % 32 == q && byteAt e.2.bytes 51 == l
    && decide (e.2.popped < (if e.2.isColl then fieldLe e.2.bytes 32 8 * fieldLe e.2.bytes 40 4 else fieldLe e.2.bytes 32 8))

end Sys2Proof.Machine
end

