-- ==== Sys2Proof/Machine/Teardown.lean ====
section
/-!
DEFINITION. Stopping a context's agents, and the teardown of R522 that every fault of a context starts (R521, R689).
Teardown is one step of the model: what R522 lists happens together with the fault that starts it.
-/
namespace Sys2Proof.Machine

/-! ## Priority -/

/-- PRIO of a context. -/
def State.prio (s : State) (c : Nat) : Nat := s.fld (CTX_SCHED c) 2 0

/-- Contexts that wait on a semaphore, in order of arrival. -/
def State.semWaiters (s : State) (n : Nat) : List Nat := (s.sem n).waiters

/-- Effective priority (R501, R516): PRIO, or the priority of a context that waits on a semaphore held, if larger; loans
pass along chains of holders up to a depth of n. -/
def State.eprioTo (s : State) : Nat → Nat → Nat
  | 0, c => s.prio c
  | n + 1, c =>
    s.sems.foldl (fun p e =>
      if e.2.holder = some c then (s.semWaiters e.1).foldl (fun q w => max q (s.eprioTo n w)) p else p) (s.prio c)

/-- Effective priority of a context. -/
def State.eprio (s : State) (c : Nat) : Nat := s.eprioTo 8 c

/-! ## Time spent RUNNING -/

/-- The context leaves RUNNING: its running time is added up (R494, R519). -/
def State.stopClock (s : State) (c : Nat) : State :=
  let x := s.ctx c
  if x.st = .running then
    let d := s.now - x.runAt
    (s.putCtx c { x with runNs := x.runNs + d, runAt := s.now }).setReg64 (CTX_RUN_NS_LO c) (CTX_RUN_NS_HI c)
      ((s.reg64 (CTX_RUN_NS_LO c) (CTX_RUN_NS_HI c) + d) % 2 ^ 64)
  else s

/-- The context enters a state. -/
def State.enter (s : State) (c : Nat) (st : CtxState) : State :=
  let s1 := s.stopClock c
  s1.modCtx c fun x => { x with st := st, runAt := s1.now }

/-! ## Agents -/

/-- An AU cleared (R191); what AU_PROG_STATUS says of a fault, and the hot-bank history, are the AU's own and stay. -/
def Au.cleared (a : Au) : Au := { Au.reset with faulted := a.faulted, hotRun := a.hotRun }

/-- The AU is cleared and becomes free. -/
def State.clearAu (s : State) (n : Nat) : State := s.modAu n Au.cleared

/-- A context waits on no semaphore any more. -/
def State.dropWaits (s : State) (c : Nat) : State :=
  { s with sems := s.sems.filterMap fun e =>
      let x := { e.2 with waiters := e.2.waiters.filter (· != c) }
      if x = Sem.reset then none else some (e.1, x) }

/-- The AU of an issuer. -/
def Issuer.au : Issuer → Option Nat
  | .stencil a _ => some a
  | .move a => some a
  | _ => none

/-- The segment works for context c: it was issued by an AU in the list, or by a hub agent for c. -/
def Seg.isOf (g : Seg) (c : Nat) (aus rollers : List Nat) : Bool :=
  match g.issuer with
  | .stencil a _ => aus.contains a
  | .move a => aus.contains a
  | .roller id _ => rollers.contains id
  | .hub c' => c' == c
  | .link c' => c' == c

/-- The tag and the staging buffer of a segment are released (R211). -/
def State.freeSeg (s : State) (id : Nat) : State :=
  match mfind s.mem.segs id with
  | none => s
  | some g =>
    let s1 := { s with mem := { s.mem with segs := mdel s.mem.segs id } }
    let s2 :=
      if g.rsv then s1
      else { s1 with mem := { s1.mem with sharedUsed := mset 0 s1.mem.sharedUsed g.die (mget 0 s1.mem.sharedUsed g.die - 1) } }
    match g.issuer.au with
    | none => s2
    | some a => s2.modAu a fun x =>
      { x with rsvHeld := x.rsvHeld - b2n g.rsv, shHeld := x.shHeld - b2n (!g.rsv), raHeld := x.raHeld - b2n g.runahead }

/-- Every segment that works for context c is dropped. -/
def State.dropSegs (s : State) (c : Nat) : State :=
  let aus := (s.ctxAus c).map (·.2)
  let rl := (s.mem.rollers.filter fun e => e.2.ctx == c).map (·.1)
  (s.mem.segs.filter fun e => e.2.isOf c aus rl).foldl (fun t e => t.freeSeg e.1) s

/-- Every agent of the context stops without saving: its AUs are cleared and free, and nothing of it is in flight. -/
def State.stopAgents (s : State) (c : Nat) : State :=
  let s1 := s.dropSegs c
  let s2 := (s1.ctxAus c).foldl (fun t e => t.clearAu e.2) s1
  let s3 := s2.modCtx c fun x => { x with lastPlace := if x.place.isEmpty then x.lastPlace else x.place, place := [] }
  { s3 with mem := { s3.mem with wants := s3.mem.wants.filter fun w => w.ctx != c } }.dropWaits c

/-! ## Semaphores -/

/-- The context's semaphores are released, with SEM_ABANDONED for each (R515). -/
def State.abandonSems (s : State) (c : Nat) : State :=
  (s.sems.filter fun e => e.2.holder == some c).foldl
    (fun t e => (t.putSem e.1 { t.sem e.1 with holder := none }).raise 0x0908 (.ctx c) [(0, 1, e.1)]) s

/-! ## The Dust sheet -/

/-- The Dust sheet of context c changed. -/
def State.modDust (s : State) (c : Nat) (f : DustSt → DustSt) : State := s.modCtx c fun x => { x with dust := f x.dust }

/-- No page is protected, and every shadow frame is back in the reserve: a securing is over. -/
def State.dropSecuring (s : State) (c : Nat) : State :=
  ((s.modCtx c fun x => { x with pt := x.pt.map fun e => (e.1, { e.2 with protect := false }) }).modDust c fun d =>
    { d with securing := none, reserve := d.reserveAll }).setFld (DST_STATUS c) 30 30 0

/-- A securing is abandoned (R544): its writes are abandoned, and its slot stays WRITING. -/
def State.abandonSecuring (s : State) (c : Nat) : State :=
  ((s.links.txns.filter fun e => match e.2.user with | .secure d _ => d == c | _ => false).foldl
    (fun t e => (t.abortTxn e.1).finishTxn e.1 0x44 e.2.t.hdr.offset) s).dropSecuring c

/-- What ends of the Dust sheet with a teardown: the boundary under way, and what the commands aborted were doing; a securing goes on
(R544). -/
def DustSt.stopped (d : DustSt) : DustSt :=
  { d with closing := none, stage := 0, stalled := false, adoption := none, restore := none, fetchAsked := 0, scratch := [], fetchOut := 0,
           fetchFail := none, queued := none }

/-! ## Teardown -/

/-- RESULT of a RUN (R494): running time of this RUN, and the code of the first fault. -/
def State.runResult (s : State) (c code : Nat) : Nat := (s.ctx c).runNs % 2 ^ 48 + 2 ^ 48 * (code % 65536)

/-- RESULT of a command that completes with ABORTED. -/
def State.abortResult (s : State) (c code : Nat) (cmd : Cmd) : Nat :=
  if byteAt cmd.desc 0 = 0x02 then s.runResult c code else 0

/-- R522 steps 1 to 4 and 6: agents, commands, transactions, link work, mailbox and semaphores. -/
def State.quiesce (s : State) (c code : Nat) : State :=
  let s1 := (s.stopClock c).stopAgents c
  let s2 := s1.completeAll c 0x04 (s1.abortResult c code)
  let s3 := ((s2.abandonTxns c).failEntries c 0x04).failRollers c
  ({ s3 with solver := s3.solver.filter fun j => j.ctx != c }.modCtx c fun x =>
    { x with mbox := [], refresh := [], dust := x.dust.stopped }).abandonSems c

/-- The states in which a fault tears the context down (Table 12.2). -/
def CtxState.canFault : CtxState → Bool
  | .free => false
  | .empty => false
  | .faulted => false
  | .destroying => false
  | _ => true

/-- A fault with an event code, by AU n (0xFF for hub sources): the first starts the teardown of R522; a later one of the same
teardown is counted (R689). -/
def State.tearDown (s : State) (c code n : Nat) : State :=
  if (s.ctx c).st = .faulted then s.count (CTX_FAULT_INFO c) 7 0 1
  else if (s.ctx c).st.canFault then
    let s2 := if n < 192 then s.modAu n fun a => { a with faulted := true } else s
    let s3 := (s2.quiesce c code).closeWindows c
    let s4 := ((((s3.setFld (CTX_FAULT_INFO c) 31 16 code).setFld (CTX_FAULT_INFO c) 15 8 n).setFld (CTX_FAULT_INFO c) 7 0 1
      ).setFld (CTX_SCHED_STATUS c) 0 0 1).total 15 1
    (s4.enter c .faulted).raise 0x0906 (.ctx c) [(0, 2, code), (2, 1, 1)]
  else s

/-- A fault of context c is raised with an event (code, payload) by AU n. -/
def State.faultCtx (s : State) (c code n : Nat) (pay : List (Nat × Nat × Nat)) : State :=
  (s.raise code (.ctx c) pay).tearDown c code n

/-- MEM_FAULT (R345, R346, R358, R381): the address is kept in the context's memory window, and the context faults. -/
def State.memFault (s : State) (c reason agent n : Nat) (write : Bool) (va : Nat) : State :=
  let i := 2 ^ 28 * reason + 2 ^ 24 * agent + 2 ^ 16 * n + b2n write
  let s1 := ((s.setReg (MEM_FAULT_VA_LO c) (va % 2 ^ 32)).setReg (MEM_FAULT_VA_HI c) (va / 2 ^ 32 % 2 ^ 20)).setReg
    (MEM_FAULT_INFO c) i
  (s1.count MEM_EVT_CNT1 31 24 1).faultCtx c 0x0301 n
    [(0, 8, va), (8, 1, reason), (9, 1, agent), (10, 1, n), (11, 1, b2n write)]

end Sys2Proof.Machine
end

