-- ==== Sys2Proof/Machine/Place.lean ====
section
/-!
DEFINITION. The placer (R496 to R502), the placement word (R498), the save and the restore of a context (R503 to R511) and
displacement (R501).
-/
namespace Sys2Proof.Machine

/-! ## Choosing AUs (R496) -/

/-- The die of an AU (R13). -/
def auDie (n : Nat) : Nat := n / 96
/-- The row of an AU, numbered through both dies. -/
def auRow (n : Nat) : Nat := n / 12

/-- The groups of R496: those that PLACE_HINT made, then runs of up to 12 of the other unpinned logical AUs. A pinned
logical AU heads no group. -/
def runsOf : List Nat → Nat → List (List Nat)
  | _, 0 => []
  | [], _ => []
  | ls, n + 1 => ls.take 12 :: runsOf (ls.drop 12) n

/-- The groups of a program of n logical AUs. -/
def groupsOf (x : Ctx) (n : Nat) : List (List Nat) :=
  let ls := List.range n
  let gs := (List.range 256).filterMap fun g =>
    let m := ls.filter fun l => mfind x.groups l == some g
    if m.isEmpty then none else some m
  let rest := ls.filter fun l => (mfind x.groups l).isNone && (mfind x.pins l).isNone
  gs ++ runsOf rest (n + 1)

/-- Insert a group in the order of R496: most logical AUs first, then lowest logical AU number. -/
def insGroup (g : List Nat) : List (List Nat) → List (List Nat)
  | [] => [g]
  | h :: hs =>
    if h.length < g.length ∨ (h.length = g.length ∧ g.headD 0 < h.headD 0) then g :: h :: hs else h :: insGroup g hs

/-- Bytes of resident pages, on the stacks of die d, of VIRT buffers whose affinity logical AU is in g. -/
def State.weight (s : State) (c : Nat) (bufs : List LbufRec) (g : List Nat) (d : Nat) : Nat :=
  let x := s.ctx c
  bufs.foldl (fun acc b =>
    if b.space = 1 && g.contains b.lau then
      x.pt.foldl (fun acc e =>
        if b.va / frameBytes ≤ e.1 && frameBytes * e.1 < b.va + b.size && e.2.ty == .resident
            && (e.2.addr / 2 ^ 36 / 6 == d) then acc + (if e.2.big then 2 ^ 30 else frameBytes) else acc) acc
    else acc) 0

/-- How many of the placed logical AUs `got` that are in g lie in a row. -/
def rowCount (g : List Nat) (got : List (Nat × Nat)) (row : Nat) : Nat :=
  (got.filter fun e => g.contains e.1 && auRow e.2 == row).length

/-- The AU of a die that R496 chooses for logical AU l of group g: the one it held last, else one in the row that holds most
of g already, else the lowest number. -/
def chooseAu (last : Map Nat) (g : List Nat) (got : List (Nat × Nat)) (free : List Nat) (d l : Nat) : Option Nat :=
  let av := free.filter fun n => auDie n == d
  match mfind last l with
  | some n => if av.contains n then some n else bestRow av
  | none => bestRow av
where
  bestRow (av : List Nat) : Option Nat :=
    match av with
    | [] => none
    | n :: ns => some (ns.foldl (fun b m => if rowCount g got (auRow b) < rowCount g got (auRow m) then m else b) n)

/-- One logical AU after another on its die: what has been placed, and the AUs still free. -/
def placeOn (last : Map Nat) (g : List Nat) :
    List (Nat × Nat) → List (Nat × Nat) → List Nat → Option (List (Nat × Nat) × List Nat)
  | [], got, free => some (got, free)
  | (l, d) :: ls, got, free =>
    match chooseAu last g got free d l with
    | none => none
    | some n => placeOn last g ls (got ++ [(l, n)]) (free.filter (· != n))

/-- One group. -/
def State.placeGroup (s : State) (c : Nat) (bufs : List LbufRec) (g : List Nat) (got : List (Nat × Nat)) (free : List Nat) :
    Option (List (Nat × Nat) × List Nat) :=
  let todo := g.filter fun l => !(got.any fun e => e.1 == l)
  let w0 := s.weight c bufs g 0
  let w1 := s.weight c bufs g 1
  let f0 := (free.filter fun n => auDie n == 0).length
  let f1 := (free.filter fun n => auDie n == 1).length
  let d := if w0 = w1 then (if f0 < f1 then 1 else 0) else if w0 < w1 then 1 else 0
  let room := if d = 0 then f0 else f1
  let dies := (todo.take room).map (·, d) ++ (todo.drop room).map (·, 1 - d)
  placeOn (s.ctx c).lastPlace g dies got free

/-- One group after another. -/
def State.placeGroups (s : State) (c : Nat) (bufs : List LbufRec) :
    List (List Nat) → List (Nat × Nat) → List Nat → Option (List (Nat × Nat))
  | [], got, _ => some got
  | g :: gs, got, free =>
    match s.placeGroup c bufs g got free with
    | none => none
    | some (got', free') => s.placeGroups c bufs gs got' free'

/-- Pinned logical AUs take their AUs. -/
def placePins : List (Nat × Nat) → List (Nat × Nat) → List Nat → Option (List (Nat × Nat) × List Nat)
  | [], got, free => some (got, free)
  | (l, n) :: ps, got, free =>
    if free.contains n then placePins ps (got ++ [(l, n)]) (free.filter (· != n)) else none

/-- A list of pairs as a map. -/
def toMap (xs : List (Nat × Nat)) : Map Nat := xs.foldl (fun m e => mput m e.1 e.2) []

/-- A placement of n logical AUs of context c on free AUs (R496). -/
def State.placeAus (s : State) (c n : Nat) (bufs : List LbufRec) (free : List Nat) : Option (Map Nat) :=
  let x := s.ctx c
  let pins := x.pins.filter fun e => decide (e.1 < n)
  match placePins pins [] free with
  | none => none
  | some (got, free') =>
    (s.placeGroups c bufs ((groupsOf x n).foldr insGroup []) got free').map toMap

/-! ## Which AUs are free for whom (R501, R502) -/

/-- AUs that no logical AU holds. -/
def State.freeAus (s : State) : List Nat := (List.range 192).filter fun n => (s.au n).asg.isNone

/-- The contexts, in number order, that satisfy p. -/
def State.ctxsWith (s : State) (p : Ctx → Bool) : List Nat := (s.ctxs.filter fun e => p e.2).map (·.1)

/-- DISPLACED contexts that wait (R502), in order: effective priority, then time of displacement. -/
def State.displacedOrder (s : State) : List Nat :=
  (s.ctxsWith fun x => x.st == .preempted && x.cause == .displaced).foldr ins []
where
  ins (c : Nat) : List Nat → List Nat
    | [] => [c]
    | d :: ds =>
      if s.eprio d < s.eprio c ∨ (s.eprio d = s.eprio c ∧ (s.ctx c).displacedAt ≤ (s.ctx d).displacedAt) then c :: d :: ds
      else d :: ins c ds

/-- Number of logical AUs of the loaded program. -/
def Ctx.nLaus (x : Ctx) : Nat := match x.prog with | some p => p.laus.length | none => 0
/-- Logical buffers of the loaded program. -/
def Ctx.bufs (x : Ctx) : List LbufRec := match x.prog with | some p => p.lbufs | none => []

/-- The AUs kept for the first waiting DISPLACED context when c, of no higher effective priority, is placed (R502): all of
them, unless every logical AU of that context is pinned. -/
def State.keptFrom (s : State) (c : Nat) : List Nat :=
  match s.displacedOrder.filter (· != c) with
  | [] => []
  | d :: _ =>
    if (s.ctx c).st = .preempted ∧ (s.ctx c).cause = .displaced ∧ s.displacedOrder.head? = some c then []
    else if s.eprio d < s.eprio c then []
    else if (List.range (s.ctx d).nLaus).all fun l => (mfind (s.ctx d).pins l).isSome then (s.ctx d).pins.map (·.2)
    else List.range 192

/-- The AUs on which c can be placed without displacing anything; `own` are AUs of its own that count as free. -/
def State.freeFor (s : State) (c : Nat) (own : List Nat) : List Nat :=
  let kept := s.keptFrom c
  (List.range 192).filter fun n => ((s.au n).asg.isNone && !kept.contains n) || own.contains n

/-! ## Save and restore (R504, R507) -/

/-- Hawk bytes of logical AU l that lie in its declared HAWK buffers: the others are not saved. -/
def keepHawk (bufs : List LbufRec) (l : Nat) (m : Mem) : Mem :=
  m.filter fun e => bufs.any fun b => b.space == 0 && b.lau == l && decide (b.va ≤ e.1) && decide (e.1 < b.va + b.size)

/-- A core that waits on a semaphore keeps its place in the order; any other wait is made again. -/
def CoreWait.saved : CoreWait → CoreWait
  | .sem n => .sem n
  | _ => .none

/-- What is saved of an AU (Table 12.6): a core that waits, and an agent that waits on a slot, wait again from the start. -/
def Au.saved (a : Au) (bufs : List LbufRec) (l : Nat) : Au :=
  { a with
    asg := none, faulted := false, core := { a.core with wait := a.core.wait.saved }, hawk := keepHawk bufs l a.hawk,
    stns := a.stns.map (fun e => (e.1, { e.2 with waitSlot := none })), moveWait := none,
    rsvHeld := 0, shHeld := 0, raHeld := 0, hotRun := [] }

/-- Bytes saved for logical AU l (Table 12.6). -/
def savedBytes (bufs : List LbufRec) (l : Nat) : Nat :=
  bufs.foldl (fun n b => if b.space = 0 ∧ b.lau = l then n + b.size else n) (1528 * 1024)

/-- Bytes saved for a context. -/
def Ctx.savedBytes (x : Ctx) : Nat := (List.range x.nLaus).foldl (fun n l => n + Machine.savedBytes x.bufs l) 0

/-- Steps 2 and 3 of R504: the state of every logical AU is saved, and the AUs are cleared and free. -/
def State.saveAus (s : State) (c : Nat) : State :=
  let x := s.ctx c
  let saved := x.place.foldl (fun m e => mput m e.1 ((s.au e.2).saved x.bufs e.1)) []
  let s1 := x.place.foldl (fun t e => t.clearAu e.2) s
  s1.modCtx c fun y => { y with saved := saved, lastPlace := y.place, place := [] }

/-- A pre-emption begins (R503, R504 step 1): the agents stop; PREEMPT_CNT counts it. -/
def State.beginPreempt (s : State) (c : Nat) (cause : Cause) : State :=
  let before := (s.ctx c).st
  let s1 := (s.enter c .preempting).count (CTX_SCHED_EVT_CNT c) 7 0 1
  s1.modCtx c fun x => { x with cause := cause, inherit := none, before := before, startedAt := s1.now, displacedAt := s1.now }

/-- The code of a cause (R487). -/
def Cause.code : Cause → Nat
  | .host => 0
  | .displaced => 1
  | .hostLost => 2

/-- The save is complete (R504): the context is PREEMPTED. -/
def State.endPreempt (s : State) (c : Nat) : State :=
  let x := s.ctx c
  let s1 := (s.saveAus c).enter c .preempted
  s1.raise 0x0903 (.ctx c) [(0, 1, x.cause.code), (4, 8, x.savedBytes), (12, 8, s1.now - x.startedAt)]

/-- The state of every logical AU is restored on the AUs of its placement. -/
def State.restoreAus (s : State) (c : Nat) : State :=
  let x := s.ctx c
  (x.place.foldl (fun t e => t.putAu e.2
      { (mget Au.reset x.saved e.1) with asg := some (c, e.1), hotRun := (t.au e.2).hotRun }) s).modCtx c
    fun y => { y with saved := [] }

/-- A resumption is complete (R507): the flags stand as saved, the parked changes are applied in order, the agents restart. -/
def State.endResume (s : State) (c : Nat) : State :=
  let s1 := s.restoreAus c
  let x := s1.ctx c
  let flags := x.mbox.foldl (fun w p => flagPut w p.flag p.value) x.flags
  let n := x.mbox.length
  let s2 := ((s1.modCtx c fun y => { y with flags := flags, mbox := [] }).setFld (CTX_MBOX c) 26 16 0).enter c x.before
  let s3 := s2.modCtx c fun y => { y with progressAt := s2.now }
  s3.raise 0x0904 (.ctx c) [(0, 2, x.gen), (2, 2, n)]

/-- The placement of context c changes to p: GEN counts it and CTX_PLACED reports it (R497). -/
def State.takePlace (s : State) (c : Nat) (p : Map Nat) (trigger : Nat) (force : Bool) : State :=
  let x := s.ctx c
  let moved := (p.filter fun e => mfind x.lastPlace e.1 != some e.2).length
  let s1 := p.foldl (fun t e => t.putAu e.2 { (t.au e.2).cleared with asg := some (c, e.1), faulted := false })
    (s.modCtx c fun y => { y with place := p })
  if moved ≠ 0 ∨ force then
    let g := (x.gen + 1) % 65536
    (s1.modCtx c fun y => { y with gen := g }).raise 0x0905 (.ctx c) [(0, 2, g), (2, 1, moved), (3, 1, trigger)]
  else s1

/-! ## Segments end before a save (R504 step 1) -/

/-- Segments of the context's AUs are in flight. -/
def State.segsOf (s : State) (c : Nat) : Bool :=
  let aus := (s.ctxAus c).map (·.2)
  s.mem.segs.any fun e => match e.2.issuer.au with | some a => aus.contains a | none => false

/-! ## Displacement (R501) -/

/-- Insert a victim in the order of R501. -/
def State.insVictim (s : State) (c : Nat) : List Nat → List Nat
  | [] => [c]
  | d :: ds =>
    let a := s.ctx c
    let b := s.ctx d
    if s.eprio c < s.eprio d ∨ (s.eprio c = s.eprio d ∧
        ((a.st = .ready ∧ b.st = .running) ∨ (a.st = b.st ∧ b.runStart < a.runStart))) then c :: d :: ds
    else d :: s.insVictim c ds

/-- The victims for a placement of c: contexts of lower effective priority that hold AUs and have nothing in flight, and
contexts that wait on the semaphores of `sem` (R516). -/
def State.victims (s : State) (c : Nat) (sem : Option Nat) : List Nat :=
  let vs := s.ctxsWith fun x => x.st == .ready || x.st == .running
  let vs := vs.filter fun v => v != c && !s.segsOf v &&
    (decide (s.eprio v < s.eprio c) || (match sem with | some n => (s.semWaiters n).contains v | none => false))
  vs.foldr s.insVictim []

/-- Victims are pre-empted with cause DISPLACED, one after another, until the placement is found. -/
def State.displaceUntil (s : State) (c n : Nat) (bufs : List LbufRec) (own : List Nat) : List Nat → Option (Map Nat × State)
  | [] => (s.placeAus c n bufs (s.freeFor c own)).map (·, s)
  | v :: vs =>
    match s.placeAus c n bufs (s.freeFor c own) with
    | some p => some (p, s)
    | none => State.displaceUntil ((s.beginPreempt v .displaced).endPreempt v) c n bufs own vs

/-- A placement of c, displacing others if that helps (R501); none: NO_RESOURCES, and nothing is displaced. -/
def State.findPlace (s : State) (c n : Nat) (bufs : List LbufRec) (own : List Nat) (sem : Option Nat) :
    Option (Map Nat × State) :=
  s.displaceUntil c n bufs own (s.victims c sem)

/-! ## The placement word (R498) -/

/-- Stacks that hold pages of a VIRT buffer, as a mask, and bytes of it on each die. -/
def Ctx.bufStacks (x : Ctx) (b : LbufRec) : Nat × Nat × Nat :=
  x.pt.foldl (fun acc e =>
    if b.va / frameBytes ≤ e.1 && frameBytes * e.1 < b.va + b.size && e.2.ty == .resident then
      let m := e.2.addr / 2 ^ 36
      (if bit acc.1 m then acc.1 else acc.1 + 2 ^ m,
        if m < 6 then acc.2.1 + 1 else acc.2.1, if m < 6 then acc.2.2 else acc.2.2 + 1)
    else acc) (0, 0, 0)

/-- The die that holds more of the context's logical AUs; D0 on a tie (R496, the home of its flags). -/
def Ctx.home (x : Ctx) : Nat :=
  if (x.place.filter fun e => auDie e.2 == 0).length < (x.place.filter fun e => auDie e.2 == 1).length then 1 else 0

/-- The placement word of a name (Tables 12.3 and 12.4); 0 for a name that does not exist or a reserved form. -/
def Ctx.placeWord (x : Ctx) (name : Nat) : Nat :=
  let kind := bits name 63 60
  let i := bits name 11 0
  let w (valid pinned : Bool) (stks region die au : Nat) : Nat :=
    2 ^ 63 * b2n valid + 2 ^ 62 * b2n pinned + 2 ^ 60 * kind + 2 ^ 44 * x.gen + 2 ^ 32 * stks + 2 ^ 22 * region
      + 2 ^ 16 * die + au
  if bits name 59 12 ≠ 0 then 0
  else if kind = 0 then
    if i < x.nLaus then
      match x.auOf i with
      | some n => w true (mfind x.pins i).isSome 0 0 (auDie n) n
      | none => w false (mfind x.pins i).isSome 0 0 0 0
    else 0
  else if kind = 1 then
    match x.lbuf i with
    | none => 0
    | some b =>
      if b.space = 1 then
        let m := x.bufStacks b
        w (m.1 != 0) (mfind x.stackPins i).isSome m.1 0 (if m.2.1 < m.2.2 then 1 else 0) 0
      else
        match x.auOf b.lau with
        | some n => w true (mfind x.stackPins i).isSome 0 b.region (auDie n) n
        | none => w false (mfind x.stackPins i).isSome 0 b.region 0 0
  else if kind = 2 then
    if i < 256 then (if x.place.isEmpty then w false false 0 0 0 0 else w true false 0 0 x.home 0) else 0
  else 0

end Sys2Proof.Machine
end

