-- ==== Sys2Proof/Machine/Streams.lean ====
section
/-!
DEFINITION. Queues (R129 to R135), Stencils (R150 to R160), segments and staging buffers (R207 to R211, R350 to R362), and
slot visits (R193 to R203).
-/
namespace Sys2Proof.Machine

/-! ## Queues -/

/-- Capacity of a queue (Table 4.2). -/
def qCap (q : Nat) : Nat := if 8 ≤ q ∧ q ≤ 11 then 4096 else 8192

/-- The engine end of the queue consumes, so its stream end is fed by a read Stencil (Table 4.2). -/
def qReadEnd (q : Nat) : Bool := decide (q ≤ 11) || q == 16 || q == 17 || q == 20

/-- The engine end of the queue produces (Table 4.2). -/
def qWriteEnd (q : Nat) : Bool := (decide (12 ≤ q) && decide (q ≤ 15)) || q == 18 || q == 19 || q == 21

/-- Queue q of an AU. -/
def Au.queue (a : Au) (q : Nat) : Queue := mget Queue.reset a.queues q
/-- Queue q of an AU replaced. -/
def Au.putQueue (a : Au) (q : Nat) (x : Queue) : Au := { a with queues := mset Queue.reset a.queues q x }

/-- Bytes now in the queue (R171). -/
def Queue.level (q : Queue) : Nat := q.data.length
/-- Bytes of one role in the queue. -/
def Queue.roleLevel (q : Queue) (scales : Bool) : Nat := (q.data.filter fun b => b.1 == scales).length

/-- Bytes marked with a role. -/
def mark (scales : Bool) (bs : List Byte) : List (Bool × Byte) := bs.map fun b => (scales, b)

/-- The queue has room for n more bytes (R130). -/
def Au.qRoom (a : Au) (q n : Nat) : Bool :=
  let x := a.queue q
  decide (x.level + x.heldV + x.heldS + n ≤ qCap q)

/-- Bytes pushed by the engine end or a coupling. -/
def Au.push (a : Au) (q : Nat) (bs : List (Bool × Byte)) : Au :=
  let x := a.queue q
  a.putQueue q { x with data := x.data ++ bs }

/-- The first n bytes popped, whatever their role; none where the queue holds fewer. -/
def Au.pop (a : Au) (q n : Nat) : Option (List Byte × Au) :=
  let x := a.queue q
  if x.data.length < n then none
  else some ((x.data.take n).map (·.2), a.putQueue q { x with data := x.data.drop n })

/-- The first n bytes of one role taken out of a list, with what stays. -/
def takeRole (scales : Bool) : Nat → List (Bool × Byte) → Option (List Byte × List (Bool × Byte))
  | 0, xs => some ([], xs)
  | _ + 1, [] => none
  | n + 1, x :: xs =>
    if x.1 = scales then (takeRole scales n xs).map fun p => (x.2 :: p.1, p.2)
    else (takeRole scales (n + 1) xs).map fun p => (p.1, x :: p.2)

/-- A record of n value bytes and m scale bytes popped (R131, R157); none until the whole record is present. -/
def Au.popRec (a : Au) (q n m : Nat) : Option (List Byte × List Byte × Au) :=
  if m = 0 then (a.pop q n).map fun p => (p.1, [], p.2)
  else
    let x := a.queue q
    match takeRole false n x.data with
    | none => none
    | some (vs, d1) =>
      match takeRole true m d1 with
      | none => none
      | some (ss, d2) => some (vs, ss, a.putQueue q { x with data := d2 })

/-! ## Stencil descriptors (Tables 4.8 and 4.9) -/

/-- A descriptor's fields. -/
structure StnDesc where
  lbuf : Nat
  off : Nat
  extLo : Nat
  extHi : Nat
  run : Nat
  c1 : Nat
  c2 : Nat
  c3 : Nat
  s1 : Int
  s2 : Int
  s3 : Int
  space : Nat
  tag : Nat
  ncons : Nat
  ahead : Nat
  write : Bool
  queue : Nat
  scales : Bool
  doneEn : Bool
  doneFlag : Nat
  deriving DecidableEq, Repr

/-- The fields of 64 descriptor bytes. -/
def stnDesc (d : List Byte) : StnDesc :=
  let ctl := fieldLe d 28 4
  { lbuf := bits (fieldLe d 0 8) 63 52, off := bits (fieldLe d 0 8) 51 0, extLo := bits (fieldLe d 8 8) 51 0,
    extHi := bits (fieldLe d 16 8) 51 0, run := bits (fieldLe d 24 4) 16 0, c1 := bits (fieldLe d 32 4) 23 0,
    c2 := bits (fieldLe d 36 4) 23 0, c3 := bits (fieldLe d 40 4) 23 0, s1 := toInt 40 (fieldLe d 48 5),
    s2 := toInt 40 (fieldLe d 53 5), s3 := toInt 40 (fieldLe d 58 5), space := bits ctl 31 28, tag := bits ctl 27 24,
    ncons := bits ctl 23 20, ahead := bits ctl 19 16, write := bit ctl 15, queue := bits ctl 14 10, scales := bit ctl 9,
    doneEn := bit ctl 8, doneFlag := bits ctl 7 0 }

/-- Reserved values and reserved bits of a descriptor (STN_RESERVED). -/
def stnReserved (d : List Byte) : Bool :=
  let x := stnDesc d
  bits (fieldLe d 8 8) 63 52 != 0 || bits (fieldLe d 16 8) 63 52 != 0 || bits (fieldLe d 24 4) 31 17 != 0
    || bits (fieldLe d 32 4) 31 24 != 0 || bits (fieldLe d 36 4) 31 24 != 0 || bits (fieldLe d 40 4) 31 24 != 0
    || !zeroIn d 44 48 || byteAt d 63 != 0 || decide (1 < x.space) || decide (2 < x.tag) || decide (21 < x.queue)
    || (x.ncons != 0 && x.tag != 2)

/-- The lowest and the highest byte that the pattern touches, relative to the buffer (R154). -/
def StnDesc.span (x : StnDesc) : Int × Int :=
  let d1 := ((x.c1 : Int) - 1) * x.s1
  let d2 := ((x.c2 : Int) - 1) * x.s2
  let d3 := ((x.c3 : Int) - 1) * x.s3
  ((x.off : Int) + min 0 d1 + min 0 d2 + min 0 d3, (x.off : Int) + max 0 d1 + max 0 d2 + max 0 d3 + x.run - 1)

/-- Bytes of the whole stream. -/
def StnDesc.total (x : StnDesc) : Nat := x.run * x.c1 * x.c2 * x.c3

/-- The address of byte p of the stream, relative to the buffer (R152). -/
def StnDesc.addr (x : StnDesc) (p : Nat) : Nat :=
  let r := p / x.run
  let i1 := r % x.c1
  let i2 := r / x.c1 % x.c2
  let i3 := r / (x.c1 * x.c2)
  ((x.off : Int) + i3 * x.s3 + i2 * x.s2 + i1 * x.s1).toNat + p % x.run

/-- Bytes of a Hawk. -/
def hawkBytes : Nat := 0x800000
/-- Region size of a partition mode (Table 5.1). -/
def regionBytes (part : Nat) : Nat := hawkBytes / 2 ^ part

/-- The reject code of the first rule of Table 4.20 that a descriptor breaks, in the order of that table, as far as the
declarations decide it; `starter` is the logical AU that starts it, for the rules that depend on it (R154, R178). -/
def stnCheck (laus : List LauRec) (bufs : List LbufRec) (starter : Option Nat) (d : List Byte) : Option Nat :=
  let x := stnDesc d
  let rec? := if x.lbuf = 0 then none else bufs[x.lbuf - 1]?
  let missing := x.lbuf != 0 && rec?.isNone
  let top : Nat := match rec? with
    | some r => r.size
    | none => if x.space = 0 then (if missing ∨ starter.isNone then 2 ^ 52 else hawkBytes) else 2 ^ 52
  let sp := x.span
  let part := match starter with | some l => (match laus[l]? with | some r => r.part | none => 0) | none => 0
  let split := starter.isSome && x.lbuf == 0 && x.space == 0 && x.extLo / regionBytes part != x.extHi / regionBytes part
  if stnReserved d then some 0x0401
  else if x.run = 0 ∨ 65536 < x.run ∨ x.c1 = 0 ∨ x.c2 = 0 ∨ x.c3 = 0 then some 0x0402
  else if x.extHi < x.extLo ∨ top ≤ x.extHi ∨ sp.1 < x.extLo ∨ (x.extHi : Int) < sp.2 ∨ split then some 0x0403
  else if (if x.write then qWriteEnd x.queue else qReadEnd x.queue) = false then some 0x0404
  else if (match rec? with
      | some r => r.space != x.space || (r.space == 0 && (match starter with | some l => r.lau != l | none => false))
      | none => false) then some 0x0404
  else if (x.tag = 1 ∧ (x.space ≠ 0 ∨ x.write)) ∨ (x.tag = 2 ∧ (x.space ≠ 0 ∨ !x.write ∨ x.ncons = 0)) then some 0x0405
  else if missing then some 0x0501
  else none

/-! ## Slots of a Stencil's stream end -/

/-- Stencil slot st of an AU. -/
def Au.stn (a : Au) (st : Nat) : StnSlot := mget StnSlot.reset a.stns st
/-- Stencil slot st of an AU replaced. -/
def Au.putStn (a : Au) (st : Nat) (x : StnSlot) : Au := { a with stns := mset StnSlot.reset a.stns st x }

/-- The fields of slot st's descriptor. -/
def Au.stnD (a : Au) (st : Nat) : StnDesc := stnDesc (a.stn st).desc

/-- Slots in a state on the stream end and role of a queue. -/
def Au.onEnd (a : Au) (q : Nat) (scales : Bool) (p : StnState) : List Nat :=
  (a.stns.filter fun e =>
    let d := stnDesc e.2.desc
    e.2.st == p && d.queue == q && d.scales == scales).map (·.1)

/-- A SCALES stream is bound to the queue's stream end. -/
def Au.scalesBound (a : Au) (q : Nat) : Bool :=
  !(a.onEnd q true .active).isEmpty || !(a.onEnd q true .pending).isEmpty

/-- Space that a stream of one role may still take in its queue: while both roles are bound, scale bytes have an eighth of
the capacity to themselves, so that neither stream keeps the other from completing a record (R157). -/
def Au.roleFree (a : Au) (q : Nat) (scales : Bool) : Nat :=
  let x := a.queue q
  let cap := qCap q
  if a.scalesBound q then
    if scales then cap / 8 - (x.roleLevel true + x.heldS) else cap - cap / 8 - (x.roleLevel false + x.heldV)
  else cap - (x.level + x.heldV + x.heldS)

/-! ## Segments and staging buffers -/

/-- Segments in flight of an issuer, oldest first. -/
def State.segsBy (s : State) (i : Issuer) : List (Nat × Seg) := s.mem.segs.filter fun e => e.2.issuer == i

/-- Stack, pseudo-channel and bank of a DPA (R326), as one number: (stack · 32 + pc) · 48 + bank. -/
def bankOf (d : Nat) : Nat :=
  let seg := d % 2 ^ 36 / 2048
  let x := fun hi lo => bits seg hi lo
  let pc := Nat.xor (Nat.xor (Nat.xor (Nat.xor (x 4 0) (x 9 5)) (x 14 10)) (x 19 15)) (x 24 20)
  let r := seg / 32
  48 * (32 * (d / 2 ^ 36) + pc) + (r % 48 + r / 48) % 48

/-- The bounds of Table 9.8 on a pseudo-channel (32) and a bank (8) let one more segment go to a bank. -/
def State.bankRoom (s : State) (b : Nat) : Bool :=
  decide ((s.mem.segs.filter fun e => e.2.bank.any fun x => x / 48 == b / 48).length < 32)
    && decide ((s.mem.segs.filter fun e => e.2.bank == some b).length < 8)

/-- Shared staging buffers in use on a die. -/
def State.sharedUsed (s : State) (d : Nat) : Nat := mget 0 s.mem.sharedUsed d

/-- Where a segment's buffer comes from (R209, R210): its AU's reserve (true) or the shared buffers (false); none: it waits. -/
def State.bufferFor (s : State) (g : Seg) : Option Bool :=
  let free := 6656 - s.sharedUsed g.die
  match g.issuer.au with
  | some a =>
    if g.runahead then (if 1024 < free then some false else none)
    else if (s.au a).rsvHeld < 16 then some true
    else if 0 < free then some false else none
  | none => if 0 < free then some false else none

/-- A segment is issued with a tag and a staging buffer (R351); none: a bound holds it. -/
def State.issueSeg (s : State) (g : Seg) : Option State :=
  if (g.bank.all fun b => s.bankRoom b) then
    match s.bufferFor g with
    | none => none
    | some rsv =>
      let g := { g with rsv := rsv }
      let s1 := { s with mem := { s.mem with segs := mput s.mem.segs s.mem.nextSeg g, nextSeg := s.mem.nextSeg + 1 } }
      let s2 :=
        if rsv then s1
        else { s1 with mem := { s1.mem with sharedUsed := mset 0 s1.mem.sharedUsed g.die (s1.sharedUsed g.die + 1) } }
      some (match g.issuer.au with
        | none => s2
        | some a => s2.modAu a fun x =>
          { x with rsvHeld := x.rsvHeld + b2n rsv, shHeld := x.shHeld + b2n (!rsv), raHeld := x.raHeld + b2n g.runahead })
  else none

/-! ## The context of an AU's agents -/

/-- The context and logical AU whose agents run on AU n: its context is RUNNING. -/
def State.live (s : State) (n : Nat) : Option (Nat × Nat) :=
  match (s.au n).asg with
  | some (c, l) => if (s.ctx c).st = .running then some (c, l) else none
  | none => none

/-- Something of the context makes progress (R517). -/
def State.progress (s : State) (c : Nat) : State := s.modCtx c fun x => { x with progressAt := s.now }

/-! ## Slot visits (R193 to R203) -/

/-- The tag of a slot. -/
def Au.tag (a : Au) (k : Nat) : SlotTag := mget SlotTag.reset a.tags k
/-- The tag of a slot replaced. -/
def Au.putTag (a : Au) (k : Nat) (x : SlotTag) : Au := { a with tags := mset SlotTag.reset a.tags k x }

/-- A visit can begin (R196, R197). -/
def SlotTag.canBegin (t : SlotTag) (produce : Bool) : Bool :=
  if produce then t.st == .empty else t.st == .full && decide (t.visits < t.cnt)

/-- The tag once a visit has begun. -/
def SlotTag.begin (t : SlotTag) (produce : Bool) : SlotTag :=
  if produce then { t with st := .filling } else { t with visits := t.visits + 1 }

/-- The tag once a visit has ended: FULL with the producer's NCONS, or one drain less (R196, R197). -/
def SlotTag.finish (t : SlotTag) (produce : Bool) (ncons : Nat) : SlotTag :=
  if produce then { st := .full, ncons := ncons, cnt := ncons, visits := 0 }
  else if t.cnt ≤ 1 then { t with st := .empty, cnt := 0, visits := 0 }
  else { t with cnt := t.cnt - 1, visits := t.visits - 1 }

/-- The Hawk offset of the next access of Stencil st, for a HAWK-space Stencil with bytes left. -/
def State.stnHawkNext (s : State) (n st : Nat) : Option Nat :=
  let a := s.au n
  let x := a.stn st
  let d := stnDesc x.desc
  match a.asg with
  | none => none
  | some (c, _) =>
    if x.st = .active ∧ d.space = 0 ∧ x.moved < d.total then
      match (s.ctx c).locate d.lbuf (d.addr x.moved) with
      | some (.hawk _ o) => some o
      | some (.virt o) => if d.lbuf = 0 then some o else none
      | none => none
    else none

/-- The visit under way of Stencil st has accessed byte 2,047 of its slot, so it is over (R195). -/
def State.stnAtEnd (s : State) (n st : Nat) : Bool :=
  let a := s.au n
  let x := a.stn st
  let d := stnDesc x.desc
  match x.visit, a.asg with
  | some (_, p0), some (c, _) =>
    decide (p0 < x.moved) && (match (s.ctx c).locate d.lbuf (d.addr (x.moved - 1)) with
      | some (.hawk _ o) => o % 2048 == 2047
      | some (.virt o) => o % 2048 == 2047
      | none => false)
  | _, _ => false

/-- The next access of Stencil st lies within the visit under way. -/
def State.stnInVisit (s : State) (n st slot : Nat) : Bool :=
  match ((s.au n).stn st).visit with
  | some (k, _) => k == slot && !s.stnAtEnd n st
  | none => false

/-- SLOT_WAIT_EXP of a context (R201). -/
def State.slotExp (s : State) (c : Nat) : Nat := s.fld (CTX_HAWK_CTL c) 4 0

/-- Stencil st waits on a slot; a wait already under way keeps its start (R201). -/
def State.stnWaitSlot (s : State) (n st c slot : Nat) : State :=
  let x := (s.au n).stn st
  match x.waitSlot with
  | some (k, _, _) =>
    if k = slot then s else s.modAu n fun a => a.putStn st { x with waitSlot := some (slot, s.now, s.slotExp c) }
  | none => s.modAu n fun a => a.putStn st { x with waitSlot := some (slot, s.now, s.slotExp c) }

/-! ## Issuing a Stencil's next segment (R155, R156, R350) -/

/-- Bytes from an address to the next 2 KiB boundary. -/
def toBoundary (a : Nat) : Nat := 2048 - a % 2048

/-- Bytes of run-ahead segments of a Stencil in flight. -/
def State.aheadBytes (s : State) (n st : Nat) : Nat :=
  (s.segsBy (.stencil n st)).foldl (fun m e => if e.2.runahead then m + e.2.len else m) 0

/-- A demand access by Stencil st halts at a page-in, or faults the context (R346, R347). -/
def State.stnStop (s : State) (n st c : Nat) (write : Bool) (r : VmRes Unit) : State :=
  match r with
  | .wait va =>
    (s.modAu n fun a => a.putStn st { a.stn st with halted := true }).want ⟨c, va, 1, n, write⟩
  | .bad reason va => s.memFault c reason 1 n write va
  | _ => s

/-- The leading bytes of a queue that carry one role (R157). -/
def leadRole (scales : Bool) (xs : List (Bool × Byte)) : List Byte :=
  (xs.takeWhile fun x => x.1 == scales).map (·.2)

/-- The next segment of a VIRT read Stencil. -/
def State.issueRead (s : State) (n st c : Nat) (ra : Bool) : State :=
  let a := s.au n
  let x := a.stn st
  let d := stnDesc x.desc
  match (s.ctx c).locate d.lbuf (d.addr x.issued) with
  | some (.virt va) =>
    let len := min (min (d.run - x.issued % d.run) (toBoundary va)) (d.total - x.issued)
    let free := a.roleFree d.queue d.scales - s.aheadBytes n st
    let demand := decide (len ≤ free)
    if ra = demand then s   -- a fetch that fits is a demand fetch; one that does not is run-ahead
    else if ra ∧ 2048 * d.ahead < s.aheadBytes n st + len then s
    else
      match (s.ctx c).translate va false with
      | .ok (_, _, dpa) =>
        let g : Seg :=
          { issuer := .stencil n st, die := auDie n, rsv := false, runahead := ra, src := .virt c va,
            dst := .queue n d.queue d.scales, len := len, data := [], bank := some (bankOf dpa) }
        match s.issueSeg g with
        | none => s
        | some s1 =>
          (s1.modAu n fun b =>
            let b := b.putStn st { b.stn st with issued := x.issued + len, segs := x.segs + 1 }
            if ra then b
            else
              let q := b.queue d.queue
              b.putQueue d.queue
                (if d.scales then { q with heldS := q.heldS + len } else { q with heldV := q.heldV + len })).progress c
      | r =>
        if ra then
          s.setReg (AU_RA_DROP n) ((s.reg (AU_RA_DROP n) + 1) % 2 ^ 32)
        else s.stnStop n st c false (match r with | .wait v => .wait v | .bad e v => .bad e v | .hold => .hold | .ok _ => .ok ())
  | _ => s

/-- The next segment of a VIRT write Stencil: its bytes leave the queue as it is issued. -/
def State.issueWrite (s : State) (n st c : Nat) : State :=
  let a := s.au n
  let x := a.stn st
  let d := stnDesc x.desc
  match (s.ctx c).locate d.lbuf (d.addr x.issued) with
  | some (.virt va) =>
    let q := a.queue d.queue
    let most := min (min (d.run - x.issued % d.run) (toBoundary va)) (d.total - x.issued)
    let bs := (leadRole d.scales q.data).take most
    if bs.isEmpty then s
    else
      match (s.ctx c).translate va true with
      | .ok (_, _, dpa) =>
        let g : Seg :=
          { issuer := .stencil n st, die := auDie n, rsv := false, runahead := false, src := .queue n d.queue d.scales,
            dst := .virt c va, len := bs.length, data := bs, bank := some (bankOf dpa) }
        match s.issueSeg g with
        | none => s
        | some s1 =>
          (s1.modAu n fun b =>
            let b := b.putStn st { b.stn st with issued := x.issued + bs.length, segs := x.segs + 1 }
            b.putQueue d.queue { q with data := q.data.drop bs.length }).progress c
      | r => s.stnStop n st c true (match r with | .wait v => .wait v | .bad e v => .bad e v | .hold => .hold | .ok _ => .ok ())
  | _ => s

/-- The next bytes of a HAWK Stencil, to the end of its run or its slot: under a tag mode, only within the visit under way;
with none, it waits on the slot's tag (R195). -/
def State.issueHawk (s : State) (n st c : Nat) : State :=
  let a := s.au n
  let x := a.stn st
  let d := stnDesc x.desc
  match s.stnHawkNext n st with
  | none => s
  | some o =>
    let slot := o / 2048
    if d.tag ≠ 0 ∧ !s.stnInVisit n st slot then s.stnWaitSlot n st c slot
    else
      let most := min (min (d.run - x.moved % d.run) (toBoundary o)) (d.total - x.moved)
      if d.write then
        let q := a.queue d.queue
        let bs := (leadRole d.scales q.data).take most
        if bs.isEmpty then s
        else (s.modAu n fun b =>
          let b := { b with hawk := wrBytes b.hawk o bs }
          (b.putQueue d.queue { q with data := q.data.drop bs.length }).putStn st
            { x with moved := x.moved + bs.length, issued := x.moved + bs.length }).progress c
      else
        let m := min most (a.roleFree d.queue d.scales)
        if m = 0 then s
        else (s.modAu n fun b =>
          (b.push d.queue (mark d.scales (rdBytes b.hawk o m))).putStn st
            { x with moved := x.moved + m, issued := x.moved + m }).progress c

/-- The next segment of Stencil st of AU n, if it is active, not halted and has bytes left. -/
def State.issueStn (s : State) (n st : Nat) (ra : Bool) : State :=
  match s.live n with
  | none => s
  | some (c, _) =>
    let x := (s.au n).stn st
    let d := stnDesc x.desc
    if x.st = .active ∧ !x.halted ∧ x.issued < d.total then
      if d.space = 0 then (if ra then s else s.issueHawk n st c)
      else if d.write then (if ra then s else s.issueWrite n st c)
      else s.issueRead n st c ra
    else s

/-- STENCIL_SEGMENT_ISSUE (R155): the next segment, demand or run-ahead. -/
def execStencilSegmentIssue (a : AuId) (st : StnId) (ra : Bool) (s : State) : Out := .next (s.issueStn a st ra)

/-- STAGING_BUFFER_FREE (R209): the demand segment of Stencil st that waited for a buffer is issued, if one is free now. -/
def execStagingBufferFree (a : AuId) (st : StnId) (s : State) : Out := .next (s.issueStn a st false)

/-! ## A segment completes (R352) -/

/-- Bytes are written at one end of a transfer; none: they cannot be yet (a shadow frame or queue space is awaited). -/
def State.putEnd (s : State) (e : MemEnd) (bs : List Byte) (ra : Bool) : Option State :=
  match e with
  | .virt c va =>
    match s.vwrite c va bs with
    | .ok s1 => some s1
    | .hold => none
    | .wait a => some (s.want ⟨c, a, 7, 0xFF, true⟩)
    | .bad _ _ => some s
  | .hawk n o => some (s.modAu n fun a => { a with hawk := wrBytes a.hawk o bs })
  | .queue n q sc =>
    let a := s.au n
    if ra ∧ a.roleFree q sc < bs.length then none
    else
      let x := a.queue q
      let x1 := { x with data := x.data ++ mark sc bs }
      let x2 := if ra then x1
        else if sc then { x1 with heldS := x1.heldS - bs.length } else { x1 with heldV := x1.heldV - bs.length }
      some (s.putAu n (a.putQueue q x2))
  | .host p a => some (s.hostWrite p a bs)

/-- The bytes at one end of a transfer. -/
def State.getEnd (s : State) (e : MemEnd) (n : Nat) : List Byte × State :=
  match e with
  | .virt c va =>
    match s.vread c va n with
    | .ok p => p
    | _ => (List.replicate n 0, s)
  | .hawk a o => (rdBytes (s.au a).hawk o n, s)
  | .queue _ _ _ => ([], s)
  | .host p a => ((s.hostRead p a n).getD (List.replicate n 0), s)

/-- What an issuer keeps of a segment that has completed. -/
def State.segNote (s : State) (g : Seg) : State :=
  match g.issuer with
  | .stencil n st => s.modAu n fun a =>
    let x := a.stn st
    a.putStn st { x with moved := x.moved + g.len, segs := x.segs - 1 }
  | .move n => s.modAu n fun a =>
    match mfind a.acts 5 with
    | some op => { a with acts := mput a.acts 5 { op with done := op.done + g.len } }
    | none => a
  | .roller id r =>
    match mfind s.mem.rollers id with
    | none => s
    | some x =>
      let rs := x.rcvs.modify r fun v => { v with written := v.written + 1 }
      { s with mem := { s.mem with rollers := mput s.mem.rollers id { x with rcvs := rs } } }
  | _ => s

/-- Older segments of the same Stencil are in flight: a stream's bytes enter its queue in order. -/
def State.segBlocked (s : State) (id : Nat) (g : Seg) : Bool :=
  match g.issuer with
  | .stencil _ _ => (s.segsBy g.issuer).any fun e => decide (e.1 < id)
  | .move _ => (s.segsBy g.issuer).any fun e => decide (e.1 < id) && e.2.dst == g.dst
  | _ => false

/-- The bytes that a segment carries: those taken from its queue when it was issued, or those at its source now. -/
def State.segBytes (s : State) (g : Seg) : List Byte × State :=
  match g.src with
  | .queue _ _ _ => (g.data, s)
  | e => s.getEnd e g.len

/-- The context of an issuer's AU makes progress (R517). -/
def State.issuerProgress (s : State) (i : Issuer) : State :=
  match i.au with
  | some n => match (s.au n).asg with | some (c, _) => s.progress c | none => s
  | none => s

/-- A segment completes: its bytes reach their destination, and it releases its tag and staging buffer (R211, R352). -/
def State.finishSeg (s : State) (id : Nat) : State :=
  match mfind s.mem.segs id with
  | none => s
  | some g =>
    if s.segBlocked id g then s
    else
      let p := s.segBytes g
      match p.2.putEnd g.dst p.1 g.runahead with
      | none => s
      | some s1 => ((s1.segNote g).freeSeg id).issuerProgress g.issuer

/-- SEGMENT_COMPLETE (R352). -/
def execSegmentComplete (id : Nat) (s : State) : Out := .next (s.finishSeg id)

/-! ## The end of a stream (R159) and its halt (R347) -/

/-- A visit of Stencil st ends (R195). -/
def Au.endStnVisit (a : Au) (st : Nat) : Au :=
  let x := a.stn st
  let d := stnDesc x.desc
  match x.visit with
  | none => a
  | some (k, _) => (a.putTag k ((a.tag k).finish d.write d.ncons)).putStn st { x with visit := none }

/-- The next pending Stencil of a stream end and role becomes active (R158). -/
def Au.promote (a : Au) (q : Nat) (scales : Bool) : Au :=
  match a.onEnd q scales .pending with
  | [] => a
  | p :: ps =>
    let st := ps.foldl (fun b m => if (a.stn m).startSeq < (a.stn b).startSeq then m else b) p
    a.putStn st { a.stn st with st := .active }

/-- STENCIL_DONE (R159): every byte is at its destination; the done flag is set and the pending Stencil becomes active. -/
def execStencilDone (a : AuId) (st : StnId) (s : State) : Out :=
  match (s.au a).asg with
  | none => .next s
  | some (c, _) =>
    let x := (s.au a).stn st
    let d := stnDesc x.desc
    if x.st = .active ∧ x.moved = d.total ∧ x.segs = 0 then
      let s1 := s.modAu a fun b =>
        let b := b.endStnVisit st
        (b.putStn st { b.stn st with st := .done, halted := false, waitSlot := none }).promote d.queue d.scales
      .next ((if d.doneEn then s1.setFlag c d.doneFlag true else s1).progress c)
    else .next s

/-- STREAM_HALT_RESUME (R347): the page is RESIDENT, so the stream goes on from its saved position. -/
def execStreamHaltResume (a : AuId) (st : StnId) (s : State) : Out :=
  match s.live a with
  | none => .next s
  | some (c, _) =>
    let x := (s.au a).stn st
    let d := stnDesc x.desc
    if x.halted then
      match (s.ctx c).locate d.lbuf (d.addr x.issued) with
      | some (.virt va) =>
        match (s.ctx c).translate va d.write with
        | .ok _ => .next ((s.modAu a fun b => b.putStn st { x with halted := false }).progress c)
        | _ => .next s
      | _ => .next s
    else .next s

/-! ## Couplings (R133) -/

/-- The couplings of Table 4.3. -/
def coupled (src dst : Nat) : Bool :=
  (decide (12 ≤ src) && decide (src ≤ 15) && (decide (dst ≤ 7) || dst == 16 || dst == 17))
    || ((src == 18 || src == 19) && decide (dst ≤ 7))

/-- No Stencil is bound to the stream end of a queue. -/
def Au.unbound (a : Au) (q : Nat) : Bool :=
  !(a.stns.any fun e => (e.2.st == .active || e.2.st == .pending) && (stnDesc e.2.desc).queue == q)

/-- QUEUE_RECORD_READY (R130): n bytes pass over a coupling of Table 4.3 in FIFO order, when they are present and there is
space for them. A consumer or producer that waited goes on with its own next command. -/
def execQueueRecordReady (a : AuId) (src dst : QueueId) (n : Nat) (s : State) : Out :=
  match s.live a with
  | none => .next s
  | some (c, l) =>
    let x := s.au a
    let q := x.queue src
    if coupled src dst ∧ !(s.ctx c).linkBound l src ∧ x.unbound src ∧ x.unbound dst ∧ n ≤ q.level ∧ x.qRoom dst n then
      .next ((s.putAu a ((x.putQueue src { q with data := q.data.drop n }).push dst (q.data.take n))).progress c)
    else .next s

end Sys2Proof.Machine
end

