-- ==== Sys2Proof/Machine/Engine.lean ====
section
/-!
DEFINITION. What the engines of an AU have in common (R124, R136 to R142): the operation word, the checks at issue, the
command FIFOs, the units, and the start of an operation with its flag wait.
-/
namespace Sys2Proof.Machine

/-! ## Operation words (Tables 4.4 to 4.7, 7.1 to 7.4, 8.2, 8.3, 9.6) -/

/-- KIND of a word. -/
def opKind (w : Nat) : Nat := bits w 63 60
/-- WEN of a word. -/
def opWen (w : Nat) : Bool := bit w 59
/-- WFLAG of a word. -/
def opFlag (w : Nat) : Nat := bits w 56 49

/-- Format codes 0xA to 0xE: the MX codes. -/
def mxCode (c : Nat) : Bool := decide (0xA ≤ c) && decide (c ≤ 0xE)

/-- Blocks along K of block size code bs are longer than K_t/2 of a format (R91). -/
def blockTooLong (c bs : Nat) : Bool := mxCode c && decide ((if c = 0xA ∨ c = 0xB then 64 else 128) < 16 * 2 ^ bs)

/-- The quadrants of a mask lie in one Hawk partition (Table 5.1). -/
def oneRegion (part qmask : Nat) : Bool :=
  match part with
  | 0 => true
  | 1 => bits qmask 1 0 == 0 || bits qmask 3 2 == 0
  | _ => qmask == 1 || qmask == 2 || qmask == 4 || qmask == 8 || qmask == 0

/-- OP_ROWS and OP_QMASK (R51). -/
def rowsQmask (ganged : Bool) (qmask base rows : Nat) : Option Nat :=
  if rows = 0 ∨ (if ganged then 512 else 256) < base + rows then some 0x0302
  else if qmask = 0 ∨ (ganged ∧ qmask ≠ 15) then some 0x0303
  else none

/-- The first of some results. -/
def orElse' (a b : Option Nat) : Option Nat := match a with | some x => some x | none => b

/-- Reject code of an ARRAY word of KIND 0 to 3, reserved bits and the header aside (R51, R78, R91). -/
def rejectArray (part w : Nat) : Option Nat :=
  match opKind w with
  | 0 =>
    let fn := bits w 47 45
    let g := !bit w 44
    let q := bits w 43 40
    let adp := bits w 3 2
    if 5 < fn ∨ 1 < bits w 6 5 ∨ (fn = 5 ∧ bit w 35) then some 0x0301
    else orElse' (rowsQmask g q (bits w 15 7) (bits w 25 16))
      (if adp ≠ 0 ∧ (!g ∨ fn ≠ 0) then some 0x0304
        else if !oneRegion part q then some 0x0305
        else if fn = 0 ∧ bits w 35 32 = 0xF then some 0x0306
        else if !g ∧ fn = 0 ∧ !bit w 29 ∧ blockTooLong (bits w 35 32) (bits w 31 30) then some 0x0307
        else none)
  | 1 =>
    let q := bits w 47 44
    if bits w 36 0 ≠ 0 then some 0x0301
    else if q = 0 then some 0x0303
    else if !oneRegion part q then some 0x0305
    else if bits w 43 40 = 0xF then some 0x0306
    else if !bit w 37 ∧ blockTooLong (bits w 43 40) (bits w 39 38) then some 0x0307
    else none
  | 2 =>
    if bits w 20 0 ≠ 0 ∨ (bit w 28 ∧ bit w 21) then some 0x0301
    else if bits w 25 22 ≠ 1 ∧ bits w 25 22 ≠ 3 then some 0x0306
    else none
  | 3 =>
    let g := !bit w 47
    let q := bits w 46 43
    if bits w 14 0 ≠ 0 then some 0x0301
    else orElse' (rowsQmask g q (bits w 42 34) (bits w 33 24))
      (if !oneRegion part q then some 0x0305
        else if !g ∧ mxCode (bits w 21 18) ∧ bits w 17 16 = 3 ∧ !bit w 15 then some 0x0307
        else none)
  | _ => some 0x0301

/-- LEN and ROWS of a Screed row operation (Table 7.2). -/
def scrLen (w : Nat) : Nat := if bits w 47 32 = 0 then 65536 else bits w 47 32
def scrRows (w : Nat) : Nat := if bits w 31 22 = 0 then 1024 else bits w 31 22
def scrStat (w : Nat) : Nat := bits w 21 8

/-- Side-memory units that a row operation's records span (R259). -/
def scrSpan (w : Nat) : Nat :=
  match opKind w with
  | 6 => 2 * scrRows w
  | 9 => (scrLen w + 3) / 4
  | _ => scrRows w

/-- The kind has reserved OPT bits or values (Table 7.4). -/
def scrOptBad (w : Nat) : Bool :=
  match opKind w with
  | 0 => false
  | 1 => bits w 4 0 != 0
  | 2 => decide (9 < bits w 7 4) || bits w 3 0 != 0
  | 3 => decide (9 < bits w 7 4) || bits w 3 0 != 0
  | 4 => decide (1 < bits w 7 6) || bits w 4 0 != 0
  | 5 => bits w 7 0 != 0
  | 6 => bits w 4 0 != 0
  | 7 => decide (8 < bits w 7 4) || bits w 3 0 != 0
  | 8 => bits w 7 0 != 0
  | 9 => bits w 5 0 != 0
  | _ => decide (3 < bits w 7 4) || bits w 2 0 != 0

/-- A SETP body holds a reserved bit or value (Table 7.3). Code 0xF is no row format and no Screed output format (Table 3.1). -/
def setpBad (w : Nat) : Bool :=
  match bits w 47 45 with
  | 0 => bits w 10 0 != 0 || bits w 44 41 == 0xF || bits w 40 37 == 0xF || bits w 33 30 == 0xF
  | 1 => bits w 10 0 != 0
  | 2 => bits w 16 0 != 0
  | 3 => bits w 20 0 != 0
  | 4 => bits w 16 0 != 0
  | 5 => bits w 12 0 != 0
  | 6 => bits w 20 0 != 0
  | _ => bits w 11 0 != 0 || bits w 44 28 == 0 || decide (65536 < bits w 44 28)

/-- Reject code of a SCREED word of KIND 0 to 0xB (R258, R259). -/
def rejectScreed (w : Nat) : Option Nat :=
  let k := opKind w
  if k = 0xA then (if setpBad w then some 0x0301 else none)
  else if k ≤ 0xB then
    if scrOptBad w ∨ ((k = 0 ∨ k = 1 ∨ k = 4) ∧ 16384 < scrLen w) ∨ (k = 9 ∧ scrRows w ≠ 1)
        ∨ (k = 7 ∧ (bits w 7 4 = 7 ∨ bits w 7 4 = 8) ∧ scrLen w % 2 = 1) ∨ 16384 < scrStat w + scrSpan w then some 0x0301
    else none
  else some 0x0301

/-- A gradient or operand format code of a Trowel word (Table 8.3). -/
def gfmtOk (c : Nat) : Bool := decide (c ≤ 1) || mxCode c

/-- Reject code of a TROWEL word of KIND 0 to 0xB. -/
def rejectTrowel (w : Nat) : Option Nat :=
  match opKind w with
  | 0 => if gfmtOk (bits w 7 4) then none else some 0x0301
  | 1 => if gfmtOk (bits w 47 44) ∧ bits w 39 0 = 0 then none else some 0x0301
  | 2 =>
    if bits w 45 44 ≠ 3 ∧ gfmtOk (bits w 35 32) ∧ gfmtOk (bits w 28 25) ∧ bits w 21 0 = 0 then none else some 0x0301
  | _ => some 0x0301

/-- Reject code of a MOVE word of KIND 0 to 0xB (Table 9.6). -/
def rejectMove (w : Nat) : Option Nat :=
  match opKind w with
  | 0 => if bits w 47 46 = 0 then none else some 0x0301
  | 1 => if bits w 47 39 = 0 then none else some 0x0301
  | 2 => if bits w 47 46 = 0 then none else some 0x0301
  | _ => some 0x0301

/-- The reject code of the first rule of the OP_ group that a word breaks on an engine (R142); none: it is accepted. -/
def opReject (e part w : Nat) : Option Nat :=
  let k := opKind w
  if bit w 48 ∨ k = 0xE then some 0x0301
  else
    let body :=
      if k = 0xC ∨ k = 0xD then (if bits w 47 8 = 0 then none else some 0x0301)
      else if k = 0xF then (if bits w 47 0 = 0 then none else some 0x0301)
      else match e with
        | 0 => rejectArray part w
        | 1 => rejectScreed w
        | 2 => rejectTrowel w
        | _ => rejectMove w
    orElse' body (if bit w 57 && !bit w 58 then some 0x0308 else none)

/-! ## FIFOs and units -/

/-- The operations of engine e that have not started, oldest first. -/
def Au.fifo (a : Au) (e : Nat) : List FifoOp := mget [] a.fifos e
/-- FIFO e replaced. -/
def Au.putFifo (a : Au) (e : Nat) (xs : List FifoOp) : Au := { a with fifos := mset [] a.fifos e xs }

/-- The engine of a unit: 0 pipeline, 1 load port, 2 drain port, 3 Screed, 4 Trowel lane, 5 MOVE. -/
def unitEngine (u : Nat) : Nat := if u ≤ 2 then 0 else u - 2

/-- The unit of a word on an engine; none for SETF, CLRF and NOP (R140). -/
def unitOf (e w : Nat) : Option Nat :=
  let k := opKind w
  if 0xC ≤ k then none
  else match e with
    | 0 => if k = 0 then some 0 else if k = 3 then some 2 else some 1
    | _ => some (e + 2)

/-- The units of an engine. -/
def engineUnits (e : Nat) : List Nat := if e = 0 then [0, 1, 2] else [e + 2]

/-- The operation that a unit has started. -/
def Au.act (a : Au) (u : Nat) : Option ActiveOp := mfind a.acts u
/-- The operation under way replaced. -/
def Au.putAct (a : Au) (u : Nat) (op : ActiveOp) : Au := { a with acts := mput a.acts u op }

/-- The first operation of a unit in the FIFO; none where a NOP before it has not taken effect. -/
def firstOf (e u : Nat) : List FifoOp → Option FifoOp
  | [] => none
  | op :: ops =>
    if opKind op.word = 0xF then none
    else if unitOf e op.word = some u then some op
    else firstOf e u ops

/-- The operation that unit u would start next, the unit being free. -/
def Au.nextOf (a : Au) (u : Nat) : Option FifoOp :=
  match a.act u with
  | some _ => none
  | none => firstOf (unitEngine u) u (a.fifo (unitEngine u))

/-- An operation older than number q on engine e has not started. -/
def Au.waitingBefore (a : Au) (e q : Nat) (p : Nat → Bool) : Bool :=
  (a.fifo e).any fun op => decide (op.seq < q) && p op.word

/-- An operation older than number q under way on engine e. -/
def Au.activeBefore (a : Au) (e q : Nat) (p : ActiveOp → Bool) : Bool :=
  (engineUnits e).any fun u => match a.act u with | some op => decide (op.seq < q) && p op | none => false

/-- Number q is the engine's oldest operation that is not complete (R140). Roller transfers that an earlier operation started
count (R360). -/
def State.allBefore (s : State) (n e q : Nat) : Bool :=
  let a := s.au n
  !(a.waitingBefore e q fun _ => true) && !(a.activeBefore e q fun _ => true)
    && !(e == 3 && s.mem.rollers.any fun r => a.asg == some (r.2.ctx, r.2.lau) && decide (r.2.seq < q))

/-- The flag test of R139. -/
def State.flagTest (s : State) (c w : Nat) : Bool := !opWen w || s.flag c (opFlag w) == bit w 58

/-- A satisfied wait with WCLR clears its flag. -/
def State.takeFlag (s : State) (c w : Nat) : State :=
  if opWen w ∧ bit w 57 then s.setFlag c (opFlag w) false else s

/-- The operation has started. -/
def startedOp (op : FifoOp) : ActiveOp :=
  { seq := op.seq, word := op.word, done := 0, data := [], regs := [], swapped := false, nonfin := false, sat := false }

/-- An operation starts on unit u: it leaves the FIFO (R171), a flag that it waits for with clear is cleared (R139), and it is under
way. -/
def State.beginOp (s : State) (n u c : Nat) (op : FifoOp) : State :=
  let e := unitEngine u
  ((s.takeFlag c op.word).modAu n fun a =>
    (a.putFifo e ((a.fifo e).filter fun o => o.seq != op.seq)).putAct u (startedOp op)).progress c

/-- Unit u of AU n starts its next operation, whose WEN is `wen`, if it is ready and its flag test succeeds (R139): it leaves
the FIFO (R171), and `onStart` does what else its start does. -/
def State.startUnit (s : State) (n u : Nat) (wen : Bool) (ready : Nat → FifoOp → Bool)
    (onStart : Nat → FifoOp → State → State) : State :=
  match s.live n with
  | none => s
  | some (c, _) =>
    match (s.au n).nextOf u with
    | none => s
    | some op =>
      if opWen op.word = wen ∧ ready c op ∧ s.flagTest c op.word then onStart c op (s.beginOp n u c op) else s

/-- The unit's operation is complete. -/
def State.endOp (s : State) (n u : Nat) : State := s.modAu n fun a => { a with acts := mdel a.acts u }

/-- The unit's operation under way, with its context and logical AU. -/
def State.opOf (s : State) (n u : Nat) : Option (Nat × Nat × ActiveOp) :=
  match s.live n with
  | none => none
  | some (c, l) => (((s.au n).act u).map fun op => (c, l, op))

/-! ## SETF, CLRF and NOP (R140) -/

/-- The first operation of a FIFO that satisfies p, with its context. -/
def State.firstKind (s : State) (n e k : Nat) : Option (Nat × FifoOp) :=
  match s.live n with
  | none => none
  | some (c, _) => (((s.au n).fifo e).find? fun op => opKind op.word == k).map fun op => (c, op)

/-- An operation without a unit leaves the FIFO. -/
def State.popOp (s : State) (n e c : Nat) (op : FifoOp) : State :=
  ((s.takeFlag c op.word).modAu n fun a => a.putFifo e ((a.fifo e).filter fun o => o.seq != op.seq)).progress c

/-- SETF or CLRF (kind k) at engine e takes effect once every earlier operation is complete. -/
def State.flagOp (s : State) (n e k : Nat) (v : Bool) : State :=
  match s.firstKind n e k with
  | none => s
  | some (c, op) =>
    if s.allBefore n e op.seq ∧ s.flagTest c op.word then (s.popOp n e c op).setFlag c (bits op.word 7 0) v else s

/-- SETF (R140). -/
def execSetf (a : AuId) (e : EngId) (s : State) : Out := .next (s.flagOp a e 0xC true)

/-- CLRF (R140). -/
def execClrf (a : AuId) (e : EngId) (s : State) : Out := .next (s.flagOp a e 0xD false)

/-- NOP (R140): it takes effect once every earlier operation with a unit has left the FIFO, and holds the later ones until
then. -/
def execNop (a : AuId) (e : EngId) (s : State) : Out :=
  .next (match s.firstKind a e 0xF with
    | none => s
    | some (c, op) =>
      if !((s.au a).waitingBefore e op.seq fun w => (unitOf e w).isSome) ∧ s.flagTest c op.word then s.popOp a e c op else s)

end Sys2Proof.Machine
end

