-- ==== Sys2Proof/Machine/Array.lean ====
section
/-!
DEFINITION. The matrix array (02_array_units.md): compute rows, weight banks and their swap, adapters, drains.
-/
namespace Sys2Proof.Machine

/-! ## Fields of array words (Tables 4.6 and 4.7) -/

/-- COMPUTE: FN, GANGED, QMASK, shared QIN, XQ, row format (INT8 for FN 1 to 5, R52), block size, blocks along rows. -/
def cFn (w : Nat) : Nat := bits w 47 45
def cGanged (w : Nat) : Bool := !bit w 44
def cQmask (w : Nat) : Nat := bits w 43 40
def cShared (w : Nat) : Bool := bit w 39
def cXq (w : Nat) : Nat := bits w 38 36
def cFmt (w : Nat) : Nat := if cFn w = 0 then bits w 35 32 else 8
def cBs (w : Nat) : Nat := bsOf (bits w 31 30)
def cAlongRows (w : Nat) : Bool := bit w 29
def cTagq (w : Nat) : Nat := bits w 28 26
def cKtile (w : Nat) : Nat := bits w 34 26
def cRows (w : Nat) : Nat := bits w 25 16
def cBase (w : Nat) : Nat := bits w 15 7
def cSet (w : Nat) : Bool := bits w 6 5 == 0
def cSwap (w : Nat) : Bool := bit w 4
def cAdp (w : Nat) : Nat := bits w 3 2
def cRank (w : Nat) : Nat := bits w 1 0
/-- Elements of a row record. -/
def cLen (w : Nat) : Nat :=
  let kt := if cFn w = 0 then ktOf (cFmt w) else 128
  if cGanged w then kt else kt / 2

/-- DRAIN: GANGED, QMASK, base, rows, output queue, format, block size, blocks down groups of rows. -/
def dGanged (w : Nat) : Bool := !bit w 47
def dQmask (w : Nat) : Nat := bits w 46 43
def dBase (w : Nat) : Nat := bits w 42 34
def dRows (w : Nat) : Nat := bits w 33 24
def dOq (w : Nat) : Nat := bits w 23 22
def dFmt (w : Nat) : Nat := bits w 21 18
def dBs (w : Nat) : Nat := bsOf (bits w 17 16)
def dDown (w : Nat) : Bool := bit w 15 && fmtIsMx (dFmt w)

/-- Quadrants of a mask, in order. -/
def quadsOf (mask : Nat) : List Nat := (List.range 4).filter (bit mask)

/-! ## Accumulator rows (R43) -/

/-- Slices and slice row of an accumulator row of a view. -/
def slotsOf (ganged : Bool) (qmask r : Nat) : List (Nat × Nat) :=
  if ganged then [(2 * (r / 256), r % 256), (2 * (r / 256) + 1, r % 256)] else (quadsOf qmask).map fun q => (q, r)

/-- Rows [lo, hi) of a view hold row `p.2` of slice `p.1`. -/
def covers (ganged : Bool) (qmask lo hi : Nat) (p : Nat × Nat) : Bool :=
  let r := if ganged then 256 * (p.1 / 2) + p.2 else p.2
  (ganged || bit qmask p.1) && decide (lo ≤ r) && decide (r < hi)

/-- Compute word w, `done` rows of it over, still writes an accumulator row. -/
def computeCovers (w done : Nat) (p : Nat × Nat) : Bool :=
  opKind w == 0 && covers (cGanged w) (cQmask w) (cBase w + done) (cBase w + cRows w) p

/-- Drain word w, `done` rows of it read, still reads an accumulator row. -/
def drainCovers (w done : Nat) (p : Nat × Nat) : Bool :=
  opKind w == 3 && covers (dGanged w) (dQmask w) (dBase w + done) (dBase w + dRows w) p

/-- Key of an accumulator entry, and of an entry of u. -/
def accKey (slice row col : Nat) : Nat := 16384 * slice + 64 * row + col
def uKey (row e : Nat) : Nat := 64 * row + e

/-- An accumulator entry. -/
def ArraySt.entry (x : ArraySt) (slice row col : Nat) : AccEntry := mget ⟨0, .unwritten⟩ x.acc (accKey slice row col)

/-! ## Banks (R54 to R57) -/

/-- Quadrant q. -/
def ArraySt.quad (x : ArraySt) (q : Nat) : Quad := (x.quads[q]?).getD Quad.reset
/-- Quadrant q changed. -/
def ArraySt.modQuad (x : ArraySt) (q : Nat) (f : Quad → Quad) : ArraySt := { x with quads := setAt x.quads q (f (x.quad q)) }
/-- A bank of a quadrant: false A, true B. -/
def Quad.bank (x : Quad) (b : Bool) : Bank := if b then x.b else x.a
/-- A bank replaced. -/
def Quad.putBank (x : Quad) (b : Bool) (y : Bank) : Quad := if b then { x with b := y } else { x with a := y }

/-- The earlier compute operations of an array FIFO that have a swap or rows to come, as (word, swap still to come). -/
def Au.computesBefore (a : Au) (q : Nat) : List (Nat × Bool) :=
  (match a.act 0 with | some op => if op.seq < q then [(op.word, cSwap op.word && !op.swapped)] else [] | none => [])
    ++ ((a.fifo 0).filter fun op => decide (op.seq < q) && opKind op.word == 0).map fun op => (op.word, cSwap op.word)

/-- The banks of quadrant k that a list of compute operations uses in turn, from the active bank on, and the last of them. -/
def banksUsed (k : Nat) (cur : Bool) : List (Nat × Bool) → List Bool × Bool
  | [] => ([], cur)
  | (w, sw) :: ws =>
    if bit (cQmask w) k then
      let b := if sw then !cur else cur
      let p := banksUsed k b ws
      (b :: p.1, p.2)
    else banksUsed k cur ws

/-- The bank of quadrant k that a WLOAD with number q targets (R55), and whether an earlier compute operation still uses it. -/
def Au.loadTarget (a : Au) (q k : Nat) : Bool × Bool :=
  let p := banksUsed k (a.array.quad k).activeB (a.computesBefore q)
  (!p.2, p.1.contains (!p.2))

/-- The banks that a swap of compute operation q needs are HELD (R58): none is being loaded, and no earlier WLOAD waits. -/
def Au.swapHeld (a : Au) (q w : Nat) : Bool :=
  (quadsOf (cQmask w)).all fun k =>
    let x := a.array.quad k
    x.loading != some (!x.activeB)
      && !(a.waitingBefore 0 q fun v => opKind v == 1 && bit (bits v 47 44) k)

/-! ## Formats (R52, R53) -/

/-- Two operand formats combine (R52). -/
def fmtsCombine (x w : Nat) : Bool := (fmtIsInt x == fmtIsInt w) && (fmtIs46 x == fmtIs46 w)

/-- The banks break the formats rule for a row operand (R53). -/
def fmtsBroken (ganged : Bool) (x : Nat) (bs : List Bank) : Bool :=
  let fs := bs.filterMap fun b => b.loaded.map (·.fmt)
  fs.any (fun f => !fmtsCombine x f) || (ganged && fs.any fun f => some f != fs.head?)

/-- ARRAY_FORMAT_MISMATCH (R53, R143). -/
def State.fmtMismatch (s : State) (n c qmask : Nat) : State :=
  (s.flagCount (AU_ACC_STATUS n) 8 (AU_ARRAY_EVT_CNT1 n) 31 16).faultCtx c 0x0280 n [(0, 1, n), (1, 1, qmask)]

/-! ## Row records (R131, R690) -/

/-- One stream's row: element bits and scale bytes of the elements. -/
abbrev RowIn := List (Nat × Nat)

/-- A row record popped from a queue: `keep` are the scale bytes of the group under way (blocks along rows). -/
def Au.popRow (a : Au) (w r q : Nat) (keep : List Byte) : Option (RowIn × List Byte × Au) :=
  let n := cLen w
  let f := cFmt w
  let bs := cBs w
  let mk (vs ss : List Byte) (i : Nat → Nat) : RowIn :=
    (List.range n).map fun e => (unpackElem f vs e, if fmtIsMx f then byteAt ss (i e) else 127)
  if !fmtIsMx f then (a.popRec q (rowBytes f n) 0).map fun p => (mk p.1 [] id, [], p.2.2)
  else if cAlongRows w then
    if r % bs = 0 then (a.popRec q (rowBytes f n) n).map fun p => (mk p.1 p.2.1 id, p.2.1, p.2.2)
    else
      let x := a.queue q
      match takeRole false (rowBytes f n) x.data with
      | none => none
      | some (vs, d) => some (mk vs keep id, keep, a.putQueue q { x with data := d })
  else
    let k := ceilDiv n bs
    (a.popRec q (rowBytes f (k * bs)) k).map fun p => (mk p.1 p.2.1 (· / bs), [], p.2.2)

/-- The rows of several streams popped, each with `n` bytes of kept scales; all or none. -/
def Au.popRows (a : Au) (w r n : Nat) : List Nat → List Byte → Option (List RowIn × List Byte × Au)
  | [], _ => some ([], [], a)
  | q :: qs, keep =>
    match a.popRow w r q (keep.take n) with
    | none => none
    | some (x, k, b) =>
      match b.popRows w r n qs (keep.drop n) with
      | none => none
      | some (xs, ks, b') => some (x :: xs, k ++ ks, b')

/-- The row input of quadrant k, once the records of a row have been popped: a GANGED row's half, a QUADRANT row's own or
shared record. -/
def rowFor (w : Nat) (rows : List RowIn) (k : Nat) : RowIn :=
  if cGanged w then
    let x := rows.headD []
    let h := x.length / 2
    if k < 2 then x.take h else x.drop h
  else if cShared w then rows.headD []
  else
    match findAt (· == k) (quadsOf (cQmask w)) 0 with
    | some (i, _) => (rows[i]?).getD []
    | none => []

/-! ## Cells (R41, R42, R61, R63, R66) -/

/-- Weight element (i, j) of a bank's tile record of kt/2 rows by 64 columns, and its scale byte (R86). -/
def Bank.weight (b : Bank) (i j : Nat) : Option (Nat × Nat × Nat) :=
  b.loaded.map fun f =>
    let h := ktOf f.fmt / 2
    let e := 64 * i + j
    let bs := bsOf f.bs
    let bi := if f.bdir = 1 then e / bs else if bs ≤ h then 64 * (i / bs) + j else (j * h + i) / bs
    (f.fmt, unpackElem f.fmt b.tile e, if fmtIsMx f.fmt then byteAt b.tile (rowBytes f.fmt (64 * h) + bi) else 127)

/-- The FP32 column sum of a quadrant: products formed exactly, added in an order that is left open. -/
def colSum (seed xf : Nat) (b : Bank) (x : RowIn) (k j : Nat) : Num :=
  let ps := (List.range x.length).map fun i =>
    match b.weight i j, x[i]? with
    | some (wf, w, ws), some (v, vs) => prod32 (scaledVal xf v vs) (scaledVal wf w ws)
    | _, _ => .fin false 0 0
  treeSum (Config.treePick seed k j) ps.length ps

/-- The integer value of an element. -/
def intOf (f w : Nat) : Int := if f = 9 then toInt 4 w else toInt 8 w

/-- The integer terms of a column: row element and weight of each position; zero weights where nothing was loaded. -/
def colTerms (xf : Nat) (b : Bank) (x : RowIn) (j : Nat) : List (Int × Int) :=
  (List.range x.length).map fun i =>
    let v := match x[i]? with | some (v, _) => intOf xf v | none => 0
    (v, match b.weight i j with | some (wf, w, _) => intOf wf w | none => 0)

/-- Saturation to 32 bits (R63), and whether it saturated. -/
def sat32 (i : Int) : Nat × Bool :=
  if i < -(2 ^ 31 : Int) then (0x80000000, true)
  else if (2 ^ 31 : Int) ≤ i then (0x7FFFFFFF, true)
  else (ofInt 32 i, false)

/-- Integer functions of a column's terms combined with the old entry (R63, R66): bits and whether they saturated. -/
def intCombine (fn : Nat) (set : Bool) (ktile kt : Nat) (old : Nat) (ts : List (Int × Int)) : Nat × Bool :=
  let pinf : Int := 0x7FFFFFFF
  let ninf : Int := -0x80000000
  let acc := toInt 32 old
  match fn with
  | 0 => sat32 ((if set then 0 else acc) + ts.foldl (fun y t => y + t.1 * t.2) 0)
  | 1 =>
    let y := ts.foldl (fun y t => min y (if t.1 = 127 ∨ t.2 = 127 then pinf else t.1 + t.2)) pinf
    (ofInt 32 (if set then y else min acc y), false)
  | 2 =>
    let y := ts.foldl (fun y t => max y (if t.1 = -128 ∨ t.2 = -128 then ninf else t.1 + t.2)) ninf
    (ofInt 32 (if set then y else max acc y), false)
  | 3 => sat32 ((if set then 0 else acc) + ts.foldl (fun y t => y + ((t.1 - t.2).natAbs : Int)) 0)
  | 4 => sat32 ((if set then 0 else acc) + ts.foldl (fun y t => y + (t.1 - t.2) * (t.1 - t.2)) 0)
  | _ =>
    let start : Int × Nat × Nat := (-32768, ktile * kt, 0)
    let r := ts.foldl (fun (y : Int × Nat × Nat) t =>
      if t.1 ≠ -128 ∧ t.2 ≠ -128 ∧ y.1 < t.1 + t.2 then (t.1 + t.2, ktile * kt + y.2.2, y.2.2 + 1)
      else (y.1, y.2.1, y.2.2 + 1)) start
    if set ∨ toInt 16 (old / 65536) < r.1 then (65536 * ofInt 16 r.1 + r.2.1 % 65536, false) else (old, false)

/-- What a row does to the accumulators: the array, and the slices that became non-finite or saturated. -/
structure AccOut where
  arr : ArraySt
  nonfin : Nat
  sat : Nat

/-- One result put at an entry. -/
def AccOut.put (o : AccOut) (slice row col bits_ : Nat) (kind : AccKind) (sat : Bool) : AccOut :=
  let bad := kind == .fp && !numFinite (of32 bits_)
  { arr := { o.arr with acc := mset ⟨0, .unwritten⟩ o.arr.acc (accKey slice row col) ⟨bits_, kind⟩ }
    nonfin := if bad && !bit o.nonfin slice then o.nonfin + 2 ^ slice else o.nonfin
    sat := if sat && !bit o.sat slice then o.sat + 2 ^ slice else o.sat }

/-- The results of a compute row (row r of the view), column by column. `cols` lists (slice, slice row, column, the quadrants
whose sums the entry takes). -/
def rowCols (w r : Nat) : List (Nat × Nat × Nat × List Nat) :=
  if cGanged w then
    (List.range 128).map fun j => (2 * (r / 256) + j / 64, r % 256, j % 64, [j / 64, j / 64 + 2])
  else ((quadsOf (cQmask w)).map fun q => (List.range 64).map fun j => (q, r, j, [q])).flatten

/-- The row's base results combined into the accumulators. -/
def computeBase (seed w r : Nat) (rows : List RowIn) (x : ArraySt) : AccOut :=
  let f := cFmt w
  (rowCols w r).foldl (fun o e =>
    let (slice, row, col, qs) := e
    let old := (o.arr.entry slice row col).bits
    let bk := fun q => let y := x.quad q; y.bank y.activeB
    if fmtIsInt f then
      let ts := (qs.map fun q => colTerms f (bk q) (rowFor w rows q) col).flatten
      let v := intCombine (cFn w) (cSet w) (cKtile w) (cLen w) old ts
      o.put slice row col v.1 .int v.2
    else
      let sums := qs.map fun q => colSum seed f (bk q) (rowFor w rows q) q col
      let y := match sums with | [] => .fin false 0 0 | v :: vs => vs.foldl add32 v
      o.put slice row col (to32 (if cSet w then y else add32 (of32 old) y)) .fp false) ⟨x, 0, 0⟩

/-! ## Adapters (R67 to R72) -/

/-- Rank of a rank code. -/
def rankOf (code : Nat) : Nat := 8 * 2 ^ code
/-- Elements of a piece. -/
def pieceElems (up : Bool) (rank kt : Nat) : Nat := if up then 128 * rankOf rank else (if kt = 1 then 256 else 128) * rankOf rank
/-- Bytes of a piece. -/
def pieceBytes (w : Nat) : Nat := rowBytes (bits w 25 22) (pieceElems (bit w 28) (bits w 27 26) (bits w 21 21))

/-- Byte a of the adapter store: what lies past its end is left open. -/
def ArraySt.storeByte (x : ArraySt) (a : Nat) : Byte :=
  if a < 0x40000 then rdByte x.store a else BitVec.ofNat 8 (Config.keyed 0 a 0)

/-- Element e of a piece. -/
def ArraySt.pieceElem (x : ArraySt) (d : AdapterEntry) (e : Nat) : Num :=
  let n := fmtBits d.fmt / 8
  elemVal d.fmt (leNat ((List.range n).map fun i => x.storeByte (2048 * d.page + n * e + i)))

/-- The directory's entry for a piece that serves an operation: key, rank and, for a down piece, K_t. -/
def ArraySt.piece (x : ArraySt) (variant : Nat) (up : Bool) (rank kt : Nat) : Option AdapterEntry :=
  match x.dir.find? fun d => d.variant == variant && d.up == up with
  | some d => if d.rank = rank ∧ (up ∨ d.kt = kt) then some d else none
  | none => none

/-- The u row of an accumulator row. -/
def ArraySt.uRow (x : ArraySt) (a r : Nat) : List Num := (List.range r).map fun e => of32 (mget 0 x.u (uKey a e))
/-- The u row cleared. -/
def ArraySt.clearU (x : ArraySt) (a : Nat) : ArraySt :=
  { x with u := mdrop (fun k => decide (uKey a 0 ≤ k) && decide (k < uKey (a + 1) 0)) x.u }

/-- u[a] + x · down, entry by entry. -/
def downProject (seed : Nat) (x : ArraySt) (a rank xf : Nat) (d : AdapterEntry) (row : RowIn) : ArraySt :=
  let n := rankOf rank
  (List.range n).foldl (fun y r =>
    let ps := (List.range row.length).map fun i =>
      match row[i]? with
      | some (v, sc) => prod32 (scaledVal xf v sc) (x.pieceElem d (i * n + r))
      | none => .fin false 0 0
    let old := of32 (mget 0 x.u (uKey a r))
    { y with u := mset 0 y.u (uKey a r) (to32 (add32 old (treeSum (Config.treePick seed 4 r) ps.length ps))) }) x

/-- acc[a] + u[a] · up, column by column. For an integer base the spec gives no FP32 sum with an integer entry: those values
are free. -/
def upProject (seed : Nat) (o : AccOut) (a rank : Nat) (int : Bool) (d : AdapterEntry) : AccOut :=
  let n := rankOf rank
  let u := o.arr.uRow a n
  (List.range 128).foldl (fun y j =>
    let slice := 2 * (a / 256) + j / 64
    let old := (y.arr.entry slice (a % 256) (j % 64)).bits
    let ps := (List.range n).map fun r => prod32 ((u[r]?).getD .nan) (o.arr.pieceElem d (128 * r + j))
    if int then y.put slice (a % 256) (j % 64) (Config.keyed 1 seed j % 2 ^ 32) .int false
    else y.put slice (a % 256) (j % 64) (to32 (add32 (of32 old) (treeSum (Config.treePick seed 5 j) ps.length ps))) .fp false) o

/-- A piece that an adapter action needs, if it needs one; a missing piece is the error. -/
def ArraySt.needPiece (x : ArraySt) (needed : Bool) (v : Nat) (up : Bool) (rank kt : Nat) : Except Nat (Option AdapterEntry) :=
  if needed then (match x.piece v up rank kt with | some d => Except.ok (some d) | none => Except.error v) else Except.ok none

/-- The adapter stage of a row (R70); a variant whose piece is missing is the error (R71). -/
def adaptRow (seed w a tag : Nat) (row : RowIn) (o : AccOut) : Except Nat AccOut :=
  let adp := cAdp w
  let v := tag % 1024
  if adp = 0 then .ok o
  else if bit tag 15 then .ok (if cSet w then { o with arr := o.arr.clearU a } else o)
  else
    let kt := if cLen w = 256 then 1 else 0
    match o.arr.needPiece (adp == 1 || adp == 3) v false (cRank w) kt, o.arr.needPiece (adp == 2 || adp == 3) v true (cRank w) kt with
    | .error e, _ => .error e
    | _, .error e => .error e
    | .ok dn, .ok u =>
      let o1 := match dn with
        | none => o
        | some d =>
          let x := if cSet w then o.arr.clearU a else o.arr
          { o with arr := downProject seed x a (cRank w) (cFmt w) d row }
      .ok (match u with
        | none => o1
        | some d => upProject seed o1 a (cRank w) (fmtIsInt (cFmt w)) d)

/-! ## COMPUTE -/

/-- No earlier DRAIN has still to read accumulator row p (Table 2.4). -/
def Au.drainedBefore (a : Au) (q : Nat) (p : Nat × Nat) : Bool :=
  !(a.waitingBefore 0 q fun w => drainCovers w 0 p)
    && !(match a.act 2 with | some op => decide (op.seq < q) && drainCovers op.word op.done p | none => false)

/-- The rows that compute row i of a word writes are free of earlier drains. -/
def Au.rowFree (a : Au) (q w i : Nat) : Bool :=
  (slotsOf (cGanged w) (cQmask w) (cBase w + i)).all (a.drainedBefore q)

/-- Every earlier ADAPT_LOAD has completed. -/
def Au.adaptersIn (a : Au) (q : Nat) : Bool :=
  !(a.waitingBefore 0 q fun w => opKind w == 2)
    && !(match a.act 1 with | some op => decide (op.seq < q) && opKind op.word == 2 | none => false)

/-- A COMPUTE is ready to start; with a flag wait, every ordering wait of its first row is over too (R139). -/
def State.computeReady (s : State) (n : Nat) (op : FifoOp) : Bool :=
  let a := s.au n
  (cAdp op.word == 0 || a.adaptersIn op.seq)
    && (!opWen op.word || (a.rowFree op.seq op.word 0 && (!cSwap op.word || a.swapHeld op.seq op.word)))

/-- The banks of the named quadrants swapped (R57). -/
def ArraySt.swapBanks (x : ArraySt) (qmask : Nat) : ArraySt :=
  (quadsOf qmask).foldl (fun y k => y.modQuad k fun q => { q with activeB := !q.activeB }) x

/-- Row input queues of a COMPUTE. -/
def computeQueues (w : Nat) : List Nat :=
  if cGanged w ∨ cShared w then [cXq w] else (quadsOf (cQmask w)).map fun q => (cXq w + q) % 8

/-- NONFIN and SAT of slices, and the events, each once in an operation (R62, R63). -/
def State.accFlags (s : State) (n c qmask nonfin sat : Nat) (op : ActiveOp) : State :=
  let old := s.fld (AU_ACC_STATUS n) 7 0
  let s1 := s.setFld (AU_ACC_STATUS n) 7 0 (Nat.lor old (nonfin + 16 * sat))
  let s2 := if nonfin ≠ 0 ∧ !op.nonfin then
      (s1.count (AU_ARRAY_EVT_CNT0 n) 15 0 1).raise 0x0580 (.ctx c) [(0, 1, n), (1, 1, qmask), (2, 1, s1.fld (AU_ACC_STATUS n) 3 0)]
    else s1
  if sat ≠ 0 ∧ !op.sat then
    (s2.count (AU_ARRAY_EVT_CNT0 n) 31 16 1).raise 0x0581 (.ctx c) [(0, 1, n), (1, 1, qmask), (2, 1, s2.fld (AU_ACC_STATUS n) 7 4)]
  else s2

/-- The next row of the compute operation under way: it waits for its input, for earlier drains and, where it swaps, for the
bank; then it passes through the array (R41 to R46, R60 to R71). -/
def State.computeRow (s : State) (n c : Nat) (op : ActiveOp) : State :=
  let a := s.au n
  let w := op.word
  let r := cBase w + op.done
  let swap := cSwap w && !op.swapped
  if !a.rowFree op.seq w op.done || (swap && !a.swapHeld op.seq w) then s
  else
    let qs := computeQueues w
    match a.popRows w op.done (cLen w) qs op.data with
    | none => s
    | some (rows, keep, a1) =>
      match (if cAdp w = 0 then some ([], a1) else a1.pop (cTagq w) 2) with
      | none => s
      | some (tag, a2) =>
        let x := if swap then a2.array.swapBanks (cQmask w) else a2.array
        let banks := (quadsOf (cQmask w)).map fun k => (x.quad k).bank (x.quad k).activeB
        if op.done = 0 ∧ fmtsBroken (cGanged w) (cFmt w) banks then
          (s.putAu n { a2 with array := x }).fmtMismatch n c (cQmask w)
        else
          let p := s.pick
          match adaptRow p.1 w r (leNat tag) (rows.headD []) (computeBase p.1 w r rows x) with
          | .error v =>
            (((p.2.putAu n { a2 with array := x }).flagCount (AU_ACC_STATUS n) 9 (AU_ARRAY_EVT_CNT1 n) 15 0)).faultCtx c 0x0281 n
              [(0, 1, n), (1, 1, cQmask w), (2, 2, v)]
          | .ok o =>
            let op1 := { op with
              done := op.done + 1, data := keep, swapped := true, nonfin := op.nonfin || o.nonfin != 0, sat := op.sat || o.sat != 0 }
            let a3 := { a2 with array := o.arr }
            let s1 := p.2.putAu n (if op1.done < cRows w then a3.putAct 0 op1 else { a3 with acts := mdel a3.acts 0 })
            let s2 := s1.setReg64 (AU_ARRAY_ROWS_LO n) (AU_ARRAY_ROWS_HI n)
              ((s1.reg64 (AU_ARRAY_ROWS_LO n) (AU_ARRAY_ROWS_HI n) + 1) % 2 ^ 64)
            (s2.accFlags n c (cQmask w) o.nonfin o.sat op).progress c

/-- Unit 0 starts its next operation. -/
def State.startCompute (s : State) (n : Nat) (wen : Bool) : State :=
  s.startUnit n 0 wen (fun _ op => s.computeReady n op) fun _ _ t => t

/-- COMPUTE (R60): the next operation of the pipeline starts, or the one under way passes its next row. -/
def execCompute (a : AuId) (s : State) : Out :=
  .next (match s.opOf a 0 with
    | some (c, _, op) => s.computeRow a c op
    | none => s.startCompute a false)

/-- SWAP_BANK_HELD (R58): the swapping row held in BC goes on once the bank it needs is HELD. -/
def execSwapBankHeld (a : AuId) (s : State) : Out :=
  .next (match s.opOf a 0 with
    | some (c, _, op) => if cSwap op.word ∧ op.done = 0 ∧ !op.swapped then s.computeRow a c op else s
    | none => s)

/-! ## WLOAD and ADAPT_LOAD -/

/-- Value bytes and scale bytes of a quadrant's tile record (R56, R86). -/
def tileBytes (w : Nat) : Nat × Nat :=
  let f := bits w 43 40
  let n := 64 * (ktOf f / 2)
  (rowBytes f n, if fmtIsMx f then ceilDiv n (bsOf (bits w 39 38)) else 0)

/-- As many bytes of a tile record as are present, at most n: values first, then scales. -/
def takeSome (scales : Bool) : Nat → List (Bool × Byte) → List Byte × List (Bool × Byte)
  | 0, xs => ([], xs)
  | _ + 1, [] => ([], [])
  | n + 1, x :: xs =>
    if x.1 = scales then let p := takeSome scales n xs; (x.2 :: p.1, p.2)
    else let p := takeSome scales (n + 1) xs; (p.1, x :: p.2)

/-- Bytes of a record of v values and m scales, `have_` of them taken already, popped from a queue as far as they are
present. -/
def Au.pull (a : Au) (q v m have_ : Nat) : List Byte × Au :=
  let x := a.queue q
  if m = 0 then ((x.data.take (v - have_)).map (·.2), a.putQueue q { x with data := x.data.drop (v - have_) })
  else
    let p := takeSome false (v - have_) x.data
    let r := if have_ + p.1.length < v then ([], p.2) else takeSome true (v + m - (have_ + p.1.length)) p.2
    (p.1 ++ r.1, a.putQueue q { x with data := r.2 })

/-- A WLOAD is ready to start: in every named quadrant no earlier compute operation uses the target bank (Table 2.4). -/
def State.loadReady (s : State) (n : Nat) (op : FifoOp) : Bool :=
  let a := s.au n
  if opKind op.word = 1 then (quadsOf (bits op.word 47 44)).all fun k => !(a.loadTarget op.seq k).2
  else
    !(a.waitingBefore 0 op.seq fun w => opKind w == 0 && cAdp w != 0)
      && !(match a.act 0 with | some c => decide (c.seq < op.seq) && cAdp c.word != 0 | none => false)

/-- The start of a WLOAD: the target bank of each named quadrant is LOADING. -/
def Au.beginLoad (a : Au) (op : FifoOp) : Au :=
  if opKind op.word = 1 then
    (quadsOf (bits op.word 47 44)).foldl (fun b k =>
      let t := (a.loadTarget op.seq k).1
      { b with array := b.array.modQuad k fun q => { q.putBank t ⟨(q.bank t).loaded, []⟩ with loading := some t } }) a
  else a

/-- Unit 1 starts its next operation. -/
def State.startLoad (s : State) (n : Nat) (wen : Bool) : State :=
  s.startUnit n 1 wen (fun _ op => s.loadReady n op) fun _ op t => t.modAu n fun a => a.beginLoad op

/-- Bytes of the tile record pulled into the bank being loaded of quadrant k. -/
def Au.pullTile (a : Au) (w k : Nat) : Au :=
  match (a.array.quad k).loading with
  | none => a
  | some t =>
    let b := (a.array.quad k).bank t
    let m := tileBytes w
    let p := a.pull (8 + k) m.1 m.2 b.tile.length
    { p.2 with array := p.2.array.modQuad k fun q => q.putBank t { b with tile := b.tile ++ p.1 } }

/-- WLOAD (R56): the next operation of the load port starts, or the WLOAD under way takes what its queues hold. -/
def execWload (a : AuId) (s : State) : Out :=
  .next (match s.opOf a 1 with
    | some (c, _, op) =>
      if opKind op.word = 1 then
        (s.modAu a fun x => (quadsOf (bits op.word 47 44)).foldl (fun y k => y.pullTile op.word k) x).progress c
      else s
    | none => s.startLoad a false)

/-- Every tile of the WLOAD under way is complete. -/
def Au.tilesIn (a : Au) (w : Nat) : Bool :=
  (quadsOf (bits w 47 44)).all fun k =>
    match (a.array.quad k).loading with
    | some t => decide ((tileBytes w).1 + (tileBytes w).2 ≤ ((a.array.quad k).bank t).tile.length)
    | none => false

/-- WLOAD_COMPLETE (R56): each bank is HELD and records the tile's format, block size and block direction. -/
def execWloadComplete (a : AuId) (s : State) : Out :=
  .next (match s.opOf a 1 with
    | some (c, _, op) =>
      if opKind op.word = 1 ∧ (s.au a).tilesIn op.word then
        let f : TileFmt := ⟨bits op.word 43 40, bits op.word 39 38, bits op.word 37 37⟩
        (((s.modAu a fun x =>
          { x with
            array := (quadsOf (bits op.word 47 44)).foldl (fun y k => y.modQuad k fun q =>
              match q.loading with
              | some t => { q.putBank t { q.bank t with loaded := some f } with loading := none }
              | none => q) x.array }).endOp a 1).progress c)
      else s
    | none => s)

/-- The directory entry of an ADAPT_LOAD. -/
def adapterEntry (w : Nat) : AdapterEntry :=
  { variant := bits w 38 29, up := bit w 28, rank := bits w 27 26, kt := bits w 21 21, fmt := bits w 25 22, page := bits w 45 39
    pages := ceilDiv (pieceBytes w) 2048 }

/-- The entry is valid: every other entry with its key or any of its pages is removed (R68). -/
def addEntry (dir : List AdapterEntry) (e : AdapterEntry) : List AdapterEntry :=
  (dir.filter fun d =>
    !(d.variant == e.variant && d.up == e.up) && (decide (d.page + d.pages ≤ e.page) || decide (e.page + e.pages ≤ d.page))) ++ [e]

/-- Piece bytes written to the store from page `page` on, `at_` of them there already; bytes past its end go nowhere. -/
def ArraySt.putPiece (x : ArraySt) (page at_ : Nat) (bs : List Byte) : ArraySt :=
  let o := 2048 * page + at_
  { x with store := wrBytes x.store o (bs.take (0x40000 - o)) }

/-- ADAPT_LOAD (R68): the next operation of the load port starts, or the one under way takes what its queue holds; with its
last byte its directory entry is valid. -/
def execAdaptLoad (a : AuId) (s : State) : Out :=
  .next (match s.opOf a 1 with
    | some (c, _, op) =>
      if opKind op.word = 2 then
        let w := op.word
        let n := pieceBytes w
        let p := (s.au a).pull (8 + bits w 47 46) n 0 op.done
        let x := p.2.array.putPiece (bits w 45 39) op.done p.1
        let k := op.done + p.1.length
        (if k < n then (s.putAu a ({ p.2 with array := x }.putAct 1 { op with done := k })).progress c
          else ((s.putAu a { p.2 with array := { x with dir := addEntry x.dir (adapterEntry w) } }).endOp a 1).progress c)
      else s
    | none => s.startLoad a false)

/-! ## DRAIN -/

/-- No earlier compute operation has still to write accumulator row p. -/
def Au.writtenBefore (a : Au) (q : Nat) (p : Nat × Nat) : Bool :=
  !(a.waitingBefore 0 q fun w => computeCovers w 0 p)
    && !(match a.act 0 with | some op => decide (op.seq < q) && computeCovers op.word op.done p | none => false)

/-- Drain row i of a word can be read. -/
def Au.drainRowReady (a : Au) (q w i : Nat) : Bool :=
  (slotsOf (dGanged w) (dQmask w) (dBase w + i)).all (a.writtenBefore q)

/-- The operation that will have written row p last is a floating-point one (R97, R143). -/
def Au.fpRow (a : Au) (q : Nat) (p : Nat × Nat) : Bool :=
  let ws := (match a.act 0 with
      | some op => if op.seq < q ∧ computeCovers op.word op.done p then [op.word] else []
      | none => []) ++ ((a.fifo 0).filter fun op => decide (op.seq < q) && computeCovers op.word 0 p).map (·.word)
  match ws.getLast? with
  | some w => !fmtIsInt (cFmt w)
  | none => (List.range 64).any fun j => (a.array.entry p.1 p.2 j).kind == .fp

/-- A DRAIN with OFMT INT32 reaches rows last written by a floating-point operation (R143). -/
def Au.drainMismatch (a : Au) (op : FifoOp) : Bool :=
  dFmt op.word == 0xF && (List.range (dRows op.word)).any fun i =>
    (slotsOf (dGanged op.word) (dQmask op.word) (dBase op.word + i)).any (a.fpRow op.seq)

/-- Unit 2 starts its next operation. -/
def State.startDrain (s : State) (n : Nat) (wen : Bool) : State :=
  s.startUnit n 2 wen (fun _ op => !opWen op.word || (s.au n).drainRowReady op.seq op.word 0) fun c op t =>
    if (s.au n).drainMismatch op then t.fmtMismatch n c (dQmask op.word) else t

/-- The entries of a drain row for one output queue: (output queue, entries). -/
def ArraySt.drainRow (x : ArraySt) (w i : Nat) : List (Nat × List AccEntry) :=
  let r := dBase w + i
  if dGanged w then
    [(12 + dOq w, (List.range 128).map fun j => x.entry (2 * (r / 256) + j / 64) (r % 256) (j % 64))]
  else (quadsOf (dQmask w)).map fun q => (12 + (dOq w + q) % 4, (List.range 64).map fun j => x.entry q r j)

/-- The value of an accumulator entry (R97). -/
def AccEntry.val (e : AccEntry) : Num := if e.kind = .int then numInt (toInt 32 e.bits) else of32 e.bits

/-- One entry narrowed to an unscaled format: INT32 entries go to INT32 and FP32 entries to FP32 bit for bit (R95 to R97). -/
def drainElem (f : Nat) (e : AccEntry) : Nat :=
  if f = 0xF then e.bits
  else if f = 0 ∧ e.kind ≠ .int then e.bits
  else (narrow f .rne e.val).bits

/-- Values padded with zeros to whole blocks (R90). -/
def padBlocks (bs : Nat) (vs : List Num) : List Num := vs ++ List.replicate (ceilDiv vs.length bs * bs - vs.length) (.fin false 0 0)

/-- A row in blocks within the row, as marked bytes: values, then one scale byte a block (R87, R131). -/
def blockRow (f bs : Nat) (rs : Nat → Rnd) (vs : List Num) : List (Bool × Byte) :=
  let bl := (chunks bs vs).map fun b => writeBlock f rs b
  mark false (packRow f ((bl.map fun b => let es := b.elems.map (·.bits); es ++ List.replicate (bs - es.length) 0).flatten))
    ++ mark true (bl.map fun b => BitVec.ofNat 8 b.scale)

/-- A drain row with no group of rows to wait for, as marked bytes. -/
def drainOut (w : Nat) (es : List AccEntry) : List (Bool × Byte) :=
  let f := dFmt w
  if fmtIsMx f then blockRow f (dBs w) (fun _ => .rne) (es.map AccEntry.val)
  else mark false (packRow f (es.map (drainElem f)))

/-- The blocks of a group of rows, column by column (R89): the group's scale bytes, and row i of the group. -/
def groupOut (f : Nat) (rows : List (List Num)) (i : Nat) : List (Bool × Byte) :=
  let n := (rows.headD []).length
  let cols := (List.range n).map fun j => writeBlock f (fun _ => .rne) (rows.map fun r => (r[j]?).getD (.fin false 0 0))
  (if i = 0 then mark true (cols.map fun b => BitVec.ofNat 8 b.scale) else [])
    ++ mark false (packRow f (cols.map fun b => match b.elems[i]? with | some e => e.bits | none => 0))

/-- Bytes pushed to several queues, if every one of them has the room. -/
def Au.pushAll (a : Au) : List (Nat × List (Bool × Byte)) → Option Au
  | [] => some a
  | (q, bs) :: ps => if a.qRoom q bs.length then (a.push q bs).pushAll ps else none

/-- An entry as five bytes, and back: what a group of rows keeps of the rows read. -/
def AccEntry.bytes (e : AccEntry) : List Byte := natLe 4 e.bits ++ natLe 1 (if e.kind = .int then 1 else 0)
def entryOf (bs : List Byte) : AccEntry := ⟨fieldLe bs 0 4, if byteAt bs 4 = 1 then .int else .fp⟩

/-- The rows of a group that a DRAIN holds: the entries of stream k (of m entries each) of each row. -/
def groupRows (data : List Byte) (streams k m : Nat) : List (List Num) :=
  (chunks (5 * m * streams) data).map fun row =>
    (chunks 5 ((row.drop (5 * m * k)).take (5 * m))).map fun b => (entryOf b).val

/-- The DRAIN under way reads its next row, or pushes the next row of a group that it has read whole. -/
def State.drainStep (s : State) (n c : Nat) (op : ActiveOp) : State :=
  let a := s.au n
  let w := op.word
  let g := if dDown w then dBs w else 1
  let out := op.regs.headD 0
  let gEnd := min (dRows w) ((out / g + 1) * g)
  let finish (b : Au) (o : ActiveOp) (pushed : Nat) : State :=
    (s.putAu n (if pushed < dRows w then b.putAct 2 o else { b with acts := mdel b.acts 2 })).progress c
  if g = 1 then
    if a.drainRowReady op.seq w op.done then
      match a.pushAll ((a.array.drainRow w op.done).map fun p => (p.1, drainOut w p.2)) with
      | some b => finish b { op with done := op.done + 1 } (op.done + 1)
      | none => s
    else s
  else if op.done < gEnd then
    if a.drainRowReady op.seq w op.done then
      let row := ((a.array.drainRow w op.done).map fun p => (p.2.map AccEntry.bytes).flatten).flatten
      finish a { op with done := op.done + 1, data := op.data ++ row } 0
    else s
  else
    let rows := a.array.drainRow w 0
    let qs := rows.map (·.1)
    let m := if dGanged w then 128 else 64
    let outs := (List.range qs.length).map fun k =>
      ((qs[k]?).getD 12, groupOut (dFmt w) (groupRows op.data qs.length k m) (out % g))
    match a.pushAll outs with
    | some b => finish b { op with regs := [out + 1], data := if out + 1 = gEnd then [] else op.data } (out + 1)
    | none => s

/-- DRAIN (R64): the next operation of the drain port starts, or the one under way goes on. -/
def execDrain (a : AuId) (s : State) : Out :=
  .next (match s.opOf a 2 with
    | some (c, _, op) => s.drainStep a c op
    | none => s.startDrain a false)

end Sys2Proof.Machine
end

