-- ==== Sys2Proof/Machine/Crypto.lean ====
section
/-!
DEFINITION. SHA-256 (FIPS 180-4) and Philox-4×32-10 (R240, R241), which the spec names by their publications.
-/
namespace Sys2Proof.Machine

/-! ## SHA-256 -/

/-- Sum modulo 2³². -/
def add32w (a b : Nat) : Nat := (a + b) % 2 ^ 32
/-- Rotation right of a 32-bit word. -/
def rotr (n x : Nat) : Nat := x / 2 ^ n + 2 ^ (32 - n) * (x % 2 ^ n)
/-- The complement of a 32-bit word. -/
def not32 (x : Nat) : Nat := 2 ^ 32 - 1 - x

/-- The round constants. -/
def shaK : List Nat :=
  [0x428a2f98, 0x71374491, 0xb5c0fbcf, 0xe9b5dba5, 0x3956c25b, 0x59f111f1, 0x923f82a4, 0xab1c5ed5,
   0xd807aa98, 0x12835b01, 0x243185be, 0x550c7dc3, 0x72be5d74, 0x80deb1fe, 0x9bdc06a7, 0xc19bf174,
   0xe49b69c1, 0xefbe4786, 0x0fc19dc6, 0x240ca1cc, 0x2de92c6f, 0x4a7484aa, 0x5cb0a9dc, 0x76f988da,
   0x983e5152, 0xa831c66d, 0xb00327c8, 0xbf597fc7, 0xc6e00bf3, 0xd5a79147, 0x06ca6351, 0x14292967] ++
  [0x27b70a85, 0x2e1b2138, 0x4d2c6dfc, 0x53380d13, 0x650a7354, 0x766a0abb, 0x81c2c92e, 0x92722c85,
   0xa2bfe8a1, 0xa81a664b, 0xc24b8b70, 0xc76c51a3, 0xd192e819, 0xd6990624, 0xf40e3585, 0x106aa070,
   0x19a4c116, 0x1e376c08, 0x2748774c, 0x34b0bcb5, 0x391c0cb3, 0x4ed8aa4a, 0x5b9cca4f, 0x682e6ff3,
   0x748f82ee, 0x78a5636f, 0x84c87814, 0x8cc70208, 0x90befffa, 0xa4506ceb, 0xbef9a3f7, 0xc67178f2]

/-- The initial hash. -/
def shaInit : List Nat :=
  [0x6a09e667, 0xbb67ae85, 0x3c6ef372, 0xa54ff53a, 0x510e527f, 0x9b05688c, 0x1f83d9ab, 0x5be0cd19]

/-- The number that bytes spell, the first the most significant. -/
def beNat (bs : List Byte) : Nat := leNat bs.reverse
/-- The n big-endian bytes of a number. -/
def natBe (n v : Nat) : List Byte := (natLe n v).reverse

/-- The message schedule from its last sixteen words (newest first), n words more. -/
def shaSched : Nat → List Nat → List Nat
  | 0, ws => ws
  | n + 1, ws =>
    let w := fun i => (ws[i]?).getD 0
    let x := w 14
    let y := w 1
    let s0 := Nat.xor (Nat.xor (rotr 7 x) (rotr 18 x)) (x / 8)
    let s1 := Nat.xor (Nat.xor (rotr 17 y) (rotr 19 y)) (y / 1024)
    shaSched n (add32w (add32w (w 15) s0) (add32w (w 6) s1) :: ws)

/-- One round. -/
def shaRound (h : List Nat) (kw : Nat × Nat) : List Nat :=
  match h with
  | [a, b, c, d, e, f, g, hh] =>
    let s1 := Nat.xor (Nat.xor (rotr 6 e) (rotr 11 e)) (rotr 25 e)
    let ch := Nat.xor (Nat.land e f) (Nat.land (not32 e) g)
    let t1 := add32w (add32w hh s1) (add32w ch (add32w kw.1 kw.2))
    let s0 := Nat.xor (Nat.xor (rotr 2 a) (rotr 13 a)) (rotr 22 a)
    let mj := Nat.xor (Nat.xor (Nat.land a b) (Nat.land a c)) (Nat.land b c)
    [add32w t1 (add32w s0 mj), a, b, c, add32w d t1, e, f, g]
  | _ => h

/-- One 64-byte block. -/
def shaBlock (h : List Nat) (blk : List Byte) : List Nat :=
  let ws := (shaSched 48 ((chunks' 4 16 blk).map beNat).reverse).reverse
  (h.zip ((shaK.zip ws).foldl shaRound h)).map fun p => add32w p.1 p.2
where
  /-- n pieces of k bytes. -/
  chunks' (k : Nat) : Nat → List Byte → List (List Byte)
    | 0, _ => []
    | n + 1, bs => bs.take k :: chunks' k n (bs.drop k)

/-- All blocks of a padded message. -/
def shaBlocks : Nat → List Nat → List Byte → List Nat
  | 0, h, _ => h
  | n + 1, h, bs => shaBlocks n (shaBlock h (bs.take 64)) (bs.drop 64)

/-- The SHA-256 digest of bytes. -/
def sha256 (m : List Byte) : List Byte :=
  let z := (119 - m.length % 64) % 64
  let p := m ++ 0x80#8 :: List.replicate z 0 ++ natBe 8 (8 * m.length)
  ((shaBlocks (p.length / 64) shaInit p).map (natBe 4)).flatten

/-! ## Philox-4×32-10 -/

/-- One round on counter words c and key words k. -/
def philoxRound (c : Nat × Nat × Nat × Nat) (k : Nat × Nat) : Nat × Nat × Nat × Nat :=
  let p0 := 0xD2511F53 * c.1
  let p1 := 0xCD9E8D57 * c.2.2.1
  (Nat.xor (Nat.xor (p1 / 2 ^ 32) c.2.1) k.1, p1 % 2 ^ 32, Nat.xor (Nat.xor (p0 / 2 ^ 32) c.2.2.2) k.2, p0 % 2 ^ 32)

/-- n rounds, the key words stepped between them. -/
def philoxRounds : Nat → Nat × Nat → Nat × Nat × Nat × Nat → Nat × Nat × Nat × Nat
  | 0, _, c => c
  | n + 1, k, c => philoxRounds n (add32w k.1 0x9E3779B9, add32w k.2 0xBB67AE85) (philoxRound c k)

/-- The 128-bit output for a 64-bit key and a 128-bit counter (R241). -/
def philox (key ctr : Nat) : Nat :=
  let r := philoxRounds 10 (key % 2 ^ 32, key / 2 ^ 32 % 2 ^ 32)
    (ctr % 2 ^ 32, ctr / 2 ^ 32 % 2 ^ 32, ctr / 2 ^ 64 % 2 ^ 32, ctr / 2 ^ 96 % 2 ^ 32)
  r.1 + 2 ^ 32 * r.2.1 + 2 ^ 64 * r.2.2.1 + 2 ^ 96 * r.2.2.2

/-- The counter of a draw (Table 6.5) for an element's block of eight. -/
def streamCtr (purpose step coat layer micro sub block : Nat) : Nat :=
  2 ^ 124 * (purpose % 16) + 2 ^ 92 * (step % 2 ^ 32) + 2 ^ 82 * (coat % 1024) + 2 ^ 70 * (layer % 4096) + 2 ^ 58 * (micro % 4096)
    + 2 ^ 42 * (sub % 65536) + block % 2 ^ 42

/-- The 16-bit draw of element e (R241). -/
def streamDraw (key purpose step coat layer micro sub e : Nat) : Nat :=
  bits (philox key (streamCtr purpose step coat layer micro sub (e / 8))) (16 * (e % 8) + 15) (16 * (e % 8))

end Sys2Proof.Machine
end

