-- ==== Sys2Proof/Machine/Coat.lean ====
section
/-!
DEFINITION. The coats (06_coats.md): the coat table, the undercoat store and its manager, and the random streams.
-/
namespace Sys2Proof.Machine

/-! ## The coat table (R219 to R221) -/

/-- CTX_COAT_BASE in Stencil BASE form. -/
def State.coatBase (s : State) (c : Nat) : Nat :=
  let hi := s.reg (CTX_COAT_BASE_HI c)
  2 ^ 52 * bits hi 31 20 + 2 ^ 32 * bits hi 19 0 + s.reg (CTX_COAT_BASE_LO c)

/-- The last offset that a base in Stencil BASE form may use: the size of its buffer, or the virtual space. -/
def Ctx.baseTop (x : Ctx) (w : Nat) : Nat :=
  if bits w 63 52 = 0 then 2 ^ 52 else match x.lbuf (bits w 63 52) with | some r => r.size | none => 0

/-- [off, off + n) of the buffer that a base names lies in a VIRT buffer: its virtual address. -/
def Ctx.baseRange (x : Ctx) (w n : Nat) : Option Nat :=
  if bits w 51 0 + n ≤ x.baseTop w then x.baseVa w else none

/-- The header as Table 6.1 and R221 accept it. -/
def Ctx.coatHdr (x : Ctx) (h : List Byte) : Option CoatHdr :=
  let f := fun o n => fieldLe h o n
  let st := f 0 8
  let n := f 8 8
  let coats := f 16 2
  let micro := f 18 2
  if bits st 63 52 = 0 ∨ st % 65536 ≠ 0 ∨ n % 65536 ≠ 0 ∨ n < 65536 ∨ 2 ^ 40 < n ∨ coats < 2 ∨ 1024 < coats ∨ micro < 1 ∨ 4096 < micro
      ∨ !zeroIn h 20 24 ∨ !zeroIn h 40 64 ∨ f 24 8 % 64 ≠ 0 ∨ f 32 8 % 32 ≠ 0 then none
  else
    match x.baseRange st n, x.baseRange (f 24 8) (16 * coats * micro), x.baseRange (f 32 8) 32 with
    | some a, some d, some r =>
      let apart := fun a n b m => decide (a + n ≤ b) || decide (b + m ≤ a)
      if apart a n d (16 * coats * micro) && apart a n r 32 && apart d (16 * coats * micro) r 32 then some ⟨a, n, coats, micro, d, r⟩
      else none
    | _, _, _ => none

/-- Where the coat table lies, if the context has coats. -/
def Ctx.coatVa (x : Ctx) : Option Nat := if x.coat.base = 0 then none else x.baseVa x.coat.base

/-- STASH_PROTOCOL (R221, R234). -/
def State.stashProtocol (s : State) (c reason coat m : Nat) : State :=
  (s.flagCount (CTX_STASH_STATUS c) 1 (CTX_STASH_EVT_CNT c) 15 8).raise 0x0361 (.ctx c) [(0, 1, reason), (2, 2, coat), (4, 2, m)]

/-- The header checked at the first request of a RUN (R221). -/
def State.checkCoat (s : State) (c va coat m : Nat) : State :=
  let x := s.ctx c
  if x.coat.checked then s
  else
    let h := x.coatHdr (s.vpeek c va 64)
    let s1 := s.modCtx c fun y => { y with coat := { y.coat with checked := true, hdr := h } }
    if h.isNone then s1.stashProtocol c 0 coat m else s1

/-! ## The store (R227 to R237) -/

/-- Index of the entry of a coat in a slot (R227). -/
def stashIndex (coats coat m : Nat) : Nat := m * coats + coat

/-- The granted space, as (offset in granules, granules). -/
def CoatSt.grants (x : CoatSt) : List (Nat × Nat) := (x.entries.filter fun e => e.2.granted).map fun e => (e.2.off, e.2.gran)

/-- Granules held. -/
def CoatSt.used (x : CoatSt) : Nat := x.grants.foldl (fun n g => n + g.2) 0

/-- Free granules from position p on, up to the next grant or the end; none where p lies in a grant. -/
def freeFrom (gs : List (Nat × Nat)) (total p : Nat) : Nat :=
  if gs.any fun g => decide (g.1 ≤ p) && decide (p < g.1 + g.2) then 0
  else gs.foldl (fun n g => if p ≤ g.1 ∧ g.2 ≠ 0 then min n (g.1 - p) else n) (total - p)

/-- Where a run of free granules can begin. -/
def runStarts (gs : List (Nat × Nat)) : List Nat := 0 :: gs.map fun g => g.1 + g.2

/-- The lowest run of n free granules (R230). -/
def lowestRun (gs : List (Nat × Nat)) (total n : Nat) : Option Nat :=
  match (runStarts gs).filter fun p => decide (n ≤ freeFrom gs total p) && decide (p ≤ total) with
  | [] => none
  | p :: ps => some (ps.foldl min p)

/-- The highest coat below c whose entry in slot m is GRANTED (R231). -/
def CoatSt.baseCoat (x : CoatSt) (coats c m : Nat) : Nat :=
  ((List.range c).filter fun b => match mfind x.entries (stashIndex coats b m) with | some e => e.granted | none => false).foldl max 0

/-- The bytes of a directory entry that the manager writes: STATE, BASE_COAT, and OFFSET. -/
def State.putEntry (s : State) (c va state base off : Nat) : State :=
  let old := s.vpeek c va 16
  s.vpoke c va (natLe 1 state ++ (old.drop 1).take 1 ++ natLe 2 base ++ (old.drop 4).take 4 ++ natLe 8 off)

/-- The stored STATE is put back (R234). -/
def State.putBack (s : State) (c va : Nat) (e : Option StashEnt) : State :=
  s.vpoke c va (natLe 1 (match e with | none => 0 | some x => if x.granted then 2 else 3))

/-- The manager's books, with USED and the step's peak. -/
def State.putEntries (s : State) (c : Nat) (m : Map StashEnt) : State :=
  let s1 := s.modCtx c fun x => { x with coat := { x.coat with entries := m } }
  let u := (s1.ctx c).coat.used
  (s1.modCtx c fun x => { x with coat := { x.coat with most := max x.coat.most u } }).setFld (CTX_STASH_USED c) 24 0 u

/-- A request is thinned (R230, R233). -/
def State.thin (s : State) (c va i coat m size base free longest : Nat) : State :=
  let first := !(s.ctx c).coat.thinned
  let s1 := (s.putEntry c va 3 base 0).putEntries c (mput (s.ctx c).coat.entries i ⟨false, 0, 0, base⟩)
  let s2 := (s1.setFld (CTX_STASH_STATUS c) 0 0 1).count (CTX_STASH_EVT_CNT c) 31 16 1
  if first then
    (s2.modCtx c fun x => { x with coat := { x.coat with thinned := true } }).raise 0x0360 (.ctx c)
      [(0, 4, s.reg (TRW_STEP_LO c)), (4, 2, coat), (6, 2, m), (8, 4, size), (12, 4, free), (16, 4, longest)]
  else s2

/-- The manager decides a request (R230 to R233). -/
def State.stashDecide (s : State) (c va coat m : Nat) (hdr : Option CoatHdr) (coats : Nat) : State :=
  let size := fieldLe (s.vpeek c va 16) 4 4
  let i := stashIndex coats coat m
  let x := (s.ctx c).coat
  match hdr with
  | none => s.thin c va i coat m size 0 0 0
  | some h =>
    let n := ceilDiv size 65536
    let total := h.bytes / 65536
    match lowestRun x.grants total n with
    | some p => (s.putEntry c va 2 0 (65536 * p)).putEntries c (mput x.entries i ⟨true, p, n, 0⟩)
    | none =>
      s.thin c va i coat m size (x.baseCoat coats coat m) (total - x.used) ((runStarts x.grants).foldl (fun k p => max k (freeFrom x.grants total p)) 0)

/-- The manager reads the entry that the program has stored to: `want` is the STATE that it serves; a reserved STATE is served
too. -/
def State.stashServe (s : State) (c coat m want : Nat) : State :=
  match (s.ctx c).coatVa with
  | none => s
  | some tva =>
    s.hubNeeds c [(tva, 64)] false fun s0 =>
      let raw := s0.vpeek c tva 64
      let coats := fieldLe raw 16 2
      match (s0.ctx c).baseVa (fieldLe raw 24 8) with
      | none => s0.checkCoat c tva coat m
      | some dva =>
        let va := dva + 16 * stashIndex coats coat m
        if coat = 0 ∨ coats ≤ coat ∨ fieldLe raw 18 2 ≤ m then (if want = 1 then s0.checkCoat c tva coat m else s0)
        else s0.hubNeeds c [(va, 16)] true fun s1 =>
          let st := byteAt (s1.vpeek c va 1) 0
          if st ≠ want ∧ st ≤ 4 then s1
          else
            let s2 := s1.checkCoat c tva coat m
            let x := (s2.ctx c).coat
            let i := stashIndex coats coat m
            let e := mfind x.entries i
            if 4 < st then (s2.stashProtocol c 3 coat m).putBack c va e
            else if st = 1 then
              (if e.isSome then (s2.stashProtocol c 1 coat m).putBack c va e else s2.stashDecide c va coat m x.hdr coats)
            else if e.isNone then (s2.stashProtocol c 2 coat m).putBack c va e
            else (s2.vpoke c va (natLe 1 0)).putEntries c (mdel x.entries i)

/-- STASH_REQUEST (R229 to R234): the answer to a REQUEST that the program has stored. -/
def execStashRequest (c : CtxId) (coat mslot : Nat) (s : State) : Out := .next (s.stashServe c coat mslot 1)

/-- STASH_RELEASE (R229, R234): the granules are freed and the entry is FREE. -/
def execStashRelease (c : CtxId) (coat mslot : Nat) (s : State) : Out := .next (s.stashServe c coat mslot 4)

/-! ## Random streams (R239 to R243) -/

/-- The key of the job seed (R240). -/
def State.seedKey (s : State) (c : Nat) : Nat :=
  leNat ((sha256 (natLe 8 (s.reg64 (CTX_RNG_SEED_LO c) (CTX_RNG_SEED_HI c)))).take 8)

/-- Where the stream-state record lies. -/
def State.streamVa (s : State) (c : Nat) : Option Nat :=
  match (s.ctx c).coatVa with
  | none => none
  | some va => (s.ctx c).baseVa (fieldLe (s.vpeek c va 40) 32 8)

/-- Key and step of the context's streams; a context with no coat table draws with the key of its seed and step 0 (R265). -/
def State.stream (s : State) (c : Nat) : Nat × Nat :=
  match s.streamVa c with
  | some va => let r := s.vpeek c va 16; (fieldLe r 0 8, fieldLe r 8 8)
  | none => (s.seedKey c, 0)

end Sys2Proof.Machine
end

