-- ==== Sys2Proof/Machine/Narrow.lean ====
section
/-!
DEFINITION. Narrowing for a tensor or a format (R87 to R96, R100 to R104, R110, R113, R261, R262): the encoding of rows, with
what it adds to amaxes, overflow maps and Plumb's counts.
-/
namespace Sys2Proof.Machine

/-! ## Tensors of the program -/

/-- Virtual address of scale-table entry k (R107). -/
def State.scaleVa (s : State) (c k : Nat) : Nat := s.reg64 (PLB_SCALE_BASE_LO c) (PLB_SCALE_BASE_HI c) + 32 * k

/-- Bit b of a map at an address. -/
def State.mapBit (s : State) (c va b : Nat) : Bool := bit (byteAt (s.vpeek c (va + b / 8) 1) 0) (b % 8)

/-! ## Plumb's counts (R96, R113) -/

/-- Counts of a narrowing added to a layer. -/
def State.plumbAdd (s : State) (c layer : Nat) (f : PlumbCnt → PlumbCnt) : State :=
  s.modCtx c fun x => { x with num := { x.num with plumb := mset PlumbCnt.reset x.num.plumb layer (f (mget PlumbCnt.reset x.num.plumb layer)) } }

/-- What a list of narrowed values counts: values, flushed, saturated outside delayed scaling, non-finite. -/
def PlumbCnt.addAll (p : PlumbCnt) (delayed : Bool) (rs : List NarrowRes) : PlumbCnt :=
  { p with
    narrowed := p.narrowed + rs.length
    flushed := p.flushed + (rs.filter (·.flushed)).length
    overflows := p.overflows + (if delayed then 0 else (rs.filter (·.overflow)).length)
    nonfin := p.nonfin + (rs.filter (·.nonfin)).length }

/-- A largest magnitude presented for encoding in a delayed-scaled tensor (R100). -/
def State.noteAmax (s : State) (c k : Nat) (vs : List Num) : State :=
  let a := amaxOf (vs.filter numFinite)
  s.modCtx c fun x => { x with num := { x.num with amax := mput x.num.amax k (numMax (mget (.fin false 0 0) x.num.amax k) a) } }

/-! ## Delayed-scaled blocks -/

/-- The exponent in force for a delayed-scaled tensor (R102, R110): in warm-up, the exponent that its amax of the step gives,
which the model leaves open and keeps for the step. -/
def State.outerOf (s : State) (c k : Nat) : Int × Bool × State :=
  let e := s.vpeek c (s.scaleVa c k) 32
  if byteAt e 18 ≠ 0 then
    match mfind (s.ctx c).num.warm k with
    | some x => ((x : Int) - 127, true, s)
    | none =>
      let p := s.pick
      let x := p.1 % 255
      ((x : Int) - 127, true, p.2.modCtx c fun y => { y with num := { y.num with warm := mput y.num.warm k x } })
  else ((byteAt e 17 : Int) - 127, false, s)

/-- The exponent of block b (R103): doubled where the applied map says so. -/
def State.blockExp (s : State) (c k b : Nat) : Int × State :=
  let p := s.outerOf c k
  if p.2.1 then (p.1, p.2.2)
  else
    let maps := fieldLe (s.vpeek c (s.scaleVa c k) 32) 24 8
    (min (p.1 + (b2n (s.mapBit c maps b) : Int)) 127, p.2.2)

/-- Block b has overflowed: its bit of the current map is set, and a layer counts it once. -/
def State.markOverflow (s : State) (c k b layer : Nat) (t : TensorRec) : State :=
  let va := fieldLe (s.vpeek c (s.scaleVa c k) 32) 24 8 + t.mapBytes
  if s.mapBit c va b then s
  else
    let old := byteAt (s.vpeek c (va + b / 8) 1) 0
    (s.vpoke c (va + b / 8) (natLe 1 (old + 2 ^ (b % 8)))).plumbAdd c layer fun p => { p with overflows := p.overflows + 1 }

/-! ## The encoder -/

/-- How a row is written: format, block size code, blocks down groups of rows, the tensor with its position if one is named,
and the layer that counts. -/
structure OutSpec where
  fmt : Nat
  bs : Nat
  down : Bool
  tensor : Option (Nat × TensorRec)
  layer : Nat
  deriving DecidableEq, Repr

/-- The output format of a tensor (R261). -/
def OutSpec.ofTensor (i : Nat) (t : TensorRec) (layer : Nat) : OutSpec := ⟨t.fmt % 16, t.block % 4, bit t.block 2, some (i, t), layer⟩

/-- The tensor of a specification is delayed-scaled: its entry of the scale table. -/
def OutSpec.delayed (o : OutSpec) (x : Ctx) : Option (Nat × TensorRec) :=
  match o.tensor with
  | some (i, t) => if t.delayed then some (x.scaleIndex i, t) else none
  | none => none

/-- The rounding of element e: stochastic where the tensor says so (R92 to R94). -/
def OutSpec.rnd (o : OutSpec) (draw : Nat → Nat) (e : Nat) : Rnd :=
  match o.tensor with
  | some (_, t) => if t.round = 1 then .sr (draw e) else .rne
  | none => .rne

/-- One block encoded: block number b of the tensor, its values and their element indices. -/
def State.encBlock (s : State) (c : Nat) (o : OutSpec) (draw : Nat → Nat) (b : Nat) (vs : List Num) (es : List Nat) : BlockRes × State :=
  let rs := fun i => o.rnd draw ((es[i]?).getD 0)
  match o.delayed (s.ctx c) with
  | none =>
    let r := writeBlock o.fmt rs vs
    (r, s.plumbAdd c o.layer fun p => p.addAll false r.elems)
  | some (k, t) =>
    let p := s.blockExp c k b
    let r := delayedBlock o.fmt p.1 rs vs
    let s1 := ((p.2.noteAmax c k vs).plumbAdd c o.layer fun q => q.addAll true r.elems)
    (r, if r.elems.any (·.overflow) then s1.markOverflow c k b o.layer t else s1)

/-- A list of blocks encoded one after another. -/
def State.encBlocks (s : State) (c : Nat) (o : OutSpec) (draw : Nat → Nat) : List (Nat × List Num × List Nat) → List BlockRes × State
  | [] => ([], s)
  | (b, vs, es) :: bl =>
    let p := s.encBlock c o draw b vs es
    let q := p.2.encBlocks c o draw bl
    (p.1 :: q.1, q.2)

/-- The blocks of a row: (block number, values, element indices), `rowIdx` the row in the tensor, `rowLen` the tensor's row
length, `col` the first column. -/
def rowBlocks (bs rowIdx rowLen col : Nat) (vs : List Num) : List (Nat × List Num × List Nat) :=
  let per := ceilDiv rowLen bs
  (List.range (ceilDiv vs.length bs)).map fun i =>
    let v := (vs.drop (i * bs)).take bs
    (rowIdx * per + (col + i * bs) / bs, v, (List.range v.length).map fun j => rowIdx * rowLen + col + i * bs + j)

/-- A row encoded in blocks within it, or unscaled, as marked bytes (R131, R261, R690). -/
def State.encRow (s : State) (c : Nat) (o : OutSpec) (draw : Nat → Nat) (rowIdx rowLen col : Nat) (vs : List Num) :
    List (Bool × Byte) × State :=
  if fmtIsMx o.fmt then
    let bs := bsOf o.bs
    let p := s.encBlocks c o draw (rowBlocks bs rowIdx rowLen col vs)
    (mark false (packRow o.fmt (p.1.map fun b => let es := b.elems.map (·.bits); es ++ List.replicate (bs - es.length) 0).flatten)
      ++ mark true (p.1.map fun b => BitVec.ofNat 8 b.scale), p.2)
  else
    let rs := (List.range vs.length).map fun j =>
      narrow o.fmt (o.rnd draw (rowIdx * rowLen + col + j)) ((vs[j]?).getD .nan)
    (mark false (packRow o.fmt (rs.map (·.bits))),
      if fmtBits o.fmt ≤ 16 then s.plumbAdd c o.layer fun p => p.addAll false rs else s)

/-- A group of rows encoded in blocks down its columns: the scale bytes, and the rows' bytes (R89, R131). -/
def State.encGroup (s : State) (c : Nat) (o : OutSpec) (draw : Nat → Nat) (rowIdx rowLen col : Nat) (rows : List (List Num)) :
    List (Bool × Byte) × State :=
  let n := (rows.headD []).length
  let bl := (List.range n).map fun j =>
    (rowIdx / bsOf o.bs * rowLen + col + j, rows.map fun r => (r[j]?).getD .nan,
      (List.range rows.length).map fun i => (rowIdx + i) * rowLen + col + j)
  let p := s.encBlocks c o draw bl
  (mark true (p.1.map fun b => BitVec.ofNat 8 b.scale)
    ++ ((List.range rows.length).map fun i =>
      mark false (packRow o.fmt (p.1.map fun b => match b.elems[i]? with | some e => e.bits | none => 0))).flatten, p.2)

end Sys2Proof.Machine
end

