-- ==== Sys2Proof/Machine/Host.lean ====
section
/-!
DEFINITION. The meanings of the host-interface commands (11_host.md): admin role, rings, doorbells, descriptors, FENCE,
event rings and the summary of RESYNC and SYNC_REQ. A write by a function that may not make it changes nothing but the
status bit the spec gives for it (R447, R448).
-/
namespace Sys2Proof.Machine

/-! ## The admin role (R449) -/

/-- The admin role moves to port p. -/
def State.moveAdmin (s : State) (p cause : Nat) : State :=
  (s.setFld HUB_ADMIN 0 0 p).raise 0x0104 .all [(0, 1, p), (1, 1, cause)]

/-- A write of HUB_ADMIN by function f. -/
def State.adminWrite (s : State) (f v : Nat) : State :=
  if f = s.adminPf then (if bits v 0 0 = s.adminPort then s else s.moveAdmin (bits v 0 0) 0) else s.denied f

/-- HUB_ADMIN_WRITE (R449). -/
def execHubAdminWrite (f : FnId) (v : Word32) (s : State) : Out := .next (if s.barUp then s.adminWrite f v.toNat else s)

/-- Nanoseconds of HOST_GRACE of port p (R450). -/
def State.graceNs (s : State) (p : Nat) : Nat := 1000000000 * s.fld (PCIE_PORT_CTL p) 31 16

/-- ADMIN_GRACE_EXPIRY (R449). -/
def execAdminGraceExpiry (t : Nat) (s : State) : Out :=
  let s0 := s.at t
  let p := s0.adminPort
  if (s0.port p).lost ∧ (s0.port p).lostAt + s0.graceNs p ≤ t ∧ (s0.port (1 - p)).dlUp then .next (s0.moveAdmin (1 - p) 1)
  else .next s0

/-! ## The summary (R479 to R481) -/

/-- Contexts that a summary for function f covers (R481). -/
def State.summaryCtxs (s : State) (f : Nat) : List Nat :=
  s.ctxsWith fun x => match x.owner with
    | some g => g == f || (fnIsPf f && fnPort g == fnPort f)
    | none => false

/-- Context states by number (Table 12.1). -/
def CtxState.code : CtxState → Nat
  | .free => 0 | .empty => 1 | .loading => 2 | .ready => 3 | .running => 4 | .preempting => 5 | .preempted => 6
  | .resuming => 7 | .faulted => 8 | .restoring => 9 | .destroying => 10

/-- Link work entries of context c that are STARTED. -/
def State.linkStarted (s : State) (c : Nat) : Nat := (s.ctx c).linkWork.length

/-- A context record (Table 11.11). -/
def State.ctxRecord (s : State) (f c : Nat) : List Byte :=
  let x := s.ctx c
  let r := x.ring
  let flags := b2n (s.rbit (CTX_RING_CTL c) 31) + 2 * b2n (s.rbit (CTX_RING_STATUS c) 3) + 4 * b2n (x.st == .faulted)
    + 8 * b2n (x.st == .preempted && x.cause == .hostLost)
  let tags := (List.range 8).map fun i => (16 + 2 * i, 2, match r.cmds[i]? with | some d => fieldLe d.desc 2 2 | none => 0)
  layOut 64 ([(0, 1, s.ctxName f c), (1, 1, x.st.code), (2, 1, x.owner.getD 0xFF), (3, 1, flags), (4, 2, r.cmdHead.toNat),
    (6, 2, r.cmdTail.toNat), (8, 2, r.cplTail.toNat), (10, 2, r.cplHead.toNat), (12, 2, r.cmds.length),
    (14, 2, x.dropped)] ++ tags ++
    [(32, 8, s.reg64 (TRW_STEP_LO c) (TRW_STEP_HI c)), (40, 8, s.reg64 (DST_EPOCH_LO c) (DST_EPOCH_HI c)),
      (48, 2, s.linkStarted c)])

/-- The largest membership epoch among contexts. -/
def State.memberEpoch (s : State) (cs : List Nat) : Nat :=
  cs.foldl (fun m c => max m (s.reg64 (DST_MEPOCH_LO c) (DST_MEPOCH_HI c))) 0

/-- The summary for function f (Tables 11.9 to 11.11). -/
def State.summary (s : State) (f : Nat) : List Byte :=
  let cs := s.summaryCtxs f
  let power := s.fld PWR_CTL 1 0 + 4 * s.fld PWR_STATUS 31 31
  let admin := s.adminPort + 2 * b2n (s.port 0).dlUp + 4 * b2n (s.port 1).dlUp
  layOut 128 [(0, 4, 0x59535848), (4, 2, 1), (6, 2, cs.length), (8, 8, s.now), (16, 4, s.reg HUB_FW_VERSION),
    (20, 4, s.reg HUB_IF_VERSION), (24, 4, s.sec.stage1), (28, 1, s.fld SEC_LC 7 0), (29, 1, power),
    (30, 2, s.fld PWR_CAP_STATUS 11 0), (32, 8, s.memberEpoch cs), (40, 2, s.fld LNK_PART_ID 15 0), (42, 1, admin), (43, 1, f)]
  ++ (List.range 16).flatMap (fun i => natLe 4 (mget 0 s.totals i))
  ++ cs.flatMap (s.ctxRecord f)

/-- A write of HUB_SYNC_REQ by function f: DONE clears first, then GO acts, unless BUSY (R480, R669). -/
def State.syncReqWrite (s : State) (f v : Nat) : State :=
  let s1 := s.softReg (HUB_SYNC_REQ f) v
  if bit v 0 ∧ s.fld (HUB_SYNC_REQ f) 1 1 = 0 then s1.setFld (HUB_SYNC_REQ f) 1 1 1 else s1

/-- HUB_SYNC_GO (R480). -/
def execHubSyncGo (f : FnId) (v : Word32) (s : State) : Out := .next (if s.barUp then s.syncReqWrite f v.toNat else s)

/-- SYNC_SUMMARY_WRITTEN (R480): needs only the function's port to be up. -/
def execSyncSummaryWritten (f : FnId) (s : State) : Out :=
  let k := HUB_SYNC_REQ f
  if s.fld k 1 1 = 1 ∧ (s.port (fnPort f)).dlUp then
    let small := s.reg (HUB_SYNC_SIZE f) < 4288
    let s1 := if small then s else s.hostWrite (fnPort f) (s.reg64 (HUB_SYNC_ADDR_LO f) (HUB_SYNC_ADDR_HI f)) (s.summary f)
    .next (((s1.setFld k 1 1 0).setFld k 2 2 1).setFld k 15 8 (if small then 0x02 else 0x00))
  else .next s

/-! ## Rings and doorbells (R456 to R465) -/

/-- A write of CTX_RING_CTL by function f (R458). -/
def State.ringCtlWrite (s : State) (f c v : Nat) : State :=
  let k := CTX_RING_CTL c
  let x := s.ctx c
  if s.owns f c ∧ x.ring.cmds.isEmpty then
    if s.rbit k 31 then
      if bit v 31 then s
      else (s.setFld k 31 31 0).modCtx c fun x => { x with ring := { x.ring with dbTail := none, dbHead := none } }
    else
      let s1 := s.softReg k v
      if bit v 31 then
        s1.modCtx c fun x => { x with hostLost := false, ring := { x.ring with
          cmdHead := 0, cmdTail := 0, cplTail := 0, cplHead := 0, dbTail := none, dbHead := none, irqCount := 0, irqSince := none } }
      else s1
  else s

/-- RING_CTL_WRITE (R458). -/
def execRingCtlWrite (f : FnId) (c : CtxId) (v : Word32) (s : State) : Out := .next (if s.barUp then s.ringCtlWrite f c v.toNat else s)

/-- The context behind slot j of VF f. -/
def State.slotCtx (s : State) (f j : Nat) : Option Nat :=
  (s.ctxsWith fun x => x.owner == some f && x.slot == some j).head?

/-- The context behind page k of BAR2 of function f (R684). -/
def State.pageCtx (s : State) (f k : Nat) : Option Nat :=
  if fnIsPf f then (if s.owns f k then some k else none) else s.slotCtx f k

/-- A doorbell write to page k by function f: 32-bit writes only, ignored while EN is 0 (R460); the page of a context that f
does not own sets BAD_ACCESS (R684). Doorbells do nothing before the firmware is ready (R620) or once it has halted (R634). -/
def State.doorbell (s : State) (f k size : Nat) (g : RingSt → RingSt) : State :=
  if !s.fwUp then s
  else match s.pageCtx f k with
  | none => s.badAccess f
  | some c => if size = 4 ∧ s.rbit (CTX_RING_CTL c) 31 then s.modCtx c fun x => { x with ring := g x.ring } else s

/-- DB_CMD_TAIL (R460). -/
def execDbCmdTail (f : FnId) (k : CtxId) (v : Word32) (size : Nat) (s : State) : Out :=
  .next (s.doorbell f k size fun r => { r with dbTail := some (v.setWidth 16) })

/-- DB_CPL_HEAD (R460). -/
def execDbCplHead (f : FnId) (k : CtxId) (v : Word32) (size : Nat) (s : State) : Out :=
  .next (s.doorbell f k size fun r => { r with dbHead := some (v.setWidth 16) })

/-- RING_ERROR (R462). -/
def State.ringError (s : State) (c ring v last tested : Nat) : State :=
  (if ring = 0 then s.flagCount (CTX_RING_STATUS c) 0 (CTX_RING_EVT_CNT c) 7 0
    else s.flagCount (CTX_RING_STATUS c) 1 (CTX_RING_EVT_CNT c) 15 8).raise 0x0105 (.ctx c)
      [(0, 1, ring), (2, 2, v), (4, 2, last), (6, 2, tested)]

/-- A CMD_TAIL value is taken or refused (R462). -/
def State.takeTail (s : State) (c : Nat) (v : BitVec 16) : State :=
  let r := (s.ctx c).ring
  if s.cmdSize c < (v - r.cmdHead).toNat then s.ringError c 0 v.toNat r.cmdTail.toNat r.cmdHead.toNat
  else s.modCtx c fun x => { x with ring := { x.ring with cmdTail := v } }

/-- A CPL_HEAD value is taken or refused (R462). -/
def State.takeHead (s : State) (c : Nat) (v : BitVec 16) : State :=
  let r := (s.ctx c).ring
  if s.cplSize c < (r.cplTail - v).toNat ∨ (r.cplTail - r.cplHead).toNat < (r.cplTail - v).toNat then
    s.ringError c 1 v.toNat r.cplHead.toNat r.cplTail.toNat
  else s.modCtx c fun x => { x with ring := { x.ring with cplHead := v } }

/-- DOORBELL_ACCEPTED (R461, R462): the latest values are read; coalesced ones are gone. Firmware that has halted takes none, nor does
a scheduler core that a debugger holds (R652). -/
def execDoorbellAccepted (c : CtxId) (s : State) : Out :=
  let r := (s.ctx c).ring
  let s0 := s.modCtx c fun x => { x with ring := { x.ring with dbTail := none, dbHead := none } }
  let s1 := match r.dbTail with | some v => s0.takeTail c v | none => s0
  .next (if s.fwHalted ∨ s.sec.haltedCores.contains 0 then s else match r.dbHead with | some v => s1.takeHead c v | none => s1)

/-- The next announced descriptor may start (R463, R464, R478, R634, R652): the rings are enabled, completion-ring credit allows it, and
no FENCE is outstanding; FENCE itself waits until nothing is. -/
def State.canStart (s : State) (c : Nat) : Bool :=
  let r := (s.ctx c).ring
  s.rbit (CTX_RING_CTL c) 31 && !s.fwHalted && !s.sec.haltedCores.contains 0 && r.cmdHead != r.cmdTail && (s.ctx c).st != .destroying
    && decide (r.cmds.length + (r.cplTail - r.cplHead).toNat < s.cplSize c)
    && !(r.cmds.any fun d => byteAt d.desc 0 == 0x08)

/-- The descriptor at CMD_HEAD. -/
def State.nextDesc (s : State) (c : Nat) : Option (List Byte) :=
  let base := s.reg64 (CTX_CMD_BASE_LO c) (CTX_CMD_BASE_HI c)
  s.hostRead (s.ctxPort c) (base + 64 * ((s.ctx c).ring.cmdHead.toNat % s.cmdSize c)) 64

/-- DESCRIPTOR_START (R464): the command becomes outstanding; a reserved opcode or a nonzero reserved bit completes it at
once (R469). -/
def execDescriptorStart (c : CtxId) (s : State) : Out :=
  if s.canStart c then
    match s.nextDesc c with
    | none => .next s
    | some d =>
      let op := byteAt d 0
      if op = 0x08 ∧ !(s.ctx c).ring.cmds.isEmpty then .next s
      else
        let n := (s.ctx c).ring.cmds.length
        let s1 := s.modCtx c fun x => { x with ring := { x.ring with
          cmdHead := x.ring.cmdHead + 1, cmds := x.ring.cmds ++ [⟨d, .started, s.now, 0⟩] } }
        if op = 0 ∨ 0x14 ≤ op then .next (s1.complete c n 0x01 0)
        else if bits (byteAt d 1) 7 1 ≠ 0 then .next (s1.complete c n 0x02 0)
        else .next s1
  else .next s

/-- IRQ_DELAY_EXPIRY (R472). -/
def execIrqDelayExpiry (c : CtxId) (t : Nat) (s : State) : Out :=
  let s0 := s.at t
  let delay := s0.fld (CTX_IRQ_CTL c) 23 8
  match (s0.ctx c).ring.irqSince with
  | some t0 =>
    if delay ≠ 0 ∧ t0 + 1000 * delay ≤ t then
      .next ((s0.modCtx c fun x => { x with ring := { x.ring with irqCount := 0, irqSince := none } }).fire
        (s0.ownerOf c) (s0.ctxVector c))
    else .next s0
  | none => .next s0

/-! ## Event rings (R473, R476) -/

/-- A write of EVT_CTL by the function that owns the window (Table 11.20). -/
def State.evtCtlWrite (s : State) (f v : Nat) : State :=
  let k := EVT_CTL f
  let en := s.rbit k 31
  let s1 := if en then s.setFld k 31 31 (bits v 31 31) else s.softReg k v
  if !en ∧ bit v 31 then ((s1.setFld (EVT_HEAD f) 15 0 0).setFld (EVT_TAIL f) 15 0 0).evtReturned f else s1

/-- EVT_CTL_WRITE (R473). -/
def execEvtCtlWrite (f : FnId) (v : Word32) (s : State) : Out := .next (if s.barUp then s.evtCtlWrite f v.toNat else s)

/-- A write of EVT_HEAD: a value refused as under R462 is ignored. -/
def State.evtHeadWrite (s : State) (f v : Nat) : State :=
  let tail := s.fld (EVT_TAIL f) 15 0
  let head := s.fld (EVT_HEAD f) 15 0
  let h := v % 65536
  if s.evtSize f < ringUsed tail h ∨ ringUsed tail head < ringUsed tail h then s
  else (s.setFld (EVT_HEAD f) 15 0 h).evtReturned f

/-- EVT_HEAD_WRITE (R476). -/
def execEvtHeadWrite (f : FnId) (v : Word32) (s : State) : Out := .next (if s.barUp then s.evtHeadWrite f v.toNat else s)

/-! ## Commands -/

/-- The scheduler cores whose compartments a command needs (Table 15.8): the SCHEDULER on core 0 for every one; PLACER and LOADER on
core 1, RESILIENCE and PAGING on core 2, POWER and TELEMETRY on core 3. -/
def cmdCores (op : Nat) : List Nat :=
  0 :: (if op = 0x01 ∨ op = 0x0A ∨ op = 0x12 then [1] else if op = 0x05 then [1, 2]
    else if op = 0x04 ∨ op = 0x0B ∨ (0x0D ≤ op ∧ op ≤ 0x0F) ∨ op = 0x13 then [2] else if op = 0x10 ∨ op = 0x11 then [3] else [])

/-- Firmware serves the command: it has not halted (R634), and no debugger holds a core that the command needs (R652). -/
def State.serves (s : State) (op : Nat) : Bool := !s.fwHalted && (cmdCores op).all fun n => !s.sec.haltedCores.contains n

/-- Command k of context c, if it is outstanding with this opcode and served, does f; otherwise nothing happens. -/
def State.onCmd (s : State) (c k op : Nat) (f : Cmd → State) : State :=
  match s.cmdAt c k with
  | some cmd => if byteAt cmd.desc 0 = op ∧ s.serves op then f cmd else s
  | none => s

/-- FENCE (R478): it started when every earlier command had completed; the events raised before are in their rings or
counted, since raising an event does one or the other at once. -/
def execFence (c : CtxId) (k : Nat) (s : State) : Out :=
  .next (s.onCmd c k 0x08 fun cmd =>
    if bits (byteAt cmd.desc 4) 7 1 ≠ 0 ∨ !zeroIn cmd.desc 5 64 then s.complete c k 0x02 0
    else if k = 0 then s.complete c k 0x00 0 else s)

/-- RESYNC (R479). -/
def execResync (c : CtxId) (k : Nat) (s : State) : Out :=
  .next (s.onCmd c k 0x0C fun cmd =>
    let addr := fieldLe cmd.desc 8 8
    if !zeroIn cmd.desc 4 8 ∨ !zeroIn cmd.desc 20 64 ∨ addr % 64 ≠ 0 ∨ fieldLe cmd.desc 16 4 < 4288 then s.complete c k 0x02 0
    else
      let r := s.summary (s.ownerOf c)
      (s.hostWrite (s.ctxPort c) addr r).complete c k 0x00 r.length)

end Sys2Proof.Machine
end

