-- ==== Sys2Proof/Machine/Contexts.lean ====
section
/-!
DEFINITION. The meanings of creating, destroying, pre-empting, resuming and placing contexts (12_contexts.md).
-/
namespace Sys2Proof.Machine

/-! ## Registers of a context (R676) -/

/-- The set-up page and the per-context windows take their Reset values. -/
def State.resetCtxRegs (s : State) (c : Nat) : State :=
  (((((s.dropRegs (0x200000 + 0x1000 * c) (0x201000 + 0x1000 * c)).dropRegs (0x600000 + 0x100 * c) (0x600100 + 0x100 * c)
    ).dropRegs (0x680000 + 0x100 * c) (0x680100 + 0x100 * c)).dropRegs (0x700000 + 0x100 * c) (0x700100 + 0x100 * c)
    ).dropRegs (0xC50000 + 0x100 * c) (0xC50100 + 0x100 * c)).dropRegs (0xE10000 + 0x100 * c) (0xE10100 + 0x100 * c)

/-! ## Creating (R489 to R491) -/

/-- A FREE context becomes EMPTY and is owned by f, in slot j for a VF. -/
def State.create (s : State) (c f : Nat) (slot : Option Nat) : State :=
  (s.resetCtxRegs c).putCtx c { Ctx.reset with st := .empty, owner := some f, slot := slot }

/-- CREATE_PF (R489): the PFs that write CREATE in one hub cycle; HPA wins a tie. -/
def execCreatePf (c : CtxId) (hpa hpb : Bool) (s : State) : Out :=
  if s.barUp ∧ (s.ctx c).st = .free ∧ (hpa ∨ hpb) then .next (s.create c (if hpa then 0 else 16) none) else .next s

/-- The lowest-numbered FREE context. -/
def State.lowestFree (s : State) : Option Nat := (List.range 64).find? fun c => (s.ctx c).st == .free

/-- Contexts that function f owns. -/
def State.owned (s : State) (f : Nat) : List Nat := s.ctxsWith fun x => x.owner == some f

/-- A VF writes CREATE on the page of slot j, which holds no context (R490). -/
def State.createVf (s : State) (f j : Nat) : State :=
  if fnIsPf f ∨ (s.slotCtx f j).isSome then s
  else
    let fail := s.modFn f fun x => { x with createFail := (j :: x.createFail.filter (· != j)) }
    if (s.owned f).length < s.fld (PCIE_VF_CTL (fnPort f) (f % 16)) 4 0 then
      match s.lowestFree with
      | some c => (s.create c f (some j)).modFn f fun x => { x with createFail := x.createFail.filter (· != j) }
      | none => fail
    else fail

/-- CREATE_VF (R490). -/
def execCreateVf (f : FnId) (j : SlotId) (s : State) : Out := .next (if s.barUp then s.createVf f j else s)

/-! ## Destroying (R492) -/

/-- Steps 1 to 5 of R492: the context is DESTROYING. -/
def State.beginDestroy (s : State) (c : Nat) : State :=
  match (s.ctx c).st with
  | .free => s
  | .destroying => s
  | _ => (((s.quiesce c 0).closeWindows c).abandonHub c).enter c .destroying

/-- Steps 6 and 7 of R492: its memory is unmapped and cleared, its registers take their Reset values, it is FREE. -/
def State.endDestroy (s : State) (c : Nat) : State :=
  let fs := (s.mem.frames.filter fun e => e.2.used && e.2.owner == some c).map (·.1)
  let s1 := s.freeFrames fs
  let s2 := { s1 with
    mem := { s1.mem with
      pageIns := s1.mem.pageIns.filter fun p => p.ctx != c, wants := s1.mem.wants.filter fun w => w.ctx != c,
      fails := s1.mem.fails.filter fun e => e.1 != c } }
  (s2.resetCtxRegs c).putCtx c Ctx.reset

/-- A context destroyed at once (R451). -/
def State.destroyNow (s : State) (c : Nat) : State :=
  if (s.ctx c).st = .free then s else (s.beginDestroy c).endDestroy c

/-- DESTROY (R492): taken from the owner alone (R447). -/
def execDestroy (f : FnId) (c : CtxId) (s : State) : Out := .next (if s.barUp ∧ s.owns f c then s.beginDestroy c else s)

/-- DESTRUCTION_COMPLETE (R492). -/
def execDestructionComplete (c : CtxId) (s : State) : Out :=
  .next (if (s.ctx c).st = .destroying then s.endDestroy c else s)

/-! ## The end of a RUN (R494) -/

/-- A logical AU has finished (R128): its core has left, its Stencils are done, its operations are complete. -/
def Au.finished (a : Au) : Bool :=
  a.core.finished && a.stns.all (fun e => e.2.st == .idle || e.2.st == .done)
    && a.fifos.all (fun e => e.2.isEmpty) && a.acts.isEmpty

/-- Every logical AU of the context has finished. -/
def State.allFinished (s : State) (c : Nat) : Bool :=
  ((s.ctxAus c).all fun e => (s.au e.2).finished) && s.mem.rollers.all fun r => r.2.ctx != c

/-- The RUN completes and the context returns to READY. -/
def State.finishRun (s : State) (c : Nat) : State :=
  let s1 := s.enter c .ready
  match s1.findCmd c 0x02 fun _ => true with
  | some (k, _) => s1.complete c k 0x00 (s1.runResult c 0)
  | none => s1

/-- Every agent and Roller transfer of the context is done with its work; a halt of the firmware ends nothing (R634). -/
def State.runEnded (s : State) (c : Nat) : Bool :=
  (s.ctx c).st == .running && !s.fwHalted && s.allFinished c

/-- RUN_COMPLETE (R494). -/
def execRunComplete (c : CtxId) (s : State) : Out := .next (if s.runEnded c then s.finishRun c else s)

/-! ## Pre-emption (R503 to R506) -/

/-- A pre-emption begins; if every logical AU has finished, the RUN completes first (R495). -/
def State.startPreempt (s : State) (c : Nat) (cause : Cause) : State :=
  let s1 := if s.runEnded c then s.finishRun c else s
  s1.beginPreempt c cause

/-- PREEMPT (R503). -/
def execPreempt (c : CtxId) (k : Nat) (s : State) : Out :=
  .next (s.onCmd c k 0x09 fun cmd =>
    if cmd.phase ≠ .started then s
    else if !zeroIn cmd.desc 4 64 then s.complete c k 0x02 0
    else
      let x := s.ctx c
      if x.st = .ready ∨ x.st = .running then (s.setPhase c k (.underway 0 0)).startPreempt c .host
      else if x.st = .preempted ∧ x.cause = .displaced then
        (s.modCtx c fun y => { y with cause := .host }).complete c k 0x00 0
      else s.complete c k 0x05 0)

/-! ## Pinned buffers (R500) -/

/-- The bytes of [src, src + n) copied to dst, where nothing is listed. -/
def copyRange (m : Mem) (src dst n : Nat) : Mem :=
  (m.filter fun e => decide (src ≤ e.1) && decide (e.1 < src + n)).foldl (fun m e => wrByte m (dst + (e.1 - src)) e.2) m

/-- One page moves to the stacks of a mask, whole. -/
def State.movePage (s : State) (c k : Nat) (e : Pte) (mask : Nat) : Option State :=
  let n := if e.big then 2 ^ 30 else frameBytes
  match (if e.big then s.allocBig mask (some c) else s.allocFrame mask (some c) (s.frame (dpaFrame e.addr)).pagedIn) with
  | none => none
  | some (f, s1) =>
    let s2 := { s1 with mem := { s1.mem with hbm := copyRange s1.mem.hbm e.addr (frameDpa f) n } }
    some ((s2.freeFrames (List.range' (dpaFrame e.addr) (if e.big then 512 else 1))).modPte c k fun y =>
      { y with addr := frameDpa f, stks := mask })

/-- The pages of a buffer that lie outside its pinned stacks move there. -/
def State.movePages (s : State) (c mask : Nat) : List (Nat × Pte) → Option State
  | [] => some s
  | (k, e) :: es =>
    match s.movePage c k e mask with
    | none => none
    | some s1 => s1.movePages c mask es

/-- Every pinned buffer's pages move to its pinned stacks; none: some page finds no place, and nothing moves (R500). -/
def State.movePinned (s : State) (c : Nat) : Map Nat → Option State
  | [] => some s
  | (b, mask) :: ps =>
    match (s.ctx c).lbuf b with
    | none => s.movePinned c ps
    | some r =>
      let out := (s.ctx c).pt.filter fun e =>
        r.space == 1 && decide (r.va / frameBytes ≤ e.1) && decide (frameBytes * e.1 < r.va + r.size)
          && e.2.ty == .resident && !bit mask (e.2.addr / 2 ^ 36)
      match s.movePages c mask out with
      | none => none
      | some s1 => s1.movePinned c ps

/-! ## Resumption (R507, R511) -/

/-- A resumption begins: the context is placed, displacing others if needed, and is RESUMING. None: NO_RESOURCES. -/
def State.startResume (s : State) (c trigger : Nat) (sem : Option Nat) : Option State :=
  let x := s.ctx c
  match s.findPlace c x.nLaus x.bufs [] sem with
  | none => none
  | some (p, s1) =>
    match s1.movePinned c x.stackPins with
    | none => none
    | some s2 =>
      let moved := (s2.ctx c).pt != x.pt
      some ((s2.takePlace c p trigger moved).enter c .resuming)

/-- RESUME (R511). -/
def execResume (c : CtxId) (k : Nat) (s : State) : Out :=
  .next (s.onCmd c k 0x0A fun cmd =>
    if cmd.phase ≠ .started then s
    else if !zeroIn cmd.desc 4 64 then s.complete c k 0x02 0
    else if (s.ctx c).st ≠ .preempted then s.complete c k 0x05 0
    else match (s.setPhase c k (.underway 0 0)).startResume c 1 none with
      | some s1 => s1
      | none => (s.modCtx c fun y => { y with cause := .host }).complete c k 0x03 0)

/-- A PLACE_HINT with APPLY that waits for its pre-emption or its resumption. -/
def Cmd.isUnderway (d : Cmd) : Bool := match d.phase with | .underway _ _ => true | _ => false

/-- PREEMPTION_SAVE_COMPLETE (R504): once no segment of the context's AUs is in flight. PREEMPT completes; a PLACE_HINT with
APPLY goes on to its resumption (R500). -/
def execPreemptionSaveComplete (c : CtxId) (s : State) : Out :=
  if (s.ctx c).st = .preempting ∧ !s.segsOf c then
    let bytes := (s.ctx c).savedBytes
    let s1 := s.endPreempt c
    let s2 := match s1.findCmd c 0x09 Cmd.isUnderway with
      | some (k, _) => s1.complete c k 0x00 bytes
      | none => s1
    .next (match s2.findCmd c 0x12 Cmd.isUnderway with
      | some (k, _) =>
        match s2.startResume c 3 none with
        | some s3 => s3
        | none => s2.complete c k 0x03 0
      | none => s2)
  else .next s

/-- RESUMPTION_COMPLETE (R507): flags, parked changes, agents. RESUME and PLACE_HINT complete. A context whose port has been
lost meanwhile is pre-empted again (R450). -/
def execResumptionComplete (c : CtxId) (s : State) : Out :=
  if (s.ctx c).st = .resuming then
    let s1 := s.endResume c
    let s2 := match s1.findCmd c 0x0A Cmd.isUnderway with
      | some (k, _) => s1.complete c k 0x00 (s1.ctx c).gen
      | none => s1
    let s3 := match s2.findCmd c 0x12 Cmd.isUnderway with
      | some (k, _) => s2.complete c k 0x00 0
      | none => s2
    .next (if (s3.port (s3.ctxPort c)).lost then s3.startPreempt c .hostLost else s3)
  else .next s

/-- DISPLACED_RESUME (R502): the first waiting DISPLACED context, once the AUs that are free hold it. -/
def execDisplacedResume (s : State) : Out :=
  match s.displacedOrder with
  | [] => .next s
  | c :: _ =>
    let x := s.ctx c
    match s.placeAus c x.nLaus x.bufs (s.freeFor c []) with
    | none => .next s
    | some p =>
      match s.movePinned c x.stackPins with
      | none => .next s
      | some s1 => .next ((s1.takePlace c p 1 ((s1.ctx c).pt != x.pt)).enter c .resuming)

/-! ## PLACE_HINT (R499, R500) -/

/-- Entry i of a PLACE_HINT: NAME and VALUE. -/
def hintAt (d : List Byte) (i : Nat) : Nat × Nat := (fieldLe d (16 + 4 * i) 2, fieldLe d (18 + 4 * i) 2)

/-- A logical AU, or a logical buffer, that the hint may name (R500). -/
def Ctx.hintLau (x : Ctx) (n : Nat) : Bool := if x.prog.isSome then decide (n < x.nLaus) else decide (n < 192)
def Ctx.hintBuf (x : Ctx) (n : Nat) : Bool :=
  decide (1 ≤ n) && (if x.prog.isSome then decide (n ≤ x.bufs.length) else decide (n ≤ 4095))

/-- One entry recorded; none: the entry breaks Table 12.5. -/
def Ctx.hint (x : Ctx) (action : Nat) (e : Nat × Nat) : Option Ctx :=
  match action with
  | 0 => if x.hintLau e.1 && decide (e.2 < 192) then some { x with pins := mput x.pins e.1 e.2 } else none
  | 1 =>
    if e.2 = 0 then (if x.hintLau e.1 then some { x with pins := mdel x.pins e.1 } else none)
    else if e.2 = 1 then (if x.hintBuf e.1 then some { x with stackPins := mdel x.stackPins e.1 } else none)
    else none
  | 2 => if x.hintLau e.1 && decide (e.2 < 256) then some { x with groups := mput x.groups e.1 e.2 } else none
  | 3 =>
    if x.hintBuf e.1 && decide (e.2 < 4096) && e.2 != 0 then some { x with stackPins := mput x.stackPins e.1 e.2 } else none
  | _ => none

/-- The entries recorded one after another. -/
def Ctx.hints (x : Ctx) (action : Nat) : List (Nat × Nat) → Option Ctx
  | [] => some x
  | e :: es => match x.hint action e with
    | none => none
    | some y => y.hints action es

/-- No two logical AUs are pinned to one AU. -/
def distinctPins : Map Nat → Bool
  | [] => true
  | (_, n) :: ps => !(ps.any fun e => e.2 == n) && distinctPins ps

/-- What a PLACE_HINT records; none: INVALID_FIELD. -/
def Ctx.takeHints (x : Ctx) (d : List Byte) : Option Ctx :=
  let n := byteAt d 5
  if n < 1 ∨ 12 < n ∨ bits (byteAt d 6) 7 1 ≠ 0 ∨ !zeroIn d 7 16 ∨ !zeroIn d (16 + 4 * n) 64 then none
  else match x.hints (byteAt d 4) ((List.range n).map (hintAt d)) with
    | some y => if distinctPins y.pins then some y else none
    | none => none

/-- PLACE_HINT (R499, R500). -/
def execPlaceHint (c : CtxId) (k : Nat) (s : State) : Out :=
  .next (s.onCmd c k 0x12 fun cmd =>
    if cmd.phase ≠ .started then s
    else
      let x := s.ctx c
      let hold := x.st = .ready ∨ x.st = .running
      match x.takeHints cmd.desc with
      | none => s.complete c k 0x02 0
      | some y =>
        if ¬ (x.st = .empty ∨ hold ∨ x.st = .preempted) then s.complete c k 0x05 0
        else
          let s1 := s.putCtx c y
          if bit (byteAt cmd.desc 6) 0 ∧ hold then (s1.setPhase c k (.underway 0 0)).startPreempt c .host
          else s1.complete c k 0x00 0)

end Sys2Proof.Machine
end

