-- ==== Sys2Proof/Machine/Links.lean ====
section
/-!
DEFINITION. The meanings of the link ports' commands (10_omwen_links.md): port states, flits, side words, replay, forwarding,
part time and the lane test.
-/
namespace Sys2Proof.Machine

/-! ## Port states (R385 to R389) -/

/-- MODE and LANESEL of a port. -/
def State.linkMode (s : State) (p : Nat) : Nat := s.fld (LNK_PORT_CTL p) 2 1
/-- The lanes that a port's mode uses, as a mask. -/
def State.modeLanes (s : State) (p : Nat) : Nat :=
  if s.linkMode p = 1 then (if s.fld (LNK_PORT_CTL p) 3 3 = 1 then 12 else 3) else 15

/-- A port that is not held back starts over: TEST in mode TEST, else TRAINING. -/
def State.portStart (s : State) (p : Nat) : State :=
  s.modLport p fun x => { x with state := if s.linkMode p = 2 then .test else .training, retry := false, downAt := s.now }

/-- A DISABLED port with ENABLE set leaves DISABLED once the part has an identifier: to FENCED where it carries a fence (R388). -/
def State.portEnable (s : State) (p : Nat) : State :=
  if (s.lport p).state = .disabled ∧ s.rbit (LNK_PORT_CTL p) 0 ∧ s.partId ≠ 0xFFFF then
    if (s.lport p).fence then s.modLport p fun x => { x with state := .fenced } else s.portStart p
  else s

/-- A port goes to DISABLED (R388); a fence is kept. -/
def State.portDisable (s : State) (p : Nat) : State :=
  match (s.lport p).state with
  | .up => s.leaveUp p 4 .disabled
  | .disabled => s
  | _ => s.portQuiet p .disabled

/-- A change of MODE or LANESEL takes a running port through TRAINING (R385). -/
def State.portRemode (s : State) (p : Nat) : State :=
  match (s.lport p).state with
  | .up => (s.leaveUp p 3 .training).portStart p
  | .disabled => s
  | .fenced => s
  | _ => (s.portQuiet p .training).portStart p

/-- A write of LNK_PORT_CTL; a reserved MODE leaves MODE as it is. -/
def State.portCtlWrite (s : State) (f p v : Nat) : State :=
  if f = s.adminPf then
    let k := LNK_PORT_CTL p
    let old := s.reg k
    let v := if bits v 2 1 = 3 then putBits v 2 1 (bits old 2 1) else v
    let s1 := s.softReg k v
    if bit v 0 then
      if bit old 0 then (if bits v 3 1 = bits old 3 1 then s1 else s1.portRemode p) else s1.portEnable p
    else s1.portDisable p
  else s.denied f

/-- LNK_PORT_CTL_WRITE (R388). -/
def execLnkPortCtlWrite (f : FnId) (p : LinkId) (v : Word32) (s : State) : Out := .next (if s.barUp then s.portCtlWrite f p v.toNat else s)

/-- LNK_PART_ID_WRITE (R388, R401). -/
def execLnkPartIdWrite (f : FnId) (v : Word32) (s : State) : Out :=
  .next (if !s.barUp then s else if f = s.adminPf then (List.range 16).foldl (fun t p => t.portEnable p) (s.softReg LNK_PART_ID v.toNat) else s.denied f)

/-- PORT_TRAINING_DONE (R387): UP, with LINK_UP; or DOWN. -/
def execPortTrainingDone (p : LinkId) (ok : Bool) (partner partnerPort : Nat) (s : State) : Out :=
  let x := s.lport p
  if x.state = .training ∨ (x.state = .down ∧ x.retry) then
    if ok then
      .next ((s.modLport p fun y =>
        { (y.quiet .up) with lanesOk := s.modeLanes p, partner := partner % 65536, partnerPort := partnerPort % 16 }).raise 0x0402 .all
          [(0, 1, p), (1, 1, s.linkMode p), (2, 2, partner), (4, 1, partnerPort)])
    else
      let s1 := s.modLport p fun y => { y with state := .down, retry := false, downAt := s.now }
      .next (if x.state = .training then s1.raise 0x0401 .all [(0, 1, p), (1, 1, 2)] else s1)
  else .next s

/-- LINK_DOWN (R387, R389): loss of lock and mode change among its reasons. -/
def execLinkDown (p : LinkId) (reason : Nat) (s : State) : Out :=
  .next (s.leaveUp p reason (if reason = 3 then .training else if reason = 4 then .disabled else .down))

/-- DOWN_RETRAIN_TIMER (R387): every 100 ms. -/
def execDownRetrainTimer (p : LinkId) (t : Nat) (s : State) : Out :=
  let s0 := s.at t
  let x := s0.lport p
  .next (if x.state = .down ∧ x.downAt + 100000000 ≤ t then s0.modLport p fun y => { y with retry := true, downAt := t } else s0)

/-- LANE_LOSS_OF_LOCK (R386): a port in UP whose mode uses the lane goes DOWN. -/
def execLaneLossOfLock (p : LinkId) (lane : Nat) (s : State) : Out :=
  let s1 := s.modLport p fun x => { x with lanesOk := putBits x.lanesOk lane lane 0, prbsLocked := putBits x.prbsLocked lane lane 0 }
  .next (if bit (s.modeLanes p) lane then s1.leaveUp p 1 .down else s1)

/-! ## Flits (R391, R396, R397, R399) -/

/-- Flits that a transaction of n data bytes takes. -/
def flitCount (n : Nat) : Nat := 1 + dataFlits n

/-- n flits of the receive buffer are free again. -/
def LinkPort.freeRx (x : LinkPort) (vc n : Nat) : LinkPort :=
  { x with rxUsed := mset 0 x.rxUsed vc (mget 0 x.rxUsed vc - n), rxFreed := mset 0 x.rxFreed vc ((mget 0 x.rxFreed vc + n) % 4096) }

/-- A transaction taken out of the inbox: its place in the receive buffer is free. -/
def State.takeInbox (s : State) (n : Nat) (ops : List Nat) : Option (Nat × LTxn × State) :=
  match s.links.inbox[n]? with
  | none => none
  | some (p, t) =>
    if ops.contains t.hdr.op then
      let s1 := { s with links := { s.links with inbox := s.links.inbox.eraseIdx n } }
      some (p, t, if p < 16 then s1.modLport p fun x => x.freeRx t.vc (flitCount t.data.length) else s1)
    else none

/-- A whole transaction has come off the link: it goes to the inbox, or, its origin being fenced, nowhere (R437). -/
def State.gotTxn (s : State) (p vc : Nat) (r : RxPart) : State :=
  let s1 := s.modLport p fun x => { x with rxPart := mdel x.rxPart vc }
  if s.links.fenced.contains r.hdr.org then s1.modLport p fun x => x.freeRx vc r.flits
  else s1.deliver p ⟨r.hdr, r.data.take r.hdr.length, vc⟩

/-- A HEAD or DATA flit in sequence. -/
def State.takeFlit (s : State) (p vc kind : Nat) (body : List Byte) : State :=
  let s1 := s.modLport p fun x => { x with rxUsed := mset 0 x.rxUsed vc (mget 0 x.rxUsed vc + 1) }
  let part : Option RxPart :=
    if kind = 1 then let h := hdrOf body; some ⟨h, (body.drop 64).take (min 192 h.length), 1⟩
    else (mfind (s1.lport p).rxPart vc).map fun r => { r with data := r.data ++ body.take (r.hdr.length - r.data.length), flits := r.flits + 1 }
  match part with
  | none => s1.modLport p fun x => x.freeRx vc 1
  | some r =>
    if r.hdr.length ≤ r.data.length then s1.gotTxn p vc r
    else s1.modLport p fun x => { x with rxPart := mput x.rxPart vc r }

/-- FLIT_RECEIVE (R390 to R392, R399): an IDLE flit moves the flit index alone; a flit out of sequence is discarded; a LINK flit
is consumed at once. -/
def execFlitReceive (p : LinkId) (seq vc kind : Nat) (body : List Byte) (s : State) : Out :=
  let x := s.lport p
  match x.state with
  | .up =>
    let s1 := s.modLport p fun y => { y with rxIndex := (y.rxIndex + 1) % 65536 }
    if kind % 4 = 0 then .next s1
    else if seq ≠ x.rxSeq then .next s1
    else
      let s2 := s1.modLport p fun y => { y with rxSeq := (y.rxSeq + 1) % 65536, nakFor := none }
      .next (if kind % 4 = 3 then s2 else s2.takeFlit p (vc % 8) (kind % 4) body)
  | _ => .next s

/-- UNCORRECTABLE_CODEWORD (R399): what it touched begins with the flit expected next, which NAK names until it arrives. -/
def execUncorrectableCodeword (p : LinkId) (t : Nat) (s : State) : Out :=
  let s0 := s.at t
  let s1 := (s0.count (LNK_FEC_UNCORR p) 31 0 1).total 4 1
  .next (if (s.lport p).state = .up then s1.modLport p fun x => { x with nakFor := some (x.nakFor.getD x.rxSeq), sideBad := true } else s1)

/-! ## Side words (R392, R393, R396, R399, R400) -/

/-- The side words that a port has to send: ACK or NAK (Table 10.5). -/
def LinkPort.ackWord (x : LinkPort) : Nat :=
  match x.nakFor with
  | some q => 2 * 2 ^ 44 + 2 ^ 28 * q
  | none => 2 ^ 44 + 2 ^ 28 * x.rxSeq

/-- The CREDIT word of a channel. -/
def LinkPort.creditWord (x : LinkPort) (vc : Nat) : Nat := 3 * 2 ^ 44 + 2 ^ 41 * vc + 2 ^ 29 * mget 0 x.rxFreed vc

/-- Flits below a sequence number have been received. -/
def LinkPort.acked (x : LinkPort) (seq : Nat) : LinkPort := { x with sent := x.sent.filter fun f => !seqBefore f.seq seq }

/-- NAK: replay from a sequence number on; the ninth within 20 µs of the first of eight takes the port DOWN (R400). -/
def State.replayFrom (s : State) (p seq : Nat) : State :=
  let recent := (s.lport p).replays.filter fun a => decide (s.now < a + 20000)
  if 8 ≤ recent.length then s.leaveUp p 0 .down
  else
    ((s.modLport p fun x =>
      let y := x.acked seq
      { y with
        replays := recent ++ [s.now], txIndex := (y.txIndex + y.sent.length) % 65536
        sent := y.sent.map fun f => { f with replayed := true } }).setFld (LNK_PORT_FLAGS p) 1 1 1).count (LNK_REPLAY_CNT p) 15 0 1

/-- SIDE_WORD_RECEIVE (R393): a word of which a flit was uncorrectable is discarded. -/
def execSideWordReceive (p : LinkId) (w : Nat) (s : State) : Out :=
  let x := s.lport p
  if x.state ≠ .up then .next s
  else if x.sideBad then .next (s.modLport p fun y => { y with sideBad := false })
  else
    let seq := bits w 43 28
    .next (match bits w 47 44 with
      | 1 => (s.modLport p fun y => y.acked seq).pump p
      | 2 => (s.replayFrom p seq).pump p
      | 3 =>
        let vc := bits w 43 41
        let freed := bits w 40 29
        (s.modLport p fun y =>
          let d := (freed + 4096 - mget 0 y.txFreedSeen vc) % 4096
          { y with txUsed := mset 0 y.txUsed vc (mget 0 y.txUsed vc - d), txFreedSeen := mset 0 y.txFreedSeen vc freed }).pump p
      | _ => s)

/-- REPLAY_BOUND_EXCEEDED (R400): a replayed flit is not acknowledged within 20 µs of its first transmission. -/
def execReplayBoundExceeded (p : LinkId) (t : Nat) (s : State) : Out :=
  let s0 := s.at t
  .next (if (s0.lport p).sent.any fun f => f.replayed && decide (f.at_ + 20000 ≤ t) then s0.leaveUp p 0 .down else s0)

/-! ## Forwarding (R402 to R404) -/

/-- TRANSACTION_FORWARD (R402): a transaction that is not for this part. -/
def execTransactionForward (n : Nat) (s : State) : Out :=
  .next (match s.links.inbox[n]? with
    | none => s
    | some (_, t) =>
      if s.isSelf t.hdr.dst then s
      else match s.takeInbox n [t.hdr.op] with
        | none => s
        | some (_, t, s1) =>
          if 64 ≤ t.hdr.hops + 1 then s1.count LNK_EVT_CNT 7 0 1
          else match s1.route t.hdr.dst with
            | none => s1.count LNK_EVT_CNT 7 0 1
            | some (q, dl) =>
              if (s1.lport q).state = .up then
                s1.enqueue q { t with hdr := { t.hdr with hops := t.hdr.hops + 1 }, vc := afterDateline dl t.vc } none
              else s1)

/-! ## Part time (R434 to R436) -/

/-- A number as a 24-bit two's complement value. -/
def off24 (d : Int) : Nat := ofInt 24 d

/-- TIME_SAMPLE (R434, R435): a sample from the partner on the route to the master, `partner` being the partner's part time and
t this part's own at one instant. The first lock after reset steps the counter; later ones change its rate alone, by how much
being left open within 0.1 %. -/
def execTimeSample (partner hops t : Nat) (s : State) : Out :=
  let s0 := s.at t
  let master := s0.fld LNK_TIME_CTL 15 0
  if s0.rbit LNK_TIME_CTL 16 ∧ master ≠ s0.partId ∧ (s0.route master).isSome then
    let d : Int := (partner : Int) - t
    let x := s0.links.time
    let h := min (hops + 1) 127
    let p := s0.pick
    let time : TimeSt :=
      { locked := true, everLocked := true, hops := h, offset := d, lastSample := if x.everLocked then s0.now else partner
        rate := if x.everLocked then ((p.1 % 2001 : Nat) : Int) - 1000 else 0 }
    let s1 := if x.everLocked then p.2 else { p.2 with now := partner }
    .next ({ s1 with links := { s1.links with time := time } }.setReg LNK_TIME_STATUS (2 ^ 31 + 2 ^ 24 * h + off24 d))
  else .next s0

/-- TIME_UNLOCKED (R436): no sample for 1 ms. -/
def execTimeUnlocked (t : Nat) (s : State) : Out :=
  let s0 := s.at t
  let x := s0.links.time
  if x.locked ∧ x.lastSample + 1000000 ≤ t then
    let p := match s0.route (s0.fld LNK_TIME_CTL 15 0) with | some (q, _) => q | none => 0
    .next ((({ s0 with links := { s0.links with time := { x with locked := false } } }.setFld LNK_TIME_STATUS 31 31 0).setFld
      LNK_STATUS 2 2 1).raise 0x0406 .all [(0, 1, p), (4, 4, ofInt 32 x.offset)])
  else .next s0

/-! ## Lane test (R438) -/

/-- PRBS_TEST (R438): the checkers of the running lanes, which of them are locked, and the symbol errors that they count. -/
def execPrbsTest (p : LinkId) (locked : Nat) (errs : List Nat) (s : State) : Out :=
  if (s.lport p).state = .test then
    let run := s.fld (LNK_PRBS_CTL p) 3 0
    let lk := (List.range 4).foldl (fun m k => if bit locked k && bit run k then m + 2 ^ k else m) 0
    let s1 := (s.modLport p fun x => { x with prbsLocked := lk }).setFld (LNK_PRBS_CTL p) 7 4 lk
    .next ((List.range 4).foldl (fun t k => if bit lk k then t.count (LNK_PRBS_ERR p k) 31 0 ((errs[k]?).getD 0) else t) s1)
  else .next s

end Sys2Proof.Machine
end

