-- ==== Sys2Proof/Machine/Windows.lean ====
section
/-!
DEFINITION. The meanings of the windows' commands (R407 to R415, R212, R213, R430 to R432): opening and closing, arrivals and
their completion, HOLD, answers, aborts and timeouts.
-/
namespace Sys2Proof.Machine

/-! ## Opening and closing (R407 to R411) -/

/-- Bytes of the buffer that a base names, and whether it is a VIRT buffer (an LBUF of 0 names the virtual space). -/
def Ctx.baseBuf (x : Ctx) (w : Nat) : Option (Nat × Bool) :=
  if bits w 63 52 = 0 then some (2 ^ 52, true) else (x.lbuf (bits w 63 52)).map fun r => (r.size, r.space == 1)

/-- A field of the OPEN_WINDOW descriptor breaks Table 10.8, R409 or R212. -/
def Ctx.openBad (x : Ctx) (d : List Byte) : Bool :=
  let acc := byteAt d 4
  let tag := bits (byteAt d 5) 3 0
  let ncons := bits (byteAt d 5) 7 4
  let g := fieldLe d 8 2
  let n := fieldLe d 24 8
  acc == 0 || decide (3 < acc) || decide (2 < tag) || (tag == 2) != (ncons != 0) || bits (byteAt d 7) 7 1 != 0
    || (decide (255 < g) && g != 0xFFFF) || !zeroIn d 10 12 || !zeroIn d 32 64 || n == 0 || decide (2 ^ 48 < n)
    || (match x.baseBuf (fieldLe d 16 8) with
      | none => true
      | some (size, virt) => decide (size < bits (fieldLe d 16 8) 51 0 + n) || (virt && tag != 0))
    || (tag == 2 && acc != 1) || (tag == 1 && acc != 2)

/-- The lowest free window index. -/
def State.freeWindow (s : State) : Option Nat := (List.range 4096).find? fun i => (mfind s.links.windows i).isNone

/-- The generation after g: it skips 0 (R407). -/
def nextGen (g : Nat) : Nat := if 65535 ≤ g then 1 else g + 1

/-- OPEN_WINDOW (R408, R409). -/
def execOpenWindow (c : CtxId) (k : Nat) (s : State) : Out :=
  .next (s.onCmd c k 0x06 fun cmd =>
    let d := cmd.desc
    if (s.ctx c).openBad d then s.complete c k 0x02 0
    else match s.freeWindow with
      | none => s.complete c k 0x03 0
      | some i =>
        let g := nextGen (mget 0 s.links.gens i)
        let b := fieldLe d 16 8
        let w : Window :=
          { st := .open_, gen := g, ctx := c, canWrite := bit (byteAt d 4) 0, canRead := bit (byteAt d 4) 1,
            tagMode := bits (byteAt d 5) 3 0, ncons := bits (byteAt d 5) 7 4, flag := byteAt d 6, flagEn := bit (byteAt d 7) 0,
            group := fieldLe d 8 2, expect := fieldLe d 12 4, lbuf := bits b 63 52, off := bits b 51 0, size := fieldLe d 24 8,
            count := 0, closing := false }
        { s with links := { s.links with windows := mput s.links.windows i w, gens := mput s.links.gens i g } }.complete c k 0x00
          (2 ^ 16 * g + i))

/-- The window of a handle, if it is in one of the states given. -/
def State.handleWin (s : State) (h : Nat) : Option (Nat × Window) :=
  let i := bits h 11 0
  match mfind s.links.windows i with
  | none => none
  | some w => if w.gen = bits h 31 16 ∧ bits h 15 12 = 0 then some (i, w) else none

/-- A window changed. -/
def State.modWindow (s : State) (i : Nat) (f : Window → Window) : State :=
  match mfind s.links.windows i with
  | none => s
  | some w => { s with links := { s.links with windows := mput s.links.windows i (f w) } }

/-- A DRAINING window of which every accepted transaction has completed is CLOSED (R411). -/
def State.tryClose (s : State) (c k i : Nat) : State :=
  if s.links.accepts.any fun a => a.2.win == i then s
  else { s with links := { s.links with windows := mdel s.links.windows i } }.complete c k 0x00 0

/-- CLOSE_WINDOW (R411). -/
def execCloseWindow (c : CtxId) (k : Nat) (s : State) : Out :=
  .next (s.onCmd c k 0x07 fun cmd =>
    match cmd.phase with
    | .started =>
      if !zeroIn cmd.desc 8 64 then s.complete c k 0x02 0
      else match s.handleWin (fieldLe cmd.desc 4 4) with
        | some (i, w) =>
          if w.st = .open_ ∧ w.ctx = c then
            ((s.modWindow i fun w => { w with st := .draining, closing := true }).setPhase c k (.underway i 0)).tryClose c k i
          else s.complete c k 0x41 0
        | none => s.complete c k 0x41 0
    | .underway i _ => s.tryClose c k i
    | .held _ _ => s)

/-! ## Arrivals (R412, R415, R508) -/

/-- The origin is a member of the group that a window is restricted to. -/
def State.winMember (s : State) (w : Window) (org : Nat) : Bool :=
  w.group == 0xFFFF || (match mfind (s.ctx w.ctx).colls w.group with | some g => g.members.contains org | none => false)

/-- What a check at a window decides (Table 10.9, from its third row on). -/
inductive WinVerdict where
  | refuse (status : Nat)
  | hold (full : Bool)
  | accept (i : Nat) (w : Window)
  deriving DecidableEq, Repr

/-- The window's context cannot take an arrival now: it is RESTORING, or does not hold its AUs and the buffer is a HAWK buffer, or
its mailbox is full (R508, R557). -/
def State.winHeld (s : State) (w : Window) : Option Bool :=
  let x := s.ctx w.ctx
  if s.mboxFull w.ctx then some true
  else if x.st = .restoring then some false
  else if x.st.parks && (match x.baseBuf (2 ^ 52 * w.lbuf) with | some (_, virt) => !virt | none => true) then some false
  else none

/-- A handle, an origin, an access and a range checked at this part's windows. -/
def State.winCheck (s : State) (h org off len : Nat) (write : Bool) : WinVerdict :=
  match s.handleWin h with
  | none => .refuse 0x41
  | some (i, w) =>
    if w.st ≠ .open_ then .refuse 0x41
    else if !s.winMember w org then .refuse 0x43
    else if !(if write then w.canWrite else w.canRead) ∨ w.size < off + len then .refuse 0x43
    else match s.winHeld w with
      | some f => .hold f
      | none => .accept i w

/-- This part has completed or aborted the TSEQ within the last 1 ms of part time (R431). -/
def State.seenTseq (s : State) (org tseq : Nat) : Bool :=
  s.links.seen.any fun x => x.org == org && x.tseq == tseq && decide (s.now < x.at_ + 1000000)

/-- WINDOW_ARRIVAL (R412): a WRITE or READ is taken off the link and checked once. -/
def execWindowArrival (n : Nat) (s : State) : Out :=
  .next (match s.links.inbox[n]? with
    | none => s
    | some (_, t0) =>
      if !s.isSelf t0.hdr.dst then s
      else match s.takeInbox n [1, 2] with
        | none => s
        | some (_, t, s1) =>
          if s1.seenTseq t.hdr.org t.hdr.tseq ∨ s1.links.fenced.contains t.hdr.org then s1
          else match s1.winCheck t.hdr.handle t.hdr.org t.hdr.offset t.hdr.length (t.hdr.op == 1) with
            | .refuse st => (s1.rememberTseq t.hdr.org t.hdr.tseq).answer_ t 4 st t.hdr.offset []
            | .hold full =>
              let s2 := s1.answer_ t 5 0x4B t.hdr.offset []
              match s1.handleWin t.hdr.handle with
              | some (_, w) => if full then s2.mboxFullEvent w.ctx else s2
              | none => s2
            | .accept i _ =>
              { s1 with links := { s1.links with
                accepts := mput s1.links.accepts s1.links.nextAccept ⟨i, t, 0, s1.now, []⟩
                nextAccept := s1.links.nextAccept + 1 } })

/-! ## The access at a window (R410, R412, R212, R213) -/

/-- An accepted transaction replaced. -/
def State.putAccept (s : State) (id : Nat) (a : Accept) : State :=
  { s with links := { s.links with accepts := mput s.links.accepts id a } }

/-- The arrival count after a completed write of n bytes, and whether the flag is set (R410). -/
def Window.arrive (w : Window) (n : Nat) : Window × Bool :=
  if !w.flagEn then (w, false)
  else if w.expect = 0 then (w, true)
  else ({ w with count := (w.count + n) % w.expect }, decide (w.expect ≤ w.count + n))

/-- A write of n bytes to window i is complete: the arrival count and the flag. -/
def State.winWritten (s : State) (i n : Nat) : State :=
  match mfind s.links.windows i with
  | none => s
  | some w =>
    let p := w.arrive n
    let s1 := s.modWindow i fun _ => p.1
    if p.2 then s1.deliverFlag w.ctx w.flag true else s1

/-- An access is complete: COMPLETE or READ_DATA is sent. -/
def State.acceptDone (s : State) (id : Nat) (a : Accept) : State :=
  if a.t.hdr.op = 1 then (s.winWritten a.win a.t.hdr.length).settle id 4 0 0 []
  else s.settle id 3 0 a.t.hdr.offset a.got

/-- One piece of an access to a Hawk, to the end of its slot or of the access: under a tag mode it is a visit, or none can begin
(R195, R212). -/
def State.hawkPiece (s : State) (id : Nat) (w : Window) (a : Accept) (n o : Nat) : Option State :=
  let slot := o / 2048
  let m := min (a.t.hdr.length - a.done) (2048 - o % 2048)
  let write := a.t.hdr.op == 1
  let access := fun (s : State) =>
    if write then (s.modAu n fun u => { u with hawk := wrBytes u.hawk o ((a.t.data.drop a.done).take m) }).putAccept id
        { a with done := a.done + m, since := s.now }
    else s.putAccept id { a with done := a.done + m, since := s.now, got := a.got ++ rdBytes (s.au n).hawk o m }
  if w.tagMode = 0 then some (access s)
  else if ((s.au n).tag slot).canBegin write then
    let s1 := access (s.modAu n fun u => u.putTag slot ((u.tag slot).begin write))
    some (s1.modAu n fun u => u.putTag slot ((u.tag slot).finish write w.ncons))
  else none

/-- The access goes as far as the slots let it. -/
def State.hawkAccess (s : State) (id : Nat) : Nat → State
  | 0 => s
  | f + 1 =>
    match mfind s.links.accepts id with
    | none => s
    | some a =>
      if a.t.hdr.length ≤ a.done then s.acceptDone id a
      else match mfind s.links.windows a.win with
        | none => s
        | some w =>
          match (s.ctx w.ctx).locate w.lbuf (w.off + a.t.hdr.offset + a.done) with
          | some (.hawk n o) => match s.hawkPiece id w a n o with
            | some s1 => s1.hawkAccess id f
            | none => s
          | _ => s

/-- The access to a VIRT buffer, whole. -/
def State.virtAccess (s : State) (id : Nat) (w : Window) (a : Accept) (va : Nat) : State :=
  let write := a.t.hdr.op == 1
  let stop := fun (r : VmRes Unit) => match r with
    | .wait v => s.want ⟨w.ctx, v, 5, 0xFF, write⟩
    | .bad e v => s.memFault w.ctx e 5 0xFF write v
    | _ => s
  if a.t.hdr.length = 0 then s.acceptDone id a
  else if write then
    match s.vwrite w.ctx va a.t.data with
    | .ok s1 => s1.acceptDone id a
    | .wait v => stop (.wait v)
    | .bad e v => stop (.bad e v)
    | .hold => s
  else
    match s.vread w.ctx va a.t.hdr.length with
    | .ok (bs, s1) => s1.acceptDone id { a with got := bs }
    | .wait v => stop (.wait v)
    | .bad e v => stop (.bad e v)
    | .hold => s

/-- WINDOW_WRITE_COMPLETE (R410, R412): an accepted access is carried as far as it goes, and answered when it is whole. While the
mailbox of its context is full, one that would set a flag waits (R508). -/
def execWindowWriteComplete (id : Nat) (s : State) : Out :=
  .next (match mfind s.links.accepts id with
    | none => s
    | some a => match mfind s.links.windows a.win with
      | none => s
      | some w =>
        if s.mboxFull w.ctx then s
        else match (s.ctx w.ctx).locate w.lbuf (w.off + a.t.hdr.offset) with
          | some (.virt va) => s.virtAccess id w a va
          | some (.hawk _ _) => s.hawkAccess id (a.t.hdr.length / 2048 + 3)
          | none => s)

/-- SLOT_BUSY (R213): the visit that the access waits for cannot begin within 40 µs. -/
def execSlotBusy (id t : Nat) (s : State) : Out :=
  let s0 := s.at t
  .next (match mfind s0.links.accepts id with
    | none => s0
    | some a => match mfind s0.links.windows a.win with
      | none => s0
      | some w =>
        if w.tagMode ≠ 0 ∧ a.done < a.t.hdr.length ∧ a.since + 40000 ≤ t then
          match (s0.ctx w.ctx).locate w.lbuf (w.off + a.t.hdr.offset + a.done) with
          | some (.hawk n o) =>
            if ((s0.au n).tag (o / 2048)).canBegin (a.t.hdr.op == 1) then s0
            else
              let s1 := s0.flagCount (AU_HAWK_STATUS n) 2 (AU_HAWK_EVT_CNT n) 15 0
              if a.t.hdr.op = 1 then s1.settle id 4 0x42 (a.t.hdr.offset + a.done) []
              else s1.settle id 3 0x42 (a.t.hdr.offset + a.done) a.got
          | _ => s0
        else s0)

/-! ## At the origin (R415, R430 to R432) -/

/-- The transaction that an answer names, if the slot still holds its TSEQ (R432). -/
def State.txnOf (s : State) (h : Hdr) : Option (Nat × Txn) :=
  (mfind s.links.txns h.txn).bind fun x => if x.t.hdr.tseq = h.tseq then some (h.txn, x) else none

/-- HOLD_RECEIVE (R415): the first wait is 10 µs; each further HOLD of the transaction doubles it, up to 1 ms. -/
def execHoldReceive (n : Nat) (s : State) : Out :=
  .next (match s.takeInbox n [5] with
    | none => s
    | some (_, t, s1) => match s1.txnOf t.hdr with
      | none => s1
      | some (k, x) =>
        let w := if x.holdWait = 0 then 10000 else min 1000000 (2 * x.holdWait)
        { s1 with links := { s1.links with txns := mput s1.links.txns k { x with holdUntil := some (s1.now + w), holdWait := w } } })

/-- HOLD_RESEND (R415). -/
def execHoldResend (p : LinkId) (slot t : Nat) (s : State) : Out :=
  let s0 := s.at t
  let k := 4096 * p + slot
  .next (match mfind s0.links.txns k with
    | none => s0
    | some x => match x.holdUntil with
      | none => s0
      | some u =>
        if t < u then s0
        else
          let s1 := { s0 with links := { s0.links with txns := mput s0.links.txns k { x with holdUntil := none, sentAt := s0.now } } }
          if s1.isSelf x.dst then s1.deliver 16 x.t
          else match s1.route x.dst with
            | none => (s1.count LNK_EVT_CNT 7 0 1).finishTxn k 0x4A x.t.hdr.offset
            | some (_, dl) =>
              if (s1.lport p).state = .up then s1.enqueue p { x.t with vc := afterDateline dl x.t.vc } (some k)
              else s1.finishTxn k 0x45 x.t.hdr.offset)

/-- Bytes of a READ put where its user wants them (R421): in the LOCAL buffer of an entry, or with the image bytes fetched. -/
def State.putRead (s : State) (u : TxnUser) (off : Nat) (bs : List Byte) : VmRes State :=
  match u with
  | .entry c i =>
    match mfind (s.ctx c).linkWork i with
    | none => .ok s
    | some e =>
      let b := fieldLe e.bytes 16 8
      match (s.ctx c).locate (bits b 63 52) (bits b 51 0 + (off - fieldLe e.bytes 24 8)) with
      | some (.virt va) => s.vwrite c va bs
      | some (.hawk n o) => .ok (s.modAu n fun a => { a with hawk := wrBytes a.hawk o bs })
      | none => .ok s
  | .fetch c => .ok (s.modCtx c fun x => { x with dust := { x.dust with scratch := wrBytes x.dust.scratch off bs } })
  | _ => .ok s

/-- COMPLETE_RECEIVE (R432): COMPLETE or READ_DATA ends the transaction, or is stale. -/
def execCompleteReceive (n : Nat) (s : State) : Out :=
  .next (match s.takeInbox n [3, 4] with
    | none => s
    | some (_, t, s1) => match s1.txnOf t.hdr with
      | none => s1
      | some (k, x) =>
        let off := if t.hdr.status = 0x42 then t.hdr.offset else x.t.hdr.offset
        if t.hdr.op = 3 then
          match s1.putRead x.user x.t.hdr.offset t.data with
          | .ok s2 => s2.finishTxn k t.hdr.status off
          | .wait va => s.want ⟨x.ctx, va, 5, 0xFF, true⟩
          | .hold => s
          | .bad r va => s1.memFault x.ctx r 5 0xFF true va
        else s1.finishTxn k t.hdr.status off)

/-- ABORT_RECEIVE (R431, R432): no byte of the transaction is written after this. -/
def execAbortReceive (n : Nat) (s : State) : Out :=
  .next (match s.takeInbox n [7] with
    | none => s
    | some (_, t, s1) =>
      let s2 := s1.rememberTseq t.hdr.org t.hdr.tseq
      { s2 with links := { s2.links with
        accepts := s2.links.accepts.filter fun a => !(a.2.t.hdr.org == t.hdr.org && a.2.t.hdr.tseq == t.hdr.tseq) } })

/-- TRANSACTION_TIMEOUT (R430, R440). -/
def execTransactionTimeout (p : LinkId) (slot t : Nat) (s : State) : Out :=
  let s0 := s.at t
  let k := 4096 * p + slot
  .next (match mfind s0.links.txns k with
    | none => s0
    | some x =>
      if x.holdUntil.isNone ∧ x.sentAt + 1000 * s0.fld LNK_TIMEOUT 15 0 ≤ t then
        let s1 := ((s0.abortTxn k).flagCount LNK_STATUS 0 LNK_EVT_CNT 31 16).total 6 1
        let ms := s1.now / 1000000 + 1
        let s2 :=
          if mget 0 s1.links.toAt x.ctx = ms then s1
          else { s1 with links := { s1.links with toAt := mput s1.links.toAt x.ctx ms } }.raise 0x0404 (.ctx x.ctx)
            [(0, 2, x.dst), (4, 4, x.t.hdr.tseq), (8, 4, x.t.hdr.handle)]
        s2.finishTxn k 0x44 x.t.hdr.offset
      else s0)

end Sys2Proof.Machine
end

