-- ==== Sys2Proof/Machine/Coll.lean ====
section
/-!
DEFINITION. Link work entries (R416 to R421) and collectives (R422 to R429).
-/
namespace Sys2Proof.Machine

/-! ## An entry's fields (Table 10.10) -/

def LinkEntry.fmt (e : LinkEntry) : Nat := bits (byteAt e.bytes 5) 3 0
def LinkEntry.sfmt (e : LinkEntry) : Nat := bits (byteAt e.bytes 5) 7 4
def LinkEntry.land32 (e : LinkEntry) : Bool := bit (byteAt e.bytes 6) 0
def LinkEntry.redMax (e : LinkEntry) : Bool := bit (byteAt e.bytes 6) 1
def LinkEntry.byMap (e : LinkEntry) : Bool := bit (byteAt e.bytes 6) 2
def LinkEntry.root (e : LinkEntry) : Nat := fieldLe e.bytes 10 2
def LinkEntry.handle (e : LinkEntry) : Nat := fieldLe e.bytes 12 4
def LinkEntry.local_ (e : LinkEntry) : Nat := fieldLe e.bytes 16 8
def LinkEntry.woff (e : LinkEntry) : Nat := fieldLe e.bytes 24 8
def LinkEntry.len (e : LinkEntry) : Nat := fieldLe e.bytes 32 8
def LinkEntry.chunk (e : LinkEntry) : Nat := fieldLe e.bytes 40 4
def LinkEntry.first (e : LinkEntry) : Nat := fieldLe e.bytes 44 4
def LinkEntry.tensor (e : LinkEntry) : Nat := fieldLe e.bytes 48 2
def LinkEntry.srcq (e : LinkEntry) : Option (Nat × Nat) :=
  if bit (byteAt e.bytes 50) 7 then some (byteAt e.bytes 51, byteAt e.bytes 50 % 32) else none
def LinkEntry.flagEn (e : LinkEntry) : Bool := bit (byteAt e.bytes 4) 0
def LinkEntry.fence (e : LinkEntry) : Bool := bit (byteAt e.bytes 4) 1

/-! ## The end of an entry (R418, R508) -/

/-- An entry ends, DONE (status 0) or FAILED: STATUS and FAIL_OFF, then STATE, then the flag. While the mailbox is full and it
names a flag, all of it is held. -/
def State.endEntry (s : State) (c i status failOff : Nat) (tell : Bool) : State :=
  match mfind (s.ctx c).linkWork i with
  | none => s
  | some e =>
    if e.flagEn ∧ s.mboxFull c then
      match e.result with
      | some _ => s
      | none => (s.modEntry c i fun e => { e with result := some (status, failOff) }).mboxFullEvent c
    else
      let s1 := if status = 0 then (s.writeEntry c i 0 failOff 3).modCtx c fun x => { x with linkWork := mdel x.linkWork i }
        else s.failEntry c i status failOff tell
      (if e.flagEn then s1.deliverFlag c (byteAt e.bytes 3) true else s1).progress c

/-! ## Bytes at a base -/

/-- n bytes at an offset of a base in Stencil BASE form, HAWK or VIRT. -/
def State.readAt (s : State) (c w off n : Nat) : VmRes (List Byte × State) :=
  match (s.ctx c).locate (bits w 63 52) (bits w 51 0 + off) with
  | some (.virt va) => s.vread c va n
  | some (.hawk a o) => .ok (rdBytes (s.au a).hawk o n, s)
  | none => .hold

/-- The link engine goes on with what it reads, waits for a page, or meets an address that does not translate. -/
def State.linkRead (s : State) (c w off n : Nat) (go : List Byte → State → State) : State :=
  match s.readAt c w off n with
  | .ok (bs, s1) => go bs s1
  | .wait va => s.want ⟨c, va, 7, 0xFF, false⟩
  | .bad r va => s.memFault c r 4 0xFF false va
  | .hold => s

/-- An end in a Hawk or a queue: such an entry waits while the context does not hold AUs (R509). -/
def Ctx.awayFor (x : Ctx) (e : LinkEntry) : Bool :=
  x.st.parks && (e.srcq.isSome || (match x.baseBuf e.local_ with | some (_, virt) => !virt | none => true))

/-! ## Chunks: sizes, decoding and encoding (R424) -/

/-- The tensor of a collective's chunks, with its position. -/
def Ctx.collTensor (x : Ctx) (e : LinkEntry) : Option (Nat × TensorRec) := (x.tensor e.tensor).map fun t => (e.tensor, t)

/-- Block size and direction of a collective's tile records: those of its tensor. -/
def Ctx.collBlock (x : Ctx) (e : LinkEntry) : Nat × Bool :=
  match x.tensor e.tensor with
  | some t => (bsOf (t.block % 4), bit t.block 2)
  | none => (16, false)

/-- Elements of a source chunk; 0 where CHUNK does not describe whole elements. -/
def Ctx.collElems (x : Ctx) (e : LinkEntry) : Nat :=
  let b := fmtBits e.sfmt
  if fmtIsMx e.sfmt then
    let per := (x.collBlock e).1 * b / 8 + 1
    if e.chunk % per = 0 then e.chunk / per * (x.collBlock e).1 else 0
  else if e.chunk * 8 % b = 0 then e.chunk * 8 / b else 0

/-- Bytes of n elements in a format: values, then scale bytes. -/
def chunkBytes (f bs n : Nat) : Nat := rowBytes f n + if fmtIsMx f then ceilDiv n bs else 0

/-- The block of element i of a tile record of 128 columns (R86), and its place in it. -/
def tileBlock (bs : Nat) (down : Bool) (i : Nat) : Nat × Nat :=
  let j := if down then 128 * (i % 128) + i / 128 else i
  (j / bs, j % bs)

/-- The values of a chunk. -/
def chunkVals (f bs : Nat) (down : Bool) (n : Nat) (d : List Byte) : List Num :=
  (List.range n).map fun i =>
    scaledVal f (unpackElem f d i) (if fmtIsMx f then byteAt d (rowBytes f n + (tileBlock bs down i).1) else 127)

/-- The bytes of a chunk's values as FP32. -/
def chunk32 (vs : List Num) : List Byte := packRow 0 (vs.map to32)

/-- encode of R424: FP32 exactly, BF16 rounded to nearest even, MX codes under the tensor's delayed scale. -/
def State.encChunk (s : State) (c : Nat) (e : LinkEntry) (chunk : Nat) (vs : List Num) : List Byte × State :=
  if fmtIsMx e.fmt then
    let x := s.ctx c
    let b := x.collBlock e
    let n := vs.length
    let nb := ceilDiv n b.1
    let first := (e.first + chunk) * nb
    let idx := fun (j : Nat) => (List.range b.1).filterMap fun i =>
      let p := j * b.1 + i
      if p < n then some (if b.2 then 128 * (p % 128) + p / 128 else p) else none
    let o : OutSpec := match x.collTensor e with
      | some (i, t) => { OutSpec.ofTensor i t t.layer with fmt := e.fmt }
      | none => ⟨e.fmt, 0, false, none, 0xFFFF⟩
    let p := s.encBlocks c o (fun k => Config.keyed 12 (first * b.1) k) ((List.range nb).map fun j =>
      (first + j, (idx j).map fun i => (vs[i]?).getD .nan, (idx j).map fun i => first * b.1 + i))
    let el := fun i =>
      let q := tileBlock b.1 b.2 i
      match p.1[q.1]? with
      | some r => (match r.elems[q.2]? with | some y => y.bits | none => 0)
      | none => 0
    (packRow e.fmt ((List.range n).map el) ++ p.1.map fun r => BitVec.ofNat 8 r.scale, p.2)
  else if e.fmt = 1 then (packRow 1 (vs.map fun v => (narrow 1 .rne v).bits), s)
  else (chunk32 vs, s)

/-! ## Owners and rings (R422, R423) -/

/-- Members of a collective's group. -/
def Group.n (g : Group) : Nat := g.members.length

/-- The owner's rank of chunk k. -/
def LinkEntry.owner (e : LinkEntry) (g : Group) (k : Nat) : Nat :=
  if e.op = 5 then e.root
  else if e.byMap then (g.owners[fieldLe e.bytes 56 4 + k]?).getD 0
  else k % max 1 g.n

/-- The part of a rank. -/
def Group.part (g : Group) (r : Nat) : Nat := (g.members[r]?).getD 0xFFFF

/-- Successor and predecessor of this member on the ring channel of chunk k, as parts. -/
def Group.ring (g : Group) (k : Nat) : Nat × Nat :=
  match g.rings[k % max 1 g.rings.length]? with
  | some (a, b, _) => (a, b)
  | none => (0xFFFF, 0xFFFF)

/-- Chunks below k that this member owns. -/
def LinkEntry.ownedBefore (e : LinkEntry) (g : Group) (k : Nat) : Nat :=
  ((List.range k).filter fun j => e.owner g j == g.rank).length

/-- A landed or gathered chunk travels on from this member: its successor is not the owner. -/
def LinkEntry.passes (e : LinkEntry) (g : Group) (k : Nat) : Bool := (g.ring k).1 != g.part (e.owner g k)

/-- Chunks that land here, and chunks that this member sends on. -/
def LinkEntry.landCount (e : LinkEntry) (g : Group) : Nat := if e.op = 2 then e.ownedBefore g e.len else e.len
def LinkEntry.sendCount (e : LinkEntry) (g : Group) : Nat :=
  let gathers := if g.n ≤ 1 then 0 else ((List.range e.len).filter fun k => e.passes g k).length
  (if e.op = 2 ∨ e.op = 4 then e.len - e.ownedBefore g e.len else 0) + (if e.op = 2 then 0 else gathers)

/-- ARGS of a COLL header: OP, FMT, MODE, phase, CHUNK, TENSOR, ROOT, the epoch request of STEP_END, LENGTH, and the first block of
the chunk or, for STEP_END, the bytes of the whole contribution. -/
def LinkEntry.args (e : LinkEntry) (phase req last : Nat) : List Byte :=
  layOut 32 [(0, 1, e.op), (1, 1, byteAt e.bytes 5), (2, 1, byteAt e.bytes 6), (3, 1, phase), (4, 4, e.chunk), (8, 2, e.tensor),
    (10, 2, e.root), (12, 1, req), (16, 8, e.len), (24, 8, last)]

/-- OP, FMT, MODE, CHUNK, LENGTH, TENSOR or ROOT differ (R422); the source format is each member's own. -/
def LinkEntry.mismatch (e : LinkEntry) (a : List Byte) : Bool :=
  byteAt a 0 != e.op || byteAt a 1 % 16 != e.fmt || byteAt a 2 != byteAt e.bytes 6 || fieldLe a 4 4 != e.chunk
    || fieldLe a 8 2 != e.tensor || fieldLe a 10 2 != e.root || fieldLe a 16 8 != e.len

/-! ## Landing and passing on -/

/-- The outcome of something that an entry does: done, not possible now, or the entry has failed with a status. -/
inductive CollRes where
  | ok (s : State)
  | later (s : State)
  | fail (status : Nat)
  deriving DecidableEq, Repr

/-- Bytes landed in this part's landing window (R410, R424). -/
def State.landAt (s : State) (c : Nat) (e : LinkEntry) (pos : Nat) (bs : List Byte) : CollRes :=
  let off := e.woff + pos * bs.length
  match s.winCheck e.handle s.partId off bs.length true with
  | .refuse st => .fail st
  | .hold _ => .later s
  | .accept i w =>
    if w.ctx ≠ c then .fail 0x43
    else match (s.ctx c).locate w.lbuf (w.off + off) with
      | some (.virt va) =>
        match s.vwrite c va bs with
        | .ok s1 => .ok (s1.winWritten i bs.length)
        | .wait v => .later (s.want ⟨c, v, 7, 0xFF, true⟩)
        | .hold => .later s
        | .bad _ _ => .fail 0x43
      | some (.hawk n o) =>
        if w.tagMode = 0 then .ok ((s.modAu n fun u => { u with hawk := wrBytes u.hawk o bs }).winWritten i bs.length)
        else .fail 0x43
      | none => .later s

/-- A chunk waits to be sent to the successor. -/
def State.outbox (s : State) (c i phase k : Nat) (bs : List Byte) : State :=
  s.modEntry c i fun e => { e with outbox := e.outbox ++ [(phase, k, bs)] }

/-- A chunk lands here; k-th in the order of landing. -/
def State.landChunk (s : State) (c i : Nat) (e : LinkEntry) (k pos : Nat) (bs : List Byte) : CollRes :=
  match s.landAt c e pos bs with
  | .ok s1 => .ok (s1.modEntry c i fun y => { y with landed := y.landed ++ [k], since := s.now })
  | r => r

/-- A reduced chunk is at its owner, or an owner's own chunk is ready to be gathered: it lands, and an ALL_GATHER, ALL_REDUCE or
BROADCAST sends it around (R424, R425). -/
def State.ownerLands (s : State) (c i : Nat) (e : LinkEntry) (g : Group) (k : Nat) (vs : List Num) : CollRes :=
  let p := if e.land32 then (chunk32 vs, s) else s.encChunk c e k vs
  match p.2.landChunk c i e k (if e.op = 2 then e.ownedBefore g k else k) p.1 with
  | .ok s1 => .ok (if e.op ≠ 2 ∧ e.passes g k then s1.outbox c i 1 k p.1 else s1)
  | r => r

/-- This member's own chunk joins a partial, or starts the chunk (R424). -/
def State.reduceWith (s : State) (c i : Nat) (e : LinkEntry) (g : Group) (k : Nat) (own : List Byte) (part : Option (List Byte)) :
    CollRes :=
  let x := s.ctx c
  let b := x.collBlock e
  let n := x.collElems e
  let mine := chunkVals e.sfmt b.1 b.2 n own
  let sum := match part with
    | none => mine
    | some p => ((chunkVals e.fmt b.1 b.2 n p).zip mine).map fun v => if e.redMax then numMax v.1 v.2 else add32 v.1 v.2
  if e.owner g k = g.rank then s.ownerLands c i e g k sum
  else
    let q := s.encChunk c e k sum
    .ok (q.2.outbox c i 0 k q.1)

/-- The 2 KiB segments that an entry keeps waiting on this part (R426). -/
def LinkEntry.staged (e : LinkEntry) : Nat :=
  e.waiting.foldl (fun n w => n + ceilDiv w.2.length 2048) 0 + e.outbox.foldl (fun n w => n + ceilDiv w.2.2.length 2048) 0

/-- Segments of own chunks that are ahead of their partials. -/
def LinkEntry.ahead (e : LinkEntry) : Nat := e.own.foldl (fun n w => n + ceilDiv w.2.length 2048) 0

/-- An entry's source supplies chunk k: number j of those that it supplies (R423). -/
def LinkEntry.srcPos (e : LinkEntry) (g : Group) (k : Nat) : Nat := if e.op = 3 then e.ownedBefore g k else k

/-! ## STEP_END (R429) -/

/-- The tensor behind scale-table entry k. -/
def Ctx.scaled (x : Ctx) (k : Nat) : Option TensorRec :=
  match x.prog with
  | some p => (p.tensors.filter TensorRec.delayed)[k]?
  | none => none

/-- The block bits set in the current overflow map of scale-table entry k. -/
def State.setBits (s : State) (c k : Nat) : List Nat :=
  match (s.ctx c).scaled k with
  | none => []
  | some t =>
    let m := s.vpeek c (fieldLe (s.vpeek c (s.scaleVa c k) 32) 24 8 + t.mapBytes) t.mapBytes
    (List.range t.blocks).filter fun b => bit (byteAt m (b / 8)) (b % 8)

/-- Where the blocks of each scale-table entry begin in the numbering of an exchange. -/
def Ctx.bitBase (x : Ctx) (first : Nat) : Nat → Nat
  | 0 => 0
  | n + 1 => x.bitBase first n + (match x.scaled (first + n) with | some t => t.blocks | none => 0)

/-- This member's contribution: for each tensor 2 bytes, the code of its step amax and whether its history is missing, then 4 bytes
for each overflow bit that is set. -/
def State.contribution (s : State) (c : Nat) (e : LinkEntry) : List Byte :=
  let x := s.ctx c
  let ks := List.range e.len
  (ks.map fun j =>
    let k := e.first + j
    let hist := (s.vpeek c (s.scaleVa c k) 16).all (· == 0xFF)
    natLe 1 (histEntry (mget (.fin false 0 0) x.num.amax k)) ++ natLe 1 (b2n hist)).flatten
    ++ (ks.map fun j => ((s.setBits c (e.first + j)).map fun b => natLe 4 (x.bitBase e.first j + b)).flatten).flatten

/-- The integer square root, from bit i − 1 down: r is the part found. -/
def isqrtGo (n : Nat) : Nat → Nat → Nat
  | 0, r => r
  | i + 1, r => isqrtGo n i (if (r + 2 ^ i) * (r + 2 ^ i) ≤ n then r + 2 ^ i else r)
/-- ⌊√n⌋ for n below 2⁸⁰. -/
def isqrt (n : Nat) : Nat := isqrtGo n 40 0

/-- LOSS_BOUND. -/
def State.lossBound (s : State) (c : Nat) : Nat := s.fld (DST_CTL c) 31 16

/-- The interval I (R550). -/
def State.interval (s : State) (c : Nat) : Nat :=
  min (s.lossBound c) (max 1 (isqrt (s.reg (DST_COST c) * s.reg (DST_MTBF c) / 32768)))

/-- A member requests an epoch at the boundary that opens step b (R532, R543). -/
def State.wantsEpoch (s : State) (c b : Nat) : Bool :=
  let d := (s.ctx c).dust
  s.rbit (DST_CTL c) 0 &&
    ((d.eLast.isNone && d.securing.isNone) || d.wantNow || d.adoptedSince || d.failedLast
      || (match d.pLast with | some p => decide (s.interval c ≤ b - p) | none => false)
      || (match d.eLast with | some p => decide (s.lossBound c ≤ b - p) | none => false))

/-- The pieces of a contribution, numbered rank + 4096 · piece. -/
def cutPieces (rank : Nat) (bs : List Byte) : List (Nat × List Byte) :=
  if bs.isEmpty then [(rank, [])]
  else (List.range (ceilDiv bs.length 65536)).map fun j => (rank + 4096 * j, (bs.drop (65536 * j)).take 65536)

/-- A STEP_END begins: this member's contribution is taken and sent around ring channel 0. -/
def State.startStepEnd (s : State) (c i : Nat) (e : LinkEntry) (g : Group) : State :=
  let bs := s.contribution c e
  let req := s.wantsEpoch c (s.reg64 (TRW_STEP_LO c) (TRW_STEP_HI c) + 1)
  let ps := cutPieces g.rank bs
  s.modEntry c i fun y =>
    { y with
      waiting := ps.foldl (fun m p => mput m p.1 p.2) y.waiting
      own := mput y.own g.rank (natLe 8 bs.length ++ natLe 1 (b2n req))
      outbox := if g.n ≤ 1 then [] else ps.map fun p => (2, p.1, p.2)
      issued := e.len }

/-- The whole contribution of a rank, if all of it is here. -/
def LinkEntry.contribOf (e : LinkEntry) (r : Nat) : Option (List Byte) :=
  match mfind e.own r with
  | none => none
  | some h =>
    let n := fieldLe h 0 8
    let bs := ((List.range (max 1 (ceilDiv n 65536))).map fun j => (mfind e.waiting (r + 4096 * j)).getD []).flatten
    if bs.length = n ∧ (mfind e.waiting r).isSome then some bs else none

/-- Every member's contribution, in rank order. -/
def LinkEntry.contribs (e : LinkEntry) : List Nat → Option (List (List Byte))
  | [] => some []
  | r :: rs => match e.contribOf r, e.contribs rs with
    | some b, some bs => some (b :: bs)
    | _, _ => none

/-- The merged result for tensor j of an exchange: the largest amax code, whether a member but not every member lacks the history,
and the OR of the maps. -/
def State.applyMerged (s : State) (c : Nat) (e : LinkEntry) (cs : List (List Byte)) (j : Nat) : State :=
  let k := e.first + j
  let x := s.ctx c
  let code := cs.foldl (fun m b => max m (byteAt b (2 * j))) 0
  let miss := cs.filter fun b => byteAt b (2 * j + 1) != 0
  let lo := x.bitBase e.first j
  let nb := match x.scaled k with | some t => t.blocks | none => 0
  let set := cs.flatMap fun b => (chunks 4 (b.drop (2 * e.len))).filterMap fun w =>
    let v := leNat w
    if lo ≤ v ∧ v < lo + nb then some (v - lo) else none
  let mb := match x.scaled k with | some t => t.mapBytes | none => 0
  let va := fieldLe (s.vpeek c (s.scaleVa c k) 32) 24 8 + mb
  let s1 := set.foldl (fun t b =>
    if t.mapBit c va b then t else t.vpoke c (va + b / 8) (natLe 1 (byteAt (t.vpeek c (va + b / 8) 1) 0 + 2 ^ (b % 8)))) s
  s1.modCtx c fun y =>
    { y with num := { y.num with
      amax := if code = 0 then y.num.amax else mput y.num.amax k (.fin false 1 ((code : Int) - 127))
      rewarm := if !miss.isEmpty && decide (miss.length < cs.length) then k :: y.num.rewarm.filter (· != k) else y.num.rewarm } }

/-- STEP_END_EXCHANGE (R429): every member has contributed; the results are applied in the same action as the completion. -/
def execStepEndExchange (c : CtxId) (s : State) : Out :=
  .next (match (s.ctx c).linkWork.find? fun e => e.2.op == 6 && e.2.result.isNone && e.2.fail.isNone with
    | none => s
    | some (i, e) => match mfind (s.ctx c).colls e.group with
      | none => s
      | some g =>
        if e.out ≠ 0 ∨ e.outbox ≠ [] then s
        else match e.contribs (List.range g.n) with
          | none => s
          | some cs =>
            let s1 := (List.range e.len).foldl (fun t j => t.applyMerged c e cs j) s
            let req := (List.range g.n).any fun r => match mfind e.own r with | some h => byteAt h 8 != 0 | none => false
            (s1.modCtx c fun x => { x with dust := { x.dust with
              groupReq := if g.securing then req else x.dust.groupReq
              stepEnds := e.group :: x.dust.stepEnds.filter (· != e.group) } }).endEntry c i 0 0 false)

/-! ## The progress of a collective -/

/-- The next chunk of the outbox is offered to the successor (R423). -/
def State.flushOne (s : State) (c i : Nat) (e : LinkEntry) (g : Group) : State :=
  match e.outbox with
  | [] => s
  | (phase, k, bs) :: rest =>
    let rank := k % 4096
    let head := (mfind e.own rank).getD []
    let last := if phase = 2 then fieldLe head 0 8 else (e.first + k) * ceilDiv ((s.ctx c).collElems e) ((s.ctx c).collBlock e).1
    let a := e.args phase (if phase = 2 then byteAt head 8 else 0) last
    match s.sendTxn (.coll c i) c 6 (g.ring (if phase = 2 then 0 else k)).1 (2 ^ 24 * e.group + e.collSeq % 2 ^ 24) k bs.length bs a 5
        (0, 0) with
    | .sent s1 => s1.modEntry c i fun y => { y with outbox := rest, sentC := y.sentC + 1, out := y.out + 1 }
    | .wait => s
    | .fail st s1 => s1.modEntry c i fun y => { y with fail := lowerFail y.fail k st }

/-- What comes of a step of a collective. -/
def State.collDo (s : State) (c i k : Nat) (r : CollRes) (next : State → State) : State :=
  match r with
  | .ok s1 => next s1
  | .later s1 => s1
  | .fail st => s.modEntry c i fun y => { y with fail := lowerFail y.fail k st }

/-- This member's chunk k has been supplied by its source: it starts the chunk, joins a partial that waits, waits itself, or goes
around. -/
def State.supplied (s : State) (c i : Nat) (e : LinkEntry) (g : Group) (k : Nat) (own : List Byte) : CollRes :=
  let x := s.ctx c
  let b := x.collBlock e
  if e.op = 3 ∨ e.op = 5 then s.ownerLands c i e g k (chunkVals e.sfmt b.1 b.2 (x.collElems e) own)
  else if (g.ring k).2 = g.part (e.owner g k) ∨ g.n ≤ 1 then s.reduceWith c i e g k own none
  else match mfind e.waiting k with
    | some p => (s.modEntry c i fun y => { y with waiting := mdel y.waiting k }).reduceWith c i e g k own (some p)
    | none => if e.srcq.isSome then .ok (s.modEntry c i fun y => { y with own := mput y.own k own }) else .ok s

/-- The source of the entry supplies chunk k of this member. -/
def LinkEntry.supplies (e : LinkEntry) (g : Group) (k : Nat) : Bool :=
  match e.op with
  | 3 => e.owner g k == g.rank
  | 5 => e.root == g.rank
  | _ => true

/-- The next chunk of an entry's source (R423, R426). -/
def State.collSupply (s : State) (c i : Nat) (e : LinkEntry) (g : Group) : State :=
  let k := e.issued
  let adv := fun (n : Nat) (t : State) => (t.modEntry c i fun y => { y with issued := k + 1, popped := y.popped + n, since := s.now }).progress c
  if !e.supplies g k then adv 0 s
  else if (s.ctx c).awayFor e ∨ 64 ≤ e.ahead ∨ 64 ≤ e.staged then s
  else match e.srcq with
    | some (l, q) =>
      match (s.ctx c).auOf l with
      | none => s
      | some n =>
        let nv := if fmtIsMx e.sfmt then rowBytes e.sfmt ((s.ctx c).collElems e) else e.chunk
        match (s.au n).popRec q nv (e.chunk - nv) with
        | none => s
        | some (vs, ss, a) => s.collDo c i k ((s.putAu n a).supplied c i e g k (vs ++ ss)) (adv e.chunk)
    | none =>
      if e.op = 3 ∨ e.op = 5 ∨ (g.ring k).2 = g.part (e.owner g k) ∨ g.n ≤ 1 then
        s.linkRead c e.local_ (e.srcPos g k * e.chunk) e.chunk fun bs s1 => s1.collDo c i k (s1.supplied c i e g k bs) (adv 0)
      else adv 0 s

/-- A collective under way goes on: a chunk sent, or the next chunk of its source. -/
def State.collGo (s : State) (c i : Nat) (e : LinkEntry) : State :=
  match mfind (s.ctx c).colls e.group with
  | none => s
  | some g =>
    if e.fail.isSome ∨ e.result.isSome then s
    else if e.outbox ≠ [] then s.flushOne c i e g
    else if e.op ≠ 6 ∧ e.issued < e.len then s.collSupply c i e g
    else s

/-- A collective is done at this member (R427). -/
def LinkEntry.collDone (e : LinkEntry) (g : Group) : Bool :=
  e.op != 6 && e.issued == e.len && e.landed.length == e.landCount g && e.sentC == e.sendCount g && e.out == 0 && e.outbox.isEmpty

/-! ## Arrivals of collectives -/

/-- The context of this part that has a group installed. -/
def State.groupCtx (s : State) (g : Nat) : Option Nat := (List.range 64).find? fun c => (mfind (s.ctx c).colls g).isSome

/-- A chunk taken by its entry (R424 to R426). -/
def State.takeChunk (s : State) (c i : Nat) (e : LinkEntry) (g : Group) (phase k : Nat) (t : LTxn) : CollRes :=
  if phase = 2 then
    let r := k % 4096
    .ok (s.modEntry c i fun y =>
      { y with
        waiting := mput y.waiting k t.data
        own := mput y.own r (natLe 8 (fieldLe t.hdr.args 24 8) ++ natLe 1 (byteAt t.hdr.args 12))
        outbox := if (g.ring 0).1 = g.part r then y.outbox else y.outbox ++ [(2, k, t.data)], since := s.now })
  else if phase = 1 then
    match s.landChunk c i e k k t.data with
    | .ok s1 => .ok (if e.passes g k then s1.outbox c i 1 k t.data else s1)
    | r => r
  else if e.srcq.isSome then
    match mfind e.own k with
    | some own => (s.modEntry c i fun y => { y with own := mdel y.own k, since := s.now }).reduceWith c i e g k own (some t.data)
    | none => .ok (s.modEntry c i fun y => { y with waiting := mput y.waiting k t.data, since := s.now })
  else
    match s.readAt c e.local_ (k * e.chunk) e.chunk with
    | .ok (own, s1) => (s1.modEntry c i fun y => { y with since := s.now }).reduceWith c i e g k own (some t.data)
    | .wait va => .later (s.want ⟨c, va, 7, 0xFF, false⟩)
    | .bad _ _ => .fail 0x43
    | .hold => .later s

/-- COLL_CHUNK_RECEIVE (R422, R424 to R426): a chunk or partial for an entry that has started is taken; one for which there is no
room, or whose entry has not been posted, is held. -/
def execCollChunkReceive (n : Nat) (s : State) : Out :=
  .next (match s.takeInbox n [6] with
    | none => s
    | some (_, t, s1) =>
      if !s.isSelf t.hdr.dst then s
      else if s1.seenTseq t.hdr.org t.hdr.tseq ∨ s1.links.fenced.contains t.hdr.org then s1
      else
        let gi := t.hdr.handle / 2 ^ 24
        let done := fun (u : State) (st : Nat) => (u.rememberTseq t.hdr.org t.hdr.tseq).answer_ t 4 st t.hdr.offset []
        match s1.groupCtx gi with
        | none => done s1 0x43
        | some c => match mfind (s1.ctx c).colls gi with
          | none => done s1 0x43
          | some g =>
            let hold := fun (u : State) => u.answer_ t 5 0x4B t.hdr.offset []
            if !g.members.contains t.hdr.org then done s1 0x43
            else match (s1.ctx c).linkWork.find? fun e => e.2.isColl && e.2.group == gi && e.2.collSeq % 2 ^ 24 == t.hdr.handle % 2 ^ 24 with
              | none => hold s1
              | some (i, e) =>
                if e.mismatch t.hdr.args then
                  (done s1 0x47).modEntry c i fun y => { y with fail := lowerFail y.fail t.hdr.offset 0x47 }
                else if s1.mboxFull c then (hold s1).mboxFullEvent c
                else if (s1.ctx c).st = .restoring ∨ (s1.ctx c).awayFor e ∨ 64 < e.staged + ceilDiv t.data.length 2048 then hold s1
                else match s1.takeChunk c i e g (byteAt t.hdr.args 3) t.hdr.offset t with
                  | .ok s2 => (done s2 0x00).progress c
                  | .later s2 => hold s2
                  | .fail st => (done s1 st).modEntry c i fun y => { y with fail := lowerFail y.fail t.hdr.offset st })

/-- COLL_ABORT_RECEIVE (R427): the matching entry fails with the first member's status; one not yet posted will. -/
def execCollAbortReceive (n : Nat) (s : State) : Out :=
  .next (match s.takeInbox n [8] with
    | none => s
    | some (_, t, s1) =>
      let gi := t.hdr.handle / 2 ^ 24
      let q := t.hdr.handle % 2 ^ 24
      match s1.groupCtx gi with
      | none => s1
      | some c => match (s1.ctx c).linkWork.find? fun e => e.2.isColl && e.2.group == gi && e.2.collSeq % 2 ^ 24 == q with
        | some (i, _) => s1.endEntry c i t.hdr.status 0 false
        | none => s1.modCtx c fun x => match mfind x.colls gi with
          | some g => { x with colls := mput x.colls gi { g with aborted := (q, t.hdr.status) :: g.aborted } }
          | none => x)

/-- COLL_TIMEOUT (R427): the entry has waited COLL_WAIT milliseconds on a member. -/
def execCollTimeout (c : CtxId) (i t : Nat) (s : State) : Out :=
  let s0 := s.at t
  .next (match mfind (s0.ctx c).linkWork i with
    | none => s0
    | some e =>
      if e.isColl ∧ e.result.isNone ∧ e.since + 1000000 * s0.fld LNK_TIMEOUT 31 16 ≤ t then s0.endEntry c i 0x48 0 true else s0)

/-! ## Link work entries (R416 to R421) -/

/-- An entry holds a reserved value or names a range outside its buffer (R419, R420, R424, R429). -/
def State.entryBad (s : State) (c : Nat) (e : LinkEntry) : Bool :=
  let x := s.ctx c
  let b := e.bytes
  let q := byteAt b 50 % 32
  let span := if e.op < 2 then e.len else if e.op = 6 then 0 else if e.op = 3 then 0 else e.len * e.chunk
  bits (byteAt b 0) 7 4 != 0 || decide (6 < e.op) || bits (byteAt b 4) 7 2 != 0 || bits (byteAt b 6) 7 3 != 0 || byteAt b 7 != 0
    || (e.op != 5 && e.root != 0) || bits (byteAt b 50) 6 5 != 0 || !zeroIn b 60 64 || e.len == 0
    || (e.srcq.isSome && (e.op == 1 || e.op == 6 || !((decide (12 ≤ q) && decide (q ≤ 15)) || q == 18 || q == 19 || q == 21)))
    || (e.srcq.isNone && (match x.baseBuf e.local_ with
      | some (size, _) => e.op != 6 && decide (size < bits e.local_ 51 0 + span)
      | none => e.op != 6))
    || (decide (e.op < 2) && decide (2 ^ 40 < e.len))
    || (e.isColl && (mfind x.colls e.group).isNone)
    || (e.isColl && e.op != 6 && (decide (2 ^ 32 < e.len) || !(decide (e.fmt ≤ 1) || fmtIsMx e.fmt) || e.sfmt == 0xF
      || x.collElems e == 0 || decide (65536 < chunkBytes e.fmt (x.collBlock e).1 (x.collElems e))
      || ((fmtIsMx e.fmt || fmtIsMx e.sfmt) && (x.tensor e.tensor).isNone)))
    || (e.op == 5 && (match mfind x.colls e.group with | some g => decide (g.n ≤ e.root) | none => true))
    || (e.op == 6 && !((List.range e.len).all fun j => match x.scaled (e.first + j) with | some t => bit t.kind 0 | none => false))

/-- LINK_WORK_POST (R417, R419): the program's store into STATE of entry i reaches the hub cache. -/
def execLinkWorkPost (c : CtxId) (i : Nat) (s : State) : Out :=
  .next (match s.workVa c i with
    | none => s
    | some va =>
      if s.workSize c ≤ i then s
      else s.hubNeeds c [(va, 64)] true fun s0 =>
        let st := byteAt (s0.vpeek c va 1) 0 % 16
        let x := s0.ctx c
        let started := (mfind x.linkWork i).isSome
        let posted := x.posted.contains i
        if 5 ≤ st ∨ (st = 1 ∧ (started ∨ posted)) then
          let old := if started then 2 else if posted then 1 else 0
          ((s0.vpoke c va (natLe 1 old)).setFld LNK_STATUS 3 3 1).raise 0x0407 (.ctx c) [(0, 2, i), (2, 1, st)]
        else if st = 1 then s0.modCtx c fun y => { y with posted := y.posted ++ [i] }
        else s0)

/-- A POSTED entry starts (R417). -/
def State.startEntry (s : State) (c i va : Nat) : State :=
  let raw := s.vpeek c va 64
  let x0 := s.ctx c
  let e0 : LinkEntry :=
    { bytes := raw, issued := 0, out := 0, popped := 0, outbox := [], fail := none, collSeq := 0, landed := [], sentC := 0, own := [],
      waiting := [], since := s.now, result := none }
  let busy : Bool := match e0.srcq with
    | some (l, q) => (match x0.auOf l with | some n => !(s.au n).unbound q | none => true) || x0.linkBound l q
    | none => false
  if (e0.fence && !x0.linkWork.isEmpty) || decide (256 ≤ x0.linkWork.length) || busy then s
  else
    let g? := if e0.isColl then mfind x0.colls e0.group else none
    let e := match g? with | some g => { e0 with collSeq := g.nextColl } | none => e0
    let s1 := (s.vpoke c va (natLe 1 2)).modCtx c fun x =>
      { x with
        posted := x.posted.filter (· != i), linkWork := mput x.linkWork i e
        colls := match g? with | some g => mput x.colls e.group { g with nextColl := g.nextColl + 1 } | none => x.colls }
    let s2 := (s1.setFld (LNK_WR_CTL c) 11 0 ((i + 1) % s.workSize c)).progress c
    if s2.entryBad c e then s2.endEntry c i 0x02 0 true
    else match g? with
      | none => s2
      | some g => match g.aborted.find? fun a => a.1 == e.collSeq % 2 ^ 24 with
        | some (_, st) => s2.endEntry c i st 0 false
        | none => if e.op = 6 then s2.startStepEnd c i e g else s2

/-- Free shared staging buffers for n segments of a READ at this part (R421). -/
def State.readRoom (s : State) (d n : Nat) : Bool := decide (s.sharedUsed d + n ≤ 6656)

/-- The die whose staging buffers a READ's data takes (Table 9.5). -/
def State.segDieAt (s : State) (c w off : Nat) : Nat :=
  match (s.ctx c).locate (bits w 63 52) (bits w 51 0 + off) with
  | some (.hawk n _) => auDie n
  | some (.virt va) => match (s.ctx c).translate va false with | .ok (_, _, d) => d / 2 ^ 36 / 6 | _ => 0
  | none => 0

/-- The next transaction of a WRITE or a READ (R421). -/
def State.entryGo (s : State) (c i : Nat) (e : LinkEntry) : State :=
  if e.fail.isSome ∨ e.result.isSome ∨ e.len ≤ e.issued ∨ (s.ctx c).awayFor e then s
  else
    let woff := e.woff + e.issued
    let n := min (e.len - e.issued) (65536 - woff % 65536)
    let done := fun (m popped : Nat) (t : State) =>
      (t.modEntry c i fun y => { y with issued := y.issued + m, out := y.out + 1, popped := y.popped + popped }).progress c
    let send := fun (bs : List Byte) (m popped : Nat) (bufs : Nat × Nat) (t : State) =>
      match t.sendTxn (.entry c i) c (if e.op = 0 then 1 else 2) e.group e.handle woff m bs [] 1 bufs with
      | .sent t1 => done m popped { t1 with mem := { t1.mem with
          sharedUsed := mset 0 t1.mem.sharedUsed bufs.1 (t1.sharedUsed bufs.1 + bufs.2) } }
      | .wait => s
      | .fail st t1 => t1.modEntry c i fun y => { y with fail := lowerFail y.fail woff st }
    if e.op = 1 then
      let d := s.segDieAt c e.local_ e.issued
      let b := ceilDiv n 2048
      if s.readRoom d b then send [] n 0 (d, b) s else s
    else match e.srcq with
      | some (l, q) =>
        match (s.ctx c).auOf l with
        | none => s
        | some a =>
          let m := min n ((s.au a).queue q).level
          match (if m = 0 then none else (s.au a).pop q m) with
          | none => s
          | some (bs, u) => send bs m m (0, 0) (s.putAu a u)
      | none => s.linkRead c e.local_ e.issued n fun bs s1 => send bs n 0 (0, 0) s1
/-- LINK_WORK_START (R417, R421): the entry at HEAD starts, or an entry that has started goes on; one that has FAILED before it
started (R428) is passed. -/
def execLinkWorkStart (c : CtxId) (i : Nat) (s : State) : Out :=
  .next (match mfind (s.ctx c).linkWork i with
    | some e => if e.isColl then s.collGo c i e else s.entryGo c i e
    | none =>
      match s.workVa c i with
      | none => s
      | some va =>
        let x := s.ctx c
        if (x.st = .running ∨ x.st = .ready) ∧ x.posted.contains i ∧ s.fld (LNK_WR_CTL c) 11 0 % s.workSize c = i then
          s.hubNeeds c [(va, 64)] true fun s0 =>
            if byteAt (s0.vpeek c va 1) 0 % 16 = 4 then
              (s0.modCtx c fun x => { x with posted := x.posted.filter (· != i) }).setFld (LNK_WR_CTL c) 11 0 ((i + 1) % s0.workSize c)
            else s0.startEntry c i va
        else s)

/-- LINK_WORK_COMPLETE (R418, R421, R427). -/
def execLinkWorkComplete (c : CtxId) (i : Nat) (s : State) : Out :=
  .next (match mfind (s.ctx c).linkWork i with
    | none => s
    | some e =>
      match e.result, e.fail with
      | some (st, off), _ => s.endEntry c i st off (e.isColl && st != 0)
      | none, some (off, st) => if e.isColl ∨ e.out = 0 then s.endEntry c i st off true else s
      | none, none =>
        if e.isColl then
          match mfind (s.ctx c).colls e.group with
          | some g => if e.collDone g then s.endEntry c i 0 0 false else s
          | none => s
        else if e.issued = e.len ∧ e.out = 0 then s.endEntry c i 0 0 false
        else s)

end Sys2Proof.Machine
end

