-- ==== Sys2Proof/Machine/Rv.lean ====
section
/-!
DEFINITION. The instructions of a control core (R125): RV64IMAC, the CSR accesses of Table 4.11 and the Xdxs encodings of
Table 4.10, decoded; and the arithmetic of the integer instructions. The RISC-V encodings and results are those of the
RISC-V unprivileged specification, which R125 names.
-/
namespace Sys2Proof.Machine

/-- Integer operations. The W forms work on the low 32 bits and sign-extend. -/
inductive Alu where
  | add | sub | sll | slt | sltu | xor | srl | sra | or | and
  | addw | subw | sllw | srlw | sraw
  | mul | mulh | mulhsu | mulhu | div | divu | rem | remu
  | mulw | divw | divuw | remw | remuw
  deriving DecidableEq, Repr

/-- Conditions of branches. -/
inductive Cond where
  | eq | ne | lt | ge | ltu | geu
  deriving DecidableEq, Repr

/-- Atomic memory operations. -/
inductive AmoOp where
  | swap | add | xor | and | or | min | max | minu | maxu
  deriving DecidableEq, Repr

/-- The Xdxs instructions (Table 4.10). A flag is an immediate, or register rs1 with REG set. -/
inductive FlagArg where
  | imm (f : Nat)
  | reg (rs1 : Nat)
  deriving DecidableEq, Repr

inductive Dx where
  | issue (eng rs1 rd : Nat)
  | tryissue (eng rs1 rd : Nat)
  | stnLd (st rs1 : Nat)
  | stnGo (st : Nat)
  | stnPos (st rd : Nat)
  | stnWait (st : Nat)
  | stnStat (st rd : Nat)
  | fset (f : FlagArg)
  | fclr (f : FlagArg)
  | fwait (f : FlagArg)
  | fwaitc (f : FlagArg)
  | fwaitx (f : FlagArg)
  | ftest (f : FlagArg) (rd : Nat)
  | qlvl (q rd : Nat)
  | flvl (eng rd : Nat)
  | fpace (eng rs1 : Nat)
  | qpace (q rs1 : Nat)
  | loop (level len : Nat)
  | brk (level : Nat)
  | where_ (rs1 rd : Nat)
  | semAcq (rs1 : Nat)
  | semRel (rs1 : Nat)
  deriving DecidableEq, Repr

/-- A decoded instruction. Offsets and immediates are sign-extended. -/
inductive Rv where
  | lui (rd : Nat) (imm : BitVec 64)
  | auipc (rd : Nat) (imm : BitVec 64)
  | jal (rd : Nat) (off : BitVec 64)
  | jalr (rd rs1 : Nat) (off : BitVec 64)
  | branch (c : Cond) (rs1 rs2 : Nat) (off : BitVec 64)
  | load (bytes : Nat) (signed : Bool) (rd rs1 : Nat) (off : BitVec 64)
  | store (bytes : Nat) (rs1 rs2 : Nat) (off : BitVec 64)
  | alui (op : Alu) (rd rs1 : Nat) (imm : BitVec 64)
  | alu (op : Alu) (rd rs1 rs2 : Nat)
  | fence
  | ecall
  | ebreak
  | csr (op : Nat) (useImm : Bool) (rd rs1 num : Nat)
  | lr (bytes rd rs1 : Nat)
  | sc (bytes rd rs1 rs2 : Nat)
  | amo (op : AmoOp) (bytes rd rs1 rs2 : Nat)
  | dx (i : Dx)
  | illegal
  deriving DecidableEq, Repr

/-! ## Immediates -/

/-- Bits [hi:lo] of an instruction, sign-extended from their top bit and shifted left by k. -/
def sx (w n : Nat) : BitVec 64 := BitVec.ofInt 64 (toInt n w)

def immI (w : Nat) : BitVec 64 := sx (bits w 31 20) 12
def immS (w : Nat) : BitVec 64 := sx (32 * bits w 31 25 + bits w 11 7) 12
def immB (w : Nat) : BitVec 64 :=
  sx (4096 * bits w 31 31 + 2048 * bits w 7 7 + 32 * bits w 30 25 + bits w 11 8 * 2) 13
def immU (w : Nat) : BitVec 64 := sx (4096 * bits w 31 12) 32
def immJ (w : Nat) : BitVec 64 :=
  sx (2 ^ 20 * bits w 31 31 + 4096 * bits w 19 12 + 2048 * bits w 20 20 + bits w 30 21 * 2) 21

/-! ## Xdxs (R161, R162) -/

/-- The flag argument of funct3 0b010: with REG 0 rs1 must be 0, with REG 1 imm[7:0] must be 0. -/
def flagArg (imm rs1 : Nat) : Option FlagArg :=
  if bit imm 8 then (if bits imm 7 0 = 0 then some (.reg rs1) else none)
  else if rs1 = 0 then some (.imm (bits imm 7 0)) else none

/-- A custom-0 instruction; none where R162 makes it illegal. -/
def decodeDx (w : Nat) : Option Dx :=
  let imm := bits w 31 20
  let rs1 := bits w 19 15
  let rd := bits w 11 7
  let sub := bits imm 11 8
  match bits w 14 12 with
  | 0 =>
    if bits imm 11 3 ≠ 0 then none
    else if bit imm 2 then some (.tryissue (bits imm 1 0) rs1 rd)
    else some (.issue (bits imm 1 0) rs1 rd)
  | 1 =>
    let st := bits imm 3 0
    if bits imm 7 4 ≠ 0 then none
    else match sub with
      | 0 => if rd = 0 then some (.stnLd st rs1) else none
      | 1 => if rd = 0 ∧ rs1 = 0 then some (.stnGo st) else none
      | 2 => if rs1 = 0 then some (.stnPos st rd) else none
      | 3 => if rd = 0 ∧ rs1 = 0 then some (.stnWait st) else none
      | 4 => if rs1 = 0 then some (.stnStat st rd) else none
      | _ => none
  | 2 =>
    match flagArg imm rs1 with
    | none => none
    | some f =>
      match bits imm 11 9 with
      | 0 => if rd = 0 then some (.fset f) else none
      | 1 => if rd = 0 then some (.fclr f) else none
      | 2 => if rd = 0 then some (.fwait f) else none
      | 3 => if rd = 0 then some (.fwaitc f) else none
      | 4 => if rd = 0 then some (.fwaitx f) else none
      | 5 => some (.ftest f rd)
      | _ => none
  | 3 =>
    match sub with
    | 0 => if bits imm 7 5 = 0 ∧ rs1 = 0 then some (.qlvl (bits imm 4 0) rd) else none
    | 1 => if bits imm 7 2 = 0 ∧ rs1 = 0 then some (.flvl (bits imm 1 0) rd) else none
    | 2 => if bits imm 7 2 = 0 ∧ rd = 0 then some (.fpace (bits imm 1 0) rs1) else none
    | 3 => if bits imm 7 5 = 0 ∧ rd = 0 then some (.qpace (bits imm 4 0) rs1) else none
    | _ => none
  | 4 =>
    if rs1 ≠ 0 ∨ rd ≠ 0 ∨ bits imm 11 10 = 3 then none
    else if bits imm 9 0 = 0 then some (.brk (bits imm 11 10)) else some (.loop (bits imm 11 10) (bits imm 9 0))
  | 5 =>
    if bits imm 7 0 ≠ 0 then none
    else match sub with
      | 0 => some (.where_ rs1 rd)
      | 1 => if rd = 0 then some (.semAcq rs1) else none
      | 2 => if rd = 0 then some (.semRel rs1) else none
      | _ => none
  | _ => none

/-! ## 32-bit instructions -/

/-- The register-register operations of OP. -/
def decodeOp (f7 f3 : Nat) : Option Alu :=
  match f7, f3 with
  | 0, 0 => some .add | 0x20, 0 => some .sub | 0, 1 => some .sll | 0, 2 => some .slt | 0, 3 => some .sltu
  | 0, 4 => some .xor | 0, 5 => some .srl | 0x20, 5 => some .sra | 0, 6 => some .or | 0, 7 => some .and
  | 1, 0 => some .mul | 1, 1 => some .mulh | 1, 2 => some .mulhsu | 1, 3 => some .mulhu
  | 1, 4 => some .div | 1, 5 => some .divu | 1, 6 => some .rem | 1, 7 => some .remu
  | _, _ => none

/-- The register-register operations of OP-32. -/
def decodeOpW (f7 f3 : Nat) : Option Alu :=
  match f7, f3 with
  | 0, 0 => some .addw | 0x20, 0 => some .subw | 0, 1 => some .sllw | 0, 5 => some .srlw | 0x20, 5 => some .sraw
  | 1, 0 => some .mulw | 1, 4 => some .divw | 1, 5 => some .divuw | 1, 6 => some .remw | 1, 7 => some .remuw
  | _, _ => none

/-- Conditions by funct3. -/
def decodeCond (f3 : Nat) : Option Cond :=
  match f3 with
  | 0 => some .eq | 1 => some .ne | 4 => some .lt | 5 => some .ge | 6 => some .ltu | 7 => some .geu | _ => none

/-- Atomic operations by funct5. -/
def decodeAmo (f5 : Nat) : Option AmoOp :=
  match f5 with
  | 0x00 => some .add | 0x01 => some .swap | 0x04 => some .xor | 0x08 => some .or | 0x0C => some .and
  | 0x10 => some .min | 0x14 => some .max | 0x18 => some .minu | 0x1C => some .maxu | _ => none

/-- A 32-bit instruction. -/
def decode32 (w : Nat) : Rv :=
  let rd := bits w 11 7
  let f3 := bits w 14 12
  let rs1 := bits w 19 15
  let rs2 := bits w 24 20
  let f7 := bits w 31 25
  let opt {α : Type} (o : Option α) (f : α → Rv) : Rv := match o with | some a => f a | none => .illegal
  match bits w 6 0 with
  | 0x37 => .lui rd (immU w)
  | 0x17 => .auipc rd (immU w)
  | 0x6F => .jal rd (immJ w)
  | 0x67 => if f3 = 0 then .jalr rd rs1 (immI w) else .illegal
  | 0x63 => opt (decodeCond f3) fun c => .branch c rs1 rs2 (immB w)
  | 0x03 =>
    if f3 < 4 then .load (2 ^ f3) true rd rs1 (immI w)
    else if f3 < 7 then .load (2 ^ (f3 - 4)) false rd rs1 (immI w) else .illegal
  | 0x23 => if f3 < 4 then .store (2 ^ f3) rs1 rs2 (immS w) else .illegal
  | 0x13 =>
    if f3 = 1 then (if bits w 31 26 = 0 then .alui .sll rd rs1 (BitVec.ofNat 64 (bits w 25 20)) else .illegal)
    else if f3 = 5 then
      (if bits w 31 26 = 0 then .alui .srl rd rs1 (BitVec.ofNat 64 (bits w 25 20))
        else if bits w 31 26 = 0x10 then .alui .sra rd rs1 (BitVec.ofNat 64 (bits w 25 20)) else .illegal)
    else opt (decodeOp 0 f3) fun o => .alui o rd rs1 (immI w)
  | 0x1B =>
    if f3 = 0 then .alui .addw rd rs1 (immI w)
    else if f3 = 1 ∧ f7 = 0 then .alui .sllw rd rs1 (BitVec.ofNat 64 rs2)
    else if f3 = 5 ∧ f7 = 0 then .alui .srlw rd rs1 (BitVec.ofNat 64 rs2)
    else if f3 = 5 ∧ f7 = 0x20 then .alui .sraw rd rs1 (BitVec.ofNat 64 rs2)
    else .illegal
  | 0x33 => opt (decodeOp f7 f3) fun o => .alu o rd rs1 rs2
  | 0x3B => opt (decodeOpW f7 f3) fun o => .alu o rd rs1 rs2
  | 0x0F => if f3 = 0 then .fence else .illegal
  | 0x73 =>
    if w = 0x73 then .ecall
    else if w = 0x100073 then .ebreak
    else if f3 = 1 ∨ f3 = 2 ∨ f3 = 3 then .csr f3 false rd rs1 (bits w 31 20)
    else if f3 = 5 ∨ f3 = 6 ∨ f3 = 7 then .csr (f3 - 4) true rd rs1 (bits w 31 20)
    else .illegal
  | 0x2F =>
    if f3 = 2 ∨ f3 = 3 then
      let n := 2 ^ f3
      match bits w 31 27 with
      | 0x02 => if rs2 = 0 then .lr n rd rs1 else .illegal
      | 0x03 => .sc n rd rs1 rs2
      | f5 => opt (decodeAmo f5) fun o => .amo o n rd rs1 rs2
    else .illegal
  | 0x0B => opt (decodeDx w) .dx
  | _ => .illegal

/-! ## 16-bit instructions -/

/-- The registers x8 to x15 of the three-bit fields. -/
def rc (n : Nat) : Nat := 8 + n

/-- A 16-bit instruction (the C extension for RV64, without floating point). -/
def decode16 (w : Nat) : Rv :=
  let rd := bits w 11 7
  let rs2 := bits w 6 2
  let r1 := rc (bits w 9 7)
  let r2 := rc (bits w 4 2)
  let imm6 := sx (32 * bits w 12 12 + bits w 6 2) 6
  let sh := BitVec.ofNat 64 (32 * bits w 12 12 + bits w 6 2)
  match bits w 1 0, bits w 15 13 with
  | 0, 0 =>
    let n := 64 * bits w 10 7 + 16 * bits w 12 11 + bits w 5 5 * 8 + bits w 6 6 * 4
    if n = 0 then .illegal else .alui .add r2 2 (BitVec.ofNat 64 n)
  | 0, 2 => .load 4 true r2 r1 (BitVec.ofNat 64 (64 * bits w 5 5 + bits w 12 10 * 8 + bits w 6 6 * 4))
  | 0, 3 => .load 8 true r2 r1 (BitVec.ofNat 64 (64 * bits w 6 5 + bits w 12 10 * 8))
  | 0, 6 => .store 4 r1 r2 (BitVec.ofNat 64 (64 * bits w 5 5 + bits w 12 10 * 8 + bits w 6 6 * 4))
  | 0, 7 => .store 8 r1 r2 (BitVec.ofNat 64 (64 * bits w 6 5 + bits w 12 10 * 8))
  | 1, 0 => .alui .add rd rd imm6
  | 1, 1 => if rd = 0 then .illegal else .alui .addw rd rd imm6
  | 1, 2 => .alui .add rd 0 imm6
  | 1, 3 =>
    if 32 * bits w 12 12 + bits w 6 2 = 0 then .illegal
    else if rd = 2 then
      .alui .add 2 2 (sx (512 * bits w 12 12 + 128 * bits w 4 3 + 64 * bits w 5 5 + 32 * bits w 2 2 + 16 * bits w 6 6) 10)
    else .lui rd (sx (4096 * (32 * bits w 12 12 + bits w 6 2)) 18)
  | 1, 4 =>
    match bits w 11 10 with
    | 0 => .alui .srl r1 r1 sh
    | 1 => .alui .sra r1 r1 sh
    | 2 => .alui .and r1 r1 imm6
    | _ =>
      match bits w 12 12, bits w 6 5 with
      | 0, 0 => .alu .sub r1 r1 r2
      | 0, 1 => .alu .xor r1 r1 r2
      | 0, 2 => .alu .or r1 r1 r2
      | 0, 3 => .alu .and r1 r1 r2
      | 1, 0 => .alu .subw r1 r1 r2
      | 1, 1 => .alu .addw r1 r1 r2
      | _, _ => .illegal
  | 1, 5 =>
    .jal 0 (sx (2048 * bits w 12 12 + 1024 * bits w 8 8 + 256 * bits w 10 9 + 128 * bits w 6 6 + 64 * bits w 7 7
      + 32 * bits w 2 2 + 16 * bits w 11 11 + bits w 5 3 * 2) 12)
  | 1, 6 => .branch .eq r1 0 (immCB w)
  | 1, 7 => .branch .ne r1 0 (immCB w)
  | 2, 0 => .alui .sll rd rd sh
  | 2, 2 =>
    if rd = 0 then .illegal
    else .load 4 true rd 2 (BitVec.ofNat 64 (64 * bits w 3 2 + 32 * bits w 12 12 + bits w 6 4 * 4))
  | 2, 3 =>
    if rd = 0 then .illegal
    else .load 8 true rd 2 (BitVec.ofNat 64 (64 * bits w 4 2 + 32 * bits w 12 12 + bits w 6 5 * 8))
  | 2, 4 =>
    if bits w 12 12 = 0 then
      (if rs2 = 0 then (if rd = 0 then .illegal else .jalr 0 rd 0) else .alu .add rd 0 rs2)
    else if rs2 = 0 then (if rd = 0 then .ebreak else .jalr 1 rd 0)
    else .alu .add rd rd rs2
  | 2, 6 => .store 4 2 rs2 (BitVec.ofNat 64 (64 * bits w 8 7 + bits w 12 9 * 4))
  | 2, 7 => .store 8 2 rs2 (BitVec.ofNat 64 (64 * bits w 9 7 + bits w 12 10 * 8))
  | _, _ => .illegal
where
  immCB (w : Nat) : BitVec 64 :=
    sx (256 * bits w 12 12 + 64 * bits w 6 5 + 32 * bits w 2 2 + bits w 11 10 * 8 + bits w 4 3 * 2) 9

/-- The length in bytes of the instruction whose first parcel is given. -/
def rvLen (parcel : Nat) : Nat := if parcel % 4 = 3 then 4 else 2

/-- An instruction by its bits (16 or 32 of them). Longer encodings are illegal. -/
def decodeRv (w : Nat) : Rv :=
  if w % 4 ≠ 3 then decode16 (w % 65536) else decode32 (w % 2 ^ 32)

/-! ## Arithmetic -/

/-- Sign extension of the low 32 bits. -/
def sxw (v : BitVec 64) : BitVec 64 := (v.setWidth 32).signExtend 64

/-- The result of an integer operation. -/
def Alu.eval (op : Alu) (a b : BitVec 64) : BitVec 64 :=
  let aw := a.setWidth 32
  let bw := b.setWidth 32
  match op with
  | .add => a + b
  | .sub => a - b
  | .sll => a <<< (b.toNat % 64)
  | .slt => if a.slt b then 1 else 0
  | .sltu => if a.ult b then 1 else 0
  | .xor => a ^^^ b
  | .srl => a >>> (b.toNat % 64)
  | .sra => a.sshiftRight (b.toNat % 64)
  | .or => a ||| b
  | .and => a &&& b
  | .addw => sxw (a + b)
  | .subw => sxw (a - b)
  | .sllw => (aw <<< (b.toNat % 32)).signExtend 64
  | .srlw => (aw >>> (b.toNat % 32)).signExtend 64
  | .sraw => (aw.sshiftRight (b.toNat % 32)).signExtend 64
  | .mul => a * b
  | .mulh => BitVec.ofInt 64 (a.toInt * b.toInt / 2 ^ 64)
  | .mulhsu => BitVec.ofInt 64 (a.toInt * (b.toNat : Int) / 2 ^ 64)
  | .mulhu => BitVec.ofNat 64 (a.toNat * b.toNat / 2 ^ 64)
  | .div => if b = 0 then -1 else a.sdiv b
  | .divu => if b = 0 then -1 else a.udiv b
  | .rem => if b = 0 then a else a.srem b
  | .remu => if b = 0 then a else a.umod b
  | .mulw => (aw * bw).signExtend 64
  | .divw => if bw = 0 then -1 else (aw.sdiv bw).signExtend 64
  | .divuw => if bw = 0 then -1 else (aw.udiv bw).signExtend 64
  | .remw => if bw = 0 then aw.signExtend 64 else (aw.srem bw).signExtend 64
  | .remuw => if bw = 0 then aw.signExtend 64 else (aw.umod bw).signExtend 64

/-- Whether a branch is taken. -/
def Cond.holds (c : Cond) (a b : BitVec 64) : Bool :=
  match c with
  | .eq => a == b
  | .ne => a != b
  | .lt => a.slt b
  | .ge => !(a.slt b)
  | .ltu => a.ult b
  | .geu => !(a.ult b)

/-- What an atomic operation of n bytes stores: old memory value, register value. -/
def AmoOp.eval (op : AmoOp) (n old v : Nat) : Nat :=
  let w := 8 * n
  match op with
  | .swap => v % 2 ^ w
  | .add => (old + v) % 2 ^ w
  | .xor => old ^^^ (v % 2 ^ w)
  | .and => old &&& (v % 2 ^ w)
  | .or => old ||| (v % 2 ^ w)
  | .min => if toInt w old ≤ toInt w v then old else v % 2 ^ w
  | .max => if toInt w v ≤ toInt w old then old else v % 2 ^ w
  | .minu => Nat.min old (v % 2 ^ w)
  | .maxu => Nat.max old (v % 2 ^ w)

/-- A loaded value of n bytes in a register. -/
def loadExt (n : Nat) (signed : Bool) (v : Nat) : BitVec 64 :=
  if signed then BitVec.ofInt 64 (toInt (8 * n) v) else BitVec.ofNat 64 v

end Sys2Proof.Machine
end

