-- ==== Sys2Proof/Machine/Cpu.lean ====
section
/-!
DEFINITION. The control core (R125 to R128, R163 to R170): fetching, the standard instructions, the CSRs of Table 4.11,
hardware loops, waits for pages, and traps.
-/
namespace Sys2Proof.Machine

/-! ## Registers -/

/-- Register r; x0 reads 0. -/
def CoreSt.rd (k : CoreSt) (r : Nat) : BitVec 64 := if r = 0 then 0 else mget 0 k.x r
/-- Register r written; a write of x0 is discarded. -/
def CoreSt.wr (k : CoreSt) (r : Nat) (v : BitVec 64) : CoreSt := if r = 0 then k else { k with x := mset 0 k.x r v }

/-- A change of the core of AU n. -/
def State.modCore (s : State) (n : Nat) (f : CoreSt → CoreSt) : State := s.modAu n fun a => { a with core := f a.core }
/-- The core of AU n. -/
def State.core (s : State) (n : Nat) : CoreSt := (s.au n).core
/-- Register r of the core of AU n as a number. -/
def State.xreg (s : State) (n r : Nat) : Nat := ((s.core n).rd r).toNat

/-! ## Hardware loops (R164 to R170) -/

/-- Where execution goes on once the instruction before p has been executed: at the end of a body the next iteration begins,
or the loop is over and the enclosing one is looked at. -/
def loopNext (p : Nat) : List LoopSt → Nat × List LoopSt
  | [] => (p, [])
  | l :: ls =>
    if p = l.stop then (if 1 < l.left then (l.start, { l with left := l.left - 1 } :: ls) else loopNext p ls)
    else (p, l :: ls)

/-- Execution goes on at p, in sequence. -/
def CoreSt.goOn (k : CoreSt) (p : Nat) : CoreSt :=
  let q := loopNext p k.loops
  { k with pc := BitVec.ofNat 64 q.1, loops := q.2, instret := k.instret + 1 }

/-- Execution goes on at the target of a jump. -/
def CoreSt.jump (k : CoreSt) (p : BitVec 64) : CoreSt := { k with pc := p, instret := k.instret + 1 }

/-- dx.loop at level L with a body of `len` parcels (R164): a count of 0 skips the body. -/
def CoreSt.enterLoop (k : CoreSt) (level len : Nat) : CoreSt :=
  let start := k.pc.toNat + 4
  let stop := start + 2 * len
  let n := (mget 0 k.lc level).toNat
  let outer := k.loops.filter fun l => decide (l.level < level)
  if n = 0 then { k with loops := outer }.goOn stop
  else { k with loops := ⟨level, start, stop, n⟩ :: outer, pc := BitVec.ofNat 64 start, instret := k.instret + 1 }

/-- dx.brk L (R168): execution goes on after the body of loop L, and every loop inside it ends. -/
def CoreSt.breakLoop (k : CoreSt) (level : Nat) : CoreSt :=
  match k.loops.find? fun l => l.level == level with
  | some l => { k with loops := k.loops.filter fun m => decide (m.level < level) }.goOn l.stop
  | none => k.goOn (k.pc.toNat + 4)

/-! ## Fetching -/

/-- What comes of fetching the instruction at an address. -/
inductive Fetch where
  | got (i : Rv) (len : Nat) (s : State)
  | wait (va : Nat)
  | bad (reason va : Nat)
  deriving DecidableEq, Repr

/-- The instruction at virtual address p of context c. -/
def State.fetch (s : State) (c p : Nat) : Fetch :=
  match s.vread c p 2 with
  | .ok (lo, s1) =>
    let w := leNat lo
    if rvLen w = 2 then .got (decodeRv w) 2 s1
    else match s1.vread c (p + 2) 2 with
      | .ok (hi, s2) => .got (decodeRv (w + 65536 * leNat hi)) 4 s2
      | .wait va => .wait va
      | .bad r va => .bad r va
      | .hold => .wait p
  | .wait va => .wait va
  | .bad r va => .bad r va
  | .hold => .wait p

/-- The context of a core that can execute its next instruction: running, held by nothing, not at the exit address. -/
def State.coreReady (s : State) (n : Nat) : Option Nat :=
  match s.live n with
  | some (c, _) =>
    let k := s.core n
    if k.running ∧ k.wait = .none ∧ k.pc.toNat ≠ (s.ctx c).exitVa then some c else none
  | none => none

/-- A core's access waits for a page-in (R126). -/
def State.corePage (s : State) (c n va : Nat) (write : Bool) : State :=
  (s.modCore n fun k => { k with wait := .page va }).want ⟨c, va, 0, n, write⟩

/-- CORE_TRAP (R125). -/
def State.coreTrap (s : State) (c n cause : Nat) : State :=
  (s.count (AU_PROG_EVT_CNT n) 15 8 1).faultCtx c 0x0205 n [(0, 1, n), (1, 1, cause), (4, 8, (s.core n).pc.toNat)]

/-- The dx instruction at the program counter of AU n, with its context; `f` gets the state after the fetch. Nothing
happens where the core is not ready or stands at another instruction. -/
def State.onDx (s : State) (n : Nat) (f : Nat → Dx → State → State) : State :=
  match s.coreReady n with
  | none => s
  | some c =>
    match s.fetch c (s.core n).pc.toNat with
    | .got (.dx d) _ s1 => f c d s1
    | _ => s

/-! ## CSRs (Table 4.11) -/

/-- The value of a CSR with the state after reading it; none: there is no such CSR. -/
def State.csrRead (s : State) (c n num : Nat) : Option (BitVec 64 × State) :=
  let k := s.core n
  match num with
  | 0xC00 =>
    let p := s.pick
    let cyc := k.cycle + 1 + p.1
    some (BitVec.ofNat 64 cyc, p.2.modCore n fun k => { k with cycle := cyc })
  | 0xC01 => some (BitVec.ofNat 64 s.now, s)
  | 0xC02 => some (BitVec.ofNat 64 k.instret, s)
  | 0xCC0 => some (BitVec.ofNat 64 (match (s.au n).asg with | some (_, l) => l | none => 0), s)
  | 0xCC1 => some (BitVec.ofNat 64 c, s)
  | _ =>
    if 0x800 ≤ num ∧ num ≤ 0x802 then
      let level := num - 0x800
      match k.loops.find? fun l => l.level == level with
      | some l => some (BitVec.ofNat 64 l.left, s)
      | none => some (mget 0 k.lc level, s)
    else none

/-- A CSR access (funct3 1 write, 2 set, 3 clear); none: illegal (CODE_CSR). -/
def State.csrDo (s : State) (c n op : Nat) (useImm : Bool) (rd rs1 num : Nat) : Option State :=
  let k := s.core n
  let v : BitVec 64 := if useImm then BitVec.ofNat 64 rs1 else k.rd rs1
  let writes := op = 1 ∨ rs1 ≠ 0
  if writes ∧ ¬ (0x800 ≤ num ∧ num ≤ 0x802) then none
  else match s.csrRead c n num with
    | none => none
    | some (old, s1) =>
      let new := if op = 1 then v else if op = 2 then old ||| v else old &&& ~~~ v
      some (s1.modCore n fun k =>
        let k1 := k.wr rd old
        if writes then { k1 with lc := mset 0 k1.lc (num - 0x800) new } else k1)

/-! ## Memory accesses -/

/-- A load's value, or what becomes of the core instead: `f` goes on with the bytes. -/
def State.coreLoad (s : State) (c n va len : Nat) (write : Bool) (f : Nat → State → State) : State :=
  match s.vread c va len with
  | .ok (bs, s1) => f (leNat bs) s1
  | .wait a => s.corePage c n a write
  | .bad r a => s.memFault c r 0 n write a
  | .hold => s

/-- A store; where the page waits for a shadow frame (R538), the core stays at the store. -/
def State.coreStore (s : State) (c n va len v : Nat) (f : State → State) : State :=
  match s.vwrite c va (natLe len v) with
  | .ok s1 => f s1
  | .wait a => s.corePage c n a true
  | .bad r a => s.memFault c r 0 n true a
  | .hold => s

/-! ## Execution -/

/-- The effect of a standard instruction of len bytes at the program counter. -/
def State.coreDo (s : State) (c n : Nat) (i : Rv) (len : Nat) : State :=
  let k := s.core n
  let p := k.pc.toNat + len
  let pcb := k.pc
  let done (t : State) : State := t.modCore n fun k => k.goOn p
  let setRd (t : State) (rd : Nat) (v : BitVec 64) : State := done (t.modCore n fun k => k.wr rd v)
  match i with
  | .lui rd imm => setRd s rd imm
  | .auipc rd imm => setRd s rd (pcb + imm)
  | .jal rd off => s.modCore n fun k => (k.wr rd (BitVec.ofNat 64 p)).jump (pcb + off)
  | .jalr rd rs1 off => s.modCore n fun k => (k.wr rd (BitVec.ofNat 64 p)).jump ((k.rd rs1 + off) &&& ~~~ 1#64)
  | .branch cnd rs1 rs2 off =>
    if cnd.holds (k.rd rs1) (k.rd rs2) then s.modCore n fun k => k.jump (pcb + off) else done s
  | .load m sg rd rs1 off =>
    let va := (k.rd rs1 + off).toNat
    if va % m ≠ 0 then s.coreTrap c n 4
    else s.coreLoad c n va m false fun v t => setRd t rd (loadExt m sg v)
  | .store m rs1 rs2 off =>
    let va := (k.rd rs1 + off).toNat
    if va % m ≠ 0 then s.coreTrap c n 6
    else s.coreStore c n va m (k.rd rs2).toNat done
  | .alui op rd rs1 imm => setRd s rd (op.eval (k.rd rs1) imm)
  | .alu op rd rs1 rs2 => setRd s rd (op.eval (k.rd rs1) (k.rd rs2))
  | .fence => done s
  | .ecall => s.coreTrap c n 8
  | .ebreak => s.coreTrap c n 3
  | .csr op useImm rd rs1 num =>
    match s.csrDo c n op useImm rd rs1 num with
    | some t => done t
    | none => s.coreTrap c n 2
  | .lr m rd rs1 =>
    let va := (k.rd rs1).toNat
    if va % m ≠ 0 then s.coreTrap c n 4
    else s.coreLoad c n va m false fun v t =>
      setRd (t.modCore n fun k => { k with resv := some (va, m) }) rd (loadExt m true v)
  | .sc m rd rs1 rs2 =>
    let va := (k.rd rs1).toNat
    if va % m ≠ 0 then s.coreTrap c n 6
    else if k.resv = some (va, m) then
      s.coreStore c n va m (k.rd rs2).toNat fun t => setRd (t.modCore n fun k => { k with resv := none }) rd 0
    else setRd (s.modCore n fun k => { k with resv := none }) rd 1
  | .amo op m rd rs1 rs2 =>
    let va := (k.rd rs1).toNat
    if va % m ≠ 0 then s.coreTrap c n 6
    else s.coreLoad c n va m true fun v t =>
      t.coreStore c n va m (op.eval m v (k.rd rs2).toNat) fun u => setRd u rd (loadExt m true v)
  | .dx _ => s
  | .illegal => s.coreTrap c n 2

/-- CORE_INSTRUCTION (R125, R126, R162 to R166). -/
def execCoreInstruction (a : AuId) (s : State) : Out :=
  match s.coreReady a with
  | none => .next s
  | some c =>
    match s.fetch c (s.core a).pc.toNat with
    | .got (.dx _) _ _ => .next s
    | .got i len s1 => .next ((s1.coreDo c a i len).progress c)
    | .wait va => .next (s.corePage c a va false)
    | .bad r va => .next (s.memFault c r 0 a false va)

/-- CORE_PAGE_WAIT_END (R126): the page that the core waits for has come in, so the access is made again. -/
def execCorePageWaitEnd (a : AuId) (s : State) : Out :=
  match s.live a, (s.core a).wait with
  | some (c, _), .page va =>
    match (s.ctx c).translate va false with
    | .ok _ => .next ((s.modCore a fun k => { k with wait := .none }).progress c)
    | .wait _ => .next s
    | .hold => .next s
    | .bad r v => .next (s.memFault c r 0 a false v)
  | _, _ => .next s

/-- LOGICAL_AU_EXIT (R128): the core has transferred control to the exit address, and ends. -/
def execLogicalAuExit (a : AuId) (s : State) : Out :=
  match s.live a with
  | some (c, _) =>
    let k := s.core a
    if k.running ∧ k.wait = .none ∧ k.pc.toNat = (s.ctx c).exitVa then
      .next ((s.modCore a fun k => { k with running := false, finished := true }).progress c)
    else .next s
  | none => .next s

end Sys2Proof.Machine
end

