-- ==== Sys2Proof/Machine/Verify.lean ====
section
/-!
DEFINITION. Program images (R176, Table 4.19) and the verifier (R178, R179, Table 4.20). A failure is a byte offset of the
image, a reject code and a section type; the first in image order is reported, with the number found.
-/
namespace Sys2Proof.Machine

/-- A failure: byte offset, reject code, section type. -/
abbrev Failure := Nat × Nat × Nat

/-- One failure where p holds. -/
def failIf (p : Bool) (off code sec : Nat) : List Failure := if p then [(off, code, sec)] else []

/-! ## Header and directory -/

/-- A directory entry. -/
structure Sect where
  ty : Nat
  count : Nat
  off : Nat
  size : Nat
  deriving DecidableEq, Repr

/-- Directory entries of an image. -/
def imgDir (img : List Byte) : List Sect :=
  (List.range (fieldLe img 6 2)).map fun i =>
    let d := (img.drop (64 + 16 * i)).take 16
    ⟨fieldLe d 0 2, fieldLe d 4 4, fieldLe d 8 4, fieldLe d 12 4⟩

/-- The section of a type. -/
def findSect (dir : List Sect) (ty : Nat) : Option Sect := dir.find? fun d => d.ty == ty

/-- The bytes of a section. -/
def sectBytes (img : List Byte) (d : Sect) : List Byte := (img.drop d.off).take d.size

/-- The records of n bytes of a section type. -/
def records (img : List Byte) (dir : List Sect) (ty n : Nat) : List (Nat × List Byte) :=
  match findSect dir ty with
  | none => []
  | some d => (List.range d.count).map fun i => (d.off + n * i, ((img.drop (d.off + n * i)).take n))

/-- INIT records, as (offset in the image, LBUF, OFFSET, data), and the length of all of them. -/
def initRecs : Nat → Nat → List Byte → List (Nat × Nat × Nat × List Byte) × Nat
  | 0, off, _ => ([], off)
  | n + 1, off, bs =>
    let sz := fieldLe bs 16 8
    let len := 24 + (sz + 7) / 8 * 8
    let p := initRecs n (off + len) (bs.drop len)
    ((off, fieldLe bs 0 2, fieldLe bs 8 8, (bs.drop 24).take sz) :: p.1, p.2)

/-- Bytes of a record of a section type with records of one size. -/
def recBytes (ty : Nat) : Option Nat :=
  match ty with
  | 3 => some 16 | 4 => some 32 | 5 => some 24 | 6 => some 8 | 7 => some 64 | 8 => some 32 | 9 => some 32 | _ => none

/-- SIZE of a section matches its COUNT. The spec gives CODE no record; FLAGS is one record. -/
def sizeOk (img : List Byte) (d : Sect) : Bool :=
  match recBytes d.ty with
  | some n => d.size == n * d.count && (d.ty != 8 || d.count == 1)
  | none =>
    if d.ty = 2 then (initRecs d.count 0 (sectBytes img d)).2 == d.size
    else d.size % 2 == 0

/-- Two ranges have a byte in common. -/
def overlaps (a n b m : Nat) : Bool := decide (a < b + m) && decide (b < a + n) && n != 0 && m != 0

/-- Failures of the directory entries from number i on, `seen` being the entries before. -/
def dirFails (img : List Byte) (nsec : Nat) : Nat → List Sect → List Sect → List Failure
  | _, _, [] => []
  | i, seen, d :: ds =>
    let at_ := 64 + 16 * i
    let magic := d.ty == 0 || decide (9 < d.ty) || fieldLe (img.drop at_) 2 2 != 0
    let bad := d.off % 64 != 0 || decide (img.length < d.off + d.size) || !sizeOk img d || seen.any (fun e => e.ty == d.ty)
      || overlaps d.off d.size 0 (64 + 16 * nsec) || seen.any fun e => overlaps d.off d.size e.off e.size
    (if magic then [(at_, 0x0101, 0)] else failIf bad at_ 0x0102 d.ty) ++ dirFails img nsec (i + 1) (seen ++ [d]) ds

/-- Failures of the header and the directory; fw is the version of the running firmware. -/
def headFails (img : List Byte) (fw : Nat) : List Failure :=
  let nsec := fieldLe img 6 2
  let dir := imgDir img
  let laus := fieldLe img 20 2
  failIf (fieldLe img 0 4 != 0x47505848) 0 0x0101 0 ++ failIf (fieldLe img 4 2 != 1) 4 0x0101 0
    ++ failIf (nsec == 0 || decide (64 < nsec)) 6 0x0101 0
    ++ failIf (fieldLe img 8 8 != img.length) 8 0x0102 0
    ++ failIf (decide (fw < fieldLe img 16 4)) 16 0x0103 0
    ++ failIf (laus == 0 || decide (192 < laus) || (findSect dir 1).isNone
        || (match findSect dir 3 with | some d => d.count != laus | none => true)) 20 0x0104 0
    ++ failIf (decide (1 < byteAt img 22)) 22 0x0503 0
    ++ failIf (byteAt img 22 == 1 && (findSect dir 9).isNone) 22 0x0504 0
    ++ failIf (!zeroIn img 23 64) 23 0x0101 0
    ++ (if 64 + 16 * nsec ≤ img.length then dirFails img nsec 0 [] dir else [(64, 0x0102, 0)])

/-! ## Declarations -/

/-- The LAU records. -/
def imgLaus (img : List Byte) (dir : List Sect) : List LauRec :=
  (records img dir 3 16).map fun r => ⟨fieldLe r.2 0 4, byteAt r.2 4⟩

/-- Failures of the LAU records. -/
def lauFails (img : List Byte) (dir : List Sect) : List Failure :=
  let code := match findSect dir 1 with | some d => d.size | none => 0
  (records img dir 3 16).flatMap fun r =>
    failIf (fieldLe r.2 0 4 % 2 != 0 || decide (code ≤ fieldLe r.2 0 4)) r.1 0x0203 3
      ++ failIf (decide (2 < byteAt r.2 4) || !zeroIn r.2 5 16) (r.1 + 4) 0x0503 3

/-- The LBUF records; `va` is filled in by the loader. -/
def imgLbufs (img : List Byte) (dir : List Sect) : List LbufRec :=
  (records img dir 4 32).map fun r => ⟨fieldLe r.2 0 8, byteAt r.2 8, byteAt r.2 9, fieldLe r.2 10 2, byteAt r.2 12, 0⟩

/-- Bytes of the HAWK buffers of a list in one region of a logical AU. -/
def regionUse (bufs : List LbufRec) (lau region : Nat) (f : Nat → Nat) : Nat :=
  bufs.foldl (fun n b => if b.space = 0 ∧ b.lau = lau ∧ b.region = region then n + f b.size else n) 0

/-- PART of a logical AU. -/
def partOf (laus : List LauRec) (l : Nat) : Nat := match laus[l]? with | some r => r.part | none => 0

/-- Failures of the LBUF records. -/
def lbufFails (img : List Byte) (dir : List Sect) (laus : List LauRec) (bufs : List LbufRec) : List Failure :=
  let rs := records img dir 4 32
  failIf (decide (4095 < rs.length)) ((findSect dir 4).map (·.off + 32 * 4095) |>.getD 0) 0x0501 4
  ++ (List.range rs.length).flatMap fun i =>
    match rs[i]?, bufs[i]? with
    | some r, some b =>
      let noLau := decide (laus.length ≤ b.lau)
      failIf (decide (1 < b.space) || (b.space == 1 && decide (1 < b.page)) || !zeroIn r.2 13 32) (r.1 + 8) 0x0503 4
        ++ failIf (b.size == 0 || (if b.space = 0 then noLau || decide (2 ^ partOf laus b.lau ≤ b.region)
              || decide (regionBytes (partOf laus b.lau) < regionUse (bufs.take (i + 1)) b.lau b.region id)
            else noLau && b.lau != 0xFFFF)) r.1 0x0501 4
    | _, _ => []

/-- The TENSOR records. -/
def imgTensors (img : List Byte) (dir : List Sect) : List TensorRec :=
  (records img dir 5 24).map fun r =>
    ⟨fieldLe r.2 0 2, fieldLe r.2 2 2, byteAt r.2 4, byteAt r.2 5, byteAt r.2 6, byteAt r.2 7, fieldLe r.2 8 8, fieldLe r.2 16 8⟩

/-- A buffer by its number, counted from 1. -/
def bufAt (bufs : List LbufRec) (b : Nat) : Option LbufRec := if b = 0 then none else bufs[b - 1]?

/-- Failures of the TENSOR records. -/
def tensorFails (img : List Byte) (dir : List Sect) (bufs : List LbufRec) : List Failure :=
  let rs := records img dir 5 24
  failIf (decide (65536 < rs.length)) ((findSect dir 5).map (·.off) |>.getD 0) 0x0502 5
  ++ rs.flatMap fun r =>
    let fmt := byteAt r.2 4
    let kind := byteAt r.2 7
    let layer := fieldLe r.2 2 2
    failIf (decide (15 < fmt) || decide (7 < byteAt r.2 5) || decide (1 < byteAt r.2 6) || decide (3 < kind)) (r.1 + 4) 0x0503 5
      ++ match bufAt bufs (fieldLe r.2 0 2) with
        | none => [(r.1, 0x0501, 5)]
        | some b =>
          failIf ((bits kind 1 0 != 0 && !mxCode (fmt % 16)) || (decide (4095 < layer) && layer != 0xFFFF)
            || decide (b.size < fieldLe r.2 8 8 + fieldLe r.2 16 8)) r.1 0x0502 5

/-- The INIT records of an image. -/
def imgInits (img : List Byte) (dir : List Sect) : List (Nat × Nat × Nat × List Byte) :=
  match findSect dir 2 with
  | none => []
  | some d => (initRecs d.count d.off (sectBytes img d)).1

/-- Failures of the INIT records. -/
def initFails (img : List Byte) (dir : List Sect) (bufs : List LbufRec) : List Failure :=
  (imgInits img dir).flatMap fun r =>
    failIf (fieldLe (img.drop r.1) 2 6 != 0) r.1 0x0503 2
      ++ match bufAt bufs r.2.1 with
        | none => [(r.1, 0x0501, 2)]
        | some b => failIf (decide (b.size < r.2.2.1 + r.2.2.2.length) || r.2.2.2.isEmpty) (r.1 + 8) 0x0501 2

/-- Failures of OPS words: the rules that the header decides (R178). -/
def opsFails (img : List Byte) (dir : List Sect) : List Failure :=
  (records img dir 6 8).flatMap fun r =>
    let w := leNat r.2
    if bit w 48 ∨ opKind w = 0xE then [(r.1, 0x0301, 6)] else failIf (bit w 57 && !bit w 58) r.1 0x0308 6

/-- Failures of STENCIL descriptors. -/
def stencilFails (img : List Byte) (dir : List Sect) (laus : List LauRec) (bufs : List LbufRec) : List Failure :=
  (records img dir 7 64).flatMap fun r =>
    match stnCheck laus bufs none r.2 with
    | some code => [(r.1, code, 7)]
    | none => []

/-! ## Code -/

/-- The instructions of CODE in sequence: (offset, length, instruction). -/
def sweep : Nat → Nat → List Byte → List (Nat × Nat × Rv)
  | 0, _, _ => []
  | fuel + 1, off, bs =>
    if bs.length < 2 then []
    else
      let n := rvLen (fieldLe bs 0 2)
      if bs.length < n then [(off, bs.length, .illegal)]
      else (off, n, decodeRv (fieldLe bs 0 n)) :: sweep fuel (off + n) (bs.drop n)

/-- The bodies of the loops: (offset of the dx.loop, first, end, level). -/
def bodies (is : List (Nat × Nat × Rv)) : List (Nat × Nat × Nat × Nat) :=
  is.filterMap fun i => match i.2.2 with
    | .dx (.loop level len) => some (i.1, i.1 + 4, i.1 + 4 + 2 * len, level)
    | _ => none

/-- The bodies that hold an offset. -/
def inBodies (bs : List (Nat × Nat × Nat × Nat)) (p : Nat) : List (Nat × Nat × Nat × Nat) :=
  bs.filter fun b => decide (b.2.1 ≤ p) && decide (p < b.2.2.1)

/-- The target of a branch or a direct jump. -/
def targetOf (i : Nat × Nat × Rv) : Option Int :=
  match i.2.2 with
  | .jal _ off => some ((i.1 : Int) + off.toInt)
  | .branch _ _ _ off => some ((i.1 : Int) + off.toInt)
  | _ => none

/-- The CSR access breaks CODE_CSR. -/
def csrBad (op rs1 num : Nat) : Bool :=
  let rw := decide (0x800 ≤ num) && decide (num ≤ 0x802)
  let ro := [0xC00, 0xC01, 0xC02, 0xCC0, 0xCC1].contains num
  !(rw || (ro && op != 1 && rs1 == 0))

/-- The instruction may not stand in a loop body (R169). -/
def notInBody (i : Rv) : Bool :=
  match i with
  | .jal rd _ => rd != 0
  | .jalr _ _ _ => true
  | .ecall => true
  | .ebreak => true
  | _ => false

/-- Failures of one instruction. -/
def insFails (base size : Nat) (bs : List (Nat × Nat × Nat × Nat)) (i : Nat × Nat × Rv) : List Failure :=
  let here := inBodies bs i.1
  let f (p : Bool) (code : Nat) : List Failure := failIf p (base + i.1) code 1
  f (i.2.2 == .illegal) 0x0201
    ++ f (match i.2.2 with | .csr op _ _ rs1 num => csrBad op rs1 num | _ => false) 0x0202
    ++ f (match targetOf i with | some t => decide (t < 0) || decide ((size : Int) ≤ t) | none => false) 0x0203
    ++ (match i.2.2 with
      | .dx (.loop level len) =>
        let stop := i.1 + 4 + 2 * len
        f (decide (size < stop)) 0x0203 ++ f (level != here.length || here.any fun b => decide (b.2.2.1 < stop)) 0x0204
      | .dx (.brk level) => f (!(here.any fun b => b.2.2.2 == level)) 0x0205
      | .dx (.qlvl q _) => f (decide (21 < q)) 0x0206
      | .dx (.qpace q _) => f (decide (21 < q)) 0x0206
      | _ => [])
    ++ f ((!here.isEmpty && notInBody i.2.2) || (match targetOf i with
        | some t => here.any (fun b => !(decide ((b.2.1 : Int) ≤ t) && decide (t < b.2.2.1)))
            || bs.any fun b => decide ((b.2.1 : Int) ≤ t) && decide (t < b.2.2.1) && !here.contains b
        | none => false)) 0x0205

/-- Failures of CODE, and of entry points inside loop bodies. -/
def codeFails (img : List Byte) (dir : List Sect) (is : List (Nat × Nat × Rv)) : List Failure :=
  match findSect dir 1 with
  | none => []
  | some d =>
    let bs := bodies is
    is.flatMap (insFails d.off d.size bs)
      ++ (records img dir 3 16).flatMap fun r => failIf (!(inBodies bs (fieldLe r.2 0 4)).isEmpty) r.1 0x0205 3

/-! ## Cycles of flag waits (R179) -/

/-- The flag that an instruction waits on to be set, by a constant index. -/
def waitsOn : Rv → Option Nat
  | .dx (.fwait (.imm f)) => some f
  | .dx (.fwaitx (.imm f)) => some f
  | _ => none

/-- The flag that an instruction sets, by a constant index. -/
def setsFlag : Rv → Option Nat
  | .dx (.fset (.imm f)) => some f
  | _ => none

/-- Where control can go after an instruction; a call is taken to return, and any other indirect jump is not followed. -/
def succs (i : Nat × Nat × Rv) : List Nat :=
  let next := i.1 + i.2.1
  match i.2.2 with
  | .jal rd _ => (match targetOf i with | some t => [t.toNat] | none => []) ++ (if rd = 0 then [] else [next])
  | .jalr rd _ _ => if rd = 0 then [] else [next]
  | .branch _ _ _ _ => (match targetOf i with | some t => [t.toNat] | none => []) ++ [next]
  | .dx (.loop _ len) => [next, next + 2 * len]
  | .ecall => []
  | .ebreak => []
  | .illegal => []
  | _ => [next]

/-- Offsets reached from those in `todo`, going no further past an instruction that satisfies `stop`. -/
def reach (is : List (Nat × Nat × Rv)) (stop : Rv → Bool) : Nat → List Nat → List Nat → List Nat
  | 0, _, seen => seen
  | _ + 1, [], seen => seen
  | fuel + 1, p :: todo, seen =>
    if seen.contains p then reach is stop fuel todo seen
    else match is.find? fun i => i.1 == p with
      | none => reach is stop fuel todo seen
      | some i => reach is stop fuel ((if stop i.2.2 then [] else succs i) ++ todo) (p :: seen)

/-- The instructions reached from an entry. -/
def reached (is : List (Nat × Nat × Rv)) (entry : Nat) (stop : Rv → Bool) : List Rv :=
  let r := reach is stop (4 * is.length + 4) [entry] []
  (is.filter fun i => r.contains i.1).map (·.2.2)

/-- The agent waits on flag g, on every path, before it first sets flag f. -/
def waitsBefore (is : List (Nat × Nat × Rv)) (entry g f : Nat) : Bool :=
  let r := reached is entry fun i => waitsOn i == some g
  (r.any fun i => waitsOn i == some g) && !(r.any fun i => setsFlag i == some f)

/-- The one logical AU that sets flag f, if only one does and nothing else of the image names f as set. -/
def onlySetter (is : List (Nat × Nat × Rv)) (laus : List LauRec) (other : List Nat) (f : Nat) : Option Nat :=
  if other.contains f then none
  else match (List.range laus.length).filter fun l =>
      match laus[l]? with
      | some r => (reached is r.entry fun _ => false).any fun i => setsFlag i == some f
      | none => false with
    | [l] => some l
    | _ => none

/-- Flags that OPS words or STENCIL descriptors of the image set. -/
def otherSets (img : List Byte) (dir : List Sect) : List Nat :=
  ((records img dir 6 8).filterMap fun r => if opKind (leNat r.2) = 0xC then some (bits (leNat r.2) 7 0) else none)
    ++ (records img dir 7 64).filterMap fun r =>
      if (stnDesc r.2).doneEn then some (stnDesc r.2).doneFlag else none

/-- Flags reached from f over at most n edges. -/
def flagReach (edge : Nat → Nat → Bool) (fs : List Nat) : Nat → List Nat → List Nat
  | 0, r => r
  | n + 1, r => flagReach edge fs n (fs.filter fun g => r.contains g || r.any fun f => edge f g)

/-- A wait cycle (R179): flags clear at the start, each with one setter that waits for the next before it sets its own, the
setters differing along each edge. -/
def waitCycle (img : List Byte) (dir : List Sect) (is : List (Nat × Nat × Rv)) (laus : List LauRec) (init : Nat) : Bool :=
  let other := otherSets img dir
  let fs := (List.range 256).filter fun f => !bit init f && (onlySetter is laus other f).isSome
  let edge := fun f g =>
    match onlySetter is laus other f, onlySetter is laus other g with
    | some a, some b => a != b && (match laus[a]? with | some r => waitsBefore is r.entry g f | none => false)
    | _, _ => false
  fs.any fun f => (flagReach edge fs fs.length (fs.filter fun g => edge f g)).contains f

/-! ## The whole image -/

/-- The initial flags of an image (R144). -/
def imgFlags (img : List Byte) (dir : List Sect) : Nat :=
  match findSect dir 8 with
  | some d => leNat ((sectBytes img d).take 32)
  | none => 0

/-- All failures of an image. Sections are looked at where header and directory hold. -/
def imgFails (img : List Byte) (fw : Nat) : List Failure :=
  let head := headFails img fw
  if head.isEmpty then
    let dir := imgDir img
    let laus := imgLaus img dir
    let bufs := imgLbufs img dir
    let is := match findSect dir 1 with
      | some d => sweep d.size 0 (sectBytes img d)
      | none => []
    let rest := lauFails img dir ++ lbufFails img dir laus bufs ++ tensorFails img dir bufs ++ initFails img dir bufs
      ++ opsFails img dir ++ stencilFails img dir laus bufs ++ codeFails img dir is
    if rest.isEmpty then
      failIf (waitCycle img dir is laus (imgFlags img dir)) ((findSect dir 1).map (·.off) |>.getD 0) 0x0601 1
    else rest
  else head

/-- The first failure in image order: the lowest offset, and of those the lowest code. -/
def firstFail : List Failure → Option Failure
  | [] => none
  | f :: fs => match firstFail fs with
    | none => some f
    | some g => if g.1 < f.1 ∨ (g.1 = f.1 ∧ g.2.1 < f.2.1) then some g else some f

end Sys2Proof.Machine
end

