-- ==== Sys2Proof/Machine/Load.lean ====
section
/-!
DEFINITION. LOAD_PROGRAM (R173 to R177, R691): reading the image, placing it, mapping its buffers and arrays, INIT.
-/
namespace Sys2Proof.Machine

/-! ## Virtual ranges -/

/-- Pages (of 2 MiB) that an entry covers. -/
def Pte.span (e : Pte) : Nat := if e.big then 512 else 1

/-- Pages [p, p + n) are unmapped and inside the virtual space. -/
def Ctx.rangeClear (x : Ctx) (p n : Nat) : Bool :=
  decide (p + n ≤ 2 ^ 31) && x.pt.all fun e => decide (p + n ≤ e.1) || decide (e.1 + e.2.span ≤ p)

/-- A free range of n pages, aligned to a pages: the lowest of those that begin at VA 2⁴³, at page 1, or behind a mapping. -/
def Ctx.pickRange (x : Ctx) (n a : Nat) : Option Nat :=
  let cands := (4194304 :: 1 :: x.pt.map fun e => e.1 + e.2.span).map fun p => roundUp p a
  match cands.filter fun p => x.rangeClear p n with
  | [] => none
  | p :: ps => some (if x.rangeClear 4194304 n ∧ 4194304 % a = 0 then 4194304 else ps.foldl min p)

/-- One page mapped to a frame of the mask's stacks, or of any stack where `spare` allows it. -/
def State.mapOne (s : State) (c k : Nat) (big write spare : Bool) (mask : Nat) (o : Origin) : Option State :=
  let go (m : Nat) := if big then s.allocBig m (some c) else s.allocFrame m (some c) false
  let r := match go mask with
    | some p => some p
    | none => if spare then go 0xFFF else none
  match r with
  | none => none
  | some (f, s1) =>
    let e : Pte :=
      { ty := .resident, big := big, addr := frameDpa f, backing := 0, port := 0, write := write
        dirty := false, accessed := false, protect := false, origin := o, stks := mask }
    some (s1.modCtx c fun x => { x with pt := mput x.pt k e })

/-- n pages mapped from page k on. -/
def State.mapMany (s : State) (c : Nat) (big write spare : Bool) (mask : Nat) (o : Origin) : Nat → Nat → Option State
  | 0, _ => some s
  | n + 1, k =>
    match s.mapOne c k big write spare mask o with
    | none => none
    | some s1 => s1.mapMany c big write spare mask o n (k + if big then 512 else 1)

/-- A range of bytes mapped at a virtual address of the part's choosing. -/
def State.mapFresh (s : State) (c bytes : Nat) (big write spare : Bool) (mask : Nat) (o : Origin) : Option (Nat × State) :=
  let sz := if big then 2 ^ 30 else frameBytes
  let n := ceilDiv bytes sz
  let a := if big then 512 else 1
  match (s.ctx c).pickRange (n * a) a with
  | none => none
  | some p => (s.mapMany c big write spare mask o n p).map fun t => (frameBytes * p, t)

/-- Bytes put at resident pages, whatever their WRITE bit: a write of the loader or another agent of the part. -/
def State.rawWrite (s : State) (c va : Nat) (bs : List Byte) : State :=
  (pagesOf va bs.length).foldl (fun t r =>
    match (t.ctx c).translate r.1 false with
    | .ok (_, _, d) =>
      { t with mem := { t.mem with hbm := wrBytes t.mem.hbm d ((bs.drop (r.1 - va)).take r.2) } }
    | _ => t) s

/-! ## The previous program (R173 step 4) -/

/-- The frames of an entry. -/
def Pte.frames (e : Pte) : List Nat := if e.ty == .resident then List.range' (dpaFrame e.addr) e.span else []

/-- Was an entry made by the loader? -/
def Origin.isLoader : Origin → Bool
  | .loader _ => true
  | _ => false

/-- The previous program's buffers, save areas and placement are released. -/
def State.releaseProgram (s0 : State) (c : Nat) : State :=
  let s := { s0.abandonSecuring c with solver := s0.solver.filter fun j => j.ctx != c }
  let x := s.ctx c
  let mine := x.pt.filter fun e => e.2.origin.isLoader
  let s1 := (mine.foldl (fun t e => t.freeFrames e.2.frames) s).freeFrames x.saveFrames
  let s2 := x.place.foldl (fun t e => t.clearAu e.2) s1
  s2.modCtx c fun y =>
    { y with
      pt := y.pt.filter fun e => !e.2.origin.isLoader
      saveFrames := []
      lastPlace := if y.place.isEmpty then y.lastPlace else y.place
      place := []
      prog := none }

/-! ## HAWK buffers -/

/-- A buffer's size in whole slots. -/
def slotRound (n : Nat) : Nat := roundUp n 2048

/-- HAWK buffers lie in LBUF order from the start of their region, each at a slot boundary where that fits, else tight. -/
def hawkPlace (laus : List LauRec) (bufs : List LbufRec) (i : Nat) (b : LbufRec) : Nat :=
  let r := regionBytes (partOf laus b.lau)
  let f := if regionUse bufs b.lau b.region slotRound ≤ r then slotRound else id
  b.region * r + regionUse (bufs.take i) b.lau b.region f

/-! ## Scale tables and Plumb arrays (R107, R113) -/

/-- Layers with Plumb records: up to the highest that a tensor names. -/
def plumbLayers (ts : List TensorRec) : Nat := ts.foldl (fun n t => if t.layer < 4096 then max n (t.layer + 1) else n) 0

/-- The scale-table entry of a delayed-scaled tensor at the start of a job (Table 3.7): OUTER is not yet in force. -/
def scaleEntry (t : TensorRec) (outer maps : Nat) : List Byte :=
  List.replicate 16 0xFF ++ natLe 1 0 ++ natLe 1 outer ++ natLe 1 4 ++ natLe 1 (bits t.kind 1 0 + 4 * t.round) ++ natLe 2 t.layer
    ++ natLe 1 (t.fmt % 16) ++ natLe 1 (t.block % 4) ++ natLe 8 maps

/-- The scale-table entries of a list of tensors whose first pair of maps lies at an address. -/
def scaleEntries (outer : Nat) : Nat → List TensorRec → List Byte
  | _, [] => []
  | maps, t :: ts => scaleEntry t outer maps ++ scaleEntries outer (maps + t.pairBytes) ts

/-- SCALE_WARMUP (R108): status and count whatever the enables, the event if enabled (R118). -/
def State.warmupEvent (s : State) (c i reason : Nat) : State :=
  let s1 := s.flagCount (PLB_STATUS c) 1 (PLB_EVT_CNT0 c) 15 0
  if s1.rbit (PLB_CTL c) 1 then
    s1.raise 0x0502 (.ctx c) [(0, 8, s1.reg64 (TRW_STEP_LO c) (TRW_STEP_HI c)), (8, 4, i), (12, 1, reason)]
  else s1

/-- The arrays are built in memory of their own (R173 step 8), and every delayed-scaled tensor enters warm-up (R108). -/
def State.buildArrays (s : State) (c : Nat) (ts : List TensorRec) : Option State :=
  let ds := ts.filter TensorRec.delayed
  let nl := plumbLayers ts
  let recs := 32 * nl
  let heads := roundUp (recs + 32 * ds.length) 64
  let total := heads + ds.foldl (fun n t => n + t.pairBytes) 0
  let regs (t : State) (va : Nat) : State :=
    (((((t.setReg64 (PLB_REC_BASE_LO c) (PLB_REC_BASE_HI c) (if nl = 0 then 0 else va)).setReg64 (PLB_SCALE_BASE_LO c)
      (PLB_SCALE_BASE_HI c) (if ds.isEmpty then 0 else va + recs)).setReg (PLB_LAYERS c) nl).setReg (PLB_TENSORS c) ds.length
      ).setReg (PLB_WARMUP c) ds.length).setReg64 (PLB_STEP_LO c) (PLB_STEP_HI c) 0
  if total = 0 then some (regs s 0)
  else match s.mapFresh c total false true true 0xFFF (.loader 0) with
    | none => none
    | some (va, s1) =>
      let p := s1.pick
      let s2 := p.2.rawWrite c (va + recs) (scaleEntries (p.1 % 256) (va + heads) ds)
      some ((List.range ds.length).foldl (fun t i => t.warmupEvent c i 0) (regs s2 va))

/-! ## Placing and mapping -/

/-- The stacks of a die. -/
def dieStacks (d : Nat) : Nat := if d = 0 then 0x3F else 0xFC0

/-- The stacks of a VIRT buffer (R496), and whether others may be added. -/
def Ctx.bufMask (x : Ctx) (i : Nat) (b : LbufRec) : Nat × Bool :=
  match mfind x.stackPins i with
  | some m => (m, false)
  | none => (match x.auOf b.lau with | some n => dieStacks (auDie n) | none => 0xFFF, true)

/-- Buffers mapped one after another, `i` being the next one's number; their records with their places. -/
def State.mapBufs (s : State) (c : Nat) (laus : List LauRec) (all : List LbufRec) : Nat → List LbufRec → Option (List LbufRec × State)
  | _, [] => some ([], s)
  | i, b :: bs =>
    let r :=
      if b.space = 0 then some (hawkPlace laus all (i - 1) b, s)
      else
        let m := (s.ctx c).bufMask i b
        s.mapFresh c b.size (b.page == 1) true m.2 m.1 (.loader i)
    match r with
    | none => none
    | some (va, s1) =>
      match s1.mapBufs c laus all (i + 1) bs with
      | none => none
      | some (rs, s2) => some ({ b with va := va } :: rs, s2)

/-- The save area of every logical AU (R504): frames on the stacks of its die. -/
def State.allocSaves (s : State) (c : Nat) (bufs : List LbufRec) : List (Nat × Nat) → Option State
  | [] => some s
  | (l, n) :: ps =>
    match s.allocFrames (dieStacks (auDie n)) (some c) (ceilDiv (savedBytes bufs l) frameBytes) with
    | none => none
    | some (fs, s1) =>
      (s1.modCtx c fun x => { x with saveFrames := x.saveFrames ++ fs }).allocSaves c bufs ps

/-- Hints that the program does not declare are dropped (R500). -/
def Ctx.dropHints (x : Ctx) (nl nb : Nat) : Ctx :=
  { x with
    pins := x.pins.filter fun e => decide (e.1 < nl)
    groups := x.groups.filter fun e => decide (e.1 < nl)
    stackPins := x.stackPins.filter fun e => decide (e.1 ≤ nb) }

/-- INIT contents (R173 step 6). -/
def State.runInits (s : State) (c : Nat) (rs : List (Nat × Nat × Nat × List Byte)) : State :=
  rs.foldl (fun t r =>
    match (t.ctx c).locate r.2.1 r.2.2.1 with
    | some (.virt va) => t.rawWrite c va r.2.2.2
    | some (.hawk n o) => t.modAu n fun a => { a with hawk := wrBytes a.hawk o r.2.2.2 }
    | none => t) s

/-- Steps 3 to 8 of R173; none: no placement was found. -/
def State.install (s : State) (c : Nat) (img : List Byte) : Option State :=
  let dir := imgDir img
  let laus := imgLaus img dir
  let bufs := imgLbufs img dir
  let ts := imgTensors img dir
  let s1 := (s.releaseProgram c).modCtx c fun x => x.dropHints laus.length bufs.length
  match s1.findPlace c laus.length [] [] none with
  | none => none
  | some (p, s2) =>
    let s3 := (s2.takePlace c p 0 true)
    let s4 := p.foldl (fun t e => t.modAu e.2 fun a => { a with part := partOf laus e.1 }) s3
    match s4.allocSaves c bufs p with
    | none => none
    | some s5 =>
      match s5.mapFresh c img.length false false true 0xFFF (.loader 0) with
      | none => none
      | some (va, s6) =>
        match s6.mapBufs c laus bufs 1 bufs with
        | none => none
        | some (rs, s7) =>
          let code := findSect dir 1
          let prog : Program :=
            { laus := laus, lbufs := rs, tensors := ts, stepSrc := byteAt img 22,
              sched := (match findSect dir 9 with | some d => sectBytes img d | none => []), imageVa := va,
              imageBytes := img.length, codeOff := (code.map (·.off)).getD 0, codeBytes := (code.map (·.size)).getD 0,
              initFlags := imgFlags img dir }
          let s8 := ((s7.modCtx c fun x =>
            { x with
              prog := some prog
              flags := BitVec.ofNat 256 prog.initFlags
              eta := EtaTab.reset
              trwGroups := []
              mats := []
              refresh := []
              refreshNow := false
              coat := CoatSt.reset
              num := NumSt.reset
              dust := { x.dust with table := none, adoptPages := [], closing := none, stage := 0, stepEnds := [], groupReq := false } }).rawWrite c va img).runInits c (imgInits img dir)
          let s9 := (s8.setReg64 (TRW_STEP_LO c) (TRW_STEP_HI c) 0).setFld (TRW_CTL c) 0 0 prog.stepSrc
          s9.buildArrays c ts

/-! ## The command -/

/-- What comes of reading the image: its bytes, a wait, or a failure after a number of bytes. -/
inductive ImageRead where
  | got (bs : List Byte) (s : State)
  | wait (va : Nat)
  | failed (n : Nat)
  deriving DecidableEq, Repr

/-- The image named by a descriptor (Table 4.24). -/
def State.readImage (s : State) (c : Nat) (d : List Byte) : ImageRead :=
  let addr := fieldLe d 8 8
  let n := fieldLe d 16 8
  if byteAt d 4 = 0 then
    match s.hostRead (s.ctxPort c) addr n with
    | some bs => .got bs s
    | none => .failed 0
  else
    match s.mem.fails.find? fun e => e.1 == c && decide (addr / frameBytes ≤ e.2.1) && decide (frameBytes * e.2.1 < addr + n) with
    | some e => .failed (frameBytes * e.2.1 - addr)
    | none =>
      match s.vread c addr n with
      | .ok (bs, s1) => .got bs s1
      | .wait va => .wait va
      | .hold => .wait addr
      | .bad _ va => .failed (va - addr)

/-- A field of the descriptor breaks Table 4.24. -/
def loadBad (d : List Byte) : Bool :=
  decide (1 < byteAt d 4) || !zeroIn d 5 8 || !zeroIn d 24 64 || fieldLe d 8 8 % 64 != 0
    || decide (fieldLe d 16 8 < 64) || decide (2 ^ 40 < fieldLe d 16 8) || (byteAt d 4 == 1 && decide (2 ^ 52 ≤ fieldLe d 8 8))

/-- The load fails: the context is as it was before the command (R174). -/
def State.loadFails (s : State) (c k status result : Nat) : State :=
  (s.enter c (s.ctx c).before).complete c k status result

/-- PROG_REJECTED (R174). -/
def State.rejected (s : State) (c : Nat) (f : Failure) (n : Nat) : State :=
  s.raise 0x0202 (.ctx c) [(0, 2, f.2.1), (2, 2, f.2.2), (4, 4, f.1), (8, 4, n)]

/-- The load goes on: the image is read, verified, placed and installed. -/
def State.loadGo (s : State) (c k : Nat) (d : List Byte) : State :=
  match s.readImage c d with
  | .wait va => s.want ⟨c, va, 4, 0xFF, false⟩
  | .failed n =>
    { s with mem := { s.mem with fails := s.mem.fails.filter fun e => e.1 != c } }.loadFails c k 0x30 n
  | .got img s1 =>
    let fails := imgFails img (s1.reg HUB_FW_VERSION)
    match firstFail fails with
    | some f => (s1.rejected c f fails.length).loadFails c k 0x10 0
    | none =>
      match s1.install c img with
      | none => s1.loadFails c k 0x03 0
      | some s2 =>
        let p := (s2.ctx c).prog
        ((s2.enter c .ready).raise 0x0201 (.ctx c)
          [(0, 1, (s2.ctx c).nLaus), (4, 8, img.length)]).complete c k 0x00 ((p.map (·.imageVa)).getD 0)

/-- LOAD_PROGRAM is accepted: the context is LOADING, and keeps the state it was in. -/
def State.loadBegins (s : State) (c k : Nat) : State :=
  ((s.modCtx c fun x => { x with before := x.st }).enter c .loading).setPhase c k (.underway 0 0)

/-- LOAD_PROGRAM (R173): accepted in EMPTY, READY and FAULTED. -/
def execLoadProgram (c : CtxId) (k : Nat) (s : State) : Out :=
  .next (s.onCmd c k 0x01 fun cmd =>
    if cmd.phase = .started then
      if loadBad cmd.desc then s.complete c k 0x02 0
      else
        let st := (s.ctx c).st
        if st = .empty ∨ st = .ready ∨ st = .faulted then
          (s.loadBegins c k).loadGo c k cmd.desc
        else s.complete c k 0x05 0
    else s.loadGo c k cmd.desc)

end Sys2Proof.Machine
end

