-- ==== Sys2Proof/Machine/Screed.lean ====
section
/-!
DEFINITION. The Screed (07_screed.md): row operations and their backward forms, side-memory records, SETP.
-/
namespace Sys2Proof.Machine

/-! ## Parameters (Table 7.3) -/

/-- Body of SETP group g: at placement 0, but OTENSOR 0xFFFF and ROWLEN 1 (R257). -/
def ScreedSt.param (x : ScreedSt) (g : Nat) : Nat :=
  mget (if g = 0 then 0xFFFF * 2 ^ 11 else if g = 7 then 2 ^ 28 else 0) x.params g

def ScreedSt.xfmt (x : ScreedSt) (i : Nat) : Nat := if i = 0 then bits (x.param 0) 44 41 else bits (x.param 0) 40 37
def ScreedSt.xbs (x : ScreedSt) : Nat := bsOf (bits (x.param 0) 36 35)
def ScreedSt.xAlongRows (x : ScreedSt) : Bool := bit (x.param 0) 34
def ScreedSt.ofmt (x : ScreedSt) : Nat := bits (x.param 0) 33 30
def ScreedSt.obs (x : ScreedSt) : Nat := bits (x.param 0) 29 28
def ScreedSt.odown (x : ScreedSt) : Bool := bit (x.param 0) 27
def ScreedSt.otensor (x : ScreedSt) : Nat := bits (x.param 0) 26 11
def ScreedSt.coat (x : ScreedSt) : Nat := bits (x.param 1) 44 35
def ScreedSt.micro (x : ScreedSt) : Nat := bits (x.param 1) 34 23
def ScreedSt.layer (x : ScreedSt) : Nat := bits (x.param 1) 22 11
def ScreedSt.qpos (x : ScreedSt) : Nat := bits (x.param 2) 44 21
def ScreedSt.qsh (x : ScreedSt) : Nat := bits (x.param 2) 20 17
def ScreedSt.kpos (x : ScreedSt) : Nat := bits (x.param 3) 44 21
def ScreedSt.vec (x : ScreedSt) : Nat := bits (x.param 4) 44 31
def ScreedSt.vgrad (x : ScreedSt) : Nat := bits (x.param 4) 30 17
def ScreedSt.site (x : ScreedSt) : Nat := bits (x.param 5) 44 29
def ScreedSt.drop (x : ScreedSt) : Nat := bits (x.param 5) 28 13
def ScreedSt.rowbase (x : ScreedSt) : Nat := bits (x.param 6) 44 21
def ScreedSt.rowlen (x : ScreedSt) : Nat := bits (x.param 7) 44 28
def ScreedSt.colbase (x : ScreedSt) : Nat := bits (x.param 7) 27 12

/-- The position of row r (Table 7.6). -/
def ScreedSt.pos (x : ScreedSt) (r : Nat) : Nat := x.qpos + r / 2 ^ x.qsh

/-! ## Side memory (R253, Table 7.7) -/

/-- FP32 word j from unit u. -/
def ScreedSt.word (x : ScreedSt) (u j : Nat) : Nat := leNat (rdBytes x.side (16 * u + 4 * j) 4)
/-- Word j from unit u written. -/
def ScreedSt.putWord (x : ScreedSt) (u j v : Nat) : ScreedSt := { x with side := wrBytes x.side (16 * u + 4 * j) (natLe 4 v) }
/-- Words from unit u written. -/
def ScreedSt.putWords (x : ScreedSt) (u : Nat) (vs : List Nat) : ScreedSt :=
  { x with side := wrBytes x.side (16 * u) (vs.map (natLe 4)).flatten }
/-- KIND of the record at unit u. -/
def ScreedSt.recKind (x : ScreedSt) (u : Nat) : Nat := bits (x.word u 3) 31 24
/-- A record written: three words, KIND and COUNT. -/
def ScreedSt.putRec (x : ScreedSt) (u w0 w1 w2 kind count : Nat) : ScreedSt :=
  x.putWords u [w0, w1, w2, 2 ^ 24 * kind + min count 0xFFFFFF]
/-- The words of a vector at unit u, from word j on. -/
def ScreedSt.vecAt (x : ScreedSt) (u j n : Nat) : List Num := (List.range n).map fun i => of32 (x.word u (j + i))

/-! ## FP32 row arithmetic (R251) -/

/-- An FP32 constant. -/
def k32 (w : Nat) : Num := of32 w
/-- The special functions of R250, known only to within 2 units in the last place: 0 exp, 1 ln, 3 reciprocal square root,
4 tanh, 5 erf, 6 sigmoid. -/
def spec32 (f : Nat) (a : Num) : Num := of32 (Config.special f (to32 a) % 2 ^ 32)
/-- a · b + c on a lane: fused or in two roundings, which the spec leaves open place by place. -/
def mad (site : Nat) (a b c : Num) : Num :=
  if Config.keyed 2 site 0 % 2 = 1 then fp32.round (numAdd (numMul a b) c) else add32 (mul32 a b) c
/-- Difference and quotient. -/
def sub32 (a b : Num) : Num := add32 a (numNeg b)
def div32 (a b : Num) : Num := fp32.div a b
/-- The sum of a row across the lanes, in an order that is left open. -/
def rowSum (seed k : Nat) (xs : List Num) : Num := treeSum (Config.treePick seed 6 k) xs.length xs
/-- Lists combined value by value. -/
def zip2 (f : Num → Num → Num) (a b : List Num) : List Num := (a.zip b).map fun p => f p.1 p.2

/-- −∞. -/
def negInf : Num := .inf true
def num0 : Num := .fin false 0 0
def num1 : Num := .fin false 1 0
def half : Num := .fin false 1 (-1)

/-! ## Activation functions (Table 7.5) -/

/-- c(x + 0.044715 x³), c = √(2/π). -/
def geluArg (x : Num) : Num :=
  mul32 (k32 0x3F4C422A) (mad 1 (k32 0x3D372713) (mul32 x (mul32 x x)) x)
def geluTanh (x : Num) : Num := mul32 (mul32 half x) (add32 num1 (spec32 4 (geluArg x)))
/-- The derivative of GELU_TANH. -/
def geluTanhD (x : Num) : Num :=
  let t := spec32 4 (geluArg x)
  let du := mul32 (k32 0x3F4C422A) (mad 2 (k32 0x3E095D4F) (mul32 x x) num1)
  add32 (mul32 half (add32 num1 t)) (mul32 (mul32 (mul32 half x) (sub32 num1 (mul32 t t))) du)
/-- Φ and φ. -/
def phiC (x : Num) : Num := mul32 half (add32 num1 (spec32 5 (mul32 x (k32 0x3F3504F3))))
def phiD (x : Num) : Num := mul32 (k32 0x3ECC422A) (spec32 0 (mul32 (numNeg half) (mul32 x x)))
def silu (x : Num) : Num := mul32 x (spec32 6 x)
def siluD (x : Num) : Num := mul32 (spec32 6 x) (mad 3 x (sub32 num1 (spec32 6 x)) num1)
def relu (x : Num) : Num := numMax num0 x

/-- The gated functions. -/
def actGated (fn : Nat) : Bool := fn == 5 || fn == 6

/-- y of x and gate g. -/
def actFwd (fn : Nat) (x g : Num) : Num :=
  match fn with
  | 0 => x
  | 1 => relu x
  | 2 => geluTanh x
  | 3 => mul32 x (phiC x)
  | 4 => silu x
  | 5 => mul32 x (silu g)
  | 6 => mul32 x (geluTanh g)
  | 7 => mul32 (relu x) (relu x)
  | 8 => spec32 6 x
  | _ => spec32 4 x

/-- dx of x, gate g and dy. -/
def actBwd (fn : Nat) (x g dy : Num) : Num :=
  match fn with
  | 0 => dy
  | 1 => if numLt num0 x then dy else num0
  | 2 => mul32 dy (geluTanhD x)
  | 3 => mul32 dy (mad 4 x (phiD x) (phiC x))
  | 4 => mul32 dy (siluD x)
  | 5 => mul32 dy (silu g)
  | 6 => mul32 dy (geluTanh g)
  | 7 => mul32 (mul32 dy (numInt 2)) (relu x)
  | 8 => let t := spec32 6 x; mul32 dy (mul32 t (sub32 num1 t))
  | _ => let t := spec32 4 x; mul32 dy (sub32 num1 (mul32 t t))

/-- dg of a gated function. -/
def actBwdGate (fn : Nat) (x g dy : Num) : Num :=
  mul32 (mul32 dy x) (if fn = 5 then siluD g else geluTanhD g)

/-! ## Inputs of an operation (R260) -/

/-- OPT of a word. -/
def scrOpt (w : Nat) : Nat := bits w 7 0
/-- FN of ACT, ACT_BWD, ELEM and ROWRED. -/
def scrFn (w : Nat) : Nat := bits w 7 4

/-- What a row of input is: a row of format i from queue 16 + i, or a LOSS target. -/
inductive RowSrc where
  | row (i : Nat)
  | target
  deriving DecidableEq, Repr

/-- The input rows of one row of an operation, in the order in which they are taken. -/
def scrInputs (w : Nat) : List RowSrc :=
  match opKind w with
  | 0 => [.row 0]
  | 1 => [.row 0, .row 1]
  | 2 => if actGated (scrFn w) then [.row 0, .row 1] else [.row 0]
  | 3 => if actGated (scrFn w) then [.row 0, .row 0, .row 1] else [.row 0, .row 1]
  | 4 => [.row 0]
  | 5 => [.row 0, .row 1]
  | 6 => if bit w 5 then [] else if bit w 7 then [.row 0] else [.row 0, .row 1]
  | 7 => if [0, 1, 2, 6].contains (scrFn w) then [.row 0, .row 1] else [.row 0]
  | 8 => [.row 0, .target]
  | 9 => if bit w 7 then [] else [.row 0]
  | _ => if scrFn w = 0 then [.row 0, .row 1] else [.row 0]

/-- The queue of an input row. -/
def RowSrc.queue : RowSrc → Nat
  | .row i => 16 + i
  | .target => 17

/-- The number of the record of a queue that input k of row r is: a gated ACT_BWD takes two of SQ0 for each row. -/
def recNo (w r k : Nat) : Nat := if opKind w = 3 ∧ actGated (scrFn w) then (if k < 2 then 2 * r + k else r) else r

/-- Value bytes and scale bytes of an input row; scales of a group precede its first row. -/
def ScreedSt.inBytes (x : ScreedSt) (w r k : Nat) (src : RowSrc) : Nat × Nat :=
  match src with
  | .target => (4, 0)
  | .row i =>
    let f := x.xfmt i
    let n := scrLen w
    if !fmtIsMx f then (rowBytes f n, 0)
    else if x.xAlongRows then (rowBytes f n, if recNo w r k % x.xbs = 0 then n else 0)
    else let b := ceilDiv n x.xbs; (rowBytes f (b * x.xbs), b)

/-- Input rows from number k on are taken, as far as the queues hold them: a row only when those before it on its queue are
complete (`stuck` are the queues on which one is not). -/
def Au.gather (a : Au) (w r : Nat) : Nat → List Nat → List RowSrc → Au
  | _, _, [] => a
  | k, stuck, src :: srcs =>
    if stuck.contains src.queue then a.gather w r (k + 1) stuck srcs
    else
      let have_ := (a.screed.inp[k]?).getD []
      let m := a.screed.inBytes w r k src
      let p := a.pull src.queue m.1 m.2 have_.length
      let b := { p.2 with screed := { p.2.screed with inp := setAt p.2.screed.inp k (have_ ++ p.1) } }
      b.gather w r (k + 1) (if m.1 + m.2 ≤ have_.length + p.1.length then stuck else src.queue :: stuck) srcs

/-- Every input row is complete. -/
def ScreedSt.gathered (x : ScreedSt) (w r : Nat) : Bool :=
  ((scrInputs w).zip (List.range 4)).all fun p =>
    let m := x.inBytes w r p.2 p.1
    decide (m.1 + m.2 ≤ ((x.inp[p.2]?).getD []).length)

/-- The scale bytes in force for an input row: its own, or those kept for the group. -/
def ScreedSt.inScales (x : ScreedSt) (w r k i : Nat) : List Byte :=
  let m := x.inBytes w r k (.row i)
  if x.xAlongRows ∧ m.2 = 0 then mget [] x.grp (16 + i) else ((x.inp[k]?).getD []).drop m.1

/-- The values of an input row, widened to FP32. -/
def ScreedSt.rowVals (x : ScreedSt) (w r k i : Nat) : List Num :=
  let f := x.xfmt i
  let bs := (x.inp[k]?).getD []
  let sc := x.inScales w r k i
  (List.range (scrLen w)).map fun j =>
    fp32.round (scaledVal f (unpackElem f bs j) (if fmtIsMx f then byteAt sc (if x.xAlongRows then j else j / x.xbs) else 127))

/-- The input rows as values, in order; a target row is no row of values. -/
def ScreedSt.inputs (x : ScreedSt) (w r : Nat) : List (List Num) :=
  ((scrInputs w).zip (List.range 4)).map fun p => match p.1 with | .row i => x.rowVals w r p.2 i | .target => []

/-- The group scales kept after a row. -/
def ScreedSt.keepGroups (x : ScreedSt) (w r : Nat) : ScreedSt :=
  ((scrInputs w).zip (List.range 4)).foldl (fun y p =>
    match p.1 with
    | .row i => if fmtIsMx (x.xfmt i) ∧ x.xAlongRows then { y with grp := mput y.grp (16 + i) (x.inScales w r p.2 i) } else y
    | .target => y) x

/-! ## Records and vectors (R273) -/

/-- The records that a row reads, as (unit, KIND). -/
def scrReads (w r : Nat) : List (Nat × Nat) :=
  let u := scrStat w + r
  match opKind w with
  | 1 => [(u, 1)]
  | 5 => [(u, 2)]
  | 6 => (scrStat w + scrRows w + r, 2) :: (if bit w 7 then [] else [(u, 2)])
  | 8 => [(u, 2)]
  | _ => []

/-- The vectors that an operation uses, as (unit, FP32 words). -/
def ScreedSt.vectors (x : ScreedSt) (w : Nat) : List (Nat × Nat) :=
  let n := scrLen w
  match opKind w with
  | 0 => if bit w 5 then [(x.vec, if bit w 7 then n else 2 * n)] else []
  | 1 => (if bit w 6 then [(x.vec, n)] else []) ++ (if bit w 5 then [(x.vgrad, if bit w 7 then n else 2 * n)] else [])
  | 7 => if scrFn w = 3 ∨ scrFn w = 4 then [(x.vec, n)] else if scrFn w = 7 ∨ scrFn w = 8 then [(x.vec, n / 2)] else []
  | 8 => [(x.vec, 1)]
  | _ => []

/-- SCREED_STAT_MISS (R273). -/
def State.statMiss (s : State) (n c kind unit found reason : Nat) : State :=
  (s.flagCount (AU_SCR_STATUS n) 0 (AU_SCR_EVT_CNT n) 15 8).faultCtx c 0x02A0 n
    [(0, 1, n), (1, 1, kind), (2, 2, unit), (4, 1, found), (5, 1, reason)]

/-! ## Row operations -/

/-- What a row makes: the Screed (records, vectors), the output rows with their queues, and words of results that go out as
single FP32 values. -/
structure RowOut where
  scr : ScreedSt
  rows : List (Nat × List Num)
  single : Option Nat
  recs : List Num

/-- NORM (R264). -/
def rowNorm (seed w r : Nat) (x : ScreedSt) (xs : List Num) : RowOut :=
  let n := numInt (scrLen w)
  let rms := bit w 7
  let mu := if rms then num0 else div32 (rowSum seed 0 xs) n
  let d := xs.map fun v => if rms then v else sub32 v mu
  let var := div32 (rowSum seed 1 (d.map fun v => mul32 v v)) n
  let rstd := spec32 3 (add32 var (.fin false 1 (-((bits w 4 0 : Nat) + 5 : Int))))
  let xh := d.map fun v => mul32 v rstd
  let gam := x.vecAt x.vec 0 (scrLen w)
  let bet := x.vecAt x.vec (scrLen w) (scrLen w)
  let y :=
    if !bit w 5 then xh
    else if rms then zip2 mul32 xh gam
    else ((xh.zip gam).zip bet).map fun p => mad 5 p.1.1 p.1.2 p.2
  if bit w 6 then
    ⟨x.putRec (scrStat w + r) (to32 mu) (to32 rstd) (x.word (scrStat w + r) 2) 1 0, [(18, y)], none, [mu, rstd]⟩
  else ⟨x, [(18, y)], none, []⟩

/-- NORM_BWD (R264). -/
def rowNormBwd (seed w r : Nat) (x : ScreedSt) (xs dy : List Num) : RowOut :=
  let len := scrLen w
  let n := numInt len
  let rms := bit w 7
  let u := scrStat w + r
  let mu := of32 (x.word u 0)
  let rstd := of32 (x.word u 1)
  let xh := xs.map fun v => mul32 (if rms then v else sub32 v mu) rstd
  let g := if bit w 6 then zip2 mul32 dy (x.vecAt x.vec 0 len) else dy
  let mg := div32 (rowSum seed 2 g) n
  let mgx := div32 (rowSum seed 3 (zip2 mul32 g xh)) n
  let dx := (g.zip xh).map fun p =>
    mul32 rstd (sub32 (if rms then p.1 else sub32 p.1 mg) (mul32 p.2 mgx))
  let dg := dy.zip xh
  let x1 := if bit w 5 then
      x.putWords x.vgrad ((((x.vecAt x.vgrad 0 len).zip dg).map fun p => to32 (mad 6 p.2.1 p.2.2 p.1))
        ++ (if rms then [] else (zip2 add32 (x.vecAt x.vgrad len len) dy).map to32))
    else x
  ⟨x1, [(18, dx)], none, []⟩

/-- Value j of row r is masked under CAUSAL (R275). -/
def ScreedSt.masked (x : ScreedSt) (r j : Nat) : Bool := decide (x.pos r < x.kpos + j)

/-- SMAX (R275). -/
def rowSmax (seed w r : Nat) (x : ScreedSt) (xs : List Num) : RowOut :=
  let msk := fun j => bits w 7 6 == 1 && x.masked r j
  let js := List.range xs.length
  let kept := (xs.zip js).filter fun p => !msk p.2
  let m := kept.foldl (fun a p => numMax a p.1) negInf
  let p := (xs.zip js).map fun q => if msk q.2 then num0 else spec32 0 (sub32 q.1 m)
  let l := rowSum seed 4 p
  ⟨x.putRec (scrStat w + r) (to32 m) (to32 l) 0 2 kept.length, if bit w 5 then [] else [(18, p)], none, [m, l]⟩

/-- SMAX_BWD (R277): a value that the mask of the forward pass masked gives 0. The word has no mask field: whether CAUSAL is in
force is left open. -/
def rowSmaxBwd (seed w r : Nat) (x : ScreedSt) (xs dp : List Num) : RowOut :=
  let u := scrStat w + r
  let m := of32 (x.word u 0)
  let l := of32 (x.word u 1)
  let d := of32 (x.word u 2)
  let causal := seed % 2 == 1
  let ds := ((xs.zip dp).zip (List.range xs.length)).map fun q =>
    if (causal && x.masked r q.2) || numZero l then num0
    else mul32 (div32 (spec32 0 (sub32 q.1.1 m)) l) (sub32 q.1.2 d)
  ⟨x, [(18, ds)], none, []⟩

/-- MERGE (R276). -/
def rowMerge (w r : Nat) (x : ScreedSt) (oc orun : List Num) : RowOut :=
  let uc := scrStat w + scrRows w + r
  let ur := scrStat w + r
  let cm := of32 (x.word uc 0)
  let cl := of32 (x.word uc 1)
  let cc := bits (x.word uc 3) 23 0
  let rm := of32 (x.word ur 0)
  let rl := of32 (x.word ur 1)
  let rc := bits (x.word ur 3) 23 0
  let m := numMax rm cm
  let a := if rm = negInf then num0 else spec32 0 (sub32 rm m)
  let b := if cm = negInf then num0 else spec32 0 (sub32 cm m)
  let l := if bit w 7 then cl else mad 7 a rl (mul32 b cl)
  let o := if bit w 7 then oc else (orun.zip oc).map fun p => mad 8 a p.1 (mul32 b p.2)
  let x1 := if bit w 7 then x.putWords ur ((List.range 4).map (x.word uc)) else x.putRec ur (to32 m) (to32 l) 0 2 (rc + cc)
  let out := if bit w 6 then o.map fun v => if numZero l then num0 else div32 v l else o
  ⟨x1, if bit w 5 then [] else [(19, out)], none, if bit w 7 then [cm, cl] else [m, l]⟩

/-- keep(r, j) · s of DROP and DROP_ADD (R242, R265, R267). -/
def ScreedSt.keepS (x : ScreedSt) (key step r j : Nat) : Num :=
  let e := (x.rowbase + r) * x.rowlen + x.colbase + j
  if x.drop ≤ streamDraw key 0 step x.coat x.layer x.micro x.site e then div32 (numInt 65536) (numInt (65536 - x.drop : Nat)) else num0

/-- The rotation of a pair by ±pos · v (R268): the sine and cosine are within 2⁻²⁰ rad of the exact angle. -/
def ropePair (pos : Nat) (back : Bool) (v a b : Num) : Num × Num :=
  let co := of32 (Config.keyed 3 pos (to32 v) % 2 ^ 32)
  let si0 := of32 (Config.keyed 4 pos (to32 v) % 2 ^ 32)
  let si := if back then numNeg si0 else si0
  (mad 9 a co (numNeg (mul32 b si)), mad 10 a si (mul32 b co))

/-- ELEM (R267, R268). -/
def rowElem (w r : Nat) (key step : Nat) (x : ScreedSt) (x0 x1 : List Num) : RowOut :=
  let v := x.vecAt x.vec 0 (scrLen w)
  let js := List.range x0.length
  let y := match scrFn w with
    | 0 => zip2 add32 x0 x1
    | 1 => zip2 sub32 x0 x1
    | 2 => zip2 mul32 x0 x1
    | 3 => zip2 add32 x0 v
    | 4 => zip2 mul32 x0 v
    | 5 => (x0.zip js).map fun p => mul32 p.1 (x.keepS key step r p.2)
    | 6 => ((x0.zip x1).zip js).map fun p => mad 11 p.1.2 (x.keepS key step r p.2) p.1.1
    | f => (js.map fun j =>
        let i := j / 2
        let p := ropePair (x.pos r) (f == 8) ((v[i]?).getD num0) ((x0[2 * i]?).getD num0) ((x0[2 * i + 1]?).getD num0)
        if j % 2 = 0 then p.1 else p.2)
  ⟨x, [(18, y)], none, []⟩

/-- LOSS (R269). -/
def rowLoss (w r : Nat) (x : ScreedSt) (xs : List Num) (t : Nat) : RowOut :=
  let u := scrStat w + r
  let m := of32 (x.word u 0)
  let l := of32 (x.word u 1)
  let wt := of32 (x.word x.vec 0)
  let cb := x.colbase
  if t = 0xFFFFFFFF then ⟨x.putWord u 2 0, [(18, xs.map fun _ => num0)], none, []⟩
  else
    let d := (xs.zip (List.range xs.length)).map fun p =>
      mul32 wt (sub32 (div32 (spec32 0 (sub32 p.1 m)) l) (if cb + p.2 = t then num1 else num0))
    if cb ≤ t ∧ t < cb + scrLen w then
      let v := sub32 (add32 m (spec32 1 l)) ((xs[t - cb]?).getD num0)
      ⟨x.putWord u 2 (to32 v), [(18, d)], none, [v]⟩
    else ⟨x, [(18, d)], none, []⟩

/-- ROWRED (R270). -/
def rowRed (seed w r : Nat) (x : ScreedSt) (x0 x1 : List Num) : RowOut :=
  let v := match scrFn w with
    | 0 => rowSum seed 5 (zip2 mul32 x0 x1)
    | 1 => rowSum seed 5 x0
    | 2 => amaxOf x0
    | _ => rowSum seed 5 (x0.map fun a => mul32 a a)
  ⟨x.putWord (scrStat w + r) 2 (to32 v), [], if bit w 3 then some (to32 v) else none, [v]⟩

/-- VMOVE (R271). -/
def rowVmove (w : Nat) (x : ScreedSt) (xs : List Num) : RowOut :=
  if bit w 7 then
    let n := scrLen w
    let vs := x.vecAt (scrStat w) 0 n
    ⟨if bit w 6 then { x with side := zeroBytes x.side (16 * scrStat w) (4 * n) } else x, [(18, vs)], none, []⟩
  else ⟨x.putWords (scrStat w) (xs.map to32), [], none, []⟩

/-- Row r of an operation on its input rows. -/
def scrRow (seed w r key step : Nat) (x : ScreedSt) (ins : List (List Num)) (target : Nat) : RowOut :=
  let i := fun k => (ins[k]?).getD []
  match opKind w with
  | 0 => rowNorm seed w r x (i 0)
  | 1 => rowNormBwd seed w r x (i 0) (i 1)
  | 2 => ⟨x, [(18, if actGated (scrFn w) then zip2 (actFwd (scrFn w)) (i 0) (i 1) else (i 0).map fun v => actFwd (scrFn w) v num0)], none, []⟩
  | 3 =>
    if actGated (scrFn w) then
      let q := ((i 0).zip (i 1)).zip (i 2)
      ⟨x, [(18, q.map fun p => actBwd (scrFn w) p.1.1 p.1.2 p.2), (19, q.map fun p => actBwdGate (scrFn w) p.1.1 p.1.2 p.2)], none, []⟩
    else ⟨x, [(18, zip2 (fun v d => actBwd (scrFn w) v num0 d) (i 0) (i 1))], none, []⟩
  | 4 => rowSmax seed w r x (i 0)
  | 5 => rowSmaxBwd seed w r x (i 0) (i 1)
  | 6 => rowMerge w r x (i 0) (i 1)
  | 7 => rowElem w r key step x (i 0) (i 1)
  | 8 => rowLoss w r x (i 0) target
  | 9 => rowVmove w x (i 0)
  | _ => rowRed seed w r x (i 0) (i 1)

/-! ## Outputs (R261 to R263) -/

/-- How the Screed writes rows: OTENSOR's format, or OFMT, OBS and OBDIR. -/
def ScreedSt.outSpec (x : ScreedSt) (cx : Ctx) : OutSpec :=
  match (if x.otensor = 0xFFFF then none else cx.tensor x.otensor) with
  | some t => OutSpec.ofTensor x.otensor t x.layer
  | none => ⟨x.ofmt, x.obs, x.odown, none, x.layer⟩

/-- The 16-bit draw of an element of the output (R262). -/
def ScreedSt.outDraw (x : ScreedSt) (key step e : Nat) : Nat := streamDraw key 1 step x.coat x.layer x.micro x.otensor e

/-- Bytes made ready for a queue. -/
def ScreedSt.addOut (x : ScreedSt) (q : Nat) (bs : List (Bool × Byte)) : ScreedSt :=
  { x with outs := mset [] x.outs q (mget [] x.outs q ++ bs) }

/-- A non-finite value stands in encoded output of an unscaled format. -/
def outBad (f : Nat) (bs : List (Bool × Byte)) (n : Nat) : Bool :=
  !fmtIsMx f && (List.range n).any fun i => !numFinite (elemVal f (unpackElem f (bs.map (·.2)) i))

/-- One output row of queue q made ready: encoded now, or held until its group of rows is complete (R89, R261). `last` marks
the operation's last row. The Bool says whether it is non-finite. -/
def State.scrEmit (s : State) (n c r : Nat) (last : Bool) (q : Nat) (vs : List Num) : Bool × State :=
  let x := (s.au n).screed
  let o := x.outSpec (s.ctx c)
  let st := s.stream c
  let draw := x.outDraw st.1 st.2
  let put (t : State) (f : ScreedSt → ScreedSt) : State := t.modAu n fun a => { a with screed := f a.screed }
  let bad := vs.any fun v => !numFinite v
  if o.down ∧ fmtIsMx o.fmt then
    let held := mget [] x.held q ++ [vs.map to32]
    if (r + 1) % bsOf o.bs = 0 ∨ last then
      let p := s.encGroup c o draw (x.rowbase + r + 1 - held.length) x.rowlen x.colbase (held.map fun g => g.map of32)
      (bad, put p.2 fun y => { y with held := mdel y.held q }.addOut q p.1)
    else (bad, put s fun y => { y with held := mput y.held q held })
  else
    let p := s.encRow c o draw (x.rowbase + r) x.rowlen x.colbase vs
    (bad || outBad o.fmt p.1 vs.length, put p.2 fun y => y.addOut q p.1)

/-- Every output row of a row made ready. -/
def State.scrEmits (s : State) (n c r : Nat) (last : Bool) : List (Nat × List Num) → Bool × State
  | [] => (false, s)
  | (q, vs) :: rows =>
    let p := s.scrEmit n c r last q vs
    let p' := p.2.scrEmits n c r last rows
    (p.1 || p'.1, p'.2)

/-- SCREED_NONFINITE (R281), once in an operation. -/
def State.scrNonfin (s : State) (n c : Nat) (op : ActiveOp) (bad : Bool) : State :=
  if bad then
    let s1 := s.setFld (AU_SCR_STATUS n) 1 1 1
    if op.nonfin then s1
    else ((s1.count (AU_SCR_EVT_CNT n) 31 16 1).raise 0x0590 (.ctx c)
        [(0, 1, n), (1, 1, opKind op.word), (2, 2, (s1.au n).screed.layer)]).modAu n fun a => a.putAct 3 { op with nonfin := true }
  else s

/-- The row whose inputs are complete: its records are checked, it is computed, its outputs are made ready. -/
def State.scrCompute (s : State) (n c : Nat) (op : ActiveOp) : State :=
  let w := op.word
  let r := op.done
  let x := (s.au n).screed
  match (scrReads w r).find? fun e => x.recKind e.1 != e.2 with
  | some (u, _) => s.statMiss n c (opKind w) u (x.recKind u) 0
  | none =>
    let ins := x.inputs w r
    let st := s.stream c
    let p := s.pick
    let o := scrRow p.1 w r st.1 st.2 x ins (fieldLe ((x.inp[1]?).getD []) 0 4)
    let y := { o.scr.keepGroups w r with inp := (scrInputs w).map fun _ => [] }
    let op1 := { op with done := r + 1 }
    let s1 := p.2.modAu n fun a => { a with screed := y }.putAct 3 op1
    let took := ins.foldl (fun m v => m + v.length) 0
    let s2 := s1.setReg64 (AU_SCR_ELEMS_LO n) (AU_SCR_ELEMS_HI n) ((s1.reg64 (AU_SCR_ELEMS_LO n) (AU_SCR_ELEMS_HI n) + took) % 2 ^ 64)
    let e := s2.scrEmits n c r (r + 1 == scrRows w) o.rows
    let s3 := match o.single with
      | some v => e.2.modAu n fun a => { a with screed := a.screed.addOut 18 (mark false (natLe 4 v)) }
      | none => e.2
    s3.scrNonfin n c op1 (e.1 || o.recs.any fun v => !numFinite v)

/-- As many bytes pushed as every queue that the operation writes has room for. -/
def Au.scrPush (a : Au) : Au :=
  let m := a.screed.outs.foldl (fun m e =>
    let q := a.queue e.1
    min m (min e.2.length (qCap e.1 - (q.level + q.heldV + q.heldS)))) 8192
  a.screed.outs.foldl (fun b e =>
    let x := b.screed
    { (b.push e.1 (e.2.take m)) with screed := { x with outs := mset [] x.outs e.1 (e.2.drop m) } }) a

/-- Outputs are pushed as far as there is room, and after the last byte the operation is complete. -/
def State.scrPushOut (s : State) (n c : Nat) : State :=
  match s.opOf n 3 with
  | none => s
  | some (_, _, op) =>
    let s1 := s.modAu n Au.scrPush
    (if op.done = scrRows op.word ∧ (s1.au n).screed.outs.isEmpty then s1.endOp n 3 else s1).progress c

/-- One step of the operation under way: inputs are taken as far as they are present, a complete row is computed once the
previous one is out, and outputs are pushed. -/
def State.scrStep (s : State) (n c : Nat) (op : ActiveOp) : State :=
  let w := op.word
  let s1 := if op.done < scrRows w then s.modAu n fun a => a.gather w op.done 0 [] (scrInputs w) else s
  let a1 := s1.au n
  (if op.done < scrRows w ∧ a1.screed.outs.isEmpty ∧ a1.screed.gathered w op.done then s1.scrCompute n c op else s1).scrPushOut n c

/-! ## Starting (R252, R257, R273) -/

/-- SETP takes effect (R257). -/
def Au.setp (a : Au) (w : Nat) : Au :=
  { a with screed := { a.screed with params := mput a.screed.params (bits w 47 45) (bits w 44 0) } }

/-- What the start of a Screed operation does: SETP is complete at once; a vector out of range faults; the input rows are
empty. -/
def State.scrOnStart (n c : Nat) (op : FifoOp) (s : State) : State :=
  if opKind op.word = 0xA then (s.modAu n fun a => a.setp op.word).endOp n 3
  else
    match ((s.au n).screed.vectors op.word).find? fun v => decide (65536 < 4 * v.1 + v.2) with
    | some (u, _) => s.statMiss n c (opKind op.word) u 0 1
    | none => s.modAu n fun a =>
      { a with screed := { a.screed with inp := (scrInputs op.word).map fun _ => [], grp := [], outs := [], held := [] } }

/-- The Screed starts its next operation, if it is of kind k (any, where k is none). -/
def State.startScreed (s : State) (n : Nat) (wen : Bool) (k : Option Nat) : State :=
  s.startUnit n 3 wen (fun _ op => k.all fun v => opKind op.word == v) fun c op t => t.scrOnStart n c op

/-- A Screed command of kind k: it starts the next operation, or the one under way goes on. -/
def State.scrCmd (s : State) (n k : Nat) : State :=
  match s.opOf n 3 with
  | some (c, _, op) => if opKind op.word = k then s.scrStep n c op else s
  | none => s.startScreed n false (some k)

/-- NORM (R264). -/
def execNorm (a : AuId) (s : State) : Out := .next (s.scrCmd a 0)
/-- NORM_BWD (R264). -/
def execNormBwd (a : AuId) (s : State) : Out := .next (s.scrCmd a 1)
/-- ACT (R266). -/
def execAct (a : AuId) (s : State) : Out := .next (s.scrCmd a 2)
/-- ACT_BWD (R266). -/
def execActBwd (a : AuId) (s : State) : Out := .next (s.scrCmd a 3)
/-- SMAX (R275). -/
def execSmax (a : AuId) (s : State) : Out := .next (s.scrCmd a 4)
/-- SMAX_BWD (R277). -/
def execSmaxBwd (a : AuId) (s : State) : Out := .next (s.scrCmd a 5)
/-- MERGE (R276). -/
def execMerge (a : AuId) (s : State) : Out := .next (s.scrCmd a 6)
/-- ELEM (R267). -/
def execElem (a : AuId) (s : State) : Out := .next (s.scrCmd a 7)
/-- LOSS (R269). -/
def execLoss (a : AuId) (s : State) : Out := .next (s.scrCmd a 8)
/-- VMOVE (R271). -/
def execVmove (a : AuId) (s : State) : Out := .next (s.scrCmd a 9)
/-- SETP (R257). -/
def execSetp (a : AuId) (s : State) : Out := .next (s.scrCmd a 0xA)
/-- ROWRED (R270). -/
def execRowred (a : AuId) (s : State) : Out := .next (s.scrCmd a 0xB)

end Sys2Proof.Machine
end

