-- ==== Sys2Proof/Machine/Trowel.lean ====
section
/-!
DEFINITION. The Trowel lane (08_trowel.md): parameter groups, step sizes, UPDATE, ACCUM and TMUL.
-/
namespace Sys2Proof.Machine

/-! ## Groups and step sizes (R302 to R310) -/

/-- Entry g of the parameter-group table as read at the RUN; an absent table reads as zeros. -/
def Ctx.groupEntry (x : Ctx) (g : Nat) : List Byte := (x.trwGroups.drop (32 * g)).take 32
def Ctx.grpRule (x : Ctx) (g : Nat) : Nat := byteAt (x.groupEntry g) 0
def Ctx.grpNonfin (x : Ctx) (g : Nat) : Nat := byteAt (x.groupEntry g) 1
def Ctx.grpP (x : Ctx) (g : Nat) : Nat := fieldLe (x.groupEntry g) 2 2
def Ctx.grpLambda (x : Ctx) (g : Nat) : Num := of32 (fieldLe (x.groupEntry g) 4 4)
def Ctx.grpDamp (x : Ctx) (g : Nat) : Num := of32 (fieldLe (x.groupEntry g) 8 4)
def Ctx.grpBeta (x : Ctx) (g : Nat) : Num := of32 (fieldLe (x.groupEntry g) 12 4)

/-- TRW_STEP. -/
def State.step_ (s : State) (c : Nat) : Nat := s.reg64 (TRW_STEP_LO c) (TRW_STEP_HI c)

/-- The step-size source is SCHEDULE. -/
def State.scheduled (s : State) (c : Nat) : Bool := s.rbit (TRW_CTL c) 0

/-- The records of a SCHEDULE section that cover a group (Table 8.9), in section order. -/
def schedRecs (sec : List Byte) (g : Nat) : List (List Byte) :=
  (chunks 32 sec).filter fun r => decide (byteAt r 0 ≤ g) && decide (g ≤ byteAt r 1)

def recS0 (r : List Byte) : Nat := fieldLe r 4 8
def recS1 (r : List Byte) : Nat := fieldLe r 12 8

/-- The record in force for a step, and f as a binary64 value: the last that covers the step, else the one with the greatest
S1 that has passed. -/
def schedPick (rs : List (List Byte)) (s : Nat) : Option (List Byte × Num) :=
  match (rs.filter fun r => decide (recS0 r ≤ s) && decide (s < recS1 r)).getLast? with
  | some r => some (r, fp64.div (fp64.round (numInt (s - recS0 r : Nat))) (fp64.round (numInt (recS1 r - recS0 r : Nat))))
  | none =>
    match rs.filter fun r => decide (recS1 r ≤ s) with
    | [] => none
    | p :: ps => some (ps.foldl (fun b r => if recS1 b ≤ recS1 r then r else b) p, .fin false 1 0)

/-- Binary64 sum, difference and product. -/
def add64 (a b : Num) : Num := fp64.round (numAdd a b)
def sub64 (a b : Num) : Num := add64 a (numNeg b)
def mul64 (a b : Num) : Num := fp64.round (numMul a b)

/-- η by the schedule as FP32 bits (R310): the cosine and the power are known only to within a bound. -/
def schedEta (sec : List Byte) (g s : Nat) : Nat :=
  match schedPick (schedRecs sec g) s with
  | none => 0
  | some (r, f) =>
    let e0 := of32 (fieldLe r 20 4)
    let e1 := of32 (fieldLe r 24 4)
    let key := fieldLe r 0 28
    match byteAt r 2 with
    | 0 => to32 e0
    | 1 => to32 (add64 e0 (mul64 (sub64 e1 e0) f))
    | 2 =>
      let co := fp64.decode (Config.keyed 8 key s % 2 ^ 64)
      to32 (add64 e1 (fp64.div (mul64 (sub64 e0 e1) (add64 (.fin false 1 0) co)) (numInt 2)))
    | _ => to32 (mul64 e0 (fp64.decode (Config.keyed 9 key s % 2 ^ 64)))

/-- η of group g for the step in force, if it is valid (R305). -/
def State.etaOf (s : State) (c g : Nat) : Option Nat :=
  if s.scheduled c then some (match (s.ctx c).prog with | some p => schedEta p.sched g (s.step_ c) | none => 0)
  else mfind (s.ctx c).eta.cur g

/-! ## SET_STEP (R306, R307) -/

/-- A field of the descriptor breaks Table 8.7. -/
def setStepBad (d : List Byte) : Bool :=
  let first := fieldLe d 4 2
  let n := fieldLe d 6 2
  let mode := byteAt d 16
  let used := if mode = 0 then n else 1
  decide (255 < first) || n == 0 || decide (256 < n) || decide (256 < first + n) || decide (1 < mode) || (mode == 0 && decide (11 < n))
    || !zeroIn d 17 20 || !zeroIn d (20 + 4 * used) 64
    || (List.range (min used 11)).any fun i =>
      let w := fieldLe d (20 + 4 * i) 4
      !numFinite (of32 w) || numLt (of32 w) (.fin false 0 0)

/-- The values of a SET_STEP written to a bank. -/
def setStepInto (d : List Byte) (m : Map Nat) : Map Nat :=
  (List.range (fieldLe d 6 2)).foldl (fun t i =>
    mput t (fieldLe d 4 2 + i) (fieldLe d (20 + (if byteAt d 16 = 0 then 4 * i else 0)) 4)) m

/-- SET_STEP (R307): the first row of Table 8.8 that applies. -/
def execSetStep (c : CtxId) (k : Nat) (s : State) : Out :=
  .next (s.onCmd c k 0x03 fun cmd =>
    let d := cmd.desc
    let now := s.step_ c
    let goal := fieldLe d 8 8
    let e := (s.ctx c).eta
    let named := fun g => decide (fieldLe d 4 2 ≤ g) && decide (g < fieldLe d 4 2 + fieldLe d 6 2)
    if s.scheduled c then s.complete c k 0x20 0
    else if setStepBad d then s.complete c k 0x02 0
    else if goal < now ∨ (goal = now ∧ e.started.any named) then s.complete c k 0x21 0
    else if now + 1 < goal then s.complete c k 0x22 0
    else
      (s.modCtx c fun x => { x with
        eta := if goal = now then { x.eta with cur := setStepInto d x.eta.cur } else { x.eta with next := setStepInto d x.eta.next } }
        ).complete c k 0x00 0)

/-! ## Words (Table 8.3) -/

def uGroup (w : Nat) : Nat := bits w 47 40
def uWten (w : Nat) : Nat := bits w 39 24
def uTten (w : Nat) : Nat := bits w 23 8
def tGroup (w : Nat) : Nat := bits w 43 36
def tCmode (w : Nat) : Nat := bits w 45 44

/-- The group of a word; ACCUM has none. -/
def trwGroup (w : Nat) : Option Nat := match opKind w with | 0 => some (uGroup w) | 2 => some (tGroup w) | _ => none

/-- A tile record: format, block size code, blocks down columns; bytes of its values and of its scales. MW48 is format 0x10. -/
structure TileRec where
  fmt : Nat
  bs : Nat
  down : Bool
  deriving DecidableEq, Repr

/-- Elements of a Trowel tile. -/
def tileElems : Nat := 16384

def TileRec.bytes (t : TileRec) : Nat × Nat :=
  if t.fmt = 0x10 then (6 * tileElems, 0)
  else (rowBytes t.fmt tileElems, if fmtIsMx t.fmt then tileElems / bsOf t.bs else 0)

/-- An FP32 tile. -/
def tile32 : TileRec := ⟨0, 0, false⟩

/-- The records that an operation pops (Table 8.4). -/
def trwPops (w : Nat) : List TileRec :=
  match opKind w with
  | 0 => ⟨bits w 7 4, bits w 3 2, bit w 1⟩ :: (if bit w 0 then [tile32] else []) ++ [⟨0x10, 0, false⟩]
  | 1 => ⟨bits w 47 44, bits w 43 42, bit w 41⟩ :: (if bit w 40 then [] else [tile32])
  | _ => ⟨bits w 35 32, bits w 31 30, bit w 29⟩ :: ⟨bits w 28 25, bits w 24 23, bit w 22⟩ :: (if tCmode w = 0 then [] else [tile32])

/-- Scale byte of element e (row-major) of a 128 × 128 record: one a block, row-major over the grid of blocks (R86). -/
def tileScaleIdx (bs : Nat) (down : Bool) (e : Nat) : Nat := if down then 128 * (e / 128 / bs) + e % 128 else e / bs

/-- The values of a record, widened to FP32. -/
def TileRec.vals (t : TileRec) (bs : List Byte) : List Num :=
  if t.fmt = 0x10 then (List.range tileElems).map fun e => mw48.decode (fieldLe bs (6 * e) 6)
  else
    let sc := bs.drop t.bytes.1
    (List.range tileElems).map fun e =>
      fp32.round (scaledVal t.fmt (unpackElem t.fmt bs e)
        (if fmtIsMx t.fmt then byteAt sc (tileScaleIdx (bsOf t.bs) t.down e) else 127))

/-! ## Starting (R294, R308) -/

/-- TROWEL_OPERAND (R294). -/
def State.trwOperand (s : State) (n c kind reason : Nat) : State :=
  (s.flagCount (TRW_STATUS c) 4 (TRW_EVT_CNT1 c) 15 8).faultCtx c 0x02B0 n [(0, 1, n), (1, 1, kind), (2, 1, reason)]

/-- A tensor's format may be written by UPDATE. -/
def trwFmtOk (c : Nat) : Bool := (decide (1 ≤ c) && decide (c ≤ 7)) || mxCode c

/-- The reason for which an operation is refused at its start. -/
def Ctx.trwCheck (x : Ctx) (w : Nat) : Option Nat :=
  let grp := match trwGroup w with | some g => if 1 < x.grpRule g then some 3 else none | none => none
  if opKind w = 0 then
    match x.tensor (uWten w), x.tensor (uTten w) with
    | some a, some b =>
      if !trwFmtOk (a.fmt % 16) || !trwFmtOk (b.fmt % 16) then some 1
      else if a.layer ≠ b.layer then some 2 else grp
    | _, _ => some 0
  else grp

/-- What the start of a Trowel operation does: the check; an UPDATE takes η and its step. -/
def State.trwOnStart (s : State) (n c : Nat) (op : FifoOp) : State :=
  match (s.ctx c).trwCheck op.word with
  | some r => s.trwOperand n c (opKind op.word) r
  | none =>
    let s1 := s.modAu n fun a =>
      { a with trowel := { inp := (trwPops op.word).map fun _ => [], out := [], late := none } }
    if opKind op.word = 0 then
      let g := uGroup op.word
      let eta := (s1.etaOf c g).getD 0
      (s1.modAu n fun a => a.putAct 4 { startedOp op with regs := [s1.step_ c, eta] }).modCtx c fun x =>
        { x with eta := { x.eta with started := if x.eta.started.contains g then x.eta.started else x.eta.started ++ [g] } }
    else s1

/-- η is there for an UPDATE of the word's group. -/
def State.etaReady (s : State) (c w : Nat) : Bool := opKind w != 0 || (s.etaOf c (uGroup w)).isSome

/-- The lane starts its next operation, if it is of kind k (any, where k is none). -/
def State.startTrowel (s : State) (n : Nat) (wen : Bool) (k : Option Nat) : State :=
  s.startUnit n 4 wen (fun c op => (k.all fun v => opKind op.word == v) && s.etaReady c op.word) fun c op t => t.trwOnStart n c op

/-- An UPDATE that is next and has no η waits for it from now on. -/
def State.etaWait (s : State) (n : Nat) : State :=
  match s.live n, (s.au n).nextOf 4 with
  | some (c, _), some op =>
    if !s.etaReady c op.word ∧ (s.au n).trowel.late.isNone then
      s.modAu n fun a => { a with trowel := { a.trowel with late := some s.now } }
    else s
  | _, _ => s

/-! ## UPDATE (R296 to R300) -/

/-- The decay, the gradient term and the results for one element: w', w0 and η·g. -/
def updateElem (eta lambda w g : Num) : Nat × Nat × Num :=
  let e := mul64 (mul64 eta lambda) w
  let t0 := sub64 w e
  let eg := numMul eta g
  let t := sub64 t0 (fp64.round eg)
  ((mw48.narrow .ieee .rne t).bits, (mw48.narrow .ieee .rne t0).bits, eg)

/-- The gradient term is below half a unit in the last place of w0 (R114). -/
def unchanged (w0 : Nat) (eg : Num) : Bool :=
  let e := bits w0 46 39
  if e = 255 then false
  else numLt (numAbs eg) (.fin false 1 (if e = 0 then -166 else (e : Int) - 167))

/-- A tile's narrow copy (R297): blocks over the record, scaled at write; its bytes by role, and what it counts. -/
def narrowTile (t : TileRec) (rnd : Nat → Rnd) (vs : List Num) : List (Bool × Byte) × List NarrowRes :=
  let at_ := fun e => (vs[e]?).getD .nan
  if fmtIsMx t.fmt then
    let bs := bsOf t.bs
    let els := fun b => (List.range bs).map fun i => if t.down then 128 * (b / 128 * bs + i) + b % 128 else b * bs + i
    let bl := (List.range (tileElems / bs)).map fun b => writeBlock t.fmt (fun i => rnd (((els b)[i]?).getD 0)) ((els b).map at_)
    let elem := fun e =>
      let b := tileScaleIdx bs t.down e
      let i := if t.down then e / 128 % bs else e % bs
      match bl[b]? with | some r => (match r.elems[i]? with | some x => x.bits | none => 0) | none => 0
    (mark false (packRow t.fmt ((List.range tileElems).map elem)) ++ mark true (bl.map fun b => BitVec.ofNat 8 b.scale),
      (bl.map (·.elems)).flatten)
  else
    let rs := (List.range tileElems).map fun e => narrow t.fmt (rnd e) (at_ e)
    (mark false (packRow t.fmt (rs.map (·.bits))), rs)

/-- A transposed tile. -/
def transpose128 (vs : List Num) : List Num := (List.range tileElems).map fun e => (vs[128 * (e % 128) + e / 128]?).getD .nan

/-- TROWEL_NONFINITE (R300, R301), which under FAULT faults the context. -/
def State.trwNonfinite (s : State) (n c kind group layer : Nat) : State :=
  let pol := (s.ctx c).grpNonfin group
  let pay := [(0, 1, n), (1, 1, kind), (2, 1, group), (3, 1, pol), (4, 2, layer)]
  let s1 := s.flagCount (TRW_STATUS c) 2 (TRW_EVT_CNT0 c) 31 16
  if pol = 1 then s1.faultCtx c 0x05B2 n pay else s1.raise 0x05B2 (.ctx c) pay

/-- Results made ready for TQ1. -/
def State.trwResult (s : State) (n : Nat) (out : List (Bool × Byte)) (op : ActiveOp) : State :=
  s.modAu n fun a => { a with trowel := { a.trowel with inp := [], out := out } }.putAct 4 { op with done := 1 }

/-- The rounding of a tensor's elements in an UPDATE (R298): the word names no place of the tile in its tensor, so the draws are
left open. -/
def tileRnd (t : TensorRec) (seed k e : Nat) : Rnd := if t.round = 1 then .sr (Config.keyed 6 (2 * seed + k) e) else .rne

/-- UPDATE on its operands. -/
def State.trwUpdate (s : State) (n c : Nat) (op : ActiveOp) (ins : List (List Byte)) : State :=
  let w := op.word
  let x := s.ctx c
  match x.tensor (uWten w), x.tensor (uTten w) with
  | some tw, some tt =>
    let recs := (trwPops w).zip ins
    let val := fun k => match recs[k]? with | some (t, bs) => t.vals bs | none => []
    let g := if bit w 0 then (val 1).zip (val 0) |>.map fun p => add32 p.1 p.2 else val 0
    let mw := val (if bit w 0 then 2 else 1)
    let raw := (ins.getLast?).getD []
    let bad := g.any fun v => !numFinite v
    let layer := tw.layer
    let s0 := if bad then s.trwNonfinite n c 0 (uGroup w) layer else s
    if bad ∧ x.grpNonfin (uGroup w) = 1 then s0
    else
      let eta := of32 (op.regs[1]?.getD 0)
      let lam := x.grpLambda (uGroup w)
      let res := (mw.zip g).map fun p => updateElem eta lam p.1 p.2
      let bytes := if bad then raw else (res.map fun r => natLe 6 r.1).flatten
      let new := if bad then mw else res.map fun r => mw48.decode r.1
      let p := s0.pick
      let a := narrowTile ⟨tw.fmt % 16, tw.block % 4, bit tw.block 2⟩ (tileRnd tw p.1 0) new
      let b := narrowTile ⟨tt.fmt % 16, tt.block % 4, bit tt.block 2⟩ (tileRnd tt p.1 1) (transpose128 new)
      let same := if bad then 0 else (res.filter fun r => unchanged r.2.1 r.2.2).length
      let nil := if g.all numZero then 1 else 0
      let s1 := p.2.plumbAdd c layer fun q =>
        let r := (q.addAll false a.2).addAll false b.2
        { r with unchanged := r.unchanged + same, zeroTiles := r.zeroTiles + nil, owned := r.owned + tileElems }
      s1.trwResult n (mark false bytes ++ a.1 ++ b.1) op
  | _, _ => s

/-! ## ACCUM and TMUL -/

/-- FP32 tile bytes. -/
def tileOut (vs : List Num) : List (Bool × Byte) := mark false (vs.map fun v => natLe 4 (to32 v)).flatten

/-- ACCUM on its operands (R292, R300). -/
def State.trwAccum (s : State) (n : Nat) (op : ActiveOp) (ins : List (List Byte)) : State :=
  let recs := (trwPops op.word).zip ins
  let val := fun k => match recs[k]? with | some (t, bs) => t.vals bs | none => []
  s.trwResult n (tileOut (if bit op.word 40 then val 0 else ((val 1).zip (val 0)).map fun p => add32 p.1 p.2)) op

/-- TMUL on its operands (R290, R301): C, or β·C, with the products added in an order that is left open. -/
def State.trwTmul (s : State) (n c : Nat) (op : ActiveOp) (ins : List (List Byte)) : State :=
  let w := op.word
  let recs := (trwPops w).zip ins
  let val := fun k => match recs[k]? with | some (t, bs) => t.vals bs | none => []
  let a := if bit w 47 then transpose128 (val 0) else val 0
  let b := if bit w 46 then transpose128 (val 1) else val 1
  let beta := (s.ctx c).grpBeta (tGroup w)
  let cv := fun e => if tCmode w = 0 then (none : Option Num)
    else
      let v := ((val 2)[e]?).getD .nan
      some (if tCmode w = 2 then mul32 beta v else v)
  let p := s.pick
  if (a ++ b).any fun v => !numFinite v then
    let s1 := p.2.trwNonfinite n c 2 (tGroup w) 0xFFFF
    if (s.ctx c).grpNonfin (tGroup w) = 1 then s1
    else s1.trwResult n (tileOut ((List.range tileElems).map fun e => (cv e).getD (of32 (Config.keyed 7 p.1 e % 2 ^ 32)))) op
  else
    let out := (List.range tileElems).map fun e =>
      let ps := (List.range 128).map fun k => numMul ((a[128 * (e / 128) + k]?).getD .nan) ((b[128 * k + e % 128]?).getD .nan)
      let ts := match cv e with | some v => v :: ps | none => ps
      treeSum (Config.treePick p.1 7 e) ts.length ts
    p.2.trwResult n (tileOut out) op

/-! ## Steps of an operation -/

/-- Operand records are taken from TQ0 in order, as far as they are present. -/
def Au.trwGather (a : Au) : Nat → List TileRec → Au
  | _, [] => a
  | k, t :: ts =>
    let have_ := (a.trowel.inp[k]?).getD []
    let m := t.bytes
    let p := a.pull 20 m.1 m.2 have_.length
    let b := { p.2 with trowel := { p.2.trowel with inp := setAt p.2.trowel.inp k (have_ ++ p.1) } }
    if m.1 + m.2 ≤ have_.length + p.1.length then b.trwGather (k + 1) ts else b

/-- Every operand record is complete. -/
def TrowelSt.gathered (x : TrowelSt) (w : Nat) : Bool :=
  ((trwPops w).zip x.inp).all fun p => decide (p.1.bytes.1 + p.1.bytes.2 ≤ p.2.length)

/-- Results pushed to TQ1 as far as there is room. -/
def Au.trwPush (a : Au) : Au :=
  let q := a.queue 21
  let m := qCap 21 - (q.level + q.heldV + q.heldS)
  { (a.push 21 (a.trowel.out.take m)) with trowel := { a.trowel with out := a.trowel.out.drop m } }

/-- The operation under way goes on: operands are taken; complete, they are worked on; results are pushed; after the last byte
the operation is complete (R295). -/
def State.trwStep (s : State) (n c : Nat) (op : ActiveOp) : State :=
  if op.done = 0 then
    let s1 := (s.modAu n fun a => a.trwGather 0 (trwPops op.word)).progress c
    if (s1.au n).trowel.gathered op.word then
      let ins := (s1.au n).trowel.inp
      match opKind op.word with
      | 0 => s1.trwUpdate n c op ins
      | 1 => s1.trwAccum n op ins
      | _ => s1.trwTmul n c op ins
    else s1
  else
    let s1 := (s.modAu n Au.trwPush).progress c
    if (s1.au n).trowel.out.isEmpty then
      let s2 := s1.endOp n 4
      if opKind op.word = 0 then s2.setReg (TRW_UPDATES c) ((s2.reg (TRW_UPDATES c) + 1) % 2 ^ 32) else s2
    else s1

/-- A Trowel command of kind k. -/
def State.trwCmd (s : State) (n k : Nat) : State :=
  match s.opOf n 4 with
  | some (c, _, op) => if opKind op.word = k then s.trwStep n c op else s
  | none => s.startTrowel n false (some k)

/-- UPDATE (R296): an UPDATE that has no η waits (R308). -/
def execUpdate (a : AuId) (s : State) : Out := .next ((s.trwCmd a 0).etaWait a)

/-- UPDATE_ETA_ARRIVES (R308): the UPDATE that has waited starts once η is there. -/
def execUpdateEtaArrives (a : AuId) (s : State) : Out :=
  .next (if (s.au a).trowel.late.isSome then s.startTrowel a false (some 0) else s)

/-- STEP_SIZE_LATE (R308): at most once per context per step; the wait goes on. -/
def execStepSizeLate (a : AuId) (t : Nat) (s : State) : Out :=
  let s0 := s.at t
  .next (match s0.live a, (s0.au a).nextOf 4, (s0.au a).trowel.late with
    | some (c, _), some op, some since =>
      let us := (t - since) / 1000
      if s0.fld (TRW_CTL c) 31 16 ≤ us ∧ !(s0.ctx c).eta.late ∧ !s0.etaReady c op.word then
        ((s0.flagCount (TRW_STATUS c) 3 (TRW_EVT_CNT1 c) 31 24).modCtx c fun x => { x with eta := { x.eta with late := true } }).raise
          0x0940 (.ctx c) [(0, 1, uGroup op.word), (4, 8, s0.step_ c), (12, 4, us)]
      else s0
    | _, _, _ => s0)

/-- ACCUM (R292). -/
def execAccum (a : AuId) (s : State) : Out := .next (s.trwCmd a 1)

/-- TMUL (R290). -/
def execTmul (a : AuId) (s : State) : Out := .next (s.trwCmd a 2)

end Sys2Proof.Machine
end

