-- ==== Sys2Proof/Machine/Solver.lean ====
section
/-!
DEFINITION. The tables that a RUN checks (R302, R303, R309, R311, R312), and the preconditioners of the matrix rule at a
boundary and in the solvers (R316 to R321).
-/
namespace Sys2Proof.Machine

/-! ## Bases -/

/-- A table base register pair in Stencil BASE form (Table 8.16). -/
def State.baseReg (s : State) (lo hi : Nat) : Nat := 2 ^ 52 * bits (s.reg hi) 31 20 + 2 ^ 32 * bits (s.reg hi) 19 0 + s.reg lo

/-- Bytes of the buffer that a base names, from the base on. -/
def Ctx.baseLeft (x : Ctx) (w : Nat) : Nat := x.baseTop w - bits w 51 0

/-! ## Checks at RUN (R303) -/

/-- An FP32 word is finite and at least 0. -/
def nonneg32 (w : Nat) : Bool := numFinite (of32 w) && !numLt (of32 w) num0'
where
  /-- Zero. -/
  num0' : Num := .fin false 0 0

/-- An FP32 word is finite and above 0. -/
def pos32 (w : Nat) : Bool := nonneg32 w && !numZero (of32 w)

/-- A parameter-group entry keeps Table 8.6. -/
def groupOk (e : List Byte) : Bool :=
  let matrix := byteAt e 0 == 1
  decide (byteAt e 0 ≤ 1) && decide (byteAt e 1 ≤ 1) && (!matrix || fieldLe e 2 2 != 0) && nonneg32 (fieldLe e 4 4)
    && (!matrix || pos32 (fieldLe e 8 4)) && pos32 (fieldLe e 12 4) && !numLt (.fin false 1 0) (of32 (fieldLe e 12 4)) && zeroIn e 16 32

/-- The first entry that fails. -/
def firstBad (p : List Byte → Bool) : Nat → List (List Byte) → Option Nat
  | _, [] => none
  | i, e :: es => if p e then firstBad p (i + 1) es else some i

/-- Order of a matrix layer's dimension. -/
def dimOk (n : Nat) : Bool := n % 128 == 0 && decide (128 ≤ n) && decide (n ≤ 8192)

/-- A matrix layer entry keeps Table 8.10. -/
def Ctx.matOk (x : Ctx) (groups e : List Byte) : Bool :=
  decide (fieldLe e 0 2 ≤ 4095) && byteAt groups (32 * byteAt e 2) == 1 && dimOk (fieldLe e 4 2) && dimOk (fieldLe e 6 2)
    && zeroIn e 60 64 && (List.range 6).all fun i => (x.baseVa (fieldLe e (8 + 8 * i) 8)).isSome

/-- A schedule record keeps Table 8.9. -/
def schedOk (r : List Byte) : Bool :=
  let pos := fun o => if byteAt r 2 = 3 then pos32 (fieldLe r o 4) else nonneg32 (fieldLe r o 4)
  decide (byteAt r 0 ≤ byteAt r 1) && decide (byteAt r 2 ≤ 3) && byteAt r 3 == 0 && decide (recS0 r < recS1 r) && pos 20 && pos 24
    && zeroIn r 28 32

/-- The Trowel tables of a context as a RUN reads them: the groups, the matrix layers, and the first failure (table, entry). -/
structure TrwTables where
  groups : List Byte
  mats : List (List Byte)
  bad : Option (Nat × Nat)

/-- The ranges of virtual memory that the read of the tables needs. -/
def State.trwRanges (s : State) (c : Nat) : List (Nat × Nat) :=
  let x := s.ctx c
  let g := s.baseReg (TRW_GRP_BASE_LO c) (TRW_GRP_BASE_HI c)
  let m := s.baseReg (TRW_MAT_BASE_LO c) (TRW_MAT_BASE_HI c)
  (if g = 0 then [] else match x.baseRange g 8192 with | some va => [(va, 8192)] | none => [])
    ++ (if m = 0 then [] else match x.baseRange m 64 with
      | some va =>
        let n := 64 + 64 * min 4096 (fieldLe (s.vpeek c va 2) 0 2)
        if n ≤ x.baseLeft m then [(va, n)] else [(va, 64)]
      | none => [])

/-- The tables read and checked, in the order groups, matrix layers, schedule, workspace. -/
def State.trwTables (s : State) (c : Nat) : TrwTables :=
  let x := s.ctx c
  let g := s.baseReg (TRW_GRP_BASE_LO c) (TRW_GRP_BASE_HI c)
  let m := s.baseReg (TRW_MAT_BASE_LO c) (TRW_MAT_BASE_HI c)
  let ws := s.baseReg (TRW_WS_BASE_LO c) (TRW_WS_BASE_HI c)
  let sec := match x.prog with | some p => p.sched | none => []
  let groups := if g = 0 then some [] else (x.baseRange g 8192).map fun va => s.vpeek c va 8192
  match groups with
  | none => ⟨[], [], some (0, 0)⟩
  | some gs =>
    match (if g = 0 then none else firstBad groupOk 0 (chunks 32 gs)) with
    | some i => ⟨gs, [], some (0, i)⟩
    | none =>
      let mats : Option (List (List Byte)) :=
        if m = 0 then some []
        else match x.baseRange m 64 with
          | none => none
          | some va =>
            let h := s.vpeek c va 64
            let n := fieldLe h 0 2
            if 4096 < n ∨ !zeroIn h 2 64 ∨ x.baseLeft m < 64 + 64 * n then none
            else some (chunks 64 (s.vpeek c (va + 64) (64 * n)))
      match mats with
      | none => ⟨gs, [], some (1, 0)⟩
      | some es =>
        let big := es.foldl (fun n e => max n (max (fieldLe e 4 2) (fieldLe e 6 2))) 0
        match firstBad (x.matOk gs) 0 es, firstBad schedOk 0 (chunks 32 sec) with
        | some i, _ => ⟨gs, es, some (1, i)⟩
        | none, some i => ⟨gs, es, some (2, i)⟩
        | none, none =>
          if es ≠ [] ∧ (ws = 0 ∨ (x.baseRange ws (16 * big * big)).isNone) then ⟨gs, es, some (3, 0)⟩ else ⟨gs, es, none⟩

/-! ## Refresh jobs (R316 to R321) -/

/-- Place of matrix layer entry i in memory. -/
def State.matVa (s : State) (c i : Nat) : Option Nat :=
  ((s.ctx c).baseVa (s.baseReg (TRW_MAT_BASE_LO c) (TRW_MAT_BASE_HI c))).map fun va => va + 64 + 64 * i

/-- A factor in the blocks that the solvers read (those with i ≤ i′) holds a non-finite element. -/
def State.factorBad (s : State) (c base n : Nat) : Bool :=
  match (s.ctx c).baseVa base with
  | none => false
  | some va => (List.range n).any fun r =>
    let lo := 128 * (r / 128)
    let row := s.vpeek c (va + 4 * (r * n + lo)) (4 * (n - lo))
    (chunks 4 row).any fun b => !numFinite (of32 (leNat b))

/-- A refresh job starts with the boundary that opens step k: the statistics are copied (R316). -/
def State.startRefresh (s : State) (c i k : Nat) (e : List Byte) : State :=
  let job : SolverJob := ⟨c, i, s.factorBad c (fieldLe e 8 8) (fieldLe e 4 2), s.factorBad c (fieldLe e 16 8) (fieldLe e 6 2)⟩
  { s with solver := s.solver ++ [job] }.modCtx c fun x => { x with refresh := mput x.refresh i ⟨k, .running⟩ }

/-- FLAGS of entry i rewritten in memory. -/
def State.putMatFlags (s : State) (c i : Nat) (f : Nat → Nat) : State :=
  match s.matVa c i with
  | none => s
  | some va => s.vpoke c (va + 3) (natLe 1 (f (byteAt (s.vpeek c (va + 3) 1) 0)))

/-- PRECOND_FALLBACK (R319). -/
def State.precondFallback (s : State) (c k layer reason damp : Nat) (right : Bool) : State :=
  (s.flagCount (TRW_STATUS c) 0 (TRW_EVT_CNT0 c) 15 0).raise 0x05B0 (.ctx c)
    [(0, 8, k), (8, 2, layer), (10, 1, b2n right), (11, 1, reason), (12, 4, damp)]

/-- PRECOND_LATE (R318). -/
def State.precondLate (s : State) (c k layer : Nat) : State :=
  (s.flagCount (TRW_STATUS c) 1 (TRW_EVT_CNT1 c) 23 16).raise 0x05B1 (.ctx c) [(0, 8, k), (8, 2, layer)]

/-- One matrix layer at the boundary that opens step k (R316 to R320). -/
def State.precondEntry (s0 : State) (c k : Nat) (force : Bool) (i : Nat) (e : List Byte) : State :=
  let s := s0.putMatFlags c i fun f => putBits f 2 2 0
  let p := (s.ctx c).grpP (byteAt e 2)
  let layer := fieldLe e 0 2
  let boundary := k != 0 && k % p == 0
  match mfind (s.ctx c).refresh i with
  | none => if boundary || force then s.startRefresh c i k e else s
  | some r =>
    if k < r.step + p then s
    else match r.st with
      | .running => if k = r.step + p then s.precondLate c r.step layer else s
      | .good =>
        let s1 := s.putMatFlags c i fun f => putBits (putBits f 0 0 (1 - f % 2)) 1 1 1
        let s2 := match s1.matVa c i with | some va => s1.vpoke c (va + 56) (natLe 4 r.step) | none => s1
        let s3 := s2.modCtx c fun x => { x with refresh := mdel x.refresh i }
        if boundary ∨ r.step + p < k then s3.startRefresh c i k e else s3
      | .failed right reason damp =>
        ((s.precondFallback c k layer reason damp right).putMatFlags c i fun f => putBits f 2 2 1).startRefresh c i k e

/-- The matrix layers one after another. -/
def State.precondAll (s : State) (c k : Nat) (force : Bool) : Nat → List (List Byte) → State
  | _, [] => s
  | i, e :: es => (s.precondEntry c k force i e).precondAll c k force (i + 1) es

/-- Every matrix layer at the boundary that opens step k. -/
def State.precondBoundary (s : State) (c k : Nat) : State :=
  let x := s.ctx c
  (s.precondAll c k x.refreshNow 0 x.mats).modCtx c fun y => { y with refreshNow := false }

/-- After a restore no matrix layer has roots in force, and the next boundary starts a refresh (R320). -/
def State.precondRestore (s : State) (c : Nat) : State :=
  let s1 := (List.range (s.ctx c).mats.length).foldl (fun t i => t.putMatFlags c i fun f => putBits f 2 1 0) s
  { s1 with solver := s1.solver.filter fun j => j.ctx != c }.modCtx c fun x => { x with refresh := [], refreshNow := true }

/-- A root of order n written to its bank: its values are known only to within the bound of R317. -/
def State.putRoot (s : State) (c base n seed : Nat) : State :=
  match (s.ctx c).baseVa base with
  | none => s
  | some va => s.vpoke c va ((List.range (n * n)).map fun e => natLe 4 (Config.keyed 10 seed e)).flatten

/-- The range of virtual memory that a root of order n at a base takes. -/
def Ctx.rootRange (x : Ctx) (base n : Nat) : List (Nat × Nat) :=
  match x.baseVa base with
  | some va => [(va, 4 * n * n)]
  | none => []

/-- What becomes of a job (R317): a non-finite factor fails; else success or failure, and its reason, are left open, since the
spec gives no order of the sums on which a bound is met. -/
def jobResult (j : SolverJob) (p damp : Nat) : JobState :=
  if j.badL then .failed false 2 damp
  else match p % 5 with
    | 0 => .failed false 0 damp
    | 1 => .failed false 1 damp
    | q =>
      if j.badR then .failed true 2 damp
      else if q = 2 then .failed true 0 damp
      else if q = 3 then .failed true 1 damp
      else .good

/-- SOLVER_JOB_COMPLETE (R317, R321): the job of solver n ends; the two oldest jobs are the ones that run. -/
def execSolverJobComplete (n : Nat) (s : State) : Out :=
  .next (match (if n < 2 then s.solver[n]? else none) with
    | none => s
    | some j =>
      let c := j.ctx
      match (s.ctx c).mats[j.entry]?, s.matVa c j.entry with
      | some e, some va =>
        let m := fieldLe e 4 2
        let k := fieldLe e 6 2
        let bank := byteAt (s.vpeek c (va + 3) 1) 0 % 2
        let lb := fieldLe e (if bank = 0 then 32 else 24) 8
        let rb := fieldLe e (if bank = 0 then 48 else 40) 8
        s.hubNeeds c ((s.ctx c).rootRange lb m ++ (s.ctx c).rootRange rb k) true fun s0 =>
          let p := s0.pick
          let q := p.2.pick
          let r := jobResult j p.1 (q.1 % 2 ^ 32)
          let s1 := { q.2 with solver := q.2.solver.eraseIdx n }
          let s2 := if r = .good then (s1.putRoot c lb m (2 * p.1)).putRoot c rb k (2 * p.1 + 1) else s1
          s2.modCtx c fun x => match mfind x.refresh j.entry with
            | some f => { x with refresh := mput x.refresh j.entry { f with st := r } }
            | none => x
      | _, _ => { s with solver := s.solver.eraseIdx n })

end Sys2Proof.Machine
end

