-- ==== Sys2Proof/Machine/Dust.lean ====
section
/-!
DEFINITION. The Dust sheet (13_resilience.md): the securing table and the secured set, the step boundary, epochs and their copies,
SECURE_NOW and FAILURE_NOTICE.
-/
namespace Sys2Proof.Machine

/-! ## The securing table (R525 to R527) -/

/-- DST_TBL_BASE in Stencil BASE form. -/
def State.dustBase (s : State) (c : Nat) : Nat := s.baseReg (DST_TBL_BASE_LO c) (DST_TBL_BASE_HI c)

/-- The ranges that a read of the table needs. -/
def State.dustRanges (s : State) (c : Nat) : List (Nat × Nat) :=
  let b := s.dustBase c
  if b = 0 then []
  else match (s.ctx c).baseRange b 64 with
    | none => []
    | some va =>
      let n := 64 + 32 * min 4096 (fieldLe (s.vpeek c va 20) 18 2)
      if ((s.ctx c).baseRange b n).isSome then [(va, n)] else [(va, 64)]

/-- The header keeps Table 13.1. -/
def dustHeadOk (h : List Byte) : Bool :=
  bits (byteAt h 17) 7 1 == 0 && decide (fieldLe h 18 2 ≤ 4096) && zeroIn h 20 24 && zeroIn h 48 64
    && bits (fieldLe h 32 8) 51 0 % frameBytes == 0 && fieldLe h 40 8 % frameBytes == 0

/-- A region entry keeps Table 13.2. -/
def dustEntryOk (e : List Byte) : Bool :=
  bits (fieldLe e 0 8) 51 0 % frameBytes == 0 && fieldLe e 8 8 != 0 && fieldLe e 8 8 % frameBytes == 0 && decide (byteAt e 16 ≤ 1)
    && zeroIn e 17 32

/-- n bytes from a base in a VIRT buffer of 2 MiB pages: their virtual address. -/
def Ctx.secRange (x : Ctx) (w n : Nat) : Option Nat :=
  match x.baseRange w n with
  | none => none
  | some va =>
    if x.pt.any fun e => e.2.big && decide (frameBytes * e.1 < va + n) && decide (va < frameBytes * e.1 + 2 ^ 30) then none else some va

/-- The first entry that lies outside its buffer. -/
def Ctx.firstOut (x : Ctx) : Nat → List DustRegion → Option Nat
  | _, [] => none
  | i, r :: rs => if (x.secRange r.base r.bytes).isSome then x.firstOut (i + 1) rs else some i

/-- The first region that overlaps an earlier one. -/
def Ctx.firstOverlap (x : Ctx) : Nat → List (Nat × Nat) → List DustRegion → Option Nat
  | _, _, [] => none
  | i, seen, r :: rs =>
    let va := (x.secRange r.base r.bytes).getD 0
    if seen.any fun e => decide (e.1 < va + r.bytes) && decide (va < e.1 + e.2) then some i
    else x.firstOverlap (i + 1) ((va, r.bytes) :: seen) rs

/-! ## The secured set (R528) -/

/-- The pages of a range, named by the base through which it is reached. -/
def secOf (own : Bool) (w va n : Nat) : List SecPage :=
  if n = 0 then []
  else (List.range' (va / frameBytes) ((va + n - 1) / frameBytes - va / frameBytes + 1)).map fun p =>
    { own := own, lbuf := bits w 63 52, off := bits w 51 0 - va % frameBytes + frameBytes * (p - va / frameBytes), page := p }

/-- A page joins the set: it is secured once, at its first position, and counts as OWN if any item of it does. -/
def secAdd (ps : List SecPage) (p : SecPage) : List SecPage :=
  if ps.any fun q => q.page == p.page then ps.map fun q => if q.page = p.page then { q with own := q.own || p.own } else q
  else ps ++ [p]

/-- A range of the automatic items, reached by a base in Stencil BASE form. -/
def Ctx.secBase (x : Ctx) (own : Bool) (w n : Nat) : List SecPage :=
  match x.baseVa w with | some va => secOf own w va n | none => []

/-- Items 3 to 5: the scale-table entries and overflow maps of delayed-scaled tensors, REDUCED or not. -/
def State.secScales (s : State) (c : Nat) (reduced maps : Bool) : List SecPage :=
  let x := s.ctx c
  let ds := match x.prog with | some p => p.tensors.filter TensorRec.delayed | none => []
  (List.range ds.length).flatMap fun k =>
    match ds[k]? with
    | none => []
    | some t =>
      if bit t.kind 0 = reduced then
        let va := s.scaleVa c k
        let m := fieldLe (s.vpeek c va 32) 24 8
        if maps then secOf (!reduced) m m t.pairBytes else secOf (!reduced) va va 32
      else []

/-- The base of the stream-state record, if the context has a coat table; that of the last RUN, or of the next one. -/
def State.streamBase (s : State) (c : Nat) : Option Nat :=
  let x := s.ctx c
  let w := if x.coat.base = 0 then s.coatBase c else x.coat.base
  if w = 0 then none else (x.baseVa w).map fun va => fieldLe (s.vpeek c va 40) 32 8

/-- The pages of Table 13.3, in its order, before they are made one list. -/
def State.secItems (s : State) (c : Nat) (t : DustTable) : List SecPage :=
  let x := s.ctx c
  let mat := s.baseReg (TRW_MAT_BASE_LO c) (TRW_MAT_BASE_HI c)
  let grp := s.baseReg (TRW_GRP_BASE_LO c) (TRW_GRP_BASE_HI c)
  let recs := s.reg64 (PLB_REC_BASE_LO c) (PLB_REC_BASE_HI c)
  (t.regions.flatMap fun r => x.secBase (r.cls == 0) r.base r.bytes)
  ++ (x.dust.adoptPages.flatMap fun p => x.secBase true (t.adopt + frameBytes * p) frameBytes)
  ++ s.secScales c true false ++ s.secScales c true true ++ s.secScales c false false ++ s.secScales c false true
  ++ (match s.streamBase c with | some w => x.secBase false w 32 | none => [])
  ++ (if grp = 0 then [] else x.secBase false grp 8192)
  ++ secOf true recs recs (32 * s.reg (PLB_LAYERS c))
  ++ (if mat = 0 then []
    else
      let es := (s.trwTables c).mats
      x.secBase true mat (64 + 64 * es.length) ++ es.flatMap fun e =>
        x.secBase true (fieldLe e 8 8) (4 * fieldLe e 4 2 * fieldLe e 4 2) ++ x.secBase true (fieldLe e 16 8) (4 * fieldLe e 6 2 * fieldLe e 6 2))

/-- The secured set, each page at its page index. -/
def State.securedSet (s : State) (c : Nat) (t : DustTable) : List SecPage := (s.secItems c t).foldl secAdd []

/-- LAYOUT of a page list (Table 13.5). -/
def layoutOf (ps : List SecPage) : Nat :=
  leNat ((sha256 (ps.flatMap fun p => Config.pageCode (b2n (!p.own)) p.lbuf p.off)).take 8)

/-- What a read of the securing table gives: the table, and the first failure of R527 as (reason, entry). -/
structure DustRead where
  table : Option DustTable
  bad : Option (Nat × Nat)

/-- The securing table as it stands, checked in the order of the reasons of Table 13.15. -/
def State.readDust (s : State) (c : Nat) : DustRead :=
  let x := s.ctx c
  let b := s.dustBase c
  if b = 0 then ⟨none, none⟩
  else match x.baseRange b 64 with
    | none => ⟨none, some (1, 0)⟩
    | some va =>
      let h := s.vpeek c va 64
      let n := fieldLe h 18 2
      if !dustHeadOk h then ⟨none, some (0, 0)⟩
      else if (x.baseRange b (64 + 32 * n)).isNone then ⟨none, some (1, 0)⟩
      else
        let es := chunks 32 (s.vpeek c (va + 64) (32 * n))
        let t : DustTable :=
          { va := va, bflag := byteAt h 16, bflagEn := bit (byteAt h 17) 0,
            regions := es.map fun e => ⟨fieldLe e 0 8, fieldLe e 8 8, byteAt e 16⟩, mtab := fieldLe h 24 8, adopt := fieldLe h 32 8,
            adoptBytes := fieldLe h 40 8 }
        match firstBad dustEntryOk 0 es, x.firstOut 0 t.regions with
        | some i, _ => ⟨some t, some (0, i)⟩
        | none, some i => ⟨some t, some (1, i)⟩
        | none, none =>
          if t.adopt ≠ 0 ∧ t.adoptBytes ≠ 0 ∧ (x.secRange t.adopt t.adoptBytes).isNone then ⟨some t, some (1, n)⟩
          else match x.firstOverlap 0 [] t.regions with
            | some i => ⟨some t, some (2, i)⟩
            | none =>
              if 221184 < (s.securedSet c t).length then ⟨some t, some (3, 0)⟩
              else if s.rbit (DST_CTL c) 0 ∧ s.fld (DST_CTL c) 9 8 = 0 then ⟨some t, some (4, 0)⟩
              else ⟨some t, none⟩

/-! ## Targets and images (R546, R547) -/

/-- The kind of target t. -/
def State.tgtKind (s : State) (c t : Nat) : Nat := if t = 0 then s.fld (DST_CTL c) 9 8 else s.fld (DST_CTL c) 11 10
/-- The registers of target t. -/
def State.tgtLo (s : State) (c t : Nat) : Nat := s.reg (if t = 0 then DST_T0_LO c else DST_T1_LO c)
def State.tgtHi (s : State) (c t : Nat) : Nat := s.reg (if t = 0 then DST_T0_HI c else DST_T1_HI c)
/-- The host address of a HOST target. -/
def State.tgtAddr (s : State) (c t : Nat) : Nat := 2 ^ 32 * s.tgtHi c t + frameBytes * (s.tgtLo c t / frameBytes)
/-- The enabled targets. -/
def State.tgts (s : State) (c : Nat) : List Nat := [0, 1].filter fun t => s.tgtKind c t != 0

/-- H: bytes of a slot's header, made up to whole pages. -/
def imgH (pages : Nat) : Nat := frameBytes * ceilDiv (4160 + 8 * pages) frameBytes
/-- S: bytes of a slot. -/
def imgS (pages : Nat) : Nat := imgH pages + frameBytes * pages

/-- The step-size table in a header (Table 13.5). -/
def State.stepTable (s : State) (c : Nat) : List Byte :=
  (List.range 256).flatMap fun g =>
    let cur := s.etaOf c g
    let nxt := mfind (s.ctx c).eta.next g
    natLe 4 (cur.getD 0) ++ natLe 4 (nxt.getD 0) ++ natLe 8 (b2n cur.isSome + 2 * b2n nxt.isSome)

/-- Bytes 0 to 4,159 of a slot's header. -/
def State.imgHead (s : State) (c seq epoch : Nat) (ps : List SecPage) (state : Nat) : List Byte :=
  let mep := if s.rbit (DST_MEMBER c) 31 then s.reg64 (DST_MEPOCH_LO c) (DST_MEPOCH_HI c) else 0
  layOut 64 [(0, 4, 0x53445848), (4, 2, 1), (6, 1, state), (8, 8, seq), (16, 8, epoch), (24, 8, mep), (32, 4, ps.length),
    (40, 8, layoutOf ps)] ++ s.stepTable c

/-! ## Writing to a target (R539, R543) -/

/-- A securing changed. -/
def State.modSec (s : State) (c : Nat) (f : Securing → Securing) : State :=
  s.modDust c fun d => { d with securing := d.securing.map f }

/-- A target's progress changed. -/
def Securing.modTgt (g : Securing) (t : Nat) (f : TgtSt → TgtSt) : Securing := { g with tgts := mput g.tgts t (f (mget ⟨0, 0, 0⟩ g.tgts t)) }

/-- The first failure is kept. -/
def Securing.fail (g : Securing) (t status : Nat) : Securing := { g with failed := some (g.failed.getD (t, status)) }

/-- Bytes of one transaction to a target or from an image. -/
def tgtPiece : Nat := 65536

/-- One piece offered to target t at an offset of its image: none where it cannot be sent now. -/
def State.sendPiece (s : State) (c t off : Nat) (bs : List Byte) : Option State :=
  if s.tgtKind c t = 1 then
    match s.sendTxn (.secure c t) c 1 (s.tgtHi c t % 65536) (s.tgtLo c t) off bs.length bs [] 1 (0, 0) with
    | .sent s1 => some (s1.modSec c fun g => g.modTgt t fun y => { y with next := y.next + 1, out := y.out + 1 })
    | .wait => none
    | .fail st s1 => some (s1.modSec c fun g => (g.fail t st).modTgt t fun y => { y with next := y.next + 1 })
  else
    let p := s.ctxPort c
    if (s.port p).lost || !(s.port p).dlUp then some (s.modSec c fun g => (g.fail t 0x30).modTgt t fun y => { y with next := y.next + 1 })
    else some ((s.hostWrite p (s.tgtAddr c t + off) bs).modSec c fun g => g.modTgt t fun y => { y with next := y.next + 1 })

/-- Pieces sent of n, of what begins at an offset of the image. -/
def State.sendPieces (s : State) (c t off n : Nat) (piece : State → Nat → List Byte) : Nat → State
  | 0 => s
  | f + 1 =>
    match (s.ctx c).dust.securing with
    | none => s
    | some g =>
      let i := (mget ⟨0, 0, 0⟩ g.tgts t).next
      if n ≤ i ∨ g.failed.isSome then s
      else match s.sendPiece c t (off + tgtPiece * i) (piece s i) with
        | none => s
        | some s1 => s1.sendPieces c t off n piece f

/-- Where the slot of a securing begins in its image. -/
def Securing.slotOff (g : Securing) : Nat := g.seq % 2 * imgS g.pages.length

/-- What a target is written next, apart from pages: how many pieces, at which offset, and the pieces. -/
def Securing.job (g : Securing) (phase : Nat) : Nat × Nat × (Nat → List Byte) :=
  match phase with
  | 0 => (1, g.slotOff, fun _ => g.head)
  | 2 =>
    let bs := (List.range g.pages.length).flatMap fun i => natLe 8 (mget 0 g.hashes i)
    (ceilDiv bs.length tgtPiece, g.slotOff + 4160, fun i => (bs.drop (tgtPiece * i)).take tgtPiece)
  | _ => (1, g.slotOff + 6, fun _ => natLe 1 2)

/-- Every page's bytes are on their way. -/
def Securing.allSent (g : Securing) : Bool := g.marks.all fun m => match m with | .sent _ => true | .done => true | _ => false

/-- A target goes on with its header, its hashes or its STATE, and from one to the next once every write is answered (R541). -/
def State.tgtGo (s : State) (c t : Nat) : Nat → State
  | 0 => s
  | f + 1 =>
    match (s.ctx c).dust.securing with
    | none => s
    | some g =>
      let y := mget ⟨0, 0, 0⟩ g.tgts t
      let up := fun (u : State) => (u.modSec c fun h => h.modTgt t fun z => { z with phase := z.phase + 1, next := 0 }).tgtGo c t f
      if g.failed.isSome ∨ 4 ≤ y.phase then s
      else if y.phase = 1 then (if g.allSent && y.out == 0 then up s else s)
      else
        let j := g.job y.phase
        let s1 := s.sendPieces c t j.2.1 j.1 (fun _ i => j.2.2 i) (j.1 - y.next)
        match (s1.ctx c).dust.securing with
        | none => s1
        | some h =>
          let z := mget ⟨0, 0, 0⟩ h.tgts t
          if j.1 ≤ z.next ∧ z.out = 0 ∧ h.failed.isNone then up s1 else s1

/-- Every enabled target goes on. -/
def State.tgtsGo (s : State) (c : Nat) : State :=
  match (s.ctx c).dust.securing with
  | none => s
  | some g => g.tgts.foldl (fun u e => u.tgtGo c e.1 5) s

/-! ## Commands that wait for an epoch -/

/-- Outstanding commands of an opcode that satisfy p complete, oldest first. -/
def State.completeWhere (s : State) (c op : Nat) (p : Cmd → Bool) (status : Nat) (result : Nat) : Nat → State
  | 0 => s
  | f + 1 =>
    match s.findCmd c op p with
    | none => s
    | some (k, _) => (s.complete c k status result).completeWhere c op p status result f

/-- Outstanding commands of an opcode that satisfy p move to a phase. -/
def State.phaseWhere (s : State) (c op : Nat) (p : Cmd → Bool) (ph : CmdPhase) : State :=
  s.modCtx c fun x => { x with ring := { x.ring with
    cmds := x.ring.cmds.map fun d => if byteAt d.desc 0 = op ∧ p d then { d with phase := ph } else d } }

/-- WAIT of a SECURE_NOW. -/
def Cmd.wait (d : Cmd) : Bool := bit (byteAt d.desc 4) 0

/-- SECURE_NOWs complete that satisfy p. -/
def State.nowDone (s : State) (c : Nat) (p : Cmd → Bool) (status result : Nat) : State :=
  s.completeWhere c 0x04 p status result (s.ctx c).ring.cmds.length

/-! ## Epochs (R532 to R543) -/

/-- PROTECT of an entry of context c. -/
def State.protectPage (s : State) (c p : Nat) (v : Bool) : State :=
  match (s.ctx c).pte p with
  | some (k, _) => s.modPte c k fun e => { e with protect := v }
  | none => s

/-- Epoch b is taken (R536): the pages are protected and PENDING, and the header is on its way. -/
def State.takeEpoch (s : State) (c b : Nat) (t : DustTable) : State :=
  let ps := s.securedSet c t
  let seq := (s.ctx c).dust.seq
  let g : Securing :=
    { epoch := b, seq := seq, head := s.imgHead c seq b ps 1, pages := ps, marks := ps.map fun _ => .pending, hashes := [], nextOrder := 0,
      cur := none, tgts := (s.tgts c).map fun t => (t, ⟨0, 0, 0⟩), failed := none, startedAt := s.now, startStep := s.step_ c, bytes := 0 }
  let s1 := (ps.foldl (fun u p => u.protectPage c p.page true) s).modDust c fun d =>
    { d with
      securing := some g, seq := (seq + 1) % 2 ^ 64, pLast := some b, wantNow := false, adoptedSince := false, failedLast := false }
  let s2 := (s1.setFld (DST_STATUS c) 30 30 1).nowDone c (fun d => d.isUnderway && !d.wait) 0x00 b
  (s2.phaseWhere c 0x04 (fun d => d.phase == .underway 0 0) (.underway 1 b)).tgtsGo c

/-- The headers with STATE WRITING have been written, or the securing has failed. -/
def State.headersOut (s : State) (c : Nat) : Bool :=
  match (s.ctx c).dust.securing with
  | none => true
  | some g => g.failed.isSome || g.tgts.all fun e => decide (1 ≤ e.2.phase)

/-! ### The copier (R539, R540) -/

/-- The page that the copier takes next: the oldest complete shadow, else the first PENDING page, else the oldest shadow, whose copy
is completed first. -/
def Securing.nextPage (g : Securing) : Option Nat :=
  let ms : List (Nat × Mark) := (List.range g.marks.length).filterMap fun i => (g.marks[i]?).map fun m => (i, m)
  let order := fun (m : Mark) => match m with | .shadow _ o _ => o | _ => 0
  let oldest := fun (l : List (Nat × Mark)) => match l with
    | [] => none
    | e :: es => some (es.foldl (fun (b x : Nat × Mark) => if order x.2 < order b.2 then x else b) e).1
  let full := ms.filter fun e => match e.2 with | .shadow _ _ gs => decide (1024 ≤ gs.length) | _ => false
  let any := ms.filter fun e => match e.2 with | .shadow _ _ _ => true | _ => false
  match oldest full with
  | some i => some i
  | none => match ms.find? fun e => e.2 == .pending with
    | some e => some e.1
    | none => oldest any

/-- n bytes of page i as the epoch holds it, from an offset: segments that its shadow holds come from there. -/
def State.secBytes (s : State) (c : Nat) (g : Securing) (i off n : Nat) : List Byte :=
  match g.pages[i]? with
  | none => List.replicate n 0
  | some p =>
    (List.range' (off / 2048) (n / 2048)).flatMap fun j =>
      match g.marks[i]? with
      | some (.shadow fr _ have_) =>
        if have_.contains j then rdBytes s.mem.hbm (frameDpa fr + 2048 * j) 2048 else s.vpeek c (frameBytes * p.page + 2048 * j) 2048
      | _ => s.vpeek c (frameBytes * p.page + 2048 * j) 2048

/-- The copier goes on with page i: to every target; when the last has taken it, its hash is recorded and the page is let go. -/
def State.copyPage (s : State) (c i : Nat) : State :=
  match (s.ctx c).dust.securing with
  | none => s
  | some g =>
    let n := frameBytes / tgtPiece
    let off := g.slotOff + imgH g.pages.length + frameBytes * i
    let s1 := g.tgts.foldl (fun u e =>
      u.sendPieces c e.1 off n (fun v j => match (v.ctx c).dust.securing with
        | some h => v.secBytes c h i (tgtPiece * j) tgtPiece
        | none => []) n) s
    match (s1.ctx c).dust.securing, g.pages[i]? with
    | some h, some p =>
      if h.tgts.all fun e => decide (n ≤ e.2.next) then
        let hash := leNat ((sha256 (s1.secBytes c h i 0 frameBytes)).take 8)
        let m := match h.marks[i]? with | some (.shadow fr _ _) => Mark.sent (some fr) | _ => .sent none
        let s2 := s1.modSec c fun h => { h with
          marks := setAt h.marks i m, hashes := mput h.hashes i hash, cur := none, bytes := h.bytes + frameBytes,
          tgts := h.tgts.map fun e => (e.1, { e.2 with next := 0 }) }
        match (s2.ctx c).pte p.page with
        | some (k, e) => if e.big then s2 else s2.modPte c k fun e => { e with protect := false }
        | none => s2
      else s1
    | _, _ => s1

/-- SECURE_PAGE_COPY (R539, R540): the copier begins or goes on with a page. -/
def execSecurePageCopy (c : CtxId) (s : State) : Out :=
  let s := s.tgtsGo c
  .next (match (s.ctx c).dust.securing with
    | none => s
    | some g =>
      if g.failed.isSome || g.tgts.any fun e => decide (e.2.phase < 1) then s
      else match g.cur with
        | some i => s.copyPage c i
        | none => match g.nextPage with
          | some i => (s.modSec c fun h => { h with cur := some i }).copyPage c i
          | none => s)

/-- A page of the secured set, with its index. -/
def Securing.find (g : Securing) (page : Nat) : Option Nat := secIndex g.pages page

/-- PENDING_PAGE_FIRST_WRITE (R537): the page takes a shadow frame, if one is free, and its segments are copied into it; the segments
of a page that has one are copied, as in the background. -/
def execPendingPageFirstWrite (c : CtxId) (page : Nat) (s : State) : Out :=
  .next (match (s.ctx c).pte page with
    | some (k, e) => if e.protect then (s.shadowFor c k page (List.range 1024)).getD s else s
    | none => s)

/-- Writes of page i to a target that are not answered. -/
def State.pageLeft (s : State) (c : Nat) (g : Securing) (i : Nat) : Bool :=
  let off := g.slotOff + imgH g.pages.length + frameBytes * i
  s.links.txns.any fun e => (match e.2.user with | .secure d _ => d == c | _ => false)
    && decide (off ≤ e.2.t.hdr.offset) && decide (e.2.t.hdr.offset < off + frameBytes)

/-- Page i has a shadow frame and has been copied to every target. -/
def State.shadowOver (s : State) (c : Nat) (g : Securing) (i : Nat) : Bool :=
  (match g.marks[i]? with | some (.sent (some _)) => true | _ => false) && !s.pageLeft c g i

/-- SHADOW_FRAME_FREE (R538, R539): the frame of a page that has been copied to every target goes back to the reserve. -/
def execShadowFrameFree (c : CtxId) (s : State) : Out :=
  .next (match (s.ctx c).dust.securing with
    | none => s
    | some g =>
      match (List.range g.marks.length).find? (s.shadowOver c g) with
      | none => s
      | some i => match g.marks[i]? with
        | some (.sent (some fr)) => s.modDust c fun d =>
          { d with reserve := fr :: d.reserve, securing := some { g with marks := setAt g.marks i .done } }
        | _ => s)

/-! ### The end of a securing (R541, R543, R551) -/

/-- C after a sample of the cost, in units of 2⁻¹⁶ step: w in ns is left open, since it is time that agents waited. -/
def nextCost (known : Bool) (old w bytes t : Nat) : Nat :=
  let sample := (65536 * (2 * (14700 * w + bytes)) + 14700 * t) / (2 * 14700 * t)
  min 0xFFFFFFFF (if known then (((old : Int) + (2 * ((sample : Int) - old) + 8) / 16)).toNat else sample)

/-- An epoch is committed on every target (R541): SECURED, and a sample of C. -/
def State.commitEpoch (s : State) (c : Nat) (g : Securing) : State :=
  let p := s.pick
  let s0 := p.2
  let w := p.1
  let t := (s0.now - g.startedAt) / max 1 (s0.step_ c - g.startStep)
  let d := (s0.ctx c).dust
  let s1 := if t = 0 then s0 else s0.setReg (DST_COST c) (nextCost d.costKnown (s0.reg (DST_COST c)) w g.bytes t)
  let s2 := ((s1.dropSecuring c).modDust c fun d => { d with eLast := some g.epoch, costKnown := d.costKnown || t != 0 })
  let s3 := ((s2.setReg64 (DST_EPOCH_LO c) (DST_EPOCH_HI c) g.epoch).setFld (DST_STATUS c) 31 31 1).setFld (DST_STATUS c) 0 0 1
  (s3.raise 0x0601 (.ctx c) [(0, 8, g.epoch), (8, 4, g.pages.length), (12, 4, 32 * g.pages.length), (16, 4, w / 1000)]).nowDone c
    (fun d => d.phase == .underway 1 g.epoch) 0x00 g.epoch

/-- SECURED (R541): hashes and STATE COMMITTED are written at each target whose pages are complete; once every target is committed
the securing is over. -/
def execSecured (c : CtxId) (s : State) : Out :=
  let s := s.tgtsGo c
  .next (match (s.ctx c).dust.securing with
    | none => s
    | some g => if g.failed.isNone && g.tgts.all fun e => decide (4 ≤ e.2.phase) then s.commitEpoch c g else s)

/-- The securing under way fails at a target with a status (R543). -/
def State.failSecuring (s : State) (c : Nat) (g : Securing) (target st : Nat) : State :=
  ((((s.abandonSecuring c).modDust c fun d => { d with failedLast := true }).flagCount (DST_STATUS c) 1 (DST_EVT_CNT c) 31 24).raise
    0x0602 (.ctx c) [(0, 8, g.epoch), (8, 1, target), (9, 1, st)]).nowDone c (fun d => d.phase == .underway 1 g.epoch) 0x65 g.epoch

/-- SECURE_FAILED (R543): a copy or a header write has failed, or the owning port of a HOST target is lost. -/
def execSecureFailed (c : CtxId) (target : Nat) (s : State) : Out :=
  .next (match (s.ctx c).dust.securing with
    | none => s
    | some g =>
      let p := s.port (s.ctxPort c)
      let why := match g.failed with
        | some (t, st) => if t = target then some st else none
        | none => if s.tgtKind c target = 2 && (p.lost || !p.dlUp) && (mfind g.tgts target).isSome then some 0x30 else none
      match why with
      | none => s
      | some st => s.failSecuring c g target st)

/-! ## Plumb at a boundary (R113 to R119) -/

/-- A tensor of layer l is in warm-up. -/
def State.layerWarm (s : State) (c l : Nat) : Bool :=
  let ds := match (s.ctx c).prog with | some p => p.tensors.filter TensorRec.delayed | none => []
  (List.range ds.length).any fun k => (match ds[k]? with | some t => t.layer == l | none => false)
    && byteAt (s.vpeek c (s.scaleVa c k + 18) 1) 0 != 0

/-- An event of Plumb: its status bit and counter, and the record if it is enabled (R118). -/
def State.plumbEvent (s : State) (c en statusBit kc hi lo code : Nat) (pay : List (Nat × Nat × Nat)) : State :=
  let s1 := s.flagCount (PLB_STATUS c) statusBit kc hi lo
  if s1.rbit (PLB_CTL c) en then s1.raise code (.ctx c) pay else s1

/-- The record of layer l for step k, with its events. -/
def State.plumbLayer (s : State) (c k l : Nat) : State :=
  let n := (s.ctx c).num
  let q := mget PlumbCnt.reset n.plumb l
  let quiet := decide (0 < q.owned) && q.unchanged == q.owned
  let run := if quiet then min 65535 (mget 0 n.quiet l + 1) else 0
  let top := fun w v => min v (2 ^ (8 * w) - 1)
  let r := layOut 32 [(0, 8, k), (8, 4, top 4 q.narrowed), (12, 4, top 4 q.flushed), (16, 4, top 4 q.unchanged), (20, 2, top 2 q.zeroTiles),
    (22, 2, run), (24, 4, top 4 q.overflows), (28, 2, top 2 q.nonfin), (30, 1, b2n quiet + 2 * b2n (s.layerWarm c l))]
  let s0 := (s.vpoke c (s.reg64 (PLB_REC_BASE_LO c) (PLB_REC_BASE_HI c) + 32 * l) r).modCtx c fun x =>
    { x with num := { x.num with quiet := mset 0 x.num.quiet l run } }
  let qs := max 1 (s.fld (PLB_CTL c) 31 16)
  let s1 := if qs ≤ run ∧ run % qs = 0 ∧ run < 65535 then
      s0.plumbEvent c 0 0 (PLB_EVT_CNT0 c) 31 16 0x0501 [(0, 8, k), (8, 2, l), (10, 2, run)] else s0
  let s2 := if max (s.fld (PLB_THRESH c) 31 16) 1 ≤ q.overflows then
      s1.plumbEvent c 2 2 (PLB_EVT_CNT1 c) 31 16 0x0503 [(0, 8, k), (8, 2, l), (12, 4, top 4 q.overflows)] else s1
  let s3 := if q.flushed ≠ 0 ∧ s.fld (PLB_THRESH c) 15 0 * q.narrowed ≤ 65536 * q.flushed then
      s2.plumbEvent c 3 3 (PLB_EVT_CNT1 c) 15 0 0x0504 [(0, 8, k), (8, 2, l), (12, 4, top 4 q.flushed), (16, 4, top 4 q.narrowed)] else s2
  if q.nonfin ≠ 0 then s3.plumbEvent c 4 4 (PLB_EVT_CNT2 c) 15 0 0x0505 [(0, 8, k), (8, 2, l), (10, 2, top 2 q.nonfin)] else s3

/-- The records of step k, and PLB_STEP last. -/
def State.plumbRecords (s : State) (c k : Nat) : State :=
  (((List.range (s.reg (PLB_LAYERS c))).foldl (fun t l => t.plumbLayer c k l) s).setReg64 (PLB_STEP_LO c) (PLB_STEP_HI c) k).modCtx c
    fun x => { x with num := { x.num with plumb := [] } }

/-! ## Scales at a boundary (R100 to R104, R108 to R112) -/

/-- The scale-table entry of tensor k of delayed tensors, moved on by a step; its maps change places, the other cleared. -/
def State.scaleStep (s : State) (c k : Nat) (t : TensorRec) : State :=
  let va := s.scaleVa c k
  let e := s.vpeek c va 32
  let n := (s.ctx c).num
  let head := (byteAt e 16 % 16 + 1) % 16
  let hist := setAt (e.take 16) head (BitVec.ofNat 8 (histEntry (mget (.fin false 0 0) n.amax k)))
  let re := n.rewarm.contains k
  let warm := if re then 4 else byteAt e 18 - 1
  let outer := match outerExp (fmtF (t.fmt % 16)) (hist.map fun b => b.toNat) with | some x => (x + 127).toNat | none => byteAt e 17
  let maps := fieldLe e 24 8
  let cur := s.vpeek c (maps + t.mapBytes) t.mapBytes
  let s1 := (s.vpoke c va (hist ++ natLe 1 head ++ natLe 1 outer ++ natLe 1 warm)).vpoke c maps (cur ++ List.replicate t.mapBytes 0)
  if re then s1.warmupEvent c k 2 else s1

/-- The delayed-scaled tensors of the program. -/
def Ctx.delayedTs (x : Ctx) : List TensorRec := match x.prog with | some p => p.tensors.filter TensorRec.delayed | none => []

/-- PLB_WARMUP: tensors now in warm-up. -/
def State.countWarm (s : State) (c : Nat) : State :=
  s.setFld (PLB_WARMUP c) 16 0 ((List.range (s.ctx c).delayedTs.length).filter fun k => byteAt (s.vpeek c (s.scaleVa c k + 18) 1) 0 != 0).length

/-- Every delayed-scaled tensor at the end of a step. -/
def State.scaleBoundary (s : State) (c : Nat) : State :=
  let ds := (s.ctx c).delayedTs
  let s1 := (List.range ds.length).foldl (fun u k => match ds[k]? with | some t => u.scaleStep c k t | none => u) s
  (s1.modCtx c fun x => { x with num := { x.num with amax := [], warm := [], rewarm := [] } }).countWarm c

/-- The memory that step 1 of a boundary writes. -/
def State.plumbRanges (s : State) (c : Nat) : List (Nat × Nat) :=
  let ds := (s.ctx c).delayedTs
  [(s.reg64 (PLB_REC_BASE_LO c) (PLB_REC_BASE_HI c), 32 * s.reg (PLB_LAYERS c)), (s.scaleVa c 0, 32 * ds.length)]
    ++ (List.range ds.length).filterMap fun k => (ds[k]?).map fun t => (fieldLe (s.vpeek c (s.scaleVa c k) 32) 24 8, t.pairBytes)

/-! ## The step boundary (R530 to R535) -/

/-- The AUs of a context, placed or saved, by logical AU. -/
def State.lauStates (s : State) (c : Nat) : List (Nat × Au) :=
  let x := s.ctx c
  if x.place.isEmpty then x.saved else x.place.map fun e => (e.1, s.au e.2)

/-- Trowel operations issued before the boundary was requested are complete (R288), and so is a Screed operation under way that
encodes for a delayed-scaled tensor (R105). -/
def Au.stepDone (a : Au) (x : Ctx) (n : Nat) : Bool :=
  ((mget [] a.fifos 2).all fun o => decide (n ≤ o.seq)) && (match mfind a.acts 4 with | some o => decide (n ≤ o.seq) | none => true)
    && (match mfind a.acts 3 with
      | some o => decide (n ≤ o.seq) || ((a.screed.outSpec x).delayed x).isNone
      | none => true)

/-- No collective of the context has values of the step still to encode, and every STEP_END is complete, that of the securing group
among them (R105, R533). -/
def State.collsQuiet (s : State) (c : Nat) : Bool :=
  let x := s.ctx c
  let busy := fun (b : List Byte) => byteAt b 1 == 6 || (decide (2 ≤ byteAt b 1) && fmtIsMx (byteAt b 5 % 16))
  x.linkWork.all (fun e => !busy e.2.bytes)
    && (x.posted.all fun i => match s.workVa c i with | some va => !busy (s.vpeek c va 64) | none => true)
    && x.colls.all fun g => !g.2.securing || x.dust.stepEnds.contains g.1

/-- The waits of step 1 are over. -/
def State.stepQuiet (s : State) (c : Nat) : Bool :=
  let x := s.ctx c
  (s.lauStates c).all (fun e => e.2.stepDone x (mget 0 x.dust.closeSeq e.1)) && s.collsQuiet c

/-- Step 1 of Table 13.4, and what R105 has done before the securing point. -/
def State.boundaryOne (s : State) (c k : Nat) : State :=
  if (s.ctx c).dust.stage = 0 ∧ s.stepQuiet c then
    s.hubWrites c (s.plumbRanges c) fun s0 =>
      ((s0.plumbRecords c k).scaleBoundary c).modDust c fun d => { d with stage := 1, heldSince := s0.now }
  else s

/-- The context takes an epoch at the boundary that opens step b (R532): its group's request, or its own. -/
def State.takesEpoch (s : State) (c b : Nat) : Bool :=
  s.rbit (DST_CTL c) 0 && !(s.tgts c).isEmpty
    && (if (s.ctx c).colls.any fun g => g.2.securing then (s.ctx c).dust.groupReq else s.wantsEpoch c b)

/-- The boundary is held in step 2 (R534, R535). -/
def State.boundaryHeld (s : State) (c b : Nat) : Bool :=
  let d := (s.ctx c).dust
  d.securing.isSome && (s.takesEpoch c b || (match d.eLast with | some e => decide (e + s.lossBound c < b) | none => false))

/-- DST_INTERVAL at the boundary that opens step b (R550). -/
def State.putInterval (s : State) (c b : Nat) : State :=
  (s.setFld (DST_INTERVAL c) 15 0 (s.interval c)).setFld (DST_INTERVAL c) 31 16 (min 0xFFFF (b - (s.ctx c).dust.eLast.getD 0))

/-- SECURE_STALL, once for a boundary. -/
def State.stall (s : State) (c b : Nat) : State :=
  if (s.ctx c).dust.stalled then s
  else ((s.modDust c fun d => { d with stalled := true }).flagCount (DST_STATUS c) 2 (DST_EVT_CNT c) 23 16).raise 0x0603 (.ctx c)
    [(0, 8, b), (8, 8, s.now - (s.ctx c).dust.heldSince)]

/-- Steps 2 and 3. -/
def State.boundaryTwo (s : State) (c b : Nat) (t : DustTable) : State :=
  if (s.ctx c).dust.stage ≠ 1 then s
  else
    let s0 := s.putInterval c b
    if s0.boundaryHeld c b then s0.stall c b
    else
      let s1 := if s0.takesEpoch c b then s0.takeEpoch c b t else s0
      s1.modDust c fun d => { d with stage := 3 }

/-- The memory that steps 4 and 5 write. -/
def State.openRanges (s : State) (c : Nat) (t : DustTable) : List (Nat × Nat) :=
  (t.va + 8, 8) :: (match s.streamVa c with | some va => [(va, 32)] | none => [])
    ++ (match s.matVa c 0 with | some va => if (s.ctx c).mats.isEmpty then [] else [(va, 64 * (s.ctx c).mats.length)] | none => [])

/-- STEP and DATA_POS of the stream-state record advance (R243). -/
def State.streamStep (s : State) (c : Nat) : State :=
  match s.streamVa c with
  | none => s
  | some va =>
    let r := s.vpeek c va 32
    s.vpoke c (va + 8) (natLe 8 (fieldLe r 8 8 + 1) ++ natLe 8 (fieldLe r 16 8 + fieldLe r 24 4))

/-- The step-size table at a boundary (R305). -/
def EtaTab.step (e : EtaTab) : EtaTab := { cur := e.next, next := [], started := [], late := false }

/-- Steps 4 and 5: step b opens. -/
def State.boundaryOpen (s : State) (c b : Nat) (t : DustTable) : State :=
  let s1 := (s.streamStep c).setReg64 (TRW_STEP_LO c) (TRW_STEP_HI c) b
  let s2 := s1.modCtx c fun x => { x with eta := x.eta.step }
  let s3 := s2.precondBoundary c b
  let s4 := (s3.setFld (CTX_STASH_PEAK c) 24 0 (s3.ctx c).coat.most).modCtx c fun x =>
    { x with coat := { x.coat with most := x.coat.used, thinned := false } }
  let s5 := s4.vpoke c (t.va + 8) (natLe 8 b)
  let s6 := if t.bflagEn then s5.deliverFlag c t.bflag true else s5
  (s6.modDust c fun d => { d with closing := none, stage := 0, closeSeq := [], stalled := false, stepEnds := [], groupReq := false }).progress c

/-- Steps 4 and 5, once the memory they write can be written and BFLAG can be set (R508). -/
def State.boundaryThree (s : State) (c b : Nat) (t : DustTable) : State :=
  if (s.ctx c).dust.stage ≠ 3 ∨ !s.headersOut c ∨ (t.bflagEn ∧ s.mboxFull c) then s
  else s.hubWrites c (s.openRanges c t) fun s0 => s0.boundaryOpen c b t

/-- The states in which a boundary goes on. -/
def CtxState.steps : CtxState → Bool
  | .ready => true
  | .running => true
  | .preempting => true
  | .preempted => true
  | .resuming => true
  | _ => false

/-- STEP_CLOSE (R530, R534): the store into CLOSE is seen; one of another value than TRW_STEP is ignored. The boundary begins, as far
as its waits allow. -/
def execStepClose (c : CtxId) (s : State) : Out :=
  let d := (s.ctx c).dust
  .next (match d.table, d.closing with
    | some t, none =>
      if (s.ctx c).st.steps then
        s.hubNeeds c [(t.va, 8)] false fun s0 =>
          let k := s0.step_ c
          if fieldLe (s0.vpeek c t.va 8) 0 8 = k then
            let s1 := s0.modDust c fun d => { d with
              closing := some k, stage := 0, stalled := false
              closeSeq := (s0.lauStates c).map fun e => (e.1, e.2.nextSeq) }
            let s2 := s1.boundaryOne c k
            if (s2.ctx c).dust.stage = 1 ∧ s2.boundaryHeld c (k + 1) then s2.stall c (k + 1) else s2
          else s0
      else s
    | _, _ => s)

/-- STEP_BOUNDARY_OPEN (R530): the boundary goes as far as its waits allow, to its end if they all are over. -/
def execStepBoundaryOpen (c : CtxId) (s : State) : Out :=
  let d := (s.ctx c).dust
  .next (match d.table, d.closing with
    | some t, some k =>
      if (s.ctx c).st.steps then
        let s0 := s.tgtsGo c
        ((s0.boundaryOne c k).boundaryTwo c (k + 1) t).boundaryThree c (k + 1) t
      else s
    | _, _ => s)

/-! ## SECURE_NOW and FAILURE_NOTICE (R552 to R554) -/

/-- SECURE_NOW (R553): an epoch is pending for the next boundary. -/
def execSecureNow (c : CtxId) (k : Nat) (s : State) : Out :=
  .next (s.onCmd c k 0x04 fun cmd =>
    if cmd.phase ≠ .started then s
    else if bits (byteAt cmd.desc 4) 7 1 ≠ 0 ∨ !zeroIn cmd.desc 5 64 then s.complete c k 0x02 0
    else
      let st := (s.ctx c).st
      if (st = .running ∨ st = .ready ∨ st = .preempted) ∧ s.rbit (DST_CTL c) 0 ∧ s.dustBase c ≠ 0 then
        (s.modDust c fun d => { d with wantNow := true }).setPhase c k (.underway 0 0)
      else s.complete c k 0x05 0)

/-- M after a failure at a step (R552). -/
def nextMtbf (m : Nat) (last : Option Nat) (step : Nat) : Nat :=
  let d := match last with | some p => step - p | none => 0
  (min (max ((m : Int) + ((d : Int) - m) / 8) 1) (2 ^ 32 - 1)).toNat

/-- FAILURE_NOTICE (R554). -/
def execFailureNotice (c : CtxId) (k : Nat) (s : State) : Out :=
  .next (s.onCmd c k 0x13 fun cmd =>
    if !zeroIn cmd.desc 4 8 ∨ !zeroIn cmd.desc 18 64 then s.complete c k 0x02 0
    else
      let step := fieldLe cmd.desc 8 8
      let s1 := (s.setReg (DST_MTBF c) (nextMtbf (s.reg (DST_MTBF c)) (s.ctx c).dust.lastNotice step)).modDust c fun d =>
        { d with lastNotice := some step, lastFailed := some (fieldLe cmd.desc 16 2) }
      s1.complete c k 0x00 (s1.interval c))

end Sys2Proof.Machine
end

