-- ==== Sys2Proof/Machine/Dx.lean ====
section
/-!
DEFINITION. The meanings of the Xdxs instructions (R161 to R169, Table 4.10) and of semaphores (R512 to R516). A command of
this file acts where the instruction at the program counter of the AU's core is its own; elsewhere nothing happens. An
instruction that holds the core stays at the program counter and is executed again.
-/
namespace Sys2Proof.Machine

/-! ## Going on -/

/-- The Xdxs instruction at the program counter is complete. -/
def State.dxDone (s : State) (n : Nat) : State :=
  s.modCore n fun k => { k with wait := .none }.goOn (k.pc.toNat + 4)

/-- It is complete and rd takes a value. -/
def State.dxSet (s : State) (n rd v : Nat) : State :=
  (s.modCore n fun k => k.wr rd (BitVec.ofNat 64 v)).dxDone n

/-- The instruction holds the core. -/
def State.dxHold (s : State) (n : Nat) (w : CoreWait) : State := s.modCore n fun k => { k with wait := w }

/-- The instruction at the program counter of a core that is held by a wait that `ok` accepts: it is taken up again. -/
def State.onHeld (s : State) (n : Nat) (ok : CoreWait → Bool) (f : Nat → Dx → State → State) : State :=
  if ok (s.core n).wait then (s.modCore n fun k => { k with wait := .none }).onDx n f else s

/-- The instruction at the program counter of a core that is not held, or held by the wait `w` of that instruction. -/
def State.onDxOr (s : State) (n : Nat) (w : CoreWait) (f : Nat → Dx → State → State) : State :=
  s.onHeld n (fun x => x == .none || x == w) f

/-! ## Issue (R136, R142) -/

/-- OP_ILLEGAL (R142). -/
def State.opIllegal (s : State) (c n e code : Nat) : State :=
  (s.count (AU_PROG_EVT_CNT n) 31 24 1).faultCtx c 0x0203 n [(0, 1, n), (1, 1, e), (2, 2, code)]

/-- A place is free in FIFO e (R124). -/
def Au.fifoFree (a : Au) (e : Nat) : Bool := decide ((a.fifo e).length < 64)

/-- A word goes to the end of FIFO e and takes the next number. -/
def Au.pushOp (a : Au) (e w : Nat) : Au := { (a.putFifo e (a.fifo e ++ [⟨a.nextSeq, w⟩])) with nextSeq := a.nextSeq + 1 }

/-- A word goes to engine e, whose FIFO has a place; rd takes 1. -/
def State.issue (s : State) (c n e w rd : Nat) : State :=
  match opReject e (s.au n).part w with
  | some code => s.opIllegal c n e code
  | none => ((s.modAu n fun a => a.pushOp e w).dxSet n rd 1).progress c

/-- DX_ISSUE (R136): a full FIFO holds the core. -/
def execDxIssue (a : AuId) (s : State) : Out :=
  .next (s.onDx a fun c d t => match d with
    | .issue e rs1 rd => if (t.au a).fifoFree e then t.issue c a e (t.xreg a rs1) rd else t.dxHold a .issue
    | _ => s)

/-- DX_TRYISSUE (R136). -/
def execDxTryissue (a : AuId) (s : State) : Out :=
  .next (s.onDx a fun c d t => match d with
    | .tryissue e rs1 rd =>
      if (t.au a).fifoFree e then t.issue c a e (t.xreg a rs1) rd else (t.dxSet a rd 0).progress c
    | _ => s)

/-- FIFO_PLACE_FREE (R136): the held dx.issue issues its word. -/
def execFifoPlaceFree (a : AuId) (s : State) : Out :=
  .next (s.onHeld a (· == .issue) fun c d t => match d with
    | .issue e rs1 rd => if (t.au a).fifoFree e then t.issue c a e (t.xreg a rs1) rd else s
    | _ => s)

/-! ## Stencils (R153, R154, R158) -/

/-- The slot's Stencil is active or pending. -/
def StnSlot.busy (x : StnSlot) : Bool := x.st == .active || x.st == .pending

/-- Runs completed by the slot's current or last Stencil. -/
def StnSlot.runs (x : StnSlot) : Nat := if x.st = .idle then x.lastRuns else x.moved / (stnDesc x.desc).run

/-- A descriptor is loaded into a slot. -/
def Au.loadStn (a : Au) (st : Nat) (d : List Byte) : Au :=
  let x := a.stn st
  a.putStn st { StnSlot.reset with desc := d, startSeq := x.startSeq, lastRuns := x.runs }

/-- DX_STN_LD (R153): no check is made; a misaligned address traps (R125). -/
def execDxStnLd (a : AuId) (s : State) : Out :=
  .next (s.onDxOr a .stnLd fun c d t => match d with
    | .stnLd st rs1 =>
      let va := t.xreg a rs1
      if va % 64 ≠ 0 then t.coreTrap c a 4
      else if ((t.au a).stn st).busy then t.dxHold a .stnLd
      else match t.vread c va 64 with
        | .ok (bs, u) => ((u.modAu a fun x => x.loadStn st bs).dxDone a).progress c
        | .wait p => t.corePage c a p false
        | .bad r p => t.memFault c r 0 a false p
        | .hold => s
    | _ => s)

/-- STENCIL_BOUNDS (R154). -/
def State.stencilBounds (s : State) (c n st code : Nat) : State :=
  (s.count (AU_PROG_EVT_CNT n) 23 16 1).faultCtx c 0x0204 n [(0, 1, n), (1, 1, st), (2, 2, code)]

/-- The slot's Stencil starts again from its first address: active, or pending behind the active one. -/
def Au.startStn (a : Au) (st : Nat) : Au :=
  let x := a.stn st
  let d := stnDesc x.desc
  let seq := a.stns.foldl (fun m e => max m e.2.startSeq) 0 + 1
  a.putStn st { x with
    st := if (a.onEnd d.queue d.scales .active).isEmpty then .active else .pending, startSeq := seq, issued := 0, moved := 0,
    segs := 0, halted := false, visit := none, waitSlot := none }

/-- DX_STN_GO (R154, R158). -/
def execDxStnGo (a : AuId) (s : State) : Out :=
  .next (s.onDxOr a .stnGo fun c d t => match d with
    | .stnGo st =>
      let x := t.au a
      let d := stnDesc (x.stn st).desc
      if (x.stn st).busy ∨ (!(x.onEnd d.queue d.scales .active).isEmpty ∧ !(x.onEnd d.queue d.scales .pending).isEmpty)
          ∨ (match x.asg with | some (_, l) => (t.ctx c).linkBound l d.queue | none => false) = true then
        t.dxHold a .stnGo
      else match (t.ctx c).prog, x.asg with
        | some p, some (_, l) =>
          match stnCheck p.laus p.lbufs (some l) (x.stn st).desc with
          | some code => t.stencilBounds c a st code
          | none => ((t.modAu a fun y => y.startStn st).dxDone a).progress c
        | _, _ => s
    | _ => s)

/-- DX_STN_POS (R161). -/
def execDxStnPos (a : AuId) (s : State) : Out :=
  .next (s.onDx a fun c d t => match d with
    | .stnPos st rd => (t.dxSet a rd ((t.au a).stn st).runs).progress c
    | _ => s)

/-- DX_STN_WAIT (R161). -/
def execDxStnWait (a : AuId) (s : State) : Out :=
  .next (s.onDxOr a .stnWait fun c d t => match d with
    | .stnWait st => if ((t.au a).stn st).busy then t.dxHold a .stnWait else (t.dxDone a).progress c
    | _ => s)

/-- rd of dx.stn.stat (Table 4.10). -/
def StnSlot.stat (x : StnSlot) : Nat :=
  b2n (x.st == .active) + 2 * b2n (x.st == .pending) + 4 * b2n x.halted + 8 * b2n (x.st == .done)

/-- DX_STN_STAT (R161). -/
def execDxStnStat (a : AuId) (s : State) : Out :=
  .next (s.onDx a fun c d t => match d with
    | .stnStat st rd => (t.dxSet a rd ((t.au a).stn st).stat).progress c
    | _ => s)

/-! ## Flags (R144 to R148) -/

/-- The flag index of a flag instruction (R161). -/
def State.flagArg (s : State) (n : Nat) : FlagArg → Nat
  | .imm f => f
  | .reg r => s.xreg n r % 256

/-- DX_FSET (R148). -/
def execDxFset (a : AuId) (s : State) : Out :=
  .next (s.onDx a fun c d t => match d with
    | .fset f => ((t.setFlag c (t.flagArg a f) true).dxDone a).progress c
    | _ => s)

/-- DX_FCLR (R148). -/
def execDxFclr (a : AuId) (s : State) : Out :=
  .next (s.onDx a fun c d t => match d with
    | .fclr f => ((t.setFlag c (t.flagArg a f) false).dxDone a).progress c
    | _ => s)

/-- A wait for flag f to have a value, clearing it with `clr`: the core goes on or is held. -/
def State.flagWait (s : State) (c n f : Nat) (v clr : Bool) : State :=
  if s.flag c f = v then ((if clr then s.setFlag c f false else s).dxDone n).progress c else s.dxHold n (.flag f)

/-- DX_FWAIT (R161). -/
def execDxFwait (a : AuId) (s : State) : Out :=
  .next (s.onDx a fun c d t => match d with
    | .fwait f => t.flagWait c a (t.flagArg a f) true false
    | _ => s)

/-- DX_FWAITC (R161). -/
def execDxFwaitc (a : AuId) (s : State) : Out :=
  .next (s.onDx a fun c d t => match d with
    | .fwaitc f => t.flagWait c a (t.flagArg a f) false false
    | _ => s)

/-- DX_FWAITX (R147). -/
def execDxFwaitx (a : AuId) (s : State) : Out :=
  .next (s.onDx a fun c d t => match d with
    | .fwaitx f => t.flagWait c a (t.flagArg a f) true true
    | _ => s)

/-- The wait of a core is one for a flag. -/
def CoreWait.isFlag : CoreWait → Bool
  | .flag _ => true
  | _ => false

/-- FLAG_WAIT_SATISFIED (R147): the held wait of AU a goes on if its flag now has the value. Which of several waits with
clear proceeds is the order of these commands. -/
def execFlagWaitSatisfied (a : AuId) (s : State) : Out :=
  .next (s.onHeld a CoreWait.isFlag fun c d t => match d with
    | .fwait f => t.flagWait c a (t.flagArg a f) true false
    | .fwaitc f => t.flagWait c a (t.flagArg a f) false false
    | .fwaitx f => t.flagWait c a (t.flagArg a f) true true
    | _ => s)

/-- DX_FTEST (R161). -/
def execDxFtest (a : AuId) (s : State) : Out :=
  .next (s.onDx a fun c d t => match d with
    | .ftest f rd => (t.dxSet a rd (b2n (t.flag c (t.flagArg a f)))).progress c
    | _ => s)

/-! ## Levels and pacing (R171) -/

/-- DX_QLVL (R171). -/
def execDxQlvl (a : AuId) (s : State) : Out :=
  .next (s.onDx a fun c d t => match d with
    | .qlvl q rd => (t.dxSet a rd ((t.au a).queue q).level).progress c
    | _ => s)

/-- DX_FLVL (R171). -/
def execDxFlvl (a : AuId) (s : State) : Out :=
  .next (s.onDx a fun c d t => match d with
    | .flvl e rd => (t.dxSet a rd ((t.au a).fifo e).length).progress c
    | _ => s)

/-- DX_FPACE (R161). -/
def execDxFpace (a : AuId) (s : State) : Out :=
  .next (s.onDxOr a .pace fun c d t => match d with
    | .fpace e rs1 => if ((t.au a).fifo e).length ≤ t.xreg a rs1 then (t.dxDone a).progress c else t.dxHold a .pace
    | _ => s)

/-- DX_QPACE (R161). -/
def execDxQpace (a : AuId) (s : State) : Out :=
  .next (s.onDxOr a .pace fun c d t => match d with
    | .qpace q rs1 => if t.xreg a rs1 ≤ ((t.au a).queue q).level then (t.dxDone a).progress c else t.dxHold a .pace
    | _ => s)

/-! ## Hardware loops (R164 to R168) and placement (R498) -/

/-- DX_LOOP (R164). -/
def execDxLoop (a : AuId) (s : State) : Out :=
  .next (s.onDx a fun c d t => match d with
    | .loop level len => (t.modCore a fun k => k.enterLoop level len).progress c
    | _ => s)

/-- DX_BRK (R168). -/
def execDxBrk (a : AuId) (s : State) : Out :=
  .next (s.onDx a fun c d t => match d with
    | .brk level => (t.modCore a fun k => k.breakLoop level).progress c
    | _ => s)

/-- DX_WHERE (R498). -/
def execDxWhere (a : AuId) (s : State) : Out :=
  .next (s.onDx a fun c d t => match d with
    | .where_ rs1 rd => (t.dxSet a rd ((t.ctx c).placeWord (t.xreg a rs1))).progress c
    | _ => s)

/-! ## Semaphores (R512 to R516) -/

/-- SEM_FAULT (R514). -/
def State.semFault (s : State) (c n sem reason : Nat) : State :=
  s.faultCtx c 0x090A n [(0, 1, sem), (1, 1, n), (2, 1, reason)]

/-- SEM_INHERIT (R516): holder h of semaphore n runs at the priority of context w; `resumed` says whether that resumes it. -/
def State.semInherit (s : State) (n h w : Nat) (resumed : Bool) : State :=
  (s.flagCount (CTX_SCHED_STATUS h) 2 (CTX_SCHED_EVT_CNT h) 23 16).raiseF 0x0902 (.ctx h) fun f =>
    [(0, 1, n), (1, 1, s.ctxName f w), (2, 1, s.eprio w), (3, 1, b2n resumed)]

/-- A holder that holds no AUs is resumed at once, if that can be done; its former cause is kept for the end of the loan. -/
def State.loanResume (s : State) (n h : Nat) : State × Bool :=
  if (s.ctx h).st = .preempted then
    match s.startResume h 1 (some n) with
    | some s1 => (s1.modCtx h fun x => { x with inherit := some (s.ctx h).cause }, true)
    | none => (s, false)
  else (s, false)

/-- Context w waits on semaphore n: its holder, and the holders that the holder waits on, are lent w's priority where theirs
was lower in the state `old`. -/
def State.lend (old : State) : Nat → State → Nat → Nat → State
  | 0, s, _, _ => s
  | d + 1, s, n, w =>
    match (s.sem n).holder with
    | none => s
    | some h =>
      if old.eprio h < s.eprio w then
        let p := s.loanResume n h
        let s1 := p.1.semInherit n h w p.2
        ((List.range 256).filter fun m => (s1.sem m).waiters.contains h).foldl (fun t m => State.lend old d t m h) s1
      else s

/-- dx.sem.acq of semaphore n by context c. -/
def State.semAcquire (s : State) (c n : Nat) : Option State :=
  let x := s.sem n
  if x.holder.isNone ∧ x.waiters.isEmpty then some (s.putSem n { x with holder := some c })
  else none

/-- Context c joins those that wait. -/
def State.semWait (s : State) (c n : Nat) : State :=
  let x := s.sem n
  if x.waiters.contains c then s
  else State.lend s 8 (s.putSem n { x with waiters := x.waiters ++ [c] }) n c

/-- DX_SEM_ACQ (R512, R514, R516). -/
def execDxSemAcq (a : AuId) (s : State) : Out :=
  .next (s.onDx a fun c d t => match d with
    | .semAcq rs1 =>
      let v := t.xreg a rs1
      let n := v % 256
      if 256 ≤ v then t.semFault c a n 3
      else if !bit (t.sem n).mask c then t.semFault c a n 0
      else if (t.sem n).holder = some c then t.semFault c a n 2
      else match t.semAcquire c n with
        | some u => (u.dxDone a).progress c
        | none => (t.dxHold a (.sem n)).semWait c n
    | _ => s)

/-- The core waits on semaphore n. -/
def CoreWait.onSem (n : Nat) (w : CoreWait) : Bool := w == .sem n

/-- The core of an AU, placed or saved, goes on past the dx.sem.acq it waited at. -/
def Au.semGo (n : Nat) (a : Au) : Au :=
  if a.core.wait.onSem n then { a with core := { a.core with wait := .none }.goOn (a.core.pc.toNat + 4) } else a

/-- The waiting context that acquires next: effective priority, then arrival (R512). -/
def State.semNext (s : State) (n : Nat) : Option Nat :=
  match (s.sem n).waiters with
  | [] => none
  | c :: cs => some (cs.foldl (fun b d => if s.eprio b < s.eprio d then d else b) c)

/-- SEM_GRANTED (R512): a free semaphore passes to the next waiting context, and its cores that waited go on. -/
def execSemGranted (n : SemId) (s : State) : Out :=
  let x := s.sem n
  match x.holder, s.semNext n with
  | none, some c =>
    let s1 := s.putSem n { x with holder := some c, waiters := x.waiters.filter (· != c) }
    let s2 := s1.modCtxAus c (Au.semGo n)
    .next ((s2.modCtx c fun y => { y with saved := y.saved.map fun e => (e.1, e.2.semGo n) }).progress c)
  | _, _ => .next s

/-- The loan of context c ends (R516): pre-empted with HOST or HOST_LOST before, it is pre-empted again with that cause. -/
def State.endLoan (s : State) (c : Nat) : State :=
  match (s.ctx c).inherit with
  | none => s
  | some cause =>
    if s.prio c < s.eprio c then s
    else
      let s1 := s.modCtx c fun x => { x with inherit := none }
      if cause = .displaced then s1 else s1.startPreempt c cause

/-- DX_SEM_REL (R513, R514, R516). -/
def execDxSemRel (a : AuId) (s : State) : Out :=
  .next (s.onDx a fun c d t => match d with
    | .semRel rs1 =>
      let v := t.xreg a rs1
      let n := v % 256
      if 256 ≤ v then t.semFault c a n 3
      else if !bit (t.sem n).mask c then t.semFault c a n 0
      else if (t.sem n).holder ≠ some c then t.semFault c a n 1
      else (((t.putSem n { t.sem n with holder := none }).dxDone a).progress c).endLoan c
    | _ => s)

end Sys2Proof.Machine
end

