-- ==== Sys2Proof/Machine/Xfer.lean ====
section
/-!
DEFINITION. MOVE transfers (R355 to R359): the descriptor of Table 9.7, its checks, the two row patterns, and the slot visits
of the transfer's ends. The transfer's descriptor is the operation's `data`; its `regs` are which end waits on a slot (0 the
source, 1 the destination), bytes issued, and the bytes issued when the visit of the source and that of the destination began.
-/
namespace Sys2Proof.Machine

/-- The descriptor's fields; `src` and `dst` are in Stencil BASE form. -/
structure MoveDesc where
  src : Nat
  dst : Nat
  run : Nat
  rows : Nat
  spitch : Int
  dpitch : Int
  stag : Nat
  dtag : Nat
  ncons : Nat
  doneFlag : Nat
  doneEn : Bool
  deriving DecidableEq, Repr

/-- The fields of 64 descriptor bytes. -/
def moveDesc (d : List Byte) : MoveDesc :=
  { src := fieldLe d 0 8, dst := fieldLe d 8 8, run := bits (fieldLe d 16 4) 23 0, rows := bits (fieldLe d 20 4) 23 0,
    spitch := toInt 40 (fieldLe d 24 5), dpitch := toInt 40 (fieldLe d 29 5), stag := bits (byteAt d 34) 3 0,
    dtag := bits (byteAt d 35) 3 0, ncons := bits (byteAt d 35) 7 4, doneFlag := byteAt d 36, doneEn := bit (byteAt d 37) 0 }

/-- Bytes of the whole transfer. -/
def MoveDesc.total (m : MoveDesc) : Nat := m.run * m.rows

/-- The base of an end (false the source), its pitch and its tag mode. -/
def MoveDesc.base (m : MoveDesc) (dst : Bool) : Nat := if dst then m.dst else m.src
def MoveDesc.pitch (m : MoveDesc) (dst : Bool) : Int := if dst then m.dpitch else m.spitch
def MoveDesc.tag (m : MoveDesc) (dst : Bool) : Nat := if dst then m.dtag else m.stag

/-- The end lies in VIRT space (R356). -/
def Ctx.virtEnd (x : Ctx) (w : Nat) : Bool :=
  bits w 63 52 == 0 || (match x.lbuf (bits w 63 52) with | some r => r.space == 1 | none => false)

/-- The row pattern at an end stays in its buffer, or in the address space for an end with LBUF 0 (R358). -/
def Ctx.moveInside (x : Ctx) (m : MoveDesc) (dst : Bool) : Bool :=
  let w := m.base dst
  let top := if bits w 63 52 = 0 then 2 ^ 52 else match x.lbuf (bits w 63 52) with | some r => r.size | none => 0
  let d : Int := ((m.rows : Int) - 1) * m.pitch dst
  let off : Int := bits w 51 0
  decide (0 ≤ off + min 0 d) && decide (off + max 0 d + m.run ≤ top)

/-- The descriptor is refused (R357, R358). -/
def Ctx.moveBad (x : Ctx) (d : List Byte) : Bool :=
  let m := moveDesc d
  byteAt d 19 != 0 || byteAt d 23 != 0 || m.run == 0 || m.rows == 0 || decide (1 < m.stag) || bits (byteAt d 34) 7 4 != 0
    || (m.dtag != 0 && m.dtag != 2) || (m.dtag == 2) != (m.ncons != 0) || bits (byteAt d 37) 7 1 != 0 || !zeroIn d 38 64
    || (x.virtEnd m.src && m.stag != 0) || (x.virtEnd m.dst && (m.dtag != 0 || m.ncons != 0))
    || !x.moveInside m false || !x.moveInside m true

/-- The place of byte p of the transfer at an end. -/
def Ctx.movePlace (x : Ctx) (m : MoveDesc) (dst : Bool) (p : Nat) : Option Place :=
  let w := m.base dst
  x.locate (bits w 63 52) (((bits w 51 0 : Nat) : Int) + (p / m.run : Nat) * m.pitch dst).toNat |>.map fun q =>
    match q with
    | .virt a => .virt (a + p % m.run)
    | .hawk n o => .hawk n (o + p % m.run)

/-- The address by which a place is cut at 2 KiB. -/
def Place.addr : Place → Nat
  | .virt a => a
  | .hawk _ o => o

/-- The logical AU whose Hawk an end names. -/
def Ctx.moveLau (x : Ctx) (m : MoveDesc) (dst : Bool) : Nat :=
  match x.lbuf (bits (m.base dst) 63 52) with | some r => r.lau | none => 0

/-- Number i of the transfer's own numbers. -/
def ActiveOp.xreg (op : ActiveOp) (i : Nat) : Nat := (op.regs[i]?).getD 0

/-- The slot of byte p at an end, for a tagged end. -/
def Ctx.moveSlot (x : Ctx) (m : MoveDesc) (dst : Bool) (p : Nat) : Option Nat :=
  if m.tag dst = 0 then none
  else match x.movePlace m dst p with
    | some (.hawk _ o) => some (o / 2048)
    | _ => none

/-- The visit of an end (logical AU, slot). -/
def Au.moveVisit (a : Au) (dst : Bool) : Option (Nat × Nat) := if dst then a.moveDst else a.moveSrc

/-- The visit of an end is over: the slot's byte 2,047 has been accessed in it, the next access lies elsewhere, or the transfer
has no access left (R195). -/
def Ctx.moveVisitOver (x : Ctx) (a : Au) (op : ActiveOp) (dst : Bool) : Bool :=
  let m := moveDesc op.data
  let p := op.xreg 1
  match a.moveVisit dst with
  | none => false
  | some (_, k) =>
    decide (m.total ≤ p) || x.moveSlot m dst p != some k
      || (decide (op.xreg (if dst then 3 else 2) < p) && (match x.movePlace m dst (p - 1) with
        | some q => q.addr % 2048 == 2047
        | none => false))

/-- The next access of an end may be made: the end has no tag mode, or a visit to its slot is under way. -/
def Ctx.moveReady (x : Ctx) (a : Au) (op : ActiveOp) (dst : Bool) : Bool :=
  (moveDesc op.data).tag dst == 0 || ((a.moveVisit dst).isSome && !x.moveVisitOver a op dst)

/-- The visit of an end ends, every segment issued in it being complete (R196, R197). -/
def State.endMoveVisit (s : State) (n c : Nat) (dst : Bool) (ncons : Nat) : State :=
  match (s.au n).moveVisit dst with
  | none => s
  | some (l, k) =>
    let s1 := match (s.ctx c).auOf l with
      | some m => s.modAu m fun b => b.putTag k ((b.tag k).finish dst ncons)
      | none => s
    s1.modAu n fun b => if dst then { b with moveDst := none } else { b with moveSrc := none }

/-- Those visits of the transfer that are over end, once none of its segments is in flight. -/
def State.endMoveVisits (s : State) (n c : Nat) : State :=
  match (s.au n).acts.find? fun e => e.1 == 5 with
  | none => s
  | some (_, op) =>
    if (s.segsBy (.move n)).isEmpty then
      let x := s.ctx c
      let a := s.au n
      let nc := (moveDesc op.data).ncons
      let s1 := if x.moveVisitOver a op false then s.endMoveVisit n c false nc else s
      if x.moveVisitOver a op true then s1.endMoveVisit n c true nc else s1
    else s

/-- The transfer waits on the slot of its next access at an end; a wait under way keeps its start (R201). -/
def State.moveWaitSlot (s : State) (n c : Nat) (op : ActiveOp) (dst : Bool) : State :=
  let x := s.ctx c
  let m := moveDesc op.data
  match x.moveSlot m dst (op.xreg 1) with
  | none => s
  | some k =>
    let l := x.moveLau m dst
    let same := match (s.au n).moveWait with | some (l', k', _, _) => l' == l && k' == k && op.xreg 0 == b2n dst | none => false
    if same then s
    else s.modAu n fun a =>
      { a with
        moveWait := some (l, k, s.now, s.slotExp c)
        acts := mput a.acts 5 { op with regs := [b2n dst, op.xreg 1, op.xreg 2, op.xreg 3] } }

/-- The end of the transfer that waits begins its visit, if the tag lets it (R196, R197, R357); visits that are over end
first (R199). -/
def State.beginMoveVisit (s0 : State) (n c : Nat) : State :=
  let s := s0.endMoveVisits n c
  let a := s.au n
  match a.moveWait, a.acts.find? fun e => e.1 == 5 with
  | some (l, k, _, _), some (_, op) =>
    let dst := op.xreg 0 == 1
    match (s.ctx c).auOf l with
    | none => s
    | some m =>
      if (a.moveVisit dst).isNone ∧ ((s.au m).tag k).canBegin dst then
        let p := op.xreg 1
        let regs := if dst then [1, p, op.xreg 2, p] else [0, p, p, op.xreg 3]
        (s.modAu m fun b => b.putTag k ((b.tag k).begin dst)).modAu n fun b =>
          { (if dst then { b with moveDst := some (l, k) } else { b with moveSrc := some (l, k) }) with
            moveWait := none, acts := mput b.acts 5 { op with regs := regs } }
      else s
  | _, _ => s

/-- The end of a segment at a place. -/
def Place.memEnd (c : Nat) : Place → MemEnd
  | .virt a => .virt c a
  | .hawk n o => .hawk n o

/-- The bank that a segment occupies: of the memory written, else of the memory read. -/
def State.segBank (s : State) (src dst : MemEnd) : Option Nat :=
  let at_ := fun e (w : Bool) => match e with
    | .virt c va => (match (s.ctx c).translate va w with | .ok (_, _, d) => some (bankOf d) | _ => none)
    | _ => none
  match at_ dst true with
  | some b => some b
  | none => at_ src false

/-- The die whose tag a hub segment takes (Table 9.5): of the stack written, else of the stack read, else of the Hawk. -/
def State.segDie (s : State) (src dst : MemEnd) : Nat :=
  match s.segBank src dst with
  | some b => b / 48 / 32 / 6
  | none => match dst, src with
    | .hawk n _, _ => auDie n
    | _, .hawk n _ => auDie n
    | _, _ => 0

/-- The next segment of the transfer of AU n (R350, R359). -/
def State.issueMove (s : State) (n c : Nat) (op : ActiveOp) : State :=
  let x := s.ctx c
  let m := moveDesc op.data
  let p := op.xreg 1
  match x.movePlace m false p, x.movePlace m true p with
  | some a, some b =>
    if 64 ≤ (s.segsBy (.move n)).length then s
    else if !x.moveReady (s.au n) op false then s.moveWaitSlot n c op false
    else if !x.moveReady (s.au n) op true then s.moveWaitSlot n c op true
    else
      let len := min (m.run - p % m.run) (min (toBoundary a.addr) (toBoundary b.addr))
      let look := fun (q : Place) (w : Bool) => match q with | .virt va => x.checkAll w [(va, len)] | .hawk _ _ => .ok ()
      let stop := fun (r : VmRes Unit) (w : Bool) (t : State) => match r with
        | .wait va => t.want ⟨c, va, 2, n, w⟩
        | .bad e va => t.memFault c e 2 n w va
        | _ => t
      match look a false, look b true with
      | .ok _, .ok _ =>
        let g : Seg :=
          { issuer := .move n, die := auDie n, rsv := false, runahead := false, src := a.memEnd c, dst := b.memEnd c, len := len,
            data := [], bank := s.segBank (a.memEnd c) (b.memEnd c) }
        match s.issueSeg g with
        | none => s
        | some s1 => (s1.modAu n fun y =>
            { y with acts := mput y.acts 5 { op with regs := [op.xreg 0, p + len, op.xreg 2, op.xreg 3] } }).progress c
      | .ok _, r => stop r true s
      | r, _ => stop r false s
  | _, _ => s

end Sys2Proof.Machine
end

