-- ==== Sys2Proof/Machine/Hawk.lean ====
section
/-!
DEFINITION. The meanings of the Hawk's commands (05_hawk.md): slot visits and their waits, hot banks, errors, debug reads.
-/
namespace Sys2Proof.Machine

/-! ## Slot visits -/

/-- A Stencil's visit begins on the slot of its next access, if the tag lets it (R196, R197); a visit to another slot, or
one that has reached byte 2,047, ends first (R195, R199). -/
def State.beginStnVisit (s : State) (n st : Nat) : State :=
  let x := (s.au n).stn st
  let d := stnDesc x.desc
  match s.stnHawkNext n st with
  | none => s
  | some o =>
    let slot := o / 2048
    if d.tag = 0 ∨ s.stnInVisit n st slot then s
    else
      let s1 := s.modAu n fun a => a.endStnVisit st
      if ((s1.au n).tag slot).canBegin d.write then
        s1.modAu n fun a =>
          (a.putTag slot ((a.tag slot).begin d.write)).putStn st
            { a.stn st with visit := some (slot, x.moved), waitSlot := none }
      else s1

/-- SLOT_VISIT_BEGIN (R196, R197). -/
def execSlotVisitBegin (a : AuId) (g : AgentId) (s : State) : Out :=
  match s.live a with
  | none => .next s
  | some (c, _) => .next ((if g.val < 16 then s.beginStnVisit a g else s.beginMoveVisit a c).progress c)

/-- A Stencil's visit is over: it has accessed byte 2,047 of the slot, its next access lies elsewhere, or it is done. -/
def State.stnVisitOver (s : State) (n st : Nat) : Bool :=
  match ((s.au n).stn st).visit with
  | none => false
  | some (k, _) =>
    s.stnAtEnd n st || (match s.stnHawkNext n st with | some o => o / 2048 != k | none => true)

/-- SLOT_VISIT_END (R197). -/
def execSlotVisitEnd (a : AuId) (g : AgentId) (s : State) : Out :=
  match s.live a with
  | none => .next s
  | some (c, _) =>
    if g.val < 16 then
      .next (if s.stnVisitOver a g then (s.modAu a fun b => b.endStnVisit g).progress c else s)
    else
      .next ((s.endMoveVisits a c).progress c)

/-- Nanoseconds in which a number of AU cycles cannot have passed more than once at the highest AU clock, 1,050 MHz. -/
def cyclesNs (n : Nat) : Nat := 1000 * n / 1050

/-- SLOT_TIMEOUT (R201): the agent of AU n has waited SLOT_WAIT_LIMIT cycles on a slot of AU `holder`. -/
def State.slotTimeout (s : State) (n holder slot agent stn limit : Nat) : State :=
  match (s.au n).asg with
  | none => s
  | some (c, _) =>
    let st := match ((s.au holder).tag slot).st with | .empty => 0 | .filling => 1 | .full => 2
    (s.flagCount (AU_HAWK_STATUS n) 0 (AU_HAWK_EVT_CNT n) 31 24).faultCtx c 0x0340 n
      [(0, 1, n), (2, 2, slot), (4, 1, st), (5, 1, agent), (6, 1, stn), (8, 8, limit)]

/-- SLOT_TIMEOUT (R201). -/
def execSlotTimeout (a : AuId) (g : AgentId) (t : Nat) (s : State) : Out :=
  let s0 := s.at t
  match s0.live a with
  | none => .next s0
  | some (c, _) =>
    if g.val < 16 then
      let x := (s0.au a).stn g
      match x.waitSlot with
      | some (slot, since, e) =>
        .next (if since + cyclesNs (2 ^ e) ≤ t then
            s0.slotTimeout a a slot (if (stnDesc x.desc).write then 1 else 0) g (2 ^ e) else s0)
      | none => .next s0
    else
      match (s0.au a).moveWait with
      | some (l, slot, since, e) =>
        .next (if since + cyclesNs (2 ^ e) ≤ t then s0.slotTimeout a (((s0.ctx c).auOf l).getD a) slot 2 0xFF (2 ^ e) else s0)
      | none => .next s0

/-! ## Hot banks (R189, R190) -/

/-- One window's verdict on bank b: its run of hot windows grows or ends; the fourth in a row raises HOT_BANK. -/
def hotStep (hot : Bool) (m : Map Nat) (b : Nat) : Map Nat := if hot then mput m b (mget 0 m b + 1) else mdel m b

/-- HAWK_HOT_WINDOW_END (R189): `banks` are the banks that were hot in the window. -/
def execHawkHotWindowEnd (a : AuId) (banks : List Nat) (t : Nat) (s : State) : Out :=
  let s0 := s.at t
  let hot := fun b => banks.contains b
  let hs := (List.range 32).filter hot
  let run := (List.range 32).foldl (fun m b => hotStep (hot b) m b) (s0.au a).hotRun
  let word := hs.foldl (fun w b => w + 2 ^ b) 0
  let s1 := ((s0.modAu a fun x => { x with hotRun := run }).setReg (AU_HAWK_HOT a) word).count (AU_HAWK_EVT_CNT a) 23 16 hs.length
  let s2 := match hs.getLast? with
    | none => s1
    | some b => (s1.setFld (AU_HAWK_STATUS a) 1 1 1).setReg MEM_HOT_LAST (2 ^ 31 + 2 ^ 22 * a.val + b)
  .next ((hs.filter fun b => mget 0 run b == 4).foldl
    (fun x b => x.raise 0x0310 .all [(0, 1, 0), (1, 1, a.val), (2, 1, 0), (3, 1, b)]) s2)

/-! ## Errors (R192, R330) -/

/-- MEM_UNCORR (R330): source 0 HBM, 1 Hawk; the owning context, if there is one, is torn down. -/
def State.memUncorr (s : State) (src unit n addr : Nat) (owner : Option Nat) : State :=
  let pay := [(0, 1, src), (1, 1, unit), (4, 8, addr)]
  let s1 := s.flagCount MEM_STATUS 0 MEM_EVT_CNT0 31 24
  match owner with
  | some c => s1.faultCtx c 0x0302 n pay
  | none => s1.raise 0x0302 .all pay

/-- HAWK_ECC_ERROR (R192). -/
def execHawkEccError (a : AuId) (off : Nat) (uncorr : Bool) (s : State) : Out :=
  if uncorr then
    let s1 := ((s.setFld (AU_HAWK_STATUS a) 3 3 1).count (AU_HAWK_ECC a) 31 16 1).total 3 1
    .next (s1.memUncorr 1 a a (off % hawkBytes) ((s.au a).asg.map (·.1)))
  else .next ((s.count (AU_HAWK_ECC a) 15 0 1).total 2 1)

/-! ## Debug reads (R205, R206) -/

/-- The Hawk offset that function f has selected on AU n. -/
def State.dbgLine (s : State) (f n : Nat) : Nat := 64 * s.fld (AU_HAWK_DBG_SEL f n) 22 6

/-- A debug register of AU n read through function f: the tag, or word k of the line. -/
def State.hawkDebug (s : State) (f n off : Nat) : Nat :=
  let a := s.au n
  let line := s.dbgLine f n
  let slot := line / 2048
  match a.asg with
  | none => if off = 0x32C then 4096 * slot else 0
  | some (c, _) =>
    if (s.ctx c).owner.any fun g => fnIsPf f && fnPort g == fnPort f then
      if off = 0x32C then
        let t := a.tag slot
        4096 * slot + 256 * t.ncons + 16 * t.cnt + (match t.st with | .empty => 0 | .filling => 1 | .full => 2)
      else leNat (rdBytes a.hawk (line + (off - 0x340)) 4)
    else if off = 0x32C then 2 ^ 31 + 4096 * slot else 0

/-- HAWK_DEBUG_READ (R205): nothing waits and no tag changes. -/
def execHawkDebugRead (f : FnId) (a : AuId) (off : Nat) (s : State) : Out :=
  .next { s with answer := natLe 4 (if s.barUp then s.hawkDebug f a off else 0) }

end Sys2Proof.Machine
end

