-- ==== Sys2Proof/Machine/HostPorts.lean ====
section
/-!
DEFINITION. The meanings of what happens at a host port: resets, loss and return of the link (R443, R450), the grace
period, Function Level Reset (R451), configuration requests (R611), and lane test (R483).
-/
namespace Sys2Proof.Machine

/-- The functions of a port. -/
def portFns (p : Nat) : List Nat := List.range' (16 * p) 16

/-- What a reset of function f resets of its registers: EVT window, MSI-X table and pending bits (R676). -/
def State.resetFn (s : State) (f : Nat) : State :=
  ((s.dropRegs (EVT_BASE_LO f) (EVT_BASE_LO f + 0x100)).dropRegs (privBase f + 0xF0000) (privBase f + 0xF8010)).modFn f
    fun x => { x with msixEn := false, msixMask := false, lost := 0, createFail := [] }

/-- A reset of a port: its functions, PCIE_BAR4_SEL and PCIE_VF_CTLn take their Reset values; PCIE_PORT_CTL, PCIE_PORT_FLAGS,
PCIE_ERR_CNT and PCIE_BAR4_FAULT keep theirs (R676). -/
def State.resetPort (s : State) (p : Nat) : State :=
  let s1 := (portFns p).foldl State.resetFn s
  (((s1.dropRegs (PCIE_BAR4_SEL_LO p) (PCIE_BAR4_SEL_LO p + 8)).dropRegs (PCIE_VF_CTL p 0) (PCIE_VF_CTL p 0 + 0x40)).modPort p
    fun x => { x with numVfs := 0, bar4 := 36, ide := [], ideKeys := [] })

/-- The context of a lost port (R450): it is pre-empted, its rings are disabled and LOST is set. -/
def State.loseCtx (s : State) (c : Nat) : State :=
  let x := s.ctx c
  let s1 :=
    if x.st = .ready ∨ x.st = .running then s.startPreempt c .hostLost
    else if x.st = .preempted ∧ x.cause = .displaced then s.modCtx c fun y => { y with cause := .hostLost }
    else s
  ((s1.setFld (CTX_RING_CTL c) 31 31 0).setFld (CTX_RING_STATUS c) 3 3 1).modCtx c fun y =>
    { y with hostLost := true, ring := { y.ring with dbTail := none, dbHead := none } }

/-- Contexts of a port's functions. -/
def State.portCtxs (s : State) (p : Nat) : List Nat :=
  s.ctxsWith fun x => match x.owner with | some f => fnPort f == p | none => false

/-- The port is lost (R450): reason as Table 11.21 has it. A HOST_GRACE of 0 destroys its contexts at once. -/
def State.losePort (s : State) (p reason : Nat) : State :=
  if (s.port p).lost then s
  else
    let cs := s.portCtxs p
    let n := (cs.filter fun c => (s.ctx c).st == .ready || (s.ctx c).st == .running).length
    let s1 := (s.modPort p fun x => { x with lost := true, lostAt := s.now, grace := true }).setFld (PCIE_PORT_FLAGS p) 0 0 1
    let s2 := (cs.foldl State.loseCtx s1).raise 0x0101 (.port p) [(0, 1, p), (1, 1, reason), (2, 1, n)]
    if s.graceNs p = 0 then cs.foldl State.beginDestroy s2 else s2

/-- The data link of a port goes down, with the reset that this is to the port and its functions (R443). -/
def State.linkGone (s : State) (p reason : Nat) : State :=
  let s1 := if (s.port p).dlUp then s.losePort p reason else s
  (s1.modPort p fun x => { x with dlUp := false, flit := false, speed := 0, width := 0 }).resetPort p

/-- HOST_PORT_LOST (R450): the data link goes down. -/
def execHostPortLost (p : PortId) (t : Nat) (s : State) : Out := .next ((s.at t).linkGone p 0)

/-- PERST_N_ASSERT (R443). -/
def execPerstNAssert (p : PortId) (t : Nat) (s : State) : Out :=
  .next (((s.at t).linkGone p 1).modPort p fun x => { x with perst := true, answering := false, compliance := false })

/-- HOT_RESET (R450): the link trains again afterwards. -/
def execHotReset (p : PortId) (t : Nat) (s : State) : Out := .next ((s.at t).linkGone p 2)

/-- PERST_N_DEASSERT (R611): link training and configuration answers begin. -/
def execPerstNDeassert (p : PortId) (s : State) : Out :=
  .next (s.modPort p fun x => { x with perst := false, answering := s.power.hostOn, perstAt := s.now })

/-- HOST_PORT_UP (R485): a port whose PERST_N is released comes up, the host side being on and not held in reset (R660); its loss is over (R450). -/
def execHostPortUp (p : PortId) (speed width : Nat) (flit : Bool) (s : State) : Out :=
  if (s.port p).perst ∨ (s.port p).dlUp ∨ !s.power.hostOn ∨ s.power.svc.hold then .next s
  else
    .next ((s.modPort p fun x =>
      { x with dlUp := true, lost := false, flit := flit, speed := speed, width := width, compliance := false }).raise 0x0102 (.port p) [(0, 1, p), (1, 1, speed), (2, 1, width)])

/-- HOST_GRACE_EXPIRED (R450): the contexts of a port that is still lost, and those whose rings are still disabled, are
destroyed. -/
def execHostGraceExpired (p : PortId) (t : Nat) (s : State) : Out :=
  let s0 := s.at t
  let x := s0.port p
  if x.grace ∧ x.lostAt + s0.graceNs p ≤ t then
    let cs := (s0.portCtxs p).filter fun c => x.lost || (s0.ctx c).hostLost
    let s1 := (cs.foldl State.beginDestroy s0).modPort p fun y => { y with grace := false }
    if x.lost ∨ !cs.isEmpty then
      .next ((s1.setFld (PCIE_PORT_FLAGS p) 1 1 1).raise 0x0103 (.port p) [(0, 1, p), (1, 1, cs.length)])
    else .next s1
  else .next s0

/-- The functions that a Function Level Reset of f resets: f, and for a PF its VFs. -/
def flrFns (f : Nat) : List Nat := if fnIsPf f then portFns (fnPort f) else [f]

/-- FUNCTION_LEVEL_RESET (R451): the contexts of the functions reset are destroyed at once; no grace period applies. -/
def State.flr (s : State) (f : Nat) : State :=
  let cs := s.ctxsWith fun x => match x.owner with | some g => (flrFns f).contains g | none => false
  let s1 := (flrFns f).foldl State.resetFn (cs.foldl State.destroyNow s)
  if fnIsPf f then s1.modPort (fnPort f) fun x => { x with numVfs := 0, bar4 := 36 } else s1

/-- FUNCTION_LEVEL_RESET (R451). -/
def execFunctionLevelReset (f : FnId) (s : State) : Out := .next (s.flr f)

/-- IDE_INSECURE (R454): stream n of the port is Insecure, which counts as loss of the port. -/
def execIdeInsecure (p : PortId) (n : Nat) (t : Nat) (s : State) : Out :=
  let s0 := s.at t
  if (s0.port p).ide.any fun i => i.num == n && i.secure then
    .next ((s0.modPort p fun x => { x with ide := x.ide.map fun i => if i.num = n then { i with secure := false } else i }).losePort
      p 3)
  else .next s0

/-- The capabilities that a configuration request reaches, by the numbers the model gives them (the spec names the
capabilities and gives no offsets): 0 identity, 1 NumVFs with VF Enable in bit [31], 2 BAR Size of BAR4 as the Resizable BAR
capability codes it, 3 MSI-X Enable and Function Mask in bits [15] and [14], 4 Initiate Function Level Reset in bit [15]. -/
def State.configRead (s : State) (p vf off : Nat) : Nat :=
  let x := s.port p
  let f := s.fn (16 * p + vf)
  match off with
  | 0 => 0x1F2C + 2 ^ 16 * (if vf = 0 then 0x4802 else 0x4803)
  | 1 => if vf = 0 then x.numVfs + 2 ^ 31 * b2n (x.numVfs != 0) else 0
  | 2 => if vf = 0 then x.bar4 - 20 else 0
  | 3 => 2 ^ 15 * b2n f.msixEn + 2 ^ 14 * b2n f.msixMask
  | _ => 0

/-- Vectors that are pending and no longer masked are sent, as the MSI-X rules state (R472, R683). -/
def State.unmask (s : State) (f : Nat) : Nat → State
  | 0 => s
  | n + 1 =>
    let s1 := s.unmask f n
    if (s1.fn f).msixEn ∧ !(s1.fn f).msixMask ∧ s1.rbit (pbaKey f n) (n % 32) ∧ !s1.rbit (msixKey f n 3) 0 then
      (s1.setFld (pbaKey f n) (n % 32) (n % 32) 0).fire f n
    else s1

/-- A configuration write that is completed. -/
def State.configWrite (s : State) (p vf off v : Nat) : State :=
  let f := 16 * p + vf
  match off with
  | 1 => if vf = 0 then s.modPort p fun x => { x with numVfs := if bit v 31 then min (v % 2 ^ 16) 15 else 0 } else s
  | 2 => if vf = 0 ∧ 10 ≤ v % 64 ∧ v % 64 ≤ 19 then s.modPort p fun x => { x with bar4 := v % 64 + 20 } else s
  | 3 => (s.modFn f fun x => { x with msixEn := bit v 15, msixMask := bit v 14 }).unmask f 65
  | 4 => if bit v 15 then s.flr f else s
  | _ => s

/-- CONFIGURATION_REQUEST (R611): Configuration Request Retry Status until the firmware is ready,
or for 1 s from the port's PERST_N deassertion; then completed. The answer
is one byte of completion status (0 success, 2 retry) and four bytes of data. -/
def execConfigurationRequest (p : PortId) (vf : Nat) (write : Bool) (off v : Nat) (s : State) : Out :=
  if !(s.port p).answering then .next { s with answer := [] }
  else if !s.barUp ∧ s.now < (s.port p).perstAt + 1000000000 then .next { s with answer := [2] }
  else if write then .next { s.configWrite p (vf % 16) off v with answer := [0] }
  else .next { s with answer := 0 :: natLe 4 (s.configRead p (vf % 16) off) }

/-- ENTER_COMPLIANCE (R483): a port whose link is not up enters the compliance states and transmits the standard's
patterns. -/
def execEnterCompliance (p : PortId) (s : State) : Out :=
  if (s.port p).perst ∨ (s.port p).dlUp then .next s else .next (s.modPort p fun x => { x with compliance := true })

end Sys2Proof.Machine
end

