-- ==== Sys2Proof/Machine/Power.lean ====
section
/-!
DEFINITION. Power, clocks and temperature (14_power_package.md): the caps and their layers, power modes, droop, energy, throttling,
switching the host side off and on, and reset. What the power manager is free to choose (R591) is a free value within its bounds.
-/
namespace Sys2Proof.Machine

/-- The power machinery changed. -/
def State.modPower (s : State) (f : PowerSt → PowerSt) : State := { s with power := f s.power }
/-- The service side changed. -/
def State.modSvc (s : State) (f : SvcSt → SvcSt) : State := s.modPower fun p => { p with svc := f p.svc }

/-! ## The cap (R580, R581) -/

/-- Rounded down to a multiple of 10. -/
def tens (w : Nat) : Nat := 10 * (w / 10)

/-- The voltage cap at an input voltage in mV. -/
def voltageCap (mv : Nat) : Nat := if 46000 ≤ mv then 2400 else tens (2400 * mv / 46000)

/-- The service cap: 1,000 W while a coolant warning is in force (R661), else the rack's request, else 2,400 W. -/
def SvcSt.cap (v : SvcSt) : Nat := if v.coolant then 1000 else v.rackCap.getD 2400

/-- The host cap. -/
def State.hostCap (s : State) : Nat := s.fld PWR_CAP 11 0
/-- The effective cap. -/
def State.ceff (s : State) : Nat := min (s.hostCap) (min s.power.svc.cap s.power.vcap)
/-- LIMIT: the first of host, service and voltage cap that equals Ceff. -/
def State.capLimit (s : State) : Nat := if s.hostCap = s.ceff then 0 else if s.power.svc.cap = s.ceff then 1 else 2
/-- The excursion ceiling (R581). -/
def State.ceiling (s : State) : Nat := min 2800 (tens (7 * s.ceff / 6))

/-- PWR_CAP_STATUS follows the caps; PWR_CAP_CHANGED is raised where Ceff has changed other than by the voltage cap (R616). -/
def State.capStatus (s : State) (byVoltage : Bool) : State :=
  let old := s.fld PWR_CAP_STATUS 11 0
  let s1 := ((s.setFld PWR_CAP_STATUS 31 30 s.capLimit).setFld PWR_CAP_STATUS 27 16 s.power.svc.cap).setFld PWR_CAP_STATUS 11 0 s.ceff
  if s.ceff ≠ old ∧ !byVoltage then
    s1.raise 0x0701 .all [(0, 2, s.ceff), (2, 2, s.hostCap), (4, 2, s.power.svc.cap), (6, 1, s.capLimit)]
  else s1

/-- The host cap is set (R589). -/
def State.setHostCap (s : State) (w : Nat) : State := (s.setFld PWR_CAP 11 0 w).capStatus false

/-- PWR_CAP_WRITE (R589, Table 14.19): rounded down and clamped. -/
def execPwrCapWrite (f : FnId) (v : Word32) (s : State) : Out :=
  .next (if !s.barUp then s
    else if f.val = s.adminPf then s.setHostCap (min 2400 (max 1000 (tens (bits v.toNat 11 0))))
    else s.denied f)

/-- RESULT of SET_CAP (R588). -/
def State.capResult (s : State) : Nat := s.ceff + 2 ^ 16 * s.hostCap + 2 ^ 32 * s.power.svc.cap + 2 ^ 48 * s.capLimit

/-- SET_CAP (R587, R588). RESULT is taken after the command's write; a command that waits keeps it. -/
def execSetCap (c : CtxId) (k : Nat) (s : State) : Out :=
  .next (s.onCmd c k 0x10 fun cmd =>
    match cmd.phase with
    | .started =>
      let w := fieldLe cmd.desc 4 2
      if s.ownerOf c ≠ s.adminPf then s.complete c k 0x70 0
      else if w % 10 ≠ 0 ∨ w < 1000 ∨ 2400 < w ∨ bits (byteAt cmd.desc 6) 7 1 ≠ 0 ∨ !zeroIn cmd.desc 7 64 then s.complete c k 0x02 0
      else
        let s1 := s.setHostCap w
        if bit (byteAt cmd.desc 6) 0 ∧ s1.ceff < s1.fld PWR_INPUT_W 15 0 then s1.setPhase c k (.underway s1.capResult s1.ceff)
        else s1.complete c k 0x00 s1.capResult
    | .underway r ceff => if s.fld PWR_INPUT_W 15 0 ≤ ceff then s.complete c k 0x00 r else s
    | .held _ _ => s)

/-- VOLTAGE_CAP_UPDATE (R580): the voltage cap follows the input voltage. -/
def execVoltageCapUpdate (mv t : Nat) (s : State) : Out :=
  let s0 := (s.at t).modSvc fun v => { v with mv := mv }
  if !s0.power.hostOn then .next s0
  else
    let old := s0.power.vcap
    let new := voltageCap mv
    let s1 := (s0.setFld PWR_INPUT 15 0 (mv / 10)).modPower fun p => { p with vcap := new }
    let s2 := if new < 2400 then s1.setFld PWR_STATUS 4 4 1 else s1
    let s3 := (if 60000 < mv then s2.setFld PWR_STATUS 5 5 1 else s2).capStatus true
    if (old = 2400 ∧ new < 2400) ∨ (old < 2400 ∧ new = 2400) then
      .next (s3.raise 0x0702 .all [(0, 2, mv / 10), (2, 2, new)])
    else .next s3

/-! ## Domain clocks (R590, R591) -/

/-- The highest AU clock of a mode in MHz (Table 14.5). -/
def modeMhz (mode : Nat) : Nat := match mode with | 0 => 1050 | 1 => 850 | _ => 650
/-- The highest core voltage of a mode in mV. -/
def modeMv (mode : Nat) : Nat := match mode with | 0 => 800 | 1 => 710 | _ => 620
/-- The reference line v(f) in mV, made up to a whole mV (R591). -/
def lineMv (mhz : Nat) : Nat := max 550 (550 + ceilDiv (4545 * (mhz - 500)) 10000)

/-- The 24 core domains. -/
def domains : List Nat := List.range 24
/-- The core domain of an AU: 12 × die + column. -/
def domainOf (n : Nat) : Nat := 12 * (n / 96) + n % 12

/-- The highest clock that the mode and the throttles in force allow a domain (R600). -/
def State.topMhz (s : State) (d : Nat) : Nat :=
  let top := modeMhz (s.fld PWR_CTL 1 0)
  let top1 := match mfind s.power.thrDomain d with | some x => min top x.mhz | none => top
  match mfind s.power.thrHub d with | some x => min top1 x.mhz | none => top1

/-- A clock between 250 MHz and a top, in steps of 10 MHz, that a free value names. -/
def pickMhz (top r : Nat) : Nat := 250 + 10 * (r % ((max top 250 - 250) / 10 + 1))

/-- Every domain takes a clock at most `top d` and a voltage at or below the reference line and the mode's highest: what the power
manager chooses is free. -/
def State.setClocks (s : State) (top : Nat → Nat) : State :=
  let p := s.pick
  let hi := modeMv (s.fld PWR_CTL 1 0)
  let mhz := fun d => pickMhz (top d) (Config.keyed 14 p.1 (2 * d))
  let mv := fun d => 550 + Config.keyed 14 p.1 (2 * d + 1) % (min (lineMv (mhz d)) hi - 550 + 1)
  p.2.modPower fun x =>
    { x with mhz := domains.foldl (fun m d => mset 0 m d (mhz d)) x.mhz, mv := domains.foldl (fun m d => mset 0 m d (mv d)) x.mv }

/-- Every domain at 0.25 GHz and 0.55 V. -/
def State.floorClocks (s : State) : State :=
  s.modPower fun x =>
    { x with mhz := domains.foldl (fun m d => mset 0 m d 250) x.mhz, mv := domains.foldl (fun m d => mset 0 m d 550) x.mv }

/-- PWR_CTL_MODE_WRITE (R590): the domains that run above the new mode's highest clock come down. -/
def execPwrCtlModeWrite (f : FnId) (v : Word32) (s : State) : Out :=
  .next (if !s.barUp then s
    else if f.val ≠ s.adminPf then s.denied f
    else
      let old := s.fld PWR_CTL 1 0
      let new := bits v.toNat 1 0
      if new = 3 ∨ new = old then s
      else
        let s1 := s.setFld PWR_CTL 1 0 new
        (s1.modPower fun x =>
          { x with mhz := x.mhz.map fun e => (e.1, min e.2 (modeMhz new)), mv := x.mv.map fun e => (e.1, min e.2 (modeMv new)) }).raise
          0x0707 .all [(0, 1, old), (1, 1, new)])

/-! ## The layers of power limiting (Table 14.3) -/

/-- At most one event of a kind per 100 ms (R616). -/
def due (last : Option Nat) (now : Nat) : Bool := match last with | none => true | some l => decide (l + 100000000 ≤ now)

/-- Of the last 100 intervals of 1 ms, those with an average above Ceff. -/
def State.excursions (s : State) : Nat := ((s.power.watts.take 100).filter fun w => decide (s.ceff < w)).length

/-- CAP_CONTROL_TICK (R582, R585): `watts` is the 1 ms input power. The averages are kept; the cap layer sets the domains anew, and
no clock rises while input power is above Ceff; idle cycles end as a clock can rise again (R584). -/
def execCapControlTick (watts t : Nat) (s : State) : Out :=
  let s0 := s.at t
  if !s0.power.hostOn ∨ !s0.fwUp then .next s0
  else
    let ws := (watts :: s0.power.watts).take 100
    let avg := ws.foldl (· + ·) 0 / ws.length
    let s1 := (((s0.modPower fun p => { p with watts := ws }).setFld PWR_INPUT_W 15 0 watts).setFld PWR_INPUT_W 31 16 avg).setFld
      PWR_INPUT 31 16 (if s0.power.svc.mv = 0 then 0 else min 0xFFFF (100000 * watts / s0.power.svc.mv))
    let high := decide (s1.ceff < watts)
    let s2 := s1.setClocks fun d => if high then min (s1.topMhz d) (mget 0 s1.power.mhz d) else s1.topMhz d
    .next (if high then s2 else s2.modPower fun p => { p with idle := false })

/-- EXCURSION_CUT (R582, Table 14.3): 10 µs input power above X, or the allowance of intervals used up. Domain clocks come down. -/
def execExcursionCut (watts t : Nat) (s : State) : Out :=
  let s0 := s.at t
  if s0.power.hostOn ∧ (s0.ceiling < watts ∨ (10 ≤ s0.excursions ∧ s0.ceff < watts)) then
    let s1 := (s0.setClocks fun d => min (s0.topMhz d) (mget 0 s0.power.mhz d - 10)).flagCount PWR_STATUS 3 PWR_EVT_CNT 15 8
    if due s0.power.lastCut s0.now then
      .next ((s1.modPower fun p => { p with lastCut := some s0.now }).raise 0x0706 .all [(0, 2, watts), (2, 1, s0.excursions)])
    else .next s1
  else .next s0

/-- CURRENT_LIMIT (R583): every AU clock is stretched to twice its period. -/
def execCurrentLimit (ma t : Nat) (s : State) : Out :=
  let s0 := s.at t
  if s0.power.hostOn ∧ 64000 < ma then
    let s1 := (s0.modPower fun p => { p with stretch := true }).flagCount PWR_STATUS 2 PWR_EVT_CNT 23 16
    if due s0.power.lastLimit s0.now then
      .next ((s1.modPower fun p => { p with lastLimit := some s0.now }).raise 0x0705 .all [(0, 2, min 0xFFFF (ma / 10))])
    else .next s1
  else .next s0

/-- CURRENT_LIMIT_END (R583). -/
def execCurrentLimitEnd (ma t : Nat) (s : State) : Out :=
  let s0 := s.at t
  .next (if ma < 60000 then s0.modPower fun p => { p with stretch := false } else s0)

/-- CAP_FLOOR (R584): idle cycles go into every HBM controller and link egress; an entry is counted when they begin. -/
def execCapFloor (watts t : Nat) (s : State) : Out :=
  let s0 := s.at t
  if s0.power.hostOn ∧ s0.ceff < watts ∧ (domains.all fun d => decide (mget 0 s0.power.mhz d ≤ 250)) ∧ !s0.power.idle then
    let s1 := (s0.modPower fun p => { p with idle := true }).flagCount PWR_STATUS 6 PWR_EVT_CNT 7 0
    if due s0.power.lastFloor s0.now then
      .next ((s1.modPower fun p => { p with lastFloor := some s0.now }).raise 0x0708 .all [(0, 2, s0.ceff), (2, 2, watts)])
    else .next s1
  else .next s0

/-! ## Droop (R593, R594) -/

/-- DROOP_STRETCH: the AU's clock period doubles. -/
def execDroopStretch (a : AuId) (s : State) : Out :=
  .next (if s.power.hostOn ∧ !s.power.droop.contains a.val then
    (s.modPower fun p => { p with droop := a.val :: p.droop }).count (AU_DROOP_CNT a) 31 0 1
  else s)

/-- DROOP_END: the stretch is over after 64 stretched cycles or more. How many there were is open: a free number. -/
def execDroopEnd (a : AuId) (s : State) : Out :=
  .next (if s.power.droop.contains a.val then
    let p := s.pick
    (p.2.modPower fun x => { x with droop := x.droop.filter (· != a.val) }).setReg64 (AU_DROOP_CYC_LO a) (AU_DROOP_CYC_HI a)
      ((s.reg64 (AU_DROOP_CYC_LO a) (AU_DROOP_CYC_HI a) + 64 + p.1) % 2 ^ 64)
  else s)

/-! ## Energy (R595 to R598) -/

/-- A counter of energy by KIND and INDEX of PWR_ENERGY_SEL (Table 14.21). -/
def State.energy (s : State) (kind i : Nat) : Nat := mget 0 s.power.uj (256 * kind + i)
/-- Energy added to a counter, which wraps at 2⁶⁴. -/
def State.addEnergy (s : State) (kind i e : Nat) : State :=
  s.modPower fun p => { p with uj := mset 0 p.uj (256 * kind + i) ((mget 0 p.uj (256 * kind + i) + e) % 2 ^ 64) }

/-- Energy attributed to a context since its creation. -/
def State.ctxEnergy (s : State) (c : Nat) : Nat := s.reg64 (CTX_ENERGY_LO c) (CTX_ENERGY_HI c)

/-- The command that moves data itself and is under way longest: COPY, MAP, UNMAP or RESTORE (R597). -/
def movesData (d : Cmd) : Bool :=
  [0x0D, 0x0E, 0x0F, 0x05].contains (byteAt d.desc 0) && d.phase != .started

/-- Energy credited to the first outstanding command of a kind; whether there was one. -/
def State.credit (s : State) (c e : Nat) (p : Cmd → Bool) : State × Bool :=
  match findAt p (s.ctx c).ring.cmds 0 with
  | some (k, _) =>
    (s.modCtx c fun x =>
      { x with ring := { x.ring with cmds := x.ring.cmds.modify k fun d => { d with energy := d.energy + e } } }, true)
  | none => (s, false)

/-- Energy attributed to a context (R596, R597): `own` µJ of it belong to segments that a command issued itself, the rest goes to the
outstanding RUN. -/
def State.attribute (s : State) (c e own : Nat) : State :=
  let s1 := s.setReg64 (CTX_ENERGY_LO c) (CTX_ENERGY_HI c) ((s.ctxEnergy c + e) % 2 ^ 64)
  let p := s1.credit c (min own e) movesData
  let rest := if p.2 then e - own else e
  let q := p.1.credit c rest fun d => byteAt d.desc 0 == 0x02 && d.phase != .started
  if q.2 then q.1.modCtx c fun x => { x with runUj := x.runUj + rest } else q.1

/-- ENERGY_UPDATE (R595): what has been measured in the last 10 µs, in µJ: the input; AUs 0 to 191; stacks M0 to M11; links L0 to
L15; HPA and HPB; then for each context its share of stack, link and host-port energy by the splits of Table 14.9; then for each
context how much of that share belongs to segments that a command issued itself. -/
def execEnergyUpdate (uj : List Nat) (t : Nat) (s : State) : Out :=
  let s0 := s.at t
  if !s0.power.hostOn then .next s0
  else
    let at_ := fun i => uj.getD i 0
    let s1 := s0.addEnergy 0 0 (at_ 0)
    let s2 := (List.range 192).foldl (fun x n => x.addEnergy 1 n (at_ (1 + n))) s1
    let s3 := (List.range 12).foldl (fun x m => x.addEnergy 2 m (at_ (193 + m))) s2
    let s4 := (List.range 16).foldl (fun x p => x.addEnergy 3 p (at_ (205 + p))) s3
    let s5 := (List.range 2).foldl (fun x p => x.addEnergy 4 p (at_ (221 + p))) s4
    let mine := fun c => ((s0.ctxAus c).foldl (fun n e => n + at_ (1 + e.2)) 0) + at_ (223 + c)
    let cs := s0.ctxsWith fun x => x.st != .free
    let given := cs.foldl (fun n c => n + mine c) 0
    .next ((cs.foldl (fun x c => x.attribute c (mine c) (at_ (287 + c))) s5).addEnergy 5 0 (at_ 0 - given))

/-- Millijoules, to the nearest. -/
def mJ (uj : Nat) : Nat := (uj + 500) / 1000

/-- The energy record of Table 14.10. -/
def State.energyRecord (s : State) (c : Nat) (part : Bool) : List Byte :=
  let head := fun n => layOut 16 [(0, 4, 0x4E455848), (4, 2, 1), (6, 2, n), (8, 8, s.now)]
  if part then
    head 2320 ++ natLe 8 (s.energy 0 0) ++ natLe 8 (s.energy 5 0)
      ++ (List.range 192).flatMap (fun n => natLe 8 (s.energy 1 n)) ++ (List.range 12).flatMap (fun m => natLe 8 (s.energy 2 m))
      ++ (List.range 16).flatMap (fun p => natLe 8 (s.energy 3 p)) ++ (List.range 2).flatMap (fun p => natLe 8 (s.energy 4 p))
      ++ (List.range 64).flatMap fun c => natLe 8 (s.ctxEnergy c)
  else head 64 ++ natLe 8 (s.ctxEnergy c) ++ natLe 8 (s.ctx c).runUj ++ List.replicate 32 0

/-- QUERY_ENERGY (R598). -/
def execQueryEnergy (c : CtxId) (k : Nat) (s : State) : Out :=
  .next (s.onCmd c k 0x11 fun cmd =>
    let scope := byteAt cmd.desc 4
    let addr := fieldLe cmd.desc 8 8
    let part := scope == 1
    if part ∧ !fnIsPf (s.ownerOf c) then s.complete c k 0x70 0
    else if 1 < scope ∨ !zeroIn cmd.desc 5 8 ∨ !zeroIn cmd.desc 20 64 ∨ addr % 64 ≠ 0
        ∨ (addr ≠ 0 ∧ fieldLe cmd.desc 16 4 < (if part then 2320 else 64)) then s.complete c k 0x02 0
    else
      let s1 := if addr = 0 then s else s.hostWrite (s.ctxPort c) addr (s.energyRecord c part)
      s1.complete c k 0x00 (mJ (if part then s.energy 0 0 else s.ctxEnergy c)))

/-! ## Thermal throttling (R599 to R601) -/

/-- A throttle after a read of its sensors at part time t: it begins or falls by 10 MHz while one of them is at or above 105 °C, ends
when all are at or below 103 °C, and then rises by 10 MHz per ms up to 1,050 MHz, where it is gone. `cur` is the clock of the domain
when the throttle begins. -/
def Throttle.step (x : Option Throttle) (hot cool : Bool) (cur t : Nat) : Option Throttle :=
  let y := x.getD ⟨cur, false, t⟩
  if hot then some ⟨max 250 (y.mhz - 10), true, t⟩
  else match x with
    | none => none
    | some y =>
      if y.on then (if cool then some { y with on := false, riseAt := t } else some y)
      else
        let n := (t - y.riseAt) / 1000000
        if 1050 ≤ y.mhz + 10 * n then none else some { y with mhz := y.mhz + 10 * n, riseAt := y.riseAt + 1000000 * n }

/-- The bandwidth limit of a stack in percent after a read (Table 14.11). -/
def stackLimit (old : Option Nat) (deg : Nat) : Option Nat :=
  if 100 ≤ deg then some 25
  else if 95 ≤ deg then some 50
  else if deg ≤ 93 then none
  else old.map fun _ => 50

/-- The sensors of a domain's AUs. -/
def domainAus (d : Nat) : List Nat := (List.range 192).filter fun n => domainOf n == d

/-- The hottest of a list of temperatures, with its number. -/
def hottest (m : Map Nat) : Nat × Nat := m.foldl (fun b e => if b.1 < e.2 then (e.2, e.1) else b) (0, 0)

/-- A throttle of domain clocks is in force. -/
def PowerSt.throttlingDie (p : PowerSt) : Bool := (p.thrDomain.any fun e => e.2.on) || p.thrHub.any fun e => e.2.on

/-- Throttling of any kind is in force. -/
def PowerSt.throttling (p : PowerSt) : Bool :=
  p.throttlingDie || !p.thrStack.isEmpty

/-- The first sensor that throttles: kind, unit, temperature. -/
def PowerSt.firstHot (p : PowerSt) : Nat × Nat × Nat :=
  match p.tAu.find? fun e => decide (105 ≤ e.2) with
  | some e => (0, e.1, e.2)
  | none =>
    match p.tHub.find? fun e => decide (105 ≤ e.2) with
    | some e => (1, e.1, e.2)
    | none => match p.tStack.find? fun e => decide (95 ≤ e.2) with | some e => (2, e.1, e.2) | none => (0, 0, 0)

/-- A list of readings as a map. -/
def readings (xs : List Nat) : Map Nat := xs.zipIdx.foldl (fun m e => mset 0 m e.2 e.1) []

/-- The throttles of the domains after a read at part time t: `sensors d` are the temperatures that domain d answers to. -/
def throttles (old : Map Throttle) (mhz : Map Nat) (sensors : Nat → List Nat) (t : Nat) : Map Throttle :=
  domains.foldl (fun m d =>
    let ts := sensors d
    match Throttle.step (mfind old d) (ts.any fun v => decide (105 ≤ v)) (ts.all fun v => decide (v ≤ 103)) (mget 0 mhz d) t with
    | some x => mput m d x
    | none => m) []

/-- The power machinery after a read of the sensors: temperatures, throttles, and domain clocks within them. -/
def State.sense (s : State) (aus hubs stks : List Nat) : PowerSt :=
  let p := s.power
  let tAu := readings (aus.take 192)
  let tStack := readings (stks.take 12)
  let dom := throttles p.thrDomain p.mhz (fun d => (domainAus d).map fun n => mget 0 tAu n) s.now
  let hub := throttles p.thrHub p.mhz (fun _ => hubs.take 8) s.now
  let stk := (List.range 12).foldl (fun m n =>
    match stackLimit (mfind p.thrStack n) (mget 0 tStack n) with
    | some v => mput m n v
    | none => m) []
  let top := fun (d v : Nat) =>
    let v1 := match mfind dom d with | some x => min v x.mhz | none => v
    match mfind hub d with | some x => min v1 x.mhz | none => v1
  { p with
    tAu := tAu, tHub := readings (hubs.take 8), tStack := tStack, thrDomain := dom, thrHub := hub, thrStack := stk
    mhz := p.mhz.map fun e => (e.1, top e.1 e.2) }

/-- THERMAL_SENSOR_READ (R599 to R601): temperatures in °C of the AUs, the hub sensors and the stacks. -/
def execThermalSensorRead (aus hubs stks : List Nat) (t : Nat) (s : State) : Out :=
  let s0 := s.at t
  if !s0.power.hostOn then .next s0
  else
    let old := s0.power
    let p := s0.sense aus hubs stks
    let s1 := { s0 with power := p }
    let s2 := if p.throttlingDie ∧ !old.throttlingDie then s1.setFld PWR_STATUS 0 0 1 else s1
    let s3 := if !p.thrStack.isEmpty ∧ old.thrStack.isEmpty then s2.setFld PWR_STATUS 1 1 1 else s2
    let a := hottest p.tAu
    let s4 := s3.setReg PWR_TEMP (2 ^ 24 * (hottest p.tStack).1 + 2 ^ 16 * (hottest p.tHub).1 + 2 ^ 8 * a.1 + a.2)
    let s5 := s4.setFld PWR_STATUS 31 31 (b2n p.throttling)
    if p.throttling ∧ !old.throttling then
      let h := p.firstHot
      .next ((((s5.modPower fun x => { x with throttledAt := some s0.now }).count PWR_EVT_CNT 31 24 1).total 14 1).raise 0x0703 .all
        [(0, 1, h.1), (1, 1, h.2.1), (2, 1, h.2.2)])
    else if old.throttling ∧ !p.throttling then
      .next ((s5.modPower fun x => { x with throttledAt := none }).raise 0x0704 .all [(0, 8, s0.now - old.throttledAt.getD s0.now)])
    else .next s5

/-! ## Switching off, on, and reset (R578, R609, R613) -/

/-- What the fuses show in SEC_LC and SEC_FUSE (Table 15.18, R676), with the life-cycle state of a part in no FIELD-DEBUG period. -/
def Fuses.state (f : Fuses) : Nat := if f.scrap then 4 else if f.lc = 0 then 0 else if f.lc % 2 = 1 then 1 else 3

/-- SEC_LC and SEC_FUSE follow the fuses, the owner store and the FIELD-DEBUG period. -/
def State.showFuses (s : State) : State :=
  let f := s.sec.fuses
  let st := if s.sec.debugUntil.isSome ∧ f.state = 1 then 2 else f.state
  ((s.setFld SEC_LC 7 0 st).setFld SEC_LC 16 16 (b2n s.sec.owner.isSome)).setReg SEC_FUSE
    (2 ^ 29 * b2n f.grade + 2 ^ 24 * (f.lc % 32) + 2 ^ 20 * (f.revoked % 16) + f.rollback % 128)

/-- A new random nonce (R647). -/
def State.newNonce (s : State) : State :=
  let p := s.pick
  (List.range 4).foldl (fun x i => x.setReg (SEC_LC_NONCE i) (p.1 / 2 ^ (32 * i) % 2 ^ 32)) p.2

/-- Everything on the host side is lost; what the service side, the fuses, the flash and the outside world hold stays. Part time
starts anew (R434). -/
def State.hostLost (s : State) (on : Bool) : State :=
  { State.reset with
    pending := s.pending, free := s.free, answer := s.answer, host := s.host
    now := if on then 0 else s.now
    ports := s.ports.map fun e => (e.1, { HostPort.reset with perst := e.2.perst, answering := on && !e.2.perst })
    power := { PowerSt.reset with hostOn := on, svc := s.power.svc, vcap := voltageCap s.power.svc.mv }
    sec := { SecSt.reset with
      flash := s.sec.flash, fuses := s.sec.fuses, owner := s.sec.owner, crashed := s.sec.crashed, bootRollback := s.sec.fuses.rollback,
      bootLc := s.sec.fuses.state } }

/-- The host side comes out of a reset: registers that the fuses, the service side or chance set. -/
def State.comeUp (s : State) : State :=
  let s1 := (s.hostLost true).showFuses.newNonce
  (((s1.setFld PWR_RESET_CAUSE 3 0 s.power.svc.cause).setFld PWR_RESET_CAUSE 15 8 s.power.svc.unit).setFld PWR_INPUT 15 0
    (s.power.svc.mv / 10)).capStatus true

/-- The host side is switched off (R578): the service side keeps the cause. -/
def State.switchOff (s : State) (cause unit : Nat) : State :=
  if s.power.hostOn then ((s.hostLost false).modSvc fun v => { v with cause := cause, unit := unit }) else s

/-- INPUT_UNDERVOLTAGE (Table 14.1). -/
def execInputUndervoltage (mv t : Nat) (s : State) : Out :=
  let s0 := (s.at t).modSvc fun v => { v with mv := mv }
  .next (if mv < 40000 then s0.switchOff 5 0 else s0)

/-- INPUT_OVERVOLTAGE (Table 14.1). -/
def execInputOvervoltage (mv t : Nat) (s : State) : Out :=
  let s0 := (s.at t).modSvc fun v => { v with mv := mv }
  .next (if 62000 < mv then s0.switchOff 6 0 else s0)

/-- INPUT_BELOW_SERVICE_MIN (Table 14.1): host side and service side are off; the service side forgets what it was told. -/
def execInputBelowServiceMin (mv : Nat) (s : State) : Out :=
  .next (if mv < 36000 then
    (s.switchOff 5 0).modSvc fun _ => { SvcSt.reset with on := false, mv := mv }
  else s.modSvc fun v => { v with mv := mv })

/-- INPUT_RISE (R609 steps 1 to 3): the service side starts; the next power-on is the first since the input rose. -/
def execInputRise (mv : Nat) (s : State) : Out :=
  .next (if 36000 ≤ mv ∧ !s.power.svc.on then s.modSvc fun _ => { SvcSt.reset with mv := mv }
  else s.modSvc fun v => { v with mv := mv })

/-- A power-on is refused (R578, R602, R661): the service side is off, the host side is on, the input is below 42.0 V, a trip was
less than 10 s ago, or there is a leak. -/
def State.onRefused (s : State) : Bool :=
  let v := s.power.svc
  !v.on || s.power.hostOn || decide (v.mv < 42000) || v.leak || (match v.tripAt with | some a => decide (s.now < a + 10000000000) | none => false)

/-- The service side issues a power-on (R609). -/
def State.powerOn (s : State) : State := if s.onRefused then s else s.comeUp.modSvc fun v => { v with tripAt := none }

/-- HOST_POWER_ON (R609). -/
def execHostPowerOn (s : State) : Out := .next s.powerOn

/-- A reset of the whole host side by the service side (R613). -/
def State.serviceReset (s : State) : State :=
  if s.power.hostOn then (s.modSvc fun v => { v with cause := 1, unit := 0 }).comeUp else s

/-- SERVICE_RESET (R613). -/
def execServiceReset (s : State) : Out := .next s.serviceReset

/-- THERMAL_TRIP (R602): sensor 0 an AU, 1 a hub sensor, 2 a stack. -/
def execThermalTrip (sensor n deg t : Nat) (s : State) : Out :=
  let s0 := s.at t
  let limit := if sensor = 2 then 105 else 120
  .next (if s0.power.hostOn ∧ limit ≤ deg then
    (s0.switchOff (if sensor = 2 then 4 else 3) (if sensor = 1 then 0xC0 + n else n)).modSvc fun v => { v with tripAt := some s0.now }
  else s0)

/-- STAGE_FAULT (Table 14.17): the power stage switches itself off. -/
def execStageFault (s : State) : Out := .next (s.switchOff 7 0)

end Sys2Proof.Machine
end

