-- ==== Sys2Proof/Machine/Flash.lean ====
section
/-!
DEFINITION. The boot flash (R621 to R624): the directory, image headers, the checks of a slot; and the boot stages (R618 to R620,
R625).
-/
namespace Sys2Proof.Machine

/-- Boot, firmware and security changed. -/
def State.onSec (s : State) (f : SecSt → SecSt) : State := { s with sec := f s.sec }

/-! ## The directory (R622) -/

/-- n bytes of the flash. -/
def SecSt.fl (x : SecSt) (a n : Nat) : List Byte := rdBytes x.flash a n

/-- A directory record: SEQ, COMMITTED, TRIAL (0xFF none), TRIAL_STATE. -/
structure Dir where
  seq : Nat
  committed : Nat
  trial : Nat
  state : Nat
  deriving DecidableEq, Repr

/-- Bytes 0 to 55 of a record (Table 15.3). -/
def Dir.body (d : Dir) : List Byte :=
  layOut 56 [(0, 4, 0x52445848), (4, 4, d.seq), (8, 1, d.committed), (9, 1, d.trial), (10, 1, d.state)]

/-- Copy i of the directory, if it is valid. -/
def SecSt.dirCopy (x : SecSt) (i : Nat) : Option Dir :=
  let r := x.fl (0x1000 * i) 64
  let d : Dir := ⟨fieldLe r 4 4, byteAt r 8, byteAt r 9, byteAt r 10⟩
  if fieldLe r 0 4 = 0x52445848 ∧ d.committed ≤ 1 ∧ (d.trial ≤ 1 ∨ d.trial = 0xFF) ∧ d.state ≤ 2 ∧ zeroIn r 11 56
      ∧ r.drop 56 = (sha256 (r.take 56)).take 8 then some d else none

/-- The directory in force, and the copy that holds it: the valid one with the higher SEQ. -/
def SecSt.dir (x : SecSt) : Dir × Option Nat :=
  match x.dirCopy 0, x.dirCopy 1 with
  | some a, some b => if a.seq < b.seq then (b, some 1) else (a, some 0)
  | some a, none => (a, some 0)
  | none, some b => (b, some 1)
  | none, none => (⟨0, 0, 0xFF, 0⟩, none)

/-- An update of the directory: the other copy, with SEQ + 1. -/
def SecSt.writeDir (x : SecSt) (f : Dir → Dir) : SecSt :=
  let d := x.dir
  let i := match d.2 with | some 0 => 1 | _ => 0
  let n := { f d.1 with seq := (d.1.seq + 1) % 2 ^ 32 }
  { x with flash := wrBytes x.flash (0x1000 * i) (n.body ++ (sha256 n.body).take 8) }

/-! ## Slots (R623, R624) -/

/-- Where a slot begins, and its bytes. -/
def slotAt (slot : Nat) : Nat := if slot = 0 then 0x100000 else 0x1900000
def slotBytes : Nat := 0x1800000

/-- The header of a slot. -/
def SecSt.head (x : SecSt) (slot : Nat) : List Byte := x.fl (slotAt slot) 4096

/-- A section of a slot, by the places of its offset and length in the header. -/
def SecSt.section_ (x : SecSt) (slot o : Nat) : List Byte :=
  let h := x.head slot
  x.fl (slotAt slot + fieldLe h o 4) (fieldLe h (o + 4) 4)

/-- A section's offset and length keep Table 15.4 and stay in the slot. -/
def sectionOk (h : List Byte) (o top : Nat) : Bool :=
  let a := fieldLe h o 4
  let n := fieldLe h (o + 4) 4
  a % 4096 == 0 && decide (1 ≤ n) && decide (n ≤ top) && decide (a + n ≤ slotBytes)

/-- The header is recognised (reason 0). -/
def headOk (h : List Byte) : Bool :=
  fieldLe h 0 4 == 0x57465848 && fieldLe h 4 2 == 1 && zeroIn h 6 8 && decide (byteAt h 20 ≤ 64) && bits (byteAt h 22) 7 5 == 0
    && zeroIn h 23 24 && zeroIn h 104 3968 && sectionOk h 24 0x200000 && sectionOk h 32 0x1400000

/-- The digest of a list of bytes as a number. -/
def digest (bs : List Byte) : Nat := beNat (sha256 bs)

/-- The checks of reasons 0 to 5 (Table 15.5), in order, in a life-cycle state: the first that fails. -/
def SecSt.check (x : SecSt) (slot lc : Nat) : Option Nat :=
  let h := x.head slot
  let key := (h.drop 3968).take 64
  let k := byteAt h 21
  if !headOk h then some 0
  else if bit x.fuses.revoked k ∨ 4 ≤ k ∨ digest key ≠ mget 0 x.fuses.keyHash k then some 1
  else if !Config.ecdsaOk (digest key) (digest (h.take 3968)) (beNat (h.drop 4032)) then some 2
  else if byteAt h 20 < x.fuses.rollback then some 3
  else if !bit (byteAt h 22) lc then some 4
  else if sha256 (x.section_ slot 24) ≠ (h.drop 40).take 32 then some 5
  else none

/-- The main firmware matches MAIN_HASH (reason 6). -/
def SecSt.mainOk (x : SecSt) (slot : Nat) : Bool := sha256 (x.section_ slot 32) == ((x.head slot).drop 72).take 32

/-- FW_VERSION and ROLLBACK of a slot's image. -/
def SecSt.version (x : SecSt) (slot : Nat) : Nat := fieldLe (x.head slot) 8 4

/-! ## Booting (R618 to R620, R625) -/

/-- The slot that runs, or that stage 1 was started from. -/
def State.slot (s : State) : Nat := s.fld SEC_BOOT_STATUS 8 8

/-- A slot is skipped for a reason (Table 15.5): its bit, SKIP_REASON, the count, and what BOOT_FALLBACK will say. -/
def State.skipSlot (s : State) (slot reason : Nat) : State :=
  (((s.setFld SEC_BOOT_STATUS slot slot 1).setFld SEC_BOOT_STATUS 19 16 reason).count SEC_EVT_CNT 7 0 1).onSec fun x =>
    { x with skipped := x.skipped ++ [(slot, reason)] }

/-- BOOT_FALLBACK for every slot skipped and trial abandoned at this boot that has not been reported (Table 15.24). -/
def State.fallbacks (s : State) (slot : Nat) : State :=
  (s.sec.skipped.foldl (fun t e => (t.setFld SEC_STATUS 1 1 1).raise 0x0802 .all [(0, 1, slot), (1, 1, e.1), (2, 1, e.2)]) s).onSec
    fun x => { x with skipped := [] }

/-- No slot boots (R620), or the part is in SCRAP (R654). -/
def State.recover (s : State) : State := ((s.setFld SEC_BOOT_STATUS 27 24 3).setFld SEC_FW_STATUS 31 30 3).setFld SEC_FW_STATUS 8 0 0

/-- Slots tried one after another; `low` says that the committed slot has failed check 3 at this boot. -/
def State.trySlots (s : State) (committed trial : Nat) (low : Bool) : List Nat → State
  | [] => s.recover
  | slot :: rest =>
    if s.sec.excluded.contains slot then s.trySlots committed trial low rest
    else
      match s.sec.check slot s.sec.bootLc with
      | some r => (s.skipSlot slot r).trySlots committed trial (low || (slot == committed && r == 3)) rest
      | none =>
        let s1 := if slot ≠ committed ∧ low then s.onSec fun x => x.writeDir fun d => { d with committed := slot, trial := 0xFF, state := 0 }
          else s
        ((((s1.setFld SEC_BOOT_STATUS 27 24 1).setFld SEC_BOOT_STATUS 8 8 slot).setFld SEC_BOOT_STATUS 9 9 (b2n (slot == trial))).onSec
          fun x => { x with stage1 := fieldLe (x.head slot) 16 4, rollback := byteAt (x.head slot) 20 }).fallbacks slot

/-- ROM_BOOT (R625): once per reset of the hub die, unless a reset hold is in force. -/
def execRomBoot (s : State) : Out :=
  if !s.power.hostOn ∨ s.power.svc.hold ∨ s.fld SEC_BOOT_STATUS 27 24 ≠ 0 ∨ s.fld SEC_FW_STATUS 31 30 ≠ 0 then .next s
  else if s.sec.fuses.scrap then .next s.recover
  else
    let d := s.sec.dir.1
    if d.trial ≠ 0xFF ∧ d.state = 1 then
      .next ((s.onSec fun x => x.writeDir fun d => { d with state := 2 }).trySlots d.committed d.trial false [d.trial, 1 - d.trial])
    else
      let s1 := if d.trial ≠ 0xFF ∧ d.state = 2 then
          s.onSec fun x => { x.writeDir fun d => { d with trial := 0xFF, state := 0 } with skipped := x.skipped ++ [(d.trial, 7)] }
        else s
      .next (s1.trySlots d.committed 0xFF false [d.committed, 1 - d.committed])

/-- STAGE1_RUN (R618 steps 4 and 5, R619): `ok` says that the bytes loaded into firmware memory are those of the flash. On a hash
failure the slot is excluded and the ROM starts again. -/
def execStage1Run (ok : Bool) (s : State) : Out :=
  if s.fld SEC_BOOT_STATUS 27 24 ≠ 1 then .next s
  else if ok ∧ s.sec.mainOk s.slot then .next (s.setFld SEC_BOOT_STATUS 27 24 2)
  else
    let slot := s.slot
    .next ((((s.skipSlot slot 6).setFld SEC_BOOT_STATUS 27 24 0).setFld SEC_BOOT_STATUS 9 8 0).onSec fun x =>
      { x with excluded := x.excluded ++ [slot], stage1 := 0, rollback := 0 })

/-- The identity of the part as an identity read answers it (Table 15.16), without the nonce: DSN; GRADE, which decides the ordering
code; life-cycle code; FW_VERSION; STAGE1_VERSION; IF_VERSION; LNK_PART_ID. -/
def State.identity (s : State) : List Byte :=
  natLe 8 s.sec.fuses.dsn ++ natLe 1 (b2n s.sec.fuses.grade) ++ natLe 1 (s.fld SEC_LC 7 0) ++ natLe 4 (s.reg HUB_FW_VERSION)
    ++ natLe 4 s.sec.stage1 ++ natLe 4 (s.reg HUB_IF_VERSION) ++ natLe 2 (s.fld LNK_PART_ID 15 0)

/-- FW_READY (R618 step 6): versions appear, every compartment runs, the service side takes its copy of the identity, and the crash
area's records are those that a log pull returns first (R642). -/
def execFwReady (s : State) : Out :=
  if s.fld SEC_BOOT_STATUS 27 24 ≠ 2 ∨ s.fld SEC_FW_STATUS 31 30 ≠ 0 then .next s
  else
    let h := s.sec.head s.slot
    let s1 := (((s.setReg HUB_FW_VERSION (fieldLe h 8 4)).setReg HUB_IF_VERSION (fieldLe h 12 4)).setFld SEC_FW_STATUS 31 30 1).setFld
      SEC_FW_STATUS 8 0 0x1FF
    let s2 := s1.onSec fun x =>
      { x with crash := (List.range x.crashed).map fun i => x.fl (0x3100000 + 64 * i) 64, crashed := 0 }
    .next ((s2.modSvc fun v => { v with identity := s2.identity }).raise 0x0801 .all
      [(0, 4, fieldLe h 8 4), (4, 4, s.sec.stage1), (8, 1, s.slot), (9, 1, s.fld SEC_BOOT_STATUS 9 9)])

/-! ## Updating firmware (R628 to R631) -/

/-- STATUS of SEC_UPD_CTL. -/
def State.updStatus (s : State) (st : Nat) : State := s.setFld SEC_UPD_CTL 15 8 st

/-- The update registers answer: the firmware is ready, or the ROM serves the update path in RECOVERY (R620). -/
def State.updUp (s : State) : Bool := s.fwUp || s.fld SEC_FW_STATUS 31 30 == 3

/-- The slot that staging writes: the one that is not running. In RECOVERY none runs, and the spec does not say which it is. -/
def State.otherSlot (s : State) : Nat × State :=
  if s.fld SEC_FW_STATUS 31 30 = 3 then let p := s.pick; (p.1 % 2, p.2) else (1 - s.slot, s)

/-- SEC_UPD_GO (R628, R629): staging begins, or is refused. -/
def execSecUpdGo (f : FnId) (v : Word32) (s : State) : Out :=
  .next (if !s.updUp then s
    else if f.val ≠ s.adminPf then s.denied f
    else if !bit v.toNat 0 then s
    else if s.sec.fuses.scrap then s.updStatus 5
    else if s.rbit SEC_UPD_CTL 2 then s.updStatus 1
    else if s.rbit SEC_BOOT_STATUS 9 then s.updStatus 9
    else
      let p := s.otherSlot
      ((p.2.setFld SEC_UPD_CTL 2 2 1).setFld SEC_UPD_CTL 3 3 p.1).onSec fun x =>
        { x with staging := some ⟨4096 * (s.reg64 SEC_UPD_ADDR_LO SEC_UPD_ADDR_HI / 4096), s.fld SEC_UPD_LEN 24 0, p.1⟩ })

/-- The status of a slot after its checks (Table 15.22). -/
def SecSt.stageStatus (x : SecSt) (slot lc : Nat) : Nat :=
  match x.check slot lc with
  | some 0 => 2
  | some 1 => 3
  | some 2 => 3
  | some 3 => 4
  | some 4 => 5
  | some _ => 6
  | none => if x.mainOk slot then 0 else 6

/-- The image is read, written into the slot and checked: the status, and the state. -/
def State.stage (s : State) (g : Staging) : Nat × State :=
  if g.len < 4096 ∨ slotBytes < g.len then (2, s)
  else match s.hostRead s.adminPort g.addr g.len with
    | none => (7, s)
    | some bs =>
      let s1 := s.onSec fun x => { x with flash := wrBytes x.flash (slotAt g.slot) bs }
      (s1.sec.stageStatus g.slot (s1.fld SEC_LC 7 0), s1)

/-- FW_STAGED (R628): staging ends. -/
def execFwStaged (s : State) : Out :=
  match s.sec.staging with
  | none => .next s
  | some g =>
    if s.fwHalted then .next s
    else
      let r := s.stage g
      let s1 := if r.1 = 0 then r.2.onSec fun x => x.writeDir fun d => { d with trial := g.slot, state := 1 } else r.2
      .next (((((s1.updStatus r.1).setFld SEC_UPD_CTL 2 2 0).setFld SEC_STATUS 2 2 1).onSec fun x => { x with staging := none }).raise
        0x0805 .all
        [(0, 1, g.slot), (1, 1, byteAt (s1.sec.head g.slot) 20), (2, 1, r.1), (4, 4, s1.sec.version g.slot)])

/-- SEC_UPD_COMMIT (R631): the rollback count, the directory, the event. -/
def execSecUpdCommit (f : FnId) (v : Word32) (s : State) : Out :=
  .next (if !s.updUp then s
    else if f.val ≠ s.adminPf then s.denied f
    else if !bit v.toNat 1 then s
    else if s.sec.fuses.scrap then s.updStatus 5
    else if s.rbit SEC_UPD_CTL 2 then s.updStatus 1
    else if !s.rbit SEC_BOOT_STATUS 9 then s.updStatus 10
    else
      let slot := s.slot
      let s1 := s.onSec fun x =>
        let y := x.writeDir fun d => { d with committed := slot, trial := 0xFF, state := 0 }
        { y with fuses := { y.fuses with rollback := max y.fuses.rollback (min 64 x.rollback) }, changed := true }
      ((((s1.showFuses.updStatus 0).setFld SEC_BOOT_STATUS 9 9 0).setFld SEC_STATUS 3 3 1)).raise 0x0806 .all
        [(0, 1, slot), (1, 1, s1.sec.fuses.rollback), (4, 4, s1.sec.version slot)])

end Sys2Proof.Machine
end

