-- ==== Sys2Proof/Machine/Logs.lean ====
section
/-!
DEFINITION. Log records and log rings (R637 to R643), diagnostic reads of page tables (R653), and JTAG (R649 to R652).
-/
namespace Sys2Proof.Machine

/-! ## Log rings (R637 to R641) -/

/-- Records of a log ring. -/
def State.logSize (s : State) (p : Nat) : Nat := 2 ^ (min (s.fld (SEC_LOG_CTL p) 3 0) 9 + 6)

/-- The log ring of port p is enabled and has room. -/
def State.logRoom (s : State) (p : Nat) : Bool :=
  s.rbit (SEC_LOG_CTL p) 31
    && decide (ringUsed (s.fld (SEC_LOG_TAIL p) 15 0) (s.fld (SEC_LOG_HEAD p) 15 0) < s.logSize p)

/-- A log record (Table 15.9) with PHASE clear. -/
def logRecordBytes (point sev ctx time seq : Nat) (args : List Byte) : List Byte :=
  layOut 16 [(0, 2, point), (2, 1, 2 * (sev % 8)), (3, 1, ctx), (4, 8, time), (12, 4, seq)]
    ++ (args ++ List.replicate 48 0).take 48

/-- A record goes to the ring of port p: written, or discarded and counted (R639). -/
def State.logPut (s : State) (p : Nat) (r : List Byte) : State :=
  if s.logRoom p then
    let tail := s.fld (SEC_LOG_TAIL p) 15 0
    let size := s.logSize p
    let flags := byteAt r 2 + phaseOf tail size
    (s.hostWrite p (s.reg64 (SEC_LOG_BASE_LO p) (SEC_LOG_BASE_HI p) + 64 * (tail % size)) (r.take 2 ++ natLe 1 flags ++ r.drop 3)).setFld
      (SEC_LOG_TAIL p) 15 0 ((tail + 1) % 65536)
  else (s.count (SEC_LOG_LOST p) 31 0 1).onSec fun x => { x with lost := mset 0 x.lost p (mget 0 x.lost p + 1) }

/-- Room has come back, or the ring has been enabled: LOG_LOST follows if records were discarded (R639). -/
def State.logReturned (s : State) (p : Nat) : State :=
  let n := mget 0 s.sec.lost p
  if n ≠ 0 ∧ s.logRoom p then
    ((s.onSec fun x => { x with lost := mdel x.lost p }).setFld SEC_STATUS 4 4 1).raise 0x0809 .all
      [(0, 1, p), (4, 4, min n 0xFFFFFFFF)]
  else s

/-- LEVEL of the compartment of a trace point (Table 15.19); TRACE writes every record (R651). -/
def State.logLevel (s : State) (point : Nat) : Nat :=
  if s.rbit SEC_LC 11 then 7 else s.fld SEC_TRACE_EN (2 * (point / 4096) + 1) (2 * (point / 4096))

/-- A trace point is met: its record is kept, and written where its severity allows (R637, R638, R641). -/
def State.logAdd (s : State) (sev ctx point : Nat) (args : List Byte) : State :=
  let named := ctx < 64
  let r := logRecordBytes point sev (if named then ctx else 0xFF) s.now s.sec.logSeq args
  let s1 := s.onSec fun x =>
    { x with
      logs := let ls := x.logs ++ [r]; ls.drop (ls.length - 16384)
      logSeq := (x.logSeq + 1) % 2 ^ 32 }
  if sev = 0 ∨ sev ≤ s.logLevel point then
    match (if named then (s.ctx ctx).owner else none) with
    | some f => s1.logPut (fnPort f) r
    | none => (s1.logPut 0 r).logPut 1 r
  else s1

/-- LOG_RECORD (R638): severity, context (64 and above: none), trace point, arguments. -/
def execLogRecord (sev src point : Nat) (data : List Byte) (s : State) : Out :=
  .next (if s.fwUp then s.logAdd (sev % 4) src (point % 65536) data else s)

/-- SEC_LOG_HEAD_WRITE (R637, R639): by the PF of the port, as for an event ring. -/
def execSecLogHeadWrite (f : FnId) (v : Word32) (s : State) : Out :=
  let p := fnPort f
  let tail := s.fld (SEC_LOG_TAIL p) 15 0
  let head := s.fld (SEC_LOG_HEAD p) 15 0
  let h := v.toNat % 65536
  .next (if !s.barUp ∨ !fnIsPf f ∨ s.logSize p < ringUsed tail h ∨ ringUsed tail head < ringUsed tail h then s
    else (s.setFld (SEC_LOG_HEAD p) 15 0 h).logReturned p)

/-! ## Diagnostic reads of page tables (R653) -/

/-- TYPE of a leaf (Table 9.4). -/
def PteType.code : PteType → Nat
  | .resident => 2 | .pageable => 3 | .inTransit => 4

/-- A leaf entry as Table 9.3 lays it out. -/
def Pte.word (e : Pte) : Nat :=
  4096 * (e.addr / 4096) + 256 * b2n e.dirty + 128 * b2n e.accessed + 64 * b2n e.protect
    + (match e.ty with | .resident => 0 | _ => 16 * e.port) + b2n e.write * 8 + e.ty.code

/-- An entry that points to a table: where the firmware puts its tables is open. -/
def tableWord (r : Nat) : Nat := 4096 * (r % 2 ^ 28) + 1

/-- The entry that translates a virtual address at a level; `r` places a table. -/
def Ctx.entryAt (x : Ctx) (va level r : Nat) : Nat :=
  let p := va / frameBytes
  match level with
  | 0 => if x.pt.any fun e => e.1 / 262144 == p / 262144 then tableWord r else 0
  | 1 =>
    match mfind x.pt (512 * (p / 512)) with
    | some e => if e.big then e.word else tableWord r
    | none => if x.pt.any fun e => e.1 / 512 == p / 512 then tableWord r else 0
  | 2 => match mfind x.pt p with | some e => if e.big then 0 else e.word | none => 0
  | _ => 0

/-- The PF, or one of its VFs, owns the context. -/
def State.ownsAny (s : State) (f c : Nat) : Bool :=
  match (s.ctx c).owner with | some g => fnIsPf f && fnPort g == fnPort f | none => false

/-- SEC_DIAG_GO (R653): a write of SEC_DIAG_CTL by the PF of the port. -/
def execSecDiagGo (f : FnId) (v : Word32) (s : State) : Out :=
  let p := fnPort f
  let k := SEC_DIAG_CTL p
  .next (if !s.barUp ∨ !fnIsPf f then s
    else
      let w := v.toNat
      let w := if bits w 9 8 = 3 then putBits w 9 8 (s.fld k 9 8) else w
      let s1 := s.softReg k w
      if !bit w 0 then s1
      else
        let c := bits w 15 10
        if s1.ownsAny f c then
          let q := s1.pick
          let e := (s1.ctx c).entryAt (s.reg (SEC_DIAG_VA_LO p) + 2 ^ 32 * s.fld (SEC_DIAG_VA_HI p) 19 0) (bits w 9 8) q.1
          ((q.2.setReg64 (SEC_DIAG_PTE_LO p) (SEC_DIAG_PTE_HI p) e).setFld k 1 1 1).setFld k 2 2 0
        else ((s1.setReg64 (SEC_DIAG_PTE_LO p) (SEC_DIAG_PTE_HI p) 0).setFld k 2 2 1).setFld k 1 1 0)

/-! ## JTAG (R649 to R652) -/

/-- The instructions of a TAP by the numbers the model gives them (the spec gives no codes): 0 IDCODE, 1 BYPASS, 2 SAMPLE/PRELOAD,
3 EXTEST, 4 EXTEST_PULSE, 5 EXTEST_TRAIN, 6 a read of firmware memory, 7 halt and 8 run scheduler core `dr`, 9 halt and 10 run the
control core of AU `dr`, 11 scan, memory test and maker diagnostics, 12 maker's revocation of key `dr` (R627), 13 a read of context
memory at DPA `dr`, 14 a read of the owner store. Any other acts as BYPASS, as the standard has it. -/
def State.jtagReach (s : State) (ir dr : Nat) : Bool :=
  let st := s.fld SEC_LC 7 0
  let open_ := st == 0 || st == 3
  let mask := fun b => st == 2 && s.rbit SEC_LC (8 + b)
  if ir ≤ 1 then true
  else if ir = 2 then st != 4
  else if ir ≤ 5 then open_ || ((st == 1 || st == 2) && (s.ctxsWith fun x => x.st != .free).isEmpty)
  else if ir = 6 then open_ || mask 0
  else if ir ≤ 8 then open_ || mask 1
  else if ir ≤ 10 then (open_ || mask 2) && (s.au dr).asg.isNone
  else if ir ≤ 12 then open_
  else if ir ≤ 14 then st == 0
  else true

/-- What an instruction within reach does; what it shifts out is in `answer`. -/
def State.jtagRun (s : State) (ir dr : Nat) : State :=
  match ir with
  | 0 =>
    -- part number in bits [27:12]; version and manufacturer are open
    let p := s.pick
    { p.2 with answer := natLe 4 (2 ^ 28 * (p.1 % 16) + 0x4802 * 2 ^ 12 + p.1 / 16 % 2048 * 2 + 1) }
  | 6 => let p := s.pick; { p.2 with answer := natLe 8 p.1 }
  | 7 => s.onSec fun x => { x with haltedCores := (dr % 4) :: x.haltedCores.filter (· != dr % 4) }
  | 8 => s.onSec fun x => { x with haltedCores := x.haltedCores.filter (· != dr % 4) }
  | 9 => s.onSec fun x => { x with haltedAus := dr :: x.haltedAus.filter (· != dr) }
  | 10 => s.onSec fun x => { x with haltedAus := x.haltedAus.filter (· != dr) }
  | 12 => (s.onSec fun x => { x with fuses := { x.fuses with revoked := putBits x.fuses.revoked (dr % 4) (dr % 4) 1 } }).showFuses
  | 13 => { s with answer := rdBytes s.mem.hbm dr 8 }
  | 14 => { s with answer := natBe 32 (s.sec.owner.getD 0) }
  | _ => { s with answer := [] }

/-- JTAG_INSTRUCTION (R649, R650): outside the reach it acts as BYPASS, is counted, and is logged under trace point 0x8010 with a
severity that the spec leaves open. -/
def execJtagInstruction (ir dr : Nat) (s : State) : Out :=
  .next (if !s.power.hostOn then s
    else if s.jtagReach ir dr then s.jtagRun ir dr
    else
      let p := s.pick
      ({ p.2 with answer := [] }.count SEC_EVT_CNT 15 8 1).logAdd (p.1 % 4) 0xFF 0x8010 [])

end Sys2Proof.Machine
end

