-- ==== Sys2Proof/Machine/Lifecycle.lean ====
section
/-!
DEFINITION. Life cycle (R644 to R648): tokens and transitions; IDE keys and attestation (R454, R655 to R657).
-/
namespace Sys2Proof.Machine

/-! ## Tokens (R646, R647) -/

/-- The life-cycle state. -/
def State.lc (s : State) : Nat := s.fld SEC_LC 7 0

/-- A field of a token breaks Table 15.11. -/
def tokenBad (k : List Byte) : Bool :=
  let kind := byteAt k 4
  fieldLe k 0 4 != 0x544C5848 || decide (6 < kind) || decide (2 < byteAt k 5) || bits (fieldLe k 6 2) 15 4 != 0
    || (kind != 1 && (fieldLe k 6 2 != 0 || fieldLe k 32 4 != 0))
    || (kind == 1 && (fieldLe k 32 4 == 0 || decide (604800 < fieldLe k 32 4)))
    || (kind != 5 && !zeroIn k 36 68) || !zeroIn k 68 128 || (byteAt k 5 == 0 && !zeroIn k 128 192)

/-- A transition of Table 15.12 from a state. -/
def lcAllowed (kind st lc : Nat) : Bool :=
  match kind with
  | 0 => st == 0
  | 1 => st == 1
  | 2 => (st == 1 || st == 2) && decide (lc < 31)
  | 3 => st == 3
  | 4 => st != 4
  | 5 => st == 1
  | 6 => st == 2
  | _ => false

/-- The signer that a kind requires: 0 none, 1 maker, 2 owner. -/
def lcSigner (kind st : Nat) (owner : Bool) : Nat :=
  match kind with
  | 0 => 0
  | 1 => if owner then 2 else 1
  | 2 => if owner then 2 else 1
  | 3 => 1
  | 4 => if owner && (st == 1 || st == 2) then 2 else 1
  | 5 => if owner then 2 else 0
  | _ => 0

/-- The token is signed as its row requires, with a key that the part knows; `key` is the public key beside it. -/
def State.tokenSigned (s : State) (k key : List Byte) : Bool :=
  let want := lcSigner (byteAt k 4) s.lc s.sec.owner.isSome
  let known := if want = 1 then s.sec.fuses.makerKey else s.sec.owner.getD 0
  byteAt k 5 == want && (want == 0 || (digest key == known
    && Config.ecdsaOk (digest key) (digest (k.take 128)) (beNat ((k.drop 128).take 64))))

/-- What is wrong with a token (Table 15.21), in the order of the statuses; 0: it is accepted. -/
def State.tokenStatus (s : State) (k key : List Byte) : Nat :=
  let nonce := leNat ((List.range 4).flatMap fun i => natLe 4 (s.reg (SEC_LC_NONCE i)))
  if tokenBad k then 2
  else if fieldLe k 8 8 ≠ s.sec.fuses.dsn ∨ fieldLe k 16 16 ≠ nonce then 3
  else if !s.tokenSigned k key then 4
  else if !lcAllowed (byteAt k 4) s.lc s.sec.fuses.lc then 5
  else 0

/-- TOKEN_REFUSED (R647). -/
def State.tokenRefused (s : State) (kind st : Nat) (svc : Bool) : State :=
  ((s.setFld SEC_STATUS 5 5 1).count SEC_EVT_CNT 15 8 1).raise 0x0808 .all [(0, 1, kind), (1, 1, st), (2, 1, b2n svc)]

/-- The status of a request is answered to whoever sent it: SEC_LC_REQ, or a message across the barrier. -/
def State.lcAnswer (s : State) (st : Nat) (svc : Bool) : State :=
  if svc then { s with answer := natLe 1 st } else s.setFld SEC_LC_REQ 15 8 st

/-- A request is decided (R646, R647): refused, or its transition is under way. -/
def State.lcRequest (s : State) (k key : List Byte) (svc : Bool) : State :=
  let kind := byteAt k 4
  if s.sec.lcReq.isSome then (s.tokenRefused kind 1 svc).lcAnswer 1 svc
  else
    let st := s.tokenStatus k key
    if st ≠ 0 then ((s.tokenRefused kind st svc).lcAnswer st svc).newNonce
    else
      (if svc then s else s.setFld SEC_LC_REQ 1 1 1).onSec fun x =>
        { x with lcReq := some ⟨kind, fieldLe k 6 2, fieldLe k 32 4, leNat ((k.drop 36).take 32).reverse, svc⟩ }

/-- SEC_LC_REQ_GO (R646): the admin PF submits the 192 bytes of a token and the 64 of a key. A token that cannot be read has no
MAGIC. -/
def execSecLcReqGo (f : FnId) (v : Word32) (s : State) : Out :=
  .next (if !s.fwUp ∨ s.sec.haltedCores.contains 3 then s
    else if f.val ≠ s.adminPf then s.denied f
    else if !bit v.toNat 0 then s
    else
      let bs := (s.hostRead s.adminPort (64 * (s.reg64 SEC_LC_REQ_ADDR_LO SEC_LC_REQ_ADDR_HI / 64)) 256).getD (List.replicate 256 0)
      s.lcRequest (bs.take 192) (bs.drop 192) false)

/-! ## Transitions (R648) -/

/-- Every SPDM session ends. -/
def State.endSessions (s : State) : State := s.onSec fun x => { x with sessions := [] }

/-- FIELD-DEBUG is over. -/
def State.endDebug (s : State) : State := ((s.onSec fun x => { x with debugUntil := none }).setFld SEC_LC 11 8 0).showFuses

/-- The LC count rises by one: what the owner store held cannot be read any more (R645). -/
def State.lcUp (s : State) : State :=
  ((s.onSec fun x => { x with fuses := { x.fuses with lc := x.fuses.lc + 1 }, owner := none }).endDebug)

/-- Every context is destroyed (R492). -/
def State.destroyAll (s : State) : State := (s.ctxsWith fun x => x.st != .free).foldl State.destroyNow s

/-- HBM and every Hawk are written with zeros, and the IDE keys are erased, so both ports are lost (R648, R450). -/
def State.eraseAll (s : State) : State :=
  let s1 := { s with mem := { s.mem with hbm := [] }, aus := s.aus.filterMap fun e =>
    let a := { e.2 with hawk := [] }
    if a = Au.reset then none else some (e.1, a) }
  (List.range 2).foldl (fun t p => (t.losePort p 3).modPort p fun x => { x with ide := [], ideKeys := [] }) s1

/-- What an accepted request does. -/
def State.lcDo (s : State) (r : LcReq) : State :=
  match r.kind with
  | 0 => s.lcUp
  | 1 => ((s.onSec fun x => { x with debugUntil := some (s.now + 1000000000 * r.seconds) }).setFld SEC_LC 11 8 r.mask).showFuses
  | 2 => s.destroyAll.eraseAll.lcUp
  | 3 => s.lcUp
  | 4 => ((s.destroyAll.onSec fun x => { x with fuses := { x.fuses with scrap := true } }).endDebug)
  | 5 => (s.onSec fun x => { x with owner := some r.owner }).showFuses
  | _ => s.endDebug

/-- LIFECYCLE_CHANGED (Table 15.24). -/
def State.lcChanged (s : State) (old kind source : Nat) : State :=
  s.raise 0x0807 .all [(0, 1, old), (1, 1, s.lc), (2, 1, kind), (3, 1, source), (4, 2, s.fld SEC_LC 11 8)]

/-- LIFECYCLE_TRANSITION (R648): the request under way takes effect. In SCRAP the part answers as in RECOVERY from then on (R654). -/
def execLifecycleTransition (s : State) : Out :=
  match s.sec.lcReq with
  | none => .next s
  | some r =>
    if !s.fwUp ∨ s.sec.haltedCores.contains 3 then .next s
    else
      let old := s.lc
      let s1 := (((s.lcDo r).endSessions.onSec fun x => { x with lcReq := none, changed := true }).lcChanged old r.kind (b2n r.svc)).newNonce
      let s2 := (if r.svc then s1 else s1.setFld SEC_LC_REQ 1 1 0).lcAnswer 0 r.svc
      .next (if r.kind = 4 then (s2.recover.setReg HUB_FW_VERSION 0).setReg HUB_IF_VERSION 0 else s2)

/-- DEBUG_EXPIRY (R648): the DURATION of a FIELD-DEBUG period is over. No request made this transition, so KIND and source of its
event are open. -/
def execDebugExpiry (t : Nat) (s : State) : Out :=
  let s0 := s.at t
  match s0.sec.debugUntil with
  | none => .next s0
  | some u =>
    if u ≤ s0.now then
      let p := s0.pick
      .next (((p.2.endDebug.endSessions.onSec fun x => { x with changed := true }).lcChanged 2 (p.1 % 256) (p.1 / 256 % 256)))
    else .next s0

/-! ## IDE keys (R454) -/

/-- IDE_KM_REQUEST (R454): byte 0 the request (2 KEY_PROG, 4 K_SET_GO, 5 K_SET_STOP, as PCI Express numbers them), byte 1 the stream,
byte 2 the key slot, then the key. Keys are programmed in an SPDM session of the port alone; a
port has at most three streams. The answer is empty where the request is
not taken. -/
def execIdeKmRequest (p : PortId) (req : List Byte) (s : State) : Out :=
  let stream := byteAt req 1
  let off := { s with answer := [] }
  .next (if !s.fwUp ∨ s.sec.haltedCores.contains 3 ∨ !(s.port p).dlUp ∨ mget 0 s.sec.sessions p = 0 then off
    else
      let done := fun (t : State) => { t with answer := natLe 1 (byteAt req 0 + 1) ++ natLe 1 stream }
      match byteAt req 0 with
      | 2 => done (s.modPort p fun x => { x with ideKeys := mput x.ideKeys (256 * stream + byteAt req 2) (beNat ((req.drop 3).take 32)) })
      | 4 => done (s.modPort p fun x =>
          if (x.ideKeys.any fun e => e.1 / 256 == stream) && decide ((x.ide.filter fun i => i.num != stream).length < 3) then
            { x with ide := x.ide.filter (fun i => i.num != stream) ++ [⟨stream, true⟩] }
          else x)
      | 5 => done (s.modPort p fun x =>
          { x with ide := x.ide.filter fun i => i.num != stream, ideKeys := x.ideKeys.filter fun e => e.1 / 256 != stream })
      | _ => off)

/-! ## Attestation (R655 to R657) -/

/-- What measurements 4 and 5 report (Table 15.15): the fields, in its order. -/
def State.measured (s : State) (i : Nat) : List Nat :=
  if i = 4 then
    [s.reg HUB_FW_VERSION, s.sec.stage1, s.reg HUB_IF_VERSION, s.sec.rollback, s.sec.bootRollback, s.sec.fuses.rollback]
  else [s.sec.bootLc, s.lc, s.fld SEC_LC 11 8, b2n s.sec.fuses.grade, s.slot, s.fld SEC_BOOT_STATUS 9 9, b2n s.sec.changed]

/-- A measurement: 32 bytes. Block 1 is the digest of a ROM that the spec does not give; blocks 4 and 5 are digests of fields whose
layout it does not give. -/
def State.measurement (s : State) (i : Nat) : List Byte :=
  match i with
  | 1 => natBe 32 (Config.keyed 16 0 0)
  | 2 => ((s.sec.head s.slot).drop 40).take 32
  | 3 => ((s.sec.head s.slot).drop 72).take 32
  | 6 => natBe 32 (s.sec.owner.getD 0)
  | _ => natBe 32 (Config.keyed 17 i (leNat ((s.measured i).flatMap (natLe 4))))

/-- The alias key, which the ROM derives from UDS and measurements 2 to 5 as they were at boot (R656). -/
def State.aliasKey (s : State) : Nat :=
  Config.keyed 18 s.sec.fuses.uds (leNat (s.measurement 2 ++ s.measurement 3 ++ natLe 4 (s.reg HUB_FW_VERSION) ++ natLe 4 s.sec.stage1
    ++ natLe 4 (s.reg HUB_IF_VERSION) ++ natLe 1 s.sec.rollback ++ natLe 1 s.sec.bootRollback ++ natLe 1 s.sec.bootLc))

/-- SPDM_REQUEST (R655, R657): byte 0 the version, 0x12; byte 1 the request, by the codes of SPDM 1.2. CHALLENGE (0x83) and
GET_MEASUREMENTS (0xE0) are signed with the alias key; KEY_EXCHANGE (0xE4) opens a session, of which a PF holds two at most;
END_SESSION (0xEC) ends one. The measurement asked for stands in byte 3: 0 their number, 0xFF all. What other requests are answered
with is the standard's. -/
def execSpdmRequest (p : PortId) (req : List Byte) (s : State) : Out :=
  let code := byteAt req 1
  let i := byteAt req 3
  let off := { s with answer := [] }
  let sign := fun (body : List Byte) => body ++ natBe 64 (Config.ecdsaSign s.aliasKey (digest body))
  .next (if !s.fwUp ∨ s.sec.haltedCores.contains 3 ∨ !(s.port p).dlUp ∨ s.sec.fuses.scrap then off
    else if byteAt req 0 ≠ 0x12 then { s with answer := natLe 1 0x12 ++ natLe 1 0x7F ++ natLe 1 0x41 ++ natLe 1 0 }
    else match code with
      | 0x83 => { s with answer := sign (natLe 1 0x12 ++ natLe 1 0x03 ++ (req.drop 4).take 32 ++ (List.range' 1 6).flatMap s.measurement) }
      | 0xE0 =>
        let blocks := if i = 0 then natLe 1 6 else if i = 0xFF then (List.range' 1 6).flatMap s.measurement
          else if i ≤ 6 then s.measurement i else []
        let body := natLe 1 0x12 ++ natLe 1 0x60 ++ blocks
        { s with answer := if bit (byteAt req 2) 0 then sign body else body }
      | 0xE4 =>
        if mget 0 s.sec.sessions p < 2 then
          let q := s.pick
          { (q.2.onSec fun x => { x with sessions := mset 0 x.sessions p (mget 0 x.sessions p + 1) }) with
            answer := sign (natLe 1 0x12 ++ natLe 1 0x64 ++ natBe 64 q.1) }
        else { s with answer := natLe 1 0x12 ++ natLe 1 0x7F ++ natLe 1 0x0A ++ natLe 1 0 }
      | 0xEC => { (s.onSec fun x => { x with sessions := mset 0 x.sessions p (mget 0 x.sessions p - 1) }) with
          answer := natLe 1 0x12 ++ natLe 1 0x6C }
      | _ => let q := s.pick; { q.2 with answer := natLe 1 0x12 ++ natLe 8 q.1 })

end Sys2Proof.Machine
end

