-- ==== Sys2Proof/Machine/Restore.lean ====
section
/-!
DEFINITION. Images read back (R547, R555 to R559): the choice of a slot, the verify peer, pages fetched and verified, RESTORE.
-/
namespace Sys2Proof.Machine

/-! ## Ranges of an image -/

/-- What comes of reading a range of an image: its bytes, a wait for transactions, or a failure with a status. -/
inductive ImgRange where
  | ready (bs : List Byte) (s : State)
  | busy (s : State)
  | failed (status : Nat) (s : State)
  deriving DecidableEq, Repr

/-- READs are sent for the pieces of a range not yet asked for, as far as they can be (R421). -/
def State.askPieces (s : State) (c part h off n : Nat) : Nat → State
  | 0 => s
  | f + 1 =>
    let d := (s.ctx c).dust
    let i := d.fetchAsked
    let m := min tgtPiece (n - tgtPiece * i)
    let b := ceilDiv m 2048
    if n ≤ tgtPiece * i ∨ d.fetchFail.isSome ∨ !s.readRoom 0 b then s
    else match s.sendTxn (.fetch c) c 2 part h (off + tgtPiece * i) m [] [] 1 (0, b) with
      | .sent s1 =>
        (({ s1 with mem := { s1.mem with sharedUsed := mset 0 s1.mem.sharedUsed 0 (s1.sharedUsed 0 + b) } }).modDust c fun d =>
          { d with fetchAsked := d.fetchAsked + 1, fetchOut := d.fetchOut + 1 }).askPieces c part h off n f
      | .wait => s
      | .fail st s1 => s1.modDust c fun d => { d with fetchFail := some st }

/-- n bytes at an offset of the image behind a window of another part, or in host memory. -/
def State.imgRange (s : State) (c : Nat) (src : Option (Nat × Nat)) (addr off n : Nat) : ImgRange :=
  match src with
  | none => match s.hostRead (s.ctxPort c) (addr + off) n with | some bs => .ready bs s | none => .failed 0x30 s
  | some (part, h) =>
    let m := ceilDiv n tgtPiece
    let s1 := s.askPieces c part h off n m
    let d := (s1.ctx c).dust
    if d.fetchOut = 0 ∧ (m ≤ d.fetchAsked ∨ d.fetchFail.isSome) then
      let s2 := s1.modDust c fun d => { d with fetchAsked := 0, fetchFail := none, scratch := [] }
      match d.fetchFail with
      | some st => .failed st s2
      | none => .ready (rdBytes d.scratch off n) s2
    else .busy s1

/-! ## Headers (Table 13.5) -/

def headSeq (h : List Byte) : Nat := fieldLe h 8 8
def headEpoch (h : List Byte) : Nat := fieldLe h 16 8
def headPages (h : List Byte) : Nat := fieldLe h 32 4
def headLayout (h : List Byte) : Nat := fieldLe h 40 8

/-- The bytes are a header, and a COMMITTED one. -/
def headValid (h : List Byte) : Bool := fieldLe h 0 4 == 0x53445848 && fieldLe h 4 2 == 1
def headCommitted (h : List Byte) : Bool := headValid h && byteAt h 6 == 2

/-- The slot of highest SEQ that satisfies p, with its place: h1 lies at `top`. -/
def pickSlot (p : List Byte → Bool) (h0 h1 : List Byte) (top : Nat) : Option (List Byte × Nat) :=
  match p h0, p h1 with
  | true, true => if headSeq h0 < headSeq h1 then some (h1, top) else some (h0, 0)
  | true, false => some (h0, 0)
  | false, true => some (h1, top)
  | false, false => none

/-- Where slot 1 begins: its own S, as far as the header of slot 0 tells it. -/
def slotOne (h0 : List Byte) (own : Nat) : Nat := imgS (if headValid h0 then headPages h0 else own)

/-! ## A fetch, step by step -/

/-- What comes of a step of a fetch: it waits; it has gone on; there is no slot; it has failed with a status and a result; it is
done. -/
inductive ImgRes where
  | busy (s : State)
  | next (s : State) (f : ImgFetch)
  | noImage (s : State)
  | failed (s : State) (status result : Nat)
  | done (s : State) (f : ImgFetch)
  deriving DecidableEq, Repr

/-- A fetch that has not begun. -/
def ImgFetch.start (part : Option (Nat × Nat)) (addr : Nat) (want layout : Option Nat) (ownPages : Nat) (peers : List (Nat × Nat))
    (plan : List (Nat × Bool × Nat)) : ImgFetch :=
  { part := part, addr := addr, want := want, layout := layout, ownPages := ownPages, stage := 0, head0 := [], head := [], base := 0,
    hashes := [], peers := peers, peerHead := [], peerBase := 0, peerHashes := [], plan := plan, again := false, done := 0, refetched := 0 }

/-- The next stage after the peer being tried has been passed over. -/
def ImgFetch.dropPeer (f : ImgFetch) : ImgFetch := { f with peers := f.peers.drop 1, stage := if f.peers.length ≤ 1 then 6 else 3 }

/-- PAGE_REFETCHED (R558). -/
def State.refetchEvent (s : State) (c i : Nat) (own : Bool) (part : Nat) : State :=
  (s.flagCount (DST_STATUS c) 4 (DST_EVT_CNT c) 15 8).raise 0x0606 (.ctx c) [(0, 4, i), (4, 1, b2n (!own)), (6, 2, part)]

/-- The hashes that bytes spell. -/
def hashList (bs : List Byte) : List Nat := (chunks 8 bs).map leNat

/-- A page of the plan: fetched, hashed, compared with what its own header or the verify peer recorded, and written (R558, R565). -/
def State.imgPage (s : State) (c : Nat) (f : ImgFetch) (i : Nat) (own : Bool) (dest : Nat) (rest : List (Nat × Bool × Nat)) : ImgRes :=
  let peer := !own && !f.peers.isEmpty
  let fromPeer := peer && f.again
  let src := if fromPeer then f.peers.head? else f.part
  let top := if fromPeer then f.peerBase + imgH (headPages f.peerHead) else f.base + imgH (headPages f.head)
  match s.imgRange c src f.addr (top + frameBytes * i) frameBytes with
  | .busy s1 => .busy s1
  | .failed _ s1 => .failed s1 0x65 0
  | .ready bs s1 =>
    let h := leNat ((sha256 bs).take 8)
    if (if peer then f.peerHashes[i]? else f.hashes[i]?) = some h then
      .next (s1.vpoke c dest bs) { f with plan := rest, done := f.done + 1, again := false }
    else if f.again then .failed s1 0x61 i
    else
      let part := match (if peer then f.peers.head? else f.part) with | some p => p.1 | none => 0xFFFF
      .next (s1.refetchEvent c i own part) { f with again := true, refetched := f.refetched + 1 }

/-- One step of a fetch. -/
def State.imgStep (s : State) (c : Nat) (f : ImgFetch) : ImgRes :=
  match f.stage with
  | 0 => match s.imgRange c f.part f.addr 0 4160 with
    | .busy s1 => .busy s1
    | .failed _ s1 => .failed s1 0x65 0
    | .ready h s1 => .next s1 { f with head0 := h, stage := 1 }
  | 1 =>
    let top := slotOne f.head0 f.ownPages
    match s.imgRange c f.part f.addr top 4160 with
    | .busy s1 => .busy s1
    | .failed _ s1 => .failed s1 0x65 0
    | .ready h1 s1 =>
      match pickSlot (fun h => headCommitted h && f.want.all (· == headEpoch h)) f.head0 h1 top with
      | none => .noImage s1
      | some (h, b) => .next s1 { f with head := h, base := b, stage := 2 }
  | 2 =>
    if f.layout.any (· != headLayout f.head) then .failed s 0x61 0
    else match s.imgRange c f.part f.addr (f.base + 4160) (8 * headPages f.head) with
      | .busy s1 => .busy s1
      | .failed _ s1 => .failed s1 0x65 0
      | .ready bs s1 =>
        .next s1 { f with hashes := hashList bs, stage := if f.peers ≠ [] ∧ f.plan.any fun p => !p.2.1 then 3 else 6 }
  | 3 => match s.imgRange c f.peers.head? 0 0 4160 with
    | .busy s1 => .busy s1
    | .failed _ s1 => .next s1 f.dropPeer
    | .ready h s1 => .next s1 { f with peerHead := h, stage := 4 }
  | 4 =>
    let top := slotOne f.peerHead f.ownPages
    match s.imgRange c f.peers.head? 0 top 4160 with
    | .busy s1 => .busy s1
    | .failed _ s1 => .next s1 f.dropPeer
    | .ready h1 s1 =>
      match pickSlot (fun h => headCommitted h && headEpoch h == headEpoch f.head && headLayout h == headLayout f.head) f.peerHead h1 top with
      | none => .next s1 f.dropPeer
      | some (h, b) => .next s1 { f with peerHead := h, peerBase := b, stage := 5 }
  | 5 => match s.imgRange c f.peers.head? 0 (f.peerBase + 4160) (8 * headPages f.peerHead) with
    | .busy s1 => .busy s1
    | .failed _ s1 => .next s1 f.dropPeer
    | .ready bs s1 => .next s1 { f with peerHashes := hashList bs, stage := 6 }
  | _ => match f.plan with
    | [] => .done s f
    | (i, own, dest) :: rest => s.imgPage c f i own dest rest

/-! ## The restore of a context (R557) -/

/-- The images in which a verify peer is looked for: those of the other members of the securing group, in rank order after this
one's (R558). -/
def Ctx.peerImages (x : Ctx) : List (Nat × Nat) :=
  match x.colls.find? fun g => g.2.securing with
  | none => []
  | some (_, g) =>
    let n := g.members.length
    (List.range (n - 1)).filterMap fun j =>
      match g.images[(g.rank + 1 + j) % n]? with
      | some (p, h) => if p = 0xFFFF then none else some (p, h)
      | none => none

/-- The plan of a whole restore: every page of the secured set, in page-index order. -/
def restorePlan (ps : List SecPage) : List (Nat × Bool × Nat) :=
  (List.range ps.length).filterMap fun i => (ps[i]?).map fun p => (i, p.own, frameBytes * p.page)

/-- The context's own page list, as its tables now stand. -/
def State.ownPages (s : State) (c : Nat) : List SecPage := match (s.readDust c).table with | some t => s.securedSet c t | none => []

/-- A restore of the whole secured set from an image. -/
def State.restoreFetch (s : State) (c : Nat) (part : Option (Nat × Nat)) (addr : Nat) (want : Option Nat) : ImgFetch :=
  let ps := s.ownPages c
  .start part addr want (some (layoutOf ps)) ps.length (s.ctx c).peerImages (restorePlan ps)

/-- Step 1 of Table 13.7: the context is RESTORING; its agents, commands (but those in `keep`), transactions and link work end as in
a teardown, and what of the Dust sheet is in `d` stays. -/
def State.enterRestoring (s : State) (c : Nat) (keep : Cmd → Bool) : State :=
  let x := s.ctx c
  let kept := x.ring.cmds.filter keep
  let s1 := (s.abandonSecuring c).modCtx c fun y => { y with ring := { y.ring with cmds := y.ring.cmds.filter fun d => !keep d } }
  let s2 := s1.quiesce c 0
  (s2.modCtx c fun y =>
    { y with
      ring := { y.ring with cmds := kept }, saved := []
      dust := { y.dust with adoption := x.dust.adoption, restore := x.dust.restore, queued := x.dust.queued } }).enter c .restoring

/-- A step-size table from a header. -/
def etaOfHead (h : List Byte) : EtaTab :=
  let at_ := fun g => (h.drop (64 + 16 * g)).take 16
  let col := fun b o => (List.range 256).foldl (fun m g => if bit (byteAt (at_ g) 8) b then mput m g (fieldLe (at_ g) o 4) else m) []
  { cur := col 0 0, next := col 1 4, started := [], late := false }

/-- Step 5: STEP is derived from the data position (R244), with RNG_REDERIVED, and TRW_STEP is set. -/
def State.rederive (s : State) (c epoch : Nat) : State :=
  match (s.streamBase c).bind (s.ctx c).baseVa with
  | none => s.setReg64 (TRW_STEP_LO c) (TRW_STEP_HI c) epoch
  | some va =>
    let r := s.vpeek c va 32
    let pos := fieldLe r 16 8
    let n := fieldLe r 24 4
    let saved := fieldLe r 8 8
    let p := s.pick
    let step := if n = 0 then p.1 % 2 ^ 64 else pos / n
    let s0 := if n = 0 then p.2 else s
    let s1 := (s0.vpoke c (va + 8) (natLe 8 step)).setReg64 (TRW_STEP_LO c) (TRW_STEP_HI c) step
    if saved ≠ step ∨ (n ≠ 0 ∧ pos % n ≠ 0) then
      s1.raise 0x0620 (.ctx c) [(0, 8, saved), (8, 8, step), (16, 4, if n = 0 then 0 else pos % n)]
    else s1

/-- Step 6: the stash directory is free (R238). -/
def State.freeStash (s : State) (c : Nat) : State :=
  let w := if (s.ctx c).coat.base = 0 then s.coatBase c else (s.ctx c).coat.base
  let s1 := match (if w = 0 then none else (s.ctx c).baseVa w) with
    | none => s
    | some va =>
      let h := s.vpeek c va 64
      match (s.ctx c).baseVa (fieldLe h 24 8) with
      | none => s
      | some dva => (List.range (fieldLe h 16 2 * fieldLe h 18 2)).foldl (fun t i => t.vpoke c (dva + 16 * i) (natLe 1 0)) s
  s1.putEntries c []

/-- Step 6: tensors whose restored history holds no entry enter warm-up (R108). -/
def State.restoreScales (s : State) (c : Nat) : State :=
  ((List.range (s.ctx c).delayedTs.length).foldl (fun t k =>
    if (t.vpeek c (t.scaleVa c k) 16).all (· == 0xFF) then (t.vpoke c (t.scaleVa c k + 18) (natLe 1 4)).warmupEvent c k 1 else t) s).countWarm c

/-- The runs of quiet steps as the restored records have them. -/
def State.restoreQuiet (s : State) (c : Nat) : State :=
  s.modCtx c fun x => { x with num := { NumSt.reset with
    quiet := (List.range (s.reg (PLB_LAYERS c))).foldl (fun m l =>
      mset 0 m l (fieldLe (s.vpeek c (s.reg64 (PLB_REC_BASE_LO c) (PLB_REC_BASE_HI c) + 32 * l + 22) 2) 0 2)) [] } }

/-- HAWK buffers refilled from INIT records. -/
def State.refillHawk (s : State) (c : Nat) : State :=
  match (s.ctx c).prog with
  | none => s
  | some p =>
    let img := s.vpeek c p.imageVa p.imageBytes
    s.runInits c ((imgInits img (imgDir img)).filter fun r => match (s.ctx c).locate r.2.1 r.2.2.1 with | some (.hawk _ _) => true | _ => false)

/-- Steps 5 and 6: what the image's header gives, and what is not secured. -/
def State.restoreState (s : State) (c : Nat) (f : ImgFetch) : State :=
  let epoch := headEpoch f.head
  let s1 := s.modCtx c fun x =>
    { x with
      eta := etaOfHead f.head
      mats := (s.trwTables c).mats
      flags := match x.prog with | some p => BitVec.ofNat 256 p.initFlags | none => 0
      mbox := []
      dust := { x.dust with
        eLast := some epoch, pLast := some epoch, seq := (headSeq f.head + 1) % 2 ^ 64, wantNow := false, failedLast := false
        adoptedSince := false, stepEnds := [], groupReq := false } }
  let s2 := (s1.setReg64 (DST_EPOCH_LO c) (DST_EPOCH_HI c) epoch).setFld (DST_STATUS c) 31 31 1
  ((((s2.rederive c epoch).freeStash c).precondRestore c).restoreQuiet c).restoreScales c

/-- Steps 7 and 8: the context is placed and READY; none: it cannot be placed. -/
def State.restorePlace (s : State) (c : Nat) (f : ImgFetch) : Option State :=
  match s.findPlace c (s.ctx c).nLaus (s.ctx c).bufs [] none with
  | none => none
  | some (p, s1) =>
    let laus := match (s.ctx c).prog with | some q => q.laus | none => []
    let s2 := s1.takePlace c p 2 true
    let s3 := (p.foldl (fun t e => t.modAu e.2 fun a => { a with part := partOf laus e.1 }) s2).refillHawk c
    some ((s3.enter c .ready).raise 0x0605 (.ctx c) [(0, 8, headEpoch f.head), (8, 4, f.done), (12, 4, f.refetched)])

/-- What comes of a restore that goes on as far as it can. -/
inductive RestRes where
  | busy (s : State)
  | noImage (s : State)
  | failed (s : State) (status result : Nat)
  | done (s : State) (epoch : Nat)
  deriving DecidableEq, Repr

/-- A restore goes on: once its slot is chosen the context is RESTORING; at its end the context is READY. -/
def State.restoreGo (s : State) (c : Nat) (keep : Cmd → Bool) : Nat → RestRes
  | 0 => .busy s
  | n + 1 =>
    match (s.ctx c).dust.restore with
    | none => .busy s
    | some f =>
      let put := fun (t : State) (g : Option ImgFetch) => t.modDust c fun d => { d with restore := g }
      match s.imgStep c f with
      | .busy s1 => .busy s1
      | .next s1 g =>
        let s2 := put s1 (some g)
        (if g.stage = 2 then s2.enterRestoring c keep else s2).restoreGo c keep n
      | .noImage s1 => .noImage (put s1 none)
      | .failed s1 st r => .failed (if (s1.ctx c).st = .restoring then (put s1 none).enter c .faulted else put s1 none) st r
      | .done s1 g =>
        let s2 := (put s1 none).restoreState c g
        match s2.restorePlace c g with
        | some s3 => .done s3 (headEpoch g.head)
        | none => .failed (s2.enter c .faulted) 0x03 0

/-- Steps that a restore of n pages can take at once. -/
def restoreFuel (n : Nat) : Nat := 2 * n + 4200 * 3 + 10

/-! ## RESTORE (R555, R556, R559) -/

/-- SHARD of a RESTORE. -/
def restShard (d : List Byte) : Bool := bit (byteAt d 5) 0

/-- A field breaks Table 13.6. -/
def restoreBad (d : List Byte) : Bool :=
  let src := byteAt d 4
  let addr := fieldLe d 16 8
  let list := fieldLe d 24 8
  let n := fieldLe d 32 4
  decide (2 < src) || bits (byteAt d 5) 7 1 != 0 || !zeroIn d 6 8 || !zeroIn d 36 64
    || (if src = 2 then addr % frameBytes != 0 else addr != 0)
    || (if restShard d then list % 16 != 0 || n == 0 || decide (65535 < n) else list != 0 || n != 0)

/-- The epoch a RESTORE asks for. -/
def restEpoch (d : List Byte) : Option Nat := if fieldLe d 8 8 = 0xFFFFFFFFFFFFFFFF then none else some (fieldLe d 8 8)

/-- The image that SOURCE names: a part's window, or a host address; none for a target of kind NONE. -/
def State.restSource (s : State) (c : Nat) (d : List Byte) : Option (Option (Nat × Nat) × Nat) :=
  let t := byteAt d 4
  if t = 2 then some (none, fieldLe d 16 8)
  else match s.tgtKind c t with
    | 1 => some (some (s.tgtHi c t % 65536, s.tgtLo c t), 0)
    | 2 => some (none, s.tgtAddr c t)
    | _ => none

/-- A RESTORE that is not finished. -/
def Cmd.isRestore (d : Cmd) : Bool := byteAt d.desc 0 == 0x05 && d.isUnderway

/-- RESTORE with SHARD clear goes on. -/
def State.restoreCmd (s : State) (c k : Nat) : State :=
  let n := match (s.ctx c).dust.restore with | some f => f.plan.length | none => 0
  let fin := fun (t : State) (st r : Nat) => t.completeWhere c 0x05 (fun d => d.isUnderway && !restShard d.desc) st r 1
  match s.restoreGo c Cmd.isRestore (restoreFuel n) with
  | .busy s1 => s1
  | .noImage s1 => s1.complete c k 0x60 0
  | .failed s1 st r => fin s1 st r
  | .done s1 e => fin s1 0x00 e

/-- RESTORE (R555 to R558). -/
def execRestore (c : CtxId) (k : Nat) (s : State) : Out :=
  .next (s.onCmd c k 0x05 fun cmd =>
    let d := cmd.desc
    if restShard d then s
    else if cmd.phase ≠ .started then s.restoreCmd c k
    else if restoreBad d then s.complete c k 0x02 0
    else
      let st := (s.ctx c).st
      if ¬ (st = .ready ∨ st = .preempted ∨ st = .faulted) then s.complete c k 0x05 0
      else if (s.ctx c).dust.restore.isSome then s
      else match s.restSource c d with
        | none => s.complete c k 0x60 0
        | some (part, addr) =>
          s.hubNeeds c (s.dustRanges c ++ s.trwRanges c) false fun s0 =>
            ((s0.modDust c fun u => { u with restore := some (s0.restoreFetch c part addr (restEpoch d)) }).setPhase c k (.underway 0 0)
              ).restoreCmd c k)

/-- An adopt entry (Table 13.9). -/
def adoptOf (e : List Byte) : AdoptEntry :=
  ⟨fieldLe e 0 2, fieldLe e 2 2, fieldLe e 4 2, fieldLe e 8 4, fieldLe e 16 4, fieldLe e 20 4, fieldLe e 24 4⟩

/-- The adopt buffer of the context: its virtual address and its pages. -/
def State.adoptBuf (s : State) (c : Nat) : Option (Nat × Nat) :=
  match (s.readDust c).table with
  | none => none
  | some t => if t.adopt = 0 then none else (((s.ctx c).secRange t.adopt t.adoptBytes).map fun va => (va, t.adoptBytes / frameBytes))

/-- The plan of an entry: its pages, verified against the image's own header, into the adopt buffer; none: they do not fit. -/
def State.adoptPlan (s : State) (c : Nat) (e : AdoptEntry) : Option (List (Nat × Bool × Nat)) :=
  match s.adoptBuf c with
  | none => none
  | some (va, n) =>
    if n < e.dest + e.pages then none
    else some ((List.range e.pages).map fun j => (e.first + j, true, va + frameBytes * (e.dest + j)))

/-- The plans of entries, one after another. -/
def State.adoptPlans (s : State) (c : Nat) : List AdoptEntry → Option (List (Nat × Bool × Nat))
  | [] => some []
  | e :: es => match s.adoptPlan c e, s.adoptPlans c es with
    | some p, some ps => some (p ++ ps)
    | _, _ => none

/-- Pages of the adopt buffer that entries fill. -/
def adoptDests (es : List AdoptEntry) : List Nat := es.flatMap fun e => List.range' e.dest e.pages

/-- Pages join the adopted ones, in rising order. -/
def DustSt.addAdopted (d : DustSt) (ps : List Nat) : DustSt :=
  { d with adoptPages := (ps.foldl (fun (m : Map Nat) p => mput m p 0) (d.adoptPages.map fun p => (p, 0))).map (·.1), adoptedSince := true }

/-- The rank of this member in the securing group. -/
def Ctx.rank (x : Ctx) : Nat := match x.colls.find? fun g => g.2.securing with | some (_, g) => g.rank | none => 0

/-- The entries at LIST whose ADOPTER is this member's rank. -/
def State.shardList (s : State) (c : Nat) (d : List Byte) : Option (List AdoptEntry) :=
  (s.hostRead (s.ctxPort c) (fieldLe d 24 8) (32 * fieldLe d 32 4)).map fun bs =>
    ((chunks 32 bs).map adoptOf).filter fun e => e.adopter == (s.ctx c).rank

/-- A shard restore goes on. -/
def State.shardGo (s : State) (c k : Nat) (d : List Byte) : Nat → State
  | 0 => s
  | n + 1 =>
    match (s.ctx c).dust.restore with
    | none => s
    | some f =>
      let put := fun (t : State) (g : Option ImgFetch) => t.modDust c fun u => { u with restore := g }
      match s.imgStep c f with
      | .busy s1 => s1
      | .next s1 g => (put s1 (some g)).shardGo c k d n
      | .noImage s1 => (put s1 none).complete c k 0x60 0
      | .failed s1 st r => (put s1 none).complete c k st r
      | .done s1 g =>
        let es := (s1.shardList c d).getD []
        ((put s1 none).modDust c fun u => u.addAdopted (adoptDests es)).complete c k 0x00 g.done

/-- RESTORE_SHARD (R559). -/
def execRestoreShard (c : CtxId) (k : Nat) (s : State) : Out :=
  .next (s.onCmd c k 0x05 fun cmd =>
    let d := cmd.desc
    if !restShard d then s
    else if cmd.phase ≠ .started then
      s.shardGo c k d (restoreFuel (match (s.ctx c).dust.restore with | some f => f.plan.length | none => 0))
    else if restoreBad d then s.complete c k 0x02 0
    else
      let st := (s.ctx c).st
      if ¬ (st = .ready ∨ st = .preempted) then s.complete c k 0x05 0
      else if (s.ctx c).dust.restore.isSome then s
      else match s.restSource c d, s.shardList c d with
        | none, _ => s.complete c k 0x60 0
        | _, none => s.complete c k 0x30 0
        | some (part, addr), some es =>
          match s.adoptPlans c es with
          | none => s.complete c k 0x02 0
          | some plan =>
            let f : ImgFetch := .start part addr (restEpoch d) none (s.ownPages c).length [] plan
            ((s.modDust c fun u => { u with restore := some f }).setPhase c k (.underway 0 0)).shardGo c k d (restoreFuel plan.length))

end Sys2Proof.Machine
end

