-- ==== Sys2Proof/Machine/Members.lean ====
section
/-!
DEFINITION. Membership (13_resilience.md, R406, R428, R437): tables checked and installed, fencing, the adoption of a removed
member's shard, notices, and rollback.
-/
namespace Sys2Proof.Machine

/-! ## Membership tables (R561) -/

/-- A membership table (Tables 13.8 and 13.9). -/
structure MemberTable where
  epoch : Nat
  group : Nat
  members : List Nat
  images : List (Nat × Nat)
  orders : List (List Nat)
  owners : List Nat
  securing : Bool
  removed : Nat
  adopts : List AdoptEntry
  deriving DecidableEq, Repr

/-- n 2-byte numbers from an offset. -/
def nums2 (bs : List Byte) (off n : Nat) : List Nat := (chunks 2 ((bs.drop off).take (2 * n))).map leNat

/-- Every number below n stands in a list once. -/
def isOrder (n : Nat) (l : List Nat) : Bool := l.length == n && (List.range n).all fun r => l.contains r

/-- The table that bytes spell; none: it breaks Table 13.8 or 13.9. -/
def memberTable (bs : List Byte) : Option MemberTable :=
  let n := fieldLe bs 6 2
  let rings := byteAt bs 17
  let maplen := fieldLe bs 24 4
  let na := fieldLe bs 28 4
  let o1 := 64 + 16 * n
  let o2 := o1 + roundUp (2 * n * rings) 16
  let o3 := o2 + roundUp (2 * maplen) 16
  let es := chunks 32 ((bs.drop o3).take (32 * na))
  let ms := chunks 16 ((bs.drop 64).take (16 * n))
  let orders := (List.range rings).map fun k => nums2 bs (o1 + 2 * n * k) n
  let owners := nums2 bs o2 maplen
  if fieldLe bs 0 4 ≠ 0x424D5848 ∨ fieldLe bs 4 2 ≠ 1 ∨ n = 0 ∨ 4096 < n ∨ rings = 0 ∨ 16 < rings ∨ bits (byteAt bs 18) 7 1 ≠ 0
      ∨ byteAt bs 19 ≠ 0 ∨ fieldLe bs 20 2 ≠ 0xFFFF ∨ 2 ^ 24 < maplen ∨ 65535 < na ∨ !zeroIn bs 32 64 ∨ bs.length < o3 + 32 * na then none
  else if ms.any fun m => !zeroIn m 8 16 then none
  else if orders.any fun o => !isOrder n o then none
  else if owners.any fun r => decide (n ≤ r) then none
  else if es.any fun e => !zeroIn e 6 8 || !zeroIn e 12 16 || !zeroIn e 28 32 || decide (n ≤ fieldLe e 0 2) || fieldLe e 20 4 == 0 then none
  else
    some { epoch := fieldLe bs 8 8, group := byteAt bs 16, members := ms.map fun m => fieldLe m 0 2,
           images := ms.map fun m => (fieldLe m 2 2, fieldLe m 4 4), orders := orders, owners := owners, securing := bit (byteAt bs 18) 0,
           removed := fieldLe bs 22 2, adopts := es.map adoptOf }

/-- No number stands in a list twice. -/
def noTwice : List Nat → Bool
  | [] => true
  | x :: xs => !xs.contains x && noTwice xs

/-- A BUDDY target of the context names a part. -/
def State.hasBuddy (s : State) (c part : Nat) : Bool := (s.tgts c).any fun t => s.tgtKind c t == 1 && s.tgtHi c t % 65536 == part

/-- The status with which a table is refused (R562), 0 where it is not. -/
def State.memberStatus (s : State) (c : Nat) (bs : List Byte) : Nat :=
  let x := s.ctx c
  let old := mfind x.colls (byteAt bs 16)
  let epoch := fieldLe bs 8 8
  if (match old with | some g => epoch != g.epoch + 1 | none => epoch == 0) then 0x62
  else match memberTable bs with
    | none => 0x02
    | some t =>
      let gone := match old with | some g => g.members.filter fun m => !t.members.contains m | none => []
      let mine := (findAt (fun m => m == s.partId) t.members 0).map (·.1)
      let buddy := match mine with | some r => (match t.images[r]? with | some (b, _) => b | none => 0xFFFF) | none => 0xFFFF
      if mine.isNone ∨ !noTwice t.members then 0x02
      else if 1 < gone.length ∨ t.removed ≠ gone.headD 0xFFFF then 0x02
      else if t.securing ∧ x.colls.any (fun g => g.2.securing && g.1 != t.group) then 0x02
      else if buddy ≠ 0xFFFF ∧ !s.hasBuddy c buddy then 0x02
      else 0

/-! ## Fencing (R437) -/

/-- The ports whose partner is a part. -/
def State.portsOf (s : State) (part : Nat) : List Nat := (List.range 16).filter fun p => (s.lport p).partner == part && part != 0xFFFF

/-- A port is FENCED; one that is DISABLED carries the fence. -/
def State.fencePort (s : State) (p : Nat) : State :=
  let up := (s.lport p).state == .up
  let s1 := if (s.lport p).state = .disabled then s else s.portQuiet p .fenced
  let s2 := if up then ((s1.setFld (LNK_PORT_FLAGS p) 0 0 1).count (LNK_REPLAY_CNT p) 31 16 1).total 5 1 else s1
  ((s2.modLport p fun x => { x with fence := true }).setFld (LNK_PORT_FLAGS p) 2 2 1).raise 0x0403 .all [(0, 1, p), (2, 2, (s.lport p).partner)]

/-- A removed part is fenced: transactions to it complete with FENCED, and its ports are FENCED. -/
def State.fencePart (s : State) (part : Nat) : State :=
  let s1 := { s with links := { s.links with fenced := part :: s.links.fenced.filter (· != part) } }
  let s2 := (s1.links.txns.filter fun e => e.2.dst == part).foldl
    (fun t e => (t.dropFlits e.1).finishTxn e.1 0x46 e.2.t.hdr.offset) s1
  (s2.portsOf part).foldl State.fencePort s2

/-- A part that a table restores is fenced no longer: its ports go to TRAINING. -/
def State.unfencePart (s : State) (part : Nat) : State :=
  if s.links.fenced.contains part then
    let s1 := { s with links := { s.links with fenced := s.links.fenced.filter (· != part) } }
    (s1.portsOf part).foldl (fun t p =>
      let t1 := t.modLport p fun x => { x with fence := false }
      if (t.lport p).state = .fenced then t1.portStart p else t1) s1
  else s

/-! ## Entries of a group that changes (R428) -/

/-- A POSTED entry of a group fails before it has started: HEAD passes it when it comes to it. -/
def State.failPosted (s : State) (c g i : Nat) : State :=
  match s.workVa c i with
  | none => s
  | some va =>
    let b := s.vpeek c va 64
    if 2 ≤ byteAt b 1 ∧ fieldLe b 8 2 = g ∧ byteAt b 0 % 16 ≠ 4 then
      let s1 := (s.writeEntry c i 0x49 0 4).collFailed c g 0x49 (match mfind (s.ctx c).colls g with | some x => x.nextColl | none => 0)
      if bit (byteAt b 4) 0 then s1.deliverFlag c (byteAt b 3) true else s1
    else s

/-- Every entry of a group that is not DONE fails with MEMBERSHIP_CHANGED. -/
def State.failGroup (s : State) (c g : Nat) : State :=
  let s1 := (s.ctx c).posted.foldl (fun t i => t.failPosted c g i) s
  ((s1.ctx c).linkWork.filter fun e => e.2.isColl && e.2.group == g).foldl (fun t e => t.endEntry c e.1 0x49 0 false) s1

/-! ## Installing a table (R563, R569) -/

/-- Successor and predecessor of a rank in a ring order, as parts, with the egress port toward the successor. -/
def State.ringOf (s : State) (ms : List Nat) (rank : Nat) (order : List Nat) : Nat × Nat × Nat :=
  let n := order.length
  let i := ((findAt (fun r => r == rank) order 0).map (·.1)).getD 0
  let part := fun j => (ms[(order[j % n]?).getD 0]?).getD 0xFFFF
  let succ := part (i + 1)
  (succ, part (i + n - 1), match s.route succ with | some (p, _) => p | none => 16)

/-- The group that a table describes. -/
def State.groupOf (s : State) (t : MemberTable) : Group :=
  let rank := ((findAt (fun m => m == s.partId) t.members 0).map (·.1)).getD 0
  { epoch := t.epoch, members := t.members, rank := rank, rings := t.orders.map (s.ringOf t.members rank), owners := t.owners, images := t.images,
    securing := t.securing, nextColl := 0, aborted := [] }

/-- IMAGE_LOST for target k (R569). -/
def State.imageLost (s : State) (c k part : Nat) : State :=
  let s1 := if k = 0 then s.setFld (DST_CTL c) 9 8 0 else s.setFld (DST_CTL c) 11 10 0
  let s2 := if (s1.tgts c).isEmpty then s1.setFld (DST_STATUS c) 31 31 0 else s1
  let s3 := s2.modDust c fun d => { d with
    wantNow := true, securing := d.securing.map fun g => if (mfind g.tgts k).isSome then g.fail k 0x46 else g }
  (s3.flagCount (DST_STATUS c) 3 (DST_EVT_CNT c) 7 0).raise 0x0604 (.ctx c) [(0, 1, k), (2, 2, part)]

/-- The BUDDY targets that name a removed part are lost. -/
def State.imagesLost (s : State) (c part : Nat) : State :=
  ((s.tgts c).filter fun t => s.tgtKind c t == 1 && s.tgtHi c t % 65536 == part).foldl (fun u t => u.imageLost c t part) s

/-- Step 3: the copy at MTAB. -/
def State.putMtab (s : State) (c : Nat) (bs : List Byte) (rank : Nat) : State :=
  match (s.readDust c).table with
  | none => s
  | some t =>
    if t.mtab = 0 then s
    else match (s.ctx c).baseRange t.mtab bs.length with
      | none => s
      | some va => s.vpoke c va (bs.take 20 ++ natLe 2 rank ++ bs.drop 22)

/-- The bytes of a table: SIZE may be more. -/
def tableBytes (bs : List Byte) : List Byte :=
  bs.take (64 + 16 * fieldLe bs 6 2 + roundUp (2 * fieldLe bs 6 2 * byteAt bs 17) 16 + roundUp (2 * fieldLe bs 24 4) 16 + 32 * fieldLe bs 28 4)

/-- Steps 1 to 4 of R563, and R569. -/
def State.installTable (s : State) (c : Nat) (bs : List Byte) (t : MemberTable) : State :=
  let s1 := if t.removed = 0xFFFF then s else s.fencePart t.removed
  let s2 := s1.failGroup c t.group
  let s3 := t.members.foldl State.unfencePart s2
  let g := s3.groupOf t
  let s4 := (s3.modCtx c fun x => { x with colls := mput x.colls t.group g }).putMtab c (tableBytes bs) g.rank
  let s5 := if t.removed = 0xFFFF then s4 else s4.imagesLost c t.removed
  if t.securing then
    let s6 := ((s5.setReg (DST_MEMBER c) (2 ^ 31 + 2 ^ 16 * g.members.length + g.rank)).setReg64 (DST_MEPOCH_LO c) (DST_MEPOCH_HI c) t.epoch)
    s6.raise 0x0607 (.ctx c) [(0, 1, t.group), (2, 2, g.members.length), (4, 2, t.removed), (8, 8, t.epoch)]
  else if (match mfind (s.ctx c).colls t.group with | some o => o.securing | none => false) then
    (s5.setReg (DST_MEMBER c) 0).setReg64 (DST_MEPOCH_LO c) (DST_MEPOCH_HI c) 0
  else s5

/-! ## Notices (R406) -/

/-- Where the notices of a group at a membership epoch are kept: those of two epochs in a row side by side. -/
def noticeKey (g epoch : Nat) : Nat := g + 256 * (epoch % 2)

/-- The notices of a group at an epoch. -/
def Ctx.noticesOf (x : Ctx) (g epoch : Nat) : Notices :=
  match mfind x.notices (noticeKey g epoch) with
  | some n => if n.epoch = epoch then n else ⟨epoch, [], [], 0, []⟩
  | none => ⟨epoch, [], [], 0, []⟩

/-- A part joins a list of parts. -/
def joinPart (l : List Nat) (p : Nat) : List Nat := if l.contains p then l else p :: l

/-- A notice taken: kind, the part it comes from, the epoch it carries. -/
def Notices.take (n : Notices) (kind org e : Nat) : Notices :=
  match kind with
  | 0 => { n with done := joinPart n.done org }
  | 1 => { n with offered := if n.offers.isEmpty then e else min n.offered e, offers := joinPart n.offers org }
  | 2 => { n with agrees := joinPart n.agrees org }
  | _ => n

/-- The membership epoch of a table that waits to be installed. -/
def DustSt.queuedEpoch (d : DustSt) : Option Nat := d.queued.map fun b => fieldLe b 8 8

/-- MEMBER_RECEIVE (R406): never held or refused. -/
def execMemberReceive (n : Nat) (s : State) : Out :=
  .next (match s.takeInbox n [9] with
    | none => s
    | some (_, t, s1) =>
      let gi := t.hdr.handle / 2 ^ 24
      if !s1.isSelf t.hdr.dst then s
      else match s1.groupCtx gi with
        | none => s1
        | some c => match mfind (s1.ctx c).colls gi with
          | none => s1
          | some g =>
            let e := t.hdr.offset
            if (e = g.epoch ∨ (s1.ctx c).dust.queuedEpoch = some e) ∧ g.members.contains t.hdr.org then
              s1.modCtx c fun x =>
                { x with
                  notices := mput x.notices (noticeKey gi e)
                    ((x.noticesOf gi e).take (t.hdr.handle % 256) t.hdr.org (fieldLe t.hdr.args 0 8)) }
            else s1)

/-- A notice sent to every other member. -/
def State.notify (s : State) (c gi kind epoch e removed : Nat) : State :=
  match mfind (s.ctx c).colls gi with
  | none => s
  | some g => (g.members.filter (· != s.partId)).foldl (fun t m =>
      t.sendFree ⟨t.ownHdr 9 m 0 0 (2 ^ 24 * gi + kind) epoch 0 0 (layOut 32 [(0, 8, e), (8, 2, removed)]), [], 7⟩) s

/-! ## Adoption (R565 to R568) -/

/-- SHARD_LOST (R568, R571). -/
def State.shardLost (s : State) (c g reason source : Nat) : State :=
  (s.flagCount (DST_STATUS c) 5 (DST_EVT_CNT c) 7 0).raise 0x0609 (.ctx c) [(0, 1, g), (1, 1, reason), (2, 2, source)]

/-- A SET_MEMBERSHIP in phase `underway a b`. -/
def inPhase (a b : Nat) (d : Cmd) : Bool := d.phase == .underway a b

/-- The SET_MEMBERSHIP of a table completes: FLAG is set if FLAG_EN, and RESULT is the table's EPOCH. -/
def State.memberDone (s : State) (c a epoch status : Nat) : State :=
  match s.findCmd c 0x0B (inPhase a epoch) with
  | none => s
  | some (k, cmd) =>
    let s1 := if bit (byteAt cmd.desc 5) 0 then s.deliverFlag c (byteAt cmd.desc 4) true else s
    s1.complete c k status epoch

/-- The mailbox has no room for the flag of a SET_MEMBERSHIP that would complete (R508). -/
def State.memberHeld (s : State) (c a epoch : Nat) : Bool :=
  match s.findCmd c 0x0B (inPhase a epoch) with
  | none => false
  | some (_, cmd) => bit (byteAt cmd.desc 5) 0 && s.mboxFull c

/-- The adoption that a table begins: of the removed member's shard, whose image lies with `source`. -/
def State.beginAdopt (s : State) (c : Nat) (t : MemberTable) (source : Nat × Nat) (rollback : Nat) : State :=
  let es := t.adopts.filter fun e => e.source == t.removed
  let rank := match mfind (s.ctx c).colls t.group with | some g => g.rank | none => 0
  let mine := es.filter fun e => e.adopter == rank
  let a : Adoption :=
    { group := t.group, removed := t.removed, epoch := t.epoch, source := source, entries := mine, cur := none, mineDone := mine.isEmpty,
      awaited := ((es.map fun e => e.adopter).filter (· != rank)).eraseDups, pages := [], total := 0, abandoned := false, failedTwice := false,
      rollback := rollback, agreed := none }
  s.modDust c fun d => { d with adoption := some a }

/-- A table is accepted: it is installed; one that removes a member goes on to the adoption of its shard. Its command is in phase
`underway 1`. -/
def State.acceptTable (s : State) (c : Nat) (bs : List Byte) (t : MemberTable) : State :=
  let old := mfind (s.ctx c).colls t.group
  let s1 := s.installTable c bs t
  if t.removed = 0xFFFF then s1.memberDone c 1 t.epoch 0x00
  else
    let src := match old with
      | some g => (match findAt (fun m => m == t.removed) g.members 0 with | some (i, _) => (g.images[i]?).getD (0xFFFF, 0) | none => (0xFFFF, 0))
      | none => (0xFFFF, 0)
    if t.securing ∧ !t.members.contains src.1 then (s1.shardLost c t.group 0 t.removed).memberDone c 1 t.epoch 0x63
    else s1.beginAdopt c t src 0

/-- The adoption changed. -/
def State.modAdopt (s : State) (c : Nat) (f : Adoption → Adoption) : State := s.modDust c fun d => { d with adoption := d.adoption.map f }

/-- This member's share is written and verified (R566). -/
def State.shareDone (s : State) (c : Nat) (a : Adoption) : State :=
  let rank := match mfind (s.ctx c).colls a.group with | some g => g.rank | none => 0
  let s1 := ((s.modDust c fun d => d.addAdopted a.pages).modAdopt c fun b => { b with mineDone := true }).raise 0x0608 (.ctx c)
    [(0, 1, a.group), (2, 2, a.removed), (4, 2, rank), (8, 4, a.total)]
  s1.notify c a.group 0 a.epoch 0 a.removed

/-- The adoption goes on as far as it can. A share whose pages do not fit in the adopt buffer, or of which a page has failed
verification twice, stays unfinished; a read that failed is begun again. -/
def State.adoptGo (s : State) (c : Nat) : Nat → State
  | 0 => s
  | n + 1 =>
    match (s.ctx c).dust.adoption with
    | none => s
    | some a =>
      if a.mineDone ∨ a.failedTwice ∨ (a.rollback ≠ 0 ∧ a.rollback ≠ 4) then s
      else match a.cur, a.entries with
        | none, [] => s.shareDone c a
        | none, e :: _ =>
          match s.adoptPlan c e with
          | none => s.modAdopt c fun b => { b with failedTwice := true }
          | some plan =>
            (s.modAdopt c fun b => { b with cur := some (.start (some (e.buddy, e.handle)) 0 a.agreed none (s.ownPages c).length [] plan) }
              ).adoptGo c n
        | some f, es =>
          match s.imgStep c f with
          | .busy s1 => s1
          | .next s1 g => (s1.modAdopt c fun b => { b with cur := some g }).adoptGo c n
          | .noImage s1 =>
            ((s1.shardLost c a.group 0 a.removed).modDust c fun d => { d with adoption := none }).memberDone c 1 a.epoch 0x63
          | .failed s1 st _ => s1.modAdopt c fun b => { b with cur := none, failedTwice := st == 0x61 }
          | .done s1 g => (s1.modAdopt c fun b => { b with
              cur := none, entries := es.drop 1, total := b.total + g.done, pages := b.pages ++ adoptDests (es.take 1) }).adoptGo c n

/-- Steps that an adoption can take at once. -/
def adoptFuel (a : Adoption) : Nat :=
  a.entries.foldl (fun n e => n + restoreFuel e.pages) 10 + (match a.cur with | some f => restoreFuel f.plan.length | none => 0)

/-- SHARD_ADOPTED (R565, R566): the share of this member is fetched, verified and written; when all of it is, the others are told. -/
def execShardAdopted (c : CtxId) (s : State) : Out :=
  .next (match (s.ctx c).dust.adoption with
    | none => s
    | some a => s.adoptGo c (adoptFuel a))

/-- The ranks whose shares are still awaited: those of adopters that have not sent SHARE_DONE. -/
def Ctx.unshared (x : Ctx) (a : Adoption) : List Nat :=
  match mfind x.colls a.group with
  | none => []
  | some g => a.awaited.filter fun r => !((x.noticesOf a.group a.epoch).done.contains ((g.members[r]?).getD 0xFFFF))

/-- The table that has waited is installed. -/
def State.takeQueued (s : State) (c : Nat) : State :=
  match (s.ctx c).dust.queued with
  | none => s
  | some bs =>
    let s1 := s.modDust c fun d => { d with queued := none }
    match memberTable bs with
    | none => s1
    | some t => (s1.phaseWhere c 0x0B (inPhase 2 t.epoch) (.underway 1 t.epoch)).acceptTable c bs t

/-- SHARD_COMMIT (R566, Table 13.10): every share is done; SET_MEMBERSHIP completes, and a table that waits is installed. -/
def execShardCommit (c : CtxId) (s : State) : Out :=
  .next (match (s.ctx c).dust.adoption with
    | none => s
    | some a =>
      if a.mineDone ∧ (a.rollback = 0 ∨ a.rollback = 4) ∧ ((s.ctx c).unshared a).isEmpty then
        if s.memberHeld c 1 a.epoch then s.mboxFullEvent c
        else
          ((s.modDust c fun d => { d with adoption := none }).memberDone c 1 a.epoch (if a.abandoned then 0x64 else 0x00)).takeQueued c
      else s)

/-! ## SET_MEMBERSHIP (R560, R562, R570) -/

/-- The epoch that this member offers: its latest committed one, 0 for none. -/
def State.offer (s : State) (c : Nat) : Nat := (s.ctx c).dust.eLast.getD 0

/-- Steps 1 to 3 of a rollback (R571), as far as the offer of this member's epoch. -/
def State.beginRollback (s : State) (c : Nat) (a : Adoption) (bs : List Byte) (t : MemberTable) : State :=
  let old := mfind (s.ctx c).colls t.group
  let src := match old with
    | some g => (match findAt (fun m => m == t.removed) g.members 0 with | some (i, _) => (g.images[i]?).getD (0xFFFF, 0) | none => (0xFFFF, 0))
    | none => (0xFFFF, 0)
  let s1 := s.modDust c fun d => { d with adoption := none, adoptPages := d.adoptPages.filter fun p => !a.pages.contains p }
  let s2 := (s1.shardLost c a.group 1 a.removed).memberDone c 1 a.epoch 0x63
  let s3 := (s2.phaseWhere c 0x0B (inPhase 3 t.epoch) (.underway 1 t.epoch)).installTable c bs t
  (s3.beginAdopt c t src 1).notify c t.group 1 t.epoch (s3.offer c) 0

/-- A table for a group of which the shard of a removed member is unfinished (Table 13.10). Its command is in phase `underway 3`. -/
def State.secondTable (s : State) (c : Nat) (a : Adoption) (bs : List Byte) (t : MemberTable) : State :=
  if t.removed ≠ 0xFFFF ∧ (t.removed = a.source.1 ∨ a.failedTwice) then s.beginRollback c a bs t
  else
    let x := s.ctx c
    let rank := match mfind x.colls a.group with
      | some g => (findAt (fun m => m == t.removed) g.members 0).map (·.1)
      | none => none
    let drop := match rank with | some r => (x.unshared a).contains r | none => false
    let s1 := if drop then s.modAdopt c fun b => { b with abandoned := true, awaited := b.awaited.filter fun r => some r != rank } else s
    (s1.modDust c fun d => { d with queued := some bs }).phaseWhere c 0x0B (inPhase 3 t.epoch) (.underway 2 t.epoch)

/-- The states in which SET_MEMBERSHIP is accepted (R560). -/
def CtxState.takesTable : CtxState → Bool
  | .empty => true
  | .ready => true
  | .running => true
  | .preempted => true
  | .faulted => true
  | _ => false

/-- A field breaks R560. -/
def setMemberBad (d : List Byte) : Bool :=
  bits (byteAt d 5) 7 1 != 0 || !zeroIn d 6 8 || !zeroIn d 20 64 || fieldLe d 8 8 % 64 != 0 || decide (2 ^ 26 < fieldLe d 16 4)
    || decide (fieldLe d 16 4 < 64)

/-- SET_MEMBERSHIP (R560 to R563, R570). -/
def execSetMembership (c : CtxId) (k : Nat) (s : State) : Out :=
  .next (s.onCmd c k 0x0B fun cmd =>
    let d := cmd.desc
    if cmd.phase ≠ .started then s
    else if setMemberBad d then s.complete c k 0x02 0
    else if !(s.ctx c).st.takesTable then s.complete c k 0x05 0
    else match s.hostRead (s.ctxPort c) (fieldLe d 8 8) (fieldLe d 16 4) with
      | none => s.complete c k 0x30 0
      | some bs =>
        let g := byteAt bs 16
        let busy := (List.range 64).any fun e => (s.ctx e).st == .restoring && (mfind (s.ctx e).colls g).isSome
        let a := (s.ctx c).dust.adoption
        if busy ∨ (s.ctx c).dust.queued.isSome ∨ a.any (fun a => a.group != g || (a.rollback != 0 && a.rollback != 4))
            ∨ (bit (byteAt d 5) 0 ∧ s.mboxFull c) then s
        else match s.memberStatus c bs, memberTable bs with
          | 0, some t =>
            s.hubNeeds c (s.dustRanges c) false fun s0 => match a with
              | some a => (s0.setPhase c k (.underway 3 t.epoch)).secondTable c a bs t
              | none => (s0.setPhase c k (.underway 1 t.epoch)).acceptTable c bs t
          | st, _ => s.complete c k st 0)

/-! ## Rollback (R571) -/

/-- Every other member's notice of a kind has arrived. -/
def Ctx.allNoticed (x : Ctx) (g : Group) (me : Nat) (l : List Nat) : Bool :=
  (g.members.filter (· != me)).all fun m => l.contains m && decide (x.st ≠ .free)

/-- This member's own image: the first enabled target's. -/
def State.ownImage (s : State) (c : Nat) : Option (Option (Nat × Nat) × Nat) :=
  match (s.tgts c).head? with
  | none => none
  | some t => if s.tgtKind c t = 1 then some (some (s.tgtHi c t % 65536, s.tgtLo c t), 0) else some (none, s.tgtAddr c t)

/-- A SET_MEMBERSHIP that is under way is kept through the restore. -/
def Cmd.isMember (d : Cmd) : Bool := byteAt d.desc 0 == 0x0B && d.isUnderway

/-- A rollback ends without a restored context: it is FAULTED. -/
def State.rollbackFails (s : State) (c : Nat) (a : Adoption) (status : Nat) : State :=
  let s1 := if (s.ctx c).st = .faulted ∨ (s.ctx c).st = .empty then s else (s.enterRestoring c Cmd.isMember).enter c .faulted
  (s1.modDust c fun d => { d with adoption := none, restore := none }).memberDone c 1 a.epoch status

/-- The restore of a rollback goes on. -/
def State.rollbackGo (s : State) (c : Nat) (a : Adoption) : State :=
  let n := match (s.ctx c).dust.restore with | some f => f.plan.length | none => 0
  match s.restoreGo c Cmd.isMember (restoreFuel n) with
  | .busy s1 => s1
  | .noImage s1 => s1.rollbackFails c a 0x60
  | .failed s1 st _ => s1.rollbackFails c a st
  | .done s1 e =>
    ((s1.setFld (DST_STATUS c) 6 6 1).modAdopt c fun b => { b with rollback := 4 }).raise 0x060A (.ctx c)
      [(0, 1, a.group), (2, 2, a.removed), (8, 8, e)]

/-- ROLLBACK (R571): the epoch is agreed, the context restored to it, and the adoption of the second member's shard begins. -/
def execRollback (c : CtxId) (s : State) : Out :=
  .next (match (s.ctx c).dust.adoption with
    | none => s
    | some a =>
      match mfind (s.ctx c).colls a.group with
      | none => s
      | some g =>
        let n := (s.ctx c).noticesOf a.group a.epoch
        match a.rollback with
        | 1 =>
          if (s.ctx c).allNoticed g s.partId n.offers then
            let e := if n.offers.isEmpty then s.offer c else min n.offered (s.offer c)
            (s.modAdopt c fun b => { b with rollback := 2, agreed := some e }).notify c a.group 2 a.epoch e 0
          else s
        | 2 =>
          if (s.ctx c).allNoticed g s.partId n.agrees then
            match a.agreed, s.ownImage c with
            | some 0, _ => s.rollbackFails c a 0x60
            | some e, some (part, addr) =>
              if (s.ctx c).st = .empty then s.modAdopt c fun b => { b with rollback := 4 }
              else if (s.ctx c).st.steps || (s.ctx c).st == .faulted then
                s.hubNeeds c (s.dustRanges c ++ s.trwRanges c) false fun s0 =>
                  ((s0.modDust c fun u => { u with restore := some (s0.restoreFetch c part addr (some e)) }).modAdopt c fun b =>
                    { b with rollback := 3 }).rollbackGo c { a with rollback := 3 }
              else s
            | _, _ => s.rollbackFails c a 0x60
          else s
        | 3 => s.rollbackGo c a
        | _ => s)

end Sys2Proof.Machine
end

