-- ==== Sys2Proof/Machine/Firmware.lean ====
section
/-!
DEFINITION. The compartments of the main firmware (R632 to R636): their faults and restarts, and the halt of the firmware.
-/
namespace Sys2Proof.Machine

/-! ## The halt (R634) -/

/-- The firmware halts: reason 0 a third fault, 1 the supervisor. Every AU stops as in R522 step 1, and the retention buffer goes to
the crash area (R643). -/
def State.halt (s : State) (comp cause reason : Nat) : State :=
  let cs := s.ctxsWith fun x => x.st != .free
  let s1 := cs.foldl (fun t c => t.stopAgents c) s
  let s2 := (((s1.setFld SEC_FW_STATUS 31 30 2).setFld SEC_FW_STATUS 8 0 0).setReg HUB_FW_VERSION 0).raise 0x0804 .all
    [(0, 1, comp), (1, 1, cause), (2, 1, reason)]
  s2.onSec fun x =>
    { x with flash := wrBytes (zeroBytes x.flash 0x3100000 0x100000) 0x3100000 x.logs.flatten, crashed := x.logs.length }

/-- Faults of a compartment in the last 60 s, this one among them. -/
def State.recent (s : State) (comp : Nat) : List Nat :=
  s.now :: (mget [] s.sec.faults comp).filter fun t => decide (s.now < t + 60000000000)

/-! ## Work in flight at a restart (Table 15.8) -/

/-- The SCHEDULER: a pre-emption or resumption under way tears its context down. -/
def State.restartScheduler (s : State) : State :=
  (s.ctxsWith fun x => x.st == .preempting || x.st == .resuming).foldl (fun t c =>
    let t1 := (t.completeWhere c 0x09 Cmd.isUnderway 0x80 0 (t.ctx c).ring.cmds.length)
    (t1.completeWhere c 0x0A Cmd.isUnderway 0x80 0 (t1.ctx c).ring.cmds.length).tearDown c 0x0803 0xFF) s

/-- A LOAD_PROGRAM under way completes with FW_RESTARTED, and the context is as before (R174). -/
def State.restartLoads (s : State) : State :=
  (s.ctxsWith fun x => x.st == .loading).foldl (fun t c =>
    match t.findCmd c 0x01 Cmd.isUnderway with
    | some (k, _) => t.loadFails c k 0x80 0
    | none => t) s

/-- A RESTORE under way completes with FW_RESTARTED, and a context that is RESTORING is FAULTED. -/
def State.restartRestores (s : State) : State :=
  (s.ctxsWith fun x => x.ring.cmds.any fun d => byteAt d.desc 0 == 0x05 && d.isUnderway).foldl (fun t c =>
    let t1 := t.modDust c fun d => { d with restore := none }
    let t2 := if (t1.ctx c).st = .restoring then t1.enter c .faulted else t1
    t2.completeWhere c 0x05 Cmd.isUnderway 0x80 0 (t2.ctx c).ring.cmds.length) s

/-- The PLACER: what waits for a placement completes with FW_RESTARTED. -/
def State.restartPlacer (s : State) : State :=
  let s1 := s.restartLoads.restartRestores
  let s2 := (s1.ctxsWith fun x => x.st == .preempted).foldl (fun t c =>
    t.completeWhere c 0x0A (fun d => d.phase == .started) 0x80 0 (t.ctx c).ring.cmds.length) s1
  (s2.ctxsWith fun x => x.st == .preempting).foldl (fun t c => t.completeWhere c 0x12 Cmd.isUnderway 0x80 0 (t.ctx c).ring.cmds.length) s2

/-- RESILIENCE: a securing under way fails; a RESTORE ends. -/
def State.restartResilience (s : State) : State :=
  ((s.ctxsWith fun x => x.dust.securing.isSome).foldl (fun t c =>
    match (t.ctx c).dust.securing with
    | some g => t.failSecuring c g ((g.tgts.map (·.1)).headD 0) 0x80
    | none => t) s).restartRestores

/-- PAGING: each page IN_TRANSIT goes back to step 1 of R341. -/
def State.restartPaging (s : State) : State :=
  s.mem.pageIns.foldl (fun t p =>
    (({ t with mem := { t.mem with pageIns := t.mem.pageIns.filter fun q => q != p } }.freeFrame p.frame).modPte p.ctx p.page fun e =>
      { e with ty := .pageable })) s

/-- SECURITY: sessions end, and a life-cycle request under way is refused. -/
def State.restartSecurity (s : State) : State :=
  let s1 := s.endSessions
  match s1.sec.lcReq with
  | none => s1
  | some r =>
    let s2 := ((s1.onSec fun x => { x with lcReq := none }).tokenRefused r.kind 7 r.svc).lcAnswer 7 r.svc
    (if r.svc then s2 else s2.setFld SEC_LC_REQ 1 1 0).newNonce

/-- The work in flight of a compartment that restarts. -/
def State.restartWork (s : State) (comp : Nat) : State :=
  match comp with
  | 1 => s.restartScheduler
  | 2 => s.restartPlacer
  | 3 => s.restartLoads
  | 4 => s.restartResilience
  | 5 => s.restartPaging
  | 6 => s.floorClocks
  | 8 => s.restartSecurity
  | _ => s

/-! ## Faults of compartments (R633) -/

/-- A fault of a compartment: it is rebuilt and restarted, or the firmware halts. -/
def State.compFault (s : State) (comp cause : Nat) : State :=
  if !s.fwUp ∨ 8 < comp ∨ 3 < cause then s
  else if comp = 0 then s.halt comp cause 1
  else
    let ts := s.recent comp
    if 3 ≤ ts.length then s.halt comp cause 0
    else
      (((s.onSec fun x => { x with faults := mput x.faults comp ts }).restartWork comp).flagCount SEC_STATUS 0 SEC_EVT_CNT 31 16
        |>.total 13 1).raise 0x0803 .all [(0, 1, comp), (1, 1, cause), (2, 1, ts.length)]

/-- FW_RESTART (R633). -/
def execFwRestart (comp cause t : Nat) (s : State) : Out := .next ((s.at t).compFault comp cause)

/-- The scheduler core of a compartment (Table 15.8). -/
def compCore (comp : Nat) : Nat := match comp with | 0 => 0 | 1 => 0 | 2 => 1 | 3 => 1 | 4 => 2 | 5 => 2 | _ => 3

/-- COMPARTMENT_HEARTBEAT_MISS (R633): not checked while a debugger holds the compartment's core (R636). -/
def execCompartmentHeartbeatMiss (comp t : Nat) (s : State) : Out :=
  let s0 := s.at t
  .next (if s0.sec.haltedCores.contains (compCore comp) then s0 else s0.compFault comp 2)

/-- FW_HALTED (R634): the supervisor faults or misses the watchdog, or a compartment faults for the third time within 60 s. -/
def execFwHalted (comp cause t : Nat) (s : State) : Out :=
  let s0 := s.at t
  .next (if s0.fwUp ∧ comp ≤ 8 ∧ cause ≤ 3 ∧ (comp = 0 ∨ 3 ≤ (s0.recent comp).length) then s0.halt comp cause (b2n (comp == 0)) else s0)

/-- FW_MEMORY_UNCORR (R635): kind 0 a code page of compartment n, 1 a data page of compartment n, 2 page tables of context n, 3 the
supervisor's memory. The reason of a halt for a code page that does not match is open. -/
def execFwMemoryUncorr (kind n t : Nat) (s : State) : Out :=
  let s0 := s.at t
  .next (if !s0.fwUp then s0
    else match kind with
      | 0 => if s0.sec.mainOk s0.slot then s0 else let p := s0.pick; p.2.halt n 3 (p.1 % 256)
      | 1 => s0.compFault n 3
      | 2 => if n < 64 ∧ (s0.ctx n).st ≠ .free then
          let p := s0.pick
          p.2.memUncorr 0 (p.1 / 2 ^ 36 % 12) 0xFF (p.1 % (12 * 2 ^ 36)) (some n)
        else s0
      | 3 => s0.halt 0 3 1
      | _ => s0)

end Sys2Proof.Machine
end

