-- ==== Sys2Proof/Machine/Memory.lean ====
section
/-!
DEFINITION. The meanings of the memory commands (09_memory.md): hot banks and errors of HBM (R328 to R333, R363, R364), paging
(R341 to R345), and COPY, MAP and UNMAP (R365 to R370).
-/
namespace Sys2Proof.Machine

/-! ## Hot HBM banks -/

/-- HBM_HOT_WINDOW_END (R363, R364): the banks that were hot, numbered as `bankOf` numbers them, in the order found. -/
def execHbmHotWindowEnd (hot : List Nat) (t : Nat) (s : State) : Out :=
  let s0 := s.at t
  let hs := (hot.filter (· < 18432)).eraseDups
  let run := hs.foldl (fun m b => mput m b (mget 0 s0.mem.hotRun b + 1)) []
  let s1 := { s0 with mem := { s0.mem with hotRun := run } }.count MEM_EVT_CNT0 23 16 hs.length
  let s2 := match hs.getLast? with
    | none => s1
    | some b => (s1.setFld MEM_STATUS 2 2 1).setReg MEM_HOT_LAST
        (2 ^ 31 + 2 ^ 30 + 2 ^ 22 * (b / 1536) + 2 ^ 17 * (b / 48 % 32) + b % 48)
  .next ((hs.filter fun b => mget 0 run b == 4).foldl
    (fun x b => x.raise 0x0310 .all [(0, 1, 1), (1, 1, b / 1536), (2, 1, b / 48 % 32), (3, 1, b % 48)]) s2)

/-! ## Errors -/

/-- A frame that is not in use is retired at once where its errors ask for it (R333). -/
def State.retireIfFree (s : State) (f : Nat) : State :=
  let x := s.frame f
  if x.used ∨ x.retired then s
  else if x.uncorr then s.retire f 0
  else if 16 ≤ x.corrected then s.retire f 1
  else s

/-- HBM_CORRECTED_ERROR (R328, R333). -/
def execHbmCorrectedError (dpa : Nat) (s : State) : Out :=
  if dpaValid dpa then
    let f := dpaFrame dpa
    let s1 := (s.count (MEM_ECC (dpa / 2 ^ 36)) 15 0 1).total 0 1
    .next ((s1.putFrame f { s1.frame f with corrected := (s1.frame f).corrected + 1 }).retireIfFree f)
  else .next s

/-- MEM_UNCORR of HBM (R330, R332). -/
def execMemUncorr (dpa : Nat) (s : State) : Out :=
  if dpaValid dpa then
    let f := dpaFrame dpa
    let s1 := (s.count (MEM_ECC (dpa / 2 ^ 36)) 31 16 1).total 1 1
    let s2 := (s1.putFrame f { s1.frame f with uncorr := true }).retireIfFree f
    .next (s2.memUncorr 0 (dpa / 2 ^ 36) 0xFF dpa (s2.frame f).owner)
  else .next s

/-- HBM_SCRUB (R329, R333): a scrub period of the stack ends; a frame that has had 16 corrected errors in it keeps the mark. -/
def execHbmScrub (m : StackId) (t : Nat) (s : State) : Out :=
  let s0 := s.at t
  let fs := s0.mem.frames.filterMap fun e =>
    if frameStack e.1 = m ∧ e.2.corrected < 16 then
      let x := { e.2 with corrected := 0 }
      if x = Frame.reset then none else some (e.1, x)
    else some e
  .next { s0 with mem := { s0.mem with frames := fs, scrubbedAt := mput s0.mem.scrubbedAt m s0.now } }

/-! ## Paging (R341 to R345) -/

/-- The bytes of [a, a + n) in one memory copied to b in another. -/
def importRange (src : Mem) (a n : Nat) (dst : Mem) (b : Nat) : Mem :=
  (src.filter fun e => decide (a ≤ e.1) && decide (e.1 < a + n)).foldl (fun m e => wrByte m (b + (e.1 - a)) e.2)
    (zeroBytes dst b n)

/-- A segment in flight goes through page p of context c. -/
def State.pageBusy (s : State) (c p n : Nat) : Bool :=
  let hit := fun e => match e with | .virt c' va => c' == c && decide (p ≤ va / frameBytes) && decide (va / frameBytes < p + n) | _ => false
  s.mem.segs.any fun e => hit e.2.src || hit e.2.dst

/-- The pages of context c that a page-in filled on the stacks of a mask, as (context, page). -/
def State.evictable (s : State) (mask c : Nat) : List (Nat × Nat) :=
  ((s.ctx c).pt.filter fun e => e.2.ty == .resident && (s.frame (dpaFrame e.2.addr)).pagedIn && bit mask (e.2.addr / 2 ^ 36)).map
    fun e => (c, e.1)

/-- A list turned so that it begins at the clock's hand. -/
def fromHand (hand : Nat) (xs : List (Nat × Nat)) : List (Nat × Nat) :=
  (xs.filter fun e => decide (hand ≤ e.2)) ++ (xs.filter fun e => decide (e.2 < hand))

/-- ACCESSED of a page. -/
def State.pageAccessed (s : State) (e : Nat × Nat) : Bool :=
  match mfind (s.ctx e.1).pt e.2 with | some p => p.accessed | none => false

/-- The clock sweep (R344): ACCESSED bits are cleared up to the first page that has it clear, or once around. -/
def State.sweep (s : State) (xs : List (Nat × Nat)) : Option ((Nat × Nat) × State) :=
  let seen := xs.takeWhile s.pageAccessed
  match (xs.drop seen.length).head?, xs.head? with
  | some v, _ => some (v, seen.foldl (fun t e => t.modPte e.1 e.2 fun p => { p with accessed := false }) s)
  | none, some v => some (v, seen.foldl (fun t e => t.modPte e.1 e.2 fun p => { p with accessed := false }) s)
  | none, none => none

/-- A page goes back to host memory (R344): written there if it is DIRTY. -/
def State.pageOut (s : State) (c k : Nat) : State :=
  match mfind (s.ctx c).pt k with
  | none => s
  | some e =>
    let s1 := if e.dirty ∧ (s.port e.port).dlUp then
        { s with host := importRange s.mem.hbm e.addr frameBytes s.host (hostKey e.port e.backing) } else s
    (s1.freeFrame (dpaFrame e.addr)).modPte c k fun p =>
      { p with ty := .pageable, addr := p.backing, dirty := false, accessed := false }

/-- A page-in fails (R345): a COPY or an image read is told, any other agent faults the context. -/
def State.pageInFail (s : State) (c p reason : Nat) : State :=
  let mine := s.mem.wants.filter fun w => w.ctx == c && w.page == p
  let s1 := { s with mem := { s.mem with wants := s.mem.wants.filter fun w => !(w.ctx == c && w.page == p) } }
  let s2 := if mine.any fun w => w.agent == 4 then
      { s1 with mem := { s1.mem with fails := s1.mem.fails ++ [(c, p, reason)] } } else s1
  match mine.find? fun w => w.agent != 4 with
  | some w => s2.memFault c reason (if w.agent = 7 then 4 else w.agent) w.au w.write w.va
  | none => s2

/-- A page-in takes a frame: the entry is IN_TRANSIT. -/
def State.beginPageIn (s : State) (c p f : Nat) : State :=
  let s1 := s.modPte c p fun e => { e with ty := .inTransit }
  { s1 with mem := { s1.mem with pageIns := s1.mem.pageIns ++ [⟨c, p, f⟩] } }

/-- The page-in of a PAGEABLE page that an agent waits for (R341, R343, R344). -/
def State.pageInGo (s : State) (c p : Nat) (e : Pte) : State :=
  if !(s.port e.port).dlUp then s.pageInFail c p 2
  else
    match s.allocFrame e.stks (some c) true with
    | some (f, s1) => s1.beginPageIn c p f
    | none =>
      let own := fromHand s.mem.clock (s.evictable e.stks c)
      let all := if own.isEmpty then
          ((List.range 64).filter (· != c)).flatMap fun d => fromHand s.mem.clock (s.evictable e.stks d) else own
      match s.sweep all with
      | none => s.pageInFail c p 3
      | some (v, s1) =>
        if s.pageBusy v.1 v.2 1 then s
        else
          let s2 := { s1 with mem := { s1.mem with clock := v.2 + 1 } }.pageOut v.1 v.2
          match s2.allocFrame e.stks (some c) true with
          | some (f, s3) => s3.beginPageIn c p f
          | none => s2.pageInFail c p 3

/-- PAGE_IN_START (R341): a wanted PAGEABLE page, while fewer than 64 page-ins are under way. -/
def execPageInStart (c : CtxId) (va : Nat) (s : State) : Out :=
  let p := va / frameBytes
  .next (if (s.mem.wants.any fun w => w.ctx == c && w.page == p) ∧ s.mem.pageIns.length < 64 then
      match mfind (s.ctx c).pt p with
      | some e => if e.ty = .pageable then s.pageInGo c p e else s
      | none => s
    else s)

/-- PAGE_IN_COMPLETE (R341): the page is RESIDENT with DIRTY clear, and its waiters proceed. -/
def execPageInComplete (c : CtxId) (page : Nat) (s : State) : Out :=
  .next (match s.mem.pageIns.find? fun p => p.ctx == c.val && p.page == page with
    | none => s
    | some p =>
      let s1 := { s with mem := { s.mem with pageIns := s.mem.pageIns.filter fun q => q != p } }.modCtx c fun x =>
        { x with progressAt := s.now }
      match mfind (s1.ctx c).pt page with
      | none => s1.freeFrame p.frame
      | some e =>
        if (s1.port e.port).dlUp then
          let s2 := { s1 with mem := { s1.mem with
            hbm := importRange s1.host (hostKey e.port e.backing) frameBytes s1.mem.hbm (frameDpa p.frame)
            wants := s1.mem.wants.filter fun w => !(w.ctx == c.val && w.page == page) } }
          (s2.modPte c page fun e => { e with ty := .resident, addr := frameDpa p.frame, dirty := false }).setReg
            (MEM_PAGED c) ((s2.reg (MEM_PAGED c) + 1) % 2 ^ 32)
        else ((s1.freeFrame p.frame).modPte c page fun e => { e with ty := .pageable }).pageInFail c page 2)

/-! ## COPY (R365 to R367) -/

/-- Two exact values are the same. -/
def numSame (a b : Num) : Bool :=
  match a, b with
  | .nan, .nan => true
  | .inf s, .inf t => s == t
  | .fin s _ _, .fin t _ _ => s == t && !numLt a b && !numLt b a
  | _, _ => false

/-- Format d holds every element value of format s (of at most 8 bits), and more: the conversion widens. -/
def widens (s d : Nat) : Bool :=
  let into := fun (s d : Nat) => decide (fmtBits s ≤ 8) && (List.range (2 ^ fmtBits s)).all fun w =>
    numSame (elemVal d (narrow (if fmtIsMx d then d - 7 else d) .rne (elemVal s w)).bits) (elemVal s w)
  into s d && !(decide (fmtBits d ≤ 8) && into d s)

/-- A conversion that R366 allows. -/
def convOk (s d : Nat) : Bool :=
  s != 0xF && d != 0xF && (if s ≤ 2 then s != d else widens s d)

/-- Elements that LENGTH source bytes hold; none: it does not describe whole elements (R366). -/
def convElems (sf bs n : Nat) : Option Nat :=
  let b := fmtBits sf
  if fmtIsMx sf then
    let per := bs * b / 8 + 1
    if n % per = 0 then some (n / per * bs) else none
  else if n % (if b = 32 then 4 else if b = 16 then 2 else if b = 6 then 3 else 1) = 0 then some (n * 8 / b) else none

/-- A field of the COPY descriptor breaks Table 9.9 or R366. -/
def Ctx.copyBad (x : Ctx) (d : List Byte) : Bool :=
  let virtBad := fun (sp off : Nat) => sp == 1 && (x.baseVa (fieldLe d off 8)).isNone
  let conv := bit (byteAt d 8) 0
  let n := fieldLe d 32 8
  let sf := byteAt d 6
  let df := byteAt d 7
  decide (1 < byteAt d 4) || decide (1 < byteAt d 5) || (byteAt d 4 == 0 && byteAt d 5 == 0) || decide (15 < sf) || decide (15 < df)
    || bits (byteAt d 8) 7 3 != 0 || bits (byteAt d 10) 7 1 != 0 || !zeroIn d 11 16 || !zeroIn d 40 64 || n == 0
    || decide (2 ^ 40 < n) || virtBad (byteAt d 4) 16 || virtBad (byteAt d 5) 24
    || (conv && (!convOk sf df || (convElems sf (bsOf (bits (byteAt d 8) 2 1)) n).isNone))

/-- The end of a COPY at byte `at_` of its range: the source (field 16) or the destination (field 24). -/
def State.copyEnd (s : State) (c : Nat) (d : List Byte) (dst : Bool) (at_ : Nat) : MemEnd :=
  let o := if dst then 24 else 16
  if byteAt d (if dst then 5 else 4) = 0 then .host (s.ctxPort c) (fieldLe d o 8 + at_)
  else .virt c ((((s.ctx c).baseVa (fieldLe d o 8)).getD 0) + at_)

/-- Ranges of one end can be accessed: a host end while its data link is up. -/
def State.endOk (s : State) (e : MemEnd) (n : Nat) (write : Bool) : VmRes Unit :=
  match e with
  | .virt c va => if n = 0 then .ok () else (s.ctx c).checkAll write (pagesOf va n)
  | .host p a => if (s.port p).dlUp then .ok () else .bad 2 a
  | _ => .ok ()

/-- Every range of a list of ends can be accessed, or the first that cannot. -/
def State.endsOk (s : State) : List (MemEnd × Nat × Bool) → VmRes Unit
  | [] => .ok ()
  | (e, n, w) :: es => match s.endOk e n w with
    | .ok _ => s.endsOk es
    | r => r

/-- A COPY is done with all its bytes: its flag is set and it completes, once the mailbox has room (R508). -/
def State.copyDone (s : State) (c k : Nat) (cmd : Cmd) : State :=
  if bit (byteAt cmd.desc 10) 0 then
    if s.mboxFull c then
      match cmd.phase with
      | .held _ _ => s
      | _ => (s.setPhase c k (.held 0 0)).mboxFullEvent c
    else (s.deliverFlag c (byteAt cmd.desc 9) true).complete c k 0 0
  else s.complete c k 0 0

/-- A COPY stops (R367) after a number of bytes. -/
def State.copyStop (s : State) (c k bytes : Nat) : State :=
  { s with mem := { s.mem with fails := s.mem.fails.filter fun e => e.1 != c } }.complete c k 0x30 bytes

/-- What comes of a check of the ends: go on, wait for a page, or stop after `bytes`. A page-in that has failed stops it. -/
def State.copyTry (s : State) (c k bytes : Nat) (es : List (MemEnd × Nat × Bool)) (go : State → State) : State :=
  match s.endsOk es with
  | .ok _ => go s
  | .wait va =>
    if s.mem.fails.any fun e => e.1 == c && e.2.1 == va / frameBytes then s.copyStop c k bytes
    else s.want ⟨c, va, 4, 0xFF, false⟩
  | .hold => s
  | .bad _ _ => s.copyStop c k bytes

/-- Bytes put at one end; none: a shadow frame is awaited. -/
def State.copyPut (s : State) (e : MemEnd) (bs : List Byte) : Option State := if bs.isEmpty then some s else s.putEnd e bs false

/-- The address of an end of a COPY: a virtual address or a host address. -/
def copyAddr : MemEnd → Nat
  | .virt _ va => va
  | .host _ x => x
  | _ => 0

/-- The next segment of a COPY without CONVERT. -/
def State.copyStep (s : State) (c k pos : Nat) (cmd : Cmd) : State :=
  let d := cmd.desc
  let a := s.copyEnd c d false pos
  let b := s.copyEnd c d true pos
  let n := min (fieldLe d 32 8 - pos) (min (toBoundary (copyAddr a)) (toBoundary (copyAddr b)))
  s.copyTry c k pos [(a, n, false), (b, n, true)] fun s1 =>
    let p := s1.getEnd a n
    match p.2.copyPut b p.1 with
    | none => s
    | some s2 => s2.setPhase c k (.underway (pos + n) 0)

/-- A value of a widening that the destination does not hold exactly (a scaled MX element out of its range): left open. -/
def convWide (df : Nat) (v : Num) : Nat :=
  let r := (narrow df .rne v).bits
  if numSame (elemVal df r) v then r else Config.keyed 11 df r % 2 ^ fmtBits df

/-- The next 2,048 elements of a COPY with CONVERT, from element `pos` of n (R366). -/
def State.convStep (s : State) (c k pos n : Nat) (cmd : Cmd) : State :=
  let d := cmd.desc
  let sf := byteAt d 6
  let df := byteAt d 7
  let bs := bsOf (bits (byteAt d 8) 2 1)
  let m := min 2048 (n - pos)
  let sv := fun i => rowBytes sf i
  let dTop := if fmtIsMx df then rowBytes df (ceilDiv n bs * bs) else rowBytes df n
  let pad := if fmtIsMx df then ceilDiv m bs * bs else m
  let rs := if fmtIsMx sf then m / bs else 0
  let ws := if fmtIsMx df then ceilDiv m bs else 0
  let a := s.copyEnd c d false (sv pos)
  let as := s.copyEnd c d false (sv n + pos / bs)
  let b := s.copyEnd c d true (rowBytes df pos)
  let bss := s.copyEnd c d true (dTop + pos / bs)
  s.copyTry c k (sv pos + (if fmtIsMx sf then pos / bs else 0))
    [(a, sv m, false), (as, rs, false), (b, rowBytes df pad, true), (bss, ws, true)] fun s1 =>
    let p := s1.getEnd a (sv m)
    let q := if rs = 0 then ([], p.2) else p.2.getEnd as rs
    let vs := (List.range m).map fun i => scaledVal sf (unpackElem sf p.1 i) (byteAt q.1 (i / bs))
    let out :=
      if fmtIsMx df then
        let bl := (chunks bs vs).map (writeBlock df fun _ => .rne)
        (packRow df (((bl.map fun r => r.elems.map (·.bits)).flatten) ++ List.replicate (pad - m) 0), (bl.map fun r => natLe 1 r.scale).flatten)
      else (packRow df (vs.map fun v => if sf ≤ 2 then (narrow df .rne v).bits else convWide df v), [])
    match (q.2.copyPut b out.1).bind fun t => t.copyPut bss out.2 with
    | none => s
    | some s2 => s2.setPhase c k (.underway (pos + m) 0)

/-- A COPY under way goes one segment on. -/
def State.copyGo (s : State) (c k pos : Nat) (cmd : Cmd) : State :=
  let d := cmd.desc
  if bit (byteAt d 8) 0 then
    let n := (convElems (byteAt d 6) (bsOf (bits (byteAt d 8) 2 1)) (fieldLe d 32 8)).getD 0
    if pos < n then s.convStep c k pos n cmd else s.copyDone c k cmd
  else if pos < fieldLe d 32 8 then s.copyStep c k pos cmd
  else s.copyDone c k cmd

/-- An earlier COPY of the context has not begun (R354: one queue per context). -/
def State.copyQueued (s : State) (c k : Nat) : Bool :=
  ((s.ctx c).ring.cmds.take k).any fun d => byteAt d.desc 0 == 0x0D && d.phase == .started

/-- COPY (R365 to R367). -/
def execCopy (c : CtxId) (k : Nat) (s : State) : Out :=
  .next (s.onCmd c k 0x0D fun cmd =>
    match cmd.phase with
    | .started =>
      if (s.ctx c).copyBad cmd.desc then s.complete c k 0x02 0
      else if s.copyQueued c k then s
      else (s.setPhase c k (.underway 0 0)).copyGo c k 0 { cmd with phase := .underway 0 0 }
    | .underway pos _ => s.copyGo c k pos cmd
    | .held _ _ => s.copyDone c k cmd)

/-! ## MAP and UNMAP (R368 to R370) -/

/-- A field of the MAP descriptor breaks Table 9.10. -/
def mapBad (d : List Byte) : Bool :=
  let sz := if byteAt d 5 = 1 then 2 ^ 30 else frameBytes
  let va := fieldLe d 16 8
  let n := fieldLe d 24 8
  decide (1 < byteAt d 4) || decide (1 < byteAt d 5) || (byteAt d 5 == 1 && byteAt d 4 == 1) || bits (byteAt d 6) 7 1 != 0
    || byteAt d 7 != 0 || bits (fieldLe d 8 2) 15 12 != 0 || !zeroIn d 10 16 || !zeroIn d 40 64 || va % sz != 0 || n == 0
    || n % sz != 0 || decide (2 ^ 52 < va + n)
    || (if byteAt d 4 = 1 then fieldLe d 32 8 % frameBytes != 0 else fieldLe d 32 8 != 0)

/-- n PAGEABLE pages from page k on, backed from a host address on. -/
def State.mapHost (s : State) (c port mask : Nat) (write : Bool) : Nat → Nat → Nat → State
  | 0, _, _ => s
  | n + 1, k, addr =>
    let e : Pte :=
      { ty := .pageable, big := false, addr := addr, backing := addr, port := port, write := write, dirty := false,
        accessed := false, protect := false, origin := .mapHost, stks := mask }
    (s.modCtx c fun x => { x with pt := mput x.pt k e }).mapHost c port mask write n (k + 1) (addr + frameBytes)

/-- The range of a MAP that has been accepted is mapped at page p; none: NO_RESOURCES. -/
def State.mapAt (s : State) (c : Nat) (d : List Byte) (p : Nat) : Option State :=
  let mask := if fieldLe d 8 2 = 0 then 0xFFF else fieldLe d 8 2
  let w := bit (byteAt d 6) 0
  let n := fieldLe d 24 8
  if byteAt d 4 = 1 then some (s.mapHost c (s.ctxPort c) mask w (n / frameBytes) p (fieldLe d 32 8))
  else
    let big := byteAt d 5 == 1
    s.mapMany c big w false mask .mapHbm (n / (if big then 2 ^ 30 else frameBytes)) p

/-- MAP (R368, R370). -/
def execMap (c : CtxId) (k : Nat) (s : State) : Out :=
  .next (s.onCmd c k 0x0E fun cmd =>
    let d := cmd.desc
    let va := fieldLe d 16 8
    let n := fieldLe d 24 8 / frameBytes
    if mapBad d then s.complete c k 0x02 0
    else if va ≠ 0 ∧ !(s.ctx c).rangeClear (va / frameBytes) n then s.complete c k 0x31 0
    else
      match (if va = 0 then (s.ctx c).pickRange n (if byteAt d 5 = 1 then 512 else 1) else some (va / frameBytes)) with
      | none => s.complete c k 0x03 0
      | some p =>
        match s.mapAt c d p with
        | none => s.complete c k 0x03 0
        | some s1 => s1.complete c k 0x00 (frameBytes * p))

/-- A field of the UNMAP descriptor breaks R369. -/
def unmapBad (d : List Byte) : Bool :=
  bits (byteAt d 4) 7 1 != 0 || !zeroIn d 5 16 || !zeroIn d 32 64 || fieldLe d 16 8 % frameBytes != 0 || fieldLe d 24 8 == 0
    || fieldLe d 24 8 % frameBytes != 0

/-- Entries that lie in pages [p, p + n), wholly or in part. -/
def Ctx.entriesIn (x : Ctx) (p n : Nat) : List (Nat × Pte) :=
  x.pt.filter fun e => decide (e.1 < p + n) && decide (p < e.1 + e.2.span)

/-- The range is wholly made of mappings that MAP created and splits no 1 GiB page. -/
def Ctx.unmappable (x : Ctx) (p n : Nat) : Bool :=
  let es := x.entriesIn p n
  (es.all fun e => !e.2.origin.isLoader && decide (p ≤ e.1) && decide (e.1 + e.2.span ≤ p + n))
    && es.foldl (fun m e => m + e.2.span) 0 == n

/-- An entry of an UNMAP: written back if it is to be, its frames freed, the entry gone. -/
def State.unmapOne (s : State) (c : Nat) (discard : Bool) (k : Nat) (e : Pte) : State :=
  let s1 := if e.ty = .resident ∧ e.origin = .mapHost ∧ !discard then s.pageOut c k else s.freeFrames e.frames
  s1.modCtx c fun x => { x with pt := mdel x.pt k }

/-- UNMAP (R369, R370): it waits until no segment and no page-in goes through the range. -/
def execUnmap (c : CtxId) (k : Nat) (s : State) : Out :=
  .next (s.onCmd c k 0x0F fun cmd =>
    let d := cmd.desc
    let p := fieldLe d 16 8 / frameBytes
    let n := fieldLe d 24 8 / frameBytes
    if unmapBad d then s.complete c k 0x02 0
    else if !(s.ctx c).unmappable p n then s.complete c k 0x32 0
    else if s.pageBusy c p n ∨ (s.mem.pageIns.any fun q => q.ctx == c.val && decide (p ≤ q.page) && decide (q.page < p + n)) then s
    else (((s.ctx c).entriesIn p n).foldl (fun t e => t.unmapOne c (bit (byteAt d 4) 0) e.1 e.2) s).complete c k 0x00 0)

end Sys2Proof.Machine
end

