-- ==== Sys2Proof/Machine/Move.lean ====
section
/-!
DEFINITION. The MOVE engine's XFER and PAGE_IN (R355 to R360). One command starts the operation or carries it one segment on.
-/
namespace Sys2Proof.Machine

/-- The virtual address of the descriptor that a XFER or ROLLER word names (Table 9.6). -/
def moveDescVa (w : Nat) : Nat := 64 * bits w 45 0

/-- The 64 bytes of a descriptor are read (R357): a page that waits is wanted, an address that does not translate faults; then
`go` has them. -/
def State.withDesc (s : State) (n c : Nat) (op : ActiveOp) (go : List Byte → State → State) : State :=
  match s.vread c (moveDescVa op.word) 64 with
  | .ok (d, s1) => go d s1
  | .wait va => s.want ⟨c, va, 2, n, false⟩
  | .bad r va => s.memFault c r 2 n false va
  | .hold => s

/-- The transfer's descriptor is read and checked (R357, R358). -/
def State.readMove (s : State) (n c : Nat) (op : ActiveOp) : State :=
  s.withDesc n c op fun d s1 =>
    if (s1.ctx c).moveBad d then s1.memFault c 4 2 n false (moveDescVa op.word)
    else s1.modAu n fun a => a.putAct 5 { op with data := d, regs := [0, 0, 0, 0] }

/-- The transfer's last segment has completed (R359): its visits end and its done flag is set. -/
def State.endMove (s : State) (n c : Nat) (op : ActiveOp) : State :=
  let m := moveDesc op.data
  let s1 := ((s.endMoveVisits n c).endOp n 5).progress c
  if m.doneEn then s1.setFlag c m.doneFlag true else s1

/-- The XFER under way goes one step on. -/
def State.xferGo (s : State) (n c : Nat) (op : ActiveOp) : State :=
  if op.data.isEmpty then s.readMove n c op
  else if op.xreg 1 < (moveDesc op.data).total then s.issueMove n c op
  else if (s.segsBy (.move n)).isEmpty then s.endMove n c op
  else s

/-- Pages of a PAGE_IN (Table 9.6). -/
def pageInPages (w : Nat) : List Nat :=
  List.range' (bits w 30 0) (if bits w 38 31 = 0 then 256 else bits w 38 31)

/-- A PAGE_IN starts the page-ins of the PAGEABLE pages of its range. -/
def State.wantPages (s : State) (n c : Nat) (op : ActiveOp) : State :=
  let x := s.ctx c
  let ps := (pageInPages op.word).filter fun p => match x.pte p with | some (_, e) => e.ty == .pageable | none => false
  (ps.foldl (fun t p => t.want ⟨c, frameBytes * p, 2, n, false⟩) s).modAu n fun a => a.putAct 5 { op with regs := ps }

/-- The PAGE_IN under way is complete once every page-in that it started has ended. -/
def State.movePageInGo (s : State) (n c : Nat) (op : ActiveOp) : State :=
  if op.regs.any fun p => (s.mem.wants.any fun w => w.ctx == c && w.page == p)
      || (s.mem.pageIns.any fun w => w.ctx == c && w.page == p) then s
  else (s.endOp n 5).progress c

/-- The MOVE engine starts its next operation, if it is of the kind given. -/
def State.startMove (s : State) (n : Nat) (wen : Bool) (kind : Nat) : State :=
  s.startUnit n 5 wen (fun _ op => opKind op.word == kind) fun c op t =>
    if kind = 0 then t.readMove n c (startedOp op) else if kind = 1 then t.wantPages n c (startedOp op) else t

/-- XFER (R355 to R359). -/
def execXfer (a : AuId) (s : State) : Out :=
  .next (match s.opOf a 5 with
    | none => s.startMove a false 0
    | some (c, _, op) => if opKind op.word = 0 then s.xferGo a c op else s)

/-- PAGE_IN of the MOVE engine (Table 9.6, R360). -/
def execMovePageIn (a : AuId) (s : State) : Out :=
  .next (match s.opOf a 5 with
    | none => s.startMove a false 1
    | some (c, _, op) => if opKind op.word = 1 then s.movePageInGo a c op else s)

end Sys2Proof.Machine
end

