-- ==== Sys2Proof/Machine/Roller.lean ====
section
/-!
DEFINITION. The Roller (R371 to R379): multicast from one source to many receivers, detachment and replay.
-/
namespace Sys2Proof.Machine

/-! ## The descriptor (Tables 9.12 and 9.13) -/

/-- Piece i of a descriptor: its source in Stencil BASE form and its bytes. -/
def rollPiece (d : List Byte) (i : Nat) : Nat × Nat := (fieldLe d (16 + 12 * i) 8, fieldLe d (24 + 12 * i) 4)

/-- The pieces in use. -/
def rollPieces (d : List Byte) : List (Nat × Nat) := (List.range (byteAt d 2)).map (rollPiece d)

/-- Bytes of the whole transfer. -/
def rollTotal (d : List Byte) : Nat := (rollPieces d).foldl (fun n p => n + p.2) 0

/-- [off, off + n) of the buffer that a base names lies in it. -/
def Ctx.inBuf (x : Ctx) (w n : Nat) : Bool :=
  match x.baseBuf w with | some (size, _) => decide (bits w 51 0 + n ≤ size) | none => false

/-- The descriptor holds a reserved value, or a source piece leaves its buffer (R382). -/
def Ctx.rollBad (x : Ctx) (d : List Byte) : Bool :=
  let r := fieldLe d 0 2
  let p := byteAt d 2
  let rl := fieldLe d 8 8
  r == 0 || decide (4096 < r) || p == 0 || decide (4 < p) || decide (64 < byteAt d 3) || !zeroIn d 4 8 || !zeroIn d (16 + 12 * p) 64
    || rl % 16 != 0 || (x.baseRange rl (16 * r)).isNone || (rollPieces d).any fun q => q.2 == 0 || !x.inBuf q.1 q.2

/-- A receiver entry holds a reserved value, or a LOCAL one leaves its buffer. -/
def Ctx.rcvBad (x : Ctx) (total : Nat) (e : List Byte) : Bool :=
  let kind := byteAt e 2 % 16
  decide (1 < kind) || (kind == 0 && (fieldLe e 4 4 != 0 || !x.inBuf (fieldLe e 8 8) total)) || (kind == 1 && byteAt e 3 != 0)

/-- Segments of n bytes at a base: cut at the 2 KiB boundaries of the source (R350). -/
def cutSegs (w at_ : Nat) : Nat → Nat → List (Nat × Nat × Nat)
  | 0, _ => []
  | f + 1, n =>
    if n = 0 then []
    else
      let m := min n (toBoundary w)
      (w, at_, m) :: cutSegs (w + m) (at_ + m) f (n - m)

/-- The segments of the pieces, end to end at the receiver (R372). -/
def pieceSegs : Nat → List (Nat × Nat) → List (Nat × Nat × Nat)
  | _, [] => []
  | at_, (w, n) :: ps => cutSegs w at_ (n / 2048 + 2) n ++ pieceSegs (at_ + n) ps

/-! ## Acceptance -/

/-- The Roller takes the transfer, and the operation leaves the MOVE engine's unit (R360). -/
def State.acceptRoller (s : State) (n c l : Nat) (op : ActiveOp) (d : List Byte) (entries : List (List Byte)) : State :=
  let x : RollerXfer :=
    { ctx := c, lau := l, seq := op.seq, rlist := ((s.ctx c).baseVa (fieldLe d 8 8)).getD 0
      slack := if byteAt d 3 = 0 then s.fld MEM_ROLLER_CTL 6 0 else byteAt d 3, segNs := s.fld MEM_ROLLER_CTL 31 16
      segs := pieceSegs 0 (rollPieces d), issued := 0, waitingSince := none
      rcvs := entries.map fun e => ⟨e, 0, 0, true, .pending, none⟩ }
  (({ s with mem := { s.mem with rollers := mput s.mem.rollers s.mem.nextRoller x, nextRoller := s.mem.nextRoller + 1 } }).endOp n 5
    ).progress c

/-- The ROLLER operation that the unit holds is offered to the Roller. -/
def State.rollerGo (s : State) (n c l : Nat) (op : ActiveOp) : State :=
  if 256 ≤ s.mem.rollers.length then s
  else s.withDesc n c op fun d s1 =>
    let x := s1.ctx c
    let bad := s1.memFault c 4 3 0xFF false (moveDescVa op.word)
    if x.rollBad d then bad
    else match x.baseVa (fieldLe d 8 8) with
      | none => bad
      | some rl =>
        match s1.vread c rl (16 * fieldLe d 0 2) with
        | .ok (bs, s2) =>
          let es := chunks 16 bs
          if es.any (x.rcvBad (rollTotal d)) then s2.memFault c 4 3 0xFF false (moveDescVa op.word)
          else s2.acceptRoller n c l op d es
        | .wait va => s1.want ⟨c, va, 3, 0xFF, false⟩
        | .bad r va => s1.memFault c r 3 0xFF false va
        | .hold => s1

/-- ROLLER (R376): the MOVE engine starts the operation and hands it to the Roller. -/
def execRoller (a : AuId) (s : State) : Out :=
  .next (match s.opOf a 5 with
    | none => s.startMove a false 2
    | some (c, l, op) => if opKind op.word = 2 then s.rollerGo a c l op else s)

/-! ## Segments (R376, R377) -/

/-- A receiver still takes segments. -/
def Rcv.open_ (v : Rcv) : Bool := v.status == .pending && v.fail.isNone

/-- Segments written at the attached receiver furthest ahead. -/
def RollerXfer.lead (x : RollerXfer) : Nat := x.rcvs.foldl (fun m v => if v.attached && v.open_ then max m v.written else m) 0

/-- A receiver is at the end of the slack window. -/
def RollerXfer.lagging (x : RollerXfer) (v : Rcv) : Bool := v.attached && v.open_ && decide (x.slack ≤ x.lead - v.written)

/-- A place in Stencil BASE form as an end of a segment. -/
def State.endOf (s : State) (c w : Nat) : Option MemEnd := ((s.ctx c).base w).map fun p => p.memEnd c

/-- What comes of issuing a segment to a receiver. -/
inductive RollRes where
  | ok (s : State)
  | wait (s : State)
  deriving DecidableEq, Repr

/-- The ends of a segment can be accessed: else the Roller waits for a page, or the context faults. -/
def State.rollLook (s : State) (c : Nat) (e : MemEnd) (n : Nat) (write : Bool) : Option State :=
  match e with
  | .virt _ va =>
    match (s.ctx c).checkAll write (pagesOf va n) with
    | .ok _ => none
    | .wait v => some (s.want ⟨c, v, 3, 0xFF, write⟩)
    | .bad r v => some (s.memFault c r 3 0xFF write v)
    | .hold => some s
  | _ => none

/-- Segment g issued to receiver r: a write of this part, or a WRITE transaction to the window of another (R376, R421). -/
def State.rollSeg (s : State) (id r : Nat) (x : RollerXfer) (v : Rcv) (g : Nat × Nat × Nat) : RollRes :=
  let c := x.ctx
  match s.endOf c g.1 with
  | none => .wait s
  | some src =>
    match s.rollLook c src g.2.2 false with
    | some t => .wait t
    | none =>
      let sent := fun (t : State) => RollRes.ok (t.modRcv id r fun w => { w with sent := w.sent + 1 })
      if byteAt v.entry 2 % 16 = 0 then
        match s.endOf c (fieldLe v.entry 8 8 + g.2.1) with
        | none => .wait s
        | some dst =>
          match s.rollLook c dst g.2.2 true with
          | some t => .wait t
          | none =>
            let seg : Seg :=
              { issuer := .roller id r, die := s.segDie src dst, rsv := false, runahead := false, src := src, dst := dst, len := g.2.2
                data := [], bank := s.segBank src dst }
            match s.issueSeg seg with
            | some t => sent t
            | none => .wait s
      else
        let p := s.getEnd src g.2.2
        match p.2.sendTxn (.roller id r) c 1 (fieldLe v.entry 0 2) (fieldLe v.entry 4 4) (fieldLe v.entry 8 8 + g.2.1) g.2.2 p.1 [] 1 (0, 0) with
        | .sent t => sent t
        | .wait => .wait s
        | .fail st t => .ok (t.modRcv id r fun w => { w with fail := some st })

/-- A segment to each of some receivers, or to none of them. -/
def State.rollSegs (s : State) (id : Nat) (x : RollerXfer) (g : Nat × Nat × Nat) : List (Nat × Rcv) → RollRes
  | [] => .ok s
  | (r, v) :: rs => match s.rollSeg id r x v g with
    | .ok t => t.rollSegs id x g rs
    | .wait t => .wait t

/-- The receivers with their numbers. -/
def RollerXfer.numbered (x : RollerXfer) : List (Nat × Rcv) := (List.range x.rcvs.length).filterMap fun r => (x.rcvs[r]?).map fun v => (r, v)

/-- Each detached receiver is sent its next segment from the source (R377). -/
def State.rollReplay (s : State) (id : Nat) (x : RollerXfer) : List (Nat × Rcv) → State
  | [] => s
  | (r, v) :: rs =>
    if !v.attached && v.open_ then
      match x.segs[v.sent]? with
      | some g => (match s.rollSeg id r x v g with | .ok t => t | .wait t => t).rollReplay id x rs
      | none => s.rollReplay id x rs
    else s.rollReplay id x rs

/-- The next segment goes to every attached receiver, while all are within SLACK (R376). -/
def State.rollCast (s : State) (id : Nat) (x : RollerXfer) : State :=
  let live := x.numbered.filter fun e => e.2.attached && e.2.open_
  match x.segs[x.issued]? with
  | none => s
  | some g =>
    let upd := fun (t : State) (f : RollerXfer → RollerXfer) => match mfind t.mem.rollers id with
      | some y => { t with mem := { t.mem with rollers := mput t.mem.rollers id (f y) } }
      | none => t
    if live.isEmpty then s
    else if x.rcvs.any x.lagging then upd s fun y => { y with waitingSince := some (y.waitingSince.getD s.now) }
    else match s.rollSegs id x g live with
      | .ok t => upd t fun y => { y with issued := y.issued + 1, waitingSince := none }
      | .wait t => if t.mem.segs.length = s.mem.segs.length then t else s

/-- ROLLER_SEGMENT_ISSUE (R376, R377): while its context runs, the transfer goes on for its detached and its attached receivers. -/
def execRollerSegmentIssue (id : Nat) (s : State) : Out :=
  .next (match mfind s.mem.rollers id with
    | none => s
    | some x =>
      if (s.ctx x.ctx).st = .running then
        let s1 := s.rollReplay id x x.numbered
        match mfind s1.mem.rollers id with
        | some y => (s1.rollCast id y).progress x.ctx
        | none => s1
      else s)

/-- ROLLER_DETACH (R376, R377): the Roller has waited SLACK × SEG_NS on receivers at the window. -/
def execRollerDetach (id t : Nat) (s : State) : Out :=
  let s0 := s.at t
  .next (match mfind s0.mem.rollers id with
    | none => s0
    | some x => match x.waitingSince with
      | none => s0
      | some w =>
        if w + x.slack * x.segNs ≤ t then
          let n := ((s0.ctx x.ctx).auOf x.lau).getD 0xFF
          let s1 := (x.numbered.filter fun e => x.lagging e.2).foldl (fun u e =>
            ((u.modRcv id e.1 fun v => { v with attached := false }).flagCount MEM_STATUS 3 MEM_EVT_CNT0 15 0).raise 0x0320 (.ctx x.ctx)
              [(0, 1, n), (2, 2, e.1), (4, 4, e.2.written)]) s0
          match mfind s1.mem.rollers id with
          | some y => { s1 with mem := { s1.mem with rollers := mput s1.mem.rollers id { y with waitingSince := none } } }
          | none => s1
        else s0)

/-! ## The end (R374, R378, R379) -/

/-- ROLLER_DELIVERY (R374): every piece is in place at receiver r, so its STATUS is written and a LOCAL one's flag is set. -/
def execRollerDelivery (id r : Nat) (s : State) : Out :=
  .next (match mfind s.mem.rollers id with
    | none => s
    | some x => match x.rcvs[r]? with
      | none => s
      | some v =>
        let c := x.ctx
        if v.status = .pending ∧ v.written = x.segs.length ∧ !s.mboxFull c then
          s.hubNeeds c [(x.rlist + 16 * r, 16)] true fun s0 =>
            let s1 := (s0.modRcv id r fun w => { w with status := if v.attached then .done else .replayed }).putRcvStatus x r v
              (if v.attached then 1 else 2)
            (if byteAt v.entry 2 % 16 = 0 then s1.deliverFlag c (byteAt v.entry 3) true else s1).progress c
        else s)

/-- ROLLER_RCV_FAILED (R378). -/
def execRollerRcvFailed (id r : Nat) (s : State) : Out :=
  .next (match mfind s.mem.rollers id with
    | none => s
    | some x => match (x.rcvs[r]?).bind (·.fail) with
      | some st => s.hubNeeds x.ctx [(x.rlist + 16 * r, 16)] true fun s0 => (s0.failRcv id r st).progress x.ctx
      | none => s)

/-- ROLLER_COMPLETE (R379): every receiver is DONE, DONE_REPLAYED or FAILED. -/
def execRollerComplete (id : Nat) (s : State) : Out :=
  .next (match mfind s.mem.rollers id with
    | none => s
    | some x =>
      if x.rcvs.all fun v => v.status != .pending then
        { s with mem := { s.mem with rollers := mdel s.mem.rollers id } }.progress x.ctx
      else s)

end Sys2Proof.Machine
end

