-- ==== Sys2Proof/Machine/Run.lean ====
section
/-!
DEFINITION. RUN (R493), the start of an operation whose flag test succeeds (R139), the deadlock monitor (R517, R518) and the
slowdown against the solo baseline (R519, R520).
-/
namespace Sys2Proof.Machine

/-! ## RUN -/

/-- The exit address: the start of the highest 2 MiB page, from page p down, that the context does not map. -/
def Ctx.exitFrom (x : Ctx) : Nat → Nat → Nat
  | 0, p => frameBytes * p
  | n + 1, p =>
    match x.pte p with
    | none => frameBytes * p
    | some (k, _) => x.exitFrom n (k - 1)

/-- The exit address of a RUN (R493 step 2). -/
def Ctx.pickExit (x : Ctx) : Nat := x.exitFrom (x.pt.length + 1) (2 ^ 31 - 1)

/-- A control core set to a logical AU's entry point, with ARG in a0 and the exit address in ra. -/
def CoreSt.launch (k : CoreSt) (entry arg exit : Nat) : CoreSt :=
  { k with
    running := true, finished := false, pc := BitVec.ofNat 64 entry, wait := .none, loops := [], resv := none
    x := mset 0 (mset 0 k.x 10 (BitVec.ofNat 64 arg)) 1 (BitVec.ofNat 64 exit) }

/-- Where logical AU l of a program begins. -/
def Program.entryVa (p : Program) (l : Nat) : Nat :=
  p.imageVa + p.codeOff + (match p.laus[l]? with | some r => r.entry | none => 0)

/-- Every logical AU starts at its entry point (R493 step 3). -/
def State.launchAll (s : State) (c arg : Nat) : State :=
  match (s.ctx c).prog with
  | none => s
  | some p =>
    let exit := (s.ctx c).pickExit
    (s.ctxAus c).foldl (fun t e => t.modAu e.2 fun a => { a with core := a.core.launch (p.entryVa e.1) arg exit })
      (s.modCtx c fun x => { x with exitVa := exit })

/-- CTX_COAT_BASE is latched (R219), and at the first RUN after LOAD_PROGRAM the key of the streams is written (R240). -/
def State.runCoat (s : State) (c : Nat) : State :=
  let s1 := s.modCtx c fun x => { x with coat := { x.coat with base := s.coatBase c, checked := false, hdr := none } }
  if (s1.ctx c).coat.keyed then s1
  else match s1.streamVa c with
    | none => s1
    | some va =>
      (s1.vpoke c va (natLe 8 (s1.seedKey c))).modCtx c fun x => { x with coat := { x.coat with keyed := true } }

/-- The context keeps the securing table as it is read at the RUN. -/
def State.keepDust (s : State) (c : Nat) : State :=
  let r := s.readDust c
  s.modDust c fun d => { d with table := r.table, closing := none, stage := 0, stepEnds := [], groupReq := false }

/-- The securing table is read (R526); a bad one faults the context (R527). -/
def State.runDust (s : State) (c : Nat) (go : State → State) : State :=
  let s1 := s.keepDust c
  match (s.readDust c).bad with
  | some (reason, entry) => s1.faultCtx c 0x060B 0xFF [(0, 1, reason), (4, 4, entry)]
  | none => go s1

/-- The context keeps the Trowel tables as they are read at the RUN. -/
def State.keepTrowel (s : State) (c : Nat) : State :=
  let r := s.trwTables c
  s.modCtx c fun x => { x with trwGroups := r.groups, mats := r.mats }

/-- The Trowel tables are read (R302, R311); a bad one faults the context (R303). -/
def State.runTrowel (s : State) (c : Nat) (go : State → State) : State :=
  let s1 := s.keepTrowel c
  match (s.trwTables c).bad with
  | some (table, entry) =>
    (s1.flagCount (TRW_STATUS c) 5 (TRW_EVT_CNT1 c) 7 0).faultCtx c 0x02B1 0xFF [(0, 1, table), (4, 4, entry)]
  | none => go s1

/-- A RUN is accepted: the context is RUNNING, and its coat base is latched. -/
def State.runBegins (s : State) (c k : Nat) : State :=
  let s1 := ((s.setPhase c k (.underway 0 0)).enter c .running).modCtx c fun x =>
    { x with runNs := 0, runStart := s.now, progressAt := s.now }
  s1.runCoat c

/-- A RUN that is accepted reads its tables and starts the logical AUs. -/
def State.runStarts (s : State) (c k arg : Nat) : State :=
  (s.runBegins c k).runTrowel c fun s2 => s2.runDust c fun s3 => s3.launchAll c arg

/-- The record that the part writes at a RUN, and the coat table that names it. -/
def State.coatRanges (s : State) (c : Nat) : List (Nat × Nat) × List (Nat × Nat) :=
  let w := s.coatBase c
  if w = 0 then ([], [])
  else match (s.ctx c).baseVa w with
    | none => ([], [])
    | some va =>
      ([(va, 64)], if (s.ctx c).coat.keyed then []
        else match (s.ctx c).baseVa (fieldLe (s.vpeek c va 40) 32 8) with | some r => [(r, 32)] | none => [])

/-- RUN (R493): accepted only in READY. The tables that it reads are there before anything else happens. -/
def execRun (c : CtxId) (k : Nat) (s : State) : Out :=
  .next (s.onCmd c k 0x02 fun cmd =>
    if cmd.phase ≠ .started then s
    else if !zeroIn cmd.desc 4 8 || !zeroIn cmd.desc 16 64 then s.complete c k 0x02 0
    else if (s.ctx c).st ≠ .ready then s.complete c k 0x05 0
    else
      let r := s.coatRanges c
      s.hubNeeds c (s.trwRanges c ++ s.dustRanges c ++ r.1) false fun s1 =>
        s1.hubWrites c r.2 fun s2 => s2.runStarts c k (fieldLe cmd.desc 8 8))

/-! ## WEN (R139) -/

/-- OP_START_AFTER_WAIT (R139): the next operation of a unit, which has WEN set, starts as its flag test succeeds; WCLR clears the
flag. -/
def execOpStartAfterWait (a : AuId) (u : UnitId) (s : State) : Out :=
  .next (match u.val with
    | 0 => s.startCompute a true
    | 1 => s.startLoad a true
    | 2 => s.startDrain a true
    | 3 => s.startScreed a true none
    | 4 => s.startTrowel a true none
    | _ => ((s.startMove a true 0).startMove a true 1).startMove a true 2)

/-! ## The deadlock monitor (R517, R518) -/

/-- The flag that the head of an engine's FIFO waits on. -/
def State.headFlag (s : State) (c : Nat) (a : Au) (e : Nat) : Option Nat :=
  match a.fifo e with
  | op :: _ => if opWen op.word && !s.flagTest c op.word then some (opFlag op.word) else none
  | [] => none

/-- The flags that agents of an AU wait on. -/
def State.flagsWaited (s : State) (c : Nat) (a : Au) : List Nat :=
  (match a.core.wait with | .flag f => [f] | _ => []) ++ (List.range 4).filterMap fun e => s.headFlag c a e

/-- Agents of an AU that wait on a slot tag. -/
def Au.tagWaiters (a : Au) : Nat := (a.stns.filter fun e => e.2.waitSlot.isSome).length + b2n a.moveWait.isSome

/-- A wait on a flag that an OPEN window of the context names (R506). -/
def State.remoteFlag (s : State) (c f : Nat) : Bool :=
  s.links.windows.any fun e => e.2.ctx == c && e.2.st == .open_ && e.2.flagEn && e.2.flag == f

/-- A wait on a semaphore that another context holds. -/
def State.semElsewhere (s : State) (c : Nat) (a : Au) : Bool :=
  match a.core.wait with
  | .sem n => (match (s.sem n).holder with | some h => h != c | none => false)
  | _ => false

/-- Something of the context is in flight (R517 condition 4); a write that waits for a shadow frame counts (R538). -/
def State.inFlight (s : State) (c : Nat) : Bool :=
  let aus := (s.ctxAus c).map (·.2)
  let rl := (s.mem.rollers.filter fun e => e.2.ctx == c).map (·.1)
  let x := s.ctx c
  s.mem.segs.any (fun e => e.2.isOf c aus rl) || s.links.txns.any (fun e => e.2.ctx == c) || !x.linkWork.isEmpty || !rl.isEmpty
    || x.ring.cmds.any (fun d => byteAt d.desc 0 == 0x0D && d.phase != .started) || s.mem.pageIns.any (fun p => p.ctx == c)
    || !x.mbox.isEmpty || (x.dust.securing.isSome && x.dust.reserve.isEmpty)

/-- Conditions 2 to 4 of R517 hold. -/
def State.deadlocked (s : State) (c : Nat) : Bool :=
  let aus := (s.ctxAus c).map fun e => s.au e.2
  let flags := aus.flatMap fun a => s.flagsWaited c a
  (!flags.isEmpty || aus.any fun a => a.tagWaiters != 0) && !(flags.any fun f => s.remoteFlag c f)
    && !(aus.any fun a => a.trowel.late.isSome || s.semElsewhere c a) && !s.inFlight c

/-- The core's wait as the snapshot codes it, and the flag or semaphore. -/
def CoreWait.code : CoreWait → Nat × Nat
  | .none => (0, 0)
  | .flag f => (1, f)
  | .stnWait => (2, 0)
  | .sem n => (3, n)
  | _ => (4, 0)

/-- One record of the snapshot (R518). `open_` stands where no Stencil waits on a tag. -/
def State.waitRecord (s : State) (l n open_ : Nat) : List Byte :=
  let a := s.au n
  let w := a.core.wait.code
  let ts := a.stns.filterMap fun e => e.2.waitSlot.map fun v => (e.1, v.1)
  layOut 16 [(0, 1, l), (1, 1, n), (2, 1, w.1), (3, 1, w.2), (8, 2, ts.foldl (fun m e => m + 2 ^ e.1) 0),
    (10, 2, match ts with | [] => open_ % 65536 | e :: _ => e.2),
    (4, 4, leNat ((List.range 4).map fun e => BitVec.ofNat 8 (match (a.fifo e) with
      | op :: _ => if opWen op.word then opFlag op.word else 0xFF
      | [] => 0xFF)))]

/-- The wait-for snapshot (R518), where CTX_DIAG names an address. -/
def State.waitSnapshot (s : State) (c : Nat) : State :=
  if s.rbit (CTX_DIAG_LO c) 0 then
    let p := s.pick
    let aus := s.ctxAus c
    let addr := 64 * (s.reg64 (CTX_DIAG_LO c) (CTX_DIAG_HI c) / 64)
    p.2.hostWrite (s.ctxPort c) addr
      (layOut 64 [(0, 2, aus.length), (8, 8, s.now)] ++ aus.flatMap fun e => s.waitRecord e.1 e.2 (Config.keyed 13 p.1 e.1))
  else s

/-- CTX_DEADLOCK (R517): the context is torn down. -/
def State.deadlock (s : State) (c : Nat) : State :=
  let aus := (s.ctxAus c).map fun e => s.au e.2
  let flags := aus.flatMap fun a => s.flagsWaited c a
  let agents := flags.length + (aus.foldl (fun n a => n + a.tagWaiters) 0)
  let w := s.rbit (CTX_DIAG_LO c) 0
  (((s.waitSnapshot c).flagCount (CTX_SCHED_STATUS c) 1 (CTX_SCHED_EVT_CNT c) 31 24).faultCtx c 0x0901 0xFF
    [(0, 2, agents), (2, 1, flags.foldl min 0xFF), (3, 1, b2n w)])

/-- DEADLOCK_WINDOW_EXPIRY (R517): the window has passed without progress, and the conditions hold. -/
def execDeadlockWindowExpiry (c : CtxId) (t : Nat) (s : State) : Out :=
  let s1 := s.at t
  .next (if (s1.ctx c).st = .running ∧ cyclesNs (2 ^ s1.fld (CTX_SCHED c) 20 16) ≤ s1.now - (s1.ctx c).progressAt ∧ s1.deadlocked c
    then s1.deadlock c else s1)

/-! ## Slowdown (R519, R520) -/

/-- RUN_NS of a context, with the time since it entered RUNNING. -/
def State.runTotal (s : State) (c : Nat) : Nat :=
  let x := s.ctx c
  (s.reg64 (CTX_RUN_NS_LO c) (CTX_RUN_NS_HI c) + (if x.st = .running then s.now - x.runAt else 0)) % 2 ^ 64

/-- 256 · run / (run − intf), saturating (R520). -/
def slowdown (run intf : Nat) : Nat := if run ≤ intf then 0xFFFF else min 0xFFFF (256 * run / (run - intf))

/-- The window's shares of the resource kinds, in units of 1/255. -/
def shares (ks : List Nat) : List Nat :=
  let total := ks.foldl (· + ·) 0
  ks.map fun k => if total = 0 then 0 else 255 * k / total

/-- SLOWDOWN_WINDOW_END (R520): `intf` is the INTF_NS of the window by resource kind, in the order of R519. -/
def execSlowdownWindowEnd (c : CtxId) (intf : List Nat) (t : Nat) (s : State) : Out :=
  let s1 := s.at t
  let x := s1.ctx c
  if s1.now - x.slowAt < 10000000 then .next s1
  else
    let ks := (intf ++ List.replicate 6 0).take 6
    let sum := ks.foldl (· + ·) 0
    let total := s1.runTotal c
    let run := (total + 2 ^ 64 - x.slowRun) % 2 ^ 64
    let s2 := (s1.setReg64 (CTX_INTF_NS_LO c) (CTX_INTF_NS_HI c)
      ((s1.reg64 (CTX_INTF_NS_LO c) (CTX_INTF_NS_HI c) + sum) % 2 ^ 64)).modCtx c fun y => { y with slowAt := s1.now, slowRun := total }
    if run = 0 then .next s2
    else
      let v := slowdown run sum
      let s3 := (s2.setFld (CTX_SLOWDOWN c) 15 0 v).setFld (CTX_SLOWDOWN c) 31 16 (max v (s2.fld (CTX_SLOWDOWN c) 31 16))
      let due := match x.slowRaised with | none => true | some r => decide (r + 1000000000 ≤ s1.now)
      if s3.fld CTX_SLOW_CTL 31 16 ≤ v ∧ due = true then
        let sh := shares ks
        .next (((s3.modCtx c fun y => { y with slowRaised := some s1.now }).setFld (CTX_SCHED_STATUS c) 4 4 1).raise 0x0909 (.ctx c)
          ((0, 2, v) :: (List.range 6).map fun i => (2 + i, 1, sh.getD i 0)))
      else .next s3

end Sys2Proof.Machine
end

