-- ==== Sys2Proof/Machine/Registers.lean ====
section
/-!
DEFINITION. Accesses through BAR0 and BAR4 (16_reference.md, 11_host.md): where an offset leads and who may read or write there
(R447, R448, R677 to R682), what a register reads as, what reading and writing change (R666 to R676), and the window of R452.
-/
namespace Sys2Proof.Machine

/-! ## Where an offset leads -/

/-- A register as an access finds it: its offset in the map of a PF, its key in the register file, whether the accessing function may
write it, and whether its write sets DENIED (R448). -/
structure RegAt where
  off : Nat
  key : Nat
  own : Bool
  deny : Bool
  deriving DecidableEq, Repr

/-- What stands at an offset: nothing that the function can see; a constant; the set-up page of a VF's empty slot; or a register. -/
inductive Target where
  | nothing
  | const (v : Nat)
  | emptySlot (j o : Nat)
  | reg (r : RegAt)
  deriving DecidableEq, Repr

/-- Offset o of the set-up page of context c, its aliases resolved (Table 16.2). -/
def pageOff (c o : Nat) : Nat :=
  if 0x600 ≤ o ∧ o < 0x700 then 0x600000 + 0x100 * c + (o - 0x600)
  else if 0x700 ≤ o ∧ o < 0x800 then 0x700000 + 0x100 * c + (o - 0x700)
  else if 0x800 ≤ o ∧ o < 0x900 then 0x680000 + 0x100 * c + (o - 0x800)
  else if 0x900 ≤ o ∧ o < 0xA00 then 0xE10000 + 0x100 * c + (o - 0x900)
  else if 0xA00 ≤ o ∧ o < 0xB00 then 0xC50000 + 0x100 * c + (o - 0xA00)
  else 0x200000 + 0x1000 * c + o

/-- A register of context c: the owner's; of a FREE context any PF can read it (R447). -/
def State.ctxReg (s : State) (f c off : Nat) : Target :=
  if s.owns f c then .reg ⟨off, off, true, false⟩
  else if (s.ctx c).st = .free ∧ fnIsPf f then .reg ⟨off, off, false, false⟩
  else .nothing

/-- The windows of contexts in the map of a PF (Table 16.1), the scheduler's, security's and solver's registers aside: the context that
a window belongs to. -/
def windowCtx (off : Nat) : Option Nat :=
  let w := fun b => if b ≤ off ∧ off < b + 0x4000 then some ((off - b) / 0x100) else none
  (w 0x600000).or ((w 0x680000).or ((w 0x700000).or ((w 0xC50000).or (w 0xE10000))))

/-- What an offset of BAR0 leads PF f to (Table 16.1). -/
def State.pfTarget (s : State) (f off : Nat) : Target :=
  let mine := fun (b : Bool) => Target.reg ⟨off, off, b, false⟩
  if 0x200000 ≤ off ∧ off < 0x240000 then s.ctxReg f ((off - 0x200000) / 0x1000) (pageOff ((off - 0x200000) / 0x1000) (off % 0x1000))
  else match windowCtx off with
  | some c => s.ctxReg f c off
  | none =>
    if (specAt off).isEmpty then .nothing
    else if off = 0x10 ∨ (0x100 ≤ off ∧ off < 0x110) ∨ (0xF0000 ≤ off ∧ off < 0xF8010) ∨ (0x800000 ≤ off ∧ off < 0x8C0000 ∧ off % 0x1000 = 0x328) then
      .reg ⟨off, privBase f + off, true, false⟩
    else if 0x100000 ≤ off ∧ off < 0x200000 then mine (fnPort f == (off - 0x100000) / 0x80000)
    else if 0x300000 ≤ off ∧ off < 0x302000 then
      let g := (off - 0x300000) / 0x100
      if fnPort g = fnPort f then mine (g == f) else .nothing
    else if 0x501000 ≤ off ∧ off < 0x501200 then mine (fnPort f == (off - 0x501000) / 0x100)
    else .reg ⟨off, off, f == s.adminPf, f != s.adminPf⟩

/-- VF_SLOTj (Table 11.20). -/
def State.vfSlot (s : State) (f j : Nat) : Nat := match s.slotCtx f j with | some c => 2 ^ 31 + c | none => 0

/-- What an offset of BAR0 leads VF f to (Table 16.6). -/
def State.vfTarget (s : State) (f off : Nat) : Target :=
  let priv := fun o => Target.reg ⟨o, privBase f + o, true, false⟩
  if off = 0 then .const 0x1F2C4803
  else if off = 4 then .const f
  else if off = 8 ∨ off = 0xC then .const (s.reg (off - 4))
  else if off = 0x10 then priv 0x10
  else if 0x40 ≤ off ∧ off < 0x80 then .const (s.vfSlot f ((off - 0x40) / 4))
  else if 0x100 ≤ off ∧ off < 0x118 then
    let o := 0x300000 + 0x100 * f + (off - 0x100)
    .reg ⟨o, o, true, false⟩
  else if 0x200 ≤ off ∧ off < 0x210 then priv (off - 0x100)
  else if 0x1000 ≤ off ∧ off < 0x11000 then
    let j := off / 0x1000 - 1
    match s.slotCtx f j with
    | some c => s.ctxReg f c (pageOff c (off % 0x1000))
    | none => .emptySlot j (off % 0x1000)
  else if 0x18000 ≤ off ∧ off < 0x18110 then priv (0xF0000 + (off - 0x18000))
  else if 0x19000 ≤ off ∧ off < 0x19008 then priv (0xF8000 + (off - 0x19000))
  else .nothing

/-- The offsets of a PF that answer before the firmware is ready (R620). -/
def earlyOff (off : Nat) : Bool :=
  off == 0 || off == 4 || off == 8 || (decide (0x500000 ≤ off) && decide (off < 0x500010))
    || (decide (0x500040 ≤ off) && decide (off < 0x500050))

/-- What an offset leads function f to; before the firmware is ready little answers. -/
def State.target (s : State) (f off : Nat) : Target :=
  if fnIsPf f then (if s.barUp ∨ earlyOff off then s.pfTarget f off else .nothing)
  else if s.barUp then s.vfTarget f off else .nothing

/-! ## What registers read as -/

/-- Some register with a key in [a, b) has a W1C bit set. -/
def State.w1cIn (s : State) (a b : Nat) : Bool :=
  s.regs.any fun e => decide (a ≤ e.1) && decide (e.1 < b) && specW1c (regSpec e.1) e.2.toNat

/-- A W1C bit is set in the set-up page or a window of context c. -/
def State.ctxW1c (s : State) (c : Nat) : Bool :=
  s.w1cIn (0x200000 + 0x1000 * c) (0x201000 + 0x1000 * c)
    || [0x600000, 0x680000, 0x700000, 0xC50000, 0xE10000].any fun b => s.w1cIn (b + 0x100 * c) (b + 0x100 * c + 0x100)

/-- HUB_STATUS of function f (Table 16.5), and VF_STATUS (R682). -/
def State.hubStatus (s : State) (f v : Nat) : Nat :=
  let ctx := (s.summaryCtxs f).any s.ctxW1c
  let common := v + 2 ^ 8 * b2n s.fwUp + b2n ctx * 4
  if fnIsPf f then
    common + 2 ^ 7 * b2n (s.w1cIn 0x800000 0x8C0000) + 2 ^ 6 * b2n (s.reg MEM_STATUS != 0)
      + 2 ^ 5 * b2n (s.reg LNK_STATUS != 0 || (List.range 16).any fun p => s.reg (LNK_PORT_FLAGS p) != 0)
      + 2 ^ 4 * b2n (s.fld PWR_STATUS 6 0 != 0) + 2 ^ 3 * b2n (s.reg SEC_STATUS != 0)
      + b2n (s.reg (PCIE_PORT_FLAGS (fnPort f)) != 0) * 2
  else common

/-- PCIE_PORT_STATUS (Table 11.15). IDE_SECURE speaks of the Link IDE stream, which is stream 0. -/
def State.portStatus (s : State) (p : Nat) : Nat :=
  let x := s.port p
  2 ^ 20 * x.numVfs + 2 ^ 15 * b2n x.dlUp + 2 ^ 14 * b2n x.flit + 2 ^ 11 * (x.speed % 8) + 2 ^ 6 * (x.width % 32)
    + b2n (x.ide.any fun i => i.num == 0 && i.secure) * 2 + b2n (s.adminPort == p)

/-- Registers of the HUB and PCIE blocks that are computed: f reads, v is what the register file holds. -/
def State.hubValue (s : State) (f off v : Nat) : Nat :=
  if off = 0xC then v + 2 ^ 8 * b2n (f == s.adminPf)
  else if off = 0x10 then s.hubStatus f v
  else if off = 0x14 then s.now % 2 ^ 32
  else if off = 0x18 then s.now / 2 ^ 32 % 2 ^ 32
  else if off = 0x1C then ((List.range 64).filter fun c => (s.ctx c).st == .free).length
  else if off = 0x100000 then s.portStatus 0
  else if off = 0x180000 then s.portStatus 1
  else v

/-- CTX_STATE (Table 12.9); CREATE_FAIL of a slot page is that of the slot. -/
def State.ctxStateReg (s : State) (c : Nat) : Nat :=
  let x := s.ctx c
  let e := s.eprio c
  let fail := match x.owner, x.slot with | some f, some j => (s.fn f).createFail.contains j | _, _ => false
  2 ^ 24 * (x.nLaus % 256) + 2 ^ 16 * x.owner.getD 0xFF + 2 ^ 13 * e + 2 ^ 12 * b2n (decide (s.prio c < e)) + 2 ^ 11 * b2n fail
    + 2 ^ 10 * b2n (x.ring.cmds.any fun d => byteAt d.desc 0 == 2) + 2 ^ 8 * x.cause.code + x.st.code

/-- The placement word that CTX_PLACE_SEL names (Table 12.10). -/
def State.placeReg (s : State) (c : Nat) : Nat :=
  (s.ctx c).placeWord (2 ^ 60 * s.fld (CTX_PLACE_SEL c) 31 28 + s.fld (CTX_PLACE_SEL c) 11 0)

/-- Registers of a set-up page that are computed. -/
def State.ctxValue (s : State) (c o v : Nat) : Nat :=
  let r := (s.ctx c).ring
  if o = 0x014 then 2 ^ 16 * r.cplTail.toNat + r.cmdHead.toNat
  else if o = 0x018 then v + 2 ^ 16 * r.cmds.length
  else if o = 0x024 then 2 ^ 16 * r.cplHead.toNat + r.cmdTail.toNat
  else if o = 0x104 then s.ctxStateReg c
  else if o = 0x110 then s.placeReg c % 2 ^ 32
  else if o = 0x114 then s.placeReg c / 2 ^ 32
  else if o = 0x118 then v + (s.ctx c).mbox.length
  else if o = 0x12C then s.runTotal c % 2 ^ 32
  else if o = 0x130 then s.runTotal c / 2 ^ 32
  else v

/-- The semaphore that CTX_SEM_SEL names. -/
def State.selSem (s : State) : Sem := s.sem (s.fld CTX_SEM_SEL 7 0)

/-- Scheduler registers that are computed (Table 12.12). -/
def State.schedValue (s : State) (o v : Nat) : Nat :=
  let x := s.selSem
  if o = 0x004 then x.mask % 2 ^ 32
  else if o = 0x008 then x.mask / 2 ^ 32 % 2 ^ 32
  else if o = 0x00C then 2 ^ 31 * b2n x.holder.isSome + 2 ^ 24 * (x.holder.getD 0 % 64) + 2 ^ 16 * (x.waiters.length % 128)
  else v

/-- Power registers that are computed (Tables 14.20, 14.21). -/
def State.pwrValue (s : State) (o v : Nat) : Nat :=
  let e := s.energy (s.fld PWR_ENERGY_SEL 10 8) (s.fld PWR_ENERGY_SEL 7 0)
  let d := s.fld PWR_DOMAIN_SEL 4 0
  if o = 0x020 then 2 ^ 16 * (mget 0 s.power.mv d % 1024) + mget 0 s.power.mhz d % 2048
  else if o = 0x034 then e % 2 ^ 32
  else if o = 0x038 then e / 2 ^ 32 % 2 ^ 32
  else v

/-- Trowel registers that are computed (Table 8.18). -/
def State.trwValue (s : State) (c o v : Nat) : Nat :=
  let g := s.fld (TRW_ETA_SEL c) 7 0
  let cur := s.etaOf c g
  let nxt := mfind (s.ctx c).eta.next g
  if o = 0x34 then (if s.rbit (TRW_ETA_SEL c) 8 then nxt.getD 0 else cur.getD 0)
  else if o = 0x38 then b2n nxt.isSome * 2 + b2n cur.isSome
  else v

/-- Pages of the securing under way that are not yet copied (R539). -/
def DustSt.notCopied (d : DustSt) : Nat :=
  match d.securing with
  | some x => (x.marks.filter fun m => match m with | .pending => true | .shadow _ _ _ => true | _ => false).length
  | none => 0

/-- Dust registers that are computed (Table 13.14). -/
def State.dstValue (s : State) (c o v : Nat) : Nat :=
  let d := (s.ctx c).dust
  if o = 0x40 then d.notCopied
  else if o = 0x50 then d.reserveAll.length - d.reserve.length
  else v

/-- BUSY of AU_ARRAY_STATUS aside, which r leaves open for the quadrants of the operation in the pipeline; the rest of it (Table 2.14). -/
def Au.arrayStatus (a : Au) (r : Nat) : Nat :=
  let busy := match a.act 0 with | some op => Nat.land r (cQmask op.word) | none => 0
  let quad := fun q =>
    let x := a.array.quad q
    let sh := if x.loading == some (!x.activeB) then 1
      else if a.waitingBefore 0 a.nextSeq fun w => opKind w == 1 && bit (bits w 47 44) q then 2 else 0
    2 ^ (2 * q + 8) * sh + 2 ^ (q + 4) * b2n x.activeB
  let act := fun u => (a.act u).isSome
  2 ^ 16 * (busy % 16) + quad 0 + quad 1 + quad 2 + quad 3 + b2n (act 2) * 8 + b2n (act 1) * 4
    + b2n (!(act 0 || act 1 || act 2) && (a.fifo 0).isEmpty)

/-- Bits of the Stencil slots that satisfy p. -/
def Au.stnBits (a : Au) (p : StnSlot → Bool) : Nat :=
  (a.stns.filter fun e => p e.2).foldl (fun n e => n + 2 ^ (e.1 % 16)) 0

/-- Slot tags in a state. -/
def Au.tagCount (a : Au) (t : TagState) : Nat := (a.tags.filter fun e => e.2.st == t).length

/-- Registers of the window of AU n that are computed (Tables 2.14, 4.13 to 4.18, 5.8 to 5.14, 14.21, 16.5). -/
def State.auValue (s : State) (f n o v : Nat) : Nat :=
  let a := s.au n
  let lvl := fun e => (a.fifo e).length % 128
  let q := fun k => (a.queue k).data.length % 2 ^ 14
  if o = 0x000 then 2 ^ 23 * (n / 96) + 2 ^ 20 * (n % 96 / 12) + 2 ^ 16 * (n % 12) + n
  else if o = 0x200 then 2 ^ 24 * lvl 3 + 2 ^ 16 * lvl 2 + 2 ^ 8 * lvl 1 + lvl 0
  else if 0x204 ≤ o ∧ o < 0x230 then 2 ^ 16 * q ((o - 0x204) / 2 + 1) + q ((o - 0x204) / 2)
  else if o = 0x23C then
    (match a.asg with | some (c, l) => 2 ^ 24 * (c % 64) + 2 ^ 16 * (l % 256) + b2n a.finished * 4 + 1 | none => 0)
      + b2n a.faulted * 8 + b2n a.core.running * 2
  else if o = 0x240 then 2 ^ 16 * a.stnBits (fun x => x.halted) + a.stnBits fun x => x.st == .active
  else if o = 0x304 then a.part % 4
  else if o = 0x314 then 2 ^ 16 * a.tagCount .filling + a.tagCount .full
  else if o = 0x320 then 2 ^ 16 * (a.shHeld % 2 ^ 16) + a.rsvHeld % 32
  else if o = 0x324 then 2 ^ 16 * (6656 - s.sharedUsed (auDie n)) + a.raHeld % 2 ^ 16
  else if o = 0x32C ∨ (0x340 ≤ o ∧ o < 0x380) then s.hawkDebug f n o
  else if o = 0x500 then 2 ^ 24 * (mget 0 s.power.tAu n % 256) + mget 0 s.power.mhz (domainOf n) % 2048
  else v

/-- The number of a link port's state (Table 10.3). -/
def PortState.code : PortState → Nat
  | .disabled => 0 | .training => 1 | .up => 2 | .down => 3 | .fenced => 4 | .test => 5

/-- Registers of a link port's window that are computed (Tables 10.15, 10.17). -/
def State.lportValue (s : State) (p o v : Nat) : Nat :=
  let x := s.lport p
  if o = 0x004 then 16 * (x.lanesOk % 16) + x.state.code
  else if o = 0x008 then 2 ^ 16 * (x.partnerPort % 16) + x.partner % 2 ^ 16
  else if o = 0x01C then (s.links.txns.filter fun e => e.1 / 4096 == p).length
  else if o = 0x020 then rxShared - sharedOf x.rxUsed
  else v

/-- Global link registers that are computed (Tables 10.18, 10.19). -/
def State.lnkValue (s : State) (o v : Nat) : Nat :=
  if o = 0x14 then mget 0 s.links.routes (s.fld LNK_RT_SEL 15 0)
  else if o = 0x20 then (s.links.windows.filter fun e => e.2.st != .closed).length
  else v

/-- The distinct numbers of a list. -/
def distinct : List Nat → List Nat
  | [] => []
  | x :: xs => if xs.contains x then distinct xs else x :: distinct xs

/-- LNK_CTX_TXN (Table 10.21). -/
def State.ctxTxn (s : State) (c : Nat) : Nat :=
  let ts := s.links.txns.filter fun e => e.2.ctx == c
  2 ^ 16 * (distinct ((ts.filter fun e => e.2.holdUntil.isSome).map fun e => e.2.dst)).length + ts.length % 2 ^ 16

/-- Segments outstanding at bank b of a pseudo-channel. -/
def State.segsAt (s : State) (pc b : Nat) : Nat := (s.mem.segs.filter fun e => e.2.bank == some (48 * pc + b)).length

/-- The bank of a pseudo-channel with most outstanding segments, the lowest number on a tie. -/
def State.busiest (s : State) (pc : Nat) : Nat :=
  (List.range 48).foldl (fun b k => if s.segsAt pc b < s.segsAt pc k then k else b) 0

/-- MEM_PC_LVL (Table 9.19). -/
def State.pcLevel (s : State) : Nat :=
  let pc := 32 * s.fld MEM_PC_SEL 8 5 + s.fld MEM_PC_SEL 4 0
  let b := s.busiest pc
  2 ^ 16 * b + 2 ^ 8 * (s.segsAt pc b % 16) + (s.mem.segs.filter fun e => e.2.bank.any fun x => x / 48 == pc).length % 64

/-- Global memory registers that are computed (Tables 9.19, 9.20). -/
def State.memValue (s : State) (o v : Nat) : Nat :=
  let tags := fun d => (s.mem.segs.filter fun e => e.2.die == d).length % 2 ^ 14
  if o = 0x10 then 2 ^ 16 * tags 1 + tags 0
  else if o = 0x18 then s.pcLevel
  else if o = 0x24 then
    2 ^ 16 * (s.mem.rollers.length % 512)
      + s.mem.rollers.foldl (fun n e => n + (e.2.rcvs.filter fun r => !r.attached && r.status == .pending).length) 0 % 2 ^ 16
  else if o = 0x70 then
    2 ^ 18 * (s.mem.pageIns.length % 128) + (12 * stackFrames - (s.mem.frames.filter fun e => e.2.used || e.2.retired).length)
  else v

/-- The context's memory window: MEM_FRAMES is computed (Table 9.22). -/
def State.memcValue (s : State) (c o v : Nat) : Nat :=
  if o = 0x18 then (s.mem.frames.filter fun e => e.2.used && e.2.owner == some c).length else v

/-- Solver n (Table 8.19): how far its job has come is left open. -/
def State.solverValue (s : State) (n r : Nat) : Nat :=
  match s.solver[n]? with
  | some j =>
    2 ^ 31 + 2 ^ 28 * (r % 8) + 2 ^ 22 * (j.ctx % 64)
      + fieldLe (((s.ctx j.ctx).mats[j.entry]?).getD []) 0 2 % 2 ^ 12
  | none => 0

/-- What the register at offset `off` reads as for function f, from what the register file holds. -/
def State.regValue (s : State) (f off v : Nat) : Nat :=
  if off < 0x200000 then s.hubValue f off v
  else if off < 0x240000 then s.ctxValue ((off - 0x200000) / 0x1000) (off % 0x1000) v
  else if off < 0x300000 then s.schedValue (off - 0x280000) v
  else if off < 0x400000 then v
  else if off < 0x500000 then s.pwrValue (off - 0x400000) v
  else if off < 0x600000 then v
  else if off < 0x604000 then s.trwValue ((off - 0x600000) / 0x100) (off % 0x100) v
  else if off < 0x680000 then (if off = 0x608008 then s.solver.length - 2 else v)
  else if off < 0x700000 then s.dstValue ((off - 0x680000) / 0x100) (off % 0x100) v
  else if off < 0x800000 then v
  else if off < 0x8C0000 then s.auValue f ((off - 0x800000) / 0x1000) (off % 0x1000) v
  else if off < 0xC00000 then v
  else if off < 0xC40000 then s.lportValue ((off - 0xC00000) / 0x4000) (off % 0x4000) v
  else if off < 0xC50000 then s.lnkValue (off - 0xC40000) v
  else if off < 0xE00000 then (if off % 0x100 = 0xC then s.ctxTxn ((off - 0xC50000) / 0x100) else v)
  else if off < 0xE10000 then s.memValue (off - 0xE00000) v
  else s.memcValue ((off - 0xE10000) / 0x100) (off % 0x100) v

/-- Offsets, within an AU window, of the low halves of counts of cycles, which the model leaves open: WSTALL, ISSUE_STALL, TWAIT and
the Screed's STALL. -/
def auCycles : List Nat := [0x11C, 0x230, 0x318, 0x414]

/-- The register's reading with what is left open in it: counts of cycles, the place of page tables (R335), a solver's progress, and
whether a row is in an array's pipeline. -/
def State.openValue (s : State) (f off v : Nat) : Nat × State :=
  let p := s.pick
  let o := off % 0x1000
  let c := (off - 0xE10000) / 0x100
  if 0x800000 ≤ off ∧ off < 0x8C0000 ∧ (auCycles.contains o || (decide (4 ≤ o) && auCycles.contains (o - 4))) = true then (p.1 % 2 ^ 32, p.2)
  else if 0x800000 ≤ off ∧ off < 0x8C0000 ∧ o = 0x104 then ((s.au ((off - 0x800000) / 0x1000)).arrayStatus p.1, p.2)
  else if off = 0x608000 then (s.solverValue 0 p.1, p.2)
  else if off = 0x608004 then (s.solverValue 1 p.1, p.2)
  else if 0xE10000 ≤ off ∧ off < 0xE14000 ∧ off % 0x100 = 0 then
    (if (s.ctx c).st = .free then (0, s) else (2 ^ 16 * (p.1 % 2 ^ 16), p.2))
  else if 0xE10000 ≤ off ∧ off < 0xE14000 ∧ off % 0x100 = 4 then
    (if (s.ctx c).st = .free then (0, s) else (p.1 % 2 ^ 8, p.2))
  else (s.regValue f off v, s)

/-! ## Reading (R671 to R673) -/

/-- The register at an offset is the _LO half of an RO pair (R673). -/
def roLo (off : Nat) : Bool :=
  let o := off % 0x100
  if off < 0x200000 then off == 0x14
  else if off < 0x240000 then [0x110, 0x12C, 0x134, 0xD00].contains (off % 0x1000)
  else if off < 0x500000 then off == 0x400034
  else if off < 0x600000 then off == 0x501024 || off == 0x501124
  else if off < 0x604000 then o == 0x28
  else if off < 0x680000 then false
  else if off < 0x700000 then o == 0x38 || o == 0x48
  else if off < 0x800000 then o == 0x18 || o == 0x24 || o == 0x30
  else if off < 0x8C0000 then [0x114, 0x11C, 0x230, 0x318, 0x40C, 0x414, 0x508].contains (off % 0x1000)
  else if off < 0xE10000 then false
  else o == 0 || o == 8

/-- A read of a register: an RO _LO half latches the high half for the function, the next read of _HI takes the latch (R673), and RC
fields are cleared for a function that may write the register (R671, R672). -/
def State.readReg (s : State) (f : Nat) (r : RegAt) : Nat × State :=
  let latch := if 4 ≤ r.off ∧ roLo (r.off - 4) = true then mfind (s.fn f).latches (r.key - 4) else none
  match latch with
  | some h => (h, s.modFn f fun x => { x with latches := mdel x.latches (r.key - 4) })
  | none =>
    let v := s.openValue f r.off (s.reg r.key)
    let s1 :=
      if roLo r.off then
        let h := v.2.openValue f (r.off + 4) (s.reg (r.key + 4))
        h.2.modFn f fun x => { x with latches := mput x.latches r.key h.1 }
      else v.2
    (v.1, if r.own then s1.setReg r.key (specClear (specAt r.off) (s.reg r.key)) else s1)

/-- A 32-bit read of offset `off` by function f. An empty slot's page reads as a FREE context (R490). -/
def State.readWord (s : State) (f off : Nat) : Nat × State :=
  match s.target f off with
  | .nothing => (0, s)
  | .const v => (v, s)
  | .emptySlot j o =>
    (if o = 0x104 then 0xFF0000 + 2 ^ 11 * b2n ((s.fn f).createFail.contains j) else specReset (specAt (pageOff 0 o)), s)
  | .reg r => if (specAt r.off).isEmpty then (0, s) else s.readReg f r

/-- A read of BAR0 (R666): 32 bits, or 64 bits as two reads, the lower address first; any other access is refused. -/
def State.bar0Read (s : State) (f off size : Nat) : State :=
  if size = 4 ∧ off % 4 = 0 then
    let a := s.readWord f off
    { a.2 with answer := natLe 4 a.1 }
  else if size = 8 ∧ off % 8 = 0 then
    let a := s.readWord f off
    let b := a.2.readWord f (off + 4)
    { b.2 with answer := natLe 4 a.1 ++ natLe 4 b.1 }
  else { (if s.barUp then s.badAccess f else s) with answer := List.replicate size 0 }

/-- RC_READ (R671, R672). -/
def execRcRead (f : FnId) (off size : Nat) (s : State) : Out := .next (s.bar0Read f off size)

/-- LO_READ_LATCH (R673). -/
def execLoReadLatch (f : FnId) (off size : Nat) (s : State) : Out := .next (s.bar0Read f off size)

/-! ## Writing (R667 to R669) -/

/-- v no lower than a and no higher than b, in a field. -/
def clampFld (w hi lo a b : Nat) : Nat := putBits w hi lo (min b (max a (bits w hi lo)))

/-- A field that keeps its value where the one written is out of its range (R668). -/
def keepFld (ok : Bool) (old w hi lo : Nat) : Nat := if ok then w else putBits w hi lo (bits old hi lo)

/-- What a value written becomes under the outcomes that the registers' tables state, and under R668. -/
def State.adjust (s : State) (off old w : Nat) : Nat :=
  let o := off % 0x100
  let fld := fun hi lo => bits w hi lo
  if 0x100000 ≤ off ∧ off < 0x200000 then (if 0x40 ≤ o ∧ o < 0x80 then clampFld w 4 0 0 16 else w)
  else if 0x200000 ≤ off ∧ off < 0x240000 then
    let c := (off - 0x200000) / 0x1000
    (match off % 0x1000 with
    | 0x108 => clampFld (clampFld w 20 16 16 30) 2 0 0 (s.fld (CTX_FN_PRIO (s.ownerOf c)) 2 0)
    | 0x10C => keepFld (fld 31 28 < 3) old w 31 28
    | 0xF00 => clampFld w 4 0 10 30
    | _ => w)
  else if 0x600000 ≤ off ∧ off < 0x604000 then (if o = 0 then clampFld w 31 16 1 0xFFFF else w)
  else if 0x680000 ≤ off ∧ off < 0x684000 then
    (match o with
    | 0x00 => keepFld (fld 9 8 != 3) old (keepFld (fld 11 10 != 3) old (clampFld w 31 16 1 0xFFFF) 11 10) 9 8
    | 0x24 => keepFld (fld 17 0 ≤ 221184) old w 17 0
    | 0x28 => clampFld w 10 0 1 1600
    | 0x2C => max w 1
    | _ => w)
  else if 0x700000 ≤ off ∧ off < 0x704000 then (if o = 0 then clampFld w 31 16 1 0xFFFF else w)
  else if 0xC00000 ≤ off ∧ off < 0xC40000 ∧ off % 0x4000 = 0x24 then
    [8, 14, 20, 26].foldl (fun x lo => keepFld (bits w (lo + 5) lo < 3) old x (lo + 5) lo) w
  else match off with
  | 0x40001C => clampFld w 4 0 0 23
  | 0x40002C => clampFld w 2 0 2 6
  | 0x400030 => keepFld (fld 10 8 < 6) old w 10 8
  | 0x500048 => keepFld (4096 ≤ fld 24 0 && fld 24 0 ≤ 25165824) old w 24 0
  | 0xC40004 => clampFld (clampFld w 31 16 1 0xFFFF) 15 0 80 0xFFFF
  | 0xE00014 => clampFld w 8 5 0 11
  | 0xE00020 => clampFld (clampFld w 31 16 1 0xFFFF) 6 0 1 64
  | _ => w

/-- A RUN of the context is outstanding (R248). -/
def State.runOut (s : State) (c : Nat) : Bool := (s.ctx c).ring.cmds.any fun d => byteAt d.desc 0 == 2

/-- The write is ignored as a whole: ring registers while EN is 1 or a command is outstanding (R458); base registers and the seed while
a RUN is outstanding (R248, R322, Table 10.21); Dust registers then and while a securing is under way (R572). -/
def State.writeShut (s : State) (off : Nat) : Bool :=
  let o := off % 0x100
  let c := (off - 0x200000) / 0x1000
  let w := fun b => (off - b) / 0x100
  if 0x200000 ≤ off ∧ off < 0x240000 then
    let p := off % 0x1000
    if p < 0x010 then s.rbit (CTX_RING_CTL c) 31 || !(s.ctx c).ring.cmds.isEmpty
    else if [0xE00, 0xE04, 0xE18, 0xE1C].contains p then s.runOut c
    else false
  else if 0x600000 ≤ off ∧ off < 0x604000 then decide (0x10 ≤ o) && decide (o < 0x28) && s.runOut (w 0x600000)
  else if 0x680000 ≤ off ∧ off < 0x684000 then
    decide (0x0C ≤ o) && decide (o < 0x28) && (s.runOut (w 0x680000) || s.rbit (DST_STATUS (w 0x680000)) 30)
  else if 0xC50000 ≤ off ∧ off < 0xC54000 then s.runOut (w 0xC50000)
  else false

/-- DST_CTL: kinds and EN are ignored while R572 says so; EN takes the shadow reserve, or stays 0 where it cannot be had, and gives it
back (R538). -/
def State.dstCtlWrite (s : State) (c v : Nat) : State :=
  let k := DST_CTL c
  if s.runOut c ∨ s.rbit (DST_STATUS c) 30 then s.softReg k (putBits (putBits v 11 8 (s.fld k 11 8)) 0 0 (s.fld k 0 0))
  else
    let s1 := s.softReg k v
    let d := (s.ctx c).dust
    if bit v 0 = s.rbit k 0 then s1
    else if bit v 0 then
      match s1.allocFrames 0xFFF (some c) (s.fld (DST_SHADOW c) 17 0) with
      | some (fs, s2) => s2.modDust c fun y => { y with reserve := fs, reserveAll := fs }
      | none => s1.setFld k 0 0 0
    else (s1.freeFrames d.reserveAll).modDust c fun y => { y with reserve := [], reserveAll := [] }

/-- SEC_LOG_CTL: SIZE changes only while EN is 0; EN going to 1 starts the ring anew (Table 15.20). -/
def State.logCtlWrite (s : State) (p v : Nat) : State :=
  let k := SEC_LOG_CTL p
  let en := s.rbit k 31
  let s1 := if en then s.setFld k 31 31 (bits v 31 31) else s.softReg k v
  if !en ∧ bit v 31 then ((s1.setFld (SEC_LOG_HEAD p) 15 0 0).setFld (SEC_LOG_TAIL p) 15 0 0).logReturned p else s1

/-- CTX_FN_PRIOf: lowering it lowers PRIO of the function's contexts where above (Table 12.12). -/
def State.fnPrioWrite (s : State) (g v : Nat) : State :=
  (s.owned g).foldl (fun t c => t.setFld (CTX_SCHED c) 2 0 (min (bits v 2 0) (t.fld (CTX_SCHED c) 2 0))) (s.softReg (CTX_FN_PRIO g) v)

/-- The write takes effect: registers whose write does more than set their fields, and the rest. -/
def State.putReg (s : State) (f : Nat) (r : RegAt) (v : Nat) : State :=
  let off := r.off
  if 0x680000 ≤ off ∧ off < 0x684000 ∧ off % 0x100 = 0 then s.dstCtlWrite ((off - 0x680000) / 0x100) v
  else if 0x501000 ≤ off ∧ off < 0x501200 ∧ off % 0x100 = 8 then s.logCtlWrite ((off - 0x501000) / 0x100) v
  else if 0x280010 ≤ off ∧ off < 0x280090 then s.fnPrioWrite ((off - 0x280010) / 4) v
  else if off = 0x280004 then s.putSem (s.fld CTX_SEM_SEL 7 0) { s.selSem with mask := putBits s.selSem.mask 31 0 v }
  else if off = 0x280008 then s.putSem (s.fld CTX_SEM_SEL 7 0) { s.selSem with mask := putBits s.selSem.mask 63 32 v }
  else if off = 0xC40014 then
    { s with links := { s.links with
      routes := mset 0 s.links.routes (s.fld LNK_RT_SEL 15 0) (2 ^ 30 * bits v 31 30 + bits v 3 0) } }
  else if 0xC00000 ≤ off ∧ off < 0xC40000 ∧ off % 0x4000 = 0x24 then
    let p := (off - 0xC00000) / 0x4000
    let lk := Nat.land (s.fld (LNK_PRBS_CTL p) 7 4) (bits v 3 0)
    ((s.softReg r.key v).setFld (LNK_PRBS_CTL p) 7 4 lk).modLport p fun x => { x with prbsLocked := lk }
  else if 0xF0000 ≤ off ∧ off < 0xF0410 then (s.softReg r.key v).unmask f 65
  else s.softReg r.key v

/-- The next state of an outcome. -/
def nextOr (o : Out) (s : State) : State := match o with | .next t => t | _ => s

/-- A write of CTX_CTL (R489, R490, R492). -/
def State.ctxCtlWrite (s : State) (f : FnId) (c v : Nat) : State :=
  let c' : CtxId := Fin.ofNat 64 c
  if (s.ctx c).st = .free then
    (if bit v 31 ∧ fnIsPf f then nextOr (execCreatePf c' (f == 0) (f == 16) s) s else s)
  else if bit v 30 then nextOr (execDestroy f c' s) s else s

/-- The registers whose writes are rows of their own act as those rows do. -/
def State.rowWrite (s : State) (f : FnId) (r : RegAt) (v : Nat) : Option State :=
  let w : Word32 := BitVec.ofNat 32 v
  let go := fun (o : Out) => some (nextOr o s)
  let off := r.off
  if 0x200000 ≤ off ∧ off < 0x240000 then
    (match off % 0x1000 with
    | 0x010 => go (execRingCtlWrite f (Fin.ofNat 64 ((off - 0x200000) / 0x1000)) w s)
    | 0x100 => some (s.ctxCtlWrite f ((off - 0x200000) / 0x1000) v)
    | _ => none)
  else if 0x300000 ≤ off ∧ off < 0x302000 ∧ r.own then
    (match off % 0x100 with
    | 0x08 => go (execEvtCtlWrite f w s)
    | 0x0C => go (execEvtHeadWrite f w s)
    | _ => none)
  else if 0x501000 ≤ off ∧ off < 0x501200 ∧ r.own then
    (match off % 0x100 with
    | 0x0C => go (execSecLogHeadWrite f w s)
    | 0x18 => go (execSecDiagGo f w s)
    | _ => none)
  else if 0xC00000 ≤ off ∧ off < 0xC40000 ∧ off % 0x4000 = 0 then
    go (execLnkPortCtlWrite f (Fin.ofNat 16 ((off - 0xC00000) / 0x4000)) w s)
  else match off with
  | 0x00C => go (execHubAdminWrite f w s)
  | 0x10C => go (execHubSyncGo f w s)
  | 0x400000 => go (execPwrCtlModeWrite f w s)
  | 0x400004 => go (execPwrCapWrite f w s)
  | 0x500038 => go (execSecLcReqGo f w s)
  | 0x50004C =>
    let s1 := nextOr (execSecUpdGo f w s) s
    some (nextOr (execSecUpdCommit f w s1) s1)
  | 0xC40000 => go (execLnkPartIdWrite f w s)
  | _ => none

/-- A 32-bit write of v at offset `off` by function f. -/
def State.writeWord (s : State) (f : FnId) (off v : Nat) : State :=
  match s.target f off with
  | .nothing => s
  | .const _ => s
  | .emptySlot j o => if o = 0x100 ∧ bit v 31 then nextOr (execCreateVf f (Fin.ofNat 16 j) s) s else s
  | .reg r =>
    match s.rowWrite f r v with
    | some t => t
    | none =>
      if !r.own then (if r.deny then s.denied f else s)
      else if s.writeShut r.off then s
      else s.putReg f r (s.adjust r.off (s.reg r.key) v)

/-- BAR0_REGISTER_WRITE (R666 to R669): a 64-bit write is two, the lower address first; any other access is refused. -/
def execBar0RegisterWrite (f : FnId) (off size v : Nat) (s : State) : Out :=
  .next (if size = 4 ∧ off % 4 = 0 then s.writeWord f off (v % 2 ^ 32)
    else if size = 8 ∧ off % 8 = 0 then (s.writeWord f off (v % 2 ^ 32)).writeWord f (off + 4) (v / 2 ^ 32 % 2 ^ 32)
    else if s.barUp then s.badAccess f else s)

/-! ## BAR4 (R452, R685) -/

/-- VA_BASE: its bits below the size of BAR4 are taken as 0. -/
def State.bar4Base (s : State) (p : Nat) : Nat :=
  let n := (s.port p).bar4
  2 ^ n * ((2 ^ 32 * s.fld (PCIE_BAR4_SEL_HI p) 19 0 + 2 ^ 30 * s.fld (PCIE_BAR4_SEL_LO p) 31 30) / 2 ^ n)

/-- A refused access: reads as all ones, discards the write, counts and sets BAR4_FAULT. -/
def State.bar4Refuse (s : State) (p n : Nat) (write : Bool) : State :=
  { s.flagCount (PCIE_PORT_FLAGS p) 2 (PCIE_BAR4_FAULT p) 31 0 with answer := if write then [] else List.replicate n 0xFF }

/-- BAR4_ACCESS (R452): a read of `len` bytes or a write of `data`. A write that waits for a shadow frame (R538) is not yet taken. -/
def execBar4Access (p : PortId) (write : Bool) (off len : Nat) (data : List Byte) (s : State) : Out :=
  let c := s.fld (PCIE_BAR4_SEL_LO p) 5 0
  let n := if write then data.length else len
  let va := s.bar4Base p + off
  if !s.barUp then .next { s with answer := [] }
  else if !s.rbit (PCIE_BAR4_SEL_LO p) 7 ∨ !s.owns (portPf p) c ∨ 2 ^ (s.port p).bar4 < off + n ∨ 4096 < off % 4096 + n then
    .next (s.bar4Refuse p n write)
  else if write then
    match s.vwrite c va data with
    | .ok s1 => .next { s1 with answer := [] }
    | .hold => .next s
    | _ => .next (s.bar4Refuse p n write)
  else
    match s.vread c va n with
    | .ok (bs, s1) => .next { s1 with answer := bs }
    | _ => .next (s.bar4Refuse p n write)

end Sys2Proof.Machine
end

