-- ==== Sys2Proof/Machine/Scaffold.lean ====
section
/-!
DEFINITION. The service side (R658 to R661): rack commands, barrier messages, coolant and leaks. Answers stand in `answer`; the spec
names what they hold, and their layout is the model's own.
-/
namespace Sys2Proof.Machine

/-- The hub answers messages: the host side is on and the firmware is ready (Table 15.16). -/
def State.hubAnswers (s : State) : Bool := s.power.svc.on && s.power.hostOn && s.fwUp

/-- The service side answers nothing while it is off. -/
def State.svcReply (s : State) (bs : List Byte) : State := { s with answer := if s.power.svc.on then bs else [] }

/-- IDENTITY_READ (R659): with the nonce from the hub; else the copy taken at the last firmware ready, without it. A part in SCRAP
reports code 4 (R654). -/
def execIdentityRead (s : State) : Out :=
  .next (if s.hubAnswers then s.svcReply (s.identity ++ (List.range 4).flatMap fun i => natLe 4 (s.reg (SEC_LC_NONCE i)))
    else
      let c := s.power.svc.identity
      s.svcReply (if s.power.hostOn ∧ s.sec.fuses.scrap then c.take 9 ++ natLe 1 4 ++ c.drop 10 else c))

/-- The input as the service side's own monitor has it: voltage in mV. -/
def State.ownInput (s : State) : List Byte := natLe 4 s.power.svc.mv

/-- TELEMETRY (R659): voltage, current and power; Ceff and LIMIT; hottest sensors; throttling; firmware state; life-cycle code; reset
cause. With the hub not answering, input values of the service side's own monitor; the rest is unavailable. The monitor's current and
power are open. -/
def execTelemetry (s : State) : Out :=
  .next (if s.hubAnswers then
      s.svcReply (s.ownInput ++ natLe 4 (s.reg PWR_INPUT) ++ natLe 4 (s.reg PWR_INPUT_W) ++ natLe 4 (s.reg PWR_CAP_STATUS)
        ++ natLe 4 (s.reg PWR_TEMP) ++ natLe 1 (s.fld PWR_STATUS 31 31) ++ natLe 1 (s.fld SEC_FW_STATUS 31 30) ++ natLe 1 (s.fld SEC_LC 7 0)
        ++ natLe 1 (s.fld PWR_RESET_CAUSE 3 0))
    else let p := s.pick; p.2.svcReply (s.ownInput ++ natLe 8 p.1))

/-- The service cap of the hub follows the service side, where the host side is on. -/
def State.svcCapGo (s : State) : State := if s.power.hostOn then s.capStatus false else s

/-- POWER_CAP (R659): 1,000 to 2,400 W in steps of 10, or 0 to withdraw; answered with the service cap in force. A request outside that
range changes nothing. -/
def execPowerCap (w : Nat) (s : State) : Out :=
  .next (if !s.power.svc.on then s.svcReply []
    else
      let s1 :=
        if w = 0 then (s.modSvc fun v => { v with rackCap := none }).svcCapGo
        else if 1000 ≤ w ∧ w ≤ 2400 ∧ w % 10 = 0 then (s.modSvc fun v => { v with rackCap := some w }).svcCapGo
        else s
      s1.svcReply (natLe 2 s1.power.svc.cap))

/-- RESET (R613, R659, R660): 0 PULSE, 1 HOLD, 2 RELEASE. Answers: 0 done, 6 HOST_OFF. -/
def execReset (kind : Nat) (s : State) : Out :=
  .next (if !s.power.svc.on then s.svcReply []
    else match kind with
      | 0 => if s.power.hostOn then s.serviceReset.svcReply (natLe 1 0) else s.svcReply (natLe 1 6)
      | 1 => (s.serviceReset.modSvc fun v => { v with hold := true }).svcReply (natLe 1 0)
      | 2 => if s.power.hostOn then (s.modSvc fun v => { v with hold := false }).svcReply (natLe 1 0) else s.svcReply (natLe 1 6)
      | _ => s)

/-- LIFECYCLE (R646, R659): 192 bytes of token, then 64 of key. -/
def execLifecycle (token : List Byte) (s : State) : Out :=
  .next (if !s.power.svc.on then s.svcReply []
    else if !s.hubAnswers then s.svcReply (natLe 1 6)
    else if s.sec.haltedCores.contains 3 then s
    else (token ++ List.replicate 256 0).take 256 |> fun bs => s.lcRequest (bs.take 192) (bs.drop 192) true)

/-- LOG_PULL (R642, R659): at most 16 records from record offset n, those of the crash area first; else the service side's own log. -/
def execLogPull (n : Nat) (s : State) : Out :=
  .next (if s.hubAnswers then s.svcReply (((s.sec.crash ++ s.sec.logs).drop n).take 16).flatten
    else s.svcReply (((s.power.svc.log.drop n).take 16).flatMap (natLe 1)))

/-- POWER (R658): the rack orders the host side off (cause SERVICE_OFF) or on. -/
def execPower (on : Bool) (s : State) : Out :=
  .next (if !s.power.svc.on then s else if on then s.powerOn else s.switchOff 2 0)

/-- COOLANT_SET (R658). -/
def execCoolantSet (warn off : Nat) (s : State) : Out :=
  .next (if s.power.svc.on then s.modSvc fun v => { v with warn := warn, off := off } else s)

/-- An action goes into the service side's own log (R661). -/
def State.svcLog (s : State) (reason : Nat) : State := s.modSvc fun v => { v with log := v.log ++ [reason] }

/-- COOLANT_WARNING (R661): a service cap of 1,000 W. -/
def execCoolantWarning (deg : Nat) (thermistorOk : Bool) (s : State) : Out :=
  let v := s.power.svc
  .next (if v.on ∧ !v.coolant ∧ (!thermistorOk ∨ v.warn ≤ deg) then
    ((s.modSvc fun v => { v with coolant := true }).svcCapGo).svcLog (if thermistorOk then 1 else 4)
  else s)

/-- COOLANT_WARNING_CLEAR (R661): 3 °C below the threshold the rack's own request is restored. -/
def execCoolantWarningClear (deg : Nat) (s : State) : Out :=
  let v := s.power.svc
  .next (if v.on ∧ v.coolant ∧ deg + 3 ≤ v.warn then (s.modSvc fun v => { v with coolant := false }).svcCapGo else s)

/-- COOLANT_OFF (R661): at or above the off threshold for 1 s. -/
def execCoolantOff (deg t : Nat) (s : State) : Out :=
  let s0 := s.at t
  let v := s0.power.svc
  .next (if v.on ∧ v.off ≤ deg ∧ s0.power.hostOn then (s0.switchOff 2 0).svcLog 2 else s0)

/-- LEAK_DETECTED (R661): LEAK_N has been low for 10 ms. The spec gives no command for LEAK_N going high again: the leak stands until
the service side starts anew. -/
def execLeakDetected (t : Nat) (s : State) : Out :=
  let s0 := s.at t
  .next (if s0.power.svc.on ∧ !s0.power.svc.leak then ((s0.modSvc fun v => { v with leak := true }).switchOff 2 0).svcLog 3 else s0)

/-- SVC_RST_N (R607): the service side alone is reset. What it was told is lost; what it knows of the input and of the last reset is its
monitor's and stays. -/
def execSvcRstN (s : State) : Out :=
  let v := s.power.svc
  .next (if v.on then
    (s.modSvc fun v => { SvcSt.reset with mv := v.mv, cause := v.cause, unit := v.unit, tripAt := v.tripAt, hold := v.hold }).svcCapGo
  else s)

end Sys2Proof.Machine
end

