-- ==== Sys2Proof/Machine/Dispatch.lean ====
section
/-!
DEFINITION. The meaning of every command: one arm per constructor of Instr.
-/
namespace Sys2Proof.Machine

def exec (i : Instr) (s : State) : Host.Outcome State Fault Refusal :=
  match i with
  | .createPf c hpa hpb => Sys2Proof.Machine.execCreatePf c hpa hpb s
  | .createVf f j => Sys2Proof.Machine.execCreateVf f j s
  | .destroy f c => Sys2Proof.Machine.execDestroy f c s
  | .destructionComplete c => Sys2Proof.Machine.execDestructionComplete c s
  | .hubAdminWrite f v => Sys2Proof.Machine.execHubAdminWrite f v s
  | .adminGraceExpiry t => Sys2Proof.Machine.execAdminGraceExpiry t s
  | .hubSyncGo f v => Sys2Proof.Machine.execHubSyncGo f v s
  | .syncSummaryWritten f => Sys2Proof.Machine.execSyncSummaryWritten f s
  | .ringCtlWrite f c v => Sys2Proof.Machine.execRingCtlWrite f c v s
  | .dbCmdTail f k v size => Sys2Proof.Machine.execDbCmdTail f k v size s
  | .dbCplHead f k v size => Sys2Proof.Machine.execDbCplHead f k v size s
  | .doorbellAccepted c => Sys2Proof.Machine.execDoorbellAccepted c s
  | .descriptorStart c => Sys2Proof.Machine.execDescriptorStart c s
  | .irqDelayExpiry c t => Sys2Proof.Machine.execIrqDelayExpiry c t s
  | .evtCtlWrite f v => Sys2Proof.Machine.execEvtCtlWrite f v s
  | .evtHeadWrite f v => Sys2Proof.Machine.execEvtHeadWrite f v s
  | .loadProgram c k => Sys2Proof.Machine.execLoadProgram c k s
  | .run c k => Sys2Proof.Machine.execRun c k s
  | .runComplete c => Sys2Proof.Machine.execRunComplete c s
  | .setStep c k => Sys2Proof.Machine.execSetStep c k s
  | .secureNow c k => Sys2Proof.Machine.execSecureNow c k s
  | .restore c k => Sys2Proof.Machine.execRestore c k s
  | .restoreShard c k => Sys2Proof.Machine.execRestoreShard c k s
  | .openWindow c k => Sys2Proof.Machine.execOpenWindow c k s
  | .closeWindow c k => Sys2Proof.Machine.execCloseWindow c k s
  | .fence c k => Sys2Proof.Machine.execFence c k s
  | .preempt c k => Sys2Proof.Machine.execPreempt c k s
  | .preemptionSaveComplete c => Sys2Proof.Machine.execPreemptionSaveComplete c s
  | .resume c k => Sys2Proof.Machine.execResume c k s
  | .resumptionComplete c => Sys2Proof.Machine.execResumptionComplete c s
  | .displacedResume => Sys2Proof.Machine.execDisplacedResume s
  | .setMembership c k => Sys2Proof.Machine.execSetMembership c k s
  | .shardAdopted c => Sys2Proof.Machine.execShardAdopted c s
  | .shardCommit c => Sys2Proof.Machine.execShardCommit c s
  | .rollback c => Sys2Proof.Machine.execRollback c s
  | .resync c k => Sys2Proof.Machine.execResync c k s
  | .copy c k => Sys2Proof.Machine.execCopy c k s
  | .map c k => Sys2Proof.Machine.execMap c k s
  | .unmap c k => Sys2Proof.Machine.execUnmap c k s
  | .setCap c k => Sys2Proof.Machine.execSetCap c k s
  | .queryEnergy c k => Sys2Proof.Machine.execQueryEnergy c k s
  | .placeHint c k => Sys2Proof.Machine.execPlaceHint c k s
  | .failureNotice c k => Sys2Proof.Machine.execFailureNotice c k s
  | .bar4Access p write off len data => Sys2Proof.Machine.execBar4Access p write off len data s
  | .bar0RegisterWrite f off size v => Sys2Proof.Machine.execBar0RegisterWrite f off size v s
  | .rcRead f off size => Sys2Proof.Machine.execRcRead f off size s
  | .loReadLatch f off size => Sys2Proof.Machine.execLoReadLatch f off size s
  | .hawkDebugRead f a off => Sys2Proof.Machine.execHawkDebugRead f a off s
  | .secDiagGo f v => Sys2Proof.Machine.execSecDiagGo f v s
  | .pwrCtlModeWrite f v => Sys2Proof.Machine.execPwrCtlModeWrite f v s
  | .pwrCapWrite f v => Sys2Proof.Machine.execPwrCapWrite f v s
  | .lnkPortCtlWrite f p v => Sys2Proof.Machine.execLnkPortCtlWrite f p v s
  | .lnkPartIdWrite f v => Sys2Proof.Machine.execLnkPartIdWrite f v s
  | .secLcReqGo f v => Sys2Proof.Machine.execSecLcReqGo f v s
  | .lifecycleTransition => Sys2Proof.Machine.execLifecycleTransition s
  | .debugExpiry t => Sys2Proof.Machine.execDebugExpiry t s
  | .secUpdGo f v => Sys2Proof.Machine.execSecUpdGo f v s
  | .fwStaged => Sys2Proof.Machine.execFwStaged s
  | .secUpdCommit f v => Sys2Proof.Machine.execSecUpdCommit f v s
  | .secLogHeadWrite f v => Sys2Proof.Machine.execSecLogHeadWrite f v s
  | .logRecord sev src point data => Sys2Proof.Machine.execLogRecord sev src point data s
  | .coreInstruction a => Sys2Proof.Machine.execCoreInstruction a s
  | .corePageWaitEnd a => Sys2Proof.Machine.execCorePageWaitEnd a s
  | .logicalAuExit a => Sys2Proof.Machine.execLogicalAuExit a s
  | .dxIssue a => Sys2Proof.Machine.execDxIssue a s
  | .dxTryissue a => Sys2Proof.Machine.execDxTryissue a s
  | .fifoPlaceFree a => Sys2Proof.Machine.execFifoPlaceFree a s
  | .dxStnLd a => Sys2Proof.Machine.execDxStnLd a s
  | .dxStnGo a => Sys2Proof.Machine.execDxStnGo a s
  | .dxStnPos a => Sys2Proof.Machine.execDxStnPos a s
  | .dxStnWait a => Sys2Proof.Machine.execDxStnWait a s
  | .dxStnStat a => Sys2Proof.Machine.execDxStnStat a s
  | .dxFset a => Sys2Proof.Machine.execDxFset a s
  | .dxFclr a => Sys2Proof.Machine.execDxFclr a s
  | .dxFwait a => Sys2Proof.Machine.execDxFwait a s
  | .dxFwaitc a => Sys2Proof.Machine.execDxFwaitc a s
  | .dxFwaitx a => Sys2Proof.Machine.execDxFwaitx a s
  | .flagWaitSatisfied a => Sys2Proof.Machine.execFlagWaitSatisfied a s
  | .dxFtest a => Sys2Proof.Machine.execDxFtest a s
  | .dxQlvl a => Sys2Proof.Machine.execDxQlvl a s
  | .dxFlvl a => Sys2Proof.Machine.execDxFlvl a s
  | .dxFpace a => Sys2Proof.Machine.execDxFpace a s
  | .dxQpace a => Sys2Proof.Machine.execDxQpace a s
  | .dxLoop a => Sys2Proof.Machine.execDxLoop a s
  | .dxBrk a => Sys2Proof.Machine.execDxBrk a s
  | .dxWhere a => Sys2Proof.Machine.execDxWhere a s
  | .dxSemAcq a => Sys2Proof.Machine.execDxSemAcq a s
  | .semGranted n => Sys2Proof.Machine.execSemGranted n s
  | .dxSemRel a => Sys2Proof.Machine.execDxSemRel a s
  | .opStartAfterWait a u => Sys2Proof.Machine.execOpStartAfterWait a u s
  | .compute a => Sys2Proof.Machine.execCompute a s
  | .swapBankHeld a => Sys2Proof.Machine.execSwapBankHeld a s
  | .wload a => Sys2Proof.Machine.execWload a s
  | .wloadComplete a => Sys2Proof.Machine.execWloadComplete a s
  | .adaptLoad a => Sys2Proof.Machine.execAdaptLoad a s
  | .drain a => Sys2Proof.Machine.execDrain a s
  | .setf a e => Sys2Proof.Machine.execSetf a e s
  | .clrf a e => Sys2Proof.Machine.execClrf a e s
  | .nop a e => Sys2Proof.Machine.execNop a e s
  | .norm a => Sys2Proof.Machine.execNorm a s
  | .normBwd a => Sys2Proof.Machine.execNormBwd a s
  | .act a => Sys2Proof.Machine.execAct a s
  | .actBwd a => Sys2Proof.Machine.execActBwd a s
  | .smax a => Sys2Proof.Machine.execSmax a s
  | .smaxBwd a => Sys2Proof.Machine.execSmaxBwd a s
  | .merge a => Sys2Proof.Machine.execMerge a s
  | .elem a => Sys2Proof.Machine.execElem a s
  | .loss a => Sys2Proof.Machine.execLoss a s
  | .vmove a => Sys2Proof.Machine.execVmove a s
  | .setp a => Sys2Proof.Machine.execSetp a s
  | .rowred a => Sys2Proof.Machine.execRowred a s
  | .update a => Sys2Proof.Machine.execUpdate a s
  | .updateEtaArrives a => Sys2Proof.Machine.execUpdateEtaArrives a s
  | .stepSizeLate a t => Sys2Proof.Machine.execStepSizeLate a t s
  | .accum a => Sys2Proof.Machine.execAccum a s
  | .tmul a => Sys2Proof.Machine.execTmul a s
  | .xfer a => Sys2Proof.Machine.execXfer a s
  | .movePageIn a => Sys2Proof.Machine.execMovePageIn a s
  | .roller a => Sys2Proof.Machine.execRoller a s
  | .stencilSegmentIssue a st ra => Sys2Proof.Machine.execStencilSegmentIssue a st ra s
  | .stencilDone a st => Sys2Proof.Machine.execStencilDone a st s
  | .streamHaltResume a st => Sys2Proof.Machine.execStreamHaltResume a st s
  | .segmentComplete id => Sys2Proof.Machine.execSegmentComplete id s
  | .stagingBufferFree a st => Sys2Proof.Machine.execStagingBufferFree a st s
  | .queueRecordReady a src dst n => Sys2Proof.Machine.execQueueRecordReady a src dst n s
  | .slotVisitBegin a g => Sys2Proof.Machine.execSlotVisitBegin a g s
  | .slotVisitEnd a g => Sys2Proof.Machine.execSlotVisitEnd a g s
  | .slotTimeout a g t => Sys2Proof.Machine.execSlotTimeout a g t s
  | .slotBusy id t => Sys2Proof.Machine.execSlotBusy id t s
  | .hawkHotWindowEnd a counts t => Sys2Proof.Machine.execHawkHotWindowEnd a counts t s
  | .hawkEccError a off uncorr => Sys2Proof.Machine.execHawkEccError a off uncorr s
  | .hbmHotWindowEnd hot t => Sys2Proof.Machine.execHbmHotWindowEnd hot t s
  | .hbmCorrectedError dpa => Sys2Proof.Machine.execHbmCorrectedError dpa s
  | .memUncorr dpa => Sys2Proof.Machine.execMemUncorr dpa s
  | .hbmScrub m t => Sys2Proof.Machine.execHbmScrub m t s
  | .pageInStart c va => Sys2Proof.Machine.execPageInStart c va s
  | .pageInComplete c page => Sys2Proof.Machine.execPageInComplete c page s
  | .rollerSegmentIssue id => Sys2Proof.Machine.execRollerSegmentIssue id s
  | .rollerDetach id t => Sys2Proof.Machine.execRollerDetach id t s
  | .rollerRcvFailed id r => Sys2Proof.Machine.execRollerRcvFailed id r s
  | .rollerComplete id => Sys2Proof.Machine.execRollerComplete id s
  | .rollerDelivery id r => Sys2Proof.Machine.execRollerDelivery id r s
  | .portTrainingDone p ok partner partnerPort => Sys2Proof.Machine.execPortTrainingDone p ok partner partnerPort s
  | .linkDown p reason => Sys2Proof.Machine.execLinkDown p reason s
  | .downRetrainTimer p t => Sys2Proof.Machine.execDownRetrainTimer p t s
  | .laneLossOfLock p lane => Sys2Proof.Machine.execLaneLossOfLock p lane s
  | .flitReceive p seq vc kind body => Sys2Proof.Machine.execFlitReceive p seq vc kind body s
  | .sideWordReceive p w => Sys2Proof.Machine.execSideWordReceive p w s
  | .uncorrectableCodeword p t => Sys2Proof.Machine.execUncorrectableCodeword p t s
  | .replayBoundExceeded p t => Sys2Proof.Machine.execReplayBoundExceeded p t s
  | .transactionForward n => Sys2Proof.Machine.execTransactionForward n s
  | .windowArrival n => Sys2Proof.Machine.execWindowArrival n s
  | .windowWriteComplete id => Sys2Proof.Machine.execWindowWriteComplete id s
  | .holdReceive n => Sys2Proof.Machine.execHoldReceive n s
  | .holdResend p slot t => Sys2Proof.Machine.execHoldResend p slot t s
  | .completeReceive n => Sys2Proof.Machine.execCompleteReceive n s
  | .abortReceive n => Sys2Proof.Machine.execAbortReceive n s
  | .transactionTimeout p slot t => Sys2Proof.Machine.execTransactionTimeout p slot t s
  | .memberReceive n => Sys2Proof.Machine.execMemberReceive n s
  | .linkWorkPost c idx => Sys2Proof.Machine.execLinkWorkPost c idx s
  | .linkWorkStart c idx => Sys2Proof.Machine.execLinkWorkStart c idx s
  | .linkWorkComplete c idx => Sys2Proof.Machine.execLinkWorkComplete c idx s
  | .collChunkReceive n => Sys2Proof.Machine.execCollChunkReceive n s
  | .collAbortReceive n => Sys2Proof.Machine.execCollAbortReceive n s
  | .collTimeout c idx t => Sys2Proof.Machine.execCollTimeout c idx t s
  | .stepEndExchange c => Sys2Proof.Machine.execStepEndExchange c s
  | .timeSample partner hops t => Sys2Proof.Machine.execTimeSample partner hops t s
  | .timeUnlocked t => Sys2Proof.Machine.execTimeUnlocked t s
  | .prbsTest p locked errs => Sys2Proof.Machine.execPrbsTest p locked errs s
  | .perstNAssert p t => Sys2Proof.Machine.execPerstNAssert p t s
  | .perstNDeassert p => Sys2Proof.Machine.execPerstNDeassert p s
  | .hotReset p t => Sys2Proof.Machine.execHotReset p t s
  | .hostPortLost p t => Sys2Proof.Machine.execHostPortLost p t s
  | .hostPortUp p speed width flit => Sys2Proof.Machine.execHostPortUp p speed width flit s
  | .hostGraceExpired p t => Sys2Proof.Machine.execHostGraceExpired p t s
  | .functionLevelReset f => Sys2Proof.Machine.execFunctionLevelReset f s
  | .ideInsecure p n t => Sys2Proof.Machine.execIdeInsecure p n t s
  | .spdmRequest p req => Sys2Proof.Machine.execSpdmRequest p req s
  | .ideKmRequest p req => Sys2Proof.Machine.execIdeKmRequest p req s
  | .deadlockWindowExpiry c t => Sys2Proof.Machine.execDeadlockWindowExpiry c t s
  | .slowdownWindowEnd c intf t => Sys2Proof.Machine.execSlowdownWindowEnd c intf t s
  | .stashRequest c coat mslot => Sys2Proof.Machine.execStashRequest c coat mslot s
  | .stashRelease c coat mslot => Sys2Proof.Machine.execStashRelease c coat mslot s
  | .stepClose c => Sys2Proof.Machine.execStepClose c s
  | .stepBoundaryOpen c => Sys2Proof.Machine.execStepBoundaryOpen c s
  | .pendingPageFirstWrite c page => Sys2Proof.Machine.execPendingPageFirstWrite c page s
  | .shadowFrameFree c => Sys2Proof.Machine.execShadowFrameFree c s
  | .securePageCopy c => Sys2Proof.Machine.execSecurePageCopy c s
  | .secured c => Sys2Proof.Machine.execSecured c s
  | .secureFailed c target => Sys2Proof.Machine.execSecureFailed c target s
  | .solverJobComplete n => Sys2Proof.Machine.execSolverJobComplete n s
  | .inputUndervoltage mv t => Sys2Proof.Machine.execInputUndervoltage mv t s
  | .inputOvervoltage mv t => Sys2Proof.Machine.execInputOvervoltage mv t s
  | .inputBelowServiceMin mv => Sys2Proof.Machine.execInputBelowServiceMin mv s
  | .inputRise mv => Sys2Proof.Machine.execInputRise mv s
  | .voltageCapUpdate mv t => Sys2Proof.Machine.execVoltageCapUpdate mv t s
  | .capControlTick watts t => Sys2Proof.Machine.execCapControlTick watts t s
  | .excursionCut watts t => Sys2Proof.Machine.execExcursionCut watts t s
  | .currentLimit ma t => Sys2Proof.Machine.execCurrentLimit ma t s
  | .currentLimitEnd ma t => Sys2Proof.Machine.execCurrentLimitEnd ma t s
  | .capFloor watts t => Sys2Proof.Machine.execCapFloor watts t s
  | .droopStretch a => Sys2Proof.Machine.execDroopStretch a s
  | .droopEnd a => Sys2Proof.Machine.execDroopEnd a s
  | .energyUpdate uj t => Sys2Proof.Machine.execEnergyUpdate uj t s
  | .thermalSensorRead aus hubs stks t => Sys2Proof.Machine.execThermalSensorRead aus hubs stks t s
  | .thermalTrip sensor n deg t => Sys2Proof.Machine.execThermalTrip sensor n deg t s
  | .stageFault => Sys2Proof.Machine.execStageFault s
  | .hostPowerOn => Sys2Proof.Machine.execHostPowerOn s
  | .serviceReset => Sys2Proof.Machine.execServiceReset s
  | .romBoot => Sys2Proof.Machine.execRomBoot s
  | .stage1Run ok => Sys2Proof.Machine.execStage1Run ok s
  | .fwReady => Sys2Proof.Machine.execFwReady s
  | .fwRestart comp cause t => Sys2Proof.Machine.execFwRestart comp cause t s
  | .compartmentHeartbeatMiss comp t => Sys2Proof.Machine.execCompartmentHeartbeatMiss comp t s
  | .fwHalted comp cause t => Sys2Proof.Machine.execFwHalted comp cause t s
  | .fwMemoryUncorr kind n t => Sys2Proof.Machine.execFwMemoryUncorr kind n t s
  | .jtagInstruction ir dr => Sys2Proof.Machine.execJtagInstruction ir dr s
  | .identityRead => Sys2Proof.Machine.execIdentityRead s
  | .telemetry => Sys2Proof.Machine.execTelemetry s
  | .powerCap w => Sys2Proof.Machine.execPowerCap w s
  | .reset kind => Sys2Proof.Machine.execReset kind s
  | .lifecycle token => Sys2Proof.Machine.execLifecycle token s
  | .logPull n => Sys2Proof.Machine.execLogPull n s
  | .power on => Sys2Proof.Machine.execPower on s
  | .coolantSet warn off => Sys2Proof.Machine.execCoolantSet warn off s
  | .coolantWarning deg thermistorOk => Sys2Proof.Machine.execCoolantWarning deg thermistorOk s
  | .coolantWarningClear deg => Sys2Proof.Machine.execCoolantWarningClear deg s
  | .coolantOff deg t => Sys2Proof.Machine.execCoolantOff deg t s
  | .leakDetected t => Sys2Proof.Machine.execLeakDetected t s
  | .svcRstN => Sys2Proof.Machine.execSvcRstN s
  | .configurationRequest p vf write off v => Sys2Proof.Machine.execConfigurationRequest p vf write off v s
  | .enterCompliance p => Sys2Proof.Machine.execEnterCompliance p s

end Sys2Proof.Machine
end

