-- ==== Sys2Proof/Safety.lean ====
section
/-!
DEFINITION. What claims say of a state and of two states: the invariant of every state that a run can reach, the parts of a state,
and what two states share.
-/
namespace Sys2Proof.Machine

/-- Equal contents are equal data: the register file, host memory, HBM and the flash are in canonical form, and no total of Table 11.10
has passed 32 bits. -/
def State.Inv (s : State) : Prop :=
  rgCanon s.regs = true ∧ Memory.wf s.host = true ∧ Memory.wf s.mem.hbm = true ∧ Memory.wf s.sec.flash = true ∧
    ∀ i, mget 0 s.totals i ≤ 0xFFFFFFFF

/-- The parts of a state. `hbm` and `flash` are the contents of the two memories; `mem` and `sec` are the memory system and boot,
firmware and security without them. -/
inductive Part where
  | host | hbm | mem | regs | ports | fns | ctxs | aus | links | sems | solver | totals | power | flash | sec | now | free | answer
  deriving DecidableEq, Repr

/-- A part is the same in two states: for a memory, every byte reads the same; for the register file, every register. -/
def Part.same : Part → State → State → Prop
  | .host, s, t => ∀ a, rdByte t.host a = rdByte s.host a
  | .hbm, s, t => ∀ a, rdByte t.mem.hbm a = rdByte s.mem.hbm a
  | .mem, s, t => { t.mem with hbm := s.mem.hbm } = s.mem
  | .regs, s, t => ∀ k, t.reg k = s.reg k
  | .ports, s, t => t.ports = s.ports
  | .fns, s, t => t.fns = s.fns
  | .ctxs, s, t => t.ctxs = s.ctxs
  | .aus, s, t => t.aus = s.aus
  | .links, s, t => t.links = s.links
  | .sems, s, t => t.sems = s.sems
  | .solver, s, t => t.solver = s.solver
  | .totals, s, t => t.totals = s.totals
  | .power, s, t => t.power = s.power
  | .flash, s, t => ∀ a, rdByte t.sec.flash a = rdByte s.sec.flash a
  | .sec, s, t => { t.sec with flash := s.sec.flash } = s.sec
  | .now, s, t => t.now = s.now
  | .free, s, t => t.free = s.free
  | .answer, s, t => t.answer = s.answer

/-- The fuses are written once (Table 15.6): no count falls, and no bit that is burnt reads as not burnt. -/
def Fuses.Rise (f g : Fuses) : Prop :=
  f.lc ≤ g.lc ∧ f.rollback ≤ g.rollback ∧ (f.scrap = true → g.scrap = true) ∧ (∀ n, bit f.revoked n = true → bit g.revoked n = true) ∧
    g.keyHash = f.keyHash ∧ g.grade = f.grade ∧ g.makerKey = f.makerKey ∧ g.uds = f.uds ∧ g.dsn = f.dsn

/-- The completion entry of a command of context c (Table 11.6), as the state has its ring. -/
def State.cplEntryOf (s : State) (c : Nat) (cmd : Cmd) (status result : Nat) : List Byte :=
  cplEntry status (phaseOf (s.ctx c).ring.cplTail.toNat (s.cplSize c)) (fieldLe cmd.desc 2 2) (byteAt cmd.desc 0)
    (s.ctx c).ring.cmdHead.toNat result s.now ((cmd.energy + 500) / 1000)

/-- Command k of context c completes between s and t with a status and a result (R465, R466): it leaves the outstanding commands;
unless its host port is lost, the completion ring's tail counts one entry more; and where the port's data link is up and the
command asked for no interrupt, the 32 bytes at the old tail are its entry. -/
def Done (s t : State) (c k status result : Nat) : Prop :=
  ∃ cmd, s.cmdAt c k = some cmd ∧ (t.ctx c).ring.cmds = (s.ctx c).ring.cmds.eraseIdx k ∧
    ((s.port (s.ctxPort c)).lost = false →
      (t.ctx c).ring.cplTail = (s.ctx c).ring.cplTail + 1 ∧
      ((s.port (s.ctxPort c)).dlUp = true → bit (byteAt cmd.desc 1) 0 = false →
        rdBytes t.host (hostKey (s.ctxPort c) (s.reg64 (CTX_CPL_BASE_LO c) (CTX_CPL_BASE_HI c)
          + 32 * ((s.ctx c).ring.cplTail.toNat % s.cplSize c))) 32 = s.cplEntryOf c cmd status result))

/-- The core of AU n, which context c holds, is to execute the Xdxs instruction d (R161, R162): nothing holds it, and d stands at its
program counter; u is the state once d has been fetched. -/
abbrev State.AtDx (s : State) (n c : Nat) (d : Dx) (u : State) : Prop :=
  s.coreReady n = some c ∧ s.fetch c (s.core n).pc.toNat = .got (.dx d) 4 u

/-- The core of AU n is to execute the Xdxs instruction d, or is held by it in a wait w, which is looked at again (R136, R147). -/
abbrev State.HeldDx (s : State) (n : Nat) (w : CoreWait) (c : Nat) (d : Dx) (u : State) : Prop :=
  ((s.core n).wait = .none ∨ (s.core n).wait = w) ∧ (s.modCore n fun k => { k with wait := .none }).AtDx n c d u

/-- The parts of a state that a command may change; every other part it leaves as it is. An event that a command may raise changes
event rings in host memory, registers, functions and the counts of Table 11.10. -/
def partsOf : Instr → List Part
  | .hubSyncGo .. =>
    [.regs]
  | .syncSummaryWritten .. =>
    [.host, .regs]
  | .perstNDeassert .. | .enterCompliance .. =>
    [.ports]
  | .evtCtlWrite .. | .evtHeadWrite .. =>
    [.host, .regs, .fns]
  | .shadowFrameFree .. =>
    [.ctxs]
  | .rollerComplete .. =>
    [.mem, .ctxs]
  | .pendingPageFirstWrite .. =>
    [.hbm, .mem, .ctxs]
  | .createPf .. | .ringCtlWrite .. | .dbCmdTail .. | .dbCplHead .. =>
    [.regs, .ctxs]
  | .createVf .. =>
    [.regs, .fns, .ctxs]
  | .logicalAuExit .. | .dxStnPos .. | .dxStnWait .. | .dxStnStat .. | .dxFset .. | .dxFclr .. | .dxFwait .. | .dxFwaitc ..
    | .dxFwaitx .. | .flagWaitSatisfied .. | .dxFtest .. | .dxQlvl .. | .dxFlvl .. | .dxFpace .. | .dxQpace .. | .dxLoop ..
    | .dxBrk .. | .dxWhere .. | .wload .. | .wloadComplete .. | .adaptLoad .. | .setf .. | .clrf .. | .nop .. | .stencilDone ..
    | .streamHaltResume .. | .queueRecordReady .. | .slotVisitBegin .. | .slotVisitEnd .. =>
    [.ctxs, .aus]
  | .segmentComplete .. =>
    [.host, .hbm, .mem, .ctxs, .aus]
  | .rollerDelivery .. =>
    [.host, .hbm, .mem, .regs, .ctxs, .aus]
  | .flitReceive .. | .holdReceive .. | .abortReceive .. =>
    [.links]
  | .lnkPartIdWrite .. | .transactionForward .. | .prbsTest .. =>
    [.regs, .links]
  | .memberReceive .. =>
    [.ctxs, .links]
  | .securePageCopy .. =>
    [.host, .regs, .ctxs, .links]
  | .semGranted .. =>
    [.ctxs, .aus, .sems]
  | .hubAdminWrite .. | .pwrCapWrite .. =>
    [.host, .regs, .fns, .totals]
  | .hbmCorrectedError .. =>
    [.host, .mem, .regs, .fns, .totals]
  | .hostPortUp .. =>
    [.host, .regs, .ports, .fns, .totals]
  | .descriptorStart .. | .runComplete .. | .setStep .. | .secureNow .. | .fence .. | .preempt .. | .resync .. | .queryEnergy ..
    | .placeHint .. | .failureNotice .. =>
    [.host, .regs, .ctxs, .totals]
  | .map .. =>
    [.host, .mem, .regs, .ctxs, .totals]
  | .doorbellAccepted .. | .setCap .. =>
    [.host, .regs, .fns, .ctxs, .totals]
  | .destructionComplete .. | .unmap .. =>
    [.host, .hbm, .mem, .regs, .fns, .ctxs, .totals]
  | .resumptionComplete .. =>
    [.host, .regs, .fns, .ctxs, .aus, .totals]
  | .preemptionSaveComplete .. | .resume .. | .displacedResume | .copy .. | .rollerRcvFailed .. | .linkWorkPost ..
    | .stashRequest .. | .stashRelease .. | .stepClose .. =>
    [.host, .hbm, .mem, .regs, .fns, .ctxs, .aus, .totals]
  | .portTrainingDone .. | .windowArrival .. =>
    [.host, .regs, .fns, .links, .totals]
  | .openWindow .. | .closeWindow .. =>
    [.host, .regs, .ctxs, .links, .totals]
  | .lnkPortCtlWrite .. | .linkDown .. | .laneLossOfLock .. | .sideWordReceive .. | .secureFailed .. =>
    [.host, .mem, .regs, .fns, .ctxs, .links, .totals]
  | .restoreShard .. | .setMembership .. | .shardAdopted .. | .shardCommit .. | .linkWorkComplete .. | .collAbortReceive ..
    | .stepEndExchange .. =>
    [.host, .hbm, .mem, .regs, .fns, .ctxs, .aus, .links, .totals]
  | .stepBoundaryOpen .. =>
    [.host, .hbm, .mem, .regs, .fns, .ctxs, .aus, .links, .solver, .totals]
  | .destroy .. | .run .. | .corePageWaitEnd .. | .dxIssue .. | .dxTryissue .. | .fifoPlaceFree .. | .dxStnLd .. | .dxStnGo ..
    | .dxSemAcq .. | .dxSemRel .. | .opStartAfterWait .. | .drain .. | .updateEtaArrives .. | .xfer .. | .movePageIn ..
    | .roller .. | .stencilSegmentIssue .. | .stagingBufferFree .. | .hawkEccError .. | .memUncorr .. | .pageInStart ..
    | .pageInComplete .. | .rollerSegmentIssue .. | .windowWriteComplete .. | .completeReceive .. =>
    [.host, .hbm, .mem, .regs, .fns, .ctxs, .aus, .links, .sems, .solver, .totals]
  | .functionLevelReset .. =>
    [.host, .hbm, .mem, .regs, .ports, .fns, .ctxs, .aus, .links, .sems, .solver, .totals]
  | .inputRise .. | .coolantSet .. =>
    [.power]
  | .droopStretch .. =>
    [.regs, .power]
  | .pwrCtlModeWrite .. | .coolantWarning .. | .coolantWarningClear .. | .svcRstN =>
    [.host, .regs, .fns, .totals, .power]
  | .stage1Run .. =>
    [.regs, .sec]
  | .logRecord .. =>
    [.host, .regs, .sec]
  | .secLogHeadWrite .. =>
    [.host, .regs, .fns, .totals, .sec]
  | .fwReady =>
    [.host, .regs, .fns, .totals, .power, .sec]
  | .fwStaged | .secUpdCommit .. | .romBoot =>
    [.host, .regs, .fns, .totals, .flash, .sec]
  | .hbmScrub .. =>
    [.mem, .now]
  | .irqDelayExpiry .. =>
    [.host, .regs, .ctxs, .now]
  | .downRetrainTimer .. =>
    [.links, .now]
  | .slotBusy .. =>
    [.regs, .links, .now]
  | .holdResend .. =>
    [.mem, .regs, .ctxs, .links, .now]
  | .adminGraceExpiry .. =>
    [.host, .regs, .fns, .totals, .now]
  | .hbmHotWindowEnd .. | .rollerDetach .. =>
    [.host, .mem, .regs, .fns, .totals, .now]
  | .stepSizeLate .. | .slowdownWindowEnd .. =>
    [.host, .regs, .fns, .ctxs, .totals, .now]
  | .hawkHotWindowEnd .. =>
    [.host, .regs, .fns, .aus, .totals, .now]
  | .uncorrectableCodeword .. =>
    [.regs, .links, .totals, .now]
  | .timeUnlocked .. =>
    [.host, .regs, .fns, .links, .totals, .now]
  | .replayBoundExceeded .. | .transactionTimeout .. =>
    [.host, .mem, .regs, .fns, .ctxs, .links, .totals, .now]
  | .collTimeout .. =>
    [.host, .hbm, .mem, .regs, .fns, .ctxs, .aus, .links, .totals, .now]
  | .slotTimeout .. =>
    [.host, .hbm, .mem, .regs, .fns, .ctxs, .aus, .links, .sems, .solver, .totals, .now]
  | .perstNAssert .. | .hotReset .. | .hostPortLost .. | .hostGraceExpired .. | .ideInsecure .. =>
    [.host, .hbm, .mem, .regs, .ports, .fns, .ctxs, .aus, .links, .sems, .solver, .totals, .now]
  | .currentLimitEnd .. =>
    [.power, .now]
  | .energyUpdate .. =>
    [.regs, .ctxs, .power, .now]
  | .voltageCapUpdate .. | .currentLimit .. | .capFloor .. | .thermalSensorRead .. =>
    [.host, .regs, .fns, .totals, .power, .now]
  | .fwHalted .. =>
    [.host, .mem, .regs, .fns, .ctxs, .aus, .sems, .totals, .flash, .sec, .now]
  | .secDiagGo .. =>
    [.regs, .free]
  | .solverJobComplete .. =>
    [.host, .hbm, .mem, .ctxs, .aus, .solver, .free]
  | .secured .. =>
    [.host, .regs, .fns, .ctxs, .links, .totals, .free]
  | .collChunkReceive .. =>
    [.host, .hbm, .mem, .regs, .fns, .ctxs, .aus, .links, .totals, .free]
  | .loadProgram .. =>
    [.host, .hbm, .mem, .regs, .fns, .ctxs, .aus, .links, .solver, .totals, .free]
  | .restore .. | .rollback .. | .coreInstruction .. | .compute .. | .swapBankHeld .. | .norm .. | .normBwd .. | .act ..
    | .actBwd .. | .smax .. | .smaxBwd .. | .merge .. | .elem .. | .loss .. | .vmove .. | .setp .. | .rowred .. | .update ..
    | .accum .. | .tmul .. | .linkWorkStart .. =>
    [.host, .hbm, .mem, .regs, .fns, .ctxs, .aus, .links, .sems, .solver, .totals, .free]
  | .droopEnd .. =>
    [.regs, .power, .free]
  | .secUpdGo .. =>
    [.regs, .sec, .free]
  | .deadlockWindowExpiry .. =>
    [.host, .hbm, .mem, .regs, .fns, .ctxs, .aus, .links, .sems, .solver, .totals, .now, .free]
  | .capControlTick .. =>
    [.regs, .power, .now, .free]
  | .excursionCut .. =>
    [.host, .regs, .fns, .totals, .power, .now, .free]
  | .debugExpiry .. =>
    [.host, .regs, .fns, .totals, .sec, .now, .free]
  | .hawkDebugRead .. | .identityRead | .logPull .. =>
    [.answer]
  | .ideKmRequest .. =>
    [.ports, .answer]
  | .bar4Access .. =>
    [.hbm, .mem, .regs, .ctxs, .aus, .answer]
  | .configurationRequest .. =>
    [.host, .hbm, .mem, .regs, .ports, .fns, .ctxs, .aus, .links, .sems, .solver, .totals, .answer]
  | .powerCap .. =>
    [.host, .regs, .fns, .totals, .power, .answer]
  | .telemetry =>
    [.free, .answer]
  | .rcRead .. | .loReadLatch .. =>
    [.regs, .fns, .free, .answer]
  | .spdmRequest .. =>
    [.sec, .free, .answer]
  | .jtagInstruction .. =>
    [.host, .regs, .sec, .free, .answer]
  | .secLcReqGo .. | .lifecycle .. =>
    [.host, .regs, .fns, .totals, .sec, .free, .answer]
  | .lifecycleTransition =>
    [.host, .hbm, .mem, .regs, .ports, .fns, .ctxs, .aus, .links, .sems, .solver, .totals, .sec, .free, .answer]
  | .bar0RegisterWrite .. =>
    [.host, .hbm, .mem, .regs, .fns, .ctxs, .aus, .links, .sems, .solver, .totals, .power, .flash, .sec, .free, .answer]
  | .fwRestart .. | .compartmentHeartbeatMiss .. | .fwMemoryUncorr .. =>
    [.host, .hbm, .mem, .regs, .fns, .ctxs, .aus, .links, .sems, .solver, .totals, .power, .flash, .sec, .now, .free, .answer]
  | .inputUndervoltage .. | .inputOvervoltage .. | .inputBelowServiceMin .. | .thermalTrip .. | .stageFault | .coolantOff ..
    | .leakDetected .. =>
    [.hbm, .mem, .regs, .ports, .fns, .ctxs, .aus, .links, .sems, .solver, .totals, .power, .sec, .now]
  | .timeSample .. =>
    [.regs, .links, .now, .free]
  | .hostPowerOn | .serviceReset | .power .. =>
    [.host, .hbm, .mem, .regs, .ports, .fns, .ctxs, .aus, .links, .sems, .solver, .totals, .power, .sec, .now, .free]
  | .reset .. =>
    [.host, .hbm, .mem, .regs, .ports, .fns, .ctxs, .aus, .links, .sems, .solver, .totals, .power, .sec, .now, .free, .answer]

/-- Part time starts again at 0 with these commands, which switch or reset the host side (R434, R613). -/
def restartsTime : Instr → Bool
  | .inputUndervoltage .. | .inputOvervoltage .. | .inputBelowServiceMin .. | .thermalTrip .. | .stageFault | .coolantOff ..
    | .leakDetected .. | .hostPowerOn | .serviceReset | .power .. | .reset .. => true
  | _ => false

/-- The AU of a command by which an AU goes on by itself: a core that issues nothing and reads no memory but its own instruction, an
operation that ends, a load, a stream. -/
def auAlone : Instr → Option AuId
  | .logicalAuExit a | .dxStnPos a | .dxStnWait a | .dxStnStat a | .dxFset a | .dxFclr a | .dxFwait a | .dxFwaitc a | .dxFwaitx a
    | .flagWaitSatisfied a | .dxFtest a | .dxQlvl a | .dxFlvl a | .dxFpace a | .dxQpace a | .dxLoop a | .dxBrk a | .dxWhere a | .wload a
    | .wloadComplete a | .adaptLoad a | .setf a _ | .clrf a _ | .nop a _ | .stencilDone a _ | .streamHaltResume a _
    | .queueRecordReady a _ _ _ => some a
  | _ => none

/-- The context of a command that works on one context and its rings alone. -/
def ctxAlone : Instr → Option CtxId
  | .ringCtlWrite _ c _ | .doorbellAccepted c | .descriptorStart c | .irqDelayExpiry c _ | .runComplete c | .setStep c _ | .secureNow c _
    | .fence c _ | .preempt c _ | .resync c _ | .setCap c _ | .queryEnergy c _ | .placeHint c _ | .failureNotice c _ => some c
  | _ => none

end Sys2Proof.Machine
end

