-- ==== Sys2Proof/Certificates/Slice0/Obligations.lean ====
section
/-! DEFINITION. The statements for the provers.

The statements named after a family of commands say, for every command of it, where the command completes: each clause has
conditions on the state and the operands alone, and concludes that `exec` answers a next state, with what that state holds. The
other statements are rules of the spec and invariants over every command. -/

open Sys2Proof Sys2Proof.Machine

/-- A step runs the command at the front of the queue. For every command c and state s: with c at the front of the queue, step is exec of c on s with
the rest of the queue. With an empty queue, step answers the same state: the block idles, which is the choice of the model (assumption log 1).
Basis: derived; Opcode table of the part; assumption log 1. -/

def Obligations.Step_runs_the_command_in_front : Prop :=
  (∀ (c : Instr) (rest : List Instr) (s : State), s.pending = c :: rest → step s = exec c { s with pending := rest }) ∧
  (∀ s : State, s.pending = [] → step s = .next s)

/-- What reset leaves. After reset the queue is empty, part time is 0 (R434), every register reads its reset value, every context is FREE with no
owner and no command outstanding, every AU is held by no context, every link port is DISABLED, there is no window and no transaction, every semaphore
is free, and the firmware is not ready. Where the spec gives a register no reset value, the table of the model holds 0 for it (assumption log 7 to
11).
Basis: derived; 10_omwen_links.md: R387, R434; 12_contexts.md: R486; 16_reference.md: R676; 15_security_firmware.md: Table 15.18. -/

def Obligations.Reset_state : Prop :=
  State.reset.pending = [] ∧ State.reset.now = 0 ∧ (∀ k, State.reset.reg k = (regReset k).toNat) ∧
  (∀ c, (State.reset.ctx c).st = .free ∧ (State.reset.ctx c).owner = none ∧ (State.reset.ctx c).ring.cmds = []) ∧
  (∀ n, (State.reset.au n).asg = none) ∧ (∀ p, (State.reset.lport p).state = .disabled) ∧ State.reset.links.windows = [] ∧
  State.reset.links.txns = [] ∧ (∀ n, (State.reset.sem n).holder = none ∧ (State.reset.sem n).waiters = []) ∧
  State.reset.fwUp = false

/-- The state after reset meets the invariant. In the state after reset the register file, host memory, HBM and the flash are in canonical form and no
count of Table 11.10 is above 32 bits.
Basis: derived; 09_memory.md: R325, R333; 11_host.md: Table 11.10. -/

def Obligations.Reset_meets_the_invariant : Prop :=
  State.reset.Inv

/-- Every step keeps the memories and the register file in canonical form and the counts within 32 bits. For every state s that meets the invariant,
if step answers a next state s', then s' meets it: the register file, host memory, HBM and the flash are in canonical form (so equal contents are
equal data), and no count of Table 11.10 is above 32 bits.
Basis: derived; 09_memory.md: R325, R333; 11_host.md: Table 11.10; 16_reference.md: R666 to R671. -/

def Obligations.Every_step_keeps_the_invariant : Prop :=
  ∀ s t : State, s.Inv → step s = .next t → t.Inv

/-- Every command answers a next state and leaves the queue alone. For every command and every state, exec answers a next state, never a fault and
never a refusal, and the queue of the commands that wait is the same.
Basis: derived; Opcode table of the part; assumption log 2. -/

def Obligations.Every_command_answers_a_next_state : Prop :=
  ∀ (c : Instr) (s : State), ∃ t, exec c s = .next t ∧ t.pending = s.pending

/-- Frame: which parts of the state each command may change. For every command, every part of the state that partsOf does not list for it is the same
after it: every byte of host memory, of HBM and of the flash, every register, the host ports, functions, contexts, AUs, links, semaphores, solver
jobs, counts, power, security, part time, the free-value counter and the last answer.
Basis: derived; 12_contexts.md: R521; 11_host.md: R441; 14_power_package.md: R586; 15_security_firmware.md: R630; 16_reference.md: R667. -/

def Obligations.Only_listed_parts_change : Prop :=
  ∀ (c : Instr) (s t : State) (p : Part), exec c s = .next t → p ∉ partsOf c → p.same s t

/-- Frame: what an AU does by itself changes no other AU and no other context. For the commands that auAlone lists (flag, stencil status, level,
pacing and loop instructions of a core, loads, flag operations, the end of a stream, couplings) and every state: every other AU is unchanged, and so
is every context that does not hold the AU.
Basis: derived; 01_architecture.md: R16; 04_programs.md: R123, R140, R144, R161; 02_array_units.md: R55, R56. -/

def Obligations.An_AU_that_goes_on_leaves_the_others : Prop :=
  ∀ (c : Instr) (a : AuId) (s t : State), auAlone c = some a → exec c s = .next t →
    (∀ n : Nat, n ≠ a → t.au n = s.au n) ∧ ∀ d : Nat, (∀ l, (s.au a).asg ≠ some (d, l)) → t.ctx d = s.ctx d

/-- Frame: a command of one context changes no other context. For the commands that ctxAlone lists (ring control, doorbells, starting a descriptor,
the end of a RUN, SET_STEP, SECURE_NOW, FENCE, PREEMPT, RESYNC, SET_CAP, QUERY_ENERGY, PLACE_HINT, FAILURE_NOTICE) and every state, every other
context is unchanged.
Basis: derived; 11_host.md: R460 to R465, R478, R479; 12_contexts.md: R488, R499, R503; 13_resilience.md: R553, R554; 14_power_package.md: R587. -/

def Obligations.A_command_of_one_context_leaves_the_others : Prop :=
  ∀ (i : Instr) (c : CtxId) (s t : State), ctxAlone i = some c → exec i s = .next t → ∀ d : Nat, d ≠ c → t.ctx d = s.ctx d

/-- No command unburns a fuse. For every command: the life-cycle and rollback counts do not fall, no burnt bit of SCRAP or of the revoked keys reads
as not burnt, and the key hash, grade, maker key, UDS and serial number stay as they are.
Basis: derived; 15_security_firmware.md: R626, R627; 00_scope.md: R3. -/

def Obligations.Fuses_change_only_from_0_to_1 : Prop :=
  ∀ (c : Instr) (s t : State), exec c s = .next t → s.sec.fuses.Rise t.sec.fuses

/-- Part time never decreases but where the host side starts again. For every command but those that switch or reset the host side (after which part
time starts again at 0) and but the first time sample after reset (which steps part time to that of the master), part time after the command is at
least part time before it.
Basis: derived; 10_omwen_links.md: R434, R435. -/

def Obligations.Part_time_never_decreases : Prop :=
  ∀ (c : Instr) (s t : State), exec c s = .next t → restartsTime c = false →
    ((∃ a b d, c = .timeSample a b d) → s.links.time.everLocked = true) → s.now ≤ t.now

/-- Completing a command writes its completion entry. For every outstanding command: completing it with a status and a result takes it from the
outstanding commands; unless its host port is lost, CPL_TAIL goes up by one; and where the data link of the port is up and the command asked for an
entry, the 32 bytes at the old tail are its entry with phase, tag, opcode, head, result, time and energy.
Basis: derived; 11_host.md: R465, R466, R470. -/

def Obligations.A_completed_command_has_its_entry : Prop :=
  ∀ (s : State) (c k status result : Nat) (cmd : Cmd), s.cmdAt c k = some cmd → Done s (s.complete c k status result) c k status result

/-- A PF that writes CREATE on a FREE context owns it, HPA before HPB. For every context and whichever PFs write CREATE in one cycle: a FREE context
becomes EMPTY and is owned by the PF of HPA when that PF wrote and by the PF of HPB when only that one wrote, and every other context is unchanged; a
context that is not FREE, and with it the whole state, is unchanged.
Basis: stated; R489. -/

def Obligations.Creating_a_context_by_a_PF : Prop :=
  (∀ (c : CtxId) (hpa hpb : Bool) (s : State), s.barUp = true → (s.ctx c).st = .free → (hpa = true ∨ hpb = true) →
    ∃ t, exec (.createPf c hpa hpb) s = .next t ∧ (t.ctx c).st = .empty ∧ (t.ctx c).owner = some (if hpa then 0 else 16) ∧
      ∀ d : Nat, d ≠ c → t.ctx d = s.ctx d) ∧
  (∀ (c : CtxId) (hpa hpb : Bool) (s : State), (s.ctx c).st ≠ .free → exec (.createPf c hpa hpb) s = .next s)

/-- A reserved opcode or a reserved bit completes the command and does nothing else. For a context that can start its next descriptor: with a reserved
opcode (0, or 14H and above) and no reserved bit set it completes with INVALID_OPCODE (01H); with an opcode of the table and a nonzero reserved bit in
bytes 1 to 3 it completes with INVALID_FIELD (02H). The state answered is that of taking the descriptor and completing it: nothing else happens. (A
descriptor with both is the choice of the model, assumption log 155, and is not stated here.)
Basis: stated; R469. -/

def Obligations.Descriptors_that_break_the_common_bytes : Prop :=
  ∀ (c : CtxId) (s u : State) (d : List Byte) (n : Nat), s.canStart c = true → s.nextDesc c = some d →
    u = s.modCtx c (fun x => { x with ring := { x.ring with
      cmdHead := x.ring.cmdHead + 1, cmds := x.ring.cmds ++ [⟨d, .started, s.now, 0⟩] } }) → n = (s.ctx c).ring.cmds.length →
    ((byteAt d 0 = 0 ∨ 0x14 ≤ byteAt d 0) → bits (byteAt d 1) 7 1 = 0 →
      exec (.descriptorStart c) s = .next (u.complete c n 0x01 0) ∧ Done u (u.complete c n 0x01 0) c n 0x01 0) ∧
    (1 ≤ byteAt d 0 → byteAt d 0 < 0x14 → bits (byteAt d 1) 7 1 ≠ 0 → (byteAt d 0 = 0x08 → (s.ctx c).ring.cmds = []) →
      exec (.descriptorStart c) s = .next (u.complete c n 0x02 0) ∧ Done u (u.complete c n 0x02 0) c n 0x02 0)

/-- An answer with a TSEQ that its slot does not hold is discarded. For every COMPLETE or READ_DATA in the inbox whose TSEQ is not that of a
transaction in the slot that it names: the answer leaves the inbox and its place in the receive buffer of its link port, the state of every link port
stays, and nothing else of the part changes.
Basis: stated; R432. -/

def Obligations.Answers_of_an_older_transaction_are_discarded : Prop :=
  ∀ (n : Nat) (s : State) (p : Nat) (tx : LTxn), s.links.inbox[n]? = some (p, tx) → (tx.hdr.op = 3 ∨ tx.hdr.op = 4) →
    (∀ x, mfind s.links.txns tx.hdr.txn = some x → x.t.hdr.tseq ≠ tx.hdr.tseq) →
    ∃ t, exec (.completeReceive n) s = .next t ∧ t.links.inbox = s.links.inbox.eraseIdx n ∧
      t = { s with links := { s.links with inbox := t.links.inbox, ports := t.links.ports } } ∧
      ∀ q, (t.lport q).state = (s.lport q).state

/-- FAILURE_NOTICE updates M, records the failed part, and does nothing else. For every FAILURE_NOTICE of every context: with every byte 4 to 7 and 18
to 63 zero, the state answered is that in which DST_MTBF holds the M of R552 for the STEP of bytes 8 to 15, the step and the identifier of bytes 16 to
17 are recorded, and the command completes with status 0 and the interval that now applies; nothing else happens. With a nonzero reserved byte it
completes with INVALID_FIELD.
Basis: stated; R554. -/

def Obligations.Failure_notice : Prop :=
  ∀ (c : CtxId) (k : Nat) (s : State) (cmd : Cmd), s.cmdAt c k = some cmd → byteAt cmd.desc 0 = 0x13 ∧ s.serves 0x13 = true →
    (zeroIn cmd.desc 4 8 = true ∧ zeroIn cmd.desc 18 64 = true → ∃ u,
      u = (s.setReg (DST_MTBF c) (nextMtbf (s.reg (DST_MTBF c)) (s.ctx c).dust.lastNotice (fieldLe cmd.desc 8 8))).modDust c
        (fun d => { d with lastNotice := some (fieldLe cmd.desc 8 8), lastFailed := some (fieldLe cmd.desc 16 2) }) ∧
      exec (.failureNotice c k) s = .next (u.complete c k 0 (u.interval c))) ∧
    (zeroIn cmd.desc 4 8 = false ∨ zeroIn cmd.desc 18 64 = false → exec (.failureNotice c k) s = .next (s.complete c k 0x02 0))

/-- SET_CAP and PWR_CAP writes set the one host cap; a service request never does, nor they the service cap. A write of PWR_CAP by the admin PF sets
the host cap to the value, in tens of watts and held between 1000 and 2400 W, whatever it was; a SET_CAP that is accepted sets it to CAP_W, whatever
it was; neither changes the power state, which holds the service cap. A service cap request leaves the host cap as it is, whatever it asks.
Basis: stated; R589. -/

def Obligations.Host_cap_and_service_cap : Prop :=
  (∀ (f : FnId) (v : Word32) (s : State), s.barUp = true → f.val = s.adminPf → ∃ t, exec (.pwrCapWrite f v) s = .next t ∧
    t.hostCap = min 2400 (max 1000 (10 * (bits v.toNat 11 0 / 10))) ∧ t.power = s.power) ∧
  (∀ (c : CtxId) (k : Nat) (s : State) (cmd : Cmd), s.cmdAt c k = some cmd → byteAt cmd.desc 0 = 0x10 ∧ s.serves 0x10 = true →
    cmd.phase = .started ∧ s.ownerOf c = s.adminPf →
    fieldLe cmd.desc 4 2 % 10 = 0 ∧ 1000 ≤ fieldLe cmd.desc 4 2 ∧ fieldLe cmd.desc 4 2 ≤ 2400 →
    bits (byteAt cmd.desc 6) 7 1 = 0 ∧ zeroIn cmd.desc 7 64 = true →
    ∃ t, exec (.setCap c k) s = .next t ∧ t.hostCap = fieldLe cmd.desc 4 2 ∧ t.power = s.power) ∧
  (∀ (w : Nat) (s : State), ∃ t, exec (.powerCap w) s = .next t ∧ t.hostCap = s.hostCap)

/-- BAR0 takes 32-bit accesses, splits 64-bit ones, and refuses every other. For every function: an aligned 32-bit read is answered with 4 bytes; an
aligned 64-bit write is the 32-bit write of the low half to the lower address and then that of the high half to the upper one; an aligned 64-bit read
answers with the bytes of two such reads in that order, and leaves the state that they leave; an access of any other size or alignment answers a read
with zeros, ignores a write, and sets BAD_ACCESS in HUB_STATUS of the function, and nothing else changes.
Basis: stated; R666. -/

def Obligations.Sizes_of_BAR0_accesses : Prop :=
  (∀ (f : FnId) (off : Nat) (s : State), off % 4 = 0 → ∃ t, exec (.rcRead f off 4) s = .next t ∧ t.answer.length = 4) ∧
  (∀ (f : FnId) (off v : Nat) (s : State), off % 8 = 0 → ∃ t u, exec (.bar0RegisterWrite f off 4 (v % 2 ^ 32)) s = .next t ∧
    exec (.bar0RegisterWrite f (off + 4) 4 (v / 2 ^ 32 % 2 ^ 32)) t = .next u ∧ exec (.bar0RegisterWrite f off 8 v) s = .next u) ∧
  (∀ (f : FnId) (off : Nat) (s : State), off % 8 = 0 → ∃ t u, exec (.rcRead f off 4) s = .next t ∧
    exec (.rcRead f (off + 4) 4) t = .next u ∧ exec (.rcRead f off 8) s = .next { u with answer := t.answer ++ u.answer }) ∧
  (∀ (f : FnId) (off size v : Nat) (s : State), s.barUp = true → ¬ (size = 4 ∧ off % 4 = 0) → ¬ (size = 8 ∧ off % 8 = 0) →
    exec (.bar0RegisterWrite f off size v) s = .next (s.setFld (HUB_STATUS f) 9 9 1) ∧
    exec (.rcRead f off size) s = .next { s.setFld (HUB_STATUS f) 9 9 1 with answer := List.replicate size 0 }) ∧
  (∀ (f : FnId) (off size : Nat) (s : State), exec (.loReadLatch f off size) s = exec (.rcRead f off size) s)

/-- A debug read of a Hawk answers only the PF of the port that created the context there. For every function, AU and data word of the debug registers
(340H to 37FH): on an AU with no logical AU the data is 0, DENIED is clear and STATE is EMPTY; on an AU whose context was created through the host
port of another PF, or for a function that is no PF, the data is 0 and DENIED is set; for the PF of the port that created it, the data is the four
bytes of the selected line.
Basis: stated; R206. -/

def Obligations.Who_may_read_a_Hawk_for_debugging : Prop :=
  ∀ (f : FnId) (a : AuId) (s : State) (w : Nat), s.barUp = true → 0x340 ≤ w ∧ w < 0x380 →
    ∃ t u, exec (.hawkDebugRead f a w) s = .next t ∧ exec (.hawkDebugRead f a 0x32C) s = .next u ∧
      ((s.au a).asg = none → t.answer = natLe 4 0 ∧ bit (leNat u.answer) 31 = false ∧ bits (leNat u.answer) 1 0 = 0) ∧
      (∀ c l, (s.au a).asg = some (c, l) → ((s.ctx c).owner.any fun g => fnIsPf f && fnPort g == fnPort f) = false →
        t.answer = natLe 4 0 ∧ bit (leNat u.answer) 31 = true) ∧
      (∀ c l g, (s.au a).asg = some (c, l) → (s.ctx c).owner = some g → fnIsPf f = true ∧ fnPort g = fnPort f →
        t.answer = natLe 4 (leNat (rdBytes (s.au a).hawk (s.dbgLine f a + (w - 0x340)) 4)))

/-- The device physical addresses that exist. An address is a device physical address exactly when it has 40 bits, bits 39 to 36 name one of the
stacks 0 to 11, and bits 35 to 0 are below 36 GiB.
Basis: stated; R325. -/

def Obligations.Device_addresses : Prop :=
  ∀ d : Nat, dpaValid d = true ↔ d < 2 ^ 40 ∧ d / 2 ^ 36 ≤ 11 ∧ d % 2 ^ 36 < 36 * 2 ^ 30

/-- Every byte of a Stencil that passes the checks lies within its extents. For every descriptor that passes the checks of dx.stn.go, whatever the
program declares and whichever logical AU starts it, the address of every byte of its stream lies between EXT_LO and EXT_HI.
Basis: derived; 04_programs.md: R152, R154. -/

def Obligations.A_Stencil_stays_within_its_extents : Prop :=
  ∀ (laus : List LauRec) (bufs : List LbufRec) (starter : Option Nat) (d : List Byte) (p : Nat),
    stnCheck laus bufs starter d = none → p < (stnDesc d).total →
    (stnDesc d).extLo ≤ (stnDesc d).addr p ∧ (stnDesc d).addr p ≤ (stnDesc d).extHi

/-- The stash manager gives the lowest free run that is long enough, and thins only when there is none; BASE_COAT is the highest granted coat below.
For every list of grants, size of the store and positive number of granules: the run given is free throughout and no lower start has a free run of
that length; when none is given, no start has one. For every coat and slot, the base coat is no lower than any granted coat below it, and is 0 or
itself a granted coat below it.
Basis: derived; 06_coats.md: R230, R231. -/

def Obligations.The_undercoat_store_gives_the_lowest_run : Prop :=
  (∀ (gs : List (Nat × Nat)) (total n : Nat), 0 < n →
    (∀ p, lowestRun gs total n = some p → (∀ q, p ≤ q → q < p + n → q < total ∧ ∀ g ∈ gs, ¬ (g.1 ≤ q ∧ q < g.1 + g.2)) ∧
      ∀ p', p' < p → ∃ q, p' ≤ q ∧ q < p' + n ∧ (total ≤ q ∨ ∃ g ∈ gs, g.1 ≤ q ∧ q < g.1 + g.2)) ∧
    (lowestRun gs total n = none → ∀ p', ∃ q, p' ≤ q ∧ q < p' + n ∧ (total ≤ q ∨ ∃ g ∈ gs, g.1 ≤ q ∧ q < g.1 + g.2))) ∧
  (∀ (x : CoatSt) (coats c m : Nat),
    (∀ b, b < c → ∀ e, mfind x.entries (stashIndex coats b m) = some e → e.granted = true → b ≤ x.baseCoat coats c m) ∧
    (x.baseCoat coats c m = 0 ∨ (x.baseCoat coats c m < c ∧
      ∃ e, mfind x.entries (stashIndex coats (x.baseCoat coats c m) m) = some e ∧ e.granted = true)))

/-- The segments of a Roller transfer cover its pieces end to end and none crosses a 2 KiB boundary of its source. For every list of source pieces:
the lengths of the segments add up to those of the pieces; every segment has between 1 byte and 2 KiB, all within one 2 KiB of its source address; and
each segment lands where the segments before it end.
Basis: derived; 09_memory.md: R350, R372. -/

def Obligations.The_pieces_of_a_Roller_transfer : Prop :=
  ∀ (dest : Nat) (ps : List (Nat × Nat)),
    ((pieceSegs dest ps).map fun g => g.2.2).sum = (ps.map Prod.snd).sum ∧
    (∀ g ∈ pieceSegs dest ps, 0 < g.2.2 ∧ g.2.2 ≤ 2048 ∧ g.1 / 2048 = (g.1 + g.2.2 - 1) / 2048) ∧
    (∀ (k : Nat) (g : Nat × Nat × Nat), (pieceSegs dest ps)[k]? = some g →
      g.2.1 = dest + (((pieceSegs dest ps).take k).map fun g => g.2.2).sum)

/-- Widening FP32 to MW48 is exact; the top 32 bits of an MW48 value are the value with its fraction truncated. For every 32-bit word: as MW48 with 16
zero bits appended it has the value it has as FP32. For every 48-bit word whose MW48 value is finite: the top 32 bits as FP32 have the same sign and
exponent and the truncated fraction.
Basis: derived; 03_numerics.md: R81, R82. -/

def Obligations.Master_weights_and_FP32 : Prop :=
  (∀ w : Nat, w < 2 ^ 32 → mw48.decode (2 ^ 16 * w) = match fp32.decode w with | .fin a m e => .fin a (2 ^ 16 * m) (e - 16) | v => v) ∧
  (∀ (v : Nat) (a : Bool) (m : Nat) (e : Int), v < 2 ^ 48 → mw48.decode v = .fin a m e →
    fp32.decode (v / 2 ^ 16) = .fin a (m / 2 ^ 16) (e + 16))

/-- Operations of an engine that start after a flag, and its flag operations. When the conditions on the state and the operands that a clause names
hold, exec answers a next state, as follows. OP_START_AFTER_WAIT, array unit: the first compute operation, whose WEN flag is met and whose operands
are ready, begins; OP_START_AFTER_WAIT, load unit: the first load, whose flag is met and whose unit is ready, begins and takes a bank or a directory
entry to fill; OP_START_AFTER_WAIT, drain unit: the first drain, whose flag is met, whose first row is ready and whose formats agree, begins;
OP_START_AFTER_WAIT, Screed: the first row operation, whose flag is met, begins as the Screed starts one; OP_START_AFTER_WAIT, Trowel: the first
Trowel operation, whose flag is met and whose step size has come, begins as the Trowel starts one; OP_START_AFTER_WAIT, MOVE unit: the first waiting
transfer of each MOVE queue is started; SETF: once every earlier operation of its engine is done and its flag is met, the operation leaves the FIFO
and the flag is 1; CLRF: the same, and the flag is 0; NOP: once no earlier operation waits and its flag is met, the operation leaves the FIFO and
nothing else happens. Choices and inferences of the model in these clauses: assumption log 128, 140.
Basis: derived; 04_programs.md: R139, R140. -/

def Obligations.Array_operations_and_flags : Prop :=
  -- OP_START_AFTER_WAIT, array unit: the first compute operation, whose WEN flag is met and whose operands are ready, begins
  (∀ (a : AuId) (u : UnitId) (s : State) (c l : Nat) (op : FifoOp), u.val = 0 ∧ s.live a = some (c, l) ∧ (s.au a).nextOf 0 = some op ∧ opWen op.word = true ∧ s.flagTest c op.word = true ∧ s.computeReady a op = true → 
    ∃ t, exec (.opStartAfterWait a u) s = .next t ∧ (t = s.beginOp a 0 c op)) ∧
  -- OP_START_AFTER_WAIT, load unit: the first load, whose flag is met and whose unit is ready, begins and takes a bank or a directory entry to fill
  (∀ (a : AuId) (u : UnitId) (s : State) (c l : Nat) (op : FifoOp), u.val = 1 ∧ s.live a = some (c, l) ∧ (s.au a).nextOf 1 = some op ∧ opWen op.word = true ∧ s.flagTest c op.word = true ∧ s.loadReady a op = true → 
    ∃ t, exec (.opStartAfterWait a u) s = .next t ∧ (t = (s.beginOp a 1 c op).modAu a fun x => x.beginLoad op)) ∧
  -- OP_START_AFTER_WAIT, drain unit: the first drain, whose flag is met, whose first row is ready and whose formats agree, begins
  (∀ (a : AuId) (u : UnitId) (s : State) (c l : Nat) (op : FifoOp), (u.val = 2 ∧ s.live a = some (c, l) ∧ (s.au a).nextOf 2 = some op ∧ opWen op.word = true ∧ s.flagTest c op.word = true ∧ (s.au a).drainRowReady op.seq op.word 0 = true ∧ (s.au a).drainMismatch op = false) → 
    ∃ t, exec (.opStartAfterWait a u) s = .next t ∧ (t = s.beginOp a 2 c op)) ∧
  -- OP_START_AFTER_WAIT, Screed: the first row operation, whose flag is met, begins as the Screed starts one
  (∀ (a : AuId) (u : UnitId) (s : State) (c l : Nat) (op : FifoOp), u.val = 3 ∧ s.live a = some (c, l) ∧ (s.au a).nextOf 3 = some op ∧ opWen op.word = true ∧ s.flagTest c op.word = true → 
    ∃ t, exec (.opStartAfterWait a u) s = .next t ∧ (t = (s.beginOp a 3 c op).scrOnStart a c op)) ∧
  -- OP_START_AFTER_WAIT, Trowel: the first Trowel operation, whose flag is met and whose step size has come, begins as the Trowel starts one
  (∀ (a : AuId) (u : UnitId) (s : State) (c l : Nat) (op : FifoOp), u.val = 4 ∧ s.live a = some (c, l) ∧ (s.au a).nextOf 4 = some op ∧ opWen op.word = true ∧ s.flagTest c op.word = true ∧ s.etaReady c op.word = true → 
    ∃ t, exec (.opStartAfterWait a u) s = .next t ∧ (t = (s.beginOp a 4 c op).trwOnStart a c op)) ∧
  -- OP_START_AFTER_WAIT, MOVE unit: the first waiting transfer of each MOVE queue is started
  (∀ (a : AuId) (u : UnitId) (s : State), u.val = 5 → 
    ∃ t, exec (.opStartAfterWait a u) s = .next t ∧ (t = ((s.startMove a true 0).startMove a true 1).startMove a true 2)) ∧
  -- SETF: once every earlier operation of its engine is done and its flag is met, the operation leaves the FIFO and the flag is 1
  (∀ (a : AuId) (e : EngId) (s : State) (c : Nat) (op : FifoOp), s.firstKind a e 0xC = some (c, op) ∧ s.allBefore a e op.seq = true ∧ s.flagTest c op.word = true → 
    ∃ t, exec (.setf a e) s = .next t ∧ (t = (s.popOp a e c op).setFlag c (bits op.word 7 0) true)) ∧
  -- CLRF: the same, and the flag is 0
  (∀ (a : AuId) (e : EngId) (s : State) (c : Nat) (op : FifoOp), s.firstKind a e 0xD = some (c, op) ∧ s.allBefore a e op.seq = true ∧ s.flagTest c op.word = true → 
    ∃ t, exec (.clrf a e) s = .next t ∧ (t = (s.popOp a e c op).setFlag c (bits op.word 7 0) false)) ∧
  -- NOP: once no earlier operation waits and its flag is met, the operation leaves the FIFO and nothing else happens
  (∀ (a : AuId) (e : EngId) (s : State) (c : Nat) (op : FifoOp), (s.firstKind a e 0xF = some (c, op) ∧ ((s.au a).waitingBefore e op.seq fun w => (unitOf e w).isSome) = false ∧ s.flagTest c op.word = true) → 
    ∃ t, exec (.nop a e) s = .next t ∧ (t = s.popOp a e c op))

/-- Rows, loads and drains of the array. When the conditions on the state and the operands that a clause names hold, exec answers a next state, as
follows. COMPUTE, one row: the accumulators and the adapter hold what the row's operands give; the operation has one row more done or is over; with no
saturation and no non-finite value the AU counts one row and no more; COMPUTE, begin: the first compute operation with no flag to wait for begins once
it is ready; SWAP_BANK_HELD: a row that waits for the bank to swap is computed by the same rule; WLOAD, tiles: bytes of the tile are pulled from the
queue into each quadrant that the operation names; WLOAD, begin: the first load with no flag to wait for begins once its unit is ready;
WLOAD_COMPLETE: with all tiles in, the operation is over and each quadrant's loading bank is loaded with the operation's format; ADAPT_LOAD: the bytes
that the queue holds go into the adapter's place; short of the piece's size the operation goes on, else it is over and the directory has the entry;
DRAIN, one row: a row that is ready is pushed to the queues at its output format and the operation goes on to the next row or is over; DRAIN, begin:
the first drain with no flag to wait for and matching formats begins. Choices and inferences of the model in these clauses: assumption log 12, 138,
139, 140, 141.
Basis: derived; 02_array_units.md: R56, R58, R60, R64, R68. -/

def Obligations.Array_rows_loads_and_drains : Prop :=
  -- COMPUTE, one row: the accumulators and the adapter hold what the row's operands give; the operation has one row more done or is over; with no saturation and no non-finite value the AU counts one row and no more
  (∀ (a : AuId) (s : State) (c l : Nat) (op : ActiveOp) (rows : List RowIn) (keep tag : List Byte) (a1 a2 : Au) (o : AccOut), s.opOf a 0 = some (c, l, op) ∧ (s.au a).rowFree op.seq op.word op.done = true ∧ (cSwap op.word && !op.swapped) = false → ((s.au a).popRows op.word op.done (cLen op.word) (computeQueues op.word) op.data = some (rows, keep, a1) ∧ (if cAdp op.word = 0 then some ([], a1) else a1.pop (cTagq op.word) 2) = some (tag, a2)) → (¬ (op.done = 0 ∧ fmtsBroken (cGanged op.word) (cFmt op.word) ((quadsOf (cQmask op.word)).map fun k => (a2.array.quad k).bank (a2.array.quad k).activeB) = true)) → adaptRow (Config.free s.free) op.word (cBase op.word + op.done) (leNat tag) (rows.headD []) (computeBase (Config.free s.free) op.word (cBase op.word + op.done) rows a2.array) = .ok o → 
    ∃ t, exec (.compute a) s = .next t ∧ ((t.au a).array = o.arr ∧ (if op.done + 1 < cRows op.word then ∃ op1, (t.au a).act 0 = some op1 ∧ op1.done = op.done + 1 ∧ op1.word = op.word else (t.au a).act 0 = none) ∧ (o.nonfin = 0 → o.sat = 0 → t.reg64 (AU_ARRAY_ROWS_LO a) (AU_ARRAY_ROWS_HI a) = (s.reg64 (AU_ARRAY_ROWS_LO a) (AU_ARRAY_ROWS_HI a) + 1) % 2 ^ 64))) ∧
  -- COMPUTE, begin: the first compute operation with no flag to wait for begins once it is ready
  (∀ (a : AuId) (s : State) (c l : Nat) (op : FifoOp), s.live a = some (c, l) ∧ (s.au a).nextOf 0 = some op ∧ opWen op.word = false ∧ s.computeReady a op = true → 
    ∃ t, exec (.compute a) s = .next t ∧ (t = s.beginOp a 0 c op)) ∧
  -- SWAP_BANK_HELD: a row that waits for the bank to swap is computed by the same rule
  (∀ (a : AuId) (s : State) (c l : Nat) (op : ActiveOp), s.opOf a 0 = some (c, l, op) ∧ cSwap op.word = true ∧ op.done = 0 ∧ op.swapped = false → (s.au a).swapHeld op.seq op.word = true → 
    ∃ t, exec (.swapBankHeld a) s = .next t ∧ (t = s.computeRow a c op)) ∧
  -- WLOAD, tiles: bytes of the tile are pulled from the queue into each quadrant that the operation names
  (∀ (a : AuId) (s : State) (c l : Nat) (op : ActiveOp), s.opOf a 1 = some (c, l, op) ∧ opKind op.word = 1 → 
    ∃ t, exec (.wload a) s = .next t ∧ (t = (s.modAu a fun x => (quadsOf (bits op.word 47 44)).foldl (fun y k => y.pullTile op.word k) x).progress c)) ∧
  -- WLOAD, begin: the first load with no flag to wait for begins once its unit is ready
  (∀ (a : AuId) (s : State) (c l : Nat) (op : FifoOp), s.live a = some (c, l) ∧ (s.au a).nextOf 1 = some op ∧ opWen op.word = false ∧ s.loadReady a op = true → 
    ∃ t, exec (.wload a) s = .next t ∧ (t = (s.beginOp a 1 c op).modAu a fun x => x.beginLoad op)) ∧
  -- WLOAD_COMPLETE: with all tiles in, the operation is over and each quadrant's loading bank is loaded with the operation's format
  (∀ (a : AuId) (s : State) (c l : Nat) (op : ActiveOp), s.opOf a 1 = some (c, l, op) ∧ opKind op.word = 1 ∧ (s.au a).tilesIn op.word = true → 
    ∃ t, exec (.wloadComplete a) s = .next t ∧ ((t.au a).act 1 = none ∧ (t.au a).array = (quadsOf (bits op.word 47 44)).foldl (fun y k => y.modQuad k fun q => match q.loading with | some b => { q.putBank b { q.bank b with loaded := some ⟨bits op.word 43 40, bits op.word 39 38, bits op.word 37 37⟩ } with loading := none } | none => q) (s.au a).array)) ∧
  -- ADAPT_LOAD: the bytes that the queue holds go into the adapter's place; short of the piece's size the operation goes on, else it is over and the directory has the entry
  (∀ (a : AuId) (s : State) (c l : Nat) (op : ActiveOp) (p : List Byte × Au), s.opOf a 1 = some (c, l, op) ∧ opKind op.word = 2 ∧ p = (s.au a).pull (8 + bits op.word 47 46) (pieceBytes op.word) 0 op.done → 
    ∃ t, exec (.adaptLoad a) s = .next t ∧ (if op.done + p.1.length < pieceBytes op.word then (t.au a).act 1 = some { op with done := op.done + p.1.length } ∧ (t.au a).array = p.2.array.putPiece (bits op.word 45 39) op.done p.1 else (t.au a).act 1 = none ∧ (t.au a).array.dir = addEntry (p.2.array.putPiece (bits op.word 45 39) op.done p.1).dir (adapterEntry op.word))) ∧
  -- DRAIN, one row: a row that is ready is pushed to the queues at its output format and the operation goes on to the next row or is over
  (∀ (a : AuId) (s : State) (c l : Nat) (op : ActiveOp) (b : Au), (s.opOf a 2 = some (c, l, op) ∧ (if dDown op.word then dBs op.word else 1) = 1) → ((s.au a).drainRowReady op.seq op.word op.done = true ∧ (s.au a).pushAll (((s.au a).array.drainRow op.word op.done).map fun p => (p.1, drainOut op.word p.2)) = some b) → 
    ∃ t, exec (.drain a) s = .next t ∧ (t = (s.putAu a (if op.done + 1 < dRows op.word then b.putAct 2 { op with done := op.done + 1 } else { b with acts := mdel b.acts 2 })).progress c)) ∧
  -- DRAIN, begin: the first drain with no flag to wait for and matching formats begins
  (∀ (a : AuId) (s : State) (c l : Nat) (op : FifoOp), (s.live a = some (c, l) ∧ (s.au a).nextOf 2 = some op ∧ opWen op.word = false ∧ (s.au a).drainMismatch op = false) → 
    ∃ t, exec (.drain a) s = .next t ∧ (t = s.beginOp a 2 c op))

/-- Link work, collectives and their chunks. When the conditions on the state and the operands that a clause names hold, exec answers a next state, as
follows. LINK_WORK_POST: an entry of the work ring whose page may be written, with its post nibble 1 and not yet taken, is the last of those posted;
LINK_WORK_START, one write: the next bytes of a window write, up to a 64 KiB boundary, are read and sent; the entry counts them issued and one
transaction more outstanding; LINK_WORK_COMPLETE: an entry with all its bytes issued and acknowledged and no flag to set leaves the ring, and the
links are unchanged; COLL_ABORT_RECEIVE: an abort for a collective that the member has not begun is kept by its sequence number and status;
COLL_TIMEOUT: a collective with no progress for the limit of LNK_TIMEOUT leaves the ring; COLL_CHUNK_RECEIVE: a chunk that its collective can take is
taken, its sequence number is remembered and it is answered with status 0; STEP_END_EXCHANGE: with every member's contribution in and no flag to set,
the entry leaves the ring and the group's step end is noted. Choices and inferences of the model in these clauses: assumption log 3, 82, 94, 98, 99,
103.
Basis: derived; 10_omwen_links.md: R417, R418, R424, R427, R429. -/

def Obligations.Link_work_and_collectives : Prop :=
  -- LINK_WORK_POST: an entry of the work ring whose page may be written, with its post nibble 1 and not yet taken, is the last of those posted
  (∀ (c : CtxId) (i : Nat) (s : State) (va : Nat), s.workVa c i = some va ∧ i < s.workSize c → (s.ctx c).checkAll true (pagesOf va 64) = .ok () → byteAt (s.vpeek c va 1) 0 % 16 = 1 → mfind (s.ctx c).linkWork i = none ∧ (s.ctx c).posted.contains i = false → 
    ∃ t, exec (.linkWorkPost c i) s = .next t ∧ (t = s.modCtx c fun x => { x with posted := x.posted ++ [i] })) ∧
  -- LINK_WORK_START, one write: the next bytes of a window write, up to a 64 KiB boundary, are read and sent; the entry counts them issued and one transaction more outstanding
  (∀ (c : CtxId) (i : Nat) (s : State) (e y : LinkEntry) (n : Nat) (bs : List Byte) (u v : State), mfind (s.ctx c).linkWork i = some e ∧ e.op = 0 ∧ e.srcq = none → e.fail = none ∧ e.result = none ∧ e.issued < e.len ∧ (s.ctx c).awayFor e = false → n = min (e.len - e.issued) (65536 - (e.woff + e.issued) % 65536) ∧ s.readAt c e.local_ e.issued n = .ok (bs, u) → u.sendTxn (.entry c i) c 1 e.group e.handle (e.woff + e.issued) n bs [] 1 (0, 0) = .sent v → mfind (v.ctx c).linkWork i = some y → 
    ∃ t, exec (.linkWorkStart c i) s = .next t ∧ (mfind (t.ctx c).linkWork i = some { y with issued := y.issued + n, out := y.out + 1 } ∧ t.links = v.links)) ∧
  -- LINK_WORK_COMPLETE: an entry with all its bytes issued and acknowledged and no flag to set leaves the ring, and the links are unchanged
  (∀ (c : CtxId) (i : Nat) (s : State) (e : LinkEntry), mfind (s.ctx c).linkWork i = some e ∧ e.isColl = false ∧ e.flagEn = false → e.fail = none ∧ e.result = none ∧ e.issued = e.len ∧ e.out = 0 → 
    ∃ t, exec (.linkWorkComplete c i) s = .next t ∧ (mfind (t.ctx c).linkWork i = none ∧ t.links = s.links)) ∧
  -- COLL_ABORT_RECEIVE: an abort for a collective that the member has not begun is kept by its sequence number and status
  (∀ (n : Nat) (s : State) (p : Nat) (tx : LTxn) (u : State) (c : Nat) (g : Group), s.takeInbox n [8] = some (p, tx, u) ∧ u.groupCtx (tx.hdr.handle / 2 ^ 24) = some c → (((u.ctx c).linkWork.find? fun e => e.2.isColl && e.2.group == tx.hdr.handle / 2 ^ 24 && e.2.collSeq % 2 ^ 24 == tx.hdr.handle % 2 ^ 24) = none) → mfind (u.ctx c).colls (tx.hdr.handle / 2 ^ 24) = some g → 
    ∃ t, exec (.collAbortReceive n) s = .next t ∧ (mfind (t.ctx c).colls (tx.hdr.handle / 2 ^ 24) = some { g with aborted := (tx.hdr.handle % 2 ^ 24, tx.hdr.status) :: g.aborted })) ∧
  -- COLL_TIMEOUT: a collective with no progress for the limit of LNK_TIMEOUT leaves the ring
  (∀ (c : CtxId) (i τ : Nat) (s : State) (e : LinkEntry), mfind (s.ctx c).linkWork i = some e ∧ e.isColl = true ∧ e.flagEn = false ∧ e.result = none → e.since + 1000000 * s.fld LNK_TIMEOUT 31 16 ≤ τ → 
    ∃ t, exec (.collTimeout c i τ) s = .next t ∧ (mfind (t.ctx c).linkWork i = none ∧ t.now = max s.now τ)) ∧
  -- COLL_CHUNK_RECEIVE: a chunk that its collective can take is taken, its sequence number is remembered and it is answered with status 0
  (∀ (n : Nat) (s : State) (p : Nat) (tx : LTxn) (u v : State) (c i : Nat) (e : LinkEntry) (g : Group), s.takeInbox n [6] = some (p, tx, u) ∧ s.isSelf tx.hdr.dst = true → u.seenTseq tx.hdr.org tx.hdr.tseq = false ∧ u.links.fenced.contains tx.hdr.org = false → u.groupCtx (tx.hdr.handle / 2 ^ 24) = some c ∧ mfind (u.ctx c).colls (tx.hdr.handle / 2 ^ 24) = some g ∧ g.members.contains tx.hdr.org = true → (((u.ctx c).linkWork.find? fun e => e.2.isColl && e.2.group == tx.hdr.handle / 2 ^ 24 && e.2.collSeq % 2 ^ 24 == tx.hdr.handle % 2 ^ 24) = some (i, e)) → (e.mismatch tx.hdr.args = false ∧ u.mboxFull c = false) → (u.ctx c).st ≠ .restoring ∧ (u.ctx c).awayFor e = false ∧ e.staged + ceilDiv tx.data.length 2048 ≤ 64 → u.takeChunk c i e g (byteAt tx.hdr.args 3) tx.hdr.offset tx = .ok v → 
    ∃ t, exec (.collChunkReceive n) s = .next t ∧ (t = ((v.rememberTseq tx.hdr.org tx.hdr.tseq).answer_ tx 4 0 tx.hdr.offset []).progress c)) ∧
  -- STEP_END_EXCHANGE: with every member's contribution in and no flag to set, the entry leaves the ring and the group's step end is noted
  (∀ (c : CtxId) (s : State) (i : Nat) (e : LinkEntry) (g : Group) (cs : List (List Byte)), (((s.ctx c).linkWork.find? fun e => e.2.op == 6 && e.2.result.isNone && e.2.fail.isNone) = some (i, e) ∧ mfind (s.ctx c).linkWork i = some e) → mfind (s.ctx c).colls e.group = some g ∧ e.out = 0 ∧ e.outbox = [] ∧ e.contribs (List.range g.n) = some cs ∧ e.flagEn = false → 
    ∃ t, exec (.stepEndExchange c) s = .next t ∧ (mfind (t.ctx c).linkWork i = none ∧ e.group ∈ (t.ctx c).dust.stepEnds))

/-- The life of a context. When the conditions on the state and the operands that a clause names hold, exec answers a next state, as follows.
CREATE_PF: a FREE context becomes EMPTY, owned by the PF that wrote (HPA's when both did), every other context is unchanged and every register of its
set-up page is at its reset value; CREATE_VF: a VF below its MAX_CTX binds the lowest FREE context to its empty slot, EMPTY and owned by it;
CREATE_FAIL of the slot is 0; every other context is unchanged; DESTROY: a context that its owner destroys is DESTROYING and power is unchanged;
DESTRUCTION_COMPLETE: a DESTROYING context is FREE, with everything at reset, and every other context is unchanged; RUN_COMPLETE: a RUNNING context
whose AUs are all finished is READY and every other context is unchanged; PREEMPT: a READY or unfinished RUNNING context is PREEMPTING with the host
as the cause, keeps its placement, and its command stays under way; PREEMPTION_SAVE_COMPLETE: a PREEMPTING context with no segment in flight is
PREEMPTED, gives up its AUs and notes where it was, unless a PLACE_HINT waits to move it: then it is RESUMING; RESUME: a PREEMPTED context with no
stack pins for which AUs are found is RESUMING on them; RESUMPTION_COMPLETE: a RESUMING context goes back to the state it was in, with the flag
changes that its mailbox kept applied and the mailbox empty; DISPLACED_RESUME: the first displaced context for which AUs are free is RESUMING on them;
PLACE_HINT: in EMPTY, PREEMPTED or READY without MOVE, the context takes the pins and groups, stays in its state, and the command completes with
status 0. Choices and inferences of the model in these clauses: assumption log 6, 11, 15, 62.
Basis: derived; 12_contexts.md: R489, R490, R492, R494, R499, R502, R503, R504, R507, R511. -/

def Obligations.Contexts_created_and_destroyed : Prop :=
  -- CREATE_PF: a FREE context becomes EMPTY, owned by the PF that wrote (HPA's when both did), every other context is unchanged and every register of its set-up page is at its reset value
  (∀ (c : CtxId) (hpa hpb : Bool) (s : State), s.barUp = true → (s.ctx c).st = .free → (hpa = true ∨ hpb = true) → 
    ∃ t, exec (.createPf c hpa hpb) s = .next t ∧ (t.ctx c = { Ctx.reset with st := .empty, owner := some (if hpa then 0 else 16) } ∧ (∀ d : Nat, d ≠ c → t.ctx d = s.ctx d) ∧ ∀ k, 0x200000 + 0x1000 * c.val ≤ k → k < 0x201000 + 0x1000 * c.val → t.reg k = (regReset k).toNat)) ∧
  -- CREATE_VF: a VF below its MAX_CTX binds the lowest FREE context to its empty slot, EMPTY and owned by it; CREATE_FAIL of the slot is 0; every other context is unchanged
  (∀ (f : FnId) (j : SlotId) (s : State) (c : Nat), s.barUp = true → fnIsPf f = false → s.slotCtx f j = none → (s.owned f).length < s.fld (PCIE_VF_CTL (fnPort f) (f % 16)) 4 0 → s.lowestFree = some c → 
    ∃ t, exec (.createVf f j) s = .next t ∧ (t.ctx c = { Ctx.reset with st := .empty, owner := some f.val, slot := some j.val } ∧ (t.fn f).createFail.contains j.val = false ∧ ∀ d, d ≠ c → t.ctx d = s.ctx d)) ∧
  -- DESTROY: a context that its owner destroys is DESTROYING and power is unchanged
  (∀ (f : FnId) (c : CtxId) (s : State), s.barUp = true → s.owns f c = true → (s.ctx c).st ≠ .free ∧ (s.ctx c).st ≠ .destroying → 
    ∃ t, exec (.destroy f c) s = .next t ∧ ((t.ctx c).st = .destroying ∧ t.power = s.power)) ∧
  -- DESTRUCTION_COMPLETE: a DESTROYING context is FREE, with everything at reset, and every other context is unchanged
  (∀ (c : CtxId) (s : State), (s.ctx c).st = .destroying → 
    ∃ t, exec (.destructionComplete c) s = .next t ∧ (t.ctx c = Ctx.reset ∧ (∀ d : Nat, d ≠ c → t.ctx d = s.ctx d))) ∧
  -- RUN_COMPLETE: a RUNNING context whose AUs are all finished is READY and every other context is unchanged
  (∀ (c : CtxId) (s : State), (s.ctx c).st = .running → s.fwHalted = false → s.allFinished c = true → 
    ∃ t, exec (.runComplete c) s = .next t ∧ ((t.ctx c).st = .ready ∧ ∀ d : Nat, d ≠ c → t.ctx d = s.ctx d)) ∧
  -- PREEMPT: a READY or unfinished RUNNING context is PREEMPTING with the host as the cause, keeps its placement, and its command stays under way
  (∀ (c : CtxId) (k : Nat) (s : State) (cmd : Cmd), s.cmdAt c k = some cmd → byteAt cmd.desc 0 = 0x09 ∧ s.serves 0x09 = true → cmd.phase = .started ∧ zeroIn cmd.desc 4 64 = true → ((s.ctx c).st = .ready ∨ (s.ctx c).st = .running ∧ s.allFinished c = false) → 
    ∃ t, exec (.preempt c k) s = .next t ∧ ((t.ctx c).st = .preempting ∧ (t.ctx c).cause = .host ∧ (t.ctx c).place = (s.ctx c).place ∧ (t.cmdAt c k).map Cmd.phase = some (.underway 0 0))) ∧
  -- PREEMPTION_SAVE_COMPLETE: a PREEMPTING context with no segment in flight is PREEMPTED, gives up its AUs and notes where it was, unless a PLACE_HINT waits to move it: then it is RESUMING
  (∀ (c : CtxId) (s : State), (s.ctx c).st = .preempting → s.segsOf c = false → 
    ∃ t, exec (.preemptionSaveComplete c) s = .next t ∧ (((t.ctx c).st = .preempted ∧ (t.ctx c).place = [] ∧ (t.ctx c).lastPlace = (s.ctx c).place) ∨ ((t.ctx c).st = .resuming ∧ ∃ d ∈ (s.ctx c).ring.cmds, byteAt d.desc 0 = 0x12))) ∧
  -- RESUME: a PREEMPTED context with no stack pins for which AUs are found is RESUMING on them
  (∀ (c : CtxId) (k : Nat) (s : State) (cmd : Cmd) (p : Map Nat) (u : State), s.cmdAt c k = some cmd → byteAt cmd.desc 0 = 0x0A ∧ s.serves 0x0A = true → cmd.phase = .started ∧ zeroIn cmd.desc 4 64 = true → (s.ctx c).st = .preempted ∧ (s.ctx c).stackPins = [] → (s.setPhase c k (.underway 0 0)).findPlace c (s.ctx c).nLaus (s.ctx c).bufs [] none = some (p, u) → 
    ∃ t, exec (.resume c k) s = .next t ∧ ((t.ctx c).st = .resuming ∧ (t.ctx c).place = p)) ∧
  -- RESUMPTION_COMPLETE: a RESUMING context goes back to the state it was in, with the flag changes that its mailbox kept applied and the mailbox empty
  (∀ (c : CtxId) (s : State), (s.ctx c).st = .resuming → (s.port (s.ctxPort c)).lost = false → 
    ∃ t, exec (.resumptionComplete c) s = .next t ∧ ((t.ctx c).st = (s.ctx c).before ∧ (t.ctx c).mbox = [] ∧ (t.ctx c).flags = (s.ctx c).mbox.foldl (fun w p => flagPut w p.flag p.value) (s.ctx c).flags)) ∧
  -- DISPLACED_RESUME: the first displaced context for which AUs are free is RESUMING on them
  (∀ (s : State) (c : Nat) (cs : List Nat) (p : Map Nat), s.displacedOrder = c :: cs → s.placeAus c (s.ctx c).nLaus (s.ctx c).bufs (s.freeFor c []) = some p → (s.ctx c).stackPins = [] → 
    ∃ t, exec (.displacedResume) s = .next t ∧ ((t.ctx c).st = .resuming ∧ (t.ctx c).place = p)) ∧
  -- PLACE_HINT: in EMPTY, PREEMPTED or READY without MOVE, the context takes the pins and groups, stays in its state, and the command completes with status 0
  (∀ (c : CtxId) (k : Nat) (s : State) (cmd : Cmd) (y : Ctx), s.cmdAt c k = some cmd → byteAt cmd.desc 0 = 0x12 ∧ s.serves 0x12 = true → cmd.phase = .started → (s.ctx c).takeHints cmd.desc = some y → ((s.ctx c).st = .empty ∨ (s.ctx c).st = .preempted ∨ (s.ctx c).st = .ready ∧ bit (byteAt cmd.desc 6) 0 = false) → 
    ∃ t, exec (.placeHint c k) s = .next t ∧ ((t.ctx c).pins = y.pins ∧ (t.ctx c).groups = y.groups ∧ (t.ctx c).stackPins = y.stackPins ∧ (t.ctx c).st = (s.ctx c).st ∧ Done s t c k 0 0))

/-- Operations issued by the control core, and its Stencils. When the conditions on the state and the operands that a clause names hold, exec answers
a next state, as follows. DX_ISSUE: with a place in the engine's FIFO and an operation it takes, the operation is pushed, rd is 1 and the core goes
on; DX_TRYISSUE with a place: the same; DX_TRYISSUE with no place: rd is 0 and the core goes on; FIFO_PLACE_FREE: a core held in dx.issue pushes its
operation once there is a place; DX_STN_LD: an idle Stencil takes the 64 bytes at rs1; DX_STN_GO: an idle Stencil whose pattern passes the checks and
whose queue end is free becomes active; DX_STN_POS: rd is the number of runs completed; DX_STN_WAIT: the core goes on once the Stencil is not busy;
DX_STN_STAT: rd is the Stencil's state. Choices and inferences of the model in these clauses: assumption log 126, 127, 150.
Basis: derived; 04_programs.md: R136, R153, R154, R161. -/

def Obligations.Issue_from_the_core_and_Stencils : Prop :=
  -- DX_ISSUE: with a place in the engine's FIFO and an operation it takes, the operation is pushed, rd is 1 and the core goes on
  (∀ (a : AuId) (s u : State) (c : Nat) (e rs1 rd : Nat), s.AtDx a c (.issue e rs1 rd) u → (u.au a).fifoFree e = true ∧ opReject e (u.au a).part (u.xreg a rs1) = none → 
    ∃ t, exec (.dxIssue a) s = .next t ∧ (t = ((u.modAu a fun x => x.pushOp e (u.xreg a rs1)).dxSet a rd 1).progress c)) ∧
  -- DX_TRYISSUE with a place: the same
  (∀ (a : AuId) (s u : State) (c : Nat) (e rs1 rd : Nat), s.AtDx a c (.tryissue e rs1 rd) u → (u.au a).fifoFree e = true ∧ opReject e (u.au a).part (u.xreg a rs1) = none → 
    ∃ t, exec (.dxTryissue a) s = .next t ∧ (t = ((u.modAu a fun x => x.pushOp e (u.xreg a rs1)).dxSet a rd 1).progress c)) ∧
  -- DX_TRYISSUE with no place: rd is 0 and the core goes on
  (∀ (a : AuId) (s u : State) (c : Nat) (e rs1 rd : Nat), s.AtDx a c (.tryissue e rs1 rd) u → (u.au a).fifoFree e = false → 
    ∃ t, exec (.dxTryissue a) s = .next t ∧ (t = (u.dxSet a rd 0).progress c)) ∧
  -- FIFO_PLACE_FREE: a core held in dx.issue pushes its operation once there is a place
  (∀ (a : AuId) (s u : State) (c e rs1 rd : Nat), s.HeldDx a .issue c (.issue e rs1 rd) u ∧ (s.core a).wait = .issue → (u.au a).fifoFree e = true ∧ opReject e (u.au a).part (u.xreg a rs1) = none → 
    ∃ t, exec (.fifoPlaceFree a) s = .next t ∧ (t = ((u.modAu a fun x => x.pushOp e (u.xreg a rs1)).dxSet a rd 1).progress c)) ∧
  -- DX_STN_LD: an idle Stencil takes the 64 bytes at rs1
  (∀ (a : AuId) (s u : State) (c : Nat) (st rs1 : Nat) (bs : List Byte) (v : State), s.HeldDx a .stnLd c (.stnLd st rs1) u → u.xreg a rs1 % 64 = 0 ∧ ((u.au a).stn st).busy = false → u.vread c (u.xreg a rs1) 64 = .ok (bs, v) → 
    ∃ t, exec (.dxStnLd a) s = .next t ∧ (t = ((v.modAu a fun x => x.loadStn st bs).dxDone a).progress c)) ∧
  -- DX_STN_GO: an idle Stencil whose pattern passes the checks and whose queue end is free becomes active
  (∀ (a : AuId) (s u : State) (c : Nat) (st l : Nat) (p : Program), s.HeldDx a .stnGo c (.stnGo st) u → ((u.au a).stn st).busy = false ∧ (u.au a).asg = some (c, l) ∧ (u.ctx c).prog = some p → ((u.au a).onEnd (stnDesc ((u.au a).stn st).desc).queue (stnDesc ((u.au a).stn st).desc).scales .active).isEmpty = true ∧ (u.ctx c).linkBound l (stnDesc ((u.au a).stn st).desc).queue = false → stnCheck p.laus p.lbufs (some l) ((u.au a).stn st).desc = none → 
    ∃ t, exec (.dxStnGo a) s = .next t ∧ (t = ((u.modAu a fun y => y.startStn st).dxDone a).progress c ∧ ((t.au a).stn st).st = .active)) ∧
  -- DX_STN_POS: rd is the number of runs completed
  (∀ (a : AuId) (s u : State) (c : Nat) (st rd : Nat), s.AtDx a c (.stnPos st rd) u → 
    ∃ t, exec (.dxStnPos a) s = .next t ∧ (t = (u.dxSet a rd ((u.au a).stn st).runs).progress c)) ∧
  -- DX_STN_WAIT: the core goes on once the Stencil is not busy
  (∀ (a : AuId) (s u : State) (c : Nat) (st : Nat), s.HeldDx a .stnWait c (.stnWait st) u → ((u.au a).stn st).busy = false → 
    ∃ t, exec (.dxStnWait a) s = .next t ∧ (t = (u.dxDone a).progress c)) ∧
  -- DX_STN_STAT: rd is the Stencil's state
  (∀ (a : AuId) (s u : State) (c : Nat) (st rd : Nat), s.AtDx a c (.stnStat st rd) u → 
    ∃ t, exec (.dxStnStat a) s = .next t ∧ (t = (u.dxSet a rd ((u.au a).stn st).stat).progress c))

/-- Flags and semaphores. When the conditions on the state and the operands that a clause names hold, exec answers a next state, as follows. DX_FSET:
the flag is 1; DX_FCLR: the flag is 0; DX_FWAIT: the core goes on when the flag is 1; DX_FWAITC: the core goes on when the flag is 0; DX_FWAITX: when
the flag is 1 it becomes 0 and the core goes on; FLAG_WAIT_SATISFIED: a core held in dx.fwaitx goes on in the same way once its flag is 1; DX_FTEST:
rd is the flag; DX_SEM_ACQ: a free semaphore that the context may use, with nobody waiting, is held by the context; DX_SEM_REL: a semaphore that the
context holds is held by nobody, and a loan of priority ends. Choices and inferences of the model in these clauses: assumption log 130, 131.
Basis: derived; 04_programs.md: R147, R148, R161; 12_contexts.md: R512, R513. -/

def Obligations.Flags_and_semaphores : Prop :=
  -- DX_FSET: the flag is 1
  (∀ (a : AuId) (s u : State) (c : Nat) (f : FlagArg), s.AtDx a c (.fset f) u → 
    ∃ t, exec (.dxFset a) s = .next t ∧ (t = ((u.setFlag c (u.flagArg a f) true).dxDone a).progress c)) ∧
  -- DX_FCLR: the flag is 0
  (∀ (a : AuId) (s u : State) (c : Nat) (f : FlagArg), s.AtDx a c (.fclr f) u → 
    ∃ t, exec (.dxFclr a) s = .next t ∧ (t = ((u.setFlag c (u.flagArg a f) false).dxDone a).progress c)) ∧
  -- DX_FWAIT: the core goes on when the flag is 1
  (∀ (a : AuId) (s u : State) (c : Nat) (f : FlagArg), s.AtDx a c (.fwait f) u → u.flag c (u.flagArg a f) = true → 
    ∃ t, exec (.dxFwait a) s = .next t ∧ (t = (u.dxDone a).progress c)) ∧
  -- DX_FWAITC: the core goes on when the flag is 0
  (∀ (a : AuId) (s u : State) (c : Nat) (f : FlagArg), s.AtDx a c (.fwaitc f) u → u.flag c (u.flagArg a f) = false → 
    ∃ t, exec (.dxFwaitc a) s = .next t ∧ (t = (u.dxDone a).progress c)) ∧
  -- DX_FWAITX: when the flag is 1 it becomes 0 and the core goes on
  (∀ (a : AuId) (s u : State) (c : Nat) (f : FlagArg), s.AtDx a c (.fwaitx f) u → u.flag c (u.flagArg a f) = true → 
    ∃ t, exec (.dxFwaitx a) s = .next t ∧ (t = ((u.setFlag c (u.flagArg a f) false).dxDone a).progress c)) ∧
  -- FLAG_WAIT_SATISFIED: a core held in dx.fwaitx goes on in the same way once its flag is 1
  (∀ (a : AuId) (s u : State) (c g : Nat) (f : FlagArg), s.HeldDx a (.flag g) c (.fwaitx f) u ∧ (s.core a).wait = .flag g ∧ u.flag c (u.flagArg a f) = true → 
    ∃ t, exec (.flagWaitSatisfied a) s = .next t ∧ (t = ((u.setFlag c (u.flagArg a f) false).dxDone a).progress c)) ∧
  -- DX_FTEST: rd is the flag
  (∀ (a : AuId) (s u : State) (c : Nat) (f : FlagArg) (rd : Nat), s.AtDx a c (.ftest f rd) u → 
    ∃ t, exec (.dxFtest a) s = .next t ∧ (t = (u.dxSet a rd (if u.flag c (u.flagArg a f) = true then 1 else 0)).progress c)) ∧
  -- DX_SEM_ACQ: a free semaphore that the context may use, with nobody waiting, is held by the context
  (∀ (a : AuId) (s u : State) (c : Nat) (rs1 n : Nat), s.AtDx a c (.semAcq rs1) u → n = u.xreg a rs1 ∧ n < 256 ∧ bit (u.sem n).mask c = true → (u.sem n).holder = none ∧ (u.sem n).waiters = [] → 
    ∃ t, exec (.dxSemAcq a) s = .next t ∧ ((t.sem n).holder = some c ∧ t = ((u.putSem n { u.sem n with holder := some c }).dxDone a).progress c)) ∧
  -- DX_SEM_REL: a semaphore that the context holds is held by nobody, and a loan of priority ends
  (∀ (a : AuId) (s u : State) (c : Nat) (rs1 n : Nat), s.AtDx a c (.semRel rs1) u → n = u.xreg a rs1 ∧ n < 256 ∧ bit (u.sem n).mask c = true → (u.sem n).holder = some c → 
    ∃ t, exec (.dxSemRel a) s = .next t ∧ (t = (((u.putSem n { u.sem n with holder := none }).dxDone a).progress c).endLoan c))

/-- Levels, pacing, loops and placement read by the control core. When the conditions on the state and the operands that a clause names hold, exec
answers a next state, as follows. DX_QLVL: rd is the level of the queue; DX_FLVL: rd is the number of operations in the FIFO; DX_FPACE: the core goes
on once the FIFO holds at most rs1 operations; DX_QPACE: the core goes on once the queue holds at least rs1 bytes; DX_LOOP: the core enters the loop;
DX_BRK: the core leaves the loop; DX_WHERE: rd is the placement word of logical AU rs1. Choices and inferences of the model in these clauses:
assumption log 125, 150.
Basis: derived; 04_programs.md: R161, R164, R168, R171; 12_contexts.md: R498. -/

def Obligations.Levels_loops_and_placement : Prop :=
  -- DX_QLVL: rd is the level of the queue
  (∀ (a : AuId) (s u : State) (c : Nat) (q rd : Nat), s.AtDx a c (.qlvl q rd) u → 
    ∃ t, exec (.dxQlvl a) s = .next t ∧ (t = (u.dxSet a rd ((u.au a).queue q).level).progress c)) ∧
  -- DX_FLVL: rd is the number of operations in the FIFO
  (∀ (a : AuId) (s u : State) (c : Nat) (e rd : Nat), s.AtDx a c (.flvl e rd) u → 
    ∃ t, exec (.dxFlvl a) s = .next t ∧ (t = (u.dxSet a rd ((u.au a).fifo e).length).progress c)) ∧
  -- DX_FPACE: the core goes on once the FIFO holds at most rs1 operations
  (∀ (a : AuId) (s u : State) (c : Nat) (e rs1 : Nat), s.HeldDx a .pace c (.fpace e rs1) u → ((u.au a).fifo e).length ≤ u.xreg a rs1 → 
    ∃ t, exec (.dxFpace a) s = .next t ∧ (t = (u.dxDone a).progress c)) ∧
  -- DX_QPACE: the core goes on once the queue holds at least rs1 bytes
  (∀ (a : AuId) (s u : State) (c : Nat) (q rs1 : Nat), s.HeldDx a .pace c (.qpace q rs1) u → u.xreg a rs1 ≤ ((u.au a).queue q).level → 
    ∃ t, exec (.dxQpace a) s = .next t ∧ (t = (u.dxDone a).progress c)) ∧
  -- DX_LOOP: the core enters the loop
  (∀ (a : AuId) (s u : State) (c : Nat) (level len : Nat), s.AtDx a c (.loop level len) u → 
    ∃ t, exec (.dxLoop a) s = .next t ∧ (t = (u.modCore a fun k => k.enterLoop level len).progress c)) ∧
  -- DX_BRK: the core leaves the loop
  (∀ (a : AuId) (s u : State) (c : Nat) (level : Nat), s.AtDx a c (.brk level) u → 
    ∃ t, exec (.dxBrk a) s = .next t ∧ (t = (u.modCore a fun k => k.breakLoop level).progress c)) ∧
  -- DX_WHERE: rd is the placement word of logical AU rs1
  (∀ (a : AuId) (s u : State) (c : Nat) (rs1 rd : Nat), s.AtDx a c (.where_ rs1 rd) u → 
    ∃ t, exec (.dxWhere a) s = .next t ∧ (t = (u.dxSet a rd ((u.ctx c).placeWord (u.xreg a rs1))).progress c))

/-- RV64 instructions of the control core and its waits. When the conditions on the state and the operands that a clause names hold, exec answers a
next state, as follows. CORE_INSTRUCTION: an instruction that is not of Xdxs has the effect of the RV64 instruction; CORE_INSTRUCTION, register to
register: rd holds the result (x0 stays 0), every other register is unchanged, the program counter moves past the instruction, and no byte of HBM and
no set-up register changes; CORE_PAGE_WAIT_END: a core held on a page goes on once the page may be read; LOGICAL_AU_EXIT: a core at the exit address
is finished and the context has made progress; SEM_GRANTED: a free semaphore goes to the next waiter, which waits no more and has made progress.
Choices and inferences of the model in these clauses: assumption log 3, 8, 76, 130.
Basis: derived; 04_programs.md: R125, R126, R128; 12_contexts.md: R512. -/

def Obligations.Instructions_of_the_control_core : Prop :=
  -- CORE_INSTRUCTION: an instruction that is not of Xdxs has the effect of the RV64 instruction
  (∀ (a : AuId) (s u : State) (c len : Nat) (i : Rv), s.coreReady a = some c ∧ s.fetch c (s.core a).pc.toNat = .got i len u → (∀ d, i ≠ .dx d) → 
    ∃ t, exec (.coreInstruction a) s = .next t ∧ (t = (u.coreDo c a i len).progress c)) ∧
  -- CORE_INSTRUCTION, register to register: rd holds the result (x0 stays 0), every other register is unchanged, the program counter moves past the instruction, and no byte of HBM and no set-up register changes
  (∀ (a : AuId) (s u : State) (c len rd rs1 rs2 : Nat) (op : Alu), s.coreReady a = some c ∧ s.fetch c (s.core a).pc.toNat = .got (.alu op rd rs1 rs2) len u → (u.core a).loops = [] → 
    ∃ t, exec (.coreInstruction a) s = .next t ∧ ((∀ r, (t.core a).rd r = if r = rd ∧ rd ≠ 0 then op.eval ((u.core a).rd rs1) ((u.core a).rd rs2) else (u.core a).rd r) ∧ (t.core a).pc = BitVec.ofNat 64 ((u.core a).pc.toNat + len) ∧ (∀ x, rdByte t.mem.hbm x = rdByte u.mem.hbm x) ∧ t.regs = u.regs)) ∧
  -- CORE_PAGE_WAIT_END: a core held on a page goes on once the page may be read
  (∀ (a : AuId) (s : State) (c l va : Nat) (r : Nat × Pte × Nat), s.live a = some (c, l) ∧ (s.core a).wait = .page va ∧ (s.ctx c).translate va false = .ok r → 
    ∃ t, exec (.corePageWaitEnd a) s = .next t ∧ (t = (s.modCore a fun k => { k with wait := .none }).progress c)) ∧
  -- LOGICAL_AU_EXIT: a core at the exit address is finished and the context has made progress
  (∀ (a : AuId) (s : State) (c l : Nat), s.live a = some (c, l) ∧ (s.core a).running = true ∧ (s.core a).wait = .none ∧ (s.core a).pc.toNat = (s.ctx c).exitVa → 
    ∃ t, exec (.logicalAuExit a) s = .next t ∧ (t.core a = { s.core a with running := false, finished := true } ∧ (t.ctx c).progressAt = s.now)) ∧
  -- SEM_GRANTED: a free semaphore goes to the next waiter, which waits no more and has made progress
  (∀ (n : SemId) (s : State) (c : Nat), (s.sem n).holder = none ∧ s.semNext n = some c → 
    ∃ t, exec (.semGranted n) s = .next t ∧ (t.sem n = { s.sem n with holder := some c, waiters := (s.sem n).waiters.filter (· != c) } ∧ (t.ctx c).progressAt = s.now))

/-- Step boundary, SECURE_NOW and restores. When the conditions on the state and the operands that a clause names hold, exec answers a next state, as
follows. SECURE_NOW: a context with securing enabled and a base is to secure at its next boundary, its command stays under way and has no completion
entry yet; FAILURE_NOTICE: DST_MTBF follows the step given, the step and the failed part are noted and the command completes with status 0;
STEP_CLOSE: when the step word has come to the current step, the boundary begins to close with each logical AU's next visit as the mark;
STEP_BOUNDARY_OPEN: a boundary that has nothing left to do opens step k + 1 and no boundary is closing; RESTORE: when the last of the image is in
place, the context is READY and the command completes with the epoch as RESULT; RESTORE_SHARD: when the last of the shard is in place, its ranges are
adopted and the command completes with what was restored as RESULT. Choices and inferences of the model in these clauses: assumption log 15, 82, 109,
116, 117.
Basis: derived; 13_resilience.md: R530, R553, R554, R557, R559. -/

def Obligations.Step_boundary_and_restores : Prop :=
  -- SECURE_NOW: a context with securing enabled and a base is to secure at its next boundary, its command stays under way and has no completion entry yet
  (∀ (c : CtxId) (k : Nat) (s : State) (cmd : Cmd), s.cmdAt c k = some cmd ∧ byteAt cmd.desc 0 = 0x04 ∧ s.serves 0x04 = true → cmd.phase = .started ∧ bits (byteAt cmd.desc 4) 7 1 = 0 ∧ zeroIn cmd.desc 5 64 = true → (((s.ctx c).st = .running ∨ (s.ctx c).st = .ready ∨ (s.ctx c).st = .preempted) ∧ s.rbit (DST_CTL c) 0 = true ∧ s.dustBase c ≠ 0) → 
    ∃ t, exec (.secureNow c k) s = .next t ∧ ((t.ctx c).dust = { (s.ctx c).dust with wantNow := true } ∧ t.cmdAt c k = some { cmd with phase := .underway 0 0 } ∧ (t.ctx c).ring.cplTail = (s.ctx c).ring.cplTail)) ∧
  -- FAILURE_NOTICE: DST_MTBF follows the step given, the step and the failed part are noted and the command completes with status 0
  (∀ (c : CtxId) (k : Nat) (s : State) (cmd : Cmd) (step : Nat), s.cmdAt c k = some cmd ∧ byteAt cmd.desc 0 = 0x13 ∧ s.serves 0x13 = true → zeroIn cmd.desc 4 8 = true ∧ zeroIn cmd.desc 18 64 = true ∧ step = fieldLe cmd.desc 8 8 → 
    ∃ t, exec (.failureNotice c k) s = .next t ∧ (t.reg (DST_MTBF c) = nextMtbf (s.reg (DST_MTBF c)) (s.ctx c).dust.lastNotice step ∧ (t.ctx c).dust.lastNotice = some step ∧ (t.ctx c).dust.lastFailed = some (fieldLe cmd.desc 16 2) ∧ ∃ i, Done s t c k 0 i)) ∧
  -- STEP_CLOSE: when the step word has come to the current step, the boundary begins to close with each logical AU's next visit as the mark
  (∀ (c : CtxId) (s : State) (tb : DustTable) (u : State), (s.ctx c).dust.table = some tb ∧ (s.ctx c).dust.closing = none ∧ (s.ctx c).st.steps = true → (s.ctx c).checkAll false (pagesOf tb.va 8) = .ok () ∧ fieldLe (s.vpeek c tb.va 8) 0 8 = s.step_ c → (u = s.modDust c fun d => { d with closing := some (s.step_ c), stage := 0, stalled := false, closeSeq := (s.lauStates c).map fun e => (e.1, e.2.nextSeq) }) → u.stepQuiet c = false → 
    ∃ t, exec (.stepClose c) s = .next t ∧ (t = u)) ∧
  -- STEP_BOUNDARY_OPEN: a boundary that has nothing left to do opens step k + 1 and no boundary is closing
  (∀ (c : CtxId) (s : State) (tb : DustTable) (k : Nat), (s.ctx c).dust.table = some tb ∧ (s.ctx c).dust.closing = some k ∧ (s.ctx c).st.steps = true → (s.ctx c).dust.stage = 3 ∧ (s.ctx c).dust.securing = none ∧ tb.bflagEn = false → ((s.ctx c).checkAll true ((s.openRanges c tb).map fun r => pagesOf r.1 r.2).flatten = .ok ()) → 
    ∃ t, exec (.stepBoundaryOpen c) s = .next t ∧ (t = s.boundaryOpen c (k + 1) tb ∧ (t.ctx c).dust.closing = none ∧ (t.ctx c).dust.stage = 0)) ∧
  -- RESTORE: when the last of the image is in place, the context is READY and the command completes with the epoch as RESULT
  (∀ (c : CtxId) (k : Nat) (s v : State) (cmd : Cmd) (f : ImgFetch) (e : Nat), s.cmdAt c k = some cmd ∧ byteAt cmd.desc 0 = 0x05 ∧ s.serves 0x05 = true → restShard cmd.desc = false ∧ cmd.phase ≠ .started ∧ (s.ctx c).dust.restore = some f → s.restoreGo c Cmd.isRestore (restoreFuel f.plan.length) = .done v e → 
    ∃ t, exec (.restore c k) s = .next t ∧ (t = v.completeWhere c 0x05 (fun d => d.isUnderway && !restShard d.desc) 0 e 1 ∧ (t.ctx c).st = .ready)) ∧
  -- RESTORE_SHARD: when the last of the shard is in place, its ranges are adopted and the command completes with what was restored as RESULT
  (∀ (c : CtxId) (k : Nat) (s u : State) (cmd : Cmd) (f g : ImgFetch), s.cmdAt c k = some cmd ∧ byteAt cmd.desc 0 = 0x05 ∧ s.serves 0x05 = true → restShard cmd.desc = true ∧ cmd.phase ≠ .started ∧ (s.ctx c).dust.restore = some f ∧ s.imgStep c f = .done u g → 
    ∃ t, exec (.restoreShard c k) s = .next t ∧ (t = ((u.modDust c fun d => { d with restore := none }).modDust c fun d => d.addAdopted (adoptDests ((u.shardList c cmd.desc).getD []))).complete c k 0 g.done))

/-- Securing a state to shadow frames and the flash. When the conditions on the state and the operands that a clause names hold, exec answers a next
state, as follows. PENDING_PAGE_FIRST_WRITE: a protected page gets its shadow frame from the first of 1024 tries that gives one; SHADOW_FRAME_FREE:
the frame of a shadow that every target has goes back to the reserve; SECURE_PAGE_COPY: the page being secured, or the next, has a piece copied;
SECURED: when every target has the whole image, the epoch is committed and is the last good epoch; SECURE_FAILED: a securing that failed ends as
failed. Choices and inferences of the model in these clauses: assumption log 76, 111, 113, 114.
Basis: derived; 13_resilience.md: R537, R538, R539, R541, R543. -/

def Obligations.Securing_of_a_state : Prop :=
  -- PENDING_PAGE_FIRST_WRITE: a protected page gets its shadow frame from the first of 1024 tries that gives one
  (∀ (c : CtxId) (page : Nat) (s u : State) (k : Nat) (e : Pte), (s.ctx c).pte page = some (k, e) ∧ e.protect = true ∧ s.shadowFor c k page (List.range 1024) = some u → 
    ∃ t, exec (.pendingPageFirstWrite c page) s = .next t ∧ (t = u)) ∧
  -- SHADOW_FRAME_FREE: the frame of a shadow that every target has goes back to the reserve
  (∀ (c : CtxId) (s : State) (g : Securing) (i fr : Nat), (s.ctx c).dust.securing = some g → (List.range g.marks.length).find? (s.shadowOver c g) = some i ∧ g.marks[i]? = some (.sent (some fr)) → 
    ∃ t, exec (.shadowFrameFree c) s = .next t ∧ ((t.ctx c).dust = { (s.ctx c).dust with reserve := fr :: (s.ctx c).dust.reserve, securing := some { g with marks := setAt g.marks i .done } })) ∧
  -- SECURE_PAGE_COPY: the page being secured, or the next, has a piece copied
  (∀ (c : CtxId) (s : State) (g : Securing) (i : Nat), ((s.tgtsGo c).ctx c).dust.securing = some g → (g.failed = none ∧ (g.tgts.any fun e => decide (e.2.phase < 1)) = false) → (g.cur = some i ∨ g.cur = none ∧ g.nextPage = some i) → 
    ∃ t, exec (.securePageCopy c) s = .next t ∧ (t = if g.cur = some i then (s.tgtsGo c).copyPage c i else ((s.tgtsGo c).modSec c fun h => { h with cur := some i }).copyPage c i)) ∧
  -- SECURED: when every target has the whole image, the epoch is committed and is the last good epoch
  (∀ (c : CtxId) (s : State) (g : Securing), ((s.tgtsGo c).ctx c).dust.securing = some g → (g.failed = none ∧ (g.tgts.all fun e => decide (4 ≤ e.2.phase)) = true) → 
    ∃ t, exec (.secured c) s = .next t ∧ (t = (s.tgtsGo c).commitEpoch c g ∧ (t.ctx c).dust.eLast = some g.epoch)) ∧
  -- SECURE_FAILED: a securing that failed ends as failed
  (∀ (c : CtxId) (tgt : Nat) (s : State) (g : Securing) (st : Nat), (s.ctx c).dust.securing = some g ∧ g.failed = some (tgt, st) → 
    ∃ t, exec (.secureFailed c tgt) s = .next t ∧ (t = s.failSecuring c g tgt st ∧ (t.ctx c).dust.failedLast = true))

/-- Boot, firmware update and the compartments of the firmware. When the conditions on the state and the operands that a clause names hold, exec
answers a next state, as follows. ROM_BOOT: the ROM tries the trial slot once and the committed slot otherwise, as the directory says; STAGE1_RUN:
stage 1 of a good slot hands over to the main firmware, and slot and security state are unchanged; FW_READY: the firmware is up with the versions of
its image, and the service side has the part's identity; SEC_UPD_GO: the image that the registers name is being staged into the other slot, and
SEC_UPD_CTL says busy and which slot; FW_STAGED: the staging is over, SEC_UPD_CTL says not busy and has its result; SEC_UPD_COMMIT: the rollback fuses
rise to the trial's number, SEC_BOOT_STATUS has no trial and SEC_STATUS has the change; FW_RESTART: with fewer than three recent faults, the
compartment restarts, the restart is counted, and FW_RESTART is raised with its payload; COMPARTMENT_HEARTBEAT_MISS: the same with the missed
heartbeat as the cause; FW_HALTED: a fault of the supervisor, or the fourth of a compartment, halts the firmware: HUB_FW_VERSION is 0, SEC_FW_STATUS
shows nothing running, and the log's length is noted; FW_MEMORY_UNCORR in the supervisor's memory: the firmware halts. Choices and inferences of the
model in these clauses: assumption log 6, 34, 41, 42, 43, 44, 45, 46, 47, 48, 57, 58, 59, 60.
Basis: derived; 15_security_firmware.md: R618, R625, R628, R631, R633, R634, R635. -/

def Obligations.Boot_update_and_compartments : Prop :=
  -- ROM_BOOT: the ROM tries the trial slot once and the committed slot otherwise, as the directory says
  (∀ (s : State) (d : Dir), s.power.hostOn = true ∧ s.power.svc.hold = false ∧ s.fld SEC_BOOT_STATUS 27 24 = 0 ∧ s.fld SEC_FW_STATUS 31 30 = 0 → s.sec.fuses.scrap = false ∧ d = s.sec.dir.1 → 
    ∃ t, exec (.romBoot) s = .next t ∧ (t = if d.trial ≠ 0xFF ∧ d.state = 1 then (s.onSec fun x => x.writeDir fun e => { e with state := 2 }).trySlots d.committed d.trial false [d.trial, 1 - d.trial] else if d.trial ≠ 0xFF ∧ d.state = 2 then (s.onSec fun x => { x.writeDir fun e => { e with trial := 0xFF, state := 0 } with skipped := x.skipped ++ [(d.trial, 7)] }).trySlots d.committed 0xFF false [d.committed, 1 - d.committed] else s.trySlots d.committed 0xFF false [d.committed, 1 - d.committed])) ∧
  -- STAGE1_RUN: stage 1 of a good slot hands over to the main firmware, and slot and security state are unchanged
  (∀ (s : State), s.fld SEC_BOOT_STATUS 27 24 = 1 ∧ s.sec.mainOk s.slot = true → 
    ∃ t, exec (.stage1Run true) s = .next t ∧ (t.fld SEC_BOOT_STATUS 27 24 = 2 ∧ t.slot = s.slot ∧ t.sec = s.sec)) ∧
  -- FW_READY: the firmware is up with the versions of its image, and the service side has the part's identity
  (∀ (s : State) (h : List Byte), s.fld SEC_BOOT_STATUS 27 24 = 2 ∧ s.fld SEC_FW_STATUS 31 30 = 0 ∧ h = s.sec.head s.slot → 
    ∃ t, exec (.fwReady) s = .next t ∧ (t.fwUp = true ∧ t.reg HUB_FW_VERSION = fieldLe h 8 4 ∧ t.reg HUB_IF_VERSION = fieldLe h 12 4 ∧ t.fld SEC_FW_STATUS 8 0 = 0x1FF ∧ t.power.svc.identity = t.identity)) ∧
  -- SEC_UPD_GO: the image that the registers name is being staged into the other slot, and SEC_UPD_CTL says busy and which slot
  (∀ (f : FnId) (v : Word32) (s : State), s.updUp = true ∧ f.val = s.adminPf ∧ bit v.toNat 0 = true ∧ s.sec.fuses.scrap = false → s.rbit SEC_UPD_CTL 2 = false ∧ s.rbit SEC_BOOT_STATUS 9 = false → 
    ∃ t, exec (.secUpdGo f v) s = .next t ∧ (t.sec.staging = some ⟨4096 * (s.reg64 SEC_UPD_ADDR_LO SEC_UPD_ADDR_HI / 4096), s.fld SEC_UPD_LEN 24 0, s.otherSlot.1⟩ ∧ t.fld SEC_UPD_CTL 3 3 = s.otherSlot.1 % 2 ∧ t.fld SEC_UPD_CTL 2 2 = 1)) ∧
  -- FW_STAGED: the staging is over, SEC_UPD_CTL says not busy and has its result
  (∀ (s : State) (g : Staging), s.sec.staging = some g ∧ s.fwHalted = false → 
    ∃ t, exec (.fwStaged) s = .next t ∧ (t.sec.staging = none ∧ t.fld SEC_UPD_CTL 15 8 = (s.stage g).1 % 256 ∧ t.fld SEC_UPD_CTL 2 2 = 0)) ∧
  -- SEC_UPD_COMMIT: the rollback fuses rise to the trial's number, SEC_BOOT_STATUS has no trial and SEC_STATUS has the change
  (∀ (f : FnId) (v : Word32) (s : State), s.updUp = true ∧ f.val = s.adminPf ∧ bit v.toNat 1 = true ∧ s.sec.fuses.scrap = false → s.rbit SEC_UPD_CTL 2 = false ∧ s.rbit SEC_BOOT_STATUS 9 = true → 
    ∃ t, exec (.secUpdCommit f v) s = .next t ∧ (t.sec.fuses = { s.sec.fuses with rollback := max s.sec.fuses.rollback (min 64 s.sec.rollback) } ∧ t.sec.changed = true ∧ t.fld SEC_BOOT_STATUS 9 9 = 0 ∧ t.fld SEC_STATUS 3 3 = 1)) ∧
  -- FW_RESTART: with fewer than three recent faults, the compartment restarts, the restart is counted, and FW_RESTART is raised with its payload
  (∀ (comp cause τ : Nat) (s : State), s.fwUp = true ∧ 1 ≤ comp ∧ comp ≤ 8 ∧ cause ≤ 3 ∧ ((s.at τ).recent comp).length < 3 → 
    ∃ t, exec (.fwRestart comp cause τ) s = .next t ∧ (t = (((((s.at τ).onSec fun x => { x with faults := mput x.faults comp ((s.at τ).recent comp) }).restartWork comp).flagCount SEC_STATUS 0 SEC_EVT_CNT 31 16).total 13 1).raise 0x0803 .all [(0, 1, comp), (1, 1, cause), (2, 1, ((s.at τ).recent comp).length)] ∧ t.fld SEC_STATUS 0 0 = 1)) ∧
  -- COMPARTMENT_HEARTBEAT_MISS: the same with the missed heartbeat as the cause
  (∀ (comp τ : Nat) (s : State), s.fwUp = true ∧ 1 ≤ comp ∧ comp ≤ 8 ∧ ((s.at τ).recent comp).length < 3 ∧ s.sec.haltedCores.contains (compCore comp) = false → 
    ∃ t, exec (.compartmentHeartbeatMiss comp τ) s = .next t ∧ (t = (((((s.at τ).onSec fun x => { x with faults := mput x.faults comp ((s.at τ).recent comp) }).restartWork comp).flagCount SEC_STATUS 0 SEC_EVT_CNT 31 16).total 13 1).raise 0x0803 .all [(0, 1, comp), (1, 1, 2), (2, 1, ((s.at τ).recent comp).length)] ∧ t.fld SEC_STATUS 0 0 = 1)) ∧
  -- FW_HALTED: a fault of the supervisor, or the fourth of a compartment, halts the firmware: HUB_FW_VERSION is 0, SEC_FW_STATUS shows nothing running, and the log's length is noted
  (∀ (comp cause τ : Nat) (s : State), (s.fwUp = true ∧ comp ≤ 8 ∧ cause ≤ 3 ∧ (comp = 0 ∨ 3 ≤ ((s.at τ).recent comp).length)) → 
    ∃ t, exec (.fwHalted comp cause τ) s = .next t ∧ (t = (s.at τ).halt comp cause (if comp = 0 then 1 else 0) ∧ t.fwHalted = true ∧ t.reg HUB_FW_VERSION = 0 ∧ t.fld SEC_FW_STATUS 8 0 = 0 ∧ t.sec.crashed = s.sec.logs.length)) ∧
  -- FW_MEMORY_UNCORR in the supervisor's memory: the firmware halts
  (∀ (n τ : Nat) (s : State), s.fwUp = true → 
    ∃ t, exec (.fwMemoryUncorr 3 n τ) s = .next t ∧ (t = (s.at τ).halt 0 3 1 ∧ t.fwHalted = true))

/-- Hawk window slots and errors. When the conditions on the state and the operands that a clause names hold, exec answers a next state, as follows.
SLOT_VISIT_BEGIN: a tagged Stencil at a slot that it may enter begins its visit, the slot's tag notes it and the Stencil notes where it began;
SLOT_VISIT_END: a visit that is over ends: the slot's tag notes it and the Stencil is in no slot; SLOT_TIMEOUT, the wait has lasted 2^e cycles: the
wait ends as a slot timeout; SLOT_TIMEOUT, too early: only part time moves; HAWK_HOT_WINDOW_END: AU_HAWK_HOT shows the hot banks, each bank's run
grows or ends, and part time is not behind the window; HAWK_ECC_ERROR, corrected: AU_HAWK_ECC counts one, saturating; HAWK_ECC_ERROR, uncorrected, in
an AU that no context holds: the status bits are set and AU_HAWK_ECC counts one, saturating; HAWK_DEBUG_READ: the answer is what the debug window
shows the function (0 with the BARs down) and nothing else changes. Choices and inferences of the model in these clauses: assumption log 3, 6, 80.
Basis: derived; 05_hawk.md: R189, R192, R196, R197, R201, R205. -/

def Obligations.Hawk_slots_and_errors : Prop :=
  -- SLOT_VISIT_BEGIN: a tagged Stencil at a slot that it may enter begins its visit, the slot's tag notes it and the Stencil notes where it began
  (∀ (a : AuId) (g : AgentId) (s : State) (c l o : Nat), s.live a = some (c, l) ∧ g.val < 16 ∧ s.stnHawkNext a g = some o ∧ (stnDesc ((s.au a).stn g).desc).tag ≠ 0 ∧ s.stnInVisit a g (o / 2048) = false → (((s.au a).endStnVisit g).tag (o / 2048)).canBegin (stnDesc ((s.au a).stn g).desc).write = true → 
    ∃ t, exec (.slotVisitBegin a g) s = .next t ∧ ((t.au a).tag (o / 2048) = (((s.au a).endStnVisit g).tag (o / 2048)).begin (stnDesc ((s.au a).stn g).desc).write ∧ ((t.au a).stn g).visit = some (o / 2048, ((s.au a).stn g).moved))) ∧
  -- SLOT_VISIT_END: a visit that is over ends: the slot's tag notes it and the Stencil is in no slot
  (∀ (a : AuId) (g : AgentId) (s : State) (c l k p : Nat), s.live a = some (c, l) ∧ g.val < 16 ∧ s.stnVisitOver a g = true ∧ ((s.au a).stn g).visit = some (k, p) → 
    ∃ t, exec (.slotVisitEnd a g) s = .next t ∧ (((t.au a).stn g).visit = none ∧ (t.au a).tag k = ((s.au a).tag k).finish (stnDesc ((s.au a).stn g).desc).write (stnDesc ((s.au a).stn g).desc).ncons)) ∧
  -- SLOT_TIMEOUT, the wait has lasted 2^e cycles: the wait ends as a slot timeout
  (∀ (a : AuId) (g : AgentId) (u : Nat) (s : State) (c l slot since e : Nat), (s.at u).live a = some (c, l) ∧ g.val < 16 ∧ (((s.at u).au a).stn g).waitSlot = some (slot, since, e) ∧ since + cyclesNs (2 ^ e) ≤ u → 
    ∃ t, exec (.slotTimeout a g u) s = .next t ∧ (t = (s.at u).slotTimeout a a slot (if (stnDesc (((s.at u).au a).stn g).desc).write then 1 else 0) g (2 ^ e))) ∧
  -- SLOT_TIMEOUT, too early: only part time moves
  (∀ (a : AuId) (g : AgentId) (u : Nat) (s : State) (c l slot since e : Nat), (s.at u).live a = some (c, l) ∧ g.val < 16 ∧ (((s.at u).au a).stn g).waitSlot = some (slot, since, e) ∧ u < since + cyclesNs (2 ^ e) → 
    ∃ t, exec (.slotTimeout a g u) s = .next t ∧ (t = s.at u)) ∧
  -- HAWK_HOT_WINDOW_END: AU_HAWK_HOT shows the hot banks, each bank's run grows or ends, and part time is not behind the window
  (∀ (a : AuId) (banks : List Nat) (u : Nat) (s : State), 
    ∃ t, exec (.hawkHotWindowEnd a banks u) s = .next t ∧ (t.reg (AU_HAWK_HOT a) = (((List.range 32).filter fun b => banks.contains b).foldl (fun w b => w + 2 ^ b) 0) % 2 ^ 32 ∧ (t.au a).hotRun = (List.range 32).foldl (fun m b => hotStep (banks.contains b) m b) (s.au a).hotRun ∧ t.now = max s.now u)) ∧
  -- HAWK_ECC_ERROR, corrected: AU_HAWK_ECC counts one, saturating
  (∀ (a : AuId) (off : Nat) (s : State), 
    ∃ t, exec (.hawkEccError a off false) s = .next t ∧ (t.fld (AU_HAWK_ECC a) 15 0 = satAdd 0xFFFF (s.fld (AU_HAWK_ECC a) 15 0) 1)) ∧
  -- HAWK_ECC_ERROR, uncorrected, in an AU that no context holds: the status bits are set and AU_HAWK_ECC counts one, saturating
  (∀ (a : AuId) (off : Nat) (s : State), (s.au a).asg = none → 
    ∃ t, exec (.hawkEccError a off true) s = .next t ∧ (t.fld (AU_HAWK_STATUS a) 3 3 = 1 ∧ t.fld (AU_HAWK_ECC a) 31 16 = satAdd 0xFFFF (s.fld (AU_HAWK_ECC a) 31 16) 1 ∧ t.fld MEM_STATUS 0 0 = 1)) ∧
  -- HAWK_DEBUG_READ: the answer is what the debug window shows the function (0 with the BARs down) and nothing else changes
  (∀ (f : FnId) (a : AuId) (off : Nat) (s : State), 
    ∃ t, exec (.hawkDebugRead f a off) s = .next t ∧ (t.answer = natLe 4 (if s.barUp then s.hawkDebug f a off else 0) ∧ t = { s with answer := t.answer }))

/-- Admin ports, summaries and command rings. When the conditions on the state and the operands that a clause names hold, exec answers a next state,
as follows. HUB_ADMIN_WRITE of the other port by the admin PF: the admin port is that port, and of the registers below 0x300000 only HUB_ADMIN
changes; ADMIN_GRACE_EXPIRY: the admin port goes to the other port; HUB_SYNC_GO: BUSY is set and no other register changes; SYNC_SUMMARY_WRITTEN: BUSY
falls, DONE rises; a buffer below 4288 bytes is refused with status 2 and host memory is unchanged, any other holds the summary with status 0;
RING_CTL_WRITE, EN from 0 to 1: the rings' counts are 0, nothing waits, no other register and no other context changes; DB_CMD_TAIL: the value waits
at the doorbell, no other context and no register changes; DB_CPL_HEAD: the value waits at the doorbell, no other context and no register changes;
DOORBELL_ACCEPTED, a valid tail: it becomes CMD_TAIL and no register changes; DOORBELL_ACCEPTED, a valid head: it becomes CPL_HEAD and no register
changes; DESCRIPTOR_START: the descriptor joins the outstanding commands, CMD_HEAD moves on, and neither the registers nor host memory change;
IRQ_DELAY_EXPIRY: the interrupt delay is over and its count is 0. Choices and inferences of the model in these clauses: assumption log 3, 6, 64, 155.
Basis: derived; 11_host.md: R449, R458, R460, R461, R464, R472, R480. -/

def Obligations.Host_admin_and_rings : Prop :=
  -- HUB_ADMIN_WRITE of the other port by the admin PF: the admin port is that port, and of the registers below 0x300000 only HUB_ADMIN changes
  (∀ (f : FnId) (v : Word32) (s : State), s.barUp = true → f.val = s.adminPf ∧ bits v.toNat 0 0 ≠ s.adminPort → 
    ∃ t, exec (.hubAdminWrite f v) s = .next t ∧ (t.adminPort = bits v.toNat 0 0 ∧ ∀ k, k < 0x300000 → k ≠ HUB_ADMIN → t.reg k = s.reg k)) ∧
  -- ADMIN_GRACE_EXPIRY: the admin port goes to the other port
  (∀ (τ : Nat) (s : State), (s.port s.adminPort).lost = true ∧ (s.port s.adminPort).lostAt + s.graceNs s.adminPort ≤ τ → (s.port (1 - s.adminPort)).dlUp = true → 
    ∃ t, exec (.adminGraceExpiry τ) s = .next t ∧ (t.adminPort = 1 - s.adminPort ∧ t.now = max s.now τ)) ∧
  -- HUB_SYNC_GO: BUSY is set and no other register changes
  (∀ (f : FnId) (v : Word32) (s : State), s.barUp = true → bit v.toNat 0 = true ∧ s.fld (HUB_SYNC_REQ f) 1 1 = 0 → 
    ∃ t, exec (.hubSyncGo f v) s = .next t ∧ (t.fld (HUB_SYNC_REQ f) 1 1 = 1 ∧ ∀ k, k ≠ HUB_SYNC_REQ f → t.reg k = s.reg k)) ∧
  -- SYNC_SUMMARY_WRITTEN: BUSY falls, DONE rises; a buffer below 4288 bytes is refused with status 2 and host memory is unchanged, any other holds the summary with status 0
  (∀ (f : FnId) (s : State), s.fld (HUB_SYNC_REQ f) 1 1 = 1 → (s.port (fnPort f)).dlUp = true → 
    ∃ t, exec (.syncSummaryWritten f) s = .next t ∧ (t.fld (HUB_SYNC_REQ f) 1 1 = 0 ∧ t.fld (HUB_SYNC_REQ f) 2 2 = 1 ∧ (s.reg (HUB_SYNC_SIZE f) < 4288 → t.fld (HUB_SYNC_REQ f) 15 8 = 2 ∧ t.host = s.host) ∧ (4288 ≤ s.reg (HUB_SYNC_SIZE f) → t.fld (HUB_SYNC_REQ f) 15 8 = 0 ∧ rdBytes t.host (hostKey (fnPort f) (s.reg64 (HUB_SYNC_ADDR_LO f) (HUB_SYNC_ADDR_HI f))) (s.summary f).length = s.summary f))) ∧
  -- RING_CTL_WRITE, EN from 0 to 1: the rings' counts are 0, nothing waits, no other register and no other context changes
  (∀ (f : FnId) (c : CtxId) (v : Word32) (s : State), s.barUp = true ∧ s.owns f c = true → (s.ctx c).ring.cmds = [] → s.rbit (CTX_RING_CTL c) 31 = false ∧ bit v.toNat 31 = true → 
    ∃ t, exec (.ringCtlWrite f c v) s = .next t ∧ ((t.ctx c).ring = { (s.ctx c).ring with cmdHead := 0, cmdTail := 0, cplTail := 0, cplHead := 0, dbTail := none, dbHead := none, irqCount := 0, irqSince := none } ∧ (∀ k, k ≠ CTX_RING_CTL c → t.reg k = s.reg k) ∧ ∀ d : Nat, d ≠ c → t.ctx d = s.ctx d)) ∧
  -- DB_CMD_TAIL: the value waits at the doorbell, no other context and no register changes
  (∀ (f : FnId) (k : CtxId) (v : Word32) (size : Nat) (s : State) (c : Nat), s.fwUp = true ∧ s.pageCtx f k = some c → size = 4 ∧ s.rbit (CTX_RING_CTL c) 31 = true → 
    ∃ t, exec (.dbCmdTail f k v size) s = .next t ∧ ((t.ctx c).ring = { (s.ctx c).ring with dbTail := some (v.setWidth 16) } ∧ (∀ d, d ≠ c → t.ctx d = s.ctx d) ∧ t.regs = s.regs)) ∧
  -- DB_CPL_HEAD: the value waits at the doorbell, no other context and no register changes
  (∀ (f : FnId) (k : CtxId) (v : Word32) (size : Nat) (s : State) (c : Nat), s.fwUp = true ∧ s.pageCtx f k = some c → size = 4 ∧ s.rbit (CTX_RING_CTL c) 31 = true → 
    ∃ t, exec (.dbCplHead f k v size) s = .next t ∧ ((t.ctx c).ring = { (s.ctx c).ring with dbHead := some (v.setWidth 16) } ∧ (∀ d, d ≠ c → t.ctx d = s.ctx d) ∧ t.regs = s.regs)) ∧
  -- DOORBELL_ACCEPTED, a valid tail: it becomes CMD_TAIL and no register changes
  (∀ (c : CtxId) (s : State) (v : BitVec 16), s.fwHalted = false ∧ s.sec.haltedCores.contains 0 = false → (s.ctx c).ring.dbTail = some v ∧ (s.ctx c).ring.dbHead = none → (v - (s.ctx c).ring.cmdHead).toNat ≤ s.cmdSize c → 
    ∃ t, exec (.doorbellAccepted c) s = .next t ∧ ((t.ctx c).ring = { (s.ctx c).ring with dbTail := none, dbHead := none, cmdTail := v } ∧ t.regs = s.regs)) ∧
  -- DOORBELL_ACCEPTED, a valid head: it becomes CPL_HEAD and no register changes
  (∀ (c : CtxId) (s : State) (v : BitVec 16), s.fwHalted = false ∧ s.sec.haltedCores.contains 0 = false → (s.ctx c).ring.dbTail = none ∧ (s.ctx c).ring.dbHead = some v → ((s.ctx c).ring.cplTail - v).toNat ≤ s.cplSize c ∧ ((s.ctx c).ring.cplTail - v).toNat ≤ ((s.ctx c).ring.cplTail - (s.ctx c).ring.cplHead).toNat → 
    ∃ t, exec (.doorbellAccepted c) s = .next t ∧ ((t.ctx c).ring = { (s.ctx c).ring with dbTail := none, dbHead := none, cplHead := v } ∧ t.regs = s.regs)) ∧
  -- DESCRIPTOR_START: the descriptor joins the outstanding commands, CMD_HEAD moves on, and neither the registers nor host memory change
  (∀ (c : CtxId) (s : State) (d : List Byte), s.canStart c = true ∧ s.nextDesc c = some d → 1 ≤ byteAt d 0 ∧ byteAt d 0 < 0x14 ∧ bits (byteAt d 1) 7 1 = 0 → (byteAt d 0 = 0x08 → (s.ctx c).ring.cmds = []) → 
    ∃ t, exec (.descriptorStart c) s = .next t ∧ ((t.ctx c).ring = { (s.ctx c).ring with cmdHead := (s.ctx c).ring.cmdHead + 1, cmds := (s.ctx c).ring.cmds ++ [⟨d, .started, s.now, 0⟩] } ∧ t.regs = s.regs ∧ t.host = s.host)) ∧
  -- IRQ_DELAY_EXPIRY: the interrupt delay is over and its count is 0
  (∀ (c : CtxId) (τ : Nat) (s : State) (t0 : Nat), (s.ctx c).ring.irqSince = some t0 → s.fld (CTX_IRQ_CTL c) 23 8 ≠ 0 ∧ t0 + 1000 * s.fld (CTX_IRQ_CTL c) 23 8 ≤ τ → 
    ∃ t, exec (.irqDelayExpiry c τ) s = .next t ∧ ((t.ctx c).ring = { (s.ctx c).ring with irqCount := 0, irqSince := none } ∧ t.now = max s.now τ))

/-- Event rings, fences and resync. When the conditions on the state and the operands that a clause names hold, exec answers a next state, as follows.
EVT_CTL_WRITE, EN from 0 to 1 with no lost record: head and tail are 0 and no register but these and EVT_CTL changes; EVT_HEAD_WRITE, a valid head:
EVT_HEAD holds it; FENCE: at the front of the outstanding commands it completes with status 0; RESYNC: it completes with status 0 and the summary's
length as RESULT. Choices and inferences of the model in these clauses: assumption log 6.
Basis: derived; 11_host.md: R473, R476, R478, R479. -/

def Obligations.Host_events_and_fences : Prop :=
  -- EVT_CTL_WRITE, EN from 0 to 1 with no lost record: head and tail are 0 and no register but these and EVT_CTL changes
  (∀ (f : FnId) (v : Word32) (s : State), s.barUp = true ∧ (s.fn f).lost = 0 → s.rbit (EVT_CTL f) 31 = false ∧ bit v.toNat 31 = true → 
    ∃ t, exec (.evtCtlWrite f v) s = .next t ∧ (t.fld (EVT_HEAD f) 15 0 = 0 ∧ t.fld (EVT_TAIL f) 15 0 = 0 ∧ ∀ k, k ≠ EVT_HEAD f → k ≠ EVT_TAIL f → k ≠ EVT_CTL f → t.reg k = s.reg k)) ∧
  -- EVT_HEAD_WRITE, a valid head: EVT_HEAD holds it
  (∀ (f : FnId) (v : Word32) (s : State), s.barUp = true → ringUsed (s.fld (EVT_TAIL f) 15 0) (v.toNat % 65536) ≤ s.evtSize f → ringUsed (s.fld (EVT_TAIL f) 15 0) (v.toNat % 65536) ≤ ringUsed (s.fld (EVT_TAIL f) 15 0) (s.fld (EVT_HEAD f) 15 0) → 
    ∃ t, exec (.evtHeadWrite f v) s = .next t ∧ (t.fld (EVT_HEAD f) 15 0 = v.toNat % 65536)) ∧
  -- FENCE: at the front of the outstanding commands it completes with status 0
  (∀ (c : CtxId) (k : Nat) (s : State) (cmd : Cmd), s.cmdAt c k = some cmd ∧ k = 0 → byteAt cmd.desc 0 = 0x08 ∧ s.serves 0x08 = true → bits (byteAt cmd.desc 4) 7 1 = 0 ∧ zeroIn cmd.desc 5 64 = true → 
    ∃ t, exec (.fence c k) s = .next t ∧ (Done s t c k 0 0)) ∧
  -- RESYNC: it completes with status 0 and the summary's length as RESULT
  (∀ (c : CtxId) (k : Nat) (s : State) (cmd : Cmd), s.cmdAt c k = some cmd → byteAt cmd.desc 0 = 0x0C ∧ s.serves 0x0C = true → zeroIn cmd.desc 4 8 = true ∧ zeroIn cmd.desc 20 64 = true ∧ fieldLe cmd.desc 8 8 % 64 = 0 ∧ 4288 ≤ fieldLe cmd.desc 16 4 → 
    ∃ t, exec (.resync c k) s = .next t ∧ (Done s t c k 0 (s.summary (s.ownerOf c)).length))

/-- States of a link port. When the conditions on the state and the operands that a clause names hold, exec answers a next state, as follows.
LNK_PORT_CTL_WRITE with EN 0 and a defined MODE: the port is DISABLED, keeps its fence, and every other port is unchanged; LNK_PART_ID_WRITE with a
value other than 0xFFFF: the part has the identifier, and each enabled DISABLED port is FENCED, in TEST or TRAINING; PORT_TRAINING_DONE: a training
port is UP with the lanes of its mode and the partner given, and every other port is unchanged; LINK_DOWN: an UP port loses its traffic and is in
TRAINING, DISABLED or DOWN by the reason; every other port is unchanged; DOWN_RETRAIN_TIMER: a port DOWN for 100 ms tries again; every other port is
unchanged; LANE_LOSS_OF_LOCK: an UP port that loses a lane of its mode is DOWN with that lane not locked; every other port is unchanged; PRBS_TEST: in
TEST, LOCKED of each tested lane is what the lane found. Choices and inferences of the model in these clauses: assumption log 3, 6, 92, 93, 95.
Basis: derived; 10_omwen_links.md: R386, R387, R388, R389, R438. -/

def Obligations.Link_port_states : Prop :=
  -- LNK_PORT_CTL_WRITE with EN 0 and a defined MODE: the port is DISABLED, keeps its fence, and every other port is unchanged
  (∀ (f : FnId) (p : LinkId) (v : Word32) (s : State), s.barUp = true ∧ f.val = s.adminPf → bit v.toNat 0 = false ∧ bits v.toNat 2 1 ≠ 3 → 
    ∃ t, exec (.lnkPortCtlWrite f p v) s = .next t ∧ ((t.lport p).state = .disabled ∧ (t.lport p).fence = (s.lport p).fence ∧ ∀ q : Nat, q ≠ p → t.lport q = s.lport q)) ∧
  -- LNK_PART_ID_WRITE with a value other than 0xFFFF: the part has the identifier, and each enabled DISABLED port is FENCED, in TEST or TRAINING
  (∀ (f : FnId) (v : Word32) (s : State), s.barUp = true ∧ f.val = s.adminPf → bits v.toNat 15 0 ≠ 0xFFFF → 
    ∃ t, exec (.lnkPartIdWrite f v) s = .next t ∧ (t.partId = bits v.toNat 15 0 ∧ ∀ p, p < 16 → (s.lport p).state = .disabled → s.rbit (LNK_PORT_CTL p) 0 = true → (t.lport p).state = if (s.lport p).fence then .fenced else if s.linkMode p = 2 then .test else .training)) ∧
  -- PORT_TRAINING_DONE: a training port is UP with the lanes of its mode and the partner given, and every other port is unchanged
  (∀ (p : LinkId) (partner partnerPort : Nat) (s : State), ((s.lport p).state = .training ∨ ((s.lport p).state = .down ∧ (s.lport p).retry = true)) → 
    ∃ t, exec (.portTrainingDone p true partner partnerPort) s = .next t ∧ (t.lport p = { (s.lport p).quiet .up with lanesOk := s.modeLanes p, partner := partner % 65536, partnerPort := partnerPort % 16 } ∧ ∀ q : Nat, q ≠ p → t.lport q = s.lport q)) ∧
  -- LINK_DOWN: an UP port loses its traffic and is in TRAINING, DISABLED or DOWN by the reason; every other port is unchanged
  (∀ (p : LinkId) (reason : Nat) (s : State), (s.lport p).state = .up → 
    ∃ t, exec (.linkDown p reason) s = .next t ∧ (t.lport p = { (s.lport p).quiet (if reason = 3 then .training else if reason = 4 then .disabled else .down) with downAt := s.now } ∧ ∀ q : Nat, q ≠ p → t.lport q = s.lport q)) ∧
  -- DOWN_RETRAIN_TIMER: a port DOWN for 100 ms tries again; every other port is unchanged
  (∀ (p : LinkId) (τ : Nat) (s : State), (s.lport p).state = .down ∧ (s.lport p).downAt + 100000000 ≤ τ → 
    ∃ t, exec (.downRetrainTimer p τ) s = .next t ∧ (t.lport p = { s.lport p with retry := true, downAt := τ } ∧ t.now = max s.now τ ∧ ∀ q : Nat, q ≠ p → t.lport q = s.lport q)) ∧
  -- LANE_LOSS_OF_LOCK: an UP port that loses a lane of its mode is DOWN with that lane not locked; every other port is unchanged
  (∀ (p : LinkId) (lane : Nat) (s : State), (s.lport p).state = .up ∧ bit (s.modeLanes p) lane = true → 
    ∃ t, exec (.laneLossOfLock p lane) s = .next t ∧ ((t.lport p).state = .down ∧ (t.lport p).lanesOk = putBits (s.lport p).lanesOk lane lane 0 ∧ ∀ q : Nat, q ≠ p → t.lport q = s.lport q)) ∧
  -- PRBS_TEST: in TEST, LOCKED of each tested lane is what the lane found
  (∀ (p : LinkId) (locked : Nat) (errs : List Nat) (s : State), (s.lport p).state = .test → 
    ∃ t, exec (.prbsTest p locked errs) s = .next t ∧ ((∀ k, k < 4 → bit (t.fld (LNK_PRBS_CTL p) 7 4) k = (bit locked k && bit (s.fld (LNK_PRBS_CTL p) 3 0) k)) ∧ t.fld (LNK_PRBS_CTL p) 7 4 = (t.lport p).prbsLocked))

/-- Flits, side words and part time. When the conditions on the state and the operands that a clause names hold, exec answers a next state, as
follows. FLIT_RECEIVE: the flit in sequence with a whole transaction of an unfenced origin puts that transaction last in the inbox, and the sequence
number moves on; SIDE_WORD_RECEIVE: an acknowledgement releases every sent flit before the number it carries; UNCORRECTABLE_CODEWORD: the port asks
for a replay from the flit it awaits, its side word is bad, and LNK_FEC_UNCORR counts one, saturating; REPLAY_BOUND_EXCEEDED: an UP port with a
replayed flit unacknowledged for 20 us is DOWN with nothing left to send again; every other port is unchanged; TRANSACTION_FORWARD: a transaction for
another part goes to the port of its route with one hop more and its channel changed at a dateline; TIME_SAMPLE: the part is LOCKED with its distance
and offset; the first lock steps its time to the partner's and a later one never sets it back; TIME_UNLOCKED: a part with no sample for 1 ms is not
LOCKED, LNK_TIME_STATUS and LNK_STATUS say so, and nothing else of its time changes. Choices and inferences of the model in these clauses: assumption
log 3, 94, 95, 96.
Basis: derived; 10_omwen_links.md: R391, R393, R399, R400, R402, R434, R436. -/

def Obligations.Flits_and_part_time : Prop :=
  -- FLIT_RECEIVE: the flit in sequence with a whole transaction of an unfenced origin puts that transaction last in the inbox, and the sequence number moves on
  (∀ (p : LinkId) (seq vc kind : Nat) (body : List Byte) (s : State), (s.lport p).state = .up ∧ seq = (s.lport p).rxSeq → kind % 4 = 1 ∧ (hdrOf body).length ≤ 192 ∧ (hdrOf body).length + 64 ≤ body.length → s.links.fenced.contains (hdrOf body).org = false → 
    ∃ t, exec (.flitReceive p seq vc kind body) s = .next t ∧ (t.links.inbox = s.links.inbox ++ [(p.val, ⟨hdrOf body, (body.drop 64).take (hdrOf body).length, vc % 8⟩)] ∧ (t.lport p).rxSeq = (seq + 1) % 65536 ∧ (t.lport p).rxIndex = ((s.lport p).rxIndex + 1) % 65536 ∧ (t.lport p).nakFor = none)) ∧
  -- SIDE_WORD_RECEIVE: an acknowledgement releases every sent flit before the number it carries
  (∀ (p : LinkId) (w : Nat) (s : State), (s.lport p).state = .up ∧ (s.lport p).sideBad = false → bits w 47 44 = 1 ∧ (s.lport p).waiting = [] → 
    ∃ t, exec (.sideWordReceive p w) s = .next t ∧ (t.lport p = { s.lport p with sent := (s.lport p).sent.filter fun f => !seqBefore f.seq (bits w 43 28) })) ∧
  -- UNCORRECTABLE_CODEWORD: the port asks for a replay from the flit it awaits, its side word is bad, and LNK_FEC_UNCORR counts one, saturating
  (∀ (p : LinkId) (τ : Nat) (s : State), (s.lport p).state = .up → 
    ∃ t, exec (.uncorrectableCodeword p τ) s = .next t ∧ (t.lport p = { s.lport p with nakFor := some ((s.lport p).nakFor.getD (s.lport p).rxSeq), sideBad := true } ∧ t.fld (LNK_FEC_UNCORR p) 31 0 = satAdd 0xFFFFFFFF (s.fld (LNK_FEC_UNCORR p) 31 0) 1 ∧ t.now = max s.now τ)) ∧
  -- REPLAY_BOUND_EXCEEDED: an UP port with a replayed flit unacknowledged for 20 us is DOWN with nothing left to send again; every other port is unchanged
  (∀ (p : LinkId) (τ : Nat) (s : State) (f : SentFlit), (s.lport p).state = .up → f ∈ (s.lport p).sent ∧ f.replayed = true ∧ f.at_ + 20000 ≤ τ → 
    ∃ t, exec (.replayBoundExceeded p τ) s = .next t ∧ ((t.lport p).state = .down ∧ (t.lport p).sent = [] ∧ ∀ q : Nat, q ≠ p → t.lport q = s.lport q)) ∧
  -- TRANSACTION_FORWARD: a transaction for another part goes to the port of its route with one hop more and its channel changed at a dateline
  (∀ (n : Nat) (s : State) (tx : LTxn) (i q : Nat) (dl : Bool) (u : State), s.takeInbox n [tx.hdr.op] = some (i, tx, u) ∧ s.links.inbox[n]? = some (i, tx) → s.isSelf tx.hdr.dst = false ∧ tx.hdr.hops + 1 < 64 → u.route tx.hdr.dst = some (q, dl) ∧ (u.lport q).state = .up → 
    ∃ t, exec (.transactionForward n) s = .next t ∧ (t = u.enqueue q { tx with hdr := { tx.hdr with hops := tx.hdr.hops + 1 }, vc := afterDateline dl tx.vc } none)) ∧
  -- TIME_SAMPLE: the part is LOCKED with its distance and offset; the first lock steps its time to the partner's and a later one never sets it back
  (∀ (partner hops τ : Nat) (s : State), s.rbit LNK_TIME_CTL 16 = true ∧ s.fld LNK_TIME_CTL 15 0 ≠ s.partId ∧ (s.route (s.fld LNK_TIME_CTL 15 0)).isSome = true → 
    ∃ t, exec (.timeSample partner hops τ) s = .next t ∧ (t.links.time.locked = true ∧ t.links.time.hops = min (hops + 1) 127 ∧ t.links.time.offset = partner - τ ∧ t.fld LNK_TIME_STATUS 31 31 = 1 ∧ t.fld LNK_TIME_STATUS 30 24 = min (hops + 1) 127 ∧ (s.links.time.everLocked = false → t.now = partner) ∧ (s.links.time.everLocked = true → t.now = max s.now τ))) ∧
  -- TIME_UNLOCKED: a part with no sample for 1 ms is not LOCKED, LNK_TIME_STATUS and LNK_STATUS say so, and nothing else of its time changes
  (∀ (τ : Nat) (s : State), s.links.time.locked = true ∧ s.links.time.lastSample + 1000000 ≤ τ → 
    ∃ t, exec (.timeUnlocked τ) s = .next t ∧ (t.links.time = { s.links.time with locked := false } ∧ t.fld LNK_TIME_STATUS 31 31 = 0 ∧ t.fld LNK_STATUS 2 2 = 1 ∧ t.now = max s.now τ))

/-- Membership, adoption of shards and rollback. When the conditions on the state and the operands that a clause names hold, exec answers a next
state, as follows. MEMBER_RECEIVE: a notice of a member at the group's epoch is added to that epoch's notices; SET_MEMBERSHIP, a table that removes
nobody, with no traffic to end: the group has the table's epoch, members, owners, images and securing; SHARD_ADOPTED: with nothing left to adopt, this
member's part is done and its pages are adopted; SHARD_COMMIT: with every other member's notice in, the adoption is over and its command completes
with the epoch as RESULT (status 64H when it was abandoned); ROLLBACK: with every offer in, the members agree on the lowest epoch offered. Choices and
inferences of the model in these clauses: assumption log 14, 94, 98, 99, 120, 122, 123.
Basis: derived; 10_omwen_links.md: R406; 13_resilience.md: R563, R566, R571. -/

def Obligations.Membership_changes : Prop :=
  -- MEMBER_RECEIVE: a notice of a member at the group's epoch is added to that epoch's notices
  (∀ (n : Nat) (s : State) (p : Nat) (tx : LTxn) (u : State) (c : Nat) (g : Group), s.takeInbox n [9] = some (p, tx, u) ∧ u.isSelf tx.hdr.dst = true → u.groupCtx (tx.hdr.handle / 2 ^ 24) = some c ∧ mfind (u.ctx c).colls (tx.hdr.handle / 2 ^ 24) = some g → tx.hdr.offset = g.epoch ∧ g.members.contains tx.hdr.org = true → 
    ∃ t, exec (.memberReceive n) s = .next t ∧ (mfind (t.ctx c).notices (noticeKey (tx.hdr.handle / 2 ^ 24) g.epoch) = some (((u.ctx c).noticesOf (tx.hdr.handle / 2 ^ 24) g.epoch).take (tx.hdr.handle % 256) tx.hdr.org (fieldLe tx.hdr.args 0 8)))) ∧
  -- SET_MEMBERSHIP, a table that removes nobody, with no traffic to end: the group has the table's epoch, members, owners, images and securing
  (∀ (c : CtxId) (k : Nat) (s : State) (cmd : Cmd) (bs : List Byte) (m : MemberTable), s.cmdAt c k = some cmd ∧ byteAt cmd.desc 0 = 0x0B ∧ s.serves 0x0B = true ∧ cmd.phase = .started → setMemberBad cmd.desc = false ∧ (s.ctx c).st.takesTable = true ∧ bit (byteAt cmd.desc 5) 0 = false → s.hostRead (s.ctxPort c) (fieldLe cmd.desc 8 8) (fieldLe cmd.desc 16 4) = some bs → ((∀ d, d < 64 → (s.ctx d).st ≠ .restoring) ∧ (s.ctx c).dust.queued = none ∧ (s.ctx c).dust.adoption = none) → s.memberStatus c bs = 0 ∧ memberTable bs = some m ∧ m.removed = 0xFFFF → s.dustBase c = 0 ∧ (s.ctx c).posted = [] ∧ (s.ctx c).linkWork = [] ∧ s.links.fenced = [] → 
    ∃ t, exec (.setMembership c k) s = .next t ∧ (∃ g, mfind (t.ctx c).colls m.group = some g ∧ g.epoch = m.epoch ∧ g.members = m.members ∧ g.owners = m.owners ∧ g.images = m.images ∧ g.securing = m.securing)) ∧
  -- SHARD_ADOPTED: with nothing left to adopt, this member's part is done and its pages are adopted
  (∀ (c : CtxId) (s : State) (a : Adoption), (s.ctx c).dust.adoption = some a → a.mineDone = false ∧ a.failedTwice = false ∧ a.rollback = 0 ∧ a.cur = none ∧ a.entries = [] → 
    ∃ t, exec (.shardAdopted c) s = .next t ∧ ((t.ctx c).dust.adoption = some { a with mineDone := true } ∧ (t.ctx c).dust.adoptPages = ((s.ctx c).dust.addAdopted a.pages).adoptPages)) ∧
  -- SHARD_COMMIT: with every other member's notice in, the adoption is over and its command completes with the epoch as RESULT (status 64H when it was abandoned)
  (∀ (c : CtxId) (s : State) (a : Adoption) (k : Nat) (cmd : Cmd), (s.ctx c).dust.adoption = some a ∧ a.mineDone = true ∧ a.rollback = 0 ∧ (s.ctx c).unshared a = [] → s.findCmd c 0x0B (inPhase 1 a.epoch) = some (k, cmd) ∧ bit (byteAt cmd.desc 5) 0 = false ∧ (s.ctx c).dust.queued = none → 
    ∃ t, exec (.shardCommit c) s = .next t ∧ ((t.ctx c).dust.adoption = none ∧ Done s t c k (if a.abandoned then 0x64 else 0) a.epoch)) ∧
  -- ROLLBACK: with every offer in, the members agree on the lowest epoch offered
  (∀ (c : CtxId) (s : State) (a : Adoption) (g : Group), (s.ctx c).dust.adoption = some a ∧ mfind (s.ctx c).colls a.group = some g ∧ a.rollback = 1 → (s.ctx c).allNoticed g s.partId ((s.ctx c).noticesOf a.group a.epoch).offers = true → 
    ∃ t, exec (.rollback c) s = .next t ∧ ((t.ctx c).dust.adoption = some { a with rollback := 2, agreed := some (if ((s.ctx c).noticesOf a.group a.epoch).offers.isEmpty then s.offer c else min ((s.ctx c).noticesOf a.group a.epoch).offered (s.offer c)) }))

/-- COPY, MAP and UNMAP. When the conditions on the state and the operands that a clause names hold, exec answers a next state, as follows. COPY, a
part: the bytes up to the nearest boundary of either end are copied and the command's position moves on by as many; COPY, the end: with all bytes
copied and no flag to set the command completes with status 0; MAP: the range, named by the command or picked by the part, is mapped and the command
completes with its address as RESULT; UNMAP: no page of the range has an entry any more. Choices and inferences of the model in these clauses:
assumption log 12, 15, 133.
Basis: derived; 09_memory.md: R366, R368, R369. -/

def Obligations.Copies_and_maps : Prop :=
  -- COPY, a part: the bytes up to the nearest boundary of either end are copied and the command's position moves on by as many
  (∀ (c : CtxId) (k : Nat) (s : State) (cmd : Cmd) (pos n : Nat) (a b : MemEnd) (u : State), s.cmdAt c k = some cmd ∧ byteAt cmd.desc 0 = 0x0D ∧ s.serves 0x0D = true → cmd.phase = .underway pos 0 ∧ bit (byteAt cmd.desc 8) 0 = false ∧ pos < fieldLe cmd.desc 32 8 → a = s.copyEnd c cmd.desc false pos ∧ b = s.copyEnd c cmd.desc true pos → n = min (fieldLe cmd.desc 32 8 - pos) (min (toBoundary (copyAddr a)) (toBoundary (copyAddr b))) → s.endsOk [(a, n, false), (b, n, true)] = .ok () ∧ (s.getEnd a n).2.copyPut b (s.getEnd a n).1 = some u → 
    ∃ t, exec (.copy c k) s = .next t ∧ (t = u.setPhase c k (.underway (pos + n) 0))) ∧
  -- COPY, the end: with all bytes copied and no flag to set the command completes with status 0
  (∀ (c : CtxId) (k : Nat) (s : State) (cmd : Cmd) (pos : Nat), s.cmdAt c k = some cmd ∧ byteAt cmd.desc 0 = 0x0D ∧ s.serves 0x0D = true → cmd.phase = .underway pos 0 ∧ bit (byteAt cmd.desc 8) 0 = false ∧ pos = fieldLe cmd.desc 32 8 → bit (byteAt cmd.desc 10) 0 = false → 
    ∃ t, exec (.copy c k) s = .next t ∧ (Done s t c k 0 0)) ∧
  -- MAP: the range, named by the command or picked by the part, is mapped and the command completes with its address as RESULT
  (∀ (c : CtxId) (k : Nat) (s : State) (cmd : Cmd) (p : Nat) (u : State), s.cmdAt c k = some cmd ∧ byteAt cmd.desc 0 = 0x0E ∧ s.serves 0x0E = true → mapBad cmd.desc = false → ((if fieldLe cmd.desc 16 8 = 0 then (s.ctx c).pickRange (fieldLe cmd.desc 24 8 / frameBytes) (if byteAt cmd.desc 5 = 1 then 512 else 1) = some p else p = fieldLe cmd.desc 16 8 / frameBytes ∧ (s.ctx c).rangeClear p (fieldLe cmd.desc 24 8 / frameBytes) = true)) → s.mapAt c cmd.desc p = some u → 
    ∃ t, exec (.map c k) s = .next t ∧ (t = u.complete c k 0 (frameBytes * p))) ∧
  -- UNMAP: no page of the range has an entry any more
  (∀ (c : CtxId) (k : Nat) (s : State) (cmd : Cmd) (p n : Nat), s.cmdAt c k = some cmd ∧ byteAt cmd.desc 0 = 0x0F ∧ s.serves 0x0F = true → unmapBad cmd.desc = false ∧ p = fieldLe cmd.desc 16 8 / frameBytes ∧ n = fieldLe cmd.desc 24 8 / frameBytes → (s.ctx c).unmappable p n = true ∧ s.pageBusy c p n = false → (∀ q ∈ s.mem.pageIns, q.ctx = c.val → q.page < p ∨ p + n ≤ q.page) → 
    ∃ t, exec (.unmap c k) s = .next t ∧ (∀ e ∈ (s.ctx c).entriesIn p n, mfind (t.ctx c).pt e.1 = none))

/-- Memory errors, scrubbing and paging in. When the conditions on the state and the operands that a clause names hold, exec answers a next state, as
follows. HBM_HOT_WINDOW_END: a hot bank's run of hot windows is one longer, a bank that is not hot has none, and part time is not behind the window;
HBM_CORRECTED_ERROR: the frame's and the stack's counts of corrected errors each go up by one, the latter saturating at 65535; MEM_UNCORR: a frame
that no context owns is noted as bad; a context that owns it and can fault is FAULTED; HBM_SCRUB: the stack's scrub time is the new part time, and a
frame with fewer than 16 corrected errors has none after it; PAGE_IN_START: the page is IN_TRANSIT, a frame is taken for it and the page-in is noted
last in its list; PAGE_IN_COMPLETE: the page is RESIDENT and clean in its frame, whose bytes are those of its host backing; host memory is unchanged.
Choices and inferences of the model in these clauses: assumption log 3, 74, 81.
Basis: derived; 09_memory.md: R328, R329, R330, R341, R363. -/

def Obligations.Memory_errors_and_paging : Prop :=
  -- HBM_HOT_WINDOW_END: a hot bank's run of hot windows is one longer, a bank that is not hot has none, and part time is not behind the window
  (∀ (hot : List Nat) (τ : Nat) (s : State), 
    ∃ t, exec (.hbmHotWindowEnd hot τ) s = .next t ∧ (t.now = max s.now τ ∧ (∀ b ∈ hot, b < 18432 → mget 0 t.mem.hotRun b = mget 0 s.mem.hotRun b + 1) ∧ ∀ b, b ∉ hot → mget 0 t.mem.hotRun b = 0)) ∧
  -- HBM_CORRECTED_ERROR: the frame's and the stack's counts of corrected errors each go up by one, the latter saturating at 65535
  (∀ (dpa : Nat) (s : State), dpaValid dpa = true → 
    ∃ t, exec (.hbmCorrectedError dpa) s = .next t ∧ ((t.frame (dpaFrame dpa)).corrected = (s.frame (dpaFrame dpa)).corrected + 1 ∧ t.fld (MEM_ECC (dpa / 2 ^ 36)) 15 0 = satAdd 0xFFFF (s.fld (MEM_ECC (dpa / 2 ^ 36)) 15 0) 1)) ∧
  -- MEM_UNCORR: a frame that no context owns is noted as bad; a context that owns it and can fault is FAULTED
  (∀ (dpa : Nat) (s : State), dpaValid dpa = true → 
    ∃ t, exec (.memUncorr dpa) s = .next t ∧ (((s.frame (dpaFrame dpa)).owner = none → (t.frame (dpaFrame dpa)).uncorr = true) ∧ ∀ c, (s.frame (dpaFrame dpa)).owner = some c → (s.ctx c).st.canFault = true → (t.ctx c).st = .faulted)) ∧
  -- HBM_SCRUB: the stack's scrub time is the new part time, and a frame with fewer than 16 corrected errors has none after it
  (∀ (m : StackId) (τ : Nat) (s : State), 
    ∃ t, exec (.hbmScrub m τ) s = .next t ∧ (t.now = max s.now τ ∧ mfind t.mem.scrubbedAt m = some t.now ∧ ∀ e ∈ t.mem.frames, frameStack e.1 = m → e.2.corrected = 0 ∨ 16 ≤ e.2.corrected)) ∧
  -- PAGE_IN_START: the page is IN_TRANSIT, a frame is taken for it and the page-in is noted last in its list
  (∀ (c : CtxId) (va : Nat) (s : State) (e : Pte) (f : Nat) (u : State), ((s.mem.wants.any fun w => w.ctx == c.val && w.page == va / frameBytes) = true ∧ s.mem.pageIns.length < 64) → mfind (s.ctx c).pt (va / frameBytes) = some e ∧ e.ty = .pageable ∧ (s.port e.port).dlUp = true → s.allocFrame e.stks (some c.val) true = some (f, u) → 
    ∃ t, exec (.pageInStart c va) s = .next t ∧ (mfind (t.ctx c).pt (va / frameBytes) = some { e with ty := .inTransit } ∧ t.mem.pageIns = s.mem.pageIns ++ [⟨c, va / frameBytes, f⟩])) ∧
  -- PAGE_IN_COMPLETE: the page is RESIDENT and clean in its frame, whose bytes are those of its host backing; host memory is unchanged
  (∀ (c : CtxId) (page : Nat) (s : State) (p : PageIn) (e : Pte), (s.mem.pageIns.find? (fun q => q.ctx == c.val && q.page == page) = some p) → mfind (s.ctx c).pt page = some e ∧ (s.port e.port).dlUp = true → 
    ∃ t, exec (.pageInComplete c page) s = .next t ∧ (mfind (t.ctx c).pt page = some { e with ty := .resident, addr := frameDpa p.frame, dirty := false } ∧ t.mem.hbm = importRange s.host (hostKey e.port e.backing) frameBytes s.mem.hbm (frameDpa p.frame) ∧ t.host = s.host))

/-- Transfers of the MOVE unit. When the conditions on the state and the operands that a clause names hold, exec answers a next state, as follows.
XFER, the end: a transfer with nothing left to issue and no segment in flight is over, and its done flag, where it has one, is 1; XFER, begin: the
first MOVE operation with no flag to wait for begins and reads its descriptor; XFER, issue: a transfer with bytes left issues segments; MOVE_PAGE_IN,
the end: with no page of it wanted or in transit the operation is over; MOVE_PAGE_IN, begin: it begins and wants its pages. Choices and inferences of
the model in these clauses: assumption log 90.
Basis: derived; 09_memory.md: R355, R359. -/

def Obligations.Transfers_of_the_MOVE_unit : Prop :=
  -- XFER, the end: a transfer with nothing left to issue and no segment in flight is over, and its done flag, where it has one, is 1
  (∀ (a : AuId) (s : State) (c l : Nat) (op : ActiveOp), s.opOf a 5 = some (c, l, op) ∧ opKind op.word = 0 ∧ op.data.isEmpty = false ∧ (moveDesc op.data).total ≤ op.xreg 1 ∧ (s.segsBy (.move a)).isEmpty = true → 
    ∃ t, exec (.xfer a) s = .next t ∧ (t = s.endMove a c op ∧ (t.au a).act 5 = none ∧ ((moveDesc op.data).doneEn = true → t.flag c (moveDesc op.data).doneFlag = true))) ∧
  -- XFER, begin: the first MOVE operation with no flag to wait for begins and reads its descriptor
  (∀ (a : AuId) (s : State) (c l : Nat) (op : FifoOp), s.live a = some (c, l) ∧ (s.au a).nextOf 5 = some op ∧ opWen op.word = false ∧ opKind op.word = 0 → 
    ∃ t, exec (.xfer a) s = .next t ∧ (t = (s.beginOp a 5 c op).readMove a c (startedOp op))) ∧
  -- XFER, issue: a transfer with bytes left issues segments
  (∀ (a : AuId) (s : State) (c l : Nat) (op : ActiveOp), s.opOf a 5 = some (c, l, op) ∧ opKind op.word = 0 ∧ op.data.isEmpty = false ∧ op.xreg 1 < (moveDesc op.data).total → 
    ∃ t, exec (.xfer a) s = .next t ∧ (t = s.issueMove a c op)) ∧
  -- MOVE_PAGE_IN, the end: with no page of it wanted or in transit the operation is over
  (∀ (a : AuId) (s : State) (c l : Nat) (op : ActiveOp), s.opOf a 5 = some (c, l, op) ∧ opKind op.word = 1 → ((op.regs.any fun p => (s.mem.wants.any fun w => w.ctx == c && w.page == p) || (s.mem.pageIns.any fun w => w.ctx == c && w.page == p)) = false) → 
    ∃ t, exec (.movePageIn a) s = .next t ∧ (t = (s.endOp a 5).progress c ∧ (t.au a).act 5 = none)) ∧
  -- MOVE_PAGE_IN, begin: it begins and wants its pages
  (∀ (a : AuId) (s : State) (c l : Nat) (op : FifoOp), s.live a = some (c, l) ∧ (s.au a).nextOf 5 = some op ∧ opWen op.word = false ∧ opKind op.word = 1 → 
    ∃ t, exec (.movePageIn a) s = .next t ∧ (t = (s.beginOp a 5 c op).wantPages a c (startedOp op)))

/-- Streams of the Stencil unit. When the conditions on the state and the operands that a clause names hold, exec answers a next state, as follows.
STENCIL_SEGMENT_ISSUE, a read of memory: one segment is issued, to the end of the run, the next boundary or the total, whichever is nearest, and the
Stencil counts its bytes and one segment more; STENCIL_SEGMENT_ISSUE, any Stencil with bytes left: it issues as a Hawk, a writing or a reading Stencil
does; STAGING_BUFFER_FREE: the same attempt once a buffer is free; STENCIL_DONE: with everything moved and no segment in flight the Stencil is done,
its queue end is free for the next one, and its done flag, where it has one, is 1; STREAM_HALT_RESUME: a halted Stencil whose address now translates
is not halted, and nothing else of it changes; SEGMENT_COMPLETE: the segment's bytes are read and put at its destination, the Stencil or engine is
told, and the segment is gone; QUEUE_RECORD_READY: n bytes of a coupled queue go over to the other. Choices and inferences of the model in these
clauses: assumption log 76, 79.
Basis: derived; 04_programs.md: R130, R155, R159; 05_hawk.md: R209; 09_memory.md: R347, R352. -/

def Obligations.Streams_of_the_Stencil_unit : Prop :=
  -- STENCIL_SEGMENT_ISSUE, a read of memory: one segment is issued, to the end of the run, the next boundary or the total, whichever is nearest, and the Stencil counts its bytes and one segment more
  (∀ (a : AuId) (st : StnId) (s s1 : State) (c l va dpa len n : Nat) (e : Pte) (x : StnSlot) (d : StnDesc), s.live a = some (c, l) ∧ x = (s.au a).stn st ∧ d = stnDesc x.desc ∧ x.st = .active ∧ x.halted = false ∧ x.issued < d.total ∧ d.space = 1 ∧ d.write = false → (s.ctx c).locate d.lbuf (d.addr x.issued) = some (.virt va) ∧ len = min (min (d.run - x.issued % d.run) (toBoundary va)) (d.total - x.issued) ∧ len ≤ (s.au a).roleFree d.queue d.scales - s.aheadBytes a st → ((match (s.ctx c).translate va false with | .ok q => some q | _ => none) = some (n, e, dpa)) → s.issueSeg { issuer := .stencil a st, die := auDie a, rsv := false, runahead := false, src := .virt c va, dst := .queue a d.queue d.scales, len := len, data := [], bank := some (bankOf dpa) } = some s1 → 
    ∃ t, exec (.stencilSegmentIssue a st false) s = .next t ∧ (t.mem = s1.mem ∧ ((t.au a).stn st).issued = x.issued + len ∧ ((t.au a).stn st).segs = x.segs + 1)) ∧
  -- STENCIL_SEGMENT_ISSUE, any Stencil with bytes left: it issues as a Hawk, a writing or a reading Stencil does
  (∀ (a : AuId) (st : StnId) (s : State) (c l : Nat), s.live a = some (c, l) ∧ ((s.au a).stn st).st = .active ∧ ((s.au a).stn st).halted = false ∧ ((s.au a).stn st).issued < (stnDesc ((s.au a).stn st).desc).total → 
    ∃ t, exec (.stencilSegmentIssue a st false) s = .next t ∧ (t = (if (stnDesc ((s.au a).stn st).desc).space = 0 then s.issueHawk a st c else if (stnDesc ((s.au a).stn st).desc).write then s.issueWrite a st c else s.issueRead a st c false))) ∧
  -- STAGING_BUFFER_FREE: the same attempt once a buffer is free
  (∀ (a : AuId) (st : StnId) (s : State) (c l : Nat), s.live a = some (c, l) ∧ ((s.au a).stn st).st = .active ∧ ((s.au a).stn st).halted = false ∧ ((s.au a).stn st).issued < (stnDesc ((s.au a).stn st).desc).total → 
    ∃ t, exec (.stagingBufferFree a st) s = .next t ∧ (t = (if (stnDesc ((s.au a).stn st).desc).space = 0 then s.issueHawk a st c else if (stnDesc ((s.au a).stn st).desc).write then s.issueWrite a st c else s.issueRead a st c false))) ∧
  -- STENCIL_DONE: with everything moved and no segment in flight the Stencil is done, its queue end is free for the next one, and its done flag, where it has one, is 1
  (∀ (a : AuId) (st : StnId) (s s1 : State) (c l : Nat) (d : StnDesc), (s.au a).asg = some (c, l) ∧ d = stnDesc ((s.au a).stn st).desc ∧ ((s.au a).stn st).st = .active ∧ ((s.au a).stn st).moved = d.total ∧ ((s.au a).stn st).segs = 0 → (s1 = s.modAu a fun b => ((b.endStnVisit st).putStn st { (b.endStnVisit st).stn st with st := .done, halted := false, waitSlot := none }).promote d.queue d.scales) → 
    ∃ t, exec (.stencilDone a st) s = .next t ∧ (t = (if d.doneEn then s1.setFlag c d.doneFlag true else s1).progress c ∧ (d.doneEn = true → t.flag c d.doneFlag = true))) ∧
  -- STREAM_HALT_RESUME: a halted Stencil whose address now translates is not halted, and nothing else of it changes
  (∀ (a : AuId) (st : StnId) (s : State) (c l va : Nat) (d : StnDesc), s.live a = some (c, l) ∧ d = stnDesc ((s.au a).stn st).desc ∧ ((s.au a).stn st).halted = true ∧ (s.ctx c).locate d.lbuf (d.addr ((s.au a).stn st).issued) = some (.virt va) → ((match (s.ctx c).translate va d.write with | .ok _ => true | _ => false) = true) → 
    ∃ t, exec (.streamHaltResume a st) s = .next t ∧ ((t.au a).stn st = { (s.au a).stn st with halted := false })) ∧
  -- SEGMENT_COMPLETE: the segment's bytes are read and put at its destination, the Stencil or engine is told, and the segment is gone
  (∀ (id : Nat) (s s1 : State) (g : Seg), mfind s.mem.segs id = some g ∧ s.segBlocked id g = false ∧ (s.segBytes g).2.putEnd g.dst (s.segBytes g).1 g.runahead = some s1 → 
    ∃ t, exec (.segmentComplete id) s = .next t ∧ (t = ((s1.segNote g).freeSeg id).issuerProgress g.issuer ∧ mfind t.mem.segs id = none)) ∧
  -- QUEUE_RECORD_READY: n bytes of a coupled queue go over to the other
  (∀ (a : AuId) (src dst : QueueId) (n : Nat) (s : State) (c l : Nat), s.live a = some (c, l) ∧ coupled src dst = true ∧ (s.ctx c).linkBound l src = false ∧ (s.au a).unbound src = true ∧ (s.au a).unbound dst = true → n ≤ ((s.au a).queue src).level ∧ (s.au a).qRoom dst n = true → 
    ∃ t, exec (.queueRecordReady a src dst n) s = .next t ∧ (((t.au a).queue src).data = ((s.au a).queue src).data.drop n ∧ ((t.au a).queue dst).data = ((s.au a).queue dst).data ++ ((s.au a).queue src).data.take n))

/-- Events of the host ports. When the conditions on the state and the operands that a clause names hold, exec answers a next state, as follows.
PERST_N_ASSERT: the port's link goes, PERST# is noted and the port does not answer; PERST_N_DEASSERT: the port answers again when host power is on,
from now; HOT_RESET: the port's link goes; HOST_PORT_LOST: the port is lost from the given time; HOST_PORT_UP: the data link is up at the given speed
and width; HOST_GRACE_EXPIRED: the port's grace is over and PCIE_PORT_FLAGS says so; FUNCTION_LEVEL_RESET: the function is reset; IDE_INSECURE: the
stream is insecure and the port is lost with that reason; CONFIGURATION_REQUEST, a read: the answer is status 0 and the register of the configuration
space; CONFIGURATION_REQUEST, a write: the register is written and the answer is status 0; ENTER_COMPLIANCE: a port that is down is in compliance.
Choices and inferences of the model in these clauses: assumption log 3, 6, 34, 63.
Basis: derived; 11_host.md: R443, R450, R451, R454, R483, R485; 14_power_package.md: R611. -/

def Obligations.Host_port_events : Prop :=
  -- PERST_N_ASSERT: the port's link goes, PERST# is noted and the port does not answer
  (∀ (p : PortId) (τ : Nat) (s : State), 
    ∃ t, exec (.perstNAssert p τ) s = .next t ∧ (t = ((s.at τ).linkGone p 1).modPort p (fun x => { x with perst := true, answering := false, compliance := false }) ∧ (t.port p).perst = true ∧ (t.port p).dlUp = false)) ∧
  -- PERST_N_DEASSERT: the port answers again when host power is on, from now
  (∀ (p : PortId) (s : State), 
    ∃ t, exec (.perstNDeassert p) s = .next t ∧ (t.port p = { s.port p with perst := false, answering := s.power.hostOn, perstAt := s.now })) ∧
  -- HOT_RESET: the port's link goes
  (∀ (p : PortId) (τ : Nat) (s : State), 
    ∃ t, exec (.hotReset p τ) s = .next t ∧ (t = (s.at τ).linkGone p 2 ∧ (t.port p).dlUp = false)) ∧
  -- HOST_PORT_LOST: the port is lost from the given time
  (∀ (p : PortId) (τ : Nat) (s : State), (s.port p).dlUp = true ∧ (s.port p).lost = false ∧ s.graceNs p ≠ 0 → 
    ∃ t, exec (.hostPortLost p τ) s = .next t ∧ (t = (s.at τ).linkGone p 0 ∧ (t.port p).dlUp = false ∧ (t.port p).lost = true ∧ (t.port p).lostAt = max s.now τ)) ∧
  -- HOST_PORT_UP: the data link is up at the given speed and width
  (∀ (p : PortId) (speed width : Nat) (flit : Bool) (s : State), (s.port p).perst = false ∧ (s.port p).dlUp = false ∧ s.power.hostOn = true ∧ s.power.svc.hold = false → 
    ∃ t, exec (.hostPortUp p speed width flit) s = .next t ∧ (t.port p = { s.port p with dlUp := true, lost := false, flit := flit, speed := speed, width := width, compliance := false })) ∧
  -- HOST_GRACE_EXPIRED: the port's grace is over and PCIE_PORT_FLAGS says so
  (∀ (p : PortId) (τ : Nat) (s : State), (s.port p).grace = true ∧ (s.port p).lostAt + s.graceNs p ≤ τ ∧ (s.port p).lost = true → 
    ∃ t, exec (.hostGraceExpired p τ) s = .next t ∧ ((t.port p).grace = false ∧ t.fld (PCIE_PORT_FLAGS p) 1 1 = 1)) ∧
  -- FUNCTION_LEVEL_RESET: the function is reset
  (∀ (f : FnId) (s : State), 
    ∃ t, exec (.functionLevelReset f) s = .next t ∧ (t = s.flr f)) ∧
  -- IDE_INSECURE: the stream is insecure and the port is lost with that reason
  (∀ (p : PortId) (n τ : Nat) (s : State), (((s.port p).ide.any fun i => i.num == n && i.secure) = true) → 
    ∃ t, exec (.ideInsecure p n τ) s = .next t ∧ (t = ((s.at τ).modPort p fun x => { x with ide := x.ide.map fun i => if i.num = n then { i with secure := false } else i }).losePort p 3)) ∧
  -- CONFIGURATION_REQUEST, a read: the answer is status 0 and the register of the configuration space
  (∀ (p : PortId) (vf off v : Nat) (s : State), (s.port p).answering = true ∧ s.barUp = true → 
    ∃ t, exec (.configurationRequest p vf false off v) s = .next t ∧ (t = { s with answer := 0 :: natLe 4 (s.configRead p (vf % 16) off) })) ∧
  -- CONFIGURATION_REQUEST, a write: the register is written and the answer is status 0
  (∀ (p : PortId) (vf off v : Nat) (s : State), (s.port p).answering = true ∧ s.barUp = true → 
    ∃ t, exec (.configurationRequest p vf true off v) s = .next t ∧ (t = { s.configWrite p (vf % 16) off v with answer := [0] })) ∧
  -- ENTER_COMPLIANCE: a port that is down is in compliance
  (∀ (p : PortId) (s : State), (s.port p).perst = false ∧ (s.port p).dlUp = false → 
    ∃ t, exec (.enterCompliance p) s = .next t ∧ (t.port p = { s.port p with compliance := true }))

/-- Power registers and the power input. When the conditions on the state and the operands that a clause names hold, exec answers a next state, as
follows. PWR_CTL_MODE_WRITE: PWR_CTL holds the mode, and every clock and core voltage is at most the mode's; PWR_CAP_WRITE: the cap is the value
rounded down to 10 W and held between 1000 and 2400 W; INPUT_UNDERVOLTAGE below 40 V: host power is off with cause 5, the service side keeps its
state; INPUT_OVERVOLTAGE above 62 V: the same with cause 6; INPUT_BELOW_SERVICE_MIN below 36 V: host power is off and the service side too; INPUT_RISE
to 36 V or more: the service side starts from reset; HOST_POWER_ON: the power state is at reset but for the service side, PWR_RESET_CAUSE has the
cause and the firmware is off; SERVICE_RESET: the same with cause 1. Choices and inferences of the model in these clauses: assumption log 6, 33.
Basis: derived; 14_power_package.md: R576, R589, R590, R609, R613. -/

def Obligations.Power_registers_and_input : Prop :=
  -- PWR_CTL_MODE_WRITE: PWR_CTL holds the mode, and every clock and core voltage is at most the mode's
  (∀ (f : FnId) (v : Word32) (s : State), s.barUp = true ∧ f.val = s.adminPf ∧ bits v.toNat 1 0 ≠ 3 ∧ bits v.toNat 1 0 ≠ s.fld PWR_CTL 1 0 → 
    ∃ t, exec (.pwrCtlModeWrite f v) s = .next t ∧ (t.fld PWR_CTL 1 0 = bits v.toNat 1 0 ∧ t.power = { s.power with mhz := s.power.mhz.map fun e => (e.1, min e.2 (modeMhz (bits v.toNat 1 0))), mv := s.power.mv.map fun e => (e.1, min e.2 (modeMv (bits v.toNat 1 0))) })) ∧
  -- PWR_CAP_WRITE: the cap is the value rounded down to 10 W and held between 1000 and 2400 W
  (∀ (f : FnId) (v : Word32) (s : State), s.barUp = true ∧ f.val = s.adminPf → 
    ∃ t, exec (.pwrCapWrite f v) s = .next t ∧ (t.fld PWR_CAP 11 0 = min 2400 (max 1000 (10 * (bits v.toNat 11 0 / 10))))) ∧
  -- INPUT_UNDERVOLTAGE below 40 V: host power is off with cause 5, the service side keeps its state
  (∀ (mv τ : Nat) (s : State), s.power.hostOn = true ∧ mv < 40000 → 
    ∃ t, exec (.inputUndervoltage mv τ) s = .next t ∧ (t.power = { PowerSt.reset with hostOn := false, svc := { s.power.svc with mv := mv, cause := 5, unit := 0 }, vcap := voltageCap mv })) ∧
  -- INPUT_OVERVOLTAGE above 62 V: the same with cause 6
  (∀ (mv τ : Nat) (s : State), s.power.hostOn = true ∧ 62000 < mv → 
    ∃ t, exec (.inputOvervoltage mv τ) s = .next t ∧ (t.power = { PowerSt.reset with hostOn := false, svc := { s.power.svc with mv := mv, cause := 6, unit := 0 }, vcap := voltageCap mv })) ∧
  -- INPUT_BELOW_SERVICE_MIN below 36 V: host power is off and the service side too
  (∀ (mv : Nat) (s : State), s.power.hostOn = true ∧ mv < 36000 → 
    ∃ t, exec (.inputBelowServiceMin mv) s = .next t ∧ (t.power.hostOn = false ∧ t.power.svc = { SvcSt.reset with on := false, mv := mv })) ∧
  -- INPUT_RISE to 36 V or more: the service side starts from reset
  (∀ (mv : Nat) (s : State), s.power.svc.on = false ∧ 36000 ≤ mv → 
    ∃ t, exec (.inputRise mv) s = .next t ∧ (t = s.modSvc fun _ => { SvcSt.reset with mv := mv })) ∧
  -- HOST_POWER_ON: the power state is at reset but for the service side, PWR_RESET_CAUSE has the cause and the firmware is off
  (∀ (s : State), s.onRefused = false → 
    ∃ t, exec (.hostPowerOn) s = .next t ∧ (t.power = { PowerSt.reset with svc := { s.power.svc with tripAt := none }, vcap := voltageCap s.power.svc.mv } ∧ t.fld PWR_RESET_CAUSE 3 0 = s.power.svc.cause % 16 ∧ t.fld SEC_FW_STATUS 31 30 = 0)) ∧
  -- SERVICE_RESET: the same with cause 1
  (∀ (s : State), s.power.hostOn = true → 
    ∃ t, exec (.serviceReset) s = .next t ∧ (t.power = { PowerSt.reset with svc := { s.power.svc with cause := 1, unit := 0 }, vcap := voltageCap s.power.svc.mv } ∧ t.fld PWR_RESET_CAUSE 3 0 = 1 ∧ t.fld SEC_FW_STATUS 31 30 = 0))

/-- Power limiting, energy and heat. When the conditions on the state and the operands that a clause names hold, exec answers a next state, as
follows. VOLTAGE_CAP_UPDATE: the voltage's own cap follows the input, which PWR_INPUT shows in 10 mV; CAP_CONTROL_TICK: PWR_INPUT_W shows the watts,
the last 100 readings are kept, no clock passes its top and, above the cap, none rises; EXCURSION_CUT: every clock falls by 10 MHz, not below 250, and
the excursion is shown and counted; CURRENT_LIMIT above 64 A: clocks are stretched, and that is shown and counted; CURRENT_LIMIT_END below 60 A: they
are not; CAP_FLOOR: with every clock at 250 MHz and the power above the cap, AUs idle, and that is shown and counted; DROOP_STRETCH: only the AU named
is stretched, and its count goes up by one; DROOP_END: the AU is not stretched and its stretched cycles are added, the model's free value of them
(log) from 64 upward; ENERGY_UPDATE: the part's energy grows by the first meter's microjoules; THERMAL_SENSOR_READ: the readings are kept, the
throttled domains and stacks are those the readings give, and PWR_STATUS shows whether any is; THERMAL_TRIP: host power is off with cause 3, or 4 for
a stack, at the given time; STAGE_FAULT: host power is off with cause 7. Choices and inferences of the model in these clauses: assumption log 3, 6,
12, 24, 26, 27, 28, 29, 31, 33.
Basis: derived; 14_power_package.md: R580, R582, R583, R584, R593, R595, R600, R602, R614. -/

def Obligations.Power_limits_energy_and_heat : Prop :=
  -- VOLTAGE_CAP_UPDATE: the voltage's own cap follows the input, which PWR_INPUT shows in 10 mV
  (∀ (mv τ : Nat) (s : State), s.power.hostOn = true → 
    ∃ t, exec (.voltageCapUpdate mv τ) s = .next t ∧ (t.power = { s.power with svc := { s.power.svc with mv := mv }, vcap := voltageCap mv } ∧ t.fld PWR_INPUT 15 0 = mv / 10 % 2 ^ 16)) ∧
  -- CAP_CONTROL_TICK: PWR_INPUT_W shows the watts, the last 100 readings are kept, no clock passes its top and, above the cap, none rises
  (∀ (watts τ : Nat) (s : State), s.power.hostOn = true ∧ s.fwUp = true ∧ watts < 2 ^ 16 → 
    ∃ t, exec (.capControlTick watts τ) s = .next t ∧ (t.fld PWR_INPUT_W 15 0 = watts ∧ t.power.watts = (watts :: s.power.watts).take 100 ∧ (∀ d, d < 24 → mget 0 t.power.mhz d ≤ max 250 ((s.at τ).topMhz d)) ∧ (s.ceff < watts → ∀ d, d < 24 → mget 0 t.power.mhz d ≤ max 250 (mget 0 s.power.mhz d)))) ∧
  -- EXCURSION_CUT: every clock falls by 10 MHz, not below 250, and the excursion is shown and counted
  (∀ (watts τ : Nat) (s : State), (s.power.hostOn = true ∧ (s.ceiling < watts ∨ 10 ≤ s.excursions ∧ s.ceff < watts)) → 
    ∃ t, exec (.excursionCut watts τ) s = .next t ∧ ((∀ d, d < 24 → mget 0 t.power.mhz d ≤ max 250 (mget 0 s.power.mhz d - 10)) ∧ t.fld PWR_STATUS 3 3 = 1 ∧ t.fld PWR_EVT_CNT 15 8 = satAdd 255 (s.fld PWR_EVT_CNT 15 8) 1)) ∧
  -- CURRENT_LIMIT above 64 A: clocks are stretched, and that is shown and counted
  (∀ (ma τ : Nat) (s : State), s.power.hostOn = true ∧ 64000 < ma → 
    ∃ t, exec (.currentLimit ma τ) s = .next t ∧ (t.power.stretch = true ∧ t.fld PWR_STATUS 2 2 = 1 ∧ t.fld PWR_EVT_CNT 23 16 = satAdd 255 (s.fld PWR_EVT_CNT 23 16) 1)) ∧
  -- CURRENT_LIMIT_END below 60 A: they are not
  (∀ (ma τ : Nat) (s : State), ma < 60000 → 
    ∃ t, exec (.currentLimitEnd ma τ) s = .next t ∧ (t.power = { s.power with stretch := false } ∧ t.now = max s.now τ)) ∧
  -- CAP_FLOOR: with every clock at 250 MHz and the power above the cap, AUs idle, and that is shown and counted
  (∀ (watts τ : Nat) (s : State), (s.power.hostOn = true ∧ s.ceff < watts ∧ (∀ d, d < 24 → mget 0 s.power.mhz d ≤ 250) ∧ s.power.idle = false) → 
    ∃ t, exec (.capFloor watts τ) s = .next t ∧ (t.power.idle = true ∧ t.fld PWR_STATUS 6 6 = 1 ∧ t.fld PWR_EVT_CNT 7 0 = satAdd 255 (s.fld PWR_EVT_CNT 7 0) 1)) ∧
  -- DROOP_STRETCH: only the AU named is stretched, and its count goes up by one
  (∀ (a : AuId) (s : State), s.power.hostOn = true ∧ s.power.droop.contains a.val = false → 
    ∃ t, exec (.droopStretch a) s = .next t ∧ (t.power = { s.power with droop := a.val :: s.power.droop } ∧ t.fld (AU_DROOP_CNT a) 31 0 = satAdd (2 ^ 32 - 1) (s.fld (AU_DROOP_CNT a) 31 0) 1)) ∧
  -- DROOP_END: the AU is not stretched and its stretched cycles are added, the model's free value of them (log) from 64 upward
  (∀ (a : AuId) (s : State), s.power.droop.contains a.val = true → 
    ∃ t, exec (.droopEnd a) s = .next t ∧ (t.power = { s.power with droop := s.power.droop.filter (· != a.val) } ∧ t.reg64 (AU_DROOP_CYC_LO a) (AU_DROOP_CYC_HI a) = (s.reg64 (AU_DROOP_CYC_LO a) (AU_DROOP_CYC_HI a) + 64 + Config.free s.free) % 2 ^ 64)) ∧
  -- ENERGY_UPDATE: the part's energy grows by the first meter's microjoules
  (∀ (uj : List Nat) (τ : Nat) (s : State), s.power.hostOn = true → 
    ∃ t, exec (.energyUpdate uj τ) s = .next t ∧ (t.energy 0 0 = (s.energy 0 0 + uj.getD 0 0) % 2 ^ 64)) ∧
  -- THERMAL_SENSOR_READ: the readings are kept, the throttled domains and stacks are those the readings give, and PWR_STATUS shows whether any is
  (∀ (a b d : List Nat) (τ : Nat) (s : State), s.power.hostOn = true → 
    ∃ t, exec (.thermalSensorRead a b d τ) s = .next t ∧ (t.power.tAu = readings (a.take 192) ∧ t.power.tHub = readings (b.take 8) ∧ t.power.tStack = readings (d.take 12) ∧ t.power.thrDomain = ((s.at τ).sense a b d).thrDomain ∧ t.power.thrStack = ((s.at τ).sense a b d).thrStack ∧ t.fld PWR_STATUS 31 31 = if ((s.at τ).sense a b d).throttling then 1 else 0)) ∧
  -- THERMAL_TRIP: host power is off with cause 3, or 4 for a stack, at the given time
  (∀ (k n deg τ : Nat) (s : State), (s.power.hostOn = true ∧ (if k = 2 then 105 else 120) ≤ deg) → 
    ∃ t, exec (.thermalTrip k n deg τ) s = .next t ∧ (t.power.hostOn = false ∧ t.power.svc.cause = (if k = 2 then 4 else 3) ∧ t.power.svc.tripAt = some (max s.now τ))) ∧
  -- STAGE_FAULT: host power is off with cause 7
  (∀ (s : State), s.power.hostOn = true → 
    ∃ t, exec (.stageFault) s = .next t ∧ (t.power = { PowerSt.reset with hostOn := false, svc := { s.power.svc with cause := 7, unit := 0 }, vcap := voltageCap s.power.svc.mv }))

/-- Programs and the commands about a step, energy and the cap. When the conditions on the state and the operands that a clause names hold, exec
answers a next state, as follows. LOAD_PROGRAM: with an image that passes every check and can be installed, the context is READY with the program,
placement and flags of the installation, and the command leaves; RUN: a READY context whose tables are good is RUNNING and the core of each of its
logical AUs runs; SET_STEP: the step sizes go into the current or the next set and the command completes with status 0; QUERY_ENERGY: it completes
with status 0 and the energy in millijoules as RESULT; SET_CAP by the admin PF, 1000 to 2400 W in tens: PWR_CAP holds the value and the command
completes with status 0. Choices and inferences of the model in these clauses: assumption log 15, 18, 25, 30, 107, 115, 132.
Basis: derived; 04_programs.md: R173; 08_trowel.md: R307; 12_contexts.md: R493; 14_power_package.md: R588, R598. -/

def Obligations.Programs_and_their_commands : Prop :=
  -- LOAD_PROGRAM: with an image that passes every check and can be installed, the context is READY with the program, placement and flags of the installation, and the command leaves
  (∀ (c : CtxId) (k : Nat) (s : State) (cmd : Cmd) (img : List Byte) (u w : State), s.cmdAt c k = some cmd ∧ byteAt cmd.desc 0 = 0x01 ∧ s.serves 0x01 = true → cmd.phase = .started ∧ loadBad cmd.desc = false → ((s.ctx c).st = .empty ∨ (s.ctx c).st = .ready ∨ (s.ctx c).st = .faulted) → (s.loadBegins c k).readImage c cmd.desc = .got img u → firstFail (imgFails img (u.reg HUB_FW_VERSION)) = none ∧ u.install c img = some w → 
    ∃ t, exec (.loadProgram c k) s = .next t ∧ ((t.ctx c).st = .ready ∧ (t.ctx c).prog = (w.ctx c).prog ∧ (t.ctx c).place = (w.ctx c).place ∧ (t.ctx c).flags = (w.ctx c).flags ∧ (t.ctx c).ring.cmds = (w.ctx c).ring.cmds.eraseIdx k)) ∧
  -- RUN: a READY context whose tables are good is RUNNING and the core of each of its logical AUs runs
  (∀ (c : CtxId) (k : Nat) (s : State) (cmd : Cmd) (p : Program), s.cmdAt c k = some cmd ∧ byteAt cmd.desc 0 = 0x02 ∧ s.serves 0x02 = true → cmd.phase = .started ∧ zeroIn cmd.desc 4 8 = true ∧ zeroIn cmd.desc 16 64 = true → (s.ctx c).st = .ready ∧ (s.ctx c).prog = some p → (s.coatBase c = 0 ∧ (s.ctx c).checkAll false ((s.trwRanges c ++ s.dustRanges c).map fun r => pagesOf r.1 r.2).flatten = .ok ()) → ((s.runBegins c k).trwTables c).bad = none ∧ (((s.runBegins c k).keepTrowel c).readDust c).bad = none → 
    ∃ t, exec (.run c k) s = .next t ∧ ((t.ctx c).st = .running ∧ ∀ l n, mfind (s.ctx c).place l = some n → (t.au n).core.running = true ∧ (t.au n).core.finished = false)) ∧
  -- SET_STEP: the step sizes go into the current or the next set and the command completes with status 0
  (∀ (c : CtxId) (k : Nat) (s : State) (cmd : Cmd), s.cmdAt c k = some cmd ∧ byteAt cmd.desc 0 = 0x03 ∧ s.serves 0x03 = true → s.scheduled c = false ∧ setStepBad cmd.desc = false → (fieldLe cmd.desc 8 8 = s.step_ c + 1 ∨ fieldLe cmd.desc 8 8 = s.step_ c ∧ ∀ g ∈ (s.ctx c).eta.started, g < fieldLe cmd.desc 4 2 ∨ fieldLe cmd.desc 4 2 + fieldLe cmd.desc 6 2 ≤ g) → 
    ∃ t, exec (.setStep c k) s = .next t ∧ ((t.ctx c).eta = (if fieldLe cmd.desc 8 8 = s.step_ c then { (s.ctx c).eta with cur := setStepInto cmd.desc (s.ctx c).eta.cur } else { (s.ctx c).eta with next := setStepInto cmd.desc (s.ctx c).eta.next }) ∧ Done s t c k 0 0)) ∧
  -- QUERY_ENERGY: it completes with status 0 and the energy in millijoules as RESULT
  (∀ (c : CtxId) (k : Nat) (s : State) (cmd : Cmd), s.cmdAt c k = some cmd ∧ byteAt cmd.desc 0 = 0x11 ∧ s.serves 0x11 = true → (byteAt cmd.desc 4 = 0 ∨ byteAt cmd.desc 4 = 1 ∧ fnIsPf (s.ownerOf c) = true) → zeroIn cmd.desc 5 8 = true ∧ zeroIn cmd.desc 20 64 = true ∧ fieldLe cmd.desc 8 8 % 64 = 0 → (fieldLe cmd.desc 8 8 = 0 ∨ (if byteAt cmd.desc 4 = 1 then 2320 else 64) ≤ fieldLe cmd.desc 16 4) → 
    ∃ t, exec (.queryEnergy c k) s = .next t ∧ (Done s t c k 0 (mJ (if byteAt cmd.desc 4 = 1 then s.energy 0 0 else s.ctxEnergy c)))) ∧
  -- SET_CAP by the admin PF, 1000 to 2400 W in tens: PWR_CAP holds the value and the command completes with status 0
  (∀ (c : CtxId) (k : Nat) (s : State) (cmd : Cmd), s.cmdAt c k = some cmd ∧ byteAt cmd.desc 0 = 0x10 ∧ s.serves 0x10 = true → cmd.phase = .started ∧ s.ownerOf c = s.adminPf → fieldLe cmd.desc 4 2 % 10 = 0 ∧ 1000 ≤ fieldLe cmd.desc 4 2 ∧ fieldLe cmd.desc 4 2 ≤ 2400 → byteAt cmd.desc 6 = 0 ∧ zeroIn cmd.desc 7 64 = true → 
    ∃ t, exec (.setCap c k) s = .next t ∧ (t.fld PWR_CAP 11 0 = fieldLe cmd.desc 4 2 ∧ ∃ res, Done s t c k 0 res))

/-- Accesses to the registers of BAR0 and to BAR4. When the conditions on the state and the operands that a clause names hold, exec answers a next
state, as follows. BAR0_REGISTER_WRITE of 4 bytes to a register that no other row handles and that the function may write: the register is put;
BAR0_REGISTER_WRITE to such a register where putting it does no more than its fields' access kinds: the register holds what they give and no other
register changes; BAR0_REGISTER_WRITE to a register that the function may not write: nothing changes, or it is counted as denied; BAR0_REGISTER_WRITE
of another size or alignment: BAD_ACCESS is set; RC_READ: the answer is the register and its RC fields are cleared only for a function that may write
it; LO_READ_LATCH, low half: the answer is the low half and the high half is latched for the function; LO_READ_LATCH, high half: the answer is the
latched half and the latch is consumed; BAR4_ACCESS, a read: the answer is the bytes of the selected context at the window's address; BAR4_ACCESS, a
write: the bytes are written there. Choices and inferences of the model in these clauses: assumption log 6, 14, 56, 64, 68, 69, 70, 72, 73, 78.
Basis: derived; 11_host.md: R452; 16_reference.md: R667, R671, R673. -/

def Obligations.Register_accesses : Prop :=
  -- BAR0_REGISTER_WRITE of 4 bytes to a register that no other row handles and that the function may write: the register is put
  (∀ (f : FnId) (off v : Nat) (s : State) (r : RegAt), off % 4 = 0 ∧ s.target f off = .reg r ∧ (s.rowWrite f r (v % 2 ^ 32)).isNone = true ∧ r.own = true ∧ s.writeShut r.off = false → 
    ∃ t, exec (.bar0RegisterWrite f off 4 v) s = .next t ∧ (t = s.putReg f r (s.adjust r.off (s.reg r.key) (v % 2 ^ 32)))) ∧
  -- BAR0_REGISTER_WRITE to such a register where putting it does no more than its fields' access kinds: the register holds what they give and no other register changes
  (∀ (f : FnId) (off v : Nat) (s : State) (r : RegAt), off % 4 = 0 ∧ s.target f off = .reg r ∧ (s.rowWrite f r (v % 2 ^ 32)).isNone = true ∧ r.own = true ∧ s.writeShut r.off = false → s.putReg f r (s.adjust r.off (s.reg r.key) (v % 2 ^ 32)) = s.softReg r.key (s.adjust r.off (s.reg r.key) (v % 2 ^ 32)) → 
    ∃ t, exec (.bar0RegisterWrite f off 4 v) s = .next t ∧ (t.reg r.key = specWrite (regSpec r.key) (s.reg r.key) (s.adjust r.off (s.reg r.key) (v % 2 ^ 32)) % 2 ^ 32 ∧ ∀ k, k ≠ r.key → t.reg k = s.reg k)) ∧
  -- BAR0_REGISTER_WRITE to a register that the function may not write: nothing changes, or it is counted as denied
  (∀ (f : FnId) (off v : Nat) (s : State) (r : RegAt), off % 4 = 0 ∧ s.target f off = .reg r ∧ (s.rowWrite f r (v % 2 ^ 32)).isNone = true ∧ r.own = false → 
    ∃ t, exec (.bar0RegisterWrite f off 4 v) s = .next t ∧ (t = if r.deny then s.denied f else s)) ∧
  -- BAR0_REGISTER_WRITE of another size or alignment: BAD_ACCESS is set
  (∀ (f : FnId) (off size v : Nat) (s : State), ¬ (size = 4 ∧ off % 4 = 0) ∧ ¬ (size = 8 ∧ off % 8 = 0) ∧ s.barUp = true → 
    ∃ t, exec (.bar0RegisterWrite f off size v) s = .next t ∧ (t.fld (HUB_STATUS f) 9 9 = 1)) ∧
  -- RC_READ: the answer is the register and its RC fields are cleared only for a function that may write it
  (∀ (f : FnId) (off : Nat) (s : State) (r : RegAt), (off % 4 = 0 ∧ s.target f off = .reg r ∧ (specAt r.off).isEmpty = false ∧ roLo r.off = false ∧ (4 ≤ r.off → roLo (r.off - 4) = false)) → 
    ∃ t, exec (.rcRead f off 4) s = .next t ∧ (t.answer = natLe 4 (s.openValue f r.off (s.reg r.key)).1 ∧ (r.own = true → t.reg r.key = specClear (specAt r.off) (s.reg r.key) % 2 ^ 32) ∧ (r.own = false → t.reg r.key = s.reg r.key))) ∧
  -- LO_READ_LATCH, low half: the answer is the low half and the high half is latched for the function
  (∀ (f : FnId) (off : Nat) (s : State) (r : RegAt), (off % 4 = 0 ∧ s.target f off = .reg r ∧ (specAt r.off).isEmpty = false ∧ roLo r.off = true ∧ (4 ≤ r.off → roLo (r.off - 4) = false)) → 
    ∃ t, exec (.loReadLatch f off 4) s = .next t ∧ (t.answer = natLe 4 (s.openValue f r.off (s.reg r.key)).1 ∧ mfind (t.fn f).latches r.key = some ((s.openValue f r.off (s.reg r.key)).2.openValue f (r.off + 4) (s.reg (r.key + 4))).1)) ∧
  -- LO_READ_LATCH, high half: the answer is the latched half and the latch is consumed
  (∀ (f : FnId) (off h : Nat) (s : State) (r : RegAt), off % 4 = 0 ∧ s.target f off = .reg r ∧ (specAt r.off).isEmpty = false ∧ 4 ≤ r.off ∧ roLo (r.off - 4) = true ∧ mfind (s.fn f).latches (r.key - 4) = some h → 
    ∃ t, exec (.loReadLatch f off 4) s = .next t ∧ (t.answer = natLe 4 h ∧ mfind (t.fn f).latches (r.key - 4) = none)) ∧
  -- BAR4_ACCESS, a read: the answer is the bytes of the selected context at the window's address
  (∀ (p : PortId) (off len : Nat) (data bs : List Byte) (s s1 : State), s.barUp = true ∧ s.rbit (PCIE_BAR4_SEL_LO p) 7 = true ∧ s.owns (portPf p) (s.fld (PCIE_BAR4_SEL_LO p) 5 0) = true ∧ off + len ≤ 2 ^ (s.port p).bar4 ∧ off % 4096 + len ≤ 4096 → s.vread (s.fld (PCIE_BAR4_SEL_LO p) 5 0) (s.bar4Base p + off) len = .ok (bs, s1) → 
    ∃ t, exec (.bar4Access p false off len data) s = .next t ∧ (t = { s1 with answer := bs })) ∧
  -- BAR4_ACCESS, a write: the bytes are written there
  (∀ (p : PortId) (off len : Nat) (data : List Byte) (s s1 : State), s.barUp = true ∧ s.rbit (PCIE_BAR4_SEL_LO p) 7 = true ∧ s.owns (portPf p) (s.fld (PCIE_BAR4_SEL_LO p) 5 0) = true ∧ off + data.length ≤ 2 ^ (s.port p).bar4 ∧ off % 4096 + data.length ≤ 4096 → s.vwrite (s.fld (PCIE_BAR4_SEL_LO p) 5 0) (s.bar4Base p + off) data = .ok s1 → 
    ∃ t, exec (.bar4Access p true off len data) s = .next t ∧ (t = { s1 with answer := [] }))

/-- Roller transfers and solver jobs. When the conditions on the state and the operands that a clause names hold, exec answers a next state, as
follows. ROLLER: with fewer than 256 transfers, a good descriptor and good receiver entries, the transfer is accepted and the operation is over;
ROLLER, begin: the first MOVE operation with no flag to wait for begins; ROLLER_SEGMENT_ISSUE: with an open, attached receiver and none lagging, one
more segment is issued and the transfer waits for nobody; ROLLER_DETACH: after its slack, every lagging receiver is detached, nothing waits any more
and no segment is issued by it; ROLLER_DELIVERY: a receiver with every segment written gets its delivery status and its flag, where it has one;
ROLLER_RCV_FAILED: a receiver that failed gets its failure; ROLLER_COMPLETE: with no receiver pending the transfer is gone and the context has made
progress; SOLVER_JOB_COMPLETE: the job is gone and its matrix entry has the job's result, which is the model's free value (log). Choices and
inferences of the model in these clauses: assumption log 3, 12, 82, 104, 105, 147.
Basis: derived; 08_trowel.md: R317; 09_memory.md: R374, R376, R377, R378, R379. -/

def Obligations.Roller_and_solvers : Prop :=
  -- ROLLER: with fewer than 256 transfers, a good descriptor and good receiver entries, the transfer is accepted and the operation is over
  (∀ (a : AuId) (s s1 s2 : State) (c l rl : Nat) (op : ActiveOp) (d bs : List Byte), s.opOf a 5 = some (c, l, op) ∧ opKind op.word = 2 ∧ s.mem.rollers.length < 256 → s.vread c (moveDescVa op.word) 64 = .ok (d, s1) ∧ (s1.ctx c).rollBad d = false ∧ (s1.ctx c).baseVa (fieldLe d 8 8) = some rl → s1.vread c rl (16 * fieldLe d 0 2) = .ok (bs, s2) ∧ ((chunks 16 bs).any ((s1.ctx c).rcvBad (rollTotal d))) = false → 
    ∃ t, exec (.roller a) s = .next t ∧ (t = s2.acceptRoller a c l op d (chunks 16 bs) ∧ (t.au a).act 5 = none)) ∧
  -- ROLLER, begin: the first MOVE operation with no flag to wait for begins
  (∀ (a : AuId) (s : State) (c l : Nat) (op : FifoOp), s.live a = some (c, l) ∧ (s.au a).nextOf 5 = some op ∧ opWen op.word = false ∧ opKind op.word = 2 → 
    ∃ t, exec (.roller a) s = .next t ∧ (t = s.beginOp a 5 c op)) ∧
  -- ROLLER_SEGMENT_ISSUE: with an open, attached receiver and none lagging, one more segment is issued and the transfer waits for nobody
  (∀ (id : Nat) (s v u : State) (x y z : RollerXfer) (g : Nat × Nat × Nat), mfind s.mem.rollers id = some x ∧ (s.ctx x.ctx).st = .running ∧ v = s.rollReplay id x x.numbered ∧ mfind v.mem.rollers id = some y → (y.segs[y.issued]? = some g ∧ (y.numbered.filter fun e => e.2.attached && e.2.open_).isEmpty = false ∧ (y.rcvs.any y.lagging) = false) → (v.rollSegs id y g (y.numbered.filter fun e => e.2.attached && e.2.open_) = .ok u ∧ mfind u.mem.rollers id = some z) → 
    ∃ t, exec (.rollerSegmentIssue id) s = .next t ∧ (mfind t.mem.rollers id = some { z with issued := z.issued + 1, waitingSince := none })) ∧
  -- ROLLER_DETACH: after its slack, every lagging receiver is detached, nothing waits any more and no segment is issued by it
  (∀ (id u : Nat) (s : State) (x : RollerXfer) (w : Nat), mfind s.mem.rollers id = some x ∧ x.waitingSince = some w ∧ w + x.slack * x.segNs ≤ u → 
    ∃ t, exec (.rollerDetach id u) s = .next t ∧ (∃ y, mfind t.mem.rollers id = some y ∧ y.waitingSince = none ∧ (∀ (r : Nat) (v : Rcv), x.rcvs[r]? = some v → x.lagging v = true → ∃ z, y.rcvs[r]? = some z ∧ z.attached = false) ∧ y.issued = x.issued)) ∧
  -- ROLLER_DELIVERY: a receiver with every segment written gets its delivery status and its flag, where it has one
  (∀ (id r : Nat) (s s1 : State) (x : RollerXfer) (v : Rcv), mfind s.mem.rollers id = some x ∧ x.rcvs[r]? = some v ∧ v.status = .pending ∧ v.written = x.segs.length ∧ s.mboxFull x.ctx = false → ((s.ctx x.ctx).checkAll true ([(x.rlist + 16 * r, 16)].map fun r => pagesOf r.1 r.2).flatten = .ok ()) → (s1 = (s.modRcv id r fun w => { w with status := if v.attached then .done else .replayed }).putRcvStatus x r v (if v.attached then 1 else 2)) → 
    ∃ t, exec (.rollerDelivery id r) s = .next t ∧ (t = (if byteAt v.entry 2 % 16 = 0 then s1.deliverFlag x.ctx (byteAt v.entry 3) true else s1).progress x.ctx)) ∧
  -- ROLLER_RCV_FAILED: a receiver that failed gets its failure
  (∀ (id r : Nat) (s : State) (x : RollerXfer) (v : Rcv) (st : Nat), mfind s.mem.rollers id = some x ∧ x.rcvs[r]? = some v ∧ v.fail = some st → ((s.ctx x.ctx).checkAll true ([(x.rlist + 16 * r, 16)].map fun r => pagesOf r.1 r.2).flatten = .ok ()) → 
    ∃ t, exec (.rollerRcvFailed id r) s = .next t ∧ (t = (s.failRcv id r st).progress x.ctx)) ∧
  -- ROLLER_COMPLETE: with no receiver pending the transfer is gone and the context has made progress
  (∀ (id : Nat) (s : State) (x : RollerXfer), (mfind s.mem.rollers id = some x ∧ (x.rcvs.all fun v => v.status != .pending) = true) → 
    ∃ t, exec (.rollerComplete id) s = .next t ∧ (mfind t.mem.rollers id = none ∧ (t.ctx x.ctx).progressAt = s.now)) ∧
  -- SOLVER_JOB_COMPLETE: the job is gone and its matrix entry has the job's result, which is the model's free value (log)
  (∀ (n : Nat) (s : State) (j : SolverJob) (e : List Byte) (va m k lb rb : Nat) (f : Refresh), n < 2 ∧ s.solver[n]? = some j ∧ (s.ctx j.ctx).mats[j.entry]? = some e ∧ s.matVa j.ctx j.entry = some va ∧ mfind (s.ctx j.ctx).refresh j.entry = some f → (m = fieldLe e 4 2 ∧ k = fieldLe e 6 2 ∧ lb = fieldLe e (if byteAt (s.vpeek j.ctx (va + 3) 1) 0 % 2 = 0 then 32 else 24) 8 ∧ rb = fieldLe e (if byteAt (s.vpeek j.ctx (va + 3) 1) 0 % 2 = 0 then 48 else 40) 8) → ((s.ctx j.ctx).checkAll true (((s.ctx j.ctx).rootRange lb m ++ (s.ctx j.ctx).rootRange rb k).map fun r => pagesOf r.1 r.2).flatten = .ok ()) → 
    ∃ t, exec (.solverJobComplete n) s = .next t ∧ (t.solver = s.solver.eraseIdx n ∧ mfind (t.ctx j.ctx).refresh j.entry = some { f with st := jobResult j (Config.free s.free) (Config.free (s.free + 1) % 2 ^ 32) }))

/-- The stash of coats, and the monitors of a context. When the conditions on the state and the operands that a clause names hold, exec answers a next
state, as follows. STASH_REQUEST: a request that a good table names is decided by the manager; STASH_RELEASE: the state byte is 0 and the entry is
gone; DEADLOCK_WINDOW_EXPIRY, deadlocked: a RUNNING context without progress for its window is handled as a deadlock; DEADLOCK_WINDOW_EXPIRY, not
deadlocked: only part time moves; SLOWDOWN_WINDOW_END: with run time in the window, CTX_SLOWDOWN shows the slowdown of the six interferences, and the
next window begins. Choices and inferences of the model in these clauses: assumption log 3, 23, 80, 82, 148, 150.
Basis: derived; 06_coats.md: R229, R230; 12_contexts.md: R517, R520. -/

def Obligations.Coats_and_monitors : Prop :=
  -- STASH_REQUEST: a request that a good table names is decided by the manager
  (∀ (c : CtxId) (coat mslot : Nat) (s : State) (tva dva : Nat) (raw : List Byte), (s.ctx c).coatVa = some tva ∧ raw = s.vpeek c tva 64 ∧ (s.ctx c).baseVa (fieldLe raw 24 8) = some dva → ((s.ctx c).checkAll false ([(tva, 64)].map fun r => pagesOf r.1 r.2).flatten = .ok () ∧ (s.ctx c).checkAll true ([(dva + 16 * stashIndex (fieldLe raw 16 2) coat mslot, 16)].map fun r => pagesOf r.1 r.2).flatten = .ok ()) → coat ≠ 0 ∧ coat < fieldLe raw 16 2 ∧ mslot < fieldLe raw 18 2 → byteAt (s.vpeek c (dva + 16 * stashIndex (fieldLe raw 16 2) coat mslot) 1) 0 = 1 ∧ mfind ((s.checkCoat c tva coat mslot).ctx c).coat.entries (stashIndex (fieldLe raw 16 2) coat mslot) = none → 
    ∃ t, exec (.stashRequest c coat mslot) s = .next t ∧ (t = (s.checkCoat c tva coat mslot).stashDecide c (dva + 16 * stashIndex (fieldLe raw 16 2) coat mslot) coat mslot ((s.checkCoat c tva coat mslot).ctx c).coat.hdr (fieldLe raw 16 2))) ∧
  -- STASH_RELEASE: the state byte is 0 and the entry is gone
  (∀ (c : CtxId) (coat mslot : Nat) (s : State) (tva dva : Nat) (raw : List Byte), (s.ctx c).coatVa = some tva ∧ raw = s.vpeek c tva 64 ∧ (s.ctx c).baseVa (fieldLe raw 24 8) = some dva → ((s.ctx c).checkAll false ([(tva, 64)].map fun r => pagesOf r.1 r.2).flatten = .ok () ∧ (s.ctx c).checkAll true ([(dva + 16 * stashIndex (fieldLe raw 16 2) coat mslot, 16)].map fun r => pagesOf r.1 r.2).flatten = .ok ()) → coat ≠ 0 ∧ coat < fieldLe raw 16 2 ∧ mslot < fieldLe raw 18 2 → byteAt (s.vpeek c (dva + 16 * stashIndex (fieldLe raw 16 2) coat mslot) 1) 0 = 4 ∧ (mfind ((s.checkCoat c tva coat mslot).ctx c).coat.entries (stashIndex (fieldLe raw 16 2) coat mslot)).isSome = true → 
    ∃ t, exec (.stashRelease c coat mslot) s = .next t ∧ (t = ((s.checkCoat c tva coat mslot).vpoke c (dva + 16 * stashIndex (fieldLe raw 16 2) coat mslot) (natLe 1 0)).putEntries c (mdel ((s.checkCoat c tva coat mslot).ctx c).coat.entries (stashIndex (fieldLe raw 16 2) coat mslot)) ∧ mfind (t.ctx c).coat.entries (stashIndex (fieldLe raw 16 2) coat mslot) = none)) ∧
  -- DEADLOCK_WINDOW_EXPIRY, deadlocked: a RUNNING context without progress for its window is handled as a deadlock
  (∀ (c : CtxId) (u : Nat) (s : State), ((s.at u).ctx c).st = .running ∧ cyclesNs (2 ^ (s.at u).fld (CTX_SCHED c) 20 16) ≤ (s.at u).now - ((s.at u).ctx c).progressAt ∧ (s.at u).deadlocked c = true → 
    ∃ t, exec (.deadlockWindowExpiry c u) s = .next t ∧ (t = (s.at u).deadlock c)) ∧
  -- DEADLOCK_WINDOW_EXPIRY, not deadlocked: only part time moves
  (∀ (c : CtxId) (u : Nat) (s : State), (s.at u).deadlocked c = false → 
    ∃ t, exec (.deadlockWindowExpiry c u) s = .next t ∧ (t = s.at u)) ∧
  -- SLOWDOWN_WINDOW_END: with run time in the window, CTX_SLOWDOWN shows the slowdown of the six interferences, and the next window begins
  (∀ (c : CtxId) (intf : List Nat) (u : Nat) (s s1 : State) (run : Nat), s1 = s.at u ∧ 10000000 ≤ s1.now - (s1.ctx c).slowAt ∧ run = (s1.runTotal c + 2 ^ 64 - (s1.ctx c).slowRun) % 2 ^ 64 ∧ run ≠ 0 → 
    ∃ t, exec (.slowdownWindowEnd c intf u) s = .next t ∧ (t.fld (CTX_SLOWDOWN c) 15 0 = slowdown run (((intf ++ List.replicate 6 0).take 6).foldl (· + ·) 0) ∧ (t.ctx c).slowAt = s1.now ∧ (t.ctx c).slowRun = s1.runTotal c))

/-- Screed rows with statistics. When the conditions on the state and the operands that a clause names hold, exec answers a next state, as follows.
NORM, one row: with its inputs in and nothing waiting to go out, the row is computed by the rule of NORM and goes out; NORM_BWD, one row: the same by
its rule; SMAX, one row: the same by its rule; SMAX_BWD, one row: the same by its rule; MERGE, one row: the same by its rule. Choices and inferences
of the model in these clauses: assumption log 142, 143, 144.
Basis: derived; 07_screed.md: R264, R275, R276, R277. -/

def Obligations.Screed_rows_with_statistics : Prop :=
  -- NORM, one row: with its inputs in and nothing waiting to go out, the row is computed by the rule of NORM and goes out
  (∀ (a : AuId) (s v : State) (c l : Nat) (op : ActiveOp), s.opOf a 3 = some (c, l, op) ∧ opKind op.word = 0 ∧ op.done < scrRows op.word → (v = s.modAu a fun x => x.gather op.word op.done 0 [] (scrInputs op.word)) → (v.au a).screed.outs.isEmpty = true ∧ (v.au a).screed.gathered op.word op.done = true → 
    ∃ t, exec (.norm a) s = .next t ∧ (t = (v.scrCompute a c op).scrPushOut a c ∧ ∀ (seed key step tg : Nat) (x : ScreedSt) (ins : List (List Machine.Num)), scrRow seed op.word op.done key step x ins tg = rowNorm seed op.word op.done x ((ins[0]?).getD []))) ∧
  -- NORM_BWD, one row: the same by its rule
  (∀ (a : AuId) (s v : State) (c l : Nat) (op : ActiveOp), s.opOf a 3 = some (c, l, op) ∧ opKind op.word = 1 ∧ op.done < scrRows op.word → (v = s.modAu a fun x => x.gather op.word op.done 0 [] (scrInputs op.word)) → (v.au a).screed.outs.isEmpty = true ∧ (v.au a).screed.gathered op.word op.done = true → 
    ∃ t, exec (.normBwd a) s = .next t ∧ (t = (v.scrCompute a c op).scrPushOut a c ∧ ∀ (seed key step tg : Nat) (x : ScreedSt) (ins : List (List Machine.Num)), scrRow seed op.word op.done key step x ins tg = rowNormBwd seed op.word op.done x ((ins[0]?).getD []) ((ins[1]?).getD []))) ∧
  -- SMAX, one row: the same by its rule
  (∀ (a : AuId) (s v : State) (c l : Nat) (op : ActiveOp), s.opOf a 3 = some (c, l, op) ∧ opKind op.word = 4 ∧ op.done < scrRows op.word → (v = s.modAu a fun x => x.gather op.word op.done 0 [] (scrInputs op.word)) → (v.au a).screed.outs.isEmpty = true ∧ (v.au a).screed.gathered op.word op.done = true → 
    ∃ t, exec (.smax a) s = .next t ∧ (t = (v.scrCompute a c op).scrPushOut a c ∧ ∀ (seed key step tg : Nat) (x : ScreedSt) (ins : List (List Machine.Num)), scrRow seed op.word op.done key step x ins tg = rowSmax seed op.word op.done x ((ins[0]?).getD []))) ∧
  -- SMAX_BWD, one row: the same by its rule
  (∀ (a : AuId) (s v : State) (c l : Nat) (op : ActiveOp), s.opOf a 3 = some (c, l, op) ∧ opKind op.word = 5 ∧ op.done < scrRows op.word → (v = s.modAu a fun x => x.gather op.word op.done 0 [] (scrInputs op.word)) → (v.au a).screed.outs.isEmpty = true ∧ (v.au a).screed.gathered op.word op.done = true → 
    ∃ t, exec (.smaxBwd a) s = .next t ∧ (t = (v.scrCompute a c op).scrPushOut a c ∧ ∀ (seed key step tg : Nat) (x : ScreedSt) (ins : List (List Machine.Num)), scrRow seed op.word op.done key step x ins tg = rowSmaxBwd seed op.word op.done x ((ins[0]?).getD []) ((ins[1]?).getD []))) ∧
  -- MERGE, one row: the same by its rule
  (∀ (a : AuId) (s v : State) (c l : Nat) (op : ActiveOp), s.opOf a 3 = some (c, l, op) ∧ opKind op.word = 6 ∧ op.done < scrRows op.word → (v = s.modAu a fun x => x.gather op.word op.done 0 [] (scrInputs op.word)) → (v.au a).screed.outs.isEmpty = true ∧ (v.au a).screed.gathered op.word op.done = true → 
    ∃ t, exec (.merge a) s = .next t ∧ (t = (v.scrCompute a c op).scrPushOut a c ∧ ∀ (seed key step tg : Nat) (x : ScreedSt) (ins : List (List Machine.Num)), scrRow seed op.word op.done key step x ins tg = rowMerge op.word op.done x ((ins[0]?).getD []) ((ins[1]?).getD [])))

/-- Screed rows by element, and SETP. When the conditions on the state and the operands that a clause names hold, exec answers a next state, as
follows. ACT, one row: the activation of each element, of two inputs where it is gated; ACT_BWD, one row: its gradient, with the gate's where it is
gated; ELEM, one row: the same by its rule; LOSS, one row: the same by its rule; VMOVE, one row: the same by its rule; ROWRED, one row: the same by
its rule; SETP: the group of bits 47..45 holds bits 44..0 and the operation is over. Choices and inferences of the model in these clauses: assumption
log 142.
Basis: derived; 07_screed.md: R257, R266, R267, R269, R270, R271. -/

def Obligations.Screed_rows_by_element : Prop :=
  -- ACT, one row: the activation of each element, of two inputs where it is gated
  (∀ (a : AuId) (s v : State) (c l : Nat) (op : ActiveOp), s.opOf a 3 = some (c, l, op) ∧ opKind op.word = 2 ∧ op.done < scrRows op.word → (v = s.modAu a fun x => x.gather op.word op.done 0 [] (scrInputs op.word)) → (v.au a).screed.outs.isEmpty = true ∧ (v.au a).screed.gathered op.word op.done = true → 
    ∃ t, exec (.act a) s = .next t ∧ (t = (v.scrCompute a c op).scrPushOut a c ∧ ∀ (seed key step tg : Nat) (x : ScreedSt) (ins : List (List Machine.Num)), scrRow seed op.word op.done key step x ins tg = ⟨x, [(18, if actGated (scrFn op.word) then zip2 (actFwd (scrFn op.word)) ((ins[0]?).getD []) ((ins[1]?).getD []) else ((ins[0]?).getD []).map fun y => actFwd (scrFn op.word) y num0)], none, []⟩)) ∧
  -- ACT_BWD, one row: its gradient, with the gate's where it is gated
  (∀ (a : AuId) (s v : State) (c l : Nat) (op : ActiveOp), s.opOf a 3 = some (c, l, op) ∧ opKind op.word = 3 ∧ op.done < scrRows op.word → (v = s.modAu a fun x => x.gather op.word op.done 0 [] (scrInputs op.word)) → (v.au a).screed.outs.isEmpty = true ∧ (v.au a).screed.gathered op.word op.done = true → 
    ∃ t, exec (.actBwd a) s = .next t ∧ (t = (v.scrCompute a c op).scrPushOut a c ∧ ∀ (seed key step tg : Nat) (x : ScreedSt) (ins : List (List Machine.Num)), scrRow seed op.word op.done key step x ins tg = (if actGated (scrFn op.word) then ⟨x, [(18, ((((ins[0]?).getD []).zip ((ins[1]?).getD [])).zip ((ins[2]?).getD [])).map fun p => actBwd (scrFn op.word) p.1.1 p.1.2 p.2), (19, ((((ins[0]?).getD []).zip ((ins[1]?).getD [])).zip ((ins[2]?).getD [])).map fun p => actBwdGate (scrFn op.word) p.1.1 p.1.2 p.2)], none, []⟩ else ⟨x, [(18, zip2 (fun y d => actBwd (scrFn op.word) y num0 d) ((ins[0]?).getD []) ((ins[1]?).getD []))], none, []⟩))) ∧
  -- ELEM, one row: the same by its rule
  (∀ (a : AuId) (s v : State) (c l : Nat) (op : ActiveOp), s.opOf a 3 = some (c, l, op) ∧ opKind op.word = 7 ∧ op.done < scrRows op.word → (v = s.modAu a fun x => x.gather op.word op.done 0 [] (scrInputs op.word)) → (v.au a).screed.outs.isEmpty = true ∧ (v.au a).screed.gathered op.word op.done = true → 
    ∃ t, exec (.elem a) s = .next t ∧ (t = (v.scrCompute a c op).scrPushOut a c ∧ ∀ (seed key step tg : Nat) (x : ScreedSt) (ins : List (List Machine.Num)), scrRow seed op.word op.done key step x ins tg = rowElem op.word op.done key step x ((ins[0]?).getD []) ((ins[1]?).getD []))) ∧
  -- LOSS, one row: the same by its rule
  (∀ (a : AuId) (s v : State) (c l : Nat) (op : ActiveOp), s.opOf a 3 = some (c, l, op) ∧ opKind op.word = 8 ∧ op.done < scrRows op.word → (v = s.modAu a fun x => x.gather op.word op.done 0 [] (scrInputs op.word)) → (v.au a).screed.outs.isEmpty = true ∧ (v.au a).screed.gathered op.word op.done = true → 
    ∃ t, exec (.loss a) s = .next t ∧ (t = (v.scrCompute a c op).scrPushOut a c ∧ ∀ (seed key step tg : Nat) (x : ScreedSt) (ins : List (List Machine.Num)), scrRow seed op.word op.done key step x ins tg = rowLoss op.word op.done x ((ins[0]?).getD []) tg)) ∧
  -- VMOVE, one row: the same by its rule
  (∀ (a : AuId) (s v : State) (c l : Nat) (op : ActiveOp), s.opOf a 3 = some (c, l, op) ∧ opKind op.word = 9 ∧ op.done < scrRows op.word → (v = s.modAu a fun x => x.gather op.word op.done 0 [] (scrInputs op.word)) → (v.au a).screed.outs.isEmpty = true ∧ (v.au a).screed.gathered op.word op.done = true → 
    ∃ t, exec (.vmove a) s = .next t ∧ (t = (v.scrCompute a c op).scrPushOut a c ∧ ∀ (seed key step tg : Nat) (x : ScreedSt) (ins : List (List Machine.Num)), scrRow seed op.word op.done key step x ins tg = rowVmove op.word x ((ins[0]?).getD []))) ∧
  -- ROWRED, one row: the same by its rule
  (∀ (a : AuId) (s v : State) (c l : Nat) (op : ActiveOp), s.opOf a 3 = some (c, l, op) ∧ opKind op.word = 11 ∧ op.done < scrRows op.word → (v = s.modAu a fun x => x.gather op.word op.done 0 [] (scrInputs op.word)) → (v.au a).screed.outs.isEmpty = true ∧ (v.au a).screed.gathered op.word op.done = true → 
    ∃ t, exec (.rowred a) s = .next t ∧ (t = (v.scrCompute a c op).scrPushOut a c ∧ ∀ (seed key step tg : Nat) (x : ScreedSt) (ins : List (List Machine.Num)), scrRow seed op.word op.done key step x ins tg = rowRed seed op.word op.done x ((ins[0]?).getD []) ((ins[1]?).getD []))) ∧
  -- SETP: the group of bits 47..45 holds bits 44..0 and the operation is over
  (∀ (a : AuId) (s : State) (c l : Nat) (op : FifoOp), s.live a = some (c, l) ∧ (s.au a).nextOf 3 = some op ∧ opWen op.word = false ∧ opKind op.word = 10 → 
    ∃ t, exec (.setp a) s = .next t ∧ (t = ((s.beginOp a 3 c op).modAu a fun x => x.setp op.word).endOp a 3 ∧ (t.au a).screed.param (bits op.word 47 45) = bits op.word 44 0))

/-- Life cycle, debug, key management, logs and diagnosis. When the conditions on the state and the operands that a clause names hold, exec answers a
next state, as follows. SEC_LC_REQ_GO: the token of 256 bytes that the registers name (zeros where it cannot be read) is taken as a request;
SEC_LC_REQ_GO, a good token with no request under way: SEC_LC_REQ says busy and the request has the token's kind; LIFECYCLE_TRANSITION of any kind but
4: the request is done, every session ends and the measurements have changed; DEBUG_EXPIRY: the debug window is over, every session ends and the
measurements have changed; IDE_KM_REQUEST, a key: in a session the key is kept under its stream and place and the answer names the stream;
IDE_KM_REQUEST, a stop: in a session the stream and its keys are gone; SPDM_REQUEST, a key exchange: the port has one session more; SPDM_REQUEST,
measurements: the answer is the six measurements and nothing else changes; JTAG_INSTRUCTION that the life cycle allows: it runs; JTAG_INSTRUCTION that
it does not allow: it is counted, answers nothing, and one record is logged; LOG_RECORD: the record is the last of the log, of which the last 16384
are kept, and the log's sequence number moves on; SEC_LOG_HEAD_WRITE, a valid head: SEC_LOG_HEAD holds it; SEC_DIAG_GO for a context that the PF or
its VFs own: the walk is done; SEC_DIAG_GO for any other: it fails and its entry reads 0. Choices and inferences of the model in these clauses:
assumption log 3, 6, 14, 49, 50, 53, 54.
Basis: derived; 11_host.md: R454; 15_security_firmware.md: R638, R639, R646, R648, R649, R653, R655. -/

def Obligations.Life_cycle_debug_and_logs : Prop :=
  -- SEC_LC_REQ_GO: the token of 256 bytes that the registers name (zeros where it cannot be read) is taken as a request
  (∀ (f : FnId) (v : Word32) (s : State) (bs : List Byte), s.fwUp = true ∧ s.sec.haltedCores.contains 3 = false ∧ f.val = s.adminPf ∧ bit v.toNat 0 = true → bs = (s.hostRead s.adminPort (64 * (s.reg64 SEC_LC_REQ_ADDR_LO SEC_LC_REQ_ADDR_HI / 64)) 256).getD (List.replicate 256 0) → 
    ∃ t, exec (.secLcReqGo f v) s = .next t ∧ (t = s.lcRequest (bs.take 192) (bs.drop 192) false)) ∧
  -- SEC_LC_REQ_GO, a good token with no request under way: SEC_LC_REQ says busy and the request has the token's kind
  (∀ (f : FnId) (v : Word32) (s : State) (bs : List Byte), s.fwUp = true ∧ s.sec.haltedCores.contains 3 = false ∧ f.val = s.adminPf ∧ bit v.toNat 0 = true ∧ s.sec.lcReq = none → bs = (s.hostRead s.adminPort (64 * (s.reg64 SEC_LC_REQ_ADDR_LO SEC_LC_REQ_ADDR_HI / 64)) 256).getD (List.replicate 256 0) ∧ s.tokenStatus (bs.take 192) (bs.drop 192) = 0 → 
    ∃ t, exec (.secLcReqGo f v) s = .next t ∧ (t.fld SEC_LC_REQ 1 1 = 1 ∧ (t.sec.lcReq.map fun r => r.kind) = some (byteAt (bs.take 192) 4))) ∧
  -- LIFECYCLE_TRANSITION of any kind but 4: the request is done, every session ends and the measurements have changed
  (∀ (s : State) (r : LcReq), s.sec.lcReq = some r ∧ s.fwUp = true ∧ s.sec.haltedCores.contains 3 = false ∧ r.kind ≠ 4 → 
    ∃ t, exec (.lifecycleTransition) s = .next t ∧ (t.sec.lcReq = none ∧ t.sec.sessions = [] ∧ t.sec.changed = true)) ∧
  -- DEBUG_EXPIRY: the debug window is over, every session ends and the measurements have changed
  (∀ (u w : Nat) (s : State), s.sec.debugUntil = some w ∧ w ≤ max s.now u → 
    ∃ t, exec (.debugExpiry u) s = .next t ∧ (t.sec.debugUntil = none ∧ t.sec.sessions = [] ∧ t.sec.changed = true ∧ t.fld SEC_LC 11 8 = 0)) ∧
  -- IDE_KM_REQUEST, a key: in a session the key is kept under its stream and place and the answer names the stream
  (∀ (p : PortId) (req : List Byte) (s : State), s.fwUp = true ∧ s.sec.haltedCores.contains 3 = false ∧ (s.port p).dlUp = true ∧ mget 0 s.sec.sessions p ≠ 0 ∧ byteAt req 0 = 2 → 
    ∃ t, exec (.ideKmRequest p req) s = .next t ∧ (mfind (t.port p).ideKeys (256 * byteAt req 1 + byteAt req 2) = some (beNat ((req.drop 3).take 32)) ∧ t.answer = natLe 1 3 ++ natLe 1 (byteAt req 1))) ∧
  -- IDE_KM_REQUEST, a stop: in a session the stream and its keys are gone
  (∀ (p : PortId) (req : List Byte) (s : State), s.fwUp = true ∧ s.sec.haltedCores.contains 3 = false ∧ (s.port p).dlUp = true ∧ mget 0 s.sec.sessions p ≠ 0 ∧ byteAt req 0 = 5 → 
    ∃ t, exec (.ideKmRequest p req) s = .next t ∧ ((t.port p).ide = (s.port p).ide.filter (fun i => i.num != byteAt req 1) ∧ (t.port p).ideKeys = (s.port p).ideKeys.filter (fun e => e.1 / 256 != byteAt req 1))) ∧
  -- SPDM_REQUEST, a key exchange: the port has one session more
  (∀ (p : PortId) (req : List Byte) (s : State), s.fwUp = true ∧ s.sec.haltedCores.contains 3 = false ∧ (s.port p).dlUp = true ∧ s.sec.fuses.scrap = false ∧ byteAt req 0 = 0x12 → byteAt req 1 = 0xE4 ∧ mget 0 s.sec.sessions p < 2 → 
    ∃ t, exec (.spdmRequest p req) s = .next t ∧ (mget 0 t.sec.sessions p = mget 0 s.sec.sessions p + 1)) ∧
  -- SPDM_REQUEST, measurements: the answer is the six measurements and nothing else changes
  (∀ (p : PortId) (req : List Byte) (s : State), s.fwUp = true ∧ s.sec.haltedCores.contains 3 = false ∧ (s.port p).dlUp = true ∧ s.sec.fuses.scrap = false ∧ byteAt req 0 = 0x12 → byteAt req 1 = 0xE0 ∧ bit (byteAt req 2) 0 = false ∧ byteAt req 3 = 0xFF → 
    ∃ t, exec (.spdmRequest p req) s = .next t ∧ (t = { s with answer := natLe 1 0x12 ++ natLe 1 0x60 ++ (List.range' 1 6).flatMap s.measurement })) ∧
  -- JTAG_INSTRUCTION that the life cycle allows: it runs
  (∀ (ir dr : Nat) (s : State), s.power.hostOn = true ∧ s.jtagReach ir dr = true → 
    ∃ t, exec (.jtagInstruction ir dr) s = .next t ∧ (t = s.jtagRun ir dr)) ∧
  -- JTAG_INSTRUCTION that it does not allow: it is counted, answers nothing, and one record is logged
  (∀ (ir dr : Nat) (s : State), s.power.hostOn = true ∧ s.jtagReach ir dr = false → 
    ∃ t, exec (.jtagInstruction ir dr) s = .next t ∧ (t.fld SEC_EVT_CNT 15 8 = satAdd 0xFF (s.fld SEC_EVT_CNT 15 8) 1 ∧ t.answer = [] ∧ t.sec.logSeq = (s.sec.logSeq + 1) % 2 ^ 32)) ∧
  -- LOG_RECORD: the record is the last of the log, of which the last 16384 are kept, and the log's sequence number moves on
  (∀ (sev src point : Nat) (data : List Byte) (s : State), s.fwUp = true → 
    ∃ t, exec (.logRecord sev src point data) s = .next t ∧ (t.sec.logs = (s.sec.logs ++ [logRecordBytes (point % 65536) (sev % 4) (if src < 64 then src else 0xFF) s.now s.sec.logSeq data]).drop (s.sec.logs.length + 1 - 16384) ∧ t.sec.logSeq = (s.sec.logSeq + 1) % 2 ^ 32)) ∧
  -- SEC_LOG_HEAD_WRITE, a valid head: SEC_LOG_HEAD holds it
  (∀ (f : FnId) (v : Word32) (s : State), s.barUp = true ∧ fnIsPf f = true ∧ ringUsed (s.fld (SEC_LOG_TAIL (fnPort f)) 15 0) (v.toNat % 65536) ≤ s.logSize (fnPort f) ∧ ringUsed (s.fld (SEC_LOG_TAIL (fnPort f)) 15 0) (v.toNat % 65536) ≤ ringUsed (s.fld (SEC_LOG_TAIL (fnPort f)) 15 0) (s.fld (SEC_LOG_HEAD (fnPort f)) 15 0) → 
    ∃ t, exec (.secLogHeadWrite f v) s = .next t ∧ (t.fld (SEC_LOG_HEAD (fnPort f)) 15 0 = v.toNat % 65536)) ∧
  -- SEC_DIAG_GO for a context that the PF or its VFs own: the walk is done
  (∀ (f : FnId) (v : Word32) (s : State), s.barUp = true ∧ fnIsPf f = true ∧ bits v.toNat 9 8 ≠ 3 ∧ bit v.toNat 0 = true ∧ (s.softReg (SEC_DIAG_CTL (fnPort f)) v.toNat).ownsAny f (bits v.toNat 15 10) = true → 
    ∃ t, exec (.secDiagGo f v) s = .next t ∧ (t.fld (SEC_DIAG_CTL (fnPort f)) 1 1 = 1 ∧ t.fld (SEC_DIAG_CTL (fnPort f)) 2 2 = 0)) ∧
  -- SEC_DIAG_GO for any other: it fails and its entry reads 0
  (∀ (f : FnId) (v : Word32) (s : State), s.barUp = true ∧ fnIsPf f = true ∧ bits v.toNat 9 8 ≠ 3 ∧ bit v.toNat 0 = true ∧ (s.softReg (SEC_DIAG_CTL (fnPort f)) v.toNat).ownsAny f (bits v.toNat 15 10) = false → 
    ∃ t, exec (.secDiagGo f v) s = .next t ∧ (t.fld (SEC_DIAG_CTL (fnPort f)) 1 1 = 0 ∧ t.fld (SEC_DIAG_CTL (fnPort f)) 2 2 = 1 ∧ t.reg64 (SEC_DIAG_PTE_LO (fnPort f)) (SEC_DIAG_PTE_HI (fnPort f)) = 0))

/-- Messages and wires of the service side. When the conditions on the state and the operands that a clause names hold, exec answers a next state, as
follows. IDENTITY_READ: the answer is the identity, with the nonce while the firmware runs, and nothing else changes; TELEMETRY: the answer is the
readings and nothing else changes; POWER_CAP: a cap of 0, or of 1000 to 2400 W in tens, is the rack's cap, and the answer is the cap in force; RESET
0: the host part is reset with cause 1 and answers 0; LIFECYCLE: a token of 256 bytes is taken as a request; LOG_PULL: the answer is up to 16 records
of the crash log and the log from the place named, and nothing else changes; POWER off: host power is off with cause 2; COOLANT_SET: the two limits
hold and nothing else changes; COOLANT_WARNING: the cap of 1000 W holds and is logged; COOLANT_WARNING_CLEAR, 3 degrees below: the warning is over;
COOLANT_OFF: host power is off with cause 2 and that is logged; LEAK_DETECTED: the leak is noted and host power is off with cause 2; SVC_RST_N: the
service side is at reset but for the input voltage, the cause and the hold. Choices and inferences of the model in these clauses: assumption log 6,
34, 35, 36, 37, 38, 49.
Basis: derived; 14_power_package.md: R607; 15_security_firmware.md: R658, R659, R661. -/

def Obligations.Service_side_messages : Prop :=
  -- IDENTITY_READ: the answer is the identity, with the nonce while the firmware runs, and nothing else changes
  (∀ (s : State), s.power.svc.on = true → 
    ∃ t, exec (.identityRead) s = .next t ∧ (t = { s with answer := if s.power.hostOn = true ∧ s.fwUp = true then s.identity ++ (List.range 4).flatMap fun i => natLe 4 (s.reg (SEC_LC_NONCE i)) else if s.power.hostOn = true ∧ s.sec.fuses.scrap = true then s.power.svc.identity.take 9 ++ natLe 1 4 ++ s.power.svc.identity.drop 10 else s.power.svc.identity })) ∧
  -- TELEMETRY: the answer is the readings and nothing else changes
  (∀ (s : State), s.power.svc.on = true ∧ s.power.hostOn = true ∧ s.fwUp = true → 
    ∃ t, exec (.telemetry) s = .next t ∧ (t = { s with answer := natLe 4 s.power.svc.mv ++ natLe 4 (s.reg PWR_INPUT) ++ natLe 4 (s.reg PWR_INPUT_W) ++ natLe 4 (s.reg PWR_CAP_STATUS) ++ natLe 4 (s.reg PWR_TEMP) ++ natLe 1 (s.fld PWR_STATUS 31 31) ++ natLe 1 (s.fld SEC_FW_STATUS 31 30) ++ natLe 1 (s.fld SEC_LC 7 0) ++ natLe 1 (s.fld PWR_RESET_CAUSE 3 0) })) ∧
  -- POWER_CAP: a cap of 0, or of 1000 to 2400 W in tens, is the rack's cap, and the answer is the cap in force
  (∀ (w : Nat) (s : State), (s.power.svc.on = true ∧ (w = 0 ∨ 1000 ≤ w ∧ w ≤ 2400 ∧ w % 10 = 0)) → 
    ∃ t, exec (.powerCap w) s = .next t ∧ (t.power.svc.rackCap = (if w = 0 then none else some w) ∧ t.answer = natLe 2 t.power.svc.cap)) ∧
  -- RESET 0: the host part is reset with cause 1 and answers 0
  (∀ (s : State), s.power.svc.on = true ∧ s.power.hostOn = true → 
    ∃ t, exec (.reset 0) s = .next t ∧ (t.power = { PowerSt.reset with svc := { s.power.svc with cause := 1, unit := 0 }, vcap := voltageCap s.power.svc.mv } ∧ t.fld PWR_RESET_CAUSE 3 0 = 1 ∧ t.answer = natLe 1 0)) ∧
  -- LIFECYCLE: a token of 256 bytes is taken as a request
  (∀ (token : List Byte) (s : State), s.power.svc.on = true ∧ s.power.hostOn = true ∧ s.fwUp = true ∧ s.sec.haltedCores.contains 3 = false ∧ token.length = 256 → 
    ∃ t, exec (.lifecycle token) s = .next t ∧ (t = s.lcRequest (token.take 192) (token.drop 192) true)) ∧
  -- LOG_PULL: the answer is up to 16 records of the crash log and the log from the place named, and nothing else changes
  (∀ (n : Nat) (s : State), s.power.svc.on = true ∧ s.power.hostOn = true ∧ s.fwUp = true → 
    ∃ t, exec (.logPull n) s = .next t ∧ (t = { s with answer := (((s.sec.crash ++ s.sec.logs).drop n).take 16).flatten })) ∧
  -- POWER off: host power is off with cause 2
  (∀ (s : State), s.power.svc.on = true ∧ s.power.hostOn = true → 
    ∃ t, exec (.power false) s = .next t ∧ (t = s.switchOff 2 0 ∧ t.power.hostOn = false ∧ t.power.svc.cause = 2)) ∧
  -- COOLANT_SET: the two limits hold and nothing else changes
  (∀ (a b : Nat) (s : State), s.power.svc.on = true → 
    ∃ t, exec (.coolantSet a b) s = .next t ∧ (t = s.modSvc fun v => { v with warn := a, off := b })) ∧
  -- COOLANT_WARNING: the cap of 1000 W holds and is logged
  (∀ (deg : Nat) (s : State), s.power.svc.on = true ∧ s.power.svc.coolant = false ∧ s.power.svc.warn ≤ deg → 
    ∃ t, exec (.coolantWarning deg true) s = .next t ∧ (t.power.svc.coolant = true ∧ t.power.svc.cap = 1000 ∧ t.power.svc.log = s.power.svc.log ++ [1])) ∧
  -- COOLANT_WARNING_CLEAR, 3 degrees below: the warning is over
  (∀ (deg : Nat) (s : State), s.power.svc.on = true ∧ s.power.svc.coolant = true ∧ deg + 3 ≤ s.power.svc.warn → 
    ∃ t, exec (.coolantWarningClear deg) s = .next t ∧ (t.power.svc = { s.power.svc with coolant := false })) ∧
  -- COOLANT_OFF: host power is off with cause 2 and that is logged
  (∀ (deg τ : Nat) (s : State), s.power.svc.on = true ∧ s.power.svc.off ≤ deg ∧ s.power.hostOn = true → 
    ∃ t, exec (.coolantOff deg τ) s = .next t ∧ (t = ((s.at τ).switchOff 2 0).modSvc (fun v => { v with log := v.log ++ [2] }) ∧ t.power.hostOn = false ∧ t.power.svc.cause = 2)) ∧
  -- LEAK_DETECTED: the leak is noted and host power is off with cause 2
  (∀ (τ : Nat) (s : State), s.power.svc.on = true ∧ s.power.svc.leak = false ∧ s.power.hostOn = true → 
    ∃ t, exec (.leakDetected τ) s = .next t ∧ (t.power.svc.leak = true ∧ t.power.hostOn = false ∧ t.power.svc.cause = 2)) ∧
  -- SVC_RST_N: the service side is at reset but for the input voltage, the cause and the hold
  (∀ (s : State), s.power.svc.on = true → 
    ∃ t, exec (.svcRstN) s = .next t ∧ (t.power.svc = { SvcSt.reset with mv := s.power.svc.mv, cause := s.power.svc.cause, unit := s.power.svc.unit, tripAt := s.power.svc.tripAt, hold := s.power.svc.hold }))

/-- Operations of the Trowel. When the conditions on the state and the operands that a clause names hold, exec answers a next state, as follows.
UPDATE, a tile: with its operands in, the update is computed, and the next one waits for its step size; UPDATE, begin: the first operation with no
flag to wait for and its step size there begins; UPDATE_ETA_ARRIVES: an update that waited for its step size begins; STEP_SIZE_LATE: after the limit
of TRW_CTL the step size is late and TRW_STATUS says so; ACCUM: with its operands in, the accumulation is done; TMUL, a part: with its operands in,
the product is computed; TMUL, the end: with everything pushed the operation is over. Choices and inferences of the model in these clauses: assumption
log 146.
Basis: derived; 08_trowel.md: R292, R296, R308, R313. -/

def Obligations.Trowel_lane : Prop :=
  -- UPDATE, a tile: with its operands in, the update is computed, and the next one waits for its step size
  (∀ (a : AuId) (s v : State) (c l : Nat) (op : ActiveOp), s.opOf a 4 = some (c, l, op) ∧ opKind op.word = 0 ∧ op.done = 0 → (v = (s.modAu a fun x => x.trwGather 0 (trwPops op.word)).progress c) → (v.au a).trowel.gathered op.word = true → 
    ∃ t, exec (.update a) s = .next t ∧ (t = (v.trwUpdate a c op (v.au a).trowel.inp).etaWait a)) ∧
  -- UPDATE, begin: the first operation with no flag to wait for and its step size there begins
  (∀ (a : AuId) (s : State) (c l : Nat) (op : FifoOp), s.live a = some (c, l) ∧ (s.au a).nextOf 4 = some op ∧ opWen op.word = false ∧ opKind op.word = 0 ∧ s.etaReady c op.word = true → 
    ∃ t, exec (.update a) s = .next t ∧ (t = ((s.beginOp a 4 c op).trwOnStart a c op).etaWait a)) ∧
  -- UPDATE_ETA_ARRIVES: an update that waited for its step size begins
  (∀ (a : AuId) (s : State) (c l : Nat) (op : FifoOp), (s.au a).trowel.late.isSome = true ∧ s.live a = some (c, l) ∧ (s.au a).nextOf 4 = some op ∧ opWen op.word = false ∧ opKind op.word = 0 ∧ s.etaReady c op.word = true → 
    ∃ t, exec (.updateEtaArrives a) s = .next t ∧ (t = (s.beginOp a 4 c op).trwOnStart a c op)) ∧
  -- STEP_SIZE_LATE: after the limit of TRW_CTL the step size is late and TRW_STATUS says so
  (∀ (a : AuId) (u : Nat) (s : State) (c l since : Nat) (op : FifoOp), (s.at u).live a = some (c, l) ∧ ((s.at u).au a).nextOf 4 = some op ∧ ((s.at u).au a).trowel.late = some since → (s.at u).fld (TRW_CTL c) 31 16 ≤ (u - since) / 1000 ∧ ((s.at u).ctx c).eta.late = false ∧ (s.at u).etaReady c op.word = false ∧ c < 64 → 
    ∃ t, exec (.stepSizeLate a u) s = .next t ∧ ((t.ctx c).eta.late = true ∧ t.fld (TRW_STATUS c) 3 3 = 1)) ∧
  -- ACCUM: with its operands in, the accumulation is done
  (∀ (a : AuId) (s v : State) (c l : Nat) (op : ActiveOp), s.opOf a 4 = some (c, l, op) ∧ opKind op.word = 1 ∧ op.done = 0 → (v = (s.modAu a fun x => x.trwGather 0 (trwPops op.word)).progress c) → (v.au a).trowel.gathered op.word = true → 
    ∃ t, exec (.accum a) s = .next t ∧ (t = v.trwAccum a op (v.au a).trowel.inp)) ∧
  -- TMUL, a part: with its operands in, the product is computed
  (∀ (a : AuId) (s v : State) (c l : Nat) (op : ActiveOp), s.opOf a 4 = some (c, l, op) ∧ opKind op.word = 2 ∧ op.done = 0 → (v = (s.modAu a fun x => x.trwGather 0 (trwPops op.word)).progress c) → (v.au a).trowel.gathered op.word = true → 
    ∃ t, exec (.tmul a) s = .next t ∧ (t = v.trwTmul a c op (v.au a).trowel.inp)) ∧
  -- TMUL, the end: with everything pushed the operation is over
  (∀ (a : AuId) (s v : State) (c l : Nat) (op : ActiveOp), s.opOf a 4 = some (c, l, op) ∧ opKind op.word = 2 ∧ op.done ≠ 0 → v = (s.modAu a Au.trwPush).progress c ∧ (v.au a).trowel.out.isEmpty = true → 
    ∃ t, exec (.tmul a) s = .next t ∧ (t = v.endOp a 4 ∧ (t.au a).act 4 = none))

/-- Windows and what arrives at them. When the conditions on the state and the operands that a clause names hold, exec answers a next state, as
follows. OPEN_WINDOW: a free window is OPEN as the descriptor says, with the next generation, and the command completes with its handle as RESULT;
CLOSE_WINDOW: a window of the context with no access under way is gone and the command leaves; WINDOW_ARRIVAL: an access that the window accepts is
noted for it, and no context and nothing else of the inbox changes; WINDOW_WRITE_COMPLETE: the bytes are in the window's memory, the window counts
them, and the access is answered with status 0 and gone; SLOT_BUSY: an access held by a slot for 40 us is answered and gone, the AU's status says so
and no AU changes. Choices and inferences of the model in these clauses: assumption log 3, 78, 94, 97.
Basis: derived; 05_hawk.md: R213; 10_omwen_links.md: R408, R410, R411, R412. -/

def Obligations.Windows_and_arrivals : Prop :=
  -- OPEN_WINDOW: a free window is OPEN as the descriptor says, with the next generation, and the command completes with its handle as RESULT
  (∀ (c : CtxId) (k : Nat) (s : State) (cmd : Cmd) (i : Nat), s.cmdAt c k = some cmd ∧ byteAt cmd.desc 0 = 0x06 ∧ s.serves 0x06 = true → (s.ctx c).openBad cmd.desc = false ∧ s.freeWindow = some i → 
    ∃ t, exec (.openWindow c k) s = .next t ∧ (Done s t c k 0 (2 ^ 16 * nextGen (mget 0 s.links.gens i) + i) ∧ mfind t.links.windows i = some { st := .open_, gen := nextGen (mget 0 s.links.gens i), ctx := c, canWrite := bit (byteAt cmd.desc 4) 0, canRead := bit (byteAt cmd.desc 4) 1, tagMode := bits (byteAt cmd.desc 5) 3 0, ncons := bits (byteAt cmd.desc 5) 7 4, flag := byteAt cmd.desc 6, flagEn := bit (byteAt cmd.desc 7) 0, group := fieldLe cmd.desc 8 2, expect := fieldLe cmd.desc 12 4, lbuf := bits (fieldLe cmd.desc 16 8) 63 52, off := bits (fieldLe cmd.desc 16 8) 51 0, size := fieldLe cmd.desc 24 8, count := 0, closing := false })) ∧
  -- CLOSE_WINDOW: a window of the context with no access under way is gone and the command leaves
  (∀ (c : CtxId) (k : Nat) (s : State) (cmd : Cmd) (i : Nat) (w : Window), s.cmdAt c k = some cmd ∧ byteAt cmd.desc 0 = 0x07 ∧ s.serves 0x07 = true ∧ cmd.phase = .started → zeroIn cmd.desc 8 64 = true ∧ s.handleWin (fieldLe cmd.desc 4 4) = some (i, w) ∧ w.st = .open_ ∧ w.ctx = c → (∀ a ∈ s.links.accepts, a.2.win ≠ i) → 
    ∃ t, exec (.closeWindow c k) s = .next t ∧ (mfind t.links.windows i = none ∧ (t.ctx c).ring.cmds = (s.ctx c).ring.cmds.eraseIdx k)) ∧
  -- WINDOW_ARRIVAL: an access that the window accepts is noted for it, and no context and nothing else of the inbox changes
  (∀ (n : Nat) (s : State) (p : Nat) (tx : LTxn) (u : State) (i : Nat) (w : Window), s.links.inbox[n]? = some (p, tx) ∧ s.isSelf tx.hdr.dst = true ∧ s.takeInbox n [1, 2] = some (p, tx, u) → u.seenTseq tx.hdr.org tx.hdr.tseq = false ∧ u.links.fenced.contains tx.hdr.org = false → u.winCheck tx.hdr.handle tx.hdr.org tx.hdr.offset tx.hdr.length (tx.hdr.op == 1) = .accept i w → 
    ∃ t, exec (.windowArrival n) s = .next t ∧ (mfind t.links.accepts u.links.nextAccept = some ⟨i, tx, 0, u.now, []⟩ ∧ t.links.inbox = u.links.inbox ∧ t.ctxs = u.ctxs)) ∧
  -- WINDOW_WRITE_COMPLETE: the bytes are in the window's memory, the window counts them, and the access is answered with status 0 and gone
  (∀ (id : Nat) (s : State) (a : Accept) (w : Window) (va : Nat) (u : State), mfind s.links.accepts id = some a ∧ mfind s.links.windows a.win = some w ∧ s.mboxFull w.ctx = false → (s.ctx w.ctx).locate w.lbuf (w.off + a.t.hdr.offset) = some (.virt va) → a.t.hdr.op = 1 ∧ a.t.hdr.length ≠ 0 ∧ s.vwrite w.ctx va a.t.data = .ok u → 
    ∃ t, exec (.windowWriteComplete id) s = .next t ∧ (t = (u.winWritten a.win a.t.hdr.length).settle id 4 0 0 [] ∧ mfind t.links.accepts id = none)) ∧
  -- SLOT_BUSY: an access held by a slot for 40 us is answered and gone, the AU's status says so and no AU changes
  (∀ (id τ : Nat) (s : State) (a : Accept) (w : Window) (n o : Nat), mfind s.links.accepts id = some a ∧ mfind s.links.windows a.win = some w → w.tagMode ≠ 0 ∧ a.done < a.t.hdr.length ∧ a.since + 40000 ≤ τ → (s.ctx w.ctx).locate w.lbuf (w.off + a.t.hdr.offset + a.done) = some (.hawk n o) → ((s.au n).tag (o / 2048)).canBegin (a.t.hdr.op == 1) = false → 
    ∃ t, exec (.slotBusy id τ) s = .next t ∧ (mfind t.links.accepts id = none ∧ t.now = max s.now τ ∧ t.fld (AU_HAWK_STATUS n) 2 2 = 1 ∧ t.aus = s.aus))

/-- Answers, aborts and time-outs of transactions. When the conditions on the state and the operands that a clause names hold, exec answers a next
state, as follows. HOLD_RECEIVE: the transaction waits 10 us, then twice as long each time up to 1 ms; HOLD_RESEND: a transaction whose wait is over
is sent again; COMPLETE_RECEIVE: the transaction is finished with the status of the answer; ABORT_RECEIVE: no access with the aborted number remains,
every other does, and the number is remembered; TRANSACTION_TIMEOUT: a transaction unanswered for the limit of LNK_TIMEOUT is gone. Choices and
inferences of the model in these clauses: assumption log 3, 94.
Basis: derived; 10_omwen_links.md: R415, R430, R431, R432. -/

def Obligations.Answers_and_aborts : Prop :=
  -- HOLD_RECEIVE: the transaction waits 10 us, then twice as long each time up to 1 ms
  (∀ (n : Nat) (s : State) (p : Nat) (tx : LTxn) (u : State) (k : Nat) (x : Txn), s.takeInbox n [5] = some (p, tx, u) ∧ u.txnOf tx.hdr = some (k, x) → 
    ∃ t, exec (.holdReceive n) s = .next t ∧ (mfind t.links.txns k = some { x with holdWait := if x.holdWait = 0 then 10000 else min 1000000 (2 * x.holdWait), holdUntil := some (u.now + if x.holdWait = 0 then 10000 else min 1000000 (2 * x.holdWait)) })) ∧
  -- HOLD_RESEND: a transaction whose wait is over is sent again
  (∀ (p : LinkId) (slot τ : Nat) (s : State) (x : Txn) (v q : Nat) (dl : Bool) (u : State), mfind s.links.txns (4096 * p.val + slot) = some x ∧ x.holdUntil = some v ∧ v ≤ τ → u = { s.at τ with links := { s.links with txns := mput s.links.txns (4096 * p.val + slot) { x with holdUntil := none, sentAt := (s.at τ).now } } } → u.isSelf x.dst = false ∧ u.route x.dst = some (q, dl) ∧ (u.lport p).state = .up → 
    ∃ t, exec (.holdResend p slot τ) s = .next t ∧ (t = u.enqueue p { x.t with vc := afterDateline dl x.t.vc } (some (4096 * p.val + slot)))) ∧
  -- COMPLETE_RECEIVE: the transaction is finished with the status of the answer
  (∀ (n : Nat) (s : State) (p : Nat) (tx : LTxn) (u : State) (k : Nat) (x : Txn), s.takeInbox n [3, 4] = some (p, tx, u) ∧ u.txnOf tx.hdr = some (k, x) → tx.hdr.op = 4 → 
    ∃ t, exec (.completeReceive n) s = .next t ∧ (mfind t.links.txns k = none ∧ t = u.finishTxn k tx.hdr.status (if tx.hdr.status = 0x42 then tx.hdr.offset else x.t.hdr.offset))) ∧
  -- ABORT_RECEIVE: no access with the aborted number remains, every other does, and the number is remembered
  (∀ (n : Nat) (s : State) (p : Nat) (tx : LTxn) (u : State), s.takeInbox n [7] = some (p, tx, u) → 
    ∃ t, exec (.abortReceive n) s = .next t ∧ ((∀ a ∈ t.links.accepts, a.2.t.hdr.org = tx.hdr.org → a.2.t.hdr.tseq ≠ tx.hdr.tseq) ∧ (∀ a ∈ u.links.accepts, a.2.t.hdr.org ≠ tx.hdr.org ∨ a.2.t.hdr.tseq ≠ tx.hdr.tseq → a ∈ t.links.accepts) ∧ t.seenTseq tx.hdr.org tx.hdr.tseq = true)) ∧
  -- TRANSACTION_TIMEOUT: a transaction unanswered for the limit of LNK_TIMEOUT is gone
  (∀ (p : LinkId) (slot τ : Nat) (s : State) (x : Txn), mfind s.links.txns (4096 * p.val + slot) = some x ∧ x.holdUntil = none → x.sentAt + 1000 * s.fld LNK_TIMEOUT 15 0 ≤ τ → 
    ∃ t, exec (.transactionTimeout p slot τ) s = .next t ∧ (mfind t.links.txns (4096 * p.val + slot) = none))
end

