-- ==== Sys2Proof/Laws/Maps.lean ====
section
/-!
SUPPORT. Laws of the sparse maps, of memory, of bit fields and of the register file: what a read gives after a write, and that every
write keeps the canonical form.
-/
namespace Sys2Proof.Machine

/-! ## Reading after writing -/

theorem mfind_mput_same {α : Type} (m : Map α) (k : Nat) (v : α) : mfind (mput m k v) k = some v := by
  induction m with
  | nil => simp [mput, mfind]
  | cons e m ih =>
    obtain ⟨k', v'⟩ := e
    simp only [mput]
    split
    · simp [mfind]
    · split
      · simp [mfind]
      · rename_i h1 h2
        have : k' ≠ k := fun h => h2 h.symm
        simp [mfind, this, ih]

theorem mfind_mput_ne {α : Type} (m : Map α) (k j : Nat) (v : α) (h : j ≠ k) : mfind (mput m k v) j = mfind m j := by
  have hk : k ≠ j := fun e => h e.symm
  induction m with
  | nil => simp [mput, mfind, hk]
  | cons e m ih =>
    obtain ⟨k', v'⟩ := e
    simp only [mput]
    split
    · simp [mfind, hk]
    · split
      · rename_i h2; subst h2; simp [mfind, hk]
      · by_cases hj : k' = j <;> simp [mfind, hj, ih]

theorem mfind_mdel_same {α : Type} (m : Map α) (k : Nat) : mfind (mdel m k) k = none := by
  induction m with
  | nil => rfl
  | cons e m ih =>
    obtain ⟨k', v'⟩ := e
    by_cases h : k' = k <;> simp [mdel, mfind, h, ih]

theorem mfind_mdel_ne {α : Type} (m : Map α) (k j : Nat) (h : j ≠ k) : mfind (mdel m k) j = mfind m j := by
  induction m with
  | nil => rfl
  | cons e m ih =>
    obtain ⟨k', v'⟩ := e
    by_cases hk : k' = k
    · subst hk
      have : k' ≠ j := fun e => h e.symm
      simp [mdel, mfind, this, ih]
    · by_cases hj : k' = j
      · subst hj; simp [mdel, mfind, hk]
      · simp [mdel, mfind, hk, hj, ih]

@[simp] theorem mget_mset_same {α : Type} [DecidableEq α] (d : α) (m : Map α) (k : Nat) (v : α) : mget d (mset d m k v) k = v := by
  unfold mget mset
  split
  · rename_i h; simp [mfind_mdel_same, h]
  · simp [mfind_mput_same]

theorem mget_mset_ne {α : Type} [DecidableEq α] (d : α) (m : Map α) (k j : Nat) (v : α) (h : j ≠ k) :
    mget d (mset d m k v) j = mget d m j := by
  unfold mget mset
  split
  · rw [mfind_mdel_ne m k j h]
  · rw [mfind_mput_ne m k j v h]

theorem mget_mset {α : Type} [DecidableEq α] (d : α) (m : Map α) (k j : Nat) (v : α) :
    mget d (mset d m k v) j = if j = k then v else mget d m j := by
  split
  · rename_i h; subst h; simp
  · rename_i h; exact mget_mset_ne d m k j v h

/-- A write with another default, where what is written is not it. -/
theorem mfind_mset_ne {α : Type} [DecidableEq α] (d : α) (m : Map α) (k j : Nat) (v : α) (h : j ≠ k) :
    mfind (mset d m k v) j = mfind m j := by
  unfold mset
  split
  · exact mfind_mdel_ne m k j h
  · exact mfind_mput_ne m k j v h

/-! ## The canonical form -/

/-- Every key of a map is above a bound. -/
def above {α : Type} (b : Nat) (m : Map α) : Prop := ∀ e ∈ m, b < e.1

theorem msorted_cons {α : Type} (k : Nat) (v : α) (m : Map α) : msorted ((k, v) :: m) = true ↔ above k m ∧ msorted m = true := by
  induction m generalizing k v with
  | nil => simp [msorted, above]
  | cons e m ih =>
    obtain ⟨k', v'⟩ := e
    have := ih k' v'
    simp only [msorted, List.head?_cons, Option.all_some, Bool.and_eq_true, decide_eq_true_eq] at *
    constructor
    · rintro ⟨h1, h2, h3⟩
      refine ⟨?_, h2, h3⟩
      have ha := (this.mp ⟨h2, h3⟩).1
      intro e he
      rcases List.mem_cons.mp he with rfl | he
      · exact h1
      · exact Nat.lt_trans h1 (ha e he)
    · rintro ⟨ha, h2, h3⟩
      exact ⟨ha (k', v') (List.mem_cons_self), h2, h3⟩

theorem above_mput {α : Type} (b : Nat) (m : Map α) (k : Nat) (v : α) (hb : b < k) (h : above b m) : above b (mput m k v) := by
  induction m with
  | nil => intro e he; simp [mput] at he; subst he; exact hb
  | cons e m ih =>
    obtain ⟨k', v'⟩ := e
    have ht : above b m := fun x hx => h x (List.mem_cons_of_mem _ hx)
    have hk : b < k' := h (k', v') (List.mem_cons_self)
    simp only [mput]
    split
    · intro x hx
      rcases List.mem_cons.mp hx with rfl | hx
      · exact hb
      · exact h x hx
    · split
      · intro x hx
        rcases List.mem_cons.mp hx with rfl | hx
        · exact hb
        · exact ht x hx
      · intro x hx
        rcases List.mem_cons.mp hx with rfl | hx
        · exact hk
        · exact ih ht x hx

theorem msorted_mput {α : Type} (m : Map α) (k : Nat) (v : α) (h : msorted m = true) : msorted (mput m k v) = true := by
  induction m with
  | nil => rfl
  | cons e m ih =>
    obtain ⟨k', v'⟩ := e
    have hs := (msorted_cons k' v' m).mp h
    simp only [mput]
    split
    · rename_i hlt
      refine (msorted_cons k v _).mpr ⟨?_, h⟩
      intro x hx
      rcases List.mem_cons.mp hx with rfl | hx
      · exact hlt
      · exact Nat.lt_trans hlt (hs.1 x hx)
    · split
      · rename_i _ heq
        subst heq
        exact (msorted_cons k v m).mpr hs
      · rename_i h1 h2
        have : k' < k := by omega
        exact (msorted_cons k' v' _).mpr ⟨above_mput k' m k v this hs.1, ih hs.2⟩

theorem mem_mdel {α : Type} (m : Map α) (k : Nat) (e : Nat × α) (h : e ∈ mdel m k) : e ∈ m := by
  induction m with
  | nil => exact h
  | cons x m ih =>
    obtain ⟨k', v'⟩ := x
    simp only [mdel] at h
    split at h
    · exact List.mem_cons_of_mem _ (ih h)
    · rcases List.mem_cons.mp h with rfl | h
      · exact List.mem_cons_self
      · exact List.mem_cons_of_mem _ (ih h)

theorem msorted_mdel {α : Type} (m : Map α) (k : Nat) (h : msorted m = true) : msorted (mdel m k) = true := by
  induction m with
  | nil => rfl
  | cons x m ih =>
    obtain ⟨k', v'⟩ := x
    have hs := (msorted_cons k' v' m).mp h
    simp only [mdel]
    split
    · exact ih hs.2
    · exact (msorted_cons k' v' _).mpr ⟨fun e he => hs.1 e (mem_mdel m k e he), ih hs.2⟩

theorem mem_mput {α : Type} (m : Map α) (k : Nat) (v : α) (e : Nat × α) (h : e ∈ mput m k v) : e = (k, v) ∨ e ∈ m := by
  induction m with
  | nil => simp [mput] at h; exact Or.inl h
  | cons x m ih =>
    obtain ⟨k', v'⟩ := x
    simp only [mput] at h
    split at h
    · rcases List.mem_cons.mp h with h | h
      · exact Or.inl h
      · exact Or.inr h
    · split at h
      · rcases List.mem_cons.mp h with h | h
        · exact Or.inl h
        · exact Or.inr (List.mem_cons_of_mem _ h)
      · rcases List.mem_cons.mp h with h | h
        · exact Or.inr (h ▸ List.mem_cons_self)
        · rcases ih h with h | h
          · exact Or.inl h
          · exact Or.inr (List.mem_cons_of_mem _ h)

/-- A write keeps the canonical form. -/
theorem mcanon_mset {α : Type} [DecidableEq α] (d : α) (m : Map α) (k : Nat) (v : α) (h : mcanon d m = true) :
    mcanon d (mset d m k v) = true := by
  simp only [mcanon, Bool.and_eq_true, List.all_eq_true, bne_iff_ne, ne_eq] at *
  unfold mset
  split
  · exact ⟨msorted_mdel m k h.1, fun e he => h.2 e (mem_mdel m k e he)⟩
  · rename_i hv
    refine ⟨msorted_mput m k v h.1, fun e he => ?_⟩
    rcases mem_mput m k v e he with rfl | he
    · exact hv
    · exact h.2 e he

theorem above_filter {α : Type} (b : Nat) (p : Nat × α → Bool) (m : Map α) (h : above b m) : above b (m.filter p) :=
  fun e he => h e (List.mem_filter.mp he).1

theorem msorted_filter {α : Type} (p : Nat × α → Bool) (m : Map α) (h : msorted m = true) : msorted (m.filter p) = true := by
  induction m with
  | nil => rfl
  | cons x m ih =>
    obtain ⟨k, v⟩ := x
    have hs := (msorted_cons k v m).mp h
    simp only [List.filter_cons]
    split
    · exact (msorted_cons k v _).mpr ⟨above_filter k p m hs.1, ih hs.2⟩
    · exact ih hs.2

/-- Dropping entries keeps the canonical form. -/
theorem mcanon_filter {α : Type} [DecidableEq α] (d : α) (p : Nat × α → Bool) (m : Map α) (h : mcanon d m = true) :
    mcanon d (m.filter p) = true := by
  simp only [mcanon, Bool.and_eq_true, List.all_eq_true] at *
  exact ⟨msorted_filter p m h.1, fun e he => h.2 e (List.mem_filter.mp he).1⟩

/-! ## Memory -/

/-- Every operation on a memory of bytes keeps its canonical form. -/
theorem wf_wrByte (m : Mem) (a : Nat) (b : Byte) (h : Memory.wf m = true) : Memory.wf (wrByte m a b) = true := mcanon_mset _ m a b h

theorem wf_wrBytes (m : Mem) (a : Nat) (bs : List Byte) (h : Memory.wf m = true) : Memory.wf (wrBytes m a bs) = true := by
  induction bs generalizing m a with
  | nil => exact h
  | cons b bs ih => exact ih _ _ (wf_wrByte m a b h)

theorem wf_zeroBytes (m : Mem) (a n : Nat) (h : Memory.wf m = true) : Memory.wf (zeroBytes m a n) = true := mcanon_filter _ _ m h

theorem wf_filter (p : Nat × Byte → Bool) (m : Mem) (h : Memory.wf m = true) : Memory.wf (m.filter p) = true := mcanon_filter _ p m h

@[simp] theorem rdByte_wrByte_same (m : Mem) (a : Nat) (b : Byte) : rdByte (wrByte m a b) a = b := mget_mset_same _ m a b

theorem rdByte_wrByte_ne (m : Mem) (a c : Nat) (b : Byte) (h : c ≠ a) : rdByte (wrByte m a b) c = rdByte m c :=
  mget_mset_ne _ m a c b h

/-- A byte outside the bytes written reads as before. -/
theorem rdByte_wrBytes_out (m : Mem) (a c : Nat) (bs : List Byte) (h : c < a ∨ a + bs.length ≤ c) :
    rdByte (wrBytes m a bs) c = rdByte m c := by
  induction bs generalizing m a with
  | nil => rfl
  | cons b bs ih =>
    simp only [wrBytes, List.length_cons] at *
    rw [ih _ _ (by omega), rdByte_wrByte_ne _ _ _ _ (by omega)]

/-- A byte written reads as it was written. -/
theorem rdByte_wrBytes_in (m : Mem) (a i : Nat) (bs : List Byte) (h : i < bs.length) :
    rdByte (wrBytes m a bs) (a + i) = bs[i] := by
  induction bs generalizing m a i with
  | nil => simp at h
  | cons b bs ih =>
    cases i with
    | zero => simp only [wrBytes, Nat.add_zero]; rw [rdByte_wrBytes_out _ _ _ _ (by omega)]; simp
    | succ i =>
      simp only [wrBytes]
      have := ih (wrByte m a b) (a + 1) i (by simpa using h)
      rw [show a + (i + 1) = a + 1 + i by omega, this]; simp

theorem length_rdBytes (m : Mem) (a n : Nat) : (rdBytes m a n).length = n := by
  induction n generalizing a with
  | zero => rfl
  | succ n ih => simp [rdBytes, ih]

/-- What was written is read back. -/
theorem rdBytes_wrBytes (m : Mem) (a : Nat) (bs : List Byte) : rdBytes (wrBytes m a bs) a bs.length = bs := by
  have key : ∀ (cs : List Byte) (m' : Mem) (b : Nat),
      (∀ i, (h : i < cs.length) → rdByte m' (b + i) = cs[i]) → rdBytes m' b cs.length = cs := by
    intro cs
    induction cs with
    | nil => intro _ _ _; rfl
    | cons c cs ih =>
      intro m' b h
      simp only [List.length_cons, rdBytes]
      have h0 := h 0 (by simp)
      simp at h0
      rw [h0, ih m' (b + 1) (fun i hi => by
        have := h (i + 1) (by simp; omega)
        rw [show b + 1 + i = b + (i + 1) by omega, this]; simp)]
  exact key bs _ a (fun i h => rdByte_wrBytes_in m a i bs h)

/-! ## Bit fields -/

theorem bits_lt (w hi lo : Nat) : bits w hi lo < 2 ^ (hi + 1 - lo) := Nat.mod_lt _ (Nat.two_pow_pos _)

/-- A word split at a field: below it, the field, above it. -/
theorem word_split (w hi lo : Nat) :
    w = w % 2 ^ lo + 2 ^ lo * (bits w hi lo + 2 ^ (hi + 1 - lo) * (w / 2 ^ lo / 2 ^ (hi + 1 - lo))) := by
  unfold bits
  rw [Nat.mod_add_div, Nat.mod_add_div]

theorem putBits_split (w hi lo v : Nat) :
    putBits w hi lo v = w % 2 ^ lo + 2 ^ lo * (v % 2 ^ (hi + 1 - lo) + 2 ^ (hi + 1 - lo) * (w / 2 ^ lo / 2 ^ (hi + 1 - lo))) := by
  have h := word_split w hi lo
  unfold putBits
  generalize bits w hi lo = b at *
  generalize w / 2 ^ lo / 2 ^ (hi + 1 - lo) = c at *
  generalize v % 2 ^ (hi + 1 - lo) = v' at *
  have e1 : 2 ^ lo * (b + 2 ^ (hi + 1 - lo) * c) = 2 ^ lo * b + 2 ^ lo * (2 ^ (hi + 1 - lo) * c) := Nat.mul_add _ _ _
  have e2 : 2 ^ lo * (v' + 2 ^ (hi + 1 - lo) * c) = 2 ^ lo * v' + 2 ^ lo * (2 ^ (hi + 1 - lo) * c) := Nat.mul_add _ _ _
  rw [e1] at h
  rw [e2]
  generalize w % 2 ^ lo = a at *
  omega

theorem split_low (a b lo : Nat) (ha : a < 2 ^ lo) : (a + 2 ^ lo * b) / 2 ^ lo = b := by
  rw [Nat.add_mul_div_left _ _ (Nat.two_pow_pos lo), Nat.div_eq_of_lt ha, Nat.zero_add]

/-- A field reads what was put into it. -/
theorem bits_putBits_same (w hi lo v : Nat) : bits (putBits w hi lo v) hi lo = v % 2 ^ (hi + 1 - lo) := by
  rw [putBits_split]
  unfold bits
  rw [split_low _ _ _ (Nat.mod_lt _ (Nat.two_pow_pos _)), Nat.add_mul_mod_self_left, Nat.mod_mod]

/-- A field above the one written reads as before. -/
theorem bits_putBits_above (w hi lo v hi' lo' : Nat) (hl : lo ≤ hi) (h : hi < lo') : bits (putBits w hi lo v) hi' lo' = bits w hi' lo' := by
  have key : ∀ x, x / 2 ^ lo' = x / 2 ^ lo / 2 ^ (hi + 1 - lo) / 2 ^ (lo' - (hi + 1)) := by
    intro x
    rw [Nat.div_div_eq_div_mul, Nat.div_div_eq_div_mul, ← Nat.pow_add, ← Nat.pow_add]
    congr 2; omega
  unfold bits
  rw [key, key w, putBits_split, split_low _ _ _ (Nat.mod_lt _ (Nat.two_pow_pos _)),
    split_low _ _ _ (Nat.mod_lt _ (Nat.two_pow_pos _))]

/-- A field below the one written reads as before. -/
theorem bits_putBits_below (w hi lo v hi' lo' : Nat) (h : hi' < lo) : bits (putBits w hi lo v) hi' lo' = bits w hi' lo' := by
  have key : ∀ x, bits x hi' lo' = bits (x % 2 ^ lo) hi' lo' := by
    intro x
    unfold bits
    by_cases hle : lo' ≤ hi'
    · have e : 2 ^ lo = 2 ^ lo' * 2 ^ (lo - lo') := by rw [← Nat.pow_add]; congr 1; omega
      rw [e, Nat.mod_mul_right_div_self, Nat.mod_mod_of_dvd]
      exact Nat.pow_dvd_pow 2 (by omega)
    · have : hi' + 1 - lo' = 0 := by omega
      simp [this, Nat.mod_one]
  rw [key, key w, putBits_split, Nat.add_mul_mod_self_left, Nat.mod_mod]

theorem bits_mod32 (x hi lo : Nat) (h : hi < 32) : bits (x % 2 ^ 32) hi lo = bits x hi lo := by
  unfold bits
  by_cases hle : lo ≤ hi
  · have e : 2 ^ 32 = 2 ^ lo * 2 ^ (32 - lo) := by rw [← Nat.pow_add]; congr 1; omega
    rw [e, Nat.mod_mul_right_div_self, Nat.mod_mod_of_dvd]
    exact Nat.pow_dvd_pow 2 (by omega)
  · have : hi + 1 - lo = 0 := by omega
    simp [this, Nat.mod_one]

/-! ## The register file -/

@[simp] theorem rgRead_rgWrite_same (m : RegMap) (k : Nat) (v : Word32) : rgRead (rgWrite m k v) k = v := mget_mset_same _ m k v

theorem rgRead_rgWrite_ne (m : RegMap) (k j : Nat) (v : Word32) (h : j ≠ k) : rgRead (rgWrite m k v) j = rgRead m j := by
  unfold rgRead rgWrite mget
  rw [mfind_mset_ne _ m k j v h]

theorem rgRead_rgSet_ne (m : RegMap) (k j hi lo v : Nat) (h : j ≠ k) : rgRead (rgSet m k hi lo v) j = rgRead m j :=
  rgRead_rgWrite_ne m k j _ h

theorem rgFld_rgSet_ne (m : RegMap) (k j hi lo hi' lo' v : Nat) (h : j ≠ k) : rgFld (rgSet m k hi lo v) j hi' lo' = rgFld m j hi' lo' := by
  unfold rgFld; rw [rgRead_rgSet_ne m k j hi lo v h]

theorem rgFld_rgSet_same (m : RegMap) (k hi lo v : Nat) (h : hi < 32) : rgFld (rgSet m k hi lo v) k hi lo = v % 2 ^ (hi + 1 - lo) := by
  unfold rgFld rgSet
  rw [rgRead_rgWrite_same, BitVec.toNat_ofNat, bits_mod32 _ _ _ h, bits_putBits_same]

theorem rgFld_rgSet_above (m : RegMap) (k hi lo hi' lo' v : Nat) (hl : lo ≤ hi) (h : hi < lo') (h' : hi' < 32) :
    rgFld (rgSet m k hi lo v) k hi' lo' = rgFld m k hi' lo' := by
  unfold rgFld rgSet
  rw [rgRead_rgWrite_same, BitVec.toNat_ofNat, bits_mod32 _ _ _ h', bits_putBits_above _ _ _ _ _ _ hl h]

theorem rgFld_rgSet_below (m : RegMap) (k hi lo hi' lo' v : Nat) (h : hi' < lo) (h' : hi' < 32) :
    rgFld (rgSet m k hi lo v) k hi' lo' = rgFld m k hi' lo' := by
  unfold rgFld rgSet
  rw [rgRead_rgWrite_same, BitVec.toNat_ofNat, bits_mod32 _ _ _ h', bits_putBits_below _ _ _ _ _ _ h]

theorem rgCanon_rgWrite (m : RegMap) (k : Nat) (v : Word32) (h : rgCanon m = true) : rgCanon (rgWrite m k v) = true := by
  simp only [rgCanon, Bool.and_eq_true, List.all_eq_true, bne_iff_ne, ne_eq] at *
  unfold rgWrite mset
  split
  · exact ⟨msorted_mdel m k h.1, fun e he => h.2 e (mem_mdel m k e he)⟩
  · rename_i hv
    refine ⟨msorted_mput m k v h.1, fun e he => ?_⟩
    rcases mem_mput m k v e he with rfl | he
    · exact hv
    · exact h.2 e he

theorem rgCanon_filter (p : Nat × Word32 → Bool) (m : RegMap) (h : rgCanon m = true) : rgCanon (m.filter p) = true := by
  simp only [rgCanon, Bool.and_eq_true, List.all_eq_true] at *
  exact ⟨msorted_filter p m h.1, fun e he => h.2 e (List.mem_filter.mp he).1⟩

end Sys2Proof.Machine
end

