-- ==== Sys2Proof/Laws/Kept.lean ====
section
/-!
SUPPORT. `Kept m s t`: what every operation of the model keeps when it takes s to t. The queue is the same, the invariant is carried
over, the fuses only rise, part time does not run backwards (unless bit 18 of m allows it), and every part of the state whose bit of m
is 0 is the same. One lemma for each operation of the model says it of that operation (Laws/Kept*.lean).
-/
namespace Sys2Proof.Machine

/-- The bit of a mask that stands for a part. -/
def Part.pos : Part → Nat
  | .host => 0 | .hbm => 1 | .mem => 2 | .regs => 3 | .ports => 4 | .fns => 5 | .ctxs => 6 | .aus => 7 | .links => 8 | .sems => 9
  | .solver => 10 | .totals => 11 | .power => 12 | .flash => 13 | .sec => 14 | .now => 15 | .free => 16 | .answer => 17

/-- t keeps of s all but the parts that m lists. -/
structure Kept (m : Nat) (s t : State) : Prop where
  pending : t.pending = s.pending
  inv : s.Inv → t.Inv
  rise : s.sec.fuses.Rise t.sec.fuses
  time : m.testBit 18 = false → s.now ≤ t.now
  same : ∀ p : Part, m.testBit p.pos = false → p.same s t

variable {m : Nat} {s s0 t u : State}

theorem Part.same_refl (p : Part) (s : State) : p.same s s := by
  cases p <;> first | rfl | exact fun _ => rfl

theorem Part.same_trans {p : Part} (h : p.same s t) (k : p.same t u) : p.same s u := by
  cases p <;> first
    | exact fun a => (k a).trans (h a)
    | exact Eq.trans k h
    | (simp only [Part.same] at *
       rw [← h, ← k])

theorem Fuses.Rise.refl (f : Fuses) : f.Rise f :=
  ⟨Nat.le_refl _, Nat.le_refl _, id, fun _ h => h, rfl, rfl, rfl, rfl, rfl⟩

theorem Fuses.Rise.trans {f g h : Fuses} (a : f.Rise g) (b : g.Rise h) : f.Rise h := by
  obtain ⟨a1, a2, a3, a4, a5, a6, a7, a8, a9⟩ := a
  obtain ⟨b1, b2, b3, b4, b5, b6, b7, b8, b9⟩ := b
  exact ⟨Nat.le_trans a1 b1, Nat.le_trans a2 b2, fun x => b3 (a3 x), fun n x => b4 n (a4 n x), b5.trans a5, b6.trans a6, b7.trans a7,
    b8.trans a8, b9.trans a9⟩

theorem Kept.refl (m : Nat) (s : State) : Kept m s s :=
  ⟨rfl, id, Fuses.Rise.refl _, fun _ => Nat.le_refl _, fun p _ => Part.same_refl p s⟩

theorem Kept.trans (h : Kept m s t) (k : Kept m t u) : Kept m s u :=
  ⟨k.pending.trans h.pending, fun x => k.inv (h.inv x), h.rise.trans k.rise, fun x => Nat.le_trans (h.time x) (k.time x),
    fun p x => Part.same_trans (h.same p x) (k.same p x)⟩

/-- A mask within a mask within a mask. -/
theorem Mask.sub {a b m : Nat} (h : a &&& m = a) (k : b &&& a = b) : b &&& m = b := by
  rw [← k, Nat.and_assoc, h]

theorem Mask.bit {a m i : Nat} (h : a &&& m = a) (k : a.testBit i = true) : m.testBit i = true := by
  rw [← h, Nat.testBit_and, Bool.and_eq_true] at k
  exact k.2

/-- A change of one part, or of several, that m lists. -/
theorem Kept.upd (h : Kept m s t) (hp : u.pending = t.pending) (hi : t.Inv → u.Inv) (hf : u.sec.fuses = t.sec.fuses)
    (ht : t.now = u.now) (hs : ∀ p : Part, m.testBit p.pos = false → p.same t u) : Kept m s u :=
  h.trans ⟨hp, hi, hf ▸ Fuses.Rise.refl _, fun _ => ht ▸ Nat.le_refl _, hs⟩

/-- Only part q, which m lists, is not the same. -/
theorem Part.only {q : Part} {a : Nat} (hm : a &&& m = a) (ha : a.testBit q.pos = true) (hs : ∀ p : Part, p ≠ q → p.same t u) (p : Part)
    (hp : m.testBit p.pos = false) : p.same t u := by
  by_cases e : p = q
  · subst e
    rw [Mask.bit hm ha] at hp
    cases hp
  · exact hs p e

theorem Kept.ite {c : Prop} [Decidable c] (h : Kept m s t) (k : Kept m s u) : Kept m s (if c then t else u) := by
  split <;> assumption

theorem Kept.iteSnd {α : Type} {c : Prop} [Decidable c] {a b : α × State} (h : Kept m s a.2) (k : Kept m s b.2) :
    Kept m s (if c then a else b).2 := by
  split <;> assumption

theorem Kept.iteFst {α : Type} {c : Prop} [Decidable c] {a b : State × α} (h : Kept m s a.1) (k : Kept m s b.1) :
    Kept m s (if c then a else b).1 := by
  split <;> assumption

theorem Kept.foldl {α : Type} {f : State → α → State} (hf : ∀ t e, Kept m s t → Kept m s (f t e)) :
    ∀ (l : List α) {t : State}, Kept m s t → Kept m s (l.foldl f t)
  | [], _, h => h
  | e :: l, _, h => Kept.foldl hf l (hf _ e h)

/-! ## A change of one part -/

theorem Kept.ports (hm : 0x10 &&& m = 0x10) (h : Kept m s t) (x : Map HostPort) : Kept m s { t with ports := x } := by
  refine h.upd rfl id rfl rfl (Part.only (q := .ports) hm (by decide) fun p hp => ?_)
  cases p <;> first | exact absurd rfl hp | exact fun _ => rfl | rfl

theorem Kept.fns (hm : 0x20 &&& m = 0x20) (h : Kept m s t) (x : Map Fn) : Kept m s { t with fns := x } := by
  refine h.upd rfl id rfl rfl (Part.only (q := .fns) hm (by decide) fun p hp => ?_)
  cases p <;> first | exact absurd rfl hp | exact fun _ => rfl | rfl

theorem Kept.ctxs (hm : 0x40 &&& m = 0x40) (h : Kept m s t) (x : Map Ctx) : Kept m s { t with ctxs := x } := by
  refine h.upd rfl id rfl rfl (Part.only (q := .ctxs) hm (by decide) fun p hp => ?_)
  cases p <;> first | exact absurd rfl hp | exact fun _ => rfl | rfl

theorem Kept.aus (hm : 0x80 &&& m = 0x80) (h : Kept m s t) (x : Map Au) : Kept m s { t with aus := x } := by
  refine h.upd rfl id rfl rfl (Part.only (q := .aus) hm (by decide) fun p hp => ?_)
  cases p <;> first | exact absurd rfl hp | exact fun _ => rfl | rfl

theorem Kept.links (hm : 0x100 &&& m = 0x100) (h : Kept m s t) (x : LinkSt) : Kept m s { t with links := x } := by
  refine h.upd rfl id rfl rfl (Part.only (q := .links) hm (by decide) fun p hp => ?_)
  cases p <;> first | exact absurd rfl hp | exact fun _ => rfl | rfl

theorem Kept.sems (hm : 0x200 &&& m = 0x200) (h : Kept m s t) (x : Map Sem) : Kept m s { t with sems := x } := by
  refine h.upd rfl id rfl rfl (Part.only (q := .sems) hm (by decide) fun p hp => ?_)
  cases p <;> first | exact absurd rfl hp | exact fun _ => rfl | rfl

theorem Kept.solver (hm : 0x400 &&& m = 0x400) (h : Kept m s t) (x : List SolverJob) : Kept m s { t with solver := x } := by
  refine h.upd rfl id rfl rfl (Part.only (q := .solver) hm (by decide) fun p hp => ?_)
  cases p <;> first | exact absurd rfl hp | exact fun _ => rfl | rfl

theorem Kept.power (hm : 0x1000 &&& m = 0x1000) (h : Kept m s t) (x : PowerSt) : Kept m s { t with power := x } := by
  refine h.upd rfl id rfl rfl (Part.only (q := .power) hm (by decide) fun p hp => ?_)
  cases p <;> first | exact absurd rfl hp | exact fun _ => rfl | rfl

theorem Kept.free (hm : 0x10000 &&& m = 0x10000) (h : Kept m s t) (x : Nat) : Kept m s { t with free := x } := by
  refine h.upd rfl id rfl rfl (Part.only (q := .free) hm (by decide) fun p hp => ?_)
  cases p <;> first | exact absurd rfl hp | exact fun _ => rfl | rfl

theorem Kept.answer (hm : 0x20000 &&& m = 0x20000) (h : Kept m s t) (x : List Byte) : Kept m s { t with answer := x } := by
  refine h.upd rfl id rfl rfl (Part.only (q := .answer) hm (by decide) fun p hp => ?_)
  cases p <;> first | exact absurd rfl hp | exact fun _ => rfl | rfl

/-- The register file changes to one that is canonical if the old one is. -/
theorem Kept.regs (hm : 0x8 &&& m = 0x8) (h : Kept m s t) (x : RegMap) (hx : rgCanon t.regs = true → rgCanon x = true) :
    Kept m s { t with regs := x } := by
  refine h.upd rfl (fun hi => ⟨hx hi.1, hi.2⟩) rfl rfl (Part.only (q := .regs) hm (by decide) fun p hp => ?_)
  cases p <;> first | exact absurd rfl hp | exact fun _ => rfl | rfl

/-- Host memory changes to a canonical one. -/
theorem Kept.host (hm : 0x1 &&& m = 0x1) (h : Kept m s t) (x : Mem) (hx : Memory.wf t.host = true → Memory.wf x = true) :
    Kept m s { t with host := x } := by
  refine h.upd rfl (fun hi => ⟨hi.1, hx hi.2.1, hi.2.2⟩) rfl rfl (Part.only (q := .host) hm (by decide) fun p hp => ?_)
  cases p <;> first | exact absurd rfl hp | exact fun _ => rfl | rfl

/-- HBM changes to a canonical memory. -/
theorem Kept.hbm (hm : 0x2 &&& m = 0x2) (h : Kept m s t) (x : Mem) (hx : Memory.wf t.mem.hbm = true → Memory.wf x = true) :
    Kept m s { t with mem := { t.mem with hbm := x } } := by
  refine h.upd rfl (fun hi => ⟨hi.1, hi.2.1, hx hi.2.2.1, hi.2.2.2⟩) rfl rfl (Part.only (q := .hbm) hm (by decide) fun p hp => ?_)
  cases p <;> first | exact absurd rfl hp | exact fun _ => rfl | rfl

/-- The memory system changes, HBM keeps its contents. -/
theorem Kept.mem (hm : 0x4 &&& m = 0x4) (h : Kept m s t) (x : MemSt) (hx : x.hbm = t.mem.hbm) : Kept m s { t with mem := x } := by
  refine h.upd rfl (fun hi => ⟨hi.1, hi.2.1, by rw [show ({ t with mem := x } : State).mem.hbm = t.mem.hbm from hx]; exact hi.2.2.1,
    hi.2.2.2⟩) rfl rfl (Part.only (q := .mem) hm (by decide) fun p hp => ?_)
  cases p <;> first
    | exact absurd rfl hp
    | exact fun a => by rw [show ({ t with mem := x } : State).mem.hbm = t.mem.hbm from hx]
    | exact fun _ => rfl | rfl

/-- The memory system changes, HBM to a canonical memory. -/
theorem Kept.memAll (hm : 0x6 &&& m = 0x6) (h : Kept m s t) (x : MemSt) (hx : Memory.wf t.mem.hbm = true → Memory.wf x.hbm = true) :
    Kept m s { t with mem := x } :=
  (h.hbm (Mask.sub hm (by decide)) x.hbm hx).mem (t := { t with mem := { t.mem with hbm := x.hbm } }) (Mask.sub hm (by decide)) x rfl

/-- The memory system and the links change, HBM keeps its contents. -/
theorem Kept.memLinks (hm : 0x104 &&& m = 0x104) (h : Kept m s t) (x : MemSt) (hx : x.hbm = t.mem.hbm) (y : LinkSt) :
    Kept m s { t with mem := x, links := y } :=
  (h.mem (Mask.sub hm (by decide)) x hx).links (Mask.sub hm (by decide)) y

/-- Boot, firmware and security change; the flash keeps its contents and the fuses rise. -/
theorem Kept.sec (hm : 0x4000 &&& m = 0x4000) (h : Kept m s t) (x : SecSt) (hx : x.flash = t.sec.flash)
    (hf : t.sec.fuses.Rise x.fuses) : Kept m s { t with sec := x } := by
  refine h.trans ⟨rfl, fun hi => ⟨hi.1, hi.2.1, hi.2.2.1, ?_, hi.2.2.2.2⟩, hf, fun _ => Nat.le_refl _,
    Part.only (q := .sec) hm (by decide) fun p hp => ?_⟩
  · rw [show ({ t with sec := x } : State).sec.flash = t.sec.flash from hx]; exact hi.2.2.2.1
  · cases p <;> first
      | exact absurd rfl hp
      | exact fun a => by rw [show ({ t with sec := x } : State).sec.flash = t.sec.flash from hx]
      | exact fun _ => rfl | rfl

/-- The flash changes to a canonical memory, with boot, firmware and security. -/
theorem Kept.flash (hm : 0x6000 &&& m = 0x6000) (h : Kept m s t) (x : SecSt)
    (hx : Memory.wf t.sec.flash = true → Memory.wf x.flash = true) (hf : t.sec.fuses.Rise x.fuses) : Kept m s { t with sec := x } := by
  refine h.trans ⟨rfl, fun hi => ⟨hi.1, hi.2.1, hi.2.2.1, hx hi.2.2.2.1, hi.2.2.2.2⟩, hf, fun _ => Nat.le_refl _, fun p hp => ?_⟩
  by_cases e : p = .flash
  · subst e
    rw [show Part.flash.pos = 13 from rfl, Mask.bit hm (by decide)] at hp
    cases hp
  by_cases e' : p = .sec
  · subst e'
    rw [show Part.sec.pos = 14 from rfl, Mask.bit hm (by decide)] at hp
    cases hp
  clear hp
  cases p <;> first
    | exact absurd rfl e
    | exact absurd rfl e'
    | exact fun _ => rfl | rfl

/-- Part time changes. -/
theorem Kept.now (hm : 0x8000 &&& m = 0x8000) (h : Kept m s t) (x : Nat) (hx : m.testBit 18 = false → t.now ≤ x) :
    Kept m s { t with now := x } := by
  refine h.trans ⟨rfl, id, Fuses.Rise.refl _, hx,
    Part.only (q := .now) hm (by decide) fun p hp => ?_⟩
  cases p <;> first | exact absurd rfl hp | exact fun _ => rfl | rfl

/-- A total of Table 11.10 changes, within 32 bits. -/
theorem Kept.totals (hm : 0x800 &&& m = 0x800) (h : Kept m s t) (i n : Nat) :
    Kept m s (t.total i n) := by
  refine h.upd rfl (fun hi => ⟨hi.1, hi.2.1, hi.2.2.1, hi.2.2.2.1, fun j => ?_⟩) rfl rfl (Part.only (q := .totals) hm (by decide) fun p hp => ?_)
  · rw [show (t.total i n).totals = mset 0 t.totals i (satAdd 0xFFFFFFFF (mget 0 t.totals i) n) from rfl, mget_mset]
    split
    · exact Nat.min_le_left _ _
    · exact hi.2.2.2.2 j
  cases p <;> first | exact absurd rfl hp | exact fun _ => rfl | rfl

/-! ## Results that hold states -/

/-- Of a value that may be absent. -/
def AllO {α : Type} (P : α → Prop) : Option α → Prop
  | none => True
  | some a => P a

theorem AllO.none_ {α : Type} {P : α → Prop} : AllO P none := True.intro
theorem AllO.some_ {α : Type} {P : α → Prop} {a : α} (h : P a) : AllO P (some a) := h

/-- Of a command's outcome: a next state, of which Kept holds. -/
def OutKept (m : Nat) (s : State) (o : Out) : Prop := ∃ t, o = .next t ∧ Kept m s t

theorem OutKept.next (h : Kept m s t) : OutKept m s (.next t) := ⟨t, rfl, h⟩

theorem Kept.ofSome {o : Option State} (e : o = some u) (h : AllO (Kept m s0) o) : Kept m s0 u := by subst e; exact h
theorem Kept.ofSomePair {α : Type} {a : α} {o : Option (α × State)} (e : o = some (a, u)) (h : AllO (fun p => Kept m s0 p.2) o) :
    Kept m s0 u := by subst e; exact h
theorem Kept.ofSomeSnd {α : Type} {p : α × State} {o : Option (α × State)} (e : o = some p) (h : AllO (fun p => Kept m s0 p.2) o) :
    Kept m s0 p.2 := by subst e; exact h
theorem Kept.ofPair {α : Type} {a : α} {p : α × State} (e : p = (a, u)) (h : Kept m s0 p.2) : Kept m s0 u := by subst e; exact h
theorem Kept.ofPair1 {α : Type} {a : α} {p : State × α} (e : p = (u, a)) (h : Kept m s0 p.1) : Kept m s0 u := by subst e; exact h

def VmRes.All {α : Type} (P : α → Prop) : VmRes α → Prop
  | .ok a => P a
  | _ => True
theorem VmRes.All.use0 {α : Type} {a : α} {o : VmRes (α × State)} (e : o = .ok (a, u)) (h : VmRes.All (fun p => Kept m s0 p.2) o) :
    Kept m s0 u := by subst e; exact h
theorem VmRes.All.use1 {o : VmRes State} (e : o = .ok u) (h : VmRes.All (Kept m s0) o) : Kept m s0 u := by subst e; exact h

def SendRes.All (P : State → Prop) : SendRes → Prop
  | .sent s => P s
  | .wait => True
  | .fail _ s => P s
theorem SendRes.All.use0 {o : SendRes} (e : o = .sent u) (h : SendRes.All (Kept m s0) o) : Kept m s0 u := by subst e; exact h
theorem SendRes.All.use1 {o : SendRes} {n : Nat} (e : o = .fail n u) (h : SendRes.All (Kept m s0) o) : Kept m s0 u := by
  subst e; exact h

def RollRes.All (P : State → Prop) : RollRes → Prop
  | .ok s => P s
  | .wait s => P s
theorem RollRes.All.use0 {o : RollRes} (e : o = .ok u) (h : RollRes.All (Kept m s0) o) : Kept m s0 u := by subst e; exact h
theorem RollRes.All.use1 {o : RollRes} (e : o = .wait u) (h : RollRes.All (Kept m s0) o) : Kept m s0 u := by subst e; exact h

def CollRes.All (P : State → Prop) : CollRes → Prop
  | .ok s => P s
  | .later s => P s
  | .fail _ => True
theorem CollRes.All.use0 {o : CollRes} (e : o = .ok u) (h : CollRes.All (Kept m s0) o) : Kept m s0 u := by subst e; exact h
theorem CollRes.All.use1 {o : CollRes} (e : o = .later u) (h : CollRes.All (Kept m s0) o) : Kept m s0 u := by subst e; exact h

def Fetch.All (P : State → Prop) : Fetch → Prop
  | .got _ _ s => P s
  | _ => True
theorem Fetch.All.use0 {o : Fetch} {i : Rv} {n : Nat} (e : o = .got i n u) (h : Fetch.All (Kept m s0) o) : Kept m s0 u := by
  subst e; exact h

def ImageRead.All (P : State → Prop) : ImageRead → Prop
  | .got _ s => P s
  | _ => True
theorem ImageRead.All.use0 {o : ImageRead} {bs : List Byte} (e : o = .got bs u) (h : ImageRead.All (Kept m s0) o) : Kept m s0 u := by
  subst e; exact h

def ImgRange.All (P : State → Prop) : ImgRange → Prop
  | .ready _ s => P s
  | .busy s => P s
  | .failed _ s => P s
theorem ImgRange.All.use0 {o : ImgRange} {bs : List Byte} (e : o = .ready bs u) (h : ImgRange.All (Kept m s0) o) : Kept m s0 u := by
  subst e; exact h
theorem ImgRange.All.use1 {o : ImgRange} (e : o = .busy u) (h : ImgRange.All (Kept m s0) o) : Kept m s0 u := by subst e; exact h
theorem ImgRange.All.use2 {o : ImgRange} {n : Nat} (e : o = .failed n u) (h : ImgRange.All (Kept m s0) o) : Kept m s0 u := by
  subst e; exact h

def ImgRes.All (P : State → Prop) : ImgRes → Prop
  | .busy s => P s
  | .next s _ => P s
  | .noImage s => P s
  | .failed s _ _ => P s
  | .done s _ => P s
theorem ImgRes.All.use0 {o : ImgRes} (e : o = .busy u) (h : ImgRes.All (Kept m s0) o) : Kept m s0 u := by subst e; exact h
theorem ImgRes.All.use1 {o : ImgRes} {f : ImgFetch} (e : o = .next u f) (h : ImgRes.All (Kept m s0) o) : Kept m s0 u := by
  subst e; exact h
theorem ImgRes.All.use2 {o : ImgRes} (e : o = .noImage u) (h : ImgRes.All (Kept m s0) o) : Kept m s0 u := by subst e; exact h
theorem ImgRes.All.use3 {o : ImgRes} {n k : Nat} (e : o = .failed u n k) (h : ImgRes.All (Kept m s0) o) : Kept m s0 u := by
  subst e; exact h
theorem ImgRes.All.use4 {o : ImgRes} {f : ImgFetch} (e : o = .done u f) (h : ImgRes.All (Kept m s0) o) : Kept m s0 u := by
  subst e; exact h

def RestRes.All (P : State → Prop) : RestRes → Prop
  | .busy s => P s
  | .noImage s => P s
  | .failed s _ _ => P s
  | .done s _ => P s
theorem RestRes.All.use0 {o : RestRes} (e : o = .busy u) (h : RestRes.All (Kept m s0) o) : Kept m s0 u := by subst e; exact h
theorem RestRes.All.use1 {o : RestRes} (e : o = .noImage u) (h : RestRes.All (Kept m s0) o) : Kept m s0 u := by subst e; exact h
theorem RestRes.All.use2 {o : RestRes} {n k : Nat} (e : o = .failed u n k) (h : RestRes.All (Kept m s0) o) : Kept m s0 u := by
  subst e; exact h
theorem RestRes.All.use3 {o : RestRes} {n : Nat} (e : o = .done u n) (h : RestRes.All (Kept m s0) o) : Kept m s0 u := by
  subst e; exact h

theorem SendRes.All.sent_ (h : Kept m s0 t) : SendRes.All (Kept m s0) (.sent t) := h
theorem SendRes.All.wait_ : SendRes.All (Kept m s0) (.wait) := True.intro
theorem SendRes.All.fail_ {n0 : Nat} (h : Kept m s0 t) : SendRes.All (Kept m s0) (.fail n0 t) := h
theorem RollRes.All.ok_ (h : Kept m s0 t) : RollRes.All (Kept m s0) (.ok t) := h
theorem RollRes.All.wait_ (h : Kept m s0 t) : RollRes.All (Kept m s0) (.wait t) := h
theorem CollRes.All.ok_ (h : Kept m s0 t) : CollRes.All (Kept m s0) (.ok t) := h
theorem CollRes.All.later_ (h : Kept m s0 t) : CollRes.All (Kept m s0) (.later t) := h
theorem CollRes.All.fail_ {n0 : Nat} : CollRes.All (Kept m s0) (.fail n0) := True.intro
theorem Fetch.All.got_ {i0 : Rv} {n1 : Nat} (h : Kept m s0 t) : Fetch.All (Kept m s0) (.got i0 n1 t) := h
theorem Fetch.All.wait_ {n0 : Nat} : Fetch.All (Kept m s0) (.wait n0) := True.intro
theorem Fetch.All.bad_ {n0 : Nat} {n1 : Nat} : Fetch.All (Kept m s0) (.bad n0 n1) := True.intro
theorem ImageRead.All.got_ {b0 : List Byte} (h : Kept m s0 t) : ImageRead.All (Kept m s0) (.got b0 t) := h
theorem ImageRead.All.wait_ {n0 : Nat} : ImageRead.All (Kept m s0) (.wait n0) := True.intro
theorem ImageRead.All.failed_ {n0 : Nat} : ImageRead.All (Kept m s0) (.failed n0) := True.intro
theorem ImgRange.All.ready_ {b0 : List Byte} (h : Kept m s0 t) : ImgRange.All (Kept m s0) (.ready b0 t) := h
theorem ImgRange.All.busy_ (h : Kept m s0 t) : ImgRange.All (Kept m s0) (.busy t) := h
theorem ImgRange.All.failed_ {n0 : Nat} (h : Kept m s0 t) : ImgRange.All (Kept m s0) (.failed n0 t) := h
theorem ImgRes.All.busy_ (h : Kept m s0 t) : ImgRes.All (Kept m s0) (.busy t) := h
theorem ImgRes.All.next_ {f1 : ImgFetch} (h : Kept m s0 t) : ImgRes.All (Kept m s0) (.next t f1) := h
theorem ImgRes.All.noImage_ (h : Kept m s0 t) : ImgRes.All (Kept m s0) (.noImage t) := h
theorem ImgRes.All.failed_ {n1 : Nat} {n2 : Nat} (h : Kept m s0 t) : ImgRes.All (Kept m s0) (.failed t n1 n2) := h
theorem ImgRes.All.done_ {f1 : ImgFetch} (h : Kept m s0 t) : ImgRes.All (Kept m s0) (.done t f1) := h
theorem RestRes.All.busy_ (h : Kept m s0 t) : RestRes.All (Kept m s0) (.busy t) := h
theorem RestRes.All.noImage_ (h : Kept m s0 t) : RestRes.All (Kept m s0) (.noImage t) := h
theorem RestRes.All.failed_ {n1 : Nat} {n2 : Nat} (h : Kept m s0 t) : RestRes.All (Kept m s0) (.failed t n1 n2) := h
theorem RestRes.All.done_ {n1 : Nat} (h : Kept m s0 t) : RestRes.All (Kept m s0) (.done t n1) := h
theorem VmRes.All.ok_ (h : Kept m s0 t) : VmRes.All (Kept m s0) (.ok t) := h
theorem VmRes.All.okPair {α : Type} {a : α} (h : Kept m s0 t) : VmRes.All (fun p : α × State => Kept m s0 p.2) (.ok (a, t)) := h
theorem VmRes.All.wait_ {α : Type} {P : α → Prop} {v : Nat} : VmRes.All P (.wait v) := True.intro
theorem VmRes.All.hold_ {α : Type} {P : α → Prop} : VmRes.All P .hold := True.intro
theorem VmRes.All.bad_ {α : Type} {P : α → Prop} {r v : Nat} : VmRes.All P (.bad r v) := True.intro
theorem AllO.somePair {α : Type} {a : α} (h : Kept m s0 t) : AllO (fun p : α × State => Kept m s0 p.2) (some (a, t)) := h
theorem AllO.mapPair {α : Type} {a : α} {o : Option State} (h : AllO (Kept m s0) o) :
    AllO (fun p : α × State => Kept m s0 p.2) (o.map fun t => (a, t)) := by
  cases o <;> exact h

theorem AllO.bind_ {o : Option State} {f : State → Option State} (h : AllO (Kept m s0) o)
    (hf : ∀ t, Kept m s0 t → AllO (Kept m s0) (f t)) : AllO (Kept m s0) (o.bind f) := by
  cases o with
  | none => exact h
  | some t => exact hf t h

theorem AllO.someTriple {α β : Type} {a : α} {b : β} (h : Kept m s0 t) :
    AllO (fun p : α × β × State => Kept m s0 p.2.2) (some (a, b, t)) := h
theorem Kept.ofSomeTriple {α β : Type} {a : α} {b : β} {o : Option (α × β × State)} (e : o = some (a, b, u))
    (h : AllO (fun p => Kept m s0 p.2.2) o) : Kept m s0 u := by subst e; exact h

theorem Kept.getD_ {o : Option State} (h : AllO (Kept m s0) o) (k : Kept m s0 t) : Kept m s0 (o.getD t) := by
  cases o with
  | none => exact k
  | some u => exact h

end Sys2Proof.Machine
end

