-- ==== Sys2Proof/Laws/KeptOps.lean ====
section
/-!
SUPPORT. What the operations of Sys2Proof/Machine/Ops.lean keep (Laws/Kept.lean).
-/
namespace Sys2Proof.Machine

theorem State.putCtx_kept {m : Nat} {s0 s : State} {c : Nat} {x : Ctx} (hm : 0x40 &&& m = 0x40) (h : Kept m s0 s) :
     Kept m s0 (State.putCtx s c x) := by
  have hdef : @State.putCtx = @State.putCtx := rfl
  conv at hdef => rhs; delta State.putCtx
  rw [congrFun (congrFun (congrFun hdef s) c) x]; clear hdef
  repeat' first
    | with_reducible assumption
    | with_reducible refine Kept.ite ?_ ?_
    | (extract_lets -underBinder +onlyGivenNames x; subst x)
    | split
    | with_reducible refine Kept.ctxs (Mask.sub hm (by decide)) ?_ _
    | dsimp only

theorem State.modCtx_kept {m : Nat} {s0 s : State} {c : Nat} {f : Ctx → Ctx} (hm : 0x40 &&& m = 0x40) (h : Kept m s0 s) :
     Kept m s0 (State.modCtx s c f) := by
  have hdef : @State.modCtx = @State.modCtx := rfl
  conv at hdef => rhs; delta State.modCtx
  rw [congrFun (congrFun (congrFun hdef s) c) f]; clear hdef
  repeat' first
    | with_reducible assumption
    | with_reducible refine State.putCtx_kept (Mask.sub hm (by decide)) ?_
    | with_reducible refine Kept.ite ?_ ?_
    | (extract_lets -underBinder +onlyGivenNames x; subst x)
    | split
    | dsimp only

theorem State.putAu_kept {m : Nat} {s0 s : State} {n : Nat} {a : Au} (hm : 0x80 &&& m = 0x80) (h : Kept m s0 s) :
     Kept m s0 (State.putAu s n a) := by
  have hdef : @State.putAu = @State.putAu := rfl
  conv at hdef => rhs; delta State.putAu
  rw [congrFun (congrFun (congrFun hdef s) n) a]; clear hdef
  repeat' first
    | with_reducible assumption
    | with_reducible refine Kept.ite ?_ ?_
    | (extract_lets -underBinder +onlyGivenNames x; subst x)
    | split
    | with_reducible refine Kept.aus (Mask.sub hm (by decide)) ?_ _
    | dsimp only

theorem State.modAu_kept {m : Nat} {s0 s : State} {n : Nat} {f : Au → Au} (hm : 0x80 &&& m = 0x80) (h : Kept m s0 s) :
     Kept m s0 (State.modAu s n f) := by
  have hdef : @State.modAu = @State.modAu := rfl
  conv at hdef => rhs; delta State.modAu
  rw [congrFun (congrFun (congrFun hdef s) n) f]; clear hdef
  repeat' first
    | with_reducible assumption
    | with_reducible refine State.putAu_kept (Mask.sub hm (by decide)) ?_
    | with_reducible refine Kept.ite ?_ ?_
    | (extract_lets -underBinder +onlyGivenNames x; subst x)
    | split
    | dsimp only

theorem State.modFn_kept {m : Nat} {s0 s : State} {f : Nat} {g : Fn → Fn} (hm : 0x20 &&& m = 0x20) (h : Kept m s0 s) :
     Kept m s0 (State.modFn s f g) := by
  have hdef : @State.modFn = @State.modFn := rfl
  conv at hdef => rhs; delta State.modFn
  rw [congrFun (congrFun (congrFun hdef s) f) g]; clear hdef
  repeat' first
    | with_reducible assumption
    | with_reducible refine Kept.ite ?_ ?_
    | (extract_lets -underBinder +onlyGivenNames x; subst x)
    | split
    | with_reducible refine Kept.fns (Mask.sub hm (by decide)) ?_ _
    | dsimp only

theorem State.modPort_kept {m : Nat} {s0 s : State} {p : Nat} {g : HostPort → HostPort} (hm : 0x10 &&& m = 0x10) (h : Kept m s0 s) :
     Kept m s0 (State.modPort s p g) := by
  have hdef : @State.modPort = @State.modPort := rfl
  conv at hdef => rhs; delta State.modPort
  rw [congrFun (congrFun (congrFun hdef s) p) g]; clear hdef
  repeat' first
    | with_reducible assumption
    | with_reducible refine Kept.ite ?_ ?_
    | (extract_lets -underBinder +onlyGivenNames x; subst x)
    | split
    | with_reducible refine Kept.ports (Mask.sub hm (by decide)) ?_ _
    | dsimp only

theorem State.putSem_kept {m : Nat} {s0 s : State} {n : Nat} {x : Sem} (hm : 0x200 &&& m = 0x200) (h : Kept m s0 s) :
     Kept m s0 (State.putSem s n x) := by
  have hdef : @State.putSem = @State.putSem := rfl
  conv at hdef => rhs; delta State.putSem
  rw [congrFun (congrFun (congrFun hdef s) n) x]; clear hdef
  repeat' first
    | with_reducible assumption
    | with_reducible refine Kept.ite ?_ ?_
    | (extract_lets -underBinder +onlyGivenNames x; subst x)
    | split
    | with_reducible refine Kept.sems (Mask.sub hm (by decide)) ?_ _
    | dsimp only

theorem State.at_kept {m : Nat} {s0 s : State} {t : Nat} (hm : 0x8000 &&& m = 0x8000) (h : Kept m s0 s) :
     Kept m s0 (State.at s t) := by
  exact Kept.now hm h _ fun _ => Nat.le_max_left _ _

theorem State.pick_kept {m : Nat} {s0 s : State} (hm : 0x10000 &&& m = 0x10000) (h : Kept m s0 s) :
     Kept m s0 (State.pick s).2 := by
  exact Kept.free hm h _

theorem State.total_kept {m : Nat} {s0 s : State} {i : Nat} {n : Nat} (hm : 0x800 &&& m = 0x800) (h : Kept m s0 s) :
     Kept m s0 (State.total s i n) := by
  exact Kept.totals hm h _ _

theorem State.setFld_kept {m : Nat} {s0 s : State} {k : Nat} {hi : Nat} {lo : Nat} {v : Nat} (hm : 0x8 &&& m = 0x8) (h : Kept m s0 s) :
     Kept m s0 (State.setFld s k hi lo v) := by
  exact Kept.regs hm h _ (rgCanon_rgWrite _ _ _)

theorem State.setReg_kept {m : Nat} {s0 s : State} {k : Nat} {v : Nat} (hm : 0x8 &&& m = 0x8) (h : Kept m s0 s) :
     Kept m s0 (State.setReg s k v) := by
  exact Kept.regs hm h _ (rgCanon_rgWrite _ _ _)

theorem State.softReg_kept {m : Nat} {s0 s : State} {k : Nat} {v : Nat} (hm : 0x8 &&& m = 0x8) (h : Kept m s0 s) :
     Kept m s0 (State.softReg s k v) := by
  exact Kept.regs hm h _ (rgCanon_rgWrite _ _ _)

theorem State.count_kept {m : Nat} {s0 s : State} {k : Nat} {hi : Nat} {lo : Nat} {n : Nat} (hm : 0x8 &&& m = 0x8) (h : Kept m s0 s) :
     Kept m s0 (State.count s k hi lo n) := by
  have hdef : @State.count = @State.count := rfl
  conv at hdef => rhs; delta State.count
  rw [congrFun (congrFun (congrFun (congrFun (congrFun hdef s) k) hi) lo) n]; clear hdef
  repeat' first
    | with_reducible assumption
    | with_reducible refine State.setFld_kept (Mask.sub hm (by decide)) ?_
    | with_reducible refine Kept.ite ?_ ?_
    | (extract_lets -underBinder +onlyGivenNames x; subst x)
    | split
    | dsimp only

theorem State.flagCount_kept {m : Nat} {s0 s : State} {kf : Nat} {bitn : Nat} {kc : Nat} {hi : Nat} {lo : Nat} (hm : 0x8 &&& m = 0x8) (h : Kept m s0 s) :
     Kept m s0 (State.flagCount s kf bitn kc hi lo) := by
  have hdef : @State.flagCount = @State.flagCount := rfl
  conv at hdef => rhs; delta State.flagCount
  rw [congrFun (congrFun (congrFun (congrFun (congrFun (congrFun hdef s) kf) bitn) kc) hi) lo]; clear hdef
  repeat' first
    | with_reducible assumption
    | with_reducible refine State.count_kept (Mask.sub hm (by decide)) ?_
    | with_reducible refine State.setFld_kept (Mask.sub hm (by decide)) ?_
    | with_reducible refine Kept.ite ?_ ?_
    | (extract_lets -underBinder +onlyGivenNames x; subst x)
    | split
    | dsimp only

theorem State.setReg64_kept {m : Nat} {s0 s : State} {kl : Nat} {kh : Nat} {v : Nat} (hm : 0x8 &&& m = 0x8) (h : Kept m s0 s) :
     Kept m s0 (State.setReg64 s kl kh v) := by
  have hdef : @State.setReg64 = @State.setReg64 := rfl
  conv at hdef => rhs; delta State.setReg64
  rw [congrFun (congrFun (congrFun (congrFun hdef s) kl) kh) v]; clear hdef
  repeat' first
    | with_reducible assumption
    | with_reducible refine State.setReg_kept (Mask.sub hm (by decide)) ?_
    | with_reducible refine Kept.ite ?_ ?_
    | (extract_lets -underBinder +onlyGivenNames x; subst x)
    | split
    | dsimp only

theorem State.dropRegs_kept {m : Nat} {s0 s : State} {a : Nat} {b : Nat} (hm : 0x8 &&& m = 0x8) (h : Kept m s0 s) :
     Kept m s0 (State.dropRegs s a b) := by
  exact Kept.regs hm h _ (rgCanon_filter _ _)

theorem State.hostWrite_kept {m : Nat} {s0 s : State} {p : Nat} {a : Nat} {bs : List Byte} (hm : 0x1 &&& m = 0x1) (h : Kept m s0 s) :
     Kept m s0 (State.hostWrite s p a bs) := by
  unfold State.hostWrite
  split
  · exact Kept.host hm h _ fun hw => wf_wrBytes _ _ _ hw
  · exact h

theorem State.fire_kept {m : Nat} {s0 s : State} {f : Nat} {v : Nat} (hm : 0x9 &&& m = 0x9) (h : Kept m s0 s) :
     Kept m s0 (State.fire s f v) := by
  have hdef : @State.fire = @State.fire := rfl
  conv at hdef => rhs; delta State.fire
  rw [congrFun (congrFun (congrFun hdef s) f) v]; clear hdef
  repeat' first
    | with_reducible assumption
    | with_reducible refine State.hostWrite_kept (Mask.sub hm (by decide)) ?_
    | with_reducible refine State.setFld_kept (Mask.sub hm (by decide)) ?_
    | with_reducible refine Kept.ite ?_ ?_
    | (extract_lets -underBinder +onlyGivenNames x; subst x)
    | split
    | dsimp only

theorem State.evtPut_kept {m : Nat} {s0 s : State} {f : Nat} {code : Nat} {ctxByte : Nat} {payload : List Byte} (hm : 0x9 &&& m = 0x9) (h : Kept m s0 s) :
     Kept m s0 (State.evtPut s f code ctxByte payload) := by
  have hdef : @State.evtPut = @State.evtPut := rfl
  conv at hdef => rhs; delta State.evtPut
  rw [congrFun (congrFun (congrFun (congrFun (congrFun hdef s) f) code) ctxByte) payload]; clear hdef
  repeat' first
    | with_reducible assumption
    | with_reducible refine State.fire_kept (Mask.sub hm (by decide)) ?_
    | with_reducible refine State.hostWrite_kept (Mask.sub hm (by decide)) ?_
    | with_reducible refine State.setFld_kept (Mask.sub hm (by decide)) ?_
    | with_reducible refine Kept.ite ?_ ?_
    | (extract_lets -underBinder +onlyGivenNames x; subst x)
    | split
    | dsimp only

theorem State.evtSend_kept {m : Nat} {s0 s : State} {f : Nat} {code : Nat} {ctxByte : Nat} {payload : List Byte} (hm : 0x829 &&& m = 0x829) (h : Kept m s0 s) :
     Kept m s0 (State.evtSend s f code ctxByte payload) := by
  have hdef : @State.evtSend = @State.evtSend := rfl
  conv at hdef => rhs; delta State.evtSend
  rw [congrFun (congrFun (congrFun (congrFun (congrFun hdef s) f) code) ctxByte) payload]; clear hdef
  repeat' first
    | with_reducible assumption
    | with_reducible refine State.evtPut_kept (Mask.sub hm (by decide)) ?_
    | with_reducible refine State.count_kept (Mask.sub hm (by decide)) ?_
    | with_reducible refine State.total_kept (Mask.sub hm (by decide)) ?_
    | with_reducible refine State.modFn_kept (Mask.sub hm (by decide)) ?_
    | with_reducible refine Kept.ite ?_ ?_
    | (extract_lets -underBinder +onlyGivenNames x; subst x)
    | split
    | dsimp only

theorem State.evtReturned_kept {m : Nat} {s0 s : State} {f : Nat} (hm : 0x29 &&& m = 0x29) (h : Kept m s0 s) :
     Kept m s0 (State.evtReturned s f) := by
  have hdef : @State.evtReturned = @State.evtReturned := rfl
  conv at hdef => rhs; delta State.evtReturned
  rw [congrFun (congrFun hdef s) f]; clear hdef
  repeat' first
    | with_reducible assumption
    | with_reducible refine State.evtPut_kept (Mask.sub hm (by decide)) ?_
    | with_reducible refine State.modFn_kept (Mask.sub hm (by decide)) ?_
    | with_reducible refine Kept.ite ?_ ?_
    | (extract_lets -underBinder +onlyGivenNames x; subst x)
    | split
    | dsimp only

theorem State.raiseF_kept {m : Nat} {s0 s : State} {code : Nat} {r : Route} {pay : Nat → List (Nat × Nat × Nat)} (hm : 0x829 &&& m = 0x829) (h : Kept m s0 s) :
     Kept m s0 (State.raiseF s code r pay) := by
  have hdef : @State.raiseF = @State.raiseF := rfl
  conv at hdef => rhs; delta State.raiseF
  rw [congrFun (congrFun (congrFun (congrFun hdef s) code) r) pay]; clear hdef
  repeat' first
    | with_reducible assumption
    | with_reducible refine State.evtSend_kept (Mask.sub hm (by decide)) ?_
    | with_reducible refine Kept.ite ?_ ?_
    | (extract_lets -underBinder +onlyGivenNames x; subst x)
    | split
    | dsimp only

theorem State.raise_kept {m : Nat} {s0 s : State} {code : Nat} {r : Route} {pay : List (Nat × Nat × Nat)} (hm : 0x829 &&& m = 0x829) (h : Kept m s0 s) :
     Kept m s0 (State.raise s code r pay) := by
  have hdef : @State.raise = @State.raise := rfl
  conv at hdef => rhs; delta State.raise
  rw [congrFun (congrFun (congrFun (congrFun hdef s) code) r) pay]; clear hdef
  repeat' first
    | with_reducible assumption
    | with_reducible refine State.raiseF_kept (Mask.sub hm (by decide)) ?_
    | with_reducible refine Kept.ite ?_ ?_
    | (extract_lets -underBinder +onlyGivenNames x; subst x)
    | split
    | dsimp only

theorem State.irqStep_kept {m : Nat} {s0 s : State} {c : Nat} (hm : 0x49 &&& m = 0x49) (h : Kept m s0 s) :
     Kept m s0 (State.irqStep s c) := by
  have hdef : @State.irqStep = @State.irqStep := rfl
  conv at hdef => rhs; delta State.irqStep
  rw [congrFun (congrFun hdef s) c]; clear hdef
  repeat' first
    | with_reducible assumption
    | with_reducible refine State.fire_kept (Mask.sub hm (by decide)) ?_
    | with_reducible refine State.putCtx_kept (Mask.sub hm (by decide)) ?_
    | with_reducible refine Kept.getD_ ?_ ?_
    | with_reducible refine Kept.ite ?_ ?_
    | (extract_lets -underBinder +onlyGivenNames x; subst x)
    | split
    | dsimp only

theorem State.cplWrite_kept {m : Nat} {s0 s : State} {c : Nat} {cmd : Cmd} {status : Nat} {result : Nat} (hm : 0x849 &&& m = 0x849) (h : Kept m s0 s) :
     Kept m s0 (State.cplWrite s c cmd status result) := by
  have hdef : @State.cplWrite = @State.cplWrite := rfl
  conv at hdef => rhs; delta State.cplWrite
  rw [congrFun (congrFun (congrFun (congrFun (congrFun hdef s) c) cmd) status) result]; clear hdef
  repeat' first
    | with_reducible assumption
    | with_reducible refine State.irqStep_kept (Mask.sub hm (by decide)) ?_
    | with_reducible refine State.hostWrite_kept (Mask.sub hm (by decide)) ?_
    | with_reducible refine State.flagCount_kept (Mask.sub hm (by decide)) ?_
    | with_reducible refine State.total_kept (Mask.sub hm (by decide)) ?_
    | with_reducible refine State.modCtx_kept (Mask.sub hm (by decide)) ?_
    | with_reducible refine Kept.ite ?_ ?_
    | (extract_lets -underBinder +onlyGivenNames x; subst x)
    | split
    | dsimp only

theorem State.complete_kept {m : Nat} {s0 s : State} {c : Nat} {k : Nat} {status : Nat} {result : Nat} (hm : 0x849 &&& m = 0x849) (h : Kept m s0 s) :
     Kept m s0 (State.complete s c k status result) := by
  have hdef : @State.complete = @State.complete := rfl
  conv at hdef => rhs; delta State.complete
  rw [congrFun (congrFun (congrFun (congrFun (congrFun hdef s) c) k) status) result]; clear hdef
  repeat' first
    | with_reducible assumption
    | with_reducible refine State.cplWrite_kept (Mask.sub hm (by decide)) ?_
    | with_reducible refine State.modCtx_kept (Mask.sub hm (by decide)) ?_
    | with_reducible refine Kept.ite ?_ ?_
    | (extract_lets -underBinder +onlyGivenNames x; subst x)
    | split
    | dsimp only

theorem State.setPhase_kept {m : Nat} {s0 s : State} {c : Nat} {k : Nat} {ph : CmdPhase} (hm : 0x40 &&& m = 0x40) (h : Kept m s0 s) :
     Kept m s0 (State.setPhase s c k ph) := by
  have hdef : @State.setPhase = @State.setPhase := rfl
  conv at hdef => rhs; delta State.setPhase
  rw [congrFun (congrFun (congrFun (congrFun hdef s) c) k) ph]; clear hdef
  repeat' first
    | with_reducible assumption
    | with_reducible refine State.modCtx_kept (Mask.sub hm (by decide)) ?_
    | with_reducible refine Kept.ite ?_ ?_
    | (extract_lets -underBinder +onlyGivenNames x; subst x)
    | split
    | dsimp only

theorem State.completeAll_kept {m : Nat} {s0 s : State} {c : Nat} {status : Nat} {result : Cmd → Nat} (hm : 0x849 &&& m = 0x849) (h : Kept m s0 s) :
     Kept m s0 (State.completeAll s c status result) := by
  have hdef : @State.completeAll = @State.completeAll := rfl
  conv at hdef => rhs; delta State.completeAll
  rw [congrFun (congrFun (congrFun (congrFun hdef s) c) status) result]; clear hdef
  repeat' first
    | with_reducible assumption
    | with_reducible refine State.cplWrite_kept (Mask.sub hm (by decide)) ?_
    | with_reducible refine State.modCtx_kept (Mask.sub hm (by decide)) ?_
    | with_reducible refine Kept.foldl (fun _ _ _ => ?_) _ ?_
    | with_reducible refine Kept.ite ?_ ?_
    | (extract_lets -underBinder +onlyGivenNames x; subst x)
    | split
    | dsimp only

theorem State.setFlag_kept {m : Nat} {s0 s : State} {c : Nat} {f : Nat} {v : Bool} (hm : 0x40 &&& m = 0x40) (h : Kept m s0 s) :
     Kept m s0 (State.setFlag s c f v) := by
  have hdef : @State.setFlag = @State.setFlag := rfl
  conv at hdef => rhs; delta State.setFlag
  rw [congrFun (congrFun (congrFun (congrFun hdef s) c) f) v]; clear hdef
  repeat' first
    | with_reducible assumption
    | with_reducible refine State.modCtx_kept (Mask.sub hm (by decide)) ?_
    | with_reducible refine Kept.ite ?_ ?_
    | (extract_lets -underBinder +onlyGivenNames x; subst x)
    | split
    | dsimp only

theorem State.mboxFullEvent_kept {m : Nat} {s0 s : State} {c : Nat} (hm : 0x829 &&& m = 0x829) (h : Kept m s0 s) :
     Kept m s0 (State.mboxFullEvent s c) := by
  have hdef : @State.mboxFullEvent = @State.mboxFullEvent := rfl
  conv at hdef => rhs; delta State.mboxFullEvent
  rw [congrFun (congrFun hdef s) c]; clear hdef
  repeat' first
    | with_reducible assumption
    | with_reducible refine State.raise_kept (Mask.sub hm (by decide)) ?_
    | with_reducible refine State.flagCount_kept (Mask.sub hm (by decide)) ?_
    | with_reducible refine Kept.ite ?_ ?_
    | (extract_lets -underBinder +onlyGivenNames x; subst x)
    | split
    | dsimp only

theorem State.deliverFlag_kept {m : Nat} {s0 s : State} {c : Nat} {f : Nat} {v : Bool} (hm : 0x48 &&& m = 0x48) (h : Kept m s0 s) :
     Kept m s0 (State.deliverFlag s c f v) := by
  have hdef : @State.deliverFlag = @State.deliverFlag := rfl
  conv at hdef => rhs; delta State.deliverFlag
  rw [congrFun (congrFun (congrFun (congrFun hdef s) c) f) v]; clear hdef
  repeat' first
    | with_reducible assumption
    | with_reducible refine State.setFlag_kept (Mask.sub hm (by decide)) ?_
    | with_reducible refine State.setFld_kept (Mask.sub hm (by decide)) ?_
    | with_reducible refine State.modCtx_kept (Mask.sub hm (by decide)) ?_
    | with_reducible refine Kept.ite ?_ ?_
    | (extract_lets -underBinder +onlyGivenNames x; subst x)
    | split
    | dsimp only

theorem State.denied_kept {m : Nat} {s0 s : State} {f : Nat} (hm : 0x8 &&& m = 0x8) (h : Kept m s0 s) :
     Kept m s0 (State.denied s f) := by
  have hdef : @State.denied = @State.denied := rfl
  conv at hdef => rhs; delta State.denied
  rw [congrFun (congrFun hdef s) f]; clear hdef
  repeat' first
    | with_reducible assumption
    | with_reducible refine State.setFld_kept (Mask.sub hm (by decide)) ?_
    | with_reducible refine Kept.ite ?_ ?_
    | (extract_lets -underBinder +onlyGivenNames x; subst x)
    | split
    | dsimp only

theorem State.badAccess_kept {m : Nat} {s0 s : State} {f : Nat} (hm : 0x8 &&& m = 0x8) (h : Kept m s0 s) :
     Kept m s0 (State.badAccess s f) := by
  have hdef : @State.badAccess = @State.badAccess := rfl
  conv at hdef => rhs; delta State.badAccess
  rw [congrFun (congrFun hdef s) f]; clear hdef
  repeat' first
    | with_reducible assumption
    | with_reducible refine State.setFld_kept (Mask.sub hm (by decide)) ?_
    | with_reducible refine Kept.ite ?_ ?_
    | (extract_lets -underBinder +onlyGivenNames x; subst x)
    | split
    | dsimp only

theorem State.modCtxAus_kept {m : Nat} {s0 s : State} {c : Nat} {f : Au → Au} (hm : 0x80 &&& m = 0x80) (h : Kept m s0 s) :
     Kept m s0 (State.modCtxAus s c f) := by
  have hdef : @State.modCtxAus = @State.modCtxAus := rfl
  conv at hdef => rhs; delta State.modCtxAus
  rw [congrFun (congrFun (congrFun hdef s) c) f]; clear hdef
  repeat' first
    | with_reducible assumption
    | with_reducible refine State.modAu_kept (Mask.sub hm (by decide)) ?_
    | with_reducible refine Kept.foldl (fun _ _ _ => ?_) _ ?_
    | with_reducible refine Kept.ite ?_ ?_
    | (extract_lets -underBinder +onlyGivenNames x; subst x)
    | split
    | dsimp only

end Sys2Proof.Machine
end

