-- ==== Sys2Proof/Laws/KeptVm.lean ====
section
/-!
SUPPORT. What the operations of Sys2Proof/Machine/Vm.lean keep (Laws/Kept.lean).
-/
namespace Sys2Proof.Machine

theorem wf_copySegs (src dst : Nat) (gs : List Nat) :
    ∀ (m : Mem) (have_ : List Nat), Memory.wf m = true → Memory.wf (copySegs m src dst have_ gs).1 = true := by
  induction gs with
  | nil => exact fun _ _ h => h
  | cons g gs ih =>
    intro m have_ h
    unfold copySegs
    split
    · exact ih _ _ h
    · exact ih _ _ (wf_wrBytes _ _ _ h)

theorem State.putFrame_kept {m : Nat} {s0 s : State} {f : Nat} {x : Frame} (hm : 0x4 &&& m = 0x4) (h : Kept m s0 s) :
     Kept m s0 (State.putFrame s f x) := by
  have hdef : @State.putFrame = @State.putFrame := rfl
  conv at hdef => rhs; delta State.putFrame
  rw [congrFun (congrFun (congrFun hdef s) f) x]; clear hdef
  repeat' first
    | with_reducible assumption
    | with_reducible refine Kept.ite ?_ ?_
    | (extract_lets -underBinder +onlyGivenNames x; subst x)
    | split
    | with_reducible refine Kept.mem (Mask.sub hm (by decide)) ?_ _ rfl
    | dsimp only

theorem State.allocFrame_kept {m : Nat} {s0 s : State} {mask : Nat} {owner : Option Nat} {pagedIn : Bool} (hm : 0x4 &&& m = 0x4) (h : Kept m s0 s) :
     AllO (fun p => Kept m s0 p.2) (State.allocFrame s mask owner pagedIn) := by
  have hdef : @State.allocFrame = @State.allocFrame := rfl
  conv at hdef => rhs; delta State.allocFrame
  rw [congrFun (congrFun (congrFun (congrFun hdef s) mask) owner) pagedIn]; clear hdef
  repeat' first
    | with_reducible assumption
    | with_reducible refine State.putFrame_kept (Mask.sub hm (by decide)) ?_
    | with_reducible exact AllO.none_
    | with_reducible refine AllO.somePair ?_
    | with_reducible refine AllO.mapPair ?_
    | with_reducible refine AllO.someTriple ?_
    | with_reducible refine Kept.ite ?_ ?_
    | (extract_lets -underBinder +onlyGivenNames x; subst x)
    | split
    | with_reducible refine Kept.mem (Mask.sub hm (by decide)) ?_ _ rfl
    | dsimp only

theorem State.retire_kept {m : Nat} {s0 s : State} {f : Nat} {cause : Nat} (hm : 0x82d &&& m = 0x82d) (h : Kept m s0 s) :
     Kept m s0 (State.retire s f cause) := by
  have hdef : @State.retire = @State.retire := rfl
  conv at hdef => rhs; delta State.retire
  rw [congrFun (congrFun (congrFun hdef s) f) cause]; clear hdef
  repeat' first
    | with_reducible assumption
    | with_reducible refine State.putFrame_kept (Mask.sub hm (by decide)) ?_
    | with_reducible refine State.raise_kept (Mask.sub hm (by decide)) ?_
    | with_reducible refine State.flagCount_kept (Mask.sub hm (by decide)) ?_
    | with_reducible refine Kept.ite ?_ ?_
    | (extract_lets -underBinder +onlyGivenNames x; subst x)
    | split
    | dsimp only

theorem State.freeFrame_kept {m : Nat} {s0 s : State} {f : Nat} (hm : 0x82f &&& m = 0x82f) (h : Kept m s0 s) :
     Kept m s0 (State.freeFrame s f) := by
  have hdef : @State.freeFrame = @State.freeFrame := rfl
  conv at hdef => rhs; delta State.freeFrame
  rw [congrFun (congrFun hdef s) f]; clear hdef
  repeat' first
    | exact fun hw => wf_zeroBytes _ _ _ hw
    | with_reducible assumption
    | with_reducible refine State.retire_kept (Mask.sub hm (by decide)) ?_
    | with_reducible refine State.putFrame_kept (Mask.sub hm (by decide)) ?_
    | with_reducible refine Kept.ite ?_ ?_
    | (extract_lets -underBinder +onlyGivenNames x; subst x)
    | split
    | with_reducible refine Kept.hbm (Mask.sub hm (by decide)) ?_ _ ?_
    | with_reducible refine Kept.mem (Mask.sub hm (by decide)) ?_ _ rfl
    | with_reducible refine Kept.memAll (Mask.sub hm (by decide)) ?_ _ ?_
    | dsimp only

theorem State.freeFrames_kept {m : Nat} {s0 s : State} {fs : List Nat} (hm : 0x82f &&& m = 0x82f) (h : Kept m s0 s) :
     Kept m s0 (State.freeFrames s fs) := by
  have hdef : @State.freeFrames = @State.freeFrames := rfl
  conv at hdef => rhs; delta State.freeFrames
  rw [congrFun (congrFun hdef s) fs]; clear hdef
  repeat' first
    | with_reducible assumption
    | with_reducible refine State.freeFrame_kept (Mask.sub hm (by decide)) ?_
    | with_reducible refine Kept.foldl (fun _ _ _ => ?_) _ ?_
    | with_reducible refine Kept.ite ?_ ?_
    | (extract_lets -underBinder +onlyGivenNames x; subst x)
    | split
    | dsimp only

theorem State.allocFrames_kept {m : Nat} {s0 s : State} {mask : Nat} {owner : Option Nat} {x1 : Nat} (hm : 0x4 &&& m = 0x4) (h : Kept m s0 s) :
     AllO (fun p => Kept m s0 p.2) (State.allocFrames s mask owner x1) := by
  fun_induction State.allocFrames s mask owner x1 <;> (try dsimp only at *)
  repeat' first
    | with_reducible assumption
    | with_reducible apply_assumption
    | with_reducible refine State.allocFrame_kept (Mask.sub hm (by decide)) ?_
    | with_reducible exact AllO.none_
    | with_reducible refine AllO.somePair ?_
    | with_reducible refine AllO.mapPair ?_
    | with_reducible refine AllO.someTriple ?_
    | with_reducible refine Kept.ofSomePair (by assumption) ?_
    | with_reducible refine Kept.ofSomeSnd (by assumption) ?_
    | with_reducible refine Kept.ite ?_ ?_
    | with_reducible refine Kept.iteSnd ?_ ?_
    | with_reducible refine Kept.iteFst ?_ ?_
    | (extract_lets -underBinder +onlyGivenNames x; subst x)
    | split
    | dsimp only

theorem State.takeRange_kept {m : Nat} {s0 s : State} {f : Nat} {owner : Option Nat} {x1 : Nat} (hm : 0x4 &&& m = 0x4) (h : Kept m s0 s) :
     Kept m s0 (State.takeRange s f owner x1) := by
  fun_induction State.takeRange s f owner x1 <;> (try dsimp only at *)
  repeat' first
    | with_reducible assumption
    | with_reducible apply_assumption
    | with_reducible refine State.putFrame_kept (Mask.sub hm (by decide)) ?_
    | with_reducible refine Kept.ite ?_ ?_
    | (extract_lets -underBinder +onlyGivenNames x; subst x)
    | split
    | dsimp only

theorem State.allocBig_kept {m : Nat} {s0 s : State} {mask : Nat} {owner : Option Nat} (hm : 0x4 &&& m = 0x4) (h : Kept m s0 s) :
     AllO (fun p => Kept m s0 p.2) (State.allocBig s mask owner) := by
  have hdef : @State.allocBig = @State.allocBig := rfl
  conv at hdef => rhs; delta State.allocBig
  rw [congrFun (congrFun (congrFun hdef s) mask) owner]; clear hdef
  repeat' first
    | with_reducible assumption
    | with_reducible refine State.takeRange_kept (Mask.sub hm (by decide)) ?_
    | with_reducible exact AllO.none_
    | with_reducible refine AllO.somePair ?_
    | with_reducible refine AllO.mapPair ?_
    | with_reducible refine AllO.someTriple ?_
    | with_reducible refine Kept.ite ?_ ?_
    | (extract_lets -underBinder +onlyGivenNames x; subst x)
    | split
    | with_reducible refine Kept.mem (Mask.sub hm (by decide)) ?_ _ rfl
    | dsimp only

theorem State.modPte_kept {m : Nat} {s0 s : State} {c : Nat} {k : Nat} {f : Pte → Pte} (hm : 0x40 &&& m = 0x40) (h : Kept m s0 s) :
     Kept m s0 (State.modPte s c k f) := by
  have hdef : @State.modPte = @State.modPte := rfl
  conv at hdef => rhs; delta State.modPte
  rw [congrFun (congrFun (congrFun (congrFun hdef s) c) k) f]; clear hdef
  repeat' first
    | with_reducible assumption
    | with_reducible refine State.modCtx_kept (Mask.sub hm (by decide)) ?_
    | with_reducible refine Kept.ite ?_ ?_
    | (extract_lets -underBinder +onlyGivenNames x; subst x)
    | split
    | dsimp only

theorem State.shadowFor_kept {m : Nat} {s0 s : State} {c : Nat} {k : Nat} {p : Nat} {gs : List Nat} (hm : 0x46 &&& m = 0x46) (h : Kept m s0 s) :
     AllO (Kept m s0) (State.shadowFor s c k p gs) := by
  have hdef : @State.shadowFor = @State.shadowFor := rfl
  conv at hdef => rhs; delta State.shadowFor
  rw [congrFun (congrFun (congrFun (congrFun (congrFun hdef s) c) k) p) gs]; clear hdef
  repeat' first
    | exact fun hw => wf_copySegs _ _ _ _ _ hw
    | with_reducible assumption
    | with_reducible refine State.modPte_kept (Mask.sub hm (by decide)) ?_
    | with_reducible refine State.modCtx_kept (Mask.sub hm (by decide)) ?_
    | with_reducible exact AllO.none_
    | with_reducible refine AllO.some_ ?_
    | with_reducible refine Kept.ite ?_ ?_
    | (extract_lets -underBinder +onlyGivenNames x; subst x)
    | split
    | with_reducible refine Kept.hbm (Mask.sub hm (by decide)) ?_ _ ?_
    | with_reducible refine Kept.mem (Mask.sub hm (by decide)) ?_ _ rfl
    | with_reducible refine Kept.memAll (Mask.sub hm (by decide)) ?_ _ ?_
    | dsimp only

theorem State.touch_kept {m : Nat} {s0 s : State} {c : Nat} {write : Bool} {rs : List (Nat × Nat)} (hm : 0x40 &&& m = 0x40) (h : Kept m s0 s) :
     Kept m s0 (State.touch s c write rs) := by
  have hdef : @State.touch = @State.touch := rfl
  conv at hdef => rhs; delta State.touch
  rw [congrFun (congrFun (congrFun (congrFun hdef s) c) write) rs]; clear hdef
  repeat' first
    | with_reducible assumption
    | with_reducible refine State.modPte_kept (Mask.sub hm (by decide)) ?_
    | with_reducible refine Kept.foldl (fun _ _ _ => ?_) _ ?_
    | with_reducible refine Kept.ite ?_ ?_
    | (extract_lets -underBinder +onlyGivenNames x; subst x)
    | split
    | dsimp only

theorem State.vread_kept {m : Nat} {s0 s : State} {c : Nat} {va : Nat} {n : Nat} (hm : 0x40 &&& m = 0x40) (h : Kept m s0 s) :
     VmRes.All (fun p => Kept m s0 p.2) (State.vread s c va n) := by
  have hdef : @State.vread = @State.vread := rfl
  conv at hdef => rhs; delta State.vread
  rw [congrFun (congrFun (congrFun (congrFun hdef s) c) va) n]; clear hdef
  repeat' first
    | with_reducible assumption
    | with_reducible refine State.touch_kept (Mask.sub hm (by decide)) ?_
    | with_reducible refine VmRes.All.okPair ?_
    | with_reducible exact VmRes.All.wait_
    | with_reducible exact VmRes.All.hold_
    | with_reducible exact VmRes.All.bad_
    | with_reducible refine Kept.ite ?_ ?_
    | (extract_lets -underBinder +onlyGivenNames x; subst x)
    | split
    | dsimp only

theorem State.shadowRanges_kept {m : Nat} {s0 s : State} {c : Nat} {x1 : List (Nat × Nat)} (hm : 0x46 &&& m = 0x46) (h : Kept m s0 s) :
     AllO (Kept m s0) (State.shadowRanges s c x1) := by
  fun_induction State.shadowRanges s c x1 <;> (try dsimp only at *)
  repeat' first
    | with_reducible assumption
    | with_reducible apply_assumption
    | with_reducible refine State.shadowFor_kept (Mask.sub hm (by decide)) ?_
    | with_reducible exact AllO.none_
    | with_reducible refine AllO.some_ ?_
    | with_reducible refine Kept.ofSome (by assumption) ?_
    | with_reducible refine Kept.ite ?_ ?_
    | (extract_lets -underBinder +onlyGivenNames x; subst x)
    | split
    | dsimp only

theorem State.writeRanges_kept {m : Nat} {s0 s : State} {c : Nat} {bs : List Byte} {x1 : List (Nat × Nat)} (hm : 0x6 &&& m = 0x6) (h : Kept m s0 s) :
     Kept m s0 (State.writeRanges s c bs x1) := by
  fun_induction State.writeRanges s c bs x1 <;> (try dsimp only at *)
  repeat' first
    | exact fun hw => wf_wrBytes _ _ _ hw
    | with_reducible apply_assumption
    | with_reducible assumption
    | with_reducible refine Kept.ite ?_ ?_
    | (extract_lets -underBinder +onlyGivenNames x; subst x)
    | split
    | with_reducible refine Kept.hbm (Mask.sub hm (by decide)) ?_ _ ?_
    | with_reducible refine Kept.mem (Mask.sub hm (by decide)) ?_ _ rfl
    | with_reducible refine Kept.memAll (Mask.sub hm (by decide)) ?_ _ ?_
    | dsimp only

theorem State.breakResv_kept {m : Nat} {s0 s : State} {c : Nat} {va : Nat} {n : Nat} (hm : 0x80 &&& m = 0x80) (h : Kept m s0 s) :
     Kept m s0 (State.breakResv s c va n) := by
  have hdef : @State.breakResv = @State.breakResv := rfl
  conv at hdef => rhs; delta State.breakResv
  rw [congrFun (congrFun (congrFun (congrFun hdef s) c) va) n]; clear hdef
  repeat' first
    | with_reducible assumption
    | with_reducible refine State.modAu_kept (Mask.sub hm (by decide)) ?_
    | with_reducible refine Kept.foldl (fun _ _ _ => ?_) _ ?_
    | with_reducible refine Kept.ite ?_ ?_
    | (extract_lets -underBinder +onlyGivenNames x; subst x)
    | split
    | dsimp only

theorem State.vwrite_kept {m : Nat} {s0 s : State} {c : Nat} {va : Nat} {bs : List Byte} (hm : 0xc6 &&& m = 0xc6) (h : Kept m s0 s) :
     VmRes.All (Kept m s0) (State.vwrite s c va bs) := by
  have hdef : @State.vwrite = @State.vwrite := rfl
  conv at hdef => rhs; delta State.vwrite
  rw [congrFun (congrFun (congrFun (congrFun hdef s) c) va) bs]; clear hdef
  repeat' first
    | with_reducible assumption
    | with_reducible refine State.breakResv_kept (Mask.sub hm (by decide)) ?_
    | with_reducible refine State.writeRanges_kept (Mask.sub hm (by decide)) ?_
    | with_reducible refine State.shadowRanges_kept (Mask.sub hm (by decide)) ?_
    | with_reducible refine State.touch_kept (Mask.sub hm (by decide)) ?_
    | with_reducible refine VmRes.All.ok_ ?_
    | with_reducible exact VmRes.All.wait_
    | with_reducible exact VmRes.All.hold_
    | with_reducible exact VmRes.All.bad_
    | with_reducible refine Kept.ofSome (by assumption) ?_
    | with_reducible refine Kept.ite ?_ ?_
    | (extract_lets -underBinder +onlyGivenNames x; subst x)
    | split
    | dsimp only

theorem State.hubNeeds_kept {m : Nat} {s0 s : State} {c : Nat} {rs : List (Nat × Nat)} {write : Bool} {go : State → State} (hm : 0x4 &&& m = 0x4) (h : Kept m s0 s) (h_go : ∀ a0, Kept m s0 a0 → Kept m s0 (go a0)) :
     Kept m s0 (State.hubNeeds s c rs write go) := by
  have hdef : @State.hubNeeds = @State.hubNeeds := rfl
  conv at hdef => rhs; delta State.hubNeeds
  rw [congrFun (congrFun (congrFun (congrFun (congrFun hdef s) c) rs) write) go]; clear hdef
  repeat' first
    | with_reducible assumption
    | with_reducible refine h_go _ ?_
    | with_reducible refine Kept.ite ?_ ?_
    | (extract_lets -underBinder +onlyGivenNames x; subst x)
    | split
    | with_reducible refine Kept.mem (Mask.sub hm (by decide)) ?_ _ rfl
    | dsimp only

theorem State.pokePage_kept {m : Nat} {s0 s : State} {c : Nat} {va : Nat} {bs : List Byte} (hm : 0xc7 &&& m = 0xc7) (h : Kept m s0 s) :
     Kept m s0 (State.pokePage s c va bs) := by
  have hdef : @State.pokePage = @State.pokePage := rfl
  conv at hdef => rhs; delta State.pokePage
  rw [congrFun (congrFun (congrFun (congrFun hdef s) c) va) bs]; clear hdef
  repeat' first
    | with_reducible assumption
    | with_reducible refine State.vwrite_kept (Mask.sub hm (by decide)) ?_
    | with_reducible refine State.allocFrame_kept (Mask.sub hm (by decide)) ?_
    | with_reducible refine State.modCtx_kept (Mask.sub hm (by decide)) ?_
    | with_reducible refine State.hostWrite_kept (Mask.sub hm (by decide)) ?_
    | with_reducible refine VmRes.All.use0 (by assumption) ?_
    | with_reducible refine VmRes.All.use1 (by assumption) ?_
    | with_reducible refine Kept.ofSomePair (by assumption) ?_
    | with_reducible refine Kept.ofSomeSnd (by assumption) ?_
    | with_reducible refine Kept.ite ?_ ?_
    | with_reducible refine Kept.iteSnd ?_ ?_
    | with_reducible refine Kept.iteFst ?_ ?_
    | (extract_lets -underBinder +onlyGivenNames x; subst x)
    | split
    | dsimp only

theorem State.vpoke_kept {m : Nat} {s0 s : State} {c : Nat} {va : Nat} {bs : List Byte} (hm : 0xc7 &&& m = 0xc7) (h : Kept m s0 s) :
     Kept m s0 (State.vpoke s c va bs) := by
  have hdef : @State.vpoke = @State.vpoke := rfl
  conv at hdef => rhs; delta State.vpoke
  rw [congrFun (congrFun (congrFun (congrFun hdef s) c) va) bs]; clear hdef
  repeat' first
    | with_reducible assumption
    | with_reducible refine State.pokePage_kept (Mask.sub hm (by decide)) ?_
    | with_reducible refine Kept.foldl (fun _ _ _ => ?_) _ ?_
    | with_reducible refine Kept.ite ?_ ?_
    | (extract_lets -underBinder +onlyGivenNames x; subst x)
    | split
    | dsimp only

theorem State.hubWrites_kept {m : Nat} {s0 s : State} {c : Nat} {rs : List (Nat × Nat)} {go : State → State} (hm : 0x46 &&& m = 0x46) (h : Kept m s0 s) (h_go : ∀ a0, Kept m s0 a0 → Kept m s0 (go a0)) :
     Kept m s0 (State.hubWrites s c rs go) := by
  have hdef : @State.hubWrites = @State.hubWrites := rfl
  conv at hdef => rhs; delta State.hubWrites
  rw [congrFun (congrFun (congrFun (congrFun hdef s) c) rs) go]; clear hdef
  repeat' first
    | with_reducible assumption
    | with_reducible refine State.hubNeeds_kept (Mask.sub hm (by decide)) ?_ (fun _ _ => ?_)
    | with_reducible refine State.shadowRanges_kept (Mask.sub hm (by decide)) ?_
    | with_reducible refine h_go _ ?_
    | with_reducible refine Kept.ofSome (by assumption) ?_
    | with_reducible refine Kept.ite ?_ ?_
    | (extract_lets -underBinder +onlyGivenNames x; subst x)
    | split
    | dsimp only

theorem State.want_kept {m : Nat} {s0 s : State} {w : Want} (hm : 0x4 &&& m = 0x4) (h : Kept m s0 s) :
     Kept m s0 (State.want s w) := by
  have hdef : @State.want = @State.want := rfl
  conv at hdef => rhs; delta State.want
  rw [congrFun (congrFun hdef s) w]; clear hdef
  repeat' first
    | with_reducible assumption
    | with_reducible refine Kept.ite ?_ ?_
    | (extract_lets -underBinder +onlyGivenNames x; subst x)
    | split
    | with_reducible refine Kept.mem (Mask.sub hm (by decide)) ?_ _ rfl
    | dsimp only

end Sys2Proof.Machine
end

