-- ==== Sys2Proof/Laws/KeptLinkOps.lean ====
section
/-!
SUPPORT. What the operations of Sys2Proof/Machine/LinkOps.lean keep (Laws/Kept.lean).
-/
namespace Sys2Proof.Machine

theorem State.modLport_kept {m : Nat} {s0 s : State} {p : Nat} {f : LinkPort → LinkPort} (hm : 0x100 &&& m = 0x100) (h : Kept m s0 s) :
     Kept m s0 (State.modLport s p f) := by
  have hdef : @State.modLport = @State.modLport := rfl
  conv at hdef => rhs; delta State.modLport
  rw [congrFun (congrFun (congrFun hdef s) p) f]; clear hdef
  repeat' first
    | with_reducible assumption
    | with_reducible refine Kept.ite ?_ ?_
    | (extract_lets -underBinder +onlyGivenNames x; subst x)
    | split
    | with_reducible refine Kept.links (Mask.sub hm (by decide)) ?_ _
    | dsimp only

theorem State.pumpGo_kept {m : Nat} {s0 s : State} {p : Nat} {x1 : Nat} (hm : 0x100 &&& m = 0x100) (h : Kept m s0 s) :
     Kept m s0 (State.pumpGo s p x1) := by
  fun_induction State.pumpGo s p x1 <;> (try dsimp only at *)
  repeat' first
    | with_reducible assumption
    | with_reducible apply_assumption
    | with_reducible refine State.modLport_kept (Mask.sub hm (by decide)) ?_
    | with_reducible refine Kept.ite ?_ ?_
    | (extract_lets -underBinder +onlyGivenNames x; subst x)
    | split
    | with_reducible refine Kept.links (Mask.sub hm (by decide)) ?_ _
    | dsimp only

theorem State.pump_kept {m : Nat} {s0 s : State} {p : Nat} (hm : 0x100 &&& m = 0x100) (h : Kept m s0 s) :
     Kept m s0 (State.pump s p) := by
  have hdef : @State.pump = @State.pump := rfl
  conv at hdef => rhs; delta State.pump
  rw [congrFun (congrFun hdef s) p]; clear hdef
  repeat' first
    | with_reducible assumption
    | with_reducible refine State.pumpGo_kept (Mask.sub hm (by decide)) ?_
    | with_reducible refine Kept.ite ?_ ?_
    | (extract_lets -underBinder +onlyGivenNames x; subst x)
    | split
    | dsimp only

theorem State.enqueue_kept {m : Nat} {s0 s : State} {p : Nat} {t : LTxn} {slot : Option Nat} (hm : 0x100 &&& m = 0x100) (h : Kept m s0 s) :
     Kept m s0 (State.enqueue s p t slot) := by
  have hdef : @State.enqueue = @State.enqueue := rfl
  conv at hdef => rhs; delta State.enqueue
  rw [congrFun (congrFun (congrFun (congrFun hdef s) p) t) slot]; clear hdef
  repeat' first
    | with_reducible assumption
    | with_reducible refine State.pump_kept (Mask.sub hm (by decide)) ?_
    | with_reducible refine State.modLport_kept (Mask.sub hm (by decide)) ?_
    | with_reducible refine Kept.ite ?_ ?_
    | (extract_lets -underBinder +onlyGivenNames x; subst x)
    | split
    | dsimp only

theorem State.deliver_kept {m : Nat} {s0 s : State} {p : Nat} {t : LTxn} (hm : 0x100 &&& m = 0x100) (h : Kept m s0 s) :
     Kept m s0 (State.deliver s p t) := by
  have hdef : @State.deliver = @State.deliver := rfl
  conv at hdef => rhs; delta State.deliver
  rw [congrFun (congrFun (congrFun hdef s) p) t]; clear hdef
  repeat' first
    | with_reducible assumption
    | with_reducible refine Kept.ite ?_ ?_
    | (extract_lets -underBinder +onlyGivenNames x; subst x)
    | split
    | with_reducible refine Kept.links (Mask.sub hm (by decide)) ?_ _
    | dsimp only

theorem State.sendFree_kept {m : Nat} {s0 s : State} {t : LTxn} (hm : 0x108 &&& m = 0x108) (h : Kept m s0 s) :
     Kept m s0 (State.sendFree s t) := by
  have hdef : @State.sendFree = @State.sendFree := rfl
  conv at hdef => rhs; delta State.sendFree
  rw [congrFun (congrFun hdef s) t]; clear hdef
  repeat' first
    | with_reducible assumption
    | with_reducible refine State.deliver_kept (Mask.sub hm (by decide)) ?_
    | with_reducible refine State.enqueue_kept (Mask.sub hm (by decide)) ?_
    | with_reducible refine State.count_kept (Mask.sub hm (by decide)) ?_
    | with_reducible refine Kept.ite ?_ ?_
    | (extract_lets -underBinder +onlyGivenNames x; subst x)
    | split
    | dsimp only

theorem State.answer__kept {m : Nat} {s0 s : State} {t : LTxn} {op : Nat} {status : Nat} {offset : Nat} {data : List Byte} (hm : 0x108 &&& m = 0x108) (h : Kept m s0 s) :
     Kept m s0 (State.answer_ s t op status offset data) := by
  have hdef : @State.answer_ = @State.answer_ := rfl
  conv at hdef => rhs; delta State.answer_
  rw [congrFun (congrFun (congrFun (congrFun (congrFun (congrFun hdef s) t) op) status) offset) data]; clear hdef
  repeat' first
    | with_reducible assumption
    | with_reducible refine State.sendFree_kept (Mask.sub hm (by decide)) ?_
    | with_reducible refine Kept.ite ?_ ?_
    | (extract_lets -underBinder +onlyGivenNames x; subst x)
    | split
    | dsimp only

theorem State.sendTxn_kept {m : Nat} {s0 s : State} {user : TxnUser} {c : Nat} {op : Nat} {dst : Nat} {handle : Nat} {offset : Nat} {length : Nat} {data : List Byte} {args : List Byte} {vc : Nat} {bufs : Nat × Nat} (hm : 0x108 &&& m = 0x108) (h : Kept m s0 s) :
     SendRes.All (Kept m s0) (State.sendTxn s user c op dst handle offset length data args vc bufs) := by
  have hdef : @State.sendTxn = @State.sendTxn := rfl
  conv at hdef => rhs; delta State.sendTxn
  rw [congrFun (congrFun (congrFun (congrFun (congrFun (congrFun (congrFun (congrFun (congrFun (congrFun (congrFun (congrFun hdef s) user) c) op) dst) handle) offset) length) data) args) vc) bufs]; clear hdef
  repeat' first
    | with_reducible assumption
    | with_reducible refine State.deliver_kept (Mask.sub hm (by decide)) ?_
    | with_reducible refine State.enqueue_kept (Mask.sub hm (by decide)) ?_
    | with_reducible refine State.count_kept (Mask.sub hm (by decide)) ?_
    | with_reducible refine SendRes.All.sent_ ?_
    | with_reducible refine SendRes.All.wait_
    | with_reducible refine SendRes.All.fail_ ?_
    | with_reducible refine Kept.ite ?_ ?_
    | (extract_lets -underBinder +onlyGivenNames x; subst x)
    | split
    | with_reducible refine Kept.links (Mask.sub hm (by decide)) ?_ _
    | dsimp only

theorem State.modEntry_kept {m : Nat} {s0 s : State} {c : Nat} {i : Nat} {f : LinkEntry → LinkEntry} (hm : 0x40 &&& m = 0x40) (h : Kept m s0 s) :
     Kept m s0 (State.modEntry s c i f) := by
  have hdef : @State.modEntry = @State.modEntry := rfl
  conv at hdef => rhs; delta State.modEntry
  rw [congrFun (congrFun (congrFun (congrFun hdef s) c) i) f]; clear hdef
  repeat' first
    | with_reducible assumption
    | with_reducible refine State.modCtx_kept (Mask.sub hm (by decide)) ?_
    | with_reducible refine Kept.ite ?_ ?_
    | (extract_lets -underBinder +onlyGivenNames x; subst x)
    | split
    | dsimp only

theorem State.modRcv_kept {m : Nat} {s0 s : State} {id : Nat} {r : Nat} {f : Rcv → Rcv} (hm : 0x4 &&& m = 0x4) (h : Kept m s0 s) :
     Kept m s0 (State.modRcv s id r f) := by
  have hdef : @State.modRcv = @State.modRcv := rfl
  conv at hdef => rhs; delta State.modRcv
  rw [congrFun (congrFun (congrFun (congrFun hdef s) id) r) f]; clear hdef
  repeat' first
    | with_reducible assumption
    | with_reducible refine Kept.ite ?_ ?_
    | (extract_lets -underBinder +onlyGivenNames x; subst x)
    | split
    | with_reducible refine Kept.mem (Mask.sub hm (by decide)) ?_ _ rfl
    | dsimp only

theorem State.txnNote_kept {m : Nat} {s0 s : State} {u_ : TxnUser} {status : Nat} {off : Nat} (hm : 0x44 &&& m = 0x44) (h : Kept m s0 s) :
     Kept m s0 (State.txnNote s u_ status off) := by
  have hdef : @State.txnNote = @State.txnNote := rfl
  conv at hdef => rhs; delta State.txnNote
  rw [congrFun (congrFun (congrFun (congrFun hdef s) u_) status) off]; clear hdef
  repeat' first
    | with_reducible assumption
    | with_reducible refine State.modRcv_kept (Mask.sub hm (by decide)) ?_
    | with_reducible refine State.modEntry_kept (Mask.sub hm (by decide)) ?_
    | with_reducible refine State.modCtx_kept (Mask.sub hm (by decide)) ?_
    | with_reducible refine Kept.getD_ ?_ ?_
    | with_reducible refine Kept.ite ?_ ?_
    | (extract_lets -underBinder +onlyGivenNames x; subst x)
    | split
    | dsimp only

theorem State.finishTxn_kept {m : Nat} {s0 s : State} {k : Nat} {status : Nat} {off : Nat} (hm : 0x144 &&& m = 0x144) (h : Kept m s0 s) :
     Kept m s0 (State.finishTxn s k status off) := by
  have e : @State.finishTxn = @State.finishTxn := rfl
  conv at e => rhs; delta State.finishTxn
  rw [e]; clear e; try dsimp only
  split
  · exact h
  · with_reducible refine State.modCtx_kept (Mask.sub hm (by decide)) (State.txnNote_kept (Mask.sub hm (by decide)) ?_)
    exact h.memLinks (Mask.sub hm (by decide)) _ (by rfl) _

theorem State.dropFlits_kept {m : Nat} {s0 s : State} {k : Nat} (hm : 0x100 &&& m = 0x100) (h : Kept m s0 s) :
     Kept m s0 (State.dropFlits s k) := by
  have hdef : @State.dropFlits = @State.dropFlits := rfl
  conv at hdef => rhs; delta State.dropFlits
  rw [congrFun (congrFun hdef s) k]; clear hdef
  repeat' first
    | with_reducible assumption
    | with_reducible refine State.modLport_kept (Mask.sub hm (by decide)) ?_
    | with_reducible refine Kept.ite ?_ ?_
    | (extract_lets -underBinder +onlyGivenNames x; subst x)
    | split
    | dsimp only

theorem State.abortTxn_kept {m : Nat} {s0 s : State} {k : Nat} (hm : 0x108 &&& m = 0x108) (h : Kept m s0 s) :
     Kept m s0 (State.abortTxn s k) := by
  have hdef : @State.abortTxn = @State.abortTxn := rfl
  conv at hdef => rhs; delta State.abortTxn
  rw [congrFun (congrFun hdef s) k]; clear hdef
  repeat' first
    | with_reducible assumption
    | with_reducible refine State.dropFlits_kept (Mask.sub hm (by decide)) ?_
    | with_reducible refine State.sendFree_kept (Mask.sub hm (by decide)) ?_
    | with_reducible refine Kept.ite ?_ ?_
    | (extract_lets -underBinder +onlyGivenNames x; subst x)
    | split
    | dsimp only

theorem State.portQuiet_kept {m : Nat} {s0 s : State} {p : Nat} {st : PortState} (hm : 0x144 &&& m = 0x144) (h : Kept m s0 s) :
     Kept m s0 (State.portQuiet s p st) := by
  have hdef : @State.portQuiet = @State.portQuiet := rfl
  conv at hdef => rhs; delta State.portQuiet
  rw [congrFun (congrFun (congrFun hdef s) p) st]; clear hdef
  repeat' first
    | with_reducible assumption
    | with_reducible refine State.finishTxn_kept (Mask.sub hm (by decide)) ?_
    | with_reducible refine State.modLport_kept (Mask.sub hm (by decide)) ?_
    | with_reducible refine Kept.foldl (fun _ _ _ => ?_) _ ?_
    | with_reducible refine Kept.ite ?_ ?_
    | (extract_lets -underBinder +onlyGivenNames x; subst x)
    | split
    | dsimp only

theorem State.leaveUp_kept {m : Nat} {s0 s : State} {p : Nat} {reason : Nat} {st : PortState} (hm : 0x96d &&& m = 0x96d) (h : Kept m s0 s) :
     Kept m s0 (State.leaveUp s p reason st) := by
  have hdef : @State.leaveUp = @State.leaveUp := rfl
  conv at hdef => rhs; delta State.leaveUp
  rw [congrFun (congrFun (congrFun (congrFun hdef s) p) reason) st]; clear hdef
  repeat' first
    | with_reducible assumption
    | with_reducible refine State.portQuiet_kept (Mask.sub hm (by decide)) ?_
    | with_reducible refine State.modLport_kept (Mask.sub hm (by decide)) ?_
    | with_reducible refine State.raise_kept (Mask.sub hm (by decide)) ?_
    | with_reducible refine State.total_kept (Mask.sub hm (by decide)) ?_
    | with_reducible refine State.count_kept (Mask.sub hm (by decide)) ?_
    | with_reducible refine State.setFld_kept (Mask.sub hm (by decide)) ?_
    | with_reducible refine Kept.ite ?_ ?_
    | (extract_lets -underBinder +onlyGivenNames x; subst x)
    | split
    | dsimp only

theorem State.writeEntry_kept {m : Nat} {s0 s : State} {c : Nat} {i : Nat} {status : Nat} {failOff : Nat} {st : Nat} (hm : 0xc7 &&& m = 0xc7) (h : Kept m s0 s) :
     Kept m s0 (State.writeEntry s c i status failOff st) := by
  have hdef : @State.writeEntry = @State.writeEntry := rfl
  conv at hdef => rhs; delta State.writeEntry
  rw [congrFun (congrFun (congrFun (congrFun (congrFun (congrFun hdef s) c) i) status) failOff) st]; clear hdef
  repeat' first
    | with_reducible assumption
    | with_reducible refine State.vpoke_kept (Mask.sub hm (by decide)) ?_
    | with_reducible refine Kept.ite ?_ ?_
    | (extract_lets -underBinder +onlyGivenNames x; subst x)
    | split
    | dsimp only

theorem State.sendCollAborts_kept {m : Nat} {s0 s : State} {c : Nat} {g : Nat} {collSeq : Nat} {status : Nat} (hm : 0x108 &&& m = 0x108) (h : Kept m s0 s) :
     Kept m s0 (State.sendCollAborts s c g collSeq status) := by
  have hdef : @State.sendCollAborts = @State.sendCollAborts := rfl
  conv at hdef => rhs; delta State.sendCollAborts
  rw [congrFun (congrFun (congrFun (congrFun (congrFun hdef s) c) g) collSeq) status]; clear hdef
  repeat' first
    | with_reducible assumption
    | with_reducible refine State.sendFree_kept (Mask.sub hm (by decide)) ?_
    | with_reducible refine Kept.foldl (fun _ _ _ => ?_) _ ?_
    | with_reducible refine Kept.ite ?_ ?_
    | (extract_lets -underBinder +onlyGivenNames x; subst x)
    | split
    | dsimp only

theorem State.collFailed_kept {m : Nat} {s0 s : State} {c : Nat} {g : Nat} {status : Nat} {collSeq : Nat} (hm : 0x829 &&& m = 0x829) (h : Kept m s0 s) :
     Kept m s0 (State.collFailed s c g status collSeq) := by
  have hdef : @State.collFailed = @State.collFailed := rfl
  conv at hdef => rhs; delta State.collFailed
  rw [congrFun (congrFun (congrFun (congrFun (congrFun hdef s) c) g) status) collSeq]; clear hdef
  repeat' first
    | with_reducible assumption
    | with_reducible refine State.raise_kept (Mask.sub hm (by decide)) ?_
    | with_reducible refine State.flagCount_kept (Mask.sub hm (by decide)) ?_
    | with_reducible refine Kept.ite ?_ ?_
    | (extract_lets -underBinder +onlyGivenNames x; subst x)
    | split
    | dsimp only

theorem State.failEntry_kept {m : Nat} {s0 s : State} {c : Nat} {i : Nat} {status : Nat} {failOff : Nat} {tell : Bool} (hm : 0x9ef &&& m = 0x9ef) (h : Kept m s0 s) :
     Kept m s0 (State.failEntry s c i status failOff tell) := by
  have hdef : @State.failEntry = @State.failEntry := rfl
  conv at hdef => rhs; delta State.failEntry
  rw [congrFun (congrFun (congrFun (congrFun (congrFun (congrFun hdef s) c) i) status) failOff) tell]; clear hdef
  repeat' first
    | with_reducible assumption
    | with_reducible refine State.collFailed_kept (Mask.sub hm (by decide)) ?_
    | with_reducible refine State.sendCollAborts_kept (Mask.sub hm (by decide)) ?_
    | with_reducible refine State.writeEntry_kept (Mask.sub hm (by decide)) ?_
    | with_reducible refine State.abortTxn_kept (Mask.sub hm (by decide)) ?_
    | with_reducible refine State.finishTxn_kept (Mask.sub hm (by decide)) ?_
    | with_reducible refine State.modCtx_kept (Mask.sub hm (by decide)) ?_
    | with_reducible refine Kept.foldl (fun _ _ _ => ?_) _ ?_
    | with_reducible refine Kept.ite ?_ ?_
    | (extract_lets -underBinder +onlyGivenNames x; subst x)
    | split
    | dsimp only

theorem State.putRcvStatus_kept {m : Nat} {s0 s : State} {x : RollerXfer} {r : Nat} {v : Rcv} {st : Nat} (hm : 0xc7 &&& m = 0xc7) (h : Kept m s0 s) :
     Kept m s0 (State.putRcvStatus s x r v st) := by
  have hdef : @State.putRcvStatus = @State.putRcvStatus := rfl
  conv at hdef => rhs; delta State.putRcvStatus
  rw [congrFun (congrFun (congrFun (congrFun (congrFun hdef s) x) r) v) st]; clear hdef
  repeat' first
    | with_reducible assumption
    | with_reducible refine State.vpoke_kept (Mask.sub hm (by decide)) ?_
    | with_reducible refine Kept.ite ?_ ?_
    | (extract_lets -underBinder +onlyGivenNames x; subst x)
    | split
    | dsimp only

theorem State.failRcv_kept {m : Nat} {s0 s : State} {id : Nat} {r : Nat} {status : Nat} (hm : 0x8ef &&& m = 0x8ef) (h : Kept m s0 s) :
     Kept m s0 (State.failRcv s id r status) := by
  have hdef : @State.failRcv = @State.failRcv := rfl
  conv at hdef => rhs; delta State.failRcv
  rw [congrFun (congrFun (congrFun (congrFun hdef s) id) r) status]; clear hdef
  repeat' first
    | with_reducible assumption
    | with_reducible refine State.putRcvStatus_kept (Mask.sub hm (by decide)) ?_
    | with_reducible refine State.modRcv_kept (Mask.sub hm (by decide)) ?_
    | with_reducible refine State.raise_kept (Mask.sub hm (by decide)) ?_
    | with_reducible refine State.flagCount_kept (Mask.sub hm (by decide)) ?_
    | with_reducible refine Kept.getD_ ?_ ?_
    | with_reducible refine Kept.ite ?_ ?_
    | (extract_lets -underBinder +onlyGivenNames x; subst x)
    | split
    | dsimp only

theorem State.rememberTseq_kept {m : Nat} {s0 s : State} {org : Nat} {tseq : Nat} (hm : 0x100 &&& m = 0x100) (h : Kept m s0 s) :
     Kept m s0 (State.rememberTseq s org tseq) := by
  have hdef : @State.rememberTseq = @State.rememberTseq := rfl
  conv at hdef => rhs; delta State.rememberTseq
  rw [congrFun (congrFun (congrFun hdef s) org) tseq]; clear hdef
  repeat' first
    | with_reducible assumption
    | with_reducible refine Kept.ite ?_ ?_
    | (extract_lets -underBinder +onlyGivenNames x; subst x)
    | split
    | with_reducible refine Kept.links (Mask.sub hm (by decide)) ?_ _
    | dsimp only

theorem State.settle_kept {m : Nat} {s0 s : State} {id : Nat} {op : Nat} {status : Nat} {off : Nat} {data : List Byte} (hm : 0x108 &&& m = 0x108) (h : Kept m s0 s) :
     Kept m s0 (State.settle s id op status off data) := by
  have hdef : @State.settle = @State.settle := rfl
  conv at hdef => rhs; delta State.settle
  rw [congrFun (congrFun (congrFun (congrFun (congrFun (congrFun hdef s) id) op) status) off) data]; clear hdef
  repeat' first
    | with_reducible assumption
    | with_reducible refine State.rememberTseq_kept (Mask.sub hm (by decide)) ?_
    | with_reducible refine State.answer__kept (Mask.sub hm (by decide)) ?_
    | with_reducible refine Kept.ite ?_ ?_
    | (extract_lets -underBinder +onlyGivenNames x; subst x)
    | split
    | with_reducible refine Kept.links (Mask.sub hm (by decide)) ?_ _
    | dsimp only

theorem State.settleDown_kept {m : Nat} {s0 s : State} {id : Nat} {w : Window} {a : Accept} (hm : 0x1cf &&& m = 0x1cf) (h : Kept m s0 s) :
     Kept m s0 (State.settleDown s id w a) := by
  have hdef : @State.settleDown = @State.settleDown := rfl
  conv at hdef => rhs; delta State.settleDown
  rw [congrFun (congrFun (congrFun (congrFun hdef s) id) w) a]; clear hdef
  repeat' first
    | with_reducible assumption
    | with_reducible refine State.settle_kept (Mask.sub hm (by decide)) ?_
    | with_reducible refine State.vpoke_kept (Mask.sub hm (by decide)) ?_
    | with_reducible refine Kept.ite ?_ ?_
    | (extract_lets -underBinder +onlyGivenNames x; subst x)
    | split
    | dsimp only

theorem State.closeWindows_kept {m : Nat} {s0 s : State} {c : Nat} (hm : 0x1cf &&& m = 0x1cf) (h : Kept m s0 s) :
     Kept m s0 (State.closeWindows s c) := by
  have hdef : @State.closeWindows = @State.closeWindows := rfl
  conv at hdef => rhs; delta State.closeWindows
  rw [congrFun (congrFun hdef s) c]; clear hdef
  repeat' first
    | with_reducible assumption
    | with_reducible refine State.settleDown_kept (Mask.sub hm (by decide)) ?_
    | with_reducible refine Kept.foldl (fun _ _ _ => ?_) _ ?_
    | with_reducible refine Kept.ite ?_ ?_
    | (extract_lets -underBinder +onlyGivenNames x; subst x)
    | split
    | with_reducible refine Kept.links (Mask.sub hm (by decide)) ?_ _
    | dsimp only

theorem State.abandonTxns_kept {m : Nat} {s0 s : State} {c : Nat} (hm : 0x14c &&& m = 0x14c) (h : Kept m s0 s) :
     Kept m s0 (State.abandonTxns s c) := by
  have hdef : @State.abandonTxns = @State.abandonTxns := rfl
  conv at hdef => rhs; delta State.abandonTxns
  rw [congrFun (congrFun hdef s) c]; clear hdef
  repeat' first
    | with_reducible assumption
    | with_reducible refine State.abortTxn_kept (Mask.sub hm (by decide)) ?_
    | with_reducible refine State.finishTxn_kept (Mask.sub hm (by decide)) ?_
    | with_reducible refine Kept.foldl (fun _ _ _ => ?_) _ ?_
    | with_reducible refine Kept.ite ?_ ?_
    | (extract_lets -underBinder +onlyGivenNames x; subst x)
    | split
    | dsimp only

theorem State.abandonHub_kept {m : Nat} {s0 s : State} {c : Nat} (hm : 0x14c &&& m = 0x14c) (h : Kept m s0 s) :
     Kept m s0 (State.abandonHub s c) := by
  have hdef : @State.abandonHub = @State.abandonHub := rfl
  conv at hdef => rhs; delta State.abandonHub
  rw [congrFun (congrFun hdef s) c]; clear hdef
  repeat' first
    | with_reducible assumption
    | with_reducible refine State.abortTxn_kept (Mask.sub hm (by decide)) ?_
    | with_reducible refine State.finishTxn_kept (Mask.sub hm (by decide)) ?_
    | with_reducible refine Kept.foldl (fun _ _ _ => ?_) _ ?_
    | with_reducible refine Kept.ite ?_ ?_
    | (extract_lets -underBinder +onlyGivenNames x; subst x)
    | split
    | dsimp only

theorem State.failEntries_kept {m : Nat} {s0 s : State} {c : Nat} {status : Nat} (hm : 0x9ef &&& m = 0x9ef) (h : Kept m s0 s) :
     Kept m s0 (State.failEntries s c status) := by
  have hdef : @State.failEntries = @State.failEntries := rfl
  conv at hdef => rhs; delta State.failEntries
  rw [congrFun (congrFun (congrFun hdef s) c) status]; clear hdef
  repeat' first
    | with_reducible assumption
    | with_reducible refine State.failEntry_kept (Mask.sub hm (by decide)) ?_
    | with_reducible refine State.modCtx_kept (Mask.sub hm (by decide)) ?_
    | with_reducible refine Kept.foldl (fun _ _ _ => ?_) _ ?_
    | with_reducible refine Kept.ite ?_ ?_
    | (extract_lets -underBinder +onlyGivenNames x; subst x)
    | split
    | dsimp only

theorem State.failRollers_kept {m : Nat} {s0 s : State} {c : Nat} (hm : 0x8ef &&& m = 0x8ef) (h : Kept m s0 s) :
     Kept m s0 (State.failRollers s c) := by
  have hdef : @State.failRollers = @State.failRollers := rfl
  conv at hdef => rhs; delta State.failRollers
  rw [congrFun (congrFun hdef s) c]; clear hdef
  repeat' first
    | with_reducible assumption
    | with_reducible refine State.failRcv_kept (Mask.sub hm (by decide)) ?_
    | with_reducible refine Kept.foldl (fun _ _ _ => ?_) _ ?_
    | with_reducible refine Kept.ite ?_ ?_
    | (extract_lets -underBinder +onlyGivenNames x; subst x)
    | split
    | with_reducible refine Kept.mem (Mask.sub hm (by decide)) ?_ _ rfl
    | dsimp only

end Sys2Proof.Machine
end

