-- ==== Sys2Proof/Laws/KeptTeardown.lean ====
section
/-!
SUPPORT. What the operations of Sys2Proof/Machine/Teardown.lean keep (Laws/Kept.lean).
-/
namespace Sys2Proof.Machine

theorem State.stopClock_kept {m : Nat} {s0 s : State} {c : Nat} (hm : 0x48 &&& m = 0x48) (h : Kept m s0 s) :
     Kept m s0 (State.stopClock s c) := by
  have hdef : @State.stopClock = @State.stopClock := rfl
  conv at hdef => rhs; delta State.stopClock
  rw [congrFun (congrFun hdef s) c]; clear hdef
  repeat' first
    | with_reducible assumption
    | with_reducible refine State.setReg64_kept (Mask.sub hm (by decide)) ?_
    | with_reducible refine State.putCtx_kept (Mask.sub hm (by decide)) ?_
    | with_reducible refine Kept.ite ?_ ?_
    | (extract_lets -underBinder +onlyGivenNames x; subst x)
    | split
    | dsimp only

theorem State.enter_kept {m : Nat} {s0 s : State} {c : Nat} {st : CtxState} (hm : 0x48 &&& m = 0x48) (h : Kept m s0 s) :
     Kept m s0 (State.enter s c st) := by
  have hdef : @State.enter = @State.enter := rfl
  conv at hdef => rhs; delta State.enter
  rw [congrFun (congrFun (congrFun hdef s) c) st]; clear hdef
  repeat' first
    | with_reducible assumption
    | with_reducible refine State.stopClock_kept (Mask.sub hm (by decide)) ?_
    | with_reducible refine State.modCtx_kept (Mask.sub hm (by decide)) ?_
    | with_reducible refine Kept.ite ?_ ?_
    | (extract_lets -underBinder +onlyGivenNames x; subst x)
    | split
    | dsimp only

theorem State.clearAu_kept {m : Nat} {s0 s : State} {n : Nat} (hm : 0x80 &&& m = 0x80) (h : Kept m s0 s) :
     Kept m s0 (State.clearAu s n) := by
  have hdef : @State.clearAu = @State.clearAu := rfl
  conv at hdef => rhs; delta State.clearAu
  rw [congrFun (congrFun hdef s) n]; clear hdef
  repeat' first
    | with_reducible assumption
    | with_reducible refine State.modAu_kept (Mask.sub hm (by decide)) ?_
    | with_reducible refine Kept.ite ?_ ?_
    | (extract_lets -underBinder +onlyGivenNames x; subst x)
    | split
    | dsimp only

theorem State.dropWaits_kept {m : Nat} {s0 s : State} {c : Nat} (hm : 0x200 &&& m = 0x200) (h : Kept m s0 s) :
     Kept m s0 (State.dropWaits s c) := by
  have hdef : @State.dropWaits = @State.dropWaits := rfl
  conv at hdef => rhs; delta State.dropWaits
  rw [congrFun (congrFun hdef s) c]; clear hdef
  repeat' first
    | with_reducible assumption
    | with_reducible refine Kept.ite ?_ ?_
    | (extract_lets -underBinder +onlyGivenNames x; subst x)
    | split
    | with_reducible refine Kept.sems (Mask.sub hm (by decide)) ?_ _
    | dsimp only

theorem State.freeSeg_kept {m : Nat} {s0 s : State} {id : Nat} (hm : 0x84 &&& m = 0x84) (h : Kept m s0 s) :
     Kept m s0 (State.freeSeg s id) := by
  have hdef : @State.freeSeg = @State.freeSeg := rfl
  conv at hdef => rhs; delta State.freeSeg
  rw [congrFun (congrFun hdef s) id]; clear hdef
  repeat' first
    | with_reducible assumption
    | with_reducible refine State.modAu_kept (Mask.sub hm (by decide)) ?_
    | with_reducible refine Kept.ite ?_ ?_
    | (extract_lets -underBinder +onlyGivenNames x; subst x)
    | split
    | with_reducible refine Kept.mem (Mask.sub hm (by decide)) ?_ _ rfl
    | dsimp only

theorem State.dropSegs_kept {m : Nat} {s0 s : State} {c : Nat} (hm : 0x84 &&& m = 0x84) (h : Kept m s0 s) :
     Kept m s0 (State.dropSegs s c) := by
  have hdef : @State.dropSegs = @State.dropSegs := rfl
  conv at hdef => rhs; delta State.dropSegs
  rw [congrFun (congrFun hdef s) c]; clear hdef
  repeat' first
    | with_reducible assumption
    | with_reducible refine State.freeSeg_kept (Mask.sub hm (by decide)) ?_
    | with_reducible refine Kept.foldl (fun _ _ _ => ?_) _ ?_
    | with_reducible refine Kept.ite ?_ ?_
    | (extract_lets -underBinder +onlyGivenNames x; subst x)
    | split
    | dsimp only

theorem State.stopAgents_kept {m : Nat} {s0 s : State} {c : Nat} (hm : 0x2c4 &&& m = 0x2c4) (h : Kept m s0 s) :
     Kept m s0 (State.stopAgents s c) := by
  have hdef : @State.stopAgents = @State.stopAgents := rfl
  conv at hdef => rhs; delta State.stopAgents
  rw [congrFun (congrFun hdef s) c]; clear hdef
  repeat' first
    | with_reducible assumption
    | with_reducible refine State.dropSegs_kept (Mask.sub hm (by decide)) ?_
    | with_reducible refine State.dropWaits_kept (Mask.sub hm (by decide)) ?_
    | with_reducible refine State.clearAu_kept (Mask.sub hm (by decide)) ?_
    | with_reducible refine State.modCtx_kept (Mask.sub hm (by decide)) ?_
    | with_reducible refine Kept.foldl (fun _ _ _ => ?_) _ ?_
    | with_reducible refine Kept.ite ?_ ?_
    | (extract_lets -underBinder +onlyGivenNames x; subst x)
    | split
    | with_reducible refine Kept.mem (Mask.sub hm (by decide)) ?_ _ rfl
    | dsimp only

theorem State.abandonSems_kept {m : Nat} {s0 s : State} {c : Nat} (hm : 0xa29 &&& m = 0xa29) (h : Kept m s0 s) :
     Kept m s0 (State.abandonSems s c) := by
  have hdef : @State.abandonSems = @State.abandonSems := rfl
  conv at hdef => rhs; delta State.abandonSems
  rw [congrFun (congrFun hdef s) c]; clear hdef
  repeat' first
    | with_reducible assumption
    | with_reducible refine State.raise_kept (Mask.sub hm (by decide)) ?_
    | with_reducible refine State.putSem_kept (Mask.sub hm (by decide)) ?_
    | with_reducible refine Kept.foldl (fun _ _ _ => ?_) _ ?_
    | with_reducible refine Kept.ite ?_ ?_
    | (extract_lets -underBinder +onlyGivenNames x; subst x)
    | split
    | dsimp only

theorem State.modDust_kept {m : Nat} {s0 s : State} {c : Nat} {f : DustSt → DustSt} (hm : 0x40 &&& m = 0x40) (h : Kept m s0 s) :
     Kept m s0 (State.modDust s c f) := by
  have hdef : @State.modDust = @State.modDust := rfl
  conv at hdef => rhs; delta State.modDust
  rw [congrFun (congrFun (congrFun hdef s) c) f]; clear hdef
  repeat' first
    | with_reducible assumption
    | with_reducible refine State.modCtx_kept (Mask.sub hm (by decide)) ?_
    | with_reducible refine Kept.ite ?_ ?_
    | (extract_lets -underBinder +onlyGivenNames x; subst x)
    | split
    | dsimp only

theorem State.dropSecuring_kept {m : Nat} {s0 s : State} {c : Nat} (hm : 0x48 &&& m = 0x48) (h : Kept m s0 s) :
     Kept m s0 (State.dropSecuring s c) := by
  have hdef : @State.dropSecuring = @State.dropSecuring := rfl
  conv at hdef => rhs; delta State.dropSecuring
  rw [congrFun (congrFun hdef s) c]; clear hdef
  repeat' first
    | with_reducible assumption
    | with_reducible refine State.modDust_kept (Mask.sub hm (by decide)) ?_
    | with_reducible refine State.setFld_kept (Mask.sub hm (by decide)) ?_
    | with_reducible refine State.modCtx_kept (Mask.sub hm (by decide)) ?_
    | with_reducible refine Kept.ite ?_ ?_
    | (extract_lets -underBinder +onlyGivenNames x; subst x)
    | split
    | dsimp only

theorem State.abandonSecuring_kept {m : Nat} {s0 s : State} {c : Nat} (hm : 0x14c &&& m = 0x14c) (h : Kept m s0 s) :
     Kept m s0 (State.abandonSecuring s c) := by
  have hdef : @State.abandonSecuring = @State.abandonSecuring := rfl
  conv at hdef => rhs; delta State.abandonSecuring
  rw [congrFun (congrFun hdef s) c]; clear hdef
  repeat' first
    | with_reducible assumption
    | with_reducible refine State.dropSecuring_kept (Mask.sub hm (by decide)) ?_
    | with_reducible refine State.finishTxn_kept (Mask.sub hm (by decide)) ?_
    | with_reducible refine State.abortTxn_kept (Mask.sub hm (by decide)) ?_
    | with_reducible refine Kept.foldl (fun _ _ _ => ?_) _ ?_
    | with_reducible refine Kept.ite ?_ ?_
    | (extract_lets -underBinder +onlyGivenNames x; subst x)
    | split
    | dsimp only

theorem State.quiesce_kept {m : Nat} {s0 s : State} {c : Nat} {code : Nat} (hm : 0xfef &&& m = 0xfef) (h : Kept m s0 s) :
     Kept m s0 (State.quiesce s c code) := by
  have hdef : @State.quiesce = @State.quiesce := rfl
  conv at hdef => rhs; delta State.quiesce
  rw [congrFun (congrFun (congrFun hdef s) c) code]; clear hdef
  repeat' first
    | with_reducible assumption
    | with_reducible refine State.abandonSems_kept (Mask.sub hm (by decide)) ?_
    | with_reducible refine State.stopAgents_kept (Mask.sub hm (by decide)) ?_
    | with_reducible refine State.stopClock_kept (Mask.sub hm (by decide)) ?_
    | with_reducible refine State.completeAll_kept (Mask.sub hm (by decide)) ?_
    | with_reducible refine State.failRollers_kept (Mask.sub hm (by decide)) ?_
    | with_reducible refine State.failEntries_kept (Mask.sub hm (by decide)) ?_
    | with_reducible refine State.abandonTxns_kept (Mask.sub hm (by decide)) ?_
    | with_reducible refine State.modCtx_kept (Mask.sub hm (by decide)) ?_
    | with_reducible refine Kept.ite ?_ ?_
    | (extract_lets -underBinder +onlyGivenNames x; subst x)
    | split
    | with_reducible refine Kept.solver (Mask.sub hm (by decide)) ?_ _
    | dsimp only

theorem State.tearDown_kept {m : Nat} {s0 s : State} {c : Nat} {code : Nat} {n : Nat} (hm : 0xfef &&& m = 0xfef) (h : Kept m s0 s) :
     Kept m s0 (State.tearDown s c code n) := by
  have hdef : @State.tearDown = @State.tearDown := rfl
  conv at hdef => rhs; delta State.tearDown
  rw [congrFun (congrFun (congrFun (congrFun hdef s) c) code) n]; clear hdef
  repeat' first
    | with_reducible assumption
    | with_reducible refine State.quiesce_kept (Mask.sub hm (by decide)) ?_
    | with_reducible refine State.enter_kept (Mask.sub hm (by decide)) ?_
    | with_reducible refine State.count_kept (Mask.sub hm (by decide)) ?_
    | with_reducible refine State.modAu_kept (Mask.sub hm (by decide)) ?_
    | with_reducible refine State.closeWindows_kept (Mask.sub hm (by decide)) ?_
    | with_reducible refine State.total_kept (Mask.sub hm (by decide)) ?_
    | with_reducible refine State.setFld_kept (Mask.sub hm (by decide)) ?_
    | with_reducible refine State.raise_kept (Mask.sub hm (by decide)) ?_
    | with_reducible refine Kept.ite ?_ ?_
    | (extract_lets -underBinder +onlyGivenNames x; subst x)
    | split
    | dsimp only

theorem State.faultCtx_kept {m : Nat} {s0 s : State} {c : Nat} {code : Nat} {n : Nat} {pay : List (Nat × Nat × Nat)} (hm : 0xfef &&& m = 0xfef) (h : Kept m s0 s) :
     Kept m s0 (State.faultCtx s c code n pay) := by
  have hdef : @State.faultCtx = @State.faultCtx := rfl
  conv at hdef => rhs; delta State.faultCtx
  rw [congrFun (congrFun (congrFun (congrFun (congrFun hdef s) c) code) n) pay]; clear hdef
  repeat' first
    | with_reducible assumption
    | with_reducible refine State.tearDown_kept (Mask.sub hm (by decide)) ?_
    | with_reducible refine State.raise_kept (Mask.sub hm (by decide)) ?_
    | with_reducible refine Kept.ite ?_ ?_
    | (extract_lets -underBinder +onlyGivenNames x; subst x)
    | split
    | dsimp only

theorem State.memFault_kept {m : Nat} {s0 s : State} {c : Nat} {reason : Nat} {agent : Nat} {n : Nat} {write : Bool} {va : Nat} (hm : 0xfef &&& m = 0xfef) (h : Kept m s0 s) :
     Kept m s0 (State.memFault s c reason agent n write va) := by
  have hdef : @State.memFault = @State.memFault := rfl
  conv at hdef => rhs; delta State.memFault
  rw [congrFun (congrFun (congrFun (congrFun (congrFun (congrFun (congrFun hdef s) c) reason) agent) n) write) va]; clear hdef
  repeat' first
    | with_reducible assumption
    | with_reducible refine State.faultCtx_kept (Mask.sub hm (by decide)) ?_
    | with_reducible refine State.setReg_kept (Mask.sub hm (by decide)) ?_
    | with_reducible refine State.count_kept (Mask.sub hm (by decide)) ?_
    | with_reducible refine Kept.ite ?_ ?_
    | (extract_lets -underBinder +onlyGivenNames x; subst x)
    | split
    | dsimp only

end Sys2Proof.Machine
end

