-- ==== Sys2Proof/Laws/KeptPlace.lean ====
section
/-!
SUPPORT. What the operations of Sys2Proof/Machine/Place.lean keep (Laws/Kept.lean).
-/
namespace Sys2Proof.Machine

theorem State.saveAus_kept {m : Nat} {s0 s : State} {c : Nat} (hm : 0xc0 &&& m = 0xc0) (h : Kept m s0 s) :
     Kept m s0 (State.saveAus s c) := by
  have hdef : @State.saveAus = @State.saveAus := rfl
  conv at hdef => rhs; delta State.saveAus
  rw [congrFun (congrFun hdef s) c]; clear hdef
  repeat' first
    | with_reducible assumption
    | with_reducible refine State.clearAu_kept (Mask.sub hm (by decide)) ?_
    | with_reducible refine State.modCtx_kept (Mask.sub hm (by decide)) ?_
    | with_reducible refine Kept.foldl (fun _ _ _ => ?_) _ ?_
    | with_reducible refine Kept.ite ?_ ?_
    | (extract_lets -underBinder +onlyGivenNames x; subst x)
    | split
    | dsimp only

theorem State.beginPreempt_kept {m : Nat} {s0 s : State} {c : Nat} {cause : Cause} (hm : 0x48 &&& m = 0x48) (h : Kept m s0 s) :
     Kept m s0 (State.beginPreempt s c cause) := by
  have hdef : @State.beginPreempt = @State.beginPreempt := rfl
  conv at hdef => rhs; delta State.beginPreempt
  rw [congrFun (congrFun (congrFun hdef s) c) cause]; clear hdef
  repeat' first
    | with_reducible assumption
    | with_reducible refine State.count_kept (Mask.sub hm (by decide)) ?_
    | with_reducible refine State.enter_kept (Mask.sub hm (by decide)) ?_
    | with_reducible refine State.modCtx_kept (Mask.sub hm (by decide)) ?_
    | with_reducible refine Kept.ite ?_ ?_
    | (extract_lets -underBinder +onlyGivenNames x; subst x)
    | split
    | dsimp only

theorem State.endPreempt_kept {m : Nat} {s0 s : State} {c : Nat} (hm : 0x8e9 &&& m = 0x8e9) (h : Kept m s0 s) :
     Kept m s0 (State.endPreempt s c) := by
  have hdef : @State.endPreempt = @State.endPreempt := rfl
  conv at hdef => rhs; delta State.endPreempt
  rw [congrFun (congrFun hdef s) c]; clear hdef
  repeat' first
    | with_reducible assumption
    | with_reducible refine State.saveAus_kept (Mask.sub hm (by decide)) ?_
    | with_reducible refine State.enter_kept (Mask.sub hm (by decide)) ?_
    | with_reducible refine State.raise_kept (Mask.sub hm (by decide)) ?_
    | with_reducible refine Kept.ite ?_ ?_
    | (extract_lets -underBinder +onlyGivenNames x; subst x)
    | split
    | dsimp only

theorem State.restoreAus_kept {m : Nat} {s0 s : State} {c : Nat} (hm : 0xc0 &&& m = 0xc0) (h : Kept m s0 s) :
     Kept m s0 (State.restoreAus s c) := by
  have hdef : @State.restoreAus = @State.restoreAus := rfl
  conv at hdef => rhs; delta State.restoreAus
  rw [congrFun (congrFun hdef s) c]; clear hdef
  repeat' first
    | with_reducible assumption
    | with_reducible refine State.modCtx_kept (Mask.sub hm (by decide)) ?_
    | with_reducible refine State.putAu_kept (Mask.sub hm (by decide)) ?_
    | with_reducible refine Kept.foldl (fun _ _ _ => ?_) _ ?_
    | with_reducible refine Kept.ite ?_ ?_
    | (extract_lets -underBinder +onlyGivenNames x; subst x)
    | split
    | dsimp only

theorem State.endResume_kept {m : Nat} {s0 s : State} {c : Nat} (hm : 0x8e9 &&& m = 0x8e9) (h : Kept m s0 s) :
     Kept m s0 (State.endResume s c) := by
  have hdef : @State.endResume = @State.endResume := rfl
  conv at hdef => rhs; delta State.endResume
  rw [congrFun (congrFun hdef s) c]; clear hdef
  repeat' first
    | with_reducible assumption
    | with_reducible refine State.restoreAus_kept (Mask.sub hm (by decide)) ?_
    | with_reducible refine State.enter_kept (Mask.sub hm (by decide)) ?_
    | with_reducible refine State.setFld_kept (Mask.sub hm (by decide)) ?_
    | with_reducible refine State.modCtx_kept (Mask.sub hm (by decide)) ?_
    | with_reducible refine State.raise_kept (Mask.sub hm (by decide)) ?_
    | with_reducible refine Kept.foldl (fun _ _ _ => ?_) _ ?_
    | with_reducible refine Kept.ite ?_ ?_
    | (extract_lets -underBinder +onlyGivenNames x; subst x)
    | split
    | dsimp only

theorem State.takePlace_kept {m : Nat} {s0 s : State} {c : Nat} {p : Map Nat} {trigger : Nat} {force : Bool} (hm : 0x8e9 &&& m = 0x8e9) (h : Kept m s0 s) :
     Kept m s0 (State.takePlace s c p trigger force) := by
  have hdef : @State.takePlace = @State.takePlace := rfl
  conv at hdef => rhs; delta State.takePlace
  rw [congrFun (congrFun (congrFun (congrFun (congrFun hdef s) c) p) trigger) force]; clear hdef
  repeat' first
    | with_reducible assumption
    | with_reducible refine State.putAu_kept (Mask.sub hm (by decide)) ?_
    | with_reducible refine State.modCtx_kept (Mask.sub hm (by decide)) ?_
    | with_reducible refine State.raise_kept (Mask.sub hm (by decide)) ?_
    | with_reducible refine Kept.foldl (fun _ _ _ => ?_) _ ?_
    | with_reducible refine Kept.ite ?_ ?_
    | (extract_lets -underBinder +onlyGivenNames x; subst x)
    | split
    | dsimp only

theorem State.displaceUntil_kept {m : Nat} {s0 s : State} {c : Nat} {n : Nat} {bufs : List LbufRec} {own : List Nat} {x1 : List Nat} (hm : 0x8e9 &&& m = 0x8e9) (h : Kept m s0 s) :
     AllO (fun p => Kept m s0 p.2) (State.displaceUntil s c n bufs own x1) := by
  induction x1 generalizing s with
  | nil =>
    rw [State.displaceUntil]
    cases s.placeAus c n bufs (s.freeFor c own) with
    | none => exact True.intro
    | some p => exact h
  | cons v vs ih =>
    rw [State.displaceUntil]
    cases s.placeAus c n bufs (s.freeFor c own) with
    | none => exact ih (State.endPreempt_kept (Mask.sub hm (by decide)) (State.beginPreempt_kept (Mask.sub hm (by decide)) h))
    | some p => exact h

theorem State.findPlace_kept {m : Nat} {s0 s : State} {c : Nat} {n : Nat} {bufs : List LbufRec} {own : List Nat} {sem : Option Nat} (hm : 0x8e9 &&& m = 0x8e9) (h : Kept m s0 s) :
     AllO (fun p => Kept m s0 p.2) (State.findPlace s c n bufs own sem) := by
  have hdef : @State.findPlace = @State.findPlace := rfl
  conv at hdef => rhs; delta State.findPlace
  rw [congrFun (congrFun (congrFun (congrFun (congrFun (congrFun hdef s) c) n) bufs) own) sem]; clear hdef
  repeat' first
    | with_reducible assumption
    | with_reducible refine State.displaceUntil_kept (Mask.sub hm (by decide)) ?_
    | with_reducible exact AllO.none_
    | with_reducible refine AllO.somePair ?_
    | with_reducible refine AllO.mapPair ?_
    | with_reducible refine AllO.someTriple ?_
    | with_reducible refine Kept.ofSomePair (by assumption) ?_
    | with_reducible refine Kept.ofSomeSnd (by assumption) ?_
    | with_reducible refine Kept.ite ?_ ?_
    | with_reducible refine Kept.iteSnd ?_ ?_
    | with_reducible refine Kept.iteFst ?_ ?_
    | (extract_lets -underBinder +onlyGivenNames x; subst x)
    | split
    | dsimp only

end Sys2Proof.Machine
end

