-- ==== Sys2Proof/Laws/KeptStreams.lean ====
section
/-!
SUPPORT. What the operations of Sys2Proof/Machine/Streams.lean keep (Laws/Kept.lean).
-/
namespace Sys2Proof.Machine

theorem State.issueSeg_kept {m : Nat} {s0 s : State} {g : Seg} (hm : 0x84 &&& m = 0x84) (h : Kept m s0 s) :
     AllO (Kept m s0) (State.issueSeg s g) := by
  have hdef : @State.issueSeg = @State.issueSeg := rfl
  conv at hdef => rhs; delta State.issueSeg
  rw [congrFun (congrFun hdef s) g]; clear hdef
  repeat' first
    | with_reducible assumption
    | with_reducible refine State.modAu_kept (Mask.sub hm (by decide)) ?_
    | with_reducible exact AllO.none_
    | with_reducible refine AllO.some_ ?_
    | with_reducible refine Kept.ite ?_ ?_
    | (extract_lets -underBinder +onlyGivenNames x; subst x)
    | split
    | with_reducible refine Kept.mem (Mask.sub hm (by decide)) ?_ _ rfl
    | dsimp only

theorem State.progress_kept {m : Nat} {s0 s : State} {c : Nat} (hm : 0x40 &&& m = 0x40) (h : Kept m s0 s) :
     Kept m s0 (State.progress s c) := by
  have hdef : @State.progress = @State.progress := rfl
  conv at hdef => rhs; delta State.progress
  rw [congrFun (congrFun hdef s) c]; clear hdef
  repeat' first
    | with_reducible assumption
    | with_reducible refine State.modCtx_kept (Mask.sub hm (by decide)) ?_
    | with_reducible refine Kept.ite ?_ ?_
    | (extract_lets -underBinder +onlyGivenNames x; subst x)
    | split
    | dsimp only

theorem State.stnWaitSlot_kept {m : Nat} {s0 s : State} {n : Nat} {st : Nat} {c : Nat} {slot : Nat} (hm : 0x80 &&& m = 0x80) (h : Kept m s0 s) :
     Kept m s0 (State.stnWaitSlot s n st c slot) := by
  have hdef : @State.stnWaitSlot = @State.stnWaitSlot := rfl
  conv at hdef => rhs; delta State.stnWaitSlot
  rw [congrFun (congrFun (congrFun (congrFun (congrFun hdef s) n) st) c) slot]; clear hdef
  repeat' first
    | with_reducible assumption
    | with_reducible refine State.modAu_kept (Mask.sub hm (by decide)) ?_
    | with_reducible refine Kept.ite ?_ ?_
    | (extract_lets -underBinder +onlyGivenNames x; subst x)
    | split
    | dsimp only

theorem State.stnStop_kept {m : Nat} {s0 s : State} {n : Nat} {st : Nat} {c : Nat} {write : Bool} {r : VmRes Unit} (hm : 0xfef &&& m = 0xfef) (h : Kept m s0 s) :
     Kept m s0 (State.stnStop s n st c write r) := by
  have hdef : @State.stnStop = @State.stnStop := rfl
  conv at hdef => rhs; delta State.stnStop
  rw [congrFun (congrFun (congrFun (congrFun (congrFun (congrFun hdef s) n) st) c) write) r]; clear hdef
  repeat' first
    | with_reducible assumption
    | with_reducible refine State.want_kept (Mask.sub hm (by decide)) ?_
    | with_reducible refine State.modAu_kept (Mask.sub hm (by decide)) ?_
    | with_reducible refine State.memFault_kept (Mask.sub hm (by decide)) ?_
    | with_reducible refine Kept.ite ?_ ?_
    | (extract_lets -underBinder +onlyGivenNames x; subst x)
    | split
    | dsimp only

theorem State.issueRead_kept {m : Nat} {s0 s : State} {n : Nat} {st : Nat} {c : Nat} {ra : Bool} (hm : 0xfef &&& m = 0xfef) (h : Kept m s0 s) :
     Kept m s0 (State.issueRead s n st c ra) := by
  have hdef : @State.issueRead = @State.issueRead := rfl
  conv at hdef => rhs; delta State.issueRead
  rw [congrFun (congrFun (congrFun (congrFun (congrFun hdef s) n) st) c) ra]; clear hdef
  repeat' first
    | with_reducible assumption
    | with_reducible refine State.stnStop_kept (Mask.sub hm (by decide)) ?_
    | with_reducible refine State.progress_kept (Mask.sub hm (by decide)) ?_
    | with_reducible refine State.issueSeg_kept (Mask.sub hm (by decide)) ?_
    | with_reducible refine State.modAu_kept (Mask.sub hm (by decide)) ?_
    | with_reducible refine State.setReg_kept (Mask.sub hm (by decide)) ?_
    | with_reducible refine Kept.ofSome (by assumption) ?_
    | with_reducible refine Kept.ite ?_ ?_
    | (extract_lets -underBinder +onlyGivenNames x; subst x)
    | split
    | dsimp only

theorem State.issueWrite_kept {m : Nat} {s0 s : State} {n : Nat} {st : Nat} {c : Nat} (hm : 0xfef &&& m = 0xfef) (h : Kept m s0 s) :
     Kept m s0 (State.issueWrite s n st c) := by
  have hdef : @State.issueWrite = @State.issueWrite := rfl
  conv at hdef => rhs; delta State.issueWrite
  rw [congrFun (congrFun (congrFun (congrFun hdef s) n) st) c]; clear hdef
  repeat' first
    | with_reducible assumption
    | with_reducible refine State.stnStop_kept (Mask.sub hm (by decide)) ?_
    | with_reducible refine State.progress_kept (Mask.sub hm (by decide)) ?_
    | with_reducible refine State.issueSeg_kept (Mask.sub hm (by decide)) ?_
    | with_reducible refine State.modAu_kept (Mask.sub hm (by decide)) ?_
    | with_reducible refine Kept.ofSome (by assumption) ?_
    | with_reducible refine Kept.ite ?_ ?_
    | (extract_lets -underBinder +onlyGivenNames x; subst x)
    | split
    | dsimp only

theorem State.issueHawk_kept {m : Nat} {s0 s : State} {n : Nat} {st : Nat} {c : Nat} (hm : 0xc0 &&& m = 0xc0) (h : Kept m s0 s) :
     Kept m s0 (State.issueHawk s n st c) := by
  have hdef : @State.issueHawk = @State.issueHawk := rfl
  conv at hdef => rhs; delta State.issueHawk
  rw [congrFun (congrFun (congrFun (congrFun hdef s) n) st) c]; clear hdef
  repeat' first
    | with_reducible assumption
    | with_reducible refine State.stnWaitSlot_kept (Mask.sub hm (by decide)) ?_
    | with_reducible refine State.progress_kept (Mask.sub hm (by decide)) ?_
    | with_reducible refine State.modAu_kept (Mask.sub hm (by decide)) ?_
    | with_reducible refine Kept.ite ?_ ?_
    | (extract_lets -underBinder +onlyGivenNames x; subst x)
    | split
    | dsimp only

theorem State.issueStn_kept {m : Nat} {s0 s : State} {n : Nat} {st : Nat} {ra : Bool} (hm : 0xfef &&& m = 0xfef) (h : Kept m s0 s) :
     Kept m s0 (State.issueStn s n st ra) := by
  have hdef : @State.issueStn = @State.issueStn := rfl
  conv at hdef => rhs; delta State.issueStn
  rw [congrFun (congrFun (congrFun (congrFun hdef s) n) st) ra]; clear hdef
  repeat' first
    | with_reducible assumption
    | with_reducible refine State.issueHawk_kept (Mask.sub hm (by decide)) ?_
    | with_reducible refine State.issueWrite_kept (Mask.sub hm (by decide)) ?_
    | with_reducible refine State.issueRead_kept (Mask.sub hm (by decide)) ?_
    | with_reducible refine Kept.ite ?_ ?_
    | (extract_lets -underBinder +onlyGivenNames x; subst x)
    | split
    | dsimp only

theorem execStencilSegmentIssue_kept {m : Nat} {s0 s : State} {a : AuId} {st : StnId} {ra : Bool} (hm : 0xfef &&& m = 0xfef) (h : Kept m s0 s) :
     OutKept m s0 (execStencilSegmentIssue a st ra s) := by
  have hdef : @execStencilSegmentIssue = @execStencilSegmentIssue := rfl
  conv at hdef => rhs; delta execStencilSegmentIssue
  rw [congrFun (congrFun (congrFun (congrFun hdef a) st) ra) s]; clear hdef
  repeat' first
    | with_reducible assumption
    | with_reducible refine State.issueStn_kept (Mask.sub hm (by decide)) ?_
    | with_reducible refine OutKept.next ?_
    | with_reducible refine Kept.ite ?_ ?_
    | (extract_lets -underBinder +onlyGivenNames x; subst x)
    | split
    | dsimp only

theorem execStagingBufferFree_kept {m : Nat} {s0 s : State} {a : AuId} {st : StnId} (hm : 0xfef &&& m = 0xfef) (h : Kept m s0 s) :
     OutKept m s0 (execStagingBufferFree a st s) := by
  have hdef : @execStagingBufferFree = @execStagingBufferFree := rfl
  conv at hdef => rhs; delta execStagingBufferFree
  rw [congrFun (congrFun (congrFun hdef a) st) s]; clear hdef
  repeat' first
    | with_reducible assumption
    | with_reducible refine State.issueStn_kept (Mask.sub hm (by decide)) ?_
    | with_reducible refine OutKept.next ?_
    | with_reducible refine Kept.ite ?_ ?_
    | (extract_lets -underBinder +onlyGivenNames x; subst x)
    | split
    | dsimp only

theorem State.putEnd_kept {m : Nat} {s0 s : State} {e : MemEnd} {bs : List Byte} {ra : Bool} (hm : 0xc7 &&& m = 0xc7) (h : Kept m s0 s) :
     AllO (Kept m s0) (State.putEnd s e bs ra) := by
  have hdef : @State.putEnd = @State.putEnd := rfl
  conv at hdef => rhs; delta State.putEnd
  rw [congrFun (congrFun (congrFun (congrFun hdef s) e) bs) ra]; clear hdef
  repeat' first
    | with_reducible assumption
    | with_reducible refine State.vwrite_kept (Mask.sub hm (by decide)) ?_
    | with_reducible refine State.want_kept (Mask.sub hm (by decide)) ?_
    | with_reducible refine State.modAu_kept (Mask.sub hm (by decide)) ?_
    | with_reducible refine State.putAu_kept (Mask.sub hm (by decide)) ?_
    | with_reducible refine State.hostWrite_kept (Mask.sub hm (by decide)) ?_
    | with_reducible exact AllO.none_
    | with_reducible refine AllO.some_ ?_
    | with_reducible refine VmRes.All.use0 (by assumption) ?_
    | with_reducible refine VmRes.All.use1 (by assumption) ?_
    | with_reducible refine Kept.ite ?_ ?_
    | (extract_lets -underBinder +onlyGivenNames x; subst x)
    | split
    | dsimp only

theorem State.getEnd_kept {m : Nat} {s0 s : State} {e : MemEnd} {n : Nat} (hm : 0x40 &&& m = 0x40) (h : Kept m s0 s) :
     Kept m s0 (State.getEnd s e n).2 := by
  have hdef : @State.getEnd = @State.getEnd := rfl
  conv at hdef => rhs; delta State.getEnd
  rw [congrFun (congrFun (congrFun hdef s) e) n]; clear hdef
  repeat' first
    | with_reducible assumption
    | with_reducible refine State.vread_kept (Mask.sub hm (by decide)) ?_
    | with_reducible refine Kept.getD_ ?_ ?_
    | with_reducible refine VmRes.All.use0 (by assumption) ?_
    | with_reducible refine VmRes.All.use1 (by assumption) ?_
    | with_reducible refine Kept.ite ?_ ?_
    | with_reducible refine Kept.iteSnd ?_ ?_
    | with_reducible refine Kept.iteFst ?_ ?_
    | (extract_lets -underBinder +onlyGivenNames x; subst x)
    | split
    | dsimp only

theorem State.segNote_kept {m : Nat} {s0 s : State} {g : Seg} (hm : 0x84 &&& m = 0x84) (h : Kept m s0 s) :
     Kept m s0 (State.segNote s g) := by
  have hdef : @State.segNote = @State.segNote := rfl
  conv at hdef => rhs; delta State.segNote
  rw [congrFun (congrFun hdef s) g]; clear hdef
  repeat' first
    | with_reducible assumption
    | with_reducible refine State.modAu_kept (Mask.sub hm (by decide)) ?_
    | with_reducible refine Kept.ite ?_ ?_
    | (extract_lets -underBinder +onlyGivenNames x; subst x)
    | split
    | with_reducible refine Kept.mem (Mask.sub hm (by decide)) ?_ _ rfl
    | dsimp only

theorem State.segBytes_kept {m : Nat} {s0 s : State} {g : Seg} (hm : 0x40 &&& m = 0x40) (h : Kept m s0 s) :
     Kept m s0 (State.segBytes s g).2 := by
  have hdef : @State.segBytes = @State.segBytes := rfl
  conv at hdef => rhs; delta State.segBytes
  rw [congrFun (congrFun hdef s) g]; clear hdef
  repeat' first
    | with_reducible assumption
    | with_reducible refine State.getEnd_kept (Mask.sub hm (by decide)) ?_
    | with_reducible refine Kept.ofPair (by assumption) ?_
    | with_reducible refine Kept.ite ?_ ?_
    | with_reducible refine Kept.iteSnd ?_ ?_
    | with_reducible refine Kept.iteFst ?_ ?_
    | (extract_lets -underBinder +onlyGivenNames x; subst x)
    | split
    | dsimp only

theorem State.issuerProgress_kept {m : Nat} {s0 s : State} {i : Issuer} (hm : 0x40 &&& m = 0x40) (h : Kept m s0 s) :
     Kept m s0 (State.issuerProgress s i) := by
  have hdef : @State.issuerProgress = @State.issuerProgress := rfl
  conv at hdef => rhs; delta State.issuerProgress
  rw [congrFun (congrFun hdef s) i]; clear hdef
  repeat' first
    | with_reducible assumption
    | with_reducible refine State.progress_kept (Mask.sub hm (by decide)) ?_
    | with_reducible refine Kept.ite ?_ ?_
    | (extract_lets -underBinder +onlyGivenNames x; subst x)
    | split
    | dsimp only

theorem State.finishSeg_kept {m : Nat} {s0 s : State} {id : Nat} (hm : 0xc7 &&& m = 0xc7) (h : Kept m s0 s) :
     Kept m s0 (State.finishSeg s id) := by
  have hdef : @State.finishSeg = @State.finishSeg := rfl
  conv at hdef => rhs; delta State.finishSeg
  rw [congrFun (congrFun hdef s) id]; clear hdef
  repeat' first
    | with_reducible assumption
    | with_reducible refine State.issuerProgress_kept (Mask.sub hm (by decide)) ?_
    | with_reducible refine State.segBytes_kept (Mask.sub hm (by decide)) ?_
    | with_reducible refine State.segNote_kept (Mask.sub hm (by decide)) ?_
    | with_reducible refine State.putEnd_kept (Mask.sub hm (by decide)) ?_
    | with_reducible refine State.freeSeg_kept (Mask.sub hm (by decide)) ?_
    | with_reducible refine Kept.ofPair (by assumption) ?_
    | with_reducible refine Kept.ofSome (by assumption) ?_
    | with_reducible refine Kept.ite ?_ ?_
    | with_reducible refine Kept.iteSnd ?_ ?_
    | with_reducible refine Kept.iteFst ?_ ?_
    | (extract_lets -underBinder +onlyGivenNames x; subst x)
    | split
    | dsimp only

theorem execSegmentComplete_kept {m : Nat} {s0 s : State} {id : Nat} (hm : 0xc7 &&& m = 0xc7) (h : Kept m s0 s) :
     OutKept m s0 (execSegmentComplete id s) := by
  have hdef : @execSegmentComplete = @execSegmentComplete := rfl
  conv at hdef => rhs; delta execSegmentComplete
  rw [congrFun (congrFun hdef id) s]; clear hdef
  repeat' first
    | with_reducible assumption
    | with_reducible refine State.finishSeg_kept (Mask.sub hm (by decide)) ?_
    | with_reducible refine OutKept.next ?_
    | with_reducible refine Kept.ite ?_ ?_
    | (extract_lets -underBinder +onlyGivenNames x; subst x)
    | split
    | dsimp only

theorem execStencilDone_kept {m : Nat} {s0 s : State} {a : AuId} {st : StnId} (hm : 0xc0 &&& m = 0xc0) (h : Kept m s0 s) :
     OutKept m s0 (execStencilDone a st s) := by
  have hdef : @execStencilDone = @execStencilDone := rfl
  conv at hdef => rhs; delta execStencilDone
  rw [congrFun (congrFun (congrFun hdef a) st) s]; clear hdef
  repeat' first
    | with_reducible assumption
    | with_reducible refine State.progress_kept (Mask.sub hm (by decide)) ?_
    | with_reducible refine State.modAu_kept (Mask.sub hm (by decide)) ?_
    | with_reducible refine State.setFlag_kept (Mask.sub hm (by decide)) ?_
    | with_reducible refine OutKept.next ?_
    | with_reducible refine Kept.ite ?_ ?_
    | (extract_lets -underBinder +onlyGivenNames x; subst x)
    | split
    | dsimp only

theorem execStreamHaltResume_kept {m : Nat} {s0 s : State} {a : AuId} {st : StnId} (hm : 0xc0 &&& m = 0xc0) (h : Kept m s0 s) :
     OutKept m s0 (execStreamHaltResume a st s) := by
  have hdef : @execStreamHaltResume = @execStreamHaltResume := rfl
  conv at hdef => rhs; delta execStreamHaltResume
  rw [congrFun (congrFun (congrFun hdef a) st) s]; clear hdef
  repeat' first
    | with_reducible assumption
    | with_reducible refine State.progress_kept (Mask.sub hm (by decide)) ?_
    | with_reducible refine State.modAu_kept (Mask.sub hm (by decide)) ?_
    | with_reducible refine OutKept.next ?_
    | with_reducible refine Kept.ite ?_ ?_
    | (extract_lets -underBinder +onlyGivenNames x; subst x)
    | split
    | dsimp only

theorem execQueueRecordReady_kept {m : Nat} {s0 s : State} {a : AuId} {src : QueueId} {dst : QueueId} {n : Nat} (hm : 0xc0 &&& m = 0xc0) (h : Kept m s0 s) :
     OutKept m s0 (execQueueRecordReady a src dst n s) := by
  have hdef : @execQueueRecordReady = @execQueueRecordReady := rfl
  conv at hdef => rhs; delta execQueueRecordReady
  rw [congrFun (congrFun (congrFun (congrFun (congrFun hdef a) src) dst) n) s]; clear hdef
  repeat' first
    | with_reducible assumption
    | with_reducible refine State.progress_kept (Mask.sub hm (by decide)) ?_
    | with_reducible refine State.putAu_kept (Mask.sub hm (by decide)) ?_
    | with_reducible refine OutKept.next ?_
    | with_reducible refine Kept.ite ?_ ?_
    | (extract_lets -underBinder +onlyGivenNames x; subst x)
    | split
    | dsimp only

end Sys2Proof.Machine
end

