-- ==== Sys2Proof/Laws/KeptHost.lean ====
section
/-!
SUPPORT. What the operations of Sys2Proof/Machine/Host.lean keep (Laws/Kept.lean).
-/
namespace Sys2Proof.Machine

theorem State.moveAdmin_kept {m : Nat} {s0 s : State} {p : Nat} {cause : Nat} (hm : 0x829 &&& m = 0x829) (h : Kept m s0 s) :
     Kept m s0 (State.moveAdmin s p cause) := by
  have hdef : @State.moveAdmin = @State.moveAdmin := rfl
  conv at hdef => rhs; delta State.moveAdmin
  rw [congrFun (congrFun (congrFun hdef s) p) cause]; clear hdef
  repeat' first
    | with_reducible assumption
    | with_reducible refine State.raise_kept (Mask.sub hm (by decide)) ?_
    | with_reducible refine State.setFld_kept (Mask.sub hm (by decide)) ?_
    | with_reducible refine Kept.ite ?_ ?_
    | (extract_lets -underBinder +onlyGivenNames x; subst x)
    | split
    | dsimp only

theorem State.adminWrite_kept {m : Nat} {s0 s : State} {f : Nat} {v : Nat} (hm : 0x829 &&& m = 0x829) (h : Kept m s0 s) :
     Kept m s0 (State.adminWrite s f v) := by
  have hdef : @State.adminWrite = @State.adminWrite := rfl
  conv at hdef => rhs; delta State.adminWrite
  rw [congrFun (congrFun (congrFun hdef s) f) v]; clear hdef
  repeat' first
    | with_reducible assumption
    | with_reducible refine State.moveAdmin_kept (Mask.sub hm (by decide)) ?_
    | with_reducible refine State.denied_kept (Mask.sub hm (by decide)) ?_
    | with_reducible refine Kept.ite ?_ ?_
    | (extract_lets -underBinder +onlyGivenNames x; subst x)
    | split
    | dsimp only

theorem execHubAdminWrite_kept {m : Nat} {s0 s : State} {f : FnId} {v : Word32} (hm : 0x829 &&& m = 0x829) (h : Kept m s0 s) :
     OutKept m s0 (execHubAdminWrite f v s) := by
  have hdef : @execHubAdminWrite = @execHubAdminWrite := rfl
  conv at hdef => rhs; delta execHubAdminWrite
  rw [congrFun (congrFun (congrFun hdef f) v) s]; clear hdef
  repeat' first
    | with_reducible assumption
    | with_reducible refine State.adminWrite_kept (Mask.sub hm (by decide)) ?_
    | with_reducible refine OutKept.next ?_
    | with_reducible refine Kept.ite ?_ ?_
    | (extract_lets -underBinder +onlyGivenNames x; subst x)
    | split
    | dsimp only

theorem execAdminGraceExpiry_kept {m : Nat} {s0 s : State} {t : Nat} (hm : 0x8829 &&& m = 0x8829) (h : Kept m s0 s) :
     OutKept m s0 (execAdminGraceExpiry t s) := by
  have hdef : @execAdminGraceExpiry = @execAdminGraceExpiry := rfl
  conv at hdef => rhs; delta execAdminGraceExpiry
  rw [congrFun (congrFun hdef t) s]; clear hdef
  repeat' first
    | with_reducible assumption
    | with_reducible refine State.moveAdmin_kept (Mask.sub hm (by decide)) ?_
    | with_reducible refine State.at_kept (Mask.sub hm (by decide)) ?_
    | with_reducible refine OutKept.next ?_
    | with_reducible refine Kept.ite ?_ ?_
    | (extract_lets -underBinder +onlyGivenNames x; subst x)
    | split
    | dsimp only

theorem State.syncReqWrite_kept {m : Nat} {s0 s : State} {f : Nat} {v : Nat} (hm : 0x8 &&& m = 0x8) (h : Kept m s0 s) :
     Kept m s0 (State.syncReqWrite s f v) := by
  have hdef : @State.syncReqWrite = @State.syncReqWrite := rfl
  conv at hdef => rhs; delta State.syncReqWrite
  rw [congrFun (congrFun (congrFun hdef s) f) v]; clear hdef
  repeat' first
    | with_reducible assumption
    | with_reducible refine State.softReg_kept (Mask.sub hm (by decide)) ?_
    | with_reducible refine State.setFld_kept (Mask.sub hm (by decide)) ?_
    | with_reducible refine Kept.ite ?_ ?_
    | (extract_lets -underBinder +onlyGivenNames x; subst x)
    | split
    | dsimp only

theorem execHubSyncGo_kept {m : Nat} {s0 s : State} {f : FnId} {v : Word32} (hm : 0x8 &&& m = 0x8) (h : Kept m s0 s) :
     OutKept m s0 (execHubSyncGo f v s) := by
  have hdef : @execHubSyncGo = @execHubSyncGo := rfl
  conv at hdef => rhs; delta execHubSyncGo
  rw [congrFun (congrFun (congrFun hdef f) v) s]; clear hdef
  repeat' first
    | with_reducible assumption
    | with_reducible refine State.syncReqWrite_kept (Mask.sub hm (by decide)) ?_
    | with_reducible refine OutKept.next ?_
    | with_reducible refine Kept.ite ?_ ?_
    | (extract_lets -underBinder +onlyGivenNames x; subst x)
    | split
    | dsimp only

theorem execSyncSummaryWritten_kept {m : Nat} {s0 s : State} {f : FnId} (hm : 0x9 &&& m = 0x9) (h : Kept m s0 s) :
     OutKept m s0 (execSyncSummaryWritten f s) := by
  have hdef : @execSyncSummaryWritten = @execSyncSummaryWritten := rfl
  conv at hdef => rhs; delta execSyncSummaryWritten
  rw [congrFun (congrFun hdef f) s]; clear hdef
  repeat' first
    | with_reducible assumption
    | with_reducible refine State.hostWrite_kept (Mask.sub hm (by decide)) ?_
    | with_reducible refine State.setFld_kept (Mask.sub hm (by decide)) ?_
    | with_reducible refine OutKept.next ?_
    | with_reducible refine Kept.ite ?_ ?_
    | (extract_lets -underBinder +onlyGivenNames x; subst x)
    | split
    | dsimp only

theorem State.ringCtlWrite_kept {m : Nat} {s0 s : State} {f : Nat} {c : Nat} {v : Nat} (hm : 0x48 &&& m = 0x48) (h : Kept m s0 s) :
     Kept m s0 (State.ringCtlWrite s f c v) := by
  have hdef : @State.ringCtlWrite = @State.ringCtlWrite := rfl
  conv at hdef => rhs; delta State.ringCtlWrite
  rw [congrFun (congrFun (congrFun (congrFun hdef s) f) c) v]; clear hdef
  repeat' first
    | with_reducible assumption
    | with_reducible refine State.modCtx_kept (Mask.sub hm (by decide)) ?_
    | with_reducible refine State.setFld_kept (Mask.sub hm (by decide)) ?_
    | with_reducible refine State.softReg_kept (Mask.sub hm (by decide)) ?_
    | with_reducible refine Kept.ite ?_ ?_
    | (extract_lets -underBinder +onlyGivenNames x; subst x)
    | split
    | dsimp only

theorem execRingCtlWrite_kept {m : Nat} {s0 s : State} {f : FnId} {c : CtxId} {v : Word32} (hm : 0x48 &&& m = 0x48) (h : Kept m s0 s) :
     OutKept m s0 (execRingCtlWrite f c v s) := by
  have hdef : @execRingCtlWrite = @execRingCtlWrite := rfl
  conv at hdef => rhs; delta execRingCtlWrite
  rw [congrFun (congrFun (congrFun (congrFun hdef f) c) v) s]; clear hdef
  repeat' first
    | with_reducible assumption
    | with_reducible refine State.ringCtlWrite_kept (Mask.sub hm (by decide)) ?_
    | with_reducible refine OutKept.next ?_
    | with_reducible refine Kept.ite ?_ ?_
    | (extract_lets -underBinder +onlyGivenNames x; subst x)
    | split
    | dsimp only

theorem State.doorbell_kept {m : Nat} {s0 s : State} {f : Nat} {k : Nat} {size : Nat} {g : RingSt → RingSt} (hm : 0x48 &&& m = 0x48) (h : Kept m s0 s) :
     Kept m s0 (State.doorbell s f k size g) := by
  have hdef : @State.doorbell = @State.doorbell := rfl
  conv at hdef => rhs; delta State.doorbell
  rw [congrFun (congrFun (congrFun (congrFun (congrFun hdef s) f) k) size) g]; clear hdef
  repeat' first
    | with_reducible assumption
    | with_reducible refine State.badAccess_kept (Mask.sub hm (by decide)) ?_
    | with_reducible refine State.modCtx_kept (Mask.sub hm (by decide)) ?_
    | with_reducible refine Kept.ite ?_ ?_
    | (extract_lets -underBinder +onlyGivenNames x; subst x)
    | split
    | dsimp only

theorem execDbCmdTail_kept {m : Nat} {s0 s : State} {f : FnId} {k : CtxId} {v : Word32} {size : Nat} (hm : 0x48 &&& m = 0x48) (h : Kept m s0 s) :
     OutKept m s0 (execDbCmdTail f k v size s) := by
  have hdef : @execDbCmdTail = @execDbCmdTail := rfl
  conv at hdef => rhs; delta execDbCmdTail
  rw [congrFun (congrFun (congrFun (congrFun (congrFun hdef f) k) v) size) s]; clear hdef
  repeat' first
    | with_reducible assumption
    | with_reducible refine State.doorbell_kept (Mask.sub hm (by decide)) ?_
    | with_reducible refine OutKept.next ?_
    | with_reducible refine Kept.ite ?_ ?_
    | (extract_lets -underBinder +onlyGivenNames x; subst x)
    | split
    | dsimp only

theorem execDbCplHead_kept {m : Nat} {s0 s : State} {f : FnId} {k : CtxId} {v : Word32} {size : Nat} (hm : 0x48 &&& m = 0x48) (h : Kept m s0 s) :
     OutKept m s0 (execDbCplHead f k v size s) := by
  have hdef : @execDbCplHead = @execDbCplHead := rfl
  conv at hdef => rhs; delta execDbCplHead
  rw [congrFun (congrFun (congrFun (congrFun (congrFun hdef f) k) v) size) s]; clear hdef
  repeat' first
    | with_reducible assumption
    | with_reducible refine State.doorbell_kept (Mask.sub hm (by decide)) ?_
    | with_reducible refine OutKept.next ?_
    | with_reducible refine Kept.ite ?_ ?_
    | (extract_lets -underBinder +onlyGivenNames x; subst x)
    | split
    | dsimp only

theorem State.ringError_kept {m : Nat} {s0 s : State} {c : Nat} {ring : Nat} {v : Nat} {last : Nat} {tested : Nat} (hm : 0x829 &&& m = 0x829) (h : Kept m s0 s) :
     Kept m s0 (State.ringError s c ring v last tested) := by
  have hdef : @State.ringError = @State.ringError := rfl
  conv at hdef => rhs; delta State.ringError
  rw [congrFun (congrFun (congrFun (congrFun (congrFun (congrFun hdef s) c) ring) v) last) tested]; clear hdef
  repeat' first
    | with_reducible assumption
    | with_reducible refine State.raise_kept (Mask.sub hm (by decide)) ?_
    | with_reducible refine State.flagCount_kept (Mask.sub hm (by decide)) ?_
    | with_reducible refine Kept.ite ?_ ?_
    | (extract_lets -underBinder +onlyGivenNames x; subst x)
    | split
    | dsimp only

theorem State.takeTail_kept {m : Nat} {s0 s : State} {c : Nat} {v : BitVec 16} (hm : 0x869 &&& m = 0x869) (h : Kept m s0 s) :
     Kept m s0 (State.takeTail s c v) := by
  have hdef : @State.takeTail = @State.takeTail := rfl
  conv at hdef => rhs; delta State.takeTail
  rw [congrFun (congrFun (congrFun hdef s) c) v]; clear hdef
  repeat' first
    | with_reducible assumption
    | with_reducible refine State.ringError_kept (Mask.sub hm (by decide)) ?_
    | with_reducible refine State.modCtx_kept (Mask.sub hm (by decide)) ?_
    | with_reducible refine Kept.ite ?_ ?_
    | (extract_lets -underBinder +onlyGivenNames x; subst x)
    | split
    | dsimp only

theorem State.takeHead_kept {m : Nat} {s0 s : State} {c : Nat} {v : BitVec 16} (hm : 0x869 &&& m = 0x869) (h : Kept m s0 s) :
     Kept m s0 (State.takeHead s c v) := by
  have hdef : @State.takeHead = @State.takeHead := rfl
  conv at hdef => rhs; delta State.takeHead
  rw [congrFun (congrFun (congrFun hdef s) c) v]; clear hdef
  repeat' first
    | with_reducible assumption
    | with_reducible refine State.ringError_kept (Mask.sub hm (by decide)) ?_
    | with_reducible refine State.modCtx_kept (Mask.sub hm (by decide)) ?_
    | with_reducible refine Kept.ite ?_ ?_
    | (extract_lets -underBinder +onlyGivenNames x; subst x)
    | split
    | dsimp only

theorem execDoorbellAccepted_kept {m : Nat} {s0 s : State} {c : CtxId} (hm : 0x869 &&& m = 0x869) (h : Kept m s0 s) :
     OutKept m s0 (execDoorbellAccepted c s) := by
  have hdef : @execDoorbellAccepted = @execDoorbellAccepted := rfl
  conv at hdef => rhs; delta execDoorbellAccepted
  rw [congrFun (congrFun hdef c) s]; clear hdef
  repeat' first
    | with_reducible assumption
    | with_reducible refine State.takeHead_kept (Mask.sub hm (by decide)) ?_
    | with_reducible refine State.takeTail_kept (Mask.sub hm (by decide)) ?_
    | with_reducible refine State.modCtx_kept (Mask.sub hm (by decide)) ?_
    | with_reducible refine OutKept.next ?_
    | with_reducible refine Kept.ite ?_ ?_
    | (extract_lets -underBinder +onlyGivenNames x; subst x)
    | split
    | dsimp only

theorem execDescriptorStart_kept {m : Nat} {s0 s : State} {c : CtxId} (hm : 0x849 &&& m = 0x849) (h : Kept m s0 s) :
     OutKept m s0 (execDescriptorStart c s) := by
  have hdef : @execDescriptorStart = @execDescriptorStart := rfl
  conv at hdef => rhs; delta execDescriptorStart
  rw [congrFun (congrFun hdef c) s]; clear hdef
  repeat' first
    | with_reducible assumption
    | with_reducible refine State.modCtx_kept (Mask.sub hm (by decide)) ?_
    | with_reducible refine State.complete_kept (Mask.sub hm (by decide)) ?_
    | with_reducible refine OutKept.next ?_
    | with_reducible refine Kept.ite ?_ ?_
    | (extract_lets -underBinder +onlyGivenNames x; subst x)
    | split
    | dsimp only

theorem execIrqDelayExpiry_kept {m : Nat} {s0 s : State} {c : CtxId} {t : Nat} (hm : 0x8049 &&& m = 0x8049) (h : Kept m s0 s) :
     OutKept m s0 (execIrqDelayExpiry c t s) := by
  have hdef : @execIrqDelayExpiry = @execIrqDelayExpiry := rfl
  conv at hdef => rhs; delta execIrqDelayExpiry
  rw [congrFun (congrFun (congrFun hdef c) t) s]; clear hdef
  repeat' first
    | with_reducible assumption
    | with_reducible refine State.at_kept (Mask.sub hm (by decide)) ?_
    | with_reducible refine State.fire_kept (Mask.sub hm (by decide)) ?_
    | with_reducible refine State.modCtx_kept (Mask.sub hm (by decide)) ?_
    | with_reducible refine OutKept.next ?_
    | with_reducible refine Kept.ite ?_ ?_
    | (extract_lets -underBinder +onlyGivenNames x; subst x)
    | split
    | dsimp only

theorem State.evtCtlWrite_kept {m : Nat} {s0 s : State} {f : Nat} {v : Nat} (hm : 0x29 &&& m = 0x29) (h : Kept m s0 s) :
     Kept m s0 (State.evtCtlWrite s f v) := by
  have hdef : @State.evtCtlWrite = @State.evtCtlWrite := rfl
  conv at hdef => rhs; delta State.evtCtlWrite
  rw [congrFun (congrFun (congrFun hdef s) f) v]; clear hdef
  repeat' first
    | with_reducible assumption
    | with_reducible refine State.setFld_kept (Mask.sub hm (by decide)) ?_
    | with_reducible refine State.softReg_kept (Mask.sub hm (by decide)) ?_
    | with_reducible refine State.evtReturned_kept (Mask.sub hm (by decide)) ?_
    | with_reducible refine Kept.ite ?_ ?_
    | (extract_lets -underBinder +onlyGivenNames x; subst x)
    | split
    | dsimp only

theorem execEvtCtlWrite_kept {m : Nat} {s0 s : State} {f : FnId} {v : Word32} (hm : 0x29 &&& m = 0x29) (h : Kept m s0 s) :
     OutKept m s0 (execEvtCtlWrite f v s) := by
  have hdef : @execEvtCtlWrite = @execEvtCtlWrite := rfl
  conv at hdef => rhs; delta execEvtCtlWrite
  rw [congrFun (congrFun (congrFun hdef f) v) s]; clear hdef
  repeat' first
    | with_reducible assumption
    | with_reducible refine State.evtCtlWrite_kept (Mask.sub hm (by decide)) ?_
    | with_reducible refine OutKept.next ?_
    | with_reducible refine Kept.ite ?_ ?_
    | (extract_lets -underBinder +onlyGivenNames x; subst x)
    | split
    | dsimp only

theorem State.evtHeadWrite_kept {m : Nat} {s0 s : State} {f : Nat} {v : Nat} (hm : 0x29 &&& m = 0x29) (h : Kept m s0 s) :
     Kept m s0 (State.evtHeadWrite s f v) := by
  have hdef : @State.evtHeadWrite = @State.evtHeadWrite := rfl
  conv at hdef => rhs; delta State.evtHeadWrite
  rw [congrFun (congrFun (congrFun hdef s) f) v]; clear hdef
  repeat' first
    | with_reducible assumption
    | with_reducible refine State.evtReturned_kept (Mask.sub hm (by decide)) ?_
    | with_reducible refine State.setFld_kept (Mask.sub hm (by decide)) ?_
    | with_reducible refine Kept.ite ?_ ?_
    | (extract_lets -underBinder +onlyGivenNames x; subst x)
    | split
    | dsimp only

theorem execEvtHeadWrite_kept {m : Nat} {s0 s : State} {f : FnId} {v : Word32} (hm : 0x29 &&& m = 0x29) (h : Kept m s0 s) :
     OutKept m s0 (execEvtHeadWrite f v s) := by
  have hdef : @execEvtHeadWrite = @execEvtHeadWrite := rfl
  conv at hdef => rhs; delta execEvtHeadWrite
  rw [congrFun (congrFun (congrFun hdef f) v) s]; clear hdef
  repeat' first
    | with_reducible assumption
    | with_reducible refine State.evtHeadWrite_kept (Mask.sub hm (by decide)) ?_
    | with_reducible refine OutKept.next ?_
    | with_reducible refine Kept.ite ?_ ?_
    | (extract_lets -underBinder +onlyGivenNames x; subst x)
    | split
    | dsimp only

theorem State.onCmd_kept {m : Nat} {s0 s : State} {c : Nat} {k : Nat} {op : Nat} {f : Cmd → State} (hm : 0x0 &&& m = 0x0) (h : Kept m s0 s) (h_f : ∀ a0, Kept m s0 (f a0)) :
     Kept m s0 (State.onCmd s c k op f) := by
  have hdef : @State.onCmd = @State.onCmd := rfl
  conv at hdef => rhs; delta State.onCmd
  rw [congrFun (congrFun (congrFun (congrFun (congrFun hdef s) c) k) op) f]; clear hdef
  repeat' first
    | with_reducible assumption
    | with_reducible exact h_f _ 
    | with_reducible refine Kept.ite ?_ ?_
    | (extract_lets -underBinder +onlyGivenNames x; subst x)
    | split
    | dsimp only

theorem execFence_kept {m : Nat} {s0 s : State} {c : CtxId} {k : Nat} (hm : 0x849 &&& m = 0x849) (h : Kept m s0 s) :
     OutKept m s0 (execFence c k s) := by
  have hdef : @execFence = @execFence := rfl
  conv at hdef => rhs; delta execFence
  rw [congrFun (congrFun (congrFun hdef c) k) s]; clear hdef
  repeat' first
    | with_reducible assumption
    | with_reducible refine State.onCmd_kept (Mask.sub hm (by decide)) ?_ (fun _ => ?_)
    | with_reducible refine State.complete_kept (Mask.sub hm (by decide)) ?_
    | with_reducible refine OutKept.next ?_
    | with_reducible refine Kept.ite ?_ ?_
    | (extract_lets -underBinder +onlyGivenNames x; subst x)
    | split
    | dsimp only

theorem execResync_kept {m : Nat} {s0 s : State} {c : CtxId} {k : Nat} (hm : 0x849 &&& m = 0x849) (h : Kept m s0 s) :
     OutKept m s0 (execResync c k s) := by
  have hdef : @execResync = @execResync := rfl
  conv at hdef => rhs; delta execResync
  rw [congrFun (congrFun (congrFun hdef c) k) s]; clear hdef
  repeat' first
    | with_reducible assumption
    | with_reducible refine State.onCmd_kept (Mask.sub hm (by decide)) ?_ (fun _ => ?_)
    | with_reducible refine State.complete_kept (Mask.sub hm (by decide)) ?_
    | with_reducible refine State.hostWrite_kept (Mask.sub hm (by decide)) ?_
    | with_reducible refine OutKept.next ?_
    | with_reducible refine Kept.ite ?_ ?_
    | (extract_lets -underBinder +onlyGivenNames x; subst x)
    | split
    | dsimp only

end Sys2Proof.Machine
end

