-- ==== Sys2Proof/Laws/KeptContexts.lean ====
section
/-!
SUPPORT. What the operations of Sys2Proof/Machine/Contexts.lean keep (Laws/Kept.lean).
-/
namespace Sys2Proof.Machine

/-- Bytes written one after another keep a memory canonical. -/
theorem wf_foldl_wrByte (f : Nat × Byte → Nat) (l : List (Nat × Byte)) :
    ∀ m : Mem, Memory.wf m = true → Memory.wf (l.foldl (fun m e => wrByte m (f e) e.2) m) = true := by
  induction l with
  | nil => exact fun _ h => h
  | cons e l ih => exact fun m h => ih _ (wf_wrByte _ _ _ h)

theorem wf_copyRange (m : Mem) (src dst n : Nat) (h : Memory.wf m = true) : Memory.wf (copyRange m src dst n) = true :=
  wf_foldl_wrByte _ _ _ h

theorem State.resetCtxRegs_kept {m : Nat} {s0 s : State} {c : Nat} (hm : 0x8 &&& m = 0x8) (h : Kept m s0 s) :
     Kept m s0 (State.resetCtxRegs s c) := by
  have hdef : @State.resetCtxRegs = @State.resetCtxRegs := rfl
  conv at hdef => rhs; delta State.resetCtxRegs
  rw [congrFun (congrFun hdef s) c]; clear hdef
  repeat' first
    | with_reducible assumption
    | with_reducible refine State.dropRegs_kept (Mask.sub hm (by decide)) ?_
    | with_reducible refine Kept.ite ?_ ?_
    | (extract_lets -underBinder +onlyGivenNames x; subst x)
    | split
    | dsimp only

theorem State.create_kept {m : Nat} {s0 s : State} {c : Nat} {f : Nat} {slot : Option Nat} (hm : 0x48 &&& m = 0x48) (h : Kept m s0 s) :
     Kept m s0 (State.create s c f slot) := by
  have hdef : @State.create = @State.create := rfl
  conv at hdef => rhs; delta State.create
  rw [congrFun (congrFun (congrFun (congrFun hdef s) c) f) slot]; clear hdef
  repeat' first
    | with_reducible assumption
    | with_reducible refine State.resetCtxRegs_kept (Mask.sub hm (by decide)) ?_
    | with_reducible refine State.putCtx_kept (Mask.sub hm (by decide)) ?_
    | with_reducible refine Kept.ite ?_ ?_
    | (extract_lets -underBinder +onlyGivenNames x; subst x)
    | split
    | dsimp only

theorem execCreatePf_kept {m : Nat} {s0 s : State} {c : CtxId} {hpa : Bool} {hpb : Bool} (hm : 0x48 &&& m = 0x48) (h : Kept m s0 s) :
     OutKept m s0 (execCreatePf c hpa hpb s) := by
  have hdef : @execCreatePf = @execCreatePf := rfl
  conv at hdef => rhs; delta execCreatePf
  rw [congrFun (congrFun (congrFun (congrFun hdef c) hpa) hpb) s]; clear hdef
  repeat' first
    | with_reducible assumption
    | with_reducible refine State.create_kept (Mask.sub hm (by decide)) ?_
    | with_reducible refine OutKept.next ?_
    | with_reducible refine Kept.ite ?_ ?_
    | (extract_lets -underBinder +onlyGivenNames x; subst x)
    | split
    | dsimp only

theorem State.createVf_kept {m : Nat} {s0 s : State} {f : Nat} {j : Nat} (hm : 0x68 &&& m = 0x68) (h : Kept m s0 s) :
     Kept m s0 (State.createVf s f j) := by
  have hdef : @State.createVf = @State.createVf := rfl
  conv at hdef => rhs; delta State.createVf
  rw [congrFun (congrFun (congrFun hdef s) f) j]; clear hdef
  repeat' first
    | with_reducible assumption
    | with_reducible refine State.create_kept (Mask.sub hm (by decide)) ?_
    | with_reducible refine State.modFn_kept (Mask.sub hm (by decide)) ?_
    | with_reducible refine Kept.ite ?_ ?_
    | (extract_lets -underBinder +onlyGivenNames x; subst x)
    | split
    | dsimp only

theorem execCreateVf_kept {m : Nat} {s0 s : State} {f : FnId} {j : SlotId} (hm : 0x68 &&& m = 0x68) (h : Kept m s0 s) :
     OutKept m s0 (execCreateVf f j s) := by
  have hdef : @execCreateVf = @execCreateVf := rfl
  conv at hdef => rhs; delta execCreateVf
  rw [congrFun (congrFun (congrFun hdef f) j) s]; clear hdef
  repeat' first
    | with_reducible assumption
    | with_reducible refine State.createVf_kept (Mask.sub hm (by decide)) ?_
    | with_reducible refine OutKept.next ?_
    | with_reducible refine Kept.ite ?_ ?_
    | (extract_lets -underBinder +onlyGivenNames x; subst x)
    | split
    | dsimp only

theorem State.beginDestroy_kept {m : Nat} {s0 s : State} {c : Nat} (hm : 0xfef &&& m = 0xfef) (h : Kept m s0 s) :
     Kept m s0 (State.beginDestroy s c) := by
  have hdef : @State.beginDestroy = @State.beginDestroy := rfl
  conv at hdef => rhs; delta State.beginDestroy
  rw [congrFun (congrFun hdef s) c]; clear hdef
  repeat' first
    | with_reducible assumption
    | with_reducible refine State.enter_kept (Mask.sub hm (by decide)) ?_
    | with_reducible refine State.abandonHub_kept (Mask.sub hm (by decide)) ?_
    | with_reducible refine State.closeWindows_kept (Mask.sub hm (by decide)) ?_
    | with_reducible refine State.quiesce_kept (Mask.sub hm (by decide)) ?_
    | with_reducible refine Kept.ite ?_ ?_
    | (extract_lets -underBinder +onlyGivenNames x; subst x)
    | split
    | dsimp only

theorem State.endDestroy_kept {m : Nat} {s0 s : State} {c : Nat} (hm : 0x86f &&& m = 0x86f) (h : Kept m s0 s) :
     Kept m s0 (State.endDestroy s c) := by
  have hdef : @State.endDestroy = @State.endDestroy := rfl
  conv at hdef => rhs; delta State.endDestroy
  rw [congrFun (congrFun hdef s) c]; clear hdef
  repeat' first
    | with_reducible assumption
    | with_reducible refine State.resetCtxRegs_kept (Mask.sub hm (by decide)) ?_
    | with_reducible refine State.freeFrames_kept (Mask.sub hm (by decide)) ?_
    | with_reducible refine State.putCtx_kept (Mask.sub hm (by decide)) ?_
    | with_reducible refine Kept.ite ?_ ?_
    | (extract_lets -underBinder +onlyGivenNames x; subst x)
    | split
    | with_reducible refine Kept.mem (Mask.sub hm (by decide)) ?_ _ rfl
    | dsimp only

theorem State.destroyNow_kept {m : Nat} {s0 s : State} {c : Nat} (hm : 0xfef &&& m = 0xfef) (h : Kept m s0 s) :
     Kept m s0 (State.destroyNow s c) := by
  have hdef : @State.destroyNow = @State.destroyNow := rfl
  conv at hdef => rhs; delta State.destroyNow
  rw [congrFun (congrFun hdef s) c]; clear hdef
  repeat' first
    | with_reducible assumption
    | with_reducible refine State.endDestroy_kept (Mask.sub hm (by decide)) ?_
    | with_reducible refine State.beginDestroy_kept (Mask.sub hm (by decide)) ?_
    | with_reducible refine Kept.ite ?_ ?_
    | (extract_lets -underBinder +onlyGivenNames x; subst x)
    | split
    | dsimp only

theorem execDestroy_kept {m : Nat} {s0 s : State} {f : FnId} {c : CtxId} (hm : 0xfef &&& m = 0xfef) (h : Kept m s0 s) :
     OutKept m s0 (execDestroy f c s) := by
  have hdef : @execDestroy = @execDestroy := rfl
  conv at hdef => rhs; delta execDestroy
  rw [congrFun (congrFun (congrFun hdef f) c) s]; clear hdef
  repeat' first
    | with_reducible assumption
    | with_reducible refine State.beginDestroy_kept (Mask.sub hm (by decide)) ?_
    | with_reducible refine OutKept.next ?_
    | with_reducible refine Kept.ite ?_ ?_
    | (extract_lets -underBinder +onlyGivenNames x; subst x)
    | split
    | dsimp only

theorem execDestructionComplete_kept {m : Nat} {s0 s : State} {c : CtxId} (hm : 0x86f &&& m = 0x86f) (h : Kept m s0 s) :
     OutKept m s0 (execDestructionComplete c s) := by
  have hdef : @execDestructionComplete = @execDestructionComplete := rfl
  conv at hdef => rhs; delta execDestructionComplete
  rw [congrFun (congrFun hdef c) s]; clear hdef
  repeat' first
    | with_reducible assumption
    | with_reducible refine State.endDestroy_kept (Mask.sub hm (by decide)) ?_
    | with_reducible refine OutKept.next ?_
    | with_reducible refine Kept.ite ?_ ?_
    | (extract_lets -underBinder +onlyGivenNames x; subst x)
    | split
    | dsimp only

theorem State.finishRun_kept {m : Nat} {s0 s : State} {c : Nat} (hm : 0x849 &&& m = 0x849) (h : Kept m s0 s) :
     Kept m s0 (State.finishRun s c) := by
  have hdef : @State.finishRun = @State.finishRun := rfl
  conv at hdef => rhs; delta State.finishRun
  rw [congrFun (congrFun hdef s) c]; clear hdef
  repeat' first
    | with_reducible assumption
    | with_reducible refine State.enter_kept (Mask.sub hm (by decide)) ?_
    | with_reducible refine State.complete_kept (Mask.sub hm (by decide)) ?_
    | with_reducible refine Kept.ite ?_ ?_
    | (extract_lets -underBinder +onlyGivenNames x; subst x)
    | split
    | dsimp only

theorem execRunComplete_kept {m : Nat} {s0 s : State} {c : CtxId} (hm : 0x849 &&& m = 0x849) (h : Kept m s0 s) :
     OutKept m s0 (execRunComplete c s) := by
  have hdef : @execRunComplete = @execRunComplete := rfl
  conv at hdef => rhs; delta execRunComplete
  rw [congrFun (congrFun hdef c) s]; clear hdef
  repeat' first
    | with_reducible assumption
    | with_reducible refine State.finishRun_kept (Mask.sub hm (by decide)) ?_
    | with_reducible refine OutKept.next ?_
    | with_reducible refine Kept.ite ?_ ?_
    | (extract_lets -underBinder +onlyGivenNames x; subst x)
    | split
    | dsimp only

theorem State.startPreempt_kept {m : Nat} {s0 s : State} {c : Nat} {cause : Cause} (hm : 0x849 &&& m = 0x849) (h : Kept m s0 s) :
     Kept m s0 (State.startPreempt s c cause) := by
  have hdef : @State.startPreempt = @State.startPreempt := rfl
  conv at hdef => rhs; delta State.startPreempt
  rw [congrFun (congrFun (congrFun hdef s) c) cause]; clear hdef
  repeat' first
    | with_reducible assumption
    | with_reducible refine State.finishRun_kept (Mask.sub hm (by decide)) ?_
    | with_reducible refine State.beginPreempt_kept (Mask.sub hm (by decide)) ?_
    | with_reducible refine Kept.ite ?_ ?_
    | (extract_lets -underBinder +onlyGivenNames x; subst x)
    | split
    | dsimp only

theorem execPreempt_kept {m : Nat} {s0 s : State} {c : CtxId} {k : Nat} (hm : 0x849 &&& m = 0x849) (h : Kept m s0 s) :
     OutKept m s0 (execPreempt c k s) := by
  have hdef : @execPreempt = @execPreempt := rfl
  conv at hdef => rhs; delta execPreempt
  rw [congrFun (congrFun (congrFun hdef c) k) s]; clear hdef
  repeat' first
    | with_reducible assumption
    | with_reducible refine State.startPreempt_kept (Mask.sub hm (by decide)) ?_
    | with_reducible refine State.onCmd_kept (Mask.sub hm (by decide)) ?_ (fun _ => ?_)
    | with_reducible refine State.complete_kept (Mask.sub hm (by decide)) ?_
    | with_reducible refine State.setPhase_kept (Mask.sub hm (by decide)) ?_
    | with_reducible refine State.modCtx_kept (Mask.sub hm (by decide)) ?_
    | with_reducible refine OutKept.next ?_
    | with_reducible refine Kept.ite ?_ ?_
    | (extract_lets -underBinder +onlyGivenNames x; subst x)
    | split
    | dsimp only

theorem State.movePage_kept {m : Nat} {s0 s : State} {c : Nat} {k : Nat} {e : Pte} {mask : Nat} (hm : 0x86f &&& m = 0x86f) (h : Kept m s0 s) :
     AllO (Kept m s0) (State.movePage s c k e mask) := by
  have hdef : @State.movePage = @State.movePage := rfl
  conv at hdef => rhs; delta State.movePage
  rw [congrFun (congrFun (congrFun (congrFun (congrFun hdef s) c) k) e) mask]; clear hdef
  repeat' first
    | exact fun hw => wf_copyRange _ _ _ _ hw
    | with_reducible assumption
    | with_reducible refine State.allocBig_kept (Mask.sub hm (by decide)) ?_
    | with_reducible refine State.allocFrame_kept (Mask.sub hm (by decide)) ?_
    | with_reducible refine State.modPte_kept (Mask.sub hm (by decide)) ?_
    | with_reducible refine State.freeFrames_kept (Mask.sub hm (by decide)) ?_
    | with_reducible exact AllO.none_
    | with_reducible refine AllO.some_ ?_
    | with_reducible refine Kept.ofSomePair (by assumption) ?_
    | with_reducible refine Kept.ofSomeSnd (by assumption) ?_
    | with_reducible refine Kept.ite ?_ ?_
    | with_reducible refine Kept.iteSnd ?_ ?_
    | with_reducible refine Kept.iteFst ?_ ?_
    | (extract_lets -underBinder +onlyGivenNames x; subst x)
    | split
    | with_reducible refine Kept.hbm (Mask.sub hm (by decide)) ?_ _ ?_
    | with_reducible refine Kept.mem (Mask.sub hm (by decide)) ?_ _ rfl
    | with_reducible refine Kept.memAll (Mask.sub hm (by decide)) ?_ _ ?_
    | dsimp only

theorem State.movePages_kept {m : Nat} {s0 s : State} {c : Nat} {mask : Nat} {x1 : List (Nat × Pte)} (hm : 0x86f &&& m = 0x86f) (h : Kept m s0 s) :
     AllO (Kept m s0) (State.movePages s c mask x1) := by
  fun_induction State.movePages s c mask x1 <;> (try dsimp only at *)
  repeat' first
    | with_reducible assumption
    | with_reducible apply_assumption
    | with_reducible refine State.movePage_kept (Mask.sub hm (by decide)) ?_
    | with_reducible exact AllO.none_
    | with_reducible refine AllO.some_ ?_
    | with_reducible refine Kept.ofSome (by assumption) ?_
    | with_reducible refine Kept.ite ?_ ?_
    | (extract_lets -underBinder +onlyGivenNames x; subst x)
    | split
    | dsimp only

theorem State.movePinned_kept {m : Nat} {s0 s : State} {c : Nat} {x1 : Map Nat} (hm : 0x86f &&& m = 0x86f) (h : Kept m s0 s) :
     AllO (Kept m s0) (State.movePinned s c x1) := by
  fun_induction State.movePinned s c x1 <;> (try dsimp only at *)
  repeat' first
    | with_reducible assumption
    | with_reducible apply_assumption
    | with_reducible refine State.movePages_kept (Mask.sub hm (by decide)) ?_
    | with_reducible exact AllO.none_
    | with_reducible refine AllO.some_ ?_
    | with_reducible refine Kept.ofSome (by assumption) ?_
    | with_reducible refine Kept.ite ?_ ?_
    | (extract_lets -underBinder +onlyGivenNames x; subst x)
    | split
    | dsimp only

theorem State.startResume_kept {m : Nat} {s0 s : State} {c : Nat} {trigger : Nat} {sem : Option Nat} (hm : 0x8ef &&& m = 0x8ef) (h : Kept m s0 s) :
     AllO (Kept m s0) (State.startResume s c trigger sem) := by
  have hdef : @State.startResume = @State.startResume := rfl
  conv at hdef => rhs; delta State.startResume
  rw [congrFun (congrFun (congrFun (congrFun hdef s) c) trigger) sem]; clear hdef
  repeat' first
    | with_reducible assumption
    | with_reducible refine State.movePinned_kept (Mask.sub hm (by decide)) ?_
    | with_reducible refine State.findPlace_kept (Mask.sub hm (by decide)) ?_
    | with_reducible refine State.enter_kept (Mask.sub hm (by decide)) ?_
    | with_reducible refine State.takePlace_kept (Mask.sub hm (by decide)) ?_
    | with_reducible exact AllO.none_
    | with_reducible refine AllO.some_ ?_
    | with_reducible refine Kept.ofSome (by assumption) ?_
    | with_reducible refine Kept.ofSomePair (by assumption) ?_
    | with_reducible refine Kept.ofSomeSnd (by assumption) ?_
    | with_reducible refine Kept.ite ?_ ?_
    | with_reducible refine Kept.iteSnd ?_ ?_
    | with_reducible refine Kept.iteFst ?_ ?_
    | (extract_lets -underBinder +onlyGivenNames x; subst x)
    | split
    | dsimp only

theorem execResume_kept {m : Nat} {s0 s : State} {c : CtxId} {k : Nat} (hm : 0x8ef &&& m = 0x8ef) (h : Kept m s0 s) :
     OutKept m s0 (execResume c k s) := by
  have hdef : @execResume = @execResume := rfl
  conv at hdef => rhs; delta execResume
  rw [congrFun (congrFun (congrFun hdef c) k) s]; clear hdef
  repeat' first
    | with_reducible assumption
    | with_reducible refine State.startResume_kept (Mask.sub hm (by decide)) ?_
    | with_reducible refine State.onCmd_kept (Mask.sub hm (by decide)) ?_ (fun _ => ?_)
    | with_reducible refine State.complete_kept (Mask.sub hm (by decide)) ?_
    | with_reducible refine State.setPhase_kept (Mask.sub hm (by decide)) ?_
    | with_reducible refine State.modCtx_kept (Mask.sub hm (by decide)) ?_
    | with_reducible refine OutKept.next ?_
    | with_reducible refine Kept.ofSome (by assumption) ?_
    | with_reducible refine Kept.ite ?_ ?_
    | (extract_lets -underBinder +onlyGivenNames x; subst x)
    | split
    | dsimp only

theorem execPreemptionSaveComplete_kept {m : Nat} {s0 s : State} {c : CtxId} (hm : 0x8ef &&& m = 0x8ef) (h : Kept m s0 s) :
     OutKept m s0 (execPreemptionSaveComplete c s) := by
  have hdef : @execPreemptionSaveComplete = @execPreemptionSaveComplete := rfl
  conv at hdef => rhs; delta execPreemptionSaveComplete
  rw [congrFun (congrFun hdef c) s]; clear hdef
  repeat' first
    | with_reducible assumption
    | with_reducible refine State.startResume_kept (Mask.sub hm (by decide)) ?_
    | with_reducible refine State.endPreempt_kept (Mask.sub hm (by decide)) ?_
    | with_reducible refine State.complete_kept (Mask.sub hm (by decide)) ?_
    | with_reducible refine OutKept.next ?_
    | with_reducible refine Kept.ofSome (by assumption) ?_
    | with_reducible refine Kept.ite ?_ ?_
    | (extract_lets -underBinder +onlyGivenNames x; subst x)
    | split
    | dsimp only

theorem execResumptionComplete_kept {m : Nat} {s0 s : State} {c : CtxId} (hm : 0x8e9 &&& m = 0x8e9) (h : Kept m s0 s) :
     OutKept m s0 (execResumptionComplete c s) := by
  have hdef : @execResumptionComplete = @execResumptionComplete := rfl
  conv at hdef => rhs; delta execResumptionComplete
  rw [congrFun (congrFun hdef c) s]; clear hdef
  repeat' first
    | with_reducible assumption
    | with_reducible refine State.startPreempt_kept (Mask.sub hm (by decide)) ?_
    | with_reducible refine State.endResume_kept (Mask.sub hm (by decide)) ?_
    | with_reducible refine State.complete_kept (Mask.sub hm (by decide)) ?_
    | with_reducible refine OutKept.next ?_
    | with_reducible refine Kept.ite ?_ ?_
    | (extract_lets -underBinder +onlyGivenNames x; subst x)
    | split
    | dsimp only

theorem execDisplacedResume_kept {m : Nat} {s0 s : State} (hm : 0x8ef &&& m = 0x8ef) (h : Kept m s0 s) :
     OutKept m s0 (execDisplacedResume s) := by
  have hdef : @execDisplacedResume = @execDisplacedResume := rfl
  conv at hdef => rhs; delta execDisplacedResume
  rw [congrFun hdef s]; clear hdef
  repeat' first
    | with_reducible assumption
    | with_reducible refine State.movePinned_kept (Mask.sub hm (by decide)) ?_
    | with_reducible refine State.enter_kept (Mask.sub hm (by decide)) ?_
    | with_reducible refine State.takePlace_kept (Mask.sub hm (by decide)) ?_
    | with_reducible refine OutKept.next ?_
    | with_reducible refine Kept.ofSome (by assumption) ?_
    | with_reducible refine Kept.ite ?_ ?_
    | (extract_lets -underBinder +onlyGivenNames x; subst x)
    | split
    | dsimp only

theorem execPlaceHint_kept {m : Nat} {s0 s : State} {c : CtxId} {k : Nat} (hm : 0x849 &&& m = 0x849) (h : Kept m s0 s) :
     OutKept m s0 (execPlaceHint c k s) := by
  have hdef : @execPlaceHint = @execPlaceHint := rfl
  conv at hdef => rhs; delta execPlaceHint
  rw [congrFun (congrFun (congrFun hdef c) k) s]; clear hdef
  repeat' first
    | with_reducible assumption
    | with_reducible refine State.startPreempt_kept (Mask.sub hm (by decide)) ?_
    | with_reducible refine State.onCmd_kept (Mask.sub hm (by decide)) ?_ (fun _ => ?_)
    | with_reducible refine State.complete_kept (Mask.sub hm (by decide)) ?_
    | with_reducible refine State.putCtx_kept (Mask.sub hm (by decide)) ?_
    | with_reducible refine State.setPhase_kept (Mask.sub hm (by decide)) ?_
    | with_reducible refine OutKept.next ?_
    | with_reducible refine Kept.ite ?_ ?_
    | (extract_lets -underBinder +onlyGivenNames x; subst x)
    | split
    | dsimp only

end Sys2Proof.Machine
end

