-- ==== Sys2Proof/Laws/KeptEngine.lean ====
section
/-!
SUPPORT. What the operations of Sys2Proof/Machine/Engine.lean keep (Laws/Kept.lean).
-/
namespace Sys2Proof.Machine

theorem State.takeFlag_kept {m : Nat} {s0 s : State} {c : Nat} {w : Nat} (hm : 0x40 &&& m = 0x40) (h : Kept m s0 s) :
     Kept m s0 (State.takeFlag s c w) := by
  have hdef : @State.takeFlag = @State.takeFlag := rfl
  conv at hdef => rhs; delta State.takeFlag
  rw [congrFun (congrFun (congrFun hdef s) c) w]; clear hdef
  repeat' first
    | with_reducible assumption
    | with_reducible refine State.setFlag_kept (Mask.sub hm (by decide)) ?_
    | with_reducible refine Kept.ite ?_ ?_
    | (extract_lets -underBinder +onlyGivenNames x; subst x)
    | split
    | dsimp only

theorem State.beginOp_kept {m : Nat} {s0 s : State} {n : Nat} {u_ : Nat} {c : Nat} {op : FifoOp} (hm : 0xc0 &&& m = 0xc0) (h : Kept m s0 s) :
     Kept m s0 (State.beginOp s n u_ c op) := by
  have hdef : @State.beginOp = @State.beginOp := rfl
  conv at hdef => rhs; delta State.beginOp
  rw [congrFun (congrFun (congrFun (congrFun (congrFun hdef s) n) u_) c) op]; clear hdef
  repeat' first
    | with_reducible assumption
    | with_reducible refine State.takeFlag_kept (Mask.sub hm (by decide)) ?_
    | with_reducible refine State.progress_kept (Mask.sub hm (by decide)) ?_
    | with_reducible refine State.modAu_kept (Mask.sub hm (by decide)) ?_
    | with_reducible refine Kept.ite ?_ ?_
    | (extract_lets -underBinder +onlyGivenNames x; subst x)
    | split
    | dsimp only

theorem State.startUnit_kept {m : Nat} {s0 s : State} {n : Nat} {u_ : Nat} {wen : Bool} {ready : Nat → FifoOp → Bool} {onStart : Nat → FifoOp → State → State} (hm : 0xc0 &&& m = 0xc0) (h : Kept m s0 s) (h_onStart : ∀ a0 a1 a2, Kept m s0 a2 → Kept m s0 (onStart a0 a1 a2)) :
     Kept m s0 (State.startUnit s n u_ wen ready onStart) := by
  have hdef : @State.startUnit = @State.startUnit := rfl
  conv at hdef => rhs; delta State.startUnit
  rw [congrFun (congrFun (congrFun (congrFun (congrFun (congrFun hdef s) n) u_) wen) ready) onStart]; clear hdef
  repeat' first
    | with_reducible assumption
    | with_reducible refine State.beginOp_kept (Mask.sub hm (by decide)) ?_
    | with_reducible refine h_onStart _ _ _ ?_
    | with_reducible refine Kept.ite ?_ ?_
    | (extract_lets -underBinder +onlyGivenNames x; subst x)
    | split
    | dsimp only

theorem State.endOp_kept {m : Nat} {s0 s : State} {n : Nat} {u_ : Nat} (hm : 0x80 &&& m = 0x80) (h : Kept m s0 s) :
     Kept m s0 (State.endOp s n u_) := by
  have hdef : @State.endOp = @State.endOp := rfl
  conv at hdef => rhs; delta State.endOp
  rw [congrFun (congrFun (congrFun hdef s) n) u_]; clear hdef
  repeat' first
    | with_reducible assumption
    | with_reducible refine State.modAu_kept (Mask.sub hm (by decide)) ?_
    | with_reducible refine Kept.ite ?_ ?_
    | (extract_lets -underBinder +onlyGivenNames x; subst x)
    | split
    | dsimp only

theorem State.popOp_kept {m : Nat} {s0 s : State} {n : Nat} {e : Nat} {c : Nat} {op : FifoOp} (hm : 0xc0 &&& m = 0xc0) (h : Kept m s0 s) :
     Kept m s0 (State.popOp s n e c op) := by
  have hdef : @State.popOp = @State.popOp := rfl
  conv at hdef => rhs; delta State.popOp
  rw [congrFun (congrFun (congrFun (congrFun (congrFun hdef s) n) e) c) op]; clear hdef
  repeat' first
    | with_reducible assumption
    | with_reducible refine State.takeFlag_kept (Mask.sub hm (by decide)) ?_
    | with_reducible refine State.progress_kept (Mask.sub hm (by decide)) ?_
    | with_reducible refine State.modAu_kept (Mask.sub hm (by decide)) ?_
    | with_reducible refine Kept.ite ?_ ?_
    | (extract_lets -underBinder +onlyGivenNames x; subst x)
    | split
    | dsimp only

theorem State.flagOp_kept {m : Nat} {s0 s : State} {n : Nat} {e : Nat} {k : Nat} {v : Bool} (hm : 0xc0 &&& m = 0xc0) (h : Kept m s0 s) :
     Kept m s0 (State.flagOp s n e k v) := by
  have hdef : @State.flagOp = @State.flagOp := rfl
  conv at hdef => rhs; delta State.flagOp
  rw [congrFun (congrFun (congrFun (congrFun (congrFun hdef s) n) e) k) v]; clear hdef
  repeat' first
    | with_reducible assumption
    | with_reducible refine State.popOp_kept (Mask.sub hm (by decide)) ?_
    | with_reducible refine State.setFlag_kept (Mask.sub hm (by decide)) ?_
    | with_reducible refine Kept.ite ?_ ?_
    | (extract_lets -underBinder +onlyGivenNames x; subst x)
    | split
    | dsimp only

theorem execSetf_kept {m : Nat} {s0 s : State} {a : AuId} {e : EngId} (hm : 0xc0 &&& m = 0xc0) (h : Kept m s0 s) :
     OutKept m s0 (execSetf a e s) := by
  have hdef : @execSetf = @execSetf := rfl
  conv at hdef => rhs; delta execSetf
  rw [congrFun (congrFun (congrFun hdef a) e) s]; clear hdef
  repeat' first
    | with_reducible assumption
    | with_reducible refine State.flagOp_kept (Mask.sub hm (by decide)) ?_
    | with_reducible refine OutKept.next ?_
    | with_reducible refine Kept.ite ?_ ?_
    | (extract_lets -underBinder +onlyGivenNames x; subst x)
    | split
    | dsimp only

theorem execClrf_kept {m : Nat} {s0 s : State} {a : AuId} {e : EngId} (hm : 0xc0 &&& m = 0xc0) (h : Kept m s0 s) :
     OutKept m s0 (execClrf a e s) := by
  have hdef : @execClrf = @execClrf := rfl
  conv at hdef => rhs; delta execClrf
  rw [congrFun (congrFun (congrFun hdef a) e) s]; clear hdef
  repeat' first
    | with_reducible assumption
    | with_reducible refine State.flagOp_kept (Mask.sub hm (by decide)) ?_
    | with_reducible refine OutKept.next ?_
    | with_reducible refine Kept.ite ?_ ?_
    | (extract_lets -underBinder +onlyGivenNames x; subst x)
    | split
    | dsimp only

theorem execNop_kept {m : Nat} {s0 s : State} {a : AuId} {e : EngId} (hm : 0xc0 &&& m = 0xc0) (h : Kept m s0 s) :
     OutKept m s0 (execNop a e s) := by
  have hdef : @execNop = @execNop := rfl
  conv at hdef => rhs; delta execNop
  rw [congrFun (congrFun (congrFun hdef a) e) s]; clear hdef
  repeat' first
    | with_reducible assumption
    | with_reducible refine State.popOp_kept (Mask.sub hm (by decide)) ?_
    | with_reducible refine OutKept.next ?_
    | with_reducible refine Kept.ite ?_ ?_
    | (extract_lets -underBinder +onlyGivenNames x; subst x)
    | split
    | dsimp only

end Sys2Proof.Machine
end

