-- ==== Sys2Proof/Laws/KeptXfer.lean ====
section
/-!
SUPPORT. What the operations of Sys2Proof/Machine/Xfer.lean keep (Laws/Kept.lean).
-/
namespace Sys2Proof.Machine

theorem State.endMoveVisit_kept {m : Nat} {s0 s : State} {n : Nat} {c : Nat} {dst : Bool} {ncons : Nat} (hm : 0x80 &&& m = 0x80) (h : Kept m s0 s) :
     Kept m s0 (State.endMoveVisit s n c dst ncons) := by
  have hdef : @State.endMoveVisit = @State.endMoveVisit := rfl
  conv at hdef => rhs; delta State.endMoveVisit
  rw [congrFun (congrFun (congrFun (congrFun (congrFun hdef s) n) c) dst) ncons]; clear hdef
  repeat' first
    | with_reducible assumption
    | with_reducible refine State.modAu_kept (Mask.sub hm (by decide)) ?_
    | with_reducible refine Kept.ite ?_ ?_
    | (extract_lets -underBinder +onlyGivenNames x; subst x)
    | split
    | dsimp only

theorem State.endMoveVisits_kept {m : Nat} {s0 s : State} {n : Nat} {c : Nat} (hm : 0x80 &&& m = 0x80) (h : Kept m s0 s) :
     Kept m s0 (State.endMoveVisits s n c) := by
  have hdef : @State.endMoveVisits = @State.endMoveVisits := rfl
  conv at hdef => rhs; delta State.endMoveVisits
  rw [congrFun (congrFun (congrFun hdef s) n) c]; clear hdef
  repeat' first
    | with_reducible assumption
    | with_reducible refine State.endMoveVisit_kept (Mask.sub hm (by decide)) ?_
    | with_reducible refine Kept.ite ?_ ?_
    | (extract_lets -underBinder +onlyGivenNames x; subst x)
    | split
    | dsimp only

theorem State.moveWaitSlot_kept {m : Nat} {s0 s : State} {n : Nat} {c : Nat} {op : ActiveOp} {dst : Bool} (hm : 0x80 &&& m = 0x80) (h : Kept m s0 s) :
     Kept m s0 (State.moveWaitSlot s n c op dst) := by
  have hdef : @State.moveWaitSlot = @State.moveWaitSlot := rfl
  conv at hdef => rhs; delta State.moveWaitSlot
  rw [congrFun (congrFun (congrFun (congrFun (congrFun hdef s) n) c) op) dst]; clear hdef
  repeat' first
    | with_reducible assumption
    | with_reducible refine State.modAu_kept (Mask.sub hm (by decide)) ?_
    | with_reducible refine Kept.ite ?_ ?_
    | (extract_lets -underBinder +onlyGivenNames x; subst x)
    | split
    | dsimp only

theorem State.beginMoveVisit_kept {m : Nat} {s0 s0_ : State} {n : Nat} {c : Nat} (hm : 0x80 &&& m = 0x80) (h : Kept m s0 s0_) :
     Kept m s0 (State.beginMoveVisit s0_ n c) := by
  have hdef : @State.beginMoveVisit = @State.beginMoveVisit := rfl
  conv at hdef => rhs; delta State.beginMoveVisit
  rw [congrFun (congrFun (congrFun hdef s0_) n) c]; clear hdef
  repeat' first
    | with_reducible assumption
    | with_reducible refine State.endMoveVisits_kept (Mask.sub hm (by decide)) ?_
    | with_reducible refine State.modAu_kept (Mask.sub hm (by decide)) ?_
    | with_reducible refine Kept.ite ?_ ?_
    | (extract_lets -underBinder +onlyGivenNames x; subst x)
    | split
    | dsimp only

theorem State.issueMove_kept {m : Nat} {s0 s : State} {n : Nat} {c : Nat} {op : ActiveOp} (hm : 0xfef &&& m = 0xfef) (h : Kept m s0 s) :
     Kept m s0 (State.issueMove s n c op) := by
  have hdef : @State.issueMove = @State.issueMove := rfl
  conv at hdef => rhs; delta State.issueMove
  rw [congrFun (congrFun (congrFun (congrFun hdef s) n) c) op]; clear hdef
  repeat' first
    | with_reducible assumption
    | with_reducible refine State.moveWaitSlot_kept (Mask.sub hm (by decide)) ?_
    | with_reducible refine State.want_kept (Mask.sub hm (by decide)) ?_
    | with_reducible refine State.memFault_kept (Mask.sub hm (by decide)) ?_
    | with_reducible refine State.issueSeg_kept (Mask.sub hm (by decide)) ?_
    | with_reducible refine State.progress_kept (Mask.sub hm (by decide)) ?_
    | with_reducible refine State.modAu_kept (Mask.sub hm (by decide)) ?_
    | with_reducible refine Kept.ofSome (by assumption) ?_
    | with_reducible refine Kept.ite ?_ ?_
    | (extract_lets -underBinder +onlyGivenNames x; subst x)
    | split
    | dsimp only

end Sys2Proof.Machine
end

