-- ==== Sys2Proof/Laws/KeptHawk.lean ====
section
/-!
SUPPORT. What the operations of Sys2Proof/Machine/Hawk.lean keep (Laws/Kept.lean).
-/
namespace Sys2Proof.Machine

theorem State.beginStnVisit_kept {m : Nat} {s0 s : State} {n : Nat} {st : Nat} (hm : 0x80 &&& m = 0x80) (h : Kept m s0 s) :
     Kept m s0 (State.beginStnVisit s n st) := by
  have hdef : @State.beginStnVisit = @State.beginStnVisit := rfl
  conv at hdef => rhs; delta State.beginStnVisit
  rw [congrFun (congrFun (congrFun hdef s) n) st]; clear hdef
  repeat' first
    | with_reducible assumption
    | with_reducible refine State.modAu_kept (Mask.sub hm (by decide)) ?_
    | with_reducible refine Kept.ite ?_ ?_
    | (extract_lets -underBinder +onlyGivenNames x; subst x)
    | split
    | dsimp only

theorem execSlotVisitBegin_kept {m : Nat} {s0 s : State} {a : AuId} {g : AgentId} (hm : 0xc0 &&& m = 0xc0) (h : Kept m s0 s) :
     OutKept m s0 (execSlotVisitBegin a g s) := by
  have hdef : @execSlotVisitBegin = @execSlotVisitBegin := rfl
  conv at hdef => rhs; delta execSlotVisitBegin
  rw [congrFun (congrFun (congrFun hdef a) g) s]; clear hdef
  repeat' first
    | with_reducible assumption
    | with_reducible refine State.beginStnVisit_kept (Mask.sub hm (by decide)) ?_
    | with_reducible refine State.progress_kept (Mask.sub hm (by decide)) ?_
    | with_reducible refine State.beginMoveVisit_kept (Mask.sub hm (by decide)) ?_
    | with_reducible refine OutKept.next ?_
    | with_reducible refine Kept.ite ?_ ?_
    | (extract_lets -underBinder +onlyGivenNames x; subst x)
    | split
    | dsimp only

theorem execSlotVisitEnd_kept {m : Nat} {s0 s : State} {a : AuId} {g : AgentId} (hm : 0xc0 &&& m = 0xc0) (h : Kept m s0 s) :
     OutKept m s0 (execSlotVisitEnd a g s) := by
  have hdef : @execSlotVisitEnd = @execSlotVisitEnd := rfl
  conv at hdef => rhs; delta execSlotVisitEnd
  rw [congrFun (congrFun (congrFun hdef a) g) s]; clear hdef
  repeat' first
    | with_reducible assumption
    | with_reducible refine State.progress_kept (Mask.sub hm (by decide)) ?_
    | with_reducible refine State.modAu_kept (Mask.sub hm (by decide)) ?_
    | with_reducible refine State.endMoveVisits_kept (Mask.sub hm (by decide)) ?_
    | with_reducible refine OutKept.next ?_
    | with_reducible refine Kept.ite ?_ ?_
    | (extract_lets -underBinder +onlyGivenNames x; subst x)
    | split
    | dsimp only

theorem State.slotTimeout_kept {m : Nat} {s0 s : State} {n : Nat} {holder : Nat} {slot : Nat} {agent : Nat} {stn : Nat} {limit : Nat} (hm : 0xfef &&& m = 0xfef) (h : Kept m s0 s) :
     Kept m s0 (State.slotTimeout s n holder slot agent stn limit) := by
  have hdef : @State.slotTimeout = @State.slotTimeout := rfl
  conv at hdef => rhs; delta State.slotTimeout
  rw [congrFun (congrFun (congrFun (congrFun (congrFun (congrFun (congrFun hdef s) n) holder) slot) agent) stn) limit]; clear hdef
  repeat' first
    | with_reducible assumption
    | with_reducible refine State.faultCtx_kept (Mask.sub hm (by decide)) ?_
    | with_reducible refine State.flagCount_kept (Mask.sub hm (by decide)) ?_
    | with_reducible refine Kept.ite ?_ ?_
    | (extract_lets -underBinder +onlyGivenNames x; subst x)
    | split
    | dsimp only

theorem execSlotTimeout_kept {m : Nat} {s0 s : State} {a : AuId} {g : AgentId} {t : Nat} (hm : 0x8fef &&& m = 0x8fef) (h : Kept m s0 s) :
     OutKept m s0 (execSlotTimeout a g t s) := by
  have hdef : @execSlotTimeout = @execSlotTimeout := rfl
  conv at hdef => rhs; delta execSlotTimeout
  rw [congrFun (congrFun (congrFun (congrFun hdef a) g) t) s]; clear hdef
  repeat' first
    | with_reducible assumption
    | with_reducible refine State.slotTimeout_kept (Mask.sub hm (by decide)) ?_
    | with_reducible refine State.at_kept (Mask.sub hm (by decide)) ?_
    | with_reducible refine OutKept.next ?_
    | with_reducible refine Kept.getD_ ?_ ?_
    | with_reducible refine Kept.ite ?_ ?_
    | (extract_lets -underBinder +onlyGivenNames x; subst x)
    | split
    | dsimp only

theorem execHawkHotWindowEnd_kept {m : Nat} {s0 s : State} {a : AuId} {banks : List Nat} {t : Nat} (hm : 0x88a9 &&& m = 0x88a9) (h : Kept m s0 s) :
     OutKept m s0 (execHawkHotWindowEnd a banks t s) := by
  have hdef : @execHawkHotWindowEnd = @execHawkHotWindowEnd := rfl
  conv at hdef => rhs; delta execHawkHotWindowEnd
  rw [congrFun (congrFun (congrFun (congrFun hdef a) banks) t) s]; clear hdef
  repeat' first
    | with_reducible assumption
    | with_reducible refine State.at_kept (Mask.sub hm (by decide)) ?_
    | with_reducible refine State.count_kept (Mask.sub hm (by decide)) ?_
    | with_reducible refine State.setReg_kept (Mask.sub hm (by decide)) ?_
    | with_reducible refine State.modAu_kept (Mask.sub hm (by decide)) ?_
    | with_reducible refine State.setFld_kept (Mask.sub hm (by decide)) ?_
    | with_reducible refine State.raise_kept (Mask.sub hm (by decide)) ?_
    | with_reducible refine Kept.foldl (fun _ _ _ => ?_) _ ?_
    | with_reducible refine OutKept.next ?_
    | with_reducible refine Kept.ite ?_ ?_
    | (extract_lets -underBinder +onlyGivenNames x; subst x)
    | split
    | dsimp only

theorem State.memUncorr_kept {m : Nat} {s0 s : State} {src : Nat} {unit : Nat} {n : Nat} {addr : Nat} {owner : Option Nat} (hm : 0xfef &&& m = 0xfef) (h : Kept m s0 s) :
     Kept m s0 (State.memUncorr s src unit n addr owner) := by
  have hdef : @State.memUncorr = @State.memUncorr := rfl
  conv at hdef => rhs; delta State.memUncorr
  rw [congrFun (congrFun (congrFun (congrFun (congrFun (congrFun hdef s) src) unit) n) addr) owner]; clear hdef
  repeat' first
    | with_reducible assumption
    | with_reducible refine State.flagCount_kept (Mask.sub hm (by decide)) ?_
    | with_reducible refine State.faultCtx_kept (Mask.sub hm (by decide)) ?_
    | with_reducible refine State.raise_kept (Mask.sub hm (by decide)) ?_
    | with_reducible refine Kept.ite ?_ ?_
    | (extract_lets -underBinder +onlyGivenNames x; subst x)
    | split
    | dsimp only

theorem execHawkEccError_kept {m : Nat} {s0 s : State} {a : AuId} {off : Nat} {uncorr : Bool} (hm : 0xfef &&& m = 0xfef) (h : Kept m s0 s) :
     OutKept m s0 (execHawkEccError a off uncorr s) := by
  have hdef : @execHawkEccError = @execHawkEccError := rfl
  conv at hdef => rhs; delta execHawkEccError
  rw [congrFun (congrFun (congrFun (congrFun hdef a) off) uncorr) s]; clear hdef
  repeat' first
    | with_reducible assumption
    | with_reducible refine State.memUncorr_kept (Mask.sub hm (by decide)) ?_
    | with_reducible refine State.total_kept (Mask.sub hm (by decide)) ?_
    | with_reducible refine State.count_kept (Mask.sub hm (by decide)) ?_
    | with_reducible refine State.setFld_kept (Mask.sub hm (by decide)) ?_
    | with_reducible refine OutKept.next ?_
    | with_reducible refine Kept.ite ?_ ?_
    | (extract_lets -underBinder +onlyGivenNames x; subst x)
    | split
    | dsimp only

theorem execHawkDebugRead_kept {m : Nat} {s0 s : State} {f : FnId} {a : AuId} {off : Nat} (hm : 0x20000 &&& m = 0x20000) (h : Kept m s0 s) :
     OutKept m s0 (execHawkDebugRead f a off s) := by
  have hdef : @execHawkDebugRead = @execHawkDebugRead := rfl
  conv at hdef => rhs; delta execHawkDebugRead
  rw [congrFun (congrFun (congrFun (congrFun hdef f) a) off) s]; clear hdef
  repeat' first
    | with_reducible assumption
    | with_reducible refine OutKept.next ?_
    | with_reducible refine Kept.ite ?_ ?_
    | (extract_lets -underBinder +onlyGivenNames x; subst x)
    | split
    | with_reducible refine Kept.answer (Mask.sub hm (by decide)) ?_ _
    | dsimp only

end Sys2Proof.Machine
end

