-- ==== Sys2Proof/Laws/KeptArray.lean ====
section
/-!
SUPPORT. What the operations of Sys2Proof/Machine/Array.lean keep (Laws/Kept.lean).
-/
namespace Sys2Proof.Machine

theorem State.fmtMismatch_kept {m : Nat} {s0 s : State} {n : Nat} {c : Nat} {qmask : Nat} (hm : 0xfef &&& m = 0xfef) (h : Kept m s0 s) :
     Kept m s0 (State.fmtMismatch s n c qmask) := by
  have hdef : @State.fmtMismatch = @State.fmtMismatch := rfl
  conv at hdef => rhs; delta State.fmtMismatch
  rw [congrFun (congrFun (congrFun (congrFun hdef s) n) c) qmask]; clear hdef
  repeat' first
    | with_reducible assumption
    | with_reducible refine State.faultCtx_kept (Mask.sub hm (by decide)) ?_
    | with_reducible refine State.flagCount_kept (Mask.sub hm (by decide)) ?_
    | with_reducible refine Kept.ite ?_ ?_
    | (extract_lets -underBinder +onlyGivenNames x; subst x)
    | split
    | dsimp only

theorem State.accFlags_kept {m : Nat} {s0 s : State} {n : Nat} {c : Nat} {qmask : Nat} {nonfin : Nat} {sat : Nat} {op : ActiveOp} (hm : 0x829 &&& m = 0x829) (h : Kept m s0 s) :
     Kept m s0 (State.accFlags s n c qmask nonfin sat op) := by
  have hdef : @State.accFlags = @State.accFlags := rfl
  conv at hdef => rhs; delta State.accFlags
  rw [congrFun (congrFun (congrFun (congrFun (congrFun (congrFun (congrFun hdef s) n) c) qmask) nonfin) sat) op]; clear hdef
  repeat' first
    | with_reducible assumption
    | with_reducible refine State.setFld_kept (Mask.sub hm (by decide)) ?_
    | with_reducible refine State.raise_kept (Mask.sub hm (by decide)) ?_
    | with_reducible refine State.count_kept (Mask.sub hm (by decide)) ?_
    | with_reducible refine Kept.ite ?_ ?_
    | (extract_lets -underBinder +onlyGivenNames x; subst x)
    | split
    | dsimp only

theorem State.computeRow_kept {m : Nat} {s0 s : State} {n : Nat} {c : Nat} {op : ActiveOp} (hm : 0x10fef &&& m = 0x10fef) (h : Kept m s0 s) :
     Kept m s0 (State.computeRow s n c op) := by
  have hdef : @State.computeRow = @State.computeRow := rfl
  conv at hdef => rhs; delta State.computeRow
  rw [congrFun (congrFun (congrFun (congrFun hdef s) n) c) op]; clear hdef
  repeat' first
    | with_reducible assumption
    | with_reducible refine State.accFlags_kept (Mask.sub hm (by decide)) ?_
    | with_reducible refine State.fmtMismatch_kept (Mask.sub hm (by decide)) ?_
    | with_reducible refine State.putAu_kept (Mask.sub hm (by decide)) ?_
    | with_reducible refine State.pick_kept (Mask.sub hm (by decide)) ?_
    | with_reducible refine State.faultCtx_kept (Mask.sub hm (by decide)) ?_
    | with_reducible refine State.flagCount_kept (Mask.sub hm (by decide)) ?_
    | with_reducible refine State.setReg64_kept (Mask.sub hm (by decide)) ?_
    | with_reducible refine State.progress_kept (Mask.sub hm (by decide)) ?_
    | with_reducible refine Kept.ofPair (by assumption) ?_
    | with_reducible refine Kept.ite ?_ ?_
    | with_reducible refine Kept.iteSnd ?_ ?_
    | with_reducible refine Kept.iteFst ?_ ?_
    | (extract_lets -underBinder +onlyGivenNames x; subst x)
    | split
    | dsimp only

theorem State.startCompute_kept {m : Nat} {s0 s : State} {n : Nat} {wen : Bool} (hm : 0xc0 &&& m = 0xc0) (h : Kept m s0 s) :
     Kept m s0 (State.startCompute s n wen) := by
  have hdef : @State.startCompute = @State.startCompute := rfl
  conv at hdef => rhs; delta State.startCompute
  rw [congrFun (congrFun (congrFun hdef s) n) wen]; clear hdef
  repeat' first
    | with_reducible assumption
    | with_reducible refine State.startUnit_kept (Mask.sub hm (by decide)) ?_ (fun _ _ _ _ => ?_)
    | with_reducible refine Kept.ite ?_ ?_
    | (extract_lets -underBinder +onlyGivenNames x; subst x)
    | split
    | dsimp only

theorem execCompute_kept {m : Nat} {s0 s : State} {a : AuId} (hm : 0x10fef &&& m = 0x10fef) (h : Kept m s0 s) :
     OutKept m s0 (execCompute a s) := by
  have hdef : @execCompute = @execCompute := rfl
  conv at hdef => rhs; delta execCompute
  rw [congrFun (congrFun hdef a) s]; clear hdef
  repeat' first
    | with_reducible assumption
    | with_reducible refine State.startCompute_kept (Mask.sub hm (by decide)) ?_
    | with_reducible refine State.computeRow_kept (Mask.sub hm (by decide)) ?_
    | with_reducible refine OutKept.next ?_
    | with_reducible refine Kept.ite ?_ ?_
    | (extract_lets -underBinder +onlyGivenNames x; subst x)
    | split
    | dsimp only

theorem execSwapBankHeld_kept {m : Nat} {s0 s : State} {a : AuId} (hm : 0x10fef &&& m = 0x10fef) (h : Kept m s0 s) :
     OutKept m s0 (execSwapBankHeld a s) := by
  have hdef : @execSwapBankHeld = @execSwapBankHeld := rfl
  conv at hdef => rhs; delta execSwapBankHeld
  rw [congrFun (congrFun hdef a) s]; clear hdef
  repeat' first
    | with_reducible assumption
    | with_reducible refine State.computeRow_kept (Mask.sub hm (by decide)) ?_
    | with_reducible refine OutKept.next ?_
    | with_reducible refine Kept.ite ?_ ?_
    | (extract_lets -underBinder +onlyGivenNames x; subst x)
    | split
    | dsimp only

theorem State.startLoad_kept {m : Nat} {s0 s : State} {n : Nat} {wen : Bool} (hm : 0xc0 &&& m = 0xc0) (h : Kept m s0 s) :
     Kept m s0 (State.startLoad s n wen) := by
  have hdef : @State.startLoad = @State.startLoad := rfl
  conv at hdef => rhs; delta State.startLoad
  rw [congrFun (congrFun (congrFun hdef s) n) wen]; clear hdef
  repeat' first
    | with_reducible assumption
    | with_reducible refine State.startUnit_kept (Mask.sub hm (by decide)) ?_ (fun _ _ _ _ => ?_)
    | with_reducible refine State.modAu_kept (Mask.sub hm (by decide)) ?_
    | with_reducible refine Kept.ite ?_ ?_
    | (extract_lets -underBinder +onlyGivenNames x; subst x)
    | split
    | dsimp only

theorem execWload_kept {m : Nat} {s0 s : State} {a : AuId} (hm : 0xc0 &&& m = 0xc0) (h : Kept m s0 s) :
     OutKept m s0 (execWload a s) := by
  have hdef : @execWload = @execWload := rfl
  conv at hdef => rhs; delta execWload
  rw [congrFun (congrFun hdef a) s]; clear hdef
  repeat' first
    | with_reducible assumption
    | with_reducible refine State.startLoad_kept (Mask.sub hm (by decide)) ?_
    | with_reducible refine State.progress_kept (Mask.sub hm (by decide)) ?_
    | with_reducible refine State.modAu_kept (Mask.sub hm (by decide)) ?_
    | with_reducible refine Kept.foldl (fun _ _ _ => ?_) _ ?_
    | with_reducible refine OutKept.next ?_
    | with_reducible refine Kept.ite ?_ ?_
    | (extract_lets -underBinder +onlyGivenNames x; subst x)
    | split
    | dsimp only

theorem execWloadComplete_kept {m : Nat} {s0 s : State} {a : AuId} (hm : 0xc0 &&& m = 0xc0) (h : Kept m s0 s) :
     OutKept m s0 (execWloadComplete a s) := by
  have hdef : @execWloadComplete = @execWloadComplete := rfl
  conv at hdef => rhs; delta execWloadComplete
  rw [congrFun (congrFun hdef a) s]; clear hdef
  repeat' first
    | with_reducible assumption
    | with_reducible refine State.progress_kept (Mask.sub hm (by decide)) ?_
    | with_reducible refine State.endOp_kept (Mask.sub hm (by decide)) ?_
    | with_reducible refine State.modAu_kept (Mask.sub hm (by decide)) ?_
    | with_reducible refine Kept.foldl (fun _ _ _ => ?_) _ ?_
    | with_reducible refine OutKept.next ?_
    | with_reducible refine Kept.ite ?_ ?_
    | (extract_lets -underBinder +onlyGivenNames x; subst x)
    | split
    | dsimp only

theorem execAdaptLoad_kept {m : Nat} {s0 s : State} {a : AuId} (hm : 0xc0 &&& m = 0xc0) (h : Kept m s0 s) :
     OutKept m s0 (execAdaptLoad a s) := by
  have hdef : @execAdaptLoad = @execAdaptLoad := rfl
  conv at hdef => rhs; delta execAdaptLoad
  rw [congrFun (congrFun hdef a) s]; clear hdef
  repeat' first
    | with_reducible assumption
    | with_reducible refine State.startLoad_kept (Mask.sub hm (by decide)) ?_
    | with_reducible refine State.progress_kept (Mask.sub hm (by decide)) ?_
    | with_reducible refine State.putAu_kept (Mask.sub hm (by decide)) ?_
    | with_reducible refine State.endOp_kept (Mask.sub hm (by decide)) ?_
    | with_reducible refine OutKept.next ?_
    | with_reducible refine Kept.ite ?_ ?_
    | (extract_lets -underBinder +onlyGivenNames x; subst x)
    | split
    | dsimp only

theorem State.startDrain_kept {m : Nat} {s0 s : State} {n : Nat} {wen : Bool} (hm : 0xfef &&& m = 0xfef) (h : Kept m s0 s) :
     Kept m s0 (State.startDrain s n wen) := by
  have hdef : @State.startDrain = @State.startDrain := rfl
  conv at hdef => rhs; delta State.startDrain
  rw [congrFun (congrFun (congrFun hdef s) n) wen]; clear hdef
  repeat' first
    | with_reducible assumption
    | with_reducible refine State.fmtMismatch_kept (Mask.sub hm (by decide)) ?_
    | with_reducible refine State.startUnit_kept (Mask.sub hm (by decide)) ?_ (fun _ _ _ _ => ?_)
    | with_reducible refine Kept.ite ?_ ?_
    | (extract_lets -underBinder +onlyGivenNames x; subst x)
    | split
    | dsimp only

theorem State.drainStep_kept {m : Nat} {s0 s : State} {n : Nat} {c : Nat} {op : ActiveOp} (hm : 0xc0 &&& m = 0xc0) (h : Kept m s0 s) :
     Kept m s0 (State.drainStep s n c op) := by
  have hdef : @State.drainStep = @State.drainStep := rfl
  conv at hdef => rhs; delta State.drainStep
  rw [congrFun (congrFun (congrFun (congrFun hdef s) n) c) op]; clear hdef
  repeat' first
    | with_reducible assumption
    | with_reducible refine State.progress_kept (Mask.sub hm (by decide)) ?_
    | with_reducible refine State.putAu_kept (Mask.sub hm (by decide)) ?_
    | with_reducible refine Kept.getD_ ?_ ?_
    | with_reducible refine Kept.ite ?_ ?_
    | (extract_lets -underBinder +onlyGivenNames x; subst x)
    | split
    | dsimp only

theorem execDrain_kept {m : Nat} {s0 s : State} {a : AuId} (hm : 0xfef &&& m = 0xfef) (h : Kept m s0 s) :
     OutKept m s0 (execDrain a s) := by
  have hdef : @execDrain = @execDrain := rfl
  conv at hdef => rhs; delta execDrain
  rw [congrFun (congrFun hdef a) s]; clear hdef
  repeat' first
    | with_reducible assumption
    | with_reducible refine State.drainStep_kept (Mask.sub hm (by decide)) ?_
    | with_reducible refine State.startDrain_kept (Mask.sub hm (by decide)) ?_
    | with_reducible refine OutKept.next ?_
    | with_reducible refine Kept.ite ?_ ?_
    | (extract_lets -underBinder +onlyGivenNames x; subst x)
    | split
    | dsimp only

end Sys2Proof.Machine
end

