-- ==== Sys2Proof/Laws/KeptCoat.lean ====
section
/-!
SUPPORT. What the operations of Sys2Proof/Machine/Coat.lean keep (Laws/Kept.lean).
-/
namespace Sys2Proof.Machine

theorem State.stashProtocol_kept {m : Nat} {s0 s : State} {c : Nat} {reason : Nat} {coat : Nat} {m_ : Nat} (hm : 0x829 &&& m = 0x829) (h : Kept m s0 s) :
     Kept m s0 (State.stashProtocol s c reason coat m_) := by
  have hdef : @State.stashProtocol = @State.stashProtocol := rfl
  conv at hdef => rhs; delta State.stashProtocol
  rw [congrFun (congrFun (congrFun (congrFun (congrFun hdef s) c) reason) coat) m_]; clear hdef
  repeat' first
    | with_reducible assumption
    | with_reducible refine State.raise_kept (Mask.sub hm (by decide)) ?_
    | with_reducible refine State.flagCount_kept (Mask.sub hm (by decide)) ?_
    | with_reducible refine Kept.ite ?_ ?_
    | (extract_lets -underBinder +onlyGivenNames x; subst x)
    | split
    | dsimp only

theorem State.checkCoat_kept {m : Nat} {s0 s : State} {c : Nat} {va : Nat} {coat : Nat} {m_ : Nat} (hm : 0x869 &&& m = 0x869) (h : Kept m s0 s) :
     Kept m s0 (State.checkCoat s c va coat m_) := by
  have hdef : @State.checkCoat = @State.checkCoat := rfl
  conv at hdef => rhs; delta State.checkCoat
  rw [congrFun (congrFun (congrFun (congrFun (congrFun hdef s) c) va) coat) m_]; clear hdef
  repeat' first
    | with_reducible assumption
    | with_reducible refine State.stashProtocol_kept (Mask.sub hm (by decide)) ?_
    | with_reducible refine State.modCtx_kept (Mask.sub hm (by decide)) ?_
    | with_reducible refine Kept.ite ?_ ?_
    | (extract_lets -underBinder +onlyGivenNames x; subst x)
    | split
    | dsimp only

theorem State.putEntry_kept {m : Nat} {s0 s : State} {c : Nat} {va : Nat} {state : Nat} {base : Nat} {off : Nat} (hm : 0xc7 &&& m = 0xc7) (h : Kept m s0 s) :
     Kept m s0 (State.putEntry s c va state base off) := by
  have hdef : @State.putEntry = @State.putEntry := rfl
  conv at hdef => rhs; delta State.putEntry
  rw [congrFun (congrFun (congrFun (congrFun (congrFun (congrFun hdef s) c) va) state) base) off]; clear hdef
  repeat' first
    | with_reducible assumption
    | with_reducible refine State.vpoke_kept (Mask.sub hm (by decide)) ?_
    | with_reducible refine Kept.ite ?_ ?_
    | (extract_lets -underBinder +onlyGivenNames x; subst x)
    | split
    | dsimp only

theorem State.putBack_kept {m : Nat} {s0 s : State} {c : Nat} {va : Nat} {e : Option StashEnt} (hm : 0xc7 &&& m = 0xc7) (h : Kept m s0 s) :
     Kept m s0 (State.putBack s c va e) := by
  have hdef : @State.putBack = @State.putBack := rfl
  conv at hdef => rhs; delta State.putBack
  rw [congrFun (congrFun (congrFun (congrFun hdef s) c) va) e]; clear hdef
  repeat' first
    | with_reducible assumption
    | with_reducible refine State.vpoke_kept (Mask.sub hm (by decide)) ?_
    | with_reducible refine Kept.ite ?_ ?_
    | (extract_lets -underBinder +onlyGivenNames x; subst x)
    | split
    | dsimp only

theorem State.putEntries_kept {m : Nat} {s0 s : State} {c : Nat} {m_ : Map StashEnt} (hm : 0x48 &&& m = 0x48) (h : Kept m s0 s) :
     Kept m s0 (State.putEntries s c m_) := by
  have hdef : @State.putEntries = @State.putEntries := rfl
  conv at hdef => rhs; delta State.putEntries
  rw [congrFun (congrFun (congrFun hdef s) c) m_]; clear hdef
  repeat' first
    | with_reducible assumption
    | with_reducible refine State.modCtx_kept (Mask.sub hm (by decide)) ?_
    | with_reducible refine State.setFld_kept (Mask.sub hm (by decide)) ?_
    | with_reducible refine Kept.ite ?_ ?_
    | (extract_lets -underBinder +onlyGivenNames x; subst x)
    | split
    | dsimp only

theorem State.thin_kept {m : Nat} {s0 s : State} {c : Nat} {va : Nat} {i : Nat} {coat : Nat} {m_ : Nat} {size : Nat} {base : Nat} {free : Nat} {longest : Nat} (hm : 0x8ef &&& m = 0x8ef) (h : Kept m s0 s) :
     Kept m s0 (State.thin s c va i coat m_ size base free longest) := by
  have hdef : @State.thin = @State.thin := rfl
  conv at hdef => rhs; delta State.thin
  rw [congrFun (congrFun (congrFun (congrFun (congrFun (congrFun (congrFun (congrFun (congrFun (congrFun hdef s) c) va) i) coat) m_) size) base) free) longest]; clear hdef
  repeat' first
    | with_reducible assumption
    | with_reducible refine State.putEntries_kept (Mask.sub hm (by decide)) ?_
    | with_reducible refine State.putEntry_kept (Mask.sub hm (by decide)) ?_
    | with_reducible refine State.count_kept (Mask.sub hm (by decide)) ?_
    | with_reducible refine State.setFld_kept (Mask.sub hm (by decide)) ?_
    | with_reducible refine State.raise_kept (Mask.sub hm (by decide)) ?_
    | with_reducible refine State.modCtx_kept (Mask.sub hm (by decide)) ?_
    | with_reducible refine Kept.ite ?_ ?_
    | (extract_lets -underBinder +onlyGivenNames x; subst x)
    | split
    | dsimp only

theorem State.stashDecide_kept {m : Nat} {s0 s : State} {c : Nat} {va : Nat} {coat : Nat} {m_ : Nat} {hdr : Option CoatHdr} {coats : Nat} (hm : 0x8ef &&& m = 0x8ef) (h : Kept m s0 s) :
     Kept m s0 (State.stashDecide s c va coat m_ hdr coats) := by
  have hdef : @State.stashDecide = @State.stashDecide := rfl
  conv at hdef => rhs; delta State.stashDecide
  rw [congrFun (congrFun (congrFun (congrFun (congrFun (congrFun (congrFun hdef s) c) va) coat) m_) hdr) coats]; clear hdef
  repeat' first
    | with_reducible assumption
    | with_reducible refine State.thin_kept (Mask.sub hm (by decide)) ?_
    | with_reducible refine State.putEntries_kept (Mask.sub hm (by decide)) ?_
    | with_reducible refine State.putEntry_kept (Mask.sub hm (by decide)) ?_
    | with_reducible refine Kept.foldl (fun _ _ _ => ?_) _ ?_
    | with_reducible refine Kept.ite ?_ ?_
    | (extract_lets -underBinder +onlyGivenNames x; subst x)
    | split
    | dsimp only

theorem State.stashServe_kept {m : Nat} {s0 s : State} {c : Nat} {coat : Nat} {m_ : Nat} {want : Nat} (hm : 0x8ef &&& m = 0x8ef) (h : Kept m s0 s) :
     Kept m s0 (State.stashServe s c coat m_ want) := by
  have hdef : @State.stashServe = @State.stashServe := rfl
  conv at hdef => rhs; delta State.stashServe
  rw [congrFun (congrFun (congrFun (congrFun (congrFun hdef s) c) coat) m_) want]; clear hdef
  repeat' first
    | with_reducible assumption
    | with_reducible refine State.stashDecide_kept (Mask.sub hm (by decide)) ?_
    | with_reducible refine State.putEntries_kept (Mask.sub hm (by decide)) ?_
    | with_reducible refine State.putBack_kept (Mask.sub hm (by decide)) ?_
    | with_reducible refine State.checkCoat_kept (Mask.sub hm (by decide)) ?_
    | with_reducible refine State.stashProtocol_kept (Mask.sub hm (by decide)) ?_
    | with_reducible refine State.hubNeeds_kept (Mask.sub hm (by decide)) ?_ (fun _ _ => ?_)
    | with_reducible refine State.vpoke_kept (Mask.sub hm (by decide)) ?_
    | with_reducible refine Kept.ite ?_ ?_
    | (extract_lets -underBinder +onlyGivenNames x; subst x)
    | split
    | dsimp only

theorem execStashRequest_kept {m : Nat} {s0 s : State} {c : CtxId} {coat : Nat} {mslot : Nat} (hm : 0x8ef &&& m = 0x8ef) (h : Kept m s0 s) :
     OutKept m s0 (execStashRequest c coat mslot s) := by
  have hdef : @execStashRequest = @execStashRequest := rfl
  conv at hdef => rhs; delta execStashRequest
  rw [congrFun (congrFun (congrFun (congrFun hdef c) coat) mslot) s]; clear hdef
  repeat' first
    | with_reducible assumption
    | with_reducible refine State.stashServe_kept (Mask.sub hm (by decide)) ?_
    | with_reducible refine OutKept.next ?_
    | with_reducible refine Kept.ite ?_ ?_
    | (extract_lets -underBinder +onlyGivenNames x; subst x)
    | split
    | dsimp only

theorem execStashRelease_kept {m : Nat} {s0 s : State} {c : CtxId} {coat : Nat} {mslot : Nat} (hm : 0x8ef &&& m = 0x8ef) (h : Kept m s0 s) :
     OutKept m s0 (execStashRelease c coat mslot s) := by
  have hdef : @execStashRelease = @execStashRelease := rfl
  conv at hdef => rhs; delta execStashRelease
  rw [congrFun (congrFun (congrFun (congrFun hdef c) coat) mslot) s]; clear hdef
  repeat' first
    | with_reducible assumption
    | with_reducible refine State.stashServe_kept (Mask.sub hm (by decide)) ?_
    | with_reducible refine OutKept.next ?_
    | with_reducible refine Kept.ite ?_ ?_
    | (extract_lets -underBinder +onlyGivenNames x; subst x)
    | split
    | dsimp only

end Sys2Proof.Machine
end

