-- ==== Sys2Proof/Laws/KeptNarrow.lean ====
section
/-!
SUPPORT. What the operations of Sys2Proof/Machine/Narrow.lean keep (Laws/Kept.lean).
-/
namespace Sys2Proof.Machine

theorem State.plumbAdd_kept {m : Nat} {s0 s : State} {c : Nat} {layer : Nat} {f : PlumbCnt → PlumbCnt} (hm : 0x40 &&& m = 0x40) (h : Kept m s0 s) :
     Kept m s0 (State.plumbAdd s c layer f) := by
  have hdef : @State.plumbAdd = @State.plumbAdd := rfl
  conv at hdef => rhs; delta State.plumbAdd
  rw [congrFun (congrFun (congrFun (congrFun hdef s) c) layer) f]; clear hdef
  repeat' first
    | with_reducible assumption
    | with_reducible refine State.modCtx_kept (Mask.sub hm (by decide)) ?_
    | with_reducible refine Kept.ite ?_ ?_
    | (extract_lets -underBinder +onlyGivenNames x; subst x)
    | split
    | dsimp only

theorem State.noteAmax_kept {m : Nat} {s0 s : State} {c : Nat} {k : Nat} {vs : List Num} (hm : 0x40 &&& m = 0x40) (h : Kept m s0 s) :
     Kept m s0 (State.noteAmax s c k vs) := by
  have hdef : @State.noteAmax = @State.noteAmax := rfl
  conv at hdef => rhs; delta State.noteAmax
  rw [congrFun (congrFun (congrFun (congrFun hdef s) c) k) vs]; clear hdef
  repeat' first
    | with_reducible assumption
    | with_reducible refine State.modCtx_kept (Mask.sub hm (by decide)) ?_
    | with_reducible refine Kept.ite ?_ ?_
    | (extract_lets -underBinder +onlyGivenNames x; subst x)
    | split
    | dsimp only

theorem State.outerOf_kept {m : Nat} {s0 s : State} {c : Nat} {k : Nat} (hm : 0x10040 &&& m = 0x10040) (h : Kept m s0 s) :
     Kept m s0 (State.outerOf s c k).2.2 := by
  have hdef : @State.outerOf = @State.outerOf := rfl
  conv at hdef => rhs; delta State.outerOf
  rw [congrFun (congrFun (congrFun hdef s) c) k]; clear hdef
  repeat' first
    | with_reducible assumption
    | with_reducible refine State.pick_kept (Mask.sub hm (by decide)) ?_
    | with_reducible refine State.modCtx_kept (Mask.sub hm (by decide)) ?_
    | with_reducible refine Kept.ofPair (by assumption) ?_
    | with_reducible refine Kept.ite ?_ ?_
    | with_reducible refine Kept.iteSnd ?_ ?_
    | with_reducible refine Kept.iteFst ?_ ?_
    | (extract_lets -underBinder +onlyGivenNames x; subst x)
    | split
    | dsimp only

theorem State.blockExp_kept {m : Nat} {s0 s : State} {c : Nat} {k : Nat} {b : Nat} (hm : 0x10040 &&& m = 0x10040) (h : Kept m s0 s) :
     Kept m s0 (State.blockExp s c k b).2 := by
  have hdef : @State.blockExp = @State.blockExp := rfl
  conv at hdef => rhs; delta State.blockExp
  rw [congrFun (congrFun (congrFun (congrFun hdef s) c) k) b]; clear hdef
  repeat' first
    | with_reducible assumption
    | with_reducible refine State.outerOf_kept (Mask.sub hm (by decide)) ?_
    | with_reducible refine Kept.ofPair (by assumption) ?_
    | with_reducible refine Kept.ite ?_ ?_
    | with_reducible refine Kept.iteSnd ?_ ?_
    | with_reducible refine Kept.iteFst ?_ ?_
    | (extract_lets -underBinder +onlyGivenNames x; subst x)
    | split
    | dsimp only

theorem State.markOverflow_kept {m : Nat} {s0 s : State} {c : Nat} {k : Nat} {b : Nat} {layer : Nat} {t : TensorRec} (hm : 0xc7 &&& m = 0xc7) (h : Kept m s0 s) :
     Kept m s0 (State.markOverflow s c k b layer t) := by
  have hdef : @State.markOverflow = @State.markOverflow := rfl
  conv at hdef => rhs; delta State.markOverflow
  rw [congrFun (congrFun (congrFun (congrFun (congrFun (congrFun hdef s) c) k) b) layer) t]; clear hdef
  repeat' first
    | with_reducible assumption
    | with_reducible refine State.plumbAdd_kept (Mask.sub hm (by decide)) ?_
    | with_reducible refine State.vpoke_kept (Mask.sub hm (by decide)) ?_
    | with_reducible refine Kept.ite ?_ ?_
    | (extract_lets -underBinder +onlyGivenNames x; subst x)
    | split
    | dsimp only

theorem State.encBlock_kept {m : Nat} {s0 s : State} {c : Nat} {o : OutSpec} {draw : Nat → Nat} {b : Nat} {vs : List Num} {es : List Nat} (hm : 0x100c7 &&& m = 0x100c7) (h : Kept m s0 s) :
     Kept m s0 (State.encBlock s c o draw b vs es).2 := by
  have hdef : @State.encBlock = @State.encBlock := rfl
  conv at hdef => rhs; delta State.encBlock
  rw [congrFun (congrFun (congrFun (congrFun (congrFun (congrFun (congrFun hdef s) c) o) draw) b) vs) es]; clear hdef
  repeat' first
    | with_reducible assumption
    | with_reducible refine State.markOverflow_kept (Mask.sub hm (by decide)) ?_
    | with_reducible refine State.blockExp_kept (Mask.sub hm (by decide)) ?_
    | with_reducible refine State.noteAmax_kept (Mask.sub hm (by decide)) ?_
    | with_reducible refine State.plumbAdd_kept (Mask.sub hm (by decide)) ?_
    | with_reducible refine Kept.getD_ ?_ ?_
    | with_reducible refine Kept.ofPair (by assumption) ?_
    | with_reducible refine Kept.ite ?_ ?_
    | with_reducible refine Kept.iteSnd ?_ ?_
    | with_reducible refine Kept.iteFst ?_ ?_
    | (extract_lets -underBinder +onlyGivenNames x; subst x)
    | split
    | dsimp only

theorem State.encBlocks_kept {m : Nat} {s0 s : State} {c : Nat} {o : OutSpec} {draw : Nat → Nat} {x1 : List (Nat × List Num × List Nat)} (hm : 0x100c7 &&& m = 0x100c7) (h : Kept m s0 s) :
     Kept m s0 (State.encBlocks s c o draw x1).2 := by
  fun_induction State.encBlocks s c o draw x1 <;> (try dsimp only at *)
  repeat' first
    | with_reducible assumption
    | with_reducible apply_assumption
    | with_reducible refine State.encBlock_kept (Mask.sub hm (by decide)) ?_
    | with_reducible refine Kept.ofPair (by assumption) ?_
    | with_reducible refine Kept.ite ?_ ?_
    | with_reducible refine Kept.iteSnd ?_ ?_
    | with_reducible refine Kept.iteFst ?_ ?_
    | (extract_lets -underBinder +onlyGivenNames x; subst x)
    | split
    | dsimp only

theorem State.encRow_kept {m : Nat} {s0 s : State} {c : Nat} {o : OutSpec} {draw : Nat → Nat} {rowIdx : Nat} {rowLen : Nat} {col : Nat} {vs : List Num} (hm : 0x100c7 &&& m = 0x100c7) (h : Kept m s0 s) :
     Kept m s0 (State.encRow s c o draw rowIdx rowLen col vs).2 := by
  have hdef : @State.encRow = @State.encRow := rfl
  conv at hdef => rhs; delta State.encRow
  rw [congrFun (congrFun (congrFun (congrFun (congrFun (congrFun (congrFun (congrFun hdef s) c) o) draw) rowIdx) rowLen) col) vs]; clear hdef
  repeat' first
    | with_reducible assumption
    | with_reducible refine State.encBlocks_kept (Mask.sub hm (by decide)) ?_
    | with_reducible refine State.plumbAdd_kept (Mask.sub hm (by decide)) ?_
    | with_reducible refine Kept.getD_ ?_ ?_
    | with_reducible refine Kept.ofPair (by assumption) ?_
    | with_reducible refine Kept.ite ?_ ?_
    | with_reducible refine Kept.iteSnd ?_ ?_
    | with_reducible refine Kept.iteFst ?_ ?_
    | (extract_lets -underBinder +onlyGivenNames x; subst x)
    | split
    | dsimp only

theorem State.encGroup_kept {m : Nat} {s0 s : State} {c : Nat} {o : OutSpec} {draw : Nat → Nat} {rowIdx : Nat} {rowLen : Nat} {col : Nat} {rows : List (List Num)} (hm : 0x100c7 &&& m = 0x100c7) (h : Kept m s0 s) :
     Kept m s0 (State.encGroup s c o draw rowIdx rowLen col rows).2 := by
  have hdef : @State.encGroup = @State.encGroup := rfl
  conv at hdef => rhs; delta State.encGroup
  rw [congrFun (congrFun (congrFun (congrFun (congrFun (congrFun (congrFun (congrFun hdef s) c) o) draw) rowIdx) rowLen) col) rows]; clear hdef
  repeat' first
    | with_reducible assumption
    | with_reducible refine State.encBlocks_kept (Mask.sub hm (by decide)) ?_
    | with_reducible refine Kept.getD_ ?_ ?_
    | with_reducible refine Kept.ofPair (by assumption) ?_
    | with_reducible refine Kept.ite ?_ ?_
    | with_reducible refine Kept.iteSnd ?_ ?_
    | with_reducible refine Kept.iteFst ?_ ?_
    | (extract_lets -underBinder +onlyGivenNames x; subst x)
    | split
    | dsimp only

end Sys2Proof.Machine
end

