-- ==== Sys2Proof/Laws/KeptScreed.lean ====
section
/-!
SUPPORT. What the operations of Sys2Proof/Machine/Screed.lean keep (Laws/Kept.lean).
-/
namespace Sys2Proof.Machine

theorem State.statMiss_kept {m : Nat} {s0 s : State} {n : Nat} {c : Nat} {kind : Nat} {unit : Nat} {found : Nat} {reason : Nat} (hm : 0xfef &&& m = 0xfef) (h : Kept m s0 s) :
     Kept m s0 (State.statMiss s n c kind unit found reason) := by
  have hdef : @State.statMiss = @State.statMiss := rfl
  conv at hdef => rhs; delta State.statMiss
  rw [congrFun (congrFun (congrFun (congrFun (congrFun (congrFun (congrFun hdef s) n) c) kind) unit) found) reason]; clear hdef
  repeat' first
    | with_reducible assumption
    | with_reducible refine State.faultCtx_kept (Mask.sub hm (by decide)) ?_
    | with_reducible refine State.flagCount_kept (Mask.sub hm (by decide)) ?_
    | with_reducible refine Kept.ite ?_ ?_
    | (extract_lets -underBinder +onlyGivenNames x; subst x)
    | split
    | dsimp only

theorem State.scrEmit_kept {m : Nat} {s0 s : State} {n : Nat} {c : Nat} {r : Nat} {last : Bool} {q : Nat} {vs : List Num} (hm : 0x100c7 &&& m = 0x100c7) (h : Kept m s0 s) :
     Kept m s0 (State.scrEmit s n c r last q vs).2 := by
  have hdef : @State.scrEmit = @State.scrEmit := rfl
  conv at hdef => rhs; delta State.scrEmit
  rw [congrFun (congrFun (congrFun (congrFun (congrFun (congrFun (congrFun hdef s) n) c) r) last) q) vs]; clear hdef
  repeat' first
    | with_reducible assumption
    | with_reducible refine State.modAu_kept (Mask.sub hm (by decide)) ?_
    | with_reducible refine State.encGroup_kept (Mask.sub hm (by decide)) ?_
    | with_reducible refine State.encRow_kept (Mask.sub hm (by decide)) ?_
    | with_reducible refine Kept.ofPair (by assumption) ?_
    | with_reducible refine Kept.ite ?_ ?_
    | with_reducible refine Kept.iteSnd ?_ ?_
    | with_reducible refine Kept.iteFst ?_ ?_
    | (extract_lets -underBinder +onlyGivenNames x; subst x)
    | split
    | dsimp only

theorem State.scrEmits_kept {m : Nat} {s0 s : State} {n : Nat} {c : Nat} {r : Nat} {last : Bool} {x1 : List (Nat × List Num)} (hm : 0x100c7 &&& m = 0x100c7) (h : Kept m s0 s) :
     Kept m s0 (State.scrEmits s n c r last x1).2 := by
  fun_induction State.scrEmits s n c r last x1 <;> (try dsimp only at *)
  repeat' first
    | with_reducible assumption
    | with_reducible apply_assumption
    | with_reducible refine State.scrEmit_kept (Mask.sub hm (by decide)) ?_
    | with_reducible refine Kept.ofPair (by assumption) ?_
    | with_reducible refine Kept.ite ?_ ?_
    | with_reducible refine Kept.iteSnd ?_ ?_
    | with_reducible refine Kept.iteFst ?_ ?_
    | (extract_lets -underBinder +onlyGivenNames x; subst x)
    | split
    | dsimp only

theorem State.scrNonfin_kept {m : Nat} {s0 s : State} {n : Nat} {c : Nat} {op : ActiveOp} {bad : Bool} (hm : 0x8a9 &&& m = 0x8a9) (h : Kept m s0 s) :
     Kept m s0 (State.scrNonfin s n c op bad) := by
  have hdef : @State.scrNonfin = @State.scrNonfin := rfl
  conv at hdef => rhs; delta State.scrNonfin
  rw [congrFun (congrFun (congrFun (congrFun (congrFun hdef s) n) c) op) bad]; clear hdef
  repeat' first
    | with_reducible assumption
    | with_reducible refine State.setFld_kept (Mask.sub hm (by decide)) ?_
    | with_reducible refine State.modAu_kept (Mask.sub hm (by decide)) ?_
    | with_reducible refine State.raise_kept (Mask.sub hm (by decide)) ?_
    | with_reducible refine State.count_kept (Mask.sub hm (by decide)) ?_
    | with_reducible refine Kept.ite ?_ ?_
    | (extract_lets -underBinder +onlyGivenNames x; subst x)
    | split
    | dsimp only

theorem State.scrCompute_kept {m : Nat} {s0 s : State} {n : Nat} {c : Nat} {op : ActiveOp} (hm : 0x10fef &&& m = 0x10fef) (h : Kept m s0 s) :
     Kept m s0 (State.scrCompute s n c op) := by
  have hdef : @State.scrCompute = @State.scrCompute := rfl
  conv at hdef => rhs; delta State.scrCompute
  rw [congrFun (congrFun (congrFun (congrFun hdef s) n) c) op]; clear hdef
  repeat' first
    | with_reducible assumption
    | with_reducible refine State.scrNonfin_kept (Mask.sub hm (by decide)) ?_
    | with_reducible refine State.scrEmits_kept (Mask.sub hm (by decide)) ?_
    | with_reducible refine State.statMiss_kept (Mask.sub hm (by decide)) ?_
    | with_reducible refine State.pick_kept (Mask.sub hm (by decide)) ?_
    | with_reducible refine State.modAu_kept (Mask.sub hm (by decide)) ?_
    | with_reducible refine State.setReg64_kept (Mask.sub hm (by decide)) ?_
    | with_reducible refine Kept.foldl (fun _ _ _ => ?_) _ ?_
    | with_reducible refine Kept.getD_ ?_ ?_
    | with_reducible refine Kept.ofPair (by assumption) ?_
    | with_reducible refine Kept.ite ?_ ?_
    | with_reducible refine Kept.iteSnd ?_ ?_
    | with_reducible refine Kept.iteFst ?_ ?_
    | (extract_lets -underBinder +onlyGivenNames x; subst x)
    | split
    | dsimp only

theorem State.scrPushOut_kept {m : Nat} {s0 s : State} {n : Nat} {c : Nat} (hm : 0xc0 &&& m = 0xc0) (h : Kept m s0 s) :
     Kept m s0 (State.scrPushOut s n c) := by
  have hdef : @State.scrPushOut = @State.scrPushOut := rfl
  conv at hdef => rhs; delta State.scrPushOut
  rw [congrFun (congrFun (congrFun hdef s) n) c]; clear hdef
  repeat' first
    | with_reducible assumption
    | with_reducible refine State.modAu_kept (Mask.sub hm (by decide)) ?_
    | with_reducible refine State.progress_kept (Mask.sub hm (by decide)) ?_
    | with_reducible refine State.endOp_kept (Mask.sub hm (by decide)) ?_
    | with_reducible refine Kept.ite ?_ ?_
    | (extract_lets -underBinder +onlyGivenNames x; subst x)
    | split
    | dsimp only

theorem State.scrStep_kept {m : Nat} {s0 s : State} {n : Nat} {c : Nat} {op : ActiveOp} (hm : 0x10fef &&& m = 0x10fef) (h : Kept m s0 s) :
     Kept m s0 (State.scrStep s n c op) := by
  have hdef : @State.scrStep = @State.scrStep := rfl
  conv at hdef => rhs; delta State.scrStep
  rw [congrFun (congrFun (congrFun (congrFun hdef s) n) c) op]; clear hdef
  repeat' first
    | with_reducible assumption
    | with_reducible refine State.scrPushOut_kept (Mask.sub hm (by decide)) ?_
    | with_reducible refine State.scrCompute_kept (Mask.sub hm (by decide)) ?_
    | with_reducible refine State.modAu_kept (Mask.sub hm (by decide)) ?_
    | with_reducible refine Kept.ite ?_ ?_
    | (extract_lets -underBinder +onlyGivenNames x; subst x)
    | split
    | dsimp only

theorem State.scrOnStart_kept {m : Nat} {s0 s : State} {n : Nat} {c : Nat} {op : FifoOp} (hm : 0xfef &&& m = 0xfef) (h : Kept m s0 s) :
     Kept m s0 (State.scrOnStart n c op s) := by
  have hdef : @State.scrOnStart = @State.scrOnStart := rfl
  conv at hdef => rhs; delta State.scrOnStart
  rw [congrFun (congrFun (congrFun (congrFun hdef n) c) op) s]; clear hdef
  repeat' first
    | with_reducible assumption
    | with_reducible refine State.statMiss_kept (Mask.sub hm (by decide)) ?_
    | with_reducible refine State.endOp_kept (Mask.sub hm (by decide)) ?_
    | with_reducible refine State.modAu_kept (Mask.sub hm (by decide)) ?_
    | with_reducible refine Kept.ite ?_ ?_
    | (extract_lets -underBinder +onlyGivenNames x; subst x)
    | split
    | dsimp only

theorem State.startScreed_kept {m : Nat} {s0 s : State} {n : Nat} {wen : Bool} {k : Option Nat} (hm : 0xfef &&& m = 0xfef) (h : Kept m s0 s) :
     Kept m s0 (State.startScreed s n wen k) := by
  have hdef : @State.startScreed = @State.startScreed := rfl
  conv at hdef => rhs; delta State.startScreed
  rw [congrFun (congrFun (congrFun (congrFun hdef s) n) wen) k]; clear hdef
  repeat' first
    | with_reducible assumption
    | with_reducible refine State.scrOnStart_kept (Mask.sub hm (by decide)) ?_
    | with_reducible refine State.startUnit_kept (Mask.sub hm (by decide)) ?_ (fun _ _ _ _ => ?_)
    | with_reducible refine Kept.ite ?_ ?_
    | (extract_lets -underBinder +onlyGivenNames x; subst x)
    | split
    | dsimp only

theorem State.scrCmd_kept {m : Nat} {s0 s : State} {n : Nat} {k : Nat} (hm : 0x10fef &&& m = 0x10fef) (h : Kept m s0 s) :
     Kept m s0 (State.scrCmd s n k) := by
  have hdef : @State.scrCmd = @State.scrCmd := rfl
  conv at hdef => rhs; delta State.scrCmd
  rw [congrFun (congrFun (congrFun hdef s) n) k]; clear hdef
  repeat' first
    | with_reducible assumption
    | with_reducible refine State.startScreed_kept (Mask.sub hm (by decide)) ?_
    | with_reducible refine State.scrStep_kept (Mask.sub hm (by decide)) ?_
    | with_reducible refine Kept.ite ?_ ?_
    | (extract_lets -underBinder +onlyGivenNames x; subst x)
    | split
    | dsimp only

theorem execNorm_kept {m : Nat} {s0 s : State} {a : AuId} (hm : 0x10fef &&& m = 0x10fef) (h : Kept m s0 s) :
     OutKept m s0 (execNorm a s) := by
  have hdef : @execNorm = @execNorm := rfl
  conv at hdef => rhs; delta execNorm
  rw [congrFun (congrFun hdef a) s]; clear hdef
  repeat' first
    | with_reducible assumption
    | with_reducible refine State.scrCmd_kept (Mask.sub hm (by decide)) ?_
    | with_reducible refine OutKept.next ?_
    | with_reducible refine Kept.ite ?_ ?_
    | (extract_lets -underBinder +onlyGivenNames x; subst x)
    | split
    | dsimp only

theorem execNormBwd_kept {m : Nat} {s0 s : State} {a : AuId} (hm : 0x10fef &&& m = 0x10fef) (h : Kept m s0 s) :
     OutKept m s0 (execNormBwd a s) := by
  have hdef : @execNormBwd = @execNormBwd := rfl
  conv at hdef => rhs; delta execNormBwd
  rw [congrFun (congrFun hdef a) s]; clear hdef
  repeat' first
    | with_reducible assumption
    | with_reducible refine State.scrCmd_kept (Mask.sub hm (by decide)) ?_
    | with_reducible refine OutKept.next ?_
    | with_reducible refine Kept.ite ?_ ?_
    | (extract_lets -underBinder +onlyGivenNames x; subst x)
    | split
    | dsimp only

theorem execAct_kept {m : Nat} {s0 s : State} {a : AuId} (hm : 0x10fef &&& m = 0x10fef) (h : Kept m s0 s) :
     OutKept m s0 (execAct a s) := by
  have hdef : @execAct = @execAct := rfl
  conv at hdef => rhs; delta execAct
  rw [congrFun (congrFun hdef a) s]; clear hdef
  repeat' first
    | with_reducible assumption
    | with_reducible refine State.scrCmd_kept (Mask.sub hm (by decide)) ?_
    | with_reducible refine OutKept.next ?_
    | with_reducible refine Kept.ite ?_ ?_
    | (extract_lets -underBinder +onlyGivenNames x; subst x)
    | split
    | dsimp only

theorem execActBwd_kept {m : Nat} {s0 s : State} {a : AuId} (hm : 0x10fef &&& m = 0x10fef) (h : Kept m s0 s) :
     OutKept m s0 (execActBwd a s) := by
  have hdef : @execActBwd = @execActBwd := rfl
  conv at hdef => rhs; delta execActBwd
  rw [congrFun (congrFun hdef a) s]; clear hdef
  repeat' first
    | with_reducible assumption
    | with_reducible refine State.scrCmd_kept (Mask.sub hm (by decide)) ?_
    | with_reducible refine OutKept.next ?_
    | with_reducible refine Kept.ite ?_ ?_
    | (extract_lets -underBinder +onlyGivenNames x; subst x)
    | split
    | dsimp only

theorem execSmax_kept {m : Nat} {s0 s : State} {a : AuId} (hm : 0x10fef &&& m = 0x10fef) (h : Kept m s0 s) :
     OutKept m s0 (execSmax a s) := by
  have hdef : @execSmax = @execSmax := rfl
  conv at hdef => rhs; delta execSmax
  rw [congrFun (congrFun hdef a) s]; clear hdef
  repeat' first
    | with_reducible assumption
    | with_reducible refine State.scrCmd_kept (Mask.sub hm (by decide)) ?_
    | with_reducible refine OutKept.next ?_
    | with_reducible refine Kept.ite ?_ ?_
    | (extract_lets -underBinder +onlyGivenNames x; subst x)
    | split
    | dsimp only

theorem execSmaxBwd_kept {m : Nat} {s0 s : State} {a : AuId} (hm : 0x10fef &&& m = 0x10fef) (h : Kept m s0 s) :
     OutKept m s0 (execSmaxBwd a s) := by
  have hdef : @execSmaxBwd = @execSmaxBwd := rfl
  conv at hdef => rhs; delta execSmaxBwd
  rw [congrFun (congrFun hdef a) s]; clear hdef
  repeat' first
    | with_reducible assumption
    | with_reducible refine State.scrCmd_kept (Mask.sub hm (by decide)) ?_
    | with_reducible refine OutKept.next ?_
    | with_reducible refine Kept.ite ?_ ?_
    | (extract_lets -underBinder +onlyGivenNames x; subst x)
    | split
    | dsimp only

theorem execMerge_kept {m : Nat} {s0 s : State} {a : AuId} (hm : 0x10fef &&& m = 0x10fef) (h : Kept m s0 s) :
     OutKept m s0 (execMerge a s) := by
  have hdef : @execMerge = @execMerge := rfl
  conv at hdef => rhs; delta execMerge
  rw [congrFun (congrFun hdef a) s]; clear hdef
  repeat' first
    | with_reducible assumption
    | with_reducible refine State.scrCmd_kept (Mask.sub hm (by decide)) ?_
    | with_reducible refine OutKept.next ?_
    | with_reducible refine Kept.ite ?_ ?_
    | (extract_lets -underBinder +onlyGivenNames x; subst x)
    | split
    | dsimp only

theorem execElem_kept {m : Nat} {s0 s : State} {a : AuId} (hm : 0x10fef &&& m = 0x10fef) (h : Kept m s0 s) :
     OutKept m s0 (execElem a s) := by
  have hdef : @execElem = @execElem := rfl
  conv at hdef => rhs; delta execElem
  rw [congrFun (congrFun hdef a) s]; clear hdef
  repeat' first
    | with_reducible assumption
    | with_reducible refine State.scrCmd_kept (Mask.sub hm (by decide)) ?_
    | with_reducible refine OutKept.next ?_
    | with_reducible refine Kept.ite ?_ ?_
    | (extract_lets -underBinder +onlyGivenNames x; subst x)
    | split
    | dsimp only

theorem execLoss_kept {m : Nat} {s0 s : State} {a : AuId} (hm : 0x10fef &&& m = 0x10fef) (h : Kept m s0 s) :
     OutKept m s0 (execLoss a s) := by
  have hdef : @execLoss = @execLoss := rfl
  conv at hdef => rhs; delta execLoss
  rw [congrFun (congrFun hdef a) s]; clear hdef
  repeat' first
    | with_reducible assumption
    | with_reducible refine State.scrCmd_kept (Mask.sub hm (by decide)) ?_
    | with_reducible refine OutKept.next ?_
    | with_reducible refine Kept.ite ?_ ?_
    | (extract_lets -underBinder +onlyGivenNames x; subst x)
    | split
    | dsimp only

theorem execVmove_kept {m : Nat} {s0 s : State} {a : AuId} (hm : 0x10fef &&& m = 0x10fef) (h : Kept m s0 s) :
     OutKept m s0 (execVmove a s) := by
  have hdef : @execVmove = @execVmove := rfl
  conv at hdef => rhs; delta execVmove
  rw [congrFun (congrFun hdef a) s]; clear hdef
  repeat' first
    | with_reducible assumption
    | with_reducible refine State.scrCmd_kept (Mask.sub hm (by decide)) ?_
    | with_reducible refine OutKept.next ?_
    | with_reducible refine Kept.ite ?_ ?_
    | (extract_lets -underBinder +onlyGivenNames x; subst x)
    | split
    | dsimp only

theorem execSetp_kept {m : Nat} {s0 s : State} {a : AuId} (hm : 0x10fef &&& m = 0x10fef) (h : Kept m s0 s) :
     OutKept m s0 (execSetp a s) := by
  have hdef : @execSetp = @execSetp := rfl
  conv at hdef => rhs; delta execSetp
  rw [congrFun (congrFun hdef a) s]; clear hdef
  repeat' first
    | with_reducible assumption
    | with_reducible refine State.scrCmd_kept (Mask.sub hm (by decide)) ?_
    | with_reducible refine OutKept.next ?_
    | with_reducible refine Kept.ite ?_ ?_
    | (extract_lets -underBinder +onlyGivenNames x; subst x)
    | split
    | dsimp only

theorem execRowred_kept {m : Nat} {s0 s : State} {a : AuId} (hm : 0x10fef &&& m = 0x10fef) (h : Kept m s0 s) :
     OutKept m s0 (execRowred a s) := by
  have hdef : @execRowred = @execRowred := rfl
  conv at hdef => rhs; delta execRowred
  rw [congrFun (congrFun hdef a) s]; clear hdef
  repeat' first
    | with_reducible assumption
    | with_reducible refine State.scrCmd_kept (Mask.sub hm (by decide)) ?_
    | with_reducible refine OutKept.next ?_
    | with_reducible refine Kept.ite ?_ ?_
    | (extract_lets -underBinder +onlyGivenNames x; subst x)
    | split
    | dsimp only

end Sys2Proof.Machine
end

