-- ==== Sys2Proof/Laws/KeptTrowel.lean ====
section
/-!
SUPPORT. What the operations of Sys2Proof/Machine/Trowel.lean keep (Laws/Kept.lean).
-/
namespace Sys2Proof.Machine

theorem execSetStep_kept {m : Nat} {s0 s : State} {c : CtxId} {k : Nat} (hm : 0x849 &&& m = 0x849) (h : Kept m s0 s) :
     OutKept m s0 (execSetStep c k s) := by
  have hdef : @execSetStep = @execSetStep := rfl
  conv at hdef => rhs; delta execSetStep
  rw [congrFun (congrFun (congrFun hdef c) k) s]; clear hdef
  repeat' first
    | with_reducible assumption
    | with_reducible refine State.onCmd_kept (Mask.sub hm (by decide)) ?_ (fun _ => ?_)
    | with_reducible refine State.complete_kept (Mask.sub hm (by decide)) ?_
    | with_reducible refine State.modCtx_kept (Mask.sub hm (by decide)) ?_
    | with_reducible refine OutKept.next ?_
    | with_reducible refine Kept.ite ?_ ?_
    | (extract_lets -underBinder +onlyGivenNames x; subst x)
    | split
    | dsimp only

theorem State.trwOperand_kept {m : Nat} {s0 s : State} {n : Nat} {c : Nat} {kind : Nat} {reason : Nat} (hm : 0xfef &&& m = 0xfef) (h : Kept m s0 s) :
     Kept m s0 (State.trwOperand s n c kind reason) := by
  have hdef : @State.trwOperand = @State.trwOperand := rfl
  conv at hdef => rhs; delta State.trwOperand
  rw [congrFun (congrFun (congrFun (congrFun (congrFun hdef s) n) c) kind) reason]; clear hdef
  repeat' first
    | with_reducible assumption
    | with_reducible refine State.faultCtx_kept (Mask.sub hm (by decide)) ?_
    | with_reducible refine State.flagCount_kept (Mask.sub hm (by decide)) ?_
    | with_reducible refine Kept.ite ?_ ?_
    | (extract_lets -underBinder +onlyGivenNames x; subst x)
    | split
    | dsimp only

theorem State.trwOnStart_kept {m : Nat} {s0 s : State} {n : Nat} {c : Nat} {op : FifoOp} (hm : 0xfef &&& m = 0xfef) (h : Kept m s0 s) :
     Kept m s0 (State.trwOnStart s n c op) := by
  have hdef : @State.trwOnStart = @State.trwOnStart := rfl
  conv at hdef => rhs; delta State.trwOnStart
  rw [congrFun (congrFun (congrFun (congrFun hdef s) n) c) op]; clear hdef
  repeat' first
    | with_reducible assumption
    | with_reducible refine State.trwOperand_kept (Mask.sub hm (by decide)) ?_
    | with_reducible refine State.modAu_kept (Mask.sub hm (by decide)) ?_
    | with_reducible refine State.modCtx_kept (Mask.sub hm (by decide)) ?_
    | with_reducible refine Kept.getD_ ?_ ?_
    | with_reducible refine Kept.ite ?_ ?_
    | (extract_lets -underBinder +onlyGivenNames x; subst x)
    | split
    | dsimp only

theorem State.startTrowel_kept {m : Nat} {s0 s : State} {n : Nat} {wen : Bool} {k : Option Nat} (hm : 0xfef &&& m = 0xfef) (h : Kept m s0 s) :
     Kept m s0 (State.startTrowel s n wen k) := by
  have hdef : @State.startTrowel = @State.startTrowel := rfl
  conv at hdef => rhs; delta State.startTrowel
  rw [congrFun (congrFun (congrFun (congrFun hdef s) n) wen) k]; clear hdef
  repeat' first
    | with_reducible assumption
    | with_reducible refine State.trwOnStart_kept (Mask.sub hm (by decide)) ?_
    | with_reducible refine State.startUnit_kept (Mask.sub hm (by decide)) ?_ (fun _ _ _ _ => ?_)
    | with_reducible refine Kept.ite ?_ ?_
    | (extract_lets -underBinder +onlyGivenNames x; subst x)
    | split
    | dsimp only

theorem State.etaWait_kept {m : Nat} {s0 s : State} {n : Nat} (hm : 0x80 &&& m = 0x80) (h : Kept m s0 s) :
     Kept m s0 (State.etaWait s n) := by
  have hdef : @State.etaWait = @State.etaWait := rfl
  conv at hdef => rhs; delta State.etaWait
  rw [congrFun (congrFun hdef s) n]; clear hdef
  repeat' first
    | with_reducible assumption
    | with_reducible refine State.modAu_kept (Mask.sub hm (by decide)) ?_
    | with_reducible refine Kept.ite ?_ ?_
    | (extract_lets -underBinder +onlyGivenNames x; subst x)
    | split
    | dsimp only

theorem State.trwNonfinite_kept {m : Nat} {s0 s : State} {n : Nat} {c : Nat} {kind : Nat} {group : Nat} {layer : Nat} (hm : 0xfef &&& m = 0xfef) (h : Kept m s0 s) :
     Kept m s0 (State.trwNonfinite s n c kind group layer) := by
  have hdef : @State.trwNonfinite = @State.trwNonfinite := rfl
  conv at hdef => rhs; delta State.trwNonfinite
  rw [congrFun (congrFun (congrFun (congrFun (congrFun (congrFun hdef s) n) c) kind) group) layer]; clear hdef
  repeat' first
    | with_reducible assumption
    | with_reducible refine State.flagCount_kept (Mask.sub hm (by decide)) ?_
    | with_reducible refine State.faultCtx_kept (Mask.sub hm (by decide)) ?_
    | with_reducible refine State.raise_kept (Mask.sub hm (by decide)) ?_
    | with_reducible refine Kept.ite ?_ ?_
    | (extract_lets -underBinder +onlyGivenNames x; subst x)
    | split
    | dsimp only

theorem State.trwResult_kept {m : Nat} {s0 s : State} {n : Nat} {out : List (Bool × Byte)} {op : ActiveOp} (hm : 0x80 &&& m = 0x80) (h : Kept m s0 s) :
     Kept m s0 (State.trwResult s n out op) := by
  have hdef : @State.trwResult = @State.trwResult := rfl
  conv at hdef => rhs; delta State.trwResult
  rw [congrFun (congrFun (congrFun (congrFun hdef s) n) out) op]; clear hdef
  repeat' first
    | with_reducible assumption
    | with_reducible refine State.modAu_kept (Mask.sub hm (by decide)) ?_
    | with_reducible refine Kept.ite ?_ ?_
    | (extract_lets -underBinder +onlyGivenNames x; subst x)
    | split
    | dsimp only

theorem State.trwUpdate_kept {m : Nat} {s0 s : State} {n : Nat} {c : Nat} {op : ActiveOp} {ins : List (List Byte)} (hm : 0x10fef &&& m = 0x10fef) (h : Kept m s0 s) :
     Kept m s0 (State.trwUpdate s n c op ins) := by
  have hdef : @State.trwUpdate = @State.trwUpdate := rfl
  conv at hdef => rhs; delta State.trwUpdate
  rw [congrFun (congrFun (congrFun (congrFun (congrFun hdef s) n) c) op) ins]; clear hdef
  repeat' first
    | with_reducible assumption
    | with_reducible refine State.trwResult_kept (Mask.sub hm (by decide)) ?_
    | with_reducible refine State.trwNonfinite_kept (Mask.sub hm (by decide)) ?_
    | with_reducible refine State.pick_kept (Mask.sub hm (by decide)) ?_
    | with_reducible refine State.plumbAdd_kept (Mask.sub hm (by decide)) ?_
    | with_reducible refine Kept.getD_ ?_ ?_
    | with_reducible refine Kept.ofPair (by assumption) ?_
    | with_reducible refine Kept.ite ?_ ?_
    | with_reducible refine Kept.iteSnd ?_ ?_
    | with_reducible refine Kept.iteFst ?_ ?_
    | (extract_lets -underBinder +onlyGivenNames x; subst x)
    | split
    | dsimp only

theorem State.trwAccum_kept {m : Nat} {s0 s : State} {n : Nat} {op : ActiveOp} {ins : List (List Byte)} (hm : 0x80 &&& m = 0x80) (h : Kept m s0 s) :
     Kept m s0 (State.trwAccum s n op ins) := by
  have hdef : @State.trwAccum = @State.trwAccum := rfl
  conv at hdef => rhs; delta State.trwAccum
  rw [congrFun (congrFun (congrFun (congrFun hdef s) n) op) ins]; clear hdef
  repeat' first
    | with_reducible assumption
    | with_reducible refine State.trwResult_kept (Mask.sub hm (by decide)) ?_
    | with_reducible refine Kept.ite ?_ ?_
    | (extract_lets -underBinder +onlyGivenNames x; subst x)
    | split
    | dsimp only

theorem State.trwTmul_kept {m : Nat} {s0 s : State} {n : Nat} {c : Nat} {op : ActiveOp} {ins : List (List Byte)} (hm : 0x10fef &&& m = 0x10fef) (h : Kept m s0 s) :
     Kept m s0 (State.trwTmul s n c op ins) := by
  have hdef : @State.trwTmul = @State.trwTmul := rfl
  conv at hdef => rhs; delta State.trwTmul
  rw [congrFun (congrFun (congrFun (congrFun (congrFun hdef s) n) c) op) ins]; clear hdef
  repeat' first
    | with_reducible assumption
    | with_reducible refine State.trwResult_kept (Mask.sub hm (by decide)) ?_
    | with_reducible refine State.trwNonfinite_kept (Mask.sub hm (by decide)) ?_
    | with_reducible refine State.pick_kept (Mask.sub hm (by decide)) ?_
    | with_reducible refine Kept.getD_ ?_ ?_
    | with_reducible refine Kept.ofPair (by assumption) ?_
    | with_reducible refine Kept.ite ?_ ?_
    | with_reducible refine Kept.iteSnd ?_ ?_
    | with_reducible refine Kept.iteFst ?_ ?_
    | (extract_lets -underBinder +onlyGivenNames x; subst x)
    | split
    | dsimp only

theorem State.trwStep_kept {m : Nat} {s0 s : State} {n : Nat} {c : Nat} {op : ActiveOp} (hm : 0x10fef &&& m = 0x10fef) (h : Kept m s0 s) :
     Kept m s0 (State.trwStep s n c op) := by
  have hdef : @State.trwStep = @State.trwStep := rfl
  conv at hdef => rhs; delta State.trwStep
  rw [congrFun (congrFun (congrFun (congrFun hdef s) n) c) op]; clear hdef
  repeat' first
    | with_reducible assumption
    | with_reducible refine State.trwTmul_kept (Mask.sub hm (by decide)) ?_
    | with_reducible refine State.trwAccum_kept (Mask.sub hm (by decide)) ?_
    | with_reducible refine State.trwUpdate_kept (Mask.sub hm (by decide)) ?_
    | with_reducible refine State.progress_kept (Mask.sub hm (by decide)) ?_
    | with_reducible refine State.modAu_kept (Mask.sub hm (by decide)) ?_
    | with_reducible refine State.endOp_kept (Mask.sub hm (by decide)) ?_
    | with_reducible refine State.setReg_kept (Mask.sub hm (by decide)) ?_
    | with_reducible refine Kept.ite ?_ ?_
    | (extract_lets -underBinder +onlyGivenNames x; subst x)
    | split
    | dsimp only

theorem State.trwCmd_kept {m : Nat} {s0 s : State} {n : Nat} {k : Nat} (hm : 0x10fef &&& m = 0x10fef) (h : Kept m s0 s) :
     Kept m s0 (State.trwCmd s n k) := by
  have hdef : @State.trwCmd = @State.trwCmd := rfl
  conv at hdef => rhs; delta State.trwCmd
  rw [congrFun (congrFun (congrFun hdef s) n) k]; clear hdef
  repeat' first
    | with_reducible assumption
    | with_reducible refine State.trwStep_kept (Mask.sub hm (by decide)) ?_
    | with_reducible refine State.startTrowel_kept (Mask.sub hm (by decide)) ?_
    | with_reducible refine Kept.ite ?_ ?_
    | (extract_lets -underBinder +onlyGivenNames x; subst x)
    | split
    | dsimp only

theorem execUpdate_kept {m : Nat} {s0 s : State} {a : AuId} (hm : 0x10fef &&& m = 0x10fef) (h : Kept m s0 s) :
     OutKept m s0 (execUpdate a s) := by
  have hdef : @execUpdate = @execUpdate := rfl
  conv at hdef => rhs; delta execUpdate
  rw [congrFun (congrFun hdef a) s]; clear hdef
  repeat' first
    | with_reducible assumption
    | with_reducible refine State.trwCmd_kept (Mask.sub hm (by decide)) ?_
    | with_reducible refine State.etaWait_kept (Mask.sub hm (by decide)) ?_
    | with_reducible refine OutKept.next ?_
    | with_reducible refine Kept.ite ?_ ?_
    | (extract_lets -underBinder +onlyGivenNames x; subst x)
    | split
    | dsimp only

theorem execUpdateEtaArrives_kept {m : Nat} {s0 s : State} {a : AuId} (hm : 0xfef &&& m = 0xfef) (h : Kept m s0 s) :
     OutKept m s0 (execUpdateEtaArrives a s) := by
  have hdef : @execUpdateEtaArrives = @execUpdateEtaArrives := rfl
  conv at hdef => rhs; delta execUpdateEtaArrives
  rw [congrFun (congrFun hdef a) s]; clear hdef
  repeat' first
    | with_reducible assumption
    | with_reducible refine State.startTrowel_kept (Mask.sub hm (by decide)) ?_
    | with_reducible refine OutKept.next ?_
    | with_reducible refine Kept.ite ?_ ?_
    | (extract_lets -underBinder +onlyGivenNames x; subst x)
    | split
    | dsimp only

theorem execStepSizeLate_kept {m : Nat} {s0 s : State} {a : AuId} {t : Nat} (hm : 0x8869 &&& m = 0x8869) (h : Kept m s0 s) :
     OutKept m s0 (execStepSizeLate a t s) := by
  have hdef : @execStepSizeLate = @execStepSizeLate := rfl
  conv at hdef => rhs; delta execStepSizeLate
  rw [congrFun (congrFun (congrFun hdef a) t) s]; clear hdef
  repeat' first
    | with_reducible assumption
    | with_reducible refine State.at_kept (Mask.sub hm (by decide)) ?_
    | with_reducible refine State.raise_kept (Mask.sub hm (by decide)) ?_
    | with_reducible refine State.modCtx_kept (Mask.sub hm (by decide)) ?_
    | with_reducible refine State.flagCount_kept (Mask.sub hm (by decide)) ?_
    | with_reducible refine OutKept.next ?_
    | with_reducible refine Kept.ite ?_ ?_
    | (extract_lets -underBinder +onlyGivenNames x; subst x)
    | split
    | dsimp only

theorem execAccum_kept {m : Nat} {s0 s : State} {a : AuId} (hm : 0x10fef &&& m = 0x10fef) (h : Kept m s0 s) :
     OutKept m s0 (execAccum a s) := by
  have hdef : @execAccum = @execAccum := rfl
  conv at hdef => rhs; delta execAccum
  rw [congrFun (congrFun hdef a) s]; clear hdef
  repeat' first
    | with_reducible assumption
    | with_reducible refine State.trwCmd_kept (Mask.sub hm (by decide)) ?_
    | with_reducible refine OutKept.next ?_
    | with_reducible refine Kept.ite ?_ ?_
    | (extract_lets -underBinder +onlyGivenNames x; subst x)
    | split
    | dsimp only

theorem execTmul_kept {m : Nat} {s0 s : State} {a : AuId} (hm : 0x10fef &&& m = 0x10fef) (h : Kept m s0 s) :
     OutKept m s0 (execTmul a s) := by
  have hdef : @execTmul = @execTmul := rfl
  conv at hdef => rhs; delta execTmul
  rw [congrFun (congrFun hdef a) s]; clear hdef
  repeat' first
    | with_reducible assumption
    | with_reducible refine State.trwCmd_kept (Mask.sub hm (by decide)) ?_
    | with_reducible refine OutKept.next ?_
    | with_reducible refine Kept.ite ?_ ?_
    | (extract_lets -underBinder +onlyGivenNames x; subst x)
    | split
    | dsimp only

end Sys2Proof.Machine
end

