-- ==== Sys2Proof/Laws/KeptSolver.lean ====
section
/-!
SUPPORT. What the operations of Sys2Proof/Machine/Solver.lean keep (Laws/Kept.lean).
-/
namespace Sys2Proof.Machine

theorem State.startRefresh_kept {m : Nat} {s0 s : State} {c : Nat} {i : Nat} {k : Nat} {e : List Byte} (hm : 0x440 &&& m = 0x440) (h : Kept m s0 s) :
     Kept m s0 (State.startRefresh s c i k e) := by
  have hdef : @State.startRefresh = @State.startRefresh := rfl
  conv at hdef => rhs; delta State.startRefresh
  rw [congrFun (congrFun (congrFun (congrFun (congrFun hdef s) c) i) k) e]; clear hdef
  repeat' first
    | with_reducible assumption
    | with_reducible refine State.modCtx_kept (Mask.sub hm (by decide)) ?_
    | with_reducible refine Kept.ite ?_ ?_
    | (extract_lets -underBinder +onlyGivenNames x; subst x)
    | split
    | with_reducible refine Kept.solver (Mask.sub hm (by decide)) ?_ _
    | dsimp only

theorem State.putMatFlags_kept {m : Nat} {s0 s : State} {c : Nat} {i : Nat} {f : Nat → Nat} (hm : 0xc7 &&& m = 0xc7) (h : Kept m s0 s) :
     Kept m s0 (State.putMatFlags s c i f) := by
  have hdef : @State.putMatFlags = @State.putMatFlags := rfl
  conv at hdef => rhs; delta State.putMatFlags
  rw [congrFun (congrFun (congrFun (congrFun hdef s) c) i) f]; clear hdef
  repeat' first
    | with_reducible assumption
    | with_reducible refine State.vpoke_kept (Mask.sub hm (by decide)) ?_
    | with_reducible refine Kept.ite ?_ ?_
    | (extract_lets -underBinder +onlyGivenNames x; subst x)
    | split
    | dsimp only

theorem State.precondFallback_kept {m : Nat} {s0 s : State} {c : Nat} {k : Nat} {layer : Nat} {reason : Nat} {damp : Nat} {right : Bool} (hm : 0x829 &&& m = 0x829) (h : Kept m s0 s) :
     Kept m s0 (State.precondFallback s c k layer reason damp right) := by
  have hdef : @State.precondFallback = @State.precondFallback := rfl
  conv at hdef => rhs; delta State.precondFallback
  rw [congrFun (congrFun (congrFun (congrFun (congrFun (congrFun (congrFun hdef s) c) k) layer) reason) damp) right]; clear hdef
  repeat' first
    | with_reducible assumption
    | with_reducible refine State.raise_kept (Mask.sub hm (by decide)) ?_
    | with_reducible refine State.flagCount_kept (Mask.sub hm (by decide)) ?_
    | with_reducible refine Kept.ite ?_ ?_
    | (extract_lets -underBinder +onlyGivenNames x; subst x)
    | split
    | dsimp only

theorem State.precondLate_kept {m : Nat} {s0 s : State} {c : Nat} {k : Nat} {layer : Nat} (hm : 0x829 &&& m = 0x829) (h : Kept m s0 s) :
     Kept m s0 (State.precondLate s c k layer) := by
  have hdef : @State.precondLate = @State.precondLate := rfl
  conv at hdef => rhs; delta State.precondLate
  rw [congrFun (congrFun (congrFun (congrFun hdef s) c) k) layer]; clear hdef
  repeat' first
    | with_reducible assumption
    | with_reducible refine State.raise_kept (Mask.sub hm (by decide)) ?_
    | with_reducible refine State.flagCount_kept (Mask.sub hm (by decide)) ?_
    | with_reducible refine Kept.ite ?_ ?_
    | (extract_lets -underBinder +onlyGivenNames x; subst x)
    | split
    | dsimp only

theorem State.precondEntry_kept {m : Nat} {s0 s0_ : State} {c : Nat} {k : Nat} {force : Bool} {i : Nat} {e : List Byte} (hm : 0xcef &&& m = 0xcef) (h : Kept m s0 s0_) :
     Kept m s0 (State.precondEntry s0_ c k force i e) := by
  have hdef : @State.precondEntry = @State.precondEntry := rfl
  conv at hdef => rhs; delta State.precondEntry
  rw [congrFun (congrFun (congrFun (congrFun (congrFun (congrFun hdef s0_) c) k) force) i) e]; clear hdef
  repeat' first
    | with_reducible assumption
    | with_reducible refine State.precondLate_kept (Mask.sub hm (by decide)) ?_
    | with_reducible refine State.precondFallback_kept (Mask.sub hm (by decide)) ?_
    | with_reducible refine State.putMatFlags_kept (Mask.sub hm (by decide)) ?_
    | with_reducible refine State.startRefresh_kept (Mask.sub hm (by decide)) ?_
    | with_reducible refine State.vpoke_kept (Mask.sub hm (by decide)) ?_
    | with_reducible refine State.modCtx_kept (Mask.sub hm (by decide)) ?_
    | with_reducible refine Kept.ite ?_ ?_
    | (extract_lets -underBinder +onlyGivenNames x; subst x)
    | split
    | dsimp only

theorem State.precondAll_kept {m : Nat} {s0 s : State} {c : Nat} {k : Nat} {force : Bool} {x1 : Nat} {x2 : List (List Byte)} (hm : 0xcef &&& m = 0xcef) (h : Kept m s0 s) :
     Kept m s0 (State.precondAll s c k force x1 x2) := by
  fun_induction State.precondAll s c k force x1 x2 <;> (try dsimp only at *)
  repeat' first
    | with_reducible assumption
    | with_reducible apply_assumption
    | with_reducible refine State.precondEntry_kept (Mask.sub hm (by decide)) ?_
    | with_reducible refine Kept.ite ?_ ?_
    | (extract_lets -underBinder +onlyGivenNames x; subst x)
    | split
    | dsimp only

theorem State.precondBoundary_kept {m : Nat} {s0 s : State} {c : Nat} {k : Nat} (hm : 0xcef &&& m = 0xcef) (h : Kept m s0 s) :
     Kept m s0 (State.precondBoundary s c k) := by
  have hdef : @State.precondBoundary = @State.precondBoundary := rfl
  conv at hdef => rhs; delta State.precondBoundary
  rw [congrFun (congrFun (congrFun hdef s) c) k]; clear hdef
  repeat' first
    | with_reducible assumption
    | with_reducible refine State.precondAll_kept (Mask.sub hm (by decide)) ?_
    | with_reducible refine State.modCtx_kept (Mask.sub hm (by decide)) ?_
    | with_reducible refine Kept.ite ?_ ?_
    | (extract_lets -underBinder +onlyGivenNames x; subst x)
    | split
    | dsimp only

theorem State.precondRestore_kept {m : Nat} {s0 s : State} {c : Nat} (hm : 0x4c7 &&& m = 0x4c7) (h : Kept m s0 s) :
     Kept m s0 (State.precondRestore s c) := by
  have hdef : @State.precondRestore = @State.precondRestore := rfl
  conv at hdef => rhs; delta State.precondRestore
  rw [congrFun (congrFun hdef s) c]; clear hdef
  repeat' first
    | with_reducible assumption
    | with_reducible refine State.putMatFlags_kept (Mask.sub hm (by decide)) ?_
    | with_reducible refine State.modCtx_kept (Mask.sub hm (by decide)) ?_
    | with_reducible refine Kept.foldl (fun _ _ _ => ?_) _ ?_
    | with_reducible refine Kept.ite ?_ ?_
    | (extract_lets -underBinder +onlyGivenNames x; subst x)
    | split
    | with_reducible refine Kept.solver (Mask.sub hm (by decide)) ?_ _
    | dsimp only

theorem State.putRoot_kept {m : Nat} {s0 s : State} {c : Nat} {base : Nat} {n : Nat} {seed : Nat} (hm : 0xc7 &&& m = 0xc7) (h : Kept m s0 s) :
     Kept m s0 (State.putRoot s c base n seed) := by
  have hdef : @State.putRoot = @State.putRoot := rfl
  conv at hdef => rhs; delta State.putRoot
  rw [congrFun (congrFun (congrFun (congrFun (congrFun hdef s) c) base) n) seed]; clear hdef
  repeat' first
    | with_reducible assumption
    | with_reducible refine State.vpoke_kept (Mask.sub hm (by decide)) ?_
    | with_reducible refine Kept.ite ?_ ?_
    | (extract_lets -underBinder +onlyGivenNames x; subst x)
    | split
    | dsimp only

theorem execSolverJobComplete_kept {m : Nat} {s0 s : State} {n : Nat} (hm : 0x104c7 &&& m = 0x104c7) (h : Kept m s0 s) :
     OutKept m s0 (execSolverJobComplete n s) := by
  have hdef : @execSolverJobComplete = @execSolverJobComplete := rfl
  conv at hdef => rhs; delta execSolverJobComplete
  rw [congrFun (congrFun hdef n) s]; clear hdef
  repeat' first
    | with_reducible assumption
    | with_reducible refine State.putRoot_kept (Mask.sub hm (by decide)) ?_
    | with_reducible refine State.hubNeeds_kept (Mask.sub hm (by decide)) ?_ (fun _ _ => ?_)
    | with_reducible refine State.pick_kept (Mask.sub hm (by decide)) ?_
    | with_reducible refine State.modCtx_kept (Mask.sub hm (by decide)) ?_
    | with_reducible refine OutKept.next ?_
    | with_reducible refine Kept.ofPair (by assumption) ?_
    | with_reducible refine Kept.ite ?_ ?_
    | with_reducible refine Kept.iteSnd ?_ ?_
    | with_reducible refine Kept.iteFst ?_ ?_
    | (extract_lets -underBinder +onlyGivenNames x; subst x)
    | split
    | with_reducible refine Kept.solver (Mask.sub hm (by decide)) ?_ _
    | dsimp only

end Sys2Proof.Machine
end

