-- ==== Sys2Proof/Laws/KeptLoad.lean ====
section
/-!
SUPPORT. What the operations of Sys2Proof/Machine/Load.lean keep (Laws/Kept.lean).
-/
namespace Sys2Proof.Machine

theorem State.mapOne_kept {m : Nat} {s0 s : State} {c : Nat} {k : Nat} {big : Bool} {write : Bool} {spare : Bool} {mask : Nat} {o : Origin} (hm : 0x44 &&& m = 0x44) (h : Kept m s0 s) :
     AllO (Kept m s0) (State.mapOne s c k big write spare mask o) := by
  have hdef : @State.mapOne = @State.mapOne := rfl
  conv at hdef => rhs; delta State.mapOne
  rw [congrFun (congrFun (congrFun (congrFun (congrFun (congrFun (congrFun (congrFun hdef s) c) k) big) write) spare) mask) o]; clear hdef
  repeat' first
    | with_reducible assumption
    | with_reducible refine State.allocBig_kept (Mask.sub hm (by decide)) ?_
    | with_reducible refine State.allocFrame_kept (Mask.sub hm (by decide)) ?_
    | with_reducible refine State.modCtx_kept (Mask.sub hm (by decide)) ?_
    | with_reducible exact AllO.none_
    | with_reducible refine AllO.some_ ?_
    | with_reducible refine Kept.ofSomePair (by assumption) ?_
    | with_reducible refine Kept.ofSomeSnd (by assumption) ?_
    | with_reducible refine Kept.ite ?_ ?_
    | with_reducible refine Kept.iteSnd ?_ ?_
    | with_reducible refine Kept.iteFst ?_ ?_
    | (extract_lets -underBinder +onlyGivenNames x; subst x)
    | split
    | dsimp only

theorem State.mapMany_kept {m : Nat} {s0 s : State} {c : Nat} {big : Bool} {write : Bool} {spare : Bool} {mask : Nat} {o : Origin} {x1 : Nat} {x2 : Nat} (hm : 0x44 &&& m = 0x44) (h : Kept m s0 s) :
     AllO (Kept m s0) (State.mapMany s c big write spare mask o x1 x2) := by
  fun_induction State.mapMany s c big write spare mask o x1 x2 <;> (try dsimp only at *)
  repeat' first
    | with_reducible assumption
    | with_reducible apply_assumption
    | with_reducible refine State.mapOne_kept (Mask.sub hm (by decide)) ?_
    | with_reducible exact AllO.none_
    | with_reducible refine AllO.some_ ?_
    | with_reducible refine Kept.ofSome (by assumption) ?_
    | with_reducible refine Kept.ite ?_ ?_
    | (extract_lets -underBinder +onlyGivenNames x; subst x)
    | split
    | dsimp only

theorem State.mapFresh_kept {m : Nat} {s0 s : State} {c : Nat} {bytes : Nat} {big : Bool} {write : Bool} {spare : Bool} {mask : Nat} {o : Origin} (hm : 0x44 &&& m = 0x44) (h : Kept m s0 s) :
     AllO (fun p => Kept m s0 p.2) (State.mapFresh s c bytes big write spare mask o) := by
  have hdef : @State.mapFresh = @State.mapFresh := rfl
  conv at hdef => rhs; delta State.mapFresh
  rw [congrFun (congrFun (congrFun (congrFun (congrFun (congrFun (congrFun (congrFun hdef s) c) bytes) big) write) spare) mask) o]; clear hdef
  repeat' first
    | with_reducible assumption
    | with_reducible refine State.mapMany_kept (Mask.sub hm (by decide)) ?_
    | with_reducible exact AllO.none_
    | with_reducible refine AllO.somePair ?_
    | with_reducible refine AllO.mapPair ?_
    | with_reducible refine AllO.someTriple ?_
    | with_reducible refine Kept.ofSome (by assumption) ?_
    | with_reducible refine Kept.ite ?_ ?_
    | (extract_lets -underBinder +onlyGivenNames x; subst x)
    | split
    | dsimp only

theorem State.rawWrite_kept {m : Nat} {s0 s : State} {c : Nat} {va : Nat} {bs : List Byte} (hm : 0x6 &&& m = 0x6) (h : Kept m s0 s) :
     Kept m s0 (State.rawWrite s c va bs) := by
  have hdef : @State.rawWrite = @State.rawWrite := rfl
  conv at hdef => rhs; delta State.rawWrite
  rw [congrFun (congrFun (congrFun (congrFun hdef s) c) va) bs]; clear hdef
  repeat' first
    | exact fun hw => wf_wrBytes _ _ _ hw
    | with_reducible assumption
    | with_reducible refine Kept.foldl (fun _ _ _ => ?_) _ ?_
    | with_reducible refine Kept.ite ?_ ?_
    | (extract_lets -underBinder +onlyGivenNames x; subst x)
    | split
    | with_reducible refine Kept.hbm (Mask.sub hm (by decide)) ?_ _ ?_
    | with_reducible refine Kept.mem (Mask.sub hm (by decide)) ?_ _ rfl
    | with_reducible refine Kept.memAll (Mask.sub hm (by decide)) ?_ _ ?_
    | dsimp only

theorem State.releaseProgram_kept {m : Nat} {s0 s0_ : State} {c : Nat} (hm : 0xdef &&& m = 0xdef) (h : Kept m s0 s0_) :
     Kept m s0 (State.releaseProgram s0_ c) := by
  have hdef : @State.releaseProgram = @State.releaseProgram := rfl
  conv at hdef => rhs; delta State.releaseProgram
  rw [congrFun (congrFun hdef s0_) c]; clear hdef
  repeat' first
    | with_reducible assumption
    | with_reducible refine State.abandonSecuring_kept (Mask.sub hm (by decide)) ?_
    | with_reducible refine State.freeFrames_kept (Mask.sub hm (by decide)) ?_
    | with_reducible refine State.clearAu_kept (Mask.sub hm (by decide)) ?_
    | with_reducible refine State.modCtx_kept (Mask.sub hm (by decide)) ?_
    | with_reducible refine Kept.foldl (fun _ _ _ => ?_) _ ?_
    | with_reducible refine Kept.ite ?_ ?_
    | (extract_lets -underBinder +onlyGivenNames x; subst x)
    | split
    | with_reducible refine Kept.solver (Mask.sub hm (by decide)) ?_ _
    | dsimp only

theorem State.warmupEvent_kept {m : Nat} {s0 s : State} {c : Nat} {i : Nat} {reason : Nat} (hm : 0x829 &&& m = 0x829) (h : Kept m s0 s) :
     Kept m s0 (State.warmupEvent s c i reason) := by
  have hdef : @State.warmupEvent = @State.warmupEvent := rfl
  conv at hdef => rhs; delta State.warmupEvent
  rw [congrFun (congrFun (congrFun (congrFun hdef s) c) i) reason]; clear hdef
  repeat' first
    | with_reducible assumption
    | with_reducible refine State.flagCount_kept (Mask.sub hm (by decide)) ?_
    | with_reducible refine State.raise_kept (Mask.sub hm (by decide)) ?_
    | with_reducible refine Kept.ite ?_ ?_
    | (extract_lets -underBinder +onlyGivenNames x; subst x)
    | split
    | dsimp only

theorem State.buildArrays_kept {m : Nat} {s0 s : State} {c : Nat} {ts : List TensorRec} (hm : 0x1086f &&& m = 0x1086f) (h : Kept m s0 s) :
     AllO (Kept m s0) (State.buildArrays s c ts) := by
  have hdef : @State.buildArrays = @State.buildArrays := rfl
  conv at hdef => rhs; delta State.buildArrays
  rw [congrFun (congrFun (congrFun hdef s) c) ts]; clear hdef
  repeat' first
    | with_reducible assumption
    | with_reducible refine State.warmupEvent_kept (Mask.sub hm (by decide)) ?_
    | with_reducible refine State.rawWrite_kept (Mask.sub hm (by decide)) ?_
    | with_reducible refine State.mapFresh_kept (Mask.sub hm (by decide)) ?_
    | with_reducible refine State.setReg64_kept (Mask.sub hm (by decide)) ?_
    | with_reducible refine State.setReg_kept (Mask.sub hm (by decide)) ?_
    | with_reducible refine State.pick_kept (Mask.sub hm (by decide)) ?_
    | with_reducible refine Kept.foldl (fun _ _ _ => ?_) _ ?_
    | with_reducible exact AllO.none_
    | with_reducible refine AllO.some_ ?_
    | with_reducible refine Kept.ofSomePair (by assumption) ?_
    | with_reducible refine Kept.ofSomeSnd (by assumption) ?_
    | with_reducible refine Kept.ofPair (by assumption) ?_
    | with_reducible refine Kept.ite ?_ ?_
    | with_reducible refine Kept.iteSnd ?_ ?_
    | with_reducible refine Kept.iteFst ?_ ?_
    | (extract_lets -underBinder +onlyGivenNames x; subst x)
    | split
    | dsimp only

theorem State.mapBufs_kept {m : Nat} {s0 s : State} {c : Nat} {laus : List LauRec} {all : List LbufRec} {x1 : Nat} {x2 : List LbufRec} (hm : 0x44 &&& m = 0x44) (h : Kept m s0 s) :
     AllO (fun p => Kept m s0 p.2) (State.mapBufs s c laus all x1 x2) := by
  induction x2 generalizing s x1 with
  | nil => exact h
  | cons b bs ih =>
    rw [State.mapBufs]
    have hr : AllO (fun p : Nat × State => Kept m s0 p.2) (if b.space = 0 then some (hawkPlace laus all (x1 - 1) b, s)
        else s.mapFresh c b.size (b.page == 1) true ((s.ctx c).bufMask x1 b).2 ((s.ctx c).bufMask x1 b).1 (.loader x1)) := by
      split
      · exact h
      · exact State.mapFresh_kept (Mask.sub hm (by decide)) h
    dsimp only
    split
    · exact True.intro
    · have hk := ih (x1 := x1 + 1) (Kept.ofSomePair (by assumption) hr)
      split
      · exact True.intro
      · exact Kept.ofSomePair (by assumption) hk

theorem State.allocSaves_kept {m : Nat} {s0 s : State} {c : Nat} {bufs : List LbufRec} {x1 : List (Nat × Nat)} (hm : 0x44 &&& m = 0x44) (h : Kept m s0 s) :
     AllO (Kept m s0) (State.allocSaves s c bufs x1) := by
  induction x1 generalizing s with
  | nil => exact h
  | cons p ps ih =>
    obtain ⟨l, n⟩ := p
    rw [State.allocSaves]
    split
    · exact True.intro
    · with_reducible refine ih (State.modCtx_kept (Mask.sub hm (by decide)) ?_)
      with_reducible refine Kept.ofSomePair (by assumption) ?_
      with_reducible exact State.allocFrames_kept (Mask.sub hm (by decide)) h

theorem State.runInits_kept {m : Nat} {s0 s : State} {c : Nat} {rs : List (Nat × Nat × Nat × List Byte)} (hm : 0x86 &&& m = 0x86) (h : Kept m s0 s) :
     Kept m s0 (State.runInits s c rs) := by
  have hdef : @State.runInits = @State.runInits := rfl
  conv at hdef => rhs; delta State.runInits
  rw [congrFun (congrFun (congrFun hdef s) c) rs]; clear hdef
  repeat' first
    | with_reducible assumption
    | with_reducible refine State.rawWrite_kept (Mask.sub hm (by decide)) ?_
    | with_reducible refine State.modAu_kept (Mask.sub hm (by decide)) ?_
    | with_reducible refine Kept.foldl (fun _ _ _ => ?_) _ ?_
    | with_reducible refine Kept.ite ?_ ?_
    | (extract_lets -underBinder +onlyGivenNames x; subst x)
    | split
    | dsimp only

theorem State.install_kept {m : Nat} {s0 s : State} {c : Nat} {img : List Byte} (hm : 0x10def &&& m = 0x10def) (h : Kept m s0 s) :
     AllO (Kept m s0) (State.install s c img) := by
  have hdef : @State.install = @State.install := rfl
  conv at hdef => rhs; delta State.install
  rw [congrFun (congrFun (congrFun hdef s) c) img]; clear hdef
  repeat' first
    | with_reducible assumption
    | with_reducible refine State.runInits_kept (Mask.sub hm (by decide)) ?_
    | with_reducible refine State.allocSaves_kept (Mask.sub hm (by decide)) ?_
    | with_reducible refine State.mapBufs_kept (Mask.sub hm (by decide)) ?_
    | with_reducible refine State.buildArrays_kept (Mask.sub hm (by decide)) ?_
    | with_reducible refine State.releaseProgram_kept (Mask.sub hm (by decide)) ?_
    | with_reducible refine State.rawWrite_kept (Mask.sub hm (by decide)) ?_
    | with_reducible refine State.mapFresh_kept (Mask.sub hm (by decide)) ?_
    | with_reducible refine State.modCtx_kept (Mask.sub hm (by decide)) ?_
    | with_reducible refine State.findPlace_kept (Mask.sub hm (by decide)) ?_
    | with_reducible refine State.takePlace_kept (Mask.sub hm (by decide)) ?_
    | with_reducible refine State.modAu_kept (Mask.sub hm (by decide)) ?_
    | with_reducible refine State.setFld_kept (Mask.sub hm (by decide)) ?_
    | with_reducible refine State.setReg64_kept (Mask.sub hm (by decide)) ?_
    | with_reducible refine Kept.foldl (fun _ _ _ => ?_) _ ?_
    | with_reducible exact AllO.none_
    | with_reducible refine AllO.some_ ?_
    | with_reducible refine Kept.getD_ ?_ ?_
    | with_reducible refine Kept.ofSome (by assumption) ?_
    | with_reducible refine Kept.ofSomePair (by assumption) ?_
    | with_reducible refine Kept.ofSomeSnd (by assumption) ?_
    | with_reducible refine Kept.ite ?_ ?_
    | with_reducible refine Kept.iteSnd ?_ ?_
    | with_reducible refine Kept.iteFst ?_ ?_
    | (extract_lets -underBinder +onlyGivenNames x; subst x)
    | split
    | dsimp only

theorem State.readImage_kept {m : Nat} {s0 s : State} {c : Nat} {d : List Byte} (hm : 0x40 &&& m = 0x40) (h : Kept m s0 s) :
     ImageRead.All (Kept m s0) (State.readImage s c d) := by
  have hdef : @State.readImage = @State.readImage := rfl
  conv at hdef => rhs; delta State.readImage
  rw [congrFun (congrFun (congrFun hdef s) c) d]; clear hdef
  repeat' first
    | with_reducible assumption
    | with_reducible refine State.vread_kept (Mask.sub hm (by decide)) ?_
    | with_reducible refine ImageRead.All.got_ ?_
    | with_reducible refine ImageRead.All.wait_
    | with_reducible refine ImageRead.All.failed_
    | with_reducible refine VmRes.All.use0 (by assumption) ?_
    | with_reducible refine VmRes.All.use1 (by assumption) ?_
    | with_reducible refine Kept.ite ?_ ?_
    | with_reducible refine Kept.iteSnd ?_ ?_
    | with_reducible refine Kept.iteFst ?_ ?_
    | (extract_lets -underBinder +onlyGivenNames x; subst x)
    | split
    | dsimp only

theorem State.loadFails_kept {m : Nat} {s0 s : State} {c : Nat} {k : Nat} {status : Nat} {result : Nat} (hm : 0x849 &&& m = 0x849) (h : Kept m s0 s) :
     Kept m s0 (State.loadFails s c k status result) := by
  have hdef : @State.loadFails = @State.loadFails := rfl
  conv at hdef => rhs; delta State.loadFails
  rw [congrFun (congrFun (congrFun (congrFun (congrFun hdef s) c) k) status) result]; clear hdef
  repeat' first
    | with_reducible assumption
    | with_reducible refine State.complete_kept (Mask.sub hm (by decide)) ?_
    | with_reducible refine State.enter_kept (Mask.sub hm (by decide)) ?_
    | with_reducible refine Kept.ite ?_ ?_
    | (extract_lets -underBinder +onlyGivenNames x; subst x)
    | split
    | dsimp only

theorem State.rejected_kept {m : Nat} {s0 s : State} {c : Nat} {f : Failure} {n : Nat} (hm : 0x829 &&& m = 0x829) (h : Kept m s0 s) :
     Kept m s0 (State.rejected s c f n) := by
  have hdef : @State.rejected = @State.rejected := rfl
  conv at hdef => rhs; delta State.rejected
  rw [congrFun (congrFun (congrFun (congrFun hdef s) c) f) n]; clear hdef
  repeat' first
    | with_reducible assumption
    | with_reducible refine State.raise_kept (Mask.sub hm (by decide)) ?_
    | with_reducible refine Kept.ite ?_ ?_
    | (extract_lets -underBinder +onlyGivenNames x; subst x)
    | split
    | dsimp only

theorem State.loadGo_kept {m : Nat} {s0 s : State} {c : Nat} {k : Nat} {d : List Byte} (hm : 0x10def &&& m = 0x10def) (h : Kept m s0 s) :
     Kept m s0 (State.loadGo s c k d) := by
  have hdef : @State.loadGo = @State.loadGo := rfl
  conv at hdef => rhs; delta State.loadGo
  rw [congrFun (congrFun (congrFun (congrFun hdef s) c) k) d]; clear hdef
  repeat' first
    | with_reducible assumption
    | with_reducible refine State.rejected_kept (Mask.sub hm (by decide)) ?_
    | with_reducible refine State.loadFails_kept (Mask.sub hm (by decide)) ?_
    | with_reducible refine State.readImage_kept (Mask.sub hm (by decide)) ?_
    | with_reducible refine State.install_kept (Mask.sub hm (by decide)) ?_
    | with_reducible refine State.want_kept (Mask.sub hm (by decide)) ?_
    | with_reducible refine State.complete_kept (Mask.sub hm (by decide)) ?_
    | with_reducible refine State.raise_kept (Mask.sub hm (by decide)) ?_
    | with_reducible refine State.enter_kept (Mask.sub hm (by decide)) ?_
    | with_reducible refine Kept.getD_ ?_ ?_
    | with_reducible refine ImageRead.All.use0 (by assumption) ?_
    | with_reducible refine Kept.ofSome (by assumption) ?_
    | with_reducible refine Kept.ite ?_ ?_
    | (extract_lets -underBinder +onlyGivenNames x; subst x)
    | split
    | with_reducible refine Kept.mem (Mask.sub hm (by decide)) ?_ _ rfl
    | dsimp only

theorem State.loadBegins_kept {m : Nat} {s0 s : State} {c : Nat} {k : Nat} (hm : 0x48 &&& m = 0x48) (h : Kept m s0 s) :
     Kept m s0 (State.loadBegins s c k) := by
  have hdef : @State.loadBegins = @State.loadBegins := rfl
  conv at hdef => rhs; delta State.loadBegins
  rw [congrFun (congrFun (congrFun hdef s) c) k]; clear hdef
  repeat' first
    | with_reducible assumption
    | with_reducible refine State.setPhase_kept (Mask.sub hm (by decide)) ?_
    | with_reducible refine State.enter_kept (Mask.sub hm (by decide)) ?_
    | with_reducible refine State.modCtx_kept (Mask.sub hm (by decide)) ?_
    | with_reducible refine Kept.ite ?_ ?_
    | (extract_lets -underBinder +onlyGivenNames x; subst x)
    | split
    | dsimp only

theorem execLoadProgram_kept {m : Nat} {s0 s : State} {c : CtxId} {k : Nat} (hm : 0x10def &&& m = 0x10def) (h : Kept m s0 s) :
     OutKept m s0 (execLoadProgram c k s) := by
  have hdef : @execLoadProgram = @execLoadProgram := rfl
  conv at hdef => rhs; delta execLoadProgram
  rw [congrFun (congrFun (congrFun hdef c) k) s]; clear hdef
  repeat' first
    | with_reducible assumption
    | with_reducible refine State.loadBegins_kept (Mask.sub hm (by decide)) ?_
    | with_reducible refine State.loadGo_kept (Mask.sub hm (by decide)) ?_
    | with_reducible refine State.onCmd_kept (Mask.sub hm (by decide)) ?_ (fun _ => ?_)
    | with_reducible refine State.complete_kept (Mask.sub hm (by decide)) ?_
    | with_reducible refine OutKept.next ?_
    | with_reducible refine Kept.ite ?_ ?_
    | (extract_lets -underBinder +onlyGivenNames x; subst x)
    | split
    | dsimp only

end Sys2Proof.Machine
end

