-- ==== Sys2Proof/Laws/KeptCpu.lean ====
section
/-!
SUPPORT. What the operations of Sys2Proof/Machine/Cpu.lean keep (Laws/Kept.lean).
-/
namespace Sys2Proof.Machine

theorem State.modCore_kept {m : Nat} {s0 s : State} {n : Nat} {f : CoreSt → CoreSt} (hm : 0x80 &&& m = 0x80) (h : Kept m s0 s) :
     Kept m s0 (State.modCore s n f) := by
  have hdef : @State.modCore = @State.modCore := rfl
  conv at hdef => rhs; delta State.modCore
  rw [congrFun (congrFun (congrFun hdef s) n) f]; clear hdef
  repeat' first
    | with_reducible assumption
    | with_reducible refine State.modAu_kept (Mask.sub hm (by decide)) ?_
    | with_reducible refine Kept.ite ?_ ?_
    | (extract_lets -underBinder +onlyGivenNames x; subst x)
    | split
    | dsimp only

theorem State.fetch_kept {m : Nat} {s0 s : State} {c : Nat} {p : Nat} (hm : 0x40 &&& m = 0x40) (h : Kept m s0 s) :
     Fetch.All (Kept m s0) (State.fetch s c p) := by
  have hdef : @State.fetch = @State.fetch := rfl
  conv at hdef => rhs; delta State.fetch
  rw [congrFun (congrFun (congrFun hdef s) c) p]; clear hdef
  repeat' first
    | with_reducible assumption
    | with_reducible refine State.vread_kept (Mask.sub hm (by decide)) ?_
    | with_reducible refine Fetch.All.got_ ?_
    | with_reducible refine Fetch.All.wait_
    | with_reducible refine Fetch.All.bad_
    | with_reducible refine VmRes.All.use0 (by assumption) ?_
    | with_reducible refine VmRes.All.use1 (by assumption) ?_
    | with_reducible refine Kept.ite ?_ ?_
    | with_reducible refine Kept.iteSnd ?_ ?_
    | with_reducible refine Kept.iteFst ?_ ?_
    | (extract_lets -underBinder +onlyGivenNames x; subst x)
    | split
    | dsimp only

theorem State.corePage_kept {m : Nat} {s0 s : State} {c : Nat} {n : Nat} {va : Nat} {write : Bool} (hm : 0x84 &&& m = 0x84) (h : Kept m s0 s) :
     Kept m s0 (State.corePage s c n va write) := by
  have hdef : @State.corePage = @State.corePage := rfl
  conv at hdef => rhs; delta State.corePage
  rw [congrFun (congrFun (congrFun (congrFun (congrFun hdef s) c) n) va) write]; clear hdef
  repeat' first
    | with_reducible assumption
    | with_reducible refine State.modCore_kept (Mask.sub hm (by decide)) ?_
    | with_reducible refine State.want_kept (Mask.sub hm (by decide)) ?_
    | with_reducible refine Kept.ite ?_ ?_
    | (extract_lets -underBinder +onlyGivenNames x; subst x)
    | split
    | dsimp only

theorem State.coreTrap_kept {m : Nat} {s0 s : State} {c : Nat} {n : Nat} {cause : Nat} (hm : 0xfef &&& m = 0xfef) (h : Kept m s0 s) :
     Kept m s0 (State.coreTrap s c n cause) := by
  have hdef : @State.coreTrap = @State.coreTrap := rfl
  conv at hdef => rhs; delta State.coreTrap
  rw [congrFun (congrFun (congrFun (congrFun hdef s) c) n) cause]; clear hdef
  repeat' first
    | with_reducible assumption
    | with_reducible refine State.faultCtx_kept (Mask.sub hm (by decide)) ?_
    | with_reducible refine State.count_kept (Mask.sub hm (by decide)) ?_
    | with_reducible refine Kept.ite ?_ ?_
    | (extract_lets -underBinder +onlyGivenNames x; subst x)
    | split
    | dsimp only

theorem State.onDx_kept {m : Nat} {s0 s : State} {n : Nat} {f : Nat → Dx → State → State} (hm : 0x40 &&& m = 0x40) (h : Kept m s0 s) (h_f : ∀ a0 a1 a2, Kept m s0 a2 → Kept m s0 (f a0 a1 a2)) :
     Kept m s0 (State.onDx s n f) := by
  have hdef : @State.onDx = @State.onDx := rfl
  conv at hdef => rhs; delta State.onDx
  rw [congrFun (congrFun (congrFun hdef s) n) f]; clear hdef
  repeat' first
    | with_reducible assumption
    | with_reducible refine State.fetch_kept (Mask.sub hm (by decide)) ?_
    | with_reducible refine h_f _ _ _ ?_
    | with_reducible refine Fetch.All.use0 (by assumption) ?_
    | with_reducible refine Kept.ite ?_ ?_
    | (extract_lets -underBinder +onlyGivenNames x; subst x)
    | split
    | dsimp only

theorem State.csrRead_kept {m : Nat} {s0 s : State} {c : Nat} {n : Nat} {num : Nat} (hm : 0x10080 &&& m = 0x10080) (h : Kept m s0 s) :
     AllO (fun p => Kept m s0 p.2) (State.csrRead s c n num) := by
  have hdef : @State.csrRead = @State.csrRead := rfl
  conv at hdef => rhs; delta State.csrRead
  rw [congrFun (congrFun (congrFun (congrFun hdef s) c) n) num]; clear hdef
  repeat' first
    | with_reducible assumption
    | with_reducible refine State.modCore_kept (Mask.sub hm (by decide)) ?_
    | with_reducible refine State.pick_kept (Mask.sub hm (by decide)) ?_
    | with_reducible exact AllO.none_
    | with_reducible refine AllO.somePair ?_
    | with_reducible refine AllO.mapPair ?_
    | with_reducible refine AllO.someTriple ?_
    | with_reducible refine Kept.ofPair (by assumption) ?_
    | with_reducible refine Kept.ite ?_ ?_
    | with_reducible refine Kept.iteSnd ?_ ?_
    | with_reducible refine Kept.iteFst ?_ ?_
    | (extract_lets -underBinder +onlyGivenNames x; subst x)
    | split
    | dsimp only

theorem State.csrDo_kept {m : Nat} {s0 s : State} {c : Nat} {n : Nat} {op : Nat} {useImm : Bool} {rd : Nat} {rs1 : Nat} {num : Nat} (hm : 0x10080 &&& m = 0x10080) (h : Kept m s0 s) :
     AllO (Kept m s0) (State.csrDo s c n op useImm rd rs1 num) := by
  have hdef : @State.csrDo = @State.csrDo := rfl
  conv at hdef => rhs; delta State.csrDo
  rw [congrFun (congrFun (congrFun (congrFun (congrFun (congrFun (congrFun (congrFun hdef s) c) n) op) useImm) rd) rs1) num]; clear hdef
  repeat' first
    | with_reducible assumption
    | with_reducible refine State.csrRead_kept (Mask.sub hm (by decide)) ?_
    | with_reducible refine State.modCore_kept (Mask.sub hm (by decide)) ?_
    | with_reducible exact AllO.none_
    | with_reducible refine AllO.some_ ?_
    | with_reducible refine Kept.ofSomePair (by assumption) ?_
    | with_reducible refine Kept.ofSomeSnd (by assumption) ?_
    | with_reducible refine Kept.ite ?_ ?_
    | with_reducible refine Kept.iteSnd ?_ ?_
    | with_reducible refine Kept.iteFst ?_ ?_
    | (extract_lets -underBinder +onlyGivenNames x; subst x)
    | split
    | dsimp only

theorem State.coreLoad_kept {m : Nat} {s0 s : State} {c : Nat} {n : Nat} {va : Nat} {len : Nat} {write : Bool} {f : Nat → State → State} (hm : 0xfef &&& m = 0xfef) (h : Kept m s0 s) (h_f : ∀ a0 a1, Kept m s0 a1 → Kept m s0 (f a0 a1)) :
     Kept m s0 (State.coreLoad s c n va len write f) := by
  have hdef : @State.coreLoad = @State.coreLoad := rfl
  conv at hdef => rhs; delta State.coreLoad
  rw [congrFun (congrFun (congrFun (congrFun (congrFun (congrFun (congrFun hdef s) c) n) va) len) write) f]; clear hdef
  repeat' first
    | with_reducible assumption
    | with_reducible refine State.corePage_kept (Mask.sub hm (by decide)) ?_
    | with_reducible refine State.vread_kept (Mask.sub hm (by decide)) ?_
    | with_reducible refine State.memFault_kept (Mask.sub hm (by decide)) ?_
    | with_reducible refine h_f _ _ ?_
    | with_reducible refine VmRes.All.use0 (by assumption) ?_
    | with_reducible refine VmRes.All.use1 (by assumption) ?_
    | with_reducible refine Kept.ite ?_ ?_
    | with_reducible refine Kept.iteSnd ?_ ?_
    | with_reducible refine Kept.iteFst ?_ ?_
    | (extract_lets -underBinder +onlyGivenNames x; subst x)
    | split
    | dsimp only

theorem State.coreStore_kept {m : Nat} {s0 s : State} {c : Nat} {n : Nat} {va : Nat} {len : Nat} {v : Nat} {f : State → State} (hm : 0xfef &&& m = 0xfef) (h : Kept m s0 s) (h_f : ∀ a0, Kept m s0 a0 → Kept m s0 (f a0)) :
     Kept m s0 (State.coreStore s c n va len v f) := by
  have hdef : @State.coreStore = @State.coreStore := rfl
  conv at hdef => rhs; delta State.coreStore
  rw [congrFun (congrFun (congrFun (congrFun (congrFun (congrFun (congrFun hdef s) c) n) va) len) v) f]; clear hdef
  repeat' first
    | with_reducible assumption
    | with_reducible refine State.corePage_kept (Mask.sub hm (by decide)) ?_
    | with_reducible refine State.vwrite_kept (Mask.sub hm (by decide)) ?_
    | with_reducible refine State.memFault_kept (Mask.sub hm (by decide)) ?_
    | with_reducible refine h_f _ ?_
    | with_reducible refine VmRes.All.use0 (by assumption) ?_
    | with_reducible refine VmRes.All.use1 (by assumption) ?_
    | with_reducible refine Kept.ite ?_ ?_
    | (extract_lets -underBinder +onlyGivenNames x; subst x)
    | split
    | dsimp only

theorem State.coreDo_kept {m : Nat} {s0 s : State} {c : Nat} {n : Nat} {i : Rv} {len : Nat} (hm : 0x10fef &&& m = 0x10fef) (h : Kept m s0 s) :
     Kept m s0 (State.coreDo s c n i len) := by
  have hdef : @State.coreDo = @State.coreDo := rfl
  conv at hdef => rhs; delta State.coreDo
  rw [congrFun (congrFun (congrFun (congrFun (congrFun hdef s) c) n) i) len]; clear hdef
  repeat' first
    | with_reducible assumption
    | with_reducible refine State.coreStore_kept (Mask.sub hm (by decide)) ?_ (fun _ _ => ?_)
    | with_reducible refine State.coreLoad_kept (Mask.sub hm (by decide)) ?_ (fun _ _ _ => ?_)
    | with_reducible refine State.csrDo_kept (Mask.sub hm (by decide)) ?_
    | with_reducible refine State.coreTrap_kept (Mask.sub hm (by decide)) ?_
    | with_reducible refine State.modCore_kept (Mask.sub hm (by decide)) ?_
    | with_reducible refine Kept.ofSome (by assumption) ?_
    | with_reducible refine Kept.ite ?_ ?_
    | (extract_lets -underBinder +onlyGivenNames x; subst x)
    | split
    | dsimp only

theorem execCoreInstruction_kept {m : Nat} {s0 s : State} {a : AuId} (hm : 0x10fef &&& m = 0x10fef) (h : Kept m s0 s) :
     OutKept m s0 (execCoreInstruction a s) := by
  have hdef : @execCoreInstruction = @execCoreInstruction := rfl
  conv at hdef => rhs; delta execCoreInstruction
  rw [congrFun (congrFun hdef a) s]; clear hdef
  repeat' first
    | with_reducible assumption
    | with_reducible refine State.coreDo_kept (Mask.sub hm (by decide)) ?_
    | with_reducible refine State.corePage_kept (Mask.sub hm (by decide)) ?_
    | with_reducible refine State.fetch_kept (Mask.sub hm (by decide)) ?_
    | with_reducible refine State.progress_kept (Mask.sub hm (by decide)) ?_
    | with_reducible refine State.memFault_kept (Mask.sub hm (by decide)) ?_
    | with_reducible refine OutKept.next ?_
    | with_reducible refine Fetch.All.use0 (by assumption) ?_
    | with_reducible refine Kept.ite ?_ ?_
    | (extract_lets -underBinder +onlyGivenNames x; subst x)
    | split
    | dsimp only

theorem execCorePageWaitEnd_kept {m : Nat} {s0 s : State} {a : AuId} (hm : 0xfef &&& m = 0xfef) (h : Kept m s0 s) :
     OutKept m s0 (execCorePageWaitEnd a s) := by
  have hdef : @execCorePageWaitEnd = @execCorePageWaitEnd := rfl
  conv at hdef => rhs; delta execCorePageWaitEnd
  rw [congrFun (congrFun hdef a) s]; clear hdef
  repeat' first
    | with_reducible assumption
    | with_reducible refine State.modCore_kept (Mask.sub hm (by decide)) ?_
    | with_reducible refine State.progress_kept (Mask.sub hm (by decide)) ?_
    | with_reducible refine State.memFault_kept (Mask.sub hm (by decide)) ?_
    | with_reducible refine OutKept.next ?_
    | with_reducible refine Kept.ite ?_ ?_
    | (extract_lets -underBinder +onlyGivenNames x; subst x)
    | split
    | dsimp only

theorem execLogicalAuExit_kept {m : Nat} {s0 s : State} {a : AuId} (hm : 0xc0 &&& m = 0xc0) (h : Kept m s0 s) :
     OutKept m s0 (execLogicalAuExit a s) := by
  have hdef : @execLogicalAuExit = @execLogicalAuExit := rfl
  conv at hdef => rhs; delta execLogicalAuExit
  rw [congrFun (congrFun hdef a) s]; clear hdef
  repeat' first
    | with_reducible assumption
    | with_reducible refine State.modCore_kept (Mask.sub hm (by decide)) ?_
    | with_reducible refine State.progress_kept (Mask.sub hm (by decide)) ?_
    | with_reducible refine OutKept.next ?_
    | with_reducible refine Kept.ite ?_ ?_
    | (extract_lets -underBinder +onlyGivenNames x; subst x)
    | split
    | dsimp only

end Sys2Proof.Machine
end

