-- ==== Sys2Proof/Laws/KeptDx.lean ====
section
/-!
SUPPORT. What the operations of Sys2Proof/Machine/Dx.lean keep (Laws/Kept.lean).
-/
namespace Sys2Proof.Machine

theorem State.dxDone_kept {m : Nat} {s0 s : State} {n : Nat} (hm : 0x80 &&& m = 0x80) (h : Kept m s0 s) :
     Kept m s0 (State.dxDone s n) := by
  have hdef : @State.dxDone = @State.dxDone := rfl
  conv at hdef => rhs; delta State.dxDone
  rw [congrFun (congrFun hdef s) n]; clear hdef
  repeat' first
    | with_reducible assumption
    | with_reducible refine State.modCore_kept (Mask.sub hm (by decide)) ?_
    | with_reducible refine Kept.ite ?_ ?_
    | (extract_lets -underBinder +onlyGivenNames x; subst x)
    | split
    | dsimp only

theorem State.dxSet_kept {m : Nat} {s0 s : State} {n : Nat} {rd : Nat} {v : Nat} (hm : 0x80 &&& m = 0x80) (h : Kept m s0 s) :
     Kept m s0 (State.dxSet s n rd v) := by
  have hdef : @State.dxSet = @State.dxSet := rfl
  conv at hdef => rhs; delta State.dxSet
  rw [congrFun (congrFun (congrFun (congrFun hdef s) n) rd) v]; clear hdef
  repeat' first
    | with_reducible assumption
    | with_reducible refine State.dxDone_kept (Mask.sub hm (by decide)) ?_
    | with_reducible refine State.modCore_kept (Mask.sub hm (by decide)) ?_
    | with_reducible refine Kept.ite ?_ ?_
    | (extract_lets -underBinder +onlyGivenNames x; subst x)
    | split
    | dsimp only

theorem State.dxHold_kept {m : Nat} {s0 s : State} {n : Nat} {w : CoreWait} (hm : 0x80 &&& m = 0x80) (h : Kept m s0 s) :
     Kept m s0 (State.dxHold s n w) := by
  have hdef : @State.dxHold = @State.dxHold := rfl
  conv at hdef => rhs; delta State.dxHold
  rw [congrFun (congrFun (congrFun hdef s) n) w]; clear hdef
  repeat' first
    | with_reducible assumption
    | with_reducible refine State.modCore_kept (Mask.sub hm (by decide)) ?_
    | with_reducible refine Kept.ite ?_ ?_
    | (extract_lets -underBinder +onlyGivenNames x; subst x)
    | split
    | dsimp only

theorem State.onHeld_kept {m : Nat} {s0 s : State} {n : Nat} {ok : CoreWait → Bool} {f : Nat → Dx → State → State} (hm : 0xc0 &&& m = 0xc0) (h : Kept m s0 s) (h_f : ∀ a0 a1 a2, Kept m s0 a2 → Kept m s0 (f a0 a1 a2)) :
     Kept m s0 (State.onHeld s n ok f) := by
  have hdef : @State.onHeld = @State.onHeld := rfl
  conv at hdef => rhs; delta State.onHeld
  rw [congrFun (congrFun (congrFun (congrFun hdef s) n) ok) f]; clear hdef
  repeat' first
    | with_reducible assumption
    | with_reducible refine State.onDx_kept (Mask.sub hm (by decide)) ?_ (fun _ _ _ _ => ?_)
    | with_reducible refine State.modCore_kept (Mask.sub hm (by decide)) ?_
    | with_reducible refine h_f _ _ _ ?_
    | with_reducible refine Kept.ite ?_ ?_
    | (extract_lets -underBinder +onlyGivenNames x; subst x)
    | split
    | dsimp only

theorem State.onDxOr_kept {m : Nat} {s0 s : State} {n : Nat} {w : CoreWait} {f : Nat → Dx → State → State} (hm : 0xc0 &&& m = 0xc0) (h : Kept m s0 s) (h_f : ∀ a0 a1 a2, Kept m s0 a2 → Kept m s0 (f a0 a1 a2)) :
     Kept m s0 (State.onDxOr s n w f) := by
  have hdef : @State.onDxOr = @State.onDxOr := rfl
  conv at hdef => rhs; delta State.onDxOr
  rw [congrFun (congrFun (congrFun (congrFun hdef s) n) w) f]; clear hdef
  repeat' first
    | with_reducible assumption
    | with_reducible refine State.onHeld_kept (Mask.sub hm (by decide)) ?_ (fun _ _ _ _ => ?_)
    | with_reducible refine h_f _ _ _ ?_
    | with_reducible refine Kept.ite ?_ ?_
    | (extract_lets -underBinder +onlyGivenNames x; subst x)
    | split
    | dsimp only

theorem State.opIllegal_kept {m : Nat} {s0 s : State} {c : Nat} {n : Nat} {e : Nat} {code : Nat} (hm : 0xfef &&& m = 0xfef) (h : Kept m s0 s) :
     Kept m s0 (State.opIllegal s c n e code) := by
  have hdef : @State.opIllegal = @State.opIllegal := rfl
  conv at hdef => rhs; delta State.opIllegal
  rw [congrFun (congrFun (congrFun (congrFun (congrFun hdef s) c) n) e) code]; clear hdef
  repeat' first
    | with_reducible assumption
    | with_reducible refine State.faultCtx_kept (Mask.sub hm (by decide)) ?_
    | with_reducible refine State.count_kept (Mask.sub hm (by decide)) ?_
    | with_reducible refine Kept.ite ?_ ?_
    | (extract_lets -underBinder +onlyGivenNames x; subst x)
    | split
    | dsimp only

theorem State.issue_kept {m : Nat} {s0 s : State} {c : Nat} {n : Nat} {e : Nat} {w : Nat} {rd : Nat} (hm : 0xfef &&& m = 0xfef) (h : Kept m s0 s) :
     Kept m s0 (State.issue s c n e w rd) := by
  have hdef : @State.issue = @State.issue := rfl
  conv at hdef => rhs; delta State.issue
  rw [congrFun (congrFun (congrFun (congrFun (congrFun (congrFun hdef s) c) n) e) w) rd]; clear hdef
  repeat' first
    | with_reducible assumption
    | with_reducible refine State.opIllegal_kept (Mask.sub hm (by decide)) ?_
    | with_reducible refine State.dxSet_kept (Mask.sub hm (by decide)) ?_
    | with_reducible refine State.progress_kept (Mask.sub hm (by decide)) ?_
    | with_reducible refine State.modAu_kept (Mask.sub hm (by decide)) ?_
    | with_reducible refine Kept.ite ?_ ?_
    | (extract_lets -underBinder +onlyGivenNames x; subst x)
    | split
    | dsimp only

theorem execDxIssue_kept {m : Nat} {s0 s : State} {a : AuId} (hm : 0xfef &&& m = 0xfef) (h : Kept m s0 s) :
     OutKept m s0 (execDxIssue a s) := by
  have hdef : @execDxIssue = @execDxIssue := rfl
  conv at hdef => rhs; delta execDxIssue
  rw [congrFun (congrFun hdef a) s]; clear hdef
  repeat' first
    | with_reducible assumption
    | with_reducible refine State.issue_kept (Mask.sub hm (by decide)) ?_
    | with_reducible refine State.dxHold_kept (Mask.sub hm (by decide)) ?_
    | with_reducible refine State.onDx_kept (Mask.sub hm (by decide)) ?_ (fun _ _ _ _ => ?_)
    | with_reducible refine OutKept.next ?_
    | with_reducible refine Kept.ite ?_ ?_
    | (extract_lets -underBinder +onlyGivenNames x; subst x)
    | split
    | dsimp only

theorem execDxTryissue_kept {m : Nat} {s0 s : State} {a : AuId} (hm : 0xfef &&& m = 0xfef) (h : Kept m s0 s) :
     OutKept m s0 (execDxTryissue a s) := by
  have hdef : @execDxTryissue = @execDxTryissue := rfl
  conv at hdef => rhs; delta execDxTryissue
  rw [congrFun (congrFun hdef a) s]; clear hdef
  repeat' first
    | with_reducible assumption
    | with_reducible refine State.issue_kept (Mask.sub hm (by decide)) ?_
    | with_reducible refine State.dxSet_kept (Mask.sub hm (by decide)) ?_
    | with_reducible refine State.onDx_kept (Mask.sub hm (by decide)) ?_ (fun _ _ _ _ => ?_)
    | with_reducible refine State.progress_kept (Mask.sub hm (by decide)) ?_
    | with_reducible refine OutKept.next ?_
    | with_reducible refine Kept.ite ?_ ?_
    | (extract_lets -underBinder +onlyGivenNames x; subst x)
    | split
    | dsimp only

theorem execFifoPlaceFree_kept {m : Nat} {s0 s : State} {a : AuId} (hm : 0xfef &&& m = 0xfef) (h : Kept m s0 s) :
     OutKept m s0 (execFifoPlaceFree a s) := by
  have hdef : @execFifoPlaceFree = @execFifoPlaceFree := rfl
  conv at hdef => rhs; delta execFifoPlaceFree
  rw [congrFun (congrFun hdef a) s]; clear hdef
  repeat' first
    | with_reducible assumption
    | with_reducible refine State.issue_kept (Mask.sub hm (by decide)) ?_
    | with_reducible refine State.onHeld_kept (Mask.sub hm (by decide)) ?_ (fun _ _ _ _ => ?_)
    | with_reducible refine OutKept.next ?_
    | with_reducible refine Kept.ite ?_ ?_
    | (extract_lets -underBinder +onlyGivenNames x; subst x)
    | split
    | dsimp only

theorem execDxStnLd_kept {m : Nat} {s0 s : State} {a : AuId} (hm : 0xfef &&& m = 0xfef) (h : Kept m s0 s) :
     OutKept m s0 (execDxStnLd a s) := by
  have hdef : @execDxStnLd = @execDxStnLd := rfl
  conv at hdef => rhs; delta execDxStnLd
  rw [congrFun (congrFun hdef a) s]; clear hdef
  repeat' first
    | with_reducible assumption
    | with_reducible refine State.onDxOr_kept (Mask.sub hm (by decide)) ?_ (fun _ _ _ _ => ?_)
    | with_reducible refine State.dxHold_kept (Mask.sub hm (by decide)) ?_
    | with_reducible refine State.dxDone_kept (Mask.sub hm (by decide)) ?_
    | with_reducible refine State.coreTrap_kept (Mask.sub hm (by decide)) ?_
    | with_reducible refine State.vread_kept (Mask.sub hm (by decide)) ?_
    | with_reducible refine State.progress_kept (Mask.sub hm (by decide)) ?_
    | with_reducible refine State.modAu_kept (Mask.sub hm (by decide)) ?_
    | with_reducible refine State.corePage_kept (Mask.sub hm (by decide)) ?_
    | with_reducible refine State.memFault_kept (Mask.sub hm (by decide)) ?_
    | with_reducible refine OutKept.next ?_
    | with_reducible refine VmRes.All.use0 (by assumption) ?_
    | with_reducible refine VmRes.All.use1 (by assumption) ?_
    | with_reducible refine Kept.ite ?_ ?_
    | with_reducible refine Kept.iteSnd ?_ ?_
    | with_reducible refine Kept.iteFst ?_ ?_
    | (extract_lets -underBinder +onlyGivenNames x; subst x)
    | split
    | dsimp only

theorem State.stencilBounds_kept {m : Nat} {s0 s : State} {c : Nat} {n : Nat} {st : Nat} {code : Nat} (hm : 0xfef &&& m = 0xfef) (h : Kept m s0 s) :
     Kept m s0 (State.stencilBounds s c n st code) := by
  have hdef : @State.stencilBounds = @State.stencilBounds := rfl
  conv at hdef => rhs; delta State.stencilBounds
  rw [congrFun (congrFun (congrFun (congrFun (congrFun hdef s) c) n) st) code]; clear hdef
  repeat' first
    | with_reducible assumption
    | with_reducible refine State.faultCtx_kept (Mask.sub hm (by decide)) ?_
    | with_reducible refine State.count_kept (Mask.sub hm (by decide)) ?_
    | with_reducible refine Kept.ite ?_ ?_
    | (extract_lets -underBinder +onlyGivenNames x; subst x)
    | split
    | dsimp only

theorem execDxStnGo_kept {m : Nat} {s0 s : State} {a : AuId} (hm : 0xfef &&& m = 0xfef) (h : Kept m s0 s) :
     OutKept m s0 (execDxStnGo a s) := by
  have hdef : @execDxStnGo = @execDxStnGo := rfl
  conv at hdef => rhs; delta execDxStnGo
  rw [congrFun (congrFun hdef a) s]; clear hdef
  repeat' first
    | with_reducible assumption
    | with_reducible refine State.stencilBounds_kept (Mask.sub hm (by decide)) ?_
    | with_reducible refine State.onDxOr_kept (Mask.sub hm (by decide)) ?_ (fun _ _ _ _ => ?_)
    | with_reducible refine State.dxHold_kept (Mask.sub hm (by decide)) ?_
    | with_reducible refine State.dxDone_kept (Mask.sub hm (by decide)) ?_
    | with_reducible refine State.progress_kept (Mask.sub hm (by decide)) ?_
    | with_reducible refine State.modAu_kept (Mask.sub hm (by decide)) ?_
    | with_reducible refine OutKept.next ?_
    | with_reducible refine Kept.ite ?_ ?_
    | (extract_lets -underBinder +onlyGivenNames x; subst x)
    | split
    | dsimp only

theorem execDxStnPos_kept {m : Nat} {s0 s : State} {a : AuId} (hm : 0xc0 &&& m = 0xc0) (h : Kept m s0 s) :
     OutKept m s0 (execDxStnPos a s) := by
  have hdef : @execDxStnPos = @execDxStnPos := rfl
  conv at hdef => rhs; delta execDxStnPos
  rw [congrFun (congrFun hdef a) s]; clear hdef
  repeat' first
    | with_reducible assumption
    | with_reducible refine State.dxSet_kept (Mask.sub hm (by decide)) ?_
    | with_reducible refine State.onDx_kept (Mask.sub hm (by decide)) ?_ (fun _ _ _ _ => ?_)
    | with_reducible refine State.progress_kept (Mask.sub hm (by decide)) ?_
    | with_reducible refine OutKept.next ?_
    | with_reducible refine Kept.ite ?_ ?_
    | (extract_lets -underBinder +onlyGivenNames x; subst x)
    | split
    | dsimp only

theorem execDxStnWait_kept {m : Nat} {s0 s : State} {a : AuId} (hm : 0xc0 &&& m = 0xc0) (h : Kept m s0 s) :
     OutKept m s0 (execDxStnWait a s) := by
  have hdef : @execDxStnWait = @execDxStnWait := rfl
  conv at hdef => rhs; delta execDxStnWait
  rw [congrFun (congrFun hdef a) s]; clear hdef
  repeat' first
    | with_reducible assumption
    | with_reducible refine State.onDxOr_kept (Mask.sub hm (by decide)) ?_ (fun _ _ _ _ => ?_)
    | with_reducible refine State.dxHold_kept (Mask.sub hm (by decide)) ?_
    | with_reducible refine State.dxDone_kept (Mask.sub hm (by decide)) ?_
    | with_reducible refine State.progress_kept (Mask.sub hm (by decide)) ?_
    | with_reducible refine OutKept.next ?_
    | with_reducible refine Kept.ite ?_ ?_
    | (extract_lets -underBinder +onlyGivenNames x; subst x)
    | split
    | dsimp only

theorem execDxStnStat_kept {m : Nat} {s0 s : State} {a : AuId} (hm : 0xc0 &&& m = 0xc0) (h : Kept m s0 s) :
     OutKept m s0 (execDxStnStat a s) := by
  have hdef : @execDxStnStat = @execDxStnStat := rfl
  conv at hdef => rhs; delta execDxStnStat
  rw [congrFun (congrFun hdef a) s]; clear hdef
  repeat' first
    | with_reducible assumption
    | with_reducible refine State.dxSet_kept (Mask.sub hm (by decide)) ?_
    | with_reducible refine State.onDx_kept (Mask.sub hm (by decide)) ?_ (fun _ _ _ _ => ?_)
    | with_reducible refine State.progress_kept (Mask.sub hm (by decide)) ?_
    | with_reducible refine OutKept.next ?_
    | with_reducible refine Kept.ite ?_ ?_
    | (extract_lets -underBinder +onlyGivenNames x; subst x)
    | split
    | dsimp only

theorem execDxFset_kept {m : Nat} {s0 s : State} {a : AuId} (hm : 0xc0 &&& m = 0xc0) (h : Kept m s0 s) :
     OutKept m s0 (execDxFset a s) := by
  have hdef : @execDxFset = @execDxFset := rfl
  conv at hdef => rhs; delta execDxFset
  rw [congrFun (congrFun hdef a) s]; clear hdef
  repeat' first
    | with_reducible assumption
    | with_reducible refine State.dxDone_kept (Mask.sub hm (by decide)) ?_
    | with_reducible refine State.onDx_kept (Mask.sub hm (by decide)) ?_ (fun _ _ _ _ => ?_)
    | with_reducible refine State.progress_kept (Mask.sub hm (by decide)) ?_
    | with_reducible refine State.setFlag_kept (Mask.sub hm (by decide)) ?_
    | with_reducible refine OutKept.next ?_
    | with_reducible refine Kept.ite ?_ ?_
    | (extract_lets -underBinder +onlyGivenNames x; subst x)
    | split
    | dsimp only

theorem execDxFclr_kept {m : Nat} {s0 s : State} {a : AuId} (hm : 0xc0 &&& m = 0xc0) (h : Kept m s0 s) :
     OutKept m s0 (execDxFclr a s) := by
  have hdef : @execDxFclr = @execDxFclr := rfl
  conv at hdef => rhs; delta execDxFclr
  rw [congrFun (congrFun hdef a) s]; clear hdef
  repeat' first
    | with_reducible assumption
    | with_reducible refine State.dxDone_kept (Mask.sub hm (by decide)) ?_
    | with_reducible refine State.onDx_kept (Mask.sub hm (by decide)) ?_ (fun _ _ _ _ => ?_)
    | with_reducible refine State.progress_kept (Mask.sub hm (by decide)) ?_
    | with_reducible refine State.setFlag_kept (Mask.sub hm (by decide)) ?_
    | with_reducible refine OutKept.next ?_
    | with_reducible refine Kept.ite ?_ ?_
    | (extract_lets -underBinder +onlyGivenNames x; subst x)
    | split
    | dsimp only

theorem State.flagWait_kept {m : Nat} {s0 s : State} {c : Nat} {n : Nat} {f : Nat} {v : Bool} {clr : Bool} (hm : 0xc0 &&& m = 0xc0) (h : Kept m s0 s) :
     Kept m s0 (State.flagWait s c n f v clr) := by
  have hdef : @State.flagWait = @State.flagWait := rfl
  conv at hdef => rhs; delta State.flagWait
  rw [congrFun (congrFun (congrFun (congrFun (congrFun (congrFun hdef s) c) n) f) v) clr]; clear hdef
  repeat' first
    | with_reducible assumption
    | with_reducible refine State.dxHold_kept (Mask.sub hm (by decide)) ?_
    | with_reducible refine State.dxDone_kept (Mask.sub hm (by decide)) ?_
    | with_reducible refine State.progress_kept (Mask.sub hm (by decide)) ?_
    | with_reducible refine State.setFlag_kept (Mask.sub hm (by decide)) ?_
    | with_reducible refine Kept.ite ?_ ?_
    | (extract_lets -underBinder +onlyGivenNames x; subst x)
    | split
    | dsimp only

theorem execDxFwait_kept {m : Nat} {s0 s : State} {a : AuId} (hm : 0xc0 &&& m = 0xc0) (h : Kept m s0 s) :
     OutKept m s0 (execDxFwait a s) := by
  have hdef : @execDxFwait = @execDxFwait := rfl
  conv at hdef => rhs; delta execDxFwait
  rw [congrFun (congrFun hdef a) s]; clear hdef
  repeat' first
    | with_reducible assumption
    | with_reducible refine State.flagWait_kept (Mask.sub hm (by decide)) ?_
    | with_reducible refine State.onDx_kept (Mask.sub hm (by decide)) ?_ (fun _ _ _ _ => ?_)
    | with_reducible refine OutKept.next ?_
    | with_reducible refine Kept.ite ?_ ?_
    | (extract_lets -underBinder +onlyGivenNames x; subst x)
    | split
    | dsimp only

theorem execDxFwaitc_kept {m : Nat} {s0 s : State} {a : AuId} (hm : 0xc0 &&& m = 0xc0) (h : Kept m s0 s) :
     OutKept m s0 (execDxFwaitc a s) := by
  have hdef : @execDxFwaitc = @execDxFwaitc := rfl
  conv at hdef => rhs; delta execDxFwaitc
  rw [congrFun (congrFun hdef a) s]; clear hdef
  repeat' first
    | with_reducible assumption
    | with_reducible refine State.flagWait_kept (Mask.sub hm (by decide)) ?_
    | with_reducible refine State.onDx_kept (Mask.sub hm (by decide)) ?_ (fun _ _ _ _ => ?_)
    | with_reducible refine OutKept.next ?_
    | with_reducible refine Kept.ite ?_ ?_
    | (extract_lets -underBinder +onlyGivenNames x; subst x)
    | split
    | dsimp only

theorem execDxFwaitx_kept {m : Nat} {s0 s : State} {a : AuId} (hm : 0xc0 &&& m = 0xc0) (h : Kept m s0 s) :
     OutKept m s0 (execDxFwaitx a s) := by
  have hdef : @execDxFwaitx = @execDxFwaitx := rfl
  conv at hdef => rhs; delta execDxFwaitx
  rw [congrFun (congrFun hdef a) s]; clear hdef
  repeat' first
    | with_reducible assumption
    | with_reducible refine State.flagWait_kept (Mask.sub hm (by decide)) ?_
    | with_reducible refine State.onDx_kept (Mask.sub hm (by decide)) ?_ (fun _ _ _ _ => ?_)
    | with_reducible refine OutKept.next ?_
    | with_reducible refine Kept.ite ?_ ?_
    | (extract_lets -underBinder +onlyGivenNames x; subst x)
    | split
    | dsimp only

theorem execFlagWaitSatisfied_kept {m : Nat} {s0 s : State} {a : AuId} (hm : 0xc0 &&& m = 0xc0) (h : Kept m s0 s) :
     OutKept m s0 (execFlagWaitSatisfied a s) := by
  have hdef : @execFlagWaitSatisfied = @execFlagWaitSatisfied := rfl
  conv at hdef => rhs; delta execFlagWaitSatisfied
  rw [congrFun (congrFun hdef a) s]; clear hdef
  repeat' first
    | with_reducible assumption
    | with_reducible refine State.flagWait_kept (Mask.sub hm (by decide)) ?_
    | with_reducible refine State.onHeld_kept (Mask.sub hm (by decide)) ?_ (fun _ _ _ _ => ?_)
    | with_reducible refine OutKept.next ?_
    | with_reducible refine Kept.ite ?_ ?_
    | (extract_lets -underBinder +onlyGivenNames x; subst x)
    | split
    | dsimp only

theorem execDxFtest_kept {m : Nat} {s0 s : State} {a : AuId} (hm : 0xc0 &&& m = 0xc0) (h : Kept m s0 s) :
     OutKept m s0 (execDxFtest a s) := by
  have hdef : @execDxFtest = @execDxFtest := rfl
  conv at hdef => rhs; delta execDxFtest
  rw [congrFun (congrFun hdef a) s]; clear hdef
  repeat' first
    | with_reducible assumption
    | with_reducible refine State.dxSet_kept (Mask.sub hm (by decide)) ?_
    | with_reducible refine State.onDx_kept (Mask.sub hm (by decide)) ?_ (fun _ _ _ _ => ?_)
    | with_reducible refine State.progress_kept (Mask.sub hm (by decide)) ?_
    | with_reducible refine OutKept.next ?_
    | with_reducible refine Kept.ite ?_ ?_
    | (extract_lets -underBinder +onlyGivenNames x; subst x)
    | split
    | dsimp only

theorem execDxQlvl_kept {m : Nat} {s0 s : State} {a : AuId} (hm : 0xc0 &&& m = 0xc0) (h : Kept m s0 s) :
     OutKept m s0 (execDxQlvl a s) := by
  have hdef : @execDxQlvl = @execDxQlvl := rfl
  conv at hdef => rhs; delta execDxQlvl
  rw [congrFun (congrFun hdef a) s]; clear hdef
  repeat' first
    | with_reducible assumption
    | with_reducible refine State.dxSet_kept (Mask.sub hm (by decide)) ?_
    | with_reducible refine State.onDx_kept (Mask.sub hm (by decide)) ?_ (fun _ _ _ _ => ?_)
    | with_reducible refine State.progress_kept (Mask.sub hm (by decide)) ?_
    | with_reducible refine OutKept.next ?_
    | with_reducible refine Kept.ite ?_ ?_
    | (extract_lets -underBinder +onlyGivenNames x; subst x)
    | split
    | dsimp only

theorem execDxFlvl_kept {m : Nat} {s0 s : State} {a : AuId} (hm : 0xc0 &&& m = 0xc0) (h : Kept m s0 s) :
     OutKept m s0 (execDxFlvl a s) := by
  have hdef : @execDxFlvl = @execDxFlvl := rfl
  conv at hdef => rhs; delta execDxFlvl
  rw [congrFun (congrFun hdef a) s]; clear hdef
  repeat' first
    | with_reducible assumption
    | with_reducible refine State.dxSet_kept (Mask.sub hm (by decide)) ?_
    | with_reducible refine State.onDx_kept (Mask.sub hm (by decide)) ?_ (fun _ _ _ _ => ?_)
    | with_reducible refine State.progress_kept (Mask.sub hm (by decide)) ?_
    | with_reducible refine OutKept.next ?_
    | with_reducible refine Kept.ite ?_ ?_
    | (extract_lets -underBinder +onlyGivenNames x; subst x)
    | split
    | dsimp only

theorem execDxFpace_kept {m : Nat} {s0 s : State} {a : AuId} (hm : 0xc0 &&& m = 0xc0) (h : Kept m s0 s) :
     OutKept m s0 (execDxFpace a s) := by
  have hdef : @execDxFpace = @execDxFpace := rfl
  conv at hdef => rhs; delta execDxFpace
  rw [congrFun (congrFun hdef a) s]; clear hdef
  repeat' first
    | with_reducible assumption
    | with_reducible refine State.onDxOr_kept (Mask.sub hm (by decide)) ?_ (fun _ _ _ _ => ?_)
    | with_reducible refine State.dxHold_kept (Mask.sub hm (by decide)) ?_
    | with_reducible refine State.dxDone_kept (Mask.sub hm (by decide)) ?_
    | with_reducible refine State.progress_kept (Mask.sub hm (by decide)) ?_
    | with_reducible refine OutKept.next ?_
    | with_reducible refine Kept.ite ?_ ?_
    | (extract_lets -underBinder +onlyGivenNames x; subst x)
    | split
    | dsimp only

theorem execDxQpace_kept {m : Nat} {s0 s : State} {a : AuId} (hm : 0xc0 &&& m = 0xc0) (h : Kept m s0 s) :
     OutKept m s0 (execDxQpace a s) := by
  have hdef : @execDxQpace = @execDxQpace := rfl
  conv at hdef => rhs; delta execDxQpace
  rw [congrFun (congrFun hdef a) s]; clear hdef
  repeat' first
    | with_reducible assumption
    | with_reducible refine State.onDxOr_kept (Mask.sub hm (by decide)) ?_ (fun _ _ _ _ => ?_)
    | with_reducible refine State.dxHold_kept (Mask.sub hm (by decide)) ?_
    | with_reducible refine State.dxDone_kept (Mask.sub hm (by decide)) ?_
    | with_reducible refine State.progress_kept (Mask.sub hm (by decide)) ?_
    | with_reducible refine OutKept.next ?_
    | with_reducible refine Kept.ite ?_ ?_
    | (extract_lets -underBinder +onlyGivenNames x; subst x)
    | split
    | dsimp only

theorem execDxLoop_kept {m : Nat} {s0 s : State} {a : AuId} (hm : 0xc0 &&& m = 0xc0) (h : Kept m s0 s) :
     OutKept m s0 (execDxLoop a s) := by
  have hdef : @execDxLoop = @execDxLoop := rfl
  conv at hdef => rhs; delta execDxLoop
  rw [congrFun (congrFun hdef a) s]; clear hdef
  repeat' first
    | with_reducible assumption
    | with_reducible refine State.onDx_kept (Mask.sub hm (by decide)) ?_ (fun _ _ _ _ => ?_)
    | with_reducible refine State.progress_kept (Mask.sub hm (by decide)) ?_
    | with_reducible refine State.modCore_kept (Mask.sub hm (by decide)) ?_
    | with_reducible refine OutKept.next ?_
    | with_reducible refine Kept.ite ?_ ?_
    | (extract_lets -underBinder +onlyGivenNames x; subst x)
    | split
    | dsimp only

theorem execDxBrk_kept {m : Nat} {s0 s : State} {a : AuId} (hm : 0xc0 &&& m = 0xc0) (h : Kept m s0 s) :
     OutKept m s0 (execDxBrk a s) := by
  have hdef : @execDxBrk = @execDxBrk := rfl
  conv at hdef => rhs; delta execDxBrk
  rw [congrFun (congrFun hdef a) s]; clear hdef
  repeat' first
    | with_reducible assumption
    | with_reducible refine State.onDx_kept (Mask.sub hm (by decide)) ?_ (fun _ _ _ _ => ?_)
    | with_reducible refine State.progress_kept (Mask.sub hm (by decide)) ?_
    | with_reducible refine State.modCore_kept (Mask.sub hm (by decide)) ?_
    | with_reducible refine OutKept.next ?_
    | with_reducible refine Kept.ite ?_ ?_
    | (extract_lets -underBinder +onlyGivenNames x; subst x)
    | split
    | dsimp only

theorem execDxWhere_kept {m : Nat} {s0 s : State} {a : AuId} (hm : 0xc0 &&& m = 0xc0) (h : Kept m s0 s) :
     OutKept m s0 (execDxWhere a s) := by
  have hdef : @execDxWhere = @execDxWhere := rfl
  conv at hdef => rhs; delta execDxWhere
  rw [congrFun (congrFun hdef a) s]; clear hdef
  repeat' first
    | with_reducible assumption
    | with_reducible refine State.dxSet_kept (Mask.sub hm (by decide)) ?_
    | with_reducible refine State.onDx_kept (Mask.sub hm (by decide)) ?_ (fun _ _ _ _ => ?_)
    | with_reducible refine State.progress_kept (Mask.sub hm (by decide)) ?_
    | with_reducible refine OutKept.next ?_
    | with_reducible refine Kept.ite ?_ ?_
    | (extract_lets -underBinder +onlyGivenNames x; subst x)
    | split
    | dsimp only

theorem State.semFault_kept {m : Nat} {s0 s : State} {c : Nat} {n : Nat} {sem : Nat} {reason : Nat} (hm : 0xfef &&& m = 0xfef) (h : Kept m s0 s) :
     Kept m s0 (State.semFault s c n sem reason) := by
  have hdef : @State.semFault = @State.semFault := rfl
  conv at hdef => rhs; delta State.semFault
  rw [congrFun (congrFun (congrFun (congrFun (congrFun hdef s) c) n) sem) reason]; clear hdef
  repeat' first
    | with_reducible assumption
    | with_reducible refine State.faultCtx_kept (Mask.sub hm (by decide)) ?_
    | with_reducible refine Kept.ite ?_ ?_
    | (extract_lets -underBinder +onlyGivenNames x; subst x)
    | split
    | dsimp only

theorem State.semInherit_kept {m : Nat} {s0 s : State} {n : Nat} {h_ : Nat} {w : Nat} {resumed : Bool} (hm : 0x829 &&& m = 0x829) (h : Kept m s0 s) :
     Kept m s0 (State.semInherit s n h_ w resumed) := by
  have hdef : @State.semInherit = @State.semInherit := rfl
  conv at hdef => rhs; delta State.semInherit
  rw [congrFun (congrFun (congrFun (congrFun (congrFun hdef s) n) h_) w) resumed]; clear hdef
  repeat' first
    | with_reducible assumption
    | with_reducible refine State.raiseF_kept (Mask.sub hm (by decide)) ?_
    | with_reducible refine State.flagCount_kept (Mask.sub hm (by decide)) ?_
    | with_reducible refine Kept.ite ?_ ?_
    | (extract_lets -underBinder +onlyGivenNames x; subst x)
    | split
    | dsimp only

theorem State.loanResume_kept {m : Nat} {s0 s : State} {n : Nat} {h_ : Nat} (hm : 0x8ef &&& m = 0x8ef) (h : Kept m s0 s) :
     Kept m s0 (State.loanResume s n h_).1 := by
  have hdef : @State.loanResume = @State.loanResume := rfl
  conv at hdef => rhs; delta State.loanResume
  rw [congrFun (congrFun (congrFun hdef s) n) h_]; clear hdef
  repeat' first
    | with_reducible assumption
    | with_reducible refine State.startResume_kept (Mask.sub hm (by decide)) ?_
    | with_reducible refine State.modCtx_kept (Mask.sub hm (by decide)) ?_
    | with_reducible refine Kept.ofSome (by assumption) ?_
    | with_reducible refine Kept.ite ?_ ?_
    | (extract_lets -underBinder +onlyGivenNames x; subst x)
    | split
    | dsimp only

theorem State.lend_kept {m : Nat} {s0 s old : State} {d n w : Nat} (hm : 0x8ef &&& m = 0x8ef) (h : Kept m s0 s) :
    Kept m s0 (State.lend old d s n w) := by
  induction d generalizing s n w with
  | zero => exact h
  | succ d ih =>
    rw [State.lend]
    split
    · exact h
    · refine Kept.ite ?_ h
      dsimp only
      refine Kept.foldl (fun t e ht => ih ht) _ (State.semInherit_kept (Mask.sub hm (by decide)) ?_)
      exact State.loanResume_kept (Mask.sub hm (by decide)) h

theorem State.semAcquire_kept {m : Nat} {s0 s : State} {c : Nat} {n : Nat} (hm : 0x200 &&& m = 0x200) (h : Kept m s0 s) :
     AllO (Kept m s0) (State.semAcquire s c n) := by
  have hdef : @State.semAcquire = @State.semAcquire := rfl
  conv at hdef => rhs; delta State.semAcquire
  rw [congrFun (congrFun (congrFun hdef s) c) n]; clear hdef
  repeat' first
    | with_reducible assumption
    | with_reducible refine State.putSem_kept (Mask.sub hm (by decide)) ?_
    | with_reducible exact AllO.none_
    | with_reducible refine AllO.some_ ?_
    | with_reducible refine Kept.ite ?_ ?_
    | (extract_lets -underBinder +onlyGivenNames x; subst x)
    | split
    | dsimp only

theorem State.semWait_kept {m : Nat} {s0 s : State} {c : Nat} {n : Nat} (hm : 0xaef &&& m = 0xaef) (h : Kept m s0 s) :
     Kept m s0 (State.semWait s c n) := by
  have hdef : @State.semWait = @State.semWait := rfl
  conv at hdef => rhs; delta State.semWait
  rw [congrFun (congrFun (congrFun hdef s) c) n]; clear hdef
  repeat' first
    | with_reducible assumption
    | with_reducible refine State.lend_kept (Mask.sub hm (by decide)) ?_
    | with_reducible refine State.putSem_kept (Mask.sub hm (by decide)) ?_
    | with_reducible refine Kept.ite ?_ ?_
    | (extract_lets -underBinder +onlyGivenNames x; subst x)
    | split
    | dsimp only

theorem execDxSemAcq_kept {m : Nat} {s0 s : State} {a : AuId} (hm : 0xfef &&& m = 0xfef) (h : Kept m s0 s) :
     OutKept m s0 (execDxSemAcq a s) := by
  have hdef : @execDxSemAcq = @execDxSemAcq := rfl
  conv at hdef => rhs; delta execDxSemAcq
  rw [congrFun (congrFun hdef a) s]; clear hdef
  repeat' first
    | with_reducible assumption
    | with_reducible refine State.semWait_kept (Mask.sub hm (by decide)) ?_
    | with_reducible refine State.semAcquire_kept (Mask.sub hm (by decide)) ?_
    | with_reducible refine State.semFault_kept (Mask.sub hm (by decide)) ?_
    | with_reducible refine State.dxHold_kept (Mask.sub hm (by decide)) ?_
    | with_reducible refine State.dxDone_kept (Mask.sub hm (by decide)) ?_
    | with_reducible refine State.onDx_kept (Mask.sub hm (by decide)) ?_ (fun _ _ _ _ => ?_)
    | with_reducible refine State.progress_kept (Mask.sub hm (by decide)) ?_
    | with_reducible refine OutKept.next ?_
    | with_reducible refine Kept.ofSome (by assumption) ?_
    | with_reducible refine Kept.ite ?_ ?_
    | (extract_lets -underBinder +onlyGivenNames x; subst x)
    | split
    | dsimp only

theorem execSemGranted_kept {m : Nat} {s0 s : State} {n : SemId} (hm : 0x2c0 &&& m = 0x2c0) (h : Kept m s0 s) :
     OutKept m s0 (execSemGranted n s) := by
  have hdef : @execSemGranted = @execSemGranted := rfl
  conv at hdef => rhs; delta execSemGranted
  rw [congrFun (congrFun hdef n) s]; clear hdef
  repeat' first
    | with_reducible assumption
    | with_reducible refine State.putSem_kept (Mask.sub hm (by decide)) ?_
    | with_reducible refine State.modCtxAus_kept (Mask.sub hm (by decide)) ?_
    | with_reducible refine State.progress_kept (Mask.sub hm (by decide)) ?_
    | with_reducible refine State.modCtx_kept (Mask.sub hm (by decide)) ?_
    | with_reducible refine OutKept.next ?_
    | with_reducible refine Kept.ite ?_ ?_
    | (extract_lets -underBinder +onlyGivenNames x; subst x)
    | split
    | dsimp only

theorem State.endLoan_kept {m : Nat} {s0 s : State} {c : Nat} (hm : 0x849 &&& m = 0x849) (h : Kept m s0 s) :
     Kept m s0 (State.endLoan s c) := by
  have hdef : @State.endLoan = @State.endLoan := rfl
  conv at hdef => rhs; delta State.endLoan
  rw [congrFun (congrFun hdef s) c]; clear hdef
  repeat' first
    | with_reducible assumption
    | with_reducible refine State.modCtx_kept (Mask.sub hm (by decide)) ?_
    | with_reducible refine State.startPreempt_kept (Mask.sub hm (by decide)) ?_
    | with_reducible refine Kept.ite ?_ ?_
    | (extract_lets -underBinder +onlyGivenNames x; subst x)
    | split
    | dsimp only

theorem execDxSemRel_kept {m : Nat} {s0 s : State} {a : AuId} (hm : 0xfef &&& m = 0xfef) (h : Kept m s0 s) :
     OutKept m s0 (execDxSemRel a s) := by
  have hdef : @execDxSemRel = @execDxSemRel := rfl
  conv at hdef => rhs; delta execDxSemRel
  rw [congrFun (congrFun hdef a) s]; clear hdef
  repeat' first
    | with_reducible assumption
    | with_reducible refine State.endLoan_kept (Mask.sub hm (by decide)) ?_
    | with_reducible refine State.semFault_kept (Mask.sub hm (by decide)) ?_
    | with_reducible refine State.dxDone_kept (Mask.sub hm (by decide)) ?_
    | with_reducible refine State.onDx_kept (Mask.sub hm (by decide)) ?_ (fun _ _ _ _ => ?_)
    | with_reducible refine State.progress_kept (Mask.sub hm (by decide)) ?_
    | with_reducible refine State.putSem_kept (Mask.sub hm (by decide)) ?_
    | with_reducible refine OutKept.next ?_
    | with_reducible refine Kept.ite ?_ ?_
    | (extract_lets -underBinder +onlyGivenNames x; subst x)
    | split
    | dsimp only

end Sys2Proof.Machine
end

