-- ==== Sys2Proof/Laws/KeptMove.lean ====
section
/-!
SUPPORT. What the operations of Sys2Proof/Machine/Move.lean keep (Laws/Kept.lean).
-/
namespace Sys2Proof.Machine

theorem State.withDesc_kept {m : Nat} {s0 s : State} {n : Nat} {c : Nat} {op : ActiveOp} {go : List Byte → State → State} (hm : 0xfef &&& m = 0xfef) (h : Kept m s0 s) (h_go : ∀ a0 a1, Kept m s0 a1 → Kept m s0 (go a0 a1)) :
     Kept m s0 (State.withDesc s n c op go) := by
  have hdef : @State.withDesc = @State.withDesc := rfl
  conv at hdef => rhs; delta State.withDesc
  rw [congrFun (congrFun (congrFun (congrFun (congrFun hdef s) n) c) op) go]; clear hdef
  repeat' first
    | with_reducible assumption
    | with_reducible refine State.vread_kept (Mask.sub hm (by decide)) ?_
    | with_reducible refine State.want_kept (Mask.sub hm (by decide)) ?_
    | with_reducible refine State.memFault_kept (Mask.sub hm (by decide)) ?_
    | with_reducible refine h_go _ _ ?_
    | with_reducible refine VmRes.All.use0 (by assumption) ?_
    | with_reducible refine VmRes.All.use1 (by assumption) ?_
    | with_reducible refine Kept.ite ?_ ?_
    | with_reducible refine Kept.iteSnd ?_ ?_
    | with_reducible refine Kept.iteFst ?_ ?_
    | (extract_lets -underBinder +onlyGivenNames x; subst x)
    | split
    | dsimp only

theorem State.readMove_kept {m : Nat} {s0 s : State} {n : Nat} {c : Nat} {op : ActiveOp} (hm : 0xfef &&& m = 0xfef) (h : Kept m s0 s) :
     Kept m s0 (State.readMove s n c op) := by
  have hdef : @State.readMove = @State.readMove := rfl
  conv at hdef => rhs; delta State.readMove
  rw [congrFun (congrFun (congrFun (congrFun hdef s) n) c) op]; clear hdef
  repeat' first
    | with_reducible assumption
    | with_reducible refine State.withDesc_kept (Mask.sub hm (by decide)) ?_ (fun _ _ _ => ?_)
    | with_reducible refine State.memFault_kept (Mask.sub hm (by decide)) ?_
    | with_reducible refine State.modAu_kept (Mask.sub hm (by decide)) ?_
    | with_reducible refine Kept.ite ?_ ?_
    | (extract_lets -underBinder +onlyGivenNames x; subst x)
    | split
    | dsimp only

theorem State.endMove_kept {m : Nat} {s0 s : State} {n : Nat} {c : Nat} {op : ActiveOp} (hm : 0xc0 &&& m = 0xc0) (h : Kept m s0 s) :
     Kept m s0 (State.endMove s n c op) := by
  have hdef : @State.endMove = @State.endMove := rfl
  conv at hdef => rhs; delta State.endMove
  rw [congrFun (congrFun (congrFun (congrFun hdef s) n) c) op]; clear hdef
  repeat' first
    | with_reducible assumption
    | with_reducible refine State.progress_kept (Mask.sub hm (by decide)) ?_
    | with_reducible refine State.endOp_kept (Mask.sub hm (by decide)) ?_
    | with_reducible refine State.endMoveVisits_kept (Mask.sub hm (by decide)) ?_
    | with_reducible refine State.setFlag_kept (Mask.sub hm (by decide)) ?_
    | with_reducible refine Kept.ite ?_ ?_
    | (extract_lets -underBinder +onlyGivenNames x; subst x)
    | split
    | dsimp only

theorem State.xferGo_kept {m : Nat} {s0 s : State} {n : Nat} {c : Nat} {op : ActiveOp} (hm : 0xfef &&& m = 0xfef) (h : Kept m s0 s) :
     Kept m s0 (State.xferGo s n c op) := by
  have hdef : @State.xferGo = @State.xferGo := rfl
  conv at hdef => rhs; delta State.xferGo
  rw [congrFun (congrFun (congrFun (congrFun hdef s) n) c) op]; clear hdef
  repeat' first
    | with_reducible assumption
    | with_reducible refine State.endMove_kept (Mask.sub hm (by decide)) ?_
    | with_reducible refine State.readMove_kept (Mask.sub hm (by decide)) ?_
    | with_reducible refine State.issueMove_kept (Mask.sub hm (by decide)) ?_
    | with_reducible refine Kept.ite ?_ ?_
    | (extract_lets -underBinder +onlyGivenNames x; subst x)
    | split
    | dsimp only

theorem State.wantPages_kept {m : Nat} {s0 s : State} {n : Nat} {c : Nat} {op : ActiveOp} (hm : 0x84 &&& m = 0x84) (h : Kept m s0 s) :
     Kept m s0 (State.wantPages s n c op) := by
  have hdef : @State.wantPages = @State.wantPages := rfl
  conv at hdef => rhs; delta State.wantPages
  rw [congrFun (congrFun (congrFun (congrFun hdef s) n) c) op]; clear hdef
  repeat' first
    | with_reducible assumption
    | with_reducible refine State.modAu_kept (Mask.sub hm (by decide)) ?_
    | with_reducible refine State.want_kept (Mask.sub hm (by decide)) ?_
    | with_reducible refine Kept.foldl (fun _ _ _ => ?_) _ ?_
    | with_reducible refine Kept.ite ?_ ?_
    | (extract_lets -underBinder +onlyGivenNames x; subst x)
    | split
    | dsimp only

theorem State.movePageInGo_kept {m : Nat} {s0 s : State} {n : Nat} {c : Nat} {op : ActiveOp} (hm : 0xc0 &&& m = 0xc0) (h : Kept m s0 s) :
     Kept m s0 (State.movePageInGo s n c op) := by
  have hdef : @State.movePageInGo = @State.movePageInGo := rfl
  conv at hdef => rhs; delta State.movePageInGo
  rw [congrFun (congrFun (congrFun (congrFun hdef s) n) c) op]; clear hdef
  repeat' first
    | with_reducible assumption
    | with_reducible refine State.progress_kept (Mask.sub hm (by decide)) ?_
    | with_reducible refine State.endOp_kept (Mask.sub hm (by decide)) ?_
    | with_reducible refine Kept.ite ?_ ?_
    | (extract_lets -underBinder +onlyGivenNames x; subst x)
    | split
    | dsimp only

theorem State.startMove_kept {m : Nat} {s0 s : State} {n : Nat} {wen : Bool} {kind : Nat} (hm : 0xfef &&& m = 0xfef) (h : Kept m s0 s) :
     Kept m s0 (State.startMove s n wen kind) := by
  have hdef : @State.startMove = @State.startMove := rfl
  conv at hdef => rhs; delta State.startMove
  rw [congrFun (congrFun (congrFun (congrFun hdef s) n) wen) kind]; clear hdef
  repeat' first
    | with_reducible assumption
    | with_reducible refine State.wantPages_kept (Mask.sub hm (by decide)) ?_
    | with_reducible refine State.readMove_kept (Mask.sub hm (by decide)) ?_
    | with_reducible refine State.startUnit_kept (Mask.sub hm (by decide)) ?_ (fun _ _ _ _ => ?_)
    | with_reducible refine Kept.ite ?_ ?_
    | (extract_lets -underBinder +onlyGivenNames x; subst x)
    | split
    | dsimp only

theorem execXfer_kept {m : Nat} {s0 s : State} {a : AuId} (hm : 0xfef &&& m = 0xfef) (h : Kept m s0 s) :
     OutKept m s0 (execXfer a s) := by
  have hdef : @execXfer = @execXfer := rfl
  conv at hdef => rhs; delta execXfer
  rw [congrFun (congrFun hdef a) s]; clear hdef
  repeat' first
    | with_reducible assumption
    | with_reducible refine State.startMove_kept (Mask.sub hm (by decide)) ?_
    | with_reducible refine State.xferGo_kept (Mask.sub hm (by decide)) ?_
    | with_reducible refine OutKept.next ?_
    | with_reducible refine Kept.ite ?_ ?_
    | (extract_lets -underBinder +onlyGivenNames x; subst x)
    | split
    | dsimp only

theorem execMovePageIn_kept {m : Nat} {s0 s : State} {a : AuId} (hm : 0xfef &&& m = 0xfef) (h : Kept m s0 s) :
     OutKept m s0 (execMovePageIn a s) := by
  have hdef : @execMovePageIn = @execMovePageIn := rfl
  conv at hdef => rhs; delta execMovePageIn
  rw [congrFun (congrFun hdef a) s]; clear hdef
  repeat' first
    | with_reducible assumption
    | with_reducible refine State.startMove_kept (Mask.sub hm (by decide)) ?_
    | with_reducible refine State.movePageInGo_kept (Mask.sub hm (by decide)) ?_
    | with_reducible refine OutKept.next ?_
    | with_reducible refine Kept.ite ?_ ?_
    | (extract_lets -underBinder +onlyGivenNames x; subst x)
    | split
    | dsimp only

end Sys2Proof.Machine
end

