-- ==== Sys2Proof/Laws/KeptMemory.lean ====
section
/-!
SUPPORT. What the operations of Sys2Proof/Machine/Memory.lean keep (Laws/Kept.lean).
-/
namespace Sys2Proof.Machine

theorem wf_importRange (src : Mem) (a n : Nat) (dst : Mem) (b : Nat) (h : Memory.wf dst = true) :
    Memory.wf (importRange src a n dst b) = true :=
  wf_foldl_wrByte _ _ _ (wf_zeroBytes _ _ _ h)

theorem execHbmHotWindowEnd_kept {m : Nat} {s0 s : State} {hot : List Nat} {t : Nat} (hm : 0x882d &&& m = 0x882d) (h : Kept m s0 s) :
     OutKept m s0 (execHbmHotWindowEnd hot t s) := by
  have hdef : @execHbmHotWindowEnd = @execHbmHotWindowEnd := rfl
  conv at hdef => rhs; delta execHbmHotWindowEnd
  rw [congrFun (congrFun (congrFun hdef hot) t) s]; clear hdef
  repeat' first
    | with_reducible assumption
    | with_reducible refine State.at_kept (Mask.sub hm (by decide)) ?_
    | with_reducible refine State.count_kept (Mask.sub hm (by decide)) ?_
    | with_reducible refine State.setReg_kept (Mask.sub hm (by decide)) ?_
    | with_reducible refine State.setFld_kept (Mask.sub hm (by decide)) ?_
    | with_reducible refine State.raise_kept (Mask.sub hm (by decide)) ?_
    | with_reducible refine Kept.foldl (fun _ _ _ => ?_) _ ?_
    | with_reducible refine OutKept.next ?_
    | with_reducible refine Kept.ite ?_ ?_
    | (extract_lets -underBinder +onlyGivenNames x; subst x)
    | split
    | with_reducible refine Kept.mem (Mask.sub hm (by decide)) ?_ _ rfl
    | dsimp only

theorem State.retireIfFree_kept {m : Nat} {s0 s : State} {f : Nat} (hm : 0x82d &&& m = 0x82d) (h : Kept m s0 s) :
     Kept m s0 (State.retireIfFree s f) := by
  have hdef : @State.retireIfFree = @State.retireIfFree := rfl
  conv at hdef => rhs; delta State.retireIfFree
  rw [congrFun (congrFun hdef s) f]; clear hdef
  repeat' first
    | with_reducible assumption
    | with_reducible refine State.retire_kept (Mask.sub hm (by decide)) ?_
    | with_reducible refine Kept.ite ?_ ?_
    | (extract_lets -underBinder +onlyGivenNames x; subst x)
    | split
    | dsimp only

theorem execHbmCorrectedError_kept {m : Nat} {s0 s : State} {dpa : Nat} (hm : 0x82d &&& m = 0x82d) (h : Kept m s0 s) :
     OutKept m s0 (execHbmCorrectedError dpa s) := by
  have hdef : @execHbmCorrectedError = @execHbmCorrectedError := rfl
  conv at hdef => rhs; delta execHbmCorrectedError
  rw [congrFun (congrFun hdef dpa) s]; clear hdef
  repeat' first
    | with_reducible assumption
    | with_reducible refine State.retireIfFree_kept (Mask.sub hm (by decide)) ?_
    | with_reducible refine State.total_kept (Mask.sub hm (by decide)) ?_
    | with_reducible refine State.count_kept (Mask.sub hm (by decide)) ?_
    | with_reducible refine State.putFrame_kept (Mask.sub hm (by decide)) ?_
    | with_reducible refine OutKept.next ?_
    | with_reducible refine Kept.ite ?_ ?_
    | (extract_lets -underBinder +onlyGivenNames x; subst x)
    | split
    | dsimp only

theorem execMemUncorr_kept {m : Nat} {s0 s : State} {dpa : Nat} (hm : 0xfef &&& m = 0xfef) (h : Kept m s0 s) :
     OutKept m s0 (execMemUncorr dpa s) := by
  have hdef : @execMemUncorr = @execMemUncorr := rfl
  conv at hdef => rhs; delta execMemUncorr
  rw [congrFun (congrFun hdef dpa) s]; clear hdef
  repeat' first
    | with_reducible assumption
    | with_reducible refine State.retireIfFree_kept (Mask.sub hm (by decide)) ?_
    | with_reducible refine State.total_kept (Mask.sub hm (by decide)) ?_
    | with_reducible refine State.count_kept (Mask.sub hm (by decide)) ?_
    | with_reducible refine State.putFrame_kept (Mask.sub hm (by decide)) ?_
    | with_reducible refine State.memUncorr_kept (Mask.sub hm (by decide)) ?_
    | with_reducible refine OutKept.next ?_
    | with_reducible refine Kept.ite ?_ ?_
    | (extract_lets -underBinder +onlyGivenNames x; subst x)
    | split
    | dsimp only

theorem execHbmScrub_kept {m : Nat} {s0 s : State} {m_ : StackId} {t : Nat} (hm : 0x8004 &&& m = 0x8004) (h : Kept m s0 s) :
     OutKept m s0 (execHbmScrub m_ t s) := by
  have hdef : @execHbmScrub = @execHbmScrub := rfl
  conv at hdef => rhs; delta execHbmScrub
  rw [congrFun (congrFun (congrFun hdef m_) t) s]; clear hdef
  repeat' first
    | with_reducible assumption
    | with_reducible refine State.at_kept (Mask.sub hm (by decide)) ?_
    | with_reducible refine OutKept.next ?_
    | with_reducible refine Kept.ite ?_ ?_
    | (extract_lets -underBinder +onlyGivenNames x; subst x)
    | split
    | with_reducible refine Kept.mem (Mask.sub hm (by decide)) ?_ _ rfl
    | dsimp only

theorem State.sweep_kept {m : Nat} {s0 s : State} {xs : List (Nat × Nat)} (hm : 0x40 &&& m = 0x40) (h : Kept m s0 s) :
     AllO (fun p => Kept m s0 p.2) (State.sweep s xs) := by
  have hdef : @State.sweep = @State.sweep := rfl
  conv at hdef => rhs; delta State.sweep
  rw [congrFun (congrFun hdef s) xs]; clear hdef
  repeat' first
    | with_reducible assumption
    | with_reducible refine State.modPte_kept (Mask.sub hm (by decide)) ?_
    | with_reducible refine Kept.foldl (fun _ _ _ => ?_) _ ?_
    | with_reducible exact AllO.none_
    | with_reducible refine AllO.somePair ?_
    | with_reducible refine AllO.mapPair ?_
    | with_reducible refine AllO.someTriple ?_
    | with_reducible refine Kept.ite ?_ ?_
    | (extract_lets -underBinder +onlyGivenNames x; subst x)
    | split
    | dsimp only

theorem State.pageOut_kept {m : Nat} {s0 s : State} {c : Nat} {k : Nat} (hm : 0x86f &&& m = 0x86f) (h : Kept m s0 s) :
     Kept m s0 (State.pageOut s c k) := by
  have hdef : @State.pageOut = @State.pageOut := rfl
  conv at hdef => rhs; delta State.pageOut
  rw [congrFun (congrFun (congrFun hdef s) c) k]; clear hdef
  repeat' first
    | exact fun hw => wf_importRange _ _ _ _ _ hw
    | with_reducible assumption
    | with_reducible refine State.modPte_kept (Mask.sub hm (by decide)) ?_
    | with_reducible refine State.freeFrame_kept (Mask.sub hm (by decide)) ?_
    | with_reducible refine Kept.ite ?_ ?_
    | (extract_lets -underBinder +onlyGivenNames x; subst x)
    | split
    | with_reducible refine Kept.host (Mask.sub hm (by decide)) ?_ _ ?_
    | with_reducible refine Kept.mem (Mask.sub hm (by decide)) ?_ _ rfl
    | dsimp only

theorem State.pageInFail_kept {m : Nat} {s0 s : State} {c : Nat} {p : Nat} {reason : Nat} (hm : 0xfef &&& m = 0xfef) (h : Kept m s0 s) :
     Kept m s0 (State.pageInFail s c p reason) := by
  have hdef : @State.pageInFail = @State.pageInFail := rfl
  conv at hdef => rhs; delta State.pageInFail
  rw [congrFun (congrFun (congrFun (congrFun hdef s) c) p) reason]; clear hdef
  repeat' first
    | with_reducible assumption
    | with_reducible refine State.memFault_kept (Mask.sub hm (by decide)) ?_
    | with_reducible refine Kept.ite ?_ ?_
    | (extract_lets -underBinder +onlyGivenNames x; subst x)
    | split
    | with_reducible refine Kept.mem (Mask.sub hm (by decide)) ?_ _ rfl
    | dsimp only

theorem State.beginPageIn_kept {m : Nat} {s0 s : State} {c : Nat} {p : Nat} {f : Nat} (hm : 0x44 &&& m = 0x44) (h : Kept m s0 s) :
     Kept m s0 (State.beginPageIn s c p f) := by
  have hdef : @State.beginPageIn = @State.beginPageIn := rfl
  conv at hdef => rhs; delta State.beginPageIn
  rw [congrFun (congrFun (congrFun (congrFun hdef s) c) p) f]; clear hdef
  repeat' first
    | with_reducible assumption
    | with_reducible refine State.modPte_kept (Mask.sub hm (by decide)) ?_
    | with_reducible refine Kept.ite ?_ ?_
    | (extract_lets -underBinder +onlyGivenNames x; subst x)
    | split
    | with_reducible refine Kept.mem (Mask.sub hm (by decide)) ?_ _ rfl
    | dsimp only

theorem State.pageInGo_kept {m : Nat} {s0 s : State} {c : Nat} {p : Nat} {e : Pte} (hm : 0xfef &&& m = 0xfef) (h : Kept m s0 s) :
     Kept m s0 (State.pageInGo s c p e) := by
  have hdef : @State.pageInGo = @State.pageInGo := rfl
  conv at hdef => rhs; delta State.pageInGo
  rw [congrFun (congrFun (congrFun (congrFun hdef s) c) p) e]; clear hdef
  repeat' first
    | with_reducible assumption
    | with_reducible refine State.beginPageIn_kept (Mask.sub hm (by decide)) ?_
    | with_reducible refine State.pageInFail_kept (Mask.sub hm (by decide)) ?_
    | with_reducible refine State.pageOut_kept (Mask.sub hm (by decide)) ?_
    | with_reducible refine State.sweep_kept (Mask.sub hm (by decide)) ?_
    | with_reducible refine State.allocFrame_kept (Mask.sub hm (by decide)) ?_
    | with_reducible refine Kept.ofSomePair (by assumption) ?_
    | with_reducible refine Kept.ofSomeSnd (by assumption) ?_
    | with_reducible refine Kept.ite ?_ ?_
    | with_reducible refine Kept.iteSnd ?_ ?_
    | with_reducible refine Kept.iteFst ?_ ?_
    | (extract_lets -underBinder +onlyGivenNames x; subst x)
    | split
    | with_reducible refine Kept.mem (Mask.sub hm (by decide)) ?_ _ rfl
    | dsimp only

theorem execPageInStart_kept {m : Nat} {s0 s : State} {c : CtxId} {va : Nat} (hm : 0xfef &&& m = 0xfef) (h : Kept m s0 s) :
     OutKept m s0 (execPageInStart c va s) := by
  have hdef : @execPageInStart = @execPageInStart := rfl
  conv at hdef => rhs; delta execPageInStart
  rw [congrFun (congrFun (congrFun hdef c) va) s]; clear hdef
  repeat' first
    | with_reducible assumption
    | with_reducible refine State.pageInGo_kept (Mask.sub hm (by decide)) ?_
    | with_reducible refine OutKept.next ?_
    | with_reducible refine Kept.ite ?_ ?_
    | (extract_lets -underBinder +onlyGivenNames x; subst x)
    | split
    | dsimp only

theorem execPageInComplete_kept {m : Nat} {s0 s : State} {c : CtxId} {page : Nat} (hm : 0xfef &&& m = 0xfef) (h : Kept m s0 s) :
     OutKept m s0 (execPageInComplete c page s) := by
  have hdef : @execPageInComplete = @execPageInComplete := rfl
  conv at hdef => rhs; delta execPageInComplete
  rw [congrFun (congrFun (congrFun hdef c) page) s]; clear hdef
  repeat' first
    | exact fun hw => wf_importRange _ _ _ _ _ hw
    | with_reducible assumption
    | with_reducible refine State.pageInFail_kept (Mask.sub hm (by decide)) ?_
    | with_reducible refine State.modCtx_kept (Mask.sub hm (by decide)) ?_
    | with_reducible refine State.freeFrame_kept (Mask.sub hm (by decide)) ?_
    | with_reducible refine State.setReg_kept (Mask.sub hm (by decide)) ?_
    | with_reducible refine State.modPte_kept (Mask.sub hm (by decide)) ?_
    | with_reducible refine OutKept.next ?_
    | with_reducible refine Kept.ite ?_ ?_
    | (extract_lets -underBinder +onlyGivenNames x; subst x)
    | split
    | with_reducible refine Kept.hbm (Mask.sub hm (by decide)) ?_ _ ?_
    | with_reducible refine Kept.mem (Mask.sub hm (by decide)) ?_ _ rfl
    | with_reducible refine Kept.memAll (Mask.sub hm (by decide)) ?_ _ ?_
    | dsimp only

theorem State.copyDone_kept {m : Nat} {s0 s : State} {c : Nat} {k : Nat} {cmd : Cmd} (hm : 0x869 &&& m = 0x869) (h : Kept m s0 s) :
     Kept m s0 (State.copyDone s c k cmd) := by
  have hdef : @State.copyDone = @State.copyDone := rfl
  conv at hdef => rhs; delta State.copyDone
  rw [congrFun (congrFun (congrFun (congrFun hdef s) c) k) cmd]; clear hdef
  repeat' first
    | with_reducible assumption
    | with_reducible refine State.mboxFullEvent_kept (Mask.sub hm (by decide)) ?_
    | with_reducible refine State.setPhase_kept (Mask.sub hm (by decide)) ?_
    | with_reducible refine State.complete_kept (Mask.sub hm (by decide)) ?_
    | with_reducible refine State.deliverFlag_kept (Mask.sub hm (by decide)) ?_
    | with_reducible refine Kept.ite ?_ ?_
    | (extract_lets -underBinder +onlyGivenNames x; subst x)
    | split
    | dsimp only

theorem State.copyStop_kept {m : Nat} {s0 s : State} {c : Nat} {k : Nat} {bytes : Nat} (hm : 0x84d &&& m = 0x84d) (h : Kept m s0 s) :
     Kept m s0 (State.copyStop s c k bytes) := by
  have hdef : @State.copyStop = @State.copyStop := rfl
  conv at hdef => rhs; delta State.copyStop
  rw [congrFun (congrFun (congrFun (congrFun hdef s) c) k) bytes]; clear hdef
  repeat' first
    | with_reducible assumption
    | with_reducible refine State.complete_kept (Mask.sub hm (by decide)) ?_
    | with_reducible refine Kept.ite ?_ ?_
    | (extract_lets -underBinder +onlyGivenNames x; subst x)
    | split
    | with_reducible refine Kept.mem (Mask.sub hm (by decide)) ?_ _ rfl
    | dsimp only

theorem State.copyTry_kept {m : Nat} {s0 s : State} {c : Nat} {k : Nat} {bytes : Nat} {es : List (MemEnd × Nat × Bool)} {go : State → State} (hm : 0x84d &&& m = 0x84d) (h : Kept m s0 s) (h_go : ∀ a0, Kept m s0 a0 → Kept m s0 (go a0)) :
     Kept m s0 (State.copyTry s c k bytes es go) := by
  have hdef : @State.copyTry = @State.copyTry := rfl
  conv at hdef => rhs; delta State.copyTry
  rw [congrFun (congrFun (congrFun (congrFun (congrFun (congrFun hdef s) c) k) bytes) es) go]; clear hdef
  repeat' first
    | with_reducible assumption
    | with_reducible refine State.copyStop_kept (Mask.sub hm (by decide)) ?_
    | with_reducible refine State.want_kept (Mask.sub hm (by decide)) ?_
    | with_reducible refine h_go _ ?_
    | with_reducible refine Kept.ite ?_ ?_
    | (extract_lets -underBinder +onlyGivenNames x; subst x)
    | split
    | dsimp only

theorem State.copyPut_kept {m : Nat} {s0 s : State} {e : MemEnd} {bs : List Byte} (hm : 0xc7 &&& m = 0xc7) (h : Kept m s0 s) :
     AllO (Kept m s0) (State.copyPut s e bs) := by
  have hdef : @State.copyPut = @State.copyPut := rfl
  conv at hdef => rhs; delta State.copyPut
  rw [congrFun (congrFun (congrFun hdef s) e) bs]; clear hdef
  repeat' first
    | with_reducible assumption
    | with_reducible refine State.putEnd_kept (Mask.sub hm (by decide)) ?_
    | with_reducible exact AllO.none_
    | with_reducible refine AllO.some_ ?_
    | with_reducible refine Kept.ofSome (by assumption) ?_
    | with_reducible refine Kept.ite ?_ ?_
    | (extract_lets -underBinder +onlyGivenNames x; subst x)
    | split
    | dsimp only

theorem State.copyStep_kept {m : Nat} {s0 s : State} {c : Nat} {k : Nat} {pos : Nat} {cmd : Cmd} (hm : 0x8cf &&& m = 0x8cf) (h : Kept m s0 s) :
     Kept m s0 (State.copyStep s c k pos cmd) := by
  have hdef : @State.copyStep = @State.copyStep := rfl
  conv at hdef => rhs; delta State.copyStep
  rw [congrFun (congrFun (congrFun (congrFun (congrFun hdef s) c) k) pos) cmd]; clear hdef
  repeat' first
    | with_reducible assumption
    | with_reducible refine State.copyPut_kept (Mask.sub hm (by decide)) ?_
    | with_reducible refine State.copyTry_kept (Mask.sub hm (by decide)) ?_ (fun _ _ => ?_)
    | with_reducible refine State.getEnd_kept (Mask.sub hm (by decide)) ?_
    | with_reducible refine State.setPhase_kept (Mask.sub hm (by decide)) ?_
    | with_reducible refine Kept.ofSome (by assumption) ?_
    | with_reducible refine Kept.ofPair (by assumption) ?_
    | with_reducible refine Kept.ite ?_ ?_
    | with_reducible refine Kept.iteSnd ?_ ?_
    | with_reducible refine Kept.iteFst ?_ ?_
    | (extract_lets -underBinder +onlyGivenNames x; subst x)
    | split
    | dsimp only

theorem State.convStep_kept {m : Nat} {s0 s : State} {c : Nat} {k : Nat} {pos : Nat} {n : Nat} {cmd : Cmd} (hm : 0x8cf &&& m = 0x8cf) (h : Kept m s0 s) :
     Kept m s0 (State.convStep s c k pos n cmd) := by
  have hdef : @State.convStep = @State.convStep := rfl
  conv at hdef => rhs; delta State.convStep
  rw [congrFun (congrFun (congrFun (congrFun (congrFun (congrFun hdef s) c) k) pos) n) cmd]; clear hdef
  repeat' first
    | with_reducible assumption
    | with_reducible refine State.copyPut_kept (Mask.sub hm (by decide)) ?_
    | with_reducible refine State.copyTry_kept (Mask.sub hm (by decide)) ?_ (fun _ _ => ?_)
    | with_reducible refine State.getEnd_kept (Mask.sub hm (by decide)) ?_
    | with_reducible refine State.setPhase_kept (Mask.sub hm (by decide)) ?_
    | with_reducible refine AllO.bind_ ?_ (fun _ _ => ?_)
    | with_reducible refine Kept.ofSome (by assumption) ?_
    | with_reducible refine Kept.ofPair (by assumption) ?_
    | with_reducible refine Kept.ite ?_ ?_
    | with_reducible refine Kept.iteSnd ?_ ?_
    | with_reducible refine Kept.iteFst ?_ ?_
    | (extract_lets -underBinder +onlyGivenNames x; subst x)
    | split
    | dsimp only

theorem State.copyGo_kept {m : Nat} {s0 s : State} {c : Nat} {k : Nat} {pos : Nat} {cmd : Cmd} (hm : 0x8ef &&& m = 0x8ef) (h : Kept m s0 s) :
     Kept m s0 (State.copyGo s c k pos cmd) := by
  have hdef : @State.copyGo = @State.copyGo := rfl
  conv at hdef => rhs; delta State.copyGo
  rw [congrFun (congrFun (congrFun (congrFun (congrFun hdef s) c) k) pos) cmd]; clear hdef
  repeat' first
    | with_reducible assumption
    | with_reducible refine State.convStep_kept (Mask.sub hm (by decide)) ?_
    | with_reducible refine State.copyStep_kept (Mask.sub hm (by decide)) ?_
    | with_reducible refine State.copyDone_kept (Mask.sub hm (by decide)) ?_
    | with_reducible refine Kept.getD_ ?_ ?_
    | with_reducible refine Kept.ite ?_ ?_
    | (extract_lets -underBinder +onlyGivenNames x; subst x)
    | split
    | dsimp only

theorem execCopy_kept {m : Nat} {s0 s : State} {c : CtxId} {k : Nat} (hm : 0x8ef &&& m = 0x8ef) (h : Kept m s0 s) :
     OutKept m s0 (execCopy c k s) := by
  have hdef : @execCopy = @execCopy := rfl
  conv at hdef => rhs; delta execCopy
  rw [congrFun (congrFun (congrFun hdef c) k) s]; clear hdef
  repeat' first
    | with_reducible assumption
    | with_reducible refine State.copyGo_kept (Mask.sub hm (by decide)) ?_
    | with_reducible refine State.copyDone_kept (Mask.sub hm (by decide)) ?_
    | with_reducible refine State.onCmd_kept (Mask.sub hm (by decide)) ?_ (fun _ => ?_)
    | with_reducible refine State.complete_kept (Mask.sub hm (by decide)) ?_
    | with_reducible refine State.setPhase_kept (Mask.sub hm (by decide)) ?_
    | with_reducible refine OutKept.next ?_
    | with_reducible refine Kept.ite ?_ ?_
    | (extract_lets -underBinder +onlyGivenNames x; subst x)
    | split
    | dsimp only

theorem State.mapHost_kept {m : Nat} {s0 s : State} {c : Nat} {port : Nat} {mask : Nat} {write : Bool} {x1 : Nat} {x2 : Nat} {x3 : Nat} (hm : 0x40 &&& m = 0x40) (h : Kept m s0 s) :
     Kept m s0 (State.mapHost s c port mask write x1 x2 x3) := by
  fun_induction State.mapHost s c port mask write x1 x2 x3 <;> (try dsimp only at *)
  repeat' first
    | with_reducible assumption
    | with_reducible apply_assumption
    | with_reducible refine State.modCtx_kept (Mask.sub hm (by decide)) ?_
    | with_reducible refine Kept.ite ?_ ?_
    | (extract_lets -underBinder +onlyGivenNames x; subst x)
    | split
    | dsimp only

theorem State.mapAt_kept {m : Nat} {s0 s : State} {c : Nat} {d : List Byte} {p : Nat} (hm : 0x44 &&& m = 0x44) (h : Kept m s0 s) :
     AllO (Kept m s0) (State.mapAt s c d p) := by
  have hdef : @State.mapAt = @State.mapAt := rfl
  conv at hdef => rhs; delta State.mapAt
  rw [congrFun (congrFun (congrFun (congrFun hdef s) c) d) p]; clear hdef
  repeat' first
    | with_reducible assumption
    | with_reducible refine State.mapHost_kept (Mask.sub hm (by decide)) ?_
    | with_reducible refine State.mapMany_kept (Mask.sub hm (by decide)) ?_
    | with_reducible exact AllO.none_
    | with_reducible refine AllO.some_ ?_
    | with_reducible refine Kept.ofSome (by assumption) ?_
    | with_reducible refine Kept.ite ?_ ?_
    | (extract_lets -underBinder +onlyGivenNames x; subst x)
    | split
    | dsimp only

theorem execMap_kept {m : Nat} {s0 s : State} {c : CtxId} {k : Nat} (hm : 0x84d &&& m = 0x84d) (h : Kept m s0 s) :
     OutKept m s0 (execMap c k s) := by
  have hdef : @execMap = @execMap := rfl
  conv at hdef => rhs; delta execMap
  rw [congrFun (congrFun (congrFun hdef c) k) s]; clear hdef
  repeat' first
    | with_reducible assumption
    | with_reducible refine State.mapAt_kept (Mask.sub hm (by decide)) ?_
    | with_reducible refine State.onCmd_kept (Mask.sub hm (by decide)) ?_ (fun _ => ?_)
    | with_reducible refine State.complete_kept (Mask.sub hm (by decide)) ?_
    | with_reducible refine OutKept.next ?_
    | with_reducible refine Kept.ofSome (by assumption) ?_
    | with_reducible refine Kept.ite ?_ ?_
    | (extract_lets -underBinder +onlyGivenNames x; subst x)
    | split
    | dsimp only

theorem State.unmapOne_kept {m : Nat} {s0 s : State} {c : Nat} {discard : Bool} {k : Nat} {e : Pte} (hm : 0x86f &&& m = 0x86f) (h : Kept m s0 s) :
     Kept m s0 (State.unmapOne s c discard k e) := by
  have hdef : @State.unmapOne = @State.unmapOne := rfl
  conv at hdef => rhs; delta State.unmapOne
  rw [congrFun (congrFun (congrFun (congrFun (congrFun hdef s) c) discard) k) e]; clear hdef
  repeat' first
    | with_reducible assumption
    | with_reducible refine State.pageOut_kept (Mask.sub hm (by decide)) ?_
    | with_reducible refine State.freeFrames_kept (Mask.sub hm (by decide)) ?_
    | with_reducible refine State.modCtx_kept (Mask.sub hm (by decide)) ?_
    | with_reducible refine Kept.ite ?_ ?_
    | (extract_lets -underBinder +onlyGivenNames x; subst x)
    | split
    | dsimp only

theorem execUnmap_kept {m : Nat} {s0 s : State} {c : CtxId} {k : Nat} (hm : 0x86f &&& m = 0x86f) (h : Kept m s0 s) :
     OutKept m s0 (execUnmap c k s) := by
  have hdef : @execUnmap = @execUnmap := rfl
  conv at hdef => rhs; delta execUnmap
  rw [congrFun (congrFun (congrFun hdef c) k) s]; clear hdef
  repeat' first
    | with_reducible assumption
    | with_reducible refine State.unmapOne_kept (Mask.sub hm (by decide)) ?_
    | with_reducible refine State.onCmd_kept (Mask.sub hm (by decide)) ?_ (fun _ => ?_)
    | with_reducible refine State.complete_kept (Mask.sub hm (by decide)) ?_
    | with_reducible refine Kept.foldl (fun _ _ _ => ?_) _ ?_
    | with_reducible refine OutKept.next ?_
    | with_reducible refine Kept.ite ?_ ?_
    | (extract_lets -underBinder +onlyGivenNames x; subst x)
    | split
    | dsimp only

end Sys2Proof.Machine
end

