-- ==== Sys2Proof/Laws/KeptLinks.lean ====
section
/-!
SUPPORT. What the operations of Sys2Proof/Machine/Links.lean keep (Laws/Kept.lean).
-/
namespace Sys2Proof.Machine

theorem State.portStart_kept {m : Nat} {s0 s : State} {p : Nat} (hm : 0x100 &&& m = 0x100) (h : Kept m s0 s) :
     Kept m s0 (State.portStart s p) := by
  have hdef : @State.portStart = @State.portStart := rfl
  conv at hdef => rhs; delta State.portStart
  rw [congrFun (congrFun hdef s) p]; clear hdef
  repeat' first
    | with_reducible assumption
    | with_reducible refine State.modLport_kept (Mask.sub hm (by decide)) ?_
    | with_reducible refine Kept.ite ?_ ?_
    | (extract_lets -underBinder +onlyGivenNames x; subst x)
    | split
    | dsimp only

theorem State.portEnable_kept {m : Nat} {s0 s : State} {p : Nat} (hm : 0x100 &&& m = 0x100) (h : Kept m s0 s) :
     Kept m s0 (State.portEnable s p) := by
  have hdef : @State.portEnable = @State.portEnable := rfl
  conv at hdef => rhs; delta State.portEnable
  rw [congrFun (congrFun hdef s) p]; clear hdef
  repeat' first
    | with_reducible assumption
    | with_reducible refine State.portStart_kept (Mask.sub hm (by decide)) ?_
    | with_reducible refine State.modLport_kept (Mask.sub hm (by decide)) ?_
    | with_reducible refine Kept.ite ?_ ?_
    | (extract_lets -underBinder +onlyGivenNames x; subst x)
    | split
    | dsimp only

theorem State.portDisable_kept {m : Nat} {s0 s : State} {p : Nat} (hm : 0x96d &&& m = 0x96d) (h : Kept m s0 s) :
     Kept m s0 (State.portDisable s p) := by
  have hdef : @State.portDisable = @State.portDisable := rfl
  conv at hdef => rhs; delta State.portDisable
  rw [congrFun (congrFun hdef s) p]; clear hdef
  repeat' first
    | with_reducible assumption
    | with_reducible refine State.leaveUp_kept (Mask.sub hm (by decide)) ?_
    | with_reducible refine State.portQuiet_kept (Mask.sub hm (by decide)) ?_
    | with_reducible refine Kept.ite ?_ ?_
    | (extract_lets -underBinder +onlyGivenNames x; subst x)
    | split
    | dsimp only

theorem State.portRemode_kept {m : Nat} {s0 s : State} {p : Nat} (hm : 0x96d &&& m = 0x96d) (h : Kept m s0 s) :
     Kept m s0 (State.portRemode s p) := by
  have hdef : @State.portRemode = @State.portRemode := rfl
  conv at hdef => rhs; delta State.portRemode
  rw [congrFun (congrFun hdef s) p]; clear hdef
  repeat' first
    | with_reducible assumption
    | with_reducible refine State.portStart_kept (Mask.sub hm (by decide)) ?_
    | with_reducible refine State.leaveUp_kept (Mask.sub hm (by decide)) ?_
    | with_reducible refine State.portQuiet_kept (Mask.sub hm (by decide)) ?_
    | with_reducible refine Kept.ite ?_ ?_
    | (extract_lets -underBinder +onlyGivenNames x; subst x)
    | split
    | dsimp only

theorem State.portCtlWrite_kept {m : Nat} {s0 s : State} {f : Nat} {p : Nat} {v : Nat} (hm : 0x96d &&& m = 0x96d) (h : Kept m s0 s) :
     Kept m s0 (State.portCtlWrite s f p v) := by
  have hdef : @State.portCtlWrite = @State.portCtlWrite := rfl
  conv at hdef => rhs; delta State.portCtlWrite
  rw [congrFun (congrFun (congrFun (congrFun hdef s) f) p) v]; clear hdef
  repeat' first
    | with_reducible assumption
    | with_reducible refine State.portRemode_kept (Mask.sub hm (by decide)) ?_
    | with_reducible refine State.portDisable_kept (Mask.sub hm (by decide)) ?_
    | with_reducible refine State.portEnable_kept (Mask.sub hm (by decide)) ?_
    | with_reducible refine State.softReg_kept (Mask.sub hm (by decide)) ?_
    | with_reducible refine State.denied_kept (Mask.sub hm (by decide)) ?_
    | with_reducible refine Kept.ite ?_ ?_
    | (extract_lets -underBinder +onlyGivenNames x; subst x)
    | split
    | dsimp only

theorem execLnkPortCtlWrite_kept {m : Nat} {s0 s : State} {f : FnId} {p : LinkId} {v : Word32} (hm : 0x96d &&& m = 0x96d) (h : Kept m s0 s) :
     OutKept m s0 (execLnkPortCtlWrite f p v s) := by
  have hdef : @execLnkPortCtlWrite = @execLnkPortCtlWrite := rfl
  conv at hdef => rhs; delta execLnkPortCtlWrite
  rw [congrFun (congrFun (congrFun (congrFun hdef f) p) v) s]; clear hdef
  repeat' first
    | with_reducible assumption
    | with_reducible refine State.portCtlWrite_kept (Mask.sub hm (by decide)) ?_
    | with_reducible refine OutKept.next ?_
    | with_reducible refine Kept.ite ?_ ?_
    | (extract_lets -underBinder +onlyGivenNames x; subst x)
    | split
    | dsimp only

theorem execLnkPartIdWrite_kept {m : Nat} {s0 s : State} {f : FnId} {v : Word32} (hm : 0x108 &&& m = 0x108) (h : Kept m s0 s) :
     OutKept m s0 (execLnkPartIdWrite f v s) := by
  have hdef : @execLnkPartIdWrite = @execLnkPartIdWrite := rfl
  conv at hdef => rhs; delta execLnkPartIdWrite
  rw [congrFun (congrFun (congrFun hdef f) v) s]; clear hdef
  repeat' first
    | with_reducible assumption
    | with_reducible refine State.portEnable_kept (Mask.sub hm (by decide)) ?_
    | with_reducible refine State.softReg_kept (Mask.sub hm (by decide)) ?_
    | with_reducible refine State.denied_kept (Mask.sub hm (by decide)) ?_
    | with_reducible refine Kept.foldl (fun _ _ _ => ?_) _ ?_
    | with_reducible refine OutKept.next ?_
    | with_reducible refine Kept.ite ?_ ?_
    | (extract_lets -underBinder +onlyGivenNames x; subst x)
    | split
    | dsimp only

theorem execPortTrainingDone_kept {m : Nat} {s0 s : State} {p : LinkId} {ok : Bool} {partner : Nat} {partnerPort : Nat} (hm : 0x929 &&& m = 0x929) (h : Kept m s0 s) :
     OutKept m s0 (execPortTrainingDone p ok partner partnerPort s) := by
  have hdef : @execPortTrainingDone = @execPortTrainingDone := rfl
  conv at hdef => rhs; delta execPortTrainingDone
  rw [congrFun (congrFun (congrFun (congrFun (congrFun hdef p) ok) partner) partnerPort) s]; clear hdef
  repeat' first
    | with_reducible assumption
    | with_reducible refine State.raise_kept (Mask.sub hm (by decide)) ?_
    | with_reducible refine State.modLport_kept (Mask.sub hm (by decide)) ?_
    | with_reducible refine OutKept.next ?_
    | with_reducible refine Kept.ite ?_ ?_
    | (extract_lets -underBinder +onlyGivenNames x; subst x)
    | split
    | dsimp only

theorem execLinkDown_kept {m : Nat} {s0 s : State} {p : LinkId} {reason : Nat} (hm : 0x96d &&& m = 0x96d) (h : Kept m s0 s) :
     OutKept m s0 (execLinkDown p reason s) := by
  have hdef : @execLinkDown = @execLinkDown := rfl
  conv at hdef => rhs; delta execLinkDown
  rw [congrFun (congrFun (congrFun hdef p) reason) s]; clear hdef
  repeat' first
    | with_reducible assumption
    | with_reducible refine State.leaveUp_kept (Mask.sub hm (by decide)) ?_
    | with_reducible refine OutKept.next ?_
    | with_reducible refine Kept.ite ?_ ?_
    | (extract_lets -underBinder +onlyGivenNames x; subst x)
    | split
    | dsimp only

theorem execDownRetrainTimer_kept {m : Nat} {s0 s : State} {p : LinkId} {t : Nat} (hm : 0x8100 &&& m = 0x8100) (h : Kept m s0 s) :
     OutKept m s0 (execDownRetrainTimer p t s) := by
  have hdef : @execDownRetrainTimer = @execDownRetrainTimer := rfl
  conv at hdef => rhs; delta execDownRetrainTimer
  rw [congrFun (congrFun (congrFun hdef p) t) s]; clear hdef
  repeat' first
    | with_reducible assumption
    | with_reducible refine State.at_kept (Mask.sub hm (by decide)) ?_
    | with_reducible refine State.modLport_kept (Mask.sub hm (by decide)) ?_
    | with_reducible refine OutKept.next ?_
    | with_reducible refine Kept.ite ?_ ?_
    | (extract_lets -underBinder +onlyGivenNames x; subst x)
    | split
    | dsimp only

theorem execLaneLossOfLock_kept {m : Nat} {s0 s : State} {p : LinkId} {lane : Nat} (hm : 0x96d &&& m = 0x96d) (h : Kept m s0 s) :
     OutKept m s0 (execLaneLossOfLock p lane s) := by
  have hdef : @execLaneLossOfLock = @execLaneLossOfLock := rfl
  conv at hdef => rhs; delta execLaneLossOfLock
  rw [congrFun (congrFun (congrFun hdef p) lane) s]; clear hdef
  repeat' first
    | with_reducible assumption
    | with_reducible refine State.modLport_kept (Mask.sub hm (by decide)) ?_
    | with_reducible refine State.leaveUp_kept (Mask.sub hm (by decide)) ?_
    | with_reducible refine OutKept.next ?_
    | with_reducible refine Kept.ite ?_ ?_
    | (extract_lets -underBinder +onlyGivenNames x; subst x)
    | split
    | dsimp only

theorem State.takeInbox_kept {m : Nat} {s0 s : State} {n : Nat} {ops : List Nat} (hm : 0x100 &&& m = 0x100) (h : Kept m s0 s) :
     AllO (fun p => Kept m s0 p.2.2) (State.takeInbox s n ops) := by
  have hdef : @State.takeInbox = @State.takeInbox := rfl
  conv at hdef => rhs; delta State.takeInbox
  rw [congrFun (congrFun (congrFun hdef s) n) ops]; clear hdef
  repeat' first
    | with_reducible assumption
    | with_reducible refine State.modLport_kept (Mask.sub hm (by decide)) ?_
    | with_reducible exact AllO.none_
    | with_reducible refine AllO.somePair ?_
    | with_reducible refine AllO.mapPair ?_
    | with_reducible refine AllO.someTriple ?_
    | with_reducible refine Kept.ite ?_ ?_
    | (extract_lets -underBinder +onlyGivenNames x; subst x)
    | split
    | with_reducible refine Kept.links (Mask.sub hm (by decide)) ?_ _
    | dsimp only

theorem State.gotTxn_kept {m : Nat} {s0 s : State} {p : Nat} {vc : Nat} {r : RxPart} (hm : 0x100 &&& m = 0x100) (h : Kept m s0 s) :
     Kept m s0 (State.gotTxn s p vc r) := by
  have hdef : @State.gotTxn = @State.gotTxn := rfl
  conv at hdef => rhs; delta State.gotTxn
  rw [congrFun (congrFun (congrFun (congrFun hdef s) p) vc) r]; clear hdef
  repeat' first
    | with_reducible assumption
    | with_reducible refine State.modLport_kept (Mask.sub hm (by decide)) ?_
    | with_reducible refine State.deliver_kept (Mask.sub hm (by decide)) ?_
    | with_reducible refine Kept.ite ?_ ?_
    | (extract_lets -underBinder +onlyGivenNames x; subst x)
    | split
    | dsimp only

theorem State.takeFlit_kept {m : Nat} {s0 s : State} {p : Nat} {vc : Nat} {kind : Nat} {body : List Byte} (hm : 0x100 &&& m = 0x100) (h : Kept m s0 s) :
     Kept m s0 (State.takeFlit s p vc kind body) := by
  have hdef : @State.takeFlit = @State.takeFlit := rfl
  conv at hdef => rhs; delta State.takeFlit
  rw [congrFun (congrFun (congrFun (congrFun (congrFun hdef s) p) vc) kind) body]; clear hdef
  repeat' first
    | with_reducible assumption
    | with_reducible refine State.gotTxn_kept (Mask.sub hm (by decide)) ?_
    | with_reducible refine State.modLport_kept (Mask.sub hm (by decide)) ?_
    | with_reducible refine Kept.ite ?_ ?_
    | (extract_lets -underBinder +onlyGivenNames x; subst x)
    | split
    | dsimp only

theorem execFlitReceive_kept {m : Nat} {s0 s : State} {p : LinkId} {seq : Nat} {vc : Nat} {kind : Nat} {body : List Byte} (hm : 0x100 &&& m = 0x100) (h : Kept m s0 s) :
     OutKept m s0 (execFlitReceive p seq vc kind body s) := by
  have hdef : @execFlitReceive = @execFlitReceive := rfl
  conv at hdef => rhs; delta execFlitReceive
  rw [congrFun (congrFun (congrFun (congrFun (congrFun (congrFun hdef p) seq) vc) kind) body) s]; clear hdef
  repeat' first
    | with_reducible assumption
    | with_reducible refine State.takeFlit_kept (Mask.sub hm (by decide)) ?_
    | with_reducible refine State.modLport_kept (Mask.sub hm (by decide)) ?_
    | with_reducible refine OutKept.next ?_
    | with_reducible refine Kept.ite ?_ ?_
    | (extract_lets -underBinder +onlyGivenNames x; subst x)
    | split
    | dsimp only

theorem execUncorrectableCodeword_kept {m : Nat} {s0 s : State} {p : LinkId} {t : Nat} (hm : 0x8908 &&& m = 0x8908) (h : Kept m s0 s) :
     OutKept m s0 (execUncorrectableCodeword p t s) := by
  have hdef : @execUncorrectableCodeword = @execUncorrectableCodeword := rfl
  conv at hdef => rhs; delta execUncorrectableCodeword
  rw [congrFun (congrFun (congrFun hdef p) t) s]; clear hdef
  repeat' first
    | with_reducible assumption
    | with_reducible refine State.at_kept (Mask.sub hm (by decide)) ?_
    | with_reducible refine State.total_kept (Mask.sub hm (by decide)) ?_
    | with_reducible refine State.count_kept (Mask.sub hm (by decide)) ?_
    | with_reducible refine State.modLport_kept (Mask.sub hm (by decide)) ?_
    | with_reducible refine OutKept.next ?_
    | with_reducible refine Kept.getD_ ?_ ?_
    | with_reducible refine Kept.ite ?_ ?_
    | (extract_lets -underBinder +onlyGivenNames x; subst x)
    | split
    | dsimp only

theorem State.replayFrom_kept {m : Nat} {s0 s : State} {p : Nat} {seq : Nat} (hm : 0x96d &&& m = 0x96d) (h : Kept m s0 s) :
     Kept m s0 (State.replayFrom s p seq) := by
  have hdef : @State.replayFrom = @State.replayFrom := rfl
  conv at hdef => rhs; delta State.replayFrom
  rw [congrFun (congrFun (congrFun hdef s) p) seq]; clear hdef
  repeat' first
    | with_reducible assumption
    | with_reducible refine State.leaveUp_kept (Mask.sub hm (by decide)) ?_
    | with_reducible refine State.count_kept (Mask.sub hm (by decide)) ?_
    | with_reducible refine State.setFld_kept (Mask.sub hm (by decide)) ?_
    | with_reducible refine State.modLport_kept (Mask.sub hm (by decide)) ?_
    | with_reducible refine Kept.ite ?_ ?_
    | (extract_lets -underBinder +onlyGivenNames x; subst x)
    | split
    | dsimp only

theorem execSideWordReceive_kept {m : Nat} {s0 s : State} {p : LinkId} {w : Nat} (hm : 0x96d &&& m = 0x96d) (h : Kept m s0 s) :
     OutKept m s0 (execSideWordReceive p w s) := by
  have hdef : @execSideWordReceive = @execSideWordReceive := rfl
  conv at hdef => rhs; delta execSideWordReceive
  rw [congrFun (congrFun (congrFun hdef p) w) s]; clear hdef
  repeat' first
    | with_reducible assumption
    | with_reducible refine State.replayFrom_kept (Mask.sub hm (by decide)) ?_
    | with_reducible refine State.modLport_kept (Mask.sub hm (by decide)) ?_
    | with_reducible refine State.pump_kept (Mask.sub hm (by decide)) ?_
    | with_reducible refine OutKept.next ?_
    | with_reducible refine Kept.ite ?_ ?_
    | (extract_lets -underBinder +onlyGivenNames x; subst x)
    | split
    | dsimp only

theorem execReplayBoundExceeded_kept {m : Nat} {s0 s : State} {p : LinkId} {t : Nat} (hm : 0x896d &&& m = 0x896d) (h : Kept m s0 s) :
     OutKept m s0 (execReplayBoundExceeded p t s) := by
  have hdef : @execReplayBoundExceeded = @execReplayBoundExceeded := rfl
  conv at hdef => rhs; delta execReplayBoundExceeded
  rw [congrFun (congrFun (congrFun hdef p) t) s]; clear hdef
  repeat' first
    | with_reducible assumption
    | with_reducible refine State.at_kept (Mask.sub hm (by decide)) ?_
    | with_reducible refine State.leaveUp_kept (Mask.sub hm (by decide)) ?_
    | with_reducible refine OutKept.next ?_
    | with_reducible refine Kept.ite ?_ ?_
    | (extract_lets -underBinder +onlyGivenNames x; subst x)
    | split
    | dsimp only

theorem execTransactionForward_kept {m : Nat} {s0 s : State} {n : Nat} (hm : 0x108 &&& m = 0x108) (h : Kept m s0 s) :
     OutKept m s0 (execTransactionForward n s) := by
  have hdef : @execTransactionForward = @execTransactionForward := rfl
  conv at hdef => rhs; delta execTransactionForward
  rw [congrFun (congrFun hdef n) s]; clear hdef
  repeat' first
    | with_reducible assumption
    | with_reducible refine State.takeInbox_kept (Mask.sub hm (by decide)) ?_
    | with_reducible refine State.count_kept (Mask.sub hm (by decide)) ?_
    | with_reducible refine State.enqueue_kept (Mask.sub hm (by decide)) ?_
    | with_reducible refine OutKept.next ?_
    | with_reducible refine Kept.ofSomePair (by assumption) ?_
    | with_reducible refine Kept.ofSomeSnd (by assumption) ?_
    | with_reducible refine Kept.ofSomeTriple (by assumption) ?_
    | with_reducible refine Kept.ite ?_ ?_
    | with_reducible refine Kept.iteSnd ?_ ?_
    | with_reducible refine Kept.iteFst ?_ ?_
    | (extract_lets -underBinder +onlyGivenNames x; subst x)
    | split
    | dsimp only

theorem execTimeSample_kept {m : Nat} {s0 s : State} {partner : Nat} {hops : Nat} {t : Nat} (hm : 0x58108 &&& m = 0x58108) (h : Kept m s0 s) :
     OutKept m s0 (execTimeSample partner hops t s) := by
  have hdef : @execTimeSample = @execTimeSample := rfl
  conv at hdef => rhs; delta execTimeSample
  rw [congrFun (congrFun (congrFun (congrFun hdef partner) hops) t) s]; clear hdef
  repeat' first
    | exact fun q => absurd (Mask.bit (i := 18) hm (by decide)) (by rw [q]; decide)
    | with_reducible assumption
    | with_reducible refine State.at_kept (Mask.sub hm (by decide)) ?_
    | with_reducible refine State.pick_kept (Mask.sub hm (by decide)) ?_
    | with_reducible refine State.setReg_kept (Mask.sub hm (by decide)) ?_
    | with_reducible refine OutKept.next ?_
    | with_reducible refine Kept.ofPair (by assumption) ?_
    | with_reducible refine Kept.ite ?_ ?_
    | with_reducible refine Kept.iteSnd ?_ ?_
    | with_reducible refine Kept.iteFst ?_ ?_
    | (extract_lets -underBinder +onlyGivenNames x; subst x)
    | split
    | with_reducible refine Kept.links (Mask.sub hm (by decide)) ?_ _
    | with_reducible refine Kept.now (Mask.sub hm (by decide)) ?_ _ ?_
    | dsimp only

theorem execTimeUnlocked_kept {m : Nat} {s0 s : State} {t : Nat} (hm : 0x8929 &&& m = 0x8929) (h : Kept m s0 s) :
     OutKept m s0 (execTimeUnlocked t s) := by
  have hdef : @execTimeUnlocked = @execTimeUnlocked := rfl
  conv at hdef => rhs; delta execTimeUnlocked
  rw [congrFun (congrFun hdef t) s]; clear hdef
  repeat' first
    | with_reducible assumption
    | with_reducible refine State.at_kept (Mask.sub hm (by decide)) ?_
    | with_reducible refine State.raise_kept (Mask.sub hm (by decide)) ?_
    | with_reducible refine State.setFld_kept (Mask.sub hm (by decide)) ?_
    | with_reducible refine OutKept.next ?_
    | with_reducible refine Kept.ite ?_ ?_
    | (extract_lets -underBinder +onlyGivenNames x; subst x)
    | split
    | with_reducible refine Kept.links (Mask.sub hm (by decide)) ?_ _
    | dsimp only

theorem execPrbsTest_kept {m : Nat} {s0 s : State} {p : LinkId} {locked : Nat} {errs : List Nat} (hm : 0x108 &&& m = 0x108) (h : Kept m s0 s) :
     OutKept m s0 (execPrbsTest p locked errs s) := by
  have hdef : @execPrbsTest = @execPrbsTest := rfl
  conv at hdef => rhs; delta execPrbsTest
  rw [congrFun (congrFun (congrFun (congrFun hdef p) locked) errs) s]; clear hdef
  repeat' first
    | with_reducible assumption
    | with_reducible refine State.setFld_kept (Mask.sub hm (by decide)) ?_
    | with_reducible refine State.modLport_kept (Mask.sub hm (by decide)) ?_
    | with_reducible refine State.count_kept (Mask.sub hm (by decide)) ?_
    | with_reducible refine Kept.foldl (fun _ _ _ => ?_) _ ?_
    | with_reducible refine OutKept.next ?_
    | with_reducible refine Kept.getD_ ?_ ?_
    | with_reducible refine Kept.ite ?_ ?_
    | (extract_lets -underBinder +onlyGivenNames x; subst x)
    | split
    | dsimp only

end Sys2Proof.Machine
end

