-- ==== Sys2Proof/Laws/KeptWindows.lean ====
section
/-!
SUPPORT. What the operations of Sys2Proof/Machine/Windows.lean keep (Laws/Kept.lean).
-/
namespace Sys2Proof.Machine

theorem execOpenWindow_kept {m : Nat} {s0 s : State} {c : CtxId} {k : Nat} (hm : 0x949 &&& m = 0x949) (h : Kept m s0 s) :
     OutKept m s0 (execOpenWindow c k s) := by
  have hdef : @execOpenWindow = @execOpenWindow := rfl
  conv at hdef => rhs; delta execOpenWindow
  rw [congrFun (congrFun (congrFun hdef c) k) s]; clear hdef
  repeat' first
    | with_reducible assumption
    | with_reducible refine State.onCmd_kept (Mask.sub hm (by decide)) ?_ (fun _ => ?_)
    | with_reducible refine State.complete_kept (Mask.sub hm (by decide)) ?_
    | with_reducible refine OutKept.next ?_
    | with_reducible refine Kept.ite ?_ ?_
    | (extract_lets -underBinder +onlyGivenNames x; subst x)
    | split
    | with_reducible refine Kept.links (Mask.sub hm (by decide)) ?_ _
    | dsimp only

theorem State.modWindow_kept {m : Nat} {s0 s : State} {i : Nat} {f : Window → Window} (hm : 0x100 &&& m = 0x100) (h : Kept m s0 s) :
     Kept m s0 (State.modWindow s i f) := by
  have hdef : @State.modWindow = @State.modWindow := rfl
  conv at hdef => rhs; delta State.modWindow
  rw [congrFun (congrFun (congrFun hdef s) i) f]; clear hdef
  repeat' first
    | with_reducible assumption
    | with_reducible refine Kept.ite ?_ ?_
    | (extract_lets -underBinder +onlyGivenNames x; subst x)
    | split
    | with_reducible refine Kept.links (Mask.sub hm (by decide)) ?_ _
    | dsimp only

theorem State.tryClose_kept {m : Nat} {s0 s : State} {c : Nat} {k : Nat} {i : Nat} (hm : 0x949 &&& m = 0x949) (h : Kept m s0 s) :
     Kept m s0 (State.tryClose s c k i) := by
  have hdef : @State.tryClose = @State.tryClose := rfl
  conv at hdef => rhs; delta State.tryClose
  rw [congrFun (congrFun (congrFun (congrFun hdef s) c) k) i]; clear hdef
  repeat' first
    | with_reducible assumption
    | with_reducible refine State.complete_kept (Mask.sub hm (by decide)) ?_
    | with_reducible refine Kept.ite ?_ ?_
    | (extract_lets -underBinder +onlyGivenNames x; subst x)
    | split
    | with_reducible refine Kept.links (Mask.sub hm (by decide)) ?_ _
    | dsimp only

theorem execCloseWindow_kept {m : Nat} {s0 s : State} {c : CtxId} {k : Nat} (hm : 0x949 &&& m = 0x949) (h : Kept m s0 s) :
     OutKept m s0 (execCloseWindow c k s) := by
  have hdef : @execCloseWindow = @execCloseWindow := rfl
  conv at hdef => rhs; delta execCloseWindow
  rw [congrFun (congrFun (congrFun hdef c) k) s]; clear hdef
  repeat' first
    | with_reducible assumption
    | with_reducible refine State.tryClose_kept (Mask.sub hm (by decide)) ?_
    | with_reducible refine State.modWindow_kept (Mask.sub hm (by decide)) ?_
    | with_reducible refine State.onCmd_kept (Mask.sub hm (by decide)) ?_ (fun _ => ?_)
    | with_reducible refine State.complete_kept (Mask.sub hm (by decide)) ?_
    | with_reducible refine State.setPhase_kept (Mask.sub hm (by decide)) ?_
    | with_reducible refine OutKept.next ?_
    | with_reducible refine Kept.ite ?_ ?_
    | (extract_lets -underBinder +onlyGivenNames x; subst x)
    | split
    | dsimp only

theorem execWindowArrival_kept {m : Nat} {s0 s : State} {n : Nat} (hm : 0x929 &&& m = 0x929) (h : Kept m s0 s) :
     OutKept m s0 (execWindowArrival n s) := by
  have hdef : @execWindowArrival = @execWindowArrival := rfl
  conv at hdef => rhs; delta execWindowArrival
  rw [congrFun (congrFun hdef n) s]; clear hdef
  repeat' first
    | with_reducible assumption
    | with_reducible refine State.takeInbox_kept (Mask.sub hm (by decide)) ?_
    | with_reducible refine State.answer__kept (Mask.sub hm (by decide)) ?_
    | with_reducible refine State.rememberTseq_kept (Mask.sub hm (by decide)) ?_
    | with_reducible refine State.mboxFullEvent_kept (Mask.sub hm (by decide)) ?_
    | with_reducible refine OutKept.next ?_
    | with_reducible refine Kept.ofSomePair (by assumption) ?_
    | with_reducible refine Kept.ofSomeSnd (by assumption) ?_
    | with_reducible refine Kept.ofSomeTriple (by assumption) ?_
    | with_reducible refine Kept.ite ?_ ?_
    | with_reducible refine Kept.iteSnd ?_ ?_
    | with_reducible refine Kept.iteFst ?_ ?_
    | (extract_lets -underBinder +onlyGivenNames x; subst x)
    | split
    | with_reducible refine Kept.links (Mask.sub hm (by decide)) ?_ _
    | dsimp only

theorem State.putAccept_kept {m : Nat} {s0 s : State} {id : Nat} {a : Accept} (hm : 0x100 &&& m = 0x100) (h : Kept m s0 s) :
     Kept m s0 (State.putAccept s id a) := by
  have hdef : @State.putAccept = @State.putAccept := rfl
  conv at hdef => rhs; delta State.putAccept
  rw [congrFun (congrFun (congrFun hdef s) id) a]; clear hdef
  repeat' first
    | with_reducible assumption
    | with_reducible refine Kept.ite ?_ ?_
    | (extract_lets -underBinder +onlyGivenNames x; subst x)
    | split
    | with_reducible refine Kept.links (Mask.sub hm (by decide)) ?_ _
    | dsimp only

theorem State.winWritten_kept {m : Nat} {s0 s : State} {i : Nat} {n : Nat} (hm : 0x148 &&& m = 0x148) (h : Kept m s0 s) :
     Kept m s0 (State.winWritten s i n) := by
  have hdef : @State.winWritten = @State.winWritten := rfl
  conv at hdef => rhs; delta State.winWritten
  rw [congrFun (congrFun (congrFun hdef s) i) n]; clear hdef
  repeat' first
    | with_reducible assumption
    | with_reducible refine State.modWindow_kept (Mask.sub hm (by decide)) ?_
    | with_reducible refine State.deliverFlag_kept (Mask.sub hm (by decide)) ?_
    | with_reducible refine Kept.ite ?_ ?_
    | (extract_lets -underBinder +onlyGivenNames x; subst x)
    | split
    | dsimp only

theorem State.acceptDone_kept {m : Nat} {s0 s : State} {id : Nat} {a : Accept} (hm : 0x148 &&& m = 0x148) (h : Kept m s0 s) :
     Kept m s0 (State.acceptDone s id a) := by
  have hdef : @State.acceptDone = @State.acceptDone := rfl
  conv at hdef => rhs; delta State.acceptDone
  rw [congrFun (congrFun (congrFun hdef s) id) a]; clear hdef
  repeat' first
    | with_reducible assumption
    | with_reducible refine State.winWritten_kept (Mask.sub hm (by decide)) ?_
    | with_reducible refine State.settle_kept (Mask.sub hm (by decide)) ?_
    | with_reducible refine Kept.ite ?_ ?_
    | (extract_lets -underBinder +onlyGivenNames x; subst x)
    | split
    | dsimp only

theorem State.hawkPiece_kept {m : Nat} {s0 s : State} {id : Nat} {w : Window} {a : Accept} {n : Nat} {o : Nat} (hm : 0x180 &&& m = 0x180) (h : Kept m s0 s) :
     AllO (Kept m s0) (State.hawkPiece s id w a n o) := by
  have hdef : @State.hawkPiece = @State.hawkPiece := rfl
  conv at hdef => rhs; delta State.hawkPiece
  rw [congrFun (congrFun (congrFun (congrFun (congrFun (congrFun hdef s) id) w) a) n) o]; clear hdef
  repeat' first
    | with_reducible assumption
    | with_reducible refine State.putAccept_kept (Mask.sub hm (by decide)) ?_
    | with_reducible refine State.modAu_kept (Mask.sub hm (by decide)) ?_
    | with_reducible exact AllO.none_
    | with_reducible refine AllO.some_ ?_
    | with_reducible refine Kept.ite ?_ ?_
    | (extract_lets -underBinder +onlyGivenNames x; subst x)
    | split
    | dsimp only

theorem State.hawkAccess_kept {m : Nat} {s0 s : State} {id : Nat} {x1 : Nat} (hm : 0x1c8 &&& m = 0x1c8) (h : Kept m s0 s) :
     Kept m s0 (State.hawkAccess s id x1) := by
  induction x1 generalizing s with
  | zero => rw [State.hawkAccess]; exact h
  | succ n ih =>
    rw [State.hawkAccess]
    repeat' first
      | with_reducible assumption
      | with_reducible refine ih ?_
      | with_reducible refine State.hawkPiece_kept (Mask.sub hm (by decide)) ?_
      | with_reducible refine State.acceptDone_kept (Mask.sub hm (by decide)) ?_
      | with_reducible refine Kept.ofSome (by assumption) ?_
      | with_reducible refine Kept.ite ?_ ?_
      | (extract_lets -underBinder +onlyGivenNames x; subst x)
      | split
      | dsimp only

theorem State.virtAccess_kept {m : Nat} {s0 s : State} {id : Nat} {w : Window} {a : Accept} {va : Nat} (hm : 0xfef &&& m = 0xfef) (h : Kept m s0 s) :
     Kept m s0 (State.virtAccess s id w a va) := by
  have hdef : @State.virtAccess = @State.virtAccess := rfl
  conv at hdef => rhs; delta State.virtAccess
  rw [congrFun (congrFun (congrFun (congrFun (congrFun hdef s) id) w) a) va]; clear hdef
  repeat' first
    | with_reducible assumption
    | with_reducible refine State.acceptDone_kept (Mask.sub hm (by decide)) ?_
    | with_reducible refine State.want_kept (Mask.sub hm (by decide)) ?_
    | with_reducible refine State.memFault_kept (Mask.sub hm (by decide)) ?_
    | with_reducible refine State.vwrite_kept (Mask.sub hm (by decide)) ?_
    | with_reducible refine State.vread_kept (Mask.sub hm (by decide)) ?_
    | with_reducible refine VmRes.All.use0 (by assumption) ?_
    | with_reducible refine VmRes.All.use1 (by assumption) ?_
    | with_reducible refine Kept.ite ?_ ?_
    | with_reducible refine Kept.iteSnd ?_ ?_
    | with_reducible refine Kept.iteFst ?_ ?_
    | (extract_lets -underBinder +onlyGivenNames x; subst x)
    | split
    | dsimp only

theorem execWindowWriteComplete_kept {m : Nat} {s0 s : State} {id : Nat} (hm : 0xfef &&& m = 0xfef) (h : Kept m s0 s) :
     OutKept m s0 (execWindowWriteComplete id s) := by
  have hdef : @execWindowWriteComplete = @execWindowWriteComplete := rfl
  conv at hdef => rhs; delta execWindowWriteComplete
  rw [congrFun (congrFun hdef id) s]; clear hdef
  repeat' first
    | with_reducible assumption
    | with_reducible refine State.virtAccess_kept (Mask.sub hm (by decide)) ?_
    | with_reducible refine State.hawkAccess_kept (Mask.sub hm (by decide)) ?_
    | with_reducible refine OutKept.next ?_
    | with_reducible refine Kept.ite ?_ ?_
    | (extract_lets -underBinder +onlyGivenNames x; subst x)
    | split
    | dsimp only

theorem execSlotBusy_kept {m : Nat} {s0 s : State} {id : Nat} {t : Nat} (hm : 0x8108 &&& m = 0x8108) (h : Kept m s0 s) :
     OutKept m s0 (execSlotBusy id t s) := by
  have hdef : @execSlotBusy = @execSlotBusy := rfl
  conv at hdef => rhs; delta execSlotBusy
  rw [congrFun (congrFun (congrFun hdef id) t) s]; clear hdef
  repeat' first
    | with_reducible assumption
    | with_reducible refine State.at_kept (Mask.sub hm (by decide)) ?_
    | with_reducible refine State.flagCount_kept (Mask.sub hm (by decide)) ?_
    | with_reducible refine State.settle_kept (Mask.sub hm (by decide)) ?_
    | with_reducible refine OutKept.next ?_
    | with_reducible refine Kept.ite ?_ ?_
    | (extract_lets -underBinder +onlyGivenNames x; subst x)
    | split
    | dsimp only

theorem execHoldReceive_kept {m : Nat} {s0 s : State} {n : Nat} (hm : 0x100 &&& m = 0x100) (h : Kept m s0 s) :
     OutKept m s0 (execHoldReceive n s) := by
  have hdef : @execHoldReceive = @execHoldReceive := rfl
  conv at hdef => rhs; delta execHoldReceive
  rw [congrFun (congrFun hdef n) s]; clear hdef
  repeat' first
    | with_reducible assumption
    | with_reducible refine State.takeInbox_kept (Mask.sub hm (by decide)) ?_
    | with_reducible refine OutKept.next ?_
    | with_reducible refine Kept.ofSomePair (by assumption) ?_
    | with_reducible refine Kept.ofSomeSnd (by assumption) ?_
    | with_reducible refine Kept.ofSomeTriple (by assumption) ?_
    | with_reducible refine Kept.ite ?_ ?_
    | with_reducible refine Kept.iteSnd ?_ ?_
    | with_reducible refine Kept.iteFst ?_ ?_
    | (extract_lets -underBinder +onlyGivenNames x; subst x)
    | split
    | with_reducible refine Kept.links (Mask.sub hm (by decide)) ?_ _
    | dsimp only

theorem execHoldResend_kept {m : Nat} {s0 s : State} {p : LinkId} {slot : Nat} {t : Nat} (hm : 0x814c &&& m = 0x814c) (h : Kept m s0 s) :
     OutKept m s0 (execHoldResend p slot t s) := by
  have hdef : @execHoldResend = @execHoldResend := rfl
  conv at hdef => rhs; delta execHoldResend
  rw [congrFun (congrFun (congrFun (congrFun hdef p) slot) t) s]; clear hdef
  repeat' first
    | with_reducible assumption
    | with_reducible refine State.at_kept (Mask.sub hm (by decide)) ?_
    | with_reducible refine State.deliver_kept (Mask.sub hm (by decide)) ?_
    | with_reducible refine State.finishTxn_kept (Mask.sub hm (by decide)) ?_
    | with_reducible refine State.count_kept (Mask.sub hm (by decide)) ?_
    | with_reducible refine State.enqueue_kept (Mask.sub hm (by decide)) ?_
    | with_reducible refine OutKept.next ?_
    | with_reducible refine Kept.ite ?_ ?_
    | (extract_lets -underBinder +onlyGivenNames x; subst x)
    | split
    | with_reducible refine Kept.links (Mask.sub hm (by decide)) ?_ _
    | dsimp only

theorem State.putRead_kept {m : Nat} {s0 s : State} {u_ : TxnUser} {off : Nat} {bs : List Byte} (hm : 0xc6 &&& m = 0xc6) (h : Kept m s0 s) :
     VmRes.All (Kept m s0) (State.putRead s u_ off bs) := by
  have hdef : @State.putRead = @State.putRead := rfl
  conv at hdef => rhs; delta State.putRead
  rw [congrFun (congrFun (congrFun (congrFun hdef s) u_) off) bs]; clear hdef
  repeat' first
    | with_reducible assumption
    | with_reducible refine State.vwrite_kept (Mask.sub hm (by decide)) ?_
    | with_reducible refine State.modAu_kept (Mask.sub hm (by decide)) ?_
    | with_reducible refine State.modCtx_kept (Mask.sub hm (by decide)) ?_
    | with_reducible refine VmRes.All.ok_ ?_
    | with_reducible exact VmRes.All.wait_
    | with_reducible exact VmRes.All.hold_
    | with_reducible exact VmRes.All.bad_
    | with_reducible refine VmRes.All.use0 (by assumption) ?_
    | with_reducible refine VmRes.All.use1 (by assumption) ?_
    | with_reducible refine Kept.ite ?_ ?_
    | (extract_lets -underBinder +onlyGivenNames x; subst x)
    | split
    | dsimp only

theorem execCompleteReceive_kept {m : Nat} {s0 s : State} {n : Nat} (hm : 0xfef &&& m = 0xfef) (h : Kept m s0 s) :
     OutKept m s0 (execCompleteReceive n s) := by
  have hdef : @execCompleteReceive = @execCompleteReceive := rfl
  conv at hdef => rhs; delta execCompleteReceive
  rw [congrFun (congrFun hdef n) s]; clear hdef
  repeat' first
    | with_reducible assumption
    | with_reducible refine State.putRead_kept (Mask.sub hm (by decide)) ?_
    | with_reducible refine State.takeInbox_kept (Mask.sub hm (by decide)) ?_
    | with_reducible refine State.finishTxn_kept (Mask.sub hm (by decide)) ?_
    | with_reducible refine State.want_kept (Mask.sub hm (by decide)) ?_
    | with_reducible refine State.memFault_kept (Mask.sub hm (by decide)) ?_
    | with_reducible refine OutKept.next ?_
    | with_reducible refine VmRes.All.use0 (by assumption) ?_
    | with_reducible refine VmRes.All.use1 (by assumption) ?_
    | with_reducible refine Kept.ofSomePair (by assumption) ?_
    | with_reducible refine Kept.ofSomeSnd (by assumption) ?_
    | with_reducible refine Kept.ofSomeTriple (by assumption) ?_
    | with_reducible refine Kept.ite ?_ ?_
    | with_reducible refine Kept.iteSnd ?_ ?_
    | with_reducible refine Kept.iteFst ?_ ?_
    | (extract_lets -underBinder +onlyGivenNames x; subst x)
    | split
    | dsimp only

theorem execAbortReceive_kept {m : Nat} {s0 s : State} {n : Nat} (hm : 0x100 &&& m = 0x100) (h : Kept m s0 s) :
     OutKept m s0 (execAbortReceive n s) := by
  have hdef : @execAbortReceive = @execAbortReceive := rfl
  conv at hdef => rhs; delta execAbortReceive
  rw [congrFun (congrFun hdef n) s]; clear hdef
  repeat' first
    | with_reducible assumption
    | with_reducible refine State.takeInbox_kept (Mask.sub hm (by decide)) ?_
    | with_reducible refine State.rememberTseq_kept (Mask.sub hm (by decide)) ?_
    | with_reducible refine OutKept.next ?_
    | with_reducible refine Kept.ofSomePair (by assumption) ?_
    | with_reducible refine Kept.ofSomeSnd (by assumption) ?_
    | with_reducible refine Kept.ofSomeTriple (by assumption) ?_
    | with_reducible refine Kept.ite ?_ ?_
    | with_reducible refine Kept.iteSnd ?_ ?_
    | with_reducible refine Kept.iteFst ?_ ?_
    | (extract_lets -underBinder +onlyGivenNames x; subst x)
    | split
    | with_reducible refine Kept.links (Mask.sub hm (by decide)) ?_ _
    | dsimp only

theorem execTransactionTimeout_kept {m : Nat} {s0 s : State} {p : LinkId} {slot : Nat} {t : Nat} (hm : 0x896d &&& m = 0x896d) (h : Kept m s0 s) :
     OutKept m s0 (execTransactionTimeout p slot t s) := by
  have hdef : @execTransactionTimeout = @execTransactionTimeout := rfl
  conv at hdef => rhs; delta execTransactionTimeout
  rw [congrFun (congrFun (congrFun (congrFun hdef p) slot) t) s]; clear hdef
  repeat' first
    | with_reducible assumption
    | with_reducible refine State.at_kept (Mask.sub hm (by decide)) ?_
    | with_reducible refine State.total_kept (Mask.sub hm (by decide)) ?_
    | with_reducible refine State.flagCount_kept (Mask.sub hm (by decide)) ?_
    | with_reducible refine State.abortTxn_kept (Mask.sub hm (by decide)) ?_
    | with_reducible refine State.raise_kept (Mask.sub hm (by decide)) ?_
    | with_reducible refine State.finishTxn_kept (Mask.sub hm (by decide)) ?_
    | with_reducible refine OutKept.next ?_
    | with_reducible refine Kept.ite ?_ ?_
    | (extract_lets -underBinder +onlyGivenNames x; subst x)
    | split
    | with_reducible refine Kept.links (Mask.sub hm (by decide)) ?_ _
    | dsimp only

end Sys2Proof.Machine
end

