-- ==== Sys2Proof/Laws/KeptColl.lean ====
section
/-!
SUPPORT. What the operations of Sys2Proof/Machine/Coll.lean keep (Laws/Kept.lean).
-/
namespace Sys2Proof.Machine

theorem State.endEntry_kept {m : Nat} {s0 s : State} {c : Nat} {i : Nat} {status : Nat} {failOff : Nat} {tell : Bool} (hm : 0x9ef &&& m = 0x9ef) (h : Kept m s0 s) :
     Kept m s0 (State.endEntry s c i status failOff tell) := by
  have hdef : @State.endEntry = @State.endEntry := rfl
  conv at hdef => rhs; delta State.endEntry
  rw [congrFun (congrFun (congrFun (congrFun (congrFun (congrFun hdef s) c) i) status) failOff) tell]; clear hdef
  repeat' first
    | with_reducible assumption
    | with_reducible refine State.mboxFullEvent_kept (Mask.sub hm (by decide)) ?_
    | with_reducible refine State.modEntry_kept (Mask.sub hm (by decide)) ?_
    | with_reducible refine State.modCtx_kept (Mask.sub hm (by decide)) ?_
    | with_reducible refine State.writeEntry_kept (Mask.sub hm (by decide)) ?_
    | with_reducible refine State.failEntry_kept (Mask.sub hm (by decide)) ?_
    | with_reducible refine State.progress_kept (Mask.sub hm (by decide)) ?_
    | with_reducible refine State.deliverFlag_kept (Mask.sub hm (by decide)) ?_
    | with_reducible refine Kept.ite ?_ ?_
    | (extract_lets -underBinder +onlyGivenNames x; subst x)
    | split
    | dsimp only

theorem State.readAt_kept {m : Nat} {s0 s : State} {c : Nat} {w : Nat} {off : Nat} {n : Nat} (hm : 0x40 &&& m = 0x40) (h : Kept m s0 s) :
     VmRes.All (fun p => Kept m s0 p.2) (State.readAt s c w off n) := by
  have hdef : @State.readAt = @State.readAt := rfl
  conv at hdef => rhs; delta State.readAt
  rw [congrFun (congrFun (congrFun (congrFun (congrFun hdef s) c) w) off) n]; clear hdef
  repeat' first
    | with_reducible assumption
    | with_reducible refine State.vread_kept (Mask.sub hm (by decide)) ?_
    | with_reducible refine VmRes.All.okPair ?_
    | with_reducible exact VmRes.All.wait_
    | with_reducible exact VmRes.All.hold_
    | with_reducible exact VmRes.All.bad_
    | with_reducible refine VmRes.All.use0 (by assumption) ?_
    | with_reducible refine VmRes.All.use1 (by assumption) ?_
    | with_reducible refine Kept.ite ?_ ?_
    | with_reducible refine Kept.iteSnd ?_ ?_
    | with_reducible refine Kept.iteFst ?_ ?_
    | (extract_lets -underBinder +onlyGivenNames x; subst x)
    | split
    | dsimp only

theorem State.linkRead_kept {m : Nat} {s0 s : State} {c : Nat} {w : Nat} {off : Nat} {n : Nat} {go : List Byte → State → State} (hm : 0xfef &&& m = 0xfef) (h : Kept m s0 s) (h_go : ∀ a0 a1, Kept m s0 a1 → Kept m s0 (go a0 a1)) :
     Kept m s0 (State.linkRead s c w off n go) := by
  have hdef : @State.linkRead = @State.linkRead := rfl
  conv at hdef => rhs; delta State.linkRead
  rw [congrFun (congrFun (congrFun (congrFun (congrFun (congrFun hdef s) c) w) off) n) go]; clear hdef
  repeat' first
    | with_reducible assumption
    | with_reducible refine State.readAt_kept (Mask.sub hm (by decide)) ?_
    | with_reducible refine State.want_kept (Mask.sub hm (by decide)) ?_
    | with_reducible refine State.memFault_kept (Mask.sub hm (by decide)) ?_
    | with_reducible refine h_go _ _ ?_
    | with_reducible refine VmRes.All.use0 (by assumption) ?_
    | with_reducible refine VmRes.All.use1 (by assumption) ?_
    | with_reducible refine Kept.ite ?_ ?_
    | with_reducible refine Kept.iteSnd ?_ ?_
    | with_reducible refine Kept.iteFst ?_ ?_
    | (extract_lets -underBinder +onlyGivenNames x; subst x)
    | split
    | dsimp only

theorem State.encChunk_kept {m : Nat} {s0 s : State} {c : Nat} {e : LinkEntry} {chunk : Nat} {vs : List Num} (hm : 0x100c7 &&& m = 0x100c7) (h : Kept m s0 s) :
     Kept m s0 (State.encChunk s c e chunk vs).2 := by
  have hdef : @State.encChunk = @State.encChunk := rfl
  conv at hdef => rhs; delta State.encChunk
  rw [congrFun (congrFun (congrFun (congrFun (congrFun hdef s) c) e) chunk) vs]; clear hdef
  repeat' first
    | with_reducible assumption
    | with_reducible refine State.encBlocks_kept (Mask.sub hm (by decide)) ?_
    | with_reducible refine Kept.getD_ ?_ ?_
    | with_reducible refine Kept.ofPair (by assumption) ?_
    | with_reducible refine Kept.ite ?_ ?_
    | with_reducible refine Kept.iteSnd ?_ ?_
    | with_reducible refine Kept.iteFst ?_ ?_
    | (extract_lets -underBinder +onlyGivenNames x; subst x)
    | split
    | dsimp only

theorem State.landAt_kept {m : Nat} {s0 s : State} {c : Nat} {e : LinkEntry} {pos : Nat} {bs : List Byte} (hm : 0x1ce &&& m = 0x1ce) (h : Kept m s0 s) :
     CollRes.All (Kept m s0) (State.landAt s c e pos bs) := by
  have hdef : @State.landAt = @State.landAt := rfl
  conv at hdef => rhs; delta State.landAt
  rw [congrFun (congrFun (congrFun (congrFun (congrFun hdef s) c) e) pos) bs]; clear hdef
  repeat' first
    | with_reducible assumption
    | with_reducible refine State.vwrite_kept (Mask.sub hm (by decide)) ?_
    | with_reducible refine State.winWritten_kept (Mask.sub hm (by decide)) ?_
    | with_reducible refine State.want_kept (Mask.sub hm (by decide)) ?_
    | with_reducible refine State.modAu_kept (Mask.sub hm (by decide)) ?_
    | with_reducible refine CollRes.All.ok_ ?_
    | with_reducible refine CollRes.All.later_ ?_
    | with_reducible refine CollRes.All.fail_
    | with_reducible refine VmRes.All.use0 (by assumption) ?_
    | with_reducible refine VmRes.All.use1 (by assumption) ?_
    | with_reducible refine Kept.ite ?_ ?_
    | (extract_lets -underBinder +onlyGivenNames x; subst x)
    | split
    | dsimp only

theorem State.outbox_kept {m : Nat} {s0 s : State} {c : Nat} {i : Nat} {phase : Nat} {k : Nat} {bs : List Byte} (hm : 0x40 &&& m = 0x40) (h : Kept m s0 s) :
     Kept m s0 (State.outbox s c i phase k bs) := by
  have hdef : @State.outbox = @State.outbox := rfl
  conv at hdef => rhs; delta State.outbox
  rw [congrFun (congrFun (congrFun (congrFun (congrFun (congrFun hdef s) c) i) phase) k) bs]; clear hdef
  repeat' first
    | with_reducible assumption
    | with_reducible refine State.modEntry_kept (Mask.sub hm (by decide)) ?_
    | with_reducible refine Kept.ite ?_ ?_
    | (extract_lets -underBinder +onlyGivenNames x; subst x)
    | split
    | dsimp only

theorem State.landChunk_kept {m : Nat} {s0 s : State} {c : Nat} {i : Nat} {e : LinkEntry} {k : Nat} {pos : Nat} {bs : List Byte} (hm : 0x1ce &&& m = 0x1ce) (h : Kept m s0 s) :
     CollRes.All (Kept m s0) (State.landChunk s c i e k pos bs) := by
  have hdef : @State.landChunk = @State.landChunk := rfl
  conv at hdef => rhs; delta State.landChunk
  rw [congrFun (congrFun (congrFun (congrFun (congrFun (congrFun (congrFun hdef s) c) i) e) k) pos) bs]; clear hdef
  repeat' first
    | with_reducible assumption
    | with_reducible refine State.landAt_kept (Mask.sub hm (by decide)) ?_
    | with_reducible refine State.modEntry_kept (Mask.sub hm (by decide)) ?_
    | with_reducible refine CollRes.All.ok_ ?_
    | with_reducible refine CollRes.All.later_ ?_
    | with_reducible refine CollRes.All.fail_
    | with_reducible refine CollRes.All.use0 (by assumption) ?_
    | with_reducible refine CollRes.All.use1 (by assumption) ?_
    | with_reducible refine Kept.ite ?_ ?_
    | (extract_lets -underBinder +onlyGivenNames x; subst x)
    | split
    | dsimp only

theorem State.ownerLands_kept {m : Nat} {s0 s : State} {c : Nat} {i : Nat} {e : LinkEntry} {g : Group} {k : Nat} {vs : List Num} (hm : 0x101cf &&& m = 0x101cf) (h : Kept m s0 s) :
     CollRes.All (Kept m s0) (State.ownerLands s c i e g k vs) := by
  have hdef : @State.ownerLands = @State.ownerLands := rfl
  conv at hdef => rhs; delta State.ownerLands
  rw [congrFun (congrFun (congrFun (congrFun (congrFun (congrFun (congrFun hdef s) c) i) e) g) k) vs]; clear hdef
  repeat' first
    | with_reducible assumption
    | with_reducible refine State.landChunk_kept (Mask.sub hm (by decide)) ?_
    | with_reducible refine State.outbox_kept (Mask.sub hm (by decide)) ?_
    | with_reducible refine State.encChunk_kept (Mask.sub hm (by decide)) ?_
    | with_reducible refine CollRes.All.ok_ ?_
    | with_reducible refine CollRes.All.later_ ?_
    | with_reducible refine CollRes.All.fail_
    | with_reducible refine CollRes.All.use0 (by assumption) ?_
    | with_reducible refine CollRes.All.use1 (by assumption) ?_
    | with_reducible refine Kept.ofPair (by assumption) ?_
    | with_reducible refine Kept.ite ?_ ?_
    | with_reducible refine Kept.iteSnd ?_ ?_
    | with_reducible refine Kept.iteFst ?_ ?_
    | (extract_lets -underBinder +onlyGivenNames x; subst x)
    | split
    | dsimp only

theorem State.reduceWith_kept {m : Nat} {s0 s : State} {c : Nat} {i : Nat} {e : LinkEntry} {g : Group} {k : Nat} {own : List Byte} {part : Option (List Byte)} (hm : 0x101cf &&& m = 0x101cf) (h : Kept m s0 s) :
     CollRes.All (Kept m s0) (State.reduceWith s c i e g k own part) := by
  have hdef : @State.reduceWith = @State.reduceWith := rfl
  conv at hdef => rhs; delta State.reduceWith
  rw [congrFun (congrFun (congrFun (congrFun (congrFun (congrFun (congrFun (congrFun hdef s) c) i) e) g) k) own) part]; clear hdef
  repeat' first
    | with_reducible assumption
    | with_reducible refine State.ownerLands_kept (Mask.sub hm (by decide)) ?_
    | with_reducible refine State.outbox_kept (Mask.sub hm (by decide)) ?_
    | with_reducible refine State.encChunk_kept (Mask.sub hm (by decide)) ?_
    | with_reducible refine CollRes.All.ok_ ?_
    | with_reducible refine CollRes.All.later_ ?_
    | with_reducible refine CollRes.All.fail_
    | with_reducible refine CollRes.All.use0 (by assumption) ?_
    | with_reducible refine CollRes.All.use1 (by assumption) ?_
    | with_reducible refine Kept.ofPair (by assumption) ?_
    | with_reducible refine Kept.ite ?_ ?_
    | with_reducible refine Kept.iteSnd ?_ ?_
    | with_reducible refine Kept.iteFst ?_ ?_
    | (extract_lets -underBinder +onlyGivenNames x; subst x)
    | split
    | dsimp only

theorem State.startStepEnd_kept {m : Nat} {s0 s : State} {c : Nat} {i : Nat} {e : LinkEntry} {g : Group} (hm : 0x40 &&& m = 0x40) (h : Kept m s0 s) :
     Kept m s0 (State.startStepEnd s c i e g) := by
  have hdef : @State.startStepEnd = @State.startStepEnd := rfl
  conv at hdef => rhs; delta State.startStepEnd
  rw [congrFun (congrFun (congrFun (congrFun (congrFun hdef s) c) i) e) g]; clear hdef
  repeat' first
    | with_reducible assumption
    | with_reducible refine State.modEntry_kept (Mask.sub hm (by decide)) ?_
    | with_reducible refine Kept.foldl (fun _ _ _ => ?_) _ ?_
    | with_reducible refine Kept.ite ?_ ?_
    | (extract_lets -underBinder +onlyGivenNames x; subst x)
    | split
    | dsimp only

theorem State.applyMerged_kept {m : Nat} {s0 s : State} {c : Nat} {e : LinkEntry} {cs : List (List Byte)} {j : Nat} (hm : 0xc7 &&& m = 0xc7) (h : Kept m s0 s) :
     Kept m s0 (State.applyMerged s c e cs j) := by
  have hdef : @State.applyMerged = @State.applyMerged := rfl
  conv at hdef => rhs; delta State.applyMerged
  rw [congrFun (congrFun (congrFun (congrFun (congrFun hdef s) c) e) cs) j]; clear hdef
  repeat' first
    | with_reducible assumption
    | with_reducible refine State.vpoke_kept (Mask.sub hm (by decide)) ?_
    | with_reducible refine State.modCtx_kept (Mask.sub hm (by decide)) ?_
    | with_reducible refine Kept.foldl (fun _ _ _ => ?_) _ ?_
    | with_reducible refine Kept.ite ?_ ?_
    | (extract_lets -underBinder +onlyGivenNames x; subst x)
    | split
    | dsimp only

theorem execStepEndExchange_kept {m : Nat} {s0 s : State} {c : CtxId} (hm : 0x9ef &&& m = 0x9ef) (h : Kept m s0 s) :
     OutKept m s0 (execStepEndExchange c s) := by
  have hdef : @execStepEndExchange = @execStepEndExchange := rfl
  conv at hdef => rhs; delta execStepEndExchange
  rw [congrFun (congrFun hdef c) s]; clear hdef
  repeat' first
    | with_reducible assumption
    | with_reducible refine State.applyMerged_kept (Mask.sub hm (by decide)) ?_
    | with_reducible refine State.endEntry_kept (Mask.sub hm (by decide)) ?_
    | with_reducible refine State.modCtx_kept (Mask.sub hm (by decide)) ?_
    | with_reducible refine Kept.foldl (fun _ _ _ => ?_) _ ?_
    | with_reducible refine OutKept.next ?_
    | with_reducible refine Kept.ite ?_ ?_
    | (extract_lets -underBinder +onlyGivenNames x; subst x)
    | split
    | dsimp only

theorem State.flushOne_kept {m : Nat} {s0 s : State} {c : Nat} {i : Nat} {e : LinkEntry} {g : Group} (hm : 0x148 &&& m = 0x148) (h : Kept m s0 s) :
     Kept m s0 (State.flushOne s c i e g) := by
  have hdef : @State.flushOne = @State.flushOne := rfl
  conv at hdef => rhs; delta State.flushOne
  rw [congrFun (congrFun (congrFun (congrFun (congrFun hdef s) c) i) e) g]; clear hdef
  repeat' first
    | with_reducible assumption
    | with_reducible refine State.sendTxn_kept (Mask.sub hm (by decide)) ?_
    | with_reducible refine State.modEntry_kept (Mask.sub hm (by decide)) ?_
    | with_reducible refine Kept.getD_ ?_ ?_
    | with_reducible refine SendRes.All.use0 (by assumption) ?_
    | with_reducible refine SendRes.All.use1 (by assumption) ?_
    | with_reducible refine Kept.ite ?_ ?_
    | (extract_lets -underBinder +onlyGivenNames x; subst x)
    | split
    | dsimp only

theorem State.collDo_kept {m : Nat} {s0 s : State} {c : Nat} {i : Nat} {k : Nat} {r : CollRes} {next : State → State} (hm : 0x40 &&& m = 0x40) (h : Kept m s0 s) (h_r : CollRes.All (Kept m s0) r) (h_next : ∀ a0, Kept m s0 a0 → Kept m s0 (next a0)) :
     Kept m s0 (State.collDo s c i k r next) := by
  have hdef : @State.collDo = @State.collDo := rfl
  conv at hdef => rhs; delta State.collDo
  rw [congrFun (congrFun (congrFun (congrFun (congrFun (congrFun hdef s) c) i) k) r) next]; clear hdef
  repeat' first
    | with_reducible assumption
    | with_reducible refine State.modEntry_kept (Mask.sub hm (by decide)) ?_
    | with_reducible refine h_next _ ?_
    | exact h_r
    | with_reducible refine Kept.ite ?_ ?_
    | (extract_lets -underBinder +onlyGivenNames x; subst x)
    | split
    | dsimp only

theorem State.supplied_kept {m : Nat} {s0 s : State} {c : Nat} {i : Nat} {e : LinkEntry} {g : Group} {k : Nat} {own : List Byte} (hm : 0x101cf &&& m = 0x101cf) (h : Kept m s0 s) :
     CollRes.All (Kept m s0) (State.supplied s c i e g k own) := by
  have hdef : @State.supplied = @State.supplied := rfl
  conv at hdef => rhs; delta State.supplied
  rw [congrFun (congrFun (congrFun (congrFun (congrFun (congrFun (congrFun hdef s) c) i) e) g) k) own]; clear hdef
  repeat' first
    | with_reducible assumption
    | with_reducible refine State.reduceWith_kept (Mask.sub hm (by decide)) ?_
    | with_reducible refine State.ownerLands_kept (Mask.sub hm (by decide)) ?_
    | with_reducible refine State.modEntry_kept (Mask.sub hm (by decide)) ?_
    | with_reducible refine CollRes.All.ok_ ?_
    | with_reducible refine CollRes.All.later_ ?_
    | with_reducible refine CollRes.All.fail_
    | with_reducible refine CollRes.All.use0 (by assumption) ?_
    | with_reducible refine CollRes.All.use1 (by assumption) ?_
    | with_reducible refine Kept.ite ?_ ?_
    | (extract_lets -underBinder +onlyGivenNames x; subst x)
    | split
    | dsimp only

theorem State.collSupply_kept {m : Nat} {s0 s : State} {c : Nat} {i : Nat} {e : LinkEntry} {g : Group} (hm : 0x10fef &&& m = 0x10fef) (h : Kept m s0 s) :
     Kept m s0 (State.collSupply s c i e g) := by
  have hdef : @State.collSupply = @State.collSupply := rfl
  conv at hdef => rhs; delta State.collSupply
  rw [congrFun (congrFun (congrFun (congrFun (congrFun hdef s) c) i) e) g]; clear hdef
  repeat' first
    | with_reducible assumption
    | with_reducible refine State.supplied_kept (Mask.sub hm (by decide)) ?_
    | with_reducible refine State.collDo_kept (Mask.sub hm (by decide)) ?_ ?_ (fun _ _ => ?_)
    | with_reducible refine State.linkRead_kept (Mask.sub hm (by decide)) ?_ (fun _ _ _ => ?_)
    | with_reducible refine State.progress_kept (Mask.sub hm (by decide)) ?_
    | with_reducible refine State.modEntry_kept (Mask.sub hm (by decide)) ?_
    | with_reducible refine State.putAu_kept (Mask.sub hm (by decide)) ?_
    | with_reducible refine CollRes.All.use0 (by assumption) ?_
    | with_reducible refine CollRes.All.use1 (by assumption) ?_
    | with_reducible refine Kept.ite ?_ ?_
    | (extract_lets -underBinder +onlyGivenNames x; subst x)
    | split
    | dsimp only

theorem State.collGo_kept {m : Nat} {s0 s : State} {c : Nat} {i : Nat} {e : LinkEntry} (hm : 0x10fef &&& m = 0x10fef) (h : Kept m s0 s) :
     Kept m s0 (State.collGo s c i e) := by
  have hdef : @State.collGo = @State.collGo := rfl
  conv at hdef => rhs; delta State.collGo
  rw [congrFun (congrFun (congrFun (congrFun hdef s) c) i) e]; clear hdef
  repeat' first
    | with_reducible assumption
    | with_reducible refine State.collSupply_kept (Mask.sub hm (by decide)) ?_
    | with_reducible refine State.flushOne_kept (Mask.sub hm (by decide)) ?_
    | with_reducible refine Kept.ite ?_ ?_
    | (extract_lets -underBinder +onlyGivenNames x; subst x)
    | split
    | dsimp only

theorem State.takeChunk_kept {m : Nat} {s0 s : State} {c : Nat} {i : Nat} {e : LinkEntry} {g : Group} {phase : Nat} {k : Nat} {t : LTxn} (hm : 0x101cf &&& m = 0x101cf) (h : Kept m s0 s) :
     CollRes.All (Kept m s0) (State.takeChunk s c i e g phase k t) := by
  have hdef : @State.takeChunk = @State.takeChunk := rfl
  conv at hdef => rhs; delta State.takeChunk
  rw [congrFun (congrFun (congrFun (congrFun (congrFun (congrFun (congrFun (congrFun hdef s) c) i) e) g) phase) k) t]; clear hdef
  repeat' first
    | with_reducible assumption
    | with_reducible refine State.reduceWith_kept (Mask.sub hm (by decide)) ?_
    | with_reducible refine State.landChunk_kept (Mask.sub hm (by decide)) ?_
    | with_reducible refine State.outbox_kept (Mask.sub hm (by decide)) ?_
    | with_reducible refine State.readAt_kept (Mask.sub hm (by decide)) ?_
    | with_reducible refine State.modEntry_kept (Mask.sub hm (by decide)) ?_
    | with_reducible refine State.want_kept (Mask.sub hm (by decide)) ?_
    | with_reducible refine CollRes.All.ok_ ?_
    | with_reducible refine CollRes.All.later_ ?_
    | with_reducible refine CollRes.All.fail_
    | with_reducible refine CollRes.All.use0 (by assumption) ?_
    | with_reducible refine CollRes.All.use1 (by assumption) ?_
    | with_reducible refine VmRes.All.use0 (by assumption) ?_
    | with_reducible refine VmRes.All.use1 (by assumption) ?_
    | with_reducible refine Kept.ite ?_ ?_
    | with_reducible refine Kept.iteSnd ?_ ?_
    | with_reducible refine Kept.iteFst ?_ ?_
    | (extract_lets -underBinder +onlyGivenNames x; subst x)
    | split
    | dsimp only

theorem execCollChunkReceive_kept {m : Nat} {s0 s : State} {n : Nat} (hm : 0x109ef &&& m = 0x109ef) (h : Kept m s0 s) :
     OutKept m s0 (execCollChunkReceive n s) := by
  have hdef : @execCollChunkReceive = @execCollChunkReceive := rfl
  conv at hdef => rhs; delta execCollChunkReceive
  rw [congrFun (congrFun hdef n) s]; clear hdef
  repeat' first
    | with_reducible assumption
    | with_reducible refine State.takeChunk_kept (Mask.sub hm (by decide)) ?_
    | with_reducible refine State.takeInbox_kept (Mask.sub hm (by decide)) ?_
    | with_reducible refine State.answer__kept (Mask.sub hm (by decide)) ?_
    | with_reducible refine State.rememberTseq_kept (Mask.sub hm (by decide)) ?_
    | with_reducible refine State.modEntry_kept (Mask.sub hm (by decide)) ?_
    | with_reducible refine State.mboxFullEvent_kept (Mask.sub hm (by decide)) ?_
    | with_reducible refine State.progress_kept (Mask.sub hm (by decide)) ?_
    | with_reducible refine OutKept.next ?_
    | with_reducible refine CollRes.All.use0 (by assumption) ?_
    | with_reducible refine CollRes.All.use1 (by assumption) ?_
    | with_reducible refine Kept.ofSomePair (by assumption) ?_
    | with_reducible refine Kept.ofSomeSnd (by assumption) ?_
    | with_reducible refine Kept.ofSomeTriple (by assumption) ?_
    | with_reducible refine Kept.ite ?_ ?_
    | with_reducible refine Kept.iteSnd ?_ ?_
    | with_reducible refine Kept.iteFst ?_ ?_
    | (extract_lets -underBinder +onlyGivenNames x; subst x)
    | split
    | dsimp only

theorem execCollAbortReceive_kept {m : Nat} {s0 s : State} {n : Nat} (hm : 0x9ef &&& m = 0x9ef) (h : Kept m s0 s) :
     OutKept m s0 (execCollAbortReceive n s) := by
  have hdef : @execCollAbortReceive = @execCollAbortReceive := rfl
  conv at hdef => rhs; delta execCollAbortReceive
  rw [congrFun (congrFun hdef n) s]; clear hdef
  repeat' first
    | with_reducible assumption
    | with_reducible refine State.endEntry_kept (Mask.sub hm (by decide)) ?_
    | with_reducible refine State.takeInbox_kept (Mask.sub hm (by decide)) ?_
    | with_reducible refine State.modCtx_kept (Mask.sub hm (by decide)) ?_
    | with_reducible refine OutKept.next ?_
    | with_reducible refine Kept.ofSomePair (by assumption) ?_
    | with_reducible refine Kept.ofSomeSnd (by assumption) ?_
    | with_reducible refine Kept.ofSomeTriple (by assumption) ?_
    | with_reducible refine Kept.ite ?_ ?_
    | with_reducible refine Kept.iteSnd ?_ ?_
    | with_reducible refine Kept.iteFst ?_ ?_
    | (extract_lets -underBinder +onlyGivenNames x; subst x)
    | split
    | dsimp only

theorem execCollTimeout_kept {m : Nat} {s0 s : State} {c : CtxId} {i : Nat} {t : Nat} (hm : 0x89ef &&& m = 0x89ef) (h : Kept m s0 s) :
     OutKept m s0 (execCollTimeout c i t s) := by
  have hdef : @execCollTimeout = @execCollTimeout := rfl
  conv at hdef => rhs; delta execCollTimeout
  rw [congrFun (congrFun (congrFun (congrFun hdef c) i) t) s]; clear hdef
  repeat' first
    | with_reducible assumption
    | with_reducible refine State.endEntry_kept (Mask.sub hm (by decide)) ?_
    | with_reducible refine State.at_kept (Mask.sub hm (by decide)) ?_
    | with_reducible refine OutKept.next ?_
    | with_reducible refine Kept.ite ?_ ?_
    | (extract_lets -underBinder +onlyGivenNames x; subst x)
    | split
    | dsimp only

theorem execLinkWorkPost_kept {m : Nat} {s0 s : State} {c : CtxId} {i : Nat} (hm : 0x8ef &&& m = 0x8ef) (h : Kept m s0 s) :
     OutKept m s0 (execLinkWorkPost c i s) := by
  have hdef : @execLinkWorkPost = @execLinkWorkPost := rfl
  conv at hdef => rhs; delta execLinkWorkPost
  rw [congrFun (congrFun (congrFun hdef c) i) s]; clear hdef
  repeat' first
    | with_reducible assumption
    | with_reducible refine State.hubNeeds_kept (Mask.sub hm (by decide)) ?_ (fun _ _ => ?_)
    | with_reducible refine State.raise_kept (Mask.sub hm (by decide)) ?_
    | with_reducible refine State.setFld_kept (Mask.sub hm (by decide)) ?_
    | with_reducible refine State.vpoke_kept (Mask.sub hm (by decide)) ?_
    | with_reducible refine State.modCtx_kept (Mask.sub hm (by decide)) ?_
    | with_reducible refine OutKept.next ?_
    | with_reducible refine Kept.ite ?_ ?_
    | (extract_lets -underBinder +onlyGivenNames x; subst x)
    | split
    | dsimp only

theorem State.startEntry_kept {m : Nat} {s0 s : State} {c : Nat} {i : Nat} {va : Nat} (hm : 0x9ef &&& m = 0x9ef) (h : Kept m s0 s) :
     Kept m s0 (State.startEntry s c i va) := by
  have hdef : @State.startEntry = @State.startEntry := rfl
  conv at hdef => rhs; delta State.startEntry
  rw [congrFun (congrFun (congrFun (congrFun hdef s) c) i) va]; clear hdef
  repeat' first
    | with_reducible assumption
    | with_reducible refine State.startStepEnd_kept (Mask.sub hm (by decide)) ?_
    | with_reducible refine State.endEntry_kept (Mask.sub hm (by decide)) ?_
    | with_reducible refine State.modCtx_kept (Mask.sub hm (by decide)) ?_
    | with_reducible refine State.vpoke_kept (Mask.sub hm (by decide)) ?_
    | with_reducible refine State.progress_kept (Mask.sub hm (by decide)) ?_
    | with_reducible refine State.setFld_kept (Mask.sub hm (by decide)) ?_
    | with_reducible refine Kept.ite ?_ ?_
    | (extract_lets -underBinder +onlyGivenNames x; subst x)
    | split
    | dsimp only

theorem State.entryGo_kept {m : Nat} {s0 s : State} {c : Nat} {i : Nat} {e : LinkEntry} (hm : 0xfef &&& m = 0xfef) (h : Kept m s0 s) :
     Kept m s0 (State.entryGo s c i e) := by
  have hdef : @State.entryGo = @State.entryGo := rfl
  conv at hdef => rhs; delta State.entryGo
  rw [congrFun (congrFun (congrFun (congrFun hdef s) c) i) e]; clear hdef
  repeat' first
    | with_reducible assumption
    | with_reducible refine State.linkRead_kept (Mask.sub hm (by decide)) ?_ (fun _ _ _ => ?_)
    | with_reducible refine State.progress_kept (Mask.sub hm (by decide)) ?_
    | with_reducible refine State.modEntry_kept (Mask.sub hm (by decide)) ?_
    | with_reducible refine State.sendTxn_kept (Mask.sub hm (by decide)) ?_
    | with_reducible refine State.putAu_kept (Mask.sub hm (by decide)) ?_
    | with_reducible refine SendRes.All.use0 (by assumption) ?_
    | with_reducible refine SendRes.All.use1 (by assumption) ?_
    | with_reducible refine Kept.ite ?_ ?_
    | (extract_lets -underBinder +onlyGivenNames x; subst x)
    | split
    | with_reducible refine Kept.mem (Mask.sub hm (by decide)) ?_ _ rfl
    | dsimp only

theorem execLinkWorkStart_kept {m : Nat} {s0 s : State} {c : CtxId} {i : Nat} (hm : 0x10fef &&& m = 0x10fef) (h : Kept m s0 s) :
     OutKept m s0 (execLinkWorkStart c i s) := by
  have hdef : @execLinkWorkStart = @execLinkWorkStart := rfl
  conv at hdef => rhs; delta execLinkWorkStart
  rw [congrFun (congrFun (congrFun hdef c) i) s]; clear hdef
  repeat' first
    | with_reducible assumption
    | with_reducible refine State.entryGo_kept (Mask.sub hm (by decide)) ?_
    | with_reducible refine State.startEntry_kept (Mask.sub hm (by decide)) ?_
    | with_reducible refine State.collGo_kept (Mask.sub hm (by decide)) ?_
    | with_reducible refine State.hubNeeds_kept (Mask.sub hm (by decide)) ?_ (fun _ _ => ?_)
    | with_reducible refine State.setFld_kept (Mask.sub hm (by decide)) ?_
    | with_reducible refine State.modCtx_kept (Mask.sub hm (by decide)) ?_
    | with_reducible refine OutKept.next ?_
    | with_reducible refine Kept.ite ?_ ?_
    | (extract_lets -underBinder +onlyGivenNames x; subst x)
    | split
    | dsimp only

theorem execLinkWorkComplete_kept {m : Nat} {s0 s : State} {c : CtxId} {i : Nat} (hm : 0x9ef &&& m = 0x9ef) (h : Kept m s0 s) :
     OutKept m s0 (execLinkWorkComplete c i s) := by
  have hdef : @execLinkWorkComplete = @execLinkWorkComplete := rfl
  conv at hdef => rhs; delta execLinkWorkComplete
  rw [congrFun (congrFun (congrFun hdef c) i) s]; clear hdef
  repeat' first
    | with_reducible assumption
    | with_reducible refine State.endEntry_kept (Mask.sub hm (by decide)) ?_
    | with_reducible refine OutKept.next ?_
    | with_reducible refine Kept.ite ?_ ?_
    | (extract_lets -underBinder +onlyGivenNames x; subst x)
    | split
    | dsimp only

end Sys2Proof.Machine
end

