-- ==== Sys2Proof/Laws/KeptRoller.lean ====
section
/-!
SUPPORT. What the operations of Sys2Proof/Machine/Roller.lean keep (Laws/Kept.lean).
-/
namespace Sys2Proof.Machine

theorem State.acceptRoller_kept {m : Nat} {s0 s : State} {n : Nat} {c : Nat} {l : Nat} {op : ActiveOp} {d : List Byte} {entries : List (List Byte)} (hm : 0xc4 &&& m = 0xc4) (h : Kept m s0 s) :
     Kept m s0 (State.acceptRoller s n c l op d entries) := by
  have hdef : @State.acceptRoller = @State.acceptRoller := rfl
  conv at hdef => rhs; delta State.acceptRoller
  rw [congrFun (congrFun (congrFun (congrFun (congrFun (congrFun (congrFun hdef s) n) c) l) op) d) entries]; clear hdef
  repeat' first
    | with_reducible assumption
    | with_reducible refine State.progress_kept (Mask.sub hm (by decide)) ?_
    | with_reducible refine State.endOp_kept (Mask.sub hm (by decide)) ?_
    | with_reducible refine Kept.getD_ ?_ ?_
    | with_reducible refine Kept.ite ?_ ?_
    | (extract_lets -underBinder +onlyGivenNames x; subst x)
    | split
    | with_reducible refine Kept.mem (Mask.sub hm (by decide)) ?_ _ rfl
    | dsimp only

theorem State.rollerGo_kept {m : Nat} {s0 s : State} {n : Nat} {c : Nat} {l : Nat} {op : ActiveOp} (hm : 0xfef &&& m = 0xfef) (h : Kept m s0 s) :
     Kept m s0 (State.rollerGo s n c l op) := by
  have hdef : @State.rollerGo = @State.rollerGo := rfl
  conv at hdef => rhs; delta State.rollerGo
  rw [congrFun (congrFun (congrFun (congrFun (congrFun hdef s) n) c) l) op]; clear hdef
  repeat' first
    | with_reducible assumption
    | with_reducible refine State.acceptRoller_kept (Mask.sub hm (by decide)) ?_
    | with_reducible refine State.withDesc_kept (Mask.sub hm (by decide)) ?_ (fun _ _ _ => ?_)
    | with_reducible refine State.memFault_kept (Mask.sub hm (by decide)) ?_
    | with_reducible refine State.vread_kept (Mask.sub hm (by decide)) ?_
    | with_reducible refine State.want_kept (Mask.sub hm (by decide)) ?_
    | with_reducible refine VmRes.All.use0 (by assumption) ?_
    | with_reducible refine VmRes.All.use1 (by assumption) ?_
    | with_reducible refine Kept.ite ?_ ?_
    | with_reducible refine Kept.iteSnd ?_ ?_
    | with_reducible refine Kept.iteFst ?_ ?_
    | (extract_lets -underBinder +onlyGivenNames x; subst x)
    | split
    | dsimp only

theorem execRoller_kept {m : Nat} {s0 s : State} {a : AuId} (hm : 0xfef &&& m = 0xfef) (h : Kept m s0 s) :
     OutKept m s0 (execRoller a s) := by
  have hdef : @execRoller = @execRoller := rfl
  conv at hdef => rhs; delta execRoller
  rw [congrFun (congrFun hdef a) s]; clear hdef
  repeat' first
    | with_reducible assumption
    | with_reducible refine State.rollerGo_kept (Mask.sub hm (by decide)) ?_
    | with_reducible refine State.startMove_kept (Mask.sub hm (by decide)) ?_
    | with_reducible refine OutKept.next ?_
    | with_reducible refine Kept.ite ?_ ?_
    | (extract_lets -underBinder +onlyGivenNames x; subst x)
    | split
    | dsimp only

theorem State.rollLook_kept {m : Nat} {s0 s : State} {c : Nat} {e : MemEnd} {n : Nat} {write : Bool} (hm : 0xfef &&& m = 0xfef) (h : Kept m s0 s) :
     AllO (Kept m s0) (State.rollLook s c e n write) := by
  have hdef : @State.rollLook = @State.rollLook := rfl
  conv at hdef => rhs; delta State.rollLook
  rw [congrFun (congrFun (congrFun (congrFun (congrFun hdef s) c) e) n) write]; clear hdef
  repeat' first
    | with_reducible assumption
    | with_reducible refine State.want_kept (Mask.sub hm (by decide)) ?_
    | with_reducible refine State.memFault_kept (Mask.sub hm (by decide)) ?_
    | with_reducible exact AllO.none_
    | with_reducible refine AllO.some_ ?_
    | with_reducible refine Kept.ite ?_ ?_
    | (extract_lets -underBinder +onlyGivenNames x; subst x)
    | split
    | dsimp only

theorem State.rollSeg_kept {m : Nat} {s0 s : State} {id : Nat} {r : Nat} {x : RollerXfer} {v : Rcv} {g : Nat × Nat × Nat} (hm : 0xfef &&& m = 0xfef) (h : Kept m s0 s) :
     RollRes.All (Kept m s0) (State.rollSeg s id r x v g) := by
  have hdef : @State.rollSeg = @State.rollSeg := rfl
  conv at hdef => rhs; delta State.rollSeg
  rw [congrFun (congrFun (congrFun (congrFun (congrFun (congrFun hdef s) id) r) x) v) g]; clear hdef
  repeat' first
    | with_reducible assumption
    | with_reducible refine State.rollLook_kept (Mask.sub hm (by decide)) ?_
    | with_reducible refine State.modRcv_kept (Mask.sub hm (by decide)) ?_
    | with_reducible refine State.issueSeg_kept (Mask.sub hm (by decide)) ?_
    | with_reducible refine State.getEnd_kept (Mask.sub hm (by decide)) ?_
    | with_reducible refine State.sendTxn_kept (Mask.sub hm (by decide)) ?_
    | with_reducible refine RollRes.All.ok_ ?_
    | with_reducible refine RollRes.All.wait_ ?_
    | with_reducible refine Kept.ofSome (by assumption) ?_
    | with_reducible refine Kept.ofPair (by assumption) ?_
    | with_reducible refine SendRes.All.use0 (by assumption) ?_
    | with_reducible refine SendRes.All.use1 (by assumption) ?_
    | with_reducible refine Kept.ite ?_ ?_
    | with_reducible refine Kept.iteSnd ?_ ?_
    | with_reducible refine Kept.iteFst ?_ ?_
    | (extract_lets -underBinder +onlyGivenNames x; subst x)
    | split
    | dsimp only

theorem State.rollSegs_kept {m : Nat} {s0 s : State} {id : Nat} {x : RollerXfer} {g : Nat × Nat × Nat} {x1 : List (Nat × Rcv)} (hm : 0xfef &&& m = 0xfef) (h : Kept m s0 s) :
     RollRes.All (Kept m s0) (State.rollSegs s id x g x1) := by
  fun_induction State.rollSegs s id x g x1 <;> (try dsimp only at *)
  repeat' first
    | with_reducible assumption
    | with_reducible apply_assumption
    | with_reducible refine State.rollSeg_kept (Mask.sub hm (by decide)) ?_
    | with_reducible refine RollRes.All.ok_ ?_
    | with_reducible refine RollRes.All.wait_ ?_
    | with_reducible refine RollRes.All.use0 (by assumption) ?_
    | with_reducible refine RollRes.All.use1 (by assumption) ?_
    | with_reducible refine Kept.ite ?_ ?_
    | (extract_lets -underBinder +onlyGivenNames x; subst x)
    | split
    | dsimp only

theorem State.rollReplay_kept {m : Nat} {s0 s : State} {id : Nat} {x : RollerXfer} {x1 : List (Nat × Rcv)} (hm : 0xfef &&& m = 0xfef) (h : Kept m s0 s) :
     Kept m s0 (State.rollReplay s id x x1) := by
  fun_induction State.rollReplay s id x x1 <;> (try dsimp only at *)
  repeat' first
    | with_reducible assumption
    | with_reducible apply_assumption
    | with_reducible refine State.rollSeg_kept (Mask.sub hm (by decide)) ?_
    | with_reducible refine RollRes.All.use0 (by assumption) ?_
    | with_reducible refine RollRes.All.use1 (by assumption) ?_
    | with_reducible refine Kept.ite ?_ ?_
    | (extract_lets -underBinder +onlyGivenNames x; subst x)
    | split
    | dsimp only

theorem State.rollCast_kept {m : Nat} {s0 s : State} {id : Nat} {x : RollerXfer} (hm : 0xfef &&& m = 0xfef) (h : Kept m s0 s) :
     Kept m s0 (State.rollCast s id x) := by
  have hdef : @State.rollCast = @State.rollCast := rfl
  conv at hdef => rhs; delta State.rollCast
  rw [congrFun (congrFun (congrFun hdef s) id) x]; clear hdef
  repeat' first
    | with_reducible assumption
    | with_reducible refine State.rollSegs_kept (Mask.sub hm (by decide)) ?_
    | with_reducible refine Kept.getD_ ?_ ?_
    | with_reducible refine RollRes.All.use0 (by assumption) ?_
    | with_reducible refine RollRes.All.use1 (by assumption) ?_
    | with_reducible refine Kept.ite ?_ ?_
    | (extract_lets -underBinder +onlyGivenNames x; subst x)
    | split
    | with_reducible refine Kept.mem (Mask.sub hm (by decide)) ?_ _ rfl
    | dsimp only

theorem execRollerSegmentIssue_kept {m : Nat} {s0 s : State} {id : Nat} (hm : 0xfef &&& m = 0xfef) (h : Kept m s0 s) :
     OutKept m s0 (execRollerSegmentIssue id s) := by
  have hdef : @execRollerSegmentIssue = @execRollerSegmentIssue := rfl
  conv at hdef => rhs; delta execRollerSegmentIssue
  rw [congrFun (congrFun hdef id) s]; clear hdef
  repeat' first
    | with_reducible assumption
    | with_reducible refine State.rollCast_kept (Mask.sub hm (by decide)) ?_
    | with_reducible refine State.rollReplay_kept (Mask.sub hm (by decide)) ?_
    | with_reducible refine State.progress_kept (Mask.sub hm (by decide)) ?_
    | with_reducible refine OutKept.next ?_
    | with_reducible refine Kept.ite ?_ ?_
    | (extract_lets -underBinder +onlyGivenNames x; subst x)
    | split
    | dsimp only

theorem execRollerDetach_kept {m : Nat} {s0 s : State} {id : Nat} {t : Nat} (hm : 0x882d &&& m = 0x882d) (h : Kept m s0 s) :
     OutKept m s0 (execRollerDetach id t s) := by
  have hdef : @execRollerDetach = @execRollerDetach := rfl
  conv at hdef => rhs; delta execRollerDetach
  rw [congrFun (congrFun (congrFun hdef id) t) s]; clear hdef
  repeat' first
    | with_reducible assumption
    | with_reducible refine State.at_kept (Mask.sub hm (by decide)) ?_
    | with_reducible refine State.raise_kept (Mask.sub hm (by decide)) ?_
    | with_reducible refine State.flagCount_kept (Mask.sub hm (by decide)) ?_
    | with_reducible refine State.modRcv_kept (Mask.sub hm (by decide)) ?_
    | with_reducible refine Kept.foldl (fun _ _ _ => ?_) _ ?_
    | with_reducible refine OutKept.next ?_
    | with_reducible refine Kept.getD_ ?_ ?_
    | with_reducible refine Kept.ite ?_ ?_
    | (extract_lets -underBinder +onlyGivenNames x; subst x)
    | split
    | with_reducible refine Kept.mem (Mask.sub hm (by decide)) ?_ _ rfl
    | dsimp only

theorem execRollerDelivery_kept {m : Nat} {s0 s : State} {id : Nat} {r : Nat} (hm : 0xcf &&& m = 0xcf) (h : Kept m s0 s) :
     OutKept m s0 (execRollerDelivery id r s) := by
  have hdef : @execRollerDelivery = @execRollerDelivery := rfl
  conv at hdef => rhs; delta execRollerDelivery
  rw [congrFun (congrFun (congrFun hdef id) r) s]; clear hdef
  repeat' first
    | with_reducible assumption
    | with_reducible refine State.hubNeeds_kept (Mask.sub hm (by decide)) ?_ (fun _ _ => ?_)
    | with_reducible refine State.putRcvStatus_kept (Mask.sub hm (by decide)) ?_
    | with_reducible refine State.modRcv_kept (Mask.sub hm (by decide)) ?_
    | with_reducible refine State.progress_kept (Mask.sub hm (by decide)) ?_
    | with_reducible refine State.deliverFlag_kept (Mask.sub hm (by decide)) ?_
    | with_reducible refine OutKept.next ?_
    | with_reducible refine Kept.ite ?_ ?_
    | (extract_lets -underBinder +onlyGivenNames x; subst x)
    | split
    | dsimp only

theorem execRollerRcvFailed_kept {m : Nat} {s0 s : State} {id : Nat} {r : Nat} (hm : 0x8ef &&& m = 0x8ef) (h : Kept m s0 s) :
     OutKept m s0 (execRollerRcvFailed id r s) := by
  have hdef : @execRollerRcvFailed = @execRollerRcvFailed := rfl
  conv at hdef => rhs; delta execRollerRcvFailed
  rw [congrFun (congrFun (congrFun hdef id) r) s]; clear hdef
  repeat' first
    | with_reducible assumption
    | with_reducible refine State.hubNeeds_kept (Mask.sub hm (by decide)) ?_ (fun _ _ => ?_)
    | with_reducible refine State.progress_kept (Mask.sub hm (by decide)) ?_
    | with_reducible refine State.failRcv_kept (Mask.sub hm (by decide)) ?_
    | with_reducible refine OutKept.next ?_
    | with_reducible refine AllO.bind_ ?_ (fun _ _ => ?_)
    | with_reducible refine Kept.ite ?_ ?_
    | (extract_lets -underBinder +onlyGivenNames x; subst x)
    | split
    | dsimp only

theorem execRollerComplete_kept {m : Nat} {s0 s : State} {id : Nat} (hm : 0x44 &&& m = 0x44) (h : Kept m s0 s) :
     OutKept m s0 (execRollerComplete id s) := by
  have hdef : @execRollerComplete = @execRollerComplete := rfl
  conv at hdef => rhs; delta execRollerComplete
  rw [congrFun (congrFun hdef id) s]; clear hdef
  repeat' first
    | with_reducible assumption
    | with_reducible refine State.progress_kept (Mask.sub hm (by decide)) ?_
    | with_reducible refine OutKept.next ?_
    | with_reducible refine Kept.ite ?_ ?_
    | (extract_lets -underBinder +onlyGivenNames x; subst x)
    | split
    | with_reducible refine Kept.mem (Mask.sub hm (by decide)) ?_ _ rfl
    | dsimp only

end Sys2Proof.Machine
end

