-- ==== Sys2Proof/Laws/KeptDust.lean ====
section
/-!
SUPPORT. What the operations of Sys2Proof/Machine/Dust.lean keep (Laws/Kept.lean).
-/
namespace Sys2Proof.Machine

theorem State.modSec_kept {m : Nat} {s0 s : State} {c : Nat} {f : Securing → Securing} (hm : 0x40 &&& m = 0x40) (h : Kept m s0 s) :
     Kept m s0 (State.modSec s c f) := by
  have hdef : @State.modSec = @State.modSec := rfl
  conv at hdef => rhs; delta State.modSec
  rw [congrFun (congrFun (congrFun hdef s) c) f]; clear hdef
  repeat' first
    | with_reducible assumption
    | with_reducible refine State.modDust_kept (Mask.sub hm (by decide)) ?_
    | with_reducible refine Kept.ite ?_ ?_
    | (extract_lets -underBinder +onlyGivenNames x; subst x)
    | split
    | dsimp only

theorem State.sendPiece_kept {m : Nat} {s0 s : State} {c : Nat} {t : Nat} {off : Nat} {bs : List Byte} (hm : 0x149 &&& m = 0x149) (h : Kept m s0 s) :
     AllO (Kept m s0) (State.sendPiece s c t off bs) := by
  have hdef : @State.sendPiece = @State.sendPiece := rfl
  conv at hdef => rhs; delta State.sendPiece
  rw [congrFun (congrFun (congrFun (congrFun (congrFun hdef s) c) t) off) bs]; clear hdef
  repeat' first
    | with_reducible assumption
    | with_reducible refine State.modSec_kept (Mask.sub hm (by decide)) ?_
    | with_reducible refine State.sendTxn_kept (Mask.sub hm (by decide)) ?_
    | with_reducible refine State.hostWrite_kept (Mask.sub hm (by decide)) ?_
    | with_reducible exact AllO.none_
    | with_reducible refine AllO.some_ ?_
    | with_reducible refine SendRes.All.use0 (by assumption) ?_
    | with_reducible refine SendRes.All.use1 (by assumption) ?_
    | with_reducible refine Kept.ite ?_ ?_
    | (extract_lets -underBinder +onlyGivenNames x; subst x)
    | split
    | dsimp only

theorem State.sendPieces_kept {m : Nat} {s0 s : State} {c : Nat} {t : Nat} {off : Nat} {n : Nat} {piece : State → Nat → List Byte} {x1 : Nat} (hm : 0x149 &&& m = 0x149) (h : Kept m s0 s) :
     Kept m s0 (State.sendPieces s c t off n piece x1) := by
  induction x1 generalizing s with
  | zero => rw [State.sendPieces]; exact h
  | succ n ih =>
    rw [State.sendPieces]
    repeat' first
      | with_reducible assumption
      | with_reducible refine ih ?_
      | with_reducible refine State.sendPiece_kept (Mask.sub hm (by decide)) ?_
      | with_reducible refine Kept.ofSome (by assumption) ?_
      | with_reducible refine Kept.ite ?_ ?_
      | (extract_lets -underBinder +onlyGivenNames x; subst x)
      | split
      | dsimp only

theorem State.tgtGo_kept {m : Nat} {s0 s : State} {c : Nat} {t : Nat} {x1 : Nat} (hm : 0x149 &&& m = 0x149) (h : Kept m s0 s) :
     Kept m s0 (State.tgtGo s c t x1) := by
  induction x1 generalizing s with
  | zero => rw [State.tgtGo]; exact h
  | succ n ih =>
    rw [State.tgtGo]
    repeat' first
      | with_reducible assumption
      | with_reducible refine ih ?_
      | with_reducible refine State.sendPieces_kept (Mask.sub hm (by decide)) ?_
      | with_reducible refine State.modSec_kept (Mask.sub hm (by decide)) ?_
      | with_reducible refine Kept.ite ?_ ?_
      | (extract_lets -underBinder +onlyGivenNames x; subst x)
      | split
      | dsimp only

theorem State.tgtsGo_kept {m : Nat} {s0 s : State} {c : Nat} (hm : 0x149 &&& m = 0x149) (h : Kept m s0 s) :
     Kept m s0 (State.tgtsGo s c) := by
  have hdef : @State.tgtsGo = @State.tgtsGo := rfl
  conv at hdef => rhs; delta State.tgtsGo
  rw [congrFun (congrFun hdef s) c]; clear hdef
  repeat' first
    | with_reducible assumption
    | with_reducible refine State.tgtGo_kept (Mask.sub hm (by decide)) ?_
    | with_reducible refine Kept.foldl (fun _ _ _ => ?_) _ ?_
    | with_reducible refine Kept.ite ?_ ?_
    | (extract_lets -underBinder +onlyGivenNames x; subst x)
    | split
    | dsimp only

theorem State.completeWhere_kept {m : Nat} {s0 s : State} {c : Nat} {op : Nat} {p : Cmd → Bool} {status : Nat} {result : Nat} {x1 : Nat} (hm : 0x849 &&& m = 0x849) (h : Kept m s0 s) :
     Kept m s0 (State.completeWhere s c op p status result x1) := by
  fun_induction State.completeWhere s c op p status result x1 <;> (try dsimp only at *)
  repeat' first
    | with_reducible assumption
    | with_reducible apply_assumption
    | with_reducible refine State.complete_kept (Mask.sub hm (by decide)) ?_
    | with_reducible refine Kept.ite ?_ ?_
    | (extract_lets -underBinder +onlyGivenNames x; subst x)
    | split
    | dsimp only

theorem State.phaseWhere_kept {m : Nat} {s0 s : State} {c : Nat} {op : Nat} {p : Cmd → Bool} {ph : CmdPhase} (hm : 0x40 &&& m = 0x40) (h : Kept m s0 s) :
     Kept m s0 (State.phaseWhere s c op p ph) := by
  have hdef : @State.phaseWhere = @State.phaseWhere := rfl
  conv at hdef => rhs; delta State.phaseWhere
  rw [congrFun (congrFun (congrFun (congrFun (congrFun hdef s) c) op) p) ph]; clear hdef
  repeat' first
    | with_reducible assumption
    | with_reducible refine State.modCtx_kept (Mask.sub hm (by decide)) ?_
    | with_reducible refine Kept.ite ?_ ?_
    | (extract_lets -underBinder +onlyGivenNames x; subst x)
    | split
    | dsimp only

theorem State.nowDone_kept {m : Nat} {s0 s : State} {c : Nat} {p : Cmd → Bool} {status : Nat} {result : Nat} (hm : 0x849 &&& m = 0x849) (h : Kept m s0 s) :
     Kept m s0 (State.nowDone s c p status result) := by
  have hdef : @State.nowDone = @State.nowDone := rfl
  conv at hdef => rhs; delta State.nowDone
  rw [congrFun (congrFun (congrFun (congrFun (congrFun hdef s) c) p) status) result]; clear hdef
  repeat' first
    | with_reducible assumption
    | with_reducible refine State.completeWhere_kept (Mask.sub hm (by decide)) ?_
    | with_reducible refine Kept.ite ?_ ?_
    | (extract_lets -underBinder +onlyGivenNames x; subst x)
    | split
    | dsimp only

theorem State.protectPage_kept {m : Nat} {s0 s : State} {c : Nat} {p : Nat} {v : Bool} (hm : 0x40 &&& m = 0x40) (h : Kept m s0 s) :
     Kept m s0 (State.protectPage s c p v) := by
  have hdef : @State.protectPage = @State.protectPage := rfl
  conv at hdef => rhs; delta State.protectPage
  rw [congrFun (congrFun (congrFun (congrFun hdef s) c) p) v]; clear hdef
  repeat' first
    | with_reducible assumption
    | with_reducible refine State.modPte_kept (Mask.sub hm (by decide)) ?_
    | with_reducible refine Kept.ite ?_ ?_
    | (extract_lets -underBinder +onlyGivenNames x; subst x)
    | split
    | dsimp only

theorem State.takeEpoch_kept {m : Nat} {s0 s : State} {c : Nat} {b : Nat} {t : DustTable} (hm : 0x949 &&& m = 0x949) (h : Kept m s0 s) :
     Kept m s0 (State.takeEpoch s c b t) := by
  have hdef : @State.takeEpoch = @State.takeEpoch := rfl
  conv at hdef => rhs; delta State.takeEpoch
  rw [congrFun (congrFun (congrFun (congrFun hdef s) c) b) t]; clear hdef
  repeat' first
    | with_reducible assumption
    | with_reducible refine State.protectPage_kept (Mask.sub hm (by decide)) ?_
    | with_reducible refine State.nowDone_kept (Mask.sub hm (by decide)) ?_
    | with_reducible refine State.phaseWhere_kept (Mask.sub hm (by decide)) ?_
    | with_reducible refine State.tgtsGo_kept (Mask.sub hm (by decide)) ?_
    | with_reducible refine State.modDust_kept (Mask.sub hm (by decide)) ?_
    | with_reducible refine State.setFld_kept (Mask.sub hm (by decide)) ?_
    | with_reducible refine Kept.foldl (fun _ _ _ => ?_) _ ?_
    | with_reducible refine Kept.ite ?_ ?_
    | (extract_lets -underBinder +onlyGivenNames x; subst x)
    | split
    | dsimp only

theorem State.copyPage_kept {m : Nat} {s0 s : State} {c : Nat} {i : Nat} (hm : 0x149 &&& m = 0x149) (h : Kept m s0 s) :
     Kept m s0 (State.copyPage s c i) := by
  have hdef : @State.copyPage = @State.copyPage := rfl
  conv at hdef => rhs; delta State.copyPage
  rw [congrFun (congrFun (congrFun hdef s) c) i]; clear hdef
  repeat' first
    | with_reducible assumption
    | with_reducible refine State.sendPieces_kept (Mask.sub hm (by decide)) ?_
    | with_reducible refine State.modSec_kept (Mask.sub hm (by decide)) ?_
    | with_reducible refine State.modPte_kept (Mask.sub hm (by decide)) ?_
    | with_reducible refine Kept.foldl (fun _ _ _ => ?_) _ ?_
    | with_reducible refine Kept.ite ?_ ?_
    | (extract_lets -underBinder +onlyGivenNames x; subst x)
    | split
    | dsimp only

theorem execSecurePageCopy_kept {m : Nat} {s0 s : State} {c : CtxId} (hm : 0x149 &&& m = 0x149) (h : Kept m s0 s) :
     OutKept m s0 (execSecurePageCopy c s) := by
  have hdef : @execSecurePageCopy = @execSecurePageCopy := rfl
  conv at hdef => rhs; delta execSecurePageCopy
  rw [congrFun (congrFun hdef c) s]; clear hdef
  repeat' first
    | with_reducible assumption
    | with_reducible refine State.copyPage_kept (Mask.sub hm (by decide)) ?_
    | with_reducible refine State.tgtsGo_kept (Mask.sub hm (by decide)) ?_
    | with_reducible refine State.modSec_kept (Mask.sub hm (by decide)) ?_
    | with_reducible refine OutKept.next ?_
    | with_reducible refine Kept.ite ?_ ?_
    | (extract_lets -underBinder +onlyGivenNames x; subst x)
    | split
    | dsimp only

theorem execPendingPageFirstWrite_kept {m : Nat} {s0 s : State} {c : CtxId} {page : Nat} (hm : 0x46 &&& m = 0x46) (h : Kept m s0 s) :
     OutKept m s0 (execPendingPageFirstWrite c page s) := by
  have hdef : @execPendingPageFirstWrite = @execPendingPageFirstWrite := rfl
  conv at hdef => rhs; delta execPendingPageFirstWrite
  rw [congrFun (congrFun (congrFun hdef c) page) s]; clear hdef
  repeat' first
    | with_reducible assumption
    | with_reducible refine State.shadowFor_kept (Mask.sub hm (by decide)) ?_
    | with_reducible refine OutKept.next ?_
    | with_reducible refine Kept.getD_ ?_ ?_
    | with_reducible refine Kept.ofSome (by assumption) ?_
    | with_reducible refine Kept.ite ?_ ?_
    | (extract_lets -underBinder +onlyGivenNames x; subst x)
    | split
    | dsimp only

theorem execShadowFrameFree_kept {m : Nat} {s0 s : State} {c : CtxId} (hm : 0x40 &&& m = 0x40) (h : Kept m s0 s) :
     OutKept m s0 (execShadowFrameFree c s) := by
  have hdef : @execShadowFrameFree = @execShadowFrameFree := rfl
  conv at hdef => rhs; delta execShadowFrameFree
  rw [congrFun (congrFun hdef c) s]; clear hdef
  repeat' first
    | with_reducible assumption
    | with_reducible refine State.modDust_kept (Mask.sub hm (by decide)) ?_
    | with_reducible refine OutKept.next ?_
    | with_reducible refine Kept.ite ?_ ?_
    | (extract_lets -underBinder +onlyGivenNames x; subst x)
    | split
    | dsimp only

theorem State.commitEpoch_kept {m : Nat} {s0 s : State} {c : Nat} {g : Securing} (hm : 0x10869 &&& m = 0x10869) (h : Kept m s0 s) :
     Kept m s0 (State.commitEpoch s c g) := by
  have hdef : @State.commitEpoch = @State.commitEpoch := rfl
  conv at hdef => rhs; delta State.commitEpoch
  rw [congrFun (congrFun (congrFun hdef s) c) g]; clear hdef
  repeat' first
    | with_reducible assumption
    | with_reducible refine State.nowDone_kept (Mask.sub hm (by decide)) ?_
    | with_reducible refine State.pick_kept (Mask.sub hm (by decide)) ?_
    | with_reducible refine State.setReg_kept (Mask.sub hm (by decide)) ?_
    | with_reducible refine State.modDust_kept (Mask.sub hm (by decide)) ?_
    | with_reducible refine State.dropSecuring_kept (Mask.sub hm (by decide)) ?_
    | with_reducible refine State.setFld_kept (Mask.sub hm (by decide)) ?_
    | with_reducible refine State.setReg64_kept (Mask.sub hm (by decide)) ?_
    | with_reducible refine State.raise_kept (Mask.sub hm (by decide)) ?_
    | with_reducible refine Kept.ofPair (by assumption) ?_
    | with_reducible refine Kept.ite ?_ ?_
    | with_reducible refine Kept.iteSnd ?_ ?_
    | with_reducible refine Kept.iteFst ?_ ?_
    | (extract_lets -underBinder +onlyGivenNames x; subst x)
    | split
    | dsimp only

theorem execSecured_kept {m : Nat} {s0 s : State} {c : CtxId} (hm : 0x10969 &&& m = 0x10969) (h : Kept m s0 s) :
     OutKept m s0 (execSecured c s) := by
  have hdef : @execSecured = @execSecured := rfl
  conv at hdef => rhs; delta execSecured
  rw [congrFun (congrFun hdef c) s]; clear hdef
  repeat' first
    | with_reducible assumption
    | with_reducible refine State.commitEpoch_kept (Mask.sub hm (by decide)) ?_
    | with_reducible refine State.tgtsGo_kept (Mask.sub hm (by decide)) ?_
    | with_reducible refine OutKept.next ?_
    | with_reducible refine Kept.ite ?_ ?_
    | (extract_lets -underBinder +onlyGivenNames x; subst x)
    | split
    | dsimp only

theorem State.failSecuring_kept {m : Nat} {s0 s : State} {c : Nat} {g : Securing} {target : Nat} {st : Nat} (hm : 0x96d &&& m = 0x96d) (h : Kept m s0 s) :
     Kept m s0 (State.failSecuring s c g target st) := by
  have hdef : @State.failSecuring = @State.failSecuring := rfl
  conv at hdef => rhs; delta State.failSecuring
  rw [congrFun (congrFun (congrFun (congrFun (congrFun hdef s) c) g) target) st]; clear hdef
  repeat' first
    | with_reducible assumption
    | with_reducible refine State.nowDone_kept (Mask.sub hm (by decide)) ?_
    | with_reducible refine State.raise_kept (Mask.sub hm (by decide)) ?_
    | with_reducible refine State.flagCount_kept (Mask.sub hm (by decide)) ?_
    | with_reducible refine State.modDust_kept (Mask.sub hm (by decide)) ?_
    | with_reducible refine State.abandonSecuring_kept (Mask.sub hm (by decide)) ?_
    | with_reducible refine Kept.ite ?_ ?_
    | (extract_lets -underBinder +onlyGivenNames x; subst x)
    | split
    | dsimp only

theorem execSecureFailed_kept {m : Nat} {s0 s : State} {c : CtxId} {target : Nat} (hm : 0x96d &&& m = 0x96d) (h : Kept m s0 s) :
     OutKept m s0 (execSecureFailed c target s) := by
  have hdef : @execSecureFailed = @execSecureFailed := rfl
  conv at hdef => rhs; delta execSecureFailed
  rw [congrFun (congrFun (congrFun hdef c) target) s]; clear hdef
  repeat' first
    | with_reducible assumption
    | with_reducible refine State.failSecuring_kept (Mask.sub hm (by decide)) ?_
    | with_reducible refine OutKept.next ?_
    | with_reducible refine Kept.ite ?_ ?_
    | (extract_lets -underBinder +onlyGivenNames x; subst x)
    | split
    | dsimp only

theorem State.plumbEvent_kept {m : Nat} {s0 s : State} {c : Nat} {en : Nat} {statusBit : Nat} {kc : Nat} {hi : Nat} {lo : Nat} {code : Nat} {pay : List (Nat × Nat × Nat)} (hm : 0x829 &&& m = 0x829) (h : Kept m s0 s) :
     Kept m s0 (State.plumbEvent s c en statusBit kc hi lo code pay) := by
  have hdef : @State.plumbEvent = @State.plumbEvent := rfl
  conv at hdef => rhs; delta State.plumbEvent
  rw [congrFun (congrFun (congrFun (congrFun (congrFun (congrFun (congrFun (congrFun (congrFun hdef s) c) en) statusBit) kc) hi) lo) code) pay]; clear hdef
  repeat' first
    | with_reducible assumption
    | with_reducible refine State.flagCount_kept (Mask.sub hm (by decide)) ?_
    | with_reducible refine State.raise_kept (Mask.sub hm (by decide)) ?_
    | with_reducible refine Kept.ite ?_ ?_
    | (extract_lets -underBinder +onlyGivenNames x; subst x)
    | split
    | dsimp only

theorem State.plumbLayer_kept {m : Nat} {s0 s : State} {c : Nat} {k : Nat} {l : Nat} (hm : 0x8ef &&& m = 0x8ef) (h : Kept m s0 s) :
     Kept m s0 (State.plumbLayer s c k l) := by
  have hdef : @State.plumbLayer = @State.plumbLayer := rfl
  conv at hdef => rhs; delta State.plumbLayer
  rw [congrFun (congrFun (congrFun (congrFun hdef s) c) k) l]; clear hdef
  repeat' first
    | with_reducible assumption
    | with_reducible refine State.plumbEvent_kept (Mask.sub hm (by decide)) ?_
    | with_reducible refine State.modCtx_kept (Mask.sub hm (by decide)) ?_
    | with_reducible refine State.vpoke_kept (Mask.sub hm (by decide)) ?_
    | with_reducible refine Kept.ite ?_ ?_
    | (extract_lets -underBinder +onlyGivenNames x; subst x)
    | split
    | dsimp only

theorem State.plumbRecords_kept {m : Nat} {s0 s : State} {c : Nat} {k : Nat} (hm : 0x8ef &&& m = 0x8ef) (h : Kept m s0 s) :
     Kept m s0 (State.plumbRecords s c k) := by
  have hdef : @State.plumbRecords = @State.plumbRecords := rfl
  conv at hdef => rhs; delta State.plumbRecords
  rw [congrFun (congrFun (congrFun hdef s) c) k]; clear hdef
  repeat' first
    | with_reducible assumption
    | with_reducible refine State.plumbLayer_kept (Mask.sub hm (by decide)) ?_
    | with_reducible refine State.modCtx_kept (Mask.sub hm (by decide)) ?_
    | with_reducible refine State.setReg64_kept (Mask.sub hm (by decide)) ?_
    | with_reducible refine Kept.foldl (fun _ _ _ => ?_) _ ?_
    | with_reducible refine Kept.ite ?_ ?_
    | (extract_lets -underBinder +onlyGivenNames x; subst x)
    | split
    | dsimp only

theorem State.scaleStep_kept {m : Nat} {s0 s : State} {c : Nat} {k : Nat} {t : TensorRec} (hm : 0x8ef &&& m = 0x8ef) (h : Kept m s0 s) :
     Kept m s0 (State.scaleStep s c k t) := by
  have hdef : @State.scaleStep = @State.scaleStep := rfl
  conv at hdef => rhs; delta State.scaleStep
  rw [congrFun (congrFun (congrFun (congrFun hdef s) c) k) t]; clear hdef
  repeat' first
    | with_reducible assumption
    | with_reducible refine State.vpoke_kept (Mask.sub hm (by decide)) ?_
    | with_reducible refine State.warmupEvent_kept (Mask.sub hm (by decide)) ?_
    | with_reducible refine Kept.ite ?_ ?_
    | (extract_lets -underBinder +onlyGivenNames x; subst x)
    | split
    | dsimp only

theorem State.countWarm_kept {m : Nat} {s0 s : State} {c : Nat} (hm : 0x8 &&& m = 0x8) (h : Kept m s0 s) :
     Kept m s0 (State.countWarm s c) := by
  have hdef : @State.countWarm = @State.countWarm := rfl
  conv at hdef => rhs; delta State.countWarm
  rw [congrFun (congrFun hdef s) c]; clear hdef
  repeat' first
    | with_reducible assumption
    | with_reducible refine State.setFld_kept (Mask.sub hm (by decide)) ?_
    | with_reducible refine Kept.ite ?_ ?_
    | (extract_lets -underBinder +onlyGivenNames x; subst x)
    | split
    | dsimp only

theorem State.scaleBoundary_kept {m : Nat} {s0 s : State} {c : Nat} (hm : 0x8ef &&& m = 0x8ef) (h : Kept m s0 s) :
     Kept m s0 (State.scaleBoundary s c) := by
  have hdef : @State.scaleBoundary = @State.scaleBoundary := rfl
  conv at hdef => rhs; delta State.scaleBoundary
  rw [congrFun (congrFun hdef s) c]; clear hdef
  repeat' first
    | with_reducible assumption
    | with_reducible refine State.countWarm_kept (Mask.sub hm (by decide)) ?_
    | with_reducible refine State.scaleStep_kept (Mask.sub hm (by decide)) ?_
    | with_reducible refine State.modCtx_kept (Mask.sub hm (by decide)) ?_
    | with_reducible refine Kept.foldl (fun _ _ _ => ?_) _ ?_
    | with_reducible refine Kept.ite ?_ ?_
    | (extract_lets -underBinder +onlyGivenNames x; subst x)
    | split
    | dsimp only

theorem State.boundaryOne_kept {m : Nat} {s0 s : State} {c : Nat} {k : Nat} (hm : 0x8ef &&& m = 0x8ef) (h : Kept m s0 s) :
     Kept m s0 (State.boundaryOne s c k) := by
  have hdef : @State.boundaryOne = @State.boundaryOne := rfl
  conv at hdef => rhs; delta State.boundaryOne
  rw [congrFun (congrFun (congrFun hdef s) c) k]; clear hdef
  repeat' first
    | with_reducible assumption
    | with_reducible refine State.scaleBoundary_kept (Mask.sub hm (by decide)) ?_
    | with_reducible refine State.plumbRecords_kept (Mask.sub hm (by decide)) ?_
    | with_reducible refine State.hubWrites_kept (Mask.sub hm (by decide)) ?_ (fun _ _ => ?_)
    | with_reducible refine State.modDust_kept (Mask.sub hm (by decide)) ?_
    | with_reducible refine Kept.ite ?_ ?_
    | (extract_lets -underBinder +onlyGivenNames x; subst x)
    | split
    | dsimp only

theorem State.putInterval_kept {m : Nat} {s0 s : State} {c : Nat} {b : Nat} (hm : 0x8 &&& m = 0x8) (h : Kept m s0 s) :
     Kept m s0 (State.putInterval s c b) := by
  have hdef : @State.putInterval = @State.putInterval := rfl
  conv at hdef => rhs; delta State.putInterval
  rw [congrFun (congrFun (congrFun hdef s) c) b]; clear hdef
  repeat' first
    | with_reducible assumption
    | with_reducible refine State.setFld_kept (Mask.sub hm (by decide)) ?_
    | with_reducible refine Kept.getD_ ?_ ?_
    | with_reducible refine Kept.ite ?_ ?_
    | (extract_lets -underBinder +onlyGivenNames x; subst x)
    | split
    | dsimp only

theorem State.stall_kept {m : Nat} {s0 s : State} {c : Nat} {b : Nat} (hm : 0x869 &&& m = 0x869) (h : Kept m s0 s) :
     Kept m s0 (State.stall s c b) := by
  have hdef : @State.stall = @State.stall := rfl
  conv at hdef => rhs; delta State.stall
  rw [congrFun (congrFun (congrFun hdef s) c) b]; clear hdef
  repeat' first
    | with_reducible assumption
    | with_reducible refine State.raise_kept (Mask.sub hm (by decide)) ?_
    | with_reducible refine State.flagCount_kept (Mask.sub hm (by decide)) ?_
    | with_reducible refine State.modDust_kept (Mask.sub hm (by decide)) ?_
    | with_reducible refine Kept.ite ?_ ?_
    | (extract_lets -underBinder +onlyGivenNames x; subst x)
    | split
    | dsimp only

theorem State.boundaryTwo_kept {m : Nat} {s0 s : State} {c : Nat} {b : Nat} {t : DustTable} (hm : 0x969 &&& m = 0x969) (h : Kept m s0 s) :
     Kept m s0 (State.boundaryTwo s c b t) := by
  have hdef : @State.boundaryTwo = @State.boundaryTwo := rfl
  conv at hdef => rhs; delta State.boundaryTwo
  rw [congrFun (congrFun (congrFun (congrFun hdef s) c) b) t]; clear hdef
  repeat' first
    | with_reducible assumption
    | with_reducible refine State.stall_kept (Mask.sub hm (by decide)) ?_
    | with_reducible refine State.putInterval_kept (Mask.sub hm (by decide)) ?_
    | with_reducible refine State.takeEpoch_kept (Mask.sub hm (by decide)) ?_
    | with_reducible refine State.modDust_kept (Mask.sub hm (by decide)) ?_
    | with_reducible refine Kept.ite ?_ ?_
    | (extract_lets -underBinder +onlyGivenNames x; subst x)
    | split
    | dsimp only

theorem State.streamStep_kept {m : Nat} {s0 s : State} {c : Nat} (hm : 0xc7 &&& m = 0xc7) (h : Kept m s0 s) :
     Kept m s0 (State.streamStep s c) := by
  have hdef : @State.streamStep = @State.streamStep := rfl
  conv at hdef => rhs; delta State.streamStep
  rw [congrFun (congrFun hdef s) c]; clear hdef
  repeat' first
    | with_reducible assumption
    | with_reducible refine State.vpoke_kept (Mask.sub hm (by decide)) ?_
    | with_reducible refine Kept.ite ?_ ?_
    | (extract_lets -underBinder +onlyGivenNames x; subst x)
    | split
    | dsimp only

theorem State.boundaryOpen_kept {m : Nat} {s0 s : State} {c : Nat} {b : Nat} {t : DustTable} (hm : 0xcef &&& m = 0xcef) (h : Kept m s0 s) :
     Kept m s0 (State.boundaryOpen s c b t) := by
  have hdef : @State.boundaryOpen = @State.boundaryOpen := rfl
  conv at hdef => rhs; delta State.boundaryOpen
  rw [congrFun (congrFun (congrFun (congrFun hdef s) c) b) t]; clear hdef
  repeat' first
    | with_reducible assumption
    | with_reducible refine State.streamStep_kept (Mask.sub hm (by decide)) ?_
    | with_reducible refine State.setReg64_kept (Mask.sub hm (by decide)) ?_
    | with_reducible refine State.modCtx_kept (Mask.sub hm (by decide)) ?_
    | with_reducible refine State.precondBoundary_kept (Mask.sub hm (by decide)) ?_
    | with_reducible refine State.setFld_kept (Mask.sub hm (by decide)) ?_
    | with_reducible refine State.vpoke_kept (Mask.sub hm (by decide)) ?_
    | with_reducible refine State.deliverFlag_kept (Mask.sub hm (by decide)) ?_
    | with_reducible refine State.progress_kept (Mask.sub hm (by decide)) ?_
    | with_reducible refine State.modDust_kept (Mask.sub hm (by decide)) ?_
    | with_reducible refine Kept.ite ?_ ?_
    | (extract_lets -underBinder +onlyGivenNames x; subst x)
    | split
    | dsimp only

theorem State.boundaryThree_kept {m : Nat} {s0 s : State} {c : Nat} {b : Nat} {t : DustTable} (hm : 0xcef &&& m = 0xcef) (h : Kept m s0 s) :
     Kept m s0 (State.boundaryThree s c b t) := by
  have hdef : @State.boundaryThree = @State.boundaryThree := rfl
  conv at hdef => rhs; delta State.boundaryThree
  rw [congrFun (congrFun (congrFun (congrFun hdef s) c) b) t]; clear hdef
  repeat' first
    | with_reducible assumption
    | with_reducible refine State.boundaryOpen_kept (Mask.sub hm (by decide)) ?_
    | with_reducible refine State.hubWrites_kept (Mask.sub hm (by decide)) ?_ (fun _ _ => ?_)
    | with_reducible refine Kept.ite ?_ ?_
    | (extract_lets -underBinder +onlyGivenNames x; subst x)
    | split
    | dsimp only

theorem execStepClose_kept {m : Nat} {s0 s : State} {c : CtxId} (hm : 0x8ef &&& m = 0x8ef) (h : Kept m s0 s) :
     OutKept m s0 (execStepClose c s) := by
  have hdef : @execStepClose = @execStepClose := rfl
  conv at hdef => rhs; delta execStepClose
  rw [congrFun (congrFun hdef c) s]; clear hdef
  repeat' first
    | with_reducible assumption
    | with_reducible refine State.stall_kept (Mask.sub hm (by decide)) ?_
    | with_reducible refine State.boundaryOne_kept (Mask.sub hm (by decide)) ?_
    | with_reducible refine State.hubNeeds_kept (Mask.sub hm (by decide)) ?_ (fun _ _ => ?_)
    | with_reducible refine State.modDust_kept (Mask.sub hm (by decide)) ?_
    | with_reducible refine OutKept.next ?_
    | with_reducible refine Kept.ite ?_ ?_
    | (extract_lets -underBinder +onlyGivenNames x; subst x)
    | split
    | dsimp only

theorem execStepBoundaryOpen_kept {m : Nat} {s0 s : State} {c : CtxId} (hm : 0xdef &&& m = 0xdef) (h : Kept m s0 s) :
     OutKept m s0 (execStepBoundaryOpen c s) := by
  have hdef : @execStepBoundaryOpen = @execStepBoundaryOpen := rfl
  conv at hdef => rhs; delta execStepBoundaryOpen
  rw [congrFun (congrFun hdef c) s]; clear hdef
  repeat' first
    | with_reducible assumption
    | with_reducible refine State.boundaryThree_kept (Mask.sub hm (by decide)) ?_
    | with_reducible refine State.boundaryTwo_kept (Mask.sub hm (by decide)) ?_
    | with_reducible refine State.boundaryOne_kept (Mask.sub hm (by decide)) ?_
    | with_reducible refine State.tgtsGo_kept (Mask.sub hm (by decide)) ?_
    | with_reducible refine OutKept.next ?_
    | with_reducible refine Kept.ite ?_ ?_
    | (extract_lets -underBinder +onlyGivenNames x; subst x)
    | split
    | dsimp only

theorem execSecureNow_kept {m : Nat} {s0 s : State} {c : CtxId} {k : Nat} (hm : 0x849 &&& m = 0x849) (h : Kept m s0 s) :
     OutKept m s0 (execSecureNow c k s) := by
  have hdef : @execSecureNow = @execSecureNow := rfl
  conv at hdef => rhs; delta execSecureNow
  rw [congrFun (congrFun (congrFun hdef c) k) s]; clear hdef
  repeat' first
    | with_reducible assumption
    | with_reducible refine State.onCmd_kept (Mask.sub hm (by decide)) ?_ (fun _ => ?_)
    | with_reducible refine State.complete_kept (Mask.sub hm (by decide)) ?_
    | with_reducible refine State.setPhase_kept (Mask.sub hm (by decide)) ?_
    | with_reducible refine State.modDust_kept (Mask.sub hm (by decide)) ?_
    | with_reducible refine OutKept.next ?_
    | with_reducible refine Kept.ite ?_ ?_
    | (extract_lets -underBinder +onlyGivenNames x; subst x)
    | split
    | dsimp only

theorem execFailureNotice_kept {m : Nat} {s0 s : State} {c : CtxId} {k : Nat} (hm : 0x849 &&& m = 0x849) (h : Kept m s0 s) :
     OutKept m s0 (execFailureNotice c k s) := by
  have hdef : @execFailureNotice = @execFailureNotice := rfl
  conv at hdef => rhs; delta execFailureNotice
  rw [congrFun (congrFun (congrFun hdef c) k) s]; clear hdef
  repeat' first
    | with_reducible assumption
    | with_reducible refine State.onCmd_kept (Mask.sub hm (by decide)) ?_ (fun _ => ?_)
    | with_reducible refine State.complete_kept (Mask.sub hm (by decide)) ?_
    | with_reducible refine State.modDust_kept (Mask.sub hm (by decide)) ?_
    | with_reducible refine State.setReg_kept (Mask.sub hm (by decide)) ?_
    | with_reducible refine OutKept.next ?_
    | with_reducible refine Kept.ite ?_ ?_
    | (extract_lets -underBinder +onlyGivenNames x; subst x)
    | split
    | dsimp only

end Sys2Proof.Machine
end

