-- ==== Sys2Proof/Laws/KeptRestore.lean ====
section
/-!
SUPPORT. What the operations of Sys2Proof/Machine/Restore.lean keep (Laws/Kept.lean).
-/
namespace Sys2Proof.Machine

theorem State.askPieces_kept {m : Nat} {s0 s : State} {c : Nat} {part : Nat} {h_ : Nat} {off : Nat} {n : Nat} {x1 : Nat} (hm : 0x14c &&& m = 0x14c) (h : Kept m s0 s) :
     Kept m s0 (State.askPieces s c part h_ off n x1) := by
  induction x1 generalizing s with
  | zero => rw [State.askPieces]; exact h
  | succ n ih =>
    rw [State.askPieces]
    repeat' first
      | with_reducible assumption
      | with_reducible refine ih ?_
      | with_reducible refine State.sendTxn_kept (Mask.sub hm (by decide)) ?_
      | with_reducible refine State.modDust_kept (Mask.sub hm (by decide)) ?_
      | with_reducible refine SendRes.All.use0 (by assumption) ?_
      | with_reducible refine SendRes.All.use1 (by assumption) ?_
      | with_reducible refine Kept.ite ?_ ?_
      | (extract_lets -underBinder +onlyGivenNames x; subst x)
      | split
      | with_reducible refine Kept.mem (Mask.sub hm (by decide)) ?_ _ rfl
      | dsimp only

theorem State.imgRange_kept {m : Nat} {s0 s : State} {c : Nat} {src : Option (Nat × Nat)} {addr : Nat} {off : Nat} {n : Nat} (hm : 0x14c &&& m = 0x14c) (h : Kept m s0 s) :
     ImgRange.All (Kept m s0) (State.imgRange s c src addr off n) := by
  have hdef : @State.imgRange = @State.imgRange := rfl
  conv at hdef => rhs; delta State.imgRange
  rw [congrFun (congrFun (congrFun (congrFun (congrFun (congrFun hdef s) c) src) addr) off) n]; clear hdef
  repeat' first
    | with_reducible assumption
    | with_reducible refine State.askPieces_kept (Mask.sub hm (by decide)) ?_
    | with_reducible refine State.modDust_kept (Mask.sub hm (by decide)) ?_
    | with_reducible refine ImgRange.All.ready_ ?_
    | with_reducible refine ImgRange.All.busy_ ?_
    | with_reducible refine ImgRange.All.failed_ ?_
    | with_reducible refine Kept.ite ?_ ?_
    | (extract_lets -underBinder +onlyGivenNames x; subst x)
    | split
    | dsimp only

theorem State.refetchEvent_kept {m : Nat} {s0 s : State} {c : Nat} {i : Nat} {own : Bool} {part : Nat} (hm : 0x829 &&& m = 0x829) (h : Kept m s0 s) :
     Kept m s0 (State.refetchEvent s c i own part) := by
  have hdef : @State.refetchEvent = @State.refetchEvent := rfl
  conv at hdef => rhs; delta State.refetchEvent
  rw [congrFun (congrFun (congrFun (congrFun (congrFun hdef s) c) i) own) part]; clear hdef
  repeat' first
    | with_reducible assumption
    | with_reducible refine State.raise_kept (Mask.sub hm (by decide)) ?_
    | with_reducible refine State.flagCount_kept (Mask.sub hm (by decide)) ?_
    | with_reducible refine Kept.ite ?_ ?_
    | (extract_lets -underBinder +onlyGivenNames x; subst x)
    | split
    | dsimp only

theorem State.imgPage_kept {m : Nat} {s0 s : State} {c : Nat} {f : ImgFetch} {i : Nat} {own : Bool} {dest : Nat} {rest : List (Nat × Bool × Nat)} (hm : 0x9ef &&& m = 0x9ef) (h : Kept m s0 s) :
     ImgRes.All (Kept m s0) (State.imgPage s c f i own dest rest) := by
  have hdef : @State.imgPage = @State.imgPage := rfl
  conv at hdef => rhs; delta State.imgPage
  rw [congrFun (congrFun (congrFun (congrFun (congrFun (congrFun (congrFun hdef s) c) f) i) own) dest) rest]; clear hdef
  repeat' first
    | with_reducible assumption
    | with_reducible refine State.refetchEvent_kept (Mask.sub hm (by decide)) ?_
    | with_reducible refine State.imgRange_kept (Mask.sub hm (by decide)) ?_
    | with_reducible refine State.vpoke_kept (Mask.sub hm (by decide)) ?_
    | with_reducible refine ImgRes.All.busy_ ?_
    | with_reducible refine ImgRes.All.next_ ?_
    | with_reducible refine ImgRes.All.noImage_ ?_
    | with_reducible refine ImgRes.All.failed_ ?_
    | with_reducible refine ImgRes.All.done_ ?_
    | with_reducible refine ImgRange.All.use0 (by assumption) ?_
    | with_reducible refine ImgRange.All.use1 (by assumption) ?_
    | with_reducible refine ImgRange.All.use2 (by assumption) ?_
    | with_reducible refine Kept.ite ?_ ?_
    | (extract_lets -underBinder +onlyGivenNames x; subst x)
    | split
    | dsimp only

theorem State.imgStep_kept {m : Nat} {s0 s : State} {c : Nat} {f : ImgFetch} (hm : 0x9ef &&& m = 0x9ef) (h : Kept m s0 s) :
     ImgRes.All (Kept m s0) (State.imgStep s c f) := by
  have hdef : @State.imgStep = @State.imgStep := rfl
  conv at hdef => rhs; delta State.imgStep
  rw [congrFun (congrFun (congrFun hdef s) c) f]; clear hdef
  repeat' first
    | with_reducible assumption
    | with_reducible refine State.imgPage_kept (Mask.sub hm (by decide)) ?_
    | with_reducible refine State.imgRange_kept (Mask.sub hm (by decide)) ?_
    | with_reducible refine ImgRes.All.busy_ ?_
    | with_reducible refine ImgRes.All.next_ ?_
    | with_reducible refine ImgRes.All.noImage_ ?_
    | with_reducible refine ImgRes.All.failed_ ?_
    | with_reducible refine ImgRes.All.done_ ?_
    | with_reducible refine ImgRes.All.use0 (by assumption) ?_
    | with_reducible refine ImgRes.All.use1 (by assumption) ?_
    | with_reducible refine ImgRes.All.use2 (by assumption) ?_
    | with_reducible refine ImgRes.All.use3 (by assumption) ?_
    | with_reducible refine ImgRes.All.use4 (by assumption) ?_
    | with_reducible refine ImgRange.All.use0 (by assumption) ?_
    | with_reducible refine ImgRange.All.use1 (by assumption) ?_
    | with_reducible refine ImgRange.All.use2 (by assumption) ?_
    | with_reducible refine Kept.ite ?_ ?_
    | (extract_lets -underBinder +onlyGivenNames x; subst x)
    | split
    | dsimp only

theorem State.enterRestoring_kept {m : Nat} {s0 s : State} {c : Nat} {keep : Cmd → Bool} (hm : 0xfef &&& m = 0xfef) (h : Kept m s0 s) :
     Kept m s0 (State.enterRestoring s c keep) := by
  have hdef : @State.enterRestoring = @State.enterRestoring := rfl
  conv at hdef => rhs; delta State.enterRestoring
  rw [congrFun (congrFun (congrFun hdef s) c) keep]; clear hdef
  repeat' first
    | with_reducible assumption
    | with_reducible refine State.modCtx_kept (Mask.sub hm (by decide)) ?_
    | with_reducible refine State.abandonSecuring_kept (Mask.sub hm (by decide)) ?_
    | with_reducible refine State.quiesce_kept (Mask.sub hm (by decide)) ?_
    | with_reducible refine State.enter_kept (Mask.sub hm (by decide)) ?_
    | with_reducible refine Kept.ite ?_ ?_
    | (extract_lets -underBinder +onlyGivenNames x; subst x)
    | split
    | dsimp only

theorem State.rederive_kept {m : Nat} {s0 s : State} {c : Nat} {epoch : Nat} (hm : 0x108ef &&& m = 0x108ef) (h : Kept m s0 s) :
     Kept m s0 (State.rederive s c epoch) := by
  have hdef : @State.rederive = @State.rederive := rfl
  conv at hdef => rhs; delta State.rederive
  rw [congrFun (congrFun (congrFun hdef s) c) epoch]; clear hdef
  repeat' first
    | with_reducible assumption
    | with_reducible refine State.setReg64_kept (Mask.sub hm (by decide)) ?_
    | with_reducible refine State.pick_kept (Mask.sub hm (by decide)) ?_
    | with_reducible refine State.vpoke_kept (Mask.sub hm (by decide)) ?_
    | with_reducible refine State.raise_kept (Mask.sub hm (by decide)) ?_
    | with_reducible refine AllO.bind_ ?_ (fun _ _ => ?_)
    | with_reducible refine Kept.ofPair (by assumption) ?_
    | with_reducible refine Kept.ite ?_ ?_
    | with_reducible refine Kept.iteSnd ?_ ?_
    | with_reducible refine Kept.iteFst ?_ ?_
    | (extract_lets -underBinder +onlyGivenNames x; subst x)
    | split
    | dsimp only

theorem State.freeStash_kept {m : Nat} {s0 s : State} {c : Nat} (hm : 0xcf &&& m = 0xcf) (h : Kept m s0 s) :
     Kept m s0 (State.freeStash s c) := by
  have hdef : @State.freeStash = @State.freeStash := rfl
  conv at hdef => rhs; delta State.freeStash
  rw [congrFun (congrFun hdef s) c]; clear hdef
  repeat' first
    | with_reducible assumption
    | with_reducible refine State.vpoke_kept (Mask.sub hm (by decide)) ?_
    | with_reducible refine State.putEntries_kept (Mask.sub hm (by decide)) ?_
    | with_reducible refine Kept.foldl (fun _ _ _ => ?_) _ ?_
    | with_reducible refine Kept.ite ?_ ?_
    | (extract_lets -underBinder +onlyGivenNames x; subst x)
    | split
    | dsimp only

theorem State.restoreScales_kept {m : Nat} {s0 s : State} {c : Nat} (hm : 0x8ef &&& m = 0x8ef) (h : Kept m s0 s) :
     Kept m s0 (State.restoreScales s c) := by
  have hdef : @State.restoreScales = @State.restoreScales := rfl
  conv at hdef => rhs; delta State.restoreScales
  rw [congrFun (congrFun hdef s) c]; clear hdef
  repeat' first
    | with_reducible assumption
    | with_reducible refine State.countWarm_kept (Mask.sub hm (by decide)) ?_
    | with_reducible refine State.warmupEvent_kept (Mask.sub hm (by decide)) ?_
    | with_reducible refine State.vpoke_kept (Mask.sub hm (by decide)) ?_
    | with_reducible refine Kept.foldl (fun _ _ _ => ?_) _ ?_
    | with_reducible refine Kept.ite ?_ ?_
    | (extract_lets -underBinder +onlyGivenNames x; subst x)
    | split
    | dsimp only

theorem State.restoreQuiet_kept {m : Nat} {s0 s : State} {c : Nat} (hm : 0x40 &&& m = 0x40) (h : Kept m s0 s) :
     Kept m s0 (State.restoreQuiet s c) := by
  have hdef : @State.restoreQuiet = @State.restoreQuiet := rfl
  conv at hdef => rhs; delta State.restoreQuiet
  rw [congrFun (congrFun hdef s) c]; clear hdef
  repeat' first
    | with_reducible assumption
    | with_reducible refine State.modCtx_kept (Mask.sub hm (by decide)) ?_
    | with_reducible refine Kept.foldl (fun _ _ _ => ?_) _ ?_
    | with_reducible refine Kept.ite ?_ ?_
    | (extract_lets -underBinder +onlyGivenNames x; subst x)
    | split
    | dsimp only

theorem State.refillHawk_kept {m : Nat} {s0 s : State} {c : Nat} (hm : 0x86 &&& m = 0x86) (h : Kept m s0 s) :
     Kept m s0 (State.refillHawk s c) := by
  have hdef : @State.refillHawk = @State.refillHawk := rfl
  conv at hdef => rhs; delta State.refillHawk
  rw [congrFun (congrFun hdef s) c]; clear hdef
  repeat' first
    | with_reducible assumption
    | with_reducible refine State.runInits_kept (Mask.sub hm (by decide)) ?_
    | with_reducible refine Kept.ite ?_ ?_
    | (extract_lets -underBinder +onlyGivenNames x; subst x)
    | split
    | dsimp only

theorem State.restoreState_kept {m : Nat} {s0 s : State} {c : Nat} {f : ImgFetch} (hm : 0x10cef &&& m = 0x10cef) (h : Kept m s0 s) :
     Kept m s0 (State.restoreState s c f) := by
  have hdef : @State.restoreState = @State.restoreState := rfl
  conv at hdef => rhs; delta State.restoreState
  rw [congrFun (congrFun (congrFun hdef s) c) f]; clear hdef
  repeat' first
    | with_reducible assumption
    | with_reducible refine State.restoreQuiet_kept (Mask.sub hm (by decide)) ?_
    | with_reducible refine State.restoreScales_kept (Mask.sub hm (by decide)) ?_
    | with_reducible refine State.freeStash_kept (Mask.sub hm (by decide)) ?_
    | with_reducible refine State.rederive_kept (Mask.sub hm (by decide)) ?_
    | with_reducible refine State.modCtx_kept (Mask.sub hm (by decide)) ?_
    | with_reducible refine State.setFld_kept (Mask.sub hm (by decide)) ?_
    | with_reducible refine State.setReg64_kept (Mask.sub hm (by decide)) ?_
    | with_reducible refine State.precondRestore_kept (Mask.sub hm (by decide)) ?_
    | with_reducible refine Kept.ite ?_ ?_
    | (extract_lets -underBinder +onlyGivenNames x; subst x)
    | split
    | dsimp only

theorem State.restorePlace_kept {m : Nat} {s0 s : State} {c : Nat} {f : ImgFetch} (hm : 0x8ef &&& m = 0x8ef) (h : Kept m s0 s) :
     AllO (Kept m s0) (State.restorePlace s c f) := by
  have hdef : @State.restorePlace = @State.restorePlace := rfl
  conv at hdef => rhs; delta State.restorePlace
  rw [congrFun (congrFun (congrFun hdef s) c) f]; clear hdef
  repeat' first
    | with_reducible assumption
    | with_reducible refine State.refillHawk_kept (Mask.sub hm (by decide)) ?_
    | with_reducible refine State.findPlace_kept (Mask.sub hm (by decide)) ?_
    | with_reducible refine State.takePlace_kept (Mask.sub hm (by decide)) ?_
    | with_reducible refine State.modAu_kept (Mask.sub hm (by decide)) ?_
    | with_reducible refine State.raise_kept (Mask.sub hm (by decide)) ?_
    | with_reducible refine State.enter_kept (Mask.sub hm (by decide)) ?_
    | with_reducible refine Kept.foldl (fun _ _ _ => ?_) _ ?_
    | with_reducible exact AllO.none_
    | with_reducible refine AllO.some_ ?_
    | with_reducible refine Kept.ofSomePair (by assumption) ?_
    | with_reducible refine Kept.ofSomeSnd (by assumption) ?_
    | with_reducible refine Kept.ite ?_ ?_
    | with_reducible refine Kept.iteSnd ?_ ?_
    | with_reducible refine Kept.iteFst ?_ ?_
    | (extract_lets -underBinder +onlyGivenNames x; subst x)
    | split
    | dsimp only

theorem State.restoreGo_kept {m : Nat} {s0 s : State} {c : Nat} {keep : Cmd → Bool} {x1 : Nat} (hm : 0x10fef &&& m = 0x10fef) (h : Kept m s0 s) :
     RestRes.All (Kept m s0) (State.restoreGo s c keep x1) := by
  induction x1 generalizing s with
  | zero => rw [State.restoreGo]; exact h
  | succ n ih =>
    rw [State.restoreGo]
    repeat' first
      | with_reducible assumption
      | with_reducible refine ih ?_
      | with_reducible refine State.restorePlace_kept (Mask.sub hm (by decide)) ?_
      | with_reducible refine State.restoreState_kept (Mask.sub hm (by decide)) ?_
      | with_reducible refine State.enterRestoring_kept (Mask.sub hm (by decide)) ?_
      | with_reducible refine State.imgStep_kept (Mask.sub hm (by decide)) ?_
      | with_reducible refine State.modDust_kept (Mask.sub hm (by decide)) ?_
      | with_reducible refine State.enter_kept (Mask.sub hm (by decide)) ?_
      | with_reducible refine RestRes.All.busy_ ?_
      | with_reducible refine RestRes.All.noImage_ ?_
      | with_reducible refine RestRes.All.failed_ ?_
      | with_reducible refine RestRes.All.done_ ?_
      | with_reducible refine Kept.ofSome (by assumption) ?_
      | with_reducible refine ImgRes.All.use0 (by assumption) ?_
      | with_reducible refine ImgRes.All.use1 (by assumption) ?_
      | with_reducible refine ImgRes.All.use2 (by assumption) ?_
      | with_reducible refine ImgRes.All.use3 (by assumption) ?_
      | with_reducible refine ImgRes.All.use4 (by assumption) ?_
      | with_reducible refine Kept.ite ?_ ?_
      | (extract_lets -underBinder +onlyGivenNames x; subst x)
      | split
      | dsimp only

theorem State.restoreCmd_kept {m : Nat} {s0 s : State} {c : Nat} {k : Nat} (hm : 0x10fef &&& m = 0x10fef) (h : Kept m s0 s) :
     Kept m s0 (State.restoreCmd s c k) := by
  have hdef : @State.restoreCmd = @State.restoreCmd := rfl
  conv at hdef => rhs; delta State.restoreCmd
  rw [congrFun (congrFun (congrFun hdef s) c) k]; clear hdef
  repeat' first
    | with_reducible assumption
    | with_reducible refine State.restoreGo_kept (Mask.sub hm (by decide)) ?_
    | with_reducible refine State.completeWhere_kept (Mask.sub hm (by decide)) ?_
    | with_reducible refine State.complete_kept (Mask.sub hm (by decide)) ?_
    | with_reducible refine RestRes.All.use0 (by assumption) ?_
    | with_reducible refine RestRes.All.use1 (by assumption) ?_
    | with_reducible refine RestRes.All.use2 (by assumption) ?_
    | with_reducible refine RestRes.All.use3 (by assumption) ?_
    | with_reducible refine Kept.ite ?_ ?_
    | (extract_lets -underBinder +onlyGivenNames x; subst x)
    | split
    | dsimp only

theorem execRestore_kept {m : Nat} {s0 s : State} {c : CtxId} {k : Nat} (hm : 0x10fef &&& m = 0x10fef) (h : Kept m s0 s) :
     OutKept m s0 (execRestore c k s) := by
  have hdef : @execRestore = @execRestore := rfl
  conv at hdef => rhs; delta execRestore
  rw [congrFun (congrFun (congrFun hdef c) k) s]; clear hdef
  repeat' first
    | with_reducible assumption
    | with_reducible refine State.restoreCmd_kept (Mask.sub hm (by decide)) ?_
    | with_reducible refine State.onCmd_kept (Mask.sub hm (by decide)) ?_ (fun _ => ?_)
    | with_reducible refine State.complete_kept (Mask.sub hm (by decide)) ?_
    | with_reducible refine State.hubNeeds_kept (Mask.sub hm (by decide)) ?_ (fun _ _ => ?_)
    | with_reducible refine State.setPhase_kept (Mask.sub hm (by decide)) ?_
    | with_reducible refine State.modDust_kept (Mask.sub hm (by decide)) ?_
    | with_reducible refine OutKept.next ?_
    | with_reducible refine Kept.ite ?_ ?_
    | (extract_lets -underBinder +onlyGivenNames x; subst x)
    | split
    | dsimp only

theorem State.shardGo_kept {m : Nat} {s0 s : State} {c : Nat} {k : Nat} {d : List Byte} {x1 : Nat} (hm : 0x9ef &&& m = 0x9ef) (h : Kept m s0 s) :
     Kept m s0 (State.shardGo s c k d x1) := by
  induction x1 generalizing s with
  | zero => rw [State.shardGo]; exact h
  | succ n ih =>
    rw [State.shardGo]
    repeat' first
      | with_reducible assumption
      | with_reducible refine ih ?_
      | with_reducible refine State.imgStep_kept (Mask.sub hm (by decide)) ?_
      | with_reducible refine State.modDust_kept (Mask.sub hm (by decide)) ?_
      | with_reducible refine State.complete_kept (Mask.sub hm (by decide)) ?_
      | with_reducible refine Kept.getD_ ?_ ?_
      | with_reducible refine ImgRes.All.use0 (by assumption) ?_
      | with_reducible refine ImgRes.All.use1 (by assumption) ?_
      | with_reducible refine ImgRes.All.use2 (by assumption) ?_
      | with_reducible refine ImgRes.All.use3 (by assumption) ?_
      | with_reducible refine ImgRes.All.use4 (by assumption) ?_
      | with_reducible refine Kept.ite ?_ ?_
      | (extract_lets -underBinder +onlyGivenNames x; subst x)
      | split
      | dsimp only

theorem execRestoreShard_kept {m : Nat} {s0 s : State} {c : CtxId} {k : Nat} (hm : 0x9ef &&& m = 0x9ef) (h : Kept m s0 s) :
     OutKept m s0 (execRestoreShard c k s) := by
  have hdef : @execRestoreShard = @execRestoreShard := rfl
  conv at hdef => rhs; delta execRestoreShard
  rw [congrFun (congrFun (congrFun hdef c) k) s]; clear hdef
  repeat' first
    | with_reducible assumption
    | with_reducible refine State.shardGo_kept (Mask.sub hm (by decide)) ?_
    | with_reducible refine State.onCmd_kept (Mask.sub hm (by decide)) ?_ (fun _ => ?_)
    | with_reducible refine State.complete_kept (Mask.sub hm (by decide)) ?_
    | with_reducible refine State.setPhase_kept (Mask.sub hm (by decide)) ?_
    | with_reducible refine State.modDust_kept (Mask.sub hm (by decide)) ?_
    | with_reducible refine OutKept.next ?_
    | with_reducible refine Kept.ite ?_ ?_
    | (extract_lets -underBinder +onlyGivenNames x; subst x)
    | split
    | dsimp only

end Sys2Proof.Machine
end

