-- ==== Sys2Proof/Laws/KeptMembers.lean ====
section
/-!
SUPPORT. What the operations of Sys2Proof/Machine/Members.lean keep (Laws/Kept.lean).
-/
namespace Sys2Proof.Machine

theorem State.fencePort_kept {m : Nat} {s0 s : State} {p : Nat} (hm : 0x96d &&& m = 0x96d) (h : Kept m s0 s) :
     Kept m s0 (State.fencePort s p) := by
  have hdef : @State.fencePort = @State.fencePort := rfl
  conv at hdef => rhs; delta State.fencePort
  rw [congrFun (congrFun hdef s) p]; clear hdef
  repeat' first
    | with_reducible assumption
    | with_reducible refine State.portQuiet_kept (Mask.sub hm (by decide)) ?_
    | with_reducible refine State.total_kept (Mask.sub hm (by decide)) ?_
    | with_reducible refine State.count_kept (Mask.sub hm (by decide)) ?_
    | with_reducible refine State.setFld_kept (Mask.sub hm (by decide)) ?_
    | with_reducible refine State.raise_kept (Mask.sub hm (by decide)) ?_
    | with_reducible refine State.modLport_kept (Mask.sub hm (by decide)) ?_
    | with_reducible refine Kept.ite ?_ ?_
    | (extract_lets -underBinder +onlyGivenNames x; subst x)
    | split
    | dsimp only

theorem State.fencePart_kept {m : Nat} {s0 s : State} {part : Nat} (hm : 0x96d &&& m = 0x96d) (h : Kept m s0 s) :
     Kept m s0 (State.fencePart s part) := by
  have hdef : @State.fencePart = @State.fencePart := rfl
  conv at hdef => rhs; delta State.fencePart
  rw [congrFun (congrFun hdef s) part]; clear hdef
  repeat' first
    | with_reducible assumption
    | with_reducible refine State.fencePort_kept (Mask.sub hm (by decide)) ?_
    | with_reducible refine State.finishTxn_kept (Mask.sub hm (by decide)) ?_
    | with_reducible refine State.dropFlits_kept (Mask.sub hm (by decide)) ?_
    | with_reducible refine Kept.foldl (fun _ _ _ => ?_) _ ?_
    | with_reducible refine Kept.ite ?_ ?_
    | (extract_lets -underBinder +onlyGivenNames x; subst x)
    | split
    | with_reducible refine Kept.links (Mask.sub hm (by decide)) ?_ _
    | dsimp only

theorem State.unfencePart_kept {m : Nat} {s0 s : State} {part : Nat} (hm : 0x100 &&& m = 0x100) (h : Kept m s0 s) :
     Kept m s0 (State.unfencePart s part) := by
  have hdef : @State.unfencePart = @State.unfencePart := rfl
  conv at hdef => rhs; delta State.unfencePart
  rw [congrFun (congrFun hdef s) part]; clear hdef
  repeat' first
    | with_reducible assumption
    | with_reducible refine State.modLport_kept (Mask.sub hm (by decide)) ?_
    | with_reducible refine State.portStart_kept (Mask.sub hm (by decide)) ?_
    | with_reducible refine Kept.foldl (fun _ _ _ => ?_) _ ?_
    | with_reducible refine Kept.ite ?_ ?_
    | (extract_lets -underBinder +onlyGivenNames x; subst x)
    | split
    | with_reducible refine Kept.links (Mask.sub hm (by decide)) ?_ _
    | dsimp only

theorem State.failPosted_kept {m : Nat} {s0 s : State} {c : Nat} {g : Nat} {i : Nat} (hm : 0x8ef &&& m = 0x8ef) (h : Kept m s0 s) :
     Kept m s0 (State.failPosted s c g i) := by
  have hdef : @State.failPosted = @State.failPosted := rfl
  conv at hdef => rhs; delta State.failPosted
  rw [congrFun (congrFun (congrFun (congrFun hdef s) c) g) i]; clear hdef
  repeat' first
    | with_reducible assumption
    | with_reducible refine State.collFailed_kept (Mask.sub hm (by decide)) ?_
    | with_reducible refine State.writeEntry_kept (Mask.sub hm (by decide)) ?_
    | with_reducible refine State.deliverFlag_kept (Mask.sub hm (by decide)) ?_
    | with_reducible refine Kept.ite ?_ ?_
    | (extract_lets -underBinder +onlyGivenNames x; subst x)
    | split
    | dsimp only

theorem State.failGroup_kept {m : Nat} {s0 s : State} {c : Nat} {g : Nat} (hm : 0x9ef &&& m = 0x9ef) (h : Kept m s0 s) :
     Kept m s0 (State.failGroup s c g) := by
  have hdef : @State.failGroup = @State.failGroup := rfl
  conv at hdef => rhs; delta State.failGroup
  rw [congrFun (congrFun (congrFun hdef s) c) g]; clear hdef
  repeat' first
    | with_reducible assumption
    | with_reducible refine State.failPosted_kept (Mask.sub hm (by decide)) ?_
    | with_reducible refine State.endEntry_kept (Mask.sub hm (by decide)) ?_
    | with_reducible refine Kept.foldl (fun _ _ _ => ?_) _ ?_
    | with_reducible refine Kept.ite ?_ ?_
    | (extract_lets -underBinder +onlyGivenNames x; subst x)
    | split
    | dsimp only

theorem State.imageLost_kept {m : Nat} {s0 s : State} {c : Nat} {k : Nat} {part : Nat} (hm : 0x869 &&& m = 0x869) (h : Kept m s0 s) :
     Kept m s0 (State.imageLost s c k part) := by
  have hdef : @State.imageLost = @State.imageLost := rfl
  conv at hdef => rhs; delta State.imageLost
  rw [congrFun (congrFun (congrFun (congrFun hdef s) c) k) part]; clear hdef
  repeat' first
    | with_reducible assumption
    | with_reducible refine State.setFld_kept (Mask.sub hm (by decide)) ?_
    | with_reducible refine State.modDust_kept (Mask.sub hm (by decide)) ?_
    | with_reducible refine State.raise_kept (Mask.sub hm (by decide)) ?_
    | with_reducible refine State.flagCount_kept (Mask.sub hm (by decide)) ?_
    | with_reducible refine Kept.ite ?_ ?_
    | (extract_lets -underBinder +onlyGivenNames x; subst x)
    | split
    | dsimp only

theorem State.imagesLost_kept {m : Nat} {s0 s : State} {c : Nat} {part : Nat} (hm : 0x869 &&& m = 0x869) (h : Kept m s0 s) :
     Kept m s0 (State.imagesLost s c part) := by
  have hdef : @State.imagesLost = @State.imagesLost := rfl
  conv at hdef => rhs; delta State.imagesLost
  rw [congrFun (congrFun (congrFun hdef s) c) part]; clear hdef
  repeat' first
    | with_reducible assumption
    | with_reducible refine State.imageLost_kept (Mask.sub hm (by decide)) ?_
    | with_reducible refine Kept.foldl (fun _ _ _ => ?_) _ ?_
    | with_reducible refine Kept.ite ?_ ?_
    | (extract_lets -underBinder +onlyGivenNames x; subst x)
    | split
    | dsimp only

theorem State.putMtab_kept {m : Nat} {s0 s : State} {c : Nat} {bs : List Byte} {rank : Nat} (hm : 0xc7 &&& m = 0xc7) (h : Kept m s0 s) :
     Kept m s0 (State.putMtab s c bs rank) := by
  have hdef : @State.putMtab = @State.putMtab := rfl
  conv at hdef => rhs; delta State.putMtab
  rw [congrFun (congrFun (congrFun (congrFun hdef s) c) bs) rank]; clear hdef
  repeat' first
    | with_reducible assumption
    | with_reducible refine State.vpoke_kept (Mask.sub hm (by decide)) ?_
    | with_reducible refine Kept.ite ?_ ?_
    | (extract_lets -underBinder +onlyGivenNames x; subst x)
    | split
    | dsimp only

theorem State.installTable_kept {m : Nat} {s0 s : State} {c : Nat} {bs : List Byte} {t : MemberTable} (hm : 0x9ef &&& m = 0x9ef) (h : Kept m s0 s) :
     Kept m s0 (State.installTable s c bs t) := by
  have hdef : @State.installTable = @State.installTable := rfl
  conv at hdef => rhs; delta State.installTable
  rw [congrFun (congrFun (congrFun (congrFun hdef s) c) bs) t]; clear hdef
  repeat' first
    | with_reducible assumption
    | with_reducible refine State.putMtab_kept (Mask.sub hm (by decide)) ?_
    | with_reducible refine State.imagesLost_kept (Mask.sub hm (by decide)) ?_
    | with_reducible refine State.failGroup_kept (Mask.sub hm (by decide)) ?_
    | with_reducible refine State.unfencePart_kept (Mask.sub hm (by decide)) ?_
    | with_reducible refine State.fencePart_kept (Mask.sub hm (by decide)) ?_
    | with_reducible refine State.modCtx_kept (Mask.sub hm (by decide)) ?_
    | with_reducible refine State.setReg64_kept (Mask.sub hm (by decide)) ?_
    | with_reducible refine State.setReg_kept (Mask.sub hm (by decide)) ?_
    | with_reducible refine State.raise_kept (Mask.sub hm (by decide)) ?_
    | with_reducible refine Kept.foldl (fun _ _ _ => ?_) _ ?_
    | with_reducible refine Kept.ite ?_ ?_
    | (extract_lets -underBinder +onlyGivenNames x; subst x)
    | split
    | dsimp only

theorem execMemberReceive_kept {m : Nat} {s0 s : State} {n : Nat} (hm : 0x140 &&& m = 0x140) (h : Kept m s0 s) :
     OutKept m s0 (execMemberReceive n s) := by
  have hdef : @execMemberReceive = @execMemberReceive := rfl
  conv at hdef => rhs; delta execMemberReceive
  rw [congrFun (congrFun hdef n) s]; clear hdef
  repeat' first
    | with_reducible assumption
    | with_reducible refine State.takeInbox_kept (Mask.sub hm (by decide)) ?_
    | with_reducible refine State.modCtx_kept (Mask.sub hm (by decide)) ?_
    | with_reducible refine OutKept.next ?_
    | with_reducible refine Kept.ofSomePair (by assumption) ?_
    | with_reducible refine Kept.ofSomeSnd (by assumption) ?_
    | with_reducible refine Kept.ofSomeTriple (by assumption) ?_
    | with_reducible refine Kept.ite ?_ ?_
    | with_reducible refine Kept.iteSnd ?_ ?_
    | with_reducible refine Kept.iteFst ?_ ?_
    | (extract_lets -underBinder +onlyGivenNames x; subst x)
    | split
    | dsimp only

theorem State.notify_kept {m : Nat} {s0 s : State} {c : Nat} {gi : Nat} {kind : Nat} {epoch : Nat} {e : Nat} {removed : Nat} (hm : 0x108 &&& m = 0x108) (h : Kept m s0 s) :
     Kept m s0 (State.notify s c gi kind epoch e removed) := by
  have hdef : @State.notify = @State.notify := rfl
  conv at hdef => rhs; delta State.notify
  rw [congrFun (congrFun (congrFun (congrFun (congrFun (congrFun (congrFun hdef s) c) gi) kind) epoch) e) removed]; clear hdef
  repeat' first
    | with_reducible assumption
    | with_reducible refine State.sendFree_kept (Mask.sub hm (by decide)) ?_
    | with_reducible refine Kept.foldl (fun _ _ _ => ?_) _ ?_
    | with_reducible refine Kept.ite ?_ ?_
    | (extract_lets -underBinder +onlyGivenNames x; subst x)
    | split
    | dsimp only

theorem State.shardLost_kept {m : Nat} {s0 s : State} {c : Nat} {g : Nat} {reason : Nat} {source : Nat} (hm : 0x829 &&& m = 0x829) (h : Kept m s0 s) :
     Kept m s0 (State.shardLost s c g reason source) := by
  have hdef : @State.shardLost = @State.shardLost := rfl
  conv at hdef => rhs; delta State.shardLost
  rw [congrFun (congrFun (congrFun (congrFun (congrFun hdef s) c) g) reason) source]; clear hdef
  repeat' first
    | with_reducible assumption
    | with_reducible refine State.raise_kept (Mask.sub hm (by decide)) ?_
    | with_reducible refine State.flagCount_kept (Mask.sub hm (by decide)) ?_
    | with_reducible refine Kept.ite ?_ ?_
    | (extract_lets -underBinder +onlyGivenNames x; subst x)
    | split
    | dsimp only

theorem State.memberDone_kept {m : Nat} {s0 s : State} {c : Nat} {a : Nat} {epoch : Nat} {status : Nat} (hm : 0x849 &&& m = 0x849) (h : Kept m s0 s) :
     Kept m s0 (State.memberDone s c a epoch status) := by
  have hdef : @State.memberDone = @State.memberDone := rfl
  conv at hdef => rhs; delta State.memberDone
  rw [congrFun (congrFun (congrFun (congrFun (congrFun hdef s) c) a) epoch) status]; clear hdef
  repeat' first
    | with_reducible assumption
    | with_reducible refine State.deliverFlag_kept (Mask.sub hm (by decide)) ?_
    | with_reducible refine State.complete_kept (Mask.sub hm (by decide)) ?_
    | with_reducible refine Kept.ite ?_ ?_
    | (extract_lets -underBinder +onlyGivenNames x; subst x)
    | split
    | dsimp only

theorem State.beginAdopt_kept {m : Nat} {s0 s : State} {c : Nat} {t : MemberTable} {source : Nat × Nat} {rollback : Nat} (hm : 0x40 &&& m = 0x40) (h : Kept m s0 s) :
     Kept m s0 (State.beginAdopt s c t source rollback) := by
  have hdef : @State.beginAdopt = @State.beginAdopt := rfl
  conv at hdef => rhs; delta State.beginAdopt
  rw [congrFun (congrFun (congrFun (congrFun (congrFun hdef s) c) t) source) rollback]; clear hdef
  repeat' first
    | with_reducible assumption
    | with_reducible refine State.modDust_kept (Mask.sub hm (by decide)) ?_
    | with_reducible refine Kept.ite ?_ ?_
    | (extract_lets -underBinder +onlyGivenNames x; subst x)
    | split
    | dsimp only

theorem State.acceptTable_kept {m : Nat} {s0 s : State} {c : Nat} {bs : List Byte} {t : MemberTable} (hm : 0x9ef &&& m = 0x9ef) (h : Kept m s0 s) :
     Kept m s0 (State.acceptTable s c bs t) := by
  have hdef : @State.acceptTable = @State.acceptTable := rfl
  conv at hdef => rhs; delta State.acceptTable
  rw [congrFun (congrFun (congrFun (congrFun hdef s) c) bs) t]; clear hdef
  repeat' first
    | with_reducible assumption
    | with_reducible refine State.beginAdopt_kept (Mask.sub hm (by decide)) ?_
    | with_reducible refine State.memberDone_kept (Mask.sub hm (by decide)) ?_
    | with_reducible refine State.shardLost_kept (Mask.sub hm (by decide)) ?_
    | with_reducible refine State.installTable_kept (Mask.sub hm (by decide)) ?_
    | with_reducible refine Kept.getD_ ?_ ?_
    | with_reducible refine Kept.ite ?_ ?_
    | (extract_lets -underBinder +onlyGivenNames x; subst x)
    | split
    | dsimp only

theorem State.modAdopt_kept {m : Nat} {s0 s : State} {c : Nat} {f : Adoption → Adoption} (hm : 0x40 &&& m = 0x40) (h : Kept m s0 s) :
     Kept m s0 (State.modAdopt s c f) := by
  have hdef : @State.modAdopt = @State.modAdopt := rfl
  conv at hdef => rhs; delta State.modAdopt
  rw [congrFun (congrFun (congrFun hdef s) c) f]; clear hdef
  repeat' first
    | with_reducible assumption
    | with_reducible refine State.modDust_kept (Mask.sub hm (by decide)) ?_
    | with_reducible refine Kept.ite ?_ ?_
    | (extract_lets -underBinder +onlyGivenNames x; subst x)
    | split
    | dsimp only

theorem State.shareDone_kept {m : Nat} {s0 s : State} {c : Nat} {a : Adoption} (hm : 0x969 &&& m = 0x969) (h : Kept m s0 s) :
     Kept m s0 (State.shareDone s c a) := by
  have hdef : @State.shareDone = @State.shareDone := rfl
  conv at hdef => rhs; delta State.shareDone
  rw [congrFun (congrFun (congrFun hdef s) c) a]; clear hdef
  repeat' first
    | with_reducible assumption
    | with_reducible refine State.modAdopt_kept (Mask.sub hm (by decide)) ?_
    | with_reducible refine State.notify_kept (Mask.sub hm (by decide)) ?_
    | with_reducible refine State.raise_kept (Mask.sub hm (by decide)) ?_
    | with_reducible refine State.modDust_kept (Mask.sub hm (by decide)) ?_
    | with_reducible refine Kept.ite ?_ ?_
    | (extract_lets -underBinder +onlyGivenNames x; subst x)
    | split
    | dsimp only

theorem State.adoptGo_kept {m : Nat} {s0 s : State} {c : Nat} {x1 : Nat} (hm : 0x9ef &&& m = 0x9ef) (h : Kept m s0 s) :
     Kept m s0 (State.adoptGo s c x1) := by
  induction x1 generalizing s with
  | zero => rw [State.adoptGo]; exact h
  | succ n ih =>
    rw [State.adoptGo]
    repeat' first
      | with_reducible assumption
      | with_reducible refine ih ?_
      | with_reducible refine State.shareDone_kept (Mask.sub hm (by decide)) ?_
      | with_reducible refine State.modAdopt_kept (Mask.sub hm (by decide)) ?_
      | with_reducible refine State.memberDone_kept (Mask.sub hm (by decide)) ?_
      | with_reducible refine State.shardLost_kept (Mask.sub hm (by decide)) ?_
      | with_reducible refine State.imgStep_kept (Mask.sub hm (by decide)) ?_
      | with_reducible refine State.modDust_kept (Mask.sub hm (by decide)) ?_
      | with_reducible refine ImgRes.All.use0 (by assumption) ?_
      | with_reducible refine ImgRes.All.use1 (by assumption) ?_
      | with_reducible refine ImgRes.All.use2 (by assumption) ?_
      | with_reducible refine ImgRes.All.use3 (by assumption) ?_
      | with_reducible refine ImgRes.All.use4 (by assumption) ?_
      | with_reducible refine Kept.ite ?_ ?_
      | (extract_lets -underBinder +onlyGivenNames x; subst x)
      | split
      | dsimp only

theorem execShardAdopted_kept {m : Nat} {s0 s : State} {c : CtxId} (hm : 0x9ef &&& m = 0x9ef) (h : Kept m s0 s) :
     OutKept m s0 (execShardAdopted c s) := by
  have hdef : @execShardAdopted = @execShardAdopted := rfl
  conv at hdef => rhs; delta execShardAdopted
  rw [congrFun (congrFun hdef c) s]; clear hdef
  repeat' first
    | with_reducible assumption
    | with_reducible refine State.adoptGo_kept (Mask.sub hm (by decide)) ?_
    | with_reducible refine OutKept.next ?_
    | with_reducible refine Kept.ite ?_ ?_
    | (extract_lets -underBinder +onlyGivenNames x; subst x)
    | split
    | dsimp only

theorem State.takeQueued_kept {m : Nat} {s0 s : State} {c : Nat} (hm : 0x9ef &&& m = 0x9ef) (h : Kept m s0 s) :
     Kept m s0 (State.takeQueued s c) := by
  have hdef : @State.takeQueued = @State.takeQueued := rfl
  conv at hdef => rhs; delta State.takeQueued
  rw [congrFun (congrFun hdef s) c]; clear hdef
  repeat' first
    | with_reducible assumption
    | with_reducible refine State.acceptTable_kept (Mask.sub hm (by decide)) ?_
    | with_reducible refine State.modDust_kept (Mask.sub hm (by decide)) ?_
    | with_reducible refine State.phaseWhere_kept (Mask.sub hm (by decide)) ?_
    | with_reducible refine Kept.ite ?_ ?_
    | (extract_lets -underBinder +onlyGivenNames x; subst x)
    | split
    | dsimp only

theorem execShardCommit_kept {m : Nat} {s0 s : State} {c : CtxId} (hm : 0x9ef &&& m = 0x9ef) (h : Kept m s0 s) :
     OutKept m s0 (execShardCommit c s) := by
  have hdef : @execShardCommit = @execShardCommit := rfl
  conv at hdef => rhs; delta execShardCommit
  rw [congrFun (congrFun hdef c) s]; clear hdef
  repeat' first
    | with_reducible assumption
    | with_reducible refine State.takeQueued_kept (Mask.sub hm (by decide)) ?_
    | with_reducible refine State.memberDone_kept (Mask.sub hm (by decide)) ?_
    | with_reducible refine State.mboxFullEvent_kept (Mask.sub hm (by decide)) ?_
    | with_reducible refine State.modDust_kept (Mask.sub hm (by decide)) ?_
    | with_reducible refine OutKept.next ?_
    | with_reducible refine Kept.ite ?_ ?_
    | (extract_lets -underBinder +onlyGivenNames x; subst x)
    | split
    | dsimp only

theorem State.beginRollback_kept {m : Nat} {s0 s : State} {c : Nat} {a : Adoption} {bs : List Byte} {t : MemberTable} (hm : 0x9ef &&& m = 0x9ef) (h : Kept m s0 s) :
     Kept m s0 (State.beginRollback s c a bs t) := by
  have hdef : @State.beginRollback = @State.beginRollback := rfl
  conv at hdef => rhs; delta State.beginRollback
  rw [congrFun (congrFun (congrFun (congrFun (congrFun hdef s) c) a) bs) t]; clear hdef
  repeat' first
    | with_reducible assumption
    | with_reducible refine State.beginAdopt_kept (Mask.sub hm (by decide)) ?_
    | with_reducible refine State.memberDone_kept (Mask.sub hm (by decide)) ?_
    | with_reducible refine State.shardLost_kept (Mask.sub hm (by decide)) ?_
    | with_reducible refine State.notify_kept (Mask.sub hm (by decide)) ?_
    | with_reducible refine State.installTable_kept (Mask.sub hm (by decide)) ?_
    | with_reducible refine State.modDust_kept (Mask.sub hm (by decide)) ?_
    | with_reducible refine State.phaseWhere_kept (Mask.sub hm (by decide)) ?_
    | with_reducible refine Kept.getD_ ?_ ?_
    | with_reducible refine Kept.ite ?_ ?_
    | (extract_lets -underBinder +onlyGivenNames x; subst x)
    | split
    | dsimp only

theorem State.secondTable_kept {m : Nat} {s0 s : State} {c : Nat} {a : Adoption} {bs : List Byte} {t : MemberTable} (hm : 0x9ef &&& m = 0x9ef) (h : Kept m s0 s) :
     Kept m s0 (State.secondTable s c a bs t) := by
  have hdef : @State.secondTable = @State.secondTable := rfl
  conv at hdef => rhs; delta State.secondTable
  rw [congrFun (congrFun (congrFun (congrFun (congrFun hdef s) c) a) bs) t]; clear hdef
  repeat' first
    | with_reducible assumption
    | with_reducible refine State.beginRollback_kept (Mask.sub hm (by decide)) ?_
    | with_reducible refine State.modAdopt_kept (Mask.sub hm (by decide)) ?_
    | with_reducible refine State.phaseWhere_kept (Mask.sub hm (by decide)) ?_
    | with_reducible refine State.modDust_kept (Mask.sub hm (by decide)) ?_
    | with_reducible refine Kept.ite ?_ ?_
    | (extract_lets -underBinder +onlyGivenNames x; subst x)
    | split
    | dsimp only

theorem execSetMembership_kept {m : Nat} {s0 s : State} {c : CtxId} {k : Nat} (hm : 0x9ef &&& m = 0x9ef) (h : Kept m s0 s) :
     OutKept m s0 (execSetMembership c k s) := by
  have hdef : @execSetMembership = @execSetMembership := rfl
  conv at hdef => rhs; delta execSetMembership
  rw [congrFun (congrFun (congrFun hdef c) k) s]; clear hdef
  repeat' first
    | with_reducible assumption
    | with_reducible refine State.secondTable_kept (Mask.sub hm (by decide)) ?_
    | with_reducible refine State.acceptTable_kept (Mask.sub hm (by decide)) ?_
    | with_reducible refine State.onCmd_kept (Mask.sub hm (by decide)) ?_ (fun _ => ?_)
    | with_reducible refine State.complete_kept (Mask.sub hm (by decide)) ?_
    | with_reducible refine State.hubNeeds_kept (Mask.sub hm (by decide)) ?_ (fun _ _ => ?_)
    | with_reducible refine State.setPhase_kept (Mask.sub hm (by decide)) ?_
    | with_reducible refine OutKept.next ?_
    | with_reducible refine Kept.ite ?_ ?_
    | (extract_lets -underBinder +onlyGivenNames x; subst x)
    | split
    | dsimp only

theorem State.rollbackFails_kept {m : Nat} {s0 s : State} {c : Nat} {a : Adoption} {status : Nat} (hm : 0xfef &&& m = 0xfef) (h : Kept m s0 s) :
     Kept m s0 (State.rollbackFails s c a status) := by
  have hdef : @State.rollbackFails = @State.rollbackFails := rfl
  conv at hdef => rhs; delta State.rollbackFails
  rw [congrFun (congrFun (congrFun (congrFun hdef s) c) a) status]; clear hdef
  repeat' first
    | with_reducible assumption
    | with_reducible refine State.memberDone_kept (Mask.sub hm (by decide)) ?_
    | with_reducible refine State.enter_kept (Mask.sub hm (by decide)) ?_
    | with_reducible refine State.enterRestoring_kept (Mask.sub hm (by decide)) ?_
    | with_reducible refine State.modDust_kept (Mask.sub hm (by decide)) ?_
    | with_reducible refine Kept.ite ?_ ?_
    | (extract_lets -underBinder +onlyGivenNames x; subst x)
    | split
    | dsimp only

theorem State.rollbackGo_kept {m : Nat} {s0 s : State} {c : Nat} {a : Adoption} (hm : 0x10fef &&& m = 0x10fef) (h : Kept m s0 s) :
     Kept m s0 (State.rollbackGo s c a) := by
  have hdef : @State.rollbackGo = @State.rollbackGo := rfl
  conv at hdef => rhs; delta State.rollbackGo
  rw [congrFun (congrFun (congrFun hdef s) c) a]; clear hdef
  repeat' first
    | with_reducible assumption
    | with_reducible refine State.rollbackFails_kept (Mask.sub hm (by decide)) ?_
    | with_reducible refine State.modAdopt_kept (Mask.sub hm (by decide)) ?_
    | with_reducible refine State.restoreGo_kept (Mask.sub hm (by decide)) ?_
    | with_reducible refine State.raise_kept (Mask.sub hm (by decide)) ?_
    | with_reducible refine State.setFld_kept (Mask.sub hm (by decide)) ?_
    | with_reducible refine RestRes.All.use0 (by assumption) ?_
    | with_reducible refine RestRes.All.use1 (by assumption) ?_
    | with_reducible refine RestRes.All.use2 (by assumption) ?_
    | with_reducible refine RestRes.All.use3 (by assumption) ?_
    | with_reducible refine Kept.ite ?_ ?_
    | (extract_lets -underBinder +onlyGivenNames x; subst x)
    | split
    | dsimp only

theorem execRollback_kept {m : Nat} {s0 s : State} {c : CtxId} (hm : 0x10fef &&& m = 0x10fef) (h : Kept m s0 s) :
     OutKept m s0 (execRollback c s) := by
  have hdef : @execRollback = @execRollback := rfl
  conv at hdef => rhs; delta execRollback
  rw [congrFun (congrFun hdef c) s]; clear hdef
  repeat' first
    | with_reducible assumption
    | with_reducible refine State.rollbackGo_kept (Mask.sub hm (by decide)) ?_
    | with_reducible refine State.rollbackFails_kept (Mask.sub hm (by decide)) ?_
    | with_reducible refine State.modAdopt_kept (Mask.sub hm (by decide)) ?_
    | with_reducible refine State.notify_kept (Mask.sub hm (by decide)) ?_
    | with_reducible refine State.hubNeeds_kept (Mask.sub hm (by decide)) ?_ (fun _ _ => ?_)
    | with_reducible refine State.modDust_kept (Mask.sub hm (by decide)) ?_
    | with_reducible refine OutKept.next ?_
    | with_reducible refine Kept.ite ?_ ?_
    | (extract_lets -underBinder +onlyGivenNames x; subst x)
    | split
    | dsimp only

end Sys2Proof.Machine
end

