-- ==== Sys2Proof/Laws/KeptRun.lean ====
section
/-!
SUPPORT. What the operations of Sys2Proof/Machine/Run.lean keep (Laws/Kept.lean).
-/
namespace Sys2Proof.Machine

theorem State.launchAll_kept {m : Nat} {s0 s : State} {c : Nat} {arg : Nat} (hm : 0xc0 &&& m = 0xc0) (h : Kept m s0 s) :
     Kept m s0 (State.launchAll s c arg) := by
  have hdef : @State.launchAll = @State.launchAll := rfl
  conv at hdef => rhs; delta State.launchAll
  rw [congrFun (congrFun (congrFun hdef s) c) arg]; clear hdef
  repeat' first
    | with_reducible assumption
    | with_reducible refine State.modAu_kept (Mask.sub hm (by decide)) ?_
    | with_reducible refine State.modCtx_kept (Mask.sub hm (by decide)) ?_
    | with_reducible refine Kept.foldl (fun _ _ _ => ?_) _ ?_
    | with_reducible refine Kept.ite ?_ ?_
    | (extract_lets -underBinder +onlyGivenNames x; subst x)
    | split
    | dsimp only

theorem State.runCoat_kept {m : Nat} {s0 s : State} {c : Nat} (hm : 0xc7 &&& m = 0xc7) (h : Kept m s0 s) :
     Kept m s0 (State.runCoat s c) := by
  have hdef : @State.runCoat = @State.runCoat := rfl
  conv at hdef => rhs; delta State.runCoat
  rw [congrFun (congrFun hdef s) c]; clear hdef
  repeat' first
    | with_reducible assumption
    | with_reducible refine State.modCtx_kept (Mask.sub hm (by decide)) ?_
    | with_reducible refine State.vpoke_kept (Mask.sub hm (by decide)) ?_
    | with_reducible refine Kept.ite ?_ ?_
    | (extract_lets -underBinder +onlyGivenNames x; subst x)
    | split
    | dsimp only

theorem State.keepDust_kept {m : Nat} {s0 s : State} {c : Nat} (hm : 0x40 &&& m = 0x40) (h : Kept m s0 s) :
     Kept m s0 (State.keepDust s c) := by
  have hdef : @State.keepDust = @State.keepDust := rfl
  conv at hdef => rhs; delta State.keepDust
  rw [congrFun (congrFun hdef s) c]; clear hdef
  repeat' first
    | with_reducible assumption
    | with_reducible refine State.modDust_kept (Mask.sub hm (by decide)) ?_
    | with_reducible refine Kept.ite ?_ ?_
    | (extract_lets -underBinder +onlyGivenNames x; subst x)
    | split
    | dsimp only

theorem State.runDust_kept {m : Nat} {s0 s : State} {c : Nat} {go : State → State} (hm : 0xfef &&& m = 0xfef) (h : Kept m s0 s) (h_go : ∀ a0, Kept m s0 a0 → Kept m s0 (go a0)) :
     Kept m s0 (State.runDust s c go) := by
  have hdef : @State.runDust = @State.runDust := rfl
  conv at hdef => rhs; delta State.runDust
  rw [congrFun (congrFun (congrFun hdef s) c) go]; clear hdef
  repeat' first
    | with_reducible assumption
    | with_reducible refine State.keepDust_kept (Mask.sub hm (by decide)) ?_
    | with_reducible refine State.faultCtx_kept (Mask.sub hm (by decide)) ?_
    | with_reducible refine h_go _ ?_
    | with_reducible refine Kept.ite ?_ ?_
    | (extract_lets -underBinder +onlyGivenNames x; subst x)
    | split
    | dsimp only

theorem State.keepTrowel_kept {m : Nat} {s0 s : State} {c : Nat} (hm : 0x40 &&& m = 0x40) (h : Kept m s0 s) :
     Kept m s0 (State.keepTrowel s c) := by
  have hdef : @State.keepTrowel = @State.keepTrowel := rfl
  conv at hdef => rhs; delta State.keepTrowel
  rw [congrFun (congrFun hdef s) c]; clear hdef
  repeat' first
    | with_reducible assumption
    | with_reducible refine State.modCtx_kept (Mask.sub hm (by decide)) ?_
    | with_reducible refine Kept.ite ?_ ?_
    | (extract_lets -underBinder +onlyGivenNames x; subst x)
    | split
    | dsimp only

theorem State.runTrowel_kept {m : Nat} {s0 s : State} {c : Nat} {go : State → State} (hm : 0xfef &&& m = 0xfef) (h : Kept m s0 s) (h_go : ∀ a0, Kept m s0 a0 → Kept m s0 (go a0)) :
     Kept m s0 (State.runTrowel s c go) := by
  have hdef : @State.runTrowel = @State.runTrowel := rfl
  conv at hdef => rhs; delta State.runTrowel
  rw [congrFun (congrFun (congrFun hdef s) c) go]; clear hdef
  repeat' first
    | with_reducible assumption
    | with_reducible refine State.keepTrowel_kept (Mask.sub hm (by decide)) ?_
    | with_reducible refine State.faultCtx_kept (Mask.sub hm (by decide)) ?_
    | with_reducible refine State.flagCount_kept (Mask.sub hm (by decide)) ?_
    | with_reducible refine h_go _ ?_
    | with_reducible refine Kept.ite ?_ ?_
    | (extract_lets -underBinder +onlyGivenNames x; subst x)
    | split
    | dsimp only

theorem State.runBegins_kept {m : Nat} {s0 s : State} {c : Nat} {k : Nat} (hm : 0xcf &&& m = 0xcf) (h : Kept m s0 s) :
     Kept m s0 (State.runBegins s c k) := by
  have hdef : @State.runBegins = @State.runBegins := rfl
  conv at hdef => rhs; delta State.runBegins
  rw [congrFun (congrFun (congrFun hdef s) c) k]; clear hdef
  repeat' first
    | with_reducible assumption
    | with_reducible refine State.runCoat_kept (Mask.sub hm (by decide)) ?_
    | with_reducible refine State.modCtx_kept (Mask.sub hm (by decide)) ?_
    | with_reducible refine State.enter_kept (Mask.sub hm (by decide)) ?_
    | with_reducible refine State.setPhase_kept (Mask.sub hm (by decide)) ?_
    | with_reducible refine Kept.ite ?_ ?_
    | (extract_lets -underBinder +onlyGivenNames x; subst x)
    | split
    | dsimp only

theorem State.runStarts_kept {m : Nat} {s0 s : State} {c : Nat} {k : Nat} {arg : Nat} (hm : 0xfef &&& m = 0xfef) (h : Kept m s0 s) :
     Kept m s0 (State.runStarts s c k arg) := by
  have hdef : @State.runStarts = @State.runStarts := rfl
  conv at hdef => rhs; delta State.runStarts
  rw [congrFun (congrFun (congrFun (congrFun hdef s) c) k) arg]; clear hdef
  repeat' first
    | with_reducible assumption
    | with_reducible refine State.runBegins_kept (Mask.sub hm (by decide)) ?_
    | with_reducible refine State.runTrowel_kept (Mask.sub hm (by decide)) ?_ (fun _ _ => ?_)
    | with_reducible refine State.runDust_kept (Mask.sub hm (by decide)) ?_ (fun _ _ => ?_)
    | with_reducible refine State.launchAll_kept (Mask.sub hm (by decide)) ?_
    | with_reducible refine Kept.ite ?_ ?_
    | (extract_lets -underBinder +onlyGivenNames x; subst x)
    | split
    | dsimp only

theorem execRun_kept {m : Nat} {s0 s : State} {c : CtxId} {k : Nat} (hm : 0xfef &&& m = 0xfef) (h : Kept m s0 s) :
     OutKept m s0 (execRun c k s) := by
  have hdef : @execRun = @execRun := rfl
  conv at hdef => rhs; delta execRun
  rw [congrFun (congrFun (congrFun hdef c) k) s]; clear hdef
  repeat' first
    | with_reducible assumption
    | with_reducible refine State.runStarts_kept (Mask.sub hm (by decide)) ?_
    | with_reducible refine State.onCmd_kept (Mask.sub hm (by decide)) ?_ (fun _ => ?_)
    | with_reducible refine State.complete_kept (Mask.sub hm (by decide)) ?_
    | with_reducible refine State.hubNeeds_kept (Mask.sub hm (by decide)) ?_ (fun _ _ => ?_)
    | with_reducible refine State.hubWrites_kept (Mask.sub hm (by decide)) ?_ (fun _ _ => ?_)
    | with_reducible refine OutKept.next ?_
    | with_reducible refine Kept.ite ?_ ?_
    | (extract_lets -underBinder +onlyGivenNames x; subst x)
    | split
    | dsimp only

theorem execOpStartAfterWait_kept {m : Nat} {s0 s : State} {a : AuId} {u_ : UnitId} (hm : 0xfef &&& m = 0xfef) (h : Kept m s0 s) :
     OutKept m s0 (execOpStartAfterWait a u_ s) := by
  have hdef : @execOpStartAfterWait = @execOpStartAfterWait := rfl
  conv at hdef => rhs; delta execOpStartAfterWait
  rw [congrFun (congrFun (congrFun hdef a) u_) s]; clear hdef
  repeat' first
    | with_reducible assumption
    | with_reducible refine State.startCompute_kept (Mask.sub hm (by decide)) ?_
    | with_reducible refine State.startLoad_kept (Mask.sub hm (by decide)) ?_
    | with_reducible refine State.startDrain_kept (Mask.sub hm (by decide)) ?_
    | with_reducible refine State.startScreed_kept (Mask.sub hm (by decide)) ?_
    | with_reducible refine State.startTrowel_kept (Mask.sub hm (by decide)) ?_
    | with_reducible refine State.startMove_kept (Mask.sub hm (by decide)) ?_
    | with_reducible refine OutKept.next ?_
    | with_reducible refine Kept.ite ?_ ?_
    | (extract_lets -underBinder +onlyGivenNames x; subst x)
    | split
    | dsimp only

theorem State.waitSnapshot_kept {m : Nat} {s0 s : State} {c : Nat} (hm : 0x10001 &&& m = 0x10001) (h : Kept m s0 s) :
     Kept m s0 (State.waitSnapshot s c) := by
  have hdef : @State.waitSnapshot = @State.waitSnapshot := rfl
  conv at hdef => rhs; delta State.waitSnapshot
  rw [congrFun (congrFun hdef s) c]; clear hdef
  repeat' first
    | with_reducible assumption
    | with_reducible refine State.pick_kept (Mask.sub hm (by decide)) ?_
    | with_reducible refine State.hostWrite_kept (Mask.sub hm (by decide)) ?_
    | with_reducible refine Kept.ofPair (by assumption) ?_
    | with_reducible refine Kept.ite ?_ ?_
    | with_reducible refine Kept.iteSnd ?_ ?_
    | with_reducible refine Kept.iteFst ?_ ?_
    | (extract_lets -underBinder +onlyGivenNames x; subst x)
    | split
    | dsimp only

theorem State.deadlock_kept {m : Nat} {s0 s : State} {c : Nat} (hm : 0x10fef &&& m = 0x10fef) (h : Kept m s0 s) :
     Kept m s0 (State.deadlock s c) := by
  have hdef : @State.deadlock = @State.deadlock := rfl
  conv at hdef => rhs; delta State.deadlock
  rw [congrFun (congrFun hdef s) c]; clear hdef
  repeat' first
    | with_reducible assumption
    | with_reducible refine State.waitSnapshot_kept (Mask.sub hm (by decide)) ?_
    | with_reducible refine State.faultCtx_kept (Mask.sub hm (by decide)) ?_
    | with_reducible refine State.flagCount_kept (Mask.sub hm (by decide)) ?_
    | with_reducible refine Kept.foldl (fun _ _ _ => ?_) _ ?_
    | with_reducible refine Kept.ite ?_ ?_
    | (extract_lets -underBinder +onlyGivenNames x; subst x)
    | split
    | dsimp only

theorem execDeadlockWindowExpiry_kept {m : Nat} {s0 s : State} {c : CtxId} {t : Nat} (hm : 0x18fef &&& m = 0x18fef) (h : Kept m s0 s) :
     OutKept m s0 (execDeadlockWindowExpiry c t s) := by
  have hdef : @execDeadlockWindowExpiry = @execDeadlockWindowExpiry := rfl
  conv at hdef => rhs; delta execDeadlockWindowExpiry
  rw [congrFun (congrFun (congrFun hdef c) t) s]; clear hdef
  repeat' first
    | with_reducible assumption
    | with_reducible refine State.deadlock_kept (Mask.sub hm (by decide)) ?_
    | with_reducible refine State.at_kept (Mask.sub hm (by decide)) ?_
    | with_reducible refine OutKept.next ?_
    | with_reducible refine Kept.ite ?_ ?_
    | (extract_lets -underBinder +onlyGivenNames x; subst x)
    | split
    | dsimp only

theorem execSlowdownWindowEnd_kept {m : Nat} {s0 s : State} {c : CtxId} {intf : List Nat} {t : Nat} (hm : 0x8869 &&& m = 0x8869) (h : Kept m s0 s) :
     OutKept m s0 (execSlowdownWindowEnd c intf t s) := by
  have hdef : @execSlowdownWindowEnd = @execSlowdownWindowEnd := rfl
  conv at hdef => rhs; delta execSlowdownWindowEnd
  rw [congrFun (congrFun (congrFun (congrFun hdef c) intf) t) s]; clear hdef
  repeat' first
    | with_reducible assumption
    | with_reducible refine State.at_kept (Mask.sub hm (by decide)) ?_
    | with_reducible refine State.modCtx_kept (Mask.sub hm (by decide)) ?_
    | with_reducible refine State.setReg64_kept (Mask.sub hm (by decide)) ?_
    | with_reducible refine State.setFld_kept (Mask.sub hm (by decide)) ?_
    | with_reducible refine State.raise_kept (Mask.sub hm (by decide)) ?_
    | with_reducible refine Kept.foldl (fun _ _ _ => ?_) _ ?_
    | with_reducible refine OutKept.next ?_
    | with_reducible refine Kept.getD_ ?_ ?_
    | with_reducible refine Kept.ite ?_ ?_
    | (extract_lets -underBinder +onlyGivenNames x; subst x)
    | split
    | dsimp only

end Sys2Proof.Machine
end

