-- ==== Sys2Proof/Laws/KeptHostPorts.lean ====
section
/-!
SUPPORT. What the operations of Sys2Proof/Machine/HostPorts.lean keep (Laws/Kept.lean).
-/
namespace Sys2Proof.Machine

theorem State.resetFn_kept {m : Nat} {s0 s : State} {f : Nat} (hm : 0x28 &&& m = 0x28) (h : Kept m s0 s) :
     Kept m s0 (State.resetFn s f) := by
  have hdef : @State.resetFn = @State.resetFn := rfl
  conv at hdef => rhs; delta State.resetFn
  rw [congrFun (congrFun hdef s) f]; clear hdef
  repeat' first
    | with_reducible assumption
    | with_reducible refine State.modFn_kept (Mask.sub hm (by decide)) ?_
    | with_reducible refine State.dropRegs_kept (Mask.sub hm (by decide)) ?_
    | with_reducible refine Kept.ite ?_ ?_
    | (extract_lets -underBinder +onlyGivenNames x; subst x)
    | split
    | dsimp only

theorem State.resetPort_kept {m : Nat} {s0 s : State} {p : Nat} (hm : 0x38 &&& m = 0x38) (h : Kept m s0 s) :
     Kept m s0 (State.resetPort s p) := by
  have hdef : @State.resetPort = @State.resetPort := rfl
  conv at hdef => rhs; delta State.resetPort
  rw [congrFun (congrFun hdef s) p]; clear hdef
  repeat' first
    | with_reducible assumption
    | with_reducible refine State.resetFn_kept (Mask.sub hm (by decide)) ?_
    | with_reducible refine State.modPort_kept (Mask.sub hm (by decide)) ?_
    | with_reducible refine State.dropRegs_kept (Mask.sub hm (by decide)) ?_
    | with_reducible refine Kept.foldl (fun _ _ _ => ?_) _ ?_
    | with_reducible refine Kept.ite ?_ ?_
    | (extract_lets -underBinder +onlyGivenNames x; subst x)
    | split
    | dsimp only

theorem State.loseCtx_kept {m : Nat} {s0 s : State} {c : Nat} (hm : 0x849 &&& m = 0x849) (h : Kept m s0 s) :
     Kept m s0 (State.loseCtx s c) := by
  have hdef : @State.loseCtx = @State.loseCtx := rfl
  conv at hdef => rhs; delta State.loseCtx
  rw [congrFun (congrFun hdef s) c]; clear hdef
  repeat' first
    | with_reducible assumption
    | with_reducible refine State.startPreempt_kept (Mask.sub hm (by decide)) ?_
    | with_reducible refine State.modCtx_kept (Mask.sub hm (by decide)) ?_
    | with_reducible refine State.setFld_kept (Mask.sub hm (by decide)) ?_
    | with_reducible refine Kept.ite ?_ ?_
    | (extract_lets -underBinder +onlyGivenNames x; subst x)
    | split
    | dsimp only

theorem State.losePort_kept {m : Nat} {s0 s : State} {p : Nat} {reason : Nat} (hm : 0xfff &&& m = 0xfff) (h : Kept m s0 s) :
     Kept m s0 (State.losePort s p reason) := by
  have hdef : @State.losePort = @State.losePort := rfl
  conv at hdef => rhs; delta State.losePort
  rw [congrFun (congrFun (congrFun hdef s) p) reason]; clear hdef
  repeat' first
    | with_reducible assumption
    | with_reducible refine State.loseCtx_kept (Mask.sub hm (by decide)) ?_
    | with_reducible refine State.setFld_kept (Mask.sub hm (by decide)) ?_
    | with_reducible refine State.modPort_kept (Mask.sub hm (by decide)) ?_
    | with_reducible refine State.raise_kept (Mask.sub hm (by decide)) ?_
    | with_reducible refine State.beginDestroy_kept (Mask.sub hm (by decide)) ?_
    | with_reducible refine Kept.foldl (fun _ _ _ => ?_) _ ?_
    | with_reducible refine Kept.ite ?_ ?_
    | (extract_lets -underBinder +onlyGivenNames x; subst x)
    | split
    | dsimp only

theorem State.linkGone_kept {m : Nat} {s0 s : State} {p : Nat} {reason : Nat} (hm : 0xfff &&& m = 0xfff) (h : Kept m s0 s) :
     Kept m s0 (State.linkGone s p reason) := by
  have hdef : @State.linkGone = @State.linkGone := rfl
  conv at hdef => rhs; delta State.linkGone
  rw [congrFun (congrFun (congrFun hdef s) p) reason]; clear hdef
  repeat' first
    | with_reducible assumption
    | with_reducible refine State.losePort_kept (Mask.sub hm (by decide)) ?_
    | with_reducible refine State.resetPort_kept (Mask.sub hm (by decide)) ?_
    | with_reducible refine State.modPort_kept (Mask.sub hm (by decide)) ?_
    | with_reducible refine Kept.ite ?_ ?_
    | (extract_lets -underBinder +onlyGivenNames x; subst x)
    | split
    | dsimp only

theorem execHostPortLost_kept {m : Nat} {s0 s : State} {p : PortId} {t : Nat} (hm : 0x8fff &&& m = 0x8fff) (h : Kept m s0 s) :
     OutKept m s0 (execHostPortLost p t s) := by
  have hdef : @execHostPortLost = @execHostPortLost := rfl
  conv at hdef => rhs; delta execHostPortLost
  rw [congrFun (congrFun (congrFun hdef p) t) s]; clear hdef
  repeat' first
    | with_reducible assumption
    | with_reducible refine State.linkGone_kept (Mask.sub hm (by decide)) ?_
    | with_reducible refine State.at_kept (Mask.sub hm (by decide)) ?_
    | with_reducible refine OutKept.next ?_
    | with_reducible refine Kept.ite ?_ ?_
    | (extract_lets -underBinder +onlyGivenNames x; subst x)
    | split
    | dsimp only

theorem execPerstNAssert_kept {m : Nat} {s0 s : State} {p : PortId} {t : Nat} (hm : 0x8fff &&& m = 0x8fff) (h : Kept m s0 s) :
     OutKept m s0 (execPerstNAssert p t s) := by
  have hdef : @execPerstNAssert = @execPerstNAssert := rfl
  conv at hdef => rhs; delta execPerstNAssert
  rw [congrFun (congrFun (congrFun hdef p) t) s]; clear hdef
  repeat' first
    | with_reducible assumption
    | with_reducible refine State.linkGone_kept (Mask.sub hm (by decide)) ?_
    | with_reducible refine State.modPort_kept (Mask.sub hm (by decide)) ?_
    | with_reducible refine State.at_kept (Mask.sub hm (by decide)) ?_
    | with_reducible refine OutKept.next ?_
    | with_reducible refine Kept.ite ?_ ?_
    | (extract_lets -underBinder +onlyGivenNames x; subst x)
    | split
    | dsimp only

theorem execHotReset_kept {m : Nat} {s0 s : State} {p : PortId} {t : Nat} (hm : 0x8fff &&& m = 0x8fff) (h : Kept m s0 s) :
     OutKept m s0 (execHotReset p t s) := by
  have hdef : @execHotReset = @execHotReset := rfl
  conv at hdef => rhs; delta execHotReset
  rw [congrFun (congrFun (congrFun hdef p) t) s]; clear hdef
  repeat' first
    | with_reducible assumption
    | with_reducible refine State.linkGone_kept (Mask.sub hm (by decide)) ?_
    | with_reducible refine State.at_kept (Mask.sub hm (by decide)) ?_
    | with_reducible refine OutKept.next ?_
    | with_reducible refine Kept.ite ?_ ?_
    | (extract_lets -underBinder +onlyGivenNames x; subst x)
    | split
    | dsimp only

theorem execPerstNDeassert_kept {m : Nat} {s0 s : State} {p : PortId} (hm : 0x10 &&& m = 0x10) (h : Kept m s0 s) :
     OutKept m s0 (execPerstNDeassert p s) := by
  have hdef : @execPerstNDeassert = @execPerstNDeassert := rfl
  conv at hdef => rhs; delta execPerstNDeassert
  rw [congrFun (congrFun hdef p) s]; clear hdef
  repeat' first
    | with_reducible assumption
    | with_reducible refine State.modPort_kept (Mask.sub hm (by decide)) ?_
    | with_reducible refine OutKept.next ?_
    | with_reducible refine Kept.ite ?_ ?_
    | (extract_lets -underBinder +onlyGivenNames x; subst x)
    | split
    | dsimp only

theorem execHostPortUp_kept {m : Nat} {s0 s : State} {p : PortId} {speed : Nat} {width : Nat} {flit : Bool} (hm : 0x839 &&& m = 0x839) (h : Kept m s0 s) :
     OutKept m s0 (execHostPortUp p speed width flit s) := by
  have hdef : @execHostPortUp = @execHostPortUp := rfl
  conv at hdef => rhs; delta execHostPortUp
  rw [congrFun (congrFun (congrFun (congrFun (congrFun hdef p) speed) width) flit) s]; clear hdef
  repeat' first
    | with_reducible assumption
    | with_reducible refine State.raise_kept (Mask.sub hm (by decide)) ?_
    | with_reducible refine State.modPort_kept (Mask.sub hm (by decide)) ?_
    | with_reducible refine OutKept.next ?_
    | with_reducible refine Kept.ite ?_ ?_
    | (extract_lets -underBinder +onlyGivenNames x; subst x)
    | split
    | dsimp only

theorem execHostGraceExpired_kept {m : Nat} {s0 s : State} {p : PortId} {t : Nat} (hm : 0x8fff &&& m = 0x8fff) (h : Kept m s0 s) :
     OutKept m s0 (execHostGraceExpired p t s) := by
  have hdef : @execHostGraceExpired = @execHostGraceExpired := rfl
  conv at hdef => rhs; delta execHostGraceExpired
  rw [congrFun (congrFun (congrFun hdef p) t) s]; clear hdef
  repeat' first
    | with_reducible assumption
    | with_reducible refine State.at_kept (Mask.sub hm (by decide)) ?_
    | with_reducible refine State.modPort_kept (Mask.sub hm (by decide)) ?_
    | with_reducible refine State.beginDestroy_kept (Mask.sub hm (by decide)) ?_
    | with_reducible refine State.raise_kept (Mask.sub hm (by decide)) ?_
    | with_reducible refine State.setFld_kept (Mask.sub hm (by decide)) ?_
    | with_reducible refine Kept.foldl (fun _ _ _ => ?_) _ ?_
    | with_reducible refine OutKept.next ?_
    | with_reducible refine Kept.ite ?_ ?_
    | (extract_lets -underBinder +onlyGivenNames x; subst x)
    | split
    | dsimp only

theorem State.flr_kept {m : Nat} {s0 s : State} {f : Nat} (hm : 0xfff &&& m = 0xfff) (h : Kept m s0 s) :
     Kept m s0 (State.flr s f) := by
  have hdef : @State.flr = @State.flr := rfl
  conv at hdef => rhs; delta State.flr
  rw [congrFun (congrFun hdef s) f]; clear hdef
  repeat' first
    | with_reducible assumption
    | with_reducible refine State.resetFn_kept (Mask.sub hm (by decide)) ?_
    | with_reducible refine State.destroyNow_kept (Mask.sub hm (by decide)) ?_
    | with_reducible refine State.modPort_kept (Mask.sub hm (by decide)) ?_
    | with_reducible refine Kept.foldl (fun _ _ _ => ?_) _ ?_
    | with_reducible refine Kept.ite ?_ ?_
    | (extract_lets -underBinder +onlyGivenNames x; subst x)
    | split
    | dsimp only

theorem execFunctionLevelReset_kept {m : Nat} {s0 s : State} {f : FnId} (hm : 0xfff &&& m = 0xfff) (h : Kept m s0 s) :
     OutKept m s0 (execFunctionLevelReset f s) := by
  have hdef : @execFunctionLevelReset = @execFunctionLevelReset := rfl
  conv at hdef => rhs; delta execFunctionLevelReset
  rw [congrFun (congrFun hdef f) s]; clear hdef
  repeat' first
    | with_reducible assumption
    | with_reducible refine State.flr_kept (Mask.sub hm (by decide)) ?_
    | with_reducible refine OutKept.next ?_
    | with_reducible refine Kept.ite ?_ ?_
    | (extract_lets -underBinder +onlyGivenNames x; subst x)
    | split
    | dsimp only

theorem execIdeInsecure_kept {m : Nat} {s0 s : State} {p : PortId} {n : Nat} {t : Nat} (hm : 0x8fff &&& m = 0x8fff) (h : Kept m s0 s) :
     OutKept m s0 (execIdeInsecure p n t s) := by
  have hdef : @execIdeInsecure = @execIdeInsecure := rfl
  conv at hdef => rhs; delta execIdeInsecure
  rw [congrFun (congrFun (congrFun (congrFun hdef p) n) t) s]; clear hdef
  repeat' first
    | with_reducible assumption
    | with_reducible refine State.losePort_kept (Mask.sub hm (by decide)) ?_
    | with_reducible refine State.at_kept (Mask.sub hm (by decide)) ?_
    | with_reducible refine State.modPort_kept (Mask.sub hm (by decide)) ?_
    | with_reducible refine OutKept.next ?_
    | with_reducible refine Kept.ite ?_ ?_
    | (extract_lets -underBinder +onlyGivenNames x; subst x)
    | split
    | dsimp only

theorem State.unmask_kept {m : Nat} {s0 s : State} {f : Nat} {x1 : Nat} (hm : 0x9 &&& m = 0x9) (h : Kept m s0 s) :
     Kept m s0 (State.unmask s f x1) := by
  fun_induction State.unmask s f x1 <;> (try dsimp only at *)
  repeat' first
    | with_reducible assumption
    | with_reducible apply_assumption
    | with_reducible refine State.fire_kept (Mask.sub hm (by decide)) ?_
    | with_reducible refine State.setFld_kept (Mask.sub hm (by decide)) ?_
    | with_reducible refine Kept.ite ?_ ?_
    | (extract_lets -underBinder +onlyGivenNames x; subst x)
    | split
    | dsimp only

theorem State.configWrite_kept {m : Nat} {s0 s : State} {p : Nat} {vf : Nat} {off : Nat} {v : Nat} (hm : 0xfff &&& m = 0xfff) (h : Kept m s0 s) :
     Kept m s0 (State.configWrite s p vf off v) := by
  have hdef : @State.configWrite = @State.configWrite := rfl
  conv at hdef => rhs; delta State.configWrite
  rw [congrFun (congrFun (congrFun (congrFun (congrFun hdef s) p) vf) off) v]; clear hdef
  repeat' first
    | with_reducible assumption
    | with_reducible refine State.unmask_kept (Mask.sub hm (by decide)) ?_
    | with_reducible refine State.flr_kept (Mask.sub hm (by decide)) ?_
    | with_reducible refine State.modPort_kept (Mask.sub hm (by decide)) ?_
    | with_reducible refine State.modFn_kept (Mask.sub hm (by decide)) ?_
    | with_reducible refine Kept.ite ?_ ?_
    | (extract_lets -underBinder +onlyGivenNames x; subst x)
    | split
    | dsimp only

theorem execConfigurationRequest_kept {m : Nat} {s0 s : State} {p : PortId} {vf : Nat} {write : Bool} {off : Nat} {v : Nat} (hm : 0x20fff &&& m = 0x20fff) (h : Kept m s0 s) :
     OutKept m s0 (execConfigurationRequest p vf write off v s) := by
  have hdef : @execConfigurationRequest = @execConfigurationRequest := rfl
  conv at hdef => rhs; delta execConfigurationRequest
  rw [congrFun (congrFun (congrFun (congrFun (congrFun (congrFun hdef p) vf) write) off) v) s]; clear hdef
  repeat' first
    | with_reducible assumption
    | with_reducible refine State.configWrite_kept (Mask.sub hm (by decide)) ?_
    | with_reducible refine OutKept.next ?_
    | with_reducible refine Kept.ite ?_ ?_
    | (extract_lets -underBinder +onlyGivenNames x; subst x)
    | split
    | with_reducible refine Kept.answer (Mask.sub hm (by decide)) ?_ _
    | dsimp only

theorem execEnterCompliance_kept {m : Nat} {s0 s : State} {p : PortId} (hm : 0x10 &&& m = 0x10) (h : Kept m s0 s) :
     OutKept m s0 (execEnterCompliance p s) := by
  have hdef : @execEnterCompliance = @execEnterCompliance := rfl
  conv at hdef => rhs; delta execEnterCompliance
  rw [congrFun (congrFun hdef p) s]; clear hdef
  repeat' first
    | with_reducible assumption
    | with_reducible refine State.modPort_kept (Mask.sub hm (by decide)) ?_
    | with_reducible refine OutKept.next ?_
    | with_reducible refine Kept.ite ?_ ?_
    | (extract_lets -underBinder +onlyGivenNames x; subst x)
    | split
    | dsimp only

end Sys2Proof.Machine
end

