-- ==== Sys2Proof/Laws/KeptPower.lean ====
section
/-!
SUPPORT. What the operations of Sys2Proof/Machine/Power.lean keep (Laws/Kept.lean).
-/
namespace Sys2Proof.Machine

theorem State.modPower_kept {m : Nat} {s0 s : State} {f : PowerSt → PowerSt} (hm : 0x1000 &&& m = 0x1000) (h : Kept m s0 s) :
     Kept m s0 (State.modPower s f) := by
  have hdef : @State.modPower = @State.modPower := rfl
  conv at hdef => rhs; delta State.modPower
  rw [congrFun (congrFun hdef s) f]; clear hdef
  repeat' first
    | with_reducible assumption
    | with_reducible refine Kept.ite ?_ ?_
    | (extract_lets -underBinder +onlyGivenNames x; subst x)
    | split
    | with_reducible refine Kept.power (Mask.sub hm (by decide)) ?_ _
    | dsimp only

theorem State.modSvc_kept {m : Nat} {s0 s : State} {f : SvcSt → SvcSt} (hm : 0x1000 &&& m = 0x1000) (h : Kept m s0 s) :
     Kept m s0 (State.modSvc s f) := by
  have hdef : @State.modSvc = @State.modSvc := rfl
  conv at hdef => rhs; delta State.modSvc
  rw [congrFun (congrFun hdef s) f]; clear hdef
  repeat' first
    | with_reducible assumption
    | with_reducible refine State.modPower_kept (Mask.sub hm (by decide)) ?_
    | with_reducible refine Kept.ite ?_ ?_
    | (extract_lets -underBinder +onlyGivenNames x; subst x)
    | split
    | dsimp only

theorem State.capStatus_kept {m : Nat} {s0 s : State} {byVoltage : Bool} (hm : 0x829 &&& m = 0x829) (h : Kept m s0 s) :
     Kept m s0 (State.capStatus s byVoltage) := by
  have hdef : @State.capStatus = @State.capStatus := rfl
  conv at hdef => rhs; delta State.capStatus
  rw [congrFun (congrFun hdef s) byVoltage]; clear hdef
  repeat' first
    | with_reducible assumption
    | with_reducible refine State.setFld_kept (Mask.sub hm (by decide)) ?_
    | with_reducible refine State.raise_kept (Mask.sub hm (by decide)) ?_
    | with_reducible refine Kept.ite ?_ ?_
    | (extract_lets -underBinder +onlyGivenNames x; subst x)
    | split
    | dsimp only

theorem State.setHostCap_kept {m : Nat} {s0 s : State} {w : Nat} (hm : 0x829 &&& m = 0x829) (h : Kept m s0 s) :
     Kept m s0 (State.setHostCap s w) := by
  have hdef : @State.setHostCap = @State.setHostCap := rfl
  conv at hdef => rhs; delta State.setHostCap
  rw [congrFun (congrFun hdef s) w]; clear hdef
  repeat' first
    | with_reducible assumption
    | with_reducible refine State.capStatus_kept (Mask.sub hm (by decide)) ?_
    | with_reducible refine State.setFld_kept (Mask.sub hm (by decide)) ?_
    | with_reducible refine Kept.ite ?_ ?_
    | (extract_lets -underBinder +onlyGivenNames x; subst x)
    | split
    | dsimp only

theorem execPwrCapWrite_kept {m : Nat} {s0 s : State} {f : FnId} {v : Word32} (hm : 0x829 &&& m = 0x829) (h : Kept m s0 s) :
     OutKept m s0 (execPwrCapWrite f v s) := by
  have hdef : @execPwrCapWrite = @execPwrCapWrite := rfl
  conv at hdef => rhs; delta execPwrCapWrite
  rw [congrFun (congrFun (congrFun hdef f) v) s]; clear hdef
  repeat' first
    | with_reducible assumption
    | with_reducible refine State.setHostCap_kept (Mask.sub hm (by decide)) ?_
    | with_reducible refine State.denied_kept (Mask.sub hm (by decide)) ?_
    | with_reducible refine OutKept.next ?_
    | with_reducible refine Kept.ite ?_ ?_
    | (extract_lets -underBinder +onlyGivenNames x; subst x)
    | split
    | dsimp only

theorem execSetCap_kept {m : Nat} {s0 s : State} {c : CtxId} {k : Nat} (hm : 0x869 &&& m = 0x869) (h : Kept m s0 s) :
     OutKept m s0 (execSetCap c k s) := by
  have hdef : @execSetCap = @execSetCap := rfl
  conv at hdef => rhs; delta execSetCap
  rw [congrFun (congrFun (congrFun hdef c) k) s]; clear hdef
  repeat' first
    | with_reducible assumption
    | with_reducible refine State.setHostCap_kept (Mask.sub hm (by decide)) ?_
    | with_reducible refine State.onCmd_kept (Mask.sub hm (by decide)) ?_ (fun _ => ?_)
    | with_reducible refine State.complete_kept (Mask.sub hm (by decide)) ?_
    | with_reducible refine State.setPhase_kept (Mask.sub hm (by decide)) ?_
    | with_reducible refine OutKept.next ?_
    | with_reducible refine Kept.ite ?_ ?_
    | (extract_lets -underBinder +onlyGivenNames x; subst x)
    | split
    | dsimp only

theorem execVoltageCapUpdate_kept {m : Nat} {s0 s : State} {mv : Nat} {t : Nat} (hm : 0x9829 &&& m = 0x9829) (h : Kept m s0 s) :
     OutKept m s0 (execVoltageCapUpdate mv t s) := by
  have hdef : @execVoltageCapUpdate = @execVoltageCapUpdate := rfl
  conv at hdef => rhs; delta execVoltageCapUpdate
  rw [congrFun (congrFun (congrFun hdef mv) t) s]; clear hdef
  repeat' first
    | with_reducible assumption
    | with_reducible refine State.capStatus_kept (Mask.sub hm (by decide)) ?_
    | with_reducible refine State.modSvc_kept (Mask.sub hm (by decide)) ?_
    | with_reducible refine State.modPower_kept (Mask.sub hm (by decide)) ?_
    | with_reducible refine State.at_kept (Mask.sub hm (by decide)) ?_
    | with_reducible refine State.setFld_kept (Mask.sub hm (by decide)) ?_
    | with_reducible refine State.raise_kept (Mask.sub hm (by decide)) ?_
    | with_reducible refine OutKept.next ?_
    | with_reducible refine Kept.ite ?_ ?_
    | (extract_lets -underBinder +onlyGivenNames x; subst x)
    | split
    | dsimp only

theorem State.setClocks_kept {m : Nat} {s0 s : State} {top : Nat → Nat} (hm : 0x11000 &&& m = 0x11000) (h : Kept m s0 s) :
     Kept m s0 (State.setClocks s top) := by
  have hdef : @State.setClocks = @State.setClocks := rfl
  conv at hdef => rhs; delta State.setClocks
  rw [congrFun (congrFun hdef s) top]; clear hdef
  repeat' first
    | with_reducible assumption
    | with_reducible refine State.modPower_kept (Mask.sub hm (by decide)) ?_
    | with_reducible refine State.pick_kept (Mask.sub hm (by decide)) ?_
    | with_reducible refine Kept.foldl (fun _ _ _ => ?_) _ ?_
    | with_reducible refine Kept.ofPair (by assumption) ?_
    | with_reducible refine Kept.ite ?_ ?_
    | with_reducible refine Kept.iteSnd ?_ ?_
    | with_reducible refine Kept.iteFst ?_ ?_
    | (extract_lets -underBinder +onlyGivenNames x; subst x)
    | split
    | dsimp only

theorem State.floorClocks_kept {m : Nat} {s0 s : State} (hm : 0x1000 &&& m = 0x1000) (h : Kept m s0 s) :
     Kept m s0 (State.floorClocks s) := by
  have hdef : @State.floorClocks = @State.floorClocks := rfl
  conv at hdef => rhs; delta State.floorClocks
  rw [congrFun hdef s]; clear hdef
  repeat' first
    | with_reducible assumption
    | with_reducible refine State.modPower_kept (Mask.sub hm (by decide)) ?_
    | with_reducible refine Kept.foldl (fun _ _ _ => ?_) _ ?_
    | with_reducible refine Kept.ite ?_ ?_
    | (extract_lets -underBinder +onlyGivenNames x; subst x)
    | split
    | dsimp only

theorem execPwrCtlModeWrite_kept {m : Nat} {s0 s : State} {f : FnId} {v : Word32} (hm : 0x1829 &&& m = 0x1829) (h : Kept m s0 s) :
     OutKept m s0 (execPwrCtlModeWrite f v s) := by
  have hdef : @execPwrCtlModeWrite = @execPwrCtlModeWrite := rfl
  conv at hdef => rhs; delta execPwrCtlModeWrite
  rw [congrFun (congrFun (congrFun hdef f) v) s]; clear hdef
  repeat' first
    | with_reducible assumption
    | with_reducible refine State.modPower_kept (Mask.sub hm (by decide)) ?_
    | with_reducible refine State.denied_kept (Mask.sub hm (by decide)) ?_
    | with_reducible refine State.setFld_kept (Mask.sub hm (by decide)) ?_
    | with_reducible refine State.raise_kept (Mask.sub hm (by decide)) ?_
    | with_reducible refine OutKept.next ?_
    | with_reducible refine Kept.ite ?_ ?_
    | (extract_lets -underBinder +onlyGivenNames x; subst x)
    | split
    | dsimp only

theorem execCapControlTick_kept {m : Nat} {s0 s : State} {watts : Nat} {t : Nat} (hm : 0x19008 &&& m = 0x19008) (h : Kept m s0 s) :
     OutKept m s0 (execCapControlTick watts t s) := by
  have hdef : @execCapControlTick = @execCapControlTick := rfl
  conv at hdef => rhs; delta execCapControlTick
  rw [congrFun (congrFun (congrFun hdef watts) t) s]; clear hdef
  repeat' first
    | with_reducible assumption
    | with_reducible refine State.setClocks_kept (Mask.sub hm (by decide)) ?_
    | with_reducible refine State.modPower_kept (Mask.sub hm (by decide)) ?_
    | with_reducible refine State.at_kept (Mask.sub hm (by decide)) ?_
    | with_reducible refine State.setFld_kept (Mask.sub hm (by decide)) ?_
    | with_reducible refine Kept.foldl (fun _ _ _ => ?_) _ ?_
    | with_reducible refine OutKept.next ?_
    | with_reducible refine Kept.ite ?_ ?_
    | (extract_lets -underBinder +onlyGivenNames x; subst x)
    | split
    | dsimp only

theorem execExcursionCut_kept {m : Nat} {s0 s : State} {watts : Nat} {t : Nat} (hm : 0x19829 &&& m = 0x19829) (h : Kept m s0 s) :
     OutKept m s0 (execExcursionCut watts t s) := by
  have hdef : @execExcursionCut = @execExcursionCut := rfl
  conv at hdef => rhs; delta execExcursionCut
  rw [congrFun (congrFun (congrFun hdef watts) t) s]; clear hdef
  repeat' first
    | with_reducible assumption
    | with_reducible refine State.setClocks_kept (Mask.sub hm (by decide)) ?_
    | with_reducible refine State.modPower_kept (Mask.sub hm (by decide)) ?_
    | with_reducible refine State.at_kept (Mask.sub hm (by decide)) ?_
    | with_reducible refine State.flagCount_kept (Mask.sub hm (by decide)) ?_
    | with_reducible refine State.raise_kept (Mask.sub hm (by decide)) ?_
    | with_reducible refine OutKept.next ?_
    | with_reducible refine Kept.ite ?_ ?_
    | (extract_lets -underBinder +onlyGivenNames x; subst x)
    | split
    | dsimp only

theorem execCurrentLimit_kept {m : Nat} {s0 s : State} {ma : Nat} {t : Nat} (hm : 0x9829 &&& m = 0x9829) (h : Kept m s0 s) :
     OutKept m s0 (execCurrentLimit ma t s) := by
  have hdef : @execCurrentLimit = @execCurrentLimit := rfl
  conv at hdef => rhs; delta execCurrentLimit
  rw [congrFun (congrFun (congrFun hdef ma) t) s]; clear hdef
  repeat' first
    | with_reducible assumption
    | with_reducible refine State.modPower_kept (Mask.sub hm (by decide)) ?_
    | with_reducible refine State.at_kept (Mask.sub hm (by decide)) ?_
    | with_reducible refine State.flagCount_kept (Mask.sub hm (by decide)) ?_
    | with_reducible refine State.raise_kept (Mask.sub hm (by decide)) ?_
    | with_reducible refine OutKept.next ?_
    | with_reducible refine Kept.ite ?_ ?_
    | (extract_lets -underBinder +onlyGivenNames x; subst x)
    | split
    | dsimp only

theorem execCurrentLimitEnd_kept {m : Nat} {s0 s : State} {ma : Nat} {t : Nat} (hm : 0x9000 &&& m = 0x9000) (h : Kept m s0 s) :
     OutKept m s0 (execCurrentLimitEnd ma t s) := by
  have hdef : @execCurrentLimitEnd = @execCurrentLimitEnd := rfl
  conv at hdef => rhs; delta execCurrentLimitEnd
  rw [congrFun (congrFun (congrFun hdef ma) t) s]; clear hdef
  repeat' first
    | with_reducible assumption
    | with_reducible refine State.modPower_kept (Mask.sub hm (by decide)) ?_
    | with_reducible refine State.at_kept (Mask.sub hm (by decide)) ?_
    | with_reducible refine OutKept.next ?_
    | with_reducible refine Kept.ite ?_ ?_
    | (extract_lets -underBinder +onlyGivenNames x; subst x)
    | split
    | dsimp only

theorem execCapFloor_kept {m : Nat} {s0 s : State} {watts : Nat} {t : Nat} (hm : 0x9829 &&& m = 0x9829) (h : Kept m s0 s) :
     OutKept m s0 (execCapFloor watts t s) := by
  have hdef : @execCapFloor = @execCapFloor := rfl
  conv at hdef => rhs; delta execCapFloor
  rw [congrFun (congrFun (congrFun hdef watts) t) s]; clear hdef
  repeat' first
    | with_reducible assumption
    | with_reducible refine State.modPower_kept (Mask.sub hm (by decide)) ?_
    | with_reducible refine State.at_kept (Mask.sub hm (by decide)) ?_
    | with_reducible refine State.flagCount_kept (Mask.sub hm (by decide)) ?_
    | with_reducible refine State.raise_kept (Mask.sub hm (by decide)) ?_
    | with_reducible refine OutKept.next ?_
    | with_reducible refine Kept.ite ?_ ?_
    | (extract_lets -underBinder +onlyGivenNames x; subst x)
    | split
    | dsimp only

theorem execDroopStretch_kept {m : Nat} {s0 s : State} {a : AuId} (hm : 0x1008 &&& m = 0x1008) (h : Kept m s0 s) :
     OutKept m s0 (execDroopStretch a s) := by
  have hdef : @execDroopStretch = @execDroopStretch := rfl
  conv at hdef => rhs; delta execDroopStretch
  rw [congrFun (congrFun hdef a) s]; clear hdef
  repeat' first
    | with_reducible assumption
    | with_reducible refine State.modPower_kept (Mask.sub hm (by decide)) ?_
    | with_reducible refine State.count_kept (Mask.sub hm (by decide)) ?_
    | with_reducible refine OutKept.next ?_
    | with_reducible refine Kept.ite ?_ ?_
    | (extract_lets -underBinder +onlyGivenNames x; subst x)
    | split
    | dsimp only

theorem execDroopEnd_kept {m : Nat} {s0 s : State} {a : AuId} (hm : 0x11008 &&& m = 0x11008) (h : Kept m s0 s) :
     OutKept m s0 (execDroopEnd a s) := by
  have hdef : @execDroopEnd = @execDroopEnd := rfl
  conv at hdef => rhs; delta execDroopEnd
  rw [congrFun (congrFun hdef a) s]; clear hdef
  repeat' first
    | with_reducible assumption
    | with_reducible refine State.modPower_kept (Mask.sub hm (by decide)) ?_
    | with_reducible refine State.pick_kept (Mask.sub hm (by decide)) ?_
    | with_reducible refine State.setReg64_kept (Mask.sub hm (by decide)) ?_
    | with_reducible refine OutKept.next ?_
    | with_reducible refine Kept.ofPair (by assumption) ?_
    | with_reducible refine Kept.ite ?_ ?_
    | with_reducible refine Kept.iteSnd ?_ ?_
    | with_reducible refine Kept.iteFst ?_ ?_
    | (extract_lets -underBinder +onlyGivenNames x; subst x)
    | split
    | dsimp only

theorem State.addEnergy_kept {m : Nat} {s0 s : State} {kind : Nat} {i : Nat} {e : Nat} (hm : 0x1000 &&& m = 0x1000) (h : Kept m s0 s) :
     Kept m s0 (State.addEnergy s kind i e) := by
  have hdef : @State.addEnergy = @State.addEnergy := rfl
  conv at hdef => rhs; delta State.addEnergy
  rw [congrFun (congrFun (congrFun (congrFun hdef s) kind) i) e]; clear hdef
  repeat' first
    | with_reducible assumption
    | with_reducible refine State.modPower_kept (Mask.sub hm (by decide)) ?_
    | with_reducible refine Kept.ite ?_ ?_
    | (extract_lets -underBinder +onlyGivenNames x; subst x)
    | split
    | dsimp only

theorem State.credit_kept {m : Nat} {s0 s : State} {c : Nat} {e : Nat} {p : Cmd → Bool} (hm : 0x40 &&& m = 0x40) (h : Kept m s0 s) :
     Kept m s0 (State.credit s c e p).1 := by
  have hdef : @State.credit = @State.credit := rfl
  conv at hdef => rhs; delta State.credit
  rw [congrFun (congrFun (congrFun (congrFun hdef s) c) e) p]; clear hdef
  repeat' first
    | with_reducible assumption
    | with_reducible refine State.modCtx_kept (Mask.sub hm (by decide)) ?_
    | with_reducible refine Kept.ite ?_ ?_
    | (extract_lets -underBinder +onlyGivenNames x; subst x)
    | split
    | dsimp only

theorem State.attribute_kept {m : Nat} {s0 s : State} {c : Nat} {e : Nat} {own : Nat} (hm : 0x48 &&& m = 0x48) (h : Kept m s0 s) :
     Kept m s0 (State.attribute s c e own) := by
  have hdef : @State.attribute = @State.attribute := rfl
  conv at hdef => rhs; delta State.attribute
  rw [congrFun (congrFun (congrFun (congrFun hdef s) c) e) own]; clear hdef
  repeat' first
    | with_reducible assumption
    | with_reducible refine State.credit_kept (Mask.sub hm (by decide)) ?_
    | with_reducible refine State.setReg64_kept (Mask.sub hm (by decide)) ?_
    | with_reducible refine State.modCtx_kept (Mask.sub hm (by decide)) ?_
    | with_reducible refine Kept.ofPair1 (by assumption) ?_
    | with_reducible refine Kept.ite ?_ ?_
    | with_reducible refine Kept.iteSnd ?_ ?_
    | with_reducible refine Kept.iteFst ?_ ?_
    | (extract_lets -underBinder +onlyGivenNames x; subst x)
    | split
    | dsimp only

theorem execEnergyUpdate_kept {m : Nat} {s0 s : State} {uj : List Nat} {t : Nat} (hm : 0x9048 &&& m = 0x9048) (h : Kept m s0 s) :
     OutKept m s0 (execEnergyUpdate uj t s) := by
  have hdef : @execEnergyUpdate = @execEnergyUpdate := rfl
  conv at hdef => rhs; delta execEnergyUpdate
  rw [congrFun (congrFun (congrFun hdef uj) t) s]; clear hdef
  repeat' first
    | with_reducible assumption
    | with_reducible refine State.attribute_kept (Mask.sub hm (by decide)) ?_
    | with_reducible refine State.addEnergy_kept (Mask.sub hm (by decide)) ?_
    | with_reducible refine State.at_kept (Mask.sub hm (by decide)) ?_
    | with_reducible refine Kept.foldl (fun _ _ _ => ?_) _ ?_
    | with_reducible refine OutKept.next ?_
    | with_reducible refine Kept.getD_ ?_ ?_
    | with_reducible refine Kept.ite ?_ ?_
    | (extract_lets -underBinder +onlyGivenNames x; subst x)
    | split
    | dsimp only

theorem execQueryEnergy_kept {m : Nat} {s0 s : State} {c : CtxId} {k : Nat} (hm : 0x849 &&& m = 0x849) (h : Kept m s0 s) :
     OutKept m s0 (execQueryEnergy c k s) := by
  have hdef : @execQueryEnergy = @execQueryEnergy := rfl
  conv at hdef => rhs; delta execQueryEnergy
  rw [congrFun (congrFun (congrFun hdef c) k) s]; clear hdef
  repeat' first
    | with_reducible assumption
    | with_reducible refine State.onCmd_kept (Mask.sub hm (by decide)) ?_ (fun _ => ?_)
    | with_reducible refine State.complete_kept (Mask.sub hm (by decide)) ?_
    | with_reducible refine State.hostWrite_kept (Mask.sub hm (by decide)) ?_
    | with_reducible refine OutKept.next ?_
    | with_reducible refine Kept.ite ?_ ?_
    | (extract_lets -underBinder +onlyGivenNames x; subst x)
    | split
    | dsimp only

theorem execThermalSensorRead_kept {m : Nat} {s0 s : State} {aus : List Nat} {hubs : List Nat} {stks : List Nat} {t : Nat} (hm : 0x9829 &&& m = 0x9829) (h : Kept m s0 s) :
     OutKept m s0 (execThermalSensorRead aus hubs stks t s) := by
  have hdef : @execThermalSensorRead = @execThermalSensorRead := rfl
  conv at hdef => rhs; delta execThermalSensorRead
  rw [congrFun (congrFun (congrFun (congrFun (congrFun hdef aus) hubs) stks) t) s]; clear hdef
  repeat' first
    | with_reducible assumption
    | with_reducible refine State.modPower_kept (Mask.sub hm (by decide)) ?_
    | with_reducible refine State.at_kept (Mask.sub hm (by decide)) ?_
    | with_reducible refine State.setFld_kept (Mask.sub hm (by decide)) ?_
    | with_reducible refine State.setReg_kept (Mask.sub hm (by decide)) ?_
    | with_reducible refine State.raise_kept (Mask.sub hm (by decide)) ?_
    | with_reducible refine State.total_kept (Mask.sub hm (by decide)) ?_
    | with_reducible refine State.count_kept (Mask.sub hm (by decide)) ?_
    | with_reducible refine OutKept.next ?_
    | with_reducible refine Kept.getD_ ?_ ?_
    | with_reducible refine Kept.ite ?_ ?_
    | (extract_lets -underBinder +onlyGivenNames x; subst x)
    | split
    | with_reducible refine Kept.power (Mask.sub hm (by decide)) ?_ _
    | dsimp only

theorem State.showFuses_kept {m : Nat} {s0 s : State} (hm : 0x8 &&& m = 0x8) (h : Kept m s0 s) :
     Kept m s0 (State.showFuses s) := by
  have hdef : @State.showFuses = @State.showFuses := rfl
  conv at hdef => rhs; delta State.showFuses
  rw [congrFun hdef s]; clear hdef
  repeat' first
    | with_reducible assumption
    | with_reducible refine State.setReg_kept (Mask.sub hm (by decide)) ?_
    | with_reducible refine State.setFld_kept (Mask.sub hm (by decide)) ?_
    | with_reducible refine Kept.ite ?_ ?_
    | (extract_lets -underBinder +onlyGivenNames x; subst x)
    | split
    | dsimp only

theorem State.newNonce_kept {m : Nat} {s0 s : State} (hm : 0x10008 &&& m = 0x10008) (h : Kept m s0 s) :
     Kept m s0 (State.newNonce s) := by
  have hdef : @State.newNonce = @State.newNonce := rfl
  conv at hdef => rhs; delta State.newNonce
  rw [congrFun hdef s]; clear hdef
  repeat' first
    | with_reducible assumption
    | with_reducible refine State.pick_kept (Mask.sub hm (by decide)) ?_
    | with_reducible refine State.setReg_kept (Mask.sub hm (by decide)) ?_
    | with_reducible refine Kept.foldl (fun _ _ _ => ?_) _ ?_
    | with_reducible refine Kept.ofPair (by assumption) ?_
    | with_reducible refine Kept.ite ?_ ?_
    | with_reducible refine Kept.iteSnd ?_ ?_
    | with_reducible refine Kept.iteFst ?_ ?_
    | (extract_lets -underBinder +onlyGivenNames x; subst x)
    | split
    | dsimp only

theorem State.hostLost_kept {m : Nat} {s0 s : State} {on : Bool} (hm : 0x4dffe &&& m = 0x4dffe) (h : Kept m s0 s) :
     Kept m s0 (State.hostLost s on) := by
  refine h.trans ⟨rfl, fun hi => ⟨rfl, hi.2.1, rfl, hi.2.2.2.1, fun _ => Nat.zero_le _⟩, Fuses.Rise.refl _,
    fun q => absurd (Mask.bit (i := 18) hm (by decide)) (by rw [q]; decide), fun p hp => ?_⟩
  have no : ∀ i, Nat.testBit 0x4dffe i = true → m.testBit i = false → False := fun i hi hq => by
    rw [Mask.bit hm hi] at hq
    cases hq
  cases p
  · exact fun _ => rfl
  · exact absurd hp (no 1 (by decide))
  · exact absurd hp (no 2 (by decide))
  · exact absurd hp (no 3 (by decide))
  · exact absurd hp (no 4 (by decide))
  · exact absurd hp (no 5 (by decide))
  · exact absurd hp (no 6 (by decide))
  · exact absurd hp (no 7 (by decide))
  · exact absurd hp (no 8 (by decide))
  · exact absurd hp (no 9 (by decide))
  · exact absurd hp (no 10 (by decide))
  · exact absurd hp (no 11 (by decide))
  · exact absurd hp (no 12 (by decide))
  · exact fun _ => rfl
  · exact absurd hp (no 14 (by decide))
  · exact absurd hp (no 15 (by decide))
  · rfl
  · rfl

theorem State.comeUp_kept {m : Nat} {s0 s : State} (hm : 0x5dfff &&& m = 0x5dfff) (h : Kept m s0 s) :
     Kept m s0 (State.comeUp s) := by
  have hdef : @State.comeUp = @State.comeUp := rfl
  conv at hdef => rhs; delta State.comeUp
  rw [congrFun hdef s]; clear hdef
  repeat' first
    | with_reducible assumption
    | with_reducible refine State.hostLost_kept (Mask.sub hm (by decide)) ?_
    | with_reducible refine State.newNonce_kept (Mask.sub hm (by decide)) ?_
    | with_reducible refine State.showFuses_kept (Mask.sub hm (by decide)) ?_
    | with_reducible refine State.capStatus_kept (Mask.sub hm (by decide)) ?_
    | with_reducible refine State.setFld_kept (Mask.sub hm (by decide)) ?_
    | with_reducible refine Kept.ite ?_ ?_
    | (extract_lets -underBinder +onlyGivenNames x; subst x)
    | split
    | dsimp only

theorem State.switchOff_kept {m : Nat} {s0 s : State} {cause : Nat} {unit : Nat} (hm : 0x4dffe &&& m = 0x4dffe) (h : Kept m s0 s) :
     Kept m s0 (State.switchOff s cause unit) := by
  have hdef : @State.switchOff = @State.switchOff := rfl
  conv at hdef => rhs; delta State.switchOff
  rw [congrFun (congrFun (congrFun hdef s) cause) unit]; clear hdef
  repeat' first
    | with_reducible assumption
    | with_reducible refine State.hostLost_kept (Mask.sub hm (by decide)) ?_
    | with_reducible refine State.modSvc_kept (Mask.sub hm (by decide)) ?_
    | with_reducible refine Kept.ite ?_ ?_
    | (extract_lets -underBinder +onlyGivenNames x; subst x)
    | split
    | dsimp only

theorem execInputUndervoltage_kept {m : Nat} {s0 s : State} {mv : Nat} {t : Nat} (hm : 0x4dffe &&& m = 0x4dffe) (h : Kept m s0 s) :
     OutKept m s0 (execInputUndervoltage mv t s) := by
  have hdef : @execInputUndervoltage = @execInputUndervoltage := rfl
  conv at hdef => rhs; delta execInputUndervoltage
  rw [congrFun (congrFun (congrFun hdef mv) t) s]; clear hdef
  repeat' first
    | with_reducible assumption
    | with_reducible refine State.switchOff_kept (Mask.sub hm (by decide)) ?_
    | with_reducible refine State.modSvc_kept (Mask.sub hm (by decide)) ?_
    | with_reducible refine State.at_kept (Mask.sub hm (by decide)) ?_
    | with_reducible refine OutKept.next ?_
    | with_reducible refine Kept.ite ?_ ?_
    | (extract_lets -underBinder +onlyGivenNames x; subst x)
    | split
    | dsimp only

theorem execInputOvervoltage_kept {m : Nat} {s0 s : State} {mv : Nat} {t : Nat} (hm : 0x4dffe &&& m = 0x4dffe) (h : Kept m s0 s) :
     OutKept m s0 (execInputOvervoltage mv t s) := by
  have hdef : @execInputOvervoltage = @execInputOvervoltage := rfl
  conv at hdef => rhs; delta execInputOvervoltage
  rw [congrFun (congrFun (congrFun hdef mv) t) s]; clear hdef
  repeat' first
    | with_reducible assumption
    | with_reducible refine State.switchOff_kept (Mask.sub hm (by decide)) ?_
    | with_reducible refine State.modSvc_kept (Mask.sub hm (by decide)) ?_
    | with_reducible refine State.at_kept (Mask.sub hm (by decide)) ?_
    | with_reducible refine OutKept.next ?_
    | with_reducible refine Kept.ite ?_ ?_
    | (extract_lets -underBinder +onlyGivenNames x; subst x)
    | split
    | dsimp only

theorem execInputBelowServiceMin_kept {m : Nat} {s0 s : State} {mv : Nat} (hm : 0x4dffe &&& m = 0x4dffe) (h : Kept m s0 s) :
     OutKept m s0 (execInputBelowServiceMin mv s) := by
  have hdef : @execInputBelowServiceMin = @execInputBelowServiceMin := rfl
  conv at hdef => rhs; delta execInputBelowServiceMin
  rw [congrFun (congrFun hdef mv) s]; clear hdef
  repeat' first
    | with_reducible assumption
    | with_reducible refine State.switchOff_kept (Mask.sub hm (by decide)) ?_
    | with_reducible refine State.modSvc_kept (Mask.sub hm (by decide)) ?_
    | with_reducible refine OutKept.next ?_
    | with_reducible refine Kept.ite ?_ ?_
    | (extract_lets -underBinder +onlyGivenNames x; subst x)
    | split
    | dsimp only

theorem execInputRise_kept {m : Nat} {s0 s : State} {mv : Nat} (hm : 0x1000 &&& m = 0x1000) (h : Kept m s0 s) :
     OutKept m s0 (execInputRise mv s) := by
  have hdef : @execInputRise = @execInputRise := rfl
  conv at hdef => rhs; delta execInputRise
  rw [congrFun (congrFun hdef mv) s]; clear hdef
  repeat' first
    | with_reducible assumption
    | with_reducible refine State.modSvc_kept (Mask.sub hm (by decide)) ?_
    | with_reducible refine OutKept.next ?_
    | with_reducible refine Kept.ite ?_ ?_
    | (extract_lets -underBinder +onlyGivenNames x; subst x)
    | split
    | dsimp only

theorem State.powerOn_kept {m : Nat} {s0 s : State} (hm : 0x5dfff &&& m = 0x5dfff) (h : Kept m s0 s) :
     Kept m s0 (State.powerOn s) := by
  have hdef : @State.powerOn = @State.powerOn := rfl
  conv at hdef => rhs; delta State.powerOn
  rw [congrFun hdef s]; clear hdef
  repeat' first
    | with_reducible assumption
    | with_reducible refine State.comeUp_kept (Mask.sub hm (by decide)) ?_
    | with_reducible refine State.modSvc_kept (Mask.sub hm (by decide)) ?_
    | with_reducible refine Kept.ite ?_ ?_
    | (extract_lets -underBinder +onlyGivenNames x; subst x)
    | split
    | dsimp only

theorem execHostPowerOn_kept {m : Nat} {s0 s : State} (hm : 0x5dfff &&& m = 0x5dfff) (h : Kept m s0 s) :
     OutKept m s0 (execHostPowerOn s) := by
  have hdef : @execHostPowerOn = @execHostPowerOn := rfl
  conv at hdef => rhs; delta execHostPowerOn
  rw [congrFun hdef s]; clear hdef
  repeat' first
    | with_reducible assumption
    | with_reducible refine State.powerOn_kept (Mask.sub hm (by decide)) ?_
    | with_reducible refine OutKept.next ?_
    | with_reducible refine Kept.ite ?_ ?_
    | (extract_lets -underBinder +onlyGivenNames x; subst x)
    | split
    | dsimp only

theorem State.serviceReset_kept {m : Nat} {s0 s : State} (hm : 0x5dfff &&& m = 0x5dfff) (h : Kept m s0 s) :
     Kept m s0 (State.serviceReset s) := by
  have hdef : @State.serviceReset = @State.serviceReset := rfl
  conv at hdef => rhs; delta State.serviceReset
  rw [congrFun hdef s]; clear hdef
  repeat' first
    | with_reducible assumption
    | with_reducible refine State.comeUp_kept (Mask.sub hm (by decide)) ?_
    | with_reducible refine State.modSvc_kept (Mask.sub hm (by decide)) ?_
    | with_reducible refine Kept.ite ?_ ?_
    | (extract_lets -underBinder +onlyGivenNames x; subst x)
    | split
    | dsimp only

theorem execServiceReset_kept {m : Nat} {s0 s : State} (hm : 0x5dfff &&& m = 0x5dfff) (h : Kept m s0 s) :
     OutKept m s0 (execServiceReset s) := by
  have hdef : @execServiceReset = @execServiceReset := rfl
  conv at hdef => rhs; delta execServiceReset
  rw [congrFun hdef s]; clear hdef
  repeat' first
    | with_reducible assumption
    | with_reducible refine State.serviceReset_kept (Mask.sub hm (by decide)) ?_
    | with_reducible refine OutKept.next ?_
    | with_reducible refine Kept.ite ?_ ?_
    | (extract_lets -underBinder +onlyGivenNames x; subst x)
    | split
    | dsimp only

theorem execThermalTrip_kept {m : Nat} {s0 s : State} {sensor : Nat} {n : Nat} {deg : Nat} {t : Nat} (hm : 0x4dffe &&& m = 0x4dffe) (h : Kept m s0 s) :
     OutKept m s0 (execThermalTrip sensor n deg t s) := by
  have hdef : @execThermalTrip = @execThermalTrip := rfl
  conv at hdef => rhs; delta execThermalTrip
  rw [congrFun (congrFun (congrFun (congrFun (congrFun hdef sensor) n) deg) t) s]; clear hdef
  repeat' first
    | with_reducible assumption
    | with_reducible refine State.switchOff_kept (Mask.sub hm (by decide)) ?_
    | with_reducible refine State.modSvc_kept (Mask.sub hm (by decide)) ?_
    | with_reducible refine State.at_kept (Mask.sub hm (by decide)) ?_
    | with_reducible refine OutKept.next ?_
    | with_reducible refine Kept.ite ?_ ?_
    | (extract_lets -underBinder +onlyGivenNames x; subst x)
    | split
    | dsimp only

theorem execStageFault_kept {m : Nat} {s0 s : State} (hm : 0x4dffe &&& m = 0x4dffe) (h : Kept m s0 s) :
     OutKept m s0 (execStageFault s) := by
  have hdef : @execStageFault = @execStageFault := rfl
  conv at hdef => rhs; delta execStageFault
  rw [congrFun hdef s]; clear hdef
  repeat' first
    | with_reducible assumption
    | with_reducible refine State.switchOff_kept (Mask.sub hm (by decide)) ?_
    | with_reducible refine OutKept.next ?_
    | with_reducible refine Kept.ite ?_ ?_
    | (extract_lets -underBinder +onlyGivenNames x; subst x)
    | split
    | dsimp only

end Sys2Proof.Machine
end

