-- ==== Sys2Proof/Laws/KeptFlash.lean ====
section
/-!
SUPPORT. What the operations of Sys2Proof/Machine/Flash.lean keep (Laws/Kept.lean).
-/
namespace Sys2Proof.Machine

/-- Boot, firmware and security change; the flash keeps its contents and the fuses rise. -/
theorem State.onSec_kept {m : Nat} {s0 s : State} {f : SecSt → SecSt} (hm : 0x4000 &&& m = 0x4000) (h : Kept m s0 s)
    (hf : ∀ x : SecSt, (f x).flash = x.flash) (hr : ∀ x : SecSt, x.fuses.Rise (f x).fuses) : Kept m s0 (State.onSec s f) :=
  Kept.sec hm h _ (hf _) (hr _)

/-- Boot, firmware and security change; the flash stays canonical and the fuses rise. -/
theorem State.onFlash_kept {m : Nat} {s0 s : State} {f : SecSt → SecSt} (hm : 0x6000 &&& m = 0x6000) (h : Kept m s0 s)
    (hf : ∀ x : SecSt, Memory.wf x.flash = true → Memory.wf (f x).flash = true) (hr : ∀ x : SecSt, x.fuses.Rise (f x).fuses) :
    Kept m s0 (State.onSec s f) :=
  Kept.flash hm h _ (hf _) (hr _)

theorem wf_writeDir (x : SecSt) (f : Dir → Dir) (h : Memory.wf x.flash = true) : Memory.wf (x.writeDir f).flash = true := by
  unfold SecSt.writeDir
  with_reducible exact wf_wrBytes _ _ _ h

theorem writeDir_fuses (x : SecSt) (f : Dir → Dir) : (x.writeDir f).fuses = x.fuses := by
  unfold SecSt.writeDir
  with_reducible rfl

/-- The directory is written. -/
theorem State.onDir_kept {m : Nat} {s0 s : State} {f : Dir → Dir} (hm : 0x6000 &&& m = 0x6000) (h : Kept m s0 s) :
    Kept m s0 (State.onSec s fun x => x.writeDir f) :=
  State.onFlash_kept hm h (fun x hx => wf_writeDir x f hx) (fun x => by rw [writeDir_fuses]; exact Fuses.Rise.refl _)

theorem State.skipSlot_kept {m : Nat} {s0 s : State} {slot : Nat} {reason : Nat} (hm : 0x4008 &&& m = 0x4008) (h : Kept m s0 s) :
     Kept m s0 (State.skipSlot s slot reason) := by
  have hdef : @State.skipSlot = @State.skipSlot := rfl
  conv at hdef => rhs; delta State.skipSlot
  rw [congrFun (congrFun (congrFun hdef s) slot) reason]; clear hdef
  repeat' first
    | with_reducible assumption
    | with_reducible refine State.onSec_kept (Mask.sub hm (by decide)) ?_ (fun _ => rfl) (fun _ => Fuses.Rise.refl _)
    | with_reducible refine State.count_kept (Mask.sub hm (by decide)) ?_
    | with_reducible refine State.setFld_kept (Mask.sub hm (by decide)) ?_
    | with_reducible refine Kept.ite ?_ ?_
    | (extract_lets -underBinder +onlyGivenNames x; subst x)
    | split
    | dsimp only

theorem State.fallbacks_kept {m : Nat} {s0 s : State} {slot : Nat} (hm : 0x4829 &&& m = 0x4829) (h : Kept m s0 s) :
     Kept m s0 (State.fallbacks s slot) := by
  have hdef : @State.fallbacks = @State.fallbacks := rfl
  conv at hdef => rhs; delta State.fallbacks
  rw [congrFun (congrFun hdef s) slot]; clear hdef
  repeat' first
    | with_reducible assumption
    | with_reducible refine State.onSec_kept (Mask.sub hm (by decide)) ?_ (fun _ => rfl) (fun _ => Fuses.Rise.refl _)
    | with_reducible refine State.raise_kept (Mask.sub hm (by decide)) ?_
    | with_reducible refine State.setFld_kept (Mask.sub hm (by decide)) ?_
    | with_reducible refine Kept.foldl (fun _ _ _ => ?_) _ ?_
    | with_reducible refine Kept.ite ?_ ?_
    | (extract_lets -underBinder +onlyGivenNames x; subst x)
    | split
    | dsimp only

theorem State.recover_kept {m : Nat} {s0 s : State} (hm : 0x8 &&& m = 0x8) (h : Kept m s0 s) :
     Kept m s0 (State.recover s) := by
  have hdef : @State.recover = @State.recover := rfl
  conv at hdef => rhs; delta State.recover
  rw [congrFun hdef s]; clear hdef
  repeat' first
    | with_reducible assumption
    | with_reducible refine State.setFld_kept (Mask.sub hm (by decide)) ?_
    | with_reducible refine Kept.ite ?_ ?_
    | (extract_lets -underBinder +onlyGivenNames x; subst x)
    | split
    | dsimp only

theorem State.trySlots_kept {m : Nat} {s0 : State} (hm : 0x6829 &&& m = 0x6829) (committed trial : Nat) (l : List Nat) :
    ∀ (s : State) (low : Bool), Kept m s0 s → Kept m s0 (State.trySlots s committed trial low l) := by
  induction l with
  | nil => exact fun s low h => State.recover_kept (Mask.sub hm (by decide)) h
  | cons slot rest ih =>
    intro s low h
    rw [State.trySlots]
    refine Kept.ite (ih _ _ h) ?_
    split
    · exact ih _ _ (State.skipSlot_kept (Mask.sub hm (by decide)) h)
    · extract_lets s1
      refine State.fallbacks_kept (Mask.sub hm (by decide)) ?_
      refine State.onSec_kept (Mask.sub hm (by decide)) ?_ (fun _ => rfl) (fun _ => Fuses.Rise.refl _)
      repeat with_reducible refine State.setFld_kept (Mask.sub hm (by decide)) ?_
      refine Kept.ite ?_ h
      exact State.onDir_kept (Mask.sub hm (by decide)) h

theorem execRomBoot_kept {m : Nat} {s0 s : State} (hm : 0x6829 &&& m = 0x6829) (h : Kept m s0 s) : OutKept m s0 (execRomBoot s) := by
  have hdef : @execRomBoot = @execRomBoot := rfl
  conv at hdef => rhs; delta execRomBoot
  rw [congrFun hdef s]; clear hdef
  extract_lets d
  split
  · exact OutKept.next h
  split
  · exact OutKept.next (State.recover_kept (Mask.sub hm (by decide)) h)
  split
  · exact OutKept.next (State.trySlots_kept hm _ _ _ _ _ (State.onDir_kept (Mask.sub hm (by decide)) h))
  · refine OutKept.next (State.trySlots_kept hm _ _ _ _ _ (Kept.ite ?_ h))
    exact State.onFlash_kept (Mask.sub hm (by decide)) h (fun x hx => by dsimp only; with_reducible exact wf_writeDir x _ hx)
      (fun x => by dsimp only; rw [writeDir_fuses]; exact Fuses.Rise.refl _)

theorem execStage1Run_kept {m : Nat} {s0 s : State} {ok : Bool} (hm : 0x4008 &&& m = 0x4008) (h : Kept m s0 s) :
     OutKept m s0 (execStage1Run ok s) := by
  have hdef : @execStage1Run = @execStage1Run := rfl
  conv at hdef => rhs; delta execStage1Run
  rw [congrFun (congrFun hdef ok) s]; clear hdef
  repeat' first
    | with_reducible assumption
    | with_reducible refine State.skipSlot_kept (Mask.sub hm (by decide)) ?_
    | with_reducible refine State.onSec_kept (Mask.sub hm (by decide)) ?_ (fun _ => rfl) (fun _ => Fuses.Rise.refl _)
    | with_reducible refine State.setFld_kept (Mask.sub hm (by decide)) ?_
    | with_reducible refine OutKept.next ?_
    | with_reducible refine Kept.ite ?_ ?_
    | (extract_lets -underBinder +onlyGivenNames x; subst x)
    | split
    | dsimp only

theorem execFwReady_kept {m : Nat} {s0 s : State} (hm : 0x5829 &&& m = 0x5829) (h : Kept m s0 s) :
     OutKept m s0 (execFwReady s) := by
  have hdef : @execFwReady = @execFwReady := rfl
  conv at hdef => rhs; delta execFwReady
  rw [congrFun hdef s]; clear hdef
  repeat' first
    | with_reducible assumption
    | with_reducible refine State.onSec_kept (Mask.sub hm (by decide)) ?_ (fun _ => rfl) (fun _ => Fuses.Rise.refl _)
    | with_reducible refine State.setFld_kept (Mask.sub hm (by decide)) ?_
    | with_reducible refine State.setReg_kept (Mask.sub hm (by decide)) ?_
    | with_reducible refine State.raise_kept (Mask.sub hm (by decide)) ?_
    | with_reducible refine State.modSvc_kept (Mask.sub hm (by decide)) ?_
    | with_reducible refine OutKept.next ?_
    | with_reducible refine Kept.ite ?_ ?_
    | (extract_lets -underBinder +onlyGivenNames x; subst x)
    | split
    | dsimp only

theorem State.updStatus_kept {m : Nat} {s0 s : State} {st : Nat} (hm : 0x8 &&& m = 0x8) (h : Kept m s0 s) :
     Kept m s0 (State.updStatus s st) := by
  have hdef : @State.updStatus = @State.updStatus := rfl
  conv at hdef => rhs; delta State.updStatus
  rw [congrFun (congrFun hdef s) st]; clear hdef
  repeat' first
    | with_reducible assumption
    | with_reducible refine State.setFld_kept (Mask.sub hm (by decide)) ?_
    | with_reducible refine Kept.ite ?_ ?_
    | (extract_lets -underBinder +onlyGivenNames x; subst x)
    | split
    | dsimp only

theorem State.otherSlot_kept {m : Nat} {s0 s : State} (hm : 0x10000 &&& m = 0x10000) (h : Kept m s0 s) :
     Kept m s0 (State.otherSlot s).2 := by
  have hdef : @State.otherSlot = @State.otherSlot := rfl
  conv at hdef => rhs; delta State.otherSlot
  rw [congrFun hdef s]; clear hdef
  repeat' first
    | with_reducible assumption
    | with_reducible refine State.pick_kept (Mask.sub hm (by decide)) ?_
    | with_reducible refine Kept.ofPair (by assumption) ?_
    | with_reducible refine Kept.ite ?_ ?_
    | with_reducible refine Kept.iteSnd ?_ ?_
    | with_reducible refine Kept.iteFst ?_ ?_
    | (extract_lets -underBinder +onlyGivenNames x; subst x)
    | split
    | dsimp only

theorem execSecUpdGo_kept {m : Nat} {s0 s : State} {f : FnId} {v : Word32} (hm : 0x14008 &&& m = 0x14008) (h : Kept m s0 s) :
     OutKept m s0 (execSecUpdGo f v s) := by
  have hdef : @execSecUpdGo = @execSecUpdGo := rfl
  conv at hdef => rhs; delta execSecUpdGo
  rw [congrFun (congrFun (congrFun hdef f) v) s]; clear hdef
  repeat' first
    | with_reducible assumption
    | with_reducible refine State.otherSlot_kept (Mask.sub hm (by decide)) ?_
    | with_reducible refine State.updStatus_kept (Mask.sub hm (by decide)) ?_
    | with_reducible refine State.onSec_kept (Mask.sub hm (by decide)) ?_ (fun _ => rfl) (fun _ => Fuses.Rise.refl _)
    | with_reducible refine State.denied_kept (Mask.sub hm (by decide)) ?_
    | with_reducible refine State.setFld_kept (Mask.sub hm (by decide)) ?_
    | with_reducible refine OutKept.next ?_
    | with_reducible refine Kept.ofPair (by assumption) ?_
    | with_reducible refine Kept.ite ?_ ?_
    | with_reducible refine Kept.iteSnd ?_ ?_
    | with_reducible refine Kept.iteFst ?_ ?_
    | (extract_lets -underBinder +onlyGivenNames x; subst x)
    | split
    | dsimp only

theorem State.stage_kept {m : Nat} {s0 s : State} {g : Staging} (hm : 0x6000 &&& m = 0x6000) (h : Kept m s0 s) :
     Kept m s0 (State.stage s g).2 := by
  have hdef : @State.stage = @State.stage := rfl
  conv at hdef => rhs; delta State.stage
  rw [congrFun (congrFun hdef s) g]; clear hdef
  repeat' first
    | exact wf_wrBytes _ _ _ (wf_zeroBytes _ _ _ hx)
    | exact wf_wrBytes _ _ _ hx
    | exact wf_writeDir _ _ hx
    | exact hx
    | with_reducible assumption
    | with_reducible refine State.onSec_kept (Mask.sub hm (by decide)) ?_ (fun _ => rfl) (fun _ => Fuses.Rise.refl _)
    | with_reducible refine State.onFlash_kept (Mask.sub hm (by decide)) ?_ (fun x hx => ?_) (fun _ => Fuses.Rise.refl _)
    | with_reducible refine Kept.ite ?_ ?_
    | (extract_lets -underBinder +onlyGivenNames x; subst x)
    | split
    | dsimp only

theorem execFwStaged_kept {m : Nat} {s0 s : State} (hm : 0x6829 &&& m = 0x6829) (h : Kept m s0 s) : OutKept m s0 (execFwStaged s) := by
  have hdef : @execFwStaged = @execFwStaged := rfl
  conv at hdef => rhs; delta execFwStaged
  rw [congrFun hdef s]; clear hdef
  split
  · exact OutKept.next h
  split
  · exact OutKept.next h
  extract_lets r t1
  refine OutKept.next ?_
  refine State.raise_kept (Mask.sub hm (by decide)) ?_
  refine State.onSec_kept (Mask.sub hm (by decide)) ?_ (fun _ => rfl) (fun _ => Fuses.Rise.refl _)
  repeat with_reducible refine State.setFld_kept (Mask.sub hm (by decide)) ?_
  refine State.updStatus_kept (Mask.sub hm (by decide)) ?_
  have hr : Kept m s0 r.2 := State.stage_kept (Mask.sub hm (by decide)) h
  exact Kept.ite (State.onDir_kept (Mask.sub hm (by decide)) hr) hr

theorem execSecUpdCommit_kept {m : Nat} {s0 s : State} {f : FnId} {v : Word32} (hm : 0x6829 &&& m = 0x6829) (h : Kept m s0 s) :
    OutKept m s0 (execSecUpdCommit f v s) := by
  have hdef : @execSecUpdCommit = @execSecUpdCommit := rfl
  conv at hdef => rhs; delta execSecUpdCommit
  rw [congrFun (congrFun (congrFun hdef f) v) s]; clear hdef
  refine OutKept.next (Kept.ite h (Kept.ite (State.denied_kept (Mask.sub hm (by decide)) h) (Kept.ite h ?_)))
  refine Kept.ite (State.updStatus_kept (Mask.sub hm (by decide)) h) (Kept.ite (State.updStatus_kept (Mask.sub hm (by decide)) h)
    (Kept.ite (State.updStatus_kept (Mask.sub hm (by decide)) h) ?_))
  extract_lets slot s1
  refine State.raise_kept (Mask.sub hm (by decide)) ?_
  repeat with_reducible refine State.setFld_kept (Mask.sub hm (by decide)) ?_
  refine State.updStatus_kept (Mask.sub hm (by decide)) (State.showFuses_kept (Mask.sub hm (by decide)) ?_)
  refine State.onFlash_kept (Mask.sub hm (by decide)) h (fun x hx => by dsimp only; with_reducible exact wf_writeDir x _ hx) (fun x => ?_)
  dsimp only
  refine ⟨Nat.le_of_eq ?_, ?_, ?_, ?_, ?_, ?_, ?_, ?_, ?_⟩ <;> with_reducible rw [writeDir_fuses]
  · exact Nat.le_max_left _ _
  · exact id
  · exact fun _ hn => hn

end Sys2Proof.Machine
end

