-- ==== Sys2Proof/Laws/KeptLogs.lean ====
section
/-!
SUPPORT. What the operations of Sys2Proof/Machine/Logs.lean keep (Laws/Kept.lean).
-/
namespace Sys2Proof.Machine

theorem bit_eq_bits (w i : Nat) : bit w i = (bits w i i == 1) := by
  unfold bit bits
  rw [show i + 1 - i = 1 by omega, Nat.pow_one]

/-- Burning one more revocation fuse. -/
theorem Fuses.rise_revoke (f : Fuses) (n : Nat) : f.Rise { f with revoked := putBits f.revoked n n 1 } := by
  refine ⟨Nat.le_refl _, Nat.le_refl _, id, fun i hi => ?_, rfl, rfl, rfl, rfl, rfl⟩
  rw [bit_eq_bits] at *
  dsimp only
  rcases Nat.lt_trichotomy i n with h | h | h
  · rw [bits_putBits_below _ _ _ _ _ _ h]; exact hi
  · subst h
    rw [bits_putBits_same, show i + 1 - i = 1 by omega]
    rfl
  · rw [bits_putBits_above _ _ _ _ _ _ (Nat.le_refl _) h]; exact hi

theorem State.logPut_kept {m : Nat} {s0 s : State} {p : Nat} {r : List Byte} (hm : 0x4009 &&& m = 0x4009) (h : Kept m s0 s) :
     Kept m s0 (State.logPut s p r) := by
  have hdef : @State.logPut = @State.logPut := rfl
  conv at hdef => rhs; delta State.logPut
  rw [congrFun (congrFun (congrFun hdef s) p) r]; clear hdef
  repeat' first
    | with_reducible assumption
    | with_reducible refine State.setFld_kept (Mask.sub hm (by decide)) ?_
    | with_reducible refine State.hostWrite_kept (Mask.sub hm (by decide)) ?_
    | with_reducible refine State.onSec_kept (Mask.sub hm (by decide)) ?_ (fun _ => rfl) (fun _ => Fuses.Rise.refl _)
    | with_reducible refine State.count_kept (Mask.sub hm (by decide)) ?_
    | with_reducible refine Kept.ite ?_ ?_
    | (extract_lets -underBinder +onlyGivenNames x; subst x)
    | split
    | dsimp only

theorem State.logReturned_kept {m : Nat} {s0 s : State} {p : Nat} (hm : 0x4829 &&& m = 0x4829) (h : Kept m s0 s) :
     Kept m s0 (State.logReturned s p) := by
  have hdef : @State.logReturned = @State.logReturned := rfl
  conv at hdef => rhs; delta State.logReturned
  rw [congrFun (congrFun hdef s) p]; clear hdef
  repeat' first
    | with_reducible assumption
    | with_reducible refine State.raise_kept (Mask.sub hm (by decide)) ?_
    | with_reducible refine State.setFld_kept (Mask.sub hm (by decide)) ?_
    | with_reducible refine State.onSec_kept (Mask.sub hm (by decide)) ?_ (fun _ => rfl) (fun _ => Fuses.Rise.refl _)
    | with_reducible refine Kept.ite ?_ ?_
    | (extract_lets -underBinder +onlyGivenNames x; subst x)
    | split
    | dsimp only

theorem State.logAdd_kept {m : Nat} {s0 s : State} {sev : Nat} {ctx : Nat} {point : Nat} {args : List Byte} (hm : 0x4009 &&& m = 0x4009) (h : Kept m s0 s) :
     Kept m s0 (State.logAdd s sev ctx point args) := by
  have hdef : @State.logAdd = @State.logAdd := rfl
  conv at hdef => rhs; delta State.logAdd
  rw [congrFun (congrFun (congrFun (congrFun (congrFun hdef s) sev) ctx) point) args]; clear hdef
  repeat' first
    | with_reducible assumption
    | with_reducible refine State.logPut_kept (Mask.sub hm (by decide)) ?_
    | with_reducible refine State.onSec_kept (Mask.sub hm (by decide)) ?_ (fun _ => rfl) (fun _ => Fuses.Rise.refl _)
    | with_reducible refine Kept.ite ?_ ?_
    | (extract_lets -underBinder +onlyGivenNames x; subst x)
    | split
    | dsimp only

theorem execLogRecord_kept {m : Nat} {s0 s : State} {sev : Nat} {src : Nat} {point : Nat} {data : List Byte} (hm : 0x4009 &&& m = 0x4009) (h : Kept m s0 s) :
     OutKept m s0 (execLogRecord sev src point data s) := by
  have hdef : @execLogRecord = @execLogRecord := rfl
  conv at hdef => rhs; delta execLogRecord
  rw [congrFun (congrFun (congrFun (congrFun (congrFun hdef sev) src) point) data) s]; clear hdef
  repeat' first
    | with_reducible assumption
    | with_reducible refine State.logAdd_kept (Mask.sub hm (by decide)) ?_
    | with_reducible refine OutKept.next ?_
    | with_reducible refine Kept.ite ?_ ?_
    | (extract_lets -underBinder +onlyGivenNames x; subst x)
    | split
    | dsimp only

theorem execSecLogHeadWrite_kept {m : Nat} {s0 s : State} {f : FnId} {v : Word32} (hm : 0x4829 &&& m = 0x4829) (h : Kept m s0 s) :
     OutKept m s0 (execSecLogHeadWrite f v s) := by
  have hdef : @execSecLogHeadWrite = @execSecLogHeadWrite := rfl
  conv at hdef => rhs; delta execSecLogHeadWrite
  rw [congrFun (congrFun (congrFun hdef f) v) s]; clear hdef
  repeat' first
    | with_reducible assumption
    | with_reducible refine State.logReturned_kept (Mask.sub hm (by decide)) ?_
    | with_reducible refine State.setFld_kept (Mask.sub hm (by decide)) ?_
    | with_reducible refine OutKept.next ?_
    | with_reducible refine Kept.ite ?_ ?_
    | (extract_lets -underBinder +onlyGivenNames x; subst x)
    | split
    | dsimp only

theorem execSecDiagGo_kept {m : Nat} {s0 s : State} {f : FnId} {v : Word32} (hm : 0x10008 &&& m = 0x10008) (h : Kept m s0 s) :
     OutKept m s0 (execSecDiagGo f v s) := by
  have hdef : @execSecDiagGo = @execSecDiagGo := rfl
  conv at hdef => rhs; delta execSecDiagGo
  rw [congrFun (congrFun (congrFun hdef f) v) s]; clear hdef
  repeat' first
    | with_reducible assumption
    | with_reducible refine State.softReg_kept (Mask.sub hm (by decide)) ?_
    | with_reducible refine State.pick_kept (Mask.sub hm (by decide)) ?_
    | with_reducible refine State.setFld_kept (Mask.sub hm (by decide)) ?_
    | with_reducible refine State.setReg64_kept (Mask.sub hm (by decide)) ?_
    | with_reducible refine OutKept.next ?_
    | with_reducible refine Kept.ofPair (by assumption) ?_
    | with_reducible refine Kept.ite ?_ ?_
    | with_reducible refine Kept.iteSnd ?_ ?_
    | with_reducible refine Kept.iteFst ?_ ?_
    | (extract_lets -underBinder +onlyGivenNames x; subst x)
    | split
    | dsimp only

theorem State.jtagRun_kept {m : Nat} {s0 s : State} {ir : Nat} {dr : Nat} (hm : 0x34008 &&& m = 0x34008) (h : Kept m s0 s) :
     Kept m s0 (State.jtagRun s ir dr) := by
  have hdef : @State.jtagRun = @State.jtagRun := rfl
  conv at hdef => rhs; delta State.jtagRun
  rw [congrFun (congrFun (congrFun hdef s) ir) dr]; clear hdef
  have a : ∀ {t : State} (bs : List Byte), Kept m s0 t → Kept m s0 { t with answer := bs } := fun bs k =>
    Kept.answer (Mask.sub hm (by decide)) k bs
  split
  · with_reducible exact a _ (State.pick_kept (Mask.sub hm (by decide)) h)
  · with_reducible exact a _ (State.pick_kept (Mask.sub hm (by decide)) h)
  · exact State.onSec_kept (Mask.sub hm (by decide)) h (fun _ => rfl) (fun _ => Fuses.Rise.refl _)
  · exact State.onSec_kept (Mask.sub hm (by decide)) h (fun _ => rfl) (fun _ => Fuses.Rise.refl _)
  · exact State.onSec_kept (Mask.sub hm (by decide)) h (fun _ => rfl) (fun _ => Fuses.Rise.refl _)
  · exact State.onSec_kept (Mask.sub hm (by decide)) h (fun _ => rfl) (fun _ => Fuses.Rise.refl _)
  · refine State.showFuses_kept (Mask.sub hm (by decide)) ?_
    exact State.onSec_kept (Mask.sub hm (by decide)) h (fun _ => rfl) (fun x => Fuses.rise_revoke x.fuses _)
  · with_reducible exact a _ h
  · with_reducible exact a _ h
  · with_reducible exact a _ h

theorem execJtagInstruction_kept {m : Nat} {s0 s : State} {ir : Nat} {dr : Nat} (hm : 0x34009 &&& m = 0x34009) (h : Kept m s0 s) :
     OutKept m s0 (execJtagInstruction ir dr s) := by
  have hdef : @execJtagInstruction = @execJtagInstruction := rfl
  conv at hdef => rhs; delta execJtagInstruction
  rw [congrFun (congrFun (congrFun hdef ir) dr) s]; clear hdef
  repeat' first
    | with_reducible assumption
    | with_reducible refine State.jtagRun_kept (Mask.sub hm (by decide)) ?_
    | with_reducible refine State.logAdd_kept (Mask.sub hm (by decide)) ?_
    | with_reducible refine State.pick_kept (Mask.sub hm (by decide)) ?_
    | with_reducible refine State.count_kept (Mask.sub hm (by decide)) ?_
    | with_reducible refine OutKept.next ?_
    | with_reducible refine Kept.ofPair (by assumption) ?_
    | with_reducible refine Kept.ite ?_ ?_
    | with_reducible refine Kept.iteSnd ?_ ?_
    | with_reducible refine Kept.iteFst ?_ ?_
    | (extract_lets -underBinder +onlyGivenNames x; subst x)
    | split
    | with_reducible refine Kept.answer (Mask.sub hm (by decide)) ?_ _
    | dsimp only

end Sys2Proof.Machine
end

