-- ==== Sys2Proof/Laws/KeptLifecycle.lean ====
section
/-!
SUPPORT. What the operations of Sys2Proof/Machine/Lifecycle.lean keep (Laws/Kept.lean).
-/
namespace Sys2Proof.Machine

/-- One more LC fuse. -/
theorem Fuses.rise_lc (f : Fuses) : f.Rise { f with lc := f.lc + 1 } :=
  ⟨Nat.le_succ _, Nat.le_refl _, id, fun _ h => h, rfl, rfl, rfl, rfl, rfl⟩

/-- The SCRAP fuse. -/
theorem Fuses.rise_scrap (f : Fuses) : f.Rise { f with scrap := true } :=
  ⟨Nat.le_refl _, Nat.le_refl _, fun _ => rfl, fun _ h => h, rfl, rfl, rfl, rfl, rfl⟩

theorem State.tokenRefused_kept {m : Nat} {s0 s : State} {kind : Nat} {st : Nat} {svc : Bool} (hm : 0x829 &&& m = 0x829) (h : Kept m s0 s) :
     Kept m s0 (State.tokenRefused s kind st svc) := by
  have hdef : @State.tokenRefused = @State.tokenRefused := rfl
  conv at hdef => rhs; delta State.tokenRefused
  rw [congrFun (congrFun (congrFun (congrFun hdef s) kind) st) svc]; clear hdef
  repeat' first
    | with_reducible assumption
    | with_reducible refine State.raise_kept (Mask.sub hm (by decide)) ?_
    | with_reducible refine State.count_kept (Mask.sub hm (by decide)) ?_
    | with_reducible refine State.setFld_kept (Mask.sub hm (by decide)) ?_
    | with_reducible refine Kept.ite ?_ ?_
    | (extract_lets -underBinder +onlyGivenNames x; subst x)
    | split
    | dsimp only

theorem State.lcAnswer_kept {m : Nat} {s0 s : State} {st : Nat} {svc : Bool} (hm : 0x20008 &&& m = 0x20008) (h : Kept m s0 s) :
     Kept m s0 (State.lcAnswer s st svc) := by
  have hdef : @State.lcAnswer = @State.lcAnswer := rfl
  conv at hdef => rhs; delta State.lcAnswer
  rw [congrFun (congrFun (congrFun hdef s) st) svc]; clear hdef
  repeat' first
    | with_reducible assumption
    | with_reducible refine State.setFld_kept (Mask.sub hm (by decide)) ?_
    | with_reducible refine Kept.ite ?_ ?_
    | (extract_lets -underBinder +onlyGivenNames x; subst x)
    | split
    | with_reducible refine Kept.answer (Mask.sub hm (by decide)) ?_ _
    | dsimp only

theorem State.lcRequest_kept {m : Nat} {s0 s : State} {k : List Byte} {key : List Byte} {svc : Bool} (hm : 0x34829 &&& m = 0x34829) (h : Kept m s0 s) :
     Kept m s0 (State.lcRequest s k key svc) := by
  have hdef : @State.lcRequest = @State.lcRequest := rfl
  conv at hdef => rhs; delta State.lcRequest
  rw [congrFun (congrFun (congrFun (congrFun hdef s) k) key) svc]; clear hdef
  repeat' first
    | with_reducible assumption
    | with_reducible refine State.lcAnswer_kept (Mask.sub hm (by decide)) ?_
    | with_reducible refine State.tokenRefused_kept (Mask.sub hm (by decide)) ?_
    | with_reducible refine State.newNonce_kept (Mask.sub hm (by decide)) ?_
    | with_reducible refine State.onSec_kept (Mask.sub hm (by decide)) ?_ (fun _ => rfl) (fun _ => Fuses.Rise.refl _)
    | with_reducible refine State.setFld_kept (Mask.sub hm (by decide)) ?_
    | with_reducible refine Kept.ite ?_ ?_
    | (extract_lets -underBinder +onlyGivenNames x; subst x)
    | split
    | dsimp only

theorem execSecLcReqGo_kept {m : Nat} {s0 s : State} {f : FnId} {v : Word32} (hm : 0x34829 &&& m = 0x34829) (h : Kept m s0 s) :
     OutKept m s0 (execSecLcReqGo f v s) := by
  have hdef : @execSecLcReqGo = @execSecLcReqGo := rfl
  conv at hdef => rhs; delta execSecLcReqGo
  rw [congrFun (congrFun (congrFun hdef f) v) s]; clear hdef
  repeat' first
    | with_reducible assumption
    | with_reducible refine State.lcRequest_kept (Mask.sub hm (by decide)) ?_
    | with_reducible refine State.denied_kept (Mask.sub hm (by decide)) ?_
    | with_reducible refine OutKept.next ?_
    | with_reducible refine Kept.getD_ ?_ ?_
    | with_reducible refine Kept.ite ?_ ?_
    | (extract_lets -underBinder +onlyGivenNames x; subst x)
    | split
    | dsimp only

theorem State.endSessions_kept {m : Nat} {s0 s : State} (hm : 0x4000 &&& m = 0x4000) (h : Kept m s0 s) :
     Kept m s0 (State.endSessions s) := by
  have hdef : @State.endSessions = @State.endSessions := rfl
  conv at hdef => rhs; delta State.endSessions
  rw [congrFun hdef s]; clear hdef
  repeat' first
    | with_reducible assumption
    | with_reducible refine State.onSec_kept (Mask.sub hm (by decide)) ?_ (fun _ => rfl) (fun _ => Fuses.Rise.refl _)
    | with_reducible refine Kept.ite ?_ ?_
    | (extract_lets -underBinder +onlyGivenNames x; subst x)
    | split
    | dsimp only

theorem State.endDebug_kept {m : Nat} {s0 s : State} (hm : 0x4008 &&& m = 0x4008) (h : Kept m s0 s) :
     Kept m s0 (State.endDebug s) := by
  have hdef : @State.endDebug = @State.endDebug := rfl
  conv at hdef => rhs; delta State.endDebug
  rw [congrFun hdef s]; clear hdef
  repeat' first
    | with_reducible assumption
    | with_reducible refine State.showFuses_kept (Mask.sub hm (by decide)) ?_
    | with_reducible refine State.setFld_kept (Mask.sub hm (by decide)) ?_
    | with_reducible refine State.onSec_kept (Mask.sub hm (by decide)) ?_ (fun _ => rfl) (fun _ => Fuses.Rise.refl _)
    | with_reducible refine Kept.ite ?_ ?_
    | (extract_lets -underBinder +onlyGivenNames x; subst x)
    | split
    | dsimp only

theorem State.lcUp_kept {m : Nat} {s0 s : State} (hm : 0x4008 &&& m = 0x4008) (h : Kept m s0 s) :
     Kept m s0 (State.lcUp s) := by
  have hdef : @State.lcUp = @State.lcUp := rfl
  conv at hdef => rhs; delta State.lcUp
  rw [congrFun hdef s]; clear hdef
  repeat' first
    | with_reducible assumption
    | with_reducible refine State.onSec_kept (Mask.sub hm (by decide)) ?_ (fun _ => rfl) (fun x => Fuses.rise_lc x.fuses)
    | with_reducible refine State.endDebug_kept (Mask.sub hm (by decide)) ?_
    | with_reducible refine State.onSec_kept (Mask.sub hm (by decide)) ?_ (fun _ => rfl) (fun _ => Fuses.Rise.refl _)
    | with_reducible refine Kept.ite ?_ ?_
    | (extract_lets -underBinder +onlyGivenNames x; subst x)
    | split
    | dsimp only

theorem State.destroyAll_kept {m : Nat} {s0 s : State} (hm : 0xfef &&& m = 0xfef) (h : Kept m s0 s) :
     Kept m s0 (State.destroyAll s) := by
  have hdef : @State.destroyAll = @State.destroyAll := rfl
  conv at hdef => rhs; delta State.destroyAll
  rw [congrFun hdef s]; clear hdef
  repeat' first
    | with_reducible assumption
    | with_reducible refine State.destroyNow_kept (Mask.sub hm (by decide)) ?_
    | with_reducible refine Kept.foldl (fun _ _ _ => ?_) _ ?_
    | with_reducible refine Kept.ite ?_ ?_
    | (extract_lets -underBinder +onlyGivenNames x; subst x)
    | split
    | dsimp only

theorem State.eraseAll_kept {m : Nat} {s0 s : State} (hm : 0xfff &&& m = 0xfff) (h : Kept m s0 s) :
     Kept m s0 (State.eraseAll s) := by
  have hdef : @State.eraseAll = @State.eraseAll := rfl
  conv at hdef => rhs; delta State.eraseAll
  rw [congrFun hdef s]; clear hdef
  extract_lets s1
  refine Kept.foldl (fun _ _ k => State.modPort_kept (Mask.sub hm (by decide)) (State.losePort_kept (Mask.sub hm (by decide)) k)) _ ?_
  exact Kept.aus (t := { s with mem := { s.mem with hbm := [] } }) (Mask.sub hm (by decide))
    (Kept.hbm (Mask.sub hm (by decide)) h [] fun _ => rfl) _

theorem State.lcDo_kept {m : Nat} {s0 s : State} {r : LcReq} (hm : 0x4fff &&& m = 0x4fff) (h : Kept m s0 s) :
     Kept m s0 (State.lcDo s r) := by
  have hdef : @State.lcDo = @State.lcDo := rfl
  conv at hdef => rhs; delta State.lcDo
  rw [congrFun (congrFun hdef s) r]; clear hdef
  repeat' first
    | with_reducible assumption
    | with_reducible refine State.onSec_kept (Mask.sub hm (by decide)) ?_ (fun _ => rfl) (fun x => Fuses.rise_scrap x.fuses)
    | with_reducible refine State.eraseAll_kept (Mask.sub hm (by decide)) ?_
    | with_reducible refine State.destroyAll_kept (Mask.sub hm (by decide)) ?_
    | with_reducible refine State.lcUp_kept (Mask.sub hm (by decide)) ?_
    | with_reducible refine State.endDebug_kept (Mask.sub hm (by decide)) ?_
    | with_reducible refine State.showFuses_kept (Mask.sub hm (by decide)) ?_
    | with_reducible refine State.setFld_kept (Mask.sub hm (by decide)) ?_
    | with_reducible refine State.onSec_kept (Mask.sub hm (by decide)) ?_ (fun _ => rfl) (fun _ => Fuses.Rise.refl _)
    | with_reducible refine Kept.ite ?_ ?_
    | (extract_lets -underBinder +onlyGivenNames x; subst x)
    | split
    | dsimp only

theorem State.lcChanged_kept {m : Nat} {s0 s : State} {old : Nat} {kind : Nat} {source : Nat} (hm : 0x829 &&& m = 0x829) (h : Kept m s0 s) :
     Kept m s0 (State.lcChanged s old kind source) := by
  have hdef : @State.lcChanged = @State.lcChanged := rfl
  conv at hdef => rhs; delta State.lcChanged
  rw [congrFun (congrFun (congrFun (congrFun hdef s) old) kind) source]; clear hdef
  repeat' first
    | with_reducible assumption
    | with_reducible refine State.raise_kept (Mask.sub hm (by decide)) ?_
    | with_reducible refine Kept.ite ?_ ?_
    | (extract_lets -underBinder +onlyGivenNames x; subst x)
    | split
    | dsimp only

theorem execLifecycleTransition_kept {m : Nat} {s0 s : State} (hm : 0x34fff &&& m = 0x34fff) (h : Kept m s0 s) :
     OutKept m s0 (execLifecycleTransition s) := by
  have hdef : @execLifecycleTransition = @execLifecycleTransition := rfl
  conv at hdef => rhs; delta execLifecycleTransition
  rw [congrFun hdef s]; clear hdef
  repeat' first
    | with_reducible assumption
    | with_reducible refine State.lcChanged_kept (Mask.sub hm (by decide)) ?_
    | with_reducible refine State.lcDo_kept (Mask.sub hm (by decide)) ?_
    | with_reducible refine State.endSessions_kept (Mask.sub hm (by decide)) ?_
    | with_reducible refine State.lcAnswer_kept (Mask.sub hm (by decide)) ?_
    | with_reducible refine State.newNonce_kept (Mask.sub hm (by decide)) ?_
    | with_reducible refine State.onSec_kept (Mask.sub hm (by decide)) ?_ (fun _ => rfl) (fun _ => Fuses.Rise.refl _)
    | with_reducible refine State.setFld_kept (Mask.sub hm (by decide)) ?_
    | with_reducible refine State.setReg_kept (Mask.sub hm (by decide)) ?_
    | with_reducible refine State.recover_kept (Mask.sub hm (by decide)) ?_
    | with_reducible refine OutKept.next ?_
    | with_reducible refine Kept.ite ?_ ?_
    | (extract_lets -underBinder +onlyGivenNames x; subst x)
    | split
    | dsimp only

theorem execDebugExpiry_kept {m : Nat} {s0 s : State} {t : Nat} (hm : 0x1c829 &&& m = 0x1c829) (h : Kept m s0 s) :
     OutKept m s0 (execDebugExpiry t s) := by
  have hdef : @execDebugExpiry = @execDebugExpiry := rfl
  conv at hdef => rhs; delta execDebugExpiry
  rw [congrFun (congrFun hdef t) s]; clear hdef
  repeat' first
    | with_reducible assumption
    | with_reducible refine State.lcChanged_kept (Mask.sub hm (by decide)) ?_
    | with_reducible refine State.endDebug_kept (Mask.sub hm (by decide)) ?_
    | with_reducible refine State.endSessions_kept (Mask.sub hm (by decide)) ?_
    | with_reducible refine State.at_kept (Mask.sub hm (by decide)) ?_
    | with_reducible refine State.pick_kept (Mask.sub hm (by decide)) ?_
    | with_reducible refine State.onSec_kept (Mask.sub hm (by decide)) ?_ (fun _ => rfl) (fun _ => Fuses.Rise.refl _)
    | with_reducible refine OutKept.next ?_
    | with_reducible refine Kept.ofPair (by assumption) ?_
    | with_reducible refine Kept.ite ?_ ?_
    | with_reducible refine Kept.iteSnd ?_ ?_
    | with_reducible refine Kept.iteFst ?_ ?_
    | (extract_lets -underBinder +onlyGivenNames x; subst x)
    | split
    | dsimp only

theorem execIdeKmRequest_kept {m : Nat} {s0 s : State} {p : PortId} {req : List Byte} (hm : 0x20010 &&& m = 0x20010) (h : Kept m s0 s) :
     OutKept m s0 (execIdeKmRequest p req s) := by
  have hdef : @execIdeKmRequest = @execIdeKmRequest := rfl
  conv at hdef => rhs; delta execIdeKmRequest
  rw [congrFun (congrFun (congrFun hdef p) req) s]; clear hdef
  repeat' first
    | with_reducible assumption
    | with_reducible refine State.modPort_kept (Mask.sub hm (by decide)) ?_
    | with_reducible refine OutKept.next ?_
    | with_reducible refine Kept.ite ?_ ?_
    | (extract_lets -underBinder +onlyGivenNames x; subst x)
    | split
    | with_reducible refine Kept.answer (Mask.sub hm (by decide)) ?_ _
    | dsimp only

theorem execSpdmRequest_kept {m : Nat} {s0 s : State} {p : PortId} {req : List Byte} (hm : 0x34000 &&& m = 0x34000) (h : Kept m s0 s) :
     OutKept m s0 (execSpdmRequest p req s) := by
  have hdef : @execSpdmRequest = @execSpdmRequest := rfl
  conv at hdef => rhs; delta execSpdmRequest
  rw [congrFun (congrFun (congrFun hdef p) req) s]; clear hdef
  repeat' first
    | with_reducible assumption
    | with_reducible refine State.pick_kept (Mask.sub hm (by decide)) ?_
    | with_reducible refine State.onSec_kept (Mask.sub hm (by decide)) ?_ (fun _ => rfl) (fun _ => Fuses.Rise.refl _)
    | with_reducible refine OutKept.next ?_
    | with_reducible refine Kept.ofPair (by assumption) ?_
    | with_reducible refine Kept.ite ?_ ?_
    | with_reducible refine Kept.iteSnd ?_ ?_
    | with_reducible refine Kept.iteFst ?_ ?_
    | (extract_lets -underBinder +onlyGivenNames x; subst x)
    | split
    | with_reducible refine Kept.answer (Mask.sub hm (by decide)) ?_ _
    | dsimp only

end Sys2Proof.Machine
end

