-- ==== Sys2Proof/Laws/KeptFirmware.lean ====
section
/-!
SUPPORT. What the operations of Sys2Proof/Machine/Firmware.lean keep (Laws/Kept.lean).
-/
namespace Sys2Proof.Machine

theorem State.halt_kept {m : Nat} {s0 s : State} {comp : Nat} {cause : Nat} {reason : Nat} (hm : 0x6aed &&& m = 0x6aed) (h : Kept m s0 s) :
     Kept m s0 (State.halt s comp cause reason) := by
  have hdef : @State.halt = @State.halt := rfl
  conv at hdef => rhs; delta State.halt
  rw [congrFun (congrFun (congrFun (congrFun hdef s) comp) cause) reason]; clear hdef
  repeat' first
    | exact wf_wrBytes _ _ _ (wf_zeroBytes _ _ _ hx)
    | exact wf_wrBytes _ _ _ hx
    | exact wf_writeDir _ _ hx
    | exact hx
    | with_reducible assumption
    | with_reducible refine State.stopAgents_kept (Mask.sub hm (by decide)) ?_
    | with_reducible refine State.raise_kept (Mask.sub hm (by decide)) ?_
    | with_reducible refine State.setReg_kept (Mask.sub hm (by decide)) ?_
    | with_reducible refine State.setFld_kept (Mask.sub hm (by decide)) ?_
    | with_reducible refine State.onSec_kept (Mask.sub hm (by decide)) ?_ (fun _ => rfl) (fun _ => Fuses.Rise.refl _)
    | with_reducible refine State.onFlash_kept (Mask.sub hm (by decide)) ?_ (fun x hx => ?_) (fun _ => Fuses.Rise.refl _)
    | with_reducible refine Kept.foldl (fun _ _ _ => ?_) _ ?_
    | with_reducible refine Kept.ite ?_ ?_
    | (extract_lets -underBinder +onlyGivenNames x; subst x)
    | split
    | dsimp only

theorem State.restartScheduler_kept {m : Nat} {s0 s : State} (hm : 0xfef &&& m = 0xfef) (h : Kept m s0 s) :
     Kept m s0 (State.restartScheduler s) := by
  have hdef : @State.restartScheduler = @State.restartScheduler := rfl
  conv at hdef => rhs; delta State.restartScheduler
  rw [congrFun hdef s]; clear hdef
  repeat' first
    | with_reducible assumption
    | with_reducible refine State.completeWhere_kept (Mask.sub hm (by decide)) ?_
    | with_reducible refine State.tearDown_kept (Mask.sub hm (by decide)) ?_
    | with_reducible refine Kept.foldl (fun _ _ _ => ?_) _ ?_
    | with_reducible refine Kept.ite ?_ ?_
    | (extract_lets -underBinder +onlyGivenNames x; subst x)
    | split
    | dsimp only

theorem State.restartLoads_kept {m : Nat} {s0 s : State} (hm : 0x849 &&& m = 0x849) (h : Kept m s0 s) :
     Kept m s0 (State.restartLoads s) := by
  have hdef : @State.restartLoads = @State.restartLoads := rfl
  conv at hdef => rhs; delta State.restartLoads
  rw [congrFun hdef s]; clear hdef
  repeat' first
    | with_reducible assumption
    | with_reducible refine State.loadFails_kept (Mask.sub hm (by decide)) ?_
    | with_reducible refine Kept.foldl (fun _ _ _ => ?_) _ ?_
    | with_reducible refine Kept.ite ?_ ?_
    | (extract_lets -underBinder +onlyGivenNames x; subst x)
    | split
    | dsimp only

theorem State.restartRestores_kept {m : Nat} {s0 s : State} (hm : 0x849 &&& m = 0x849) (h : Kept m s0 s) :
     Kept m s0 (State.restartRestores s) := by
  have hdef : @State.restartRestores = @State.restartRestores := rfl
  conv at hdef => rhs; delta State.restartRestores
  rw [congrFun hdef s]; clear hdef
  repeat' first
    | with_reducible assumption
    | with_reducible refine State.modDust_kept (Mask.sub hm (by decide)) ?_
    | with_reducible refine State.enter_kept (Mask.sub hm (by decide)) ?_
    | with_reducible refine State.completeWhere_kept (Mask.sub hm (by decide)) ?_
    | with_reducible refine Kept.foldl (fun _ _ _ => ?_) _ ?_
    | with_reducible refine Kept.ite ?_ ?_
    | (extract_lets -underBinder +onlyGivenNames x; subst x)
    | split
    | dsimp only

theorem State.restartPlacer_kept {m : Nat} {s0 s : State} (hm : 0x849 &&& m = 0x849) (h : Kept m s0 s) :
     Kept m s0 (State.restartPlacer s) := by
  have hdef : @State.restartPlacer = @State.restartPlacer := rfl
  conv at hdef => rhs; delta State.restartPlacer
  rw [congrFun hdef s]; clear hdef
  repeat' first
    | with_reducible assumption
    | with_reducible refine State.restartRestores_kept (Mask.sub hm (by decide)) ?_
    | with_reducible refine State.restartLoads_kept (Mask.sub hm (by decide)) ?_
    | with_reducible refine State.completeWhere_kept (Mask.sub hm (by decide)) ?_
    | with_reducible refine Kept.foldl (fun _ _ _ => ?_) _ ?_
    | with_reducible refine Kept.ite ?_ ?_
    | (extract_lets -underBinder +onlyGivenNames x; subst x)
    | split
    | dsimp only

theorem State.restartResilience_kept {m : Nat} {s0 s : State} (hm : 0x96d &&& m = 0x96d) (h : Kept m s0 s) :
     Kept m s0 (State.restartResilience s) := by
  have hdef : @State.restartResilience = @State.restartResilience := rfl
  conv at hdef => rhs; delta State.restartResilience
  rw [congrFun hdef s]; clear hdef
  repeat' first
    | with_reducible assumption
    | with_reducible refine State.restartRestores_kept (Mask.sub hm (by decide)) ?_
    | with_reducible refine State.failSecuring_kept (Mask.sub hm (by decide)) ?_
    | with_reducible refine Kept.foldl (fun _ _ _ => ?_) _ ?_
    | with_reducible refine Kept.ite ?_ ?_
    | (extract_lets -underBinder +onlyGivenNames x; subst x)
    | split
    | dsimp only

theorem State.restartPaging_kept {m : Nat} {s0 s : State} (hm : 0x86f &&& m = 0x86f) (h : Kept m s0 s) :
     Kept m s0 (State.restartPaging s) := by
  have hdef : @State.restartPaging = @State.restartPaging := rfl
  conv at hdef => rhs; delta State.restartPaging
  rw [congrFun hdef s]; clear hdef
  repeat' first
    | with_reducible assumption
    | with_reducible refine State.modPte_kept (Mask.sub hm (by decide)) ?_
    | with_reducible refine State.freeFrame_kept (Mask.sub hm (by decide)) ?_
    | with_reducible refine Kept.foldl (fun _ _ _ => ?_) _ ?_
    | with_reducible refine Kept.ite ?_ ?_
    | (extract_lets -underBinder +onlyGivenNames x; subst x)
    | split
    | with_reducible refine Kept.mem (Mask.sub hm (by decide)) ?_ _ rfl
    | dsimp only

theorem State.restartSecurity_kept {m : Nat} {s0 s : State} (hm : 0x34829 &&& m = 0x34829) (h : Kept m s0 s) :
     Kept m s0 (State.restartSecurity s) := by
  have hdef : @State.restartSecurity = @State.restartSecurity := rfl
  conv at hdef => rhs; delta State.restartSecurity
  rw [congrFun hdef s]; clear hdef
  repeat' first
    | with_reducible assumption
    | with_reducible refine State.endSessions_kept (Mask.sub hm (by decide)) ?_
    | with_reducible refine State.lcAnswer_kept (Mask.sub hm (by decide)) ?_
    | with_reducible refine State.tokenRefused_kept (Mask.sub hm (by decide)) ?_
    | with_reducible refine State.onSec_kept (Mask.sub hm (by decide)) ?_ (fun _ => rfl) (fun _ => Fuses.Rise.refl _)
    | with_reducible refine State.newNonce_kept (Mask.sub hm (by decide)) ?_
    | with_reducible refine State.setFld_kept (Mask.sub hm (by decide)) ?_
    | with_reducible refine Kept.ite ?_ ?_
    | (extract_lets -underBinder +onlyGivenNames x; subst x)
    | split
    | dsimp only

theorem State.restartWork_kept {m : Nat} {s0 s : State} {comp : Nat} (hm : 0x35fef &&& m = 0x35fef) (h : Kept m s0 s) :
     Kept m s0 (State.restartWork s comp) := by
  have hdef : @State.restartWork = @State.restartWork := rfl
  conv at hdef => rhs; delta State.restartWork
  rw [congrFun (congrFun hdef s) comp]; clear hdef
  repeat' first
    | with_reducible assumption
    | with_reducible refine State.restartSecurity_kept (Mask.sub hm (by decide)) ?_
    | with_reducible refine State.restartPaging_kept (Mask.sub hm (by decide)) ?_
    | with_reducible refine State.restartResilience_kept (Mask.sub hm (by decide)) ?_
    | with_reducible refine State.restartPlacer_kept (Mask.sub hm (by decide)) ?_
    | with_reducible refine State.restartLoads_kept (Mask.sub hm (by decide)) ?_
    | with_reducible refine State.restartScheduler_kept (Mask.sub hm (by decide)) ?_
    | with_reducible refine State.floorClocks_kept (Mask.sub hm (by decide)) ?_
    | with_reducible refine Kept.ite ?_ ?_
    | (extract_lets -underBinder +onlyGivenNames x; subst x)
    | split
    | dsimp only

theorem State.compFault_kept {m : Nat} {s0 s : State} {comp : Nat} {cause : Nat} (hm : 0x37fef &&& m = 0x37fef) (h : Kept m s0 s) :
     Kept m s0 (State.compFault s comp cause) := by
  have hdef : @State.compFault = @State.compFault := rfl
  conv at hdef => rhs; delta State.compFault
  rw [congrFun (congrFun (congrFun hdef s) comp) cause]; clear hdef
  repeat' first
    | with_reducible assumption
    | with_reducible refine State.restartWork_kept (Mask.sub hm (by decide)) ?_
    | with_reducible refine State.halt_kept (Mask.sub hm (by decide)) ?_
    | with_reducible refine State.raise_kept (Mask.sub hm (by decide)) ?_
    | with_reducible refine State.total_kept (Mask.sub hm (by decide)) ?_
    | with_reducible refine State.flagCount_kept (Mask.sub hm (by decide)) ?_
    | with_reducible refine State.onSec_kept (Mask.sub hm (by decide)) ?_ (fun _ => rfl) (fun _ => Fuses.Rise.refl _)
    | with_reducible refine Kept.ite ?_ ?_
    | (extract_lets -underBinder +onlyGivenNames x; subst x)
    | split
    | dsimp only

theorem execFwRestart_kept {m : Nat} {s0 s : State} {comp : Nat} {cause : Nat} {t : Nat} (hm : 0x3ffef &&& m = 0x3ffef) (h : Kept m s0 s) :
     OutKept m s0 (execFwRestart comp cause t s) := by
  have hdef : @execFwRestart = @execFwRestart := rfl
  conv at hdef => rhs; delta execFwRestart
  rw [congrFun (congrFun (congrFun (congrFun hdef comp) cause) t) s]; clear hdef
  repeat' first
    | with_reducible assumption
    | with_reducible refine State.compFault_kept (Mask.sub hm (by decide)) ?_
    | with_reducible refine State.at_kept (Mask.sub hm (by decide)) ?_
    | with_reducible refine OutKept.next ?_
    | with_reducible refine Kept.ite ?_ ?_
    | (extract_lets -underBinder +onlyGivenNames x; subst x)
    | split
    | dsimp only

theorem execCompartmentHeartbeatMiss_kept {m : Nat} {s0 s : State} {comp : Nat} {t : Nat} (hm : 0x3ffef &&& m = 0x3ffef) (h : Kept m s0 s) :
     OutKept m s0 (execCompartmentHeartbeatMiss comp t s) := by
  have hdef : @execCompartmentHeartbeatMiss = @execCompartmentHeartbeatMiss := rfl
  conv at hdef => rhs; delta execCompartmentHeartbeatMiss
  rw [congrFun (congrFun (congrFun hdef comp) t) s]; clear hdef
  repeat' first
    | with_reducible assumption
    | with_reducible refine State.compFault_kept (Mask.sub hm (by decide)) ?_
    | with_reducible refine State.at_kept (Mask.sub hm (by decide)) ?_
    | with_reducible refine OutKept.next ?_
    | with_reducible refine Kept.ite ?_ ?_
    | (extract_lets -underBinder +onlyGivenNames x; subst x)
    | split
    | dsimp only

theorem execFwHalted_kept {m : Nat} {s0 s : State} {comp : Nat} {cause : Nat} {t : Nat} (hm : 0xeaed &&& m = 0xeaed) (h : Kept m s0 s) :
     OutKept m s0 (execFwHalted comp cause t s) := by
  have hdef : @execFwHalted = @execFwHalted := rfl
  conv at hdef => rhs; delta execFwHalted
  rw [congrFun (congrFun (congrFun (congrFun hdef comp) cause) t) s]; clear hdef
  repeat' first
    | with_reducible assumption
    | with_reducible refine State.halt_kept (Mask.sub hm (by decide)) ?_
    | with_reducible refine State.at_kept (Mask.sub hm (by decide)) ?_
    | with_reducible refine OutKept.next ?_
    | with_reducible refine Kept.ite ?_ ?_
    | (extract_lets -underBinder +onlyGivenNames x; subst x)
    | split
    | dsimp only

theorem execFwMemoryUncorr_kept {m : Nat} {s0 s : State} {kind : Nat} {n : Nat} {t : Nat} (hm : 0x3ffef &&& m = 0x3ffef) (h : Kept m s0 s) :
     OutKept m s0 (execFwMemoryUncorr kind n t s) := by
  have hdef : @execFwMemoryUncorr = @execFwMemoryUncorr := rfl
  conv at hdef => rhs; delta execFwMemoryUncorr
  rw [congrFun (congrFun (congrFun (congrFun hdef kind) n) t) s]; clear hdef
  repeat' first
    | with_reducible assumption
    | with_reducible refine State.compFault_kept (Mask.sub hm (by decide)) ?_
    | with_reducible refine State.halt_kept (Mask.sub hm (by decide)) ?_
    | with_reducible refine State.at_kept (Mask.sub hm (by decide)) ?_
    | with_reducible refine State.pick_kept (Mask.sub hm (by decide)) ?_
    | with_reducible refine State.memUncorr_kept (Mask.sub hm (by decide)) ?_
    | with_reducible refine OutKept.next ?_
    | with_reducible refine Kept.ofPair (by assumption) ?_
    | with_reducible refine Kept.ite ?_ ?_
    | with_reducible refine Kept.iteSnd ?_ ?_
    | with_reducible refine Kept.iteFst ?_ ?_
    | (extract_lets -underBinder +onlyGivenNames x; subst x)
    | split
    | dsimp only

end Sys2Proof.Machine
end

