-- ==== Sys2Proof/Laws/KeptScaffold.lean ====
section
/-!
SUPPORT. What the operations of Sys2Proof/Machine/Scaffold.lean keep (Laws/Kept.lean).
-/
namespace Sys2Proof.Machine

theorem State.svcReply_kept {m : Nat} {s0 s : State} {bs : List Byte} (hm : 0x20000 &&& m = 0x20000) (h : Kept m s0 s) :
     Kept m s0 (State.svcReply s bs) := by
  have hdef : @State.svcReply = @State.svcReply := rfl
  conv at hdef => rhs; delta State.svcReply
  rw [congrFun (congrFun hdef s) bs]; clear hdef
  repeat' first
    | with_reducible assumption
    | with_reducible refine Kept.ite ?_ ?_
    | (extract_lets -underBinder +onlyGivenNames x; subst x)
    | split
    | with_reducible refine Kept.answer (Mask.sub hm (by decide)) ?_ _
    | dsimp only

theorem execIdentityRead_kept {m : Nat} {s0 s : State} (hm : 0x20000 &&& m = 0x20000) (h : Kept m s0 s) :
     OutKept m s0 (execIdentityRead s) := by
  have hdef : @execIdentityRead = @execIdentityRead := rfl
  conv at hdef => rhs; delta execIdentityRead
  rw [congrFun hdef s]; clear hdef
  repeat' first
    | with_reducible assumption
    | with_reducible refine State.svcReply_kept (Mask.sub hm (by decide)) ?_
    | with_reducible refine OutKept.next ?_
    | with_reducible refine Kept.ite ?_ ?_
    | (extract_lets -underBinder +onlyGivenNames x; subst x)
    | split
    | dsimp only

theorem execTelemetry_kept {m : Nat} {s0 s : State} (hm : 0x30000 &&& m = 0x30000) (h : Kept m s0 s) :
     OutKept m s0 (execTelemetry s) := by
  have hdef : @execTelemetry = @execTelemetry := rfl
  conv at hdef => rhs; delta execTelemetry
  rw [congrFun hdef s]; clear hdef
  repeat' first
    | with_reducible assumption
    | with_reducible refine State.svcReply_kept (Mask.sub hm (by decide)) ?_
    | with_reducible refine State.pick_kept (Mask.sub hm (by decide)) ?_
    | with_reducible refine OutKept.next ?_
    | with_reducible refine Kept.ofPair (by assumption) ?_
    | with_reducible refine Kept.ite ?_ ?_
    | with_reducible refine Kept.iteSnd ?_ ?_
    | with_reducible refine Kept.iteFst ?_ ?_
    | (extract_lets -underBinder +onlyGivenNames x; subst x)
    | split
    | dsimp only

theorem State.svcCapGo_kept {m : Nat} {s0 s : State} (hm : 0x829 &&& m = 0x829) (h : Kept m s0 s) :
     Kept m s0 (State.svcCapGo s) := by
  have hdef : @State.svcCapGo = @State.svcCapGo := rfl
  conv at hdef => rhs; delta State.svcCapGo
  rw [congrFun hdef s]; clear hdef
  repeat' first
    | with_reducible assumption
    | with_reducible refine State.capStatus_kept (Mask.sub hm (by decide)) ?_
    | with_reducible refine Kept.ite ?_ ?_
    | (extract_lets -underBinder +onlyGivenNames x; subst x)
    | split
    | dsimp only

theorem execPowerCap_kept {m : Nat} {s0 s : State} {w : Nat} (hm : 0x21829 &&& m = 0x21829) (h : Kept m s0 s) :
     OutKept m s0 (execPowerCap w s) := by
  have hdef : @execPowerCap = @execPowerCap := rfl
  conv at hdef => rhs; delta execPowerCap
  rw [congrFun (congrFun hdef w) s]; clear hdef
  repeat' first
    | with_reducible assumption
    | with_reducible refine State.svcCapGo_kept (Mask.sub hm (by decide)) ?_
    | with_reducible refine State.svcReply_kept (Mask.sub hm (by decide)) ?_
    | with_reducible refine State.modSvc_kept (Mask.sub hm (by decide)) ?_
    | with_reducible refine OutKept.next ?_
    | with_reducible refine Kept.ite ?_ ?_
    | (extract_lets -underBinder +onlyGivenNames x; subst x)
    | split
    | dsimp only

theorem execReset_kept {m : Nat} {s0 s : State} {kind : Nat} (hm : 0x7dfff &&& m = 0x7dfff) (h : Kept m s0 s) :
     OutKept m s0 (execReset kind s) := by
  have hdef : @execReset = @execReset := rfl
  conv at hdef => rhs; delta execReset
  rw [congrFun (congrFun hdef kind) s]; clear hdef
  repeat' first
    | with_reducible assumption
    | with_reducible refine State.svcReply_kept (Mask.sub hm (by decide)) ?_
    | with_reducible refine State.serviceReset_kept (Mask.sub hm (by decide)) ?_
    | with_reducible refine State.modSvc_kept (Mask.sub hm (by decide)) ?_
    | with_reducible refine OutKept.next ?_
    | with_reducible refine Kept.ite ?_ ?_
    | (extract_lets -underBinder +onlyGivenNames x; subst x)
    | split
    | dsimp only

theorem execLifecycle_kept {m : Nat} {s0 s : State} {token : List Byte} (hm : 0x34829 &&& m = 0x34829) (h : Kept m s0 s) :
     OutKept m s0 (execLifecycle token s) := by
  have hdef : @execLifecycle = @execLifecycle := rfl
  conv at hdef => rhs; delta execLifecycle
  rw [congrFun (congrFun hdef token) s]; clear hdef
  repeat' first
    | with_reducible assumption
    | with_reducible refine State.svcReply_kept (Mask.sub hm (by decide)) ?_
    | with_reducible refine State.lcRequest_kept (Mask.sub hm (by decide)) ?_
    | with_reducible refine OutKept.next ?_
    | with_reducible refine Kept.ite ?_ ?_
    | (extract_lets -underBinder +onlyGivenNames x; subst x)
    | split
    | dsimp only

theorem execLogPull_kept {m : Nat} {s0 s : State} {n : Nat} (hm : 0x20000 &&& m = 0x20000) (h : Kept m s0 s) :
     OutKept m s0 (execLogPull n s) := by
  have hdef : @execLogPull = @execLogPull := rfl
  conv at hdef => rhs; delta execLogPull
  rw [congrFun (congrFun hdef n) s]; clear hdef
  repeat' first
    | with_reducible assumption
    | with_reducible refine State.svcReply_kept (Mask.sub hm (by decide)) ?_
    | with_reducible refine OutKept.next ?_
    | with_reducible refine Kept.ite ?_ ?_
    | (extract_lets -underBinder +onlyGivenNames x; subst x)
    | split
    | dsimp only

theorem execPower_kept {m : Nat} {s0 s : State} {on : Bool} (hm : 0x5dfff &&& m = 0x5dfff) (h : Kept m s0 s) :
     OutKept m s0 (execPower on s) := by
  have hdef : @execPower = @execPower := rfl
  conv at hdef => rhs; delta execPower
  rw [congrFun (congrFun hdef on) s]; clear hdef
  repeat' first
    | with_reducible assumption
    | with_reducible refine State.powerOn_kept (Mask.sub hm (by decide)) ?_
    | with_reducible refine State.switchOff_kept (Mask.sub hm (by decide)) ?_
    | with_reducible refine OutKept.next ?_
    | with_reducible refine Kept.ite ?_ ?_
    | (extract_lets -underBinder +onlyGivenNames x; subst x)
    | split
    | dsimp only

theorem execCoolantSet_kept {m : Nat} {s0 s : State} {warn : Nat} {off : Nat} (hm : 0x1000 &&& m = 0x1000) (h : Kept m s0 s) :
     OutKept m s0 (execCoolantSet warn off s) := by
  have hdef : @execCoolantSet = @execCoolantSet := rfl
  conv at hdef => rhs; delta execCoolantSet
  rw [congrFun (congrFun (congrFun hdef warn) off) s]; clear hdef
  repeat' first
    | with_reducible assumption
    | with_reducible refine State.modSvc_kept (Mask.sub hm (by decide)) ?_
    | with_reducible refine OutKept.next ?_
    | with_reducible refine Kept.ite ?_ ?_
    | (extract_lets -underBinder +onlyGivenNames x; subst x)
    | split
    | dsimp only

theorem State.svcLog_kept {m : Nat} {s0 s : State} {reason : Nat} (hm : 0x1000 &&& m = 0x1000) (h : Kept m s0 s) :
     Kept m s0 (State.svcLog s reason) := by
  have hdef : @State.svcLog = @State.svcLog := rfl
  conv at hdef => rhs; delta State.svcLog
  rw [congrFun (congrFun hdef s) reason]; clear hdef
  repeat' first
    | with_reducible assumption
    | with_reducible refine State.modSvc_kept (Mask.sub hm (by decide)) ?_
    | with_reducible refine Kept.ite ?_ ?_
    | (extract_lets -underBinder +onlyGivenNames x; subst x)
    | split
    | dsimp only

theorem execCoolantWarning_kept {m : Nat} {s0 s : State} {deg : Nat} {thermistorOk : Bool} (hm : 0x1829 &&& m = 0x1829) (h : Kept m s0 s) :
     OutKept m s0 (execCoolantWarning deg thermistorOk s) := by
  have hdef : @execCoolantWarning = @execCoolantWarning := rfl
  conv at hdef => rhs; delta execCoolantWarning
  rw [congrFun (congrFun (congrFun hdef deg) thermistorOk) s]; clear hdef
  repeat' first
    | with_reducible assumption
    | with_reducible refine State.svcLog_kept (Mask.sub hm (by decide)) ?_
    | with_reducible refine State.svcCapGo_kept (Mask.sub hm (by decide)) ?_
    | with_reducible refine State.modSvc_kept (Mask.sub hm (by decide)) ?_
    | with_reducible refine OutKept.next ?_
    | with_reducible refine Kept.ite ?_ ?_
    | (extract_lets -underBinder +onlyGivenNames x; subst x)
    | split
    | dsimp only

theorem execCoolantWarningClear_kept {m : Nat} {s0 s : State} {deg : Nat} (hm : 0x1829 &&& m = 0x1829) (h : Kept m s0 s) :
     OutKept m s0 (execCoolantWarningClear deg s) := by
  have hdef : @execCoolantWarningClear = @execCoolantWarningClear := rfl
  conv at hdef => rhs; delta execCoolantWarningClear
  rw [congrFun (congrFun hdef deg) s]; clear hdef
  repeat' first
    | with_reducible assumption
    | with_reducible refine State.svcCapGo_kept (Mask.sub hm (by decide)) ?_
    | with_reducible refine State.modSvc_kept (Mask.sub hm (by decide)) ?_
    | with_reducible refine OutKept.next ?_
    | with_reducible refine Kept.ite ?_ ?_
    | (extract_lets -underBinder +onlyGivenNames x; subst x)
    | split
    | dsimp only

theorem execCoolantOff_kept {m : Nat} {s0 s : State} {deg : Nat} {t : Nat} (hm : 0x4dffe &&& m = 0x4dffe) (h : Kept m s0 s) :
     OutKept m s0 (execCoolantOff deg t s) := by
  have hdef : @execCoolantOff = @execCoolantOff := rfl
  conv at hdef => rhs; delta execCoolantOff
  rw [congrFun (congrFun (congrFun hdef deg) t) s]; clear hdef
  repeat' first
    | with_reducible assumption
    | with_reducible refine State.svcLog_kept (Mask.sub hm (by decide)) ?_
    | with_reducible refine State.at_kept (Mask.sub hm (by decide)) ?_
    | with_reducible refine State.switchOff_kept (Mask.sub hm (by decide)) ?_
    | with_reducible refine OutKept.next ?_
    | with_reducible refine Kept.ite ?_ ?_
    | (extract_lets -underBinder +onlyGivenNames x; subst x)
    | split
    | dsimp only

theorem execLeakDetected_kept {m : Nat} {s0 s : State} {t : Nat} (hm : 0x4dffe &&& m = 0x4dffe) (h : Kept m s0 s) :
     OutKept m s0 (execLeakDetected t s) := by
  have hdef : @execLeakDetected = @execLeakDetected := rfl
  conv at hdef => rhs; delta execLeakDetected
  rw [congrFun (congrFun hdef t) s]; clear hdef
  repeat' first
    | with_reducible assumption
    | with_reducible refine State.svcLog_kept (Mask.sub hm (by decide)) ?_
    | with_reducible refine State.at_kept (Mask.sub hm (by decide)) ?_
    | with_reducible refine State.switchOff_kept (Mask.sub hm (by decide)) ?_
    | with_reducible refine State.modSvc_kept (Mask.sub hm (by decide)) ?_
    | with_reducible refine OutKept.next ?_
    | with_reducible refine Kept.ite ?_ ?_
    | (extract_lets -underBinder +onlyGivenNames x; subst x)
    | split
    | dsimp only

theorem execSvcRstN_kept {m : Nat} {s0 s : State} (hm : 0x1829 &&& m = 0x1829) (h : Kept m s0 s) :
     OutKept m s0 (execSvcRstN s) := by
  have hdef : @execSvcRstN = @execSvcRstN := rfl
  conv at hdef => rhs; delta execSvcRstN
  rw [congrFun hdef s]; clear hdef
  repeat' first
    | with_reducible assumption
    | with_reducible refine State.svcCapGo_kept (Mask.sub hm (by decide)) ?_
    | with_reducible refine State.modSvc_kept (Mask.sub hm (by decide)) ?_
    | with_reducible refine OutKept.next ?_
    | with_reducible refine Kept.ite ?_ ?_
    | (extract_lets -underBinder +onlyGivenNames x; subst x)
    | split
    | dsimp only

end Sys2Proof.Machine
end

