-- ==== Sys2Proof/Laws/KeptRegisters.lean ====
section
/-!
SUPPORT. What the operations of Sys2Proof/Machine/Registers.lean keep (Laws/Kept.lean).
-/
namespace Sys2Proof.Machine

theorem State.openValue_kept {m : Nat} {s0 s : State} {f : Nat} {off : Nat} {v : Nat} (hm : 0x10000 &&& m = 0x10000) (h : Kept m s0 s) :
     Kept m s0 (State.openValue s f off v).2 := by
  have hdef : @State.openValue = @State.openValue := rfl
  conv at hdef => rhs; delta State.openValue
  rw [congrFun (congrFun (congrFun (congrFun hdef s) f) off) v]; clear hdef
  repeat' first
    | with_reducible assumption
    | with_reducible refine State.pick_kept (Mask.sub hm (by decide)) ?_
    | with_reducible refine Kept.ofPair (by assumption) ?_
    | with_reducible refine Kept.ite ?_ ?_
    | with_reducible refine Kept.iteSnd ?_ ?_
    | with_reducible refine Kept.iteFst ?_ ?_
    | (extract_lets -underBinder +onlyGivenNames x; subst x)
    | split
    | dsimp only

theorem State.readReg_kept {m : Nat} {s0 s : State} {f : Nat} {r : RegAt} (hm : 0x10028 &&& m = 0x10028) (h : Kept m s0 s) :
     Kept m s0 (State.readReg s f r).2 := by
  have hdef : @State.readReg = @State.readReg := rfl
  conv at hdef => rhs; delta State.readReg
  rw [congrFun (congrFun (congrFun hdef s) f) r]; clear hdef
  repeat' first
    | with_reducible assumption
    | with_reducible refine State.openValue_kept (Mask.sub hm (by decide)) ?_
    | with_reducible refine State.modFn_kept (Mask.sub hm (by decide)) ?_
    | with_reducible refine State.setReg_kept (Mask.sub hm (by decide)) ?_
    | with_reducible refine Kept.ofPair (by assumption) ?_
    | with_reducible refine Kept.ite ?_ ?_
    | with_reducible refine Kept.iteSnd ?_ ?_
    | with_reducible refine Kept.iteFst ?_ ?_
    | (extract_lets -underBinder +onlyGivenNames x; subst x)
    | split
    | dsimp only

theorem State.readWord_kept {m : Nat} {s0 s : State} {f : Nat} {off : Nat} (hm : 0x10028 &&& m = 0x10028) (h : Kept m s0 s) :
     Kept m s0 (State.readWord s f off).2 := by
  have hdef : @State.readWord = @State.readWord := rfl
  conv at hdef => rhs; delta State.readWord
  rw [congrFun (congrFun (congrFun hdef s) f) off]; clear hdef
  repeat' first
    | with_reducible assumption
    | with_reducible refine State.readReg_kept (Mask.sub hm (by decide)) ?_
    | with_reducible refine Kept.ofPair (by assumption) ?_
    | with_reducible refine Kept.ite ?_ ?_
    | with_reducible refine Kept.iteSnd ?_ ?_
    | with_reducible refine Kept.iteFst ?_ ?_
    | (extract_lets -underBinder +onlyGivenNames x; subst x)
    | split
    | dsimp only

theorem State.bar0Read_kept {m : Nat} {s0 s : State} {f : Nat} {off : Nat} {size : Nat} (hm : 0x30028 &&& m = 0x30028) (h : Kept m s0 s) :
     Kept m s0 (State.bar0Read s f off size) := by
  have hdef : @State.bar0Read = @State.bar0Read := rfl
  conv at hdef => rhs; delta State.bar0Read
  rw [congrFun (congrFun (congrFun (congrFun hdef s) f) off) size]; clear hdef
  repeat' first
    | with_reducible assumption
    | with_reducible refine State.readWord_kept (Mask.sub hm (by decide)) ?_
    | with_reducible refine State.badAccess_kept (Mask.sub hm (by decide)) ?_
    | with_reducible refine Kept.ofPair (by assumption) ?_
    | with_reducible refine Kept.ite ?_ ?_
    | with_reducible refine Kept.iteSnd ?_ ?_
    | with_reducible refine Kept.iteFst ?_ ?_
    | (extract_lets -underBinder +onlyGivenNames x; subst x)
    | split
    | with_reducible refine Kept.answer (Mask.sub hm (by decide)) ?_ _
    | dsimp only

theorem execRcRead_kept {m : Nat} {s0 s : State} {f : FnId} {off : Nat} {size : Nat} (hm : 0x30028 &&& m = 0x30028) (h : Kept m s0 s) :
     OutKept m s0 (execRcRead f off size s) := by
  have hdef : @execRcRead = @execRcRead := rfl
  conv at hdef => rhs; delta execRcRead
  rw [congrFun (congrFun (congrFun (congrFun hdef f) off) size) s]; clear hdef
  repeat' first
    | with_reducible assumption
    | with_reducible refine State.bar0Read_kept (Mask.sub hm (by decide)) ?_
    | with_reducible refine OutKept.next ?_
    | with_reducible refine Kept.ite ?_ ?_
    | (extract_lets -underBinder +onlyGivenNames x; subst x)
    | split
    | dsimp only

theorem execLoReadLatch_kept {m : Nat} {s0 s : State} {f : FnId} {off : Nat} {size : Nat} (hm : 0x30028 &&& m = 0x30028) (h : Kept m s0 s) :
     OutKept m s0 (execLoReadLatch f off size s) := by
  have hdef : @execLoReadLatch = @execLoReadLatch := rfl
  conv at hdef => rhs; delta execLoReadLatch
  rw [congrFun (congrFun (congrFun (congrFun hdef f) off) size) s]; clear hdef
  repeat' first
    | with_reducible assumption
    | with_reducible refine State.bar0Read_kept (Mask.sub hm (by decide)) ?_
    | with_reducible refine OutKept.next ?_
    | with_reducible refine Kept.ite ?_ ?_
    | (extract_lets -underBinder +onlyGivenNames x; subst x)
    | split
    | dsimp only

theorem State.dstCtlWrite_kept {m : Nat} {s0 s : State} {c : Nat} {v : Nat} (hm : 0x86f &&& m = 0x86f) (h : Kept m s0 s) :
     Kept m s0 (State.dstCtlWrite s c v) := by
  have hdef : @State.dstCtlWrite = @State.dstCtlWrite := rfl
  conv at hdef => rhs; delta State.dstCtlWrite
  rw [congrFun (congrFun (congrFun hdef s) c) v]; clear hdef
  repeat' first
    | with_reducible assumption
    | with_reducible refine State.softReg_kept (Mask.sub hm (by decide)) ?_
    | with_reducible refine State.allocFrames_kept (Mask.sub hm (by decide)) ?_
    | with_reducible refine State.modDust_kept (Mask.sub hm (by decide)) ?_
    | with_reducible refine State.setFld_kept (Mask.sub hm (by decide)) ?_
    | with_reducible refine State.freeFrames_kept (Mask.sub hm (by decide)) ?_
    | with_reducible refine Kept.ofSomePair (by assumption) ?_
    | with_reducible refine Kept.ofSomeSnd (by assumption) ?_
    | with_reducible refine Kept.ite ?_ ?_
    | with_reducible refine Kept.iteSnd ?_ ?_
    | with_reducible refine Kept.iteFst ?_ ?_
    | (extract_lets -underBinder +onlyGivenNames x; subst x)
    | split
    | dsimp only

theorem State.logCtlWrite_kept {m : Nat} {s0 s : State} {p : Nat} {v : Nat} (hm : 0x4829 &&& m = 0x4829) (h : Kept m s0 s) :
     Kept m s0 (State.logCtlWrite s p v) := by
  have hdef : @State.logCtlWrite = @State.logCtlWrite := rfl
  conv at hdef => rhs; delta State.logCtlWrite
  rw [congrFun (congrFun (congrFun hdef s) p) v]; clear hdef
  repeat' first
    | with_reducible assumption
    | with_reducible refine State.setFld_kept (Mask.sub hm (by decide)) ?_
    | with_reducible refine State.softReg_kept (Mask.sub hm (by decide)) ?_
    | with_reducible refine State.logReturned_kept (Mask.sub hm (by decide)) ?_
    | with_reducible refine Kept.ite ?_ ?_
    | (extract_lets -underBinder +onlyGivenNames x; subst x)
    | split
    | dsimp only

theorem State.fnPrioWrite_kept {m : Nat} {s0 s : State} {g : Nat} {v : Nat} (hm : 0x8 &&& m = 0x8) (h : Kept m s0 s) :
     Kept m s0 (State.fnPrioWrite s g v) := by
  have hdef : @State.fnPrioWrite = @State.fnPrioWrite := rfl
  conv at hdef => rhs; delta State.fnPrioWrite
  rw [congrFun (congrFun (congrFun hdef s) g) v]; clear hdef
  repeat' first
    | with_reducible assumption
    | with_reducible refine State.setFld_kept (Mask.sub hm (by decide)) ?_
    | with_reducible refine State.softReg_kept (Mask.sub hm (by decide)) ?_
    | with_reducible refine Kept.foldl (fun _ _ _ => ?_) _ ?_
    | with_reducible refine Kept.ite ?_ ?_
    | (extract_lets -underBinder +onlyGivenNames x; subst x)
    | split
    | dsimp only

theorem State.putReg_kept {m : Nat} {s0 s : State} {f : Nat} {r : RegAt} {v : Nat} (hm : 0x4b6f &&& m = 0x4b6f) (h : Kept m s0 s) :
     Kept m s0 (State.putReg s f r v) := by
  have hdef : @State.putReg = @State.putReg := rfl
  conv at hdef => rhs; delta State.putReg
  rw [congrFun (congrFun (congrFun (congrFun hdef s) f) r) v]; clear hdef
  repeat' first
    | with_reducible assumption
    | with_reducible refine State.fnPrioWrite_kept (Mask.sub hm (by decide)) ?_
    | with_reducible refine State.logCtlWrite_kept (Mask.sub hm (by decide)) ?_
    | with_reducible refine State.dstCtlWrite_kept (Mask.sub hm (by decide)) ?_
    | with_reducible refine State.putSem_kept (Mask.sub hm (by decide)) ?_
    | with_reducible refine State.modLport_kept (Mask.sub hm (by decide)) ?_
    | with_reducible refine State.setFld_kept (Mask.sub hm (by decide)) ?_
    | with_reducible refine State.softReg_kept (Mask.sub hm (by decide)) ?_
    | with_reducible refine State.unmask_kept (Mask.sub hm (by decide)) ?_
    | with_reducible refine Kept.ite ?_ ?_
    | (extract_lets -underBinder +onlyGivenNames x; subst x)
    | split
    | with_reducible refine Kept.links (Mask.sub hm (by decide)) ?_ _
    | dsimp only

theorem nextOr_kept {m : Nat} {s0 s : State} {o : Out} (h : OutKept m s0 o) : Kept m s0 (nextOr o s) := by
  obtain ⟨t, rfl, k⟩ := h
  exact k

theorem State.ctxCtlWrite_kept {m : Nat} {s0 s : State} {f : FnId} {c : Nat} {v : Nat} (hm : 0xfef &&& m = 0xfef) (h : Kept m s0 s) :
     Kept m s0 (State.ctxCtlWrite s f c v) := by
  have hdef : @State.ctxCtlWrite = @State.ctxCtlWrite := rfl
  conv at hdef => rhs; delta State.ctxCtlWrite
  rw [congrFun (congrFun (congrFun (congrFun hdef s) f) c) v]; clear hdef
  repeat' first
    | with_reducible assumption
    | with_reducible refine nextOr_kept ?_
    | with_reducible refine execCreatePf_kept (Mask.sub hm (by decide)) ?_
    | with_reducible refine execDestroy_kept (Mask.sub hm (by decide)) ?_
    | with_reducible refine Kept.ite ?_ ?_
    | (extract_lets -underBinder +onlyGivenNames x; subst x)
    | split
    | dsimp only

theorem State.rowWrite_kept {m : Nat} {s0 s : State} {f : FnId} {r : RegAt} {v : Nat} (hm : 0x37fef &&& m = 0x37fef) (h : Kept m s0 s) :
     AllO (Kept m s0) (State.rowWrite s f r v) := by
  have hdef : @State.rowWrite = @State.rowWrite := rfl
  conv at hdef => rhs; delta State.rowWrite
  rw [congrFun (congrFun (congrFun (congrFun hdef s) f) r) v]; clear hdef
  repeat' first
    | with_reducible assumption
    | with_reducible refine State.ctxCtlWrite_kept (Mask.sub hm (by decide)) ?_
    | with_reducible refine nextOr_kept ?_
    | with_reducible refine execRingCtlWrite_kept (Mask.sub hm (by decide)) ?_
    | with_reducible refine execEvtCtlWrite_kept (Mask.sub hm (by decide)) ?_
    | with_reducible refine execEvtHeadWrite_kept (Mask.sub hm (by decide)) ?_
    | with_reducible refine execSecLogHeadWrite_kept (Mask.sub hm (by decide)) ?_
    | with_reducible refine execSecDiagGo_kept (Mask.sub hm (by decide)) ?_
    | with_reducible refine execLnkPortCtlWrite_kept (Mask.sub hm (by decide)) ?_
    | with_reducible refine execHubAdminWrite_kept (Mask.sub hm (by decide)) ?_
    | with_reducible refine execHubSyncGo_kept (Mask.sub hm (by decide)) ?_
    | with_reducible refine execPwrCtlModeWrite_kept (Mask.sub hm (by decide)) ?_
    | with_reducible refine execPwrCapWrite_kept (Mask.sub hm (by decide)) ?_
    | with_reducible refine execSecLcReqGo_kept (Mask.sub hm (by decide)) ?_
    | with_reducible refine execSecUpdGo_kept (Mask.sub hm (by decide)) ?_
    | with_reducible refine execSecUpdCommit_kept (Mask.sub hm (by decide)) ?_
    | with_reducible refine execLnkPartIdWrite_kept (Mask.sub hm (by decide)) ?_
    | with_reducible exact AllO.none_
    | with_reducible refine AllO.some_ ?_
    | with_reducible refine Kept.ite ?_ ?_
    | (extract_lets -underBinder +onlyGivenNames x; subst x)
    | split
    | dsimp only

theorem State.writeWord_kept {m : Nat} {s0 s : State} {f : FnId} {off : Nat} {v : Nat} (hm : 0x37fef &&& m = 0x37fef) (h : Kept m s0 s) :
     Kept m s0 (State.writeWord s f off v) := by
  have hdef : @State.writeWord = @State.writeWord := rfl
  conv at hdef => rhs; delta State.writeWord
  rw [congrFun (congrFun (congrFun (congrFun hdef s) f) off) v]; clear hdef
  repeat' first
    | with_reducible assumption
    | with_reducible refine State.rowWrite_kept (Mask.sub hm (by decide)) ?_
    | with_reducible refine nextOr_kept ?_
    | with_reducible refine State.putReg_kept (Mask.sub hm (by decide)) ?_
    | with_reducible refine execCreateVf_kept (Mask.sub hm (by decide)) ?_
    | with_reducible refine State.denied_kept (Mask.sub hm (by decide)) ?_
    | with_reducible refine Kept.ofSome (by assumption) ?_
    | with_reducible refine Kept.ite ?_ ?_
    | (extract_lets -underBinder +onlyGivenNames x; subst x)
    | split
    | dsimp only

theorem execBar0RegisterWrite_kept {m : Nat} {s0 s : State} {f : FnId} {off : Nat} {size : Nat} {v : Nat} (hm : 0x37fef &&& m = 0x37fef) (h : Kept m s0 s) :
     OutKept m s0 (execBar0RegisterWrite f off size v s) := by
  have hdef : @execBar0RegisterWrite = @execBar0RegisterWrite := rfl
  conv at hdef => rhs; delta execBar0RegisterWrite
  rw [congrFun (congrFun (congrFun (congrFun (congrFun hdef f) off) size) v) s]; clear hdef
  repeat' first
    | with_reducible assumption
    | with_reducible refine State.writeWord_kept (Mask.sub hm (by decide)) ?_
    | with_reducible refine State.badAccess_kept (Mask.sub hm (by decide)) ?_
    | with_reducible refine OutKept.next ?_
    | with_reducible refine Kept.ite ?_ ?_
    | (extract_lets -underBinder +onlyGivenNames x; subst x)
    | split
    | dsimp only

theorem State.bar4Refuse_kept {m : Nat} {s0 s : State} {p : Nat} {n : Nat} {write : Bool} (hm : 0x20008 &&& m = 0x20008) (h : Kept m s0 s) :
     Kept m s0 (State.bar4Refuse s p n write) := by
  have hdef : @State.bar4Refuse = @State.bar4Refuse := rfl
  conv at hdef => rhs; delta State.bar4Refuse
  rw [congrFun (congrFun (congrFun (congrFun hdef s) p) n) write]; clear hdef
  repeat' first
    | with_reducible assumption
    | with_reducible refine State.flagCount_kept (Mask.sub hm (by decide)) ?_
    | with_reducible refine Kept.ite ?_ ?_
    | (extract_lets -underBinder +onlyGivenNames x; subst x)
    | split
    | with_reducible refine Kept.answer (Mask.sub hm (by decide)) ?_ _
    | dsimp only

theorem execBar4Access_kept {m : Nat} {s0 s : State} {p : PortId} {write : Bool} {off : Nat} {len : Nat} {data : List Byte} (hm : 0x200ce &&& m = 0x200ce) (h : Kept m s0 s) :
     OutKept m s0 (execBar4Access p write off len data s) := by
  have hdef : @execBar4Access = @execBar4Access := rfl
  conv at hdef => rhs; delta execBar4Access
  rw [congrFun (congrFun (congrFun (congrFun (congrFun (congrFun hdef p) write) off) len) data) s]; clear hdef
  repeat' first
    | with_reducible assumption
    | with_reducible refine State.bar4Refuse_kept (Mask.sub hm (by decide)) ?_
    | with_reducible refine State.vwrite_kept (Mask.sub hm (by decide)) ?_
    | with_reducible refine State.vread_kept (Mask.sub hm (by decide)) ?_
    | with_reducible refine OutKept.next ?_
    | with_reducible refine VmRes.All.use0 (by assumption) ?_
    | with_reducible refine VmRes.All.use1 (by assumption) ?_
    | with_reducible refine Kept.ite ?_ ?_
    | with_reducible refine Kept.iteSnd ?_ ?_
    | with_reducible refine Kept.iteFst ?_ ?_
    | (extract_lets -underBinder +onlyGivenNames x; subst x)
    | split
    | with_reducible refine Kept.answer (Mask.sub hm (by decide)) ?_ _
    | dsimp only

end Sys2Proof.Machine
end

