-- ==== Sys2Proof/Laws/State.lean ====
section
/-!
SUPPORT. What each update of a state leaves alone, one lemma for each field and each update, and what it leaves in the field it changes.
-/
namespace Sys2Proof.Machine

variable (s : State)

/-! ## State.putCtx -/

@[simp] theorem State.putCtx_pending (c : Nat) (x : Ctx) : (s.putCtx c x).pending = s.pending := (rfl)
@[simp] theorem State.putCtx_now (c : Nat) (x : Ctx) : (s.putCtx c x).now = s.now := (rfl)
@[simp] theorem State.putCtx_free (c : Nat) (x : Ctx) : (s.putCtx c x).free = s.free := (rfl)
@[simp] theorem State.putCtx_answer (c : Nat) (x : Ctx) : (s.putCtx c x).answer = s.answer := (rfl)
@[simp] theorem State.putCtx_regs (c : Nat) (x : Ctx) : (s.putCtx c x).regs = s.regs := (rfl)
@[simp] theorem State.putCtx_host (c : Nat) (x : Ctx) : (s.putCtx c x).host = s.host := (rfl)
@[simp] theorem State.putCtx_ports (c : Nat) (x : Ctx) : (s.putCtx c x).ports = s.ports := (rfl)
@[simp] theorem State.putCtx_fns (c : Nat) (x : Ctx) : (s.putCtx c x).fns = s.fns := (rfl)
@[simp] theorem State.putCtx_aus (c : Nat) (x : Ctx) : (s.putCtx c x).aus = s.aus := (rfl)
@[simp] theorem State.putCtx_mem (c : Nat) (x : Ctx) : (s.putCtx c x).mem = s.mem := (rfl)
@[simp] theorem State.putCtx_links (c : Nat) (x : Ctx) : (s.putCtx c x).links = s.links := (rfl)
@[simp] theorem State.putCtx_sems (c : Nat) (x : Ctx) : (s.putCtx c x).sems = s.sems := (rfl)
@[simp] theorem State.putCtx_solver (c : Nat) (x : Ctx) : (s.putCtx c x).solver = s.solver := (rfl)
@[simp] theorem State.putCtx_totals (c : Nat) (x : Ctx) : (s.putCtx c x).totals = s.totals := (rfl)
@[simp] theorem State.putCtx_power (c : Nat) (x : Ctx) : (s.putCtx c x).power = s.power := (rfl)
@[simp] theorem State.putCtx_sec (c : Nat) (x : Ctx) : (s.putCtx c x).sec = s.sec := (rfl)
@[simp] theorem State.reg_putCtx (c : Nat) (x : Ctx) (k' : Nat) : (s.putCtx c x).reg k' = s.reg k' := (rfl)
@[simp] theorem State.fld_putCtx (c : Nat) (x : Ctx) (k' h' l' : Nat) : (s.putCtx c x).fld k' h' l' = s.fld k' h' l' := (rfl)
@[simp] theorem State.au_putCtx (c : Nat) (x : Ctx) (n' : Nat) : (s.putCtx c x).au n' = s.au n' := (rfl)
@[simp] theorem State.fn_putCtx (c : Nat) (x : Ctx) (f' : Nat) : (s.putCtx c x).fn f' = s.fn f' := (rfl)
@[simp] theorem State.port_putCtx (c : Nat) (x : Ctx) (p' : Nat) : (s.putCtx c x).port p' = s.port p' := (rfl)
@[simp] theorem State.sem_putCtx (c : Nat) (x : Ctx) (n' : Nat) : (s.putCtx c x).sem n' = s.sem n' := (rfl)

/-! ## State.modCtx -/

@[simp] theorem State.modCtx_pending (c : Nat) (f : Ctx → Ctx) : (s.modCtx c f).pending = s.pending := (rfl)
@[simp] theorem State.modCtx_now (c : Nat) (f : Ctx → Ctx) : (s.modCtx c f).now = s.now := (rfl)
@[simp] theorem State.modCtx_free (c : Nat) (f : Ctx → Ctx) : (s.modCtx c f).free = s.free := (rfl)
@[simp] theorem State.modCtx_answer (c : Nat) (f : Ctx → Ctx) : (s.modCtx c f).answer = s.answer := (rfl)
@[simp] theorem State.modCtx_regs (c : Nat) (f : Ctx → Ctx) : (s.modCtx c f).regs = s.regs := (rfl)
@[simp] theorem State.modCtx_host (c : Nat) (f : Ctx → Ctx) : (s.modCtx c f).host = s.host := (rfl)
@[simp] theorem State.modCtx_ports (c : Nat) (f : Ctx → Ctx) : (s.modCtx c f).ports = s.ports := (rfl)
@[simp] theorem State.modCtx_fns (c : Nat) (f : Ctx → Ctx) : (s.modCtx c f).fns = s.fns := (rfl)
@[simp] theorem State.modCtx_aus (c : Nat) (f : Ctx → Ctx) : (s.modCtx c f).aus = s.aus := (rfl)
@[simp] theorem State.modCtx_mem (c : Nat) (f : Ctx → Ctx) : (s.modCtx c f).mem = s.mem := (rfl)
@[simp] theorem State.modCtx_links (c : Nat) (f : Ctx → Ctx) : (s.modCtx c f).links = s.links := (rfl)
@[simp] theorem State.modCtx_sems (c : Nat) (f : Ctx → Ctx) : (s.modCtx c f).sems = s.sems := (rfl)
@[simp] theorem State.modCtx_solver (c : Nat) (f : Ctx → Ctx) : (s.modCtx c f).solver = s.solver := (rfl)
@[simp] theorem State.modCtx_totals (c : Nat) (f : Ctx → Ctx) : (s.modCtx c f).totals = s.totals := (rfl)
@[simp] theorem State.modCtx_power (c : Nat) (f : Ctx → Ctx) : (s.modCtx c f).power = s.power := (rfl)
@[simp] theorem State.modCtx_sec (c : Nat) (f : Ctx → Ctx) : (s.modCtx c f).sec = s.sec := (rfl)
@[simp] theorem State.reg_modCtx (c : Nat) (f : Ctx → Ctx) (k' : Nat) : (s.modCtx c f).reg k' = s.reg k' := (rfl)
@[simp] theorem State.fld_modCtx (c : Nat) (f : Ctx → Ctx) (k' h' l' : Nat) : (s.modCtx c f).fld k' h' l' = s.fld k' h' l' := (rfl)
@[simp] theorem State.au_modCtx (c : Nat) (f : Ctx → Ctx) (n' : Nat) : (s.modCtx c f).au n' = s.au n' := (rfl)
@[simp] theorem State.fn_modCtx (c : Nat) (f : Ctx → Ctx) (f' : Nat) : (s.modCtx c f).fn f' = s.fn f' := (rfl)
@[simp] theorem State.port_modCtx (c : Nat) (f : Ctx → Ctx) (p' : Nat) : (s.modCtx c f).port p' = s.port p' := (rfl)
@[simp] theorem State.sem_modCtx (c : Nat) (f : Ctx → Ctx) (n' : Nat) : (s.modCtx c f).sem n' = s.sem n' := (rfl)

/-! ## State.putAu -/

@[simp] theorem State.putAu_pending (n : Nat) (a : Au) : (s.putAu n a).pending = s.pending := (rfl)
@[simp] theorem State.putAu_now (n : Nat) (a : Au) : (s.putAu n a).now = s.now := (rfl)
@[simp] theorem State.putAu_free (n : Nat) (a : Au) : (s.putAu n a).free = s.free := (rfl)
@[simp] theorem State.putAu_answer (n : Nat) (a : Au) : (s.putAu n a).answer = s.answer := (rfl)
@[simp] theorem State.putAu_regs (n : Nat) (a : Au) : (s.putAu n a).regs = s.regs := (rfl)
@[simp] theorem State.putAu_host (n : Nat) (a : Au) : (s.putAu n a).host = s.host := (rfl)
@[simp] theorem State.putAu_ports (n : Nat) (a : Au) : (s.putAu n a).ports = s.ports := (rfl)
@[simp] theorem State.putAu_fns (n : Nat) (a : Au) : (s.putAu n a).fns = s.fns := (rfl)
@[simp] theorem State.putAu_ctxs (n : Nat) (a : Au) : (s.putAu n a).ctxs = s.ctxs := (rfl)
@[simp] theorem State.putAu_mem (n : Nat) (a : Au) : (s.putAu n a).mem = s.mem := (rfl)
@[simp] theorem State.putAu_links (n : Nat) (a : Au) : (s.putAu n a).links = s.links := (rfl)
@[simp] theorem State.putAu_sems (n : Nat) (a : Au) : (s.putAu n a).sems = s.sems := (rfl)
@[simp] theorem State.putAu_solver (n : Nat) (a : Au) : (s.putAu n a).solver = s.solver := (rfl)
@[simp] theorem State.putAu_totals (n : Nat) (a : Au) : (s.putAu n a).totals = s.totals := (rfl)
@[simp] theorem State.putAu_power (n : Nat) (a : Au) : (s.putAu n a).power = s.power := (rfl)
@[simp] theorem State.putAu_sec (n : Nat) (a : Au) : (s.putAu n a).sec = s.sec := (rfl)
@[simp] theorem State.reg_putAu (n : Nat) (a : Au) (k' : Nat) : (s.putAu n a).reg k' = s.reg k' := (rfl)
@[simp] theorem State.fld_putAu (n : Nat) (a : Au) (k' h' l' : Nat) : (s.putAu n a).fld k' h' l' = s.fld k' h' l' := (rfl)
@[simp] theorem State.ctx_putAu (n : Nat) (a : Au) (c' : Nat) : (s.putAu n a).ctx c' = s.ctx c' := (rfl)
@[simp] theorem State.fn_putAu (n : Nat) (a : Au) (f' : Nat) : (s.putAu n a).fn f' = s.fn f' := (rfl)
@[simp] theorem State.port_putAu (n : Nat) (a : Au) (p' : Nat) : (s.putAu n a).port p' = s.port p' := (rfl)
@[simp] theorem State.sem_putAu (n : Nat) (a : Au) (n' : Nat) : (s.putAu n a).sem n' = s.sem n' := (rfl)

/-! ## State.modAu -/

@[simp] theorem State.modAu_pending (n : Nat) (f : Au → Au) : (s.modAu n f).pending = s.pending := (rfl)
@[simp] theorem State.modAu_now (n : Nat) (f : Au → Au) : (s.modAu n f).now = s.now := (rfl)
@[simp] theorem State.modAu_free (n : Nat) (f : Au → Au) : (s.modAu n f).free = s.free := (rfl)
@[simp] theorem State.modAu_answer (n : Nat) (f : Au → Au) : (s.modAu n f).answer = s.answer := (rfl)
@[simp] theorem State.modAu_regs (n : Nat) (f : Au → Au) : (s.modAu n f).regs = s.regs := (rfl)
@[simp] theorem State.modAu_host (n : Nat) (f : Au → Au) : (s.modAu n f).host = s.host := (rfl)
@[simp] theorem State.modAu_ports (n : Nat) (f : Au → Au) : (s.modAu n f).ports = s.ports := (rfl)
@[simp] theorem State.modAu_fns (n : Nat) (f : Au → Au) : (s.modAu n f).fns = s.fns := (rfl)
@[simp] theorem State.modAu_ctxs (n : Nat) (f : Au → Au) : (s.modAu n f).ctxs = s.ctxs := (rfl)
@[simp] theorem State.modAu_mem (n : Nat) (f : Au → Au) : (s.modAu n f).mem = s.mem := (rfl)
@[simp] theorem State.modAu_links (n : Nat) (f : Au → Au) : (s.modAu n f).links = s.links := (rfl)
@[simp] theorem State.modAu_sems (n : Nat) (f : Au → Au) : (s.modAu n f).sems = s.sems := (rfl)
@[simp] theorem State.modAu_solver (n : Nat) (f : Au → Au) : (s.modAu n f).solver = s.solver := (rfl)
@[simp] theorem State.modAu_totals (n : Nat) (f : Au → Au) : (s.modAu n f).totals = s.totals := (rfl)
@[simp] theorem State.modAu_power (n : Nat) (f : Au → Au) : (s.modAu n f).power = s.power := (rfl)
@[simp] theorem State.modAu_sec (n : Nat) (f : Au → Au) : (s.modAu n f).sec = s.sec := (rfl)
@[simp] theorem State.reg_modAu (n : Nat) (f : Au → Au) (k' : Nat) : (s.modAu n f).reg k' = s.reg k' := (rfl)
@[simp] theorem State.fld_modAu (n : Nat) (f : Au → Au) (k' h' l' : Nat) : (s.modAu n f).fld k' h' l' = s.fld k' h' l' := (rfl)
@[simp] theorem State.ctx_modAu (n : Nat) (f : Au → Au) (c' : Nat) : (s.modAu n f).ctx c' = s.ctx c' := (rfl)
@[simp] theorem State.fn_modAu (n : Nat) (f : Au → Au) (f' : Nat) : (s.modAu n f).fn f' = s.fn f' := (rfl)
@[simp] theorem State.port_modAu (n : Nat) (f : Au → Au) (p' : Nat) : (s.modAu n f).port p' = s.port p' := (rfl)
@[simp] theorem State.sem_modAu (n : Nat) (f : Au → Au) (n' : Nat) : (s.modAu n f).sem n' = s.sem n' := (rfl)

/-! ## State.modFn -/

@[simp] theorem State.modFn_pending (i : Nat) (f : Fn → Fn) : (s.modFn i f).pending = s.pending := (rfl)
@[simp] theorem State.modFn_now (i : Nat) (f : Fn → Fn) : (s.modFn i f).now = s.now := (rfl)
@[simp] theorem State.modFn_free (i : Nat) (f : Fn → Fn) : (s.modFn i f).free = s.free := (rfl)
@[simp] theorem State.modFn_answer (i : Nat) (f : Fn → Fn) : (s.modFn i f).answer = s.answer := (rfl)
@[simp] theorem State.modFn_regs (i : Nat) (f : Fn → Fn) : (s.modFn i f).regs = s.regs := (rfl)
@[simp] theorem State.modFn_host (i : Nat) (f : Fn → Fn) : (s.modFn i f).host = s.host := (rfl)
@[simp] theorem State.modFn_ports (i : Nat) (f : Fn → Fn) : (s.modFn i f).ports = s.ports := (rfl)
@[simp] theorem State.modFn_ctxs (i : Nat) (f : Fn → Fn) : (s.modFn i f).ctxs = s.ctxs := (rfl)
@[simp] theorem State.modFn_aus (i : Nat) (f : Fn → Fn) : (s.modFn i f).aus = s.aus := (rfl)
@[simp] theorem State.modFn_mem (i : Nat) (f : Fn → Fn) : (s.modFn i f).mem = s.mem := (rfl)
@[simp] theorem State.modFn_links (i : Nat) (f : Fn → Fn) : (s.modFn i f).links = s.links := (rfl)
@[simp] theorem State.modFn_sems (i : Nat) (f : Fn → Fn) : (s.modFn i f).sems = s.sems := (rfl)
@[simp] theorem State.modFn_solver (i : Nat) (f : Fn → Fn) : (s.modFn i f).solver = s.solver := (rfl)
@[simp] theorem State.modFn_totals (i : Nat) (f : Fn → Fn) : (s.modFn i f).totals = s.totals := (rfl)
@[simp] theorem State.modFn_power (i : Nat) (f : Fn → Fn) : (s.modFn i f).power = s.power := (rfl)
@[simp] theorem State.modFn_sec (i : Nat) (f : Fn → Fn) : (s.modFn i f).sec = s.sec := (rfl)
@[simp] theorem State.reg_modFn (i : Nat) (f : Fn → Fn) (k' : Nat) : (s.modFn i f).reg k' = s.reg k' := (rfl)
@[simp] theorem State.fld_modFn (i : Nat) (f : Fn → Fn) (k' h' l' : Nat) : (s.modFn i f).fld k' h' l' = s.fld k' h' l' := (rfl)
@[simp] theorem State.ctx_modFn (i : Nat) (f : Fn → Fn) (c' : Nat) : (s.modFn i f).ctx c' = s.ctx c' := (rfl)
@[simp] theorem State.au_modFn (i : Nat) (f : Fn → Fn) (n' : Nat) : (s.modFn i f).au n' = s.au n' := (rfl)
@[simp] theorem State.port_modFn (i : Nat) (f : Fn → Fn) (p' : Nat) : (s.modFn i f).port p' = s.port p' := (rfl)
@[simp] theorem State.sem_modFn (i : Nat) (f : Fn → Fn) (n' : Nat) : (s.modFn i f).sem n' = s.sem n' := (rfl)

/-! ## State.modPort -/

@[simp] theorem State.modPort_pending (p : Nat) (f : HostPort → HostPort) : (s.modPort p f).pending = s.pending := (rfl)
@[simp] theorem State.modPort_now (p : Nat) (f : HostPort → HostPort) : (s.modPort p f).now = s.now := (rfl)
@[simp] theorem State.modPort_free (p : Nat) (f : HostPort → HostPort) : (s.modPort p f).free = s.free := (rfl)
@[simp] theorem State.modPort_answer (p : Nat) (f : HostPort → HostPort) : (s.modPort p f).answer = s.answer := (rfl)
@[simp] theorem State.modPort_regs (p : Nat) (f : HostPort → HostPort) : (s.modPort p f).regs = s.regs := (rfl)
@[simp] theorem State.modPort_host (p : Nat) (f : HostPort → HostPort) : (s.modPort p f).host = s.host := (rfl)
@[simp] theorem State.modPort_fns (p : Nat) (f : HostPort → HostPort) : (s.modPort p f).fns = s.fns := (rfl)
@[simp] theorem State.modPort_ctxs (p : Nat) (f : HostPort → HostPort) : (s.modPort p f).ctxs = s.ctxs := (rfl)
@[simp] theorem State.modPort_aus (p : Nat) (f : HostPort → HostPort) : (s.modPort p f).aus = s.aus := (rfl)
@[simp] theorem State.modPort_mem (p : Nat) (f : HostPort → HostPort) : (s.modPort p f).mem = s.mem := (rfl)
@[simp] theorem State.modPort_links (p : Nat) (f : HostPort → HostPort) : (s.modPort p f).links = s.links := (rfl)
@[simp] theorem State.modPort_sems (p : Nat) (f : HostPort → HostPort) : (s.modPort p f).sems = s.sems := (rfl)
@[simp] theorem State.modPort_solver (p : Nat) (f : HostPort → HostPort) : (s.modPort p f).solver = s.solver := (rfl)
@[simp] theorem State.modPort_totals (p : Nat) (f : HostPort → HostPort) : (s.modPort p f).totals = s.totals := (rfl)
@[simp] theorem State.modPort_power (p : Nat) (f : HostPort → HostPort) : (s.modPort p f).power = s.power := (rfl)
@[simp] theorem State.modPort_sec (p : Nat) (f : HostPort → HostPort) : (s.modPort p f).sec = s.sec := (rfl)
@[simp] theorem State.reg_modPort (p : Nat) (f : HostPort → HostPort) (k' : Nat) : (s.modPort p f).reg k' = s.reg k' := (rfl)
@[simp] theorem State.fld_modPort (p : Nat) (f : HostPort → HostPort) (k' h' l' : Nat) : (s.modPort p f).fld k' h' l' = s.fld k' h' l' := (rfl)
@[simp] theorem State.ctx_modPort (p : Nat) (f : HostPort → HostPort) (c' : Nat) : (s.modPort p f).ctx c' = s.ctx c' := (rfl)
@[simp] theorem State.au_modPort (p : Nat) (f : HostPort → HostPort) (n' : Nat) : (s.modPort p f).au n' = s.au n' := (rfl)
@[simp] theorem State.fn_modPort (p : Nat) (f : HostPort → HostPort) (f' : Nat) : (s.modPort p f).fn f' = s.fn f' := (rfl)
@[simp] theorem State.sem_modPort (p : Nat) (f : HostPort → HostPort) (n' : Nat) : (s.modPort p f).sem n' = s.sem n' := (rfl)

/-! ## State.putSem -/

@[simp] theorem State.putSem_pending (n : Nat) (x : Sem) : (s.putSem n x).pending = s.pending := (rfl)
@[simp] theorem State.putSem_now (n : Nat) (x : Sem) : (s.putSem n x).now = s.now := (rfl)
@[simp] theorem State.putSem_free (n : Nat) (x : Sem) : (s.putSem n x).free = s.free := (rfl)
@[simp] theorem State.putSem_answer (n : Nat) (x : Sem) : (s.putSem n x).answer = s.answer := (rfl)
@[simp] theorem State.putSem_regs (n : Nat) (x : Sem) : (s.putSem n x).regs = s.regs := (rfl)
@[simp] theorem State.putSem_host (n : Nat) (x : Sem) : (s.putSem n x).host = s.host := (rfl)
@[simp] theorem State.putSem_ports (n : Nat) (x : Sem) : (s.putSem n x).ports = s.ports := (rfl)
@[simp] theorem State.putSem_fns (n : Nat) (x : Sem) : (s.putSem n x).fns = s.fns := (rfl)
@[simp] theorem State.putSem_ctxs (n : Nat) (x : Sem) : (s.putSem n x).ctxs = s.ctxs := (rfl)
@[simp] theorem State.putSem_aus (n : Nat) (x : Sem) : (s.putSem n x).aus = s.aus := (rfl)
@[simp] theorem State.putSem_mem (n : Nat) (x : Sem) : (s.putSem n x).mem = s.mem := (rfl)
@[simp] theorem State.putSem_links (n : Nat) (x : Sem) : (s.putSem n x).links = s.links := (rfl)
@[simp] theorem State.putSem_solver (n : Nat) (x : Sem) : (s.putSem n x).solver = s.solver := (rfl)
@[simp] theorem State.putSem_totals (n : Nat) (x : Sem) : (s.putSem n x).totals = s.totals := (rfl)
@[simp] theorem State.putSem_power (n : Nat) (x : Sem) : (s.putSem n x).power = s.power := (rfl)
@[simp] theorem State.putSem_sec (n : Nat) (x : Sem) : (s.putSem n x).sec = s.sec := (rfl)
@[simp] theorem State.reg_putSem (n : Nat) (x : Sem) (k' : Nat) : (s.putSem n x).reg k' = s.reg k' := (rfl)
@[simp] theorem State.fld_putSem (n : Nat) (x : Sem) (k' h' l' : Nat) : (s.putSem n x).fld k' h' l' = s.fld k' h' l' := (rfl)
@[simp] theorem State.ctx_putSem (n : Nat) (x : Sem) (c' : Nat) : (s.putSem n x).ctx c' = s.ctx c' := (rfl)
@[simp] theorem State.au_putSem (n : Nat) (x : Sem) (n' : Nat) : (s.putSem n x).au n' = s.au n' := (rfl)
@[simp] theorem State.fn_putSem (n : Nat) (x : Sem) (f' : Nat) : (s.putSem n x).fn f' = s.fn f' := (rfl)
@[simp] theorem State.port_putSem (n : Nat) (x : Sem) (p' : Nat) : (s.putSem n x).port p' = s.port p' := (rfl)

/-! ## State.at -/

@[simp] theorem State.at_pending (t : Nat) : (s.at t).pending = s.pending := (rfl)
@[simp] theorem State.at_free (t : Nat) : (s.at t).free = s.free := (rfl)
@[simp] theorem State.at_answer (t : Nat) : (s.at t).answer = s.answer := (rfl)
@[simp] theorem State.at_regs (t : Nat) : (s.at t).regs = s.regs := (rfl)
@[simp] theorem State.at_host (t : Nat) : (s.at t).host = s.host := (rfl)
@[simp] theorem State.at_ports (t : Nat) : (s.at t).ports = s.ports := (rfl)
@[simp] theorem State.at_fns (t : Nat) : (s.at t).fns = s.fns := (rfl)
@[simp] theorem State.at_ctxs (t : Nat) : (s.at t).ctxs = s.ctxs := (rfl)
@[simp] theorem State.at_aus (t : Nat) : (s.at t).aus = s.aus := (rfl)
@[simp] theorem State.at_mem (t : Nat) : (s.at t).mem = s.mem := (rfl)
@[simp] theorem State.at_links (t : Nat) : (s.at t).links = s.links := (rfl)
@[simp] theorem State.at_sems (t : Nat) : (s.at t).sems = s.sems := (rfl)
@[simp] theorem State.at_solver (t : Nat) : (s.at t).solver = s.solver := (rfl)
@[simp] theorem State.at_totals (t : Nat) : (s.at t).totals = s.totals := (rfl)
@[simp] theorem State.at_power (t : Nat) : (s.at t).power = s.power := (rfl)
@[simp] theorem State.at_sec (t : Nat) : (s.at t).sec = s.sec := (rfl)
@[simp] theorem State.reg_at (t : Nat) (k' : Nat) : (s.at t).reg k' = s.reg k' := (rfl)
@[simp] theorem State.fld_at (t : Nat) (k' h' l' : Nat) : (s.at t).fld k' h' l' = s.fld k' h' l' := (rfl)
@[simp] theorem State.ctx_at (t : Nat) (c' : Nat) : (s.at t).ctx c' = s.ctx c' := (rfl)
@[simp] theorem State.au_at (t : Nat) (n' : Nat) : (s.at t).au n' = s.au n' := (rfl)
@[simp] theorem State.fn_at (t : Nat) (f' : Nat) : (s.at t).fn f' = s.fn f' := (rfl)
@[simp] theorem State.port_at (t : Nat) (p' : Nat) : (s.at t).port p' = s.port p' := (rfl)
@[simp] theorem State.sem_at (t : Nat) (n' : Nat) : (s.at t).sem n' = s.sem n' := (rfl)

/-! ## State.total -/

@[simp] theorem State.total_pending (i n : Nat) : (s.total i n).pending = s.pending := (rfl)
@[simp] theorem State.total_now (i n : Nat) : (s.total i n).now = s.now := (rfl)
@[simp] theorem State.total_free (i n : Nat) : (s.total i n).free = s.free := (rfl)
@[simp] theorem State.total_answer (i n : Nat) : (s.total i n).answer = s.answer := (rfl)
@[simp] theorem State.total_regs (i n : Nat) : (s.total i n).regs = s.regs := (rfl)
@[simp] theorem State.total_host (i n : Nat) : (s.total i n).host = s.host := (rfl)
@[simp] theorem State.total_ports (i n : Nat) : (s.total i n).ports = s.ports := (rfl)
@[simp] theorem State.total_fns (i n : Nat) : (s.total i n).fns = s.fns := (rfl)
@[simp] theorem State.total_ctxs (i n : Nat) : (s.total i n).ctxs = s.ctxs := (rfl)
@[simp] theorem State.total_aus (i n : Nat) : (s.total i n).aus = s.aus := (rfl)
@[simp] theorem State.total_mem (i n : Nat) : (s.total i n).mem = s.mem := (rfl)
@[simp] theorem State.total_links (i n : Nat) : (s.total i n).links = s.links := (rfl)
@[simp] theorem State.total_sems (i n : Nat) : (s.total i n).sems = s.sems := (rfl)
@[simp] theorem State.total_solver (i n : Nat) : (s.total i n).solver = s.solver := (rfl)
@[simp] theorem State.total_power (i n : Nat) : (s.total i n).power = s.power := (rfl)
@[simp] theorem State.total_sec (i n : Nat) : (s.total i n).sec = s.sec := (rfl)
@[simp] theorem State.reg_total (i n : Nat) (k' : Nat) : (s.total i n).reg k' = s.reg k' := (rfl)
@[simp] theorem State.fld_total (i n : Nat) (k' h' l' : Nat) : (s.total i n).fld k' h' l' = s.fld k' h' l' := (rfl)
@[simp] theorem State.ctx_total (i n : Nat) (c' : Nat) : (s.total i n).ctx c' = s.ctx c' := (rfl)
@[simp] theorem State.au_total (i n : Nat) (n' : Nat) : (s.total i n).au n' = s.au n' := (rfl)
@[simp] theorem State.fn_total (i n : Nat) (f' : Nat) : (s.total i n).fn f' = s.fn f' := (rfl)
@[simp] theorem State.port_total (i n : Nat) (p' : Nat) : (s.total i n).port p' = s.port p' := (rfl)
@[simp] theorem State.sem_total (i n : Nat) (n' : Nat) : (s.total i n).sem n' = s.sem n' := (rfl)

/-! ## State.setFld -/

@[simp] theorem State.setFld_pending (k hi lo v : Nat) : (s.setFld k hi lo v).pending = s.pending := (rfl)
@[simp] theorem State.setFld_now (k hi lo v : Nat) : (s.setFld k hi lo v).now = s.now := (rfl)
@[simp] theorem State.setFld_free (k hi lo v : Nat) : (s.setFld k hi lo v).free = s.free := (rfl)
@[simp] theorem State.setFld_answer (k hi lo v : Nat) : (s.setFld k hi lo v).answer = s.answer := (rfl)
@[simp] theorem State.setFld_host (k hi lo v : Nat) : (s.setFld k hi lo v).host = s.host := (rfl)
@[simp] theorem State.setFld_ports (k hi lo v : Nat) : (s.setFld k hi lo v).ports = s.ports := (rfl)
@[simp] theorem State.setFld_fns (k hi lo v : Nat) : (s.setFld k hi lo v).fns = s.fns := (rfl)
@[simp] theorem State.setFld_ctxs (k hi lo v : Nat) : (s.setFld k hi lo v).ctxs = s.ctxs := (rfl)
@[simp] theorem State.setFld_aus (k hi lo v : Nat) : (s.setFld k hi lo v).aus = s.aus := (rfl)
@[simp] theorem State.setFld_mem (k hi lo v : Nat) : (s.setFld k hi lo v).mem = s.mem := (rfl)
@[simp] theorem State.setFld_links (k hi lo v : Nat) : (s.setFld k hi lo v).links = s.links := (rfl)
@[simp] theorem State.setFld_sems (k hi lo v : Nat) : (s.setFld k hi lo v).sems = s.sems := (rfl)
@[simp] theorem State.setFld_solver (k hi lo v : Nat) : (s.setFld k hi lo v).solver = s.solver := (rfl)
@[simp] theorem State.setFld_totals (k hi lo v : Nat) : (s.setFld k hi lo v).totals = s.totals := (rfl)
@[simp] theorem State.setFld_power (k hi lo v : Nat) : (s.setFld k hi lo v).power = s.power := (rfl)
@[simp] theorem State.setFld_sec (k hi lo v : Nat) : (s.setFld k hi lo v).sec = s.sec := (rfl)
@[simp] theorem State.ctx_setFld (k hi lo v : Nat) (c' : Nat) : (s.setFld k hi lo v).ctx c' = s.ctx c' := (rfl)
@[simp] theorem State.au_setFld (k hi lo v : Nat) (n' : Nat) : (s.setFld k hi lo v).au n' = s.au n' := (rfl)
@[simp] theorem State.fn_setFld (k hi lo v : Nat) (f' : Nat) : (s.setFld k hi lo v).fn f' = s.fn f' := (rfl)
@[simp] theorem State.port_setFld (k hi lo v : Nat) (p' : Nat) : (s.setFld k hi lo v).port p' = s.port p' := (rfl)
@[simp] theorem State.sem_setFld (k hi lo v : Nat) (n' : Nat) : (s.setFld k hi lo v).sem n' = s.sem n' := (rfl)

/-! ## State.setReg -/

@[simp] theorem State.setReg_pending (k v : Nat) : (s.setReg k v).pending = s.pending := (rfl)
@[simp] theorem State.setReg_now (k v : Nat) : (s.setReg k v).now = s.now := (rfl)
@[simp] theorem State.setReg_free (k v : Nat) : (s.setReg k v).free = s.free := (rfl)
@[simp] theorem State.setReg_answer (k v : Nat) : (s.setReg k v).answer = s.answer := (rfl)
@[simp] theorem State.setReg_host (k v : Nat) : (s.setReg k v).host = s.host := (rfl)
@[simp] theorem State.setReg_ports (k v : Nat) : (s.setReg k v).ports = s.ports := (rfl)
@[simp] theorem State.setReg_fns (k v : Nat) : (s.setReg k v).fns = s.fns := (rfl)
@[simp] theorem State.setReg_ctxs (k v : Nat) : (s.setReg k v).ctxs = s.ctxs := (rfl)
@[simp] theorem State.setReg_aus (k v : Nat) : (s.setReg k v).aus = s.aus := (rfl)
@[simp] theorem State.setReg_mem (k v : Nat) : (s.setReg k v).mem = s.mem := (rfl)
@[simp] theorem State.setReg_links (k v : Nat) : (s.setReg k v).links = s.links := (rfl)
@[simp] theorem State.setReg_sems (k v : Nat) : (s.setReg k v).sems = s.sems := (rfl)
@[simp] theorem State.setReg_solver (k v : Nat) : (s.setReg k v).solver = s.solver := (rfl)
@[simp] theorem State.setReg_totals (k v : Nat) : (s.setReg k v).totals = s.totals := (rfl)
@[simp] theorem State.setReg_power (k v : Nat) : (s.setReg k v).power = s.power := (rfl)
@[simp] theorem State.setReg_sec (k v : Nat) : (s.setReg k v).sec = s.sec := (rfl)
@[simp] theorem State.ctx_setReg (k v : Nat) (c' : Nat) : (s.setReg k v).ctx c' = s.ctx c' := (rfl)
@[simp] theorem State.au_setReg (k v : Nat) (n' : Nat) : (s.setReg k v).au n' = s.au n' := (rfl)
@[simp] theorem State.fn_setReg (k v : Nat) (f' : Nat) : (s.setReg k v).fn f' = s.fn f' := (rfl)
@[simp] theorem State.port_setReg (k v : Nat) (p' : Nat) : (s.setReg k v).port p' = s.port p' := (rfl)
@[simp] theorem State.sem_setReg (k v : Nat) (n' : Nat) : (s.setReg k v).sem n' = s.sem n' := (rfl)

/-! ## State.softReg -/

@[simp] theorem State.softReg_pending (k v : Nat) : (s.softReg k v).pending = s.pending := (rfl)
@[simp] theorem State.softReg_now (k v : Nat) : (s.softReg k v).now = s.now := (rfl)
@[simp] theorem State.softReg_free (k v : Nat) : (s.softReg k v).free = s.free := (rfl)
@[simp] theorem State.softReg_answer (k v : Nat) : (s.softReg k v).answer = s.answer := (rfl)
@[simp] theorem State.softReg_host (k v : Nat) : (s.softReg k v).host = s.host := (rfl)
@[simp] theorem State.softReg_ports (k v : Nat) : (s.softReg k v).ports = s.ports := (rfl)
@[simp] theorem State.softReg_fns (k v : Nat) : (s.softReg k v).fns = s.fns := (rfl)
@[simp] theorem State.softReg_ctxs (k v : Nat) : (s.softReg k v).ctxs = s.ctxs := (rfl)
@[simp] theorem State.softReg_aus (k v : Nat) : (s.softReg k v).aus = s.aus := (rfl)
@[simp] theorem State.softReg_mem (k v : Nat) : (s.softReg k v).mem = s.mem := (rfl)
@[simp] theorem State.softReg_links (k v : Nat) : (s.softReg k v).links = s.links := (rfl)
@[simp] theorem State.softReg_sems (k v : Nat) : (s.softReg k v).sems = s.sems := (rfl)
@[simp] theorem State.softReg_solver (k v : Nat) : (s.softReg k v).solver = s.solver := (rfl)
@[simp] theorem State.softReg_totals (k v : Nat) : (s.softReg k v).totals = s.totals := (rfl)
@[simp] theorem State.softReg_power (k v : Nat) : (s.softReg k v).power = s.power := (rfl)
@[simp] theorem State.softReg_sec (k v : Nat) : (s.softReg k v).sec = s.sec := (rfl)
@[simp] theorem State.ctx_softReg (k v : Nat) (c' : Nat) : (s.softReg k v).ctx c' = s.ctx c' := (rfl)
@[simp] theorem State.au_softReg (k v : Nat) (n' : Nat) : (s.softReg k v).au n' = s.au n' := (rfl)
@[simp] theorem State.fn_softReg (k v : Nat) (f' : Nat) : (s.softReg k v).fn f' = s.fn f' := (rfl)
@[simp] theorem State.port_softReg (k v : Nat) (p' : Nat) : (s.softReg k v).port p' = s.port p' := (rfl)
@[simp] theorem State.sem_softReg (k v : Nat) (n' : Nat) : (s.softReg k v).sem n' = s.sem n' := (rfl)

/-! ## State.setReg64 -/

@[simp] theorem State.setReg64_pending (k l v : Nat) : (s.setReg64 k l v).pending = s.pending := (rfl)
@[simp] theorem State.setReg64_now (k l v : Nat) : (s.setReg64 k l v).now = s.now := (rfl)
@[simp] theorem State.setReg64_free (k l v : Nat) : (s.setReg64 k l v).free = s.free := (rfl)
@[simp] theorem State.setReg64_answer (k l v : Nat) : (s.setReg64 k l v).answer = s.answer := (rfl)
@[simp] theorem State.setReg64_host (k l v : Nat) : (s.setReg64 k l v).host = s.host := (rfl)
@[simp] theorem State.setReg64_ports (k l v : Nat) : (s.setReg64 k l v).ports = s.ports := (rfl)
@[simp] theorem State.setReg64_fns (k l v : Nat) : (s.setReg64 k l v).fns = s.fns := (rfl)
@[simp] theorem State.setReg64_ctxs (k l v : Nat) : (s.setReg64 k l v).ctxs = s.ctxs := (rfl)
@[simp] theorem State.setReg64_aus (k l v : Nat) : (s.setReg64 k l v).aus = s.aus := (rfl)
@[simp] theorem State.setReg64_mem (k l v : Nat) : (s.setReg64 k l v).mem = s.mem := (rfl)
@[simp] theorem State.setReg64_links (k l v : Nat) : (s.setReg64 k l v).links = s.links := (rfl)
@[simp] theorem State.setReg64_sems (k l v : Nat) : (s.setReg64 k l v).sems = s.sems := (rfl)
@[simp] theorem State.setReg64_solver (k l v : Nat) : (s.setReg64 k l v).solver = s.solver := (rfl)
@[simp] theorem State.setReg64_totals (k l v : Nat) : (s.setReg64 k l v).totals = s.totals := (rfl)
@[simp] theorem State.setReg64_power (k l v : Nat) : (s.setReg64 k l v).power = s.power := (rfl)
@[simp] theorem State.setReg64_sec (k l v : Nat) : (s.setReg64 k l v).sec = s.sec := (rfl)
@[simp] theorem State.ctx_setReg64 (k l v : Nat) (c' : Nat) : (s.setReg64 k l v).ctx c' = s.ctx c' := (rfl)
@[simp] theorem State.au_setReg64 (k l v : Nat) (n' : Nat) : (s.setReg64 k l v).au n' = s.au n' := (rfl)
@[simp] theorem State.fn_setReg64 (k l v : Nat) (f' : Nat) : (s.setReg64 k l v).fn f' = s.fn f' := (rfl)
@[simp] theorem State.port_setReg64 (k l v : Nat) (p' : Nat) : (s.setReg64 k l v).port p' = s.port p' := (rfl)
@[simp] theorem State.sem_setReg64 (k l v : Nat) (n' : Nat) : (s.setReg64 k l v).sem n' = s.sem n' := (rfl)

/-! ## State.dropRegs -/

@[simp] theorem State.dropRegs_pending (a b : Nat) : (s.dropRegs a b).pending = s.pending := (rfl)
@[simp] theorem State.dropRegs_now (a b : Nat) : (s.dropRegs a b).now = s.now := (rfl)
@[simp] theorem State.dropRegs_free (a b : Nat) : (s.dropRegs a b).free = s.free := (rfl)
@[simp] theorem State.dropRegs_answer (a b : Nat) : (s.dropRegs a b).answer = s.answer := (rfl)
@[simp] theorem State.dropRegs_host (a b : Nat) : (s.dropRegs a b).host = s.host := (rfl)
@[simp] theorem State.dropRegs_ports (a b : Nat) : (s.dropRegs a b).ports = s.ports := (rfl)
@[simp] theorem State.dropRegs_fns (a b : Nat) : (s.dropRegs a b).fns = s.fns := (rfl)
@[simp] theorem State.dropRegs_ctxs (a b : Nat) : (s.dropRegs a b).ctxs = s.ctxs := (rfl)
@[simp] theorem State.dropRegs_aus (a b : Nat) : (s.dropRegs a b).aus = s.aus := (rfl)
@[simp] theorem State.dropRegs_mem (a b : Nat) : (s.dropRegs a b).mem = s.mem := (rfl)
@[simp] theorem State.dropRegs_links (a b : Nat) : (s.dropRegs a b).links = s.links := (rfl)
@[simp] theorem State.dropRegs_sems (a b : Nat) : (s.dropRegs a b).sems = s.sems := (rfl)
@[simp] theorem State.dropRegs_solver (a b : Nat) : (s.dropRegs a b).solver = s.solver := (rfl)
@[simp] theorem State.dropRegs_totals (a b : Nat) : (s.dropRegs a b).totals = s.totals := (rfl)
@[simp] theorem State.dropRegs_power (a b : Nat) : (s.dropRegs a b).power = s.power := (rfl)
@[simp] theorem State.dropRegs_sec (a b : Nat) : (s.dropRegs a b).sec = s.sec := (rfl)
@[simp] theorem State.ctx_dropRegs (a b : Nat) (c' : Nat) : (s.dropRegs a b).ctx c' = s.ctx c' := (rfl)
@[simp] theorem State.au_dropRegs (a b : Nat) (n' : Nat) : (s.dropRegs a b).au n' = s.au n' := (rfl)
@[simp] theorem State.fn_dropRegs (a b : Nat) (f' : Nat) : (s.dropRegs a b).fn f' = s.fn f' := (rfl)
@[simp] theorem State.port_dropRegs (a b : Nat) (p' : Nat) : (s.dropRegs a b).port p' = s.port p' := (rfl)
@[simp] theorem State.sem_dropRegs (a b : Nat) (n' : Nat) : (s.dropRegs a b).sem n' = s.sem n' := (rfl)

/-! ## State.count -/

@[simp] theorem State.count_pending (k hi lo n : Nat) : (s.count k hi lo n).pending = s.pending := (rfl)
@[simp] theorem State.count_now (k hi lo n : Nat) : (s.count k hi lo n).now = s.now := (rfl)
@[simp] theorem State.count_free (k hi lo n : Nat) : (s.count k hi lo n).free = s.free := (rfl)
@[simp] theorem State.count_answer (k hi lo n : Nat) : (s.count k hi lo n).answer = s.answer := (rfl)
@[simp] theorem State.count_host (k hi lo n : Nat) : (s.count k hi lo n).host = s.host := (rfl)
@[simp] theorem State.count_ports (k hi lo n : Nat) : (s.count k hi lo n).ports = s.ports := (rfl)
@[simp] theorem State.count_fns (k hi lo n : Nat) : (s.count k hi lo n).fns = s.fns := (rfl)
@[simp] theorem State.count_ctxs (k hi lo n : Nat) : (s.count k hi lo n).ctxs = s.ctxs := (rfl)
@[simp] theorem State.count_aus (k hi lo n : Nat) : (s.count k hi lo n).aus = s.aus := (rfl)
@[simp] theorem State.count_mem (k hi lo n : Nat) : (s.count k hi lo n).mem = s.mem := (rfl)
@[simp] theorem State.count_links (k hi lo n : Nat) : (s.count k hi lo n).links = s.links := (rfl)
@[simp] theorem State.count_sems (k hi lo n : Nat) : (s.count k hi lo n).sems = s.sems := (rfl)
@[simp] theorem State.count_solver (k hi lo n : Nat) : (s.count k hi lo n).solver = s.solver := (rfl)
@[simp] theorem State.count_totals (k hi lo n : Nat) : (s.count k hi lo n).totals = s.totals := (rfl)
@[simp] theorem State.count_power (k hi lo n : Nat) : (s.count k hi lo n).power = s.power := (rfl)
@[simp] theorem State.count_sec (k hi lo n : Nat) : (s.count k hi lo n).sec = s.sec := (rfl)
@[simp] theorem State.ctx_count (k hi lo n : Nat) (c' : Nat) : (s.count k hi lo n).ctx c' = s.ctx c' := (rfl)
@[simp] theorem State.au_count (k hi lo n : Nat) (n' : Nat) : (s.count k hi lo n).au n' = s.au n' := (rfl)
@[simp] theorem State.fn_count (k hi lo n : Nat) (f' : Nat) : (s.count k hi lo n).fn f' = s.fn f' := (rfl)
@[simp] theorem State.port_count (k hi lo n : Nat) (p' : Nat) : (s.count k hi lo n).port p' = s.port p' := (rfl)
@[simp] theorem State.sem_count (k hi lo n : Nat) (n' : Nat) : (s.count k hi lo n).sem n' = s.sem n' := (rfl)

/-! ## State.flagCount -/

@[simp] theorem State.flagCount_pending (a b k hi lo : Nat) : (s.flagCount a b k hi lo).pending = s.pending := (rfl)
@[simp] theorem State.flagCount_now (a b k hi lo : Nat) : (s.flagCount a b k hi lo).now = s.now := (rfl)
@[simp] theorem State.flagCount_free (a b k hi lo : Nat) : (s.flagCount a b k hi lo).free = s.free := (rfl)
@[simp] theorem State.flagCount_answer (a b k hi lo : Nat) : (s.flagCount a b k hi lo).answer = s.answer := (rfl)
@[simp] theorem State.flagCount_host (a b k hi lo : Nat) : (s.flagCount a b k hi lo).host = s.host := (rfl)
@[simp] theorem State.flagCount_ports (a b k hi lo : Nat) : (s.flagCount a b k hi lo).ports = s.ports := (rfl)
@[simp] theorem State.flagCount_fns (a b k hi lo : Nat) : (s.flagCount a b k hi lo).fns = s.fns := (rfl)
@[simp] theorem State.flagCount_ctxs (a b k hi lo : Nat) : (s.flagCount a b k hi lo).ctxs = s.ctxs := (rfl)
@[simp] theorem State.flagCount_aus (a b k hi lo : Nat) : (s.flagCount a b k hi lo).aus = s.aus := (rfl)
@[simp] theorem State.flagCount_mem (a b k hi lo : Nat) : (s.flagCount a b k hi lo).mem = s.mem := (rfl)
@[simp] theorem State.flagCount_links (a b k hi lo : Nat) : (s.flagCount a b k hi lo).links = s.links := (rfl)
@[simp] theorem State.flagCount_sems (a b k hi lo : Nat) : (s.flagCount a b k hi lo).sems = s.sems := (rfl)
@[simp] theorem State.flagCount_solver (a b k hi lo : Nat) : (s.flagCount a b k hi lo).solver = s.solver := (rfl)
@[simp] theorem State.flagCount_totals (a b k hi lo : Nat) : (s.flagCount a b k hi lo).totals = s.totals := (rfl)
@[simp] theorem State.flagCount_power (a b k hi lo : Nat) : (s.flagCount a b k hi lo).power = s.power := (rfl)
@[simp] theorem State.flagCount_sec (a b k hi lo : Nat) : (s.flagCount a b k hi lo).sec = s.sec := (rfl)
@[simp] theorem State.ctx_flagCount (a b k hi lo : Nat) (c' : Nat) : (s.flagCount a b k hi lo).ctx c' = s.ctx c' := (rfl)
@[simp] theorem State.au_flagCount (a b k hi lo : Nat) (n' : Nat) : (s.flagCount a b k hi lo).au n' = s.au n' := (rfl)
@[simp] theorem State.fn_flagCount (a b k hi lo : Nat) (f' : Nat) : (s.flagCount a b k hi lo).fn f' = s.fn f' := (rfl)
@[simp] theorem State.port_flagCount (a b k hi lo : Nat) (p' : Nat) : (s.flagCount a b k hi lo).port p' = s.port p' := (rfl)
@[simp] theorem State.sem_flagCount (a b k hi lo : Nat) (n' : Nat) : (s.flagCount a b k hi lo).sem n' = s.sem n' := (rfl)

/-! ## State.onSec -/

@[simp] theorem State.onSec_pending (f : SecSt → SecSt) : (s.onSec f).pending = s.pending := (rfl)
@[simp] theorem State.onSec_now (f : SecSt → SecSt) : (s.onSec f).now = s.now := (rfl)
@[simp] theorem State.onSec_free (f : SecSt → SecSt) : (s.onSec f).free = s.free := (rfl)
@[simp] theorem State.onSec_answer (f : SecSt → SecSt) : (s.onSec f).answer = s.answer := (rfl)
@[simp] theorem State.onSec_regs (f : SecSt → SecSt) : (s.onSec f).regs = s.regs := (rfl)
@[simp] theorem State.onSec_host (f : SecSt → SecSt) : (s.onSec f).host = s.host := (rfl)
@[simp] theorem State.onSec_ports (f : SecSt → SecSt) : (s.onSec f).ports = s.ports := (rfl)
@[simp] theorem State.onSec_fns (f : SecSt → SecSt) : (s.onSec f).fns = s.fns := (rfl)
@[simp] theorem State.onSec_ctxs (f : SecSt → SecSt) : (s.onSec f).ctxs = s.ctxs := (rfl)
@[simp] theorem State.onSec_aus (f : SecSt → SecSt) : (s.onSec f).aus = s.aus := (rfl)
@[simp] theorem State.onSec_mem (f : SecSt → SecSt) : (s.onSec f).mem = s.mem := (rfl)
@[simp] theorem State.onSec_links (f : SecSt → SecSt) : (s.onSec f).links = s.links := (rfl)
@[simp] theorem State.onSec_sems (f : SecSt → SecSt) : (s.onSec f).sems = s.sems := (rfl)
@[simp] theorem State.onSec_solver (f : SecSt → SecSt) : (s.onSec f).solver = s.solver := (rfl)
@[simp] theorem State.onSec_totals (f : SecSt → SecSt) : (s.onSec f).totals = s.totals := (rfl)
@[simp] theorem State.onSec_power (f : SecSt → SecSt) : (s.onSec f).power = s.power := (rfl)
@[simp] theorem State.reg_onSec (f : SecSt → SecSt) (k' : Nat) : (s.onSec f).reg k' = s.reg k' := (rfl)
@[simp] theorem State.fld_onSec (f : SecSt → SecSt) (k' h' l' : Nat) : (s.onSec f).fld k' h' l' = s.fld k' h' l' := (rfl)
@[simp] theorem State.ctx_onSec (f : SecSt → SecSt) (c' : Nat) : (s.onSec f).ctx c' = s.ctx c' := (rfl)
@[simp] theorem State.au_onSec (f : SecSt → SecSt) (n' : Nat) : (s.onSec f).au n' = s.au n' := (rfl)
@[simp] theorem State.fn_onSec (f : SecSt → SecSt) (f' : Nat) : (s.onSec f).fn f' = s.fn f' := (rfl)
@[simp] theorem State.port_onSec (f : SecSt → SecSt) (p' : Nat) : (s.onSec f).port p' = s.port p' := (rfl)
@[simp] theorem State.sem_onSec (f : SecSt → SecSt) (n' : Nat) : (s.onSec f).sem n' = s.sem n' := (rfl)

/-! ## State.modDust -/

@[simp] theorem State.modDust_pending (c : Nat) (f : DustSt → DustSt) : (s.modDust c f).pending = s.pending := (rfl)
@[simp] theorem State.modDust_now (c : Nat) (f : DustSt → DustSt) : (s.modDust c f).now = s.now := (rfl)
@[simp] theorem State.modDust_free (c : Nat) (f : DustSt → DustSt) : (s.modDust c f).free = s.free := (rfl)
@[simp] theorem State.modDust_answer (c : Nat) (f : DustSt → DustSt) : (s.modDust c f).answer = s.answer := (rfl)
@[simp] theorem State.modDust_regs (c : Nat) (f : DustSt → DustSt) : (s.modDust c f).regs = s.regs := (rfl)
@[simp] theorem State.modDust_host (c : Nat) (f : DustSt → DustSt) : (s.modDust c f).host = s.host := (rfl)
@[simp] theorem State.modDust_ports (c : Nat) (f : DustSt → DustSt) : (s.modDust c f).ports = s.ports := (rfl)
@[simp] theorem State.modDust_fns (c : Nat) (f : DustSt → DustSt) : (s.modDust c f).fns = s.fns := (rfl)
@[simp] theorem State.modDust_aus (c : Nat) (f : DustSt → DustSt) : (s.modDust c f).aus = s.aus := (rfl)
@[simp] theorem State.modDust_mem (c : Nat) (f : DustSt → DustSt) : (s.modDust c f).mem = s.mem := (rfl)
@[simp] theorem State.modDust_links (c : Nat) (f : DustSt → DustSt) : (s.modDust c f).links = s.links := (rfl)
@[simp] theorem State.modDust_sems (c : Nat) (f : DustSt → DustSt) : (s.modDust c f).sems = s.sems := (rfl)
@[simp] theorem State.modDust_solver (c : Nat) (f : DustSt → DustSt) : (s.modDust c f).solver = s.solver := (rfl)
@[simp] theorem State.modDust_totals (c : Nat) (f : DustSt → DustSt) : (s.modDust c f).totals = s.totals := (rfl)
@[simp] theorem State.modDust_power (c : Nat) (f : DustSt → DustSt) : (s.modDust c f).power = s.power := (rfl)
@[simp] theorem State.modDust_sec (c : Nat) (f : DustSt → DustSt) : (s.modDust c f).sec = s.sec := (rfl)
@[simp] theorem State.reg_modDust (c : Nat) (f : DustSt → DustSt) (k' : Nat) : (s.modDust c f).reg k' = s.reg k' := (rfl)
@[simp] theorem State.fld_modDust (c : Nat) (f : DustSt → DustSt) (k' h' l' : Nat) : (s.modDust c f).fld k' h' l' = s.fld k' h' l' := (rfl)
@[simp] theorem State.au_modDust (c : Nat) (f : DustSt → DustSt) (n' : Nat) : (s.modDust c f).au n' = s.au n' := (rfl)
@[simp] theorem State.fn_modDust (c : Nat) (f : DustSt → DustSt) (f' : Nat) : (s.modDust c f).fn f' = s.fn f' := (rfl)
@[simp] theorem State.port_modDust (c : Nat) (f : DustSt → DustSt) (p' : Nat) : (s.modDust c f).port p' = s.port p' := (rfl)
@[simp] theorem State.sem_modDust (c : Nat) (f : DustSt → DustSt) (n' : Nat) : (s.modDust c f).sem n' = s.sem n' := (rfl)

/-! ## State.setFlag -/

@[simp] theorem State.setFlag_pending (c f : Nat) (v : Bool) : (s.setFlag c f v).pending = s.pending := (rfl)
@[simp] theorem State.setFlag_now (c f : Nat) (v : Bool) : (s.setFlag c f v).now = s.now := (rfl)
@[simp] theorem State.setFlag_free (c f : Nat) (v : Bool) : (s.setFlag c f v).free = s.free := (rfl)
@[simp] theorem State.setFlag_answer (c f : Nat) (v : Bool) : (s.setFlag c f v).answer = s.answer := (rfl)
@[simp] theorem State.setFlag_regs (c f : Nat) (v : Bool) : (s.setFlag c f v).regs = s.regs := (rfl)
@[simp] theorem State.setFlag_host (c f : Nat) (v : Bool) : (s.setFlag c f v).host = s.host := (rfl)
@[simp] theorem State.setFlag_ports (c f : Nat) (v : Bool) : (s.setFlag c f v).ports = s.ports := (rfl)
@[simp] theorem State.setFlag_fns (c f : Nat) (v : Bool) : (s.setFlag c f v).fns = s.fns := (rfl)
@[simp] theorem State.setFlag_aus (c f : Nat) (v : Bool) : (s.setFlag c f v).aus = s.aus := (rfl)
@[simp] theorem State.setFlag_mem (c f : Nat) (v : Bool) : (s.setFlag c f v).mem = s.mem := (rfl)
@[simp] theorem State.setFlag_links (c f : Nat) (v : Bool) : (s.setFlag c f v).links = s.links := (rfl)
@[simp] theorem State.setFlag_sems (c f : Nat) (v : Bool) : (s.setFlag c f v).sems = s.sems := (rfl)
@[simp] theorem State.setFlag_solver (c f : Nat) (v : Bool) : (s.setFlag c f v).solver = s.solver := (rfl)
@[simp] theorem State.setFlag_totals (c f : Nat) (v : Bool) : (s.setFlag c f v).totals = s.totals := (rfl)
@[simp] theorem State.setFlag_power (c f : Nat) (v : Bool) : (s.setFlag c f v).power = s.power := (rfl)
@[simp] theorem State.setFlag_sec (c f : Nat) (v : Bool) : (s.setFlag c f v).sec = s.sec := (rfl)
@[simp] theorem State.reg_setFlag (c f : Nat) (v : Bool) (k' : Nat) : (s.setFlag c f v).reg k' = s.reg k' := (rfl)
@[simp] theorem State.fld_setFlag (c f : Nat) (v : Bool) (k' h' l' : Nat) : (s.setFlag c f v).fld k' h' l' = s.fld k' h' l' := (rfl)
@[simp] theorem State.au_setFlag (c f : Nat) (v : Bool) (n' : Nat) : (s.setFlag c f v).au n' = s.au n' := (rfl)
@[simp] theorem State.fn_setFlag (c f : Nat) (v : Bool) (f' : Nat) : (s.setFlag c f v).fn f' = s.fn f' := (rfl)
@[simp] theorem State.port_setFlag (c f : Nat) (v : Bool) (p' : Nat) : (s.setFlag c f v).port p' = s.port p' := (rfl)
@[simp] theorem State.sem_setFlag (c f : Nat) (v : Bool) (n' : Nat) : (s.setFlag c f v).sem n' = s.sem n' := (rfl)

/-! ## State.setPhase -/

@[simp] theorem State.setPhase_pending (c k : Nat) (ph : CmdPhase) : (s.setPhase c k ph).pending = s.pending := (rfl)
@[simp] theorem State.setPhase_now (c k : Nat) (ph : CmdPhase) : (s.setPhase c k ph).now = s.now := (rfl)
@[simp] theorem State.setPhase_free (c k : Nat) (ph : CmdPhase) : (s.setPhase c k ph).free = s.free := (rfl)
@[simp] theorem State.setPhase_answer (c k : Nat) (ph : CmdPhase) : (s.setPhase c k ph).answer = s.answer := (rfl)
@[simp] theorem State.setPhase_regs (c k : Nat) (ph : CmdPhase) : (s.setPhase c k ph).regs = s.regs := (rfl)
@[simp] theorem State.setPhase_host (c k : Nat) (ph : CmdPhase) : (s.setPhase c k ph).host = s.host := (rfl)
@[simp] theorem State.setPhase_ports (c k : Nat) (ph : CmdPhase) : (s.setPhase c k ph).ports = s.ports := (rfl)
@[simp] theorem State.setPhase_fns (c k : Nat) (ph : CmdPhase) : (s.setPhase c k ph).fns = s.fns := (rfl)
@[simp] theorem State.setPhase_aus (c k : Nat) (ph : CmdPhase) : (s.setPhase c k ph).aus = s.aus := (rfl)
@[simp] theorem State.setPhase_mem (c k : Nat) (ph : CmdPhase) : (s.setPhase c k ph).mem = s.mem := (rfl)
@[simp] theorem State.setPhase_links (c k : Nat) (ph : CmdPhase) : (s.setPhase c k ph).links = s.links := (rfl)
@[simp] theorem State.setPhase_sems (c k : Nat) (ph : CmdPhase) : (s.setPhase c k ph).sems = s.sems := (rfl)
@[simp] theorem State.setPhase_solver (c k : Nat) (ph : CmdPhase) : (s.setPhase c k ph).solver = s.solver := (rfl)
@[simp] theorem State.setPhase_totals (c k : Nat) (ph : CmdPhase) : (s.setPhase c k ph).totals = s.totals := (rfl)
@[simp] theorem State.setPhase_power (c k : Nat) (ph : CmdPhase) : (s.setPhase c k ph).power = s.power := (rfl)
@[simp] theorem State.setPhase_sec (c k : Nat) (ph : CmdPhase) : (s.setPhase c k ph).sec = s.sec := (rfl)
@[simp] theorem State.reg_setPhase (c k : Nat) (ph : CmdPhase) (k' : Nat) : (s.setPhase c k ph).reg k' = s.reg k' := (rfl)
@[simp] theorem State.fld_setPhase (c k : Nat) (ph : CmdPhase) (k' h' l' : Nat) : (s.setPhase c k ph).fld k' h' l' = s.fld k' h' l' := (rfl)
@[simp] theorem State.au_setPhase (c k : Nat) (ph : CmdPhase) (n' : Nat) : (s.setPhase c k ph).au n' = s.au n' := (rfl)
@[simp] theorem State.fn_setPhase (c k : Nat) (ph : CmdPhase) (f' : Nat) : (s.setPhase c k ph).fn f' = s.fn f' := (rfl)
@[simp] theorem State.port_setPhase (c k : Nat) (ph : CmdPhase) (p' : Nat) : (s.setPhase c k ph).port p' = s.port p' := (rfl)
@[simp] theorem State.sem_setPhase (c k : Nat) (ph : CmdPhase) (n' : Nat) : (s.setPhase c k ph).sem n' = s.sem n' := (rfl)

/-! ## State.pick -/

@[simp] theorem State.pick_pending : s.pick.2.pending = s.pending := (rfl)
@[simp] theorem State.pick_now : s.pick.2.now = s.now := (rfl)
@[simp] theorem State.pick_answer : s.pick.2.answer = s.answer := (rfl)
@[simp] theorem State.pick_regs : s.pick.2.regs = s.regs := (rfl)
@[simp] theorem State.pick_host : s.pick.2.host = s.host := (rfl)
@[simp] theorem State.pick_ports : s.pick.2.ports = s.ports := (rfl)
@[simp] theorem State.pick_fns : s.pick.2.fns = s.fns := (rfl)
@[simp] theorem State.pick_ctxs : s.pick.2.ctxs = s.ctxs := (rfl)
@[simp] theorem State.pick_aus : s.pick.2.aus = s.aus := (rfl)
@[simp] theorem State.pick_mem : s.pick.2.mem = s.mem := (rfl)
@[simp] theorem State.pick_links : s.pick.2.links = s.links := (rfl)
@[simp] theorem State.pick_sems : s.pick.2.sems = s.sems := (rfl)
@[simp] theorem State.pick_solver : s.pick.2.solver = s.solver := (rfl)
@[simp] theorem State.pick_totals : s.pick.2.totals = s.totals := (rfl)
@[simp] theorem State.pick_power : s.pick.2.power = s.power := (rfl)
@[simp] theorem State.pick_sec : s.pick.2.sec = s.sec := (rfl)
@[simp] theorem State.reg_pick (k : Nat) : s.pick.2.reg k = s.reg k := (rfl)
@[simp] theorem State.fld_pick (k h l : Nat) : s.pick.2.fld k h l = s.fld k h l := (rfl)
@[simp] theorem State.ctx_pick (c : Nat) : s.pick.2.ctx c = s.ctx c := (rfl)
@[simp] theorem State.au_pick (n : Nat) : s.pick.2.au n = s.au n := (rfl)
@[simp] theorem State.fn_pick (f : Nat) : s.pick.2.fn f = s.fn f := (rfl)
@[simp] theorem State.port_pick (p : Nat) : s.pick.2.port p = s.port p := (rfl)
@[simp] theorem State.sem_pick (n : Nat) : s.pick.2.sem n = s.sem n := (rfl)
@[simp] theorem State.pick_free : s.pick.2.free = s.free + 1 := rfl

/-! ## State.hostWrite -/

@[simp] theorem State.hostWrite_pending (p a : Nat) (bs : List Byte) : (s.hostWrite p a bs).pending = s.pending := by unfold State.hostWrite; split <;> rfl
@[simp] theorem State.hostWrite_now (p a : Nat) (bs : List Byte) : (s.hostWrite p a bs).now = s.now := by unfold State.hostWrite; split <;> rfl
@[simp] theorem State.hostWrite_free (p a : Nat) (bs : List Byte) : (s.hostWrite p a bs).free = s.free := by unfold State.hostWrite; split <;> rfl
@[simp] theorem State.hostWrite_answer (p a : Nat) (bs : List Byte) : (s.hostWrite p a bs).answer = s.answer := by unfold State.hostWrite; split <;> rfl
@[simp] theorem State.hostWrite_regs (p a : Nat) (bs : List Byte) : (s.hostWrite p a bs).regs = s.regs := by unfold State.hostWrite; split <;> rfl
@[simp] theorem State.hostWrite_ports (p a : Nat) (bs : List Byte) : (s.hostWrite p a bs).ports = s.ports := by unfold State.hostWrite; split <;> rfl
@[simp] theorem State.hostWrite_fns (p a : Nat) (bs : List Byte) : (s.hostWrite p a bs).fns = s.fns := by unfold State.hostWrite; split <;> rfl
@[simp] theorem State.hostWrite_ctxs (p a : Nat) (bs : List Byte) : (s.hostWrite p a bs).ctxs = s.ctxs := by unfold State.hostWrite; split <;> rfl
@[simp] theorem State.hostWrite_aus (p a : Nat) (bs : List Byte) : (s.hostWrite p a bs).aus = s.aus := by unfold State.hostWrite; split <;> rfl
@[simp] theorem State.hostWrite_mem (p a : Nat) (bs : List Byte) : (s.hostWrite p a bs).mem = s.mem := by unfold State.hostWrite; split <;> rfl
@[simp] theorem State.hostWrite_links (p a : Nat) (bs : List Byte) : (s.hostWrite p a bs).links = s.links := by unfold State.hostWrite; split <;> rfl
@[simp] theorem State.hostWrite_sems (p a : Nat) (bs : List Byte) : (s.hostWrite p a bs).sems = s.sems := by unfold State.hostWrite; split <;> rfl
@[simp] theorem State.hostWrite_solver (p a : Nat) (bs : List Byte) : (s.hostWrite p a bs).solver = s.solver := by unfold State.hostWrite; split <;> rfl
@[simp] theorem State.hostWrite_totals (p a : Nat) (bs : List Byte) : (s.hostWrite p a bs).totals = s.totals := by unfold State.hostWrite; split <;> rfl
@[simp] theorem State.hostWrite_power (p a : Nat) (bs : List Byte) : (s.hostWrite p a bs).power = s.power := by unfold State.hostWrite; split <;> rfl
@[simp] theorem State.hostWrite_sec (p a : Nat) (bs : List Byte) : (s.hostWrite p a bs).sec = s.sec := by unfold State.hostWrite; split <;> rfl
@[simp] theorem State.fld_hostWrite (p a : Nat) (bs : List Byte) (k' h' l' : Nat) : (s.hostWrite p a bs).fld k' h' l' = s.fld k' h' l' := by unfold State.hostWrite; split <;> rfl
@[simp] theorem State.ctx_hostWrite (p a : Nat) (bs : List Byte) (c' : Nat) : (s.hostWrite p a bs).ctx c' = s.ctx c' := by unfold State.hostWrite; split <;> rfl
@[simp] theorem State.au_hostWrite (p a : Nat) (bs : List Byte) (n' : Nat) : (s.hostWrite p a bs).au n' = s.au n' := by unfold State.hostWrite; split <;> rfl
@[simp] theorem State.fn_hostWrite (p a : Nat) (bs : List Byte) (f' : Nat) : (s.hostWrite p a bs).fn f' = s.fn f' := by unfold State.hostWrite; split <;> rfl
@[simp] theorem State.port_hostWrite (p a : Nat) (bs : List Byte) (p' : Nat) : (s.hostWrite p a bs).port p' = s.port p' := by unfold State.hostWrite; split <;> rfl
@[simp] theorem State.sem_hostWrite (p a : Nat) (bs : List Byte) (n' : Nat) : (s.hostWrite p a bs).sem n' = s.sem n' := by unfold State.hostWrite; split <;> rfl

/-! ## What is read after it is written -/

@[simp] theorem State.ctx_putCtx (c : Nat) (x : Ctx) : (s.putCtx c x).ctx c = x := mget_mset_same _ _ _ _
theorem State.ctx_putCtx_ne (c d : Nat) (x : Ctx) (h : d ≠ c) : (s.putCtx c x).ctx d = s.ctx d := mget_mset_ne _ _ _ _ _ h
@[simp] theorem State.ctx_modCtx (c : Nat) (f : Ctx → Ctx) : (s.modCtx c f).ctx c = f (s.ctx c) := mget_mset_same _ _ _ _
theorem State.ctx_modCtx_ne (c d : Nat) (f : Ctx → Ctx) (h : d ≠ c) : (s.modCtx c f).ctx d = s.ctx d := mget_mset_ne _ _ _ _ _ h
@[simp] theorem State.au_putAu (n : Nat) (a : Au) : (s.putAu n a).au n = a := mget_mset_same _ _ _ _
theorem State.au_putAu_ne (n m : Nat) (a : Au) (h : m ≠ n) : (s.putAu n a).au m = s.au m := mget_mset_ne _ _ _ _ _ h
@[simp] theorem State.au_modAu (n : Nat) (f : Au → Au) : (s.modAu n f).au n = f (s.au n) := mget_mset_same _ _ _ _
theorem State.au_modAu_ne (n m : Nat) (f : Au → Au) (h : m ≠ n) : (s.modAu n f).au m = s.au m := mget_mset_ne _ _ _ _ _ h
@[simp] theorem State.fn_modFn (i : Nat) (f : Fn → Fn) : (s.modFn i f).fn i = f (s.fn i) := mget_mset_same _ _ _ _
theorem State.fn_modFn_ne (i j : Nat) (f : Fn → Fn) (h : j ≠ i) : (s.modFn i f).fn j = s.fn j := mget_mset_ne _ _ _ _ _ h
@[simp] theorem State.port_modPort (p : Nat) (f : HostPort → HostPort) : (s.modPort p f).port p = f (s.port p) := mget_mset_same _ _ _ _
theorem State.port_modPort_ne (p q : Nat) (f : HostPort → HostPort) (h : q ≠ p) : (s.modPort p f).port q = s.port q :=
  mget_mset_ne _ _ _ _ _ h
@[simp] theorem State.sem_putSem (n : Nat) (x : Sem) : (s.putSem n x).sem n = x := mget_mset_same _ _ _ _
theorem State.sem_putSem_ne (n m : Nat) (x : Sem) (h : m ≠ n) : (s.putSem n x).sem m = s.sem m := mget_mset_ne _ _ _ _ _ h

/-! ## Registers after they are written -/

theorem State.fld_eq (k hi lo : Nat) : s.fld k hi lo = bits (s.reg k) hi lo := rfl
theorem State.fld_setFld (k hi lo v : Nat) (h : hi < 32) : (s.setFld k hi lo v).fld k hi lo = v % 2 ^ (hi + 1 - lo) :=
  rgFld_rgSet_same _ _ _ _ _ h
theorem State.fld_setFld_ne (k j hi lo hi' lo' v : Nat) (h : j ≠ k) : (s.setFld k hi lo v).fld j hi' lo' = s.fld j hi' lo' :=
  rgFld_rgSet_ne _ _ _ _ _ _ _ _ h
theorem State.fld_setFld_above (k hi lo hi' lo' v : Nat) (hl : lo ≤ hi) (h : hi < lo') (h' : hi' < 32) :
    (s.setFld k hi lo v).fld k hi' lo' = s.fld k hi' lo' := rgFld_rgSet_above _ _ _ _ _ _ _ hl h h'
theorem State.fld_setFld_below (k hi lo hi' lo' v : Nat) (h : hi' < lo) (h' : hi' < 32) :
    (s.setFld k hi lo v).fld k hi' lo' = s.fld k hi' lo' := rgFld_rgSet_below _ _ _ _ _ _ _ h h'
theorem State.reg_setFld_ne (k j hi lo v : Nat) (h : j ≠ k) : (s.setFld k hi lo v).reg j = s.reg j :=
  congrArg BitVec.toNat (rgRead_rgSet_ne _ _ _ _ _ _ h)
theorem State.reg_setReg (k v : Nat) : (s.setReg k v).reg k = v % 2 ^ 32 := by
  rw [State.reg, State.setReg, rgRead_rgWrite_same, BitVec.toNat_ofNat]
theorem State.reg_setReg_ne (k j v : Nat) (h : j ≠ k) : (s.setReg k v).reg j = s.reg j :=
  congrArg BitVec.toNat (rgRead_rgWrite_ne _ _ _ _ h)
theorem State.reg_softReg_ne (k j v : Nat) (h : j ≠ k) : (s.softReg k v).reg j = s.reg j :=
  congrArg BitVec.toNat (rgRead_rgWrite_ne _ _ _ _ h)
theorem State.reg_of_regs {s t : State} (h : t.regs = s.regs) (k : Nat) : t.reg k = s.reg k := by unfold State.reg; rw [h]
theorem State.reg_count_ne (k j hi lo n : Nat) (h : j ≠ k) : (s.count k hi lo n).reg j = s.reg j := s.reg_setFld_ne _ _ _ _ _ h

theorem mfind_mdrop_in {α : Type} (p : Nat → Bool) (m : Map α) (k : Nat) (h : p k = true) : mfind (mdrop p m) k = none := by
  unfold mdrop
  induction m with
  | nil => rfl
  | cons e m ih =>
    obtain ⟨k', v⟩ := e
    rw [List.filter_cons]
    split
    · rename_i hh
      rw [mfind]
      split
      · rename_i e; subst e; simp [h] at hh
      · exact ih
    · exact ih

theorem mfind_mdrop_out {α : Type} (p : Nat → Bool) (m : Map α) (k : Nat) (h : p k = false) : mfind (mdrop p m) k = mfind m k := by
  unfold mdrop
  induction m with
  | nil => rfl
  | cons e m ih =>
    obtain ⟨k', v⟩ := e
    rw [List.filter_cons]
    split
    · rw [mfind, mfind]
      split
      · rfl
      · exact ih
    · rename_i hh
      rw [mfind]
      split
      · rename_i e; subst e; simp [h] at hh
      · exact ih

theorem State.reg_dropRegs_in (a b k : Nat) (h : a ≤ k) (h' : k < b) : (s.dropRegs a b).reg k = (regReset k).toNat := by
  unfold State.reg State.dropRegs
  dsimp only
  rw [rgRead, mget, mfind_mdrop_in _ _ _ (by simp only [h, h']; rfl)]
  rfl

theorem State.reg_dropRegs_out (a b k : Nat) (h : k < a ∨ b ≤ k) : (s.dropRegs a b).reg k = s.reg k := by
  unfold State.reg State.dropRegs
  dsimp only
  rw [rgRead, mget, mfind_mdrop_out _ _ _ (by simp; omega)]
  rfl

theorem State.reg_flagCount_ne (a b k hi lo j : Nat) (h : j ≠ a) (h' : j ≠ k) : (s.flagCount a b k hi lo).reg j = s.reg j :=
  (State.reg_count_ne _ _ _ _ _ _ h').trans (State.reg_setFld_ne _ _ _ _ _ _ h)

/-- A register that is the same in two states has the same fields. -/
theorem State.fld_of_reg {s t : State} {k : Nat} (h : t.reg k = s.reg k) (hi lo : Nat) : t.fld k hi lo = s.fld k hi lo := by
  rw [State.fld_eq, State.fld_eq, h]

/-- A counter field after it has counted (R670). -/
theorem State.fld_count (k hi lo n : Nat) (h : hi < 32) :
    (s.count k hi lo n).fld k hi lo = satAdd (2 ^ (hi + 1 - lo) - 1) (s.fld k hi lo) n := by
  have hp : 0 < 2 ^ (hi + 1 - lo) := Nat.two_pow_pos _
  rw [State.count, State.fld_setFld _ _ _ _ _ h]
  refine Nat.mod_eq_of_lt ?_
  unfold satAdd
  omega

/-! ## Events leave alone all registers but their own -/

/-- Not one of the registers that an event, or a vector that fires, changes: EVT_TAIL, EVT_LOST, the pending bits of MSI-X. -/
def NotEvt (k : Nat) : Prop := ∀ f v, k ≠ EVT_TAIL f ∧ k ≠ EVT_LOST f ∧ k ≠ pbaKey f v

theorem NotEvt.low {k : Nat} (h : k < 0x300000) : NotEvt k := by
  intro f v
  refine ⟨?_, ?_, ?_⟩
  · unfold EVT_TAIL; omega
  · unfold EVT_LOST; omega
  · unfold pbaKey privBase; omega

theorem NotEvt.mid {k : Nat} (h : k < 0x1000000) (h1 : k % 256 ≠ 0x10) (h2 : k % 256 ≠ 0x14) : NotEvt k := by
  intro f v
  refine ⟨?_, ?_, ?_⟩
  · unfold EVT_TAIL; omega
  · unfold EVT_LOST; omega
  · unfold pbaKey privBase; omega

theorem NotEvt.two {k : Nat} (h : k < 0x1000000) (h1 : 0x400000 ≤ k) (f : Nat) (hf : f < 32) (v : Nat) :
    k ≠ EVT_TAIL f ∧ k ≠ EVT_LOST f ∧ k ≠ pbaKey f v := by
  refine ⟨?_, ?_, ?_⟩
  · unfold EVT_TAIL; omega
  · unfold EVT_LOST; omega
  · unfold pbaKey privBase; omega

variable {s}

theorem State.reg_hostWrite (p a : Nat) (bs : List Byte) (k : Nat) : (s.hostWrite p a bs).reg k = s.reg k := by
  unfold State.reg; rw [State.hostWrite_regs]

theorem State.reg_fire {f v k : Nat} (h : k ≠ pbaKey f v) : (s.fire f v).reg k = s.reg k := by
  unfold State.fire
  split
  · split
    · exact s.reg_setFld_ne _ _ _ _ _ h
    · exact State.reg_hostWrite _ _ _ _
  · rfl

theorem State.reg_evtPut {f code x k : Nat} {pay : List Byte} (h : k ≠ EVT_TAIL f ∧ k ≠ EVT_LOST f ∧ k ≠ pbaKey f 0) :
    (s.evtPut f code x pay).reg k = s.reg k := by
  unfold State.evtPut
  dsimp only
  split
  · rw [State.reg_fire h.2.2, State.reg_setFld_ne _ _ _ _ _ _ h.1, State.reg_hostWrite]
  · rw [State.reg_setFld_ne _ _ _ _ _ _ h.1, State.reg_hostWrite]

theorem State.reg_evtSend {f code x k : Nat} {pay : List Byte} (h : k ≠ EVT_TAIL f ∧ k ≠ EVT_LOST f ∧ k ≠ pbaKey f 0) :
    (s.evtSend f code x pay).reg k = s.reg k := by
  unfold State.evtSend
  split
  · exact State.reg_evtPut h
  · exact s.reg_count_ne _ _ _ _ _ h.2.1

theorem State.reg_raiseF {code k : Nat} {r : Route} {pay : Nat → List (Nat × Nat × Nat)} (h : NotEvt k) :
    (s.raiseF code r pay).reg k = s.reg k := by
  unfold State.raiseF
  split
  · split
    · exact State.reg_evtSend (h _ _)
    · rw [State.reg_evtSend (h _ _), State.reg_evtSend (h _ _)]
  · exact State.reg_evtSend (h _ _)
  · rw [State.reg_evtSend (h _ _), State.reg_evtSend (h _ _)]

/-- An event leaves every register alone that is none of its own. -/
theorem State.reg_raise {code k : Nat} {r : Route} {pay : List (Nat × Nat × Nat)} (h : NotEvt k) : (s.raise code r pay).reg k = s.reg k :=
  State.reg_raiseF h

/-- An event of both PFs leaves every register alone from 0x400000 on, below the functions' own. -/
theorem State.reg_raise_all {code k : Nat} {pay : List (Nat × Nat × Nat)} (h : k < 0x1000000) (h1 : 0x400000 ≤ k) :
    (s.raise code .all pay).reg k = s.reg k := by
  unfold State.raise State.raiseF
  rw [State.reg_evtSend (NotEvt.two h h1 16 (by omega) 0), State.reg_evtSend (NotEvt.two h h1 0 (by omega) 0)]

end Sys2Proof.Machine
end

