-- ==== Sys2Proof/Laws/Shared.lean ====
section
/-!
SUPPORT. What the operations that many meanings share can do: interrupts, events, completion entries, a context's entering a state.
-/
namespace Sys2Proof.Machine

variable {s : State}

/-! ## Interrupts and events -/

theorem State.hostWrite_shape (s : State) (p a : Nat) (bs : List Byte) : ∃ h, s.hostWrite p a bs = { s with host := h } := by
  unfold State.hostWrite
  split
  · exact ⟨_, rfl⟩
  · exact ⟨s.host, rfl⟩

/-- A vector that fires changes host memory and pending bits alone. -/
theorem State.fire_shape (s : State) (f v : Nat) : ∃ h r, s.fire f v = { s with host := h, regs := r } := by
  unfold State.fire
  split
  · split
    · exact ⟨s.host, _, rfl⟩
    · obtain ⟨h, e⟩ := State.hostWrite_shape s (fnPort f) (s.reg64 (msixKey f v 0) (msixKey f v 1)) (natLe 4 (s.reg (msixKey f v 2)))
      exact ⟨h, s.regs, e⟩
  · exact ⟨s.host, s.regs, rfl⟩

theorem State.evtPut_shape (s : State) (f code x : Nat) (pay : List Byte) : ∃ h r, s.evtPut f code x pay = { s with host := h, regs := r } := by
  unfold State.evtPut
  extract_lets tail size base s1 s2
  obtain ⟨h, e⟩ := State.hostWrite_shape s (fnPort f) (base + 32 * (tail % size)) (evtRecord code x s.now (phaseOf tail size) pay)
  have e2 : s2 = ({ s with host := h } : State).setFld (EVT_TAIL f) 15 0 ((tail + 1) % 65536) := by rw [← e]
  split
  · obtain ⟨h', r', e'⟩ := State.fire_shape s2 f 0
    exact ⟨h', r', by rw [e', e2]; rfl⟩
  · exact ⟨_, _, e2⟩

theorem State.evtSend_shape (s : State) (f code x : Nat) (pay : List Byte) :
    ∃ h r n t, s.evtSend f code x pay = { s with host := h, regs := r, fns := n, totals := t } := by
  unfold State.evtSend
  split
  · obtain ⟨h, r, e⟩ := State.evtPut_shape s f code x pay
    exact ⟨h, r, s.fns, s.totals, e⟩
  · exact ⟨s.host, _, _, _, rfl⟩

/-- An event changes host memory, registers, what a function keeps of its event ring, and the totals alone. -/
theorem State.raiseF_shape (s : State) (code : Nat) (r : Route) (pay : Nat → List (Nat × Nat × Nat)) :
    ∃ h r' n t, s.raiseF code r pay = { s with host := h, regs := r', fns := n, totals := t } := by
  have two : ∀ a b : List Byte, ∀ x y : Nat, ∃ h r' n t,
      (s.evtSend 0 code x a).evtSend 16 code y b = { s with host := h, regs := r', fns := n, totals := t } := by
    intro a b x y
    obtain ⟨h, r, n, t, e⟩ := State.evtSend_shape s 0 code x a
    obtain ⟨h', r', n', t', e'⟩ := State.evtSend_shape (s.evtSend 0 code x a) 16 code y b
    exact ⟨h', r', n', t', by rw [e', e]⟩
  unfold State.raiseF
  split
  · split
    · exact State.evtSend_shape _ _ _ _ _
    · exact two _ _ _ _
  · exact State.evtSend_shape _ _ _ _ _
  · exact two _ _ _ _

theorem State.raise_shape (s : State) (code : Nat) (r : Route) (pay : List (Nat × Nat × Nat)) :
    ∃ h r' n t, s.raise code r pay = { s with host := h, regs := r', fns := n, totals := t } := State.raiseF_shape _ _ _ _

@[simp] theorem State.fire_pending (f v : Nat) : (s.fire f v).pending = s.pending := by
  obtain ⟨_, _, e⟩ := s.fire_shape f v; rw [e]
@[simp] theorem State.fire_now (f v : Nat) : (s.fire f v).now = s.now := by
  obtain ⟨_, _, e⟩ := s.fire_shape f v; rw [e]
@[simp] theorem State.fire_free (f v : Nat) : (s.fire f v).free = s.free := by
  obtain ⟨_, _, e⟩ := s.fire_shape f v; rw [e]
@[simp] theorem State.fire_answer (f v : Nat) : (s.fire f v).answer = s.answer := by
  obtain ⟨_, _, e⟩ := s.fire_shape f v; rw [e]
@[simp] theorem State.fire_ports (f v : Nat) : (s.fire f v).ports = s.ports := by
  obtain ⟨_, _, e⟩ := s.fire_shape f v; rw [e]
@[simp] theorem State.fire_fns (f v : Nat) : (s.fire f v).fns = s.fns := by
  obtain ⟨_, _, e⟩ := s.fire_shape f v; rw [e]
@[simp] theorem State.fire_ctxs (f v : Nat) : (s.fire f v).ctxs = s.ctxs := by
  obtain ⟨_, _, e⟩ := s.fire_shape f v; rw [e]
@[simp] theorem State.fire_aus (f v : Nat) : (s.fire f v).aus = s.aus := by
  obtain ⟨_, _, e⟩ := s.fire_shape f v; rw [e]
@[simp] theorem State.fire_mem (f v : Nat) : (s.fire f v).mem = s.mem := by
  obtain ⟨_, _, e⟩ := s.fire_shape f v; rw [e]
@[simp] theorem State.fire_links (f v : Nat) : (s.fire f v).links = s.links := by
  obtain ⟨_, _, e⟩ := s.fire_shape f v; rw [e]
@[simp] theorem State.fire_sems (f v : Nat) : (s.fire f v).sems = s.sems := by
  obtain ⟨_, _, e⟩ := s.fire_shape f v; rw [e]
@[simp] theorem State.fire_solver (f v : Nat) : (s.fire f v).solver = s.solver := by
  obtain ⟨_, _, e⟩ := s.fire_shape f v; rw [e]
@[simp] theorem State.fire_totals (f v : Nat) : (s.fire f v).totals = s.totals := by
  obtain ⟨_, _, e⟩ := s.fire_shape f v; rw [e]
@[simp] theorem State.fire_power (f v : Nat) : (s.fire f v).power = s.power := by
  obtain ⟨_, _, e⟩ := s.fire_shape f v; rw [e]
@[simp] theorem State.fire_sec (f v : Nat) : (s.fire f v).sec = s.sec := by
  obtain ⟨_, _, e⟩ := s.fire_shape f v; rw [e]

@[simp] theorem State.evtPut_pending (f code x : Nat) (pay : List Byte) : (s.evtPut f code x pay).pending = s.pending := by
  obtain ⟨_, _, e⟩ := s.evtPut_shape f code x pay; rw [e]
@[simp] theorem State.evtPut_now (f code x : Nat) (pay : List Byte) : (s.evtPut f code x pay).now = s.now := by
  obtain ⟨_, _, e⟩ := s.evtPut_shape f code x pay; rw [e]
@[simp] theorem State.evtPut_free (f code x : Nat) (pay : List Byte) : (s.evtPut f code x pay).free = s.free := by
  obtain ⟨_, _, e⟩ := s.evtPut_shape f code x pay; rw [e]
@[simp] theorem State.evtPut_answer (f code x : Nat) (pay : List Byte) : (s.evtPut f code x pay).answer = s.answer := by
  obtain ⟨_, _, e⟩ := s.evtPut_shape f code x pay; rw [e]
@[simp] theorem State.evtPut_ports (f code x : Nat) (pay : List Byte) : (s.evtPut f code x pay).ports = s.ports := by
  obtain ⟨_, _, e⟩ := s.evtPut_shape f code x pay; rw [e]
@[simp] theorem State.evtPut_fns (f code x : Nat) (pay : List Byte) : (s.evtPut f code x pay).fns = s.fns := by
  obtain ⟨_, _, e⟩ := s.evtPut_shape f code x pay; rw [e]
@[simp] theorem State.evtPut_ctxs (f code x : Nat) (pay : List Byte) : (s.evtPut f code x pay).ctxs = s.ctxs := by
  obtain ⟨_, _, e⟩ := s.evtPut_shape f code x pay; rw [e]
@[simp] theorem State.evtPut_aus (f code x : Nat) (pay : List Byte) : (s.evtPut f code x pay).aus = s.aus := by
  obtain ⟨_, _, e⟩ := s.evtPut_shape f code x pay; rw [e]
@[simp] theorem State.evtPut_mem (f code x : Nat) (pay : List Byte) : (s.evtPut f code x pay).mem = s.mem := by
  obtain ⟨_, _, e⟩ := s.evtPut_shape f code x pay; rw [e]
@[simp] theorem State.evtPut_links (f code x : Nat) (pay : List Byte) : (s.evtPut f code x pay).links = s.links := by
  obtain ⟨_, _, e⟩ := s.evtPut_shape f code x pay; rw [e]
@[simp] theorem State.evtPut_sems (f code x : Nat) (pay : List Byte) : (s.evtPut f code x pay).sems = s.sems := by
  obtain ⟨_, _, e⟩ := s.evtPut_shape f code x pay; rw [e]
@[simp] theorem State.evtPut_solver (f code x : Nat) (pay : List Byte) : (s.evtPut f code x pay).solver = s.solver := by
  obtain ⟨_, _, e⟩ := s.evtPut_shape f code x pay; rw [e]
@[simp] theorem State.evtPut_totals (f code x : Nat) (pay : List Byte) : (s.evtPut f code x pay).totals = s.totals := by
  obtain ⟨_, _, e⟩ := s.evtPut_shape f code x pay; rw [e]
@[simp] theorem State.evtPut_power (f code x : Nat) (pay : List Byte) : (s.evtPut f code x pay).power = s.power := by
  obtain ⟨_, _, e⟩ := s.evtPut_shape f code x pay; rw [e]
@[simp] theorem State.evtPut_sec (f code x : Nat) (pay : List Byte) : (s.evtPut f code x pay).sec = s.sec := by
  obtain ⟨_, _, e⟩ := s.evtPut_shape f code x pay; rw [e]

@[simp] theorem State.evtSend_pending (f code x : Nat) (pay : List Byte) : (s.evtSend f code x pay).pending = s.pending := by
  obtain ⟨_, _, _, _, e⟩ := s.evtSend_shape f code x pay; rw [e]
@[simp] theorem State.evtSend_now (f code x : Nat) (pay : List Byte) : (s.evtSend f code x pay).now = s.now := by
  obtain ⟨_, _, _, _, e⟩ := s.evtSend_shape f code x pay; rw [e]
@[simp] theorem State.evtSend_free (f code x : Nat) (pay : List Byte) : (s.evtSend f code x pay).free = s.free := by
  obtain ⟨_, _, _, _, e⟩ := s.evtSend_shape f code x pay; rw [e]
@[simp] theorem State.evtSend_answer (f code x : Nat) (pay : List Byte) : (s.evtSend f code x pay).answer = s.answer := by
  obtain ⟨_, _, _, _, e⟩ := s.evtSend_shape f code x pay; rw [e]
@[simp] theorem State.evtSend_ports (f code x : Nat) (pay : List Byte) : (s.evtSend f code x pay).ports = s.ports := by
  obtain ⟨_, _, _, _, e⟩ := s.evtSend_shape f code x pay; rw [e]
@[simp] theorem State.evtSend_ctxs (f code x : Nat) (pay : List Byte) : (s.evtSend f code x pay).ctxs = s.ctxs := by
  obtain ⟨_, _, _, _, e⟩ := s.evtSend_shape f code x pay; rw [e]
@[simp] theorem State.evtSend_aus (f code x : Nat) (pay : List Byte) : (s.evtSend f code x pay).aus = s.aus := by
  obtain ⟨_, _, _, _, e⟩ := s.evtSend_shape f code x pay; rw [e]
@[simp] theorem State.evtSend_mem (f code x : Nat) (pay : List Byte) : (s.evtSend f code x pay).mem = s.mem := by
  obtain ⟨_, _, _, _, e⟩ := s.evtSend_shape f code x pay; rw [e]
@[simp] theorem State.evtSend_links (f code x : Nat) (pay : List Byte) : (s.evtSend f code x pay).links = s.links := by
  obtain ⟨_, _, _, _, e⟩ := s.evtSend_shape f code x pay; rw [e]
@[simp] theorem State.evtSend_sems (f code x : Nat) (pay : List Byte) : (s.evtSend f code x pay).sems = s.sems := by
  obtain ⟨_, _, _, _, e⟩ := s.evtSend_shape f code x pay; rw [e]
@[simp] theorem State.evtSend_solver (f code x : Nat) (pay : List Byte) : (s.evtSend f code x pay).solver = s.solver := by
  obtain ⟨_, _, _, _, e⟩ := s.evtSend_shape f code x pay; rw [e]
@[simp] theorem State.evtSend_power (f code x : Nat) (pay : List Byte) : (s.evtSend f code x pay).power = s.power := by
  obtain ⟨_, _, _, _, e⟩ := s.evtSend_shape f code x pay; rw [e]
@[simp] theorem State.evtSend_sec (f code x : Nat) (pay : List Byte) : (s.evtSend f code x pay).sec = s.sec := by
  obtain ⟨_, _, _, _, e⟩ := s.evtSend_shape f code x pay; rw [e]

@[simp] theorem State.raiseF_pending (code : Nat) (r : Route) (pay : Nat → List (Nat × Nat × Nat)) : (s.raiseF code r pay).pending = s.pending := by
  obtain ⟨_, _, _, _, e⟩ := s.raiseF_shape code r pay; rw [e]
@[simp] theorem State.raiseF_now (code : Nat) (r : Route) (pay : Nat → List (Nat × Nat × Nat)) : (s.raiseF code r pay).now = s.now := by
  obtain ⟨_, _, _, _, e⟩ := s.raiseF_shape code r pay; rw [e]
@[simp] theorem State.raiseF_free (code : Nat) (r : Route) (pay : Nat → List (Nat × Nat × Nat)) : (s.raiseF code r pay).free = s.free := by
  obtain ⟨_, _, _, _, e⟩ := s.raiseF_shape code r pay; rw [e]
@[simp] theorem State.raiseF_answer (code : Nat) (r : Route) (pay : Nat → List (Nat × Nat × Nat)) : (s.raiseF code r pay).answer = s.answer := by
  obtain ⟨_, _, _, _, e⟩ := s.raiseF_shape code r pay; rw [e]
@[simp] theorem State.raiseF_ports (code : Nat) (r : Route) (pay : Nat → List (Nat × Nat × Nat)) : (s.raiseF code r pay).ports = s.ports := by
  obtain ⟨_, _, _, _, e⟩ := s.raiseF_shape code r pay; rw [e]
@[simp] theorem State.raiseF_ctxs (code : Nat) (r : Route) (pay : Nat → List (Nat × Nat × Nat)) : (s.raiseF code r pay).ctxs = s.ctxs := by
  obtain ⟨_, _, _, _, e⟩ := s.raiseF_shape code r pay; rw [e]
@[simp] theorem State.raiseF_aus (code : Nat) (r : Route) (pay : Nat → List (Nat × Nat × Nat)) : (s.raiseF code r pay).aus = s.aus := by
  obtain ⟨_, _, _, _, e⟩ := s.raiseF_shape code r pay; rw [e]
@[simp] theorem State.raiseF_mem (code : Nat) (r : Route) (pay : Nat → List (Nat × Nat × Nat)) : (s.raiseF code r pay).mem = s.mem := by
  obtain ⟨_, _, _, _, e⟩ := s.raiseF_shape code r pay; rw [e]
@[simp] theorem State.raiseF_links (code : Nat) (r : Route) (pay : Nat → List (Nat × Nat × Nat)) : (s.raiseF code r pay).links = s.links := by
  obtain ⟨_, _, _, _, e⟩ := s.raiseF_shape code r pay; rw [e]
@[simp] theorem State.raiseF_sems (code : Nat) (r : Route) (pay : Nat → List (Nat × Nat × Nat)) : (s.raiseF code r pay).sems = s.sems := by
  obtain ⟨_, _, _, _, e⟩ := s.raiseF_shape code r pay; rw [e]
@[simp] theorem State.raiseF_solver (code : Nat) (r : Route) (pay : Nat → List (Nat × Nat × Nat)) : (s.raiseF code r pay).solver = s.solver := by
  obtain ⟨_, _, _, _, e⟩ := s.raiseF_shape code r pay; rw [e]
@[simp] theorem State.raiseF_power (code : Nat) (r : Route) (pay : Nat → List (Nat × Nat × Nat)) : (s.raiseF code r pay).power = s.power := by
  obtain ⟨_, _, _, _, e⟩ := s.raiseF_shape code r pay; rw [e]
@[simp] theorem State.raiseF_sec (code : Nat) (r : Route) (pay : Nat → List (Nat × Nat × Nat)) : (s.raiseF code r pay).sec = s.sec := by
  obtain ⟨_, _, _, _, e⟩ := s.raiseF_shape code r pay; rw [e]

@[simp] theorem State.raise_pending (code : Nat) (r : Route) (pay : List (Nat × Nat × Nat)) : (s.raise code r pay).pending = s.pending := by
  obtain ⟨_, _, _, _, e⟩ := s.raise_shape code r pay; rw [e]
@[simp] theorem State.raise_now (code : Nat) (r : Route) (pay : List (Nat × Nat × Nat)) : (s.raise code r pay).now = s.now := by
  obtain ⟨_, _, _, _, e⟩ := s.raise_shape code r pay; rw [e]
@[simp] theorem State.raise_free (code : Nat) (r : Route) (pay : List (Nat × Nat × Nat)) : (s.raise code r pay).free = s.free := by
  obtain ⟨_, _, _, _, e⟩ := s.raise_shape code r pay; rw [e]
@[simp] theorem State.raise_answer (code : Nat) (r : Route) (pay : List (Nat × Nat × Nat)) : (s.raise code r pay).answer = s.answer := by
  obtain ⟨_, _, _, _, e⟩ := s.raise_shape code r pay; rw [e]
@[simp] theorem State.raise_ports (code : Nat) (r : Route) (pay : List (Nat × Nat × Nat)) : (s.raise code r pay).ports = s.ports := by
  obtain ⟨_, _, _, _, e⟩ := s.raise_shape code r pay; rw [e]
@[simp] theorem State.raise_ctxs (code : Nat) (r : Route) (pay : List (Nat × Nat × Nat)) : (s.raise code r pay).ctxs = s.ctxs := by
  obtain ⟨_, _, _, _, e⟩ := s.raise_shape code r pay; rw [e]
@[simp] theorem State.raise_aus (code : Nat) (r : Route) (pay : List (Nat × Nat × Nat)) : (s.raise code r pay).aus = s.aus := by
  obtain ⟨_, _, _, _, e⟩ := s.raise_shape code r pay; rw [e]
@[simp] theorem State.raise_mem (code : Nat) (r : Route) (pay : List (Nat × Nat × Nat)) : (s.raise code r pay).mem = s.mem := by
  obtain ⟨_, _, _, _, e⟩ := s.raise_shape code r pay; rw [e]
@[simp] theorem State.raise_links (code : Nat) (r : Route) (pay : List (Nat × Nat × Nat)) : (s.raise code r pay).links = s.links := by
  obtain ⟨_, _, _, _, e⟩ := s.raise_shape code r pay; rw [e]
@[simp] theorem State.raise_sems (code : Nat) (r : Route) (pay : List (Nat × Nat × Nat)) : (s.raise code r pay).sems = s.sems := by
  obtain ⟨_, _, _, _, e⟩ := s.raise_shape code r pay; rw [e]
@[simp] theorem State.raise_solver (code : Nat) (r : Route) (pay : List (Nat × Nat × Nat)) : (s.raise code r pay).solver = s.solver := by
  obtain ⟨_, _, _, _, e⟩ := s.raise_shape code r pay; rw [e]
@[simp] theorem State.raise_power (code : Nat) (r : Route) (pay : List (Nat × Nat × Nat)) : (s.raise code r pay).power = s.power := by
  obtain ⟨_, _, _, _, e⟩ := s.raise_shape code r pay; rw [e]
@[simp] theorem State.raise_sec (code : Nat) (r : Route) (pay : List (Nat × Nat × Nat)) : (s.raise code r pay).sec = s.sec := by
  obtain ⟨_, _, _, _, e⟩ := s.raise_shape code r pay; rw [e]

@[simp] theorem State.ctx_fire (f v : Nat) (i : Nat) : (s.fire f v).ctx i = s.ctx i := by unfold State.ctx; rw [State.fire_ctxs]
@[simp] theorem State.au_fire (f v : Nat) (i : Nat) : (s.fire f v).au i = s.au i := by unfold State.au; rw [State.fire_aus]
@[simp] theorem State.fn_fire (f v : Nat) (i : Nat) : (s.fire f v).fn i = s.fn i := by unfold State.fn; rw [State.fire_fns]
@[simp] theorem State.port_fire (f v : Nat) (i : Nat) : (s.fire f v).port i = s.port i := by unfold State.port; rw [State.fire_ports]
@[simp] theorem State.sem_fire (f v : Nat) (i : Nat) : (s.fire f v).sem i = s.sem i := by unfold State.sem; rw [State.fire_sems]
@[simp] theorem State.ctx_evtPut (f code x : Nat) (pay : List Byte) (i : Nat) : (s.evtPut f code x pay).ctx i = s.ctx i := by unfold State.ctx; rw [State.evtPut_ctxs]
@[simp] theorem State.au_evtPut (f code x : Nat) (pay : List Byte) (i : Nat) : (s.evtPut f code x pay).au i = s.au i := by unfold State.au; rw [State.evtPut_aus]
@[simp] theorem State.fn_evtPut (f code x : Nat) (pay : List Byte) (i : Nat) : (s.evtPut f code x pay).fn i = s.fn i := by unfold State.fn; rw [State.evtPut_fns]
@[simp] theorem State.port_evtPut (f code x : Nat) (pay : List Byte) (i : Nat) : (s.evtPut f code x pay).port i = s.port i := by unfold State.port; rw [State.evtPut_ports]
@[simp] theorem State.sem_evtPut (f code x : Nat) (pay : List Byte) (i : Nat) : (s.evtPut f code x pay).sem i = s.sem i := by unfold State.sem; rw [State.evtPut_sems]
@[simp] theorem State.ctx_evtSend (f code x : Nat) (pay : List Byte) (i : Nat) : (s.evtSend f code x pay).ctx i = s.ctx i := by unfold State.ctx; rw [State.evtSend_ctxs]
@[simp] theorem State.au_evtSend (f code x : Nat) (pay : List Byte) (i : Nat) : (s.evtSend f code x pay).au i = s.au i := by unfold State.au; rw [State.evtSend_aus]
@[simp] theorem State.port_evtSend (f code x : Nat) (pay : List Byte) (i : Nat) : (s.evtSend f code x pay).port i = s.port i := by unfold State.port; rw [State.evtSend_ports]
@[simp] theorem State.sem_evtSend (f code x : Nat) (pay : List Byte) (i : Nat) : (s.evtSend f code x pay).sem i = s.sem i := by unfold State.sem; rw [State.evtSend_sems]
@[simp] theorem State.ctx_raiseF (code : Nat) (r : Route) (pay : Nat → List (Nat × Nat × Nat)) (i : Nat) : (s.raiseF code r pay).ctx i = s.ctx i := by unfold State.ctx; rw [State.raiseF_ctxs]
@[simp] theorem State.au_raiseF (code : Nat) (r : Route) (pay : Nat → List (Nat × Nat × Nat)) (i : Nat) : (s.raiseF code r pay).au i = s.au i := by unfold State.au; rw [State.raiseF_aus]
@[simp] theorem State.port_raiseF (code : Nat) (r : Route) (pay : Nat → List (Nat × Nat × Nat)) (i : Nat) : (s.raiseF code r pay).port i = s.port i := by unfold State.port; rw [State.raiseF_ports]
@[simp] theorem State.sem_raiseF (code : Nat) (r : Route) (pay : Nat → List (Nat × Nat × Nat)) (i : Nat) : (s.raiseF code r pay).sem i = s.sem i := by unfold State.sem; rw [State.raiseF_sems]
@[simp] theorem State.ctx_raise (code : Nat) (r : Route) (pay : List (Nat × Nat × Nat)) (i : Nat) : (s.raise code r pay).ctx i = s.ctx i := by unfold State.ctx; rw [State.raise_ctxs]
@[simp] theorem State.au_raise (code : Nat) (r : Route) (pay : List (Nat × Nat × Nat)) (i : Nat) : (s.raise code r pay).au i = s.au i := by unfold State.au; rw [State.raise_aus]
@[simp] theorem State.port_raise (code : Nat) (r : Route) (pay : List (Nat × Nat × Nat)) (i : Nat) : (s.raise code r pay).port i = s.port i := by unfold State.port; rw [State.raise_ports]
@[simp] theorem State.sem_raise (code : Nat) (r : Route) (pay : List (Nat × Nat × Nat)) (i : Nat) : (s.raise code r pay).sem i = s.sem i := by unfold State.sem; rw [State.raise_sems]

/-! ## A change of one context, of one AU, and the others -/

theorem State.ctx_of_ctxs {t : State} (h : t.ctxs = s.ctxs) (c : Nat) : t.ctx c = s.ctx c := by unfold State.ctx; rw [h]
theorem State.au_of_aus {t : State} (h : t.aus = s.aus) (n : Nat) : t.au n = s.au n := by unfold State.au; rw [h]
theorem State.port_of_ports {t : State} (h : t.ports = s.ports) (p : Nat) : t.port p = s.port p := by unfold State.port; rw [h]

/-! ## A context enters a state -/

theorem State.setReg64_shape (s : State) (a b v : Nat) : ∃ r, s.setReg64 a b v = { s with regs := r } := ⟨_, rfl⟩

/-- The clock of a context stops: its running time and RUN_NS alone change. -/
theorem State.ctx_stopClock (c : Nat) : ∃ n a, (s.stopClock c).ctx c = { s.ctx c with runNs := n, runAt := a } := by
  unfold State.stopClock
  extract_lets x d
  split
  · exact ⟨_, _, by rw [State.ctx_of_ctxs (State.setReg64_ctxs _ _ _ _), State.ctx_putCtx]⟩
  · exact ⟨_, _, rfl⟩

theorem State.ctx_stopClock_ne {c d : Nat} (h : d ≠ c) : (s.stopClock c).ctx d = s.ctx d := by
  unfold State.stopClock
  extract_lets x n
  split
  · rw [State.ctx_of_ctxs (State.setReg64_ctxs _ _ _ _), State.ctx_putCtx_ne _ _ _ _ h]
  · rfl

/-- A context that has entered a state is in that state, and all else of it but its clock is as before. -/
theorem State.ctx_enter (c : Nat) (st : CtxState) :
    ∃ n a, (s.enter c st).ctx c = { s.ctx c with st := st, runNs := n, runAt := a } := by
  obtain ⟨n, a, e⟩ := State.ctx_stopClock (s := s) c
  unfold State.enter
  extract_lets s1
  exact ⟨n, s1.now, by rw [State.ctx_modCtx]; rw [e]⟩

theorem State.st_enter (c : Nat) (st : CtxState) : ((s.enter c st).ctx c).st = st := by
  obtain ⟨n, a, e⟩ := State.ctx_enter (s := s) c st
  rw [e]

theorem State.ctx_enter_ne {c d : Nat} (st : CtxState) (h : d ≠ c) : (s.enter c st).ctx d = s.ctx d := by
  unfold State.enter
  extract_lets s1
  rw [State.ctx_modCtx_ne _ _ _ _ h, State.ctx_stopClock_ne h]

/-! ## Completion entries -/

theorem State.ctx_irqStep (c : Nat) : ∃ n q, (s.irqStep c).ctx c =
    { s.ctx c with ring := { (s.ctx c).ring with irqCount := n, irqSince := q } } := by
  unfold State.irqStep
  extract_lets x n
  split
  · exact ⟨_, _, by rw [State.ctx_fire, State.ctx_putCtx]⟩
  · exact ⟨_, _, by rw [State.ctx_putCtx]⟩

theorem State.ctx_irqStep_ne {c d : Nat} (h : d ≠ c) : (s.irqStep c).ctx d = s.ctx d := by
  unfold State.irqStep
  extract_lets x n
  split
  · rw [State.ctx_fire, State.ctx_putCtx_ne _ _ _ _ h]
  · rw [State.ctx_putCtx_ne _ _ _ _ h]

/-- A completion entry that is written changes the tail, the interrupt count, or the count of dropped completions of its context. -/
theorem State.ctx_cplWrite (c : Nat) (cmd : Cmd) (st res : Nat) : ∃ t n q d, (s.cplWrite c cmd st res).ctx c =
    { s.ctx c with ring := { (s.ctx c).ring with cplTail := t, irqCount := n, irqSince := q }, dropped := d } := by
  unfold State.cplWrite
  split
  · exact ⟨_, _, _, _, by rw [State.ctx_of_ctxs (State.total_ctxs _ _ _), State.ctx_modCtx, State.ctx_of_ctxs (State.flagCount_ctxs _ _ _ _ _ _)]⟩
  · extract_lets r size tail base e s1 s2
    have e2 : s2.ctx c = { s.ctx c with ring := { (s.ctx c).ring with cplTail := (s.ctx c).ring.cplTail + 1 } } := by
      unfold s2 s1
      rw [State.ctx_modCtx, State.ctx_hostWrite]
    split
    · obtain ⟨n, q, e3⟩ := State.ctx_irqStep (s := s2) c
      exact ⟨_, _, _, _, by rw [e3, e2]⟩
    · exact ⟨_, _, _, _, by rw [e2]⟩

theorem State.ctx_cplWrite_ne {c d : Nat} (cmd : Cmd) (st res : Nat) (h : d ≠ c) : (s.cplWrite c cmd st res).ctx d = s.ctx d := by
  unfold State.cplWrite
  split
  · rw [State.ctx_of_ctxs (State.total_ctxs _ _ _), State.ctx_modCtx_ne _ _ _ _ h, State.ctx_of_ctxs (State.flagCount_ctxs _ _ _ _ _ _)]
  · extract_lets r size tail base e s1 s2
    have e2 : s2.ctx d = s.ctx d := by
      unfold s2 s1
      rw [State.ctx_modCtx_ne _ _ _ _ h, State.ctx_hostWrite]
    split
    · rw [State.ctx_irqStep_ne h, e2]
    · exact e2

/-- A command that completes leaves the outstanding commands of its context; of the rest of the context only the completion ring and
the time of progress change. -/
theorem State.ctx_complete (c k st res : Nat) : ∃ t n q d p, (s.complete c k st res).ctx c =
    { s.ctx c with ring := { (s.ctx c).ring with cmds := (s.ctx c).ring.cmds.eraseIdx k, cplTail := t, irqCount := n, irqSince := q },
                   dropped := d, progressAt := p } := by
  unfold State.complete
  split
  · rename_i h
    refine ⟨(s.ctx c).ring.cplTail, (s.ctx c).ring.irqCount, (s.ctx c).ring.irqSince, (s.ctx c).dropped, (s.ctx c).progressAt, ?_⟩
    rw [List.eraseIdx_of_length_le (List.getElem?_eq_none_iff.mp h)]
  · rename_i cmd h
    obtain ⟨t, n, q, d, e⟩ := State.ctx_cplWrite (s := s.modCtx c fun x =>
      { x with ring := { x.ring with cmds := x.ring.cmds.eraseIdx k }, progressAt := if byteAt cmd.desc 0 = 0x0D then s.now else x.progressAt })
      c cmd st res
    exact ⟨t, n, q, d, _, by rw [e, State.ctx_modCtx]⟩

theorem State.ctx_complete_ne {c d : Nat} (k st res : Nat) (h : d ≠ c) : (s.complete c k st res).ctx d = s.ctx d := by
  unfold State.complete
  split
  · rfl
  · rw [State.ctx_cplWrite_ne _ _ _ h, State.ctx_modCtx_ne _ _ _ _ h]

theorem State.st_complete (c k st res d : Nat) : ((s.complete c k st res).ctx d).st = (s.ctx d).st := by
  by_cases h : d = c
  · subst h
    obtain ⟨_, _, _, _, _, e⟩ := State.ctx_complete (s := s) d k st res
    rw [e]
  · rw [State.ctx_complete_ne _ _ _ h]

theorem length_natLe (n v : Nat) : (natLe n v).length = n := by
  induction n generalizing v with
  | zero => rfl
  | succ n ih => simp [natLe, ih]

theorem length_layOut (n : Nat) (fs : List (Nat × Nat × Nat)) (h : ∀ e ∈ fs, e.1 + e.2.1 ≤ n) : (layOut n fs).length = n := by
  induction fs with
  | nil => simp [layOut]
  | cons e fs ih =>
    have := ih fun x hx => h x (List.mem_cons_of_mem _ hx)
    have := h e (List.mem_cons_self ..)
    obtain ⟨o, w, v⟩ := e
    simp only [layOut, List.length_append, List.length_take, List.length_drop, length_natLe] at *
    omega

theorem length_cplEntry (a b c d e f g i : Nat) : (cplEntry a b c d e f g i).length = 32 := by
  refine length_layOut _ _ fun x hx => ?_
  simp only [List.mem_cons, List.not_mem_nil, or_false] at hx
  obtain rfl | rfl | rfl | rfl | rfl | rfl | rfl | rfl := hx <;> (dsimp only; omega)

/-- A command that completes is done. -/
theorem State.done_complete {c k : Nat} {cmd : Cmd} (st res : Nat) (h : s.cmdAt c k = some cmd) : Done s (s.complete c k st res) c k st res := by
  refine ⟨cmd, h, ?_, fun hl => ?_⟩
  · obtain ⟨t, n, q, d, p, e⟩ := State.ctx_complete (s := s) c k st res
    rw [e]
  unfold State.complete
  rw [h]
  dsimp only
  generalize e1 : (s.modCtx c fun x => { x with
    ring := { x.ring with cmds := x.ring.cmds.eraseIdx k }, progressAt := if byteAt cmd.desc 0 = 0x0D then s.now else x.progressAt }) = s1
  have hp : s1.ctxPort c = s.ctxPort c := by
    subst e1
    unfold State.ctxPort State.ownerOf
    rw [State.ctx_modCtx]
  have hl' : (s1.port (s1.ctxPort c)).lost = false := by rw [hp]; subst e1; exact hl
  have hr : (s1.ctx c).ring = { (s.ctx c).ring with cmds := (s.ctx c).ring.cmds.eraseIdx k } := by
    subst e1
    rw [State.ctx_modCtx]
  unfold State.cplWrite
  rw [if_neg (by rw [hl']; decide)]
  extract_lets r size tail base e s2 s3
  have e3 : (s3.ctx c).ring = { (s1.ctx c).ring with cplTail := (s1.ctx c).ring.cplTail + 1 } := by
    unfold s3 s2
    rw [State.ctx_modCtx, State.ctx_hostWrite]
  constructor
  · split
    · obtain ⟨n, q, e4⟩ := State.ctx_irqStep (s := s3) c
      rw [e4, e3, hr]
    · rw [e3, hr]
  · intro hd hi
    rw [if_neg (by rw [hi]; decide)]
    have hd' : (s1.port (s1.ctxPort c)).dlUp = true := by rw [hp]; subst e1; exact hd
    have hsz : size = s.cplSize c := by unfold size; subst e1; rfl
    have ht : tail = (s.ctx c).ring.cplTail.toNat := by unfold tail r; rw [hr]
    have hb : base = s.reg64 (CTX_CPL_BASE_LO c) (CTX_CPL_BASE_HI c) := by unfold base; subst e1; rfl
    have hn : s1.now = s.now := by subst e1; rfl
    have he : e = s.cplEntryOf c cmd st res := by
      unfold e r State.cplEntryOf
      rw [hsz, ht, hr, hn]
    have hh : s3.host = wrBytes s1.host (hostKey (s.ctxPort c) (base + 32 * (tail % size))) e := by
      show s2.host = _
      unfold s2 State.hostWrite
      rw [if_pos hd', hp]
    rw [hh, ← he, ← hb, ← ht, ← hsz]
    have hlen : e.length = 32 := by rw [he]; exact length_cplEntry _ _ _ _ _ _ _ _
    rw [← hlen]
    exact rdBytes_wrBytes _ _ _

/-- What the completion of a command depends on is the same in two states. -/
structure SameRings (s t : State) (c : Nat) : Prop where
  ring : (t.ctx c).ring = (s.ctx c).ring
  owner : (t.ctx c).owner = (s.ctx c).owner
  ports : t.ports = s.ports
  now : t.now = s.now
  reg : ∀ k, k < 0x200110 + 0x1000 * c → 0x200000 ≤ k → t.reg k = s.reg k

theorem SameRings.done {s t u : State} {c k st res : Nat} (h : SameRings s t c) (d : Done t u c k st res) : Done s u c k st res := by
  obtain ⟨cmd, h1, h2, h3⟩ := d
  have hp : t.ctxPort c = s.ctxPort c := by unfold State.ctxPort State.ownerOf; rw [h.owner]
  have hq : ∀ p, t.port p = s.port p := fun p => by unfold State.port; rw [h.ports]
  have hz : t.cplSize c = s.cplSize c := by
    unfold State.cplSize
    rw [State.fld_of_reg (h.reg _ (by unfold CTX_RING_CTL; omega) (by unfold CTX_RING_CTL; omega))]
  have hb : t.reg64 (CTX_CPL_BASE_LO c) (CTX_CPL_BASE_HI c) = s.reg64 (CTX_CPL_BASE_LO c) (CTX_CPL_BASE_HI c) := by
    unfold State.reg64
    rw [h.reg _ (by unfold CTX_CPL_BASE_LO; omega) (by unfold CTX_CPL_BASE_LO; omega),
      h.reg _ (by unfold CTX_CPL_BASE_HI; omega) (by unfold CTX_CPL_BASE_HI; omega)]
  refine ⟨cmd, by unfold State.cmdAt at *; rw [← h.ring]; exact h1, by rw [h2, h.ring], fun hl => ?_⟩
  rw [hp, hq] at h3
  obtain ⟨h4, h5⟩ := h3 hl
  refine ⟨by rw [h4, h.ring], fun hd hi => ?_⟩
  have := h5 hd hi
  unfold State.cplEntryOf at *
  rw [hb, hz, h.ring, h.now] at this
  exact this

end Sys2Proof.Machine
end

