-- ==== Sys2Proof/Laws/Steps.lean ====
section
/-! SUPPORT. Lemmas about shared operations that proofs about one command cite: what an operation leaves of one part of the state. -/

namespace Sys2Proof.Machine

theorem hubNeeds_ok {s : State} {c : Nat} {rs : List (Nat × Nat)} {w : Bool} {go : State → State} {u : Unit}
    (h : (s.ctx c).checkAll w (rs.map fun r => pagesOf r.1 r.2).flatten = .ok u) : s.hubNeeds c rs w go = go s := by
  unfold State.hubNeeds; rw [h]
theorem onCmd_eq {s : State} {c k op : Nat} {cmd : Cmd} {f : Cmd → State} (h1 : s.cmdAt c k = some cmd) (h2 : byteAt cmd.desc 0 = op)
  (h3 : s.serves op = true) : s.onCmd c k op f = f cmd := by
  unfold State.onCmd; rw [h1]; dsimp only; rw [if_pos ⟨h2, h3⟩]
theorem mfind_filter_none {α : Type} (p : Nat → Bool) (m : Map α) (k : Nat) (h : p k = true) : mfind (mdrop p m) k = none := by
  unfold mdrop
  induction m with
  | nil => rfl
  | cons e m ih =>
    obtain ⟨k', v⟩ := e
    rw [List.filter_cons]
    split
    · rename_i hh
      rw [mfind]
      split
      · rename_i e; subst e; simp [h] at hh
      · exact ih
    · exact ih
theorem mfind_filter_some {α : Type} (p : Nat → Bool) (m : Map α) (k : Nat) (h : p k = false) : mfind (mdrop p m) k = mfind m k := by
  unfold mdrop
  induction m with
  | nil => rfl
  | cons e m ih =>
    obtain ⟨k', v⟩ := e
    rw [List.filter_cons]
    split
    · rw [mfind, mfind]
      split
      · rfl
      · exact ih
    · rename_i hh
      rw [mfind]
      split
      · rename_i e; subst e; simp [h] at hh
      · exact ih
theorem Kept.only {m : Nat} {s t : State} (h : Kept m s t) (p : Part) (hp : m.testBit p.pos = false) : p.same s t := h.same p hp
theorem lport_modLport (s : State) (p : Nat) (f : LinkPort → LinkPort) : (s.modLport p f).lport p = f (s.lport p) := mget_mset_same _ _ _ _
theorem lport_modLport_ne (s : State) (p q : Nat) (f : LinkPort → LinkPort) (h : q ≠ p) : (s.modLport p f).lport q = s.lport q := mget_mset_ne _ _ _ _ _ h
theorem lport_of {s t : State} (h : t.links.ports = s.links.ports) (p : Nat) : t.lport p = s.lport p := by unfold State.lport; rw [h]
theorem links_modLport (s : State) (p : Nat) (f : LinkPort → LinkPort) : (s.modLport p f).links = { s.links with ports := mset LinkPort.reset s.links.ports p (f (s.lport p)) } := (rfl)
theorem links_modRcv (s : State) (id r : Nat) (f : Rcv → Rcv) : (s.modRcv id r f).links = s.links := by
  unfold State.modRcv; split <;> rfl
theorem links_txnNote (s : State) (u : TxnUser) (a b : Nat) : (s.txnNote u a b).links = s.links := by
  unfold State.txnNote State.modEntry
  split
  · exact State.modCtx_links _ _ _
  · exact State.modCtx_links _ _ _
  · exact links_modRcv _ _ _ _
  · exact State.modCtx_links _ _ _
  · exact State.modCtx_links _ _ _
theorem links_finishTxn (s : State) (k a b : Nat) : (s.finishTxn k a b).links = { s.links with txns := (s.finishTxn k a b).links.txns } := by
  unfold State.finishTxn
  split
  · rfl
  · extract_lets s1 src s2
    rw [State.modCtx_links, links_txnNote]
theorem ports_finishTxn (s : State) (k a b : Nat) : (s.finishTxn k a b).links.ports = s.links.ports := by rw [links_finishTxn]
theorem lport_portQuiet (s : State) (p : Nat) (st : PortState) : (s.portQuiet p st).lport p = (s.lport p).quiet st
    ∧ ∀ q, q ≠ p → (s.portQuiet p st).lport q = s.lport q := by
  have key : ∀ (g : State → Nat → Nat) (ks : List Nat) (s : State), (ks.foldl (fun t k => t.finishTxn k 0x45 (g t k)) s).links.ports = s.links.ports := by
    intro g ks
    induction ks with
    | nil => intro s; rfl
    | cons k ks ih => intro s; rw [List.foldl_cons, ih, ports_finishTxn]
  unfold State.portQuiet
  extract_lets ks
  refine ⟨?_, fun q hq => ?_⟩
  · rw [lport_of (key _ _ _), lport_modLport]
  · rw [lport_of (key _ _ _), lport_modLport_ne _ _ _ _ hq]
theorem lport_leaveUp (s : State) (p r : Nat) (st : PortState) (h : (s.lport p).state = .up) :
    (s.leaveUp p r st).lport p = { (s.lport p).quiet st with downAt := s.now } ∧ ∀ q, q ≠ p → (s.leaveUp p r st).lport q = s.lport q := by
  unfold State.leaveUp
  rw [if_pos h]
  extract_lets s1
  have e : ∀ q, ((((s1.setFld (LNK_PORT_FLAGS p) 0 0 1).count (LNK_REPLAY_CNT p) 31 16 1).total 5 1).raise 0x0401 .all [(0, 1, p), (1, 1, r)]).lport q = s1.lport q := by
    intro q
    exact lport_of (by rw [State.raise_links]; exact congrArg LinkSt.ports (show s1.links = s1.links from rfl)) q
  refine ⟨?_, fun q hq => ?_⟩
  · rw [e]
    unfold s1
    rw [lport_modLport, (lport_portQuiet _ _ _).1]
  · rw [e]
    unfold s1
    rw [lport_modLport_ne _ _ _ _ hq, (lport_portQuiet _ _ _).2 q hq]
theorem links_complete (s : State) (c k a b : Nat) : (s.complete c k a b).links = s.links :=
  (State.complete_kept (m := 0x849) rfl (Kept.refl _ s)).same .links rfl
theorem ctxs_sendFree (s : State) (t : LTxn) : (s.sendFree t).ctxs = s.ctxs :=
  (State.sendFree_kept (m := 0x108) rfl (Kept.refl _ s)).same .ctxs rfl
theorem links_pumpGo (n : Nat) (s : State) (p : Nat) : (s.pumpGo p n).links = { s.links with ports := (s.pumpGo p n).links.ports, txns := (s.pumpGo p n).links.txns } := by
  induction n generalizing s with
  | zero => rfl
  | succ n ih =>
    unfold State.pumpGo
    split
    · rfl
    · split
      · rw [ih]; rfl
      · rw [ih]; rfl
theorem links_enqueue (s : State) (p : Nat) (t : LTxn) (k : Option Nat) : (s.enqueue p t k).links = { s.links with ports := (s.enqueue p t k).links.ports, txns := (s.enqueue p t k).links.txns } := by
  unfold State.enqueue State.pump
  split
  · rw [links_pumpGo]; rfl
  · rfl
theorem links_sendFree (s : State) (t : LTxn) : (s.sendFree t).links = { s.links with ports := (s.sendFree t).links.ports, txns := (s.sendFree t).links.txns, inbox := (s.sendFree t).links.inbox } := by
  unfold State.sendFree
  split
  · rfl
  · split
    · rfl
    · split
      · rw [links_enqueue]
      · rfl
theorem accepts_settle (s : State) (id op st off : Nat) (d : List Byte) : mfind (s.settle id op st off d).links.accepts id = none := by
  unfold State.settle
  split
  · assumption
  · unfold State.answer_
    rw [links_sendFree]
    exact mfind_mdel_same _ _
theorem txns_finishTxn (s : State) (k a b : Nat) : mfind (s.finishTxn k a b).links.txns k = none := by
  unfold State.finishTxn
  split
  · assumption
  · extract_lets s1 src s2
    rw [State.modCtx_links, links_txnNote]
    exact mfind_mdel_same _ _
theorem eraseIdx_modify {α : Type} (l : List α) (k : Nat) (f : α → α) : (l.modify k f).eraseIdx k = l.eraseIdx k := by
  induction l generalizing k with
  | nil => cases k <;> rfl
  | cons x l ih =>
    cases k with
    | zero => rfl
    | succ k => rw [List.modify_succ_cons, List.eraseIdx_cons_succ, List.eraseIdx_cons_succ, ih]
theorem reg_softReg (s : State) (k v : Nat) : (s.softReg k v).reg k = specWrite (regSpec k) (s.reg k) v % 2 ^ 32 := by
  unfold State.reg State.softReg rgSoft
  rw [rgRead_rgWrite_same, BitVec.toNat_ofNat]
/-- A write to virtual memory changes of its context the page table and what the securing keeps of its pages alone. -/
def PtStep (x y : Ctx) : Prop := ∃ p a b d, y = { x with pt := p, dust := { x.dust with securing := a, reserve := b, reserveAll := d } }
theorem PtStep.refl (x : Ctx) : PtStep x x := ⟨_, _, _, _, rfl⟩
theorem PtStep.of_eq {x y : Ctx} (h : y = x) : PtStep x y := h ▸ PtStep.refl x
theorem PtStep.trans {x y z : Ctx} (h : PtStep x y) (h' : PtStep y z) : PtStep x z := by
  obtain ⟨_, _, _, _, rfl⟩ := h
  obtain ⟨_, _, _, _, rfl⟩ := h'
  exact ⟨_, _, _, _, rfl⟩
theorem ctx_modPte (s : State) (c k : Nat) (f : Pte → Pte) : PtStep (s.ctx c) ((s.modPte c k f).ctx c) := by
  unfold State.modPte
  rw [State.ctx_modCtx]
  split
  · exact ⟨_, _, _, _, rfl⟩
  · exact PtStep.refl _
theorem ctx_touch (s : State) (c : Nat) (w : Bool) (rs : List (Nat × Nat)) : PtStep (s.ctx c) ((s.touch c w rs).ctx c) := by
  unfold State.touch
  induction rs generalizing s with
  | nil => exact PtStep.refl _
  | cons r rs ih =>
    refine PtStep.trans ?_ (ih _)
    dsimp only
    split
    · split
      · exact PtStep.refl _
      · exact ctx_modPte _ _ _ _
    · exact PtStep.refl _
theorem ctx_shadowFor {s u : State} {c k p : Nat} {gs : List Nat} (h : s.shadowFor c k p gs = some u) : PtStep (s.ctx c) (u.ctx c) := by
  unfold State.shadowFor at h
  have key : ∀ (m : Mem) (sec' : Option Securing) (rv : List Nat) (P : Prop) [Decidable P] (f : Pte → Pte), PtStep (s.ctx c)
      ((if P then (({ s with mem := { s.mem with hbm := m } } : State).modCtx c fun y => { y with dust := { y.dust with securing := sec', reserve := rv } }).modPte c k f
        else (({ s with mem := { s.mem with hbm := m } } : State).modCtx c fun y => { y with dust := { y.dust with securing := sec', reserve := rv } })).ctx c) := by
    intro m sec' rv P _ f
    have e : PtStep (s.ctx c) ((({ s with mem := { s.mem with hbm := m } } : State).modCtx c fun y => { y with dust := { y.dust with securing := sec', reserve := rv } }).ctx c) := by
      rw [State.ctx_modCtx]
      exact ⟨_, _, _, _, rfl⟩
    split
    · exact e.trans (ctx_modPte _ _ _ _)
    · exact e
  dsimp only at h
  split at h
  · split at h
    · cases h; exact PtStep.refl _
    · split at h
      · cases h; exact key _ _ _ _ _
      · split at h
        · cases h
        · cases h; exact key _ _ _ _ _
      · cases h; exact PtStep.refl _
  · cases h; exact PtStep.refl _
theorem ctx_shadowRanges {s u : State} {c : Nat} {rs : List (Nat × Nat)} (h : s.shadowRanges c rs = some u) : PtStep (s.ctx c) (u.ctx c) := by
  induction rs generalizing s with
  | nil => cases h; exact PtStep.refl _
  | cons r rs ih =>
    unfold State.shadowRanges at h
    split at h
    · split at h
      · simp only at h
        split at h
        · rename_i s1 h1
          exact (ctx_shadowFor h1).trans (ih h)
        · cases h
      · exact ih h
    · exact ih h
theorem ctx_writeRanges (s : State) (c : Nat) (bs : List Byte) (rs : List (Nat × Nat)) : (s.writeRanges c bs rs).ctxs = s.ctxs := by
  induction rs generalizing s bs with
  | nil => rfl
  | cons r rs ih =>
    unfold State.writeRanges
    split
    · rw [ih]
    · exact ih _ _
theorem ctxs_breakResv (s : State) (c va n : Nat) : (s.breakResv c va n).ctxs = s.ctxs := by
  unfold State.breakResv
  generalize s.ctxAus c = l
  induction l generalizing s with
  | nil => rfl
  | cons e l ih =>
    rw [List.foldl_cons, ih]
    split
    · split <;> rfl
    · rfl
theorem ctx_vwrite {s u : State} {c va : Nat} {bs : List Byte} (h : s.vwrite c va bs = .ok u) : PtStep (s.ctx c) (u.ctx c) := by
  unfold State.vwrite at h
  simp only at h
  split at h
  · split at h
    · cases h
    · rename_i s1 h1
      cases h
      rw [State.ctx_of_ctxs (ctxs_breakResv _ _ _ _)]
      refine (ctx_shadowRanges h1).trans ?_
      refine PtStep.trans ?_ (ctx_touch _ _ _ _)
      exact PtStep.of_eq (State.ctx_of_ctxs (ctx_writeRanges _ _ _ _) _)
  all_goals cases h
theorem ctxs_hostWrite (s : State) (p a : Nat) (bs : List Byte) : (s.hostWrite p a bs).ctxs = s.ctxs := by
  unfold State.hostWrite; split <;> rfl
theorem ctx_pokePage (s : State) (c va : Nat) (bs : List Byte) : PtStep (s.ctx c) ((s.pokePage c va bs).ctx c) := by
  unfold State.pokePage
  split
  · exact PtStep.refl _
  · split
    · split
      · rename_i h; exact ctx_vwrite h
      · split
        · exact PtStep.refl _
        · rename_i f s1 h1
          have e1 : s1.ctxs = s.ctxs := by
            unfold State.allocFrame at h1
            split at h1
            · cases h1
            · cases h1; rfl
          split
          · rename_i h2
            refine PtStep.trans ?_ (ctx_vwrite h2)
            rw [State.ctx_modCtx, State.ctx_of_ctxs e1]
            exact ⟨_, _, _, _, rfl⟩
          · exact PtStep.refl _
      · exact PtStep.refl _
    · split
      · exact PtStep.of_eq (State.ctx_of_ctxs (ctxs_hostWrite _ _ _ _) _)
      · exact PtStep.refl _
theorem ctx_vpoke (s : State) (c va : Nat) (bs : List Byte) : PtStep (s.ctx c) ((s.vpoke c va bs).ctx c) := by
  unfold State.vpoke
  generalize pagesOf va bs.length = l
  induction l generalizing s with
  | nil => exact PtStep.refl _
  | cons r l ih => exact (ctx_pokePage _ _ _ _).trans (ih _)
theorem ctx_writeEntry (s : State) (c i a b d : Nat) : PtStep (s.ctx c) ((s.writeEntry c i a b d).ctx c) := by
  unfold State.writeEntry
  split
  · exact PtStep.refl _
  · exact ((ctx_vpoke _ _ _ _).trans (ctx_vpoke _ _ _ _)).trans (ctx_vpoke _ _ _ _)
theorem mem_of_mfind {α : Type} (m : Map α) (k : Nat) (v : α) (h : mfind m k = some v) : (k, v) ∈ m := by
  induction m with
  | nil => cases h
  | cons e m ih =>
    obtain ⟨k', v'⟩ := e
    rw [mfind] at h
    split at h
    · rename_i e; subst e; cases h; exact List.mem_cons_self ..
    · exact List.mem_cons_of_mem _ (ih h)
theorem reg_cplWrite {s : State} {c st res r : Nat} {cmd : Cmd} (h : NotEvt r) (h1 : r ≠ CTX_RING_STATUS c) (h2 : r ≠ CTX_RING_EVT_CNT c) :
    (s.cplWrite c cmd st res).reg r = s.reg r := by
  unfold State.cplWrite
  by_cases hl : (s.port (s.ctxPort c)).lost = true
  · rw [if_pos hl]
    rw [State.reg_total, State.reg_modCtx, State.reg_flagCount_ne _ _ _ _ _ _ _ h1 h2]
  · rw [if_neg hl]
    extract_lets q size tail base e s1 s2
    have e2 : s2.reg r = s.reg r := State.reg_hostWrite _ _ _ _
    split
    · unfold State.irqStep
      extract_lets x n
      split
      · exact (State.reg_fire (h _ _).2.2).trans e2
      · exact e2
    · exact e2
theorem reg_complete {s : State} {c k st res r : Nat} (h : NotEvt r) (h1 : r ≠ CTX_RING_STATUS c) (h2 : r ≠ CTX_RING_EVT_CNT c) :
    (s.complete c k st res).reg r = s.reg r := by
  unfold State.complete
  split
  · rfl
  · exact reg_cplWrite h h1 h2
theorem foldl_modAu_ctxs (f : Nat × Nat → Au → Au) (l : List (Nat × Nat)) (s : State) : (l.foldl (fun t e => t.modAu e.2 (f e)) s).ctxs = s.ctxs := by
  induction l generalizing s with
  | nil => rfl
  | cons e l ih => exact (ih _).trans (State.modAu_ctxs _ _ _)
theorem ctxs_notify (s : State) (c g k ep e r : Nat) : (s.notify c g k ep e r).ctxs = s.ctxs := by
  unfold State.notify
  split
  · rfl
  · rename_i x h
    have : ∀ (l : List Nat) (s : State), (l.foldl (fun t m => t.sendFree ⟨t.ownHdr 9 m 0 0 (2 ^ 24 * g + k) ep 0 0 (layOut 32 [(0, 8, e), (8, 2, r)]), [], 7⟩) s).ctxs = s.ctxs := by
      intro l
      induction l with
      | nil => intro s; rfl
      | cons m l ih => intro s; rw [List.foldl_cons, ih, ctxs_sendFree]
    exact this _ s
theorem findAt_at {α : Type} {p : α → Bool} {l : List α} {n k : Nat} {x : α} (h : findAt p l n = some (k, x)) : n ≤ k ∧ l[k - n]? = some x := by
  induction l generalizing n with
  | nil => cases h
  | cons y l ih =>
    unfold findAt at h
    split at h
    · cases h; exact ⟨Nat.le_refl _, by rw [Nat.sub_self]; rfl⟩
    · obtain ⟨a, b⟩ := ih h
      refine ⟨by omega, ?_⟩
      rw [show k - n = (k - (n + 1)) + 1 by omega]
      exact b
theorem power_capStatus (s : State) (b : Bool) : (s.capStatus b).power = s.power :=
  (State.capStatus_kept (m := 0x829) rfl (Kept.refl _ s)).same .power rfl
theorem power_svcCapGo (s : State) : s.svcCapGo.power = s.power := by
  unfold State.svcCapGo
  split
  · exact power_capStatus _ _
  · rfl
theorem power_modSvc (s : State) (f : SvcSt → SvcSt) : (s.modSvc f).power = { s.power with svc := f s.power.svc } := rfl
theorem power_hostLost (s : State) (b : Bool) : (s.hostLost b).power = { PowerSt.reset with hostOn := b, svc := s.power.svc, vcap := voltageCap s.power.svc.mv } := rfl
theorem power_switchOff (s : State) (c u : Nat) (h : s.power.hostOn = true) :
    (s.switchOff c u).power = { PowerSt.reset with hostOn := false, svc := { s.power.svc with cause := c, unit := u }, vcap := voltageCap s.power.svc.mv } := by
  unfold State.switchOff
  rw [if_pos h, power_modSvc, power_hostLost]
theorem power_newNonce (s : State) : s.newNonce.power = s.power :=
  (State.newNonce_kept (m := 0x10008) rfl (Kept.refl _ s)).same .power rfl
theorem power_showFuses (s : State) : s.showFuses.power = s.power := by unfold State.showFuses; rfl
theorem power_comeUp (s : State) : s.comeUp.power = { PowerSt.reset with hostOn := true, svc := s.power.svc, vcap := voltageCap s.power.svc.mv } := by
  unfold State.comeUp
  extract_lets s1
  rw [power_capStatus, State.setFld_power, State.setFld_power, State.setFld_power]
  unfold s1
  rw [power_newNonce, power_showFuses, power_hostLost]
theorem reg_capStatus {s : State} {b : Bool} {k : Nat} (h : NotEvt k) (hk : k ≠ PWR_CAP_STATUS) : (s.capStatus b).reg k = s.reg k := by
  unfold State.capStatus
  extract_lets old s1
  have e : s1.reg k = s.reg k := by
    unfold s1
    rw [State.reg_setFld_ne _ _ _ _ _ _ hk, State.reg_setFld_ne _ _ _ _ _ _ hk, State.reg_setFld_ne _ _ _ _ _ _ hk]
  split
  · rw [State.reg_raise h, e]
  · exact e
theorem cause_comeUp (s : State) : s.comeUp.fld PWR_RESET_CAUSE 3 0 = s.power.svc.cause % 16 := by
  unfold State.comeUp
  extract_lets s1
  rw [State.fld_of_reg (reg_capStatus (NotEvt.mid (by decide) (by decide) (by decide)) (by decide)), State.fld_setFld_ne _ _ _ _ _ _ _ _ (by decide),
    State.fld_setFld_below _ _ _ _ _ _ _ (by decide) (by decide), State.fld_setFld _ _ _ _ _ (by decide)] <;> rfl
theorem sec_onSec (s : State) (f : SecSt → SecSt) : (s.onSec f).sec = f s.sec := rfl
theorem regs_onSec (s : State) (f : SecSt → SecSt) : (s.onSec f).regs = s.regs := rfl
theorem onDx_eq {s : State} {n c : Nat} {d : Dx} {u : State} {f : Nat → Dx → State → State} (h : s.AtDx n c d u) : s.onDx n f = f c d u := by
  unfold State.onDx
  rw [h.1]
  dsimp only
  rw [h.2]
theorem onDxOr_eq {s : State} {n : Nat} {w : CoreWait} {c : Nat} {d : Dx} {u : State} {f : Nat → Dx → State → State} (h : s.HeldDx n w c d u) :
    s.onDxOr n w f = f c d u := by
  unfold State.onDxOr State.onHeld
  rw [if_pos (by obtain ⟨h | h, _⟩ := h <;> rw [h] <;> simp), onDx_eq h.2]
theorem startUnit_eq {s : State} {n u c l : Nat} {op : FifoOp} {wen : Bool} {ready : Nat → FifoOp → Bool} {go : Nat → FifoOp → State → State}
    (h1 : s.live n = some (c, l)) (h2 : (s.au n).nextOf u = some op) (h3 : opWen op.word = wen) (h4 : ready c op = true) (h5 : s.flagTest c op.word = true) :
    s.startUnit n u wen ready go = go c op (s.beginOp n u c op) := by
  unfold State.startUnit
  rw [h1]
  dsimp only
  rw [h2]
  dsimp only
  rw [if_pos ⟨h3, h4, h5⟩]
theorem opOf_none {s : State} {n u : Nat} {op : FifoOp} (h : (s.au n).nextOf u = some op) : s.opOf n u = none := by
  unfold Au.nextOf at h
  unfold State.opOf
  split
  · rfl
  · split at h
    · cases h
    · rename_i h'; rw [h']; rfl

end Sys2Proof.Machine
end

