-- ==== Sys2Proof/Laws/Families.lean ====
section
/-! SUPPORT. Lemmas about the operations of single families, in the order of the families' names. -/

namespace Sys2Proof.Machine

set_option maxRecDepth 4000

/-! ### The array engines -/

theorem aus_accFlags (s : State) (n c a b d : Nat) (op : ActiveOp) : (s.accFlags n c a b d op).aus = s.aus :=
  (State.accFlags_kept (m := 0x829) rfl (Kept.refl _ s)).same .aus rfl
theorem reg_accFlags {s : State} {n c a : Nat} {op : ActiveOp} {k : Nat} (h1 : k ≠ AU_ACC_STATUS n) : (s.accFlags n c a 0 0 op).reg k = s.reg k := by
  unfold State.accFlags
  extract_lets old s1 s2
  rw [if_neg (by simp)]
  unfold s2
  rw [if_neg (by simp)]
  exact State.reg_setFld_ne _ _ _ _ _ _ h1
theorem adaptRow_none {seed w a tag : Nat} {row : RowIn} {o : AccOut} (h : cAdp w = 0) : adaptRow seed w a tag row o = .ok o := by
  unfold adaptRow
  dsimp only
  rw [if_pos h]
theorem setReg64_get (s : State) (a b v : Nat) (h : a ≠ b) (hv : v < 2 ^ 64) : (s.setReg64 a b v).reg64 a b = v := by
  unfold State.setReg64 State.reg64
  rw [State.reg_setReg_ne _ _ _ _ h, State.reg_setReg, State.reg_setReg]
  omega

/-! ### Collectives -/

theorem links_writeEntry (s : State) (c i a b d : Nat) : (s.writeEntry c i a b d).links = s.links :=
  (State.writeEntry_kept (m := 0xc7) rfl (Kept.refl _ s)).same .links rfl
theorem ctxs_sendCollAborts (s : State) (c g q st : Nat) : (s.sendCollAborts c g q st).ctxs = s.ctxs := by
  unfold State.sendCollAborts
  split
  · rfl
  · rename_i x h
    generalize x.members.filter (· != s.partId) = l
    have : ∀ (l : List Nat) (s : State), (l.foldl (fun t m => t.sendFree ⟨t.ownHdr 8 m 0 0 (2 ^ 24 * g + q % 2 ^ 24) 0 0 st [], [], 7⟩) s).ctxs = s.ctxs := by
      intro l
      induction l with
      | nil => intro s; rfl
      | cons m l ih => intro s; rw [List.foldl_cons, ih, ctxs_sendFree]
    exact this l s
theorem linkWork_failEntry (s : State) (c i st off : Nat) (tell : Bool) : mfind ((s.failEntry c i st off tell).ctx c).linkWork i = none := by
  unfold State.failEntry
  split
  · assumption
  · extract_lets ks s1 s2 s3
    have e2 : mfind (s2.ctx c).linkWork i = none := by unfold s2; rw [State.ctx_modCtx]; exact mfind_mdel_same _ _
    have e3 : ∀ a b d e, (s2.collFailed a b d e).ctx c = s2.ctx c := by
      intro a b d e; unfold State.collFailed; rw [State.ctx_raise]; exact State.ctx_of_ctxs (State.flagCount_ctxs _ _ _ _ _ _) _
    split
    · split
      · rw [State.ctx_of_ctxs (ctxs_sendCollAborts _ _ _ _ _), e3]; exact e2
      · rw [e3]; exact e2
    · exact e2
theorem now_failEntry (s : State) (c i st off : Nat) (tell : Bool) : (s.failEntry c i st off tell).now = s.now := by
  exact (State.failEntry_kept (m := 0x9ef) rfl (Kept.refl _ s)).same .now rfl

/-! ### Contexts -/

theorem foldl_clearAu_ctx (l : List (Nat × Nat)) (s : State) (c : Nat) : (l.foldl (fun t e => t.clearAu e.2) s).ctx c = s.ctx c := by
  induction l generalizing s with
  | nil => rfl
  | cons e l ih => exact (ih _).trans rfl
theorem ctx_endPreempt (s : State) (c : Nat) : ∃ n a, (s.endPreempt c).ctx c =
    { s.ctx c with st := .preempted, saved := (s.ctx c).place.foldl (fun m e => mput m e.1 ((s.au e.2).saved (s.ctx c).bufs e.1)) [], lastPlace := (s.ctx c).place, place := [], runNs := n, runAt := a } := by
  unfold State.endPreempt
  extract_lets x s1
  obtain ⟨n, a, e⟩ := State.ctx_enter (s := s.saveAus c) c .preempted
  refine ⟨n, a, ?_⟩
  rw [State.ctx_raise]
  unfold s1
  rw [e]
  unfold State.saveAus
  dsimp only
  rw [State.ctx_modCtx, foldl_clearAu_ctx]
theorem st_startResume {s u : State} {c tr : Nat} {q : Option Nat} (h : s.startResume c tr q = some u) : (u.ctx c).st = .resuming := by
  unfold State.startResume at h
  dsimp only at h
  split at h
  · cases h
  · split at h
    · cases h
    · cases h
      exact State.st_enter _ _
theorem foldl_putAu_ctx {β : Type} (l : List β) (f : State → β → Nat) (g : State → β → Au) (s : State) (c : Nat) :
    (l.foldl (fun t e => t.putAu (f t e) (g t e)) s).ctx c = s.ctx c := by
  induction l generalizing s with
  | nil => rfl
  | cons e l ih => exact (ih _).trans rfl
theorem ctx_takePlace (s : State) (c : Nat) (p : Map Nat) (tr : Nat) (force : Bool) : ∃ g, (s.takePlace c p tr force).ctx c =
    { s.ctx c with place := p, gen := g } := by
  unfold State.takePlace
  extract_lets x moved s1
  have e : s1.ctx c = { s.ctx c with place := p } := by
    unfold s1
    rw [foldl_putAu_ctx, State.ctx_modCtx]
  clear_value s1
  split
  · exact ⟨_, by rw [State.ctx_raise, State.ctx_modCtx, e]⟩
  · exact ⟨x.gen, e⟩
theorem ctx_restoreAus (s : State) (c : Nat) : (s.restoreAus c).ctx c = { s.ctx c with saved := [] } := by
  unfold State.restoreAus
  dsimp only
  rw [State.ctx_modCtx, foldl_putAu_ctx]
theorem ctx_endResume (s : State) (c : Nat) : ∃ n a p, (s.endResume c).ctx c =
    { s.ctx c with saved := [], flags := (s.ctx c).mbox.foldl (fun w p => flagPut w p.flag p.value) (s.ctx c).flags, mbox := [],
                   st := (s.ctx c).before, runNs := n, runAt := a, progressAt := p } := by
  unfold State.endResume
  extract_lets s1 x flags n s2 s3
  have e1 : s1.ctx c = { s.ctx c with saved := [] } := ctx_restoreAus s c
  clear_value s1
  obtain ⟨k, a, e2⟩ := State.ctx_enter (s := (s1.modCtx c fun y => { y with flags := flags, mbox := [] }).setFld (CTX_MBOX c) 26 16 0) c x.before
  change s2.ctx c = _ at e2
  clear_value s2
  refine ⟨k, a, s2.now, ?_⟩
  rw [State.ctx_raise]
  unfold s3
  rw [State.ctx_modCtx, e2, State.ctx_of_ctxs (State.setFld_ctxs _ _ _ _ _), State.ctx_modCtx]
  unfold flags x
  rw [e1]
theorem findAt_mem {α : Type} (p : α → Bool) (l : List α) (n k : Nat) (x : α) (h : findAt p l n = some (k, x)) : x ∈ l ∧ p x = true := by
  induction l generalizing n with
  | nil => cases h
  | cons y l ih =>
    rw [findAt] at h
    split at h
    · cases h; exact ⟨List.mem_cons_self .., ‹_›⟩
    · exact ⟨List.mem_cons_of_mem _ (ih _ h).1, (ih _ h).2⟩
theorem hint_shape {x y : Ctx} {n : Nat} {e : Nat × Nat} (h : x.hint n e = some y) : ∃ a b d, y = { x with pins := a, groups := b, stackPins := d } := by
  unfold Ctx.hint at h
  repeat' split at h
  all_goals first
    | (cases h; done)
    | (cases h; exact ⟨_, x.groups, x.stackPins, rfl⟩)
    | (cases h; exact ⟨x.pins, _, x.stackPins, rfl⟩)
    | (cases h; exact ⟨x.pins, x.groups, _, rfl⟩)
theorem hints_shape {n : Nat} (es : List (Nat × Nat)) {x y : Ctx} (h : x.hints n es = some y) : ∃ a b d, y = { x with pins := a, groups := b, stackPins := d } := by
  induction es generalizing x with
  | nil => exact ⟨x.pins, x.groups, x.stackPins, (Option.some.inj h).symm⟩
  | cons e es ih =>
    rw [Ctx.hints] at h
    split at h
    · cases h
    · rename_i z hz
      obtain ⟨a, b, d, e1⟩ := hint_shape hz
      obtain ⟨a', b', d', e2⟩ := ih h
      exact ⟨a', b', d', by rw [e2, e1]⟩
theorem takeHints_shape {x y : Ctx} {bs : List Byte} (h : x.takeHints bs = some y) : ∃ a b d, y = { x with pins := a, groups := b, stackPins := d } := by
  unfold Ctx.takeHints at h
  dsimp only at h
  split at h
  · cases h
  · split at h
    · rename_i z hz
      split at h
      · cases h; exact hints_shape _ hz
      · cases h
    · cases h

/-! ### Securing and restores -/

theorem shadowRanges_none {s : State} {c : Nat} (h : (s.ctx c).dust.securing = none) (rs : List (Nat × Nat)) : s.shadowRanges c rs = some s := by
  induction rs with
  | nil => rfl
  | cons r rs ih =>
    unfold State.shadowRanges
    split
    · split
      · have e : ∀ k p gs, s.shadowFor c k p gs = some s := by
          intro k p gs
          unfold State.shadowFor
          dsimp only
          rw [h]
        dsimp only
        rw [e]
        exact ih
      · exact ih
    · exact ih
theorem dust_completeWhere (s : State) (c op : Nat) (p : Cmd → Bool) (st r n : Nat) : ((s.completeWhere c op p st r n).ctx c).dust = (s.ctx c).dust := by
  induction n generalizing s with
  | zero => rfl
  | succ n ih =>
    unfold State.completeWhere
    split
    · rfl
    · rw [ih]
      obtain ⟨_, _, _, _, _, e⟩ := State.ctx_complete (s := s) c (by assumption) st r
      rw [e]
theorem st_completeWhere (s : State) (c op : Nat) (p : Cmd → Bool) (st r n : Nat) : ((s.completeWhere c op p st r n).ctx c).st = (s.ctx c).st := by
  induction n generalizing s with
  | zero => rfl
  | succ n ih =>
    unfold State.completeWhere
    split
    · rfl
    · rw [ih, State.st_complete]
theorem restoreGo_ready {n : Nat} {s v : State} {c : Nat} {keep : Cmd → Bool} {e : Nat} (h : s.restoreGo c keep n = .done v e) : (v.ctx c).st = .ready := by
  induction n generalizing s with
  | zero => cases h
  | succ n ih =>
    unfold State.restoreGo at h
    dsimp only at h
    split at h
    · cases h
    · split at h
      · cases h
      · exact ih h
      · cases h
      · cases h
      · split at h
        · rename_i s3 h3
          cases h
          unfold State.restorePlace at h3
          split at h3
          · cases h3
          · cases h3
            rw [State.ctx_of_ctxs (State.raise_ctxs _ _ _), State.st_enter]
        · cases h

/-! ### The firmware -/

theorem regs_halt (s : State) (a b d : Nat) : (s.halt a b d).fwHalted = true ∧ (s.halt a b d).reg HUB_FW_VERSION = 0 ∧ (s.halt a b d).fld SEC_FW_STATUS 8 0 = 0 ∧ (s.halt a b d).sec.crashed = s.sec.logs.length := by
  unfold State.halt
  extract_lets cs s1 s2
  have hs : s1.sec.logs = s.sec.logs := by
    unfold s1
    generalize cs = l
    induction l generalizing s with
    | nil => rfl
    | cons c l ih =>
      rw [List.foldl_cons]
      have h : ({ (s.stopAgents c).sec with flash := s.sec.flash } : SecSt) = s.sec := (State.stopAgents_kept (c := c) (m := 0x2c4) rfl (Kept.refl _ s)).same .sec rfl
      have h2 := congrArg SecSt.logs h
      dsimp only at h2
      exact (ih (s.stopAgents c)).trans h2
  have e : ∀ (f : SecSt → SecSt) k, (s2.onSec f).reg k = s2.reg k := fun f k => State.reg_of_regs (regs_onSec _ _) k
  refine ⟨?_, ?_, ?_, ?_⟩
  · unfold State.fwHalted
    rw [State.fld_of_reg (e _ _)]
    unfold s2
    rw [State.fld_of_reg (State.reg_raise_all (by decide) (by decide)), State.fld_of_reg (State.reg_setReg_ne _ _ _ _ (by decide)), State.fld_setFld_above _ _ _ _ _ _ _ (by decide) (by decide) (by decide), State.fld_setFld _ _ _ _ _ (by decide)]
    rfl
  · rw [e]
    unfold s2
    rw [State.reg_raise (NotEvt.low (by decide)), State.reg_setReg] <;> rfl
  · rw [State.fld_of_reg (e _ _)]
    unfold s2
    rw [State.fld_of_reg (State.reg_raise_all (by decide) (by decide)), State.fld_of_reg (State.reg_setReg_ne _ _ _ _ (by decide)), State.fld_setFld _ _ _ _ _ (by decide)] <;> rfl
  · have e' : s2.sec.logs = s1.sec.logs := by unfold s2; rw [State.raise_sec, State.setReg_sec, State.setFld_sec, State.setFld_sec]
    clear_value s2
    rw [sec_onSec, ← hs, ← e']

/-! ### Link ports -/

theorem partId_part (s : State) (v : Nat) : (s.softReg LNK_PART_ID v).partId = bits v 15 0 := by
  unfold State.partId
  rw [State.fld_eq, reg_softReg, show regSpec LNK_PART_ID = [⟨15, 0, .rw, 0xFFFF⟩] by decide +kernel]
  unfold specWrite specWrite
  dsimp only
  rw [bits_mod32 _ _ _ (by decide), bits_putBits_same]
  unfold bits
  omega
theorem portEnable_frame (s : State) (p : Nat) : ((s.portEnable p).regs = s.regs ∧ (s.portEnable p).now = s.now) ∧ ∀ q, q ≠ p → (s.portEnable p).lport q = s.lport q := by
  unfold State.portEnable State.portStart
  split
  · split
    · exact ⟨⟨rfl, rfl⟩, fun q hq => lport_modLport_ne _ _ _ _ hq⟩
    · exact ⟨⟨rfl, rfl⟩, fun q hq => lport_modLport_ne _ _ _ _ hq⟩
  · exact ⟨⟨rfl, rfl⟩, fun _ _ => rfl⟩
theorem foldl_portEnable (l : List Nat) (s : State) : (l.foldl (fun t p => t.portEnable p) s).regs = s.regs ∧
    (∀ q, q ∉ l → (l.foldl (fun t p => t.portEnable p) s).lport q = s.lport q) ∧
    (l.Nodup → ∀ q, q ∈ l → (l.foldl (fun t p => t.portEnable p) s).lport q = (s.portEnable q).lport q) := by
  induction l generalizing s with
  | nil => exact ⟨rfl, fun _ _ => rfl, fun _ _ h => (List.not_mem_nil h).elim⟩
  | cons x l ih =>
    obtain ⟨a, b, c⟩ := ih (s.portEnable x)
    obtain ⟨⟨d, d'⟩, e⟩ := portEnable_frame s x
    refine ⟨a.trans d, fun q hq => (b q fun h => hq (List.mem_cons_of_mem _ h)).trans (e q fun h => hq (h ▸ List.mem_cons_self ..)), fun hn q hq => ?_⟩
    obtain ⟨hx, hn⟩ := List.nodup_cons.mp hn
    obtain rfl | hq := List.mem_cons.mp hq
    · exact b q hx
    · have hqx : q ≠ x := fun h => hx (h ▸ hq)
      rw [List.foldl_cons, c hn q hq]
      have e1 := e q hqx
      have r1 : ∀ k, (s.portEnable x).reg k = s.reg k := fun k => State.reg_of_regs d k
      have r2 : ∀ k h l, (s.portEnable x).fld k h l = s.fld k h l := fun k h l => State.fld_of_reg (r1 k) h l
      generalize s.portEnable x = u at *
      unfold State.portEnable State.rbit State.partId State.portStart State.linkMode
      rw [e1, r1, r2, r2]
      split
      · split
        · rw [lport_modLport, lport_modLport, e1]
        · rw [lport_modLport, lport_modLport, e1, d']
      · exact e1
theorem lanes_and (f : Nat → Bool) : let m := (List.range 4).foldl (fun m k => if f k then m + 2 ^ k else m) 0
    m < 16 ∧ ∀ k, k < 4 → bit m k = f k := by
  rw [show List.range 4 = [0, 1, 2, 3] from rfl]
  simp only [List.foldl_cons, List.foldl_nil]
  generalize h0 : f 0 = a
  generalize h1 : f 1 = b
  generalize h2 : f 2 = c
  generalize h3 : f 3 = d
  refine ⟨by cases a <;> cases b <;> cases c <;> cases d <;> decide, fun k hk => ?_⟩
  obtain rfl | rfl | rfl | rfl : k = 0 ∨ k = 1 ∨ k = 2 ∨ k = 3 := by omega
  · rw [h0]; cases a <;> cases b <;> cases c <;> cases d <;> decide
  · rw [h1]; cases a <;> cases b <;> cases c <;> cases d <;> decide
  · rw [h2]; cases a <;> cases b <;> cases c <;> cases d <;> decide
  · rw [h3]; cases a <;> cases b <;> cases c <;> cases d <;> decide
theorem foldl_prbs (p lk : Nat) (errs : List Nat) (l : List Nat) (s : State) : (l.foldl (fun t k => if bit lk k then t.count (LNK_PRBS_ERR p k) 31 0 ((errs[k]?).getD 0) else t) s).links = s.links ∧
    (l.foldl (fun t k => if bit lk k then t.count (LNK_PRBS_ERR p k) 31 0 ((errs[k]?).getD 0) else t) s).reg (LNK_PRBS_CTL p) = s.reg (LNK_PRBS_CTL p) := by
  induction l generalizing s with
  | nil => exact ⟨rfl, rfl⟩
  | cons k l ih =>
    rw [List.foldl_cons, (ih _).1, (ih _).2]
    split
    · exact ⟨rfl, State.reg_count_ne _ (LNK_PRBS_ERR p k) (LNK_PRBS_CTL p) _ _ _ (by unfold LNK_PRBS_ERR LNK_PRBS_CTL; omega)⟩
    · exact ⟨rfl, rfl⟩
theorem gotTxn_ok (u : State) (p vc : Nat) (r : RxPart) (h : u.links.fenced.contains r.hdr.org = false) :
    (u.gotTxn p vc r).links.inbox = u.links.inbox ++ [(p, ⟨r.hdr, r.data.take r.hdr.length, vc⟩)] ∧
    (u.gotTxn p vc r).lport p = { u.lport p with rxPart := mdel (u.lport p).rxPart vc } := by
  unfold State.gotTxn
  extract_lets s1
  have e2 : s1.links.inbox = u.links.inbox := by unfold s1; rw [links_modLport]
  rw [h, if_neg (by decide)]
  exact ⟨congrArg (· ++ [(p, (⟨r.hdr, r.data.take r.hdr.length, vc⟩ : LTxn))]) e2, show s1.lport p = _ from lport_modLport _ _ _⟩

/-! ### Membership -/

theorem linkWork_applyMerged (s : State) (c : Nat) (e : LinkEntry) (cs : List (List Byte)) (j : Nat) : ((s.applyMerged c e cs j).ctx c).linkWork = (s.ctx c).linkWork := by
  unfold State.applyMerged
  extract_lets k x code miss lo nb set mb va s1
  have e1 : (s1.ctx c).linkWork = (s.ctx c).linkWork := by
    unfold s1
    clear_value set
    suffices h : ∀ (l : List Nat) (s : State), ((l.foldl (fun t b => if t.mapBit c va b then t else t.vpoke c (va + b / 8) (natLe 1 (byteAt (t.vpeek c (va + b / 8) 1) 0 + 2 ^ (b % 8)))) s).ctx c).linkWork = (s.ctx c).linkWork from h set s
    intro l
    induction l with
    | nil => intro s; rfl
    | cons b l ih =>
      intro s
      rw [List.foldl_cons, ih]
      split
      · rfl
      · obtain ⟨_, _, _, _, h⟩ := ctx_vpoke s c (va + b / 8) (natLe 1 (byteAt (s.vpeek c (va + b / 8) 1) 0 + 2 ^ (b % 8)))
        rw [h]
  rw [State.ctx_modCtx]
  exact e1
theorem foldl_unfence (l : List Nat) (s : State) (h : s.links.fenced = []) : l.foldl State.unfencePart s = s := by
  induction l with
  | nil => rfl
  | cons p l ih =>
    have e : s.unfencePart p = s := by
      unfold State.unfencePart
      rw [h]
      rfl
    rw [List.foldl_cons, e, ih]
theorem colls_memberDone (s : State) (c a e st : Nat) : ((s.memberDone c a e st).ctx c).colls = (s.ctx c).colls := by
  unfold State.memberDone
  split
  · rfl
  · rename_i k cmd _
    simp only
    split
    · obtain ⟨_, _, _, _, _, h⟩ := State.ctx_complete (s := s.deliverFlag c (byteAt cmd.desc 4) true) c k st e
      rw [h]
      unfold State.deliverFlag
      split
      · dsimp only
        split
        · rw [State.ctx_of_ctxs (State.setFld_ctxs _ _ _ _ _), State.ctx_modCtx]
        · rw [State.ctx_modCtx]
      · unfold State.setFlag
        rw [State.ctx_modCtx]
    · obtain ⟨_, _, _, _, _, h⟩ := State.ctx_complete (s := s) c k st e
      rw [h]

/-! ### Memory and paging -/

theorem ctxs_freeFrames (s : State) (fs : List Nat) (c : Nat) : (s.freeFrames fs).ctx c = s.ctx c :=
  State.ctx_of_ctxs ((State.freeFrames_kept (m := 0x82f) rfl (Kept.refl _ s)).same .ctxs rfl) c
theorem ctx_freeFrame (s : State) (f : Nat) (c : Nat) : (s.freeFrame f).ctx c = s.ctx c :=
  State.ctx_of_ctxs ((State.freeFrame_kept (m := 0x82f) rfl (Kept.refl _ s)).same .ctxs rfl) c
theorem pt_pageOut_none (s : State) (c k j : Nat) (h : mfind (s.ctx c).pt j = none) : mfind ((s.pageOut c k).ctx c).pt j = none := by
  unfold State.pageOut
  split
  · exact h
  · rename_i e he
    extract_lets s1
    have e1 : (s1.freeFrame (dpaFrame e.addr)).ctx c = s.ctx c := by
      rw [ctx_freeFrame]
      unfold s1
      split <;> rfl
    unfold State.modPte
    rw [State.ctx_modCtx, e1, he]
    simp only
    by_cases hk : j = k
    · subst hk; rw [h] at he; cases he
    · rw [mfind_mput_ne _ _ _ _ hk]; exact h
theorem pt_unmapOne (s : State) (c : Nat) (d : Bool) (k : Nat) (e : Pte) : mfind ((s.unmapOne c d k e).ctx c).pt k = none ∧
    ∀ j, mfind (s.ctx c).pt j = none → mfind ((s.unmapOne c d k e).ctx c).pt j = none := by
  unfold State.unmapOne
  extract_lets s1
  refine ⟨by rw [State.ctx_modCtx]; exact mfind_mdel_same _ _, fun j hj => ?_⟩
  have e1 : mfind (s1.ctx c).pt j = none := by
    unfold s1
    split
    · exact pt_pageOut_none _ _ _ _ hj
    · rw [ctxs_freeFrames]; exact hj
  rw [State.ctx_modCtx]
  simp only
  by_cases hk : j = k
  · subst hk; exact mfind_mdel_same _ _
  · rw [mfind_mdel_ne _ _ _ hk]; exact e1
theorem pt_unmapAll (l : List (Nat × Pte)) (s : State) (c : Nat) (d : Bool) :
    (∀ e ∈ l, mfind ((l.foldl (fun t e => t.unmapOne c d e.1 e.2) s).ctx c).pt e.1 = none) ∧
    ∀ j, mfind (s.ctx c).pt j = none → mfind ((l.foldl (fun t e => t.unmapOne c d e.1 e.2) s).ctx c).pt j = none := by
  induction l generalizing s with
  | nil => exact ⟨fun e he => (List.not_mem_nil he).elim, fun j hj => hj⟩
  | cons x l ih =>
    have h := ih (s.unmapOne c d x.1 x.2)
    have h0 := pt_unmapOne s c d x.1 x.2
    refine ⟨fun e he => ?_, fun j hj => h.2 j (h0.2 j hj)⟩
    obtain rfl | he := List.mem_cons.mp he
    · exact h.2 _ h0.1
    · exact h.1 e he
theorem mfind_foldl_mput {α : Type} (g : Nat → α) (l : List Nat) (m : Map α) (b : Nat) :
    mfind (l.foldl (fun m b => mput m b (g b)) m) b = if b ∈ l then some (g b) else mfind m b := by
  induction l generalizing m with
  | nil => rfl
  | cons x l ih =>
    rw [List.foldl_cons, ih]
    by_cases hb : b ∈ l
    · rw [if_pos hb, if_pos (List.mem_cons_of_mem _ hb)]
    · rw [if_neg hb]
      by_cases he : b = x
      · subst he; rw [if_pos (List.mem_cons_self ..), mfind_mput_same]
      · rw [if_neg (by rintro h; obtain h | h := List.mem_cons.mp h <;> contradiction), mfind_mput_ne _ _ _ _ he]
theorem foldl_raise_frame {β : Type} (f : State → β → State) (hf : ∀ t e, (f t e).mem = t.mem ∧ (f t e).now = t.now) (l : List β) (s : State) :
    (l.foldl f s).mem = s.mem ∧ (l.foldl f s).now = s.now := by
  induction l generalizing s with
  | nil => exact ⟨rfl, rfl⟩
  | cons x l ih => exact ⟨(ih _).1.trans (hf _ _).1, (ih _).2.trans (hf _ _).2⟩
theorem frame_retireIfFree (s : State) (f : Nat) : ∃ r, (s.retireIfFree f).frame f = { s.frame f with retired := r } := by
  unfold State.retireIfFree
  extract_lets x
  have key : ∀ a, ∃ r, (s.retire f a).frame f = { s.frame f with retired := r } := by
    intro a
    refine ⟨true, ?_⟩
    unfold State.retire State.frame
    rw [State.raise_mem, State.flagCount_mem]
    exact mget_mset_same _ _ _ _
  split
  · exact ⟨x.retired, rfl⟩
  · split
    · exact key 0
    · split
      · exact key 1
      · exact ⟨x.retired, rfl⟩
theorem reg_retireIfFree (s : State) (f k : Nat) (h : NotEvt k) (h1 : k ≠ MEM_STATUS) (h2 : k ≠ MEM_EVT_CNT1) : (s.retireIfFree f).reg k = s.reg k := by
  have key : ∀ a, (s.retire f a).reg k = s.reg k := by
    intro a
    unfold State.retire
    rw [State.reg_raise h, State.reg_flagCount_ne _ _ _ _ _ _ _ h1 h2]
    rfl
  unfold State.retireIfFree
  extract_lets x
  split
  · rfl
  · split
    · exact key 0
    · split
      · exact key 1
      · rfl
theorem st_tearDown (s : State) (c code n : Nat) (h : (s.ctx c).st.canFault = true) : ((s.tearDown c code n).ctx c).st = .faulted := by
  unfold State.tearDown
  rw [if_neg (by intro e; rw [e] at h; cases h), if_pos h]
  extract_lets s2 s3 s4
  rw [State.ctx_raise]
  exact State.st_enter _ _
theorem st_faultCtx (s : State) (c code n : Nat) (pay : List (Nat × Nat × Nat)) (h : (s.ctx c).st.canFault = true) :
    ((s.faultCtx c code n pay).ctx c).st = .faulted := by
  unfold State.faultCtx
  exact st_tearDown _ _ _ _ (by rw [State.ctx_raise]; exact h)
theorem st_memUncorr (s : State) (src unit n addr c : Nat) (h : (s.ctx c).st.canFault = true) : ((s.memUncorr src unit n addr (some c)).ctx c).st = .faulted := by
  unfold State.memUncorr
  exact st_faultCtx _ _ _ _ _ h
theorem ctx_retireIfFree (s : State) (f c : Nat) : (s.retireIfFree f).ctx c = s.ctx c := by
  have key : ∀ a, (s.retire f a).ctx c = s.ctx c := by
    intro a
    unfold State.retire
    rw [State.ctx_raise]; rfl
  unfold State.retireIfFree
  extract_lets x
  split
  · rfl
  · split
    · exact key 0
    · split
      · exact key 1
      · rfl
theorem allocFrame_shape {s u : State} {mask f : Nat} {o : Option Nat} {b : Bool} (h : s.allocFrame mask o b = some (f, u)) :
    u.ctxs = s.ctxs ∧ u.mem.pageIns = s.mem.pageIns ∧ u.mem.wants = s.mem.wants := by
  unfold State.allocFrame at h
  split at h
  · cases h
  · simp only [Option.some.injEq, Prod.mk.injEq] at h
    obtain ⟨_, rfl⟩ := h
    exact ⟨rfl, rfl, rfl⟩

/-! ### Transfers -/

theorem flag_setFlag (s : State) (c f : Nat) (v : Bool) (h : f < 256) : (s.setFlag c f v).flag c f = v := by
  unfold State.setFlag State.flag
  rw [State.ctx_modCtx]
  unfold flagPut
  cases v <;> simp [h]
theorem byteAt_lt (d : List Byte) (o : Nat) : byteAt d o < 256 := by
  unfold byteAt fieldLe
  cases h : (d.drop o) with
  | nil => exact Nat.zero_lt_succ _
  | cons x l =>
    rw [List.take_succ_cons, List.take_zero]
    have := x.isLt
    unfold leNat leNat
    omega
theorem endMove_act (s : State) (n c : Nat) (op : ActiveOp) : ((s.endMove n c op).au n).act 5 = none := by
  have e : ∀ x : State, (((x.endOp n 5).progress c).au n).act 5 = none := by
    intro x
    unfold State.progress State.endOp
    rw [State.au_modCtx, State.au_modAu]
    exact mfind_mdel_same _ _
  unfold State.endMove
  dsimp only
  split
  · rw [State.au_setFlag, e]
  · exact e _
theorem freeSeg_segs (s : State) (id : Nat) : mfind (s.freeSeg id).mem.segs id = none := by
  unfold State.freeSeg
  split
  · assumption
  · rename_i g h
    extract_lets m1 s1 m2 s2
    have e : mfind s2.mem.segs id = none := by
      unfold s2
      split <;> exact mfind_mdel_same _ _
    split
    · exact e
    · rw [State.modAu_mem]; exact e

/-! ### Host ports -/

theorem port_foldl {f : State → Nat → State} (h : ∀ u n q, (f u n).port q = u.port q) (l : List Nat) (s : State) (q : Nat) : (l.foldl f s).port q = s.port q := by
  induction l generalizing s with
  | nil => rfl
  | cons x l ih => rw [List.foldl_cons, ih, h]
theorem port_resetPort (s : State) (p : Nat) : (s.resetPort p).port p = { s.port p with numVfs := 0, bar4 := 36, ide := [], ideKeys := [] } := by
  unfold State.resetPort
  extract_lets s1
  rw [State.port_modPort]
  have e : s1.port p = s.port p := port_foldl (fun u n q => State.port_of_ports ((State.resetFn_kept (m := 0x28) (f := n) rfl (Kept.refl _ u)).same .ports rfl) q) _ _ _
  rw [State.port_of_ports (State.dropRegs_ports _ _ _), State.port_of_ports (State.dropRegs_ports _ _ _), e]
theorem dlUp_linkGone (s : State) (p r : Nat) : ((s.linkGone p r).port p).dlUp = false := by
  unfold State.linkGone
  extract_lets s1
  rw [port_resetPort, State.port_modPort]
theorem ports_loseCtx (s : State) (c : Nat) : (s.loseCtx c).ports = s.ports :=
  (State.loseCtx_kept (m := 0xfffef) rfl (Kept.refl _ s)).same .ports rfl

/-! ### Power -/

theorem showFuses_low (s : State) {k : Nat} (h1 : k ≠ SEC_LC) (h2 : k ≠ SEC_FUSE) : s.showFuses.reg k = s.reg k := by
  unfold State.showFuses
  extract_lets f st
  rw [State.reg_setReg_ne _ _ _ _ h2, State.reg_setFld_ne _ _ _ _ _ _ h1, State.reg_setFld_ne _ _ _ _ _ _ h1]
theorem fwState_comeUp (s : State) : s.comeUp.fld SEC_FW_STATUS 31 30 = 0 := by
  have n : ∀ (l : List Nat) (v : Nat → Nat) (s : State), (∀ i ∈ l, i < 4) → (l.foldl (fun x i => x.setReg (SEC_LC_NONCE i) (v i)) s).reg SEC_FW_STATUS = s.reg SEC_FW_STATUS := by
    intro l v
    induction l with
    | nil => intro s _; rfl
    | cons i l ih =>
      intro s h
      have := h i (List.mem_cons_self ..)
      rw [List.foldl_cons, ih _ (fun j hj => h j (List.mem_cons_of_mem _ hj)), State.reg_setReg_ne _ _ _ _ (by unfold SEC_FW_STATUS SEC_LC_NONCE; omega)]
  unfold State.comeUp
  extract_lets s1
  rw [State.fld_of_reg (reg_capStatus (NotEvt.mid (by decide) (by decide) (by decide)) (by decide)), State.fld_setFld_ne _ _ _ _ _ _ _ _ (by decide),
    State.fld_setFld_ne _ _ _ _ _ _ _ _ (by decide), State.fld_setFld_ne _ _ _ _ _ _ _ _ (by decide)]
  unfold s1 State.newNonce
  extract_lets p
  rw [State.fld_of_reg (n _ _ _ (by simp)), State.fld_of_reg (State.reg_of_regs (show p.2.regs = (s.hostLost true).showFuses.regs from rfl) _), State.fld_of_reg (showFuses_low _ (by decide) (by decide))]
  show State.reset.fld SEC_FW_STATUS 31 30 = 0
  decide +kernel
theorem mget_foldl_mset (f : Nat → Nat) (l : List Nat) (m : Map Nat) (d : Nat) (h : d ∈ l) : mget 0 (l.foldl (fun m d => mset 0 m d (f d)) m) d = f d := by
  have aux : ∀ (l : List Nat) (m : Map Nat), (d ∈ l → mget 0 (l.foldl (fun m d => mset 0 m d (f d)) m) d = f d) ∧ (mget 0 m d = f d → mget 0 (l.foldl (fun m d => mset 0 m d (f d)) m) d = f d) := by
    intro l
    induction l with
    | nil => exact fun m => ⟨fun h => (List.not_mem_nil h).elim, id⟩
    | cons x l ih =>
      intro m
      have key : d = x → mget 0 (mset 0 m x (f x)) d = f d := by rintro rfl; exact mget_mset_same _ _ _ _
      refine ⟨fun h => ?_, fun h => ?_⟩
      · obtain rfl | h := List.mem_cons.mp h
        · exact (ih _).2 (key rfl)
        · exact (ih _).1 h
      · refine (ih _).2 ?_
        by_cases e : d = x
        · exact key e
        · rw [mget_mset_ne _ _ _ _ _ e]; exact h
  exact (aux l m).1 h
theorem pickMhz_le (a r : Nat) : pickMhz a r ≤ max 250 a := by
  unfold pickMhz
  have h : r % ((max a 250 - 250) / 10 + 1) < (max a 250 - 250) / 10 + 1 := Nat.mod_lt _ (Nat.succ_pos _)
  omega
theorem setClocks_spec (s : State) (f : Nat → Nat) : (s.setClocks f).regs = s.regs ∧ (s.setClocks f).power.watts = s.power.watts ∧ ∀ d, d < 24 → mget 0 (s.setClocks f).power.mhz d ≤ max 250 (f d) := by
  refine ⟨rfl, rfl, fun d hd => ?_⟩
  unfold State.setClocks
  extract_lets p hi mhz mv
  show mget 0 (domains.foldl (fun m d => mset 0 m d (mhz d)) _) d ≤ _
  rw [mget_foldl_mset mhz domains _ d (List.mem_range.mpr hd)]
  exact pickMhz_le _ _
theorem reg64_setReg64 (s : State) (a b v : Nat) (h : a ≠ b) (hv : v < 2 ^ 64) : (s.setReg64 a b v).reg64 a b = v := by
  unfold State.setReg64 State.reg64
  rw [State.reg_setReg_ne _ _ _ _ h, State.reg_setReg, State.reg_setReg]
  omega
theorem energy_other (s : State) (a b e k i : Nat) (h : 256 * k + i ≠ 256 * a + b) : (s.addEnergy a b e).energy k i = s.energy k i :=
  mget_mset_ne _ _ _ _ _ h
theorem energy_power {f : State → Nat → State} {k i : Nat} (h : ∀ u n, (f u n).energy k i = u.energy k i) {l : List Nat} {s : State} : (l.foldl f s).energy k i = s.energy k i := by
  induction l generalizing s with
  | nil => rfl
  | cons x l ih => rw [List.foldl_cons, ih, h]
theorem energy_attribute (s : State) (c e own k i : Nat) : (s.attribute c e own).energy k i = s.energy k i := by
  have key : ∀ (s : State) (c e : Nat) (p : Cmd → Bool), (s.credit c e p).1.power = s.power := by
    intro s c e p
    unfold State.credit
    split <;> rfl
  unfold State.energy State.attribute
  extract_lets s1 p rest q
  have e1 : q.1.power = s.power := by
    unfold q
    rw [key]
    unfold p
    rw [key]
    rfl
  split
  · show mget 0 q.1.power.uj _ = _
    rw [e1]
  · rw [e1]

/-! ### Programs -/

theorem au_foldl_modAu {P : Au → Prop} (f : Nat × Nat → Au → Au) (hf : ∀ e a, P (f e a)) (l : List (Nat × Nat)) (s : State) (n : Nat)
    (h : (∃ e ∈ l, e.2 = n) ∨ P (s.au n)) : P ((l.foldl (fun t e => t.modAu e.2 (f e)) s).au n) := by
  induction l generalizing s with
  | nil =>
    obtain ⟨_, h, _⟩ | h := h
    · cases h
    · exact h
  | cons e l ih =>
    refine ih _ ?_
    by_cases he : n = e.2
    · subst he
      right
      rw [State.au_modAu]
      exact hf _ _
    · rw [State.au_modAu_ne _ _ _ _ he]
      obtain ⟨x, hx, hn⟩ | h := h
      · obtain rfl | hx := List.mem_cons.mp hx
        · exact absurd hn.symm he
        · exact Or.inl ⟨x, hx, hn⟩
      · exact Or.inr h
theorem launchAll_facts (s : State) (c arg : Nat) (p : Program) (hp : (s.ctx c).prog = some p) :
    ((s.launchAll c arg).ctx c).st = (s.ctx c).st ∧
    ∀ l n, mfind (s.ctx c).place l = some n → ((s.launchAll c arg).au n).core.running = true ∧ ((s.launchAll c arg).au n).core.finished = false := by
  unfold State.launchAll
  rw [hp]
  simp only
  refine ⟨?_, fun l n h => ?_⟩
  · rw [State.ctx_of_ctxs (foldl_modAu_ctxs _ _ _), State.ctx_modCtx]
  · exact au_foldl_modAu (P := fun a => a.core.running = true ∧ a.core.finished = false) _ (fun _ _ => ⟨rfl, rfl⟩) _ _ _
      (Or.inl ⟨_, mem_of_mfind _ _ _ h, rfl⟩)

/-! ### Register accesses -/

theorem writeWord_reg {s : State} {f : FnId} {off w : Nat} {r : RegAt} (h1 : s.target f off = .reg r) (h2 : (s.rowWrite f r w).isNone = true) (h3 : r.own = true) (h4 : s.writeShut r.off = false) :
    s.writeWord f off w = s.putReg f r (s.adjust r.off (s.reg r.key) w) := by
  unfold State.writeWord
  rw [h1]
  dsimp only
  rw [Option.isNone_iff_eq_none.mp h2]
  dsimp only
  rw [if_neg (by rw [h3]; decide), if_neg (by rw [h4]; decide)]
theorem fn_answer (x : State) (a : List Byte) (f : Nat) : ({ x with answer := a } : State).fn f = x.fn f := rfl
theorem reg_openValue (s : State) (f off v k : Nat) : (s.openValue f off v).2.reg k = s.reg k := by
  exact (State.openValue_kept (m := 0x10000) rfl (Kept.refl _ s)).same .regs rfl k

/-! ### The Roller and the solvers -/

theorem roll_detach (id : Nat) (c n : Nat) (pay : State → Nat × Rcv → List (Nat × Nat × Nat)) (es : List (Nat × Rcv)) (s : State) (x : RollerXfer) (h : mfind s.mem.rollers id = some x) :
    ∃ y, mfind (es.foldl (fun u e => ((u.modRcv id e.1 fun v => { v with attached := false }).flagCount MEM_STATUS 3 MEM_EVT_CNT0 15 0).raise 0x0320 (.ctx c) (pay s e)) s).mem.rollers id = some y
      ∧ y.issued = x.issued ∧ ∀ (r : Nat) (v : Rcv), x.rcvs[r]? = some v → (v.attached = false ∨ r ∈ es.map (·.1)) → ∃ z, y.rcvs[r]? = some z ∧ z.attached = false := by
  have key : ∀ (es : List (Nat × Rcv)) (u : State) (x : RollerXfer), mfind u.mem.rollers id = some x →
      ∃ y, mfind (es.foldl (fun u e => ((u.modRcv id e.1 fun v => { v with attached := false }).flagCount MEM_STATUS 3 MEM_EVT_CNT0 15 0).raise 0x0320 (.ctx c) (pay s e)) u).mem.rollers id = some y
        ∧ y.issued = x.issued ∧ ∀ (r : Nat) (v : Rcv), x.rcvs[r]? = some v → (v.attached = false ∨ r ∈ es.map (·.1)) → ∃ z, y.rcvs[r]? = some z ∧ z.attached = false := by
    intro es
    induction es with
    | nil =>
      intro u x h
      refine ⟨x, h, rfl, fun r v h1 h2 => ⟨v, h1, ?_⟩⟩
      rcases h2 with h2 | h2
      · exact h2
      · cases h2
    | cons e es ih =>
      intro u x h
      rw [List.foldl_cons]
      obtain ⟨y, h1, h2, h3⟩ := ih (((u.modRcv id e.1 fun v => { v with attached := false }).flagCount MEM_STATUS 3 MEM_EVT_CNT0 15 0).raise 0x0320 (.ctx c) (pay s e))
        { x with rcvs := x.rcvs.modify e.1 fun v => { v with attached := false } } (by
          rw [State.raise_mem, State.flagCount_mem]
          unfold State.modRcv
          rw [h]
          exact mfind_mput_same _ _ _)
      refine ⟨y, h1, h2, fun r v q1 q2 => ?_⟩
      by_cases he : e.1 = r
      · exact h3 r { v with attached := false } (by dsimp only; rw [List.getElem?_modify, q1]; exact congrArg some (if_pos he)) (Or.inl rfl)
      · refine h3 r v (by dsimp only; rw [List.getElem?_modify, q1]; exact congrArg some (if_neg he)) ?_
        rcases q2 with q2 | q2
        · exact Or.inl q2
        · rw [List.map_cons] at q2
          rcases List.mem_cons.mp q2 with q2 | q2
          · exact absurd q2.symm he
          · exact Or.inr q2
  exact key es s x h
theorem solver_vpoke (s : State) (c va : Nat) (bs : List Byte) : (s.vpoke c va bs).solver = s.solver :=
  (State.vpoke_kept (m := 0xc7) rfl (Kept.refl _ s)).same .solver rfl
theorem putRoot_solver (s : State) (c b n k : Nat) : (s.putRoot c b n k).solver = s.solver := by
  unfold State.putRoot
  split
  · rfl
  · exact solver_vpoke _ _ _ _
theorem putRoot_refresh (s : State) (c b n k : Nat) : ((s.putRoot c b n k).ctx c).refresh = (s.ctx c).refresh := by
  unfold State.putRoot
  split
  · rfl
  · obtain ⟨p, x, y, z, e⟩ := ctx_vpoke s c _ _
    rw [e]

/-! ### The Screed -/

theorem scrCmd_compute {s v : State} {n k c l : Nat} {op : ActiveOp} (h1 : s.opOf n 3 = some (c, l, op)) (h2 : opKind op.word = k) (h3 : op.done < scrRows op.word)
  (h4 : v = s.modAu n fun x => x.gather op.word op.done 0 [] (scrInputs op.word)) (h5 : (v.au n).screed.outs.isEmpty = true) (h6 : (v.au n).screed.gathered op.word op.done = true) :
  s.scrCmd n k = (v.scrCompute n c op).scrPushOut n c := by
  unfold State.scrCmd
  rw [h1]
  dsimp only
  rw [if_pos h2]
  unfold State.scrStep
  dsimp only
  rw [if_pos h3, ← h4]
  rw [if_pos ⟨h3, h5, h6⟩]

/-! ### Life cycle and debug -/

theorem sec_newNonce (s : State) : s.newNonce.sec = s.sec :=
  (State.newNonce_kept (m := 0x10008) rfl (Kept.refl _ s)).same .sec rfl
theorem sec_lcChanged (s : State) (a b c : Nat) : (s.lcChanged a b c).sec = s.sec := by unfold State.lcChanged; exact State.raise_sec _ _ _
theorem sec_lcAnswer (s : State) (a : Nat) (b : Bool) : (s.lcAnswer a b).sec = s.sec := by
  unfold State.lcAnswer
  split <;> rfl
theorem port_answer (x : State) (a : List Byte) (p : Nat) : ({ x with answer := a } : State).port p = x.port p := rfl
theorem logPut_reg (s : State) (p k : Nat) (bs : List Byte) (h : k < 0x501000) : (s.logPut p bs).reg k = s.reg k := by
  unfold State.logPut
  split
  · dsimp only
    rw [State.reg_setFld_ne _ _ _ _ _ _ (by unfold SEC_LOG_TAIL; omega), State.reg_hostWrite]
  · rw [State.reg_of_regs (regs_onSec _ _), State.reg_count_ne _ _ _ _ _ _ (by unfold SEC_LOG_LOST; omega)]
theorem logPut_sec (s : State) (p : Nat) (bs : List Byte) : (s.logPut p bs).sec.logs = s.sec.logs ∧ (s.logPut p bs).sec.logSeq = s.sec.logSeq ∧ (s.logPut p bs).answer = s.answer := by
  unfold State.logPut
  split
  · dsimp only
    rw [State.setFld_sec, State.setFld_answer, State.hostWrite_sec, State.hostWrite_answer]
    exact ⟨rfl, rfl, rfl⟩
  · rw [sec_onSec]
    exact ⟨rfl, rfl, rfl⟩
theorem logAdd_keeps (s : State) (a c p : Nat) (d : List Byte) : (∀ k, k < 0x501000 → (s.logAdd a c p d).reg k = s.reg k)
    ∧ (s.logAdd a c p d).sec.logs = (s.sec.logs ++ [logRecordBytes p a (if c < 64 then c else 0xFF) s.now s.sec.logSeq d]).drop (s.sec.logs.length + 1 - 16384)
    ∧ (s.logAdd a c p d).sec.logSeq = (s.sec.logSeq + 1) % 2 ^ 32 ∧ (s.logAdd a c p d).answer = s.answer := by
  have e : ∀ t : State, (s.onSec fun x => { x with logs := (x.logs ++ [logRecordBytes p a (if c < 64 then c else 0xFF) s.now s.sec.logSeq d]).drop ((x.logs ++ [logRecordBytes p a (if c < 64 then c else 0xFF) s.now s.sec.logSeq d]).length - 16384), logSeq := (x.logSeq + 1) % 2 ^ 32 }) = t →
      (∀ k, k < 0x501000 → t.reg k = s.reg k) ∧ t.sec.logs = (s.sec.logs ++ [logRecordBytes p a (if c < 64 then c else 0xFF) s.now s.sec.logSeq d]).drop (s.sec.logs.length + 1 - 16384)
      ∧ t.sec.logSeq = (s.sec.logSeq + 1) % 2 ^ 32 ∧ t.answer = s.answer := by
    rintro t rfl
    refine ⟨fun k _ => State.reg_of_regs (regs_onSec _ _) k, ?_, by rw [sec_onSec], State.onSec_answer _ _⟩
    rw [sec_onSec]
    dsimp only
    rw [List.length_append]
    rfl
  have e := e _ rfl
  unfold State.logAdd
  dsimp only
  split
  · split
    · refine ⟨fun k hk => (logPut_reg _ _ _ _ hk).trans (e.1 k hk), (logPut_sec _ _ _).1.trans e.2.1, (logPut_sec _ _ _).2.1.trans e.2.2.1, (logPut_sec _ _ _).2.2.trans e.2.2.2⟩
    · refine ⟨fun k hk => ((logPut_reg _ _ _ _ hk).trans (logPut_reg _ _ _ _ hk)).trans (e.1 k hk), ((logPut_sec _ _ _).1.trans (logPut_sec _ _ _).1).trans e.2.1, ((logPut_sec _ _ _).2.1.trans (logPut_sec _ _ _).2.1).trans e.2.2.1, ((logPut_sec _ _ _).2.2.trans (logPut_sec _ _ _).2.2).trans e.2.2.2⟩
  · exact e

/-! ### Boot -/

theorem foldr_lt (bs : List Byte) (n : Nat) (h : bs.length ≤ n) : leNat bs < 2 ^ (8 * n) := by
  induction bs generalizing n with
  | nil => exact Nat.two_pow_pos _
  | cons b bs ih =>
    obtain _ | n := n
    · cases h
    · have := ih n (by simpa using h)
      have hb := b.isLt
      unfold leNat
      rw [show 8 * (n + 1) = 8 * n + 8 by omega, Nat.pow_add]
      omega
theorem fieldLe_lt (h : List Byte) (a n : Nat) : fieldLe h a n < 2 ^ (8 * n) := by
  unfold fieldLe
  exact foldr_lt _ _ (by rw [List.length_take]; omega)
theorem identity_of {u v : State} (h1 : u.sec.fuses = v.sec.fuses) (h2 : u.sec.stage1 = v.sec.stage1) (h3 : ∀ k, NotEvt k → u.reg k = v.reg k) : u.identity = v.identity := by
  have n : ∀ k, k = SEC_LC ∨ k = HUB_FW_VERSION ∨ k = HUB_IF_VERSION ∨ k = LNK_PART_ID → NotEvt k := by
    rintro k (rfl | rfl | rfl | rfl) <;> first | exact NotEvt.low (by decide) | exact NotEvt.mid (by decide) (by decide) (by decide)
  unfold State.identity
  rw [h1, h2, h3 _ (n _ (by simp)), h3 _ (n _ (by simp)), State.fld_of_reg (h3 SEC_LC (n _ (by simp))), State.fld_of_reg (h3 LNK_PART_ID (n _ (by simp)))]

/-! ### The Trowel -/

theorem trwCmd_eq {s : State} {n k c l : Nat} {op : ActiveOp} (h1 : s.opOf n 4 = some (c, l, op)) (h2 : opKind op.word = k) : s.trwCmd n k = s.trwStep n c op := by
  unfold State.trwCmd
  rw [h1]
  dsimp only
  rw [if_pos h2]
theorem trwStep_gathered {s v : State} {n c : Nat} {op : ActiveOp} (h1 : op.done = 0) (h2 : v = (s.modAu n fun x => x.trwGather 0 (trwPops op.word)).progress c) (h3 : (v.au n).trowel.gathered op.word = true) :
    s.trwStep n c op = (match opKind op.word with
      | 0 => v.trwUpdate n c op (v.au n).trowel.inp
      | 1 => v.trwAccum n op (v.au n).trowel.inp
      | _ => v.trwTmul n c op (v.au n).trowel.inp) := by
  unfold State.trwStep
  rw [if_pos h1, ← h2]
  dsimp only
  rw [if_pos h3]
  all_goals rfl
theorem setAt_same {α : Type} (l : List α) (k : Nat) (d : α) : setAt l k ((l[k]?).getD d) = l := by
  induction l generalizing k with
  | nil => rfl
  | cons x l ih =>
    cases k with
    | zero => rfl
    | succ k => exact congrArg (x :: ·) (ih k)
theorem pull_empty (a : Au) (q v m n : Nat) (h : (a.queue q).data = []) : (a.pull q v m n).1 = [] ∧ (a.pull q v m n).2.trowel = a.trowel ∧ ((a.pull q v m n).2.queue q).data = [] := by
  have e : ∀ k b, takeSome b k [] = ([], []) := by intro k b; cases k <;> rfl
  have e2 : ∀ x : Queue, ((a.putQueue q x).queue q) = x := fun x => mget_mset_same _ _ _ _
  unfold Au.pull
  dsimp only
  rw [h]
  split
  · exact ⟨by rw [List.take_nil]; rfl, rfl, by rw [e2]; exact List.drop_nil⟩
  · rw [e]
    dsimp only
    split
    · exact ⟨rfl, rfl, by rw [e2]⟩
    · rw [e]; exact ⟨rfl, rfl, by rw [e2]⟩
theorem trwGather_empty (a : Au) (k : Nat) (ts : List TileRec) (h : (a.queue 20).data = []) : (a.trwGather k ts).trowel.inp = a.trowel.inp := by
  induction ts generalizing a k with
  | nil => rfl
  | cons t ts ih =>
    unfold Au.trwGather
    extract_lets hv m p x1 x2 b
    obtain ⟨h1, h2, h3⟩ := pull_empty a 20 m.1 m.2 hv.length h
    have hb : b.trowel.inp = a.trowel.inp := by
      show setAt p.2.trowel.inp k (hv ++ p.1) = _
      rw [show p.1 = [] from h1, show p.2.trowel = a.trowel from h2, List.append_nil]
      exact setAt_same _ _ _
    split
    · rw [ih b _ h3, hb]
    · exact hb

/-! ### Windows -/

theorem reg_answer (s : State) (t : LTxn) (op st off : Nat) (d : List Byte) (k : Nat) (h : k ≠ LNK_EVT_CNT) : (s.answer_ t op st off d).reg k = s.reg k := by
  have hp : ∀ n (s : State) p, (s.pumpGo p n).regs = s.regs := by
    intro n
    induction n with
    | zero => intro s p; rfl
    | succ n ih =>
      intro s p
      unfold State.pumpGo
      split
      · rfl
      · split
        · rw [ih]; rfl
        · rw [ih]; rfl
  unfold State.answer_ State.sendFree
  split
  · rfl
  · split
    · exact State.reg_count_ne _ _ _ _ _ _ h
    · split
      · unfold State.enqueue State.pump
        split
        · exact State.reg_of_regs (hp _ _ _) _
        · rfl
      · rfl
theorem reg_settle (s : State) (id op st off : Nat) (d : List Byte) (k : Nat) (h : k ≠ LNK_EVT_CNT) : (s.settle id op st off d).reg k = s.reg k := by
  unfold State.settle
  split
  · rfl
  · rw [reg_answer _ _ _ _ _ _ _ h]; rfl
theorem settle_frame (s : State) (id op st off : Nat) (d : List Byte) : (s.settle id op st off d).aus = s.aus ∧ (s.settle id op st off d).now = s.now :=
  ⟨(State.settle_kept (m := 0x108) rfl (Kept.refl _ s)).same .aus rfl, (State.settle_kept (m := 0x108) rfl (Kept.refl _ s)).same .now rfl⟩

end Sys2Proof.Machine
end

