-- ==== Sys2Proof/Laws/Frames.lean ====
section
/-! SUPPORT. Lemmas for the frames: operations that change one AU and one context, or one context, alone; the readback of registers;
the stash's free runs; the pieces of a Roller transfer. -/

namespace Sys2Proof.Machine

theorem openValue_answer (t : State) (bs : List Byte) (f o v : Nat) : ({ t with answer := bs }.openValue f o v).1 = (t.openValue f o v).1 ∧
    ({ t with answer := bs }.openValue f o v).2 = { (t.openValue f o v).2 with answer := bs } := by
  unfold State.openValue
  by_cases h1 : 0x800000 ≤ o ∧ o < 0x8C0000 ∧ (auCycles.contains (o % 0x1000) || (decide (4 ≤ o % 0x1000) && auCycles.contains (o % 0x1000 - 4))) = true
  · simp only [if_pos h1]; exact ⟨rfl, rfl⟩
  · simp only [if_neg h1]
    by_cases h2 : 0x800000 ≤ o ∧ o < 0x8C0000 ∧ o % 0x1000 = 0x104
    · simp only [if_pos h2]; exact ⟨rfl, rfl⟩
    · simp only [if_neg h2]
      by_cases h3 : o = 0x608000
      · simp only [if_pos h3]; exact ⟨rfl, rfl⟩
      · simp only [if_neg h3]
        by_cases h4 : o = 0x608004
        · simp only [if_pos h4]; exact ⟨rfl, rfl⟩
        · simp only [if_neg h4]
          by_cases h5 : 0xE10000 ≤ o ∧ o < 0xE14000 ∧ o % 0x100 = 0
          · simp only [if_pos h5]
            by_cases h6 : (t.ctx ((o - 0xE10000) / 0x100)).st = .free
            · have h6' : ({ t with answer := bs }.ctx ((o - 0xE10000) / 0x100)).st = .free := h6
              rw [if_pos h6, if_pos h6']; exact ⟨rfl, rfl⟩
            · have h6' : ¬ ({ t with answer := bs }.ctx ((o - 0xE10000) / 0x100)).st = .free := h6
              rw [if_neg h6, if_neg h6']; exact ⟨rfl, rfl⟩
          · simp only [if_neg h5]
            by_cases h7 : 0xE10000 ≤ o ∧ o < 0xE14000 ∧ o % 0x100 = 4
            · simp only [if_pos h7]
              by_cases h6 : (t.ctx ((o - 0xE10000) / 0x100)).st = .free
              · have h6' : ({ t with answer := bs }.ctx ((o - 0xE10000) / 0x100)).st = .free := h6
                rw [if_pos h6, if_pos h6']; exact ⟨rfl, rfl⟩
              · have h6' : ¬ ({ t with answer := bs }.ctx ((o - 0xE10000) / 0x100)).st = .free := h6
                rw [if_neg h6, if_neg h6']; exact ⟨rfl, rfl⟩
            · rw [if_neg h7, if_neg h7]; exact ⟨rfl, rfl⟩
theorem readReg_answer (t : State) (bs : List Byte) (f : Nat) (r : RegAt) : ({ t with answer := bs }.readReg f r).1 = (t.readReg f r).1 ∧
    ({ t with answer := bs }.readReg f r).2 = { (t.readReg f r).2 with answer := bs } := by
  unfold State.readReg
  dsimp only
  have hreg : ∀ k, ({ t with answer := bs } : State).reg k = t.reg k := fun k => rfl
  have hfn : ({ t with answer := bs } : State).fn f = t.fn f := rfl
  rw [hfn, hreg, hreg]
  generalize (if 4 ≤ r.off ∧ roLo (r.off - 4) = true then mfind (t.fn f).latches (r.key - 4) else none) = L
  cases L with
  | some h => exact ⟨rfl, rfl⟩
  | none =>
    dsimp only
    have e := openValue_answer t bs f r.off (t.reg r.key)
    have e2 := openValue_answer (t.openValue f r.off (t.reg r.key)).2 bs f (r.off + 4) (t.reg (r.key + 4))
    rw [e.1, e.2, e2.1, e2.2]
    refine ⟨rfl, ?_⟩
    by_cases h1 : roLo r.off = true <;> by_cases h2 : r.own = true <;> simp only [h1, h2, if_true, if_false, Bool.false_eq_true] <;> rfl
theorem readWord_answer (t : State) (bs : List Byte) (f : FnId) (o : Nat) : ({ t with answer := bs }.readWord f o).1 = (t.readWord f o).1 ∧
    ({ t with answer := bs }.readWord f o).2 = { (t.readWord f o).2 with answer := bs } := by
  unfold State.readWord
  have ht : ({ t with answer := bs } : State).target f o = t.target f o := rfl
  rw [ht]
  cases t.target f o with
  | nothing => exact ⟨rfl, rfl⟩
  | const v => exact ⟨rfl, rfl⟩
  | emptySlot j q => exact ⟨rfl, rfl⟩
  | reg r =>
    dsimp only
    split
    · exact ⟨rfl, rfl⟩
    · exact readReg_answer t bs f r
theorem leNat_natLe (n v : Nat) : leNat (natLe n v) = v % 256 ^ n := by
  induction n generalizing v with
  | zero => simp [natLe, leNat, Nat.mod_one]
  | succ n ih =>
    rw [natLe, leNat, ih, Nat.pow_succ, Nat.mul_comm (256 ^ n) 256, Nat.mod_mul]
    simp
/-- granule q is free -/
def freeGran (gs : List (Nat × Nat)) (total q : Nat) : Prop := q < total ∧ ∀ g ∈ gs, ¬ (g.1 ≤ q ∧ q < g.1 + g.2)
theorem foldl_min_le (gs : List (Nat × Nat)) (p : Nat) : ∀ n k, k ≤ gs.foldl (fun n g => if p ≤ g.1 ∧ g.2 ≠ 0 then min n (g.1 - p) else n) n ↔
    k ≤ n ∧ ∀ g ∈ gs, p ≤ g.1 → g.2 ≠ 0 → k ≤ g.1 - p := by
  induction gs with
  | nil => intro n k; simp
  | cons g gs ih =>
    intro n k
    rw [List.foldl_cons, ih]
    split
    · rename_i h
      constructor
      · rintro ⟨a, b⟩
        refine ⟨by omega, fun g' hg' h1 h2 => ?_⟩
        rcases List.mem_cons.1 hg' with e | e
        · subst e; omega
        · exact b g' e h1 h2
      · rintro ⟨a, b⟩
        have := b g List.mem_cons_self h.1 h.2
        exact ⟨by omega, fun g' hg' => b g' (List.mem_cons_of_mem _ hg')⟩
    · rename_i h
      constructor
      · rintro ⟨a, b⟩
        refine ⟨a, fun g' hg' h1 h2 => ?_⟩
        rcases List.mem_cons.1 hg' with e | e
        · subst e; exact absurd ⟨h1, h2⟩ h
        · exact b g' e h1 h2
      · rintro ⟨a, b⟩
        exact ⟨a, fun g' hg' => b g' (List.mem_cons_of_mem _ hg')⟩
theorem freeFrom_iff (gs : List (Nat × Nat)) (total p n : Nat) (hn : 0 < n) : n ≤ freeFrom gs total p ↔ ∀ q, p ≤ q → q < p + n → freeGran gs total q := by
  unfold freeFrom
  split
  · rename_i h
    constructor
    · intro hh; omega
    · intro hh
      obtain ⟨g, hg, h1⟩ := List.any_eq_true.1 h
      simp only [Bool.and_eq_true, decide_eq_true_iff] at h1
      exact absurd h1 ((hh p (Nat.le_refl _) (by omega)).2 g hg)
  · rename_i h
    rw [foldl_min_le]
    have h' : ∀ g ∈ gs, ¬ (g.1 ≤ p ∧ p < g.1 + g.2) := by
      intro g hg hc
      apply h
      exact List.any_eq_true.2 ⟨g, hg, by simp [hc.1, hc.2]⟩
    constructor
    · rintro ⟨a, b⟩ q h1 h2
      refine ⟨by omega, fun g hg hc => ?_⟩
      have := h' g hg
      by_cases hp : p ≤ g.1
      · have := b g hg hp (by omega); omega
      · omega
    · intro hh
      have h0 := hh (p + n - 1) (by omega) (by omega)
      refine ⟨by have := h0.1; omega, fun g hg h1 h2 => ?_⟩
      refine Classical.byContradiction fun hc => ?_
      exact (hh g.1 h1 (by omega)).2 g hg ⟨Nat.le_refl _, by omega⟩
theorem foldl_min (l : List Nat) : ∀ a, l.foldl min a ≤ a ∧ (∀ x ∈ l, l.foldl min a ≤ x) ∧ (l.foldl min a = a ∨ l.foldl min a ∈ l) := by
  induction l with
  | nil => intro a; simp
  | cons x l ih =>
    intro a
    obtain ⟨h1, h2, h3⟩ := ih (min a x)
    rw [List.foldl_cons]
    refine ⟨by omega, fun y hy => ?_, ?_⟩
    · rcases List.mem_cons.1 hy with e | e
      · subst e; omega
      · exact h2 y e
    · rcases h3 with h | h
      · by_cases hc : a ≤ x
        · left; omega
        · right; rw [h, show min a x = x by omega]; exact List.mem_cons_self
      · right; exact List.mem_cons_of_mem _ h
theorem start_exists (gs : List (Nat × Nat)) (total n : Nat) (hn : 0 < n) : ∀ p, (∀ q, p ≤ q → q < p + n → freeGran gs total q) →
    ∃ p' ∈ runStarts gs, p' ≤ p ∧ ∀ q, p' ≤ q → q < p' + n → freeGran gs total q := by
  intro p
  induction p with
  | zero => intro h; exact ⟨0, List.mem_cons_self, Nat.le_refl _, h⟩
  | succ p ih =>
    intro h
    by_cases hf : freeGran gs total p
    · obtain ⟨p', h1, h2, h3⟩ := ih (fun q a b => by
        by_cases e : q = p
        · subst e; exact hf
        · exact h q (by omega) (by omega))
      exact ⟨p', h1, by omega, h3⟩
    · have hp := h (p + 1) (Nat.le_refl _) (by omega)
      have : ∃ g ∈ gs, g.1 ≤ p ∧ p < g.1 + g.2 := by
        refine Classical.byContradiction fun hc => ?_
        apply hf
        refine ⟨by have := hp.1; omega, fun g hg hh => hc ⟨g, hg, hh⟩⟩
      obtain ⟨g, hg, h1, h2⟩ := this
      have h3 := hp.2 g hg
      refine ⟨p + 1, ?_, Nat.le_refl _, h⟩
      refine List.mem_cons_of_mem _ (List.mem_map.2 ⟨g, hg, ?_⟩)
      omega
theorem foldl_max (l : List Nat) : ∀ a, a ≤ l.foldl max a ∧ (∀ x ∈ l, x ≤ l.foldl max a) ∧ (l.foldl max a = a ∨ l.foldl max a ∈ l) := by
  induction l with
  | nil => intro a; simp
  | cons x l ih =>
    intro a
    obtain ⟨h1, h2, h3⟩ := ih (max a x)
    rw [List.foldl_cons]
    refine ⟨by omega, fun y hy => ?_, ?_⟩
    · rcases List.mem_cons.1 hy with e | e
      · subst e; omega
      · exact h2 y e
    · rcases h3 with h | h
      · by_cases hc : a ≤ x
        · right; rw [h, show max a x = x by omega]; exact List.mem_cons_self
        · left; omega
      · right; exact List.mem_cons_of_mem _ h
theorem cut (n : Nat) : ∀ (f w at_ : Nat), n ≤ 2048 * (f - 1) ∨ n = 0 ∨ (0 < f ∧ n ≤ toBoundary w + 2048 * (f - 1)) →
    ((cutSegs w at_ f n).map fun g => g.2.2).sum = n ∧
    (∀ g ∈ cutSegs w at_ f n, 0 < g.2.2 ∧ g.2.2 ≤ 2048 ∧ g.1 / 2048 = (g.1 + g.2.2 - 1) / 2048) ∧
    (∀ (k : Nat) (g : Nat × Nat × Nat), (cutSegs w at_ f n)[k]? = some g → g.2.1 = at_ + (((cutSegs w at_ f n).take k).map fun g => g.2.2).sum ∧ g.1 = w + (((cutSegs w at_ f n).take k).map fun g => g.2.2).sum) := by
  induction n using Nat.strongRecOn with
  | _ n ih =>
    intro f w at_ hf
    cases f with
    | zero =>
      have : n = 0 := by omega
      subst this
      exact ⟨rfl, fun g hg => (by cases hg), fun k g hk => (by simp [cutSegs] at hk)⟩
    | succ f =>
      rw [cutSegs]
      split
      · rename_i h
        subst h
        exact ⟨rfl, fun g hg => (by cases hg), fun k g hk => by simp at hk⟩
      · rename_i h
        dsimp only
        have hb : 0 < toBoundary w ∧ toBoundary w ≤ 2048 ∧ toBoundary w = 2048 - w % 2048 := by unfold toBoundary; omega
        have hm : 0 < min n (toBoundary w) := by omega
        obtain ⟨i1, i2, i3⟩ := ih (n - min n (toBoundary w)) (by omega) f (w + min n (toBoundary w)) (at_ + min n (toBoundary w)) (by
          by_cases hc : n ≤ toBoundary w
          · right; left; omega
          · have : toBoundary (w + min n (toBoundary w)) = 2048 := by unfold toBoundary at *; omega
            right; right
            have : 0 < f := by omega
            omega)
        refine ⟨?_, fun g hg => ?_, fun k g hk => ?_⟩
        · rw [List.map_cons, List.sum_cons, i1]; dsimp only; omega
        · rcases List.mem_cons.1 hg with e | e
          · subst e
            refine ⟨hm, (by dsimp only; omega), ?_⟩
            dsimp only
            unfold toBoundary at *
            omega
          · exact i2 g e
        · cases k with
          | zero =>
            simp only [List.getElem?_cons_zero, Option.some.injEq] at hk
            subst hk
            simp
          | succ k =>
            rw [List.getElem?_cons_succ] at hk
            have := i3 k g hk
            rw [List.take_succ_cons, List.map_cons, List.sum_cons]
            dsimp only
            omega

section

/-- Only AU a and context c may differ. -/
structure Near (a c : Nat) (s t : State) : Prop where
  au : ∀ n, n ≠ a → t.au n = s.au n
  ctx : ∀ d, d ≠ c → t.ctx d = s.ctx d
variable {a c : Nat} {s t u : State}
theorem Near.refl (a c : Nat) (s : State) : Near a c s s := ⟨fun _ _ => rfl, fun _ _ => rfl⟩
theorem Near.modAu (h : Near a c s t) (f : Au → Au) : Near a c s (t.modAu a f) :=
  ⟨fun n hn => (State.au_modAu_ne _ _ _ _ hn).trans (h.au n hn), fun d hd => h.ctx d hd⟩
theorem Near.putAu (h : Near a c s t) (x : Au) : Near a c s (t.putAu a x) :=
  ⟨fun n hn => (State.au_putAu_ne _ _ _ _ hn).trans (h.au n hn), fun d hd => h.ctx d hd⟩
theorem Near.modCtx (h : Near a c s t) (f : Ctx → Ctx) : Near a c s (t.modCtx c f) :=
  ⟨fun n hn => h.au n hn, fun d hd => (State.ctx_modCtx_ne _ _ _ _ hd).trans (h.ctx d hd)⟩
theorem Near.modCore (h : Near a c s t) (f : CoreSt → CoreSt) : Near a c s (t.modCore a f) := h.modAu _
theorem Near.progress (h : Near a c s t) : Near a c s (t.progress c) := h.modCtx _
theorem Near.setFlag (h : Near a c s t) (f : Nat) (v : Bool) : Near a c s (t.setFlag c f v) := h.modCtx _
theorem Near.dxDone (h : Near a c s t) : Near a c s (t.dxDone a) := h.modCore _
theorem Near.dxSet (h : Near a c s t) (rd v : Nat) : Near a c s (t.dxSet a rd v) := (h.modCore _).dxDone
theorem Near.dxHold (h : Near a c s t) (w : CoreWait) : Near a c s (t.dxHold a w) := h.modCore _
theorem Near.endOp (h : Near a c s t) (u : Nat) : Near a c s (t.endOp a u) := h.modAu _
theorem Near.ite {p : Prop} [Decidable p] (h : Near a c s t) (k : Near a c s u) : Near a c s (if p then t else u) := by split <;> assumption
theorem Near.flagWait (h : Near a c s t) (f : Nat) (v clr : Bool) : Near a c s (t.flagWait c a f v clr) := by
  unfold State.flagWait
  refine Near.ite (Near.progress (Near.dxDone (Near.ite (h.setFlag _ _) h))) (h.dxHold _)
theorem Near.takeFlag (h : Near a c s t) (w : Nat) : Near a c s (t.takeFlag c w) := by
  unfold State.takeFlag
  repeat' first | assumption | refine Near.ite ?_ ?_ | refine Near.setFlag ?_ _ _ | split
theorem Near.beginOp (h : Near a c s t) (u : Nat) (op : FifoOp) : Near a c s (t.beginOp a u c op) := by
  unfold State.beginOp
  exact ((h.takeFlag _).modAu _).progress
theorem Near.popOp (h : Near a c s t) (e : Nat) (op : FifoOp) : Near a c s (t.popOp a e c op) := by
  unfold State.popOp
  exact ((h.takeFlag _).modAu _).progress
/-- What an AU does by itself: every other AU is unchanged, and so is every context that does not hold the AU. -/
def Loc (a : Nat) (s t : State) : Prop :=
  (∀ n, n ≠ a → t.au n = s.au n) ∧ ∀ d, (∀ l, (s.au a).asg ≠ some (d, l)) → t.ctx d = s.ctx d
theorem Loc.refl (a : Nat) (s : State) : Loc a s s := ⟨fun _ _ => rfl, fun _ _ => rfl⟩
theorem Near.loc {l : Nat} (h : Near a c s t) (hc : (s.au a).asg = some (c, l)) : Loc a s t :=
  ⟨h.au, fun d hd => h.ctx d fun e => hd l (e ▸ hc)⟩
theorem Near.locLive {l : Nat} (h : Near a c s t) (hc : s.live a = some (c, l)) : Loc a s t := by
  unfold State.live at hc
  split at hc
  · rename_i c' l' e
    split at hc
    · cases hc; exact h.loc e
    · cases hc
  · cases hc
theorem Near.touch (w : Bool) (rs : List (Nat × Nat)) : ∀ {t : State}, Near a c s t → Near a c s (t.touch c w rs) := by
  unfold State.touch
  induction rs with
  | nil => intro t h; exact h
  | cons r rs ih =>
    intro t h
    rw [List.foldl_cons]
    refine ih ?_
    split
    · split
      · exact h
      · exact h.modCtx _
    · exact h
theorem Near.vread {va n : Nat} {r : List Byte × State} (h : Near a c s t) (e : t.vread c va n = .ok r) : Near a c s r.2 := by
  unfold State.vread at e
  dsimp only at e
  split at e <;> cases e
  exact h.touch _ _
theorem Near.fetch {p l : Nat} {i : Rv} (h : Near a c s t) (e : t.fetch c p = .got i l u) : Near a c s u := by
  unfold State.fetch at e
  split at e
  · rename_i lo s1 e1
    have h1 := h.vread e1
    dsimp only at e
    split at e
    · cases e; exact h1
    · split at e
      · rename_i hi s2 e2
        have h2 := h1.vread e2
        cases e; exact h2
      · cases e
      · cases e
      · cases e
  · cases e
  · cases e
  · cases e
theorem Loc.onDx {f : Nat → Dx → State → State} {s' : State} (hs : Loc a s s') (ha : (s'.au a).asg = (s.au a).asg) (hs' : ∀ c, Near a c s s')
    (hf : ∀ c d u, Near a c s u → Near a c s (f c d u)) : Loc a s (s'.onDx a f) := by
  unfold State.onDx
  split
  · exact hs
  · rename_i c hc
    have hl : ∃ l, (s.au a).asg = some (c, l) := by
      unfold State.coreReady at hc
      split at hc
      · rename_i c' l hl
        dsimp only at hc
        split at hc
        · cases hc
          unfold State.live at hl
          split at hl
          · rename_i e
            split at hl
            · cases hl; exact ⟨_, ha ▸ e⟩
            · cases hl
          · cases hl
        · cases hc
      · cases hc
    obtain ⟨l, hl⟩ := hl
    split
    · rename_i d _ s1 e
      exact (hf c d s1 ((hs' c).fetch e)).loc hl
    · exact hs
theorem Loc.onDx' {f : Nat → Dx → State → State} (hf : ∀ c d u, Near a c s u → Near a c s (f c d u)) : Loc a s (s.onDx a f) :=
  Loc.onDx (Loc.refl _ _) rfl (fun c => Near.refl _ _ _) hf
theorem Loc.onHeld {f : Nat → Dx → State → State} {ok : CoreWait → Bool} (hf : ∀ c d u, Near a c s u → Near a c s (f c d u)) : Loc a s (s.onHeld a ok f) := by
  unfold State.onHeld
  split
  · refine Loc.onDx ⟨fun n hn => State.au_modAu_ne _ _ _ _ hn, fun _ _ => rfl⟩ ?_ (fun c => (Near.refl _ _ _).modCore _) hf
    unfold State.modCore
    rw [State.au_modAu]
  · exact Loc.refl _ _
theorem opOf_live {s : State} {n u c l : Nat} {op : ActiveOp} (h : s.opOf n u = some (c, l, op)) : s.live n = some (c, l) := by
  unfold State.opOf at h
  split at h
  · cases h
  · rename_i e
    rw [e]
    cases hh : (s.au n).act u with
    | none => rw [hh] at h; cases h
    | some x => rw [hh] at h; cases h; rfl
theorem Loc.startUnit {s : State} {a u : Nat} {wen : Bool} {r : Nat → FifoOp → Bool} {g : Nat → FifoOp → State → State}
    (hg : ∀ c op t, Near a c s t → Near a c s (g c op t)) : Loc a s (s.startUnit a u wen r g) := by
  unfold State.startUnit
  split
  · exact Loc.refl _ _
  · rename_i c l hl
    split
    · exact Loc.refl _ _
    · split
      · exact (hg c _ _ ((Near.refl _ _ _).beginOp _ _)).locLive hl
      · exact Loc.refl _ _
theorem firstKind_live {s : State} {n e k c : Nat} {op : FifoOp} (h : s.firstKind n e k = some (c, op)) : ∃ l, s.live n = some (c, l) := by
  unfold State.firstKind at h
  split at h
  · cases h
  · rename_i c' l e1
    cases hh : ((s.au n).fifo e).find? fun op => opKind op.word == k with
    | none => rw [hh] at h; cases h
    | some x => rw [hh] at h; cases h; exact ⟨l, e1⟩

end

section

/-- Only context c may differ among the contexts. -/
def Only (c : Nat) (s t : State) : Prop := ∀ d, d ≠ c → t.ctx d = s.ctx d
variable {c : Nat} {s t u : State}
theorem Only.refl (c : Nat) (s : State) : Only c s s := fun _ _ => rfl
theorem Only.of (h : Only c s t) (e : u.ctxs = t.ctxs) : Only c s u := fun d hd => by unfold State.ctx; rw [e]; exact h d hd
theorem Only.modCtx (h : Only c s t) (f : Ctx → Ctx) : Only c s (t.modCtx c f) := fun d hd => (State.ctx_modCtx_ne _ _ _ _ hd).trans (h d hd)
theorem Only.putCtx (h : Only c s t) (x : Ctx) : Only c s (t.putCtx c x) := fun d hd => (State.ctx_putCtx_ne _ _ _ _ hd).trans (h d hd)
theorem Only.modDust (h : Only c s t) (f : DustSt → DustSt) : Only c s (t.modDust c f) := h.modCtx _
theorem Only.setPhase (h : Only c s t) (k : Nat) (p : CmdPhase) : Only c s (t.setPhase c k p) := h.modCtx _
theorem Only.complete (h : Only c s t) (k st r : Nat) : Only c s (t.complete c k st r) := fun d hd => (State.ctx_complete_ne _ _ _ hd).trans (h d hd)
theorem Only.completeAll (h : Only c s t) (st : Nat) (r : Cmd → Nat) : Only c s (t.completeAll c st r) := by
  unfold State.completeAll
  have : ∀ (l : List Cmd) {t : State}, Only c s t → Only c s (l.foldl (fun t cmd => t.cplWrite c cmd st (r cmd)) t) := by
    intro l
    induction l with
    | nil => intro t h; exact h
    | cons x l ih => intro t h; exact ih (fun d hd => (State.ctx_cplWrite_ne _ _ _ hd).trans (h d hd))
  exact this _ (h.modCtx _)
theorem Only.ite {p : Prop} [Decidable p] (h : Only c s t) (k : Only c s u) : Only c s (if p then t else u) := by split <;> assumption
theorem Only.raise (h : Only c s t) (code : Nat) (r : Route) (p : List (Nat × Nat × Nat)) : Only c s (t.raise code r p) := h.of (by simp)
theorem Only.raiseF (h : Only c s t) (code : Nat) (r : Route) (p : Nat → List (Nat × Nat × Nat)) : Only c s (t.raiseF code r p) := h.of (by simp)
theorem Only.kept {m : Nat} (h : Only c s t) (k : Kept m t u) (hm : m.testBit 6 = false) : Only c s u := h.of (k.same .ctxs hm)
theorem Only.onCmd {k op : Nat} {f : Cmd → State} (h : ∀ cmd, Only c s (f cmd)) : Only c s (s.onCmd c k op f) := by
  unfold State.onCmd
  split
  · exact Only.ite (h _) (Only.refl _ _)
  · exact Only.refl _ _
theorem Only.hostWrite (h : Only c s t) (p a : Nat) (b : List Byte) : Only c s (t.hostWrite p a b) := h.kept (State.hostWrite_kept (m := 1) rfl (Kept.refl _ _)) rfl
theorem Only.setHostCap (h : Only c s t) (w : Nat) : Only c s (t.setHostCap w) := h.kept (State.setHostCap_kept (m := 0x829) rfl (Kept.refl _ _)) rfl
theorem Only.setReg (h : Only c s t) (k v : Nat) : Only c s (t.setReg k v) := h.of rfl
theorem Only.finishRun (h : Only c s t) : Only c s (t.finishRun c) := by
  unfold State.finishRun
  have e : Only c s (t.enter c .ready) := fun d hd => (State.ctx_enter_ne _ hd).trans (h d hd)
  dsimp only
  split
  · exact e.complete _ _ _
  · exact e
theorem Only.startPreempt (h : Only c s t) (a : Cause) : Only c s (t.startPreempt c a) := by
  unfold State.startPreempt State.beginPreempt
  dsimp only
  refine Only.modCtx ?_ _
  have e : Only c s (if t.runEnded c = true then t.finishRun c else t) := Only.ite h.finishRun h
  generalize (if t.runEnded c = true then t.finishRun c else t) = u at e
  refine Only.of (t := u.enter c .preempting) (fun d hd => (State.ctx_enter_ne _ hd).trans (e d hd)) rfl

end

end Sys2Proof.Machine
end

