-- ==== Sys2Proof/WellFormed.lean ====
section
/-!
DEFINITION. Well-formed commands: the bounds on operands that a constructor's types do not say.
-/
namespace Sys2Proof

/-- Sizes of a PCI Express access to a register or a doorbell, in bytes. -/
def accessSize (n : Nat) : Bool := n == 1 || n == 2 || n == 4 || n == 8

/-- Operands within what their command can carry. Every meaning is total, whether or not its command is well-formed. -/
def Instr.wf : Instr → Bool
  | .dbCmdTail _ _ _ size => accessSize size
  | .dbCplHead _ _ _ size => accessSize size
  | .bar0RegisterWrite _ off size v => accessSize size && decide (off + size ≤ 0x1000000) && decide (v < 2 ^ (8 * size))
  | .rcRead _ off size => accessSize size && decide (off + size ≤ 0x1000000)
  | .loReadLatch _ off size => accessSize size && decide (off + size ≤ 0x1000000)
  | .bar4Access _ write off len data =>
    decide (0 < len) && decide (off % 4096 + len ≤ 4096) && (data.length == if write then len else 0)
  | .configurationRequest _ vf _ off v => decide (vf < 16) && decide (off < 4096) && decide (v < 2 ^ 32)
  | .flitReceive _ seq vc kind body => decide (seq < 65536) && decide (vc < 8) && decide (kind < 16) && body.length == 256
  | .sideWordReceive _ w => decide (w < 2 ^ 64)
  | .jtagInstruction ir _ => decide (ir < 2 ^ 8)
  | .linkDown _ reason => decide (reason < 256)
  | .laneLossOfLock _ lane => decide (lane < 4)
  | _ => true

end Sys2Proof
end

