-- ==== Sys2Proof/Tests/Slice0.lean ====
section
/-! SUPPORT. Tests of the model: ill-formed commands refused, values that the spec states, and for every statement of
Certificates/Slice0/Obligations.lean with hypotheses a state and operands that meet them. -/

namespace Sys2Proof.Machine

set_option maxRecDepth 4000
set_option linter.unusedVariables false
set_option Elab.async false

/-! ### Small states that the witnesses are built from -/

/-- firmware ready -/
def up : State := State.reset.setFld SEC_FW_STATUS 31 30 1
/-- firmware ready, and context c is x -/
def upc (c : Nat) (x : Ctx) : State := up.putCtx c x
/-- a READY context of the PF of HPA -/
def aCtx : Ctx := { Ctx.reset with st := .ready, owner := some 0 }
/-- an outstanding command of 64 bytes with the opcode -/
def aCmd (op : Nat) : Cmd := ⟨layOut 64 [(0,1,op)], .started, 0, 0⟩
/-- the context with one outstanding command -/
def withCmd (x : Ctx) (d : Cmd) : Ctx := { x with ring := { x.ring with cmds := [d] } }
/-- a program image that passes the checks -/
def anImage : List Byte :=
  layOut 208 [(0, 4, 0x47505848), (4, 2, 1), (6, 2, 2), (8, 8, 208), (20, 2, 1), (64, 2, 1), (68, 4, 1), (72, 4, 128), (76, 4, 4), (80, 2, 3), (84, 4, 1),
    (88, 4, 192), (92, 4, 16), (128, 4, 0x00010001)]
/-- context 5 of HPA with one command outstanding, its port up -/
def cmdState (x : Ctx) (desc : List Byte) : State :=
  (upc 5 (withCmd x ⟨desc, .started, 0, 0⟩)).modPort 0 fun p => { p with dlUp := true }
/-- page 2 of a context, in HBM -/
def aPage : Pte := { ty := .resident, big := false, addr := 0x400000, backing := 0, port := 0, write := true, dirty := false, accessed := false, protect := false, origin := .mapHbm, stks := 0xFFF }
/-- a program with one logical AU, a HAWK buffer 1 and a VIRT buffer 2 -/
def aProg : Program := { laus := [⟨0, 0⟩], lbufs := [⟨65536, 0, 0, 0, 0, 0⟩, ⟨2 ^ 21, 1, 0, 0, 0, 2 ^ 22⟩], tensors := [], stepSrc := 0, sched := [], imageVa := 2 ^ 22, imageBytes := 4096, codeOff := 0, codeBytes := 4096, initFlags := 0 }
/-- a context that runs it on AU 9 -/
def rCtx : Ctx := { aCtx with st := .running, prog := some aProg, place := [(0, 9)], pt := [(2, aPage)] }
/-- the context runs on AU 9 -/
def rState : State := (upc 5 rCtx).putAu 9 { Au.reset with asg := some (5, 0), core := { CoreSt.reset with running := true, pc := 2 ^ 22 } }
/-- an open window of context 5 -/
def aWin : Window := { st := .open_, gen := 1, ctx := 5, canWrite := true, canRead := true, tagMode := 0, ncons := 0, flag := 0, flagEn := false, group := 0xFFFF, expect := 0, lbuf := 0, off := 2 ^ 22, size := 64, count := 0, closing := false }
/-- a link work entry with these fields -/
def aEntry (fs : List (Nat × Nat × Nat)) : LinkEntry :=
  { bytes := layOut 64 fs, issued := 0, out := 0, popped := 0, outbox := [], fail := none, collSeq := 0, landed := [], sentC := 0, own := [], waiting := [], since := 0, result := none }
/-- a group of two parts -/
def aGroup : Group := { epoch := 3, members := [0xFFFF, 7], rank := 0, rings := [(7, 7, 3)], owners := [], images := [(0xFFFF, 0), (0xFFFF, 0)], securing := false, nextColl := 0, aborted := [] }
/-- the state after the n-th message of the inbox is taken -/
def inboxState (s : State) (n : Nat) (ops : List Nat) : State := match s.takeInbox n ops with | some (_, _, u) => u | none => s
def CollRes.st (r : CollRes) (s : State) : State := match r with | .ok u => u | _ => s
def RestRes.st (r : RestRes) (s : State) : State := match r with | .done u _ => u | _ => s
def Fetch.st (f : Fetch) (s : State) : State := match f with | .got _ _ u => u | _ => s
/-- the word w at the program counter of AU 9 -/
def dxWord (w : Nat) (s : State) : State := { s with mem := { s.mem with hbm := wrBytes s.mem.hbm 0x400000 (natLe 4 w) } }
/-- the same, with AU 9 changed -/
def dxState (w : Nat) (f : Au → Au) : State := (dxWord w rState).modAu 9 f
/-- after the fetch -/
def dxFetched (s : State) (c : Nat) : State := (s.fetch c (s.core 9).pc.toNat).st s
/-- after the fetch of a held core -/
def dxHeldFetched (s : State) (c : Nat) : State := dxFetched (s.modCore 9 fun k => { k with wait := .none }) c
/-- an Xdxs word -/
def customWord (f3 imm rs1 rd : Nat) : Nat := 2 ^ 20 * imm + 2 ^ 15 * rs1 + 2 ^ 12 * f3 + 2 ^ 7 * rd + 0x0B
/-- a Stencil of one run of 64 bytes -/
def anStencil : List Byte := layOut 64 [(0, 8, 2 * 2 ^ 52), (16, 8, 63), (24, 4, 64), (28, 4, 2 ^ 28), (32, 4, 1), (36, 4, 1), (40, 4, 1)]
def vres {α : Type} (r : VmRes α) : Option α := match r with | .ok a => some a | _ => none
/-- unit u of AU 9 has the operation w under way; or w is the first word of engine e -/
def opState (u w : Nat) (f : Au → Au) : State := rState.modAu 9 fun x => f (x.putAct u (startedOp ⟨0, w⟩))
def fifoState (e w : Nat) (f : Au → Au) : State := rState.modAu 9 fun x => f { x.putFifo e [⟨0, w⟩] with nextSeq := 1 }
/-- the input tiles of a Trowel operation -/
def tilesIn (w : Nat) : List (List Byte) := (trwPops w).map fun t => List.replicate (t.bytes.1 + t.bytes.2) 0
theorem gathered_tilesIn (x : TrowelSt) (w : Nat) (h : x.inp = tilesIn w) : x.gathered w = true := by
  unfold TrowelSt.gathered
  rw [h]
  unfold tilesIn
  generalize trwPops w = l
  induction l with
  | nil => rfl
  | cons t l ih =>
    rw [List.map_cons, List.zip_cons_cons, List.all_cons, ih, Bool.and_true]
    exact decide_eq_true (by rw [List.length_replicate] <;> exact Nat.le_refl _)
/-- AU 9 with a Trowel operation under way -/
def trwState (w : Nat) : State := opState 4 w fun x => { x with trowel := { x.trowel with inp := tilesIn w } }
theorem trwState_au (w : Nat) : (trwState w).au 9 = { Au.reset with asg := some (5, 0), core := { CoreSt.reset with running := true, pc := 2 ^ 22 }, acts := [(4, startedOp ⟨0, w⟩)], trowel := { Au.reset.trowel with inp := tilesIn w } } := rfl
theorem trwState_gathered (w : Nat) : ((((trwState w).modAu 9 fun x => x.trwGather 0 (trwPops w)).progress 5).au 9).trowel.gathered w = true := by
  unfold State.progress
  rw [State.au_modCtx, State.au_modAu]
  exact gathered_tilesIn _ _ (trwGather_empty _ _ _ rfl)
/-- context 5 with one announced descriptor at host address 0 of HPA -/
def startState (fs : List (Nat × Nat × Nat)) : State :=
  (((upc 5 { aCtx with ring := { RingSt.reset with cmdTail := 1 } }).setFld (CTX_RING_CTL 5) 31 31 1).modPort 0 fun x => { x with dlUp := true }).hostWrite 0 0
    (layOut 64 fs)

/-! ### Well-formed commands: one ill-formed command for each check -/

theorem test_ill_formed_1 : Instr.wf (.dbCmdTail 0 0 0 3) = false := by decide
theorem test_ill_formed_2 : Instr.wf (.dbCplHead 0 0 0 16) = false := by decide
theorem test_ill_formed_3 : Instr.wf (.bar0RegisterWrite 0 0 5 0) = false := by decide
theorem test_ill_formed_4 : Instr.wf (.bar0RegisterWrite 0 0xFFFFFC 8 0) = false := by decide
theorem test_ill_formed_5 : Instr.wf (.bar0RegisterWrite 0 0 4 (2 ^ 32)) = false := by decide
theorem test_ill_formed_6 : Instr.wf (.rcRead 0 0 0) = false := by decide
theorem test_ill_formed_7 : Instr.wf (.rcRead 0 0xFFFFFE 4) = false := by decide
theorem test_ill_formed_8 : Instr.wf (.loReadLatch 0 0 12) = false := by decide
theorem test_ill_formed_9 : Instr.wf (.loReadLatch 0 0x1000000 4) = false := by decide
theorem test_ill_formed_bar4_empty : Instr.wf (.bar4Access 0 false 0 0 []) = false := by decide
theorem test_ill_formed_bar4_page : Instr.wf (.bar4Access 0 true 4095 2 [0, 0]) = false := by decide
theorem test_ill_formed_bar4_data : Instr.wf (.bar4Access 0 true 0 2 [0]) = false := by decide
theorem test_ill_formed_configuration_function : Instr.wf (.configurationRequest 0 16 false 0 0) = false := by decide
theorem test_ill_formed_configuration_offset : Instr.wf (.configurationRequest 0 0 false 4096 0) = false := by decide
theorem test_ill_formed_configuration_value : Instr.wf (.configurationRequest 0 0 true 0 (2 ^ 32)) = false := by decide
theorem test_ill_formed_flit_number : Instr.wf (.flitReceive 0 65536 0 0 (List.replicate 256 0)) = false := by decide
theorem test_ill_formed_flit_channel : Instr.wf (.flitReceive 0 0 8 0 (List.replicate 256 0)) = false := by decide
theorem test_ill_formed_flit_kind : Instr.wf (.flitReceive 0 0 0 16 (List.replicate 256 0)) = false := by decide
theorem test_ill_formed_flit_body : Instr.wf (.flitReceive 0 0 0 0 []) = false := by decide
theorem test_ill_formed_side_word : Instr.wf (.sideWordReceive 0 (2 ^ 64)) = false := by decide
theorem test_ill_formed_jtag : Instr.wf (.jtagInstruction 256 0) = false := by decide
theorem test_ill_formed_link_down : Instr.wf (.linkDown 0 256) = false := by decide
theorem test_ill_formed_lane : Instr.wf (.laneLossOfLock 0 4) = false := by decide
theorem test_well_formed_read : Instr.wf (.rcRead 0 8 4) = true := by decide
/-- The table gives no row bits (spec/opcode_table.json), so no word spells a command and nothing is put in the queue. -/
theorem test_no_word : decodeTableWord 32 0 = none ∧ State.reset.withFetchWord 32 0 = State.reset := ⟨rfl, rfl⟩

/-! ### Values that the spec states -/

/-- AU107 is on D1 (01_architecture.md, after R13). -/
theorem test_au_die : auDie 107 = 1 := by decide
/-- The interval of a replica (13_resilience.md, worked example): a cost of 441, an interval of 68 steps, then M = 321,250 and 65 steps. -/
theorem test_cost : nextCost false 0 3000000 35055992832 800000000 = 441 := by decide +kernel
theorem test_interval : isqrt (441 * 350000 / 32768) = 68 ∧ isqrt (441 * 321250 / 32768) = 65 := by decide +kernel
theorem test_mtbf : nextMtbf 350000 (some 1000) 121000 = 321250 := by decide +kernel
/-- 32 segments of an aligned 2 MiB range fall on each pseudo-channel (09_memory.md, after R326): those of pseudo-channel 0. -/
theorem test_banks : ((List.range 1024).filter fun i => bankOf (5 * 2 ^ 21 + 2048 * i) / 48 == 0).length = 32 := by decide +kernel
/-- The gradient tensor of 03_numerics.md: an amax of 3.2 gives an outer exponent of -6; 3.2 then encodes as 208; 40 gives -2. -/
theorem test_outer : outerExp e4m3 [histEntry (of32 0x404CCCCD)] = some (-6) ∧ outerExp e4m3 [histEntry (.fin false 40 0)] = some (-2) := by decide +kernel
theorem test_encode : e4m3.decode ((narrow 0x3 .rne (numScale (of32 0x404CCCCD) 6)).bits) = .fin false 13 4 := by decide +kernel
/-- The schedule of 08_trowel.md: half-way up a linear record to 3.0e-4 the step size is 1.5e-4; past the record it is its end. -/
theorem test_schedule : schedEta (layOut 32 [(1, 1, 255), (2, 1, 1), (12, 8, 2000), (24, 4, 0x399D4952)]) 7 1000 = 0x391D4952
    ∧ schedEta (layOut 32 [(1, 1, 255), (2, 1, 1), (12, 8, 2000), (24, 4, 0x399D4952)]) 7 120000 = 0x399D4952 := by decide +kernel
/-- The example Stencils (Table 4.22): ST0 and ST4 pass, and with an extent one byte lower ST0 does not. -/
theorem test_stencils : stnCheck [] [] none (layOut 64 [(16, 8, 131071), (24, 4, 128), (28, 4, 0x10000000), (32, 4, 512), (36, 4, 2), (40, 4, 1), (48, 5, 256), (53, 5, 128)]) = none ∧ stnCheck [] [] none (layOut 64 [(0, 8, 12288), (16, 8, 32767), (24, 4, 4096), (28, 4, 0x10002C00), (32, 4, 2), (36, 4, 1), (40, 4, 1), (48, 5, 16384)]) = none ∧ stnCheck [] [] none (layOut 64 [(16, 8, 131070), (24, 4, 128), (28, 4, 0x10000000), (32, 4, 512), (36, 4, 2), (40, 4, 1), (48, 5, 256), (53, 5, 128)]) = some 0x0403 := by decide +kernel

/-! ### Witnesses: the hypotheses of each statement are met -/

theorem witness_Step_runs_the_command_in_front_front : ∃ (c : Instr) (rest : List Instr) (s : State), s.pending = c :: rest := ⟨.stageFault, [], { State.reset with pending := [.stageFault] }, rfl⟩
theorem witness_Step_runs_the_command_in_front_idle : ∃ s : State, s.pending = [] := ⟨State.reset, rfl⟩
theorem witness_Every_step_keeps_the_invariant : ∃ s t : State, s.Inv ∧ step s = .next t := ⟨{ State.reset with now := 5 }, { State.reset with now := 5 }, ⟨by decide, by decide, by decide, by decide +kernel, fun i => Nat.zero_le _⟩, rfl⟩
theorem witness_Only_listed_parts_change : ∃ (c : Instr) (s t : State) (p : Part), exec c s = .next t ∧ p ∉ partsOf c := ⟨.telemetry, up, _, .host, rfl, by decide⟩
theorem witness_An_AU_that_goes_on_leaves_the_others : ∃ (c : Instr) (a : AuId) (s t : State), auAlone c = some a ∧ exec c s = .next t := ⟨.dxFset 9, 9, up, _, rfl, rfl⟩
theorem witness_A_command_of_one_context_leaves_the_others : ∃ (i : Instr) (c : CtxId) (s t : State), ctxAlone i = some c ∧ exec i s = .next t := ⟨.fence 5 0, 5, up, _, rfl, rfl⟩
theorem witness_Fuses_change_only_from_0_to_1 : ∃ (c : Instr) (s t : State), exec c s = .next t := ⟨.telemetry, up, _, rfl⟩
theorem witness_Part_time_never_decreases : ∃ (c : Instr) (s t : State), exec c s = .next t ∧ restartsTime c = false ∧ ((∃ a b d, c = .timeSample a b d) → s.links.time.everLocked = true) := ⟨.telemetry, up, _, rfl, rfl, fun ⟨_, _, _, h⟩ => nomatch h⟩
theorem witness_A_completed_command_has_its_entry : ∃ (s : State) (c k : Nat) (cmd : Cmd), s.cmdAt c k = some cmd := ⟨cmdState aCtx (layOut 64 [(0, 1, 0x13)]), 5, 0, ⟨layOut 64 [(0, 1, 0x13)], .started, 0, 0⟩, by decide +kernel⟩
theorem witness_Creating_a_context_by_a_PF_free : ∃ (c : CtxId) (hpa hpb : Bool) (s : State), s.barUp = true ∧ (s.ctx c).st = .free ∧ (hpa = true ∨ hpb = true) := ⟨63, true, true, up, by decide +kernel⟩
theorem witness_Creating_a_context_by_a_PF_taken : ∃ (c : CtxId) (s : State), (s.ctx c).st ≠ .free := ⟨5, upc 5 aCtx, by decide +kernel⟩
theorem witness_Descriptors_that_break_the_common_bytes_opcode : ∃ (c : CtxId) (s : State) (d : List Byte), s.canStart c = true ∧ s.nextDesc c = some d ∧ 0x14 ≤ byteAt d 0 ∧ bits (byteAt d 1) 7 1 = 0 := ⟨5, startState [(0, 1, 0x14)], layOut 64 [(0, 1, 0x14)], by decide +kernel⟩
theorem witness_Descriptors_that_break_the_common_bytes_field : ∃ (c : CtxId) (s : State) (d : List Byte), s.canStart c = true ∧ s.nextDesc c = some d ∧ 1 ≤ byteAt d 0 ∧ byteAt d 0 < 0x14 ∧ bits (byteAt d 1) 7 1 ≠ 0 := ⟨5, startState [(0, 1, 0x13), (1, 1, 2)], layOut 64 [(0, 1, 0x13), (1, 1, 2)], by decide +kernel⟩
theorem witness_Answers_of_an_older_transaction_are_discarded : ∃ (n : Nat) (s : State) (p : Nat) (tx : LTxn), s.links.inbox[n]? = some (p, tx) ∧ (tx.hdr.op = 3 ∨ tx.hdr.op = 4) ∧ (mfind s.links.txns tx.hdr.txn = none) := ⟨0, { up with links := { up.links with inbox := [(3, ⟨{ hdrOf (List.replicate 64 0) with op := 4 }, [], 0⟩)] } }, 3, ⟨{ hdrOf (List.replicate 64 0) with op := 4 }, [], 0⟩, by decide +kernel⟩
theorem witness_Failure_notice_good : ∃ (c : CtxId) (k : Nat) (s : State) (cmd : Cmd), s.cmdAt c k = some cmd ∧ byteAt cmd.desc 0 = 0x13 ∧ s.serves 0x13 = true ∧ zeroIn cmd.desc 4 8 = true ∧ zeroIn cmd.desc 18 64 = true := ⟨5, 0, cmdState aCtx (layOut 64 [(0, 1, 0x13), (8, 8, 77)]), ⟨layOut 64 [(0, 1, 0x13), (8, 8, 77)], .started, 0, 0⟩, by decide +kernel⟩
theorem witness_Failure_notice_bad : ∃ (c : CtxId) (k : Nat) (s : State) (cmd : Cmd), s.cmdAt c k = some cmd ∧ byteAt cmd.desc 0 = 0x13 ∧ s.serves 0x13 = true ∧ zeroIn cmd.desc 18 64 = false := ⟨5, 0, cmdState aCtx (layOut 64 [(0, 1, 0x13), (18, 1, 1)]), ⟨layOut 64 [(0, 1, 0x13), (18, 1, 1)], .started, 0, 0⟩, by decide +kernel⟩
theorem witness_Host_cap_and_service_cap_write : ∃ (f : FnId) (s : State), s.barUp = true ∧ f.val = s.adminPf := ⟨0, up, by decide +kernel⟩
theorem witness_Host_cap_and_service_cap_command : ∃ (c : CtxId) (k : Nat) (s : State) (cmd : Cmd), s.cmdAt c k = some cmd ∧ (byteAt cmd.desc 0 = 0x10 ∧ s.serves 0x10 = true) ∧ (cmd.phase = .started ∧ s.ownerOf c = s.adminPf) ∧ (fieldLe cmd.desc 4 2 % 10 = 0 ∧ 1000 ≤ fieldLe cmd.desc 4 2 ∧ fieldLe cmd.desc 4 2 ≤ 2400) ∧ (bits (byteAt cmd.desc 6) 7 1 = 0 ∧ zeroIn cmd.desc 7 64 = true) := ⟨5, 0, cmdState aCtx (layOut 64 [(0, 1, 0x10), (4, 2, 2400)]), ⟨layOut 64 [(0, 1, 0x10), (4, 2, 2400)], .started, 0, 0⟩, by decide +kernel⟩
theorem witness_Sizes_of_BAR0_accesses_refused : ∃ (off size : Nat) (s : State), s.barUp = true ∧ ¬ (size = 4 ∧ off % 4 = 0) ∧ ¬ (size = 8 ∧ off % 8 = 0) := ⟨4, 8, up, by decide +kernel⟩
theorem witness_Who_may_read_a_Hawk_for_debugging_none : ∃ (a : AuId) (s : State) (w : Nat), s.barUp = true ∧ (0x340 ≤ w ∧ w < 0x380) ∧ (s.au a).asg = none := ⟨191, up, 0x37C, by decide +kernel⟩
theorem witness_Who_may_read_a_Hawk_for_debugging_denied : ∃ (f : FnId) (a : AuId) (s : State) (c l : Nat), s.barUp = true ∧ (s.au a).asg = some (c, l) ∧ ((s.ctx c).owner.any fun g => fnIsPf f && fnPort g == fnPort f) = false := ⟨16, 9, rState, 5, 0, by decide +kernel⟩
theorem witness_Who_may_read_a_Hawk_for_debugging_answered : ∃ (f : FnId) (a : AuId) (s : State) (c l g : Nat), s.barUp = true ∧ (s.au a).asg = some (c, l) ∧ (s.ctx c).owner = some g ∧ fnIsPf f = true ∧ fnPort g = fnPort f := ⟨0, 9, rState, 5, 0, 0, by decide +kernel⟩
theorem witness_A_Stencil_stays_within_its_extents : ∃ (laus : List LauRec) (bufs : List LbufRec) (starter : Option Nat) (d : List Byte) (p : Nat), stnCheck laus bufs starter d = none ∧ p < (stnDesc d).total := ⟨[⟨0, 0⟩], [], some 0, layOut 64 [(0, 8, 4096), (8, 8, 4096), (16, 8, 4223), (24, 4, 64), (28, 4, 0x10000000), (32, 4, 2), (36, 4, 1), (40, 4, 1), (48, 5, 64)], 127, by decide +kernel⟩
theorem witness_The_undercoat_store_gives_the_lowest_run_given : ∃ (gs : List (Nat × Nat)) (total n p : Nat), 0 < n ∧ lowestRun gs total n = some p := ⟨[(0, 2), (5, 1)], 9, 3, 2, by decide +kernel⟩
theorem witness_The_undercoat_store_gives_the_lowest_run_thinned : ∃ (gs : List (Nat × Nat)) (total n : Nat), 0 < n ∧ lowestRun gs total n = none := ⟨[(0, 2), (5, 1)], 9, 4, by decide +kernel⟩
theorem witness_Master_weights_and_FP32 : ∃ (v : Nat) (a : Bool) (m : Nat) (e : Int), v < 2 ^ 48 ∧ mw48.decode v = .fin a m e := ⟨0xBF8000012345, true, _, _, by decide +kernel, rfl⟩

-- Array_operations_and_flags
theorem witness_opStartAfterWait_pipeline : ∃ (a : AuId) (u : UnitId) (s : State) (c l : Nat) (op : FifoOp), (u.val = 0 ∧ s.live a = some (c, l) ∧ (s.au a).nextOf 0 = some op ∧ opWen op.word = true ∧ s.flagTest c op.word = true ∧ s.computeReady a op = true) := by
  exact ⟨9, 0, fifoState 0 (2 ^ 59 + 2 ^ 16) (fun x => x), 5, 0, ⟨0, 2 ^ 59 + 2 ^ 16⟩, by decide +kernel⟩
theorem witness_opStartAfterWait_load : ∃ (a : AuId) (u : UnitId) (s : State) (c l : Nat) (op : FifoOp), (u.val = 1 ∧ s.live a = some (c, l) ∧ (s.au a).nextOf 1 = some op ∧ opWen op.word = true ∧ s.flagTest c op.word = true ∧ s.loadReady a op = true) := by
  exact ⟨9, 1, fifoState 0 (2 ^ 60 + 2 ^ 59) (fun x => x), 5, 0, ⟨0, 2 ^ 60 + 2 ^ 59⟩, by decide +kernel⟩
theorem witness_opStartAfterWait_drain : ∃ (a : AuId) (u : UnitId) (s : State) (c l : Nat) (op : FifoOp), (u.val = 2 ∧ s.live a = some (c, l) ∧ (s.au a).nextOf 2 = some op ∧ opWen op.word = true ∧ s.flagTest c op.word = true ∧ (s.au a).drainRowReady op.seq op.word 0 = true ∧ (s.au a).drainMismatch op = false) := by
  exact ⟨9, 2, fifoState 0 (3 * 2 ^ 60 + 2 ^ 59 + 2 ^ 24) (fun x => x), 5, 0, ⟨0, 3 * 2 ^ 60 + 2 ^ 59 + 2 ^ 24⟩, by decide +kernel⟩
theorem witness_opStartAfterWait_screed : ∃ (a : AuId) (u : UnitId) (s : State) (c l : Nat) (op : FifoOp), (u.val = 3 ∧ s.live a = some (c, l) ∧ (s.au a).nextOf 3 = some op ∧ opWen op.word = true ∧ s.flagTest c op.word = true) := by
  exact ⟨9, 3, fifoState 1 (2 ^ 59) (fun x => x), 5, 0, ⟨0, 2 ^ 59⟩, by decide +kernel⟩
theorem witness_opStartAfterWait_trowel : ∃ (a : AuId) (u : UnitId) (s : State) (c l : Nat) (op : FifoOp), (u.val = 4 ∧ s.live a = some (c, l) ∧ (s.au a).nextOf 4 = some op ∧ opWen op.word = true ∧ s.flagTest c op.word = true ∧ s.etaReady c op.word = true) := by
  exact ⟨9, 4, fifoState 2 (2 ^ 60 + 2 ^ 59) (fun x => x), 5, 0, ⟨0, 2 ^ 60 + 2 ^ 59⟩, by decide +kernel⟩
theorem witness_opStartAfterWait_move : ∃ (a : AuId) (u : UnitId) (s : State), (u.val = 5) := ⟨9, 5, rState, by decide +kernel⟩
theorem witness_setf : ∃ (a : AuId) (e : EngId) (s : State) (c : Nat) (op : FifoOp), (s.firstKind a e 0xC = some (c, op) ∧ s.allBefore a e op.seq = true ∧ s.flagTest c op.word = true) := by
  exact ⟨9, 1, fifoState 1 (12 * 2 ^ 60 + 7) (fun x => x), 5, ⟨0, 12 * 2 ^ 60 + 7⟩, by decide +kernel⟩
theorem witness_clrf : ∃ (a : AuId) (e : EngId) (s : State) (c : Nat) (op : FifoOp), (s.firstKind a e 0xD = some (c, op) ∧ s.allBefore a e op.seq = true ∧ s.flagTest c op.word = true) := by
  exact ⟨9, 1, fifoState 1 (13 * 2 ^ 60 + 7) (fun x => x), 5, ⟨0, 13 * 2 ^ 60 + 7⟩, by decide +kernel⟩
theorem witness_nop : ∃ (a : AuId) (e : EngId) (s : State) (c : Nat) (op : FifoOp), (s.firstKind a e 0xF = some (c, op) ∧ ((s.au a).waitingBefore e op.seq fun w => (unitOf e w).isSome) = false ∧ s.flagTest c op.word = true) := by
  exact ⟨9, 1, fifoState 1 (15 * 2 ^ 60) (fun x => x), 5, ⟨0, 15 * 2 ^ 60⟩, by decide +kernel⟩

-- Array_rows_loads_and_drains
theorem witness_compute : ∃ (a : AuId) (s : State) (c l : Nat) (op : ActiveOp) (rows : List RowIn) (keep tag : List Byte) (a1 a2 : Au) (o : AccOut), (s.opOf a 0 = some (c, l, op) ∧ (s.au a).rowFree op.seq op.word op.done = true ∧ (cSwap op.word && !op.swapped) = false) ∧ ((s.au a).popRows op.word op.done (cLen op.word) (computeQueues op.word) op.data = some (rows, keep, a1) ∧ (if cAdp op.word = 0 then some ([], a1) else a1.pop (cTagq op.word) 2) = some (tag, a2)) ∧ (¬ (op.done = 0 ∧ fmtsBroken (cGanged op.word) (cFmt op.word) ((quadsOf (cQmask op.word)).map fun k => (a2.array.quad k).bank (a2.array.quad k).activeB) = true)) ∧ (adaptRow (Config.free s.free) op.word (cBase op.word + op.done) (leNat tag) (rows.headD []) (computeBase (Config.free s.free) op.word (cBase op.word + op.done) rows a2.array) = .ok o) := by
  let w := 2 ^ 45 + 2 ^ 44 + 2 ^ 40 + 2 ^ 16
  let s := opState 0 w (fun x => x.push 0 (List.replicate 64 (false, 3)))
  let op := startedOp ⟨0, w⟩
  let p := ((s.au 9).popRows op.word 0 (cLen op.word) (computeQueues op.word) op.data).getD ([], [], Au.reset)
  refine ⟨9, s, 5, 0, op, p.1, p.2.1, [], p.2.2, p.2.2, computeBase (Config.free s.free) op.word (cBase op.word + op.done) p.1 p.2.2.array, by decide +kernel, by decide +kernel, by decide +kernel, ?_⟩
  exact adaptRow_none (by decide +kernel)
theorem witness_compute_start : ∃ (a : AuId) (s : State) (c l : Nat) (op : FifoOp), (s.live a = some (c, l) ∧ (s.au a).nextOf 0 = some op ∧ opWen op.word = false ∧ s.computeReady a op = true) := by
  exact ⟨9, fifoState 0 (2 ^ 16) (fun x => x), 5, 0, ⟨0, 2 ^ 16⟩, by decide +kernel⟩
theorem witness_swapBankHeld : ∃ (a : AuId) (s : State) (c l : Nat) (op : ActiveOp), (s.opOf a 0 = some (c, l, op) ∧ cSwap op.word = true ∧ op.done = 0 ∧ op.swapped = false) ∧ ((s.au a).swapHeld op.seq op.word = true) := by
  exact ⟨9, opState 0 (2 ^ 16 + 16) (fun x => x), 5, 0, startedOp ⟨0, 2 ^ 16 + 16⟩, by decide +kernel⟩
theorem witness_wload : ∃ (a : AuId) (s : State) (c l : Nat) (op : ActiveOp), (s.opOf a 1 = some (c, l, op) ∧ opKind op.word = 1) := by
  exact ⟨9, opState 1 (2 ^ 60 + 2 ^ 44) (fun x => x), 5, 0, startedOp ⟨0, 2 ^ 60 + 2 ^ 44⟩, by decide +kernel⟩
theorem witness_wload_start : ∃ (a : AuId) (s : State) (c l : Nat) (op : FifoOp), (s.live a = some (c, l) ∧ (s.au a).nextOf 1 = some op ∧ opWen op.word = false ∧ s.loadReady a op = true) := by
  exact ⟨9, fifoState 0 (2 ^ 60 + 2 ^ 44) (fun x => x), 5, 0, ⟨0, 2 ^ 60 + 2 ^ 44⟩, by decide +kernel⟩
theorem witness_wloadComplete : ∃ (a : AuId) (s : State) (c l : Nat) (op : ActiveOp), (s.opOf a 1 = some (c, l, op) ∧ opKind op.word = 1 ∧ (s.au a).tilesIn op.word = true) := by
  exact ⟨9, opState 1 (2 ^ 60) (fun x => x), 5, 0, startedOp ⟨0, 2 ^ 60⟩, by decide +kernel⟩
theorem witness_adaptLoad : ∃ (a : AuId) (s : State) (c l : Nat) (op : ActiveOp) (p : List Byte × Au), (s.opOf a 1 = some (c, l, op) ∧ opKind op.word = 2 ∧ p = (s.au a).pull (8 + bits op.word 47 46) (pieceBytes op.word) 0 op.done) := by
  exact ⟨9, opState 1 (2 * 2 ^ 60) (fun x => x), 5, 0, startedOp ⟨0, 2 * 2 ^ 60⟩, (((opState 1 (2 * 2 ^ 60) (fun x => x)).au 9).pull 8 (pieceBytes (2 * 2 ^ 60)) 0 0), by decide +kernel⟩
theorem witness_drain : ∃ (a : AuId) (s : State) (c l : Nat) (op : ActiveOp) (b : Au), (s.opOf a 2 = some (c, l, op) ∧ (if dDown op.word then dBs op.word else 1) = 1) ∧ ((s.au a).drainRowReady op.seq op.word op.done = true ∧ (s.au a).pushAll (((s.au a).array.drainRow op.word op.done).map fun p => (p.1, drainOut op.word p.2)) = some b) := by
  let s := opState 2 (3 * 2 ^ 60 + 2 ^ 47 + 2 ^ 43 + 2 ^ 24) (fun x => x)
  exact ⟨9, s, 5, 0, startedOp ⟨0, 3 * 2 ^ 60 + 2 ^ 47 + 2 ^ 43 + 2 ^ 24⟩, (((s.au 9).pushAll (((s.au 9).array.drainRow (3 * 2 ^ 60 + 2 ^ 47 + 2 ^ 43 + 2 ^ 24) 0).map fun p => (p.1, drainOut (3 * 2 ^ 60 + 2 ^ 47 + 2 ^ 43 + 2 ^ 24) p.2))).getD Au.reset), by decide +kernel⟩
theorem witness_drain_start : ∃ (a : AuId) (s : State) (c l : Nat) (op : FifoOp), (s.live a = some (c, l) ∧ (s.au a).nextOf 2 = some op ∧ opWen op.word = false ∧ (s.au a).drainMismatch op = false) := by
  exact ⟨9, fifoState 0 (3 * 2 ^ 60 + 2 ^ 24) (fun x => x), 5, 0, ⟨0, 3 * 2 ^ 60 + 2 ^ 24⟩, by decide +kernel⟩

-- Link_work_and_collectives
theorem witness_linkWorkPost : ∃ (c : CtxId) (i : Nat) (s : State) (va : Nat), (s.workVa c i = some va ∧ i < s.workSize c) ∧ ((s.ctx c).checkAll true (pagesOf va 64) = .ok ()) ∧ (byteAt (s.vpeek c va 1) 0 % 16 = 1) ∧ (mfind (s.ctx c).linkWork i = none ∧ (s.ctx c).posted.contains i = false) := by
  let s := ({ upc 5 rCtx with mem := { MemSt.reset with hbm := [(0x400000, 1)] } }).setReg (LNK_WR_BASE_LO 5) (2 ^ 22)
  exact ⟨5, 0, s, 2 ^ 22, by decide +kernel, by decide +kernel, by decide +kernel, by decide +kernel⟩
theorem witness_linkWorkStart : ∃ (c : CtxId) (i : Nat) (s : State) (e y : LinkEntry) (n : Nat) (bs : List Byte) (u v : State), (mfind (s.ctx c).linkWork i = some e ∧ e.op = 0 ∧ e.srcq = none) ∧ (e.fail = none ∧ e.result = none ∧ e.issued < e.len ∧ (s.ctx c).awayFor e = false) ∧ (n = min (e.len - e.issued) (65536 - (e.woff + e.issued) % 65536) ∧ s.readAt c e.local_ e.issued n = .ok (bs, u)) ∧ (u.sendTxn (.entry c i) c 1 e.group e.handle (e.woff + e.issued) n bs [] 1 (0, 0) = .sent v) ∧ (mfind (v.ctx c).linkWork i = some y) := by
  let e := aEntry [(8, 2, 7), (16, 8, 2 ^ 22), (32, 8, 16)]
  let s := { rState.modLport 3 fun x => { x with state := .up } with links := { (rState.modLport 3 fun x => { x with state := .up }).links with routes := [(7, 2 ^ 31 + 3)] } }.putCtx 5 { rCtx with linkWork := [(0, e)] }
  have h : (match s.readAt 5 e.local_ e.issued 16 with | .ok (bs, u) => (match u.sendTxn (.entry 5 0) 5 1 e.group e.handle (e.woff + e.issued) 16 bs [] 1 (0, 0) with | .sent v => (mfind (v.ctx 5).linkWork 0).isSome | _ => false) | _ => false) = true := by decide +kernel
  split at h
  · rename_i bs u hr
    split at h
    · rename_i v hs
      obtain ⟨y, hy⟩ := Option.isSome_iff_exists.mp h
      exact ⟨5, 0, s, e, y, 16, bs, u, v, by decide +kernel, by decide +kernel, ⟨by decide +kernel, hr⟩, hs, hy⟩
    · cases h
  · cases h
theorem witness_linkWorkComplete : ∃ (c : CtxId) (i : Nat) (s : State) (e : LinkEntry), (mfind (s.ctx c).linkWork i = some e ∧ e.isColl = false ∧ e.flagEn = false) ∧ (e.fail = none ∧ e.result = none ∧ e.issued = e.len ∧ e.out = 0) := by
  let e := { aEntry [(8, 2, 7), (16, 8, 2 ^ 22), (32, 8, 16)] with issued := 16 }
  exact ⟨5, 0, upc 5 { rCtx with linkWork := [(0, e)] }, e, by decide +kernel, by decide +kernel⟩
theorem witness_collAbortReceive : ∃ (n : Nat) (s : State) (p : Nat) (tx : LTxn) (u : State) (c : Nat) (g : Group), (s.takeInbox n [8] = some (p, tx, u) ∧ u.groupCtx (tx.hdr.handle / 2 ^ 24) = some c) ∧ (((u.ctx c).linkWork.find? fun e => e.2.isColl && e.2.group == tx.hdr.handle / 2 ^ 24 && e.2.collSeq % 2 ^ 24 == tx.hdr.handle % 2 ^ 24) = none) ∧ (mfind (u.ctx c).colls (tx.hdr.handle / 2 ^ 24) = some g) := by
  let tx : LTxn := ⟨{ hdrOf (List.replicate 64 0) with op := 8, handle := 2 ^ 24 * 9 + 4 }, [], 7⟩
  exact ⟨0, { upc 5 { rCtx with colls := [(9, aGroup)] } with links := { LinkSt.reset with inbox := [(16, tx)] } }, 16, tx, _, 5, aGroup, ⟨rfl, by decide +kernel⟩, by decide +kernel, by decide +kernel⟩
theorem witness_collTimeout : ∃ (c : CtxId) (i τ : Nat) (s : State) (e : LinkEntry), (mfind (s.ctx c).linkWork i = some e ∧ e.isColl = true ∧ e.flagEn = false ∧ e.result = none) ∧ (e.since + 1000000 * s.fld LNK_TIMEOUT 31 16 ≤ τ) := by
  let e := aEntry [(1, 1, 4), (8, 2, 9), (16, 8, 2 ^ 22), (32, 8, 16)]
  exact ⟨5, 0, 1000000000000, upc 5 { rCtx with linkWork := [(0, e)], colls := [(9, aGroup)] }, e, by decide +kernel, by decide +kernel⟩
theorem witness_collChunkReceive : ∃ (n : Nat) (s : State) (p : Nat) (tx : LTxn) (u v : State) (c i : Nat) (e : LinkEntry) (g : Group), (s.takeInbox n [6] = some (p, tx, u) ∧ s.isSelf tx.hdr.dst = true) ∧ (u.seenTseq tx.hdr.org tx.hdr.tseq = false ∧ u.links.fenced.contains tx.hdr.org = false) ∧ (u.groupCtx (tx.hdr.handle / 2 ^ 24) = some c ∧ mfind (u.ctx c).colls (tx.hdr.handle / 2 ^ 24) = some g ∧ g.members.contains tx.hdr.org = true) ∧ (((u.ctx c).linkWork.find? fun e => e.2.isColl && e.2.group == tx.hdr.handle / 2 ^ 24 && e.2.collSeq % 2 ^ 24 == tx.hdr.handle % 2 ^ 24) = some (i, e)) ∧ (e.mismatch tx.hdr.args = false ∧ u.mboxFull c = false) ∧ ((u.ctx c).st ≠ .restoring ∧ (u.ctx c).awayFor e = false ∧ e.staged + ceilDiv tx.data.length 2048 ≤ 64) ∧ (u.takeChunk c i e g (byteAt tx.hdr.args 3) tx.hdr.offset tx = .ok v) := by
  let e := aEntry [(1, 1, 6), (8, 2, 9), (32, 8, 1)]
  let tx : LTxn := ⟨{ hdrOf (List.replicate 64 0) with op := 6, dst := 0xFFFF, org := 7, handle := 2 ^ 24 * 9, offset := 1, args := e.args 2 0 4 }, [1, 2, 3, 4], 5⟩
  let s := { upc 5 { rCtx with linkWork := [(0, e)], colls := [(9, aGroup)] } with links := { LinkSt.reset with inbox := [(16, tx)] } }
  exact ⟨0, s, 16, tx, inboxState s 0 [6], ((inboxState s 0 [6]).takeChunk 5 0 e aGroup (byteAt tx.hdr.args 3) tx.hdr.offset tx).st s, 5, 0, e, aGroup, by decide +kernel⟩
theorem witness_stepEndExchange : ∃ (c : CtxId) (s : State) (i : Nat) (e : LinkEntry) (g : Group) (cs : List (List Byte)), (((s.ctx c).linkWork.find? fun e => e.2.op == 6 && e.2.result.isNone && e.2.fail.isNone) = some (i, e) ∧ mfind (s.ctx c).linkWork i = some e) ∧ (mfind (s.ctx c).colls e.group = some g ∧ e.out = 0 ∧ e.outbox = [] ∧ e.contribs (List.range g.n) = some cs ∧ e.flagEn = false) := by
  let e := { aEntry [(1, 1, 6), (8, 2, 9), (32, 8, 1)] with own := [(0, natLe 8 2 ++ [0]), (1, natLe 8 2 ++ [0])], waiting := [(0, [3, 0]), (1, [4, 0])] }
  exact ⟨5, upc 5 { rCtx with linkWork := [(0, e)], colls := [(9, aGroup)] }, 0, e, aGroup, [[3, 0], [4, 0]], by decide +kernel, by decide +kernel⟩

-- Contexts_created_and_destroyed
theorem witness_createPf : ∃ (c : CtxId) (hpa hpb : Bool) (s : State), (s.barUp = true) ∧ ((s.ctx c).st = .free) ∧ (hpa = true ∨ hpb = true) := ⟨5, true, false, up, by decide +kernel⟩
theorem witness_createVf : ∃ (f : FnId) (j : SlotId) (s : State) (c : Nat), (s.barUp = true) ∧ (fnIsPf f = false) ∧ (s.slotCtx f j = none) ∧ ((s.owned f).length < s.fld (PCIE_VF_CTL (fnPort f) (f % 16)) 4 0) ∧ (s.lowestFree = some c) := ⟨1, 2, (up.setReg (PCIE_VF_CTL 0 1) 1), 0, by decide +kernel⟩
theorem witness_destroy : ∃ (f : FnId) (c : CtxId) (s : State), (s.barUp = true) ∧ (s.owns f c = true) ∧ ((s.ctx c).st ≠ .free ∧ (s.ctx c).st ≠ .destroying) := ⟨0, 5, (upc 5 aCtx), by decide +kernel⟩
theorem witness_destructionComplete : ∃ (c : CtxId) (s : State), ((s.ctx c).st = .destroying) := ⟨5, (upc 5 { aCtx with st := .destroying }), by decide +kernel⟩
theorem witness_runComplete : ∃ (c : CtxId) (s : State), ((s.ctx c).st = .running) ∧ (s.fwHalted = false) ∧ (s.allFinished c = true) := ⟨5, (upc 5 { aCtx with st := .running }), by decide +kernel⟩
theorem witness_preempt : ∃ (c : CtxId) (k : Nat) (s : State) (cmd : Cmd), (s.cmdAt c k = some cmd) ∧ (byteAt cmd.desc 0 = 0x09 ∧ s.serves 0x09 = true) ∧ (cmd.phase = .started ∧ zeroIn cmd.desc 4 64 = true) ∧ ((s.ctx c).st = .ready ∨ (s.ctx c).st = .running ∧ s.allFinished c = false) := ⟨5, 0, (upc 5 (withCmd aCtx (aCmd 9))), aCmd 9, by decide +kernel⟩
theorem witness_preemptionSaveComplete : ∃ (c : CtxId) (s : State), ((s.ctx c).st = .preempting) ∧ (s.segsOf c = false) := ⟨5, (upc 5 { aCtx with st := .preempting }), by decide +kernel⟩
theorem witness_resume : ∃ (c : CtxId) (k : Nat) (s : State) (cmd : Cmd) (p : Map Nat) (u : State), (s.cmdAt c k = some cmd) ∧ (byteAt cmd.desc 0 = 0x0A ∧ s.serves 0x0A = true) ∧ (cmd.phase = .started ∧ zeroIn cmd.desc 4 64 = true) ∧ ((s.ctx c).st = .preempted ∧ (s.ctx c).stackPins = []) ∧ ((s.setPhase c k (.underway 0 0)).findPlace c (s.ctx c).nLaus (s.ctx c).bufs [] none = some (p, u)) := ⟨5, 0, (upc 5 { withCmd aCtx (aCmd 10) with st := .preempted }), aCmd 10, [], (upc 5 { withCmd aCtx (aCmd 10) with st := .preempted }).setPhase 5 0 (.underway 0 0), by decide +kernel⟩
theorem witness_resumptionComplete : ∃ (c : CtxId) (s : State), ((s.ctx c).st = .resuming) ∧ ((s.port (s.ctxPort c)).lost = false) := ⟨5, (upc 5 { aCtx with st := .resuming }), by decide +kernel⟩
theorem witness_displacedResume : ∃ (s : State) (c : Nat) (cs : List Nat) (p : Map Nat), (s.displacedOrder = c :: cs) ∧ (s.placeAus c (s.ctx c).nLaus (s.ctx c).bufs (s.freeFor c []) = some p) ∧ ((s.ctx c).stackPins = []) := ⟨(upc 5 { aCtx with st := .preempted, cause := .displaced }), 5, [], [], by decide +kernel⟩
theorem witness_placeHint : ∃ (c : CtxId) (k : Nat) (s : State) (cmd : Cmd) (y : Ctx), (s.cmdAt c k = some cmd) ∧ (byteAt cmd.desc 0 = 0x12 ∧ s.serves 0x12 = true) ∧ (cmd.phase = .started) ∧ ((s.ctx c).takeHints cmd.desc = some y) ∧ ((s.ctx c).st = .empty ∨ (s.ctx c).st = .preempted ∨ (s.ctx c).st = .ready ∧ bit (byteAt cmd.desc 6) 0 = false) := ⟨5, 0, (upc 5 { withCmd aCtx ⟨layOut 64 [(0,1,18),(5,1,1)], .started, 0, 0⟩ with st := .preempted }), ⟨layOut 64 [(0,1,18),(5,1,1)], .started, 0, 0⟩, { withCmd aCtx ⟨layOut 64 [(0,1,18),(5,1,1)], .started, 0, 0⟩ with st := .preempted, pins := [(0,0)] }, by decide +kernel⟩

-- Issue_from_the_core_and_Stencils
theorem witness_dxIssue : ∃ (a : AuId) (s u : State) (c : Nat) (e rs1 rd : Nat), (s.AtDx a c (.issue e rs1 rd) u) ∧ ((u.au a).fifoFree e = true ∧ opReject e (u.au a).part (u.xreg a rs1) = none) := by
  let s := (dxState (customWord 0 3 5 1) (fun x => { x with core := { x.core with x := [(5, 0xF000000000000000)] } }))
  exact ⟨9, s, dxFetched s 5, 5, 3, 5, 1, by decide +kernel⟩
theorem witness_dxTryissue : ∃ (a : AuId) (s u : State) (c : Nat) (e rs1 rd : Nat), (s.AtDx a c (.tryissue e rs1 rd) u) ∧ ((u.au a).fifoFree e = true ∧ opReject e (u.au a).part (u.xreg a rs1) = none) := by
  let s := (dxState (customWord 0 7 5 1) (fun x => { x with core := { x.core with x := [(5, 0xF000000000000000)] } }))
  exact ⟨9, s, dxFetched s 5, 5, 3, 5, 1, by decide +kernel⟩
theorem witness_dxTryissue_full : ∃ (a : AuId) (s u : State) (c : Nat) (e rs1 rd : Nat), (s.AtDx a c (.tryissue e rs1 rd) u) ∧ ((u.au a).fifoFree e = false) := by
  let s := (dxState (customWord 0 7 5 1) (fun x => { x with fifos := [(3, List.replicate 64 ⟨0, 0⟩)] }))
  exact ⟨9, s, dxFetched s 5, 5, 3, 5, 1, by decide +kernel⟩
theorem witness_fifoPlaceFree : ∃ (a : AuId) (s u : State) (c e rs1 rd : Nat), (s.HeldDx a .issue c (.issue e rs1 rd) u ∧ (s.core a).wait = .issue) ∧ ((u.au a).fifoFree e = true ∧ opReject e (u.au a).part (u.xreg a rs1) = none) := by
  let s := dxState (customWord 0 3 5 1) fun x => { x with core := { x.core with x := [(5, 0xF000000000000000)], wait := .issue } }
  exact ⟨9, s, dxHeldFetched s 5, 5, 3, 5, 1, by decide +kernel, by decide +kernel⟩
theorem witness_dxStnLd : ∃ (a : AuId) (s u : State) (c : Nat) (st rs1 : Nat) (bs : List Byte) (v : State), (s.HeldDx a .stnLd c (.stnLd st rs1) u) ∧ (u.xreg a rs1 % 64 = 0 ∧ ((u.au a).stn st).busy = false) ∧ (u.vread c (u.xreg a rs1) 64 = .ok (bs, v)) := by
  let s := (dxState (customWord 1 3 5 0) (fun x => { x with core := { x.core with x := [(5, 0x400040)] } }))
  let u := dxHeldFetched s 5
  exact ⟨9, s, u, 5, 3, 5, ((vres (u.vread 5 0x400040 64)).getD ([], u)).1, ((vres (u.vread 5 0x400040 64)).getD ([], u)).2, by decide +kernel⟩
theorem witness_dxStnGo : ∃ (a : AuId) (s u : State) (c : Nat) (st l : Nat) (p : Program), (s.HeldDx a .stnGo c (.stnGo st) u) ∧ (((u.au a).stn st).busy = false ∧ (u.au a).asg = some (c, l) ∧ (u.ctx c).prog = some p) ∧ (((u.au a).onEnd (stnDesc ((u.au a).stn st).desc).queue (stnDesc ((u.au a).stn st).desc).scales .active).isEmpty = true ∧ (u.ctx c).linkBound l (stnDesc ((u.au a).stn st).desc).queue = false) ∧ (stnCheck p.laus p.lbufs (some l) ((u.au a).stn st).desc = none) := by
  let s := dxState (customWord 1 0x103 0 0) (fun x => x.putStn 3 { StnSlot.reset with desc := anStencil })
  exact ⟨9, s, dxHeldFetched s 5, 5, 3, 0, aProg, by decide +kernel⟩
theorem witness_dxStnPos : ∃ (a : AuId) (s u : State) (c : Nat) (st rd : Nat), (s.AtDx a c (.stnPos st rd) u) := by
  let s := (dxState (customWord 1 515 0 6) (fun x => x))
  exact ⟨9, s, dxFetched s 5, 5, 3, 6, by decide +kernel⟩
theorem witness_dxStnWait : ∃ (a : AuId) (s u : State) (c : Nat) (st : Nat), (s.HeldDx a .stnWait c (.stnWait st) u) ∧ (((u.au a).stn st).busy = false) := by
  let s := (dxState (customWord 1 771 0 0) (fun x => x))
  exact ⟨9, s, dxHeldFetched s 5, 5, 3, by decide +kernel⟩
theorem witness_dxStnStat : ∃ (a : AuId) (s u : State) (c : Nat) (st rd : Nat), (s.AtDx a c (.stnStat st rd) u) := by
  let s := (dxState (customWord 1 1027 0 6) (fun x => x))
  exact ⟨9, s, dxFetched s 5, 5, 3, 6, by decide +kernel⟩

-- Flags_and_semaphores
theorem witness_dxFset : ∃ (a : AuId) (s u : State) (c : Nat) (f : FlagArg), (s.AtDx a c (.fset f) u) := by
  let s := (dxState (customWord 2 7 0 0) (fun x => x))
  exact ⟨9, s, dxFetched s 5, 5, .imm 7, by decide +kernel⟩
theorem witness_dxFclr : ∃ (a : AuId) (s u : State) (c : Nat) (f : FlagArg), (s.AtDx a c (.fclr f) u) := by
  let s := (dxState (customWord 2 519 0 0) (fun x => x))
  exact ⟨9, s, dxFetched s 5, 5, .imm 7, by decide +kernel⟩
theorem witness_dxFwait : ∃ (a : AuId) (s u : State) (c : Nat) (f : FlagArg), (s.AtDx a c (.fwait f) u) ∧ (u.flag c (u.flagArg a f) = true) := by
  let s := (dxState (customWord 2 1031 0 0) (fun x => x)).modCtx 5 fun x => { x with flags := 128 }
  exact ⟨9, s, dxFetched s 5, 5, .imm 7, by decide +kernel⟩
theorem witness_dxFwaitc : ∃ (a : AuId) (s u : State) (c : Nat) (f : FlagArg), (s.AtDx a c (.fwaitc f) u) ∧ (u.flag c (u.flagArg a f) = false) := by
  let s := (dxState (customWord 2 1543 0 0) (fun x => x))
  exact ⟨9, s, dxFetched s 5, 5, .imm 7, by decide +kernel⟩
theorem witness_dxFwaitx : ∃ (a : AuId) (s u : State) (c : Nat) (f : FlagArg), (s.AtDx a c (.fwaitx f) u) ∧ (u.flag c (u.flagArg a f) = true) := by
  let s := (dxState (customWord 2 2055 0 0) (fun x => x)).modCtx 5 fun x => { x with flags := 128 }
  exact ⟨9, s, dxFetched s 5, 5, .imm 7, by decide +kernel⟩
theorem witness_flagWaitSatisfied : ∃ (a : AuId) (s u : State) (c g : Nat) (f : FlagArg), (s.HeldDx a (.flag g) c (.fwaitx f) u ∧ (s.core a).wait = .flag g ∧ u.flag c (u.flagArg a f) = true) := by
  let s := (dxState (customWord 2 0x807 0 0) fun x => { x with core := { x.core with wait := .flag 7 } }).modCtx 5 fun x => { x with flags := 128 }
  exact ⟨9, s, dxHeldFetched s 5, 5, 7, .imm 7, by decide +kernel⟩
theorem witness_dxFtest : ∃ (a : AuId) (s u : State) (c : Nat) (f : FlagArg) (rd : Nat), (s.AtDx a c (.ftest f rd) u) := by
  let s := (dxState (customWord 2 2567 0 6) (fun x => x))
  exact ⟨9, s, dxFetched s 5, 5, .imm 7, 6, by decide +kernel⟩
theorem witness_dxSemAcq : ∃ (a : AuId) (s u : State) (c : Nat) (rs1 n : Nat), (s.AtDx a c (.semAcq rs1) u) ∧ (n = u.xreg a rs1 ∧ n < 256 ∧ bit (u.sem n).mask c = true) ∧ ((u.sem n).holder = none ∧ (u.sem n).waiters = []) := by
  let s := (dxState (customWord 5 256 0 0) (fun x => x)).putSem 0 { Sem.reset with mask := 32 }
  exact ⟨9, s, dxFetched s 5, 5, 0, 0, by decide +kernel⟩
theorem witness_dxSemRel : ∃ (a : AuId) (s u : State) (c : Nat) (rs1 n : Nat), (s.AtDx a c (.semRel rs1) u) ∧ (n = u.xreg a rs1 ∧ n < 256 ∧ bit (u.sem n).mask c = true) ∧ ((u.sem n).holder = some c) := by
  let s := (dxState (customWord 5 512 0 0) (fun x => x)).putSem 0 { Sem.reset with mask := 32, holder := some 5 }
  exact ⟨9, s, dxFetched s 5, 5, 0, 0, by decide +kernel⟩

-- Levels_loops_and_placement
theorem witness_dxQlvl : ∃ (a : AuId) (s u : State) (c : Nat) (q rd : Nat), (s.AtDx a c (.qlvl q rd) u) := by
  let s := (dxState (customWord 3 9 0 6) (fun x => x))
  exact ⟨9, s, dxFetched s 5, 5, 9, 6, by decide +kernel⟩
theorem witness_dxFlvl : ∃ (a : AuId) (s u : State) (c : Nat) (e rd : Nat), (s.AtDx a c (.flvl e rd) u) := by
  let s := (dxState (customWord 3 258 0 6) (fun x => x))
  exact ⟨9, s, dxFetched s 5, 5, 2, 6, by decide +kernel⟩
theorem witness_dxFpace : ∃ (a : AuId) (s u : State) (c : Nat) (e rs1 : Nat), (s.HeldDx a .pace c (.fpace e rs1) u) ∧ (((u.au a).fifo e).length ≤ u.xreg a rs1) := by
  let s := (dxState (customWord 3 514 6 0) (fun x => x))
  exact ⟨9, s, dxHeldFetched s 5, 5, 2, 6, by decide +kernel⟩
theorem witness_dxQpace : ∃ (a : AuId) (s u : State) (c : Nat) (q rs1 : Nat), (s.HeldDx a .pace c (.qpace q rs1) u) ∧ (u.xreg a rs1 ≤ ((u.au a).queue q).level) := by
  let s := (dxState (customWord 3 770 6 0) (fun x => x))
  exact ⟨9, s, dxHeldFetched s 5, 5, 2, 6, by decide +kernel⟩
theorem witness_dxLoop : ∃ (a : AuId) (s u : State) (c : Nat) (level len : Nat), (s.AtDx a c (.loop level len) u) := by
  let s := (dxState (customWord 4 1029 0 0) (fun x => x))
  exact ⟨9, s, dxFetched s 5, 5, 1, 5, by decide +kernel⟩
theorem witness_dxBrk : ∃ (a : AuId) (s u : State) (c : Nat) (level : Nat), (s.AtDx a c (.brk level) u) := by
  let s := (dxState (customWord 4 1024 0 0) (fun x => x))
  exact ⟨9, s, dxFetched s 5, 5, 1, by decide +kernel⟩
theorem witness_dxWhere : ∃ (a : AuId) (s u : State) (c : Nat) (rs1 rd : Nat), (s.AtDx a c (.where_ rs1 rd) u) := by
  let s := (dxState (customWord 5 0 5 6) (fun x => x))
  exact ⟨9, s, dxFetched s 5, 5, 5, 6, by decide +kernel⟩

-- Instructions_of_the_control_core
theorem witness_coreInstruction : ∃ (a : AuId) (s u : State) (c len : Nat) (i : Rv), (s.coreReady a = some c ∧ s.fetch c (s.core a).pc.toNat = .got i len u) ∧ (∀ d, i ≠ .dx d) := by
  let s := dxState 0x002081B3 fun x => x
  exact ⟨9, s, dxFetched s 5, 5, 4, .alu .add 3 1 2, by decide +kernel, by intro d h; cases h⟩
theorem witness_coreInstruction_alu : ∃ (a : AuId) (s u : State) (c len rd rs1 rs2 : Nat) (op : Alu), (s.coreReady a = some c ∧ s.fetch c (s.core a).pc.toNat = .got (.alu op rd rs1 rs2) len u) ∧ ((u.core a).loops = []) := by
  let s := dxState 0x002081B3 fun x => x
  exact ⟨9, s, dxFetched s 5, 5, 4, 3, 1, 2, .add, by decide +kernel⟩
theorem witness_corePageWaitEnd : ∃ (a : AuId) (s : State) (c l va : Nat) (r : Nat × Pte × Nat), (s.live a = some (c, l) ∧ (s.core a).wait = .page va ∧ (s.ctx c).translate va false = .ok r) := by
  let s := dxState 0 fun x => { x with core := { x.core with wait := .page 0x400000 } }
  exact ⟨9, s, 5, 0, 0x400000, (vres ((s.ctx 5).translate 0x400000 false)).getD (0, aPage, 0), by decide +kernel⟩
theorem witness_logicalAuExit : ∃ (a : AuId) (s : State) (c l : Nat), (s.live a = some (c, l) ∧ (s.core a).running = true ∧ (s.core a).wait = .none ∧ (s.core a).pc.toNat = (s.ctx c).exitVa) := by
  let s := dxState 0 fun x => { x with core := { x.core with pc := BitVec.ofNat 64 ((rState.ctx 5).exitVa) } }
  exact ⟨9, s, 5, 0, by decide +kernel⟩
theorem witness_semGranted : ∃ (n : SemId) (s : State) (c : Nat), ((s.sem n).holder = none ∧ s.semNext n = some c) := by
  exact ⟨3, rState.putSem 3 { Sem.reset with waiters := [5] }, 5, by decide +kernel⟩

-- Step_boundary_and_restores
theorem witness_secureNow : ∃ (c : CtxId) (k : Nat) (s : State) (cmd : Cmd), (s.cmdAt c k = some cmd ∧ byteAt cmd.desc 0 = 0x04 ∧ s.serves 0x04 = true) ∧ (cmd.phase = .started ∧ bits (byteAt cmd.desc 4) 7 1 = 0 ∧ zeroIn cmd.desc 5 64 = true) ∧ (((s.ctx c).st = .running ∨ (s.ctx c).st = .ready ∨ (s.ctx c).st = .preempted) ∧ s.rbit (DST_CTL c) 0 = true ∧ s.dustBase c ≠ 0) := ⟨5, 0, (cmdState aCtx (layOut 64 [(0, 1, 4)])).setReg (DST_CTL 5) 0x101 |>.setReg (DST_TBL_BASE_LO 5) 0x400000 |>.setReg (DST_TBL_BASE_HI 5) 0x200000, ⟨layOut 64 [(0, 1, 4)], .started, 0, 0⟩, by decide +kernel⟩
theorem witness_failureNotice : ∃ (c : CtxId) (k : Nat) (s : State) (cmd : Cmd) (step : Nat), (s.cmdAt c k = some cmd ∧ byteAt cmd.desc 0 = 0x13 ∧ s.serves 0x13 = true) ∧ (zeroIn cmd.desc 4 8 = true ∧ zeroIn cmd.desc 18 64 = true ∧ step = fieldLe cmd.desc 8 8) := ⟨5, 0, cmdState aCtx (layOut 64 [(0, 1, 0x13), (8, 8, 77)]), ⟨layOut 64 [(0, 1, 0x13), (8, 8, 77)], .started, 0, 0⟩, 77, by decide +kernel⟩
theorem witness_stepClose : ∃ (c : CtxId) (s : State) (tb : DustTable) (u : State), ((s.ctx c).dust.table = some tb ∧ (s.ctx c).dust.closing = none ∧ (s.ctx c).st.steps = true) ∧ ((s.ctx c).checkAll false (pagesOf tb.va 8) = .ok () ∧ fieldLe (s.vpeek c tb.va 8) 0 8 = s.step_ c) ∧ (u = s.modDust c fun d => { d with closing := some (s.step_ c), stage := 0, stalled := false, closeSeq := (s.lauStates c).map fun e => (e.1, e.2.nextSeq) }) ∧ (u.stepQuiet c = false) := by
  exact ⟨5, (upc 5 { rCtx with dust := { DustSt.reset with table := some ⟨2 ^ 22, 0, false, [], 0, 0, 0⟩ } } |>.putAu 9 { Au.reset with asg := some (5, 0), nextSeq := 1, fifos := [(2, [⟨0, 0⟩])] }), ⟨2 ^ 22, 0, false, [], 0, 0, 0⟩, _, by decide +kernel, by decide +kernel, rfl, by decide +kernel⟩
theorem witness_stepBoundaryOpen : ∃ (c : CtxId) (s : State) (tb : DustTable) (k : Nat), ((s.ctx c).dust.table = some tb ∧ (s.ctx c).dust.closing = some k ∧ (s.ctx c).st.steps = true) ∧ ((s.ctx c).dust.stage = 3 ∧ (s.ctx c).dust.securing = none ∧ tb.bflagEn = false) ∧ ((s.ctx c).checkAll true ((s.openRanges c tb).map fun r => pagesOf r.1 r.2).flatten = .ok ()) := ⟨5, (upc 5 { rCtx with dust := { DustSt.reset with table := some ⟨2 ^ 22, 0, false, [], 0, 0, 0⟩, closing := some 8, stage := 3 } }), ⟨2 ^ 22, 0, false, [], 0, 0, 0⟩, 8, by decide +kernel⟩
theorem witness_restore : ∃ (c : CtxId) (k : Nat) (s v : State) (cmd : Cmd) (f : ImgFetch) (e : Nat), (s.cmdAt c k = some cmd ∧ byteAt cmd.desc 0 = 0x05 ∧ s.serves 0x05 = true) ∧ (restShard cmd.desc = false ∧ cmd.phase ≠ .started ∧ (s.ctx c).dust.restore = some f) ∧ (s.restoreGo c Cmd.isRestore (restoreFuel f.plan.length) = .done v e) := by
  let f : ImgFetch := { ImgFetch.start none 0 none none 0 [] [] with stage := 6, head := List.replicate 4160 0 }
  let d := layOut 64 [(0, 1, 5), (4, 1, 2)]
  let s := (upc 5 { rCtx with st := .restoring, place := [], ring := { RingSt.reset with cmds := [⟨d, .underway 0 0, 0, 0⟩] }, dust := { DustSt.reset with restore := some f } }).modPort 0 fun p => { p with dlUp := true }
  exact ⟨5, 0, s, (s.restoreGo 5 Cmd.isRestore (restoreFuel 0)).st s, ⟨d, .underway 0 0, 0, 0⟩, f, 0, by decide +kernel⟩
theorem witness_restoreShard : ∃ (c : CtxId) (k : Nat) (s u : State) (cmd : Cmd) (f g : ImgFetch), (s.cmdAt c k = some cmd ∧ byteAt cmd.desc 0 = 0x05 ∧ s.serves 0x05 = true) ∧ (restShard cmd.desc = true ∧ cmd.phase ≠ .started ∧ (s.ctx c).dust.restore = some f ∧ s.imgStep c f = .done u g) := by
  let f : ImgFetch := { ImgFetch.start none 0 none none 0 [] [] with stage := 6 }
  let d := layOut 64 [(0, 1, 5), (4, 1, 2), (5, 1, 1), (24, 8, 4096), (32, 4, 1)]
  let s := (upc 5 { rCtx with ring := { RingSt.reset with cmds := [⟨d, .underway 0 0, 0, 0⟩] }, dust := { DustSt.reset with restore := some f } }).modPort 0 fun p => { p with dlUp := true }
  exact ⟨5, 0, s, s, ⟨d, .underway 0 0, 0, 0⟩, f, f, by decide +kernel⟩

-- Securing_of_a_state
theorem witness_pendingPageFirstWrite : ∃ (c : CtxId) (page : Nat) (s u : State) (k : Nat) (e : Pte), ((s.ctx c).pte page = some (k, e) ∧ e.protect = true ∧ s.shadowFor c k page (List.range 1024) = some u) := by
  let g : Securing := ⟨4, 0, [], [⟨true, 2, 0, 2⟩], [.pending], [], 0, none, [], none, 0, 0, 0⟩
  let s := upc 5 { rCtx with pt := [(2, { aPage with protect := true })], dust := { DustSt.reset with securing := some g, reserve := [3], reserveAll := [3] } }
  have h : (s.shadowFor 5 2 2 (List.range 1024)).isSome = true := by rfl
  obtain ⟨u, hu⟩ := Option.isSome_iff_exists.mp h
  exact ⟨5, 2, s, u, 2, { aPage with protect := true }, by decide +kernel, rfl, hu⟩
theorem witness_shadowFrameFree : ∃ (c : CtxId) (s : State) (g : Securing) (i fr : Nat), ((s.ctx c).dust.securing = some g) ∧ ((List.range g.marks.length).find? (s.shadowOver c g) = some i ∧ g.marks[i]? = some (.sent (some fr))) := by
  let g : Securing := ⟨4, 0, [], [⟨true, 2, 0, 2⟩], [.sent (some 3)], [], 0, none, [], none, 0, 0, 0⟩
  exact ⟨5, upc 5 { rCtx with dust := { DustSt.reset with securing := some g } }, g, 0, 3, by decide +kernel, by decide +kernel, rfl⟩
theorem witness_securePageCopy : ∃ (c : CtxId) (s : State) (g : Securing) (i : Nat), (((s.tgtsGo c).ctx c).dust.securing = some g) ∧ (g.failed = none ∧ (g.tgts.any fun e => decide (e.2.phase < 1)) = false) ∧ (g.cur = some i ∨ g.cur = none ∧ g.nextPage = some i) := by
  let g : Securing := ⟨4, 0, [], [⟨true, 2, 0, 2⟩], [.pending], [], 0, some 0, [(0, ⟨1, 0, 0⟩)], none, 0, 0, 0⟩
  exact ⟨5, upc 5 { rCtx with dust := { DustSt.reset with securing := some g } }, g, 0, by decide +kernel, by decide +kernel, Or.inl rfl⟩
theorem witness_secured : ∃ (c : CtxId) (s : State) (g : Securing), (((s.tgtsGo c).ctx c).dust.securing = some g) ∧ (g.failed = none ∧ (g.tgts.all fun e => decide (4 ≤ e.2.phase)) = true) := by
  let g : Securing := ⟨4, 0, [], [⟨true, 2, 0, 2⟩], [.done], [], 0, none, [(0, ⟨4, 0, 0⟩)], none, 0, 0, 0⟩
  exact ⟨5, upc 5 { rCtx with dust := { DustSt.reset with securing := some g } }, g, by decide +kernel, by decide +kernel⟩
theorem witness_secureFailed : ∃ (c : CtxId) (tgt : Nat) (s : State) (g : Securing) (st : Nat), ((s.ctx c).dust.securing = some g ∧ g.failed = some (tgt, st)) := by
  let g : Securing := ⟨4, 0, [], [⟨true, 2, 0, 2⟩], [.pending], [], 0, some 0, [(0, ⟨1, 0, 0⟩)], some (1, 0x45), 0, 0, 0⟩
  exact ⟨5, 1, upc 5 { rCtx with dust := { DustSt.reset with securing := some g } }, g, 0x45, by decide +kernel⟩

-- Boot_update_and_compartments
theorem witness_romBoot : ∃ (s : State) (d : Dir), (s.power.hostOn = true ∧ s.power.svc.hold = false ∧ s.fld SEC_BOOT_STATUS 27 24 = 0 ∧ s.fld SEC_FW_STATUS 31 30 = 0) ∧ (s.sec.fuses.scrap = false ∧ d = s.sec.dir.1) := ⟨State.reset, State.reset.sec.dir.1, by decide +kernel⟩
theorem witness_stage1Run : ∃ (s : State), (s.fld SEC_BOOT_STATUS 27 24 = 1 ∧ s.sec.mainOk s.slot = true) := ⟨{ State.reset.setFld SEC_BOOT_STATUS 27 24 1 with sec := { SecSt.reset with flash := wrBytes [] (0x100000 + 72) (sha256 []) } }, by decide +kernel⟩
theorem witness_fwReady : ∃ (s : State) (h : List Byte), (s.fld SEC_BOOT_STATUS 27 24 = 2 ∧ s.fld SEC_FW_STATUS 31 30 = 0 ∧ h = s.sec.head s.slot) := ⟨State.reset.setFld SEC_BOOT_STATUS 27 24 2, State.reset.sec.head 0, by decide +kernel⟩
theorem witness_secUpdGo : ∃ (f : FnId) (v : Word32) (s : State), (s.updUp = true ∧ f.val = s.adminPf ∧ bit v.toNat 0 = true ∧ s.sec.fuses.scrap = false) ∧ (s.rbit SEC_UPD_CTL 2 = false ∧ s.rbit SEC_BOOT_STATUS 9 = false) := ⟨0, 1, up, by decide +kernel⟩
theorem witness_fwStaged : ∃ (s : State) (g : Staging), (s.sec.staging = some g ∧ s.fwHalted = false) := ⟨{ up with sec := { SecSt.reset with staging := some ⟨4096, 4096, 1⟩ } }, ⟨4096, 4096, 1⟩, by decide +kernel⟩
theorem witness_secUpdCommit : ∃ (f : FnId) (v : Word32) (s : State), (s.updUp = true ∧ f.val = s.adminPf ∧ bit v.toNat 1 = true ∧ s.sec.fuses.scrap = false) ∧ (s.rbit SEC_UPD_CTL 2 = false ∧ s.rbit SEC_BOOT_STATUS 9 = true) := ⟨0, 2, up.setFld SEC_BOOT_STATUS 9 9 1, by decide +kernel⟩
theorem witness_fwRestart : ∃ (comp cause τ : Nat) (s : State), (s.fwUp = true ∧ 1 ≤ comp ∧ comp ≤ 8 ∧ cause ≤ 3 ∧ ((s.at τ).recent comp).length < 3) := ⟨6, 1, 500, up, by decide +kernel⟩
theorem witness_compartmentHeartbeatMiss : ∃ (comp τ : Nat) (s : State), (s.fwUp = true ∧ 1 ≤ comp ∧ comp ≤ 8 ∧ ((s.at τ).recent comp).length < 3 ∧ s.sec.haltedCores.contains (compCore comp) = false) := ⟨6, 500, up, by decide +kernel⟩
theorem witness_fwHalted : ∃ (comp cause τ : Nat) (s : State), (s.fwUp = true ∧ comp ≤ 8 ∧ cause ≤ 3 ∧ (comp = 0 ∨ 3 ≤ ((s.at τ).recent comp).length)) := ⟨0, 3, 500, up, by decide +kernel⟩
theorem witness_fwMemoryUncorr : ∃ (n τ : Nat) (s : State), (s.fwUp = true) := ⟨0, 500, up, by decide +kernel⟩

-- Hawk_slots_and_errors
theorem witness_slotVisitBegin : ∃ (a : AuId) (g : AgentId) (s : State) (c l o : Nat), (s.live a = some (c, l) ∧ g.val < 16 ∧ s.stnHawkNext a g = some o ∧ (stnDesc ((s.au a).stn g).desc).tag ≠ 0 ∧ s.stnInVisit a g (o / 2048) = false) ∧ ((((s.au a).endStnVisit g).tag (o / 2048)).canBegin (stnDesc ((s.au a).stn g).desc).write = true) := by
  let d := layOut 64 [(16, 8, 2 ^ 20), (24, 4, 64), (28, 4, 2 ^ 24 + 2 ^ 15 + 2 ^ 20), (32, 4, 1), (36, 4, 1), (40, 4, 1)]
  exact ⟨9, 3, rState.modAu 9 fun x => x.putStn 3 { StnSlot.reset with desc := d, st := .active }, 5, 0, 0, by decide +kernel⟩
theorem witness_slotVisitEnd : ∃ (a : AuId) (g : AgentId) (s : State) (c l k p : Nat), (s.live a = some (c, l) ∧ g.val < 16 ∧ s.stnVisitOver a g = true ∧ ((s.au a).stn g).visit = some (k, p)) := by
  exact ⟨9, 3, rState.modAu 9 fun x => x.putStn 3 { StnSlot.reset with st := .done, visit := some (4, 0) }, 5, 0, 4, 0, by decide +kernel⟩
theorem witness_slotTimeout : ∃ (a : AuId) (g : AgentId) (u : Nat) (s : State) (c l slot since e : Nat), ((s.at u).live a = some (c, l) ∧ g.val < 16 ∧ (((s.at u).au a).stn g).waitSlot = some (slot, since, e) ∧ since + cyclesNs (2 ^ e) ≤ u) := by
  exact ⟨9, 3, 4000, rState.modAu 9 fun x => x.putStn 3 { StnSlot.reset with st := .active, waitSlot := some (4, 0, 10) }, 5, 0, 4, 0, 10, by decide +kernel⟩
theorem witness_slotTimeout_early : ∃ (a : AuId) (g : AgentId) (u : Nat) (s : State) (c l slot since e : Nat), ((s.at u).live a = some (c, l) ∧ g.val < 16 ∧ (((s.at u).au a).stn g).waitSlot = some (slot, since, e) ∧ u < since + cyclesNs (2 ^ e)) := by
  exact ⟨9, 3, 40, rState.modAu 9 fun x => x.putStn 3 { StnSlot.reset with st := .active, waitSlot := some (4, 0, 10) }, 5, 0, 4, 0, 10, by decide +kernel⟩
theorem witness_hawkEccError : ∃ (a : AuId) (off : Nat) (s : State), ((s.au a).asg = none) := ⟨9, 0, State.reset, by decide +kernel⟩

-- Host_admin_and_rings
theorem witness_hubAdminWrite : ∃ (f : FnId) (v : Word32) (s : State), (s.barUp = true) ∧ (f.val = s.adminPf ∧ bits v.toNat 0 0 ≠ s.adminPort) := ⟨0, 1, up, by decide +kernel⟩
theorem witness_adminGraceExpiry : ∃ (τ : Nat) (s : State), ((s.port s.adminPort).lost = true ∧ (s.port s.adminPort).lostAt + s.graceNs s.adminPort ≤ τ) ∧ ((s.port (1 - s.adminPort)).dlUp = true) := ⟨5000000000000, ((State.reset.modPort 0 fun x => { x with lost := true }).modPort 1 fun x => { x with dlUp := true }), by decide +kernel⟩
theorem witness_hubSyncGo : ∃ (f : FnId) (v : Word32) (s : State), (s.barUp = true) ∧ (bit v.toNat 0 = true ∧ s.fld (HUB_SYNC_REQ f) 1 1 = 0) := ⟨0, 1, up, by decide +kernel⟩
theorem witness_syncSummaryWritten : ∃ (f : FnId) (s : State), (s.fld (HUB_SYNC_REQ f) 1 1 = 1) ∧ ((s.port (fnPort f)).dlUp = true) := ⟨0, ((State.reset.setFld (HUB_SYNC_REQ 0) 1 1 1).modPort 0 fun x => { x with dlUp := true }), by decide +kernel⟩
theorem witness_ringCtlWrite : ∃ (f : FnId) (c : CtxId) (v : Word32) (s : State), (s.barUp = true ∧ s.owns f c = true) ∧ ((s.ctx c).ring.cmds = []) ∧ (s.rbit (CTX_RING_CTL c) 31 = false ∧ bit v.toNat 31 = true) := ⟨0, 5, 0x80000000#32, (upc 5 aCtx), by decide +kernel⟩
theorem witness_dbCmdTail : ∃ (f : FnId) (k : CtxId) (v : Word32) (size : Nat) (s : State) (c : Nat), (s.fwUp = true ∧ s.pageCtx f k = some c) ∧ (size = 4 ∧ s.rbit (CTX_RING_CTL c) 31 = true) := ⟨0, 5, 3, 4, (upc 5 aCtx).setFld (CTX_RING_CTL 5) 31 31 1, 5, by decide +kernel⟩
theorem witness_dbCplHead : ∃ (f : FnId) (k : CtxId) (v : Word32) (size : Nat) (s : State) (c : Nat), (s.fwUp = true ∧ s.pageCtx f k = some c) ∧ (size = 4 ∧ s.rbit (CTX_RING_CTL c) 31 = true) := ⟨0, 5, 3, 4, (upc 5 aCtx).setFld (CTX_RING_CTL 5) 31 31 1, 5, by decide +kernel⟩
theorem witness_doorbellAccepted : ∃ (c : CtxId) (s : State) (v : BitVec 16), (s.fwHalted = false ∧ s.sec.haltedCores.contains 0 = false) ∧ ((s.ctx c).ring.dbTail = some v ∧ (s.ctx c).ring.dbHead = none) ∧ ((v - (s.ctx c).ring.cmdHead).toNat ≤ s.cmdSize c) := ⟨5, (upc 5 { aCtx with ring := { RingSt.reset with dbTail := some 4 } }), 4, by decide +kernel⟩
theorem witness_doorbellAccepted_head : ∃ (c : CtxId) (s : State) (v : BitVec 16), (s.fwHalted = false ∧ s.sec.haltedCores.contains 0 = false) ∧ ((s.ctx c).ring.dbTail = none ∧ (s.ctx c).ring.dbHead = some v) ∧ (((s.ctx c).ring.cplTail - v).toNat ≤ s.cplSize c ∧ ((s.ctx c).ring.cplTail - v).toNat ≤ ((s.ctx c).ring.cplTail - (s.ctx c).ring.cplHead).toNat) := ⟨5, (upc 5 { aCtx with ring := { RingSt.reset with cplTail := 4, dbHead := some 2 } }), 2, by decide +kernel⟩
theorem witness_descriptorStart : ∃ (c : CtxId) (s : State) (d : List Byte), (s.canStart c = true ∧ s.nextDesc c = some d) ∧ (1 ≤ byteAt d 0 ∧ byteAt d 0 < 0x14 ∧ bits (byteAt d 1) 7 1 = 0) ∧ (byteAt d 0 = 0x08 → (s.ctx c).ring.cmds = []) := ⟨5, (((upc 5 { aCtx with ring := { RingSt.reset with cmdTail := 1 } }).setFld (CTX_RING_CTL 5) 31 31 1).modPort 0 fun x => { x with dlUp := true }).hostWrite 0 0 (layOut 64 [(0, 1, 9)]), layOut 64 [(0, 1, 9)], by decide +kernel⟩
theorem witness_irqDelayExpiry : ∃ (c : CtxId) (τ : Nat) (s : State) (t0 : Nat), ((s.ctx c).ring.irqSince = some t0) ∧ (s.fld (CTX_IRQ_CTL c) 23 8 ≠ 0 ∧ t0 + 1000 * s.fld (CTX_IRQ_CTL c) 23 8 ≤ τ) := ⟨5, 10000, ((upc 5 { aCtx with ring := { RingSt.reset with irqSince := some 0 } }).setFld (CTX_IRQ_CTL 5) 23 8 10), 0, by decide +kernel⟩

-- Host_events_and_fences
theorem witness_evtCtlWrite : ∃ (f : FnId) (v : Word32) (s : State), (s.barUp = true ∧ (s.fn f).lost = 0) ∧ (s.rbit (EVT_CTL f) 31 = false ∧ bit v.toNat 31 = true) := ⟨0, 0x80000000#32, up, by decide +kernel⟩
theorem witness_evtHeadWrite : ∃ (f : FnId) (v : Word32) (s : State), (s.barUp = true) ∧ (ringUsed (s.fld (EVT_TAIL f) 15 0) (v.toNat % 65536) ≤ s.evtSize f) ∧ (ringUsed (s.fld (EVT_TAIL f) 15 0) (v.toNat % 65536) ≤ ringUsed (s.fld (EVT_TAIL f) 15 0) (s.fld (EVT_HEAD f) 15 0)) := ⟨0, 2, (up.setReg (EVT_TAIL 0) 3), by decide +kernel⟩
theorem witness_fence : ∃ (c : CtxId) (k : Nat) (s : State) (cmd : Cmd), (s.cmdAt c k = some cmd ∧ k = 0) ∧ (byteAt cmd.desc 0 = 0x08 ∧ s.serves 0x08 = true) ∧ (bits (byteAt cmd.desc 4) 7 1 = 0 ∧ zeroIn cmd.desc 5 64 = true) := ⟨5, 0, (upc 5 (withCmd aCtx (aCmd 8))), aCmd 8, by decide +kernel⟩
theorem witness_resync : ∃ (c : CtxId) (k : Nat) (s : State) (cmd : Cmd), (s.cmdAt c k = some cmd) ∧ (byteAt cmd.desc 0 = 0x0C ∧ s.serves 0x0C = true) ∧ (zeroIn cmd.desc 4 8 = true ∧ zeroIn cmd.desc 20 64 = true ∧ fieldLe cmd.desc 8 8 % 64 = 0 ∧ 4288 ≤ fieldLe cmd.desc 16 4) := ⟨5, 0, (upc 5 (withCmd aCtx ⟨layOut 64 [(0, 1, 12), (16, 4, 4288)], .started, 0, 0⟩)), ⟨layOut 64 [(0, 1, 12), (16, 4, 4288)], .started, 0, 0⟩, by decide +kernel⟩

-- Link_port_states
theorem witness_lnkPortCtlWrite : ∃ (f : FnId) (p : LinkId) (v : Word32) (s : State), (s.barUp = true ∧ f.val = s.adminPf) ∧ (bit v.toNat 0 = false ∧ bits v.toNat 2 1 ≠ 3) := ⟨0, 3, 0, (up.modLport 3 fun x => { x with state := .up }), by decide +kernel⟩
theorem witness_lnkPartIdWrite : ∃ (f : FnId) (v : Word32) (s : State), (s.barUp = true ∧ f.val = s.adminPf) ∧ (bits v.toNat 15 0 ≠ 0xFFFF) := ⟨0, 5, up, by decide +kernel⟩
theorem witness_portTrainingDone : ∃ (p : LinkId) (partner partnerPort : Nat) (s : State), ((s.lport p).state = .training ∨ ((s.lport p).state = .down ∧ (s.lport p).retry = true)) := ⟨3, 7, 2, (up.modLport 3 fun x => { x with state := .training }), by decide +kernel⟩
theorem witness_linkDown : ∃ (p : LinkId) (reason : Nat) (s : State), ((s.lport p).state = .up) := ⟨3, 0, (up.modLport 3 fun x => { x with state := .up }), by decide +kernel⟩
theorem witness_downRetrainTimer : ∃ (p : LinkId) (τ : Nat) (s : State), ((s.lport p).state = .down ∧ (s.lport p).downAt + 100000000 ≤ τ) := ⟨3, 100000000, (up.modLport 3 fun x => { x with state := .down }), by decide +kernel⟩
theorem witness_laneLossOfLock : ∃ (p : LinkId) (lane : Nat) (s : State), ((s.lport p).state = .up ∧ bit (s.modeLanes p) lane = true) := ⟨3, 1, (up.modLport 3 fun x => { x with state := .up, lanesOk := 15 }), by decide +kernel⟩
theorem witness_prbsTest : ∃ (p : LinkId) (locked : Nat) (errs : List Nat) (s : State), ((s.lport p).state = .test) := ⟨3, 15, [], (up.modLport 3 fun x => { x with state := .test }), by decide +kernel⟩

-- Flits_and_part_time
theorem witness_flitReceive : ∃ (p : LinkId) (seq vc kind : Nat) (body : List Byte) (s : State), ((s.lport p).state = .up ∧ seq = (s.lport p).rxSeq) ∧ (kind % 4 = 1 ∧ (hdrOf body).length ≤ 192 ∧ (hdrOf body).length + 64 ≤ body.length) ∧ (s.links.fenced.contains (hdrOf body).org = false) := ⟨3, 0, 1, 1, List.replicate 256 0, (up.modLport 3 fun x => { x with state := .up }), by decide +kernel⟩
theorem witness_sideWordReceive : ∃ (p : LinkId) (w : Nat) (s : State), ((s.lport p).state = .up ∧ (s.lport p).sideBad = false) ∧ (bits w 47 44 = 1 ∧ (s.lport p).waiting = []) := ⟨3, 2 ^ 44, (up.modLport 3 fun x => { x with state := .up }), by decide +kernel⟩
theorem witness_uncorrectableCodeword : ∃ (p : LinkId) (τ : Nat) (s : State), ((s.lport p).state = .up) := ⟨3, 5, (up.modLport 3 fun x => { x with state := .up }), by decide +kernel⟩
theorem witness_replayBoundExceeded : ∃ (p : LinkId) (τ : Nat) (s : State) (f : SentFlit), ((s.lport p).state = .up) ∧ (f ∈ (s.lport p).sent ∧ f.replayed = true ∧ f.at_ + 20000 ≤ τ) := ⟨3, 20000, (up.modLport 3 fun x => { x with state := .up, sent := [⟨0, ⟨0, 1, []⟩, 0, none, true⟩] }), ⟨0, ⟨0, 1, []⟩, 0, none, true⟩, by decide +kernel⟩
theorem witness_transactionForward : ∃ (n : Nat) (s : State) (tx : LTxn) (i q : Nat) (dl : Bool) (u : State), (s.takeInbox n [tx.hdr.op] = some (i, tx, u) ∧ s.links.inbox[n]? = some (i, tx)) ∧ (s.isSelf tx.hdr.dst = false ∧ tx.hdr.hops + 1 < 64) ∧ (u.route tx.hdr.dst = some (q, dl) ∧ (u.lport q).state = .up) := by
  let tx : LTxn := ⟨hdrOf (List.replicate 64 5), [], 1⟩
  let s := { up.modLport 3 fun x => { x with state := .up } with links := { (up.modLport 3 fun x => { x with state := .up }).links with inbox := [(16, tx)], routes := [(0x0505, 2 ^ 31 + 3)] } }
  exact ⟨0, s, tx, 16, 3, false, _, ⟨rfl, by decide +kernel⟩, by decide +kernel, by decide +kernel⟩
theorem witness_timeSample : ∃ (partner hops τ : Nat) (s : State), (s.rbit LNK_TIME_CTL 16 = true ∧ s.fld LNK_TIME_CTL 15 0 ≠ s.partId ∧ (s.route (s.fld LNK_TIME_CTL 15 0)).isSome = true) := by
  exact ⟨9, 0, 5, { (up.setFld LNK_TIME_CTL 16 0 (2 ^ 16 + 7)) with links := { LinkSt.reset with routes := [(7, 2 ^ 31 + 3)] } }, by decide +kernel⟩
theorem witness_timeUnlocked : ∃ (τ : Nat) (s : State), (s.links.time.locked = true ∧ s.links.time.lastSample + 1000000 ≤ τ) := ⟨1000000, { up with links := { LinkSt.reset with time := ⟨true, true, 1, 0, 0, 0⟩ } }, by decide +kernel⟩

-- Membership_changes
theorem witness_memberReceive : ∃ (n : Nat) (s : State) (p : Nat) (tx : LTxn) (u : State) (c : Nat) (g : Group), (s.takeInbox n [9] = some (p, tx, u) ∧ u.isSelf tx.hdr.dst = true) ∧ (u.groupCtx (tx.hdr.handle / 2 ^ 24) = some c ∧ mfind (u.ctx c).colls (tx.hdr.handle / 2 ^ 24) = some g) ∧ (tx.hdr.offset = g.epoch ∧ g.members.contains tx.hdr.org = true) := by
  let tx : LTxn := ⟨{ hdrOf (List.replicate 64 0) with op := 9, dst := 0xFFFF, org := 7, handle := 2 ^ 24 * 9, offset := 3 }, [], 7⟩
  let s := { upc 5 { rCtx with colls := [(9, aGroup)] } with links := { LinkSt.reset with inbox := [(16, tx)] } }
  exact ⟨0, s, 16, tx, _, 5, aGroup, ⟨rfl, by decide +kernel⟩, by decide +kernel, by decide +kernel⟩
theorem witness_setMembership : ∃ (c : CtxId) (k : Nat) (s : State) (cmd : Cmd) (bs : List Byte) (m : MemberTable), (s.cmdAt c k = some cmd ∧ byteAt cmd.desc 0 = 0x0B ∧ s.serves 0x0B = true ∧ cmd.phase = .started) ∧ (setMemberBad cmd.desc = false ∧ (s.ctx c).st.takesTable = true ∧ bit (byteAt cmd.desc 5) 0 = false) ∧ (s.hostRead (s.ctxPort c) (fieldLe cmd.desc 8 8) (fieldLe cmd.desc 16 4) = some bs) ∧ ((∀ d, d < 64 → (s.ctx d).st ≠ .restoring) ∧ (s.ctx c).dust.queued = none ∧ (s.ctx c).dust.adoption = none) ∧ (s.memberStatus c bs = 0 ∧ memberTable bs = some m ∧ m.removed = 0xFFFF) ∧ (s.dustBase c = 0 ∧ (s.ctx c).posted = [] ∧ (s.ctx c).linkWork = [] ∧ s.links.fenced = []) := by
  let d := layOut 64 [(0, 1, 11), (8, 8, 64), (16, 4, 128)]
  let b := layOut 128 [(0, 4, 0x424D5848), (4, 2, 1), (6, 2, 1), (8, 8, 1), (16, 1, 9), (17, 1, 1), (20, 2, 0xFFFF), (22, 2, 0xFFFF), (64, 2, 0xFFFF), (66, 2, 0xFFFF)]
  let s := (cmdState { aCtx with st := .ready } d).hostWrite 0 64 b
  exact ⟨5, 0, s, ⟨d, .started, 0, 0⟩, b, (memberTable b).get (by decide +kernel), by decide +kernel⟩
theorem witness_shardAdopted : ∃ (c : CtxId) (s : State) (a : Adoption), ((s.ctx c).dust.adoption = some a) ∧ (a.mineDone = false ∧ a.failedTwice = false ∧ a.rollback = 0 ∧ a.cur = none ∧ a.entries = []) := by
  let a : Adoption := { group := 9, removed := 7, epoch := 3, source := (7, 0), entries := [], cur := none, mineDone := false, awaited := [], pages := [], total := 0, abandoned := false, failedTwice := false, rollback := 0, agreed := none }
  exact ⟨5, upc 5 { rCtx with dust := { rCtx.dust with adoption := some a } }, a, by decide +kernel, by decide +kernel⟩
theorem witness_shardCommit : ∃ (c : CtxId) (s : State) (a : Adoption) (k : Nat) (cmd : Cmd), ((s.ctx c).dust.adoption = some a ∧ a.mineDone = true ∧ a.rollback = 0 ∧ (s.ctx c).unshared a = []) ∧ (s.findCmd c 0x0B (inPhase 1 a.epoch) = some (k, cmd) ∧ bit (byteAt cmd.desc 5) 0 = false ∧ (s.ctx c).dust.queued = none) := by
  let a : Adoption := { group := 9, removed := 7, epoch := 3, source := (7, 0), entries := [], cur := none, mineDone := true, awaited := [], pages := [], total := 0, abandoned := false, failedTwice := false, rollback := 0, agreed := none }
  let d := layOut 64 [(0, 1, 11), (8, 8, 64), (16, 4, 128)]
  let x := { rCtx with dust := { rCtx.dust with adoption := some a }, ring := { RingSt.reset with cmds := [⟨d, .underway 1 3, 0, 0⟩] } }
  exact ⟨5, upc 5 x, a, 0, ⟨d, .underway 1 3, 0, 0⟩, by decide +kernel, by decide +kernel⟩
theorem witness_rollback : ∃ (c : CtxId) (s : State) (a : Adoption) (g : Group), ((s.ctx c).dust.adoption = some a ∧ mfind (s.ctx c).colls a.group = some g ∧ a.rollback = 1) ∧ ((s.ctx c).allNoticed g s.partId ((s.ctx c).noticesOf a.group a.epoch).offers = true) := by
  let a : Adoption := { group := 9, removed := 7, epoch := 3, source := (7, 0), entries := [], cur := none, mineDone := false, awaited := [], pages := [], total := 0, abandoned := false, failedTwice := false, rollback := 1, agreed := none }
  let x := { rCtx with dust := { rCtx.dust with adoption := some a }, colls := [(9, aGroup)], notices := [(noticeKey 9 3, ⟨3, [], [7], 5, []⟩)] }
  exact ⟨5, upc 5 x, a, aGroup, by decide +kernel, by decide +kernel⟩

-- Copies_and_maps
theorem witness_copy : ∃ (c : CtxId) (k : Nat) (s : State) (cmd : Cmd) (pos n : Nat) (a b : MemEnd) (u : State), (s.cmdAt c k = some cmd ∧ byteAt cmd.desc 0 = 0x0D ∧ s.serves 0x0D = true) ∧ (cmd.phase = .underway pos 0 ∧ bit (byteAt cmd.desc 8) 0 = false ∧ pos < fieldLe cmd.desc 32 8) ∧ (a = s.copyEnd c cmd.desc false pos ∧ b = s.copyEnd c cmd.desc true pos) ∧ (n = min (fieldLe cmd.desc 32 8 - pos) (min (toBoundary (copyAddr a)) (toBoundary (copyAddr b)))) ∧ (s.endsOk [(a, n, false), (b, n, true)] = .ok () ∧ (s.getEnd a n).2.copyPut b (s.getEnd a n).1 = some u) := by
  let d := layOut 64 [(0, 1, 13), (5, 1, 1), (16, 8, 64), (24, 8, 2 ^ 22), (32, 8, 16)]
  let s := ((upc 5 { aCtx with pt := [(2, { ty := .resident, big := false, addr := 0x400000, backing := 0, port := 0, write := true, dirty := false, accessed := false, protect := false, origin := .mapHbm, stks := 0xFFF })], ring := { RingSt.reset with cmds := [⟨d, .underway 0 0, 0, 0⟩] } }).modPort 0 fun p => { p with dlUp := true }).hostWrite 0 64 (natLe 8 7)
  have h : (((s.getEnd (s.copyEnd 5 d false 0) 16).2.copyPut (s.copyEnd 5 d true 0) (s.getEnd (s.copyEnd 5 d false 0) 16).1).isSome) = true := by decide +kernel
  obtain ⟨u, hu⟩ := Option.isSome_iff_exists.mp h
  exact ⟨5, 0, s, ⟨d, .underway 0 0, 0, 0⟩, 0, 16, _, _, u, by decide +kernel, by decide +kernel, ⟨rfl, rfl⟩, by decide +kernel, by decide +kernel, hu⟩
theorem witness_copy_end : ∃ (c : CtxId) (k : Nat) (s : State) (cmd : Cmd) (pos : Nat), (s.cmdAt c k = some cmd ∧ byteAt cmd.desc 0 = 0x0D ∧ s.serves 0x0D = true) ∧ (cmd.phase = .underway pos 0 ∧ bit (byteAt cmd.desc 8) 0 = false ∧ pos = fieldLe cmd.desc 32 8) ∧ (bit (byteAt cmd.desc 10) 0 = false) := ⟨5, 0, (upc 5 { aCtx with ring := { RingSt.reset with cmds := [⟨layOut 64 [(0, 1, 13), (32, 8, 16)], .underway 16 0, 0, 0⟩] } }), ⟨layOut 64 [(0, 1, 13), (32, 8, 16)], .underway 16 0, 0, 0⟩, 16, by decide +kernel⟩
theorem witness_map : ∃ (c : CtxId) (k : Nat) (s : State) (cmd : Cmd) (p : Nat) (u : State), (s.cmdAt c k = some cmd ∧ byteAt cmd.desc 0 = 0x0E ∧ s.serves 0x0E = true) ∧ (mapBad cmd.desc = false) ∧ ((if fieldLe cmd.desc 16 8 = 0 then (s.ctx c).pickRange (fieldLe cmd.desc 24 8 / frameBytes) (if byteAt cmd.desc 5 = 1 then 512 else 1) = some p else p = fieldLe cmd.desc 16 8 / frameBytes ∧ (s.ctx c).rangeClear p (fieldLe cmd.desc 24 8 / frameBytes) = true)) ∧ (s.mapAt c cmd.desc p = some u) := by
  let d := layOut 64 [(0, 1, 14), (4, 1, 1), (16, 8, 2 ^ 22), (24, 8, 2 ^ 21), (32, 8, 2 ^ 30)]
  have h : ((cmdState aCtx d).mapAt 5 d 2).isSome = true := by decide +kernel
  obtain ⟨u, hu⟩ := Option.isSome_iff_exists.mp h
  exact ⟨5, 0, cmdState aCtx d, ⟨d, .started, 0, 0⟩, 2, u, by decide +kernel, by decide +kernel, by decide +kernel, hu⟩
theorem witness_unmap : ∃ (c : CtxId) (k : Nat) (s : State) (cmd : Cmd) (p n : Nat), (s.cmdAt c k = some cmd ∧ byteAt cmd.desc 0 = 0x0F ∧ s.serves 0x0F = true) ∧ (unmapBad cmd.desc = false ∧ p = fieldLe cmd.desc 16 8 / frameBytes ∧ n = fieldLe cmd.desc 24 8 / frameBytes) ∧ ((s.ctx c).unmappable p n = true ∧ s.pageBusy c p n = false) ∧ (∀ q ∈ s.mem.pageIns, q.ctx = c.val → q.page < p ∨ p + n ≤ q.page) := ⟨5, 0, (cmdState { aCtx with pt := [(2, { ty := .resident, big := false, addr := 0x400000, backing := 0, port := 0, write := true, dirty := false, accessed := false, protect := false, origin := .mapHbm, stks := 0xFFF })] } (layOut 64 [(0, 1, 15), (16, 8, 2 ^ 22), (24, 8, 2 ^ 21)])), ⟨layOut 64 [(0, 1, 15), (16, 8, 2 ^ 22), (24, 8, 2 ^ 21)], .started, 0, 0⟩, 2, 1, by decide +kernel⟩

-- Memory_errors_and_paging
theorem witness_hbmCorrectedError : ∃ (dpa : Nat) (s : State), (dpaValid dpa = true) := ⟨0, up, by decide +kernel⟩
theorem witness_memUncorr : ∃ (dpa : Nat) (s : State), (dpaValid dpa = true) := ⟨0, up, by decide +kernel⟩
theorem witness_pageInStart : ∃ (c : CtxId) (va : Nat) (s : State) (e : Pte) (f : Nat) (u : State), ((s.mem.wants.any fun w => w.ctx == c.val && w.page == va / frameBytes) = true ∧ s.mem.pageIns.length < 64) ∧ (mfind (s.ctx c).pt (va / frameBytes) = some e ∧ e.ty = .pageable ∧ (s.port e.port).dlUp = true) ∧ (s.allocFrame e.stks (some c.val) true = some (f, u)) := by
  let s := { (upc 5 { aCtx with pt := [(2, { ty := .pageable, big := false, addr := 0x400000, backing := 0, port := 0, write := true, dirty := false, accessed := false, protect := false, origin := .mapHost, stks := 0xFFF })] }).modPort 0 fun p => { p with dlUp := true } with mem := { MemSt.reset with wants := [⟨5, 2 ^ 22, 4, 0xFF, false⟩] } }
  have h : (s.allocFrame 0xFFF (some 5) true).isSome = true := by decide +kernel
  obtain ⟨⟨f, u⟩, hu⟩ := Option.isSome_iff_exists.mp h
  exact ⟨5, 2 ^ 22, s, _, f, u, by decide +kernel, ⟨rfl, rfl, by decide +kernel⟩, hu⟩
theorem witness_pageInComplete : ∃ (c : CtxId) (page : Nat) (s : State) (p : PageIn) (e : Pte), (s.mem.pageIns.find? (fun q => q.ctx == c.val && q.page == page) = some p) ∧ (mfind (s.ctx c).pt page = some e ∧ (s.port e.port).dlUp = true) := by
  let s := { (upc 5 { aCtx with pt := [(2, { ty := .inTransit, big := false, addr := 0x400000, backing := 0, port := 0, write := true, dirty := false, accessed := false, protect := false, origin := .mapHost, stks := 0xFFF })] }).modPort 0 fun p => { p with dlUp := true } with mem := { MemSt.reset with pageIns := [⟨5, 2, 7⟩] } }
  exact ⟨5, 2, s, ⟨5, 2, 7⟩, _, by decide +kernel, ⟨rfl, by decide +kernel⟩⟩

-- Transfers_of_the_MOVE_unit
theorem witness_xfer : ∃ (a : AuId) (s : State) (c l : Nat) (op : ActiveOp), (s.opOf a 5 = some (c, l, op) ∧ opKind op.word = 0 ∧ op.data.isEmpty = false ∧ (moveDesc op.data).total ≤ op.xreg 1 ∧ (s.segsBy (.move a)).isEmpty = true) := by
  let d := layOut 64 [(0, 8, 2 * 2 ^ 52), (8, 8, 2 * 2 ^ 52 + 4096), (16, 4, 64), (20, 4, 1), (37, 1, 1)]
  exact ⟨9, rState.modAu 9 fun x => x.putAct 5 { startedOp ⟨0, 0⟩ with data := d, regs := [0, 64, 0, 0] }, 5, 0, { startedOp ⟨0, 0⟩ with data := d, regs := [0, 64, 0, 0] }, by decide +kernel⟩
theorem witness_xfer_start : ∃ (a : AuId) (s : State) (c l : Nat) (op : FifoOp), (s.live a = some (c, l) ∧ (s.au a).nextOf 5 = some op ∧ opWen op.word = false ∧ opKind op.word = 0) := by
  exact ⟨9, fifoState 3 0 (fun x => x), 5, 0, ⟨0, 0⟩, by decide +kernel⟩
theorem witness_xfer_segment : ∃ (a : AuId) (s : State) (c l : Nat) (op : ActiveOp), (s.opOf a 5 = some (c, l, op) ∧ opKind op.word = 0 ∧ op.data.isEmpty = false ∧ op.xreg 1 < (moveDesc op.data).total) := by
  let d := layOut 64 [(0, 8, 2 * 2 ^ 52), (8, 8, 2 * 2 ^ 52 + 4096), (16, 4, 64), (20, 4, 1), (37, 1, 1)]
  exact ⟨9, rState.modAu 9 fun x => x.putAct 5 { startedOp ⟨0, 0⟩ with data := d, regs := [0, 0, 0, 0] }, 5, 0, { startedOp ⟨0, 0⟩ with data := d, regs := [0, 0, 0, 0] }, by decide +kernel⟩
theorem witness_movePageIn : ∃ (a : AuId) (s : State) (c l : Nat) (op : ActiveOp), (s.opOf a 5 = some (c, l, op) ∧ opKind op.word = 1) ∧ ((op.regs.any fun p => (s.mem.wants.any fun w => w.ctx == c && w.page == p) || (s.mem.pageIns.any fun w => w.ctx == c && w.page == p)) = false) := by
  exact ⟨9, opState 5 (2 ^ 60 + 2 ^ 31) (fun x => x), 5, 0, startedOp ⟨0, 2 ^ 60 + 2 ^ 31⟩, by decide +kernel⟩
theorem witness_movePageIn_start : ∃ (a : AuId) (s : State) (c l : Nat) (op : FifoOp), (s.live a = some (c, l) ∧ (s.au a).nextOf 5 = some op ∧ opWen op.word = false ∧ opKind op.word = 1) := by
  exact ⟨9, fifoState 3 (2 ^ 60 + 2 ^ 31) (fun x => x), 5, 0, ⟨0, 2 ^ 60 + 2 ^ 31⟩, by decide +kernel⟩

-- Streams_of_the_Stencil_unit
theorem witness_stencilSegmentIssue_read : ∃ (a : AuId) (st : StnId) (s s1 : State) (c l va dpa len n : Nat) (e : Pte) (x : StnSlot) (d : StnDesc), (s.live a = some (c, l) ∧ x = (s.au a).stn st ∧ d = stnDesc x.desc ∧ x.st = .active ∧ x.halted = false ∧ x.issued < d.total ∧ d.space = 1 ∧ d.write = false) ∧ ((s.ctx c).locate d.lbuf (d.addr x.issued) = some (.virt va) ∧ len = min (min (d.run - x.issued % d.run) (toBoundary va)) (d.total - x.issued) ∧ len ≤ (s.au a).roleFree d.queue d.scales - s.aheadBytes a st) ∧ ((match (s.ctx c).translate va false with | .ok q => some q | _ => none) = some (n, e, dpa)) ∧ (s.issueSeg { issuer := .stencil a st, die := auDie a, rsv := false, runahead := false, src := .virt c va, dst := .queue a d.queue d.scales, len := len, data := [], bank := some (bankOf dpa) } = some s1) := by
  let s := rState.modAu 9 fun x => x.putStn 3 { StnSlot.reset with desc := anStencil, st := .active }
  let d := stnDesc anStencil
  let g : Seg := { issuer := .stencil 9 3, die := auDie 9, rsv := false, runahead := false, src := .virt 5 (2 ^ 22), dst := .queue 9 d.queue d.scales, len := 64, data := [], bank := some (bankOf 0x400000) }
  exact ⟨9, 3, s, (s.issueSeg g).getD s, 5, 0, 2 ^ 22, 0x400000, 64, 2, aPage, (s.au 9).stn 3, d, by decide +kernel⟩
theorem witness_stencilSegmentIssue : ∃ (a : AuId) (st : StnId) (s : State) (c l : Nat), (s.live a = some (c, l) ∧ ((s.au a).stn st).st = .active ∧ ((s.au a).stn st).halted = false ∧ ((s.au a).stn st).issued < (stnDesc ((s.au a).stn st).desc).total) := by
  exact ⟨9, 3, rState.modAu 9 fun x => x.putStn 3 { StnSlot.reset with desc := anStencil, st := .active }, 5, 0, by decide +kernel⟩
theorem witness_stagingBufferFree : ∃ (a : AuId) (st : StnId) (s : State) (c l : Nat), (s.live a = some (c, l) ∧ ((s.au a).stn st).st = .active ∧ ((s.au a).stn st).halted = false ∧ ((s.au a).stn st).issued < (stnDesc ((s.au a).stn st).desc).total) := by
  exact ⟨9, 3, rState.modAu 9 fun x => x.putStn 3 { StnSlot.reset with desc := anStencil, st := .active }, 5, 0, by decide +kernel⟩
theorem witness_stencilDone : ∃ (a : AuId) (st : StnId) (s s1 : State) (c l : Nat) (d : StnDesc), ((s.au a).asg = some (c, l) ∧ d = stnDesc ((s.au a).stn st).desc ∧ ((s.au a).stn st).st = .active ∧ ((s.au a).stn st).moved = d.total ∧ ((s.au a).stn st).segs = 0) ∧ (s1 = s.modAu a fun b => ((b.endStnVisit st).putStn st { (b.endStnVisit st).stn st with st := .done, halted := false, waitSlot := none }).promote d.queue d.scales) := by
  exact ⟨9, 3, rState.modAu 9 fun x => x.putStn 3 { StnSlot.reset with desc := anStencil, st := .active, moved := 64, issued := 64 }, _, 5, 0, stnDesc anStencil, by decide +kernel, rfl⟩
theorem witness_streamHaltResume : ∃ (a : AuId) (st : StnId) (s : State) (c l va : Nat) (d : StnDesc), (s.live a = some (c, l) ∧ d = stnDesc ((s.au a).stn st).desc ∧ ((s.au a).stn st).halted = true ∧ (s.ctx c).locate d.lbuf (d.addr ((s.au a).stn st).issued) = some (.virt va)) ∧ ((match (s.ctx c).translate va d.write with | .ok _ => true | _ => false) = true) := by
  exact ⟨9, 3, rState.modAu 9 fun x => x.putStn 3 { StnSlot.reset with desc := anStencil, st := .active, halted := true }, 5, 0, 2 ^ 22, stnDesc anStencil, by decide +kernel, by decide +kernel⟩
theorem witness_segmentComplete : ∃ (id : Nat) (s s1 : State) (g : Seg), (mfind s.mem.segs id = some g ∧ s.segBlocked id g = false ∧ (s.segBytes g).2.putEnd g.dst (s.segBytes g).1 g.runahead = some s1) := by
  let g : Seg := { issuer := .stencil 9 3, die := 0, rsv := true, runahead := false, src := .queue 9 0 false, dst := .hawk 9 0, len := 4, data := [1, 2, 3, 4], bank := none }
  let s : State := { rState with mem := { rState.mem with segs := [(2, g)] } }
  exact ⟨2, s, s.modAu 9 (fun a => { a with hawk := wrBytes a.hawk 0 [1, 2, 3, 4] }), g, by decide +kernel⟩
theorem witness_queueRecordReady : ∃ (a : AuId) (src dst : QueueId) (n : Nat) (s : State) (c l : Nat), (s.live a = some (c, l) ∧ coupled src dst = true ∧ (s.ctx c).linkBound l src = false ∧ (s.au a).unbound src = true ∧ (s.au a).unbound dst = true) ∧ (n ≤ ((s.au a).queue src).level ∧ (s.au a).qRoom dst n = true) := by
  exact ⟨9, 12, 0, 1, rState.modAu 9 fun x => x.push 12 [(false, 7)], 5, 0, by decide +kernel⟩

-- Host_port_events
theorem witness_hostPortLost : ∃ (p : PortId) (τ : Nat) (s : State), ((s.port p).dlUp = true ∧ (s.port p).lost = false ∧ s.graceNs p ≠ 0) := ⟨0, 9, (up.modPort 0 fun x => { x with dlUp := true }), by decide +kernel⟩
theorem witness_hostPortUp : ∃ (p : PortId) (speed width : Nat) (flit : Bool) (s : State), ((s.port p).perst = false ∧ (s.port p).dlUp = false ∧ s.power.hostOn = true ∧ s.power.svc.hold = false) := ⟨0, 6, 16, true, (up.modPort 0 fun x => { x with perst := false }), by decide +kernel⟩
theorem witness_hostGraceExpired : ∃ (p : PortId) (τ : Nat) (s : State), ((s.port p).grace = true ∧ (s.port p).lostAt + s.graceNs p ≤ τ ∧ (s.port p).lost = true) := ⟨0, 200000000000, (up.modPort 0 fun x => { x with lost := true, grace := true }), by decide +kernel⟩
theorem witness_ideInsecure : ∃ (p : PortId) (n τ : Nat) (s : State), (((s.port p).ide.any fun i => i.num == n && i.secure) = true) := ⟨0, 1, 9, (up.modPort 0 fun x => { x with ide := [⟨1, true⟩] }), by decide +kernel⟩
theorem witness_configurationRequest : ∃ (p : PortId) (vf off v : Nat) (s : State), ((s.port p).answering = true ∧ s.barUp = true) := ⟨0, 0, 0, 0, (up.modPort 0 fun x => { x with answering := true }), by decide +kernel⟩
theorem witness_configurationRequest_write : ∃ (p : PortId) (vf off v : Nat) (s : State), ((s.port p).answering = true ∧ s.barUp = true) := ⟨0, 0, 1, 4, (up.modPort 0 fun x => { x with answering := true }), by decide +kernel⟩
theorem witness_enterCompliance : ∃ (p : PortId) (s : State), ((s.port p).perst = false ∧ (s.port p).dlUp = false) := ⟨0, (up.modPort 0 fun x => { x with perst := false }), by decide +kernel⟩

-- Power_registers_and_input
theorem witness_pwrCtlModeWrite : ∃ (f : FnId) (v : Word32) (s : State), (s.barUp = true ∧ f.val = s.adminPf ∧ bits v.toNat 1 0 ≠ 3 ∧ bits v.toNat 1 0 ≠ s.fld PWR_CTL 1 0) := ⟨0, 1, up, by decide +kernel⟩
theorem witness_pwrCapWrite : ∃ (f : FnId) (v : Word32) (s : State), (s.barUp = true ∧ f.val = s.adminPf) := ⟨0, 1234, up, by decide +kernel⟩
theorem witness_inputUndervoltage : ∃ (mv τ : Nat) (s : State), (s.power.hostOn = true ∧ mv < 40000) := ⟨39000, 5, up, by decide +kernel⟩
theorem witness_inputOvervoltage : ∃ (mv τ : Nat) (s : State), (s.power.hostOn = true ∧ 62000 < mv) := ⟨63000, 5, up, by decide +kernel⟩
theorem witness_inputBelowServiceMin : ∃ (mv : Nat) (s : State), (s.power.hostOn = true ∧ mv < 36000) := ⟨30000, up, by decide +kernel⟩
theorem witness_inputRise : ∃ (mv : Nat) (s : State), (s.power.svc.on = false ∧ 36000 ≤ mv) := ⟨48000, (up.modSvc fun v => { v with on := false }), by decide +kernel⟩
theorem witness_hostPowerOn : ∃ (s : State), (s.onRefused = false) := ⟨(up.switchOff 2 0), by decide +kernel⟩
theorem witness_serviceReset : ∃ (s : State), (s.power.hostOn = true) := ⟨up, by decide +kernel⟩

-- Power_limits_energy_and_heat
theorem witness_voltageCapUpdate : ∃ (mv τ : Nat) (s : State), (s.power.hostOn = true) := ⟨45000, 5, up, by decide +kernel⟩
theorem witness_capControlTick : ∃ (watts τ : Nat) (s : State), (s.power.hostOn = true ∧ s.fwUp = true ∧ watts < 2 ^ 16) := ⟨1500, 5, up, by decide +kernel⟩
theorem witness_excursionCut : ∃ (watts τ : Nat) (s : State), (s.power.hostOn = true ∧ (s.ceiling < watts ∨ 10 ≤ s.excursions ∧ s.ceff < watts)) := ⟨3000, 5, up, by decide +kernel⟩
theorem witness_currentLimit : ∃ (ma τ : Nat) (s : State), (s.power.hostOn = true ∧ 64000 < ma) := ⟨70000, 5, up, by decide +kernel⟩
theorem witness_currentLimitEnd : ∃ (ma τ : Nat) (s : State), (ma < 60000) := ⟨100, 5, up, by decide +kernel⟩
theorem witness_capFloor : ∃ (watts τ : Nat) (s : State), (s.power.hostOn = true ∧ s.ceff < watts ∧ (∀ d, d < 24 → mget 0 s.power.mhz d ≤ 250) ∧ s.power.idle = false) := ⟨3000, 5, up, by decide +kernel⟩
theorem witness_droopStretch : ∃ (a : AuId) (s : State), (s.power.hostOn = true ∧ s.power.droop.contains a.val = false) := ⟨5, up, by decide +kernel⟩
theorem witness_droopEnd : ∃ (a : AuId) (s : State), (s.power.droop.contains a.val = true) := ⟨5, (up.modPower fun p => { p with droop := [5] }), by decide +kernel⟩
theorem witness_energyUpdate : ∃ (uj : List Nat) (τ : Nat) (s : State), (s.power.hostOn = true) := ⟨[7, 8], 5, up, by decide +kernel⟩
theorem witness_thermalSensorRead : ∃ (a b d : List Nat) (τ : Nat) (s : State), (s.power.hostOn = true) := ⟨[106], [50], [60], 5, up, by decide +kernel⟩
theorem witness_thermalTrip : ∃ (k n deg τ : Nat) (s : State), (s.power.hostOn = true ∧ (if k = 2 then 105 else 120) ≤ deg) := ⟨0, 7, 120, 5, up, by decide +kernel⟩
theorem witness_stageFault : ∃ (s : State), (s.power.hostOn = true) := ⟨up, by decide +kernel⟩

-- Programs_and_their_commands
theorem witness_loadProgram : ∃ (c : CtxId) (k : Nat) (s : State) (cmd : Cmd) (img : List Byte) (u w : State), (s.cmdAt c k = some cmd ∧ byteAt cmd.desc 0 = 0x01 ∧ s.serves 0x01 = true) ∧ (cmd.phase = .started ∧ loadBad cmd.desc = false) ∧ ((s.ctx c).st = .empty ∨ (s.ctx c).st = .ready ∨ (s.ctx c).st = .faulted) ∧ ((s.loadBegins c k).readImage c cmd.desc = .got img u) ∧ (firstFail (imgFails img (u.reg HUB_FW_VERSION)) = none ∧ u.install c img = some w) := by
  have h : (match ((cmdState { aCtx with st := .empty } (layOut 64 [(0, 1, 1), (16, 8, 208)])).hostWrite 0 0 anImage |>.loadBegins 5 0).readImage 5 (layOut 64 [(0, 1, 1), (16, 8, 208)]) with
      | .got b u => decide (b = anImage) && (u.install 5 b).isSome && decide (firstFail (imgFails b (u.reg HUB_FW_VERSION)) = none)
      | _ => false) = true := by decide +kernel
  refine ⟨5, 0, (cmdState { aCtx with st := .empty } (layOut 64 [(0, 1, 1), (16, 8, 208)])).hostWrite 0 0 anImage, ⟨layOut 64 [(0, 1, 1), (16, 8, 208)], .started, 0, 0⟩, ?_⟩
  split at h
  · rename_i b u hu
    simp only [Bool.and_eq_true, decide_eq_true_eq] at h
    obtain ⟨w, hw⟩ := Option.isSome_iff_exists.mp h.1.2
    exact ⟨b, u, w, by decide +kernel, by decide +kernel, by decide +kernel, hu, h.2, hw⟩
  · cases h
theorem witness_run : ∃ (c : CtxId) (k : Nat) (s : State) (cmd : Cmd) (p : Program), (s.cmdAt c k = some cmd ∧ byteAt cmd.desc 0 = 0x02 ∧ s.serves 0x02 = true) ∧ (cmd.phase = .started ∧ zeroIn cmd.desc 4 8 = true ∧ zeroIn cmd.desc 16 64 = true) ∧ ((s.ctx c).st = .ready ∧ (s.ctx c).prog = some p) ∧ (s.coatBase c = 0 ∧ (s.ctx c).checkAll false ((s.trwRanges c ++ s.dustRanges c).map fun r => pagesOf r.1 r.2).flatten = .ok ()) ∧ (((s.runBegins c k).trwTables c).bad = none ∧ (((s.runBegins c k).keepTrowel c).readDust c).bad = none) := ⟨5, 0, (cmdState { aCtx with prog := some ⟨[], [], [], 0, [], 0, 0, 0, 0, 0⟩ } (layOut 64 [(0, 1, 2)])), ⟨layOut 64 [(0, 1, 2)], .started, 0, 0⟩, ⟨[], [], [], 0, [], 0, 0, 0, 0, 0⟩, by decide +kernel⟩
theorem witness_setStep : ∃ (c : CtxId) (k : Nat) (s : State) (cmd : Cmd), (s.cmdAt c k = some cmd ∧ byteAt cmd.desc 0 = 0x03 ∧ s.serves 0x03 = true) ∧ (s.scheduled c = false ∧ setStepBad cmd.desc = false) ∧ (fieldLe cmd.desc 8 8 = s.step_ c + 1 ∨ fieldLe cmd.desc 8 8 = s.step_ c ∧ ∀ g ∈ (s.ctx c).eta.started, g < fieldLe cmd.desc 4 2 ∨ fieldLe cmd.desc 4 2 + fieldLe cmd.desc 6 2 ≤ g) := ⟨5, 0, (cmdState aCtx (layOut 64 [(0, 1, 3), (6, 2, 1), (8, 8, 1), (20, 4, 0x3F800000)])), ⟨layOut 64 [(0, 1, 3), (6, 2, 1), (8, 8, 1), (20, 4, 0x3F800000)], .started, 0, 0⟩, by decide +kernel⟩
theorem witness_queryEnergy : ∃ (c : CtxId) (k : Nat) (s : State) (cmd : Cmd), (s.cmdAt c k = some cmd ∧ byteAt cmd.desc 0 = 0x11 ∧ s.serves 0x11 = true) ∧ (byteAt cmd.desc 4 = 0 ∨ byteAt cmd.desc 4 = 1 ∧ fnIsPf (s.ownerOf c) = true) ∧ (zeroIn cmd.desc 5 8 = true ∧ zeroIn cmd.desc 20 64 = true ∧ fieldLe cmd.desc 8 8 % 64 = 0) ∧ (fieldLe cmd.desc 8 8 = 0 ∨ (if byteAt cmd.desc 4 = 1 then 2320 else 64) ≤ fieldLe cmd.desc 16 4) := ⟨5, 0, (cmdState aCtx (layOut 64 [(0, 1, 17), (4, 1, 1)])), ⟨layOut 64 [(0, 1, 17), (4, 1, 1)], .started, 0, 0⟩, by decide +kernel⟩
theorem witness_setCap : ∃ (c : CtxId) (k : Nat) (s : State) (cmd : Cmd), (s.cmdAt c k = some cmd ∧ byteAt cmd.desc 0 = 0x10 ∧ s.serves 0x10 = true) ∧ (cmd.phase = .started ∧ s.ownerOf c = s.adminPf) ∧ (fieldLe cmd.desc 4 2 % 10 = 0 ∧ 1000 ≤ fieldLe cmd.desc 4 2 ∧ fieldLe cmd.desc 4 2 ≤ 2400) ∧ (byteAt cmd.desc 6 = 0 ∧ zeroIn cmd.desc 7 64 = true) := ⟨5, 0, (cmdState aCtx (layOut 64 [(0, 1, 16), (4, 2, 1000)])), ⟨layOut 64 [(0, 1, 16), (4, 2, 1000)], .started, 0, 0⟩, by decide +kernel⟩

-- Register_accesses
theorem witness_bar0RegisterWrite : ∃ (f : FnId) (off v : Nat) (s : State) (r : RegAt), (off % 4 = 0 ∧ s.target f off = .reg r ∧ (s.rowWrite f r (v % 2 ^ 32)).isNone = true ∧ r.own = true ∧ s.writeShut r.off = false) := by
  exact ⟨0, 0x280090, 5, up, ⟨0x280090, 0x280090, true, false⟩, by decide +kernel⟩
theorem witness_bar0RegisterWrite_fields : ∃ (f : FnId) (off v : Nat) (s : State) (r : RegAt), (off % 4 = 0 ∧ s.target f off = .reg r ∧ (s.rowWrite f r (v % 2 ^ 32)).isNone = true ∧ r.own = true ∧ s.writeShut r.off = false) ∧ (s.putReg f r (s.adjust r.off (s.reg r.key) (v % 2 ^ 32)) = s.softReg r.key (s.adjust r.off (s.reg r.key) (v % 2 ^ 32))) := by
  exact ⟨0, 0x280090, 5, up, ⟨0x280090, 0x280090, true, false⟩, by decide +kernel⟩
theorem witness_bar0RegisterWrite_denied : ∃ (f : FnId) (off v : Nat) (s : State) (r : RegAt), (off % 4 = 0 ∧ s.target f off = .reg r ∧ (s.rowWrite f r (v % 2 ^ 32)).isNone = true ∧ r.own = false) := by
  exact ⟨16, 0x280090, 5, up, ⟨0x280090, 0x280090, false, true⟩, by decide +kernel⟩
theorem witness_bar0RegisterWrite_bad : ∃ (f : FnId) (off size v : Nat) (s : State), (¬ (size = 4 ∧ off % 4 = 0) ∧ ¬ (size = 8 ∧ off % 8 = 0) ∧ s.barUp = true) := ⟨0, 2, 4, 0, up, by decide +kernel⟩
theorem witness_rcRead : ∃ (f : FnId) (off : Nat) (s : State) (r : RegAt), (off % 4 = 0 ∧ s.target f off = .reg r ∧ (specAt r.off).isEmpty = false ∧ roLo r.off = false ∧ (4 ≤ r.off → roLo (r.off - 4) = false)) := by
  exact ⟨0, 0x280090, up, ⟨0x280090, 0x280090, true, false⟩, by decide +kernel⟩
theorem witness_loReadLatch : ∃ (f : FnId) (off : Nat) (s : State) (r : RegAt), (off % 4 = 0 ∧ s.target f off = .reg r ∧ (specAt r.off).isEmpty = false ∧ roLo r.off = true ∧ (4 ≤ r.off → roLo (r.off - 4) = false)) := by
  exact ⟨0, 0x400034, up, (match up.target 0 0x400034 with | .reg r => r | _ => ⟨0, 0, false, false⟩), by decide +kernel⟩
theorem witness_loReadLatch_high : ∃ (f : FnId) (off h : Nat) (s : State) (r : RegAt), (off % 4 = 0 ∧ s.target f off = .reg r ∧ (specAt r.off).isEmpty = false ∧ 4 ≤ r.off ∧ roLo (r.off - 4) = true ∧ mfind (s.fn f).latches (r.key - 4) = some h) := by
  let s := up.modFn 0 fun x => { x with latches := mput x.latches 0x400034 7 }
  exact ⟨0, 0x400038, 7, s, (match s.target 0 0x400038 with | .reg r => r | _ => ⟨0, 0, false, false⟩), by decide +kernel⟩
theorem witness_bar4Access_read : ∃ (p : PortId) (off len : Nat) (data bs : List Byte) (s s1 : State), (s.barUp = true ∧ s.rbit (PCIE_BAR4_SEL_LO p) 7 = true ∧ s.owns (portPf p) (s.fld (PCIE_BAR4_SEL_LO p) 5 0) = true ∧ off + len ≤ 2 ^ (s.port p).bar4 ∧ off % 4096 + len ≤ 4096) ∧ (s.vread (s.fld (PCIE_BAR4_SEL_LO p) 5 0) (s.bar4Base p + off) len = .ok (bs, s1)) := by
  let s := ((upc 5 { rCtx with owner := some 0 }).setFld (PCIE_BAR4_SEL_LO 0) 7 0 0x85).modPort 0 fun x => { x with bar4 := 30 }
  let q := (match s.vread 5 (2 ^ 22) 16 with | .ok q => q | _ => ([], s))
  exact ⟨0, 2 ^ 22, 16, [], q.1, s, q.2, by decide +kernel⟩
theorem witness_bar4Access : ∃ (p : PortId) (off len : Nat) (data : List Byte) (s s1 : State), (s.barUp = true ∧ s.rbit (PCIE_BAR4_SEL_LO p) 7 = true ∧ s.owns (portPf p) (s.fld (PCIE_BAR4_SEL_LO p) 5 0) = true ∧ off + data.length ≤ 2 ^ (s.port p).bar4 ∧ off % 4096 + data.length ≤ 4096) ∧ (s.vwrite (s.fld (PCIE_BAR4_SEL_LO p) 5 0) (s.bar4Base p + off) data = .ok s1) := by
  let s := ((upc 5 { rCtx with owner := some 0 }).setFld (PCIE_BAR4_SEL_LO 0) 7 0 0x85).modPort 0 fun x => { x with bar4 := 30 }
  let q := (match s.vwrite 5 (2 ^ 22) [1, 2] with | .ok q => q | _ => s)
  exact ⟨0, 2 ^ 22, 0, [1, 2], s, q, by decide +kernel⟩

-- Roller_and_solvers
theorem witness_roller : ∃ (a : AuId) (s s1 s2 : State) (c l rl : Nat) (op : ActiveOp) (d bs : List Byte), (s.opOf a 5 = some (c, l, op) ∧ opKind op.word = 2 ∧ s.mem.rollers.length < 256) ∧ (s.vread c (moveDescVa op.word) 64 = .ok (d, s1) ∧ (s1.ctx c).rollBad d = false ∧ (s1.ctx c).baseVa (fieldLe d 8 8) = some rl) ∧ (s1.vread c rl (16 * fieldLe d 0 2) = .ok (bs, s2) ∧ ((chunks 16 bs).any ((s1.ctx c).rcvBad (rollTotal d))) = false) := by
  let d := layOut 64 [(0, 2, 1), (2, 1, 1), (8, 8, 2 * 2 ^ 52 + 64), (16, 8, 2 * 2 ^ 52 + 4096), (24, 4, 64)]
  let e := layOut 16 [(8, 8, 2 * 2 ^ 52 + 8192)]
  let s0 := opState 5 (2 * 2 ^ 60 + 2 ^ 16) (fun x => x)
  let s : State := { s0 with mem := { s0.mem with hbm := wrBytes s0.mem.hbm 0x400000 (d ++ e) } }
  let s1 := (match s.vread 5 (2 ^ 22) 64 with | .ok q => q.2 | _ => s)
  let s2 := (match s1.vread 5 (2 ^ 22 + 64) 16 with | .ok q => q.2 | _ => s)
  exact ⟨9, s, s1, s2, 5, 0, 2 ^ 22 + 64, startedOp ⟨0, 2 * 2 ^ 60 + 2 ^ 16⟩, d, e, by decide +kernel⟩
theorem witness_roller_start : ∃ (a : AuId) (s : State) (c l : Nat) (op : FifoOp), (s.live a = some (c, l) ∧ (s.au a).nextOf 5 = some op ∧ opWen op.word = false ∧ opKind op.word = 2) := by
  exact ⟨9, fifoState 3 (2 * 2 ^ 60) (fun x => x), 5, 0, ⟨0, 2 * 2 ^ 60⟩, by decide +kernel⟩
theorem witness_rollerSegmentIssue : ∃ (id : Nat) (s v u : State) (x y z : RollerXfer) (g : Nat × Nat × Nat), (mfind s.mem.rollers id = some x ∧ (s.ctx x.ctx).st = .running ∧ v = s.rollReplay id x x.numbered ∧ mfind v.mem.rollers id = some y) ∧ (y.segs[y.issued]? = some g ∧ (y.numbered.filter fun e => e.2.attached && e.2.open_).isEmpty = false ∧ (y.rcvs.any y.lagging) = false) ∧ (v.rollSegs id y g (y.numbered.filter fun e => e.2.attached && e.2.open_) = .ok u ∧ mfind u.mem.rollers id = some z) := by
  let d := layOut 64 [(0, 2, 1), (2, 1, 1), (8, 8, 2 * 2 ^ 52 + 64), (16, 8, 2 * 2 ^ 52 + 4096), (24, 4, 64)]
  let x : RollerXfer := { ctx := 5, lau := 0, seq := 0, rlist := 2 ^ 22 + 64, slack := 4, segNs := 10, segs := pieceSegs 0 (rollPieces d), issued := 0, waitingSince := none, rcvs := [⟨layOut 16 [(8, 8, 2 * 2 ^ 52 + 8192)], 0, 0, true, .pending, none⟩] }
  let s : State := { rState with mem := { rState.mem with rollers := [(3, x)] } }
  let u := (match s.rollSegs 3 x (2 * 2 ^ 52 + 4096, 0, 64) x.numbered with | .ok u => u | .wait u => u)
  exact ⟨3, s, s, u, x, x, (mfind u.mem.rollers 3).getD x, (2 * 2 ^ 52 + 4096, 0, 64), by decide +kernel⟩
theorem witness_rollerDetach : ∃ (id u : Nat) (s : State) (x : RollerXfer) (w : Nat), (mfind s.mem.rollers id = some x ∧ x.waitingSince = some w ∧ w + x.slack * x.segNs ≤ u) := by
  let x : RollerXfer := { ctx := 5, lau := 0, seq := 0, rlist := 2 ^ 22 + 64, slack := 1, segNs := 10, segs := [], issued := 0, waitingSince := some 0, rcvs := [⟨[], 0, 0, true, .pending, none⟩, ⟨[], 2, 2, true, .pending, none⟩] }
  exact ⟨3, 100, { rState with mem := { rState.mem with rollers := [(3, x)] } }, x, 0, by decide +kernel⟩
theorem witness_rollerDelivery : ∃ (id r : Nat) (s s1 : State) (x : RollerXfer) (v : Rcv), (mfind s.mem.rollers id = some x ∧ x.rcvs[r]? = some v ∧ v.status = .pending ∧ v.written = x.segs.length ∧ s.mboxFull x.ctx = false) ∧ ((s.ctx x.ctx).checkAll true ([(x.rlist + 16 * r, 16)].map fun r => pagesOf r.1 r.2).flatten = .ok ()) ∧ (s1 = (s.modRcv id r fun w => { w with status := if v.attached then .done else .replayed }).putRcvStatus x r v (if v.attached then 1 else 2)) := by
  let x : RollerXfer := { ctx := 5, lau := 0, seq := 0, rlist := 2 ^ 22 + 64, slack := 4, segNs := 10, segs := [], issued := 0, waitingSince := none, rcvs := [⟨layOut 16 [(3, 1, 7), (8, 8, 2 * 2 ^ 52 + 8192)], 0, 0, true, .pending, none⟩] }
  exact ⟨3, 0, { rState with mem := { rState.mem with rollers := [(3, x)] } }, _, x, ⟨layOut 16 [(3, 1, 7), (8, 8, 2 * 2 ^ 52 + 8192)], 0, 0, true, .pending, none⟩, by decide +kernel, by decide +kernel, rfl⟩
theorem witness_rollerRcvFailed : ∃ (id r : Nat) (s : State) (x : RollerXfer) (v : Rcv) (st : Nat), (mfind s.mem.rollers id = some x ∧ x.rcvs[r]? = some v ∧ v.fail = some st) ∧ ((s.ctx x.ctx).checkAll true ([(x.rlist + 16 * r, 16)].map fun r => pagesOf r.1 r.2).flatten = .ok ()) := by
  let x : RollerXfer := { ctx := 5, lau := 0, seq := 0, rlist := 2 ^ 22 + 64, slack := 4, segNs := 10, segs := [], issued := 0, waitingSince := none, rcvs := [⟨layOut 16 [(2, 1, 1)], 0, 0, true, .pending, some 0x42⟩] }
  exact ⟨3, 0, { rState with mem := { rState.mem with rollers := [(3, x)] } }, x, ⟨layOut 16 [(2, 1, 1)], 0, 0, true, .pending, some 0x42⟩, 0x42, by decide +kernel⟩
theorem witness_rollerComplete : ∃ (id : Nat) (s : State) (x : RollerXfer), (mfind s.mem.rollers id = some x ∧ (x.rcvs.all fun v => v.status != .pending) = true) := by
  let x : RollerXfer := { ctx := 5, lau := 0, seq := 0, rlist := 2 ^ 22 + 64, slack := 4, segNs := 10, segs := [], issued := 0, waitingSince := none, rcvs := [⟨layOut 16 [(2, 1, 1)], 0, 0, true, .done, none⟩] }
  exact ⟨3, { rState with mem := { rState.mem with rollers := [(3, x)] } }, x, by decide +kernel⟩
theorem witness_solverJobComplete : ∃ (n : Nat) (s : State) (j : SolverJob) (e : List Byte) (va m k lb rb : Nat) (f : Refresh), (n < 2 ∧ s.solver[n]? = some j ∧ (s.ctx j.ctx).mats[j.entry]? = some e ∧ s.matVa j.ctx j.entry = some va ∧ mfind (s.ctx j.ctx).refresh j.entry = some f) ∧ (m = fieldLe e 4 2 ∧ k = fieldLe e 6 2 ∧ lb = fieldLe e (if byteAt (s.vpeek j.ctx (va + 3) 1) 0 % 2 = 0 then 32 else 24) 8 ∧ rb = fieldLe e (if byteAt (s.vpeek j.ctx (va + 3) 1) 0 % 2 = 0 then 48 else 40) 8) ∧ ((s.ctx j.ctx).checkAll true (((s.ctx j.ctx).rootRange lb m ++ (s.ctx j.ctx).rootRange rb k).map fun r => pagesOf r.1 r.2).flatten = .ok ()) := by
  let e := layOut 64 [(4, 2, 128), (6, 2, 128), (32, 8, 2 * 2 ^ 52), (48, 8, 2 * 2 ^ 52 + 2 ^ 17)]
  let s : State := { upc 5 { rCtx with mats := [e], refresh := [(0, ⟨0, .running⟩)] } with solver := [⟨5, 0, false, false⟩] }
  let s1 := (s.setReg (TRW_MAT_BASE_LO 5) 0x100000).setReg (TRW_MAT_BASE_HI 5) (2 * 2 ^ 20)
  exact ⟨0, s1, ⟨5, 0, false, false⟩, e, 2 ^ 22 + 0x100000 + 64, 128, 128, 2 * 2 ^ 52, 2 * 2 ^ 52 + 2 ^ 17, ⟨0, .running⟩, by decide +kernel⟩

-- Coats_and_monitors
theorem witness_stashRequest : ∃ (c : CtxId) (coat mslot : Nat) (s : State) (tva dva : Nat) (raw : List Byte), ((s.ctx c).coatVa = some tva ∧ raw = s.vpeek c tva 64 ∧ (s.ctx c).baseVa (fieldLe raw 24 8) = some dva) ∧ ((s.ctx c).checkAll false ([(tva, 64)].map fun r => pagesOf r.1 r.2).flatten = .ok () ∧ (s.ctx c).checkAll true ([(dva + 16 * stashIndex (fieldLe raw 16 2) coat mslot, 16)].map fun r => pagesOf r.1 r.2).flatten = .ok ()) ∧ (coat ≠ 0 ∧ coat < fieldLe raw 16 2 ∧ mslot < fieldLe raw 18 2) ∧ (byteAt (s.vpeek c (dva + 16 * stashIndex (fieldLe raw 16 2) coat mslot) 1) 0 = 1 ∧ mfind ((s.checkCoat c tva coat mslot).ctx c).coat.entries (stashIndex (fieldLe raw 16 2) coat mslot) = none) := by
  let s : State := (upc 5 { rCtx with coat := { rCtx.coat with base := 2 * 2 ^ 52, checked := true } })
  let m := wrBytes (wrBytes s.mem.hbm 0x400000 (layOut 64 [(16, 2, 2), (18, 2, 1), (24, 8, 2 * 2 ^ 52 + 4096)])) (0x401000 + 16) [1]
  exact ⟨5, 1, 0, { s with mem := { s.mem with hbm := m } }, 2 ^ 22, 2 ^ 22 + 4096, layOut 64 [(16, 2, 2), (18, 2, 1), (24, 8, 2 * 2 ^ 52 + 4096)], by decide +kernel⟩
theorem witness_stashRelease : ∃ (c : CtxId) (coat mslot : Nat) (s : State) (tva dva : Nat) (raw : List Byte), ((s.ctx c).coatVa = some tva ∧ raw = s.vpeek c tva 64 ∧ (s.ctx c).baseVa (fieldLe raw 24 8) = some dva) ∧ ((s.ctx c).checkAll false ([(tva, 64)].map fun r => pagesOf r.1 r.2).flatten = .ok () ∧ (s.ctx c).checkAll true ([(dva + 16 * stashIndex (fieldLe raw 16 2) coat mslot, 16)].map fun r => pagesOf r.1 r.2).flatten = .ok ()) ∧ (coat ≠ 0 ∧ coat < fieldLe raw 16 2 ∧ mslot < fieldLe raw 18 2) ∧ (byteAt (s.vpeek c (dva + 16 * stashIndex (fieldLe raw 16 2) coat mslot) 1) 0 = 4 ∧ (mfind ((s.checkCoat c tva coat mslot).ctx c).coat.entries (stashIndex (fieldLe raw 16 2) coat mslot)).isSome = true) := by
  let s : State := (upc 5 { rCtx with coat := { rCtx.coat with base := 2 * 2 ^ 52, checked := true, entries := [(1, ⟨true, 0, 1, 0⟩)] } })
  let m := wrBytes (wrBytes s.mem.hbm 0x400000 (layOut 64 [(16, 2, 2), (18, 2, 1), (24, 8, 2 * 2 ^ 52 + 4096)])) (0x401000 + 16) [4]
  exact ⟨5, 1, 0, { s with mem := { s.mem with hbm := m } }, 2 ^ 22, 2 ^ 22 + 4096, layOut 64 [(16, 2, 2), (18, 2, 1), (24, 8, 2 * 2 ^ 52 + 4096)], by decide +kernel⟩
theorem witness_deadlockWindowExpiry : ∃ (c : CtxId) (u : Nat) (s : State), (((s.at u).ctx c).st = .running ∧ cyclesNs (2 ^ (s.at u).fld (CTX_SCHED c) 20 16) ≤ (s.at u).now - ((s.at u).ctx c).progressAt ∧ (s.at u).deadlocked c = true) := by
  exact ⟨5, 10 ^ 12, rState.modCore 9 fun k => { k with wait := .flag 3 }, by decide +kernel⟩
theorem witness_deadlockWindowExpiry_not : ∃ (c : CtxId) (u : Nat) (s : State), ((s.at u).deadlocked c = false) := ⟨5, 0, rState, by decide +kernel⟩
theorem witness_slowdownWindowEnd : ∃ (c : CtxId) (intf : List Nat) (u : Nat) (s s1 : State) (run : Nat), (s1 = s.at u ∧ 10000000 ≤ s1.now - (s1.ctx c).slowAt ∧ run = (s1.runTotal c + 2 ^ 64 - (s1.ctx c).slowRun) % 2 ^ 64 ∧ run ≠ 0) := by
  exact ⟨5, [], 20000000, rState, rState.at 20000000, 20000000, by decide +kernel⟩

-- Screed_rows_with_statistics
theorem witness_norm : ∃ (a : AuId) (s v : State) (c l : Nat) (op : ActiveOp), (s.opOf a 3 = some (c, l, op) ∧ opKind op.word = 0 ∧ op.done < scrRows op.word) ∧ (v = s.modAu a fun x => x.gather op.word op.done 0 [] (scrInputs op.word)) ∧ ((v.au a).screed.outs.isEmpty = true ∧ (v.au a).screed.gathered op.word op.done = true) := by
  let w := 0 * 2 ^ 60 + 2 ^ 32 + 2 ^ 22
  let s := opState 3 w fun x => { x with screed := { x.screed with inp := [[0, 0, 0, 0]] } }
  exact ⟨9, s, s.modAu 9 fun x => x.gather w 0 0 [] (scrInputs w), 5, 0, startedOp ⟨0, w⟩, by decide +kernel, rfl, by decide +kernel⟩
theorem witness_normBwd : ∃ (a : AuId) (s v : State) (c l : Nat) (op : ActiveOp), (s.opOf a 3 = some (c, l, op) ∧ opKind op.word = 1 ∧ op.done < scrRows op.word) ∧ (v = s.modAu a fun x => x.gather op.word op.done 0 [] (scrInputs op.word)) ∧ ((v.au a).screed.outs.isEmpty = true ∧ (v.au a).screed.gathered op.word op.done = true) := by
  let w := 1 * 2 ^ 60 + 2 ^ 32 + 2 ^ 22
  let s := opState 3 w fun x => { x with screed := { (x.screed.putRec 0 0 0 0 1 0) with inp := [[0, 0, 0, 0], [0, 0, 0, 0]] } }
  exact ⟨9, s, s.modAu 9 fun x => x.gather w 0 0 [] (scrInputs w), 5, 0, startedOp ⟨0, w⟩, by decide +kernel, rfl, by decide +kernel⟩
theorem witness_smax : ∃ (a : AuId) (s v : State) (c l : Nat) (op : ActiveOp), (s.opOf a 3 = some (c, l, op) ∧ opKind op.word = 4 ∧ op.done < scrRows op.word) ∧ (v = s.modAu a fun x => x.gather op.word op.done 0 [] (scrInputs op.word)) ∧ ((v.au a).screed.outs.isEmpty = true ∧ (v.au a).screed.gathered op.word op.done = true) := by
  let w := 4 * 2 ^ 60 + 2 ^ 32 + 2 ^ 22
  let s := opState 3 w fun x => { x with screed := { x.screed with inp := [[0, 0, 0, 0]] } }
  exact ⟨9, s, s.modAu 9 fun x => x.gather w 0 0 [] (scrInputs w), 5, 0, startedOp ⟨0, w⟩, by decide +kernel, rfl, by decide +kernel⟩
theorem witness_smaxBwd : ∃ (a : AuId) (s v : State) (c l : Nat) (op : ActiveOp), (s.opOf a 3 = some (c, l, op) ∧ opKind op.word = 5 ∧ op.done < scrRows op.word) ∧ (v = s.modAu a fun x => x.gather op.word op.done 0 [] (scrInputs op.word)) ∧ ((v.au a).screed.outs.isEmpty = true ∧ (v.au a).screed.gathered op.word op.done = true) := by
  let w := 5 * 2 ^ 60 + 2 ^ 32 + 2 ^ 22
  let s := opState 3 w fun x => { x with screed := { (x.screed.putRec 0 0 0 0 2 0) with inp := [[0, 0, 0, 0], [0, 0, 0, 0]] } }
  exact ⟨9, s, s.modAu 9 fun x => x.gather w 0 0 [] (scrInputs w), 5, 0, startedOp ⟨0, w⟩, by decide +kernel, rfl, by decide +kernel⟩
theorem witness_merge : ∃ (a : AuId) (s v : State) (c l : Nat) (op : ActiveOp), (s.opOf a 3 = some (c, l, op) ∧ opKind op.word = 6 ∧ op.done < scrRows op.word) ∧ (v = s.modAu a fun x => x.gather op.word op.done 0 [] (scrInputs op.word)) ∧ ((v.au a).screed.outs.isEmpty = true ∧ (v.au a).screed.gathered op.word op.done = true) := by
  let w := 6 * 2 ^ 60 + 2 ^ 32 + 2 ^ 22
  let s := opState 3 w fun x => { x with screed := { ((x.screed.putRec 0 0 0 0 2 0).putRec 1 0 0 0 2 0) with inp := [[0, 0, 0, 0], [0, 0, 0, 0]] } }
  exact ⟨9, s, s.modAu 9 fun x => x.gather w 0 0 [] (scrInputs w), 5, 0, startedOp ⟨0, w⟩, by decide +kernel, rfl, by decide +kernel⟩

-- Screed_rows_by_element
theorem witness_act : ∃ (a : AuId) (s v : State) (c l : Nat) (op : ActiveOp), (s.opOf a 3 = some (c, l, op) ∧ opKind op.word = 2 ∧ op.done < scrRows op.word) ∧ (v = s.modAu a fun x => x.gather op.word op.done 0 [] (scrInputs op.word)) ∧ ((v.au a).screed.outs.isEmpty = true ∧ (v.au a).screed.gathered op.word op.done = true) := by
  let w := 2 * 2 ^ 60 + 2 ^ 32 + 2 ^ 22
  let s := opState 3 w fun x => { x with screed := { x.screed with inp := [[0, 0, 0, 0]] } }
  exact ⟨9, s, s.modAu 9 fun x => x.gather w 0 0 [] (scrInputs w), 5, 0, startedOp ⟨0, w⟩, by decide +kernel, rfl, by decide +kernel⟩
theorem witness_actBwd : ∃ (a : AuId) (s v : State) (c l : Nat) (op : ActiveOp), (s.opOf a 3 = some (c, l, op) ∧ opKind op.word = 3 ∧ op.done < scrRows op.word) ∧ (v = s.modAu a fun x => x.gather op.word op.done 0 [] (scrInputs op.word)) ∧ ((v.au a).screed.outs.isEmpty = true ∧ (v.au a).screed.gathered op.word op.done = true) := by
  let w := 3 * 2 ^ 60 + 2 ^ 32 + 2 ^ 22
  let s := opState 3 w fun x => { x with screed := { x.screed with inp := [[0, 0, 0, 0], [0, 0, 0, 0]] } }
  exact ⟨9, s, s.modAu 9 fun x => x.gather w 0 0 [] (scrInputs w), 5, 0, startedOp ⟨0, w⟩, by decide +kernel, rfl, by decide +kernel⟩
theorem witness_elem : ∃ (a : AuId) (s v : State) (c l : Nat) (op : ActiveOp), (s.opOf a 3 = some (c, l, op) ∧ opKind op.word = 7 ∧ op.done < scrRows op.word) ∧ (v = s.modAu a fun x => x.gather op.word op.done 0 [] (scrInputs op.word)) ∧ ((v.au a).screed.outs.isEmpty = true ∧ (v.au a).screed.gathered op.word op.done = true) := by
  let w := 7 * 2 ^ 60 + 2 ^ 32 + 2 ^ 22
  let s := opState 3 w fun x => { x with screed := { x.screed with inp := [[0, 0, 0, 0], [0, 0, 0, 0]] } }
  exact ⟨9, s, s.modAu 9 fun x => x.gather w 0 0 [] (scrInputs w), 5, 0, startedOp ⟨0, w⟩, by decide +kernel, rfl, by decide +kernel⟩
theorem witness_loss : ∃ (a : AuId) (s v : State) (c l : Nat) (op : ActiveOp), (s.opOf a 3 = some (c, l, op) ∧ opKind op.word = 8 ∧ op.done < scrRows op.word) ∧ (v = s.modAu a fun x => x.gather op.word op.done 0 [] (scrInputs op.word)) ∧ ((v.au a).screed.outs.isEmpty = true ∧ (v.au a).screed.gathered op.word op.done = true) := by
  let w := 8 * 2 ^ 60 + 2 ^ 32 + 2 ^ 22
  let s := opState 3 w fun x => { x with screed := { (x.screed.putRec 0 0 0 0 2 0) with inp := [[0, 0, 0, 0], [0, 0, 0, 0]] } }
  exact ⟨9, s, s.modAu 9 fun x => x.gather w 0 0 [] (scrInputs w), 5, 0, startedOp ⟨0, w⟩, by decide +kernel, rfl, by decide +kernel⟩
theorem witness_vmove : ∃ (a : AuId) (s v : State) (c l : Nat) (op : ActiveOp), (s.opOf a 3 = some (c, l, op) ∧ opKind op.word = 9 ∧ op.done < scrRows op.word) ∧ (v = s.modAu a fun x => x.gather op.word op.done 0 [] (scrInputs op.word)) ∧ ((v.au a).screed.outs.isEmpty = true ∧ (v.au a).screed.gathered op.word op.done = true) := by
  let w := 9 * 2 ^ 60 + 2 ^ 32 + 2 ^ 22
  let s := opState 3 w fun x => { x with screed := { x.screed with inp := [[0, 0, 0, 0]] } }
  exact ⟨9, s, s.modAu 9 fun x => x.gather w 0 0 [] (scrInputs w), 5, 0, startedOp ⟨0, w⟩, by decide +kernel, rfl, by decide +kernel⟩
theorem witness_rowred : ∃ (a : AuId) (s v : State) (c l : Nat) (op : ActiveOp), (s.opOf a 3 = some (c, l, op) ∧ opKind op.word = 11 ∧ op.done < scrRows op.word) ∧ (v = s.modAu a fun x => x.gather op.word op.done 0 [] (scrInputs op.word)) ∧ ((v.au a).screed.outs.isEmpty = true ∧ (v.au a).screed.gathered op.word op.done = true) := by
  let w := 11 * 2 ^ 60 + 2 ^ 32 + 2 ^ 22
  let s := opState 3 w fun x => { x with screed := { x.screed with inp := [[0, 0, 0, 0], [0, 0, 0, 0]] } }
  exact ⟨9, s, s.modAu 9 fun x => x.gather w 0 0 [] (scrInputs w), 5, 0, startedOp ⟨0, w⟩, by decide +kernel, rfl, by decide +kernel⟩
theorem witness_setp : ∃ (a : AuId) (s : State) (c l : Nat) (op : FifoOp), (s.live a = some (c, l) ∧ (s.au a).nextOf 3 = some op ∧ opWen op.word = false ∧ opKind op.word = 10) := by
  exact ⟨9, fifoState 1 (10 * 2 ^ 60 + 2 ^ 45 + 7) (fun x => x), 5, 0, ⟨0, 10 * 2 ^ 60 + 2 ^ 45 + 7⟩, by decide +kernel⟩

-- Life_cycle_debug_and_logs
theorem witness_secLcReqGo : ∃ (f : FnId) (v : Word32) (s : State) (bs : List Byte), (s.fwUp = true ∧ s.sec.haltedCores.contains 3 = false ∧ f.val = s.adminPf ∧ bit v.toNat 0 = true) ∧ (bs = (s.hostRead s.adminPort (64 * (s.reg64 SEC_LC_REQ_ADDR_LO SEC_LC_REQ_ADDR_HI / 64)) 256).getD (List.replicate 256 0)) := by
  exact ⟨0, 1, up, List.replicate 256 0, by decide +kernel⟩
theorem witness_secLcReqGo_taken : ∃ (f : FnId) (v : Word32) (s : State) (bs : List Byte), (s.fwUp = true ∧ s.sec.haltedCores.contains 3 = false ∧ f.val = s.adminPf ∧ bit v.toNat 0 = true ∧ s.sec.lcReq = none) ∧ (bs = (s.hostRead s.adminPort (64 * (s.reg64 SEC_LC_REQ_ADDR_LO SEC_LC_REQ_ADDR_HI / 64)) 256).getD (List.replicate 256 0) ∧ s.tokenStatus (bs.take 192) (bs.drop 192) = 0) := by
  let k := layOut 192 [(0, 4, 0x544C5848), (4, 1, 0), (8, 8, 0)]
  let s := { up with sec := { up.sec with fuses := { up.sec.fuses with dsn := 0 } } }
  exact ⟨0, 1, { (s.modPort 0 fun x => { x with dlUp := true }) with host := wrBytes s.host 0 k }, _, by decide +kernel, rfl, by decide +kernel⟩
theorem witness_lifecycleTransition : ∃ (s : State) (r : LcReq), (s.sec.lcReq = some r ∧ s.fwUp = true ∧ s.sec.haltedCores.contains 3 = false ∧ r.kind ≠ 4) := by
  exact ⟨{ up with sec := { up.sec with lcReq := some ⟨0, 0, 0, 0, false⟩ } }, ⟨0, 0, 0, 0, false⟩, by decide +kernel⟩
theorem witness_debugExpiry : ∃ (u w : Nat) (s : State), (s.sec.debugUntil = some w ∧ w ≤ max s.now u) := by
  exact ⟨10, 5, { up with sec := { up.sec with debugUntil := some 5 } }, by decide +kernel⟩
theorem witness_ideKmRequest_program : ∃ (p : PortId) (req : List Byte) (s : State), (s.fwUp = true ∧ s.sec.haltedCores.contains 3 = false ∧ (s.port p).dlUp = true ∧ mget 0 s.sec.sessions p ≠ 0 ∧ byteAt req 0 = 2) := by
  exact ⟨0, [2, 7, 1], (up.modPort 0 fun x => { x with dlUp := true }).onSec fun x => { x with sessions := [(0, 1)] }, by decide +kernel⟩
theorem witness_ideKmRequest : ∃ (p : PortId) (req : List Byte) (s : State), (s.fwUp = true ∧ s.sec.haltedCores.contains 3 = false ∧ (s.port p).dlUp = true ∧ mget 0 s.sec.sessions p ≠ 0 ∧ byteAt req 0 = 5) := by
  exact ⟨0, [5, 7], (up.modPort 0 fun x => { x with dlUp := true }).onSec fun x => { x with sessions := [(0, 1)] }, by decide +kernel⟩
theorem witness_spdmRequest_key : ∃ (p : PortId) (req : List Byte) (s : State), (s.fwUp = true ∧ s.sec.haltedCores.contains 3 = false ∧ (s.port p).dlUp = true ∧ s.sec.fuses.scrap = false ∧ byteAt req 0 = 0x12) ∧ (byteAt req 1 = 0xE4 ∧ mget 0 s.sec.sessions p < 2) := by
  exact ⟨0, [0x12, 0xE4], (up.modPort 0 fun x => { x with dlUp := true }), by decide +kernel⟩
theorem witness_spdmRequest : ∃ (p : PortId) (req : List Byte) (s : State), (s.fwUp = true ∧ s.sec.haltedCores.contains 3 = false ∧ (s.port p).dlUp = true ∧ s.sec.fuses.scrap = false ∧ byteAt req 0 = 0x12) ∧ (byteAt req 1 = 0xE0 ∧ bit (byteAt req 2) 0 = false ∧ byteAt req 3 = 0xFF) := by
  exact ⟨0, [0x12, 0xE0, 0, 0xFF], (up.modPort 0 fun x => { x with dlUp := true }), by decide +kernel⟩
theorem witness_jtagInstruction : ∃ (ir dr : Nat) (s : State), (s.power.hostOn = true ∧ s.jtagReach ir dr = true) := by
  exact ⟨0, 0, up, by decide +kernel⟩
theorem witness_jtagInstruction_out : ∃ (ir dr : Nat) (s : State), (s.power.hostOn = true ∧ s.jtagReach ir dr = false) := by
  exact ⟨13, 0, up.setFld SEC_LC 7 0 1, by decide +kernel⟩
theorem witness_logRecord : ∃ (sev src point : Nat) (data : List Byte) (s : State), (s.fwUp = true) := ⟨0, 0, 0, [], up, by decide +kernel⟩
theorem witness_secLogHeadWrite : ∃ (f : FnId) (v : Word32) (s : State), (s.barUp = true ∧ fnIsPf f = true ∧ ringUsed (s.fld (SEC_LOG_TAIL (fnPort f)) 15 0) (v.toNat % 65536) ≤ s.logSize (fnPort f) ∧ ringUsed (s.fld (SEC_LOG_TAIL (fnPort f)) 15 0) (v.toNat % 65536) ≤ ringUsed (s.fld (SEC_LOG_TAIL (fnPort f)) 15 0) (s.fld (SEC_LOG_HEAD (fnPort f)) 15 0)) := ⟨0, 0, up, by decide +kernel⟩
theorem witness_secDiagGo : ∃ (f : FnId) (v : Word32) (s : State), (s.barUp = true ∧ fnIsPf f = true ∧ bits v.toNat 9 8 ≠ 3 ∧ bit v.toNat 0 = true ∧ (s.softReg (SEC_DIAG_CTL (fnPort f)) v.toNat).ownsAny f (bits v.toNat 15 10) = true) := by
  exact ⟨0, BitVec.ofNat 32 (1 + 5 * 1024), upc 5 { rCtx with owner := some 0 }, by decide +kernel⟩
theorem witness_secDiagGo_refused : ∃ (f : FnId) (v : Word32) (s : State), (s.barUp = true ∧ fnIsPf f = true ∧ bits v.toNat 9 8 ≠ 3 ∧ bit v.toNat 0 = true ∧ (s.softReg (SEC_DIAG_CTL (fnPort f)) v.toNat).ownsAny f (bits v.toNat 15 10) = false) := by
  exact ⟨0, BitVec.ofNat 32 (1 + 5 * 1024), up, by decide +kernel⟩

-- Service_side_messages
theorem witness_identityRead : ∃ (s : State), (s.power.svc.on = true) := ⟨up, by decide +kernel⟩
theorem witness_telemetry : ∃ (s : State), (s.power.svc.on = true ∧ s.power.hostOn = true ∧ s.fwUp = true) := ⟨up, by decide +kernel⟩
theorem witness_powerCap : ∃ (w : Nat) (s : State), (s.power.svc.on = true ∧ (w = 0 ∨ 1000 ≤ w ∧ w ≤ 2400 ∧ w % 10 = 0)) := ⟨1500, up, by decide +kernel⟩
theorem witness_reset : ∃ (s : State), (s.power.svc.on = true ∧ s.power.hostOn = true) := ⟨up, by decide +kernel⟩
theorem witness_lifecycle : ∃ (token : List Byte) (s : State), (s.power.svc.on = true ∧ s.power.hostOn = true ∧ s.fwUp = true ∧ s.sec.haltedCores.contains 3 = false ∧ token.length = 256) := ⟨List.replicate 256 0, up, by decide +kernel⟩
theorem witness_logPull : ∃ (n : Nat) (s : State), (s.power.svc.on = true ∧ s.power.hostOn = true ∧ s.fwUp = true) := ⟨3, up, by decide +kernel⟩
theorem witness_power : ∃ (s : State), (s.power.svc.on = true ∧ s.power.hostOn = true) := ⟨up, by decide +kernel⟩
theorem witness_coolantSet : ∃ (a b : Nat) (s : State), (s.power.svc.on = true) := ⟨50, 60, up, by decide +kernel⟩
theorem witness_coolantWarning : ∃ (deg : Nat) (s : State), (s.power.svc.on = true ∧ s.power.svc.coolant = false ∧ s.power.svc.warn ≤ deg) := ⟨60, up, by decide +kernel⟩
theorem witness_coolantWarningClear : ∃ (deg : Nat) (s : State), (s.power.svc.on = true ∧ s.power.svc.coolant = true ∧ deg + 3 ≤ s.power.svc.warn) := ⟨40, (up.modSvc fun v => { v with coolant := true }), by decide +kernel⟩
theorem witness_coolantOff : ∃ (deg τ : Nat) (s : State), (s.power.svc.on = true ∧ s.power.svc.off ≤ deg ∧ s.power.hostOn = true) := ⟨70, 9, up, by decide +kernel⟩
theorem witness_leakDetected : ∃ (τ : Nat) (s : State), (s.power.svc.on = true ∧ s.power.svc.leak = false ∧ s.power.hostOn = true) := ⟨9, up, by decide +kernel⟩
theorem witness_svcRstN : ∃ (s : State), (s.power.svc.on = true) := ⟨up, by decide +kernel⟩

-- Trowel_lane
theorem witness_update : ∃ (a : AuId) (s v : State) (c l : Nat) (op : ActiveOp), (s.opOf a 4 = some (c, l, op) ∧ opKind op.word = 0 ∧ op.done = 0) ∧ (v = (s.modAu a fun x => x.trwGather 0 (trwPops op.word)).progress c) ∧ ((v.au a).trowel.gathered op.word = true) := by
  exact ⟨9, trwState 0, _, 5, 0, startedOp ⟨0, 0⟩, by decide +kernel, rfl, trwState_gathered 0⟩
theorem witness_update_start : ∃ (a : AuId) (s : State) (c l : Nat) (op : FifoOp), (s.live a = some (c, l) ∧ (s.au a).nextOf 4 = some op ∧ opWen op.word = false ∧ opKind op.word = 0 ∧ s.etaReady c op.word = true) := by
  exact ⟨9, (fifoState 2 0 (fun x => x)).modCtx 5 fun x => { x with eta := { x.eta with cur := [(0, 5)] } }, 5, 0, ⟨0, 0⟩, by decide +kernel⟩
theorem witness_updateEtaArrives : ∃ (a : AuId) (s : State) (c l : Nat) (op : FifoOp), ((s.au a).trowel.late.isSome = true ∧ s.live a = some (c, l) ∧ (s.au a).nextOf 4 = some op ∧ opWen op.word = false ∧ opKind op.word = 0 ∧ s.etaReady c op.word = true) := by
  exact ⟨9, (fifoState 2 0 (fun x => { x with trowel := { x.trowel with late := some 0 } })).modCtx 5 fun x => { x with eta := { x.eta with cur := [(0, 5)] } }, 5, 0, ⟨0, 0⟩, by decide +kernel⟩
theorem witness_stepSizeLate : ∃ (a : AuId) (u : Nat) (s : State) (c l since : Nat) (op : FifoOp), ((s.at u).live a = some (c, l) ∧ ((s.at u).au a).nextOf 4 = some op ∧ ((s.at u).au a).trowel.late = some since) ∧ ((s.at u).fld (TRW_CTL c) 31 16 ≤ (u - since) / 1000 ∧ ((s.at u).ctx c).eta.late = false ∧ (s.at u).etaReady c op.word = false ∧ c < 64) := by
  exact ⟨9, 10 ^ 9, fifoState 2 0 (fun x => { x with trowel := { x.trowel with late := some 0 } }), 5, 0, 0, ⟨0, 0⟩, by decide +kernel⟩
theorem witness_accum : ∃ (a : AuId) (s v : State) (c l : Nat) (op : ActiveOp), (s.opOf a 4 = some (c, l, op) ∧ opKind op.word = 1 ∧ op.done = 0) ∧ (v = (s.modAu a fun x => x.trwGather 0 (trwPops op.word)).progress c) ∧ ((v.au a).trowel.gathered op.word = true) := by
  exact ⟨9, trwState (2 ^ 60), _, 5, 0, startedOp ⟨0, 2 ^ 60⟩, by decide +kernel, rfl, trwState_gathered _⟩
theorem witness_tmul : ∃ (a : AuId) (s v : State) (c l : Nat) (op : ActiveOp), (s.opOf a 4 = some (c, l, op) ∧ opKind op.word = 2 ∧ op.done = 0) ∧ (v = (s.modAu a fun x => x.trwGather 0 (trwPops op.word)).progress c) ∧ ((v.au a).trowel.gathered op.word = true) := by
  exact ⟨9, trwState (2 ^ 61), _, 5, 0, startedOp ⟨0, 2 ^ 61⟩, by decide +kernel, rfl, trwState_gathered _⟩
theorem witness_trowel_push : ∃ (a : AuId) (s v : State) (c l : Nat) (op : ActiveOp), (s.opOf a 4 = some (c, l, op) ∧ opKind op.word = 2 ∧ op.done ≠ 0) ∧ (v = (s.modAu a Au.trwPush).progress c ∧ (v.au a).trowel.out.isEmpty = true) := by
  exact ⟨9, rState.modAu 9 fun x => x.putAct 4 { startedOp ⟨0, 2 ^ 61⟩ with done := 1 }, _, 5, 0, { startedOp ⟨0, 2 ^ 61⟩ with done := 1 }, by decide +kernel, rfl, by decide +kernel⟩

-- Windows_and_arrivals
theorem witness_openWindow : ∃ (c : CtxId) (k : Nat) (s : State) (cmd : Cmd) (i : Nat), (s.cmdAt c k = some cmd ∧ byteAt cmd.desc 0 = 0x06 ∧ s.serves 0x06 = true) ∧ ((s.ctx c).openBad cmd.desc = false ∧ s.freeWindow = some i) := by
  let d := layOut 64 [(0, 1, 6), (4, 1, 1), (8, 2, 0xFFFF), (24, 8, 64)]
  have h : (cmdState aCtx d).freeWindow.isSome = true := by decide +kernel
  obtain ⟨i, hi⟩ := Option.isSome_iff_exists.mp h
  exact ⟨5, 0, cmdState aCtx d, ⟨d, .started, 0, 0⟩, i, by decide +kernel, by decide +kernel, hi⟩
theorem witness_closeWindow : ∃ (c : CtxId) (k : Nat) (s : State) (cmd : Cmd) (i : Nat) (w : Window), (s.cmdAt c k = some cmd ∧ byteAt cmd.desc 0 = 0x07 ∧ s.serves 0x07 = true ∧ cmd.phase = .started) ∧ (zeroIn cmd.desc 8 64 = true ∧ s.handleWin (fieldLe cmd.desc 4 4) = some (i, w) ∧ w.st = .open_ ∧ w.ctx = c) ∧ (∀ a ∈ s.links.accepts, a.2.win ≠ i) := by
  let d := layOut 64 [(0, 1, 7), (4, 4, 2 ^ 16)]
  let w : Window := { st := .open_, gen := 1, ctx := 5, canWrite := true, canRead := true, tagMode := 0, ncons := 0, flag := 0, flagEn := false, group := 0xFFFF, expect := 0, lbuf := 0, off := 0, size := 64, count := 0, closing := false }
  exact ⟨5, 0, { cmdState aCtx d with links := { LinkSt.reset with windows := [(0, w)] } }, ⟨d, .started, 0, 0⟩, 0, w, by decide +kernel, by decide +kernel, by decide +kernel⟩
theorem witness_windowArrival : ∃ (n : Nat) (s : State) (p : Nat) (tx : LTxn) (u : State) (i : Nat) (w : Window), (s.links.inbox[n]? = some (p, tx) ∧ s.isSelf tx.hdr.dst = true ∧ s.takeInbox n [1, 2] = some (p, tx, u)) ∧ (u.seenTseq tx.hdr.org tx.hdr.tseq = false ∧ u.links.fenced.contains tx.hdr.org = false) ∧ (u.winCheck tx.hdr.handle tx.hdr.org tx.hdr.offset tx.hdr.length (tx.hdr.op == 1) = .accept i w) := by
  let w : Window := { st := .open_, gen := 1, ctx := 5, canWrite := true, canRead := true, tagMode := 0, ncons := 0, flag := 0, flagEn := false, group := 0xFFFF, expect := 0, lbuf := 0, off := 0, size := 64, count := 0, closing := false }
  let tx : LTxn := ⟨{ hdrOf (List.replicate 64 0) with op := 1, dst := 0xFFFF, handle := 2 ^ 16, length := 4 }, [1, 2, 3, 4], 1⟩
  let s := { upc 5 aCtx with links := { LinkSt.reset with windows := [(0, w)], inbox := [(16, tx)] } }
  exact ⟨0, s, 16, tx, _, 0, w, ⟨rfl, by decide +kernel, rfl⟩, by decide +kernel, by decide +kernel⟩
theorem witness_windowWriteComplete : ∃ (id : Nat) (s : State) (a : Accept) (w : Window) (va : Nat) (u : State), (mfind s.links.accepts id = some a ∧ mfind s.links.windows a.win = some w ∧ s.mboxFull w.ctx = false) ∧ ((s.ctx w.ctx).locate w.lbuf (w.off + a.t.hdr.offset) = some (.virt va)) ∧ (a.t.hdr.op = 1 ∧ a.t.hdr.length ≠ 0 ∧ s.vwrite w.ctx va a.t.data = .ok u) := by
  let w : Window := { st := .open_, gen := 1, ctx := 5, canWrite := true, canRead := true, tagMode := 0, ncons := 0, flag := 0, flagEn := false, group := 0xFFFF, expect := 0, lbuf := 0, off := 2 ^ 22, size := 64, count := 0, closing := false }
  let tx : LTxn := ⟨{ hdrOf (List.replicate 64 0) with op := 1, dst := 0xFFFF, handle := 2 ^ 16, length := 4 }, [1, 2, 3, 4], 1⟩
  let s := { upc 5 { aCtx with pt := [(2, { ty := .resident, big := false, addr := 0x400000, backing := 0, port := 0, write := true, dirty := false, accessed := false, protect := false, origin := .mapHbm, stks := 0xFFF })] } with links := { LinkSt.reset with windows := [(0, w)], accepts := [(3, ⟨0, tx, 0, 0, []⟩)] } }
  have h : (match s.vwrite 5 (2 ^ 22) [1, 2, 3, 4] with | .ok _ => true | _ => false) = true := by decide +kernel
  cases hu : s.vwrite 5 (2 ^ 22) [1, 2, 3, 4] with
  | ok u => exact ⟨3, s, ⟨0, tx, 0, 0, []⟩, w, 2 ^ 22, u, by decide +kernel, by decide +kernel, rfl, by decide +kernel, hu⟩
  | _ => rw [hu] at h; cases h
theorem witness_slotBusy : ∃ (id τ : Nat) (s : State) (a : Accept) (w : Window) (n o : Nat), (mfind s.links.accepts id = some a ∧ mfind s.links.windows a.win = some w) ∧ (w.tagMode ≠ 0 ∧ a.done < a.t.hdr.length ∧ a.since + 40000 ≤ τ) ∧ ((s.ctx w.ctx).locate w.lbuf (w.off + a.t.hdr.offset + a.done) = some (.hawk n o)) ∧ (((s.au n).tag (o / 2048)).canBegin (a.t.hdr.op == 1) = false) := by
  let w : Window := { st := .open_, gen := 1, ctx := 5, canWrite := true, canRead := true, tagMode := 2, ncons := 1, flag := 0, flagEn := false, group := 0xFFFF, expect := 0, lbuf := 1, off := 0, size := 64, count := 0, closing := false }
  let tx : LTxn := ⟨{ hdrOf (List.replicate 64 0) with op := 2, dst := 0xFFFF, handle := 2 ^ 16, length := 4 }, [], 1⟩
  exact ⟨3, 40000, { rState with links := { LinkSt.reset with windows := [(0, w)], accepts := [(3, ⟨0, tx, 0, 0, []⟩)] } }, ⟨0, tx, 0, 0, []⟩, w, 9, 0, by decide +kernel, by decide +kernel, by decide +kernel, by decide +kernel⟩

-- Answers_and_aborts
theorem witness_holdReceive : ∃ (n : Nat) (s : State) (p : Nat) (tx : LTxn) (u : State) (k : Nat) (x : Txn), (s.takeInbox n [5] = some (p, tx, u) ∧ u.txnOf tx.hdr = some (k, x)) := by
  let tx : LTxn := ⟨{ hdrOf (List.replicate 64 0) with op := 5 }, [], 3⟩
  let x : Txn := ⟨.entry 5 0, tx, 7, 5, (0, 0), 0, none, 0⟩
  exact ⟨0, { up with links := { LinkSt.reset with inbox := [(16, tx)], txns := [(0, x)] } }, 16, tx, _, 0, x, rfl, by decide +kernel⟩
theorem witness_holdResend : ∃ (p : LinkId) (slot τ : Nat) (s : State) (x : Txn) (v q : Nat) (dl : Bool) (u : State), (mfind s.links.txns (4096 * p.val + slot) = some x ∧ x.holdUntil = some v ∧ v ≤ τ) ∧ (u = { s.at τ with links := { s.links with txns := mput s.links.txns (4096 * p.val + slot) { x with holdUntil := none, sentAt := (s.at τ).now } } }) ∧ (u.isSelf x.dst = false ∧ u.route x.dst = some (q, dl) ∧ (u.lport p).state = .up) := by
  let tx : LTxn := ⟨{ hdrOf (List.replicate 64 0) with op := 1 }, [], 1⟩
  let x : Txn := ⟨.entry 5 0, tx, 7, 5, (0, 0), 0, some 3, 10000⟩
  exact ⟨3, 0, 4, { up.modLport 3 fun x => { x with state := .up } with links := { (up.modLport 3 fun x => { x with state := .up }).links with txns := [(4096 * 3, x)], routes := [(7, 2 ^ 31 + 3)] } }, x, 3, 3, false, _, by decide +kernel, rfl, by decide +kernel⟩
theorem witness_completeReceive : ∃ (n : Nat) (s : State) (p : Nat) (tx : LTxn) (u : State) (k : Nat) (x : Txn), (s.takeInbox n [3, 4] = some (p, tx, u) ∧ u.txnOf tx.hdr = some (k, x)) ∧ (tx.hdr.op = 4) := by
  let tx : LTxn := ⟨{ hdrOf (List.replicate 64 0) with op := 4 }, [], 3⟩
  let x : Txn := ⟨.entry 5 0, tx, 7, 5, (0, 0), 0, none, 0⟩
  exact ⟨0, { up with links := { LinkSt.reset with inbox := [(16, tx)], txns := [(0, x)] } }, 16, tx, _, 0, x, ⟨rfl, by decide +kernel⟩, rfl⟩
theorem witness_abortReceive : ∃ (n : Nat) (s : State) (p : Nat) (tx : LTxn) (u : State), (s.takeInbox n [7] = some (p, tx, u)) := by
  let tx : LTxn := ⟨{ hdrOf (List.replicate 64 0) with op := 7 }, [], 3⟩
  exact ⟨0, { up with links := { LinkSt.reset with inbox := [(16, tx)] } }, 16, tx, _, rfl⟩
theorem witness_transactionTimeout : ∃ (p : LinkId) (slot τ : Nat) (s : State) (x : Txn), (mfind s.links.txns (4096 * p.val + slot) = some x ∧ x.holdUntil = none) ∧ (x.sentAt + 1000 * s.fld LNK_TIMEOUT 15 0 ≤ τ) := by
  let tx : LTxn := ⟨{ hdrOf (List.replicate 64 0) with op := 1 }, [], 1⟩
  let x : Txn := ⟨.entry 5 0, tx, 7, 5, (0, 0), 0, none, 0⟩
  exact ⟨0, 0, 1000000, { up with links := { LinkSt.reset with txns := [(0, x)] } }, x, by decide +kernel, by decide +kernel⟩

end Sys2Proof.Machine
end

section
/-! What an AU does by itself changes no other AU and no other context (R16): one lemma for every command that `auAlone` lists,
each from the frame `Near` of the updates that the command makes, and the obligation O7 from them. -/

namespace Sys2Proof.Machine

/-- Whatever next state the outcome holds, it differs from `s` in AU `a` and in the context that holds `a` at most. -/
def LocOut (a : Nat) (s : State) (o : Out) : Prop := ∀ t, o = .next t → Loc a s t

variable {a : Nat} {s t : State}

theorem LocOut.next (h : Loc a s t) : LocOut a s (.next t) := fun _ e => by cases e; exact h

theorem LocOut.unchanged (a : Nat) (s : State) : LocOut a s (.next s) := .next (.refl a s)

/-! ## Instructions of a core -/

theorem Loc.onDxOr {w : CoreWait} {f : Nat → Dx → State → State} (hf : ∀ c d u, Near a c s u → Near a c s (f c d u)) :
    Loc a s (s.onDxOr a w f) :=
  Loc.onHeld hf

theorem execDxStnPos_locOut (a : AuId) (s : State) : LocOut a s (execDxStnPos a s) :=
  .next <| .onDx' fun c d u h => by
    split
    · exact (h.dxSet _ _).progress
    · exact .refl a c s

theorem execDxStnWait_locOut (a : AuId) (s : State) : LocOut a s (execDxStnWait a s) :=
  .next <| .onDxOr fun c d u h => by
    split
    · exact (h.dxHold _).ite h.dxDone.progress
    · exact .refl a c s

theorem execDxStnStat_locOut (a : AuId) (s : State) : LocOut a s (execDxStnStat a s) :=
  .next <| .onDx' fun c d u h => by
    split
    · exact (h.dxSet _ _).progress
    · exact .refl a c s

theorem execDxFset_locOut (a : AuId) (s : State) : LocOut a s (execDxFset a s) :=
  .next <| .onDx' fun c d u h => by
    split
    · exact (h.setFlag _ _).dxDone.progress
    · exact .refl a c s

theorem execDxFclr_locOut (a : AuId) (s : State) : LocOut a s (execDxFclr a s) :=
  .next <| .onDx' fun c d u h => by
    split
    · exact (h.setFlag _ _).dxDone.progress
    · exact .refl a c s

theorem execDxFwait_locOut (a : AuId) (s : State) : LocOut a s (execDxFwait a s) :=
  .next <| .onDx' fun c d u h => by
    split
    · exact h.flagWait _ _ _
    · exact .refl a c s

theorem execDxFwaitc_locOut (a : AuId) (s : State) : LocOut a s (execDxFwaitc a s) :=
  .next <| .onDx' fun c d u h => by
    split
    · exact h.flagWait _ _ _
    · exact .refl a c s

theorem execDxFwaitx_locOut (a : AuId) (s : State) : LocOut a s (execDxFwaitx a s) :=
  .next <| .onDx' fun c d u h => by
    split
    · exact h.flagWait _ _ _
    · exact .refl a c s

theorem execFlagWaitSatisfied_locOut (a : AuId) (s : State) : LocOut a s (execFlagWaitSatisfied a s) :=
  .next <| .onHeld fun c d u h => by
    split
    · exact h.flagWait _ _ _
    · exact h.flagWait _ _ _
    · exact h.flagWait _ _ _
    · exact .refl a c s

theorem execDxFtest_locOut (a : AuId) (s : State) : LocOut a s (execDxFtest a s) :=
  .next <| .onDx' fun c d u h => by
    split
    · exact (h.dxSet _ _).progress
    · exact .refl a c s

theorem execDxQlvl_locOut (a : AuId) (s : State) : LocOut a s (execDxQlvl a s) :=
  .next <| .onDx' fun c d u h => by
    split
    · exact (h.dxSet _ _).progress
    · exact .refl a c s

theorem execDxFlvl_locOut (a : AuId) (s : State) : LocOut a s (execDxFlvl a s) :=
  .next <| .onDx' fun c d u h => by
    split
    · exact (h.dxSet _ _).progress
    · exact .refl a c s

theorem execDxFpace_locOut (a : AuId) (s : State) : LocOut a s (execDxFpace a s) :=
  .next <| .onDxOr fun c d u h => by
    split
    · exact h.dxDone.progress.ite (h.dxHold _)
    · exact .refl a c s

theorem execDxQpace_locOut (a : AuId) (s : State) : LocOut a s (execDxQpace a s) :=
  .next <| .onDxOr fun c d u h => by
    split
    · exact h.dxDone.progress.ite (h.dxHold _)
    · exact .refl a c s

theorem execDxLoop_locOut (a : AuId) (s : State) : LocOut a s (execDxLoop a s) :=
  .next <| .onDx' fun c d u h => by
    split
    · exact (h.modCore _).progress
    · exact .refl a c s

theorem execDxBrk_locOut (a : AuId) (s : State) : LocOut a s (execDxBrk a s) :=
  .next <| .onDx' fun c d u h => by
    split
    · exact (h.modCore _).progress
    · exact .refl a c s

theorem execDxWhere_locOut (a : AuId) (s : State) : LocOut a s (execDxWhere a s) :=
  .next <| .onDx' fun c d u h => by
    split
    · exact (h.dxSet _ _).progress
    · exact .refl a c s

theorem execLogicalAuExit_locOut (a : AuId) (s : State) : LocOut a s (execLogicalAuExit a s) := by
  unfold execLogicalAuExit
  split
  next c l hl =>
    dsimp only
    split
    · exact .next (((Near.refl a c s).modCore _).progress.locLive hl)
    · exact .unchanged a s
  next => exact .unchanged a s

/-! ## Operations of the load port -/

theorem Loc.startLoad (a : Nat) (s : State) (wen : Bool) : Loc a s (s.startLoad a wen) :=
  Loc.startUnit fun _ _ _ h => h.modAu _

theorem execWload_locOut (a : AuId) (s : State) : LocOut a s (execWload a s) :=
  .next <| by
    split
    next c l op h =>
      split
      · exact ((Near.refl a c s).modAu _).progress.locLive (opOf_live h)
      · exact .refl a s
    next => exact .startLoad a s false

theorem execWloadComplete_locOut (a : AuId) (s : State) : LocOut a s (execWloadComplete a s) :=
  .next <| by
    split
    next c l op h =>
      split
      · exact (((Near.refl a c s).modAu _).endOp _).progress.locLive (opOf_live h)
      · exact .refl a s
    next => exact .refl a s

theorem execAdaptLoad_locOut (a : AuId) (s : State) : LocOut a s (execAdaptLoad a s) :=
  .next <| by
    split
    next c l op h =>
      have near := Near.refl a c s
      split
      · exact ((near.putAu _).progress.ite ((near.putAu _).endOp _).progress).locLive (opOf_live h)
      · exact .refl a s
    next => exact .startLoad a s false

/-! ## SETF, CLRF and NOP -/

theorem Loc.flagOp (a : Nat) (s : State) (e k : Nat) (v : Bool) : Loc a s (s.flagOp a e k v) := by
  unfold State.flagOp
  split
  next => exact .refl a s
  next c op h =>
    obtain ⟨l, hl⟩ := firstKind_live h
    split
    · exact (((Near.refl a c s).popOp _ _).setFlag _ _).locLive hl
    · exact .refl a s

theorem execSetf_locOut (a : AuId) (e : EngId) (s : State) : LocOut a s (execSetf a e s) := .next (.flagOp a s e _ _)

theorem execClrf_locOut (a : AuId) (e : EngId) (s : State) : LocOut a s (execClrf a e s) := .next (.flagOp a s e _ _)

theorem execNop_locOut (a : AuId) (e : EngId) (s : State) : LocOut a s (execNop a e s) :=
  .next <| by
    split
    next => exact .refl a s
    next c op h =>
      obtain ⟨l, hl⟩ := firstKind_live h
      split
      · exact ((Near.refl a c s).popOp _ _).locLive hl
      · exact .refl a s

/-! ## Streams and couplings -/

theorem execStencilDone_locOut (a : AuId) (st : StnId) (s : State) : LocOut a s (execStencilDone a st s) := by
  unfold execStencilDone
  split
  next => exact .unchanged a s
  next c l hc =>
    have stnDone (f : Au → Au) : Near a c s (s.modAu a f) := (Near.refl a c s).modAu f
    dsimp only
    split
    · exact .next ((((stnDone _).setFlag _ _).ite (stnDone _)).progress.loc hc)
    · exact .unchanged a s

theorem execStreamHaltResume_locOut (a : AuId) (st : StnId) (s : State) : LocOut a s (execStreamHaltResume a st s) := by
  unfold execStreamHaltResume
  split
  next => exact .unchanged a s
  next c l hl =>
    have resumed (f : Au → Au) : Loc a s ((s.modAu a f).progress c) := ((Near.refl a c s).modAu f).progress.locLive hl
    dsimp only
    split
    · split
      · split
        · exact .next (resumed _)
        · exact .unchanged a s
      · exact .unchanged a s
    · exact .unchanged a s

theorem execQueueRecordReady_locOut (a : AuId) (src dst : QueueId) (n : Nat) (s : State) :
    LocOut a s (execQueueRecordReady a src dst n s) := by
  unfold execQueueRecordReady
  split
  next => exact .unchanged a s
  next c l hl =>
    dsimp only
    split
    · exact .next (((Near.refl a c s).putAu _).progress.locLive hl)
    · exact .unchanged a s

/-! ## The obligation -/

theorem exec_locOut_of_auAlone {c : Instr} {a : AuId} (s : State) (h : auAlone c = some a) : LocOut a s (exec c s) := by
  cases c with
  | logicalAuExit => cases h; exact execLogicalAuExit_locOut a s
  | dxStnPos => cases h; exact execDxStnPos_locOut a s
  | dxStnWait => cases h; exact execDxStnWait_locOut a s
  | dxStnStat => cases h; exact execDxStnStat_locOut a s
  | dxFset => cases h; exact execDxFset_locOut a s
  | dxFclr => cases h; exact execDxFclr_locOut a s
  | dxFwait => cases h; exact execDxFwait_locOut a s
  | dxFwaitc => cases h; exact execDxFwaitc_locOut a s
  | dxFwaitx => cases h; exact execDxFwaitx_locOut a s
  | flagWaitSatisfied => cases h; exact execFlagWaitSatisfied_locOut a s
  | dxFtest => cases h; exact execDxFtest_locOut a s
  | dxQlvl => cases h; exact execDxQlvl_locOut a s
  | dxFlvl => cases h; exact execDxFlvl_locOut a s
  | dxFpace => cases h; exact execDxFpace_locOut a s
  | dxQpace => cases h; exact execDxQpace_locOut a s
  | dxLoop => cases h; exact execDxLoop_locOut a s
  | dxBrk => cases h; exact execDxBrk_locOut a s
  | dxWhere => cases h; exact execDxWhere_locOut a s
  | wload => cases h; exact execWload_locOut a s
  | wloadComplete => cases h; exact execWloadComplete_locOut a s
  | adaptLoad => cases h; exact execAdaptLoad_locOut a s
  | setf _ e => cases h; exact execSetf_locOut a e s
  | clrf _ e => cases h; exact execClrf_locOut a e s
  | nop _ e => cases h; exact execNop_locOut a e s
  | stencilDone _ st => cases h; exact execStencilDone_locOut a st s
  | streamHaltResume _ st => cases h; exact execStreamHaltResume_locOut a st s
  | queueRecordReady _ src dst n => cases h; exact execQueueRecordReady_locOut a src dst n s
  | _ => exact absurd h.symm (Option.some_ne_none a)

/-- Settles O7: a command that `auAlone` lists is made of updates of its own AU and of the context that holds it. -/
theorem anAUThatGoesOnLeavesTheOthers : Obligations.An_AU_that_goes_on_leaves_the_others := by
  unfold Obligations.An_AU_that_goes_on_leaves_the_others
  exact fun c a s t alone hnext => exec_locOut_of_auAlone s alone t hnext

end Sys2Proof.Machine
end

section
/-! Rows, loads and drains of the array (02_array_units.md): what an AU holds after an operation goes on or ends, one equation
for each branch of the array's step functions that the statement speaks of, and the obligation O25 from them. -/

namespace Sys2Proof.Machine

section

variable {s : State} {n u c l : Nat} {w : Nat}

/-! ## An operation that goes on, and one that ends -/

@[simp] theorem Au.act_putAct_same (a : Au) (u : Nat) (op : ActiveOp) : (a.putAct u op).act u = some op := mfind_mput_same ..
@[simp] theorem Au.putAct_array (a : Au) (u : Nat) (op : ActiveOp) : (a.putAct u op).array = a.array := rfl
@[simp] theorem Au.act_mdel_same (a : Au) (u : Nat) : Au.act { a with acts := mdel a.acts u } u = none := mfind_mdel_same ..
@[simp] theorem State.au_progress (s : State) (c n : Nat) : (s.progress c).au n = s.au n := rfl
@[simp] theorem State.reg64_progress (s : State) (c k j : Nat) : (s.progress c).reg64 k j = s.reg64 k j := rfl
@[simp] theorem State.reg64_putAu (s : State) (n : Nat) (a : Au) (k j : Nat) : (s.putAu n a).reg64 k j = s.reg64 k j := rfl
@[simp] theorem State.reg64_pick (s : State) (k j : Nat) : s.pick.2.reg64 k j = s.reg64 k j := rfl
@[simp] theorem State.act_endOp_same (s : State) (n u : Nat) : ((s.endOp n u).au n).act u = none := by
  simp [State.endOp]
@[simp] theorem State.array_endOp (s : State) (n u : Nat) : ((s.endOp n u).au n).array = (s.au n).array := by
  simp [State.endOp]

/-! ## The start of an operation -/

theorem flagTest_of_not_wen (h : opWen w = false) : s.flagTest c w = true := by
  simp [State.flagTest, h]

/-- A unit starts an operation that waits for no flag as soon as it is ready. -/
theorem startUnit_of_not_wen {op : FifoOp} {ready : Nat → FifoOp → Bool} {go : Nat → FifoOp → State → State}
    (hlive : s.live n = some (c, l)) (hnext : (s.au n).nextOf u = some op) (hwen : opWen op.word = false)
    (hready : ready c op = true) : s.startUnit n u false ready go = go c op (s.beginOp n u c op) :=
  startUnit_eq hlive hnext hwen hready (flagTest_of_not_wen hwen)

theorem execCompute_of_opOf {a : AuId} {op : ActiveOp} (h : s.opOf a 0 = some (c, l, op)) :
    execCompute a s = .next (s.computeRow a c op) := by
  simp only [execCompute, h]

theorem execCompute_of_ready {a : AuId} {op : FifoOp} (hlive : s.live a = some (c, l)) (hnext : (s.au a).nextOf 0 = some op)
    (hwen : opWen op.word = false) (hready : s.computeReady a op = true) : execCompute a s = .next (s.beginOp a 0 c op) := by
  simp only [execCompute, opOf_none hnext, State.startCompute]
  rw [startUnit_of_not_wen hlive hnext hwen hready]

theorem execWload_of_ready {a : AuId} {op : FifoOp} (hlive : s.live a = some (c, l)) (hnext : (s.au a).nextOf 1 = some op)
    (hwen : opWen op.word = false) (hready : s.loadReady a op = true) :
    execWload a s = .next ((s.beginOp a 1 c op).modAu a fun x => x.beginLoad op) := by
  simp only [execWload, opOf_none hnext, State.startLoad]
  rw [startUnit_of_not_wen hlive hnext hwen hready]

theorem execDrain_of_ready {a : AuId} {op : FifoOp} (hlive : s.live a = some (c, l)) (hnext : (s.au a).nextOf 2 = some op)
    (hwen : opWen op.word = false) (hmatch : (s.au a).drainMismatch op = false) : execDrain a s = .next (s.beginOp a 2 c op) := by
  simp only [execDrain, opOf_none hnext, State.startDrain]
  rw [startUnit_of_not_wen hlive hnext hwen (by simp [hwen]), if_neg (by simp [hmatch])]

/-! ## COMPUTE: one row -/

/-- The AU after a row of `op`, its inputs popped from `a` and its results in `o`: one row more is done, or the operation is
over. -/
def Au.afterRow (a : Au) (op : ActiveOp) (keep : List Byte) (o : AccOut) : Au :=
  if op.done + 1 < cRows op.word then
    { a with array := o.arr }.putAct 0 { op with
      done := op.done + 1, data := keep, swapped := true, nonfin := op.nonfin || o.nonfin != 0, sat := op.sat || o.sat != 0 }
  else { a with array := o.arr, acts := mdel a.acts 0 }

/-- The state with one more in the count of rows of AU n. -/
def State.countRow (s : State) (n : Nat) : State :=
  s.setReg64 (AU_ARRAY_ROWS_LO n) (AU_ARRAY_ROWS_HI n) ((s.reg64 (AU_ARRAY_ROWS_LO n) (AU_ARRAY_ROWS_HI n) + 1) % 2 ^ 64)

/-- The state after a row of `op` on AU n, its inputs popped from `a` and its results in `o`. -/
def State.passRow (s : State) (n c : Nat) (op : ActiveOp) (keep : List Byte) (a : Au) (o : AccOut) : State :=
  (((s.pick.2.putAu n (a.afterRow op keep o)).countRow n).accFlags n c (cQmask op.word) o.nonfin o.sat op).progress c

variable {op : ActiveOp} {rows : List RowIn} {keep tag : List Byte} {a1 a2 : Au} {o : AccOut}

theorem Au.afterRow_array : (a2.afterRow op keep o).array = o.arr := by
  unfold Au.afterRow
  split <;> rfl

theorem Au.afterRow_act : if op.done + 1 < cRows op.word
    then ∃ op1, (a2.afterRow op keep o).act 0 = some op1 ∧ op1.done = op.done + 1 ∧ op1.word = op.word
    else (a2.afterRow op keep o).act 0 = none := by
  unfold Au.afterRow
  split
  · exact ⟨_, Au.act_putAct_same .., rfl, rfl⟩
  · exact Au.act_mdel_same { a2 with array := o.arr } 0

/-- A row that waits for nothing, with its input and tag in the queues and its bank formats and adapter in order, passes. -/
theorem computeRow_of_ok (hfree : (s.au n).rowFree op.seq op.word op.done = true) (hswap : (cSwap op.word && !op.swapped) = false)
    (hrows : (s.au n).popRows op.word op.done (cLen op.word) (computeQueues op.word) op.data = some (rows, keep, a1))
    (htag : (if cAdp op.word = 0 then some ([], a1) else a1.pop (cTagq op.word) 2) = some (tag, a2))
    (hfmt : ¬ (op.done = 0 ∧ fmtsBroken (cGanged op.word) (cFmt op.word)
      ((quadsOf (cQmask op.word)).map fun k => (a2.array.quad k).bank (a2.array.quad k).activeB) = true))
    (hok : adaptRow (Config.free s.free) op.word (cBase op.word + op.done) (leNat tag) (rows.headD [])
      (computeBase (Config.free s.free) op.word (cBase op.word + op.done) rows a2.array) = .ok o) :
    s.computeRow n c op = s.passRow n c op keep a2 o := by
  unfold State.computeRow
  simp only [hfree, hswap, hrows, htag, hfmt, State.pick, hok, Bool.not_true, Bool.false_and, Bool.or_self, Bool.false_eq_true, if_false]
  rfl

theorem reg64_countRow (s : State) (n : Nat) : (s.countRow n).reg64 (AU_ARRAY_ROWS_LO n) (AU_ARRAY_ROWS_HI n) =
    (s.reg64 (AU_ARRAY_ROWS_LO n) (AU_ARRAY_ROWS_HI n) + 1) % 2 ^ 64 := by
  unfold State.countRow
  exact setReg64_get s _ _ _ (by unfold AU_ARRAY_ROWS_LO AU_ARRAY_ROWS_HI; omega) (Nat.mod_lt _ (by decide))

/-- With no saturation and no non-finite value, the flags of the accumulators leave the count of rows alone. -/
theorem rows_accFlags_none (s : State) (n c q : Nat) (op : ActiveOp) :
    (s.accFlags n c q 0 0 op).reg64 (AU_ARRAY_ROWS_LO n) (AU_ARRAY_ROWS_HI n) = s.reg64 (AU_ARRAY_ROWS_LO n) (AU_ARRAY_ROWS_HI n) := by
  unfold State.reg64
  rw [reg_accFlags (by unfold AU_ARRAY_ROWS_LO AU_ACC_STATUS; omega), reg_accFlags (by unfold AU_ARRAY_ROWS_HI AU_ACC_STATUS; omega)]

theorem au_passRow : (s.passRow n c op keep a2 o).au n = a2.afterRow op keep o := by
  unfold State.passRow
  rw [State.au_progress, State.au_of_aus (aus_accFlags ..)]
  exact State.au_putAu ..

theorem rows_passRow (hnonfin : o.nonfin = 0) (hsat : o.sat = 0) :
    (s.passRow n c op keep a2 o).reg64 (AU_ARRAY_ROWS_LO n) (AU_ARRAY_ROWS_HI n) =
      (s.reg64 (AU_ARRAY_ROWS_LO n) (AU_ARRAY_ROWS_HI n) + 1) % 2 ^ 64 := by
  unfold State.passRow
  rw [State.reg64_progress, hnonfin, hsat, rows_accFlags_none, reg64_countRow, State.reg64_putAu, State.reg64_pick]

theorem execSwapBankHeld_of_waiting {a : AuId} (h : s.opOf a 0 = some (c, l, op))
    (hswap : cSwap op.word = true) (hdone : op.done = 0) (hnot : op.swapped = false) :
    execSwapBankHeld a s = .next (s.computeRow a c op) := by
  simp [execSwapBankHeld, h, hswap, hdone, hnot]

/-! ## Loads -/

theorem execWload_of_opOf {a : AuId} (h : s.opOf a 1 = some (c, l, op)) (hkind : opKind op.word = 1) :
    execWload a s = .next
      ((s.modAu a fun x => (quadsOf (bits op.word 47 44)).foldl (fun y k => y.pullTile op.word k) x).progress c) := by
  simp only [execWload, h, if_pos hkind]

/-- The quadrant whose loading bank is loaded with format f. -/
def Quad.endLoad (q : Quad) (f : TileFmt) : Quad :=
  match q.loading with
  | some b => { q.putBank b { q.bank b with loaded := some f } with loading := none }
  | none => q

/-- The array with the tiles of WLOAD word w in. -/
def ArraySt.endLoad (x : ArraySt) (w : Nat) : ArraySt :=
  (quadsOf (bits w 47 44)).foldl (fun y k => y.modQuad k fun q => q.endLoad ⟨bits w 43 40, bits w 39 38, bits w 37 37⟩) x

theorem execWloadComplete_of_tilesIn {a : AuId} (h : s.opOf a 1 = some (c, l, op)) (hkind : opKind op.word = 1)
    (hin : (s.au a).tilesIn op.word = true) :
    execWloadComplete a s = .next (((s.modAu a fun x => { x with array := x.array.endLoad op.word }).endOp a 1).progress c) := by
  simp only [execWloadComplete, h, if_pos (And.intro hkind hin)]
  rfl

/-- ADAPT_LOAD goes on: more bytes of its piece are to come. -/
theorem execAdaptLoad_of_short {a : AuId} {p : List Byte × Au} (h : s.opOf a 1 = some (c, l, op)) (hkind : opKind op.word = 2)
    (hp : p = (s.au a).pull (8 + bits op.word 47 46) (pieceBytes op.word) 0 op.done)
    (hshort : op.done + p.1.length < pieceBytes op.word) :
    execAdaptLoad a s = .next ((s.putAu a ({ p.2 with array := p.2.array.putPiece (bits op.word 45 39) op.done p.1 }.putAct 1
      { op with done := op.done + p.1.length })).progress c) := by
  subst hp
  simp only [execAdaptLoad, h, if_pos hkind, if_pos hshort]

/-- ADAPT_LOAD takes the last byte of its piece. -/
theorem execAdaptLoad_of_whole {a : AuId} {p : List Byte × Au} (h : s.opOf a 1 = some (c, l, op)) (hkind : opKind op.word = 2)
    (hp : p = (s.au a).pull (8 + bits op.word 47 46) (pieceBytes op.word) 0 op.done)
    (hwhole : ¬ op.done + p.1.length < pieceBytes op.word) :
    execAdaptLoad a s = .next (((s.putAu a { p.2 with array := { p.2.array.putPiece (bits op.word 45 39) op.done p.1 with
      dir := addEntry (p.2.array.putPiece (bits op.word 45 39) op.done p.1).dir (adapterEntry op.word) } }).endOp a 1).progress c) := by
  subst hp
  simp only [execAdaptLoad, h, if_pos hkind, if_neg hwhole]

/-! ## DRAIN: one row -/

theorem execDrain_of_rowReady {a : AuId} {b : Au} (h : s.opOf a 2 = some (c, l, op))
    (hgroup : (if dDown op.word then dBs op.word else 1) = 1) (hready : (s.au a).drainRowReady op.seq op.word op.done = true)
    (hpush : (s.au a).pushAll (((s.au a).array.drainRow op.word op.done).map fun p => (p.1, drainOut op.word p.2)) = some b) :
    execDrain a s = .next ((s.putAu a (if op.done + 1 < dRows op.word then b.putAct 2 { op with done := op.done + 1 }
      else { b with acts := mdel b.acts 2 })).progress c) := by
  simp only [execDrain, h, State.drainStep, if_pos hgroup, if_pos hready, hpush]

end

/-! ## The obligation -/

/-- Settles O25: in each clause the command takes the branch of its step function that the clause's hypotheses name. -/
theorem arrayRowsLoadsAndDrains : Obligations.Array_rows_loads_and_drains := by
  unfold Obligations.Array_rows_loads_and_drains
  refine ⟨?computeRow, ?computeBegin, ?swapHeld, ?wloadTiles, ?wloadBegin, ?wloadComplete, ?adaptLoad, ?drainRow, ?drainBegin⟩
  case computeRow =>
    rintro a s c l op rows keep tag a1 a2 o ⟨hop, hfree, hswap⟩ ⟨hrows, htag⟩ hfmt hok
    refine ⟨_, execCompute_of_opOf hop, ?_⟩
    rw [computeRow_of_ok hfree hswap hrows htag hfmt hok, au_passRow]
    exact ⟨Au.afterRow_array, Au.afterRow_act, rows_passRow⟩
  case computeBegin =>
    rintro a s c l op ⟨hlive, hnext, hwen, hready⟩
    exact ⟨_, execCompute_of_ready hlive hnext hwen hready, rfl⟩
  case swapHeld =>
    rintro a s c l op ⟨hop, hswap, hdone, hnot⟩ -
    exact ⟨_, execSwapBankHeld_of_waiting hop hswap hdone hnot, rfl⟩
  case wloadTiles =>
    rintro a s c l op ⟨hop, hkind⟩
    exact ⟨_, execWload_of_opOf hop hkind, rfl⟩
  case wloadBegin =>
    rintro a s c l op ⟨hlive, hnext, hwen, hready⟩
    exact ⟨_, execWload_of_ready hlive hnext hwen hready, rfl⟩
  case wloadComplete =>
    rintro a s c l op ⟨hop, hkind, hin⟩
    refine ⟨_, execWloadComplete_of_tilesIn hop hkind hin, by simp, ?_⟩
    rw [State.au_progress, State.array_endOp, State.au_modAu]
    rfl
  case adaptLoad =>
    rintro a s c l op p ⟨hop, hkind, hp⟩
    split
    next hshort => exact ⟨_, execAdaptLoad_of_short hop hkind hp hshort, by simp, by simp⟩
    next hwhole => exact ⟨_, execAdaptLoad_of_whole hop hkind hp hwhole, by simp, by simp⟩
  case drainRow =>
    rintro a s c l op b ⟨hop, hgroup⟩ ⟨hready, hpush⟩
    exact ⟨_, execDrain_of_rowReady hop hgroup hready hpush, rfl⟩
  case drainBegin =>
    rintro a s c l op ⟨hlive, hnext, hwen, hmatch⟩
    exact ⟨_, execDrain_of_ready hlive hnext hwen hmatch, rfl⟩

end Sys2Proof.Machine
end

section
/-! Master weights and FP32 (03_numerics.md, R81 and R82): an IEEE-like format and the same format with `k` more fraction bits.
The wider encoding of a word ends in the `k` extra fraction bits, and sign and exponent stand above them unchanged; MW48 is FP32
with 16 of them. The obligation O23 follows from appending and from dropping these bits. -/

namespace Sys2Proof.Machine

/-! ## The fields of a word -/

theorem bit_div_two_pow (w k n : Nat) : bit (w / 2 ^ k) n = bit w (n + k) := by
  rw [bit, bit, Nat.div_div_eq_div_mul, ← Nat.pow_add, Nat.add_comm k n]

theorem bits_div_two_pow (w k hi lo : Nat) : bits (w / 2 ^ k) hi lo = bits w (hi + k) (lo + k) := by
  rw [bits, bits, Nat.div_div_eq_div_mul, ← Nat.pow_add, Nat.add_comm k lo, Nat.add_right_comm hi k 1, Nat.add_sub_add_right]

theorem bits_low (w hi : Nat) : bits w hi 0 = w % 2 ^ (hi + 1) := by
  rw [bits, Nat.pow_zero, Nat.div_one, Nat.sub_zero]

namespace FFmt

/-- The format with `k` more fraction bits. -/
def longer (f : FFmt) (k : Nat) : FFmt := { f with mb := f.mb + k }

/-- R81: MW48 is FP32 with 16 more fraction bits. -/
theorem mw48_eq_longer_fp32 : mw48 = fp32.longer 16 := rfl

/-! The fields as `decode` cuts them (Tables 3.2 and 3.3). -/

def signField (f : FFmt) (w : Nat) : Bool := bit w (f.mb + f.eb)
def expField (f : FFmt) (w : Nat) : Nat := bits w (f.mb + f.eb - 1) f.mb
def fracField (f : FFmt) (w : Nat) : Nat := bits w (f.mb - 1) 0

/-- The value that sign, biased exponent and fraction spell where the top exponent means infinity and NaN. -/
def ieeeValue (f : FFmt) (s : Bool) (e m : Nat) : Num :=
  if e = 2 ^ f.eb - 1 then (if m = 0 then .inf s else .nan)
  else if e = 0 then .fin s m f.minE
  else .fin s (2 ^ f.mb + m) ((e : Int) - f.bias - f.mb)

variable {f : FFmt} (k w : Nat)

theorem decode_eq_ieeeValue (htop : f.top = 0) : f.decode w = f.ieeeValue (f.signField w) (f.expField w) (f.fracField w) := by
  have hnotE4M3 : f.top ≠ 1 := htop ▸ Nat.zero_ne_one
  unfold ieeeValue
  by_cases hexp : f.expField w = 2 ^ f.eb - 1
  · rw [if_pos hexp]
    exact if_pos ⟨htop, hexp⟩
  · rw [if_neg hexp]
    exact (if_neg fun h => hexp h.2).trans (if_neg fun h => hnotE4M3 h.1)

theorem ieeeValue_top {s : Bool} {e m : Nat} (he : e = 2 ^ f.eb - 1) : f.ieeeValue s e m = if m = 0 then .inf s else .nan :=
  if_pos he

theorem ieeeValue_subnormal {s : Bool} {e m : Nat} (he : e ≠ 2 ^ f.eb - 1) (hzero : e = 0) : f.ieeeValue s e m = .fin s m f.minE :=
  (if_neg he).trans (if_pos hzero)

theorem ieeeValue_normal {s : Bool} {e m : Nat} (he : e ≠ 2 ^ f.eb - 1) (hzero : e ≠ 0) :
    f.ieeeValue s e m = .fin s (2 ^ f.mb + m) ((e : Int) - f.bias - f.mb) :=
  (if_neg he).trans (if_neg hzero)

/-! ## The fields in a longer format -/

theorem signField_longer : (f.longer k).signField w = f.signField (w / 2 ^ k) := by
  rw [signField, signField, bit_div_two_pow, Nat.add_right_comm]
  rfl

theorem expField_longer (hmb : 0 < f.mb) : (f.longer k).expField w = f.expField (w / 2 ^ k) := by
  have htop : f.mb + f.eb - 1 + k = f.mb + k + f.eb - 1 := by
    rw [Nat.add_right_comm, Nat.sub_add_comm (Nat.le_add_right_of_le hmb)]
  rw [expField, expField, bits_div_two_pow, htop]
  rfl

theorem fracField_eq_mod (hmb : 0 < f.mb) : f.fracField w = w % 2 ^ f.mb := by
  rw [fracField, bits_low, Nat.sub_add_cancel hmb]

theorem fracField_longer (hmb : 0 < f.mb) : (f.longer k).fracField w = w % 2 ^ (f.mb + k) :=
  fracField_eq_mod w (Nat.add_pos_left hmb k)

theorem fracField_div_two_pow (hmb : 0 < f.mb) : f.fracField (w / 2 ^ k) = (f.longer k).fracField w / 2 ^ k := by
  rw [fracField_eq_mod _ hmb, fracField_longer k w hmb, Nat.add_comm, Nat.pow_add, Nat.mod_mul_right_div_self]

theorem fracField_two_pow_mul (hmb : 0 < f.mb) : (f.longer k).fracField (2 ^ k * w) = 2 ^ k * f.fracField w := by
  rw [fracField_eq_mod _ hmb, fracField_longer k _ hmb, Nat.add_comm, Nat.pow_add, Nat.mul_mod_mul_left]

end FFmt

/-! ## Appending and dropping fraction bits -/

/-- The same value, its mantissa written with `k` more zero bits. -/
def Num.appendZeros (k : Nat) : Num → Num
  | .fin a m e => .fin a (2 ^ k * m) (e - k)
  | v => v

/-- The significand with its hidden bit keeps that bit when the fraction is extended. -/
theorem significand_mul (k b m : Nat) : 2 ^ (b + k) + 2 ^ k * m = 2 ^ k * (2 ^ b + m) := by
  rw [Nat.mul_add, Nat.pow_add, Nat.mul_comm (2 ^ b)]

/-- The significand with its hidden bit keeps that bit when the fraction is truncated. -/
theorem significand_div (k b m : Nat) : (2 ^ (b + k) + m) / 2 ^ k = 2 ^ b + m / 2 ^ k := by
  rw [Nat.pow_add, Nat.mul_comm (2 ^ b), Nat.mul_add_div (Nat.two_pow_pos k)]

/-- The exponent of the last fraction bit falls by the number of bits appended. -/
theorem sub_natCast_add (x : Int) (b k : Nat) : x - ((b + k : Nat) : Int) = x - b - k := by
  rw [Int.natCast_add, Int.sub_sub]

namespace FFmt

variable {f : FFmt} (k : Nat)

theorem minE_longer : (f.longer k).minE = f.minE - k := sub_natCast_add (1 - f.bias) f.mb k

theorem ieeeValue_longer_normal {s : Bool} {e m : Nat} (he : e ≠ 2 ^ f.eb - 1) (hzero : e ≠ 0) :
    (f.longer k).ieeeValue s e m = .fin s (2 ^ (f.mb + k) + m) ((e : Int) - f.bias - f.mb - k) := by
  rw [← sub_natCast_add]
  exact ieeeValue_normal (f := f.longer k) he hzero

theorem ieeeValue_longer_mul (s : Bool) (e m : Nat) :
    (f.longer k).ieeeValue s e (2 ^ k * m) = (f.ieeeValue s e m).appendZeros k := by
  by_cases htop : e = 2 ^ f.eb - 1
  · rw [ieeeValue_top htop, ieeeValue_top (f := f.longer k) htop]
    by_cases hm : m = 0
    · rw [if_pos hm, if_pos (by rw [hm, Nat.mul_zero])]
      rfl
    · rw [if_neg hm, if_neg (Nat.mul_ne_zero (Nat.ne_of_gt (Nat.two_pow_pos k)) hm)]
      rfl
  · by_cases hsub : e = 0
    · rw [ieeeValue_subnormal htop hsub, ieeeValue_subnormal (f := f.longer k) htop hsub, minE_longer]
      rfl
    · rw [ieeeValue_normal htop hsub, ieeeValue_longer_normal k htop hsub, significand_mul]
      rfl

/-- Only finite values: a NaN whose set fraction bits are all dropped would turn into an infinity. -/
theorem ieeeValue_div_of_longer_fin {s a : Bool} {e m n : Nat} {x : Int} (h : (f.longer k).ieeeValue s e m = .fin a n x) :
    f.ieeeValue s e (m / 2 ^ k) = .fin a (n / 2 ^ k) (x + k) := by
  by_cases htop : e = 2 ^ f.eb - 1
  · rw [ieeeValue_top (f := f.longer k) htop] at h
    split at h <;> cases h
  · by_cases hsub : e = 0
    · rw [ieeeValue_subnormal (f := f.longer k) htop hsub] at h
      obtain ⟨rfl, rfl, rfl⟩ := Num.fin.inj h
      rw [ieeeValue_subnormal htop hsub, minE_longer, Int.sub_add_cancel]
    · rw [ieeeValue_longer_normal k htop hsub] at h
      obtain ⟨rfl, rfl, rfl⟩ := Num.fin.inj h
      rw [ieeeValue_normal htop hsub, significand_div, Int.sub_add_cancel]

theorem decode_longer_mul (htop : f.top = 0) (hmb : 0 < f.mb) (w : Nat) :
    (f.longer k).decode (2 ^ k * w) = (f.decode w).appendZeros k := by
  rw [decode_eq_ieeeValue _ htop, decode_eq_ieeeValue (f := f.longer k) _ htop, signField_longer, expField_longer k _ hmb,
    fracField_two_pow_mul k w hmb, Nat.mul_div_cancel_left w (Nat.two_pow_pos k), ieeeValue_longer_mul]

theorem decode_div_of_longer_fin (htop : f.top = 0) (hmb : 0 < f.mb) {v : Nat} {a : Bool} {m : Nat} {e : Int}
    (h : (f.longer k).decode v = .fin a m e) : f.decode (v / 2 ^ k) = .fin a (m / 2 ^ k) (e + k) := by
  rw [decode_eq_ieeeValue (f := f.longer k) _ htop, signField_longer, expField_longer k _ hmb] at h
  rw [decode_eq_ieeeValue _ htop, fracField_div_two_pow k v hmb]
  exact ieeeValue_div_of_longer_fin k h

end FFmt

/-! ## The obligation -/

/-- Settles O23: MW48 is FP32 with 16 more fraction bits, and the word ends in them, so appending 16 zero bits to the word extends the
fraction and dropping 16 bits truncates it. -/
theorem masterWeightsAndFP32 : Obligations.Master_weights_and_FP32 := by
  unfold Obligations.Master_weights_and_FP32
  rw [FFmt.mw48_eq_longer_fp32]
  constructor
  · intro w _
    rw [FFmt.decode_longer_mul 16 rfl (by decide) w]
    cases fp32.decode w <;> rfl
  · intro v a m e _ hfin
    exact FFmt.decode_div_of_longer_fin 16 rfl (by decide) hfin

end Sys2Proof.Machine
end

section
/-! Debug reads of a Hawk (05_hawk.md, R205 and R206): what the debug registers of an AU show a function, one equation for each of
the three answers that R206 gives, and the obligation O18 from them. -/

namespace Sys2Proof.Machine

section

variable {s : State} {f n off c l : Nat}

/-! ## What the registers show -/

theorem hawkDebug_of_unassigned (h : (s.au n).asg = none) :
    s.hawkDebug f n off = if off = 0x32C then 4096 * (s.dbgLine f n / 2048) else 0 := by
  simp only [State.hawkDebug, h]

theorem hawkDebug_of_denied (h : (s.au n).asg = some (c, l))
    (hdenied : ((s.ctx c).owner.any fun g => fnIsPf f && fnPort g == fnPort f) = false) :
    s.hawkDebug f n off = if off = 0x32C then 2 ^ 31 + 4096 * (s.dbgLine f n / 2048) else 0 := by
  simp only [State.hawkDebug, h, hdenied, Bool.false_eq_true, if_false]

theorem hawkDebug_data_of_granted (h : (s.au n).asg = some (c, l))
    (hgranted : ((s.ctx c).owner.any fun g => fnIsPf f && fnPort g == fnPort f) = true) (hdata : off ≠ 0x32C) :
    s.hawkDebug f n off = leNat (rdBytes (s.au n).hawk (s.dbgLine f n + (off - 0x340)) 4) := by
  simp only [State.hawkDebug, h, hgranted, if_true, if_neg hdata]

theorem execHawkDebugRead_of_barUp {f : FnId} {a : AuId} (hup : s.barUp = true) :
    execHawkDebugRead f a off s = .next { s with answer := natLe 4 (s.hawkDebug f a off) } := by
  simp only [execHawkDebugRead, hup, if_true]

/-! ## The tag register without a tag: SLOT alone, or SLOT and DENIED -/

/-- LINE of AU_HAWK_DBG_SEL has 17 bits, so SLOT has 12. -/
theorem dbgLine_slot_lt (s : State) (f n : Nat) : s.dbgLine f n / 2048 < 2 ^ 12 := by
  have := bits_lt (s.reg (AU_HAWK_DBG_SEL f n)) 22 6
  rw [State.dbgLine, State.fld_eq]
  omega

theorem leNat_natLe_four {v : Nat} (h : v < 2 ^ 32) : leNat (natLe 4 v) = v := by
  rw [leNat_natLe]
  exact Nat.mod_eq_of_lt h

theorem tagWord_of_slot {slot : Nat} (h : slot < 2 ^ 12) :
    bit (leNat (natLe 4 (4096 * slot))) 31 = false ∧ bits (leNat (natLe 4 (4096 * slot))) 1 0 = 0 := by
  rw [leNat_natLe_four (by omega)]
  simp only [bit, bits, beq_eq_false_iff_ne]
  omega

theorem tagWord_denied {slot : Nat} (h : slot < 2 ^ 12) : bit (leNat (natLe 4 (2 ^ 31 + 4096 * slot))) 31 = true := by
  rw [leNat_natLe_four (by omega)]
  simp only [bit, beq_iff_eq]
  omega

end

/-! ## The obligation -/

/-- Settles O18: the three cases are the three branches of `State.hawkDebug`, each read once at a data word and once at the tag
register. -/
theorem whoMayReadAHawkForDebugging : Obligations.Who_may_read_a_Hawk_for_debugging := by
  unfold Obligations.Who_may_read_a_Hawk_for_debugging
  rintro f a s w hup ⟨hlo, -⟩
  have hdata : w ≠ 0x32C := by omega
  have hslot := dbgLine_slot_lt s f a
  refine ⟨_, _, execHawkDebugRead_of_barUp hup, execHawkDebugRead_of_barUp hup, ?unassigned, ?denied, ?granted⟩
  case unassigned =>
    intro h
    rw [hawkDebug_of_unassigned h, hawkDebug_of_unassigned h, if_neg hdata, if_pos rfl]
    exact ⟨rfl, tagWord_of_slot hslot⟩
  case denied =>
    intro c l h hdenied
    rw [hawkDebug_of_denied h hdenied, hawkDebug_of_denied h hdenied, if_neg hdata, if_pos rfl]
    exact ⟨rfl, tagWord_denied hslot⟩
  case granted =>
    rintro c l g h howner ⟨hpf, hport⟩
    rw [hawkDebug_data_of_granted h (by simp [howner, hpf, hport]) hdata]

end Sys2Proof.Machine
end

section
/-! Slot visits, hot banks and errors of a Hawk (05_hawk.md): what a visit's begin and end leave of a slot's tag and of the
Stencil, which registers a window of hot banks and an error change, and the obligation O35 from them. -/

namespace Sys2Proof.Machine

section

variable {s : State} {a : AuId} {g : AgentId} {n c l : Nat}

/-! ## The tag of a slot and the slot of a Stencil (R193) -/

@[simp] theorem Au.tag_putTag_same (x : Au) (k : Nat) (t : SlotTag) : (x.putTag k t).tag k = t := mget_mset_same _ _ _ _
@[simp] theorem Au.tag_putStn (x : Au) (st : Nat) (y : StnSlot) (k : Nat) : (x.putStn st y).tag k = x.tag k := rfl
@[simp] theorem Au.stn_putStn_same (x : Au) (st : Nat) (y : StnSlot) : (x.putStn st y).stn st = y := mget_mset_same _ _ _ _

/-! ## Visits (R196, R197) -/

/-- The AU once its Stencil st, with `moved` bytes moved, has begun a visit to a slot. -/
def Au.enterSlot (x : Au) (st slot moved : Nat) (write : Bool) : Au :=
  (x.putTag slot ((x.tag slot).begin write)).putStn st { x.stn st with visit := some (slot, moved), waitSlot := none }

theorem Au.tag_enterSlot (x : Au) (st slot moved : Nat) (write : Bool) :
    (x.enterSlot st slot moved write).tag slot = (x.tag slot).begin write := by
  simp [Au.enterSlot]

theorem Au.visit_enterSlot (x : Au) (st slot moved : Nat) (write : Bool) :
    ((x.enterSlot st slot moved write).stn st).visit = some (slot, moved) := by
  simp [Au.enterSlot]

/-- A tagged Stencil that is not within a visit to the slot of its next access ends the visit it is in, if any, and enters the
slot where the tag lets it. -/
theorem beginStnVisit_of_canBegin {st o : Nat} (hnext : s.stnHawkNext n st = some o)
    (htag : (stnDesc ((s.au n).stn st).desc).tag ≠ 0)
    (hout : s.stnInVisit n st (o / 2048) = false)
    (hbegin : (((s.au n).endStnVisit st).tag (o / 2048)).canBegin (stnDesc ((s.au n).stn st).desc).write = true) :
    s.beginStnVisit n st = (s.modAu n fun x => x.endStnVisit st).modAu n fun x =>
      x.enterSlot st (o / 2048) ((s.au n).stn st).moved (stnDesc ((s.au n).stn st).desc).write := by
  simp only [State.beginStnVisit, hnext, htag, hout, State.au_modAu, hbegin, Bool.false_eq_true, or_self, if_true, if_false]
  rfl

theorem execSlotVisitBegin_of_stencil (hlive : s.live a = some (c, l)) (hstn : g.val < 16) :
    execSlotVisitBegin a g s = .next ((s.beginStnVisit a g).progress c) := by
  simp only [execSlotVisitBegin, hlive, if_pos hstn]

theorem Au.endStnVisit_of_visit {x : Au} {st k p : Nat} (h : (x.stn st).visit = some (k, p)) :
    x.endStnVisit st = (x.putTag k ((x.tag k).finish (stnDesc (x.stn st).desc).write (stnDesc (x.stn st).desc).ncons)).putStn st
      { x.stn st with visit := none } := by
  simp only [Au.endStnVisit, h]

theorem execSlotVisitEnd_of_over (hlive : s.live a = some (c, l)) (hstn : g.val < 16) (hover : s.stnVisitOver a g = true) :
    execSlotVisitEnd a g s = .next ((s.modAu a fun x => x.endStnVisit g).progress c) := by
  simp only [execSlotVisitEnd, hlive, if_pos hstn, hover, if_true]

/-! ## A wait on a slot (R201) -/

theorem execSlotTimeout_of_stencil {u slot since e : Nat} (hlive : (s.at u).live a = some (c, l)) (hstn : g.val < 16)
    (hwait : (((s.at u).au a).stn g).waitSlot = some (slot, since, e)) :
    execSlotTimeout a g u s = .next (if since + cyclesNs (2 ^ e) ≤ u
      then (s.at u).slotTimeout a a slot (if (stnDesc (((s.at u).au a).stn g).desc).write then 1 else 0) g (2 ^ e)
      else s.at u) := by
  simp only [execSlotTimeout, hlive, if_pos hstn, hwait]

/-! ## Hot banks (R189) -/

/-- AU_HAWK_HOT's word for the banks hs. -/
def hotWord (hs : List Nat) : Nat := hs.foldl (fun w b => w + 2 ^ b) 0

/-- The registers after a window in which the banks hs of AU n were hot. -/
def State.showHot (s : State) (n : Nat) (hs : List Nat) : State :=
  let s1 := (s.setReg (AU_HAWK_HOT n) (hotWord hs)).count (AU_HAWK_EVT_CNT n) 23 16 hs.length
  match hs.getLast? with
  | none => s1
  | some b => (s1.setFld (AU_HAWK_STATUS n) 1 1 1).setReg MEM_HOT_LAST (2 ^ 31 + 2 ^ 22 * n + b)

/-- HOT_BANK of AU n raised for each of the banks bs. -/
def State.raiseHot (s : State) (n : Nat) (bs : List Nat) : State :=
  bs.foldl (fun x b => x.raise 0x0310 .all [(0, 1, 0), (1, 1, n), (2, 1, 0), (3, 1, b)]) s

theorem execHawkHotWindowEnd_eq (a : AuId) (banks : List Nat) (u : Nat) (s : State) :
    let hs := (List.range 32).filter fun b => banks.contains b
    let run := (List.range 32).foldl (fun m b => hotStep (banks.contains b) m b) (s.au a).hotRun
    execHawkHotWindowEnd a banks u s = .next ((((s.at u).modAu a fun x => { x with hotRun := run }).showHot a hs).raiseHot a
      (hs.filter fun b => mget 0 run b == 4)) := rfl

theorem showHot_frame (s : State) (n : Nat) (hs : List Nat) : (s.showHot n hs).aus = s.aus ∧ (s.showHot n hs).now = s.now := by
  unfold State.showHot
  split <;> simp

/-- Neither the counter, the status nor MEM_HOT_LAST is AU_HAWK_HOT. -/
theorem reg_showHot (s : State) (n : Nat) (hs : List Nat) (hn : n < 192) :
    (s.showHot n hs).reg (AU_HAWK_HOT n) = hotWord hs % 2 ^ 32 := by
  have hcnt : AU_HAWK_HOT n ≠ AU_HAWK_EVT_CNT n := by unfold AU_HAWK_HOT AU_HAWK_EVT_CNT; omega
  have hstatus : AU_HAWK_HOT n ≠ AU_HAWK_STATUS n := by unfold AU_HAWK_HOT AU_HAWK_STATUS; omega
  have hlast : AU_HAWK_HOT n ≠ MEM_HOT_LAST := by unfold AU_HAWK_HOT MEM_HOT_LAST; omega
  unfold State.showHot
  split
  · rw [State.reg_count_ne _ _ _ _ _ _ hcnt, State.reg_setReg]
  · rw [State.reg_setReg_ne _ _ _ _ hlast, State.reg_setFld_ne _ _ _ _ _ _ hstatus, State.reg_count_ne _ _ _ _ _ _ hcnt,
      State.reg_setReg]

theorem raiseHot_frame (s : State) (n : Nat) (bs : List Nat) :
    (s.raiseHot n bs).aus = s.aus ∧ (s.raiseHot n bs).now = s.now ∧
      ∀ k, 0x400000 ≤ k → k < 0x1000000 → (s.raiseHot n bs).reg k = s.reg k := by
  induction bs generalizing s with
  | nil => exact ⟨rfl, rfl, fun _ _ _ => rfl⟩
  | cons b bs ih =>
    obtain ⟨haus, hnow, hreg⟩ := ih (s.raise 0x0310 .all [(0, 1, 0), (1, 1, n), (2, 1, 0), (3, 1, b)])
    exact ⟨haus.trans (State.raise_aus ..), hnow.trans (State.raise_now ..),
      fun k hlo hhi => (hreg k hlo hhi).trans (State.reg_raise_all hhi hlo)⟩

/-! ## Errors (R192) -/

/-- A W1C bit that has been set reads 1 while its counter counts in another register (R670). -/
theorem fld_flagCount_flag (s : State) {k b kc hi lo : Nat} (hb : b < 32) (hne : k ≠ kc) :
    (s.flagCount k b kc hi lo).fld k b b = 1 := by
  unfold State.flagCount
  rw [State.fld_of_reg (State.reg_count_ne _ _ _ _ _ _ hne), State.fld_setFld _ _ _ _ _ hb, Nat.add_sub_cancel_left,
    Nat.pow_one]

/-- The registers of an uncorrected error in a Hawk. -/
def State.eccUncorr (s : State) (n : Nat) : State :=
  ((s.setFld (AU_HAWK_STATUS n) 3 3 1).count (AU_HAWK_ECC n) 31 16 1).total 3 1

theorem ecc_ne_status (n : Nat) : AU_HAWK_ECC n ≠ AU_HAWK_STATUS n := by unfold AU_HAWK_ECC AU_HAWK_STATUS; omega

theorem status_eccUncorr (s : State) (n : Nat) : (s.eccUncorr n).fld (AU_HAWK_STATUS n) 3 3 = 1 := by
  rw [State.eccUncorr, State.fld_total]
  exact fld_flagCount_flag s (by decide) (ecc_ne_status n).symm

theorem ecc_eccUncorr (s : State) (n : Nat) :
    (s.eccUncorr n).fld (AU_HAWK_ECC n) 31 16 = satAdd 0xFFFF (s.fld (AU_HAWK_ECC n) 31 16) 1 := by
  rw [State.eccUncorr, State.fld_total, ← State.fld_setFld_ne s _ _ 3 3 _ _ 1 (ecc_ne_status n)]
  exact State.fld_count _ _ _ _ _ (by decide)

/-- The registers of MEM_UNCORR. -/
def State.countUncorr (s : State) : State := s.flagCount MEM_STATUS 0 MEM_EVT_CNT0 31 24

theorem execHawkEccError_of_unassigned {off : Nat} (h : (s.au a).asg = none) : ∃ pay,
    execHawkEccError a off true s = .next ((s.eccUncorr a).countUncorr.raise 0x0302 .all pay) := by
  unfold execHawkEccError
  rw [h]
  exact ⟨_, rfl⟩

/-- MEM_UNCORR leaves the registers of the AUs alone but for those that its event writes. -/
theorem fld_uncorr_event {k : Nat} {pay : List (Nat × Nat × Nat)} (hlo : 0x800000 ≤ k) (hhi : k < 0xE00000) (hi lo : Nat) :
    (s.countUncorr.raise 0x0302 .all pay).fld k hi lo = s.fld k hi lo := by
  rw [State.fld_of_reg (State.reg_raise_all (by omega) (by omega))]
  exact State.fld_of_reg (State.reg_flagCount_ne _ _ _ _ _ _ _ (by unfold MEM_STATUS; omega) (by unfold MEM_EVT_CNT0; omega)) hi lo

theorem memStatus_uncorr_event {pay : List (Nat × Nat × Nat)} : (s.countUncorr.raise 0x0302 .all pay).fld MEM_STATUS 0 0 = 1 := by
  rw [State.fld_of_reg (State.reg_raise_all (by decide) (by decide))]
  exact fld_flagCount_flag s (by decide) (by decide)

end

/-! ## The obligation -/

/-- Settles O35: in each clause the command takes the branch of its meaning that the clause's hypotheses name, and what is read
afterwards is what that branch wrote last. -/
theorem hawkSlotsAndErrors : Obligations.Hawk_slots_and_errors := by
  unfold Obligations.Hawk_slots_and_errors
  refine ⟨?visitBegin, ?visitEnd, ?timeout, ?timeoutEarly, ?hotWindow, ?eccCorrected, ?eccUncorrected, ?debugRead⟩
  case visitBegin =>
    rintro a g s c l o ⟨hlive, hstn, hnext, htag, hout⟩ hbegin
    refine ⟨_, execSlotVisitBegin_of_stencil hlive hstn, ?_⟩
    rw [beginStnVisit_of_canBegin hnext htag hout hbegin, State.au_progress, State.au_modAu, State.au_modAu]
    exact ⟨Au.tag_enterSlot .., Au.visit_enterSlot ..⟩
  case visitEnd =>
    rintro a g s c l k p ⟨hlive, hstn, hover, hvisit⟩
    refine ⟨_, execSlotVisitEnd_of_over hlive hstn hover, ?_⟩
    rw [State.au_progress, State.au_modAu, Au.endStnVisit_of_visit hvisit]
    simp
  case timeout =>
    rintro a g u s c l slot since e ⟨hlive, hstn, hwait, hlasted⟩
    exact ⟨_, execSlotTimeout_of_stencil hlive hstn hwait, if_pos hlasted⟩
  case timeoutEarly =>
    rintro a g u s c l slot since e ⟨hlive, hstn, hwait, hearly⟩
    exact ⟨_, execSlotTimeout_of_stencil hlive hstn hwait, if_neg (Nat.not_le.mpr hearly)⟩
  case hotWindow =>
    intro a banks u s
    obtain ⟨haus, hnow, hreg⟩ := raiseHot_frame (((s.at u).modAu a fun x => { x with
      hotRun := (List.range 32).foldl (fun m b => hotStep (banks.contains b) m b) (s.au a).hotRun }).showHot a
      ((List.range 32).filter fun b => banks.contains b)) a _
    refine ⟨_, execHawkHotWindowEnd_eq a banks u s, ?_, ?_, ?_⟩
    · rw [hreg _ (by unfold AU_HAWK_HOT; omega) (by unfold AU_HAWK_HOT; omega)]
      exact reg_showHot _ _ _ a.isLt
    · rw [State.au_of_aus haus, State.au_of_aus (showHot_frame ..).1, State.au_modAu]
    · rw [hnow, (showHot_frame ..).2]
      rfl
  case eccCorrected =>
    intro a off s
    refine ⟨(s.count (AU_HAWK_ECC a) 15 0 1).total 2 1, rfl, ?_⟩
    rw [State.fld_total]
    exact State.fld_count _ _ _ _ _ (by decide)
  case eccUncorrected =>
    intro a off s h
    obtain ⟨pay, hexec⟩ := execHawkEccError_of_unassigned (off := off) h
    have ha := a.isLt
    refine ⟨_, hexec, ?_, ?_, memStatus_uncorr_event⟩
    · rw [fld_uncorr_event (by unfold AU_HAWK_STATUS; omega) (by unfold AU_HAWK_STATUS; omega), status_eccUncorr]
    · rw [fld_uncorr_event (by unfold AU_HAWK_ECC; omega) (by unfold AU_HAWK_ECC; omega), ecc_eccUncorr]
  case debugRead =>
    intro f a off s
    exact ⟨_, rfl, rfl, rfl⟩

end Sys2Proof.Machine
end

section
/-! Windows and what arrives at them (05_hawk.md, R213; 10_omwen_links.md, R408 to R412): one equation for each branch of the
windows' commands that the statement speaks of, what it leaves of windows and accepted accesses, and the obligation O57 from them. -/

namespace Sys2Proof.Machine

section

variable {s : State} {c k id : Nat} {cmd : Cmd} {a : Accept} {i : Nat} {w : Window}

/-! ## Opening (R407 to R409) -/

/-- The window that an OPEN_WINDOW descriptor of context c describes (Table 10.8), in generation g. -/
def openedWindow (c : Nat) (d : List Byte) (g : Nat) : Window :=
  { st := .open_, gen := g, ctx := c, canWrite := bit (byteAt d 4) 0, canRead := bit (byteAt d 4) 1, tagMode := bits (byteAt d 5) 3 0,
    ncons := bits (byteAt d 5) 7 4, flag := byteAt d 6, flagEn := bit (byteAt d 7) 0, group := fieldLe d 8 2, expect := fieldLe d 12 4,
    lbuf := bits (fieldLe d 16 8) 63 52, off := bits (fieldLe d 16 8) 51 0, size := fieldLe d 24 8, count := 0, closing := false }

/-- The state with window w in index i, and its generation the index's last. -/
def State.addWindow (s : State) (i : Nat) (w : Window) : State :=
  { s with links := { s.links with windows := mput s.links.windows i w, gens := mput s.links.gens i w.gen } }

theorem execOpenWindow_of_free {c : CtxId} (hcmd : s.cmdAt c k = some cmd) (hop : byteAt cmd.desc 0 = 0x06)
    (hserves : s.serves 0x06 = true) (hgood : (s.ctx c).openBad cmd.desc = false) (hfree : s.freeWindow = some i) :
    execOpenWindow c k s = .next ((s.addWindow i (openedWindow c cmd.desc (nextGen (mget 0 s.links.gens i)))).complete c k 0x00
      (2 ^ 16 * nextGen (mget 0 s.links.gens i) + i)) := by
  unfold execOpenWindow
  rw [onCmd_eq hcmd hop hserves]
  simp only [hgood, hfree, Bool.false_eq_true, if_false]
  rfl

theorem sameRings_addWindow (s : State) (i : Nat) (w : Window) (c : Nat) : SameRings s (s.addWindow i w) c :=
  ⟨rfl, rfl, rfl, rfl, fun _ _ _ => rfl⟩

theorem window_complete_addWindow (st res : Nat) : mfind ((s.addWindow i w).complete c k st res).links.windows i = some w := by
  rw [links_complete]
  exact mfind_mput_same ..

/-! ## Closing (R411) -/

theorem State.cmds_complete (s : State) (c k st res : Nat) :
    ((s.complete c k st res).ctx c).ring.cmds = (s.ctx c).ring.cmds.eraseIdx k := by
  obtain ⟨_, _, _, _, _, h⟩ := State.ctx_complete (s := s) c k st res
  rw [h]

theorem State.modWindow_eq (s : State) (i : Nat) (f : Window → Window) :
    ∃ ws, s.modWindow i f = { s with links := { s.links with windows := ws } } := by
  unfold State.modWindow
  split
  · exact ⟨_, rfl⟩
  · exact ⟨_, rfl⟩

theorem tryClose_of_idle (hidle : ∀ e ∈ s.links.accepts, e.2.win ≠ i) :
    s.tryClose c k i = ({ s with links := { s.links with windows := mdel s.links.windows i } } : State).complete c k 0x00 0 := by
  unfold State.tryClose
  rw [if_neg (by simpa using hidle)]

theorem window_tryClose_of_idle (hidle : ∀ e ∈ s.links.accepts, e.2.win ≠ i) :
    mfind (s.tryClose c k i).links.windows i = none := by
  rw [tryClose_of_idle hidle, links_complete]
  exact mfind_mdel_same ..

theorem cmds_tryClose_of_idle (hidle : ∀ e ∈ s.links.accepts, e.2.win ≠ i) :
    ((s.tryClose c k i).ctx c).ring.cmds = (s.ctx c).ring.cmds.eraseIdx k := by
  rw [tryClose_of_idle hidle, State.cmds_complete]
  rfl

/-- The state once CLOSE_WINDOW has started: the window is DRAINING and the command waits for it. -/
def State.startClose (s : State) (c k i : Nat) : State :=
  (s.modWindow i fun w => { w with st := .draining, closing := true }).setPhase c k (.underway i 0)

theorem accepts_startClose (s : State) (c k i : Nat) : (s.startClose c k i).links.accepts = s.links.accepts := by
  obtain ⟨ws, h⟩ := s.modWindow_eq i fun w => { w with st := .draining, closing := true }
  rw [State.startClose, h, State.setPhase_links]

theorem cmds_startClose (s : State) (c k i : Nat) :
    ((s.startClose c k i).ctx c).ring.cmds.eraseIdx k = (s.ctx c).ring.cmds.eraseIdx k := by
  obtain ⟨ws, h⟩ := s.modWindow_eq i fun w => { w with st := .draining, closing := true }
  rw [State.startClose, h, State.setPhase, State.ctx_modCtx]
  exact eraseIdx_modify ..

theorem execCloseWindow_of_open {c : CtxId} (hcmd : s.cmdAt c k = some cmd) (hop : byteAt cmd.desc 0 = 0x07)
    (hserves : s.serves 0x07 = true) (hphase : cmd.phase = .started) (hzero : zeroIn cmd.desc 8 64 = true)
    (hwin : s.handleWin (fieldLe cmd.desc 4 4) = some (i, w)) (hopen : w.st = .open_) (hctx : w.ctx = c) :
    execCloseWindow c k s = .next ((s.startClose c k i).tryClose c k i) := by
  unfold execCloseWindow
  rw [onCmd_eq hcmd hop hserves]
  simp only [hphase, hzero, hwin, hopen, hctx, Bool.not_true, Bool.false_eq_true, and_self, if_false, if_true]
  rfl

/-! ## Arrivals (R412) -/

/-- The state with one more accepted access: that of t at window i. -/
def State.noteAccept (s : State) (i : Nat) (t : LTxn) : State :=
  { s with links := { s.links with
    accepts := mput s.links.accepts s.links.nextAccept ⟨i, t, 0, s.now, []⟩, nextAccept := s.links.nextAccept + 1 } }

theorem execWindowArrival_of_accept {n p : Nat} {t : LTxn} {u : State} (hinbox : s.links.inbox[n]? = some (p, t))
    (hself : s.isSelf t.hdr.dst = true) (htake : s.takeInbox n [1, 2] = some (p, t, u))
    (hnew : u.seenTseq t.hdr.org t.hdr.tseq = false) (hfenced : u.links.fenced.contains t.hdr.org = false)
    (haccept : u.winCheck t.hdr.handle t.hdr.org t.hdr.offset t.hdr.length (t.hdr.op == 1) = .accept i w) :
    execWindowArrival n s = .next (u.noteAccept i t) := by
  simp only [execWindowArrival, hinbox, hself, htake, hnew, hfenced, haccept, Bool.not_true, Bool.false_eq_true, or_self, if_false]
  rfl

/-! ## A write to virtual memory (R410, R412) -/

theorem virtAccess_of_written {va : Nat} {u : State} (hop : a.t.hdr.op = 1) (hlen : a.t.hdr.length ≠ 0)
    (hwrite : s.vwrite w.ctx va a.t.data = .ok u) :
    s.virtAccess id w a va = (u.winWritten a.win a.t.hdr.length).settle id 4 0 0 [] := by
  simp only [State.virtAccess, hop, hlen, hwrite, State.acceptDone, BEq.rfl, if_true, if_false]

theorem execWindowWriteComplete_of_virt {va : Nat} (haccept : mfind s.links.accepts id = some a)
    (hwin : mfind s.links.windows a.win = some w) (hroom : s.mboxFull w.ctx = false)
    (hlocate : (s.ctx w.ctx).locate w.lbuf (w.off + a.t.hdr.offset) = some (.virt va)) :
    execWindowWriteComplete id s = .next (s.virtAccess id w a va) := by
  simp only [execWindowWriteComplete, haccept, hwin, hroom, hlocate, Bool.false_eq_true, if_false]

/-! ## An access that a slot holds (R213) -/

/-- The state once a slot of AU n has held an access too long: REMOTE_REFUSED is set and counted. -/
def State.refuseRemote (s : State) (n : Nat) : State := s.flagCount (AU_HAWK_STATUS n) 2 (AU_HAWK_EVT_CNT n) 15 0

/-- A held access is answered with SLOT_BUSY at the first byte not done, by COMPLETE or READ_DATA. -/
theorem execSlotBusy_of_held {τ n o : Nat} (haccept : mfind s.links.accepts id = some a) (hwin : mfind s.links.windows a.win = some w)
    (htag : w.tagMode ≠ 0) (hleft : a.done < a.t.hdr.length) (hlong : a.since + 40000 ≤ τ)
    (hlocate : (s.ctx w.ctx).locate w.lbuf (w.off + a.t.hdr.offset + a.done) = some (.hawk n o))
    (hheld : ((s.au n).tag (o / 2048)).canBegin (a.t.hdr.op == 1) = false) :
    ∃ op data, execSlotBusy id τ s = .next (((s.at τ).refuseRemote n).settle id op 0x42 (a.t.hdr.offset + a.done) data) := by
  have hctx : (s.at τ).ctx w.ctx = s.ctx w.ctx := rfl
  have hau : (s.at τ).au n = s.au n := rfl
  simp only [execSlotBusy, State.at_links, haccept, hwin, htag, hleft, hlong, hctx, hlocate, hau, hheld, ne_eq, not_false_eq_true,
    and_self, if_true, Bool.false_eq_true, if_false]
  split
  · exact ⟨_, _, rfl⟩
  · exact ⟨_, _, rfl⟩

theorem hawkStatus_ne_lnkEvtCnt (n : Nat) : AU_HAWK_STATUS n ≠ LNK_EVT_CNT := by
  unfold AU_HAWK_STATUS LNK_EVT_CNT
  omega

theorem hawkStatus_refuseRemote (s : State) (n : Nat) : (s.refuseRemote n).fld (AU_HAWK_STATUS n) 2 2 = 1 :=
  fld_flagCount_flag s (by decide) (by unfold AU_HAWK_STATUS AU_HAWK_EVT_CNT; omega)

end

/-! ## The obligation -/

/-- Settles O57: in each clause the command takes the branch of its meaning that the clause's hypotheses name. -/
theorem windowsAndArrivals : Obligations.Windows_and_arrivals := by
  unfold Obligations.Windows_and_arrivals
  refine ⟨?openWindow, ?closeWindow, ?arrival, ?writeComplete, ?slotBusy⟩
  case openWindow =>
    rintro c k s cmd i ⟨hcmd, hop, hserves⟩ ⟨hgood, hfree⟩
    refine ⟨_, execOpenWindow_of_free hcmd hop hserves hgood hfree, ?_, window_complete_addWindow ..⟩
    exact (sameRings_addWindow ..).done (State.done_complete _ _ hcmd)
  case closeWindow =>
    rintro c k s cmd i w ⟨hcmd, hop, hserves, hphase⟩ ⟨hzero, hwin, hopen, hctx⟩ hidle
    rw [← accepts_startClose s c k i] at hidle
    refine ⟨_, execCloseWindow_of_open hcmd hop hserves hphase hzero hwin hopen hctx, window_tryClose_of_idle hidle, ?_⟩
    rw [cmds_tryClose_of_idle hidle, cmds_startClose]
  case arrival =>
    rintro n s p t u i w ⟨hinbox, hself, htake⟩ ⟨hnew, hfenced⟩ haccept
    exact ⟨_, execWindowArrival_of_accept hinbox hself htake hnew hfenced haccept, mfind_mput_same .., rfl, rfl⟩
  case writeComplete =>
    rintro id s a w va u ⟨haccept, hwin, hroom⟩ hlocate ⟨hop, hlen, hwrite⟩
    refine ⟨_, execWindowWriteComplete_of_virt haccept hwin hroom hlocate, virtAccess_of_written hop hlen hwrite, ?_⟩
    rw [virtAccess_of_written hop hlen hwrite]
    exact accepts_settle ..
  case slotBusy =>
    rintro id τ s a w n o ⟨haccept, hwin⟩ ⟨htag, hleft, hlong⟩ hlocate hheld
    obtain ⟨op, data, hexec⟩ := execSlotBusy_of_held haccept hwin htag hleft hlong hlocate hheld
    obtain ⟨haus, hnow⟩ := settle_frame ((s.at τ).refuseRemote n) id op 0x42 (a.t.hdr.offset + a.done) data
    refine ⟨_, hexec, accepts_settle .., hnow, ?_, haus⟩
    rw [State.fld_of_reg (reg_settle _ _ _ _ _ _ _ (hawkStatus_ne_lnkEvtCnt n)), hawkStatus_refuseRemote]

end Sys2Proof.Machine
end

section
/-! The undercoat store (06_coats.md, R230 and R231): a run of free granules as a predicate, the starts that `lowestRun` chooses
among as the starts of such runs, the granted coats that `baseCoat` chooses among, and the obligation O21 from them. -/

namespace Sys2Proof.Machine

section

variable {gs : List (Nat × Nat)} {total n p p' : Nat}

/-! ## Free runs -/

/-- The granules p to p + n - 1 of the store are free. -/
def FreeRun (gs : List (Nat × Nat)) (total n p : Nat) : Prop := ∀ q, p ≤ q → q < p + n → freeGran gs total q

theorem not_freeRun_iff : ¬ FreeRun gs total n p ↔
    ∃ q, p ≤ q ∧ q < p + n ∧ (total ≤ q ∨ ∃ g ∈ gs, g.1 ≤ q ∧ q < g.1 + g.2) := by
  simp only [FreeRun, freeGran, Classical.not_forall, Classical.not_and_iff_not_or_not, not_or, exists_prop,
    Nat.not_lt, Nat.not_le]

/-- The starts of runs, among the store's start and the ends of grants, that `lowestRun` chooses from. -/
def freeStarts (gs : List (Nat × Nat)) (total n : Nat) : List Nat :=
  (runStarts gs).filter fun p => decide (n ≤ freeFrom gs total p) && decide (p ≤ total)

theorem mem_freeStarts_iff (hn : 0 < n) : p ∈ freeStarts gs total n ↔ p ∈ runStarts gs ∧ FreeRun gs total n p := by
  have hbound : FreeRun gs total n p → p ≤ total := fun h => Nat.le_of_lt (h p (Nat.le_refl p) (by omega)).1
  simp only [freeStarts, List.mem_filter, Bool.and_eq_true, decide_eq_true_eq, freeFrom_iff gs total p n hn]
  exact and_congr_right fun _ => ⟨And.left, fun h => ⟨h, hbound h⟩⟩

theorem lowestRun_eq_min? (gs : List (Nat × Nat)) (total n : Nat) : lowestRun gs total n = (freeStarts gs total n).min? := by
  unfold lowestRun freeStarts
  split
  · next h => rw [h, List.min?_nil]
  · next h => rw [h, List.min?_cons']

/-! ## The run given (R230) -/

theorem freeRun_of_lowestRun (hn : 0 < n) (h : lowestRun gs total n = some p) : FreeRun gs total n p := by
  rw [lowestRun_eq_min?] at h
  exact ((mem_freeStarts_iff hn).1 (List.min?_mem h)).2

/-- Every free run begins at or after a free run at one of the starts. -/
theorem exists_freeStart_le (hn : 0 < n) (h : FreeRun gs total n p') : ∃ p ∈ freeStarts gs total n, p ≤ p' := by
  obtain ⟨p, hstart, hle, hfree⟩ := start_exists gs total n hn p' h
  exact ⟨p, (mem_freeStarts_iff hn).2 ⟨hstart, hfree⟩, hle⟩

theorem lowestRun_le_of_freeRun (hn : 0 < n) (h : lowestRun gs total n = some p) (hfree : FreeRun gs total n p') : p ≤ p' := by
  obtain ⟨p₀, hmem, hle⟩ := exists_freeStart_le hn hfree
  rw [lowestRun_eq_min?, List.min?_eq_some_iff] at h
  exact Nat.le_trans (h.2 p₀ hmem) hle

theorem not_freeRun_of_lowestRun_none (hn : 0 < n) (h : lowestRun gs total n = none) : ¬ FreeRun gs total n p' := by
  intro hfree
  obtain ⟨p₀, hmem, -⟩ := exists_freeStart_le hn hfree
  rw [lowestRun_eq_min?, List.min?_eq_none_iff] at h
  exact List.ne_nil_of_mem hmem h

/-! ## The base coat (R231) -/

/-- The coats below c whose entry in slot m is GRANTED. -/
def CoatSt.grantedBelow (x : CoatSt) (coats c m : Nat) : List Nat :=
  (List.range c).filter fun b => match mfind x.entries (stashIndex coats b m) with | some e => e.granted | none => false

theorem mem_grantedBelow_iff {x : CoatSt} {coats c m b : Nat} : b ∈ x.grantedBelow coats c m ↔
    b < c ∧ ∃ e, mfind x.entries (stashIndex coats b m) = some e ∧ e.granted = true := by
  rw [CoatSt.grantedBelow, List.mem_filter, List.mem_range]
  refine and_congr_right fun _ => ?_
  cases mfind x.entries (stashIndex coats b m) with
  | none => simp only [reduceCtorEq, false_and, exists_false, Bool.false_eq_true]
  | some e => simp only [Option.some.injEq, exists_eq_left']

theorem baseCoat_eq_foldl_max (x : CoatSt) (coats c m : Nat) : x.baseCoat coats c m = (x.grantedBelow coats c m).foldl max 0 :=
  rfl

end

/-! ## The obligation -/

/-- Settles O21: `lowestRun` is the least start of a free run, and `baseCoat` the greatest granted coat below. -/
theorem theUndercoatStoreGivesTheLowestRun : Obligations.The_undercoat_store_gives_the_lowest_run := by
  unfold Obligations.The_undercoat_store_gives_the_lowest_run
  refine ⟨fun gs total n hn => ⟨fun p hp => ⟨freeRun_of_lowestRun hn hp, fun p' hlt => not_freeRun_iff.1 fun hfree => ?lower⟩,
    fun hnone p' => not_freeRun_iff.1 (not_freeRun_of_lowestRun_none hn hnone)⟩, fun x coats c m => ?base⟩
  case lower => exact absurd (lowestRun_le_of_freeRun hn hp hfree) (by omega)
  case base =>
    obtain ⟨-, hupper, hattained⟩ := foldl_max (x.grantedBelow coats c m) 0
    rw [baseCoat_eq_foldl_max]
    exact ⟨fun b hb e he hgranted => hupper b (mem_grantedBelow_iff.2 ⟨hb, e, he, hgranted⟩), hattained.imp_right mem_grantedBelow_iff.1⟩

end Sys2Proof.Machine
end

section
/-! The stash manager's answers (06_coats.md, R229 and R230) and the monitors of a context (12_contexts.md, R517 and R520): what
each command does in the branches that the statement speaks of, and the obligation O51 from them. -/

namespace Sys2Proof.Machine

section

variable {s : State} {c : CtxId} {coat m tva dva : Nat}

/-! ## The stash manager (R229, R230) -/

/-- The coat table of context c lies at tva and names a directory at dva that has an entry for a coat in slot m; the table may be
read and the entry written. -/
structure StashEntryAt (s : State) (c coat m tva dva : Nat) : Prop where
  table : (s.ctx c).coatVa = some tva
  directory : (s.ctx c).baseVa (fieldLe (s.vpeek c tva 64) 24 8) = some dva
  readable : (s.ctx c).checkAll false ([(tva, 64)].map fun r => pagesOf r.1 r.2).flatten = .ok ()
  writable : (s.ctx c).checkAll true
    ([(dva + 16 * stashIndex (fieldLe (s.vpeek c tva 64) 16 2) coat m, 16)].map fun r => pagesOf r.1 r.2).flatten = .ok ()
  notBase : coat ≠ 0
  coatLt : coat < fieldLe (s.vpeek c tva 64) 16 2
  slotLt : m < fieldLe (s.vpeek c tva 64) 18 2

theorem StashEntryAt.inTable (h : StashEntryAt s c coat m tva dva) :
    ¬ (coat = 0 ∨ fieldLe (s.vpeek c tva 64) 16 2 ≤ coat ∨ fieldLe (s.vpeek c tva 64) 18 2 ≤ m) := by
  have := h.notBase
  have := h.coatLt
  have := h.slotLt
  omega

theorem execStashRequest_of_new {i : Nat} (h : StashEntryAt s c coat m tva dva)
    (hi : i = stashIndex (fieldLe (s.vpeek c tva 64) 16 2) coat m) (hstate : byteAt (s.vpeek c (dva + 16 * i) 1) 0 = 1)
    (hnew : mfind ((s.checkCoat c tva coat m).ctx c).coat.entries i = none) :
    execStashRequest c coat m s = .next ((s.checkCoat c tva coat m).stashDecide c (dva + 16 * i) coat m
      ((s.checkCoat c tva coat m).ctx c).coat.hdr (fieldLe (s.vpeek c tva 64) 16 2)) := by
  subst hi
  simp only [execStashRequest, State.stashServe, h.table, hubNeeds_ok h.readable, h.directory, if_neg h.inTable,
    hubNeeds_ok h.writable, hstate, hnew, ne_eq, not_true_eq_false, false_and, Nat.reduceLT, Option.isSome_none,
    Bool.false_eq_true, if_true, if_false]

theorem execStashRelease_of_listed {i : Nat} (h : StashEntryAt s c coat m tva dva)
    (hi : i = stashIndex (fieldLe (s.vpeek c tva 64) 16 2) coat m) (hstate : byteAt (s.vpeek c (dva + 16 * i) 1) 0 = 4)
    (hlisted : (mfind ((s.checkCoat c tva coat m).ctx c).coat.entries i).isSome = true) :
    execStashRelease c coat m s = .next (((s.checkCoat c tva coat m).vpoke c (dva + 16 * i) (natLe 1 0)).putEntries c
      (mdel ((s.checkCoat c tva coat m).ctx c).coat.entries i)) := by
  subst hi
  simp only [execStashRelease, State.stashServe, h.table, hubNeeds_ok h.readable, h.directory, if_neg h.inTable,
    hubNeeds_ok h.writable, hstate, Option.isNone_iff_eq_none, Option.isSome_iff_ne_none.1 hlisted, ne_eq, not_true_eq_false,
    false_and, Nat.reduceLT, Nat.reduceEqDiff, if_false]

theorem entries_putEntries (s : State) (c : Nat) (es : Map StashEnt) : ((s.putEntries c es).ctx c).coat.entries = es := by
  simp only [State.putEntries, State.ctx_setFld, State.ctx_modCtx]

/-! ## The deadlock monitor (R517) -/

theorem execDeadlockWindowExpiry_of_deadlocked {u : Nat} (hrun : ((s.at u).ctx c).st = .running)
    (hwindow : cyclesNs (2 ^ (s.at u).fld (CTX_SCHED c) 20 16) ≤ (s.at u).now - ((s.at u).ctx c).progressAt)
    (hdead : (s.at u).deadlocked c = true) : execDeadlockWindowExpiry c u s = .next ((s.at u).deadlock c) := by
  simp only [execDeadlockWindowExpiry, hrun, hwindow, hdead, and_self, if_true]

theorem execDeadlockWindowExpiry_of_not_deadlocked {u : Nat} (hdead : (s.at u).deadlocked c = false) :
    execDeadlockWindowExpiry c u s = .next (s.at u) := by
  simp only [execDeadlockWindowExpiry, hdead, Bool.false_eq_true, and_false, if_false]

/-! ## Slowdown (R520) -/

theorem slowdown_lt (run intf : Nat) : slowdown run intf < 2 ^ 16 := by
  unfold slowdown
  split
  · decide
  · omega

/-- The state with the next slowdown window of context c begun, and sum more nanoseconds of interference in CTX_INTF_NS. -/
def State.beginSlowWindow (s : State) (c sum : Nat) : State :=
  (s.setReg64 (CTX_INTF_NS_LO c) (CTX_INTF_NS_HI c)
    ((s.reg64 (CTX_INTF_NS_LO c) (CTX_INTF_NS_HI c) + sum) % 2 ^ 64)).modCtx c
      fun y => { y with slowAt := s.now, slowRun := s.runTotal c }

/-- The state with v as the last slowdown in CTX_SLOWDOWN, and as the highest where it is. -/
def State.showSlowdown (s : State) (c v : Nat) : State :=
  (s.setFld (CTX_SLOWDOWN c) 15 0 v).setFld (CTX_SLOWDOWN c) 31 16 (max v (s.fld (CTX_SLOWDOWN c) 31 16))

/-- The state with the event CTX_SLOWDOWN raised, with payload pay. -/
def State.raiseSlowdown (s : State) (c : Nat) (pay : List (Nat × Nat × Nat)) : State :=
  ((s.modCtx c fun y => { y with slowRaised := some s.now }).setFld (CTX_SCHED_STATUS c) 4 4 1).raise 0x0909 (.ctx c) pay

/-- At the end of a window with run time the slowdown is shown, and the event is raised or not. -/
theorem execSlowdownWindowEnd_of_ran {s1 : State} {intf : List Nat} {u sum run : Nat} (hs1 : s1 = s.at u)
    (hwindow : 10000000 ≤ s1.now - (s1.ctx c).slowAt) (hrun : run = (s1.runTotal c + 2 ^ 64 - (s1.ctx c).slowRun) % 2 ^ 64)
    (hran : run ≠ 0) (hsum : sum = ((intf ++ List.replicate 6 0).take 6).foldl (· + ·) 0) :
    execSlowdownWindowEnd c intf u s = .next ((s1.beginSlowWindow c sum).showSlowdown c (slowdown run sum)) ∨
    ∃ pay, execSlowdownWindowEnd c intf u s =
      .next (((s1.beginSlowWindow c sum).showSlowdown c (slowdown run sum)).raiseSlowdown c pay) := by
  subst hs1 hrun hsum
  generalize hexec : execSlowdownWindowEnd c intf u s = out
  unfold execSlowdownWindowEnd at hexec
  extract_lets s1 x ks sum total run s2 v s3 due at hexec
  rw [if_neg (Nat.not_lt.2 hwindow), if_neg hran] at hexec
  split at hexec
  · exact .inr ⟨_, hexec.symm⟩
  · exact .inl hexec.symm

theorem ctx_showSlowdown (s : State) (c v : Nat) : (s.showSlowdown c v).ctx c = s.ctx c := rfl

theorem fld_showSlowdown {v : Nat} (s : State) (c : Nat) (h : v < 2 ^ 16) : (s.showSlowdown c v).fld (CTX_SLOWDOWN c) 15 0 = v := by
  rw [State.showSlowdown, State.fld_setFld_below _ _ _ _ _ _ _ (by decide) (by decide), State.fld_setFld _ _ _ _ _ (by decide)]
  exact Nat.mod_eq_of_lt h

theorem ctx_raiseSlowdown (s : State) (c : Nat) (pay : List (Nat × Nat × Nat)) :
    (s.raiseSlowdown c pay).ctx c = { s.ctx c with slowRaised := some s.now } := by
  rw [State.raiseSlowdown, State.ctx_raise, State.ctx_setFld, State.ctx_modCtx]

theorem notEvt_slowdown (c : CtxId) : NotEvt (CTX_SLOWDOWN c) := by
  refine NotEvt.low ?_
  unfold CTX_SLOWDOWN
  omega

theorem slowdown_raiseSlowdown (s : State) (c : CtxId) (pay : List (Nat × Nat × Nat)) :
    (s.raiseSlowdown c pay).fld (CTX_SLOWDOWN c) 15 0 = s.fld (CTX_SLOWDOWN c) 15 0 := by
  have hne : CTX_SLOWDOWN c ≠ CTX_SCHED_STATUS c := by
    unfold CTX_SLOWDOWN CTX_SCHED_STATUS
    omega
  rw [State.raiseSlowdown, State.fld_of_reg (State.reg_raise (notEvt_slowdown c)), State.fld_setFld_ne _ _ _ _ _ _ _ _ hne,
    State.fld_modCtx]

end

/-! ## The obligation -/

/-- Settles O51: each clause names one branch of its command, and the lemma of that branch gives the state answered. -/
theorem coatsAndMonitors : Obligations.Coats_and_monitors := by
  unfold Obligations.Coats_and_monitors
  refine ⟨?request, ?release, ?deadlocked, ?notDeadlocked, ?slowdown⟩
  case request =>
    rintro c coat m s tva dva raw ⟨htable, rfl, hdir⟩ ⟨hread, hwrite⟩ ⟨hbase, hcoat, hslot⟩ ⟨hstate, hnew⟩
    exact ⟨_, execStashRequest_of_new ⟨htable, hdir, hread, hwrite, hbase, hcoat, hslot⟩ rfl hstate hnew, rfl⟩
  case release =>
    rintro c coat m s tva dva raw ⟨htable, rfl, hdir⟩ ⟨hread, hwrite⟩ ⟨hbase, hcoat, hslot⟩ ⟨hstate, hlisted⟩
    refine ⟨_, execStashRelease_of_listed ⟨htable, hdir, hread, hwrite, hbase, hcoat, hslot⟩ rfl hstate hlisted, rfl, ?_⟩
    rw [entries_putEntries]
    exact mfind_mdel_same ..
  case deadlocked =>
    rintro c u s ⟨hrun, hwindow, hdead⟩
    exact ⟨_, execDeadlockWindowExpiry_of_deadlocked hrun hwindow hdead, rfl⟩
  case notDeadlocked =>
    intro c u s hdead
    exact ⟨_, execDeadlockWindowExpiry_of_not_deadlocked hdead, rfl⟩
  case slowdown =>
    rintro c intf u s s1 run ⟨rfl, hwindow, hrun, hran⟩
    have hshown := fun s' => fld_showSlowdown s' c (slowdown_lt run (((intf ++ List.replicate 6 0).take 6).foldl (· + ·) 0))
    rcases execSlowdownWindowEnd_of_ran rfl hwindow hrun hran rfl with hexec | ⟨pay, hexec⟩
    · refine ⟨_, hexec, hshown _, ?_⟩
      rw [ctx_showSlowdown, State.beginSlowWindow, State.ctx_modCtx]
      exact ⟨rfl, rfl⟩
    · refine ⟨_, hexec, (slowdown_raiseSlowdown ..).trans (hshown _), ?_⟩
      rw [ctx_raiseSlowdown, ctx_showSlowdown, State.beginSlowWindow, State.ctx_modCtx]
      exact ⟨rfl, rfl⟩

end Sys2Proof.Machine
end

section
/-! Rows of the Screed (07_screed.md, R264 to R277) and SETP (R257): the rule that each kind of operation gives a row, one row of
an operation whose inputs are in, SETP from its start to its end, and the obligations O52 and O53 from them. -/

namespace Sys2Proof.Machine

section

variable {w seed r key step tg : Nat} {x : ScreedSt} {ins : List (List Num)}

/-! ## The rule of each kind of operation (R264 to R277) -/

theorem scrRow_norm (h : opKind w = 0) :
    scrRow seed w r key step x ins tg = rowNorm seed w r x ((ins[0]?).getD []) := by
  simp only [scrRow, h]

theorem scrRow_normBwd (h : opKind w = 1) :
    scrRow seed w r key step x ins tg = rowNormBwd seed w r x ((ins[0]?).getD []) ((ins[1]?).getD []) := by
  simp only [scrRow, h]

theorem scrRow_act (h : opKind w = 2) :
    scrRow seed w r key step x ins tg =
      ⟨x, [(18, if actGated (scrFn w) then zip2 (actFwd (scrFn w)) ((ins[0]?).getD []) ((ins[1]?).getD [])
        else ((ins[0]?).getD []).map fun y => actFwd (scrFn w) y num0)], none, []⟩ := by
  simp only [scrRow, h]

/-- The value, the gate and the gradient of each element of a gated operation's row. -/
def gatedElems (ins : List (List Num)) : List ((Num × Num) × Num) :=
  (((ins[0]?).getD []).zip ((ins[1]?).getD [])).zip ((ins[2]?).getD [])

theorem scrRow_actBwd (h : opKind w = 3) :
    scrRow seed w r key step x ins tg =
      if actGated (scrFn w) then
        ⟨x, [(18, (gatedElems ins).map fun p => actBwd (scrFn w) p.1.1 p.1.2 p.2),
          (19, (gatedElems ins).map fun p => actBwdGate (scrFn w) p.1.1 p.1.2 p.2)], none, []⟩
      else ⟨x, [(18, zip2 (fun y d => actBwd (scrFn w) y num0 d) ((ins[0]?).getD []) ((ins[1]?).getD []))], none, []⟩ := by
  simp only [scrRow, h, gatedElems]

theorem scrRow_smax (h : opKind w = 4) :
    scrRow seed w r key step x ins tg = rowSmax seed w r x ((ins[0]?).getD []) := by
  simp only [scrRow, h]

theorem scrRow_smaxBwd (h : opKind w = 5) :
    scrRow seed w r key step x ins tg = rowSmaxBwd seed w r x ((ins[0]?).getD []) ((ins[1]?).getD []) := by
  simp only [scrRow, h]

theorem scrRow_merge (h : opKind w = 6) :
    scrRow seed w r key step x ins tg = rowMerge w r x ((ins[0]?).getD []) ((ins[1]?).getD []) := by
  simp only [scrRow, h]

theorem scrRow_elem (h : opKind w = 7) :
    scrRow seed w r key step x ins tg = rowElem w r key step x ((ins[0]?).getD []) ((ins[1]?).getD []) := by
  simp only [scrRow, h]

theorem scrRow_loss (h : opKind w = 8) :
    scrRow seed w r key step x ins tg = rowLoss w r x ((ins[0]?).getD []) tg := by
  simp only [scrRow, h]

theorem scrRow_vmove (h : opKind w = 9) :
    scrRow seed w r key step x ins tg = rowVmove w x ((ins[0]?).getD []) := by
  simp only [scrRow, h]

theorem scrRow_rowred (h : opKind w = 11) :
    scrRow seed w r key step x ins tg = rowRed seed w r x ((ins[0]?).getD []) ((ins[1]?).getD []) := by
  simp only [scrRow, h]

end

section

variable {s v : State} {n k c l : Nat}

/-! ## One row of an operation under way -/

/-- A Screed command of kind k on an operation of that kind, its row's inputs in and nothing waiting to go out: the row is
computed and goes out, and it follows whatever rule the operation's kind implies. What `exec` answers to each row command is
this state by definition. -/
theorem next_scrCmd_of_row {op : ActiveOp} {rule : Prop} (hrule : opKind op.word = k → rule)
    (hop : s.opOf n 3 = some (c, l, op) ∧ opKind op.word = k ∧ op.done < scrRows op.word)
    (hv : v = s.modAu n fun x => x.gather op.word op.done 0 [] (scrInputs op.word))
    (hin : (v.au n).screed.outs.isEmpty = true ∧ (v.au n).screed.gathered op.word op.done = true) :
    ∃ t, (.next (s.scrCmd n k) : Out) = .next t ∧ (t = (v.scrCompute n c op).scrPushOut n c ∧ rule) := by
  obtain ⟨hop, hkind, hdone⟩ := hop
  exact ⟨_, rfl, scrCmd_compute hop hkind hdone hv hin.1 hin.2, hrule hkind⟩

/-! ## SETP (R257) -/

theorem scrOnStart_setp {op : FifoOp} (h : opKind op.word = 10) :
    s.scrOnStart n c op = (s.modAu n fun x => x.setp op.word).endOp n 3 := by
  rw [State.scrOnStart, if_pos h]

/-- A Screed command starts the next operation of its kind, where that waits for no flag. -/
theorem scrCmd_of_start {op : FifoOp} (hlive : s.live n = some (c, l)) (hnext : (s.au n).nextOf 3 = some op)
    (hwen : opWen op.word = false) (hkind : opKind op.word = k) : s.scrCmd n k = (s.beginOp n 3 c op).scrOnStart n c op := by
  simp only [State.scrCmd, opOf_none hnext, State.startScreed]
  exact startUnit_of_not_wen hlive hnext hwen (by simp [hkind])

theorem execSetp_of_next {a : AuId} {op : FifoOp} (hlive : s.live a = some (c, l)) (hnext : (s.au a).nextOf 3 = some op)
    (hwen : opWen op.word = false) (hkind : opKind op.word = 10) :
    execSetp a s = .next (((s.beginOp a 3 c op).modAu a fun x => x.setp op.word).endOp a 3) := by
  rw [execSetp, scrCmd_of_start hlive hnext hwen hkind, scrOnStart_setp hkind]

@[simp] theorem State.screed_endOp (s : State) (n u : Nat) : ((s.endOp n u).au n).screed = (s.au n).screed := by
  simp [State.endOp]

@[simp] theorem Au.param_setp (a : Au) (w : Nat) : (a.setp w).screed.param (bits w 47 45) = bits w 44 0 := by
  simp [Au.setp, ScreedSt.param, mget, mfind_mput_same]

end

/-! ## The obligations -/

/-- Settles O52: in each clause one row is computed and goes out, by the rule of the operation's kind. -/
theorem screedRowsWithStatistics : Obligations.Screed_rows_with_statistics := by
  unfold Obligations.Screed_rows_with_statistics
  refine ⟨?norm, ?normBwd, ?smax, ?smaxBwd, ?merge⟩
  case norm => exact fun _ _ _ _ _ _ => next_scrCmd_of_row fun h _ _ _ _ _ _ => scrRow_norm h
  case normBwd => exact fun _ _ _ _ _ _ => next_scrCmd_of_row fun h _ _ _ _ _ _ => scrRow_normBwd h
  case smax => exact fun _ _ _ _ _ _ => next_scrCmd_of_row fun h _ _ _ _ _ _ => scrRow_smax h
  case smaxBwd => exact fun _ _ _ _ _ _ => next_scrCmd_of_row fun h _ _ _ _ _ _ => scrRow_smaxBwd h
  case merge => exact fun _ _ _ _ _ _ => next_scrCmd_of_row fun h _ _ _ _ _ _ => scrRow_merge h

/-- Settles O53: in each clause but the last one row is computed and goes out, by the rule of the operation's kind; SETP ends as it
starts. -/
theorem screedRowsByElement : Obligations.Screed_rows_by_element := by
  unfold Obligations.Screed_rows_by_element
  refine ⟨?act, ?actBwd, ?elem, ?loss, ?vmove, ?rowred, ?setp⟩
  case act => exact fun _ _ _ _ _ _ => next_scrCmd_of_row fun h _ _ _ _ _ _ => scrRow_act h
  case actBwd => exact fun _ _ _ _ _ _ => next_scrCmd_of_row fun h _ _ _ _ _ _ => scrRow_actBwd h
  case elem => exact fun _ _ _ _ _ _ => next_scrCmd_of_row fun h _ _ _ _ _ _ => scrRow_elem h
  case loss => exact fun _ _ _ _ _ _ => next_scrCmd_of_row fun h _ _ _ _ _ _ => scrRow_loss h
  case vmove => exact fun _ _ _ _ _ _ => next_scrCmd_of_row fun h _ _ _ _ _ _ => scrRow_vmove h
  case rowred => exact fun _ _ _ _ _ _ => next_scrCmd_of_row fun h _ _ _ _ _ _ => scrRow_rowred h
  case setp =>
    rintro a s c l op ⟨hlive, hnext, hwen, hkind⟩
    exact ⟨_, execSetp_of_next hlive hnext hwen hkind, rfl, by simp⟩

end Sys2Proof.Machine
end

section
/-! Roller transfers (09_memory.md, R371 to R379) and solver jobs (08_trowel.md, R317): one equation for each branch of their
commands that the statement speaks of, what it leaves of the transfer or of the job, and the obligation O50 from them. -/

namespace Sys2Proof.Machine

section

variable {s s1 s2 t : State} {id c l r : Nat} {x y z : RollerXfer} {v : Rcv}

/-! ## A ROLLER operation (R376) -/

theorem rollerGo_of_good {n rl : Nat} {op : ActiveOp} {d bs : List Byte} (hroom : s.mem.rollers.length < 256)
    (hdesc : s.vread c (moveDescVa op.word) 64 = .ok (d, s1)) (hgood : (s1.ctx c).rollBad d = false)
    (hbase : (s1.ctx c).baseVa (fieldLe d 8 8) = some rl) (hlist : s1.vread c rl (16 * fieldLe d 0 2) = .ok (bs, s2))
    (hentries : ((chunks 16 bs).any ((s1.ctx c).rcvBad (rollTotal d))) = false) :
    s.rollerGo n c l op = s2.acceptRoller n c l op d (chunks 16 bs) := by
  rw [State.rollerGo, if_neg (Nat.not_le.mpr hroom), State.withDesc]
  simp only [hdesc, hgood, hbase, hlist, hentries, Bool.false_eq_true, if_false]

theorem execRoller_of_opOf {a : AuId} {op : ActiveOp} (hop : s.opOf a 5 = some (c, l, op)) (hkind : opKind op.word = 2) :
    execRoller a s = .next (s.rollerGo a c l op) := by
  simp only [execRoller, hop, hkind, if_true]

theorem act_acceptRoller (s : State) (n c l : Nat) (op : ActiveOp) (d : List Byte) (es : List (List Byte)) :
    ((s.acceptRoller n c l op d es).au n).act 5 = none := by
  rw [State.acceptRoller, State.au_progress, State.act_endOp_same]

theorem execRoller_of_next {a : AuId} {op : FifoOp} (hlive : s.live a = some (c, l)) (hnext : (s.au a).nextOf 5 = some op)
    (hwen : opWen op.word = false) (hkind : opKind op.word = 2) : execRoller a s = .next (s.beginOp a 5 c op) := by
  simp only [execRoller, opOf_none hnext, State.startMove]
  rw [startUnit_of_not_wen hlive hnext hwen (by simp [hkind])]
  rfl

/-! ## Segments (R376, R377) -/

/-- The state with y in place of transfer id. -/
def State.putRoller (s : State) (id : Nat) (y : RollerXfer) : State :=
  { s with mem := { s.mem with rollers := mput s.mem.rollers id y } }

@[simp] theorem roller_putRoller (s : State) (id : Nat) (y : RollerXfer) : mfind (s.putRoller id y).mem.rollers id = some y :=
  mfind_mput_same ..

/-- A segment that every open, attached receiver is sent counts as issued, and nobody is waited for. -/
theorem rollCast_of_issued {g : Nat × Nat × Nat} (hseg : y.segs[y.issued]? = some g)
    (hopen : (y.numbered.filter fun e => e.2.attached && e.2.open_).isEmpty = false) (hlag : (y.rcvs.any y.lagging) = false)
    (hsent : s.rollSegs id y g (y.numbered.filter fun e => e.2.attached && e.2.open_) = .ok t)
    (hfound : mfind t.mem.rollers id = some z) :
    s.rollCast id y = t.putRoller id { z with issued := z.issued + 1, waitingSince := none } := by
  simp only [State.rollCast, hseg, hopen, hlag, hsent, hfound, Bool.false_eq_true, if_false]
  rfl

theorem execRollerSegmentIssue_of_running (hfound : mfind s.mem.rollers id = some x) (hrun : (s.ctx x.ctx).st = .running)
    (hreplayed : mfind (s.rollReplay id x x.numbered).mem.rollers id = some y) :
    execRollerSegmentIssue id s = .next (((s.rollReplay id x x.numbered).rollCast id y).progress x.ctx) := by
  simp only [execRollerSegmentIssue, hfound, hrun, hreplayed, if_true]

theorem mem_numbered_of_getElem? (h : x.rcvs[r]? = some v) : (r, v) ∈ x.numbered := by
  obtain ⟨hlt, -⟩ := List.getElem?_eq_some_iff.mp h
  exact List.mem_filterMap.mpr ⟨r, List.mem_range.mpr hlt, by rw [h]; rfl⟩

/-- The state with every lagging receiver of transfer x, whose number is id, detached. -/
def State.detachLagging (s : State) (id : Nat) (x : RollerXfer) : State :=
  (x.numbered.filter fun e => x.lagging e.2).foldl (fun u e =>
    ((u.modRcv id e.1 fun v => { v with attached := false }).flagCount MEM_STATUS 3 MEM_EVT_CNT0 15 0).raise 0x0320 (.ctx x.ctx)
      [(0, 1, ((s.ctx x.ctx).auOf x.lau).getD 0xFF), (2, 2, e.1), (4, 4, e.2.written)]) s

theorem exists_roller_detachLagging (h : mfind s.mem.rollers id = some x) :
    ∃ y, mfind (s.detachLagging id x).mem.rollers id = some y ∧ y.issued = x.issued ∧
      ∀ (r : Nat) (v : Rcv), x.rcvs[r]? = some v → x.lagging v = true → ∃ w, y.rcvs[r]? = some w ∧ w.attached = false := by
  obtain ⟨y, hfound, hissued, hdetached⟩ := roll_detach id x.ctx 0
    (fun s e => [(0, 1, ((s.ctx x.ctx).auOf x.lau).getD 0xFF), (2, 2, e.1), (4, 4, e.2.written)])
    (x.numbered.filter fun e => x.lagging e.2) s x h
  refine ⟨y, hfound, hissued, fun r v hv hlag => hdetached r v hv (.inr ?_)⟩
  exact List.mem_map_of_mem (List.mem_filter.mpr ⟨mem_numbered_of_getElem? hv, hlag⟩)

theorem execRollerDetach_of_over {u w : Nat} (hfound : mfind s.mem.rollers id = some x) (hwait : x.waitingSince = some w)
    (hover : w + x.slack * x.segNs ≤ u) (hdetached : mfind ((s.at u).detachLagging id x).mem.rollers id = some y) :
    execRollerDetach id u s = .next (((s.at u).detachLagging id x).putRoller id { y with waitingSince := none }) := by
  rw [State.detachLagging] at hdetached
  simp only [execRollerDetach, State.at_mem, hfound, hwait, if_pos hover, hdetached]
  rfl

/-! ## The end of a receiver and of a transfer (R374, R378, R379) -/

/-- The context can write the entry of receiver r in the receiver list of x. -/
def State.RcvEntryWritable (s : State) (x : RollerXfer) (r : Nat) : Prop :=
  (s.ctx x.ctx).checkAll true ([(x.rlist + 16 * r, 16)].map fun r => pagesOf r.1 r.2).flatten = .ok ()

/-- The state with receiver r, which is v, delivered: its STATUS in the transfer and in the receiver list. -/
def State.deliverRcv (s : State) (id : Nat) (x : RollerXfer) (r : Nat) (v : Rcv) : State :=
  (s.modRcv id r fun w => { w with status := if v.attached then .done else .replayed }).putRcvStatus x r v (if v.attached then 1 else 2)

theorem execRollerDelivery_of_written (hfound : mfind s.mem.rollers id = some x) (hrcv : x.rcvs[r]? = some v)
    (hpending : v.status = .pending) (hwritten : v.written = x.segs.length) (hroom : s.mboxFull x.ctx = false)
    (hentry : s.RcvEntryWritable x r) : execRollerDelivery id r s = .next ((if byteAt v.entry 2 % 16 = 0 then
      (s.deliverRcv id x r v).deliverFlag x.ctx (byteAt v.entry 3) true else s.deliverRcv id x r v).progress x.ctx) := by
  simp only [execRollerDelivery, hfound, hrcv, hpending, hwritten, hroom, Bool.not_false, and_self, if_true, hubNeeds_ok hentry]
  rfl

theorem execRollerRcvFailed_of_fail {st : Nat} (hfound : mfind s.mem.rollers id = some x) (hrcv : x.rcvs[r]? = some v)
    (hfail : v.fail = some st) (hentry : s.RcvEntryWritable x r) :
    execRollerRcvFailed id r s = .next ((s.failRcv id r st).progress x.ctx) := by
  simp only [execRollerRcvFailed, hfound, hrcv, hfail, Option.bind_some, hubNeeds_ok hentry]

/-- The state without transfer id. -/
def State.dropRoller (s : State) (id : Nat) : State := { s with mem := { s.mem with rollers := mdel s.mem.rollers id } }

theorem execRollerComplete_of_none_pending (hfound : mfind s.mem.rollers id = some x)
    (hended : (x.rcvs.all fun v => v.status != .pending) = true) :
    execRollerComplete id s = .next ((s.dropRoller id).progress x.ctx) := by
  simp only [execRollerComplete, hfound, hended, if_true]
  rfl

end

/-! ## The end of a solver job (R317) -/

section

variable {s : State} {c i n : Nat} {j : SolverJob}

/-- The result of job j if it ends in state s, which the next two free values decide. -/
def State.resultOf (s : State) (j : SolverJob) : JobState :=
  jobResult j (Config.free s.free) (Config.free (s.free + 1) % 2 ^ 32)

/-- The roots of a good job, the left of order m at base lb and the right of order k at base rb. -/
def State.putRoots (s : State) (c lb m rb k seed : Nat) (r : JobState) : State :=
  if r = .good then (s.putRoot c lb m (2 * seed)).putRoot c rb k (2 * seed + 1) else s

/-- The state with r as the result of the refresh of matrix layer entry i, where one is under way. -/
def State.noteRefresh (s : State) (c i : Nat) (r : JobState) : State :=
  s.modCtx c fun x => match mfind x.refresh i with
    | some f => { x with refresh := mput x.refresh i { f with st := r } }
    | none => x

/-- The state once job j of solver n has ended. -/
def State.endJob (s : State) (n : Nat) (j : SolverJob) (lb m rb k : Nat) : State :=
  (({ s.pick.2.pick.2 with solver := s.solver.eraseIdx n } : State).putRoots j.ctx lb m rb k (Config.free s.free) (s.resultOf j)
    ).noteRefresh j.ctx j.entry (s.resultOf j)

theorem solver_putRoots (s : State) (c lb m rb k seed : Nat) (r : JobState) : (s.putRoots c lb m rb k seed r).solver = s.solver := by
  unfold State.putRoots
  split
  · rw [putRoot_solver, putRoot_solver]
  · rfl

theorem refresh_putRoots (s : State) (c lb m rb k seed : Nat) (r : JobState) :
    ((s.putRoots c lb m rb k seed r).ctx c).refresh = (s.ctx c).refresh := by
  unfold State.putRoots
  split
  · rw [putRoot_refresh, putRoot_refresh]
  · rfl

theorem refresh_noteRefresh {f : Refresh} {r : JobState} (h : mfind (s.ctx c).refresh i = some f) :
    mfind ((s.noteRefresh c i r).ctx c).refresh i = some { f with st := r } := by
  simp only [State.noteRefresh, State.ctx_modCtx, h]
  exact mfind_mput_same ..

theorem solver_endJob (s : State) (n : Nat) (j : SolverJob) (lb m rb k : Nat) :
    (s.endJob n j lb m rb k).solver = s.solver.eraseIdx n :=
  solver_putRoots ..

theorem refresh_endJob {f : Refresh} {lb m rb k : Nat} (h : mfind (s.ctx j.ctx).refresh j.entry = some f) :
    mfind ((s.endJob n j lb m rb k).ctx j.ctx).refresh j.entry = some { f with st := s.resultOf j } := by
  refine refresh_noteRefresh ?_
  rw [refresh_putRoots]
  exact h

theorem execSolverJobComplete_of_entry {e : List Byte} {va m k lb rb : Nat} (hn : n < 2) (hjob : s.solver[n]? = some j)
    (hentry : (s.ctx j.ctx).mats[j.entry]? = some e) (hva : s.matVa j.ctx j.entry = some va) (hm : m = fieldLe e 4 2)
    (hk : k = fieldLe e 6 2) (hlb : lb = fieldLe e (if byteAt (s.vpeek j.ctx (va + 3) 1) 0 % 2 = 0 then 32 else 24) 8)
    (hrb : rb = fieldLe e (if byteAt (s.vpeek j.ctx (va + 3) 1) 0 % 2 = 0 then 48 else 40) 8)
    (hroots : (s.ctx j.ctx).checkAll true
      (((s.ctx j.ctx).rootRange lb m ++ (s.ctx j.ctx).rootRange rb k).map fun r => pagesOf r.1 r.2).flatten = .ok ()) :
    execSolverJobComplete n s = .next (s.endJob n j lb m rb k) := by
  subst hm hk hlb hrb
  simp only [execSolverJobComplete, if_pos hn, hjob, hentry, hva, hubNeeds_ok hroots]
  rfl

end

/-! ## The obligation -/

/-- Settles O50: each clause names one branch of its command, and the lemma of that branch gives the state answered. -/
theorem rollerAndSolvers : Obligations.Roller_and_solvers := by
  unfold Obligations.Roller_and_solvers
  refine ⟨?accept, ?begin, ?issue, ?detach, ?delivery, ?rcvFailed, ?complete, ?solverJob⟩
  case accept =>
    rintro a s s1 s2 c l rl op d bs ⟨hop, hkind, hroom⟩ ⟨hdesc, hgood, hbase⟩ ⟨hlist, hentries⟩
    have hgo := rollerGo_of_good (n := a) (l := l) hroom hdesc hgood hbase hlist hentries
    exact ⟨_, execRoller_of_opOf hop hkind, hgo, by rw [hgo, act_acceptRoller]⟩
  case begin =>
    rintro a s c l op ⟨hlive, hnext, hwen, hkind⟩
    exact ⟨_, execRoller_of_next hlive hnext hwen hkind, rfl⟩
  case issue =>
    rintro id s v u x y z g ⟨hfound, hrun, rfl, hreplayed⟩ ⟨hseg, hopen, hlag⟩ ⟨hsent, hz⟩
    refine ⟨_, execRollerSegmentIssue_of_running hfound hrun hreplayed, ?_⟩
    rw [rollCast_of_issued hseg hopen hlag hsent hz]
    exact roller_putRoller ..
  case detach =>
    rintro id u s x w ⟨hfound, hwait, hover⟩
    obtain ⟨y, hdetached, hissued, hrcvs⟩ := exists_roller_detachLagging (s := s.at u) hfound
    exact ⟨_, execRollerDetach_of_over hfound hwait hover hdetached, _, roller_putRoller .., rfl, hrcvs, hissued⟩
  case delivery =>
    rintro id r s s1 x v ⟨hfound, hrcv, hpending, hwritten, hroom⟩ hentry rfl
    exact ⟨_, execRollerDelivery_of_written hfound hrcv hpending hwritten hroom hentry, rfl⟩
  case rcvFailed =>
    rintro id r s x v st ⟨hfound, hrcv, hfail⟩ hentry
    exact ⟨_, execRollerRcvFailed_of_fail hfound hrcv hfail hentry, rfl⟩
  case complete =>
    rintro id s x ⟨hfound, hended⟩
    refine ⟨_, execRollerComplete_of_none_pending hfound hended, mfind_mdel_same .., ?_⟩
    rw [State.progress, State.ctx_modCtx]
    rfl
  case solverJob =>
    rintro n s j e va m k lb rb f ⟨hn, hjob, hentry, hva, hrefresh⟩ ⟨hm, hk, hlb, hrb⟩ hroots
    exact ⟨_, execSolverJobComplete_of_entry hn hjob hentry hva hm hk hlb hrb hroots, solver_endJob .., refresh_endJob hrefresh⟩

end Sys2Proof.Machine
end

section
/-! Operations of the Trowel (08_trowel.md, R292 to R313): a step of an operation whose operands are in, one that has nothing left
to push, the start of an UPDATE once its step size is there, the late step size, and the obligation O56 from them. -/

namespace Sys2Proof.Machine

section

variable {s v : State} {n k c l : Nat}

/-! ## An operation under way (R292, R295, R296) -/

/-- The state with an operation of kind k computed on the operands that are in. -/
def State.trwCompute (s : State) (n c k : Nat) (op : ActiveOp) : State :=
  match k with
  | 0 => s.trwUpdate n c op (s.au n).trowel.inp
  | 1 => s.trwAccum n op (s.au n).trowel.inp
  | _ => s.trwTmul n c op (s.au n).trowel.inp

section

variable {op : ActiveOp} (hop : s.opOf n 4 = some (c, l, op)) (hkind : opKind op.word = k)

include hop hkind

/-- The operands of an operation are in: it is computed by the rule of its kind. -/
theorem trwCmd_of_gathered (hdone : op.done = 0) (hv : v = (s.modAu n fun x => x.trwGather 0 (trwPops op.word)).progress c)
    (hin : (v.au n).trowel.gathered op.word = true) : s.trwCmd n k = v.trwCompute n c k op := by
  rw [trwCmd_eq hop hkind, trwStep_gathered hdone hv hin, hkind]
  rfl

/-- An operation other than an UPDATE, which is counted too, is over once all is pushed. -/
theorem trwCmd_of_pushed (hdone : op.done ≠ 0) (hk : k ≠ 0) (hv : v = (s.modAu n Au.trwPush).progress c)
    (hout : (v.au n).trowel.out.isEmpty = true) : s.trwCmd n k = v.endOp n 4 := by
  subst hv
  rw [trwCmd_eq hop hkind, State.trwStep, if_neg hdone]
  simp only [hout, hkind, if_neg hk, if_true]

end

/-! ## The start of an operation (R296, R308) -/

section

variable {op : FifoOp} (hlive : s.live n = some (c, l)) (hnext : (s.au n).nextOf 4 = some op) (hwen : opWen op.word = false)
  (hkind : opKind op.word = k) (heta : s.etaReady c op.word = true)

include hlive hnext hwen hkind heta

/-- The lane starts an operation that waits for no flag and no step size. -/
theorem startTrowel_of_etaReady : s.startTrowel n false (some k) = (s.beginOp n 4 c op).trwOnStart n c op :=
  startUnit_of_not_wen hlive hnext hwen (by simp [hkind, heta])

theorem trwCmd_of_etaReady : s.trwCmd n k = (s.beginOp n 4 c op).trwOnStart n c op := by
  simp only [State.trwCmd, opOf_none hnext]
  exact startTrowel_of_etaReady hlive hnext hwen hkind heta

end

theorem execUpdateEtaArrives_of_late {a : AuId} (h : (s.au a).trowel.late.isSome = true) :
    execUpdateEtaArrives a s = .next (s.startTrowel a false (some 0)) := by
  rw [execUpdateEtaArrives, if_pos h]

/-! ## A late step size (R308) -/

/-- The state with the step size of context c late, in the context and in TRW_STATUS. -/
def State.noteEtaLate (s : State) (c : Nat) : State :=
  (s.flagCount (TRW_STATUS c) 3 (TRW_EVT_CNT1 c) 31 24).modCtx c fun x => { x with eta := { x.eta with late := true } }

theorem execStepSizeLate_of_over {a : AuId} {u since : Nat} {op : FifoOp} (hlive : (s.at u).live a = some (c, l))
    (hnext : ((s.at u).au a).nextOf 4 = some op) (hsince : ((s.at u).au a).trowel.late = some since)
    (hover : (s.at u).fld (TRW_CTL c) 31 16 ≤ (u - since) / 1000) (hfirst : ((s.at u).ctx c).eta.late = false)
    (heta : (s.at u).etaReady c op.word = false) :
    ∃ pay, execStepSizeLate a u s = .next (((s.at u).noteEtaLate c).raise 0x0940 (.ctx c) pay) := by
  simp only [execStepSizeLate, hlive, hnext, hsince, hover, hfirst, heta, Bool.not_false, and_self, if_true]
  exact ⟨_, rfl⟩

theorem eta_late_noteEtaLate (s : State) (c : Nat) : ((s.noteEtaLate c).ctx c).eta.late = true := by
  rw [State.noteEtaLate, State.ctx_modCtx]

theorem trwStatus_noteEtaLate (s : State) (c : Nat) : (s.noteEtaLate c).fld (TRW_STATUS c) 3 3 = 1 := by
  rw [State.noteEtaLate, State.fld_modCtx]
  exact fld_flagCount_flag s (by decide) (by unfold TRW_STATUS TRW_EVT_CNT1; omega)

theorem notEvt_trwStatus (h : c < 64) : NotEvt (TRW_STATUS c) := by
  unfold TRW_STATUS
  exact NotEvt.mid (by omega) (by omega) (by omega)

end

/-! ## The obligation -/

/-- Settles O56: each clause names one branch of its command, and the lemma of that branch gives the state answered. -/
theorem trowelLane : Obligations.Trowel_lane := by
  unfold Obligations.Trowel_lane
  refine ⟨?update, ?updateBegins, ?etaArrives, ?stepSizeLate, ?accum, ?tmul, ?tmulEnds⟩
  case update =>
    rintro a s v c l op ⟨hop, hkind, hdone⟩ hv hin
    exact ⟨_, rfl, congrArg (State.etaWait · a) (trwCmd_of_gathered hop hkind hdone hv hin)⟩
  case updateBegins =>
    rintro a s c l op ⟨hlive, hnext, hwen, hkind, heta⟩
    exact ⟨_, rfl, congrArg (State.etaWait · a) (trwCmd_of_etaReady hlive hnext hwen hkind heta)⟩
  case etaArrives =>
    rintro a s c l op ⟨hlate, hlive, hnext, hwen, hkind, heta⟩
    exact ⟨_, execUpdateEtaArrives_of_late hlate, startTrowel_of_etaReady hlive hnext hwen hkind heta⟩
  case stepSizeLate =>
    rintro a u s c l since op ⟨hlive, hnext, hsince⟩ ⟨hover, hfirst, heta, hc⟩
    obtain ⟨pay, hexec⟩ := execStepSizeLate_of_over hlive hnext hsince hover hfirst heta
    refine ⟨_, hexec, ?_, ?_⟩
    · rw [State.ctx_raise, eta_late_noteEtaLate]
    · rw [State.fld_of_reg (State.reg_raise (notEvt_trwStatus hc)), trwStatus_noteEtaLate]
  case accum =>
    rintro a s v c l op ⟨hop, hkind, hdone⟩ hv hin
    exact ⟨_, rfl, trwCmd_of_gathered hop hkind hdone hv hin⟩
  case tmul =>
    rintro a s v c l op ⟨hop, hkind, hdone⟩ hv hin
    exact ⟨_, rfl, trwCmd_of_gathered hop hkind hdone hv hin⟩
  case tmulEnds =>
    rintro a s v c l op ⟨hop, hkind, hdone⟩ ⟨hv, hout⟩
    have hcmd := trwCmd_of_pushed hop hkind hdone (by decide) hv hout
    exact ⟨_, rfl, hcmd, by rw [hcmd, State.act_endOp_same]⟩

end Sys2Proof.Machine
end

section
/-! The invariant of the memories, the register file and the counts (09_memory.md: R325, R333; Table 11.10): every command
carries the invariant over, by what the model's Kept lemmas say of its meaning; the obligations O4 and O3. -/

namespace Sys2Proof.Machine

/-! ## What every command keeps -/

/-- The mask, for `Kept`, of every part of the state, and with bit 18 of part time turning back. -/
def anyPart : Nat := 0x7FFFF

/-- The split over the commands: each arm cites what the Kept lemma of that meaning says, and forgets which parts it lists. -/
theorem exec_outKept (i : Instr) (s : State) : OutKept anyPart s (exec i s) :=
  match i with
  | .createPf .. => execCreatePf_kept rfl (.refl _ s)
  | .createVf .. => execCreateVf_kept rfl (.refl _ s)
  | .destroy .. => execDestroy_kept rfl (.refl _ s)
  | .destructionComplete .. => execDestructionComplete_kept rfl (.refl _ s)
  | .hubAdminWrite .. => execHubAdminWrite_kept rfl (.refl _ s)
  | .adminGraceExpiry .. => execAdminGraceExpiry_kept rfl (.refl _ s)
  | .hubSyncGo .. => execHubSyncGo_kept rfl (.refl _ s)
  | .syncSummaryWritten .. => execSyncSummaryWritten_kept rfl (.refl _ s)
  | .ringCtlWrite .. => execRingCtlWrite_kept rfl (.refl _ s)
  | .dbCmdTail .. => execDbCmdTail_kept rfl (.refl _ s)
  | .dbCplHead .. => execDbCplHead_kept rfl (.refl _ s)
  | .doorbellAccepted .. => execDoorbellAccepted_kept rfl (.refl _ s)
  | .descriptorStart .. => execDescriptorStart_kept rfl (.refl _ s)
  | .irqDelayExpiry .. => execIrqDelayExpiry_kept rfl (.refl _ s)
  | .evtCtlWrite .. => execEvtCtlWrite_kept rfl (.refl _ s)
  | .evtHeadWrite .. => execEvtHeadWrite_kept rfl (.refl _ s)
  | .loadProgram .. => execLoadProgram_kept rfl (.refl _ s)
  | .run .. => execRun_kept rfl (.refl _ s)
  | .runComplete .. => execRunComplete_kept rfl (.refl _ s)
  | .setStep .. => execSetStep_kept rfl (.refl _ s)
  | .secureNow .. => execSecureNow_kept rfl (.refl _ s)
  | .restore .. => execRestore_kept rfl (.refl _ s)
  | .restoreShard .. => execRestoreShard_kept rfl (.refl _ s)
  | .openWindow .. => execOpenWindow_kept rfl (.refl _ s)
  | .closeWindow .. => execCloseWindow_kept rfl (.refl _ s)
  | .fence .. => execFence_kept rfl (.refl _ s)
  | .preempt .. => execPreempt_kept rfl (.refl _ s)
  | .preemptionSaveComplete .. => execPreemptionSaveComplete_kept rfl (.refl _ s)
  | .resume .. => execResume_kept rfl (.refl _ s)
  | .resumptionComplete .. => execResumptionComplete_kept rfl (.refl _ s)
  | .displacedResume => execDisplacedResume_kept rfl (.refl _ s)
  | .setMembership .. => execSetMembership_kept rfl (.refl _ s)
  | .shardAdopted .. => execShardAdopted_kept rfl (.refl _ s)
  | .shardCommit .. => execShardCommit_kept rfl (.refl _ s)
  | .rollback .. => execRollback_kept rfl (.refl _ s)
  | .resync .. => execResync_kept rfl (.refl _ s)
  | .copy .. => execCopy_kept rfl (.refl _ s)
  | .map .. => execMap_kept rfl (.refl _ s)
  | .unmap .. => execUnmap_kept rfl (.refl _ s)
  | .setCap .. => execSetCap_kept rfl (.refl _ s)
  | .queryEnergy .. => execQueryEnergy_kept rfl (.refl _ s)
  | .placeHint .. => execPlaceHint_kept rfl (.refl _ s)
  | .failureNotice .. => execFailureNotice_kept rfl (.refl _ s)
  | .bar4Access .. => execBar4Access_kept rfl (.refl _ s)
  | .bar0RegisterWrite .. => execBar0RegisterWrite_kept rfl (.refl _ s)
  | .rcRead .. => execRcRead_kept rfl (.refl _ s)
  | .loReadLatch .. => execLoReadLatch_kept rfl (.refl _ s)
  | .hawkDebugRead .. => execHawkDebugRead_kept rfl (.refl _ s)
  | .secDiagGo .. => execSecDiagGo_kept rfl (.refl _ s)
  | .pwrCtlModeWrite .. => execPwrCtlModeWrite_kept rfl (.refl _ s)
  | .pwrCapWrite .. => execPwrCapWrite_kept rfl (.refl _ s)
  | .lnkPortCtlWrite .. => execLnkPortCtlWrite_kept rfl (.refl _ s)
  | .lnkPartIdWrite .. => execLnkPartIdWrite_kept rfl (.refl _ s)
  | .secLcReqGo .. => execSecLcReqGo_kept rfl (.refl _ s)
  | .lifecycleTransition => execLifecycleTransition_kept rfl (.refl _ s)
  | .debugExpiry .. => execDebugExpiry_kept rfl (.refl _ s)
  | .secUpdGo .. => execSecUpdGo_kept rfl (.refl _ s)
  | .fwStaged => execFwStaged_kept rfl (.refl _ s)
  | .secUpdCommit .. => execSecUpdCommit_kept rfl (.refl _ s)
  | .secLogHeadWrite .. => execSecLogHeadWrite_kept rfl (.refl _ s)
  | .logRecord .. => execLogRecord_kept rfl (.refl _ s)
  | .coreInstruction .. => execCoreInstruction_kept rfl (.refl _ s)
  | .corePageWaitEnd .. => execCorePageWaitEnd_kept rfl (.refl _ s)
  | .logicalAuExit .. => execLogicalAuExit_kept rfl (.refl _ s)
  | .dxIssue .. => execDxIssue_kept rfl (.refl _ s)
  | .dxTryissue .. => execDxTryissue_kept rfl (.refl _ s)
  | .fifoPlaceFree .. => execFifoPlaceFree_kept rfl (.refl _ s)
  | .dxStnLd .. => execDxStnLd_kept rfl (.refl _ s)
  | .dxStnGo .. => execDxStnGo_kept rfl (.refl _ s)
  | .dxStnPos .. => execDxStnPos_kept rfl (.refl _ s)
  | .dxStnWait .. => execDxStnWait_kept rfl (.refl _ s)
  | .dxStnStat .. => execDxStnStat_kept rfl (.refl _ s)
  | .dxFset .. => execDxFset_kept rfl (.refl _ s)
  | .dxFclr .. => execDxFclr_kept rfl (.refl _ s)
  | .dxFwait .. => execDxFwait_kept rfl (.refl _ s)
  | .dxFwaitc .. => execDxFwaitc_kept rfl (.refl _ s)
  | .dxFwaitx .. => execDxFwaitx_kept rfl (.refl _ s)
  | .flagWaitSatisfied .. => execFlagWaitSatisfied_kept rfl (.refl _ s)
  | .dxFtest .. => execDxFtest_kept rfl (.refl _ s)
  | .dxQlvl .. => execDxQlvl_kept rfl (.refl _ s)
  | .dxFlvl .. => execDxFlvl_kept rfl (.refl _ s)
  | .dxFpace .. => execDxFpace_kept rfl (.refl _ s)
  | .dxQpace .. => execDxQpace_kept rfl (.refl _ s)
  | .dxLoop .. => execDxLoop_kept rfl (.refl _ s)
  | .dxBrk .. => execDxBrk_kept rfl (.refl _ s)
  | .dxWhere .. => execDxWhere_kept rfl (.refl _ s)
  | .dxSemAcq .. => execDxSemAcq_kept rfl (.refl _ s)
  | .semGranted .. => execSemGranted_kept rfl (.refl _ s)
  | .dxSemRel .. => execDxSemRel_kept rfl (.refl _ s)
  | .opStartAfterWait .. => execOpStartAfterWait_kept rfl (.refl _ s)
  | .compute .. => execCompute_kept rfl (.refl _ s)
  | .swapBankHeld .. => execSwapBankHeld_kept rfl (.refl _ s)
  | .wload .. => execWload_kept rfl (.refl _ s)
  | .wloadComplete .. => execWloadComplete_kept rfl (.refl _ s)
  | .adaptLoad .. => execAdaptLoad_kept rfl (.refl _ s)
  | .drain .. => execDrain_kept rfl (.refl _ s)
  | .setf .. => execSetf_kept rfl (.refl _ s)
  | .clrf .. => execClrf_kept rfl (.refl _ s)
  | .nop .. => execNop_kept rfl (.refl _ s)
  | .norm .. => execNorm_kept rfl (.refl _ s)
  | .normBwd .. => execNormBwd_kept rfl (.refl _ s)
  | .act .. => execAct_kept rfl (.refl _ s)
  | .actBwd .. => execActBwd_kept rfl (.refl _ s)
  | .smax .. => execSmax_kept rfl (.refl _ s)
  | .smaxBwd .. => execSmaxBwd_kept rfl (.refl _ s)
  | .merge .. => execMerge_kept rfl (.refl _ s)
  | .elem .. => execElem_kept rfl (.refl _ s)
  | .loss .. => execLoss_kept rfl (.refl _ s)
  | .vmove .. => execVmove_kept rfl (.refl _ s)
  | .setp .. => execSetp_kept rfl (.refl _ s)
  | .rowred .. => execRowred_kept rfl (.refl _ s)
  | .update .. => execUpdate_kept rfl (.refl _ s)
  | .updateEtaArrives .. => execUpdateEtaArrives_kept rfl (.refl _ s)
  | .stepSizeLate .. => execStepSizeLate_kept rfl (.refl _ s)
  | .accum .. => execAccum_kept rfl (.refl _ s)
  | .tmul .. => execTmul_kept rfl (.refl _ s)
  | .xfer .. => execXfer_kept rfl (.refl _ s)
  | .movePageIn .. => execMovePageIn_kept rfl (.refl _ s)
  | .roller .. => execRoller_kept rfl (.refl _ s)
  | .stencilSegmentIssue .. => execStencilSegmentIssue_kept rfl (.refl _ s)
  | .stencilDone .. => execStencilDone_kept rfl (.refl _ s)
  | .streamHaltResume .. => execStreamHaltResume_kept rfl (.refl _ s)
  | .segmentComplete .. => execSegmentComplete_kept rfl (.refl _ s)
  | .stagingBufferFree .. => execStagingBufferFree_kept rfl (.refl _ s)
  | .queueRecordReady .. => execQueueRecordReady_kept rfl (.refl _ s)
  | .slotVisitBegin .. => execSlotVisitBegin_kept rfl (.refl _ s)
  | .slotVisitEnd .. => execSlotVisitEnd_kept rfl (.refl _ s)
  | .slotTimeout .. => execSlotTimeout_kept rfl (.refl _ s)
  | .slotBusy .. => execSlotBusy_kept rfl (.refl _ s)
  | .hawkHotWindowEnd .. => execHawkHotWindowEnd_kept rfl (.refl _ s)
  | .hawkEccError .. => execHawkEccError_kept rfl (.refl _ s)
  | .hbmHotWindowEnd .. => execHbmHotWindowEnd_kept rfl (.refl _ s)
  | .hbmCorrectedError .. => execHbmCorrectedError_kept rfl (.refl _ s)
  | .memUncorr .. => execMemUncorr_kept rfl (.refl _ s)
  | .hbmScrub .. => execHbmScrub_kept rfl (.refl _ s)
  | .pageInStart .. => execPageInStart_kept rfl (.refl _ s)
  | .pageInComplete .. => execPageInComplete_kept rfl (.refl _ s)
  | .rollerSegmentIssue .. => execRollerSegmentIssue_kept rfl (.refl _ s)
  | .rollerDetach .. => execRollerDetach_kept rfl (.refl _ s)
  | .rollerRcvFailed .. => execRollerRcvFailed_kept rfl (.refl _ s)
  | .rollerComplete .. => execRollerComplete_kept rfl (.refl _ s)
  | .rollerDelivery .. => execRollerDelivery_kept rfl (.refl _ s)
  | .portTrainingDone .. => execPortTrainingDone_kept rfl (.refl _ s)
  | .linkDown .. => execLinkDown_kept rfl (.refl _ s)
  | .downRetrainTimer .. => execDownRetrainTimer_kept rfl (.refl _ s)
  | .laneLossOfLock .. => execLaneLossOfLock_kept rfl (.refl _ s)
  | .flitReceive .. => execFlitReceive_kept rfl (.refl _ s)
  | .sideWordReceive .. => execSideWordReceive_kept rfl (.refl _ s)
  | .uncorrectableCodeword .. => execUncorrectableCodeword_kept rfl (.refl _ s)
  | .replayBoundExceeded .. => execReplayBoundExceeded_kept rfl (.refl _ s)
  | .transactionForward .. => execTransactionForward_kept rfl (.refl _ s)
  | .windowArrival .. => execWindowArrival_kept rfl (.refl _ s)
  | .windowWriteComplete .. => execWindowWriteComplete_kept rfl (.refl _ s)
  | .holdReceive .. => execHoldReceive_kept rfl (.refl _ s)
  | .holdResend .. => execHoldResend_kept rfl (.refl _ s)
  | .completeReceive .. => execCompleteReceive_kept rfl (.refl _ s)
  | .abortReceive .. => execAbortReceive_kept rfl (.refl _ s)
  | .transactionTimeout .. => execTransactionTimeout_kept rfl (.refl _ s)
  | .memberReceive .. => execMemberReceive_kept rfl (.refl _ s)
  | .linkWorkPost .. => execLinkWorkPost_kept rfl (.refl _ s)
  | .linkWorkStart .. => execLinkWorkStart_kept rfl (.refl _ s)
  | .linkWorkComplete .. => execLinkWorkComplete_kept rfl (.refl _ s)
  | .collChunkReceive .. => execCollChunkReceive_kept rfl (.refl _ s)
  | .collAbortReceive .. => execCollAbortReceive_kept rfl (.refl _ s)
  | .collTimeout .. => execCollTimeout_kept rfl (.refl _ s)
  | .stepEndExchange .. => execStepEndExchange_kept rfl (.refl _ s)
  | .timeSample .. => execTimeSample_kept rfl (.refl _ s)
  | .timeUnlocked .. => execTimeUnlocked_kept rfl (.refl _ s)
  | .prbsTest .. => execPrbsTest_kept rfl (.refl _ s)
  | .perstNAssert .. => execPerstNAssert_kept rfl (.refl _ s)
  | .perstNDeassert .. => execPerstNDeassert_kept rfl (.refl _ s)
  | .hotReset .. => execHotReset_kept rfl (.refl _ s)
  | .hostPortLost .. => execHostPortLost_kept rfl (.refl _ s)
  | .hostPortUp .. => execHostPortUp_kept rfl (.refl _ s)
  | .hostGraceExpired .. => execHostGraceExpired_kept rfl (.refl _ s)
  | .functionLevelReset .. => execFunctionLevelReset_kept rfl (.refl _ s)
  | .ideInsecure .. => execIdeInsecure_kept rfl (.refl _ s)
  | .spdmRequest .. => execSpdmRequest_kept rfl (.refl _ s)
  | .ideKmRequest .. => execIdeKmRequest_kept rfl (.refl _ s)
  | .deadlockWindowExpiry .. => execDeadlockWindowExpiry_kept rfl (.refl _ s)
  | .slowdownWindowEnd .. => execSlowdownWindowEnd_kept rfl (.refl _ s)
  | .stashRequest .. => execStashRequest_kept rfl (.refl _ s)
  | .stashRelease .. => execStashRelease_kept rfl (.refl _ s)
  | .stepClose .. => execStepClose_kept rfl (.refl _ s)
  | .stepBoundaryOpen .. => execStepBoundaryOpen_kept rfl (.refl _ s)
  | .pendingPageFirstWrite .. => execPendingPageFirstWrite_kept rfl (.refl _ s)
  | .shadowFrameFree .. => execShadowFrameFree_kept rfl (.refl _ s)
  | .securePageCopy .. => execSecurePageCopy_kept rfl (.refl _ s)
  | .secured .. => execSecured_kept rfl (.refl _ s)
  | .secureFailed .. => execSecureFailed_kept rfl (.refl _ s)
  | .solverJobComplete .. => execSolverJobComplete_kept rfl (.refl _ s)
  | .inputUndervoltage .. => execInputUndervoltage_kept rfl (.refl _ s)
  | .inputOvervoltage .. => execInputOvervoltage_kept rfl (.refl _ s)
  | .inputBelowServiceMin .. => execInputBelowServiceMin_kept rfl (.refl _ s)
  | .inputRise .. => execInputRise_kept rfl (.refl _ s)
  | .voltageCapUpdate .. => execVoltageCapUpdate_kept rfl (.refl _ s)
  | .capControlTick .. => execCapControlTick_kept rfl (.refl _ s)
  | .excursionCut .. => execExcursionCut_kept rfl (.refl _ s)
  | .currentLimit .. => execCurrentLimit_kept rfl (.refl _ s)
  | .currentLimitEnd .. => execCurrentLimitEnd_kept rfl (.refl _ s)
  | .capFloor .. => execCapFloor_kept rfl (.refl _ s)
  | .droopStretch .. => execDroopStretch_kept rfl (.refl _ s)
  | .droopEnd .. => execDroopEnd_kept rfl (.refl _ s)
  | .energyUpdate .. => execEnergyUpdate_kept rfl (.refl _ s)
  | .thermalSensorRead .. => execThermalSensorRead_kept rfl (.refl _ s)
  | .thermalTrip .. => execThermalTrip_kept rfl (.refl _ s)
  | .stageFault => execStageFault_kept rfl (.refl _ s)
  | .hostPowerOn => execHostPowerOn_kept rfl (.refl _ s)
  | .serviceReset => execServiceReset_kept rfl (.refl _ s)
  | .romBoot => execRomBoot_kept rfl (.refl _ s)
  | .stage1Run .. => execStage1Run_kept rfl (.refl _ s)
  | .fwReady => execFwReady_kept rfl (.refl _ s)
  | .fwRestart .. => execFwRestart_kept rfl (.refl _ s)
  | .compartmentHeartbeatMiss .. => execCompartmentHeartbeatMiss_kept rfl (.refl _ s)
  | .fwHalted .. => execFwHalted_kept rfl (.refl _ s)
  | .fwMemoryUncorr .. => execFwMemoryUncorr_kept rfl (.refl _ s)
  | .jtagInstruction .. => execJtagInstruction_kept rfl (.refl _ s)
  | .identityRead => execIdentityRead_kept rfl (.refl _ s)
  | .telemetry => execTelemetry_kept rfl (.refl _ s)
  | .powerCap .. => execPowerCap_kept rfl (.refl _ s)
  | .reset .. => execReset_kept rfl (.refl _ s)
  | .lifecycle .. => execLifecycle_kept rfl (.refl _ s)
  | .logPull .. => execLogPull_kept rfl (.refl _ s)
  | .power .. => execPower_kept rfl (.refl _ s)
  | .coolantSet .. => execCoolantSet_kept rfl (.refl _ s)
  | .coolantWarning .. => execCoolantWarning_kept rfl (.refl _ s)
  | .coolantWarningClear .. => execCoolantWarningClear_kept rfl (.refl _ s)
  | .coolantOff .. => execCoolantOff_kept rfl (.refl _ s)
  | .leakDetected .. => execLeakDetected_kept rfl (.refl _ s)
  | .svcRstN => execSvcRstN_kept rfl (.refl _ s)
  | .configurationRequest .. => execConfigurationRequest_kept rfl (.refl _ s)
  | .enterCompliance .. => execEnterCompliance_kept rfl (.refl _ s)

/-! ## The invariant along a step -/

theorem step_of_pending_nil {s : State} (h : s.pending = []) : step s = .next s := by
  rw [step, h]

theorem step_of_pending_cons {s : State} {i : Instr} {is : List Instr} (h : s.pending = i :: is) :
    step s = exec i { s with pending := is } := by
  rw [step, h]

theorem inv_of_exec {i : Instr} {s t : State} (hinv : s.Inv) (hexec : exec i s = .next t) : t.Inv := by
  obtain ⟨u, hu, hkept⟩ := exec_outKept i s
  cases hu.symm.trans hexec
  exact hkept.inv hinv

/-- Settles O4: a step idles, or runs a command on the state with a shorter queue, and the invariant does not speak of the queue. -/
theorem everyStepKeepsTheInvariant : Obligations.Every_step_keeps_the_invariant := by
  unfold Obligations.Every_step_keeps_the_invariant
  intro s t hinv hstep
  cases hqueue : s.pending with
  | nil =>
    cases (step_of_pending_nil hqueue).symm.trans hstep
    exact hinv
  | cons i is => exact inv_of_exec (s := { s with pending := is }) hinv ((step_of_pending_cons hqueue).symm.trans hstep)

theorem mcanon_nil {α : Type} [DecidableEq α] (d : α) : mcanon d ([] : Map α) = true := rfl

/-- Settles O3: the memories and the register file list nothing, and nothing is counted. -/
theorem resetMeetsTheInvariant : Obligations.Reset_meets_the_invariant := by
  unfold Obligations.Reset_meets_the_invariant
  exact ⟨by decide, mcanon_nil _, mcanon_nil _, mcanon_nil _, fun _ => Nat.zero_le _⟩

end Sys2Proof.Machine
end

section
/-! Addresses and segments (09_memory.md: R325, R350, R372): the device physical addresses, and the segments into which a Roller
transfer cuts its source pieces; the obligations O19 and O22. -/

namespace Sys2Proof.Machine

/-! ## Device physical addresses (R325) -/

theorem dpaValid_iff {d : Nat} : dpaValid d = true ↔ d / 2 ^ 36 < 12 ∧ d % 2 ^ 36 < 36 * 2 ^ 30 := by
  simp only [dpaValid, Bool.and_eq_true, decide_eq_true_eq]

/-- Settles O19: twelve stacks of 64 GiB of addresses each lie within 40 bits. -/
theorem deviceAddresses : Obligations.Device_addresses := by
  unfold Obligations.Device_addresses
  intro d
  rw [dpaValid_iff]
  constructor
  · rintro ⟨hstack, hoff⟩
    exact ⟨by omega, by omega, hoff⟩
  · rintro ⟨_, hstack, hoff⟩
    exact ⟨by omega, hoff⟩

/-! ## Segments of a Roller transfer (R350, R372)

A segment is (source, offset at the receiver, bytes). -/

section

variable {gs hs : List (Nat × Nat × Nat)} {dest : Nat}

/-- The bytes of a list of segments. -/
def segBytes (gs : List (Nat × Nat × Nat)) : Nat := (gs.map fun g => g.2.2).sum

@[simp] theorem segBytes_append : segBytes (gs ++ hs) = segBytes gs + segBytes hs := by
  simp [segBytes]

/-- Each segment lands where those before it end, the first at `dest`. -/
def LandEndToEnd (dest : Nat) (gs : List (Nat × Nat × Nat)) : Prop :=
  ∀ (k : Nat) (g : Nat × Nat × Nat), gs[k]? = some g → g.2.1 = dest + segBytes (gs.take k)

theorem LandEndToEnd.append (hgs : LandEndToEnd dest gs) (hhs : LandEndToEnd (dest + segBytes gs) hs) :
    LandEndToEnd dest (gs ++ hs) := by
  intro k g hg
  rcases Nat.lt_or_ge k gs.length with hk | hk
  · rw [List.getElem?_append_left hk] at hg
    rw [List.take_append_of_le_length (Nat.le_of_lt hk)]
    exact hgs k g hg
  · rw [List.getElem?_append_right hk] at hg
    rw [List.take_append, List.take_of_length_le hk, segBytes_append, ← Nat.add_assoc]
    exact hhs (k - gs.length) g hg

/-- A segment is not empty and stays within 2 KiB of its source (R350). -/
def WithinBoundary (g : Nat × Nat × Nat) : Prop :=
  0 < g.2.2 ∧ g.2.2 ≤ 2048 ∧ g.1 / 2048 = (g.1 + g.2.2 - 1) / 2048

end

/-- The fuel of `pieceSegs` is enough to cut a piece of n bytes to its end. -/
theorem cutSegs_of_piece (w dest n : Nat) :
    segBytes (cutSegs w dest (n / 2048 + 2) n) = n ∧ (∀ g ∈ cutSegs w dest (n / 2048 + 2) n, WithinBoundary g) ∧
      LandEndToEnd dest (cutSegs w dest (n / 2048 + 2) n) := by
  obtain ⟨hsum, hcut, hland⟩ := cut n (n / 2048 + 2) w dest (.inl (by omega))
  exact ⟨hsum, hcut, fun k g hg => (hland k g hg).1⟩

theorem pieceSegs_spec (dest : Nat) (ps : List (Nat × Nat)) :
    segBytes (pieceSegs dest ps) = (ps.map Prod.snd).sum ∧ (∀ g ∈ pieceSegs dest ps, WithinBoundary g) ∧
      LandEndToEnd dest (pieceSegs dest ps) := by
  induction ps generalizing dest with
  | nil => exact ⟨rfl, fun g hg => (List.not_mem_nil hg).elim, fun k g hg => by simp [pieceSegs] at hg⟩
  | cons p ps ih =>
    obtain ⟨w, n⟩ := p
    obtain ⟨hsum, hcut, hland⟩ := cutSegs_of_piece w dest n
    obtain ⟨hsum', hcut', hland'⟩ := ih (dest + n)
    refine ⟨?_, fun g hg => ?_, hland.append ?_⟩
    · rw [pieceSegs, segBytes_append, hsum, hsum', List.map_cons, List.sum_cons]
    · exact (List.mem_append.1 hg).elim (hcut g) (hcut' g)
    · rw [hsum]
      exact hland'

/-- Settles O22, by induction on the pieces. -/
theorem thePiecesOfARollerTransfer : Obligations.The_pieces_of_a_Roller_transfer := by
  unfold Obligations.The_pieces_of_a_Roller_transfer
  exact pieceSegs_spec

end Sys2Proof.Machine
end

section
/-! COPY, MAP and UNMAP (09_memory.md: R365 to R370): what each command does in the branch that the statement speaks of, and the
obligation O41. -/

namespace Sys2Proof.Machine

section

variable {c : CtxId} {k : Nat} {s : State} {cmd : Cmd}

/-! ## COPY (R366) -/

section

variable {pos : Nat} (hcmd : s.cmdAt c k = some cmd) (hop : byteAt cmd.desc 0 = 0x0D) (hserves : s.serves 0x0D = true)
  (hphase : cmd.phase = .underway pos 0) (hconv : bit (byteAt cmd.desc 8) 0 = false)

include hcmd hop hserves hphase hconv

theorem execCopy_of_left (hleft : pos < fieldLe cmd.desc 32 8) : execCopy c k s = .next (s.copyStep c k pos cmd) := by
  rw [execCopy, onCmd_eq hcmd hop hserves]
  simp only [hphase, State.copyGo, hconv, hleft, if_true, Bool.false_eq_true, if_false]

theorem execCopy_of_all (hall : pos = fieldLe cmd.desc 32 8) : execCopy c k s = .next (s.copyDone c k cmd) := by
  rw [execCopy, onCmd_eq hcmd hop hserves]
  simp only [hphase, State.copyGo, hconv, hall, Nat.lt_irrefl, Bool.false_eq_true, if_false]

end

/-- One segment goes over where both its ends can be accessed and no shadow frame is awaited. -/
theorem copyStep_of_ok {pos n : Nat} {a b : MemEnd} {u : State} (ha : a = s.copyEnd c cmd.desc false pos)
    (hb : b = s.copyEnd c cmd.desc true pos)
    (hn : n = min (fieldLe cmd.desc 32 8 - pos) (min (toBoundary (copyAddr a)) (toBoundary (copyAddr b))))
    (hends : s.endsOk [(a, n, false), (b, n, true)] = .ok ()) (hput : (s.getEnd a n).2.copyPut b (s.getEnd a n).1 = some u) :
    s.copyStep c k pos cmd = u.setPhase c k (.underway (pos + n) 0) := by
  simp only [State.copyStep, ← ha, ← hb, ← hn, State.copyTry, hends, hput]

theorem copyDone_of_no_flag (hflag : bit (byteAt cmd.desc 10) 0 = false) : s.copyDone c k cmd = s.complete c k 0 0 := by
  rw [State.copyDone, if_neg (by simp [hflag])]

/-! ## MAP (R368) -/

/-- Page p begins the range of n pages that a MAP with descriptor d takes: the part picks it, or the command names it and it is
clear. -/
def Ctx.MapRange (x : Ctx) (d : List Byte) (p : Nat) : Prop :=
  if fieldLe d 16 8 = 0 then x.pickRange (fieldLe d 24 8 / frameBytes) (if byteAt d 5 = 1 then 512 else 1) = some p
  else p = fieldLe d 16 8 / frameBytes ∧ x.rangeClear p (fieldLe d 24 8 / frameBytes) = true

theorem execMap_of_mapped {p : Nat} {u : State} (hcmd : s.cmdAt c k = some cmd) (hop : byteAt cmd.desc 0 = 0x0E)
    (hserves : s.serves 0x0E = true) (hgood : mapBad cmd.desc = false) (hrange : (s.ctx c).MapRange cmd.desc p)
    (hmap : s.mapAt c cmd.desc p = some u) : execMap c k s = .next (u.complete c k 0 (frameBytes * p)) := by
  rw [execMap, onCmd_eq hcmd hop hserves]
  unfold Ctx.MapRange at hrange
  split at hrange
  next hpick => simp [hgood, hpick, hrange, hmap]
  next hnamed =>
    obtain ⟨rfl, hclear⟩ := hrange
    simp [hgood, hnamed, hclear, hmap]

/-! ## UNMAP (R369) -/

/-- The state with every mapping in pages [p, p + n) of context c gone. -/
def State.unmapRange (s : State) (c : Nat) (discard : Bool) (p n : Nat) : State :=
  ((s.ctx c).entriesIn p n).foldl (fun t e => t.unmapOne c discard e.1 e.2) s

theorem execUnmap_of_idle {p n : Nat} (hcmd : s.cmdAt c k = some cmd) (hop : byteAt cmd.desc 0 = 0x0F)
    (hserves : s.serves 0x0F = true) (hgood : unmapBad cmd.desc = false) (hp : p = fieldLe cmd.desc 16 8 / frameBytes)
    (hn : n = fieldLe cmd.desc 24 8 / frameBytes) (hown : (s.ctx c).unmappable p n = true) (hidle : s.pageBusy c p n = false)
    (hpageIns : ∀ q ∈ s.mem.pageIns, q.ctx = c.val → q.page < p ∨ p + n ≤ q.page) :
    execUnmap c k s = .next ((s.unmapRange c (bit (byteAt cmd.desc 4) 0) p n).complete c k 0 0) := by
  have hnone : (s.mem.pageIns.any fun q => q.ctx == c.val && decide (p ≤ q.page) && decide (q.page < p + n)) = false := by
    simp only [List.any_eq_false, Bool.and_eq_true, beq_iff_eq, decide_eq_true_eq]
    rintro q hq ⟨⟨hc, hfrom⟩, hto⟩
    have := hpageIns q hq hc
    omega
  rw [execUnmap, onCmd_eq hcmd hop hserves]
  simp [hgood, ← hp, ← hn, hown, hidle, hnone, State.unmapRange]

theorem pt_complete (s : State) (c k st res : Nat) : ((s.complete c k st res).ctx c).pt = (s.ctx c).pt := by
  obtain ⟨_, _, _, _, _, h⟩ := State.ctx_complete (s := s) c k st res
  rw [h]

theorem mfind_pt_unmapRange {p n : Nat} {discard : Bool} {e : Nat × Pte} (he : e ∈ (s.ctx c).entriesIn p n) :
    mfind ((s.unmapRange c discard p n).ctx c).pt e.1 = none :=
  (pt_unmapAll _ s c discard).1 e he

end

/-! ## The obligation -/

/-- Settles O41: each clause names one branch of its command, and the lemma of that branch gives the state answered. -/
theorem copiesAndMaps : Obligations.Copies_and_maps := by
  unfold Obligations.Copies_and_maps
  refine ⟨?copyPart, ?copyEnd, ?map, ?unmap⟩
  case copyPart =>
    rintro c k s cmd pos n a b u ⟨hcmd, hop, hserves⟩ ⟨hphase, hconv, hleft⟩ ⟨ha, hb⟩ hn ⟨hends, hput⟩
    exact ⟨_, execCopy_of_left hcmd hop hserves hphase hconv hleft, copyStep_of_ok ha hb hn hends hput⟩
  case copyEnd =>
    rintro c k s cmd pos ⟨hcmd, hop, hserves⟩ ⟨hphase, hconv, hall⟩ hflag
    refine ⟨_, execCopy_of_all hcmd hop hserves hphase hconv hall, ?_⟩
    rw [copyDone_of_no_flag hflag]
    exact State.done_complete 0 0 hcmd
  case map =>
    rintro c k s cmd p u ⟨hcmd, hop, hserves⟩ hgood hrange hmap
    exact ⟨_, execMap_of_mapped hcmd hop hserves hgood hrange hmap, rfl⟩
  case unmap =>
    rintro c k s cmd p n ⟨hcmd, hop, hserves⟩ ⟨hgood, hp, hn⟩ ⟨hown, hidle⟩ hpageIns
    refine ⟨_, execUnmap_of_idle hcmd hop hserves hgood hp hn hown hidle hpageIns, fun e he => ?_⟩
    rw [pt_complete]
    exact mfind_pt_unmapRange he

end Sys2Proof.Machine
end

section
/-! Hot banks, errors, scrubbing and paging of HBM (09_memory.md: R328 to R333, R341 to R345, R363, R364): what each command does,
and the obligation O42. -/

namespace Sys2Proof.Machine

section

variable {s : State}

/-! ## Hot banks (R363, R364) -/

/-- The banks that a window found hot, each once. -/
def hotBanks (hot : List Nat) : List Nat := (hot.filter (· < 18432)).eraseDups

theorem mem_hotBanks_iff {hot : List Nat} {b : Nat} : b ∈ hotBanks hot ↔ b ∈ hot ∧ b < 18432 := by
  rw [hotBanks, List.mem_eraseDups, List.mem_filter, decide_eq_true_eq]

/-- The runs of hot windows after one that found the banks hs hot. -/
def MemSt.nextRuns (x : MemSt) (hs : List Nat) : Map Nat := hs.foldl (fun m b => mput m b (mget 0 x.hotRun b + 1)) []

theorem mget_nextRuns (x : MemSt) (hs : List Nat) (b : Nat) :
    mget 0 (x.nextRuns hs) b = if b ∈ hs then mget 0 x.hotRun b + 1 else 0 := by
  rw [mget, MemSt.nextRuns, mfind_foldl_mput]
  split <;> rfl

/-- The window's end counts and reports on the state in which the runs stand and part time has moved on. -/
theorem execHbmHotWindowEnd_shape (hot : List Nat) (u : Nat) (s : State) : ∃ t, execHbmHotWindowEnd hot u s = .next t ∧
    t.mem = { s.mem with hotRun := s.mem.nextRuns (hotBanks hot) } ∧ t.now = max s.now u := by
  refine ⟨_, rfl, ?_⟩
  obtain ⟨hmem, hnow⟩ := foldl_raise_frame
    (fun (x : State) b => x.raise 0x0310 .all [(0, 1, 1), (1, 1, b / 1536), (2, 1, b / 48 % 32), (3, 1, b % 48)])
    (fun _ _ => ⟨State.raise_mem .., State.raise_now ..⟩) _ _
  rw [hmem, hnow]
  split
  · exact ⟨rfl, rfl⟩
  · exact ⟨rfl, rfl⟩

/-! ## Errors (R328, R330, R333) -/

theorem frame_putFrame_same (s : State) (f : Nat) (x : Frame) : (s.putFrame f x).frame f = x := mget_mset_same _ _ _ _

theorem ctx_putFrame (s : State) (f : Nat) (x : Frame) (c : Nat) : (s.putFrame f x).ctx c = s.ctx c := rfl

theorem fld_putFrame (s : State) (f : Nat) (x : Frame) (k hi lo : Nat) : (s.putFrame f x).fld k hi lo = s.fld k hi lo := rfl

theorem frame_of_mem {t : State} (h : t.mem = s.mem) (f : Nat) : t.frame f = s.frame f := by rw [State.frame, State.frame, h]

/-- The state with a corrected error at dpa counted, by the stack and by the frame. -/
def State.countCorrected (s : State) (dpa : Nat) : State :=
  let s1 := (s.count (MEM_ECC (dpa / 2 ^ 36)) 15 0 1).total 0 1
  s1.putFrame (dpaFrame dpa) { s1.frame (dpaFrame dpa) with corrected := (s1.frame (dpaFrame dpa)).corrected + 1 }

/-- The state with an uncorrectable error at dpa counted by the stack and noted in the frame. -/
def State.noteUncorr (s : State) (dpa : Nat) : State :=
  let s1 := (s.count (MEM_ECC (dpa / 2 ^ 36)) 31 16 1).total 1 1
  s1.putFrame (dpaFrame dpa) { s1.frame (dpaFrame dpa) with uncorr := true }

theorem execHbmCorrectedError_of_valid {dpa : Nat} (hvalid : dpaValid dpa = true) :
    execHbmCorrectedError dpa s = .next ((s.countCorrected dpa).retireIfFree (dpaFrame dpa)) := if_pos hvalid

theorem execMemUncorr_of_valid {dpa : Nat} (hvalid : dpaValid dpa = true) : execMemUncorr dpa s =
    .next (((s.noteUncorr dpa).retireIfFree (dpaFrame dpa)).memUncorr 0 (dpa / 2 ^ 36) 0xFF dpa
      (((s.noteUncorr dpa).retireIfFree (dpaFrame dpa)).frame (dpaFrame dpa)).owner) := if_pos hvalid

theorem frame_countCorrected (s : State) (dpa : Nat) : (s.countCorrected dpa).frame (dpaFrame dpa) =
    { s.frame (dpaFrame dpa) with corrected := (s.frame (dpaFrame dpa)).corrected + 1 } := frame_putFrame_same ..

theorem frame_noteUncorr (s : State) (dpa : Nat) :
    (s.noteUncorr dpa).frame (dpaFrame dpa) = { s.frame (dpaFrame dpa) with uncorr := true } := frame_putFrame_same ..

theorem ecc_countCorrected (s : State) (dpa : Nat) : (s.countCorrected dpa).fld (MEM_ECC (dpa / 2 ^ 36)) 15 0 =
    satAdd 0xFFFF (s.fld (MEM_ECC (dpa / 2 ^ 36)) 15 0) 1 := by
  rw [State.countCorrected, fld_putFrame, State.fld_total]
  exact State.fld_count s _ 15 0 1 (by decide)

/-- Retiring a frame leaves the error counts of the stacks alone. -/
theorem ecc_retireIfFree (s : State) {m : Nat} (hm : m < 12) (f : Nat) :
    (s.retireIfFree f).fld (MEM_ECC m) 15 0 = s.fld (MEM_ECC m) 15 0 :=
  State.fld_of_reg (reg_retireIfFree s f _ (NotEvt.mid (by unfold MEM_ECC; omega) (by unfold MEM_ECC; omega) (by unfold MEM_ECC; omega))
    (by unfold MEM_ECC MEM_STATUS; omega) (by unfold MEM_ECC MEM_EVT_CNT1; omega)) 15 0

theorem owner_retired_noteUncorr (s : State) (dpa : Nat) :
    (((s.noteUncorr dpa).retireIfFree (dpaFrame dpa)).frame (dpaFrame dpa)).owner = (s.frame (dpaFrame dpa)).owner := by
  obtain ⟨r, hframe⟩ := frame_retireIfFree (s.noteUncorr dpa) (dpaFrame dpa)
  rw [hframe, frame_noteUncorr]

theorem uncorr_retired_noteUncorr (s : State) (dpa : Nat) :
    (((s.noteUncorr dpa).retireIfFree (dpaFrame dpa)).frame (dpaFrame dpa)).uncorr = true := by
  obtain ⟨r, hframe⟩ := frame_retireIfFree (s.noteUncorr dpa) (dpaFrame dpa)
  rw [hframe, frame_noteUncorr]

/-- An uncorrectable error of memory that no context owns is reported only. -/
theorem frame_memUncorr_none (s : State) (src unit n addr f : Nat) : (s.memUncorr src unit n addr none).frame f = s.frame f :=
  frame_of_mem (by rw [State.memUncorr, State.raise_mem, State.flagCount_mem]) f

theorem ctx_retired_noteUncorr (s : State) (dpa c : Nat) :
    ((s.noteUncorr dpa).retireIfFree (dpaFrame dpa)).ctx c = s.ctx c := by
  rw [ctx_retireIfFree, State.noteUncorr, ctx_putFrame, State.ctx_total, State.ctx_count]

/-! ## Scrubbing (R329, R333) -/

/-- The frames that a scrub of stack m leaves listed: those with few corrected errors start at none again. -/
def MemSt.scrubbed (x : MemSt) (m : Nat) : Map Frame :=
  x.frames.filterMap fun e =>
    if frameStack e.1 = m ∧ e.2.corrected < 16 then
      let y := { e.2 with corrected := 0 }
      if y = Frame.reset then none else some (e.1, y)
    else some e

theorem corrected_of_mem_scrubbed {x : MemSt} {m : Nat} {e : Nat × Frame} (he : e ∈ x.scrubbed m) (hm : frameStack e.1 = m) :
    e.2.corrected = 0 ∨ 16 ≤ e.2.corrected := by
  obtain ⟨e', _, hsome⟩ := List.mem_filterMap.1 he
  dsimp only at hsome
  split at hsome
  next =>
    split at hsome
    · cases hsome
    · cases hsome
      exact .inl rfl
  next hmany =>
    cases hsome
    exact .inr (Nat.not_lt.1 fun hfew => hmany ⟨hm, hfew⟩)

/-! ## Paging (R341) -/

theorem mfind_modPte {c k : Nat} {f : Pte → Pte} {e : Pte} (h : mfind (s.ctx c).pt k = some e) :
    mfind ((s.modPte c k f).ctx c).pt k = some (f e) := by
  rw [State.modPte, State.ctx_modCtx, h]
  exact mfind_mput_same ..

theorem mem_modPte (s : State) (c k : Nat) (f : Pte → Pte) : (s.modPte c k f).mem = s.mem := rfl

theorem host_modPte (s : State) (c k : Nat) (f : Pte → Pte) : (s.modPte c k f).host = s.host := rfl

theorem pte_beginPageIn {c p f : Nat} {e : Pte} (h : mfind (s.ctx c).pt p = some e) :
    mfind ((s.beginPageIn c p f).ctx c).pt p = some { e with ty := .inTransit } := by
  have hctxs : (s.beginPageIn c p f).ctxs = (s.modPte c p fun e => { e with ty := .inTransit }).ctxs := rfl
  rw [State.ctx_of_ctxs hctxs, mfind_modPte h]

theorem pageIns_beginPageIn (s : State) (c p f : Nat) :
    (s.beginPageIn c p f).mem.pageIns = s.mem.pageIns ++ [⟨c, p, f⟩] := rfl

theorem pageInGo_of_allocFrame {c p f : Nat} {e : Pte} {u : State} (hup : (s.port e.port).dlUp = true)
    (halloc : s.allocFrame e.stks (some c) true = some (f, u)) : s.pageInGo c p e = u.beginPageIn c p f := by
  rw [State.pageInGo, if_neg (by simp [hup]), halloc]

theorem execPageInStart_of_wanted {c : CtxId} {va : Nat} {e : Pte}
    (hwant : (s.mem.wants.any fun w => w.ctx == c.val && w.page == va / frameBytes) = true) (hroom : s.mem.pageIns.length < 64)
    (hpte : mfind (s.ctx c).pt (va / frameBytes) = some e) (hty : e.ty = .pageable) :
    execPageInStart c va s = .next (s.pageInGo c (va / frameBytes) e) := by
  rw [execPageInStart, if_pos ⟨hwant, hroom⟩, hpte]
  dsimp only
  rw [if_pos hty]

/-- The state with page-in p of context c off the list: something of the context has come to an end. -/
def State.endPageIn (s : State) (c : Nat) (p : PageIn) : State :=
  { s with mem := { s.mem with pageIns := s.mem.pageIns.filter fun q => q != p } }.modCtx c fun x => { x with progressAt := s.now }

/-- The state once the bytes behind the page with entry e are in the frame of page-in p, and nobody waits for the page. -/
def State.landPage (s : State) (c page : Nat) (p : PageIn) (e : Pte) : State :=
  let s1 := s.endPageIn c p
  { s1 with mem := { s1.mem with
    hbm := importRange s1.host (hostKey e.port e.backing) frameBytes s1.mem.hbm (frameDpa p.frame)
    wants := s1.mem.wants.filter fun w => !(w.ctx == c && w.page == page) } }

theorem pt_endPageIn (s : State) (c : Nat) (p : PageIn) : ((s.endPageIn c p).ctx c).pt = (s.ctx c).pt := by
  rw [State.endPageIn, State.ctx_modCtx]
  rfl

theorem pt_landPage (s : State) (c page : Nat) (p : PageIn) (e : Pte) : ((s.landPage c page p e).ctx c).pt = (s.ctx c).pt :=
  pt_endPageIn s c p

theorem hbm_landPage (s : State) (c page : Nat) (p : PageIn) (e : Pte) : (s.landPage c page p e).mem.hbm =
    importRange s.host (hostKey e.port e.backing) frameBytes s.mem.hbm (frameDpa p.frame) := rfl

theorem host_landPage (s : State) (c page : Nat) (p : PageIn) (e : Pte) : (s.landPage c page p e).host = s.host := rfl

/-- The page-in of a page that is still mapped, whose host is there, ends with the page RESIDENT. -/
theorem execPageInComplete_of_mapped {c : CtxId} {page : Nat} {p : PageIn} {e : Pte}
    (hfound : s.mem.pageIns.find? (fun q => q.ctx == c.val && q.page == page) = some p) (hpte : mfind (s.ctx c).pt page = some e)
    (hup : (s.port e.port).dlUp = true) : ∃ n, execPageInComplete c page s = .next (((s.landPage c page p e).modPte c page fun e =>
      { e with ty := .resident, addr := frameDpa p.frame, dirty := false }).setReg (MEM_PAGED c) n) := by
  have hpte' : mfind ((s.endPageIn c p).ctx c).pt page = some e := by rw [pt_endPageIn, hpte]
  unfold State.endPageIn at hpte'
  refine ⟨((s.landPage c page p e).reg (MEM_PAGED c) + 1) % 2 ^ 32, ?_⟩
  simp only [execPageInComplete, hfound, hpte']
  exact congrArg _ (if_pos hup)

end

/-! ## The obligation -/

/-- Settles O42: what each command does is stated above; the clauses read it off the state answered. -/
theorem memoryErrorsAndPaging : Obligations.Memory_errors_and_paging := by
  unfold Obligations.Memory_errors_and_paging
  refine ⟨?hotWindow, ?corrected, ?uncorr, ?scrub, ?pageInStart, ?pageInComplete⟩
  case hotWindow =>
    intro hot u s
    obtain ⟨t, hexec, hmem, hnow⟩ := execHbmHotWindowEnd_shape hot u s
    refine ⟨t, hexec, hnow, fun b hb hlt => ?_, fun b hb => ?_⟩
    · rw [hmem, mget_nextRuns, if_pos (mem_hotBanks_iff.2 ⟨hb, hlt⟩)]
    · rw [hmem, mget_nextRuns, if_neg fun h => hb (mem_hotBanks_iff.1 h).1]
  case corrected =>
    intro dpa s hvalid
    obtain ⟨r, hframe⟩ := frame_retireIfFree (s.countCorrected dpa) (dpaFrame dpa)
    refine ⟨_, execHbmCorrectedError_of_valid hvalid, ?_, ?_⟩
    · rw [hframe, frame_countCorrected]
    · rw [ecc_retireIfFree _ (dpaValid_iff.1 hvalid).1, ecc_countCorrected]
  case uncorr =>
    intro dpa s hvalid
    refine ⟨_, execMemUncorr_of_valid hvalid, fun hnone => ?_, fun c howner hfault => ?_⟩
    · rw [owner_retired_noteUncorr, hnone, frame_memUncorr_none, uncorr_retired_noteUncorr]
    · rw [owner_retired_noteUncorr, howner]
      exact st_memUncorr _ _ _ _ _ _ (by rw [ctx_retired_noteUncorr]; exact hfault)
  case scrub =>
    intro m u s
    exact ⟨_, rfl, rfl, mfind_mput_same .., fun e he hm => corrected_of_mem_scrubbed he hm⟩
  case pageInStart =>
    rintro c va s e f u ⟨hwant, hroom⟩ ⟨hpte, hty, hup⟩ halloc
    obtain ⟨hctxs, hpageIns, _⟩ := allocFrame_shape halloc
    refine ⟨_, execPageInStart_of_wanted hwant hroom hpte hty, ?_⟩
    rw [pageInGo_of_allocFrame hup halloc]
    refine ⟨?_, ?_⟩
    · rw [pte_beginPageIn (e := e) (by rw [State.ctx_of_ctxs hctxs]; exact hpte)]
    · rw [pageIns_beginPageIn, hpageIns]
  case pageInComplete =>
    rintro c page s p e hfound ⟨hpte, hup⟩
    obtain ⟨n, hexec⟩ := execPageInComplete_of_mapped hfound hpte hup
    refine ⟨_, hexec, ?_, ?_, ?_⟩
    · rw [State.ctx_setReg]
      exact mfind_modPte (by rw [pt_landPage]; exact hpte)
    · rw [State.setReg_mem, mem_modPte, hbm_landPage]
    · rw [State.setReg_host, host_modPte, host_landPage]

end Sys2Proof.Machine
end

section
/-! Transfers of the MOVE unit (09_memory.md: R355 to R360): the branches of XFER and of MOVE_PAGE_IN, and the obligation O43. -/

namespace Sys2Proof.Machine

section

variable {a : AuId} {s : State} {c l : Nat}

/-! ## An operation under way -/

section

variable {op : ActiveOp} (hop : s.opOf a 5 = some (c, l, op))

include hop

theorem execXfer_of_opOf (hkind : opKind op.word = 0) : execXfer a s = .next (s.xferGo a c op) := by
  simp only [execXfer, hop, hkind, if_true]

theorem execMovePageIn_of_opOf (hkind : opKind op.word = 1) : execMovePageIn a s = .next (s.movePageInGo a c op) := by
  simp only [execMovePageIn, hop, hkind, if_true]

end

section

variable {n : Nat} {op : ActiveOp} (hread : op.data.isEmpty = false)

include hread

theorem xferGo_of_left (hleft : op.xreg 1 < (moveDesc op.data).total) : s.xferGo n c op = s.issueMove n c op := by
  rw [State.xferGo, if_neg (by simp [hread]), if_pos hleft]

theorem xferGo_of_done (hall : (moveDesc op.data).total ≤ op.xreg 1) (hidle : (s.segsBy (.move n)).isEmpty = true) :
    s.xferGo n c op = s.endMove n c op := by
  rw [State.xferGo, if_neg (by simp [hread]), if_neg (Nat.not_lt.2 hall), if_pos hidle]

end

theorem doneFlag_lt (d : List Byte) : (moveDesc d).doneFlag < 256 := byteAt_lt d 36

theorem flag_endMove {n : Nat} {op : ActiveOp} (hen : (moveDesc op.data).doneEn = true) :
    (s.endMove n c op).flag c (moveDesc op.data).doneFlag = true := by
  simp only [State.endMove, hen, if_true]
  exact flag_setFlag _ _ _ _ (doneFlag_lt op.data)

/-! ## The start of an operation -/

section

variable {op : FifoOp} (hlive : s.live a = some (c, l)) (hnext : (s.au a).nextOf 5 = some op) (hwen : opWen op.word = false)

include hlive hnext hwen

/-- The unit starts an operation of kind k, and does with it what its kind begins with. -/
theorem startMove_of_next {k : Nat} (hkind : opKind op.word = k) : s.startMove a false k =
    if k = 0 then (s.beginOp a 5 c op).readMove a c (startedOp op)
    else if k = 1 then (s.beginOp a 5 c op).wantPages a c (startedOp op) else s.beginOp a 5 c op :=
  startUnit_of_not_wen hlive hnext hwen (by simp [hkind])

theorem execXfer_of_next (hkind : opKind op.word = 0) :
    execXfer a s = .next ((s.beginOp a 5 c op).readMove a c (startedOp op)) := by
  simp only [execXfer, opOf_none hnext, startMove_of_next hlive hnext hwen hkind, if_true]

theorem execMovePageIn_of_next (hkind : opKind op.word = 1) :
    execMovePageIn a s = .next ((s.beginOp a 5 c op).wantPages a c (startedOp op)) := by
  simp only [execMovePageIn, opOf_none hnext, startMove_of_next hlive hnext hwen hkind, Nat.one_ne_zero, if_true, if_false]

end

end

/-! ## The obligation -/

/-- Settles O43: each clause names one branch of its command, and the lemma of that branch gives the state answered. -/
theorem transfersOfTheMOVEUnit : Obligations.Transfers_of_the_MOVE_unit := by
  unfold Obligations.Transfers_of_the_MOVE_unit
  refine ⟨?xferEnd, ?xferBegin, ?xferIssue, ?pageInEnd, ?pageInBegin⟩
  case xferEnd =>
    rintro a s c l op ⟨hop, hkind, hread, hall, hidle⟩
    refine ⟨_, execXfer_of_opOf hop hkind, ?_⟩
    rw [xferGo_of_done hread hall hidle]
    exact ⟨rfl, endMove_act s a c op, flag_endMove⟩
  case xferBegin =>
    rintro a s c l op ⟨hlive, hnext, hwen, hkind⟩
    exact ⟨_, execXfer_of_next hlive hnext hwen hkind, rfl⟩
  case xferIssue =>
    rintro a s c l op ⟨hop, hkind, hread, hleft⟩
    exact ⟨_, execXfer_of_opOf hop hkind, xferGo_of_left hread hleft⟩
  case pageInEnd =>
    rintro a s c l op ⟨hop, hkind⟩ hnone
    have hend : s.movePageInGo a c op = (s.endOp a 5).progress c := if_neg (by simp [hnone])
    exact ⟨_, execMovePageIn_of_opOf hop hkind, hend, by rw [hend, State.au_progress, State.act_endOp_same]⟩
  case pageInBegin =>
    rintro a s c l op ⟨hlive, hnext, hwen, hkind⟩
    exact ⟨_, execMovePageIn_of_next hlive hnext hwen hkind, rfl⟩

end Sys2Proof.Machine
end

section
/-! Rules over every command (12_contexts.md R521, 11_host.md R441, 15_security_firmware.md R626): a command changes the parts that
`partsOf` lists and no other, answers a next state with the queue unchanged, and burns fuses without unburning one; the obligations
O6, O9, O5 and O1. -/

namespace Sys2Proof.Machine

/-! ## Lists of parts as masks -/

/-- The mask, for `Kept`, of the parts listed; bit 18, part time turning back, is always set. -/
def partsMask : List Part → Nat
  | [] => 0x40000
  | p :: ps => 2 ^ p.pos ||| partsMask ps

/-- The parts in the order of their bits. -/
def Part.inOrder : List Part :=
  [.host, .hbm, .mem, .regs, .ports, .fns, .ctxs, .aus, .links, .sems, .solver, .totals, .power, .flash, .sec, .now, .free, .answer]

theorem Part.inOrder_pos (p : Part) : Part.inOrder[p.pos]? = some p := by
  cases p <;> rfl

theorem Part.pos_injective : Function.Injective Part.pos := fun p q h =>
  Option.some.inj (by rw [← p.inOrder_pos, ← q.inOrder_pos, h])

theorem Part.pos_lt (p : Part) : p.pos < 18 := by
  cases p <;> decide

theorem testBit_partsMask_of_not_mem {p : Part} {ps : List Part} (h : p ∉ ps) : (partsMask ps).testBit p.pos = false := by
  induction ps with
  | nil => exact Nat.testBit_two_pow_of_ne (n := 18) (Nat.ne_of_gt p.pos_lt)
  | cons q ps ih =>
    obtain ⟨hhead, htail⟩ := List.ne_and_not_mem_of_not_mem_cons h
    rw [partsMask, Nat.testBit_or, ih htail, Nat.testBit_two_pow_of_ne (Part.pos_injective.ne hhead.symm)]
    rfl

/-! ## The parts that a command changes -/

/-- The split over the commands: the mask of the Kept lemma of each meaning lies within the mask of the parts that `partsOf` lists. -/
theorem exec_outKept_partsOf (i : Instr) (s : State) : OutKept (partsMask (partsOf i)) s (exec i s) := by
  cases i with dsimp only [partsOf]
  | createPf => exact execCreatePf_kept rfl (.refl _ s)
  | createVf => exact execCreateVf_kept rfl (.refl _ s)
  | destroy => exact execDestroy_kept rfl (.refl _ s)
  | destructionComplete => exact execDestructionComplete_kept rfl (.refl _ s)
  | hubAdminWrite => exact execHubAdminWrite_kept rfl (.refl _ s)
  | adminGraceExpiry => exact execAdminGraceExpiry_kept rfl (.refl _ s)
  | hubSyncGo => exact execHubSyncGo_kept rfl (.refl _ s)
  | syncSummaryWritten => exact execSyncSummaryWritten_kept rfl (.refl _ s)
  | ringCtlWrite => exact execRingCtlWrite_kept rfl (.refl _ s)
  | dbCmdTail => exact execDbCmdTail_kept rfl (.refl _ s)
  | dbCplHead => exact execDbCplHead_kept rfl (.refl _ s)
  | doorbellAccepted => exact execDoorbellAccepted_kept rfl (.refl _ s)
  | descriptorStart => exact execDescriptorStart_kept rfl (.refl _ s)
  | irqDelayExpiry => exact execIrqDelayExpiry_kept rfl (.refl _ s)
  | evtCtlWrite => exact execEvtCtlWrite_kept rfl (.refl _ s)
  | evtHeadWrite => exact execEvtHeadWrite_kept rfl (.refl _ s)
  | loadProgram => exact execLoadProgram_kept rfl (.refl _ s)
  | run => exact execRun_kept rfl (.refl _ s)
  | runComplete => exact execRunComplete_kept rfl (.refl _ s)
  | setStep => exact execSetStep_kept rfl (.refl _ s)
  | secureNow => exact execSecureNow_kept rfl (.refl _ s)
  | restore => exact execRestore_kept rfl (.refl _ s)
  | restoreShard => exact execRestoreShard_kept rfl (.refl _ s)
  | openWindow => exact execOpenWindow_kept rfl (.refl _ s)
  | closeWindow => exact execCloseWindow_kept rfl (.refl _ s)
  | fence => exact execFence_kept rfl (.refl _ s)
  | preempt => exact execPreempt_kept rfl (.refl _ s)
  | preemptionSaveComplete => exact execPreemptionSaveComplete_kept rfl (.refl _ s)
  | resume => exact execResume_kept rfl (.refl _ s)
  | resumptionComplete => exact execResumptionComplete_kept rfl (.refl _ s)
  | displacedResume => exact execDisplacedResume_kept rfl (.refl _ s)
  | setMembership => exact execSetMembership_kept rfl (.refl _ s)
  | shardAdopted => exact execShardAdopted_kept rfl (.refl _ s)
  | shardCommit => exact execShardCommit_kept rfl (.refl _ s)
  | rollback => exact execRollback_kept rfl (.refl _ s)
  | resync => exact execResync_kept rfl (.refl _ s)
  | copy => exact execCopy_kept rfl (.refl _ s)
  | map => exact execMap_kept rfl (.refl _ s)
  | unmap => exact execUnmap_kept rfl (.refl _ s)
  | setCap => exact execSetCap_kept rfl (.refl _ s)
  | queryEnergy => exact execQueryEnergy_kept rfl (.refl _ s)
  | placeHint => exact execPlaceHint_kept rfl (.refl _ s)
  | failureNotice => exact execFailureNotice_kept rfl (.refl _ s)
  | bar4Access => exact execBar4Access_kept rfl (.refl _ s)
  | bar0RegisterWrite => exact execBar0RegisterWrite_kept rfl (.refl _ s)
  | rcRead => exact execRcRead_kept rfl (.refl _ s)
  | loReadLatch => exact execLoReadLatch_kept rfl (.refl _ s)
  | hawkDebugRead => exact execHawkDebugRead_kept rfl (.refl _ s)
  | secDiagGo => exact execSecDiagGo_kept rfl (.refl _ s)
  | pwrCtlModeWrite => exact execPwrCtlModeWrite_kept rfl (.refl _ s)
  | pwrCapWrite => exact execPwrCapWrite_kept rfl (.refl _ s)
  | lnkPortCtlWrite => exact execLnkPortCtlWrite_kept rfl (.refl _ s)
  | lnkPartIdWrite => exact execLnkPartIdWrite_kept rfl (.refl _ s)
  | secLcReqGo => exact execSecLcReqGo_kept rfl (.refl _ s)
  | lifecycleTransition => exact execLifecycleTransition_kept rfl (.refl _ s)
  | debugExpiry => exact execDebugExpiry_kept rfl (.refl _ s)
  | secUpdGo => exact execSecUpdGo_kept rfl (.refl _ s)
  | fwStaged => exact execFwStaged_kept rfl (.refl _ s)
  | secUpdCommit => exact execSecUpdCommit_kept rfl (.refl _ s)
  | secLogHeadWrite => exact execSecLogHeadWrite_kept rfl (.refl _ s)
  | logRecord => exact execLogRecord_kept rfl (.refl _ s)
  | coreInstruction => exact execCoreInstruction_kept rfl (.refl _ s)
  | corePageWaitEnd => exact execCorePageWaitEnd_kept rfl (.refl _ s)
  | logicalAuExit => exact execLogicalAuExit_kept rfl (.refl _ s)
  | dxIssue => exact execDxIssue_kept rfl (.refl _ s)
  | dxTryissue => exact execDxTryissue_kept rfl (.refl _ s)
  | fifoPlaceFree => exact execFifoPlaceFree_kept rfl (.refl _ s)
  | dxStnLd => exact execDxStnLd_kept rfl (.refl _ s)
  | dxStnGo => exact execDxStnGo_kept rfl (.refl _ s)
  | dxStnPos => exact execDxStnPos_kept rfl (.refl _ s)
  | dxStnWait => exact execDxStnWait_kept rfl (.refl _ s)
  | dxStnStat => exact execDxStnStat_kept rfl (.refl _ s)
  | dxFset => exact execDxFset_kept rfl (.refl _ s)
  | dxFclr => exact execDxFclr_kept rfl (.refl _ s)
  | dxFwait => exact execDxFwait_kept rfl (.refl _ s)
  | dxFwaitc => exact execDxFwaitc_kept rfl (.refl _ s)
  | dxFwaitx => exact execDxFwaitx_kept rfl (.refl _ s)
  | flagWaitSatisfied => exact execFlagWaitSatisfied_kept rfl (.refl _ s)
  | dxFtest => exact execDxFtest_kept rfl (.refl _ s)
  | dxQlvl => exact execDxQlvl_kept rfl (.refl _ s)
  | dxFlvl => exact execDxFlvl_kept rfl (.refl _ s)
  | dxFpace => exact execDxFpace_kept rfl (.refl _ s)
  | dxQpace => exact execDxQpace_kept rfl (.refl _ s)
  | dxLoop => exact execDxLoop_kept rfl (.refl _ s)
  | dxBrk => exact execDxBrk_kept rfl (.refl _ s)
  | dxWhere => exact execDxWhere_kept rfl (.refl _ s)
  | dxSemAcq => exact execDxSemAcq_kept rfl (.refl _ s)
  | semGranted => exact execSemGranted_kept rfl (.refl _ s)
  | dxSemRel => exact execDxSemRel_kept rfl (.refl _ s)
  | opStartAfterWait => exact execOpStartAfterWait_kept rfl (.refl _ s)
  | compute => exact execCompute_kept rfl (.refl _ s)
  | swapBankHeld => exact execSwapBankHeld_kept rfl (.refl _ s)
  | wload => exact execWload_kept rfl (.refl _ s)
  | wloadComplete => exact execWloadComplete_kept rfl (.refl _ s)
  | adaptLoad => exact execAdaptLoad_kept rfl (.refl _ s)
  | drain => exact execDrain_kept rfl (.refl _ s)
  | setf => exact execSetf_kept rfl (.refl _ s)
  | clrf => exact execClrf_kept rfl (.refl _ s)
  | nop => exact execNop_kept rfl (.refl _ s)
  | norm => exact execNorm_kept rfl (.refl _ s)
  | normBwd => exact execNormBwd_kept rfl (.refl _ s)
  | act => exact execAct_kept rfl (.refl _ s)
  | actBwd => exact execActBwd_kept rfl (.refl _ s)
  | smax => exact execSmax_kept rfl (.refl _ s)
  | smaxBwd => exact execSmaxBwd_kept rfl (.refl _ s)
  | merge => exact execMerge_kept rfl (.refl _ s)
  | elem => exact execElem_kept rfl (.refl _ s)
  | loss => exact execLoss_kept rfl (.refl _ s)
  | vmove => exact execVmove_kept rfl (.refl _ s)
  | setp => exact execSetp_kept rfl (.refl _ s)
  | rowred => exact execRowred_kept rfl (.refl _ s)
  | update => exact execUpdate_kept rfl (.refl _ s)
  | updateEtaArrives => exact execUpdateEtaArrives_kept rfl (.refl _ s)
  | stepSizeLate => exact execStepSizeLate_kept rfl (.refl _ s)
  | accum => exact execAccum_kept rfl (.refl _ s)
  | tmul => exact execTmul_kept rfl (.refl _ s)
  | xfer => exact execXfer_kept rfl (.refl _ s)
  | movePageIn => exact execMovePageIn_kept rfl (.refl _ s)
  | roller => exact execRoller_kept rfl (.refl _ s)
  | stencilSegmentIssue => exact execStencilSegmentIssue_kept rfl (.refl _ s)
  | stencilDone => exact execStencilDone_kept rfl (.refl _ s)
  | streamHaltResume => exact execStreamHaltResume_kept rfl (.refl _ s)
  | segmentComplete => exact execSegmentComplete_kept rfl (.refl _ s)
  | stagingBufferFree => exact execStagingBufferFree_kept rfl (.refl _ s)
  | queueRecordReady => exact execQueueRecordReady_kept rfl (.refl _ s)
  | slotVisitBegin => exact execSlotVisitBegin_kept rfl (.refl _ s)
  | slotVisitEnd => exact execSlotVisitEnd_kept rfl (.refl _ s)
  | slotTimeout => exact execSlotTimeout_kept rfl (.refl _ s)
  | slotBusy => exact execSlotBusy_kept rfl (.refl _ s)
  | hawkHotWindowEnd => exact execHawkHotWindowEnd_kept rfl (.refl _ s)
  | hawkEccError => exact execHawkEccError_kept rfl (.refl _ s)
  | hbmHotWindowEnd => exact execHbmHotWindowEnd_kept rfl (.refl _ s)
  | hbmCorrectedError => exact execHbmCorrectedError_kept rfl (.refl _ s)
  | memUncorr => exact execMemUncorr_kept rfl (.refl _ s)
  | hbmScrub => exact execHbmScrub_kept rfl (.refl _ s)
  | pageInStart => exact execPageInStart_kept rfl (.refl _ s)
  | pageInComplete => exact execPageInComplete_kept rfl (.refl _ s)
  | rollerSegmentIssue => exact execRollerSegmentIssue_kept rfl (.refl _ s)
  | rollerDetach => exact execRollerDetach_kept rfl (.refl _ s)
  | rollerRcvFailed => exact execRollerRcvFailed_kept rfl (.refl _ s)
  | rollerComplete => exact execRollerComplete_kept rfl (.refl _ s)
  | rollerDelivery => exact execRollerDelivery_kept rfl (.refl _ s)
  | portTrainingDone => exact execPortTrainingDone_kept rfl (.refl _ s)
  | linkDown => exact execLinkDown_kept rfl (.refl _ s)
  | downRetrainTimer => exact execDownRetrainTimer_kept rfl (.refl _ s)
  | laneLossOfLock => exact execLaneLossOfLock_kept rfl (.refl _ s)
  | flitReceive => exact execFlitReceive_kept rfl (.refl _ s)
  | sideWordReceive => exact execSideWordReceive_kept rfl (.refl _ s)
  | uncorrectableCodeword => exact execUncorrectableCodeword_kept rfl (.refl _ s)
  | replayBoundExceeded => exact execReplayBoundExceeded_kept rfl (.refl _ s)
  | transactionForward => exact execTransactionForward_kept rfl (.refl _ s)
  | windowArrival => exact execWindowArrival_kept rfl (.refl _ s)
  | windowWriteComplete => exact execWindowWriteComplete_kept rfl (.refl _ s)
  | holdReceive => exact execHoldReceive_kept rfl (.refl _ s)
  | holdResend => exact execHoldResend_kept rfl (.refl _ s)
  | completeReceive => exact execCompleteReceive_kept rfl (.refl _ s)
  | abortReceive => exact execAbortReceive_kept rfl (.refl _ s)
  | transactionTimeout => exact execTransactionTimeout_kept rfl (.refl _ s)
  | memberReceive => exact execMemberReceive_kept rfl (.refl _ s)
  | linkWorkPost => exact execLinkWorkPost_kept rfl (.refl _ s)
  | linkWorkStart => exact execLinkWorkStart_kept rfl (.refl _ s)
  | linkWorkComplete => exact execLinkWorkComplete_kept rfl (.refl _ s)
  | collChunkReceive => exact execCollChunkReceive_kept rfl (.refl _ s)
  | collAbortReceive => exact execCollAbortReceive_kept rfl (.refl _ s)
  | collTimeout => exact execCollTimeout_kept rfl (.refl _ s)
  | stepEndExchange => exact execStepEndExchange_kept rfl (.refl _ s)
  | timeSample => exact execTimeSample_kept rfl (.refl _ s)
  | timeUnlocked => exact execTimeUnlocked_kept rfl (.refl _ s)
  | prbsTest => exact execPrbsTest_kept rfl (.refl _ s)
  | perstNAssert => exact execPerstNAssert_kept rfl (.refl _ s)
  | perstNDeassert => exact execPerstNDeassert_kept rfl (.refl _ s)
  | hotReset => exact execHotReset_kept rfl (.refl _ s)
  | hostPortLost => exact execHostPortLost_kept rfl (.refl _ s)
  | hostPortUp => exact execHostPortUp_kept rfl (.refl _ s)
  | hostGraceExpired => exact execHostGraceExpired_kept rfl (.refl _ s)
  | functionLevelReset => exact execFunctionLevelReset_kept rfl (.refl _ s)
  | ideInsecure => exact execIdeInsecure_kept rfl (.refl _ s)
  | spdmRequest => exact execSpdmRequest_kept rfl (.refl _ s)
  | ideKmRequest => exact execIdeKmRequest_kept rfl (.refl _ s)
  | deadlockWindowExpiry => exact execDeadlockWindowExpiry_kept rfl (.refl _ s)
  | slowdownWindowEnd => exact execSlowdownWindowEnd_kept rfl (.refl _ s)
  | stashRequest => exact execStashRequest_kept rfl (.refl _ s)
  | stashRelease => exact execStashRelease_kept rfl (.refl _ s)
  | stepClose => exact execStepClose_kept rfl (.refl _ s)
  | stepBoundaryOpen => exact execStepBoundaryOpen_kept rfl (.refl _ s)
  | pendingPageFirstWrite => exact execPendingPageFirstWrite_kept rfl (.refl _ s)
  | shadowFrameFree => exact execShadowFrameFree_kept rfl (.refl _ s)
  | securePageCopy => exact execSecurePageCopy_kept rfl (.refl _ s)
  | secured => exact execSecured_kept rfl (.refl _ s)
  | secureFailed => exact execSecureFailed_kept rfl (.refl _ s)
  | solverJobComplete => exact execSolverJobComplete_kept rfl (.refl _ s)
  | inputUndervoltage => exact execInputUndervoltage_kept rfl (.refl _ s)
  | inputOvervoltage => exact execInputOvervoltage_kept rfl (.refl _ s)
  | inputBelowServiceMin => exact execInputBelowServiceMin_kept rfl (.refl _ s)
  | inputRise => exact execInputRise_kept rfl (.refl _ s)
  | voltageCapUpdate => exact execVoltageCapUpdate_kept rfl (.refl _ s)
  | capControlTick => exact execCapControlTick_kept rfl (.refl _ s)
  | excursionCut => exact execExcursionCut_kept rfl (.refl _ s)
  | currentLimit => exact execCurrentLimit_kept rfl (.refl _ s)
  | currentLimitEnd => exact execCurrentLimitEnd_kept rfl (.refl _ s)
  | capFloor => exact execCapFloor_kept rfl (.refl _ s)
  | droopStretch => exact execDroopStretch_kept rfl (.refl _ s)
  | droopEnd => exact execDroopEnd_kept rfl (.refl _ s)
  | energyUpdate => exact execEnergyUpdate_kept rfl (.refl _ s)
  | thermalSensorRead => exact execThermalSensorRead_kept rfl (.refl _ s)
  | thermalTrip => exact execThermalTrip_kept rfl (.refl _ s)
  | stageFault => exact execStageFault_kept rfl (.refl _ s)
  | hostPowerOn => exact execHostPowerOn_kept rfl (.refl _ s)
  | serviceReset => exact execServiceReset_kept rfl (.refl _ s)
  | romBoot => exact execRomBoot_kept rfl (.refl _ s)
  | stage1Run => exact execStage1Run_kept rfl (.refl _ s)
  | fwReady => exact execFwReady_kept rfl (.refl _ s)
  | fwRestart => exact execFwRestart_kept rfl (.refl _ s)
  | compartmentHeartbeatMiss => exact execCompartmentHeartbeatMiss_kept rfl (.refl _ s)
  | fwHalted => exact execFwHalted_kept rfl (.refl _ s)
  | fwMemoryUncorr => exact execFwMemoryUncorr_kept rfl (.refl _ s)
  | jtagInstruction => exact execJtagInstruction_kept rfl (.refl _ s)
  | identityRead => exact execIdentityRead_kept rfl (.refl _ s)
  | telemetry => exact execTelemetry_kept rfl (.refl _ s)
  | powerCap => exact execPowerCap_kept rfl (.refl _ s)
  | reset => exact execReset_kept rfl (.refl _ s)
  | lifecycle => exact execLifecycle_kept rfl (.refl _ s)
  | logPull => exact execLogPull_kept rfl (.refl _ s)
  | power => exact execPower_kept rfl (.refl _ s)
  | coolantSet => exact execCoolantSet_kept rfl (.refl _ s)
  | coolantWarning => exact execCoolantWarning_kept rfl (.refl _ s)
  | coolantWarningClear => exact execCoolantWarningClear_kept rfl (.refl _ s)
  | coolantOff => exact execCoolantOff_kept rfl (.refl _ s)
  | leakDetected => exact execLeakDetected_kept rfl (.refl _ s)
  | svcRstN => exact execSvcRstN_kept rfl (.refl _ s)
  | configurationRequest => exact execConfigurationRequest_kept rfl (.refl _ s)
  | enterCompliance => exact execEnterCompliance_kept rfl (.refl _ s)

/-- Settles O6: a part that `partsOf` does not list has its bit clear in the mask. -/
theorem onlyListedPartsChange : Obligations.Only_listed_parts_change := by
  unfold Obligations.Only_listed_parts_change
  intro i s t p hexec hp
  obtain ⟨u, hu, hkept⟩ := exec_outKept_partsOf i s
  cases hu.symm.trans hexec
  exact hkept.same p (testBit_partsMask_of_not_mem hp)

/-- Settles O9: `Kept` carries the rise of the fuses. -/
theorem fusesChangeOnlyFrom0To1 : Obligations.Fuses_change_only_from_0_to_1 := by
  unfold Obligations.Fuses_change_only_from_0_to_1
  intro i s t hexec
  obtain ⟨u, hu, hkept⟩ := exec_outKept i s
  cases hu.symm.trans hexec
  exact hkept.rise

/-- Settles O5: every meaning answers a next state of which `Kept` holds. -/
theorem everyCommandAnswersANextState : Obligations.Every_command_answers_a_next_state := by
  unfold Obligations.Every_command_answers_a_next_state
  intro i s
  obtain ⟨t, ht, hkept⟩ := exec_outKept i s
  exact ⟨t, ht, hkept.pending⟩

/-- Settles O1: the two branches of `step`. -/
theorem stepRunsTheCommandInFront : Obligations.Step_runs_the_command_in_front := by
  unfold Obligations.Step_runs_the_command_in_front
  exact ⟨fun _ _ _ h => step_of_pending_cons h, fun _ h => step_of_pending_nil h⟩

end Sys2Proof.Machine
end

section
/-! Sizes of BAR0 accesses (16_reference.md R666): what a read and a write of each size and alignment are; the obligation O17. -/

namespace Sys2Proof.Machine

section

variable {s : State} {f : FnId} {off size v : Nat}

/-! ## Reads -/

theorem execRcRead_word (h : off % 4 = 0) :
    execRcRead f off 4 s = .next { (s.readWord f off).2 with answer := natLe 4 (s.readWord f off).1 } := by
  rw [execRcRead, State.bar0Read, if_pos ⟨rfl, h⟩]

theorem execRcRead_pair (h : off % 8 = 0) : execRcRead f off 8 s = .next
    { ((s.readWord f off).2.readWord f (off + 4)).2 with
      answer := natLe 4 (s.readWord f off).1 ++ natLe 4 ((s.readWord f off).2.readWord f (off + 4)).1 } := by
  rw [execRcRead, State.bar0Read, if_neg (by simp), if_pos ⟨rfl, h⟩]

theorem execRcRead_refused (hup : s.barUp = true) (hword : ¬ (size = 4 ∧ off % 4 = 0)) (hpair : ¬ (size = 8 ∧ off % 8 = 0)) :
    execRcRead f off size s = .next { s.badAccess f with answer := List.replicate size 0 } := by
  rw [execRcRead, State.bar0Read, if_neg hword, if_neg hpair, if_pos hup]

/-- A read in the state that another one leaves, with its answer, reads as without that answer. -/
theorem execRcRead_word_of_answer (h : off % 4 = 0) (bs : List Byte) :
    execRcRead f off 4 { s with answer := bs } = execRcRead f off 4 s := by
  obtain ⟨hvalue, hstate⟩ := readWord_answer s bs f off
  rw [execRcRead_word h, execRcRead_word h, hvalue, hstate]

/-! ## Writes -/

theorem execBar0RegisterWrite_word (h : off % 4 = 0) :
    execBar0RegisterWrite f off 4 v s = .next (s.writeWord f off (v % 2 ^ 32)) := by
  rw [execBar0RegisterWrite, if_pos ⟨rfl, h⟩]

theorem execBar0RegisterWrite_pair (h : off % 8 = 0) : execBar0RegisterWrite f off 8 v s =
    .next ((s.writeWord f off (v % 2 ^ 32)).writeWord f (off + 4) (v / 2 ^ 32 % 2 ^ 32)) := by
  rw [execBar0RegisterWrite, if_neg (by simp), if_pos ⟨rfl, h⟩]

theorem execBar0RegisterWrite_refused (hup : s.barUp = true) (hword : ¬ (size = 4 ∧ off % 4 = 0))
    (hpair : ¬ (size = 8 ∧ off % 8 = 0)) : execBar0RegisterWrite f off size v s = .next (s.badAccess f) := by
  rw [execBar0RegisterWrite, if_neg hword, if_neg hpair, if_pos hup]

end

/-! ## The obligation -/

/-- Settles O17: each access is the branch of its size and alignment; an 8-byte boundary is a 4-byte one, and so is the word above
it. -/
theorem sizesOfBAR0Accesses : Obligations.Sizes_of_BAR0_accesses := by
  unfold Obligations.Sizes_of_BAR0_accesses
  have lower {off : Nat} (h : off % 8 = 0) : off % 4 = 0 := by omega
  have upper {off : Nat} (h : off % 8 = 0) : (off + 4) % 4 = 0 := by omega
  refine ⟨?readWord, ?writePair, ?readPair, ?refused, ?latch⟩
  case readWord =>
    intro f off s h
    exact ⟨_, execRcRead_word h, length_natLe 4 _⟩
  case writePair =>
    intro f off v s h
    refine ⟨_, _, execBar0RegisterWrite_word (lower h), execBar0RegisterWrite_word (upper h), ?_⟩
    rw [Nat.mod_mod, Nat.mod_mod]
    exact execBar0RegisterWrite_pair h
  case readPair =>
    intro f off s h
    exact ⟨_, _, execRcRead_word (lower h), (execRcRead_word_of_answer (upper h) _).trans (execRcRead_word (upper h)), execRcRead_pair h⟩
  case refused =>
    intro f off size v s hup hword hpair
    exact ⟨execBar0RegisterWrite_refused hup hword hpair, execRcRead_refused hup hword hpair⟩
  case latch =>
    intro f off size s
    rfl

end Sys2Proof.Machine
end

section
/-! Caps, power registers, the power input, power limiting, energy and heat (14_power_package.md): what each operation of the power
manager leaves in the registers and in the power state; the obligations O16, O46 and O47. -/

namespace Sys2Proof.Machine

section

variable {s : State}

/-! ## Registers of the power page -/

/-- An event of both PFs leaves the fields of the power page alone. -/
theorem fld_raise_all {code k : Nat} {pay : List (Nat × Nat × Nat)} (hlo : 0x400000 ≤ k) (hhi : k < 0x1000000) (hi lo : Nat) :
    (s.raise code .all pay).fld k hi lo = s.fld k hi lo :=
  State.fld_of_reg (State.reg_raise_all hhi hlo) hi lo

/-- A field that is written with a value of its width reads that value. -/
theorem fld_setFld_of_lt (s : State) {k hi lo v : Nat} (hhi : hi < 32) (hv : v < 2 ^ (hi + 1 - lo)) :
    (s.setFld k hi lo v).fld k hi lo = v := (State.fld_setFld _ _ _ _ _ hhi).trans (Nat.mod_eq_of_lt hv)

/-- A counter has counted one where a condition occurs, its flag in another register (R670). -/
theorem fld_flagCount_counter (s : State) {k b kc hi lo : Nat} (hhi : hi < 32) (hne : kc ≠ k) :
    (s.flagCount k b kc hi lo).fld kc hi lo = satAdd (2 ^ (hi + 1 - lo) - 1) (s.fld kc hi lo) 1 := by
  rw [State.flagCount, State.fld_count _ _ _ _ _ hhi, State.fld_setFld_ne _ _ _ _ _ _ _ _ hne]

@[simp] theorem power_at (s : State) (t : Nat) : (s.at t).power = s.power := rfl
@[simp] theorem now_at (s : State) (t : Nat) : (s.at t).now = max s.now t := rfl
@[simp] theorem fld_at (s : State) (t k hi lo : Nat) : (s.at t).fld k hi lo = s.fld k hi lo := rfl
@[simp] theorem power_modPower (s : State) (f : PowerSt → PowerSt) : (s.modPower f).power = f s.power := rfl
@[simp] theorem regs_modPower (s : State) (f : PowerSt → PowerSt) : (s.modPower f).regs = s.regs := rfl
@[simp] theorem fld_modPower (s : State) (f : PowerSt → PowerSt) (k hi lo : Nat) : (s.modPower f).fld k hi lo = s.fld k hi lo := rfl
@[simp] theorem ceff_at (s : State) (t : Nat) : (s.at t).ceff = s.ceff := rfl

/-! ## The host cap (R589) -/

theorem hostCap_of_reg {u : State} (h : u.reg PWR_CAP = s.reg PWR_CAP) : u.hostCap = s.hostCap := State.fld_of_reg h 11 0

theorem notEvt_pwrCap : NotEvt PWR_CAP := NotEvt.mid (by decide) (by decide) (by decide)

@[simp] theorem hostCap_capStatus (s : State) (byVoltage : Bool) : (s.capStatus byVoltage).hostCap = s.hostCap :=
  hostCap_of_reg (reg_capStatus notEvt_pwrCap (by decide))

@[simp] theorem hostCap_complete (s : State) (c k st res : Nat) : (s.complete c k st res).hostCap = s.hostCap :=
  hostCap_of_reg (reg_complete notEvt_pwrCap (by unfold PWR_CAP CTX_RING_STATUS; omega) (by unfold PWR_CAP CTX_RING_EVT_CNT; omega))

@[simp] theorem hostCap_svcCapGo (s : State) : s.svcCapGo.hostCap = s.hostCap := by
  unfold State.svcCapGo
  split
  · exact hostCap_capStatus s false
  · rfl

theorem hostCap_setHostCap {w : Nat} (h : w < 2 ^ 12) : (s.setHostCap w).hostCap = w := by
  rw [State.setHostCap, hostCap_capStatus, State.hostCap, fld_setFld_of_lt _ (by decide) h]

@[simp] theorem power_setHostCap (s : State) (w : Nat) : (s.setHostCap w).power = s.power := power_capStatus _ _

@[simp] theorem hostCap_setPhase (s : State) (c k : Nat) (ph : CmdPhase) : (s.setPhase c k ph).hostCap = s.hostCap := by
  rw [State.hostCap, State.fld_setPhase, State.hostCap]

@[simp] theorem power_complete (s : State) (c k st res : Nat) : (s.complete c k st res).power = s.power :=
  (State.complete_kept (m := 0x849) rfl (Kept.refl _ s)).same .power rfl

theorem execPwrCapWrite_of_admin {f : FnId} {v : Word32} (hup : s.barUp = true) (hadmin : f.val = s.adminPf) :
    execPwrCapWrite f v s = .next (s.setHostCap (min 2400 (max 1000 (10 * (bits v.toNat 11 0 / 10))))) := by
  rw [execPwrCapWrite, if_neg (by simp [hup]), if_pos hadmin, tens]

theorem execSetCap_of_accepted {c : CtxId} {k w : Nat} {cmd : Cmd} (hcmd : s.cmdAt c k = some cmd) (hop : byteAt cmd.desc 0 = 0x10)
    (hserves : s.serves 0x10 = true) (hphase : cmd.phase = .started) (howner : s.ownerOf c = s.adminPf)
    (hw : w = fieldLe cmd.desc 4 2) (hfields : ¬ (w % 10 ≠ 0 ∨ w < 1000 ∨ 2400 < w ∨ bits (byteAt cmd.desc 6) 7 1 ≠ 0 ∨ !zeroIn cmd.desc 7 64)) :
    execSetCap c k s = .next (if bit (byteAt cmd.desc 6) 0 ∧ (s.setHostCap w).ceff < (s.setHostCap w).fld PWR_INPUT_W 15 0
      then (s.setHostCap w).setPhase c k (.underway (s.setHostCap w).capResult (s.setHostCap w).ceff)
      else (s.setHostCap w).complete c k 0x00 (s.setHostCap w).capResult) := by
  subst hw
  rw [execSetCap, onCmd_eq hcmd hop hserves, hphase]
  dsimp only
  rw [if_neg (not_not_intro howner), if_neg hfields]

@[simp] theorem hostCap_svcReply (s : State) (bs : List Byte) : (s.svcReply bs).hostCap = s.hostCap := rfl
@[simp] theorem hostCap_modSvc (s : State) (f : SvcSt → SvcSt) : (s.modSvc f).hostCap = s.hostCap := rfl

/-- A request of the rack changes the service side and, through it, the registers that show the caps; PWR_CAP is none of them. -/
theorem execPowerCap_hostCap (w : Nat) (s : State) : ∃ t, execPowerCap w s = .next t ∧ t.hostCap = s.hostCap := by
  refine ⟨_, rfl, ?_⟩
  split
  · rfl
  · dsimp only
    rw [hostCap_svcReply]
    split
    · simp
    · split
      · simp
      · rfl

end

/-- Settles O16: both writes end in `setHostCap`, and no operation of the service side writes PWR_CAP. -/
theorem hostCapAndServiceCap : Obligations.Host_cap_and_service_cap := by
  unfold Obligations.Host_cap_and_service_cap
  refine ⟨?pwrCapWrite, ?setCap, fun w s => execPowerCap_hostCap w s⟩
  case pwrCapWrite =>
    intro f v s hup hadmin
    exact ⟨_, execPwrCapWrite_of_admin hup hadmin, hostCap_setHostCap (by omega), power_setHostCap _ _⟩
  case setCap =>
    rintro c k s cmd hcmd ⟨hop, hserves⟩ ⟨hphase, howner⟩ ⟨htens, hlow, hhigh⟩ ⟨hflags, hzero⟩
    have hfields : ¬ (fieldLe cmd.desc 4 2 % 10 ≠ 0 ∨ fieldLe cmd.desc 4 2 < 1000 ∨ 2400 < fieldLe cmd.desc 4 2 ∨
        bits (byteAt cmd.desc 6) 7 1 ≠ 0 ∨ !zeroIn cmd.desc 7 64) := by
      simp [htens, hflags, hzero, hlow, hhigh]
    have hcap : (s.setHostCap (fieldLe cmd.desc 4 2)).hostCap = fieldLe cmd.desc 4 2 := hostCap_setHostCap (by omega)
    refine ⟨_, execSetCap_of_accepted hcmd hop hserves hphase howner rfl hfields, ?_⟩
    split
    · exact ⟨by rw [hostCap_setPhase, hcap], by rw [State.setPhase_power, power_setHostCap]⟩
    · exact ⟨by rw [hostCap_complete, hcap], by rw [power_complete, power_setHostCap]⟩

/-! ## Power modes (R590) -/

section

variable {s : State} {τ : Nat}

/-- The power state with every clock and voltage at most the mode's. -/
def PowerSt.inMode (p : PowerSt) (mode : Nat) : PowerSt :=
  { p with mhz := p.mhz.map fun e => (e.1, min e.2 (modeMhz mode)), mv := p.mv.map fun e => (e.1, min e.2 (modeMv mode)) }

theorem execPwrCtlModeWrite_of_new {f : FnId} {v : Word32} {mode : Nat} (hup : s.barUp = true) (hadmin : f.val = s.adminPf)
    (hmode : mode = bits v.toNat 1 0) (hthree : mode ≠ 3) (hnew : mode ≠ s.fld PWR_CTL 1 0) :
    execPwrCtlModeWrite f v s = .next (((s.setFld PWR_CTL 1 0 mode).modPower fun p => p.inMode mode).raise 0x0707 .all
      [(0, 1, s.fld PWR_CTL 1 0), (1, 1, mode)]) := by
  subst hmode
  rw [execPwrCtlModeWrite, if_neg (by simp [hup]), if_neg (not_not_intro hadmin)]
  dsimp only
  rw [if_neg (not_or.mpr ⟨hthree, hnew⟩)]
  rfl

/-! ## The power input (R576, R609) -/

/-- The host side off, with its cause, and the service side as it was; `hostOn` is what `switchOff` looks at. -/
theorem power_switchOff_input {mv cause : Nat} (hon : s.power.hostOn = true) :
    (((s.at τ).modSvc fun v => { v with mv := mv }).switchOff cause 0).power =
      { PowerSt.reset with hostOn := false, svc := { s.power.svc with mv := mv, cause := cause, unit := 0 }, vcap := voltageCap mv } :=
  power_switchOff _ _ _ hon

theorem serviceReset_of_on (h : s.power.hostOn = true) :
    s.serviceReset = (s.modSvc fun v => { v with cause := 1, unit := 0 }).comeUp := if_pos h

theorem powerOn_of_not_refused (h : s.onRefused = false) : s.powerOn = s.comeUp.modSvc fun v => { v with tripAt := none } :=
  if_neg (by simp [h])

@[simp] theorem fld_modSvc (s : State) (f : SvcSt → SvcSt) (k hi lo : Nat) : (s.modSvc f).fld k hi lo = s.fld k hi lo := rfl

theorem power_serviceReset (h : s.power.hostOn = true) : s.serviceReset.power =
    { PowerSt.reset with svc := { s.power.svc with cause := 1, unit := 0 }, vcap := voltageCap s.power.svc.mv } := by
  rw [serviceReset_of_on h]
  exact power_comeUp _

theorem cause_serviceReset (h : s.power.hostOn = true) : s.serviceReset.fld PWR_RESET_CAUSE 3 0 = 1 := by
  rw [serviceReset_of_on h]
  exact cause_comeUp _

end

/-- Settles O46: each clause is one branch of its command, and the facts about `switchOff` and `comeUp` say what it leaves. -/
theorem powerRegistersAndInput : Obligations.Power_registers_and_input := by
  unfold Obligations.Power_registers_and_input
  refine ⟨?modeWrite, ?capWrite, ?undervoltage, ?overvoltage, ?belowMin, ?rise, ?powerOn, ?serviceReset⟩
  case modeWrite =>
    rintro f v s ⟨hup, hadmin, hthree, hnew⟩
    have hsmall : bits v.toNat 1 0 < 2 ^ 2 := Nat.mod_lt _ (by decide)
    refine ⟨_, execPwrCtlModeWrite_of_new hup hadmin rfl hthree hnew, ?_, by simp [PowerSt.inMode]⟩
    rw [fld_raise_all (by decide) (by decide), fld_modPower, fld_setFld_of_lt _ (by decide) hsmall]
  case capWrite =>
    rintro f v s ⟨hup, hadmin⟩
    exact ⟨_, execPwrCapWrite_of_admin hup hadmin, hostCap_setHostCap (by omega)⟩
  case undervoltage =>
    rintro mv τ s ⟨hon, hlow⟩
    exact ⟨_, congrArg Host.Outcome.next (if_pos hlow), power_switchOff_input hon⟩
  case overvoltage =>
    rintro mv τ s ⟨hon, hhigh⟩
    exact ⟨_, congrArg Host.Outcome.next (if_pos hhigh), power_switchOff_input hon⟩
  case belowMin =>
    rintro mv s ⟨hon, hlow⟩
    refine ⟨_, congrArg Host.Outcome.next (if_pos hlow), ?_, rfl⟩
    rw [power_modSvc, power_switchOff _ _ _ hon]
  case rise =>
    rintro mv s ⟨hoff, hhigh⟩
    exact ⟨_, congrArg Host.Outcome.next (if_pos ⟨hhigh, by simp [hoff]⟩), rfl⟩
  case powerOn =>
    intro s hnot
    refine ⟨_, congrArg Host.Outcome.next (powerOn_of_not_refused hnot), ?_, ?_, ?_⟩
    · rw [power_modSvc, power_comeUp]
      rfl
    · rw [fld_modSvc, cause_comeUp]
    · rw [fld_modSvc, fwState_comeUp]
  case serviceReset =>
    intro s hon
    refine ⟨_, rfl, power_serviceReset hon, cause_serviceReset hon, ?_⟩
    rw [serviceReset_of_on hon]
    exact fwState_comeUp _

end Sys2Proof.Machine
end

section
/-! Power limiting, droop, energy and heat (14_power_package.md Table 14.3, R593 to R602): what each layer leaves in the power state
and in the registers that show and count it; the obligation O47. -/

namespace Sys2Proof.Machine

section

variable {s : State} {τ watts : Nat}

/-! ## The voltage cap (R580) -/

theorem execVoltageCapUpdate_of_on (mv : Nat) (hon : s.power.hostOn = true) : ∃ t, execVoltageCapUpdate mv τ s = .next t ∧
    t.power = { s.power with svc := { s.power.svc with mv := mv }, vcap := voltageCap mv } ∧ t.fld PWR_INPUT 15 0 = mv / 10 % 2 ^ 16 := by
  unfold execVoltageCapUpdate
  extract_lets s0 old new s1 s2 s3
  have hon0 : s0.power.hostOn = true := hon
  rw [if_neg (by simp [hon0])]
  have hpower1 : s1.power = { s.power with svc := { s.power.svc with mv := mv }, vcap := voltageCap mv } := rfl
  have hinput1 : s1.fld PWR_INPUT 15 0 = mv / 10 % 2 ^ 16 := by
    unfold s1
    rw [fld_modPower]
    exact State.fld_setFld _ _ _ _ _ (by decide)
  have hpower2 : s2.power = s1.power := by unfold s2; split <;> rfl
  have hinput2 : s2.fld PWR_INPUT 15 0 = s1.fld PWR_INPUT 15 0 := by
    unfold s2
    split
    · exact State.fld_setFld_ne _ _ _ _ _ _ _ _ (by decide)
    · rfl
  have hpower3 : s3.power = s2.power := by
    unfold s3
    rw [power_capStatus]
    split <;> rfl
  have hinput3 : s3.fld PWR_INPUT 15 0 = s2.fld PWR_INPUT 15 0 := by
    unfold s3
    rw [State.fld_of_reg (reg_capStatus (NotEvt.mid (by decide) (by decide) (by decide)) (by decide))]
    split
    · exact State.fld_setFld_ne _ _ _ _ _ _ _ _ (by decide)
    · rfl
  have hpower : s3.power = _ := hpower3.trans (hpower2.trans hpower1)
  have hinput : s3.fld PWR_INPUT 15 0 = _ := hinput3.trans (hinput2.trans hinput1)
  split
  · exact ⟨_, rfl, by rw [State.raise_power, hpower], by rw [fld_raise_all (by decide) (by decide), hinput]⟩
  · exact ⟨_, rfl, hpower, hinput⟩

/-! ## The cap layer (R582) -/

/-- A bound above the lowest clock of 250 MHz may be raised. -/
theorem le_floor_of_le {x y z : Nat} (h : x ≤ max 250 y) (hyz : y ≤ z) : x ≤ max 250 z := by
  omega

/-- The state in which the cap layer has noted a reading: the averages kept, and PWR_INPUT_W and PWR_INPUT showing it. -/
def State.noteWatts (s : State) (watts : Nat) : State :=
  let ws := (watts :: s.power.watts).take 100
  (((s.modPower fun p => { p with watts := ws }).setFld PWR_INPUT_W 15 0 watts).setFld PWR_INPUT_W 31 16
    (ws.foldl (· + ·) 0 / ws.length)).setFld PWR_INPUT 31 16 (if s.power.svc.mv = 0 then 0 else min 0xFFFF (100000 * watts / s.power.svc.mv))

/-- The highest clock that the cap layer may set in a domain. -/
def State.capTop (s : State) (high : Bool) (d : Nat) : Nat := if high then min (s.topMhz d) (mget 0 s.power.mhz d) else s.topMhz d

theorem power_noteWatts (s : State) (watts : Nat) :
    (s.noteWatts watts).power = { s.power with watts := (watts :: s.power.watts).take 100 } := rfl

theorem reg_noteWatts {k : Nat} (hw : k ≠ PWR_INPUT_W) (hin : k ≠ PWR_INPUT) : (s.noteWatts watts).reg k = s.reg k := by
  unfold State.noteWatts
  rw [State.reg_setFld_ne _ _ _ _ _ _ hin, State.reg_setFld_ne _ _ _ _ _ _ hw, State.reg_setFld_ne _ _ _ _ _ _ hw]
  rfl

theorem inputW_noteWatts (h : watts < 2 ^ 16) : (s.noteWatts watts).fld PWR_INPUT_W 15 0 = watts := by
  unfold State.noteWatts
  rw [State.fld_setFld_ne _ _ _ _ _ _ _ _ (by decide), State.fld_setFld_below _ _ _ _ _ _ _ (by decide) (by decide),
    fld_setFld_of_lt _ (by decide) h]

theorem ceff_noteWatts : (s.noteWatts watts).ceff = s.ceff := by
  rw [State.ceff, State.ceff, hostCap_of_reg (reg_noteWatts (by decide) (by decide)), power_noteWatts]

theorem topMhz_noteWatts (d : Nat) : (s.noteWatts watts).topMhz d = s.topMhz d := by
  rw [State.topMhz, State.topMhz, State.fld_of_reg (reg_noteWatts (by decide) (by decide)), power_noteWatts]

/-- The state in which the cap layer has set the clocks after a reading. -/
def State.capTick (s : State) (watts : Nat) : State :=
  let u := s.noteWatts watts
  let high := decide (u.ceff < watts)
  let v := u.setClocks (u.capTop high)
  if high then v else v.modPower fun p => { p with idle := false }

theorem execCapControlTick_of_up (hon : s.power.hostOn = true) (hup : s.fwUp = true) :
    execCapControlTick watts τ s = .next ((s.at τ).capTick watts) := by
  have hgo : ¬ (!(s.at τ).power.hostOn ∨ !(s.at τ).fwUp) := by
    rw [show (s.at τ).fwUp = s.fwUp from rfl, power_at, hon, hup]
    decide
  unfold execCapControlTick
  extract_lets s0
  rw [if_neg hgo]
  rfl

/-- Idle cycles aside, the cap layer leaves what setting the clocks leaves. -/
theorem capTick_spec (s : State) (watts : Nat) : (s.capTick watts).regs = (s.noteWatts watts).regs ∧
    (s.capTick watts).power.watts = (watts :: s.power.watts).take 100 ∧
    ∀ d, d < 24 → mget 0 (s.capTick watts).power.mhz d ≤ max 250 ((s.noteWatts watts).capTop (decide (s.ceff < watts)) d) := by
  obtain ⟨hregs, hwatts, hmhz⟩ := setClocks_spec (s.noteWatts watts) ((s.noteWatts watts).capTop (decide (s.ceff < watts)))
  unfold State.capTick
  dsimp only
  rw [ceff_noteWatts]
  split
  · exact ⟨hregs, hwatts, hmhz⟩
  · rw [power_modPower, regs_modPower]
    exact ⟨hregs, hwatts, hmhz⟩

theorem capTop_le_topMhz (high : Bool) (d : Nat) : (s.noteWatts watts).capTop high d ≤ s.topMhz d := by
  unfold State.capTop
  rw [topMhz_noteWatts]
  split
  · exact Nat.min_le_left _ _
  · exact Nat.le_refl _

theorem capTop_le_mhz_of_high (d : Nat) : (s.noteWatts watts).capTop true d ≤ mget 0 s.power.mhz d := Nat.min_le_right _ _

/-! ## Excursions, the current limit and the floor (R582 to R584) -/

/-- A layer's event follows once in 100 ms (R616): it changes what the layer keeps of its event, and no register of the power page. -/
theorem next_of_due {u : State} {last : Option Nat} {now code : Nat} {f : PowerSt → PowerSt} {pay : List (Nat × Nat × Nat)} :
    ∃ t, (if due last now then .next ((u.modPower f).raise code .all pay) else .next u : Out) = .next t ∧
      (∀ {α : Type} (g : PowerSt → α), (∀ p, g (f p) = g p) → g t.power = g u.power) ∧
      ∀ k hi lo, 0x400000 ≤ k → k < 0x1000000 → t.fld k hi lo = u.fld k hi lo := by
  split
  · refine ⟨_, rfl, fun g hg => ?_, fun k hi lo hmin hmax => ?_⟩
    · rw [State.raise_power]
      exact hg u.power
    · rw [fld_raise_all hmin hmax, fld_modPower]
  · exact ⟨_, rfl, fun _ _ => rfl, fun _ _ _ _ _ => rfl⟩

/-- The state with the clocks cut and the excursion shown and counted. -/
def State.cutClocks (s : State) : State :=
  (s.setClocks fun d => min (s.topMhz d) (mget 0 s.power.mhz d - 10)).flagCount PWR_STATUS 3 PWR_EVT_CNT 15 8

/-- The state with every clock stretched, which is shown and counted. -/
def State.stretchClocks (s : State) : State := (s.modPower fun p => { p with stretch := true }).flagCount PWR_STATUS 2 PWR_EVT_CNT 23 16

/-- The state with idle cycles inserted, which is shown and counted. -/
def State.insertIdle (s : State) : State := (s.modPower fun p => { p with idle := true }).flagCount PWR_STATUS 6 PWR_EVT_CNT 7 0

theorem cutClocks_spec (s : State) : (∀ d, d < 24 → mget 0 s.cutClocks.power.mhz d ≤ max 250 (mget 0 s.power.mhz d - 10)) ∧
    s.cutClocks.fld PWR_STATUS 3 3 = 1 ∧ s.cutClocks.fld PWR_EVT_CNT 15 8 = satAdd 255 (s.fld PWR_EVT_CNT 15 8) 1 := by
  obtain ⟨hregs, -, hmhz⟩ := setClocks_spec s fun d => min (s.topMhz d) (mget 0 s.power.mhz d - 10)
  refine ⟨fun d hd => le_floor_of_le (hmhz d hd) (Nat.min_le_right _ _), fld_flagCount_flag _ (by decide) (by decide), ?_⟩
  rw [← State.fld_of_reg (State.reg_of_regs hregs _)]
  exact fld_flagCount_counter _ (by decide) (by decide)

theorem stretchClocks_spec (s : State) : s.stretchClocks.power.stretch = true ∧ s.stretchClocks.fld PWR_STATUS 2 2 = 1 ∧
    s.stretchClocks.fld PWR_EVT_CNT 23 16 = satAdd 255 (s.fld PWR_EVT_CNT 23 16) 1 :=
  ⟨rfl, fld_flagCount_flag _ (by decide) (by decide), fld_flagCount_counter _ (by decide) (by decide)⟩

theorem insertIdle_spec (s : State) : s.insertIdle.power.idle = true ∧ s.insertIdle.fld PWR_STATUS 6 6 = 1 ∧
    s.insertIdle.fld PWR_EVT_CNT 7 0 = satAdd 255 (s.fld PWR_EVT_CNT 7 0) 1 :=
  ⟨rfl, fld_flagCount_flag _ (by decide) (by decide), fld_flagCount_counter _ (by decide) (by decide)⟩

theorem execExcursionCut_of_over (hon : s.power.hostOn = true)
    (hover : s.ceiling < watts ∨ 10 ≤ s.excursions ∧ s.ceff < watts) : execExcursionCut watts τ s =
      if due s.power.lastCut (s.at τ).now then
        .next (((s.at τ).cutClocks.modPower fun p => { p with lastCut := some (s.at τ).now }).raise 0x0706 .all
          [(0, 2, watts), (2, 1, s.excursions)])
      else .next (s.at τ).cutClocks :=
  if_pos ⟨hon, hover⟩

theorem execCurrentLimit_of_over {ma : Nat} (hon : s.power.hostOn = true) (hover : 64000 < ma) : execCurrentLimit ma τ s =
      if due s.power.lastLimit (s.at τ).now then
        .next (((s.at τ).stretchClocks.modPower fun p => { p with lastLimit := some (s.at τ).now }).raise 0x0705 .all
          [(0, 2, min 0xFFFF (ma / 10))])
      else .next (s.at τ).stretchClocks :=
  if_pos ⟨hon, hover⟩

theorem execCapFloor_of_over (hon : s.power.hostOn = true) (hover : s.ceff < watts)
    (hlow : ∀ d, d < 24 → mget 0 s.power.mhz d ≤ 250) (hidle : s.power.idle = false) : execCapFloor watts τ s =
      if due s.power.lastFloor (s.at τ).now then
        .next (((s.at τ).insertIdle.modPower fun p => { p with lastFloor := some (s.at τ).now }).raise 0x0708 .all
          [(0, 2, s.ceff), (2, 2, watts)])
      else .next (s.at τ).insertIdle := by
  have hall : (domains.all fun d => decide (mget 0 s.power.mhz d ≤ 250)) = true := by
    simpa [domains] using hlow
  exact if_pos ⟨hon, hover, hall, by rw [power_at, hidle]; rfl⟩

/-! ## Energy (R595) -/

theorem energy_addEnergy_same (s : State) (kind i e : Nat) :
    (s.addEnergy kind i e).energy kind i = (s.energy kind i + e) % 2 ^ 64 := mget_mset_same _ _ _ _

/-- Energy added to the counters of a list of units leaves every counter of another kind alone. -/
theorem energy_foldl_addEnergy {kind k i : Nat} {e : Nat → Nat} {l : List Nat} (hl : ∀ n ∈ l, n < 256) (hi : i < 256) (hk : k ≠ kind) :
    (l.foldl (fun x n => x.addEnergy kind n (e n)) s).energy k i = s.energy k i := by
  induction l generalizing s with
  | nil => rfl
  | cons n l ih =>
    have hn : n < 256 := hl n (List.mem_cons_self ..)
    rw [List.foldl_cons, ih fun m hm => hl m (List.mem_cons_of_mem _ hm)]
    exact energy_other _ _ _ _ _ _ (by omega)

theorem execEnergyUpdate_energy (uj : List Nat) (hon : s.power.hostOn = true) :
    ∃ t, execEnergyUpdate uj τ s = .next t ∧ t.energy 0 0 = (s.energy 0 0 + uj.getD 0 0) % 2 ^ 64 := by
  unfold execEnergyUpdate
  extract_lets s0 at_ s1 s2 s3 s4 s5 mine cs given
  rw [if_neg (by rw [show s0.power.hostOn = true from hon]; decide)]
  refine ⟨_, rfl, ?_⟩
  have small {n : Nat} (hn : n ≤ 256) : ∀ m ∈ List.range n, m < 256 := fun m hm => Nat.lt_of_lt_of_le (List.mem_range.mp hm) hn
  rw [energy_other _ _ _ _ _ _ (by decide), energy_power fun u c => energy_attribute u c _ _ 0 0]
  calc s5.energy 0 0
      = s4.energy 0 0 := energy_foldl_addEnergy (small (by decide)) (by decide) (by decide)
    _ = s3.energy 0 0 := energy_foldl_addEnergy (small (by decide)) (by decide) (by decide)
    _ = s2.energy 0 0 := energy_foldl_addEnergy (small (by decide)) (by decide) (by decide)
    _ = s1.energy 0 0 := energy_foldl_addEnergy (small (by decide)) (by decide) (by decide)
    _ = (s.energy 0 0 + uj.getD 0 0) % 2 ^ 64 := energy_addEnergy_same s0 0 0 _

/-! ## Heat (R599 to R602) -/

/-- What the registers show of a reading, and the event that it may raise, change of the power state at most since when a throttle has
been in force. -/
theorem execThermalSensorRead_of_on (a b d : List Nat) (hon : s.power.hostOn = true) : ∃ t at_,
    execThermalSensorRead a b d τ s = .next t ∧ t.power = { (s.at τ).sense a b d with throttledAt := at_ } ∧
      t.fld PWR_STATUS 31 31 = if ((s.at τ).sense a b d).throttling then 1 else 0 := by
  unfold execThermalSensorRead
  extract_lets s0 old p s1 s2 s3 hot s4 s5
  have hpower : s5.power = p := by
    have hpower2 : s2.power = p := by
      unfold s2
      split
      · rw [State.setFld_power]
      · rfl
    have hpower3 : s3.power = p := by
      unfold s3
      split
      · rw [State.setFld_power, hpower2]
      · exact hpower2
    unfold s5 s4
    rw [State.setFld_power, State.setReg_power, hpower3]
  have hstatus : s5.fld PWR_STATUS 31 31 = if p.throttling then 1 else 0 := by
    unfold s5
    cases p.throttling <;> exact fld_setFld_of_lt _ (by decide) (by decide)
  clear_value s5
  rw [if_neg (by rw [show s0.power.hostOn = true from hon]; decide)]
  split
  · refine ⟨_, some s0.now, rfl, ?_, ?_⟩
    · rw [State.raise_power, State.total_power, State.count, State.setFld_power, power_modPower, hpower]
    · rw [fld_raise_all (by decide) (by decide), State.fld_total, State.count, State.fld_setFld_ne _ _ _ _ _ _ _ _ (by decide),
        fld_modPower, hstatus]
  · split
    · refine ⟨_, none, rfl, ?_, ?_⟩
      · rw [State.raise_power, power_modPower, hpower]
      · rw [fld_raise_all (by decide) (by decide), fld_modPower, hstatus]
    · refine ⟨_, p.throttledAt, rfl, ?_, hstatus⟩
      rw [hpower]

theorem execThermalTrip_of_hot {k n deg : Nat} (hon : s.power.hostOn = true) (hhot : (if k = 2 then 105 else 120) ≤ deg) :
    execThermalTrip k n deg τ s = .next (((s.at τ).switchOff (if k = 2 then 4 else 3) (if k = 1 then 0xC0 + n else n)).modSvc
      fun v => { v with tripAt := some (s.at τ).now }) :=
  congrArg Host.Outcome.next (if_pos ⟨hon, hhot⟩)

theorem droop_ne (n : Nat) : AU_DROOP_CYC_LO n ≠ AU_DROOP_CYC_HI n := by
  unfold AU_DROOP_CYC_LO AU_DROOP_CYC_HI
  omega

end

/-! ## The obligation -/

/-- Settles O47: each clause is the branch of its command that acts, and the facts above say what it leaves. -/
theorem powerLimitsEnergyAndHeat : Obligations.Power_limits_energy_and_heat := by
  unfold Obligations.Power_limits_energy_and_heat
  refine ⟨?voltageCap, ?capTick, ?excursionCut, ?currentLimit, ?currentLimitEnd, ?capFloor, ?droopStretch, ?droopEnd, ?energy,
    ?sensorRead, ?trip, ?stageFault⟩
  case voltageCap =>
    intro mv τ s hon
    exact execVoltageCapUpdate_of_on mv hon
  case capTick =>
    rintro watts τ s ⟨hon, hup, hwatts⟩
    obtain ⟨hregs, hkept, hmhz⟩ := capTick_spec (s.at τ) watts
    refine ⟨_, execCapControlTick_of_up hon hup, ?_, hkept, fun d hd => ?_, fun hhigh d hd => ?_⟩
    · rw [State.fld_of_reg (State.reg_of_regs hregs _), inputW_noteWatts hwatts]
    · exact le_floor_of_le (hmhz d hd) (capTop_le_topMhz _ d)
    · rw [ceff_at, decide_eq_true hhigh] at hmhz
      exact le_floor_of_le (hmhz d hd) (capTop_le_mhz_of_high d)
  case excursionCut =>
    rintro watts τ s ⟨hon, hover⟩
    obtain ⟨hmhz, hflag, hcount⟩ := cutClocks_spec (s.at τ)
    obtain ⟨t, hnext, hpower, hfld⟩ := next_of_due (u := (s.at τ).cutClocks)
    refine ⟨t, (execExcursionCut_of_over hon hover).trans hnext, fun d hd => ?_, ?_, ?_⟩
    · rw [hpower PowerSt.mhz fun _ => rfl]
      exact hmhz d hd
    · rw [hfld _ _ _ (by decide) (by decide), hflag]
    · rw [hfld _ _ _ (by decide) (by decide), hcount, fld_at]
  case currentLimit =>
    rintro ma τ s ⟨hon, hover⟩
    obtain ⟨hstretch, hflag, hcount⟩ := stretchClocks_spec (s.at τ)
    obtain ⟨t, hnext, hpower, hfld⟩ := next_of_due (u := (s.at τ).stretchClocks)
    refine ⟨t, (execCurrentLimit_of_over hon hover).trans hnext, ?_, ?_, ?_⟩
    · rw [hpower PowerSt.stretch fun _ => rfl, hstretch]
    · rw [hfld _ _ _ (by decide) (by decide), hflag]
    · rw [hfld _ _ _ (by decide) (by decide), hcount, fld_at]
  case currentLimitEnd =>
    intro ma τ s hlow
    exact ⟨_, congrArg Host.Outcome.next (if_pos hlow), rfl, rfl⟩
  case capFloor =>
    rintro watts τ s ⟨hon, hover, hlow, hidle⟩
    obtain ⟨hset, hflag, hcount⟩ := insertIdle_spec (s.at τ)
    obtain ⟨t, hnext, hpower, hfld⟩ := next_of_due (u := (s.at τ).insertIdle)
    refine ⟨t, (execCapFloor_of_over hon hover hlow hidle).trans hnext, ?_, ?_, ?_⟩
    · rw [hpower PowerSt.idle fun _ => rfl, hset]
    · rw [hfld _ _ _ (by decide) (by decide), hflag]
    · rw [hfld _ _ _ (by decide) (by decide), hcount, fld_at]
  case droopStretch =>
    rintro a s ⟨hon, hnot⟩
    exact ⟨_, congrArg Host.Outcome.next (if_pos ⟨hon, by rw [hnot]; rfl⟩), rfl, State.fld_count _ _ _ _ _ (by decide)⟩
  case droopEnd =>
    intro a s hdroop
    exact ⟨_, congrArg Host.Outcome.next (if_pos hdroop), rfl, setReg64_get _ _ _ _ (droop_ne a) (Nat.mod_lt _ (by decide))⟩
  case energy =>
    intro uj τ s hon
    exact execEnergyUpdate_energy uj hon
  case sensorRead =>
    intro a b d τ s hon
    obtain ⟨t, at_, hnext, hpower, hstatus⟩ := execThermalSensorRead_of_on a b d hon
    refine ⟨t, hnext, ?_, ?_, ?_, ?_, ?_, hstatus⟩ <;> rw [hpower] <;> rfl
  case trip =>
    rintro k n deg τ s ⟨hon, hhot⟩
    have hoff := power_switchOff (s.at τ) (if k = 2 then 4 else 3) (if k = 1 then 0xC0 + n else n) hon
    exact ⟨_, execThermalTrip_of_hot hon hhot, congrArg PowerSt.hostOn hoff, congrArg (fun p => p.svc.cause) hoff, rfl⟩
  case stageFault =>
    intro s hon
    exact ⟨_, rfl, power_switchOff s 7 0 hon⟩

end Sys2Proof.Machine
end

section
/-! Messages and wires of the service side (15_security_firmware.md R658 to R661, 14_power_package.md R607): what each is answered
with and what it leaves; the obligation O55. -/

namespace Sys2Proof.Machine

section

variable {s : State} {τ : Nat}

/-! ## Messages that the hub answers -/

theorem svcReply_of_on (hon : s.power.svc.on = true) (bs : List Byte) : s.svcReply bs = { s with answer := bs } := by
  rw [State.svcReply, if_pos hon]

theorem hubAnswers_of_up (hon : s.power.svc.on = true) (hhost : s.power.hostOn = true) (hup : s.fwUp = true) :
    s.hubAnswers = true := by
  rw [State.hubAnswers, hon, hhost, hup]
  rfl

theorem hubAnswers_iff (hon : s.power.svc.on = true) : s.hubAnswers = true ↔ s.power.hostOn = true ∧ s.fwUp = true := by
  rw [State.hubAnswers, hon, Bool.true_and, Bool.and_eq_true]

theorem execIdentityRead_of_on (hon : s.power.svc.on = true) : execIdentityRead s = .next { s with
    answer :=
      if s.power.hostOn = true ∧ s.fwUp = true then s.identity ++ (List.range 4).flatMap fun i => natLe 4 (s.reg (SEC_LC_NONCE i))
      else if s.power.hostOn = true ∧ s.sec.fuses.scrap = true then
        s.power.svc.identity.take 9 ++ natLe 1 4 ++ s.power.svc.identity.drop 10
      else s.power.svc.identity } := by
  unfold execIdentityRead
  simp only [hubAnswers_iff hon, svcReply_of_on hon]
  split <;> rfl

theorem execTelemetry_of_up (hon : s.power.svc.on = true) (hhost : s.power.hostOn = true) (hup : s.fwUp = true) :
    execTelemetry s = .next { s with
      answer := natLe 4 s.power.svc.mv ++ natLe 4 (s.reg PWR_INPUT) ++ natLe 4 (s.reg PWR_INPUT_W) ++ natLe 4 (s.reg PWR_CAP_STATUS)
        ++ natLe 4 (s.reg PWR_TEMP) ++ natLe 1 (s.fld PWR_STATUS 31 31) ++ natLe 1 (s.fld SEC_FW_STATUS 31 30)
        ++ natLe 1 (s.fld SEC_LC 7 0) ++ natLe 1 (s.fld PWR_RESET_CAUSE 3 0) } := by
  rw [execTelemetry, if_pos (hubAnswers_of_up hon hhost hup), svcReply_of_on hon]
  rfl

theorem execLogPull_of_up (n : Nat) (hon : s.power.svc.on = true) (hhost : s.power.hostOn = true) (hup : s.fwUp = true) :
    execLogPull n s = .next { s with answer := (((s.sec.crash ++ s.sec.logs).drop n).take 16).flatten } := by
  rw [execLogPull, if_pos (hubAnswers_of_up hon hhost hup), svcReply_of_on hon]

theorem execLifecycle_of_token {token : List Byte} (hon : s.power.svc.on = true) (hhost : s.power.hostOn = true) (hup : s.fwUp = true)
    (hcore : s.sec.haltedCores.contains 3 = false) (hlen : token.length = 256) :
    execLifecycle token s = .next (s.lcRequest (token.take 192) (token.drop 192) true) := by
  rw [execLifecycle, if_neg (by rw [hon]; decide), if_neg (by rw [hubAnswers_of_up hon hhost hup]; decide),
    if_neg (by rw [hcore]; decide), List.take_append_of_le_length (Nat.le_of_eq hlen.symm), List.take_of_length_le (Nat.le_of_eq hlen)]

/-! ## The rack's cap and reset -/

/-- The service side with the rack's request for a cap; 0 withdraws it. -/
def SvcSt.requestCap (v : SvcSt) (w : Nat) : SvcSt := { v with rackCap := if w = 0 then none else some w }

theorem execPowerCap_of_range {w : Nat} (hon : s.power.svc.on = true) (hw : w = 0 ∨ 1000 ≤ w ∧ w ≤ 2400 ∧ w % 10 = 0) :
    execPowerCap w s = .next ((s.modSvc fun v => v.requestCap w).svcCapGo.svcReply
      (natLe 2 (s.modSvc fun v => v.requestCap w).svcCapGo.power.svc.cap)) := by
  rw [execPowerCap, if_neg (by rw [hon]; decide)]
  dsimp only
  by_cases hzero : w = 0
  · subst hzero
    rfl
  · rw [if_neg hzero, if_pos (hw.resolve_left hzero)]
    simp only [SvcSt.requestCap, if_neg hzero]

theorem execReset_pulse (hon : s.power.svc.on = true) (hhost : s.power.hostOn = true) :
    execReset 0 s = .next (s.serviceReset.svcReply (natLe 1 0)) := by
  rw [execReset, if_neg (by rw [hon]; decide), if_pos hhost]

/-! ## Switching off -/

theorem execPower_off (hon : s.power.svc.on = true) : execPower false s = .next (s.switchOff 2 0) := by
  rw [execPower, if_neg (by rw [hon]; decide), if_neg (by decide)]

theorem execCoolantOff_of_over {deg : Nat} (hon : s.power.svc.on = true) (hover : s.power.svc.off ≤ deg)
    (hhost : s.power.hostOn = true) :
    execCoolantOff deg τ s = .next (((s.at τ).switchOff 2 0).modSvc fun v => { v with log := v.log ++ [2] }) :=
  congrArg Host.Outcome.next (if_pos ⟨hon, hover, hhost⟩)

theorem execLeakDetected_of_dry (hon : s.power.svc.on = true) (hdry : s.power.svc.leak = false) :
    execLeakDetected τ s = .next ((((s.at τ).modSvc fun v => { v with leak := true }).switchOff 2 0).modSvc
      fun v => { v with log := v.log ++ [3] }) :=
  congrArg Host.Outcome.next (if_pos ⟨hon, by rw [power_at, hdry]; rfl⟩)

/-! ## Coolant and the service reset -/

theorem execCoolantWarning_of_over {deg : Nat} (hon : s.power.svc.on = true) (hnot : s.power.svc.coolant = false)
    (hover : s.power.svc.warn ≤ deg) : execCoolantWarning deg true s =
      .next ((s.modSvc fun v => { v with coolant := true }).svcCapGo.modSvc fun v => { v with log := v.log ++ [1] }) :=
  congrArg Host.Outcome.next (if_pos ⟨hon, by rw [hnot]; rfl, .inr hover⟩)

theorem execCoolantWarningClear_of_under {deg : Nat} (hon : s.power.svc.on = true) (hwarned : s.power.svc.coolant = true)
    (hunder : deg + 3 ≤ s.power.svc.warn) :
    execCoolantWarningClear deg s = .next (s.modSvc fun v => { v with coolant := false }).svcCapGo :=
  congrArg Host.Outcome.next (if_pos ⟨hon, hwarned, hunder⟩)

theorem execSvcRstN_of_on (hon : s.power.svc.on = true) : execSvcRstN s = .next (s.modSvc fun v =>
    { SvcSt.reset with mv := v.mv, cause := v.cause, unit := v.unit, tripAt := v.tripAt, hold := v.hold }).svcCapGo :=
  congrArg Host.Outcome.next (if_pos hon)

end

/-! ## The obligation -/

/-- Settles O55: each message and wire takes the branch that its clause's hypotheses name; the registers that show the caps are no part
of the service side. -/
theorem serviceSideMessages : Obligations.Service_side_messages := by
  unfold Obligations.Service_side_messages
  refine ⟨?identity, ?telemetry, ?powerCap, ?reset, ?lifecycle, ?logPull, ?powerOff, ?coolantSet, ?warning, ?clear, ?coolantOff,
    ?leak, ?svcReset⟩
  case identity =>
    intro s hon
    exact ⟨_, execIdentityRead_of_on hon, rfl⟩
  case telemetry =>
    rintro s ⟨hon, hhost, hup⟩
    exact ⟨_, execTelemetry_of_up hon hhost hup, rfl⟩
  case powerCap =>
    rintro w s ⟨hon, hw⟩
    have hsvc : (s.modSvc fun v => v.requestCap w).svcCapGo.power.svc = s.power.svc.requestCap w := by rw [power_svcCapGo]; rfl
    refine ⟨_, execPowerCap_of_range hon hw, congrArg SvcSt.rackCap hsvc, ?_⟩
    rw [svcReply_of_on (by rw [hsvc]; exact hon)]
  case reset =>
    rintro s ⟨hon, hhost⟩
    have hsvc : s.serviceReset.power.svc.on = true := by rw [power_serviceReset hhost]; exact hon
    refine ⟨_, execReset_pulse hon hhost, power_serviceReset hhost, cause_serviceReset hhost, ?_⟩
    rw [svcReply_of_on hsvc]
  case lifecycle =>
    rintro token s ⟨hon, hhost, hup, hcore, hlen⟩
    exact ⟨_, execLifecycle_of_token hon hhost hup hcore hlen, rfl⟩
  case logPull =>
    rintro n s ⟨hon, hhost, hup⟩
    exact ⟨_, execLogPull_of_up n hon hhost hup, rfl⟩
  case powerOff =>
    rintro s ⟨hon, hhost⟩
    have hoff := power_switchOff s 2 0 hhost
    exact ⟨_, execPower_off hon, rfl, congrArg PowerSt.hostOn hoff, congrArg (fun p : PowerSt => p.svc.cause) hoff⟩
  case coolantSet =>
    intro a b s hon
    exact ⟨_, congrArg Host.Outcome.next (if_pos hon), rfl⟩
  case warning =>
    rintro deg s ⟨hon, hnot, hover⟩
    have hsvc : (s.modSvc fun v => { v with coolant := true }).svcCapGo.power.svc = { s.power.svc with coolant := true } := by
      rw [power_svcCapGo]
      rfl
    refine ⟨_, execCoolantWarning_of_over hon hnot hover, congrArg SvcSt.coolant hsvc, ?_, ?_⟩
    · rw [power_modSvc, hsvc]
      rfl
    · rw [power_modSvc, hsvc]
  case clear =>
    rintro deg s ⟨hon, hwarned, hunder⟩
    exact ⟨_, execCoolantWarningClear_of_under hon hwarned hunder, by rw [power_svcCapGo]; rfl⟩
  case coolantOff =>
    rintro deg τ s ⟨hon, hover, hhost⟩
    have hoff := power_switchOff (s.at τ) 2 0 hhost
    exact ⟨_, execCoolantOff_of_over hon hover hhost, rfl, congrArg PowerSt.hostOn hoff, congrArg (fun p : PowerSt => p.svc.cause) hoff⟩
  case leak =>
    rintro τ s ⟨hon, hdry, hhost⟩
    have hoff := power_switchOff ((s.at τ).modSvc fun v => { v with leak := true }) 2 0 hhost
    exact ⟨_, execLeakDetected_of_dry hon hdry, congrArg (fun p : PowerSt => p.svc.leak) hoff, congrArg PowerSt.hostOn hoff,
      congrArg (fun p : PowerSt => p.svc.cause) hoff⟩
  case svcReset =>
    intro s hon
    exact ⟨_, execSvcRstN_of_on hon, by rw [power_svcCapGo]; rfl⟩

end Sys2Proof.Machine
end

section
/-! The life of a context (12_contexts.md): what creating, destroying, pre-empting, resuming and placing leave of the context, and
of the others; the obligations O12 and O27. -/

namespace Sys2Proof.Machine

section

variable {s u : State} {c d f k : Nat}

/-! ## Creating and destroying (R489 to R492) -/

@[simp] theorem ctx_resetCtxRegs (s : State) (c d : Nat) : (s.resetCtxRegs c).ctx d = s.ctx d := by
  simp only [State.resetCtxRegs, State.ctx_dropRegs]

@[simp] theorem ctx_create (s : State) (c f : Nat) (slot : Option Nat) :
    (s.create c f slot).ctx c = { Ctx.reset with st := .empty, owner := some f, slot := slot } := State.ctx_putCtx _ _ _

theorem ctx_create_ne {slot : Option Nat} (h : d ≠ c) : (s.create c f slot).ctx d = s.ctx d := by
  rw [State.create, State.ctx_putCtx_ne _ _ _ _ h, ctx_resetCtxRegs]

/-- The set-up pages end below the other per-context windows, so of the ranges that are reset one alone holds them. -/
theorem reg_resetCtxRegs_setup (hc : c < 64) (hlo : 0x200000 + 0x1000 * c ≤ k) (hhi : k < 0x201000 + 0x1000 * c) :
    (s.resetCtxRegs c).reg k = (regReset k).toNat := by
  have hk : k < 0x600000 := by omega
  unfold State.resetCtxRegs
  rw [State.reg_dropRegs_out _ _ _ _ (by omega), State.reg_dropRegs_out _ _ _ _ (by omega), State.reg_dropRegs_out _ _ _ _ (by omega),
    State.reg_dropRegs_out _ _ _ _ (by omega), State.reg_dropRegs_out _ _ _ _ (by omega), State.reg_dropRegs_in _ _ _ _ hlo hhi]

theorem reg_create_setup {slot : Option Nat} (hc : c < 64) (hlo : 0x200000 + 0x1000 * c ≤ k) (hhi : k < 0x201000 + 0x1000 * c) :
    (s.create c f slot).reg k = (regReset k).toNat := by
  rw [State.create, State.reg_putCtx]
  exact reg_resetCtxRegs_setup hc hlo hhi

theorem execCreatePf_of_free {c : CtxId} {hpa hpb : Bool} (hup : s.barUp = true) (hst : (s.ctx c).st = .free)
    (hwrote : hpa = true ∨ hpb = true) : execCreatePf c hpa hpb s = .next (s.create c (if hpa then 0 else 16) none) :=
  if_pos ⟨hup, hst, hwrote⟩

theorem execCreatePf_of_not_free {c : CtxId} {hpa hpb : Bool} (hst : (s.ctx c).st ≠ .free) : execCreatePf c hpa hpb s = .next s :=
  if_neg fun h => hst h.2.1

theorem createVf_of_free {j : Nat} (hvf : fnIsPf f = false) (hslot : s.slotCtx f j = none)
    (hmax : (s.owned f).length < s.fld (PCIE_VF_CTL (fnPort f) (f % 16)) 4 0) (hfree : s.lowestFree = some c) :
    s.createVf f j = (s.create c f (some j)).modFn f fun x => { x with createFail := x.createFail.filter (· != j) } := by
  rw [State.createVf, if_neg (by simp [hvf, hslot])]
  dsimp only
  rw [if_pos hmax, hfree]

theorem st_beginDestroy (hfree : (s.ctx c).st ≠ .free) (hdest : (s.ctx c).st ≠ .destroying) :
    ((s.beginDestroy c).ctx c).st = .destroying := by
  unfold State.beginDestroy
  split
  · exact absurd ‹_› hfree
  · exact absurd ‹_› hdest
  · exact State.st_enter _ _

theorem power_beginDestroy (s : State) (c : Nat) : (s.beginDestroy c).power = s.power :=
  (State.beginDestroy_kept (m := 0xfef) rfl (Kept.refl _ s)).same .power rfl

@[simp] theorem ctx_endDestroy (s : State) (c : Nat) : (s.endDestroy c).ctx c = Ctx.reset := State.ctx_putCtx _ _ _

theorem ctx_endDestroy_ne (h : d ≠ c) : (s.endDestroy c).ctx d = s.ctx d := by
  unfold State.endDestroy
  extract_lets fs s1 mem s2
  rw [State.ctx_putCtx_ne _ _ _ _ h, ctx_resetCtxRegs, show s2.ctx d = s1.ctx d from rfl]
  exact ctxs_freeFrames s fs d

/-! ## Completions -/

/-- The context y is x after completions: the commands outstanding are some of x's, and what the life of a context turns on is the
same. -/
structure Ctx.CompletedTo (x y : Ctx) : Prop where
  cmds : y.ring.cmds ⊆ x.ring.cmds
  st : y.st = x.st
  owner : y.owner = x.owner
  place : y.place = x.place
  lastPlace : y.lastPlace = x.lastPlace
  mbox : y.mbox = x.mbox
  flags : y.flags = x.flags

theorem Ctx.CompletedTo.refl (x : Ctx) : x.CompletedTo x := ⟨List.Subset.refl _, rfl, rfl, rfl, rfl, rfl, rfl⟩

theorem Ctx.CompletedTo.trans {x y z : Ctx} (h : x.CompletedTo y) (h' : y.CompletedTo z) : x.CompletedTo z :=
  ⟨fun _ hd => h.cmds (h'.cmds hd), h'.st.trans h.st, h'.owner.trans h.owner, h'.place.trans h.place, h'.lastPlace.trans h.lastPlace,
    h'.mbox.trans h.mbox, h'.flags.trans h.flags⟩

theorem completedTo_complete (s : State) (c k st res : Nat) : (s.ctx c).CompletedTo ((s.complete c k st res).ctx c) := by
  obtain ⟨_, _, _, _, _, hctx⟩ := State.ctx_complete (s := s) c k st res
  rw [hctx]
  exact ⟨fun _ hd => List.mem_of_mem_eraseIdx hd, rfl, rfl, rfl, rfl, rfl, rfl⟩

/-! ## The end of a RUN and pre-emption (R494, R503, R504) -/

theorem st_finishRun (s : State) (c : Nat) : ((s.finishRun c).ctx c).st = .ready := by
  unfold State.finishRun
  dsimp only
  split
  · rw [State.st_complete, State.st_enter]
  · exact State.st_enter _ _

theorem ctx_finishRun_ne (h : d ≠ c) : (s.finishRun c).ctx d = s.ctx d := (Only.refl c s).finishRun d h

theorem runEnded_of_finished (hst : (s.ctx c).st = .running) (hfw : s.fwHalted = false) (hfin : s.allFinished c = true) :
    s.runEnded c = true := by simp [State.runEnded, hst, hfw, hfin]

theorem not_runEnded (h : (s.ctx c).st = .ready ∨ (s.ctx c).st = .running ∧ s.allFinished c = false) : s.runEnded c = false := by
  rcases h with hst | ⟨-, hfin⟩
  · simp [State.runEnded, hst]
  · simp [State.runEnded, hfin]

/-- A pre-emption that begins changes the state, the cause and the times of the context, and nothing else of it. -/
theorem ctx_beginPreempt (s : State) (c : Nat) (cause : Cause) : ∃ n a b, (s.beginPreempt c cause).ctx c =
    { s.ctx c with st := .preempting, cause := cause, inherit := none, before := (s.ctx c).st, runNs := n, runAt := a, startedAt := b,
                   displacedAt := b } := by
  obtain ⟨n, a, hctx⟩ := State.ctx_enter (s := s) c .preempting
  unfold State.beginPreempt
  extract_lets before s1
  refine ⟨n, a, s1.now, ?_⟩
  rw [State.ctx_modCtx]
  unfold s1
  rw [State.ctx_count, hctx]

theorem startPreempt_of_not_ended {cause : Cause} (h : s.runEnded c = false) : s.startPreempt c cause = s.beginPreempt c cause := by
  rw [State.startPreempt, if_neg (by simp [h])]

@[simp] theorem ctx_setPhase (s : State) (c k : Nat) (ph : CmdPhase) : (s.setPhase c k ph).ctx c =
    { s.ctx c with ring := { (s.ctx c).ring with cmds := (s.ctx c).ring.cmds.modify k fun d => { d with phase := ph } } } :=
  State.ctx_modCtx _ _ _

theorem allFinished_setPhase (s : State) (c k : Nat) (ph : CmdPhase) : (s.setPhase c k ph).allFinished c = s.allFinished c := by
  unfold State.allFinished State.ctxAus
  rw [ctx_setPhase]
  rfl

theorem phase_of_modify {cmds : List Cmd} {cmd : Cmd} {ph : CmdPhase} (h : cmds[k]? = some cmd) :
    ((cmds.modify k fun d => { d with phase := ph })[k]?).map Cmd.phase = some ph := by
  simp [h]

theorem execPreempt_of_active {c : CtxId} {cmd : Cmd} (hcmd : s.cmdAt c k = some cmd) (hop : byteAt cmd.desc 0 = 0x09)
    (hserves : s.serves 0x09 = true) (hphase : cmd.phase = .started) (hzero : zeroIn cmd.desc 4 64 = true)
    (hst : (s.ctx c).st = .ready ∨ (s.ctx c).st = .running) :
    execPreempt c k s = .next ((s.setPhase c k (.underway 0 0)).startPreempt c .host) := by
  rw [execPreempt, onCmd_eq hcmd hop hserves, if_neg (not_not_intro hphase), if_neg (by simp [hzero])]
  dsimp only
  rw [if_pos hst]

/-! ## Resumption (R502, R507, R511) -/

theorem movePinned_nil (s : State) (c : Nat) : s.movePinned c [] = some s := rfl

theorem startResume_of_found {tr : Nat} {sem : Option Nat} {p : Map Nat}
    (hfound : s.findPlace c (s.ctx c).nLaus (s.ctx c).bufs [] sem = some (p, u)) (hpins : (s.ctx c).stackPins = []) :
    s.startResume c tr sem = some ((u.takePlace c p tr ((u.ctx c).pt != (s.ctx c).pt)).enter c .resuming) := by
  unfold State.startResume
  dsimp only
  rw [hfound, hpins]
  dsimp only
  rw [movePinned_nil]

theorem place_takePlace_enter (s : State) (c : Nat) (p : Map Nat) (tr : Nat) (force : Bool) (st : CtxState) :
    (((s.takePlace c p tr force).enter c st).ctx c).place = p := by
  obtain ⟨n, a, henter⟩ := State.ctx_enter (s := s.takePlace c p tr force) c st
  obtain ⟨g, htake⟩ := ctx_takePlace s c p tr force
  rw [henter, htake]

theorem execResume_of_found {c : CtxId} {cmd : Cmd} {p : Map Nat} (hcmd : s.cmdAt c k = some cmd) (hop : byteAt cmd.desc 0 = 0x0A)
    (hserves : s.serves 0x0A = true) (hphase : cmd.phase = .started) (hzero : zeroIn cmd.desc 4 64 = true)
    (hst : (s.ctx c).st = .preempted) (hpins : (s.ctx c).stackPins = [])
    (hfound : (s.setPhase c k (.underway 0 0)).findPlace c (s.ctx c).nLaus (s.ctx c).bufs [] none = some (p, u)) :
    ∃ force, execResume c k s = .next ((u.takePlace c p 1 force).enter c .resuming) := by
  have hx := ctx_setPhase s c k (.underway 0 0)
  refine ⟨(u.ctx c).pt != ((s.setPhase c k (.underway 0 0)).ctx c).pt, ?_⟩
  rw [execResume, onCmd_eq hcmd hop hserves, if_neg (not_not_intro hphase), if_neg (by simp [hzero]), if_neg (not_not_intro hst),
    startResume_of_found (by rw [hx]; exact hfound) (by rw [hx]; exact hpins)]

theorem execDisplacedResume_of_free {cs : List Nat} {p : Map Nat} (hfirst : s.displacedOrder = c :: cs)
    (hplace : s.placeAus c (s.ctx c).nLaus (s.ctx c).bufs (s.freeFor c []) = some p) (hpins : (s.ctx c).stackPins = []) :
    ∃ force, execDisplacedResume s = .next ((s.takePlace c p 1 force).enter c .resuming) := by
  refine ⟨(s.ctx c).pt != (s.ctx c).pt, ?_⟩
  unfold execDisplacedResume
  rw [hfirst]
  dsimp only
  rw [hplace, hpins]
  dsimp only
  rw [movePinned_nil]

/-- A context whose save is complete is PREEMPTED, gives up its AUs and notes where it was. -/
theorem saved_endPreempt (s : State) (c : Nat) : ((s.endPreempt c).ctx c).st = .preempted ∧ ((s.endPreempt c).ctx c).place = [] ∧
    ((s.endPreempt c).ctx c).lastPlace = (s.ctx c).place ∧ ((s.endPreempt c).ctx c).ring = (s.ctx c).ring := by
  obtain ⟨_, _, hend⟩ := ctx_endPreempt s c
  rw [hend]
  exact ⟨rfl, rfl, rfl, rfl⟩

/-- What the context is after its save: PREEMPTED and without AUs, unless a PLACE_HINT that waits moves it at once. -/
theorem execPreemptionSaveComplete_of_quiet {c : CtxId} (hst : (s.ctx c).st = .preempting) (hsegs : s.segsOf c = false) :
    ∃ t, execPreemptionSaveComplete c s = .next t ∧
      (((t.ctx c).st = .preempted ∧ (t.ctx c).place = [] ∧ (t.ctx c).lastPlace = (s.ctx c).place) ∨
        ((t.ctx c).st = .resuming ∧ ∃ d ∈ (s.ctx c).ring.cmds, byteAt d.desc 0 = 0x12)) := by
  obtain ⟨hst', hplace, hlast, hring⟩ := saved_endPreempt s c
  rw [execPreemptionSaveComplete, if_pos ⟨hst, by simp [hsegs]⟩]
  extract_lets bytes s1 s2
  change (s1.ctx c).ring = (s.ctx c).ring at hring
  have hdone : (s1.ctx c).CompletedTo (s2.ctx c) := by
    unfold s2
    split
    · exact completedTo_complete _ _ _ _ _
    · exact Ctx.CompletedTo.refl _
  clear_value s2
  have preempted {t : State} (ht : (s1.ctx c).CompletedTo (t.ctx c)) :
      (t.ctx c).st = .preempted ∧ (t.ctx c).place = [] ∧ (t.ctx c).lastPlace = (s.ctx c).place :=
    ⟨ht.st.trans hst', ht.place.trans hplace, ht.lastPlace.trans hlast⟩
  refine ⟨_, rfl, ?_⟩
  split
  · rename_i j hint hfind
    split
    · rename_i s3 hresume
      obtain ⟨hmem, hop⟩ := findAt_mem _ _ _ _ _ hfind
      have hwaited : hint ∈ (s.ctx c).ring.cmds := by
        rw [← hring]
        exact hdone.cmds hmem
      simp only [Bool.and_eq_true, beq_iff_eq] at hop
      exact .inr ⟨st_startResume hresume, hint, hwaited, hop.1⟩
    · exact .inl (preempted (hdone.trans (completedTo_complete _ _ _ _ _)))
  · exact .inl (preempted hdone)

theorem ports_complete (s : State) (c k st res : Nat) : (s.complete c k st res).ports = s.ports :=
  (State.complete_kept (m := 0x849) rfl (Kept.refl _ s)).same .ports rfl

theorem ports_endResume (s : State) (c : Nat) : (s.endResume c).ports = s.ports :=
  (State.endResume_kept (m := 0x8e9) rfl (Kept.refl _ s)).same .ports rfl

/-- With its port up, a resumption ends in what `endResume` leaves, after the completions of the commands that waited for it. -/
theorem execResumptionComplete_of_up {c : CtxId} (hst : (s.ctx c).st = .resuming) (hup : (s.port (s.ctxPort c)).lost = false) :
    ∃ t, execResumptionComplete c s = .next t ∧ ((s.endResume c).ctx c).CompletedTo (t.ctx c) := by
  rw [execResumptionComplete, if_pos hst]
  extract_lets s1 s2 s3
  have h2 : (s1.ctx c).CompletedTo (s2.ctx c) ∧ s2.ports = s1.ports := by
    unfold s2
    split
    · exact ⟨completedTo_complete _ _ _ _ _, ports_complete _ _ _ _ _⟩
    · exact ⟨Ctx.CompletedTo.refl _, rfl⟩
  clear_value s2
  have h3 : (s1.ctx c).CompletedTo (s3.ctx c) ∧ s3.ports = s1.ports := by
    unfold s3
    split
    · exact ⟨h2.1.trans (completedTo_complete _ _ _ _ _), (ports_complete _ _ _ _ _).trans h2.2⟩
    · exact h2
  clear_value s3
  obtain ⟨hdone, hports⟩ := h3
  have howner : (s3.ctx c).owner = (s.ctx c).owner := by
    obtain ⟨_, _, _, hend⟩ := ctx_endResume s c
    rw [hdone.owner, hend]
  have hlost : (s3.port (s3.ctxPort c)).lost = false := by
    rw [State.ctxPort, State.ownerOf, howner, State.port, hports, ports_endResume]
    exact hup
  exact ⟨_, congrArg Host.Outcome.next (if_neg (by simp [hlost])), hdone⟩

/-! ## PLACE_HINT (R499, R500) -/

theorem execPlaceHint_of_kept {c : CtxId} {cmd : Cmd} {y : Ctx} (hcmd : s.cmdAt c k = some cmd) (hop : byteAt cmd.desc 0 = 0x12)
    (hserves : s.serves 0x12 = true) (hphase : cmd.phase = .started) (hhints : (s.ctx c).takeHints cmd.desc = some y)
    (hst : (s.ctx c).st = .empty ∨ (s.ctx c).st = .preempted ∨ (s.ctx c).st = .ready ∧ bit (byteAt cmd.desc 6) 0 = false) :
    execPlaceHint c k s = .next ((s.putCtx c y).complete c k 0 0) := by
  have hallowed : (s.ctx c).st = .empty ∨ ((s.ctx c).st = .ready ∨ (s.ctx c).st = .running) ∨ (s.ctx c).st = .preempted := by
    rcases hst with h | h | ⟨h, -⟩ <;> simp [h]
  have hstays : ¬ (bit (byteAt cmd.desc 6) 0 = true ∧ ((s.ctx c).st = .ready ∨ (s.ctx c).st = .running)) := by
    rcases hst with h | h | ⟨-, h⟩ <;> simp [h]
  rw [execPlaceHint, onCmd_eq hcmd hop hserves, if_neg (not_not_intro hphase)]
  dsimp only
  rw [hhints]
  dsimp only
  rw [if_neg (not_not_intro hallowed), if_neg hstays]

/-- The hints touch neither the rings nor the owner, so a completion is the same before and after them. -/
theorem sameRings_putCtx_hints {bs : List Byte} {y : Ctx} (h : (s.ctx c).takeHints bs = some y) : SameRings s (s.putCtx c y) c := by
  obtain ⟨_, _, _, rfl⟩ := takeHints_shape h
  exact ⟨by rw [State.ctx_putCtx], by rw [State.ctx_putCtx], rfl, rfl, fun _ _ _ => rfl⟩

theorem st_of_takeHints {x y : Ctx} {bs : List Byte} (h : x.takeHints bs = some y) : y.st = x.st := by
  obtain ⟨_, _, _, rfl⟩ := takeHints_shape h
  rfl

end

/-- Settles O12: the guard of the command is the statement's condition, and `create` writes the one context. -/
theorem creatingAContextByAPf : Obligations.Creating_a_context_by_a_PF := by
  unfold Obligations.Creating_a_context_by_a_PF
  refine ⟨?free, fun c hpa hpb s hst => execCreatePf_of_not_free hst⟩
  intro c hpa hpb s hup hst hwrote
  refine ⟨_, execCreatePf_of_free hup hst hwrote, ?_, ?_, fun d hd => ctx_create_ne hd⟩
  · rw [ctx_create]
  · rw [ctx_create]

/-- Settles O27: each command's guard leads to one operation on the context, whose new value the lemmas above give whole. -/
theorem contextsCreatedAndDestroyed : Obligations.Contexts_created_and_destroyed := by
  unfold Obligations.Contexts_created_and_destroyed
  refine ⟨?createPf, ?createVf, ?destroy, ?destructionComplete, ?runComplete, ?preempt, ?saveComplete, ?resume, ?resumptionComplete,
    ?displacedResume, ?placeHint⟩
  case createPf =>
    intro c hpa hpb s hup hst hwrote
    exact ⟨_, execCreatePf_of_free hup hst hwrote, ctx_create _ _ _ _, fun d hd => ctx_create_ne hd,
      fun k hlo hhi => reg_create_setup c.isLt hlo hhi⟩
  case createVf =>
    intro f j s c hup hvf hslot hmax hfree
    refine ⟨_, congrArg Host.Outcome.next ((if_pos hup).trans (createVf_of_free hvf hslot hmax hfree)), ?_, ?_, fun d hd => ?_⟩
    · rw [State.ctx_modFn, ctx_create]
    · rw [State.fn_modFn]
      simp
    · rw [State.ctx_modFn, ctx_create_ne hd]
  case destroy =>
    rintro f c s hup howns ⟨hfree, hdest⟩
    exact ⟨_, congrArg Host.Outcome.next (if_pos ⟨hup, howns⟩), st_beginDestroy hfree hdest, power_beginDestroy s c⟩
  case destructionComplete =>
    intro c s hst
    exact ⟨_, congrArg Host.Outcome.next (if_pos hst), ctx_endDestroy s c, fun d hd => ctx_endDestroy_ne hd⟩
  case runComplete =>
    intro c s hst hfw hfin
    exact ⟨_, congrArg Host.Outcome.next (if_pos (runEnded_of_finished hst hfw hfin)), st_finishRun s c, fun d hd => ctx_finishRun_ne hd⟩
  case preempt =>
    rintro c k s cmd hcmd ⟨hop, hserves⟩ ⟨hphase, hzero⟩ hst
    have hended : (s.setPhase c k (.underway 0 0)).runEnded c = false := not_runEnded (by
      rw [allFinished_setPhase, ctx_setPhase]
      exact hst)
    obtain ⟨n, a, b, hctx⟩ := ctx_beginPreempt (s.setPhase c k (.underway 0 0)) c .host
    refine ⟨_, execPreempt_of_active hcmd hop hserves hphase hzero (hst.imp_right And.left), ?_⟩
    rw [startPreempt_of_not_ended hended, State.cmdAt, hctx, ctx_setPhase]
    exact ⟨rfl, rfl, rfl, phase_of_modify hcmd⟩
  case saveComplete => exact fun c s hst hsegs => execPreemptionSaveComplete_of_quiet hst hsegs
  case resume =>
    rintro c k s cmd p u hcmd ⟨hop, hserves⟩ ⟨hphase, hzero⟩ ⟨hst, hpins⟩ hfound
    obtain ⟨force, hrun⟩ := execResume_of_found hcmd hop hserves hphase hzero hst hpins hfound
    exact ⟨_, hrun, State.st_enter _ _, place_takePlace_enter _ _ _ _ _ _⟩
  case resumptionComplete =>
    intro c s hst hup
    obtain ⟨t, hrun, hdone⟩ := execResumptionComplete_of_up hst hup
    obtain ⟨_, _, _, hend⟩ := ctx_endResume s c
    refine ⟨t, hrun, ?_⟩
    rw [hdone.st, hdone.mbox, hdone.flags, hend]
    exact ⟨rfl, rfl, rfl⟩
  case displacedResume =>
    intro s c cs p hfirst hplace hpins
    obtain ⟨force, hrun⟩ := execDisplacedResume_of_free hfirst hplace hpins
    exact ⟨_, hrun, State.st_enter _ _, place_takePlace_enter _ _ _ _ _ _⟩
  case placeHint =>
    rintro c k s cmd y hcmd ⟨hop, hserves⟩ hphase hhints hst
    have hrings := sameRings_putCtx_hints hhints
    have hcmd' : (s.putCtx c y).cmdAt c k = some cmd := by
      rw [State.cmdAt, hrings.ring]
      exact hcmd
    obtain ⟨_, _, _, _, _, hctx⟩ := State.ctx_complete (s := s.putCtx c y) c k 0 0
    refine ⟨_, execPlaceHint_of_kept hcmd hop hserves hphase hhints hst, ?_, ?_, ?_, ?_, hrings.done (State.done_complete 0 0 hcmd')⟩
    case refine_4 => rw [State.st_complete, State.ctx_putCtx, st_of_takeHints hhints]
    all_goals rw [hctx, State.ctx_putCtx]

end Sys2Proof.Machine
end

section
/-! Failure notices, the step boundary, restores and the securing of a state (13_resilience.md): the path each command takes under the
conditions of its clause, and what it leaves of the Dust sheet; the obligations O15, O32 and O33. -/

namespace Sys2Proof.Machine

section

variable {s u v : State} {c k : Nat} {cmd : Cmd}

@[simp] theorem ctx_modDust (s : State) (c : Nat) (f : DustSt → DustSt) :
    (s.modDust c f).ctx c = { s.ctx c with dust := f (s.ctx c).dust } := State.ctx_modCtx _ _ _

/-! ## SECURE_NOW and FAILURE_NOTICE (R552 to R554) -/

/-- What a FAILURE_NOTICE of a step and of a part leaves before it completes. -/
def State.noticed (s : State) (c step part : Nat) : State :=
  (s.setReg (DST_MTBF c) (nextMtbf (s.reg (DST_MTBF c)) (s.ctx c).dust.lastNotice step)).modDust c fun d =>
    { d with lastNotice := some step, lastFailed := some part }

theorem execFailureNotice_of_zero {c : CtxId} (hcmd : s.cmdAt c k = some cmd) (hop : byteAt cmd.desc 0 = 0x13)
    (hserves : s.serves 0x13 = true) (h4 : zeroIn cmd.desc 4 8 = true) (h18 : zeroIn cmd.desc 18 64 = true) :
    execFailureNotice c k s = .next ((s.noticed c (fieldLe cmd.desc 8 8) (fieldLe cmd.desc 16 2)).complete c k 0
      ((s.noticed c (fieldLe cmd.desc 8 8) (fieldLe cmd.desc 16 2)).interval c)) := by
  rw [execFailureNotice, onCmd_eq hcmd hop hserves, if_neg (by simp [h4, h18])]
  rfl

theorem execFailureNotice_of_reserved {c : CtxId} (hcmd : s.cmdAt c k = some cmd) (hop : byteAt cmd.desc 0 = 0x13)
    (hserves : s.serves 0x13 = true) (h : zeroIn cmd.desc 4 8 = false ∨ zeroIn cmd.desc 18 64 = false) :
    execFailureNotice c k s = .next (s.complete c k 0x02 0) := by
  rw [execFailureNotice, onCmd_eq hcmd hop hserves, if_pos (by simpa using h)]

/-- The notice writes a register of the Dust sheet, past those of the rings, and the Dust sheet. -/
theorem sameRings_noticed (s : State) {c : Nat} (hc : c < 64) (step part : Nat) : SameRings s (s.noticed c step part) c := by
  refine ⟨?_, ?_, State.modDust_ports _ _ _, State.modDust_now _ _ _, fun j hhi _ => ?_⟩
  · rw [State.noticed, ctx_modDust, State.ctx_setReg]
  · rw [State.noticed, ctx_modDust, State.ctx_setReg]
  · rw [State.noticed, State.reg_modDust, State.reg_setReg_ne]
    unfold DST_MTBF
    omega

theorem nextMtbf_lt (m : Nat) (last : Option Nat) (step : Nat) : nextMtbf m last step < 2 ^ 32 := by
  unfold nextMtbf
  extract_lets d
  clear_value d
  omega

theorem reg_noticed (s : State) (c step part : Nat) :
    (s.noticed c step part).reg (DST_MTBF c) = nextMtbf (s.reg (DST_MTBF c)) (s.ctx c).dust.lastNotice step := by
  rw [State.noticed, State.reg_modDust, State.reg_setReg]
  exact Nat.mod_eq_of_lt (nextMtbf_lt _ _ _)

theorem reg_mtbf_complete {c : Nat} (hc : c < 64) (s : State) (k st res : Nat) :
    (s.complete c k st res).reg (DST_MTBF c) = s.reg (DST_MTBF c) := by
  refine reg_complete (NotEvt.mid ?_ ?_ ?_) ?_ ?_ <;> unfold DST_MTBF
  · omega
  · omega
  · omega
  · unfold CTX_RING_STATUS
    omega
  · unfold CTX_RING_EVT_CNT
    omega

@[simp] theorem dust_complete (s : State) (c k st res : Nat) : ((s.complete c k st res).ctx c).dust = (s.ctx c).dust := by
  obtain ⟨_, _, _, _, _, hctx⟩ := State.ctx_complete (s := s) c k st res
  rw [hctx]

theorem execSecureNow_of_enabled {c : CtxId} (hcmd : s.cmdAt c k = some cmd) (hop : byteAt cmd.desc 0 = 0x04)
    (hserves : s.serves 0x04 = true) (hphase : cmd.phase = .started) (hflags : bits (byteAt cmd.desc 4) 7 1 = 0)
    (hzero : zeroIn cmd.desc 5 64 = true) (hst : (s.ctx c).st = .running ∨ (s.ctx c).st = .ready ∨ (s.ctx c).st = .preempted)
    (hen : s.rbit (DST_CTL c) 0 = true) (hbase : s.dustBase c ≠ 0) :
    execSecureNow c k s = .next ((s.modDust c fun d => { d with wantNow := true }).setPhase c k (.underway 0 0)) := by
  rw [execSecureNow, onCmd_eq hcmd hop hserves, if_neg (not_not_intro hphase), if_neg (by simp [hflags, hzero])]
  exact congrArg Host.Outcome.next (if_pos ⟨hst, hen, hbase⟩)

/-! ## The step boundary (R530 to R535) -/

theorem boundaryOne_of_busy {b : Nat} (h : s.stepQuiet c = false) : s.boundaryOne c b = s := if_neg (by simp [h])

theorem boundaryOne_of_stage {b : Nat} (h : (s.ctx c).dust.stage ≠ 0) : s.boundaryOne c b = s := if_neg fun h' => h h'.1

theorem boundaryTwo_of_stage {b : Nat} {t : DustTable} (h : (s.ctx c).dust.stage ≠ 1) : s.boundaryTwo c b t = s := if_pos h

theorem tgtsGo_of_idle (h : (s.ctx c).dust.securing = none) : s.tgtsGo c = s := by rw [State.tgtsGo, h]

theorem headersOut_of_idle (h : (s.ctx c).dust.securing = none) : s.headersOut c = true := by rw [State.headersOut, h]

/-- With no securing under way a write needs no shadow, so it waits for its pages alone. -/
theorem hubWrites_of_idle {rs : List (Nat × Nat)} {go : State → State} {r : Unit} (hidle : (s.ctx c).dust.securing = none)
    (hpages : (s.ctx c).checkAll true (rs.map fun r => pagesOf r.1 r.2).flatten = .ok r) : s.hubWrites c rs go = go s := by
  rw [State.hubWrites, hubNeeds_ok hpages, shadowRanges_none hidle]

theorem boundaryThree_of_ready {b : Nat} {t : DustTable} {r : Unit} (hstage : (s.ctx c).dust.stage = 3)
    (hidle : (s.ctx c).dust.securing = none) (hflag : t.bflagEn = false)
    (hpages : (s.ctx c).checkAll true ((s.openRanges c t).map fun r => pagesOf r.1 r.2).flatten = .ok r) :
    s.boundaryThree c b t = s.boundaryOpen c b t := by
  rw [State.boundaryThree, if_neg (by simp [hstage, headersOut_of_idle hidle, hflag]), hubWrites_of_idle hidle hpages]

/-- The context of a boundary that has opened is some context with its Dust sheet at rest. -/
theorem dust_boundaryOpen (s : State) (c b : Nat) (t : DustTable) :
    ((s.boundaryOpen c b t).ctx c).dust.closing = none ∧ ((s.boundaryOpen c b t).ctx c).dust.stage = 0 := by
  unfold State.boundaryOpen
  extract_lets s1 s2 s3 s4 s5 s6
  rw [State.progress, State.ctx_modCtx, ctx_modDust]
  exact ⟨rfl, rfl⟩

theorem execStepClose_of_busy {c : CtxId} {tb : DustTable} {r : Unit} (htable : (s.ctx c).dust.table = some tb)
    (hclosing : (s.ctx c).dust.closing = none) (hst : (s.ctx c).st.steps = true)
    (hpages : (s.ctx c).checkAll false (pagesOf tb.va 8) = .ok r) (hclose : fieldLe (s.vpeek c tb.va 8) 0 8 = s.step_ c)
    (hu : u = s.modDust c fun d => { d with
      closing := some (s.step_ c), stage := 0, stalled := false, closeSeq := (s.lauStates c).map fun e => (e.1, e.2.nextSeq) })
    (hbusy : u.stepQuiet c = false) : execStepClose c s = .next u := by
  have hstage : (u.ctx c).dust.stage = 0 := by rw [hu, ctx_modDust]
  unfold execStepClose
  dsimp only
  rw [htable, hclosing]
  dsimp only
  rw [if_pos hst, hubNeeds_ok (u := r) (by simpa using hpages)]
  rw [if_pos hclose, ← hu, boundaryOne_of_busy hbusy, if_neg (by simp [hstage])]

theorem execStepBoundaryOpen_of_ready {c : CtxId} {tb : DustTable} {r : Unit} (htable : (s.ctx c).dust.table = some tb)
    (hclosing : (s.ctx c).dust.closing = some k) (hst : (s.ctx c).st.steps = true) (hstage : (s.ctx c).dust.stage = 3)
    (hidle : (s.ctx c).dust.securing = none) (hflag : tb.bflagEn = false)
    (hpages : (s.ctx c).checkAll true ((s.openRanges c tb).map fun r => pagesOf r.1 r.2).flatten = .ok r) :
    execStepBoundaryOpen c s = .next (s.boundaryOpen c (k + 1) tb) := by
  unfold execStepBoundaryOpen
  dsimp only
  rw [htable, hclosing]
  dsimp only
  rw [if_pos hst, tgtsGo_of_idle hidle, boundaryOne_of_stage (by simp [hstage]), boundaryTwo_of_stage (by simp [hstage]),
    boundaryThree_of_ready hstage hidle hflag hpages]

/-! ## Restores (R555 to R559) -/

theorem execRestore_of_done {c : CtxId} {f : ImgFetch} {e : Nat} (hcmd : s.cmdAt c k = some cmd) (hop : byteAt cmd.desc 0 = 0x05)
    (hserves : s.serves 0x05 = true) (hshard : restShard cmd.desc = false) (hphase : cmd.phase ≠ .started)
    (hfetch : (s.ctx c).dust.restore = some f) (hdone : s.restoreGo c Cmd.isRestore (restoreFuel f.plan.length) = .done v e) :
    execRestore c k s = .next (v.completeWhere c 0x05 (fun d => d.isUnderway && !restShard d.desc) 0 e 1) := by
  rw [execRestore, onCmd_eq hcmd hop hserves]
  dsimp only
  rw [if_neg (by simp [hshard]), if_pos hphase, State.restoreCmd, hfetch]
  dsimp only
  rw [hdone]

/-- What a shard restore leaves when its last page is in place. -/
def State.shardDone (u : State) (c k : Nat) (desc : List Byte) (g : ImgFetch) : State :=
  ((u.modDust c fun d => { d with restore := none }).modDust c fun d =>
    d.addAdopted (adoptDests ((u.shardList c desc).getD []))).complete c k 0 g.done

theorem shardGo_of_done {n : Nat} {desc : List Byte} {f g : ImgFetch} (hfetch : (s.ctx c).dust.restore = some f)
    (hdone : s.imgStep c f = .done u g) : s.shardGo c k desc (n + 1) = u.shardDone c k desc g := by
  rw [State.shardGo, hfetch]
  dsimp only
  rw [hdone]
  rfl

theorem execRestoreShard_of_done {c : CtxId} {f g : ImgFetch} (hcmd : s.cmdAt c k = some cmd) (hop : byteAt cmd.desc 0 = 0x05)
    (hserves : s.serves 0x05 = true) (hshard : restShard cmd.desc = true) (hphase : cmd.phase ≠ .started)
    (hfetch : (s.ctx c).dust.restore = some f) (hdone : s.imgStep c f = .done u g) :
    execRestoreShard c k s = .next (u.shardDone c k cmd.desc g) := by
  rw [execRestoreShard, onCmd_eq hcmd hop hserves]
  dsimp only
  rw [if_neg (by simp [hshard]), if_pos hphase]
  exact congrArg Host.Outcome.next (shardGo_of_done hfetch hdone)

/-! ## Securing (R537 to R543) -/

theorem execPendingPageFirstWrite_of_shadow {c : CtxId} {page : Nat} {e : Pte} (hpte : (s.ctx c).pte page = some (k, e))
    (hprotect : e.protect = true) (hshadow : s.shadowFor c k page (List.range 1024) = some u) :
    execPendingPageFirstWrite c page s = .next u := by
  rw [execPendingPageFirstWrite, hpte]
  dsimp only
  rw [if_pos hprotect, hshadow]
  rfl

theorem execShadowFrameFree_of_over {c : CtxId} {g : Securing} {i fr : Nat} (hsec : (s.ctx c).dust.securing = some g)
    (hover : (List.range g.marks.length).find? (s.shadowOver c g) = some i) (hmark : g.marks[i]? = some (.sent (some fr))) :
    execShadowFrameFree c s = .next (s.modDust c fun d =>
      { d with reserve := fr :: d.reserve, securing := some { g with marks := setAt g.marks i .done } }) := by
  rw [execShadowFrameFree, hsec]
  dsimp only
  rw [hover]
  dsimp only
  rw [hmark]

theorem execSecurePageCopy_of_page {c : CtxId} {g : Securing} {i : Nat} (hsec : ((s.tgtsGo c).ctx c).dust.securing = some g)
    (hfail : g.failed = none) (hout : (g.tgts.any fun e => decide (e.2.phase < 1)) = false)
    (hpage : g.cur = some i ∨ g.cur = none ∧ g.nextPage = some i) :
    execSecurePageCopy c s = .next (if g.cur = some i then (s.tgtsGo c).copyPage c i
      else ((s.tgtsGo c).modSec c fun h => { h with cur := some i }).copyPage c i) := by
  unfold execSecurePageCopy
  dsimp only
  rw [hsec]
  dsimp only
  rw [if_neg (by simp only [hfail, hout]; decide)]
  rcases hpage with hcur | ⟨hcur, hnext⟩
  · rw [hcur, if_pos rfl]
  · rw [hcur, if_neg (by simp)]
    dsimp only
    rw [hnext]

theorem execSecured_of_complete {c : CtxId} {g : Securing} (hsec : ((s.tgtsGo c).ctx c).dust.securing = some g)
    (hfail : g.failed = none) (hall : (g.tgts.all fun e => decide (4 ≤ e.2.phase)) = true) :
    execSecured c s = .next ((s.tgtsGo c).commitEpoch c g) := by
  unfold execSecured
  dsimp only
  rw [hsec]
  dsimp only
  rw [if_pos (by simp only [hfail, hall]; decide)]

theorem dust_nowDone (s : State) (c : Nat) (p : Cmd → Bool) (st res : Nat) : ((s.nowDone c p st res).ctx c).dust = (s.ctx c).dust :=
  dust_completeWhere _ _ _ _ _ _ _

theorem eLast_commitEpoch (s : State) (c : Nat) (g : Securing) : ((s.commitEpoch c g).ctx c).dust.eLast = some g.epoch := by
  unfold State.commitEpoch
  extract_lets p s0 w t d s1 s2 s3
  rw [dust_nowDone, State.ctx_raise]
  unfold s3 s2
  rw [State.ctx_setFld, State.ctx_setFld, State.ctx_setReg64, ctx_modDust]

theorem execSecureFailed_of_failed {c : CtxId} {tgt st : Nat} {g : Securing} (hsec : (s.ctx c).dust.securing = some g)
    (hfail : g.failed = some (tgt, st)) : execSecureFailed c tgt s = .next (s.failSecuring c g tgt st) := by
  rw [execSecureFailed, hsec]
  dsimp only
  rw [hfail]
  dsimp only
  rw [if_pos rfl]

theorem failedLast_failSecuring (s : State) (c : Nat) (g : Securing) (tgt st : Nat) :
    ((s.failSecuring c g tgt st).ctx c).dust.failedLast = true := by
  rw [State.failSecuring, dust_nowDone, State.ctx_raise, State.ctx_flagCount, ctx_modDust]

end

/-- Settles O15: the guard on the reserved bytes splits as the statement does, and the rest is the command's own steps. -/
theorem failureNotice : Obligations.Failure_notice := by
  unfold Obligations.Failure_notice
  rintro c k s cmd hcmd ⟨hop, hserves⟩
  exact ⟨fun ⟨h4, h18⟩ => ⟨_, rfl, execFailureNotice_of_zero hcmd hop hserves h4 h18⟩,
    fun h => execFailureNotice_of_reserved hcmd hop hserves h⟩

/-- Settles O32: each clause's conditions select one path of its command, and the Dust sheet is read off where that path ends. -/
theorem stepBoundaryAndRestores : Obligations.Step_boundary_and_restores := by
  unfold Obligations.Step_boundary_and_restores
  refine ⟨?secureNow, ?failureNotice, ?stepClose, ?stepBoundaryOpen, ?restore, ?restoreShard⟩
  case secureNow =>
    rintro c k s cmd ⟨hcmd, hop, hserves⟩ ⟨hphase, hflags, hzero⟩ ⟨hst, hen, hbase⟩
    refine ⟨_, execSecureNow_of_enabled hcmd hop hserves hphase hflags hzero hst hen hbase, ?_⟩
    rw [State.cmdAt, ctx_setPhase, ctx_modDust]
    exact ⟨rfl, by simp [show (s.ctx c).ring.cmds[k]? = some cmd from hcmd], rfl⟩
  case failureNotice =>
    rintro c k s cmd step ⟨hcmd, hop, hserves⟩ ⟨h4, h18, rfl⟩
    have hrings := sameRings_noticed s c.isLt (fieldLe cmd.desc 8 8) (fieldLe cmd.desc 16 2)
    have hcmd' : (s.noticed c (fieldLe cmd.desc 8 8) (fieldLe cmd.desc 16 2)).cmdAt c k = some cmd := by
      rw [State.cmdAt, hrings.ring]
      exact hcmd
    refine ⟨_, execFailureNotice_of_zero hcmd hop hserves h4 h18, ?_, ?_, ?_, _, hrings.done (State.done_complete 0 _ hcmd')⟩
    · rw [reg_mtbf_complete c.isLt, reg_noticed]
    · rw [dust_complete, State.noticed, ctx_modDust]
    · rw [dust_complete, State.noticed, ctx_modDust]
  case stepClose =>
    rintro c s tb u ⟨htable, hclosing, hst⟩ ⟨hpages, hclose⟩ hu hbusy
    exact ⟨_, execStepClose_of_busy htable hclosing hst hpages hclose hu hbusy, rfl⟩
  case stepBoundaryOpen =>
    rintro c s tb k ⟨htable, hclosing, hst⟩ ⟨hstage, hidle, hflag⟩ hpages
    exact ⟨_, execStepBoundaryOpen_of_ready htable hclosing hst hstage hidle hflag hpages, rfl, dust_boundaryOpen _ _ _ _⟩
  case restore =>
    rintro c k s v cmd f e ⟨hcmd, hop, hserves⟩ ⟨hshard, hphase, hfetch⟩ hdone
    exact ⟨_, execRestore_of_done hcmd hop hserves hshard hphase hfetch hdone, rfl,
      (st_completeWhere _ _ _ _ _ _ _).trans (restoreGo_ready hdone)⟩
  case restoreShard =>
    rintro c k s u cmd f g ⟨hcmd, hop, hserves⟩ ⟨hshard, hphase, hfetch, hdone⟩
    exact ⟨_, execRestoreShard_of_done hcmd hop hserves hshard hphase hfetch hdone, rfl⟩

/-- Settles O33: the securing under way selects the path, and the operation at its end writes the Dust sheet. -/
theorem securingOfAState : Obligations.Securing_of_a_state := by
  unfold Obligations.Securing_of_a_state
  refine ⟨?firstWrite, ?frameFree, ?pageCopy, ?secured, ?secureFailed⟩
  case firstWrite =>
    rintro c page s u k e ⟨hpte, hprotect, hshadow⟩
    exact ⟨_, execPendingPageFirstWrite_of_shadow hpte hprotect hshadow, rfl⟩
  case frameFree =>
    rintro c s g i fr hsec ⟨hover, hmark⟩
    exact ⟨_, execShadowFrameFree_of_over hsec hover hmark, by rw [ctx_modDust]⟩
  case pageCopy =>
    rintro c s g i hsec ⟨hfail, hout⟩ hpage
    exact ⟨_, execSecurePageCopy_of_page hsec hfail hout hpage, rfl⟩
  case secured =>
    rintro c s g hsec ⟨hfail, hall⟩
    exact ⟨_, execSecured_of_complete hsec hfail hall, rfl, eLast_commitEpoch _ _ _⟩
  case secureFailed =>
    rintro c tgt s g st ⟨hsec, hfail⟩
    exact ⟨_, execSecureFailed_of_failed hsec hfail, rfl, failedLast_failSecuring _ _ _ _ _⟩

end Sys2Proof.Machine
end

section
/-! Boot, firmware update and the compartments of the firmware (15_security_firmware.md): the path each command takes under the
conditions of its clause, and the fields of the security page that it leaves; the obligation O34. -/

namespace Sys2Proof.Machine

section

variable {s u : State} {τ : Nat}

@[simp] theorem fld_onSec (s : State) (f : SecSt → SecSt) (k hi lo : Nat) : (s.onSec f).fld k hi lo = s.fld k hi lo := rfl
@[simp] theorem reg_onSec (s : State) (f : SecSt → SecSt) (k : Nat) : (s.onSec f).reg k = s.reg k := rfl
@[simp] theorem reg_modSvc (s : State) (f : SvcSt → SvcSt) (k : Nat) : (s.modSvc f).reg k = s.reg k := rfl
@[simp] theorem sec_modSvc (s : State) (f : SvcSt → SvcSt) : (s.modSvc f).sec = s.sec := rfl
@[simp] theorem fwUp_at (s : State) (t : Nat) : (s.at t).fwUp = s.fwUp := rfl
@[simp] theorem sec_at (s : State) (t : Nat) : (s.at t).sec = s.sec := rfl
/-- A field of one bit after it is written. -/
theorem fld_setFld_bit (s : State) (k v : Nat) {b : Nat} (hb : b < 32) : (s.setFld k b b v).fld k b b = v % 2 := by
  rw [State.fld_setFld _ _ _ _ _ hb, Nat.add_sub_cancel_left, Nat.pow_one]

@[simp] theorem sec_showFuses (s : State) : s.showFuses.sec = s.sec := by
  unfold State.showFuses
  rfl

/-! ## Booting (R618, R619, R625) -/

/-- Where a boot of a part that is not scrapped goes, by the directory d in force. -/
def State.romTries (s : State) (d : Dir) : State :=
  if d.trial ≠ 0xFF ∧ d.state = 1 then
    (s.onSec fun x => x.writeDir fun e => { e with state := 2 }).trySlots d.committed d.trial false [d.trial, 1 - d.trial]
  else if d.trial ≠ 0xFF ∧ d.state = 2 then
    (s.onSec fun x => { x.writeDir fun e => { e with trial := 0xFF, state := 0 } with skipped := x.skipped ++ [(d.trial, 7)] }).trySlots
      d.committed 0xFF false [d.committed, 1 - d.committed]
  else s.trySlots d.committed 0xFF false [d.committed, 1 - d.committed]

theorem execRomBoot_of_reset (hon : s.power.hostOn = true) (hhold : s.power.svc.hold = false)
    (hboot : s.fld SEC_BOOT_STATUS 27 24 = 0) (hfw : s.fld SEC_FW_STATUS 31 30 = 0) (hscrap : s.sec.fuses.scrap = false) :
    execRomBoot s = .next (s.romTries s.sec.dir.1) := by
  rw [execRomBoot, if_neg (by simp [hon, hhold, hboot, hfw]), if_neg (by simp [hscrap])]
  dsimp only
  unfold State.romTries
  split
  · rfl
  · split <;> rfl

theorem execStage1Run_of_match (hboot : s.fld SEC_BOOT_STATUS 27 24 = 1) (hmain : s.sec.mainOk s.slot = true) :
    execStage1Run true s = .next (s.setFld SEC_BOOT_STATUS 27 24 2) := by
  rw [execStage1Run, if_neg (not_not_intro hboot), if_pos ⟨rfl, hmain⟩]

theorem slot_setFld_stage (s : State) (v : Nat) : (s.setFld SEC_BOOT_STATUS 27 24 v).slot = s.slot :=
  State.fld_setFld_below _ _ _ _ _ _ _ (by decide) (by decide)

/-- The registers and the crash records as the firmware shows them when it is ready; h is the header of its image. -/
def State.fwShown (s : State) (h : List Byte) : State :=
  ((((s.setReg HUB_FW_VERSION (fieldLe h 8 4)).setReg HUB_IF_VERSION (fieldLe h 12 4)).setFld SEC_FW_STATUS 31 30 1).setFld
    SEC_FW_STATUS 8 0 0x1FF).onSec fun x => { x with crash := (List.range x.crashed).map fun i => x.fl (0x3100000 + 64 * i) 64, crashed := 0 }

/-- The state in which FW_READY leaves the part. -/
def State.fwStarted (s : State) (h : List Byte) : State :=
  ((s.fwShown h).modSvc fun v => { v with identity := (s.fwShown h).identity }).raise 0x0801 .all
    [(0, 4, fieldLe h 8 4), (4, 4, s.sec.stage1), (8, 1, s.slot), (9, 1, s.fld SEC_BOOT_STATUS 9 9)]

theorem execFwReady_of_stage1 (hboot : s.fld SEC_BOOT_STATUS 27 24 = 2) (hfw : s.fld SEC_FW_STATUS 31 30 = 0) :
    execFwReady s = .next (s.fwStarted (s.sec.head s.slot)) := by
  rw [execFwReady, if_neg (by simp [hboot, hfw])]
  rfl

theorem reg_fwStarted (s : State) (h : List Byte) {k : Nat} (hk : NotEvt k) : (s.fwStarted h).reg k = (s.fwShown h).reg k := by
  rw [State.fwStarted, State.reg_raise hk, reg_modSvc]

theorem fwVersion_fwStarted (s : State) (h : List Byte) : (s.fwStarted h).reg HUB_FW_VERSION = fieldLe h 8 4 := by
  rw [reg_fwStarted _ _ (NotEvt.low (by decide)), State.fwShown, reg_onSec, State.reg_setFld_ne _ _ _ _ _ _ (by decide),
    State.reg_setFld_ne _ _ _ _ _ _ (by decide), State.reg_setReg_ne _ _ _ _ (by decide), State.reg_setReg]
  exact Nat.mod_eq_of_lt (fieldLe_lt h 8 4)

theorem ifVersion_fwStarted (s : State) (h : List Byte) : (s.fwStarted h).reg HUB_IF_VERSION = fieldLe h 12 4 := by
  rw [reg_fwStarted _ _ (NotEvt.low (by decide)), State.fwShown, reg_onSec, State.reg_setFld_ne _ _ _ _ _ _ (by decide),
    State.reg_setFld_ne _ _ _ _ _ _ (by decide), State.reg_setReg]
  exact Nat.mod_eq_of_lt (fieldLe_lt h 12 4)

theorem compartments_fwStarted (s : State) (h : List Byte) : (s.fwStarted h).fld SEC_FW_STATUS 8 0 = 0x1FF := by
  rw [State.fwStarted, fld_raise_all (by decide) (by decide), fld_modSvc, State.fwShown, fld_onSec,
    fld_setFld_of_lt _ (by decide) (by decide)]

theorem fwUp_fwStarted (s : State) (h : List Byte) : (s.fwStarted h).fwUp = true := by
  rw [State.fwUp, beq_iff_eq, State.fwStarted, fld_raise_all (by decide) (by decide), fld_modSvc, State.fwShown, fld_onSec,
    State.fld_setFld_above _ _ _ _ _ _ _ (by decide) (by decide) (by decide), fld_setFld_of_lt _ (by decide) (by decide)]

/-- The service side's copy was taken before the event was raised, which changes none of what an identity names. -/
theorem identity_fwStarted (s : State) (h : List Byte) : (s.fwStarted h).power.svc.identity = (s.fwStarted h).identity := by
  have hsec : (s.fwStarted h).sec = (s.fwShown h).sec := by rw [State.fwStarted, State.raise_sec, sec_modSvc]
  rw [identity_of (congrArg SecSt.fuses hsec) (congrArg SecSt.stage1 hsec) fun k hk => reg_fwStarted s h hk, State.fwStarted,
    State.raise_power]
  rfl

/-! ## Updating firmware (R628, R631) -/

/-- Staging of the image that the registers name has begun. -/
def State.stagingBegun (s : State) : State :=
  ((s.otherSlot.2.setFld SEC_UPD_CTL 2 2 1).setFld SEC_UPD_CTL 3 3 s.otherSlot.1).onSec fun x =>
    { x with staging := some ⟨4096 * (s.reg64 SEC_UPD_ADDR_LO SEC_UPD_ADDR_HI / 4096), s.fld SEC_UPD_LEN 24 0, s.otherSlot.1⟩ }

theorem execSecUpdGo_of_idle {f : FnId} {v : Word32} (hup : s.updUp = true) (hadmin : f.val = s.adminPf) (hgo : bit v.toNat 0 = true)
    (hscrap : s.sec.fuses.scrap = false) (hbusy : s.rbit SEC_UPD_CTL 2 = false) (htrial : s.rbit SEC_BOOT_STATUS 9 = false) :
    execSecUpdGo f v s = .next s.stagingBegun := by
  rw [execSecUpdGo, if_neg (by simp [hup]), if_neg (not_not_intro hadmin), if_neg (by simp [hgo]), if_neg (by simp [hscrap]),
    if_neg (by simp [hbusy]), if_neg (by simp [htrial])]
  rfl

theorem slot_stagingBegun (s : State) : s.stagingBegun.fld SEC_UPD_CTL 3 3 = s.otherSlot.1 % 2 := by
  rw [State.stagingBegun, fld_onSec, fld_setFld_bit _ _ _ (by decide)]

theorem busy_stagingBegun (s : State) : s.stagingBegun.fld SEC_UPD_CTL 2 2 = 1 := by
  rw [State.stagingBegun, fld_onSec, State.fld_setFld_below _ _ _ _ _ _ _ (by decide) (by decide), fld_setFld_bit _ _ _ (by decide)]

/-- Whatever the staging has read and written, FW_STAGED ends in its status, with the busy bit and the staging itself cleared. -/
theorem execFwStaged_of_staging {g : Staging} (hstaging : s.sec.staging = some g) (hfw : s.fwHalted = false) :
    ∃ t, execFwStaged s = .next t ∧ t.sec.staging = none ∧ t.fld SEC_UPD_CTL 15 8 = (s.stage g).1 % 256 ∧ t.fld SEC_UPD_CTL 2 2 = 0 := by
  rw [execFwStaged, hstaging]
  dsimp only
  rw [if_neg (by simp [hfw])]
  refine ⟨_, rfl, ?_, ?_, ?_⟩
  · rw [State.raise_sec]
    rfl
  · rw [fld_raise_all (by decide) (by decide), fld_onSec, State.fld_setFld_ne _ _ _ _ _ _ _ _ (by decide),
      State.fld_setFld_above _ _ _ _ _ _ _ (by decide) (by decide) (by decide), State.updStatus]
    exact State.fld_setFld _ _ _ _ _ (by decide)
  · rw [fld_raise_all (by decide) (by decide), fld_onSec, State.fld_setFld_ne _ _ _ _ _ _ _ _ (by decide), fld_setFld_bit _ _ _ (by decide)]

/-- The directory names the slot that runs as committed, and the rollback fuses have risen to its image's number. -/
def State.committedSlot (s : State) : State :=
  s.onSec fun x =>
    let y := x.writeDir fun d => { d with committed := s.slot, trial := 0xFF, state := 0 }
    { y with fuses := { y.fuses with rollback := max y.fuses.rollback (min 64 x.rollback) }, changed := true }

theorem execSecUpdCommit_of_trial {f : FnId} {v : Word32} (hup : s.updUp = true) (hadmin : f.val = s.adminPf)
    (hcommit : bit v.toNat 1 = true) (hscrap : s.sec.fuses.scrap = false) (hbusy : s.rbit SEC_UPD_CTL 2 = false)
    (htrial : s.rbit SEC_BOOT_STATUS 9 = true) : ∃ pay, execSecUpdCommit f v s =
      .next ((((s.committedSlot.showFuses.updStatus 0).setFld SEC_BOOT_STATUS 9 9 0).setFld SEC_STATUS 3 3 1).raise 0x0806 .all pay) := by
  rw [execSecUpdCommit, if_neg (by simp [hup]), if_neg (not_not_intro hadmin), if_neg (by simp [hcommit]), if_neg (by simp [hscrap]),
    if_neg (by simp [hbusy]), if_neg (by simp [htrial])]
  exact ⟨_, rfl⟩

@[simp] theorem fuses_writeDir (x : SecSt) (f : Dir → Dir) : (x.writeDir f).fuses = x.fuses := by
  unfold SecSt.writeDir
  rfl

theorem fuses_committedSlot (s : State) : s.committedSlot.sec.fuses =
    { s.sec.fuses with rollback := max s.sec.fuses.rollback (min 64 s.sec.rollback) } := by
  rw [State.committedSlot, sec_onSec]
  dsimp only
  rw [fuses_writeDir]

theorem changed_committedSlot (s : State) : s.committedSlot.sec.changed = true := by rw [State.committedSlot, sec_onSec]

theorem sec_updStatus (s : State) (st : Nat) : (s.updStatus st).sec = s.sec := rfl

/-! ## The compartments (R633 to R635) -/

/-- The state after a fault of a compartment that restarts. -/
def State.restarted (s : State) (comp cause : Nat) : State :=
  ((((s.onSec fun x => { x with faults := mput x.faults comp (s.recent comp) }).restartWork comp).flagCount SEC_STATUS 0 SEC_EVT_CNT 31 16
    ).total 13 1).raise 0x0803 .all [(0, 1, comp), (1, 1, cause), (2, 1, (s.recent comp).length)]

theorem compFault_of_few {comp cause : Nat} (hup : s.fwUp = true) (hlo : 1 ≤ comp) (hhi : comp ≤ 8) (hcause : cause ≤ 3)
    (hfew : (s.recent comp).length < 3) : s.compFault comp cause = s.restarted comp cause := by
  rw [State.compFault, if_neg (by simp [hup, hhi, hcause]), if_neg (by omega)]
  dsimp only
  rw [if_neg (by omega)]
  rfl

theorem flag_restarted (s : State) (comp cause : Nat) : (s.restarted comp cause).fld SEC_STATUS 0 0 = 1 := by
  rw [State.restarted, fld_raise_all (by decide) (by decide), State.fld_total, fld_flagCount_flag _ (by decide) (by decide)]

theorem execFwHalted_of_fatal {comp cause : Nat} (hup : s.fwUp = true) (hcomp : comp ≤ 8) (hcause : cause ≤ 3)
    (hfatal : comp = 0 ∨ 3 ≤ ((s.at τ).recent comp).length) :
    execFwHalted comp cause τ s = .next ((s.at τ).halt comp cause (if comp = 0 then 1 else 0)) := by
  rw [execFwHalted, if_pos ⟨hup, hcomp, hcause, hfatal⟩]
  by_cases h : comp = 0 <;> simp [h, b2n]

theorem execFwMemoryUncorr_supervisor (n : Nat) (hup : s.fwUp = true) :
    execFwMemoryUncorr 3 n τ s = .next ((s.at τ).halt 0 3 1) := by
  rw [execFwMemoryUncorr, if_neg (by simp [hup])]

end

/-- Settles O34: the conditions of a clause pass the command's guards one by one, and each field is read through the writes that
follow it. -/
theorem bootUpdateAndCompartments : Obligations.Boot_update_and_compartments := by
  unfold Obligations.Boot_update_and_compartments
  refine ⟨?romBoot, ?stage1Run, ?fwReady, ?secUpdGo, ?fwStaged, ?secUpdCommit, ?fwRestart, ?heartbeatMiss, ?fwHalted, ?fwMemoryUncorr⟩
  case romBoot =>
    rintro s d ⟨hon, hhold, hboot, hfw⟩ ⟨hscrap, rfl⟩
    exact ⟨_, execRomBoot_of_reset hon hhold hboot hfw hscrap, rfl⟩
  case stage1Run =>
    rintro s ⟨hboot, hmain⟩
    refine ⟨_, execStage1Run_of_match hboot hmain, ?_, slot_setFld_stage s 2, State.setFld_sec _ _ _ _ _⟩
    exact fld_setFld_of_lt _ (by decide) (by decide)
  case fwReady =>
    rintro s h ⟨hboot, hfw, rfl⟩
    exact ⟨_, execFwReady_of_stage1 hboot hfw, fwUp_fwStarted _ _, fwVersion_fwStarted _ _, ifVersion_fwStarted _ _,
      compartments_fwStarted _ _, identity_fwStarted _ _⟩
  case secUpdGo =>
    rintro f v s ⟨hup, hadmin, hgo, hscrap⟩ ⟨hbusy, htrial⟩
    exact ⟨_, execSecUpdGo_of_idle hup hadmin hgo hscrap hbusy htrial, rfl, slot_stagingBegun s, busy_stagingBegun s⟩
  case fwStaged =>
    rintro s g ⟨hstaging, hfw⟩
    exact execFwStaged_of_staging hstaging hfw
  case secUpdCommit =>
    rintro f v s ⟨hup, hadmin, hcommit, hscrap⟩ ⟨hbusy, htrial⟩
    obtain ⟨pay, hrun⟩ := execSecUpdCommit_of_trial hup hadmin hcommit hscrap hbusy htrial
    refine ⟨_, hrun, ?_, ?_, ?_, ?_⟩
    · rw [State.raise_sec, State.setFld_sec, State.setFld_sec, sec_updStatus, sec_showFuses, fuses_committedSlot]
    · rw [State.raise_sec, State.setFld_sec, State.setFld_sec, sec_updStatus, sec_showFuses, changed_committedSlot]
    · rw [fld_raise_all (by decide) (by decide), State.fld_setFld_ne _ _ _ _ _ _ _ _ (by decide), fld_setFld_bit _ _ _ (by decide)]
    · rw [fld_raise_all (by decide) (by decide), fld_setFld_bit _ _ _ (by decide)]
  case fwRestart =>
    rintro comp cause τ s ⟨hup, hlo, hhi, hcause, hfew⟩
    exact ⟨_, congrArg Host.Outcome.next (compFault_of_few (s := s.at τ) hup hlo hhi hcause hfew), rfl, flag_restarted _ _ _⟩
  case heartbeatMiss =>
    rintro comp τ s ⟨hup, hlo, hhi, hfew, hcore⟩
    exact ⟨_, congrArg Host.Outcome.next ((if_neg (by rw [sec_at, hcore]; exact Bool.false_ne_true)).trans
      (compFault_of_few (s := s.at τ) hup hlo hhi (by decide) hfew)), rfl, flag_restarted _ _ _⟩
  case fwHalted =>
    rintro comp cause τ s ⟨hup, hcomp, hcause, hfatal⟩
    exact ⟨_, execFwHalted_of_fatal hup hcomp hcause hfatal, rfl, regs_halt _ _ _ _⟩
  case fwMemoryUncorr =>
    intro n τ s hup
    exact ⟨_, execFwMemoryUncorr_supervisor n hup, rfl, (regs_halt _ _ _ _).1⟩

end Sys2Proof.Machine
end

section
/-! Reset (10_omwen_links.md R387, R434; 12_contexts.md R486), part time (R434, R435), the frame of the commands of one context,
completion entries (11_host.md R465, R466), the common bytes of a descriptor (R469) and the extents of a Stencil (04_programs.md
R152, R154); the obligations O2, O10, O8, O11, O13 and O20. -/

namespace Sys2Proof.Machine

/-! ## Reset -/

/-- Settles O2: nothing is listed in the state after reset, so each part reads as its own reset value. -/
theorem resetState : Obligations.Reset_state := by
  unfold Obligations.Reset_state
  exact ⟨rfl, rfl, fun _ => rfl, fun _ => ⟨rfl, rfl, rfl⟩, fun _ => rfl, fun _ => rfl, rfl, rfl, fun _ => ⟨rfl, rfl⟩, by decide⟩

/-! ## Part time -/

/-- The mask, for `Kept`, of every part of the state, with part time not turning back. -/
def timeOnward : Nat := 0x3FFFF

theorem le_now_of_outKept {i : Instr} {s t : State} (h : OutKept timeOnward s (exec i s)) (hexec : exec i s = .next t) : s.now ≤ t.now := by
  obtain ⟨u, hu, hkept⟩ := h
  cases hu.symm.trans hexec
  exact hkept.time (by decide)

/-- A time sample steps part time only at the first lock. -/
theorem le_now_of_execTimeSample {partner hops τ : Nat} {s t : State} (hlocked : s.links.time.everLocked = true)
    (hexec : execTimeSample partner hops τ s = .next t) : s.now ≤ t.now := by
  simp only [execTimeSample, State.at_links, hlocked, if_true] at hexec
  split at hexec <;> cases hexec <;> exact Nat.le_max_left ..

/-- The commands that may change part time but do not start it again: each moves it on. -/
theorem le_now_of_contains_now {i : Instr} {s t : State} (hnow : (partsOf i).contains .now = true) (hexec : exec i s = .next t)
    (hstart : restartsTime i = false) (hsample : (∃ a b d, i = .timeSample a b d) → s.links.time.everLocked = true) : s.now ≤ t.now := by
  cases i
  case timeSample a b d => exact le_now_of_execTimeSample (hsample ⟨a, b, d, rfl⟩) hexec
  case inputUndervoltage | inputOvervoltage | inputBelowServiceMin | thermalTrip | stageFault | coolantOff | leakDetected | hostPowerOn
    | serviceReset | power | reset => exact Bool.noConfusion hstart
  case hbmScrub => exact le_now_of_outKept (execHbmScrub_kept rfl (.refl _ s)) hexec
  case irqDelayExpiry => exact le_now_of_outKept (execIrqDelayExpiry_kept rfl (.refl _ s)) hexec
  case downRetrainTimer => exact le_now_of_outKept (execDownRetrainTimer_kept rfl (.refl _ s)) hexec
  case slotBusy => exact le_now_of_outKept (execSlotBusy_kept rfl (.refl _ s)) hexec
  case holdResend => exact le_now_of_outKept (execHoldResend_kept rfl (.refl _ s)) hexec
  case adminGraceExpiry => exact le_now_of_outKept (execAdminGraceExpiry_kept rfl (.refl _ s)) hexec
  case hbmHotWindowEnd => exact le_now_of_outKept (execHbmHotWindowEnd_kept rfl (.refl _ s)) hexec
  case rollerDetach => exact le_now_of_outKept (execRollerDetach_kept rfl (.refl _ s)) hexec
  case stepSizeLate => exact le_now_of_outKept (execStepSizeLate_kept rfl (.refl _ s)) hexec
  case slowdownWindowEnd => exact le_now_of_outKept (execSlowdownWindowEnd_kept rfl (.refl _ s)) hexec
  case hawkHotWindowEnd => exact le_now_of_outKept (execHawkHotWindowEnd_kept rfl (.refl _ s)) hexec
  case uncorrectableCodeword => exact le_now_of_outKept (execUncorrectableCodeword_kept rfl (.refl _ s)) hexec
  case timeUnlocked => exact le_now_of_outKept (execTimeUnlocked_kept rfl (.refl _ s)) hexec
  case replayBoundExceeded => exact le_now_of_outKept (execReplayBoundExceeded_kept rfl (.refl _ s)) hexec
  case transactionTimeout => exact le_now_of_outKept (execTransactionTimeout_kept rfl (.refl _ s)) hexec
  case collTimeout => exact le_now_of_outKept (execCollTimeout_kept rfl (.refl _ s)) hexec
  case slotTimeout => exact le_now_of_outKept (execSlotTimeout_kept rfl (.refl _ s)) hexec
  case perstNAssert => exact le_now_of_outKept (execPerstNAssert_kept rfl (.refl _ s)) hexec
  case hotReset => exact le_now_of_outKept (execHotReset_kept rfl (.refl _ s)) hexec
  case hostPortLost => exact le_now_of_outKept (execHostPortLost_kept rfl (.refl _ s)) hexec
  case hostGraceExpired => exact le_now_of_outKept (execHostGraceExpired_kept rfl (.refl _ s)) hexec
  case ideInsecure => exact le_now_of_outKept (execIdeInsecure_kept rfl (.refl _ s)) hexec
  case currentLimitEnd => exact le_now_of_outKept (execCurrentLimitEnd_kept rfl (.refl _ s)) hexec
  case energyUpdate => exact le_now_of_outKept (execEnergyUpdate_kept rfl (.refl _ s)) hexec
  case voltageCapUpdate => exact le_now_of_outKept (execVoltageCapUpdate_kept rfl (.refl _ s)) hexec
  case currentLimit => exact le_now_of_outKept (execCurrentLimit_kept rfl (.refl _ s)) hexec
  case capFloor => exact le_now_of_outKept (execCapFloor_kept rfl (.refl _ s)) hexec
  case thermalSensorRead => exact le_now_of_outKept (execThermalSensorRead_kept rfl (.refl _ s)) hexec
  case fwHalted => exact le_now_of_outKept (execFwHalted_kept rfl (.refl _ s)) hexec
  case deadlockWindowExpiry => exact le_now_of_outKept (execDeadlockWindowExpiry_kept rfl (.refl _ s)) hexec
  case capControlTick => exact le_now_of_outKept (execCapControlTick_kept rfl (.refl _ s)) hexec
  case excursionCut => exact le_now_of_outKept (execExcursionCut_kept rfl (.refl _ s)) hexec
  case debugExpiry => exact le_now_of_outKept (execDebugExpiry_kept rfl (.refl _ s)) hexec
  case fwRestart => exact le_now_of_outKept (execFwRestart_kept rfl (.refl _ s)) hexec
  case compartmentHeartbeatMiss => exact le_now_of_outKept (execCompartmentHeartbeatMiss_kept rfl (.refl _ s)) hexec
  case fwMemoryUncorr => exact le_now_of_outKept (execFwMemoryUncorr_kept rfl (.refl _ s)) hexec
  all_goals exact Bool.noConfusion hnow

/-- Settles O10: a command that does not list part time leaves it, by O6. -/
theorem partTimeNeverDecreases : Obligations.Part_time_never_decreases := by
  unfold Obligations.Part_time_never_decreases
  intro i s t hexec hstart hsample
  by_cases hnow : (partsOf i).contains .now = true
  · exact le_now_of_contains_now hnow hexec hstart hsample
  · exact Nat.le_of_eq (onlyListedPartsChange i s t .now hexec fun h => hnow (List.contains_iff_mem.2 h)).symm

/-! ## Commands of one context -/

section

variable {c : Nat} {s t : State}

/-- A command of context c answers a state in which every other context is as before. -/
def OnlyOut (c : Nat) (s : State) (o : Out) : Prop := ∃ t, o = .next t ∧ Only c s t

theorem OnlyOut.next (h : Only c s t) : OnlyOut c s (.next t) := ⟨t, rfl, h⟩

theorem OnlyOut.onCmd {k op : Nat} {f : Cmd → State} (h : ∀ cmd, Only c s (f cmd)) : OnlyOut c s (.next (s.onCmd c k op f)) :=
  .next (.onCmd h)

theorem Only.ringError (h : Only c s t) (which a b d : Nat) : Only c s (t.ringError c which a b d) := by
  unfold State.ringError
  refine Only.raise ?_ _ _ _
  split <;> exact h.of rfl

theorem Only.takeTail (h : Only c s t) (v : BitVec 16) : Only c s (t.takeTail c v) := .ite (h.ringError _ _ _ _) (h.modCtx _)

theorem Only.takeHead (h : Only c s t) (v : BitVec 16) : Only c s (t.takeHead c v) := .ite (h.ringError _ _ _ _) (h.modCtx _)

theorem onlyOut_ringCtlWrite (f : FnId) (c : CtxId) (v : Word32) : OnlyOut c s (execRingCtlWrite f c v s) := by
  unfold execRingCtlWrite State.ringCtlWrite
  have hsoft : Only c s (s.softReg (CTX_RING_CTL c) v.toNat) := .of (.refl _ _) rfl
  have hset : Only c s (s.setFld (CTX_RING_CTL c) 31 31 0) := .of (.refl _ _) rfl
  exact .next (.ite (.ite (.ite (.ite (.refl _ _) (hset.modCtx _)) (.ite (hsoft.modCtx _) hsoft)) (.refl _ _)) (.refl _ _))

theorem onlyOut_doorbellAccepted (c : CtxId) : OnlyOut c s (execDoorbellAccepted c s) := by
  unfold execDoorbellAccepted
  extract_lets r s0 s1
  have hclear : Only c s s0 := Only.modCtx (.refl _ _) _
  have htail : Only c s s1 := by
    unfold s1
    split
    · exact hclear.takeTail _
    · exact hclear
  refine .next (.ite (.refl _ _) ?_)
  split
  · exact htail.takeHead _
  · exact htail

theorem onlyOut_descriptorStart (c : CtxId) : OnlyOut c s (execDescriptorStart c s) := by
  unfold execDescriptorStart
  split
  · split
    · exact .next (.refl _ _)
    · extract_lets op n s1
      have htaken : Only c s s1 := Only.modCtx (.refl _ _) _
      split
      · exact .next (.refl _ _)
      · split
        · exact .next (htaken.complete _ _ _)
        · split
          · exact .next (htaken.complete _ _ _)
          · exact .next htaken
  · exact .next (.refl _ _)

theorem onlyOut_irqDelayExpiry (c : CtxId) (τ : Nat) : OnlyOut c s (execIrqDelayExpiry c τ s) := by
  unfold execIrqDelayExpiry
  have hat : Only c s (s.at τ) := .of (.refl _ _) rfl
  dsimp only
  split
  · split
    · exact .next (.of (hat.modCtx _) (State.fire_ctxs _ _))
    · exact .next hat
  · exact .next hat

theorem onlyOut_setStep (c : CtxId) (k : Nat) : OnlyOut c s (execSetStep c k s) :=
  .onCmd fun _ => .ite (.complete (.refl _ _) _ _ _) (.ite (.complete (.refl _ _) _ _ _) (.ite (.complete (.refl _ _) _ _ _)
    (.ite (.complete (.refl _ _) _ _ _) (.complete (.modCtx (.refl _ _) _) _ _ _))))

theorem onlyOut_secureNow (c : CtxId) (k : Nat) : OnlyOut c s (execSecureNow c k s) :=
  .onCmd fun _ => .ite (.refl _ _) (.ite (.complete (.refl _ _) _ _ _)
    (.ite (.setPhase (.modDust (.refl _ _) _) _ _) (.complete (.refl _ _) _ _ _)))

theorem onlyOut_fence (c : CtxId) (k : Nat) : OnlyOut c s (execFence c k s) :=
  .onCmd fun _ => .ite (.complete (.refl _ _) _ _ _) (.ite (.complete (.refl _ _) _ _ _) (.refl _ _))

theorem onlyOut_preempt (c : CtxId) (k : Nat) : OnlyOut c s (execPreempt c k s) :=
  .onCmd fun _ => .ite (.refl _ _) (.ite (.complete (.refl _ _) _ _ _) (.ite (.startPreempt (.setPhase (.refl _ _) _ _) _)
    (.ite (.complete (.modCtx (.refl _ _) _) _ _ _) (.complete (.refl _ _) _ _ _))))

theorem onlyOut_resync (c : CtxId) (k : Nat) : OnlyOut c s (execResync c k s) :=
  .onCmd fun _ => .ite (.complete (.refl _ _) _ _ _) (.complete (.hostWrite (.refl _ _) _ _ _) _ _ _)

theorem onlyOut_setCap (c : CtxId) (k : Nat) : OnlyOut c s (execSetCap c k s) := by
  refine .onCmd fun cmd => ?_
  split
  · exact .ite (.complete (.refl _ _) _ _ _) (.ite (.complete (.refl _ _) _ _ _)
      (.ite (.setPhase (.setHostCap (.refl _ _) _) _ _) (.complete (.setHostCap (.refl _ _) _) _ _ _)))
  · exact .ite (.complete (.refl _ _) _ _ _) (.refl _ _)
  · exact .refl _ _

theorem onlyOut_queryEnergy (c : CtxId) (k : Nat) : OnlyOut c s (execQueryEnergy c k s) :=
  .onCmd fun _ => .ite (.complete (.refl _ _) _ _ _) (.ite (.complete (.refl _ _) _ _ _)
    (.complete (.ite (.refl _ _) (.hostWrite (.refl _ _) _ _ _)) _ _ _))

theorem onlyOut_placeHint (c : CtxId) (k : Nat) : OnlyOut c s (execPlaceHint c k s) := by
  refine .onCmd fun cmd => .ite (.refl _ _) ?_
  dsimp only
  split
  · exact .complete (.refl _ _) _ _ _
  · exact .ite (.complete (.refl _ _) _ _ _) (.ite (.startPreempt (.setPhase (.putCtx (.refl _ _) _) _ _) _)
      (.complete (.putCtx (.refl _ _) _) _ _ _))

theorem onlyOut_failureNotice (c : CtxId) (k : Nat) : OnlyOut c s (execFailureNotice c k s) :=
  .onCmd fun _ => .ite (.complete (.refl _ _) _ _ _) (.complete (.modDust (.setReg (.refl _ _) _ _) _) _ _ _)

end

/-- The split over the commands that `ctxAlone` lists. -/
theorem onlyOut_of_ctxAlone {i : Instr} {c : CtxId} (s : State) (h : ctxAlone i = some c) : OnlyOut c s (exec i s) := by
  cases i <;> cases h
  case ringCtlWrite => exact onlyOut_ringCtlWrite ..
  case doorbellAccepted => exact onlyOut_doorbellAccepted ..
  case descriptorStart => exact onlyOut_descriptorStart ..
  case irqDelayExpiry => exact onlyOut_irqDelayExpiry ..
  case runComplete => exact .next (.ite (.finishRun (.refl _ _)) (.refl _ _))
  case setStep => exact onlyOut_setStep ..
  case secureNow => exact onlyOut_secureNow ..
  case fence => exact onlyOut_fence ..
  case preempt => exact onlyOut_preempt ..
  case resync => exact onlyOut_resync ..
  case setCap => exact onlyOut_setCap ..
  case queryEnergy => exact onlyOut_queryEnergy ..
  case placeHint => exact onlyOut_placeHint ..
  case failureNotice => exact onlyOut_failureNotice ..

/-- Settles O8: each command that `ctxAlone` lists is made of updates of its own context. -/
theorem aCommandOfOneContextLeavesTheOthers : Obligations.A_command_of_one_context_leaves_the_others := by
  unfold Obligations.A_command_of_one_context_leaves_the_others
  intro i c s t halone hexec d hd
  obtain ⟨u, hu, honly⟩ := onlyOut_of_ctxAlone s halone
  cases hu.symm.trans hexec
  exact honly d hd

/-! ## Completions and the common bytes of a descriptor -/

/-- Settles O11: what `State.complete` leaves, by the model's own lemma. -/
theorem aCompletedCommandHasItsEntry : Obligations.A_completed_command_has_its_entry := by
  unfold Obligations.A_completed_command_has_its_entry
  exact fun _ _ _ status result _ hcmd => State.done_complete status result hcmd

/-- Context c once it has taken descriptor d from its command ring (R464). -/
def State.takeDesc (s : State) (c : Nat) (d : List Byte) : State :=
  s.modCtx c fun x => { x with ring := { x.ring with cmdHead := x.ring.cmdHead + 1, cmds := x.ring.cmds ++ [⟨d, .started, s.now, 0⟩] } }

section

variable {c : CtxId} {s : State} {d : List Byte}

theorem cmdAt_takeDesc (s : State) (c : Nat) (d : List Byte) :
    (s.takeDesc c d).cmdAt c (s.ctx c).ring.cmds.length = some ⟨d, .started, s.now, 0⟩ := by
  simp [State.takeDesc, State.cmdAt]

theorem execDescriptorStart_of_badOpcode (hstart : s.canStart c = true) (hnext : s.nextDesc c = some d)
    (hop : byteAt d 0 = 0 ∨ 0x14 ≤ byteAt d 0) :
    execDescriptorStart c s = .next ((s.takeDesc c d).complete c (s.ctx c).ring.cmds.length 0x01 0) := by
  simp only [execDescriptorStart, if_pos hstart, hnext]
  rw [if_neg (fun h => by omega), if_pos hop]
  rfl

theorem execDescriptorStart_of_badField (hstart : s.canStart c = true) (hnext : s.nextDesc c = some d)
    (hlo : 1 ≤ byteAt d 0) (hhi : byteAt d 0 < 0x14) (hbits : bits (byteAt d 1) 7 1 ≠ 0)
    (hfence : byteAt d 0 = 0x08 → (s.ctx c).ring.cmds = []) :
    execDescriptorStart c s = .next ((s.takeDesc c d).complete c (s.ctx c).ring.cmds.length 0x02 0) := by
  simp only [execDescriptorStart, if_pos hstart, hnext]
  rw [if_neg (fun h => by simp [hfence h.1] at h), if_neg (by omega), if_pos hbits]
  rfl

theorem execDescriptorStart_of_good (hstart : s.canStart c = true) (hnext : s.nextDesc c = some d)
    (hlo : 1 ≤ byteAt d 0) (hhi : byteAt d 0 < 0x14) (hbits : bits (byteAt d 1) 7 1 = 0)
    (hfence : byteAt d 0 = 0x08 → (s.ctx c).ring.cmds = []) : execDescriptorStart c s = .next (s.takeDesc c d) := by
  simp only [execDescriptorStart, if_pos hstart, hnext]
  rw [if_neg (fun h => by simp [hfence h.1] at h), if_neg (by omega), if_neg (by simp [hbits])]
  rfl

end

/-- Settles O13: the two refusing branches of DESCRIPTOR_START. -/
theorem descriptorsThatBreakTheCommonBytes : Obligations.Descriptors_that_break_the_common_bytes := by
  unfold Obligations.Descriptors_that_break_the_common_bytes
  rintro c s u d n hstart hnext rfl rfl
  refine ⟨fun hop _ => ⟨execDescriptorStart_of_badOpcode hstart hnext hop, ?_⟩,
    fun hlo hhi hbits hfence => ⟨execDescriptorStart_of_badField hstart hnext hlo hhi hbits hfence, ?_⟩⟩
  all_goals exact State.done_complete _ _ (cmdAt_takeDesc s c d)

/-! ## The extents of a Stencil -/

theorem of_ite_some_eq_none {α : Type} {p : Prop} [Decidable p] {a : α} {o : Option α} (h : (if p then some a else o) = none) :
    ¬ p ∧ o = none := by
  split at h
  · cases h
  · exact ⟨‹_›, h⟩

/-- The checks of dx.stn.go on the counts and the extents (R154). -/
theorem of_stnCheck_eq_none {laus : List LauRec} {bufs : List LbufRec} {starter : Option Nat} {d : List Byte}
    (h : stnCheck laus bufs starter d = none) :
    (0 < (stnDesc d).run ∧ 0 < (stnDesc d).c1 ∧ 0 < (stnDesc d).c2) ∧
      ((stnDesc d).extLo : Int) ≤ (stnDesc d).span.1 ∧ (stnDesc d).span.2 ≤ (stnDesc d).extHi := by
  obtain ⟨_, h⟩ := of_ite_some_eq_none h
  obtain ⟨hcounts, h⟩ := of_ite_some_eq_none h
  obtain ⟨hextents, _⟩ := of_ite_some_eq_none h
  simp only [not_or, Int.not_lt] at hcounts hextents
  obtain ⟨hrun, _, hc1, hc2, _⟩ := hcounts
  obtain ⟨_, _, hlo, hhi, _⟩ := hextents
  exact ⟨⟨Nat.pos_of_ne_zero hrun, Nat.pos_of_ne_zero hc1, Nat.pos_of_ne_zero hc2⟩, hlo, hhi⟩

/-- The reach of one index of the pattern. -/
theorem mul_mem_reach {i n : Nat} (s : Int) (h : i < n) :
    min 0 (((n : Int) - 1) * s) ≤ i * s ∧ (i : Int) * s ≤ max 0 (((n : Int) - 1) * s) := by
  have hi : (i : Int) ≤ n - 1 := by omega
  rcases Int.le_total 0 s with hs | hs
  · have hpos : 0 ≤ (i : Int) * s := Int.mul_nonneg (Int.natCast_nonneg i) hs
    have hstep := Int.mul_le_mul_of_nonneg_right hi hs
    omega
  · have hneg : (i : Int) * s ≤ 0 := Int.mul_nonpos_of_nonneg_of_nonpos (Int.natCast_nonneg i) hs
    have hstep := Int.mul_le_mul_of_nonpos_right hi hs
    omega

/-- Every byte of a stream lies within the span of its pattern. -/
theorem addr_mem_span {x : StnDesc} {p lo : Nat} (hrun : 0 < x.run) (hc1 : 0 < x.c1) (hc2 : 0 < x.c2) (hp : p < x.total)
    (hlo : (lo : Int) ≤ x.span.1) : x.span.1 ≤ x.addr p ∧ (x.addr p : Int) ≤ x.span.2 := by
  have hp' : p < x.run * (x.c1 * x.c2 * x.c3) := by rw [StnDesc.total] at hp; simpa only [Nat.mul_assoc] using hp
  have hr : p / x.run < x.c1 * x.c2 * x.c3 := Nat.div_lt_of_lt_mul hp'
  have h1 := mul_mem_reach x.s1 (Nat.mod_lt (p / x.run) hc1)
  have h2 := mul_mem_reach x.s2 (Nat.mod_lt (p / x.run / x.c1) hc2)
  have h3 := mul_mem_reach x.s3 (Nat.div_lt_of_lt_mul hr)
  have hb := Nat.mod_lt p hrun
  simp only [StnDesc.span, StnDesc.addr] at *
  omega

/-- Settles O20: the checks hold the span of the pattern within the extents. -/
theorem aStencilStaysWithinItsExtents : Obligations.A_Stencil_stays_within_its_extents := by
  unfold Obligations.A_Stencil_stays_within_its_extents
  intro laus bufs starter d p hcheck hp
  obtain ⟨⟨hrun, hc1, hc2⟩, hlo, hhi⟩ := of_stnCheck_eq_none hcheck
  obtain ⟨hfrom, hto⟩ := addr_mem_span hrun hc1 hc2 hp hlo
  exact ⟨Int.ofNat_le.1 (Int.le_trans hlo hfrom), Int.ofNat_le.1 (Int.le_trans hto hhi)⟩

end Sys2Proof.Machine
end

section
/-! Operations that start after a flag (04_programs.md R139, R140), and what the control core does by itself: issue (R136), Stencils
(R153, R154), flags (R147, R148), semaphores (12_contexts.md R512, R513), levels and loops (R161, R164, R168, R171), RV64
instructions (R125 to R128); the obligations O24, O28, O29, O30 and O31. -/

namespace Sys2Proof.Machine

/-! ## Operations that start after a flag, and flag operations -/

section

variable {s : State} {n c l e k : Nat} {op : FifoOp}

theorem startCompute_of_ready (hlive : s.live n = some (c, l)) (hnext : (s.au n).nextOf 0 = some op) (hwen : opWen op.word = true)
    (hflag : s.flagTest c op.word = true) (hready : s.computeReady n op = true) : s.startCompute n true = s.beginOp n 0 c op :=
  startUnit_eq hlive hnext hwen hready hflag

theorem startLoad_of_ready (hlive : s.live n = some (c, l)) (hnext : (s.au n).nextOf 1 = some op) (hwen : opWen op.word = true)
    (hflag : s.flagTest c op.word = true) (hready : s.loadReady n op = true) :
    s.startLoad n true = (s.beginOp n 1 c op).modAu n fun x => x.beginLoad op :=
  startUnit_eq hlive hnext hwen hready hflag

theorem startDrain_of_rowReady (hlive : s.live n = some (c, l)) (hnext : (s.au n).nextOf 2 = some op) (hwen : opWen op.word = true)
    (hflag : s.flagTest c op.word = true) (hrow : (s.au n).drainRowReady op.seq op.word 0 = true)
    (hfmt : (s.au n).drainMismatch op = false) : s.startDrain n true = s.beginOp n 2 c op := by
  rw [State.startDrain, startUnit_eq hlive hnext hwen (by simp [hrow]) hflag, hfmt]
  exact if_neg Bool.false_ne_true

theorem startScreed_of_flag (hlive : s.live n = some (c, l)) (hnext : (s.au n).nextOf 3 = some op) (hwen : opWen op.word = true)
    (hflag : s.flagTest c op.word = true) : s.startScreed n true none = (s.beginOp n 3 c op).scrOnStart n c op :=
  startUnit_eq hlive hnext hwen rfl hflag

theorem startTrowel_of_flag (hlive : s.live n = some (c, l)) (hnext : (s.au n).nextOf 4 = some op) (hwen : opWen op.word = true)
    (hflag : s.flagTest c op.word = true) (heta : s.etaReady c op.word = true) :
    s.startTrowel n true none = (s.beginOp n 4 c op).trwOnStart n c op :=
  startUnit_eq hlive hnext hwen heta hflag

theorem flagOp_of_first (v : Bool) (hfirst : s.firstKind n e k = some (c, op)) (hbefore : s.allBefore n e op.seq = true)
    (hflag : s.flagTest c op.word = true) : s.flagOp n e k v = (s.popOp n e c op).setFlag c (bits op.word 7 0) v := by
  rw [State.flagOp, hfirst]
  exact if_pos ⟨hbefore, hflag⟩

theorem execNop_of_first {a : AuId} {e : EngId} (hfirst : s.firstKind a e 0xF = some (c, op))
    (hwaiting : ((s.au a).waitingBefore e op.seq fun w => (unitOf e w).isSome) = false) (hflag : s.flagTest c op.word = true) :
    execNop a e s = .next (s.popOp a e c op) := by
  rw [execNop, hfirst]
  dsimp only
  rw [if_pos ⟨by rw [hwaiting]; rfl, hflag⟩]

/-- Unit k starts its first operation after a flag (R140). -/
def State.startAfterWait (s : State) (n k : Nat) : State :=
  match k with
  | 0 => s.startCompute n true
  | 1 => s.startLoad n true
  | 2 => s.startDrain n true
  | 3 => s.startScreed n true none
  | 4 => s.startTrowel n true none
  | _ => ((s.startMove n true 0).startMove n true 1).startMove n true 2

theorem execOpStartAfterWait_unit {a : AuId} {u : UnitId} {k : Nat} (hu : u.val = k) :
    execOpStartAfterWait a u s = .next (s.startAfterWait a k) := by
  subst hu
  rfl

end

/-- Settles O24: the unit named starts its first operation, and the flag operation leaves its FIFO. -/
theorem arrayOperationsAndFlags : Obligations.Array_operations_and_flags := by
  unfold Obligations.Array_operations_and_flags
  refine ⟨?compute, ?load, ?drain, ?screed, ?trowel, ?move, ?setf, ?clrf, ?nop⟩
  case compute =>
    rintro a u s c l op ⟨hu, hlive, hnext, hwen, hflag, hready⟩
    exact ⟨_, (execOpStartAfterWait_unit hu).trans (congrArg _ (startCompute_of_ready hlive hnext hwen hflag hready)), rfl⟩
  case load =>
    rintro a u s c l op ⟨hu, hlive, hnext, hwen, hflag, hready⟩
    exact ⟨_, (execOpStartAfterWait_unit hu).trans (congrArg _ (startLoad_of_ready hlive hnext hwen hflag hready)), rfl⟩
  case drain =>
    rintro a u s c l op ⟨hu, hlive, hnext, hwen, hflag, hrow, hfmt⟩
    exact ⟨_, (execOpStartAfterWait_unit hu).trans (congrArg _ (startDrain_of_rowReady hlive hnext hwen hflag hrow hfmt)), rfl⟩
  case screed =>
    rintro a u s c l op ⟨hu, hlive, hnext, hwen, hflag⟩
    exact ⟨_, (execOpStartAfterWait_unit hu).trans (congrArg _ (startScreed_of_flag hlive hnext hwen hflag)), rfl⟩
  case trowel =>
    rintro a u s c l op ⟨hu, hlive, hnext, hwen, hflag, heta⟩
    exact ⟨_, (execOpStartAfterWait_unit hu).trans (congrArg _ (startTrowel_of_flag hlive hnext hwen hflag heta)), rfl⟩
  case move => exact fun _ _ _ hu => ⟨_, execOpStartAfterWait_unit hu, rfl⟩
  case setf =>
    rintro a e s c op ⟨hfirst, hbefore, hflag⟩
    exact ⟨_, congrArg Host.Outcome.next (flagOp_of_first true hfirst hbefore hflag), rfl⟩
  case clrf =>
    rintro a e s c op ⟨hfirst, hbefore, hflag⟩
    exact ⟨_, congrArg Host.Outcome.next (flagOp_of_first false hfirst hbefore hflag), rfl⟩
  case nop =>
    rintro a e s c op ⟨hfirst, hwaiting, hflag⟩
    exact ⟨_, execNop_of_first hfirst hwaiting hflag, rfl⟩

/-! ## Xdxs instructions -/

section

variable {s u : State} {n c : Nat} {d : Dx} {w : CoreWait}

/-- A core that its instruction holds in the wait w looks at that instruction again. -/
theorem onHeld_eq {ok : CoreWait → Bool} {f : Nat → Dx → State → State} (h : s.HeldDx n w c d u) (hw : (s.core n).wait = w)
    (hok : ok w = true) : s.onHeld n ok f = f c d u := by
  rw [State.onHeld, if_pos (hw ▸ hok), onDx_eq h.2]

theorem issue_of_ok {e x rd : Nat} (hok : opReject e (u.au n).part x = none) :
    u.issue c n e x rd = ((u.modAu n fun a => a.pushOp e x).dxSet n rd 1).progress c := by
  rw [State.issue, hok]

theorem flagWait_of_set {f : Nat} (clr : Bool) (h : u.flag c f = true) :
    u.flagWait c n f true clr = ((if clr then u.setFlag c f false else u).dxDone n).progress c := if_pos h

theorem flagWait_of_clear {f : Nat} (h : u.flag c f = false) : u.flagWait c n f false false = (u.dxDone n).progress c := if_pos h

theorem stn_dxDone_progress (u : State) (n c st : Nat) : ((((u.dxDone n).progress c).au n).stn st) = (u.au n).stn st := by
  rw [State.progress, State.au_modCtx, State.dxDone, State.modCore, State.au_modAu]
  rfl

theorem stn_putStn (a : Au) (st : Nat) (x : StnSlot) : (a.putStn st x).stn st = x := mget_mset_same ..

end

theorem execDxStnLd_of_read {a : AuId} {s u v : State} {c st rs1 : Nat} {bs : List Byte} (h : s.HeldDx a .stnLd c (.stnLd st rs1) u)
    (halign : u.xreg a rs1 % 64 = 0) (hidle : ((u.au a).stn st).busy = false) (hread : u.vread c (u.xreg a rs1) 64 = .ok (bs, v)) :
    execDxStnLd a s = .next (((v.modAu a fun x => x.loadStn st bs).dxDone a).progress c) := by
  rw [execDxStnLd, onDxOr_eq h]
  dsimp only
  rw [if_neg (not_not_intro halign), if_neg (by simp [hidle]), hread]

theorem execDxStnGo_of_good {a : AuId} {s u : State} {c st l : Nat} {p : Program} (h : s.HeldDx a .stnGo c (.stnGo st) u)
    (hidle : ((u.au a).stn st).busy = false) (hasg : (u.au a).asg = some (c, l)) (hprog : (u.ctx c).prog = some p)
    (hend : ((u.au a).onEnd (stnDesc ((u.au a).stn st).desc).queue (stnDesc ((u.au a).stn st).desc).scales .active).isEmpty = true)
    (hlink : (u.ctx c).linkBound l (stnDesc ((u.au a).stn st).desc).queue = false)
    (hcheck : stnCheck p.laus p.lbufs (some l) ((u.au a).stn st).desc = none) :
    execDxStnGo a s = .next (((u.modAu a fun y => y.startStn st).dxDone a).progress c) := by
  rw [execDxStnGo, onDxOr_eq h]
  dsimp only
  rw [hasg, if_neg (by simp [hidle, hend, hlink]), hprog]
  dsimp only
  rw [hcheck]

theorem startStn_st {x : Au} {st : Nat}
    (hend : (x.onEnd (stnDesc (x.stn st).desc).queue (stnDesc (x.stn st).desc).scales .active).isEmpty = true) :
    ((x.startStn st).stn st).st = .active := by
  rw [Au.startStn, stn_putStn]
  exact if_pos hend

/-- Settles O28: the instruction at the program counter is the one that the clause names, and the clause's conditions pass its
guards. -/
theorem issueFromTheCoreAndStencils : Obligations.Issue_from_the_core_and_Stencils := by
  unfold Obligations.Issue_from_the_core_and_Stencils
  refine ⟨?issue, ?tryissue, ?tryissueFull, ?placeFree, ?stnLd, ?stnGo, ?stnPos, ?stnWait, ?stnStat⟩
  case issue =>
    rintro a s u c e rs1 rd h ⟨hfree, hok⟩
    exact ⟨_, congrArg Host.Outcome.next ((onDx_eq h).trans ((if_pos hfree).trans (issue_of_ok hok))), rfl⟩
  case tryissue =>
    rintro a s u c e rs1 rd h ⟨hfree, hok⟩
    exact ⟨_, congrArg Host.Outcome.next ((onDx_eq h).trans ((if_pos hfree).trans (issue_of_ok hok))), rfl⟩
  case tryissueFull =>
    rintro a s u c e rs1 rd h hfull
    exact ⟨_, congrArg Host.Outcome.next ((onDx_eq h).trans (if_neg (by simp [hfull]))), rfl⟩
  case placeFree =>
    rintro a s u c e rs1 rd ⟨h, hwait⟩ ⟨hfree, hok⟩
    exact ⟨_, congrArg Host.Outcome.next ((onHeld_eq h hwait (by decide)).trans ((if_pos hfree).trans (issue_of_ok hok))), rfl⟩
  case stnLd =>
    rintro a s u c st rs1 bs v h ⟨halign, hidle⟩ hread
    exact ⟨_, execDxStnLd_of_read h halign hidle hread, rfl⟩
  case stnGo =>
    rintro a s u c st l p h ⟨hidle, hasg, hprog⟩ ⟨hend, hlink⟩ hcheck
    refine ⟨_, execDxStnGo_of_good h hidle hasg hprog hend hlink hcheck, rfl, ?_⟩
    rw [stn_dxDone_progress, State.au_modAu]
    exact startStn_st hend
  case stnPos => exact fun a s u c st rd h => ⟨_, congrArg Host.Outcome.next (onDx_eq h), rfl⟩
  case stnWait =>
    intro a s u c st h hidle
    exact ⟨_, congrArg Host.Outcome.next ((onDxOr_eq h).trans (if_neg (by simp [hidle]))), rfl⟩
  case stnStat => exact fun a s u c st rd h => ⟨_, congrArg Host.Outcome.next (onDx_eq h), rfl⟩

/-! ## Flags and semaphores -/

section

variable {a : AuId} {s u : State} {c rs1 : Nat}

theorem semAcquire_of_free {n : Nat} (hholder : (u.sem n).holder = none) (hwaiters : (u.sem n).waiters = []) :
    u.semAcquire c n = some (u.putSem n { u.sem n with holder := some c }) := by
  rw [State.semAcquire]
  exact if_pos (by simp [hholder, hwaiters])

theorem execDxSemAcq_of_free (h : s.AtDx a c (.semAcq rs1) u) (hlt : u.xreg a rs1 < 256) (hmask : bit (u.sem (u.xreg a rs1)).mask c = true)
    (hholder : (u.sem (u.xreg a rs1)).holder = none) (hwaiters : (u.sem (u.xreg a rs1)).waiters = []) : execDxSemAcq a s =
    .next (((u.putSem (u.xreg a rs1) { u.sem (u.xreg a rs1) with holder := some c }).dxDone a).progress c) := by
  rw [execDxSemAcq, onDx_eq h]
  dsimp only
  rw [Nat.mod_eq_of_lt hlt, if_neg (Nat.not_le.2 hlt), if_neg (by simp [hmask]), if_neg (by simp [hholder]),
    semAcquire_of_free hholder hwaiters]

theorem execDxSemRel_of_held (h : s.AtDx a c (.semRel rs1) u) (hlt : u.xreg a rs1 < 256) (hmask : bit (u.sem (u.xreg a rs1)).mask c = true)
    (hholder : (u.sem (u.xreg a rs1)).holder = some c) : execDxSemRel a s =
    .next ((((u.putSem (u.xreg a rs1) { u.sem (u.xreg a rs1) with holder := none }).dxDone a).progress c).endLoan c) := by
  rw [execDxSemRel, onDx_eq h]
  dsimp only
  rw [Nat.mod_eq_of_lt hlt, if_neg (Nat.not_le.2 hlt), if_neg (by simp [hmask]), if_neg (not_not_intro hholder)]

end

/-- Settles O29: the instruction at the program counter is the one that the clause names, and the clause's conditions pass its
guards. -/
theorem flagsAndSemaphores : Obligations.Flags_and_semaphores := by
  unfold Obligations.Flags_and_semaphores
  refine ⟨?fset, ?fclr, ?fwait, ?fwaitc, ?fwaitx, ?satisfied, ?ftest, ?semAcq, ?semRel⟩
  case fset => exact fun a s u c f h => ⟨_, congrArg Host.Outcome.next (onDx_eq h), rfl⟩
  case fclr => exact fun a s u c f h => ⟨_, congrArg Host.Outcome.next (onDx_eq h), rfl⟩
  case fwait => exact fun a s u c f h hset => ⟨_, congrArg Host.Outcome.next ((onDx_eq h).trans (flagWait_of_set false hset)), rfl⟩
  case fwaitc => exact fun a s u c f h hclear => ⟨_, congrArg Host.Outcome.next ((onDx_eq h).trans (flagWait_of_clear hclear)), rfl⟩
  case fwaitx => exact fun a s u c f h hset => ⟨_, congrArg Host.Outcome.next ((onDx_eq h).trans (flagWait_of_set true hset)), rfl⟩
  case satisfied =>
    rintro a s u c g f ⟨h, hwait, hset⟩
    exact ⟨_, congrArg Host.Outcome.next ((onHeld_eq h hwait rfl).trans (flagWait_of_set true hset)), rfl⟩
  case ftest => exact fun a s u c f rd h => ⟨_, congrArg Host.Outcome.next (onDx_eq h), rfl⟩
  case semAcq =>
    rintro a s u c rs1 n h ⟨rfl, hlt, hmask⟩ ⟨hholder, hwaiters⟩
    refine ⟨_, execDxSemAcq_of_free h hlt hmask hholder hwaiters, ?_, rfl⟩
    rw [State.progress, State.sem_modCtx, State.dxDone, State.modCore, State.sem_modAu, State.sem_putSem]
  case semRel =>
    rintro a s u c rs1 n h ⟨rfl, hlt, hmask⟩ hholder
    exact ⟨_, execDxSemRel_of_held h hlt hmask hholder, rfl⟩

/-! ## Levels, loops and placement -/

/-- Settles O30: the instruction at the program counter is the one that the clause names, and a pace that is reached lets the core go
on. -/
theorem levelsLoopsAndPlacement : Obligations.Levels_loops_and_placement := by
  unfold Obligations.Levels_loops_and_placement
  refine ⟨?qlvl, ?flvl, ?fpace, ?qpace, ?loop, ?brk, ?where_⟩
  case qlvl => exact fun a s u c q rd h => ⟨_, congrArg Host.Outcome.next (onDx_eq h), rfl⟩
  case flvl => exact fun a s u c e rd h => ⟨_, congrArg Host.Outcome.next (onDx_eq h), rfl⟩
  case fpace => exact fun a s u c e rs1 h hle => ⟨_, congrArg Host.Outcome.next ((onDxOr_eq h).trans (if_pos hle)), rfl⟩
  case qpace => exact fun a s u c q rs1 h hle => ⟨_, congrArg Host.Outcome.next ((onDxOr_eq h).trans (if_pos hle)), rfl⟩
  case loop => exact fun a s u c level len h => ⟨_, congrArg Host.Outcome.next (onDx_eq h), rfl⟩
  case brk => exact fun a s u c level h => ⟨_, congrArg Host.Outcome.next (onDx_eq h), rfl⟩
  case where_ => exact fun a s u c rs1 rd h => ⟨_, congrArg Host.Outcome.next (onDx_eq h), rfl⟩

/-! ## Instructions of the control core -/

section

variable {a : AuId} {s u : State} {c l len : Nat}

theorem execCoreInstruction_of_rv {i : Rv} (hready : s.coreReady a = some c) (hfetch : s.fetch c (s.core a).pc.toNat = .got i len u)
    (hrv : ∀ d, i ≠ .dx d) : execCoreInstruction a s = .next ((u.coreDo c a i len).progress c) := by
  rw [execCoreInstruction, hready]
  dsimp only
  rw [hfetch]
  cases i with
  | dx d => exact absurd rfl (hrv d)
  | _ => rfl

theorem core_modCore (u : State) (n : Nat) (f : CoreSt → CoreSt) : (u.modCore n f).core n = f (u.core n) := by
  rw [State.core, State.modCore, State.au_modAu]
  rfl

theorem core_progress (u : State) (c n : Nat) : (u.progress c).core n = u.core n := rfl

theorem progressAt_progress (u : State) (c : Nat) : ((u.progress c).ctx c).progressAt = u.now := by
  rw [State.progress, State.ctx_modCtx]

/-- A register of the core after one is written; x0 stays 0. -/
theorem rd_wr (k : CoreSt) (rd r : Nat) (v : BitVec 64) : (k.wr rd v).rd r = if r = rd ∧ rd ≠ 0 then v else k.rd r := by
  unfold CoreSt.wr CoreSt.rd
  by_cases hrd : rd = 0
  · simp [hrd]
  · by_cases hr : r = rd
    · simp [hr, hrd]
    · simp only [if_neg hrd, hr, false_and, if_false, mget_mset_ne _ _ _ _ _ hr]

theorem goOn_of_noLoop {k : CoreSt} (hloops : k.loops = []) (p : Nat) :
    k.goOn p = { k with pc := BitVec.ofNat 64 p, loops := [], instret := k.instret + 1 } := by
  rw [CoreSt.goOn, hloops]
  rfl

theorem loops_wr (k : CoreSt) (rd : Nat) (v : BitVec 64) : (k.wr rd v).loops = k.loops := by
  unfold CoreSt.wr
  split <;> rfl

/-- The core of an AU after a register-to-register instruction outside every loop. -/
theorem core_coreDo_alu {op : Alu} {rd rs1 rs2 : Nat} (hloops : (u.core a).loops = []) : (u.coreDo c a (.alu op rd rs1 rs2) len).core a =
    { (u.core a).wr rd (op.eval ((u.core a).rd rs1) ((u.core a).rd rs2)) with
      pc := BitVec.ofNat 64 ((u.core a).pc.toNat + len), loops := []
      instret := ((u.core a).wr rd (op.eval ((u.core a).rd rs1) ((u.core a).rd rs2))).instret + 1 } := by
  simp only [State.coreDo, core_modCore]
  exact goOn_of_noLoop ((loops_wr _ _ _).trans hloops) _

theorem execCorePageWaitEnd_of_readable {va : Nat} {r : Nat × Pte × Nat} (hlive : s.live a = some (c, l)) (hwait : (s.core a).wait = .page va)
    (hpage : (s.ctx c).translate va false = .ok r) :
    execCorePageWaitEnd a s = .next ((s.modCore a fun k => { k with wait := .none }).progress c) := by
  rw [execCorePageWaitEnd, hlive, hwait]
  dsimp only
  rw [hpage]

theorem execLogicalAuExit_of_exit (hlive : s.live a = some (c, l)) (hrun : (s.core a).running = true) (hwait : (s.core a).wait = .none)
    (hpc : (s.core a).pc.toNat = (s.ctx c).exitVa) :
    execLogicalAuExit a s = .next ((s.modCore a fun k => { k with running := false, finished := true }).progress c) := by
  rw [execLogicalAuExit, hlive]
  exact if_pos ⟨hrun, hwait, hpc⟩

end

section

variable {s : State} {n : SemId} {c : Nat}

/-- Semaphore n in the hands of its next waiter, whose cores go on (R512). -/
def State.semHandOver (s : State) (n c : Nat) : State :=
  ((s.putSem n { s.sem n with holder := some c, waiters := (s.sem n).waiters.filter (· != c) }).modCtxAus c (Au.semGo n)).modCtx c
    fun y => { y with saved := y.saved.map fun e => (e.1, e.2.semGo n) }

theorem execSemGranted_of_waiter (hholder : (s.sem n).holder = none) (hnext : s.semNext n = some c) :
    execSemGranted n s = .next ((s.semHandOver n c).progress c) := by
  rw [execSemGranted, hnext]
  dsimp only
  rw [hholder]
  rfl

theorem modCtxAus_keeps (s : State) (c : Nat) (f : Au → Au) : (s.modCtxAus c f).sems = s.sems ∧ (s.modCtxAus c f).now = s.now := by
  rw [State.modCtxAus]
  generalize s.ctxAus c = es
  induction es generalizing s with
  | nil => exact ⟨rfl, rfl⟩
  | cons e es ih => exact ih (s.modAu e.2 f)

theorem sem_semHandOver (s : State) (n c : Nat) :
    (s.semHandOver n c).sem n = { s.sem n with holder := some c, waiters := (s.sem n).waiters.filter (· != c) } := by
  rw [State.semHandOver, State.sem_modCtx, State.sem, (modCtxAus_keeps _ _ _).1]
  exact State.sem_putSem ..

theorem now_semHandOver (s : State) (n c : Nat) : (s.semHandOver n c).now = s.now := by
  rw [State.semHandOver, State.modCtx_now, (modCtxAus_keeps _ _ _).2, State.putSem_now]

end

/-- Settles O31: each clause's conditions select one branch of its command, and the core or the semaphore is read off the state
answered. -/
theorem instructionsOfTheControlCore : Obligations.Instructions_of_the_control_core := by
  unfold Obligations.Instructions_of_the_control_core
  refine ⟨?rv, ?alu, ?pageWaitEnd, ?exit, ?semGranted⟩
  case rv =>
    rintro a s u c len i ⟨hready, hfetch⟩ hrv
    exact ⟨_, execCoreInstruction_of_rv hready hfetch hrv, rfl⟩
  case alu =>
    rintro a s u c len rd rs1 rs2 op ⟨hready, hfetch⟩ hloops
    refine ⟨_, execCoreInstruction_of_rv hready hfetch (fun _ h => nomatch h), fun r => ?_, ?_, fun _ => rfl, rfl⟩
    · rw [core_progress, core_coreDo_alu hloops, ← rd_wr]
      rfl
    · rw [core_progress, core_coreDo_alu hloops]
  case pageWaitEnd =>
    rintro a s c l va r ⟨hlive, hwait, hpage⟩
    exact ⟨_, execCorePageWaitEnd_of_readable hlive hwait hpage, rfl⟩
  case exit =>
    rintro a s c l ⟨hlive, hrun, hwait, hpc⟩
    refine ⟨_, execLogicalAuExit_of_exit hlive hrun hwait hpc, ?_, ?_⟩
    · rw [core_progress, core_modCore]
    · rw [progressAt_progress]
      rfl
  case semGranted =>
    rintro n s c ⟨hholder, hnext⟩
    refine ⟨_, execSemGranted_of_waiter hholder hnext, ?_, ?_⟩
    · rw [State.progress, State.sem_modCtx, sem_semHandOver]
    · rw [progressAt_progress, now_semHandOver]

end Sys2Proof.Machine
end

section
/-! The admin role (11_host.md R449), summaries (R480), rings and doorbells (R458 to R464), event rings (R473, R476), FENCE and RESYNC
(R478, R479); the obligations O36 and O37. -/

namespace Sys2Proof.Machine

section

variable {s : State} {f : FnId} {c : CtxId}

/-! ## The admin role -/

theorem adminPort_moveAdmin (s : State) {p : Nat} (cause : Nat) (hp : p < 2) : (s.moveAdmin p cause).adminPort = p := by
  rw [State.adminPort, State.moveAdmin, State.fld_of_reg (State.reg_raise (.low (by decide)))]
  exact fld_setFld_of_lt _ (by decide) hp

theorem reg_moveAdmin (s : State) (p cause : Nat) {k : Nat} (hlow : k < 0x300000) (hk : k ≠ HUB_ADMIN) :
    (s.moveAdmin p cause).reg k = s.reg k := by
  rw [State.moveAdmin, State.reg_raise (.low hlow), State.reg_setFld_ne _ _ _ _ _ _ hk]

theorem execHubAdminWrite_of_other {v : Word32} (hup : s.barUp = true) (hadmin : f.val = s.adminPf) (hother : bits v.toNat 0 0 ≠ s.adminPort) :
    execHubAdminWrite f v s = .next (s.moveAdmin (bits v.toNat 0 0) 0) := by
  rw [execHubAdminWrite, if_pos hup, State.adminWrite, if_pos hadmin, if_neg hother]

theorem execAdminGraceExpiry_of_over {τ : Nat} (hlost : (s.port s.adminPort).lost = true)
    (hover : (s.port s.adminPort).lostAt + s.graceNs s.adminPort ≤ τ) (hdl : (s.port (1 - s.adminPort)).dlUp = true) :
    execAdminGraceExpiry τ s = .next ((s.at τ).moveAdmin (1 - s.adminPort) 1) := if_pos ⟨hlost, hover, hdl⟩

/-! ## Summaries -/

theorem execHubSyncGo_of_idle {v : Word32} (hup : s.barUp = true) (hgo : bit v.toNat 0 = true) (hidle : s.fld (HUB_SYNC_REQ f) 1 1 = 0) :
    execHubSyncGo f v s = .next ((s.softReg (HUB_SYNC_REQ f) v.toNat).setFld (HUB_SYNC_REQ f) 1 1 1) := by
  rw [execHubSyncGo, if_pos hup, State.syncReqWrite]
  exact congrArg _ (if_pos ⟨hgo, hidle⟩)

/-- SYNC_REQ of function f says that the summary is done, with a status (R480). -/
def State.syncDone (s : State) (f status : Nat) : State :=
  ((s.setFld (HUB_SYNC_REQ f) 1 1 0).setFld (HUB_SYNC_REQ f) 2 2 1).setFld (HUB_SYNC_REQ f) 15 8 status

theorem fld_syncDone (s : State) (f : Nat) {status : Nat} (h : status < 256) : (s.syncDone f status).fld (HUB_SYNC_REQ f) 1 1 = 0 ∧
    (s.syncDone f status).fld (HUB_SYNC_REQ f) 2 2 = 1 ∧ (s.syncDone f status).fld (HUB_SYNC_REQ f) 15 8 = status := by
  rw [State.syncDone]
  refine ⟨?_, ?_, fld_setFld_of_lt _ (by decide) h⟩
  · rw [State.fld_setFld_below _ _ _ _ _ _ _ (by decide) (by decide), State.fld_setFld_below _ _ _ _ _ _ _ (by decide) (by decide),
      fld_setFld_bit _ _ _ (by decide)]
  · rw [State.fld_setFld_below _ _ _ _ _ _ _ (by decide) (by decide), fld_setFld_bit _ _ _ (by decide)]

theorem host_syncDone (s : State) (f status : Nat) : (s.syncDone f status).host = s.host := by
  rw [State.syncDone, State.setFld_host, State.setFld_host, State.setFld_host]

theorem execSyncSummaryWritten_of_small (hbusy : s.fld (HUB_SYNC_REQ f) 1 1 = 1) (hdl : (s.port (fnPort f)).dlUp = true)
    (hsmall : s.reg (HUB_SYNC_SIZE f) < 4288) : execSyncSummaryWritten f s = .next (s.syncDone f 0x02) := by
  simp only [execSyncSummaryWritten]
  rw [if_pos ⟨hbusy, hdl⟩, if_pos hsmall, if_pos hsmall]
  rfl

theorem execSyncSummaryWritten_of_room (hbusy : s.fld (HUB_SYNC_REQ f) 1 1 = 1) (hdl : (s.port (fnPort f)).dlUp = true)
    (hroom : 4288 ≤ s.reg (HUB_SYNC_SIZE f)) : execSyncSummaryWritten f s =
      .next ((s.hostWrite (fnPort f) (s.reg64 (HUB_SYNC_ADDR_LO f) (HUB_SYNC_ADDR_HI f)) (s.summary f)).syncDone f 0x00) := by
  simp only [execSyncSummaryWritten]
  rw [if_pos ⟨hbusy, hdl⟩, if_neg (Nat.not_lt.2 hroom), if_neg (Nat.not_lt.2 hroom)]
  rfl

theorem rdBytes_hostWrite {p : Nat} (hdl : (s.port p).dlUp = true) (x : Nat) (bs : List Byte) :
    rdBytes (s.hostWrite p x bs).host (hostKey p x) bs.length = bs := by
  rw [State.hostWrite, if_pos hdl]
  exact rdBytes_wrBytes _ _ _

/-! ## Rings and doorbells -/

/-- Context c with its rings enabled anew (R458). -/
def State.ringsEnabled (s : State) (c v : Nat) : State :=
  (s.softReg (CTX_RING_CTL c) v).modCtx c fun x => { x with hostLost := false, ring := { x.ring with
    cmdHead := 0, cmdTail := 0, cplTail := 0, cplHead := 0, dbTail := none, dbHead := none, irqCount := 0, irqSince := none } }

theorem ringsEnabled_frame (s : State) (c v : Nat) : (∀ k, k ≠ CTX_RING_CTL c → (s.ringsEnabled c v).reg k = s.reg k) ∧
    ∀ d, d ≠ c → (s.ringsEnabled c v).ctx d = s.ctx d := by
  refine ⟨fun k hk => ?_, fun d hd => ?_⟩
  · rw [State.ringsEnabled, State.reg_modCtx, State.reg_softReg_ne _ _ _ _ hk]
  · rw [State.ringsEnabled, State.ctx_modCtx_ne _ _ _ _ hd, State.ctx_softReg]

theorem execRingCtlWrite_of_enable {v : Word32} (hup : s.barUp = true) (howns : s.owns f c = true) (hempty : (s.ctx c).ring.cmds = [])
    (hoff : s.rbit (CTX_RING_CTL c) 31 = false) (hon : bit v.toNat 31 = true) :
    execRingCtlWrite f c v s = .next (s.ringsEnabled c v.toNat) := by
  rw [execRingCtlWrite, if_pos hup, State.ringCtlWrite]
  dsimp only
  rw [if_pos ⟨howns, by rw [hempty]; rfl⟩, if_neg (by simp [hoff]), if_pos hon]
  rfl

theorem doorbell_of_enabled {k size d : Nat} (g : RingSt → RingSt) (hup : s.fwUp = true) (hpage : s.pageCtx f k = some d) (hsize : size = 4)
    (hon : s.rbit (CTX_RING_CTL d) 31 = true) : s.doorbell f k size g = s.modCtx d fun x => { x with ring := g x.ring } := by
  rw [State.doorbell, if_neg (by simp [hup]), hpage]
  exact if_pos ⟨hsize, hon⟩

theorem execDoorbellAccepted_tail {v : BitVec 16} (hfw : s.fwHalted = false) (hcore : s.sec.haltedCores.contains 0 = false)
    (htail : (s.ctx c).ring.dbTail = some v) (hhead : (s.ctx c).ring.dbHead = none)
    (hfits : (v - (s.ctx c).ring.cmdHead).toNat ≤ s.cmdSize c) : execDoorbellAccepted c s =
      .next ((s.modCtx c fun x => { x with ring := { x.ring with dbTail := none, dbHead := none } }).modCtx c fun x =>
        { x with ring := { x.ring with cmdTail := v } }) := by
  simp only [execDoorbellAccepted]
  rw [if_neg (by simp only [hfw, hcore]; decide), htail, hhead]
  dsimp only
  rw [State.takeTail, State.ctx_modCtx]
  exact congrArg _ (if_neg (Nat.not_lt.2 hfits))

theorem execDoorbellAccepted_head {v : BitVec 16} (hfw : s.fwHalted = false) (hcore : s.sec.haltedCores.contains 0 = false)
    (htail : (s.ctx c).ring.dbTail = none) (hhead : (s.ctx c).ring.dbHead = some v)
    (hfits : ((s.ctx c).ring.cplTail - v).toNat ≤ s.cplSize c)
    (hback : ((s.ctx c).ring.cplTail - v).toNat ≤ ((s.ctx c).ring.cplTail - (s.ctx c).ring.cplHead).toNat) : execDoorbellAccepted c s =
      .next ((s.modCtx c fun x => { x with ring := { x.ring with dbTail := none, dbHead := none } }).modCtx c fun x =>
        { x with ring := { x.ring with cplHead := v } }) := by
  simp only [execDoorbellAccepted]
  rw [if_neg (by simp only [hfw, hcore]; decide), htail, hhead]
  dsimp only
  rw [State.takeHead, State.ctx_modCtx]
  exact congrArg _ (if_neg (not_or.2 ⟨Nat.not_lt.2 hfits, Nat.not_lt.2 hback⟩))

theorem execIrqDelayExpiry_of_over {τ t0 : Nat} (hsince : (s.ctx c).ring.irqSince = some t0) (hdelay : s.fld (CTX_IRQ_CTL c) 23 8 ≠ 0)
    (hover : t0 + 1000 * s.fld (CTX_IRQ_CTL c) 23 8 ≤ τ) : execIrqDelayExpiry c τ s =
      .next (((s.at τ).modCtx c fun x => { x with ring := { x.ring with irqCount := 0, irqSince := none } }).fire (s.ownerOf c)
        (s.ctxVector c)) := by
  simp only [execIrqDelayExpiry, State.ctx_at, State.fld_at, hsince]
  exact if_pos ⟨hdelay, hover⟩

end

/-- Settles O36: each clause's conditions select one branch of its command, and the registers and the rings are read off the state
answered. -/
theorem hostAdminAndRings : Obligations.Host_admin_and_rings := by
  unfold Obligations.Host_admin_and_rings
  refine ⟨?admin, ?grace, ?syncGo, ?summary, ?ringCtl, ?cmdTail, ?cplHead, ?tailTaken, ?headTaken, ?start, ?irqDelay⟩
  case admin =>
    rintro f v s hup ⟨hadmin, hother⟩
    exact ⟨_, execHubAdminWrite_of_other hup hadmin hother, adminPort_moveAdmin _ _ (bits_lt _ 0 0),
      fun k hlow hk => reg_moveAdmin _ _ _ hlow hk⟩
  case grace =>
    rintro τ s ⟨hlost, hover⟩ hdl
    refine ⟨_, execAdminGraceExpiry_of_over hlost hover hdl, adminPort_moveAdmin _ _ (by omega), ?_⟩
    rw [State.moveAdmin, State.raise_now]
    rfl
  case syncGo =>
    rintro f v s hup ⟨hgo, hidle⟩
    exact ⟨_, execHubSyncGo_of_idle hup hgo hidle, fld_setFld_bit _ _ _ (by decide),
      fun k hk => (State.reg_setFld_ne _ _ _ _ _ _ hk).trans (State.reg_softReg_ne _ _ _ _ hk)⟩
  case summary =>
    intro f s hbusy hdl
    by_cases hsmall : s.reg (HUB_SYNC_SIZE f) < 4288
    · obtain ⟨hdown, hup, hstatus⟩ := fld_syncDone s f (show 2 < 256 by decide)
      exact ⟨_, execSyncSummaryWritten_of_small hbusy hdl hsmall, hdown, hup, fun _ => ⟨hstatus, host_syncDone ..⟩,
        fun h => absurd hsmall (Nat.not_lt.2 h)⟩
    · obtain ⟨hdown, hup, hstatus⟩ := fld_syncDone
        (s.hostWrite (fnPort f) (s.reg64 (HUB_SYNC_ADDR_LO f) (HUB_SYNC_ADDR_HI f)) (s.summary f)) f (show 0 < 256 by decide)
      exact ⟨_, execSyncSummaryWritten_of_room hbusy hdl (Nat.not_lt.1 hsmall), hdown, hup, fun h => absurd h hsmall,
        fun _ => ⟨hstatus, by rw [host_syncDone, rdBytes_hostWrite hdl]⟩⟩
  case ringCtl =>
    rintro f c v s ⟨hup, howns⟩ hempty ⟨hoff, hon⟩
    refine ⟨_, execRingCtlWrite_of_enable hup howns hempty hoff hon, ?_, ringsEnabled_frame s c v.toNat⟩
    rw [State.ringsEnabled, State.ctx_modCtx, State.ctx_softReg]
  case cmdTail =>
    rintro f k v size s c ⟨hup, hpage⟩ ⟨hsize, hon⟩
    exact ⟨_, congrArg Host.Outcome.next (doorbell_of_enabled _ hup hpage hsize hon), by rw [State.ctx_modCtx],
      fun d hd => State.ctx_modCtx_ne _ _ _ _ hd, State.modCtx_regs ..⟩
  case cplHead =>
    rintro f k v size s c ⟨hup, hpage⟩ ⟨hsize, hon⟩
    exact ⟨_, congrArg Host.Outcome.next (doorbell_of_enabled _ hup hpage hsize hon), by rw [State.ctx_modCtx],
      fun d hd => State.ctx_modCtx_ne _ _ _ _ hd, State.modCtx_regs ..⟩
  case tailTaken =>
    rintro c s v ⟨hfw, hcore⟩ ⟨htail, hhead⟩ hfits
    exact ⟨_, execDoorbellAccepted_tail hfw hcore htail hhead hfits, by rw [State.ctx_modCtx, State.ctx_modCtx],
      (State.modCtx_regs ..).trans (State.modCtx_regs ..)⟩
  case headTaken =>
    rintro c s v ⟨hfw, hcore⟩ ⟨htail, hhead⟩ ⟨hfits, hback⟩
    exact ⟨_, execDoorbellAccepted_head hfw hcore htail hhead hfits hback, by rw [State.ctx_modCtx, State.ctx_modCtx],
      (State.modCtx_regs ..).trans (State.modCtx_regs ..)⟩
  case start =>
    rintro c s d ⟨hstart, hnext⟩ ⟨hlo, hhi, hbits⟩ hfence
    refine ⟨_, execDescriptorStart_of_good hstart hnext hlo hhi hbits hfence, ?_, rfl, rfl⟩
    rw [State.takeDesc, State.ctx_modCtx]
  case irqDelay =>
    rintro c τ s t0 hsince ⟨hdelay, hover⟩
    refine ⟨_, execIrqDelayExpiry_of_over hsince hdelay hover, ?_, ?_⟩
    · rw [State.ctx_fire, State.ctx_modCtx]
      rfl
    · rw [State.fire_now]
      rfl

/-! ## Event rings -/

section

variable {s : State} {f : FnId} {v : Word32}

theorem evtReturned_of_noLoss {f : Nat} (h : (s.fn f).lost = 0) : s.evtReturned f = s := if_neg fun hlost => hlost.1 h

theorem reg_evtReturned {f k : Nat} (h : k ≠ EVT_TAIL f ∧ k ≠ EVT_LOST f ∧ k ≠ pbaKey f 0) : (s.evtReturned f).reg k = s.reg k := by
  unfold State.evtReturned
  split
  · rw [State.reg_modFn, State.reg_evtPut h]
  · rfl

/-- Event ring f with its counts at 0, after EVT_CTL is written (R473). -/
def State.evtEnabled (s : State) (f v : Nat) : State :=
  ((s.softReg (EVT_CTL f) v).setFld (EVT_HEAD f) 15 0 0).setFld (EVT_TAIL f) 15 0 0

theorem execEvtCtlWrite_of_enable (hup : s.barUp = true) (hlost : (s.fn f).lost = 0) (hoff : s.rbit (EVT_CTL f) 31 = false)
    (hon : bit v.toNat 31 = true) : execEvtCtlWrite f v s = .next (s.evtEnabled f v.toNat) := by
  rw [execEvtCtlWrite, if_pos hup, State.evtCtlWrite]
  rw [if_neg (show ¬ s.rbit (EVT_CTL f) 31 = true by simp [hoff]), if_pos ⟨by rw [hoff]; rfl, hon⟩]
  exact congrArg _ (evtReturned_of_noLoss (by simpa using hlost))

theorem execEvtHeadWrite_of_valid (hup : s.barUp = true)
    (hfits : ringUsed (s.fld (EVT_TAIL f) 15 0) (v.toNat % 65536) ≤ s.evtSize f)
    (hback : ringUsed (s.fld (EVT_TAIL f) 15 0) (v.toNat % 65536) ≤ ringUsed (s.fld (EVT_TAIL f) 15 0) (s.fld (EVT_HEAD f) 15 0)) :
    execEvtHeadWrite f v s = .next ((s.setFld (EVT_HEAD f) 15 0 (v.toNat % 65536)).evtReturned f) := by
  rw [execEvtHeadWrite, if_pos hup, State.evtHeadWrite]
  exact congrArg _ (if_neg (not_or.2 ⟨Nat.not_lt.2 hfits, Nat.not_lt.2 hback⟩))

theorem evtHead_ne (f : FnId) : EVT_HEAD f ≠ EVT_TAIL f ∧ EVT_HEAD f ≠ EVT_LOST f ∧ EVT_HEAD f ≠ pbaKey f 0 := by
  unfold EVT_HEAD EVT_TAIL EVT_LOST pbaKey privBase
  omega

end

/-! ## FENCE and RESYNC -/

section

variable {s : State} {c : CtxId} {k : Nat} {cmd : Cmd}

theorem execFence_of_front (hcmd : s.cmdAt c 0 = some cmd) (hop : byteAt cmd.desc 0 = 0x08) (hserves : s.serves 0x08 = true)
    (hbits : bits (byteAt cmd.desc 4) 7 1 = 0) (hzero : zeroIn cmd.desc 5 64 = true) :
    execFence c 0 s = .next (s.complete c 0 0x00 0) := by
  rw [execFence, onCmd_eq hcmd hop hserves, if_neg (by simp [hbits, hzero]), if_pos rfl]

theorem execResync_of_good (hcmd : s.cmdAt c k = some cmd) (hop : byteAt cmd.desc 0 = 0x0C) (hserves : s.serves 0x0C = true)
    (hlo : zeroIn cmd.desc 4 8 = true) (hhi : zeroIn cmd.desc 20 64 = true) (halign : fieldLe cmd.desc 8 8 % 64 = 0)
    (hroom : 4288 ≤ fieldLe cmd.desc 16 4) : execResync c k s =
      .next ((s.hostWrite (s.ctxPort c) (fieldLe cmd.desc 8 8) (s.summary (s.ownerOf c))).complete c k 0x00
        (s.summary (s.ownerOf c)).length) := by
  rw [execResync, onCmd_eq hcmd hop hserves]
  dsimp only
  rw [if_neg (by simp [hlo, hhi, halign, hroom])]

theorem sameRings_hostWrite (s : State) (c p x : Nat) (bs : List Byte) : SameRings s (s.hostWrite p x bs) c where
  ring := by rw [State.ctx_hostWrite]
  owner := by rw [State.ctx_hostWrite]
  ports := State.hostWrite_ports ..
  now := State.hostWrite_now ..
  reg _ _ _ := State.reg_hostWrite ..

end

/-- Settles O37: each clause's conditions select one branch of its command; a summary in host memory changes no ring. -/
theorem hostEventsAndFences : Obligations.Host_events_and_fences := by
  unfold Obligations.Host_events_and_fences
  refine ⟨?evtCtl, ?evtHead, ?fence, ?resync⟩
  case evtCtl =>
    rintro f v s ⟨hup, hlost⟩ ⟨hoff, hon⟩
    refine ⟨_, execEvtCtlWrite_of_enable hup hlost hoff hon, ?_, fld_setFld_of_lt _ (by decide) (by decide), fun k hhead htail hctl => ?_⟩
    · rw [State.evtEnabled, State.fld_setFld_ne _ _ _ _ _ _ _ _ (evtHead_ne f).1]
      exact fld_setFld_of_lt _ (by decide) (by decide)
    · rw [State.evtEnabled, State.reg_setFld_ne _ _ _ _ _ _ htail, State.reg_setFld_ne _ _ _ _ _ _ hhead, State.reg_softReg_ne _ _ _ _ hctl]
  case evtHead =>
    intro f v s hup hfits hback
    refine ⟨_, execEvtHeadWrite_of_valid hup hfits hback, ?_⟩
    rw [State.fld_of_reg (reg_evtReturned (evtHead_ne f))]
    exact fld_setFld_of_lt _ (by decide) (Nat.mod_lt _ (by decide))
  case fence =>
    rintro c k s cmd ⟨hcmd, rfl⟩ ⟨hop, hserves⟩ ⟨hbits, hzero⟩
    exact ⟨_, execFence_of_front hcmd hop hserves hbits hzero, State.done_complete _ _ hcmd⟩
  case resync =>
    rintro c k s cmd hcmd ⟨hop, hserves⟩ ⟨hlo, hhi, halign, hroom⟩
    refine ⟨_, execResync_of_good hcmd hop hserves hlo hhi halign hroom, ?_⟩
    refine (sameRings_hostWrite s c _ _ _).done (State.done_complete (cmd := cmd) _ _ ?_)
    rw [State.cmdAt, State.ctx_hostWrite]
    exact hcmd

end Sys2Proof.Machine
end

section
/-! States of the link ports (10_omwen_links.md R385 to R389), lane test (R438), flits and side words (R391 to R400), forwarding (R402)
and part time (R434 to R436); the obligations O38 and O39. -/

namespace Sys2Proof.Machine

section

variable {s u : State} {f : FnId} {p : LinkId} {τ : Nat}

/-! ## The states of a port -/

theorem lport_softReg (s : State) (k v q : Nat) : (s.softReg k v).lport q = s.lport q := rfl
theorem lport_raise (s : State) (code : Nat) (r : Route) (pay : List (Nat × Nat × Nat)) (q : Nat) :
    (s.raise code r pay).lport q = s.lport q := lport_of (congrArg _ (State.raise_links ..)) q

/-- A port that is disabled keeps its fence, and the other ports are as before (R388). -/
theorem lport_portDisable (s : State) (p : Nat) : (((s.portDisable p).lport p).state = .disabled ∧
    ((s.portDisable p).lport p).fence = (s.lport p).fence) ∧ ∀ q, q ≠ p → (s.portDisable p).lport q = s.lport q := by
  unfold State.portDisable
  split
  next hstate =>
    obtain ⟨hself, hothers⟩ := lport_leaveUp s p 4 .disabled hstate
    exact ⟨by rw [hself]; exact ⟨rfl, rfl⟩, hothers⟩
  next hstate => exact ⟨⟨hstate, rfl⟩, fun _ _ => rfl⟩
  next =>
    obtain ⟨hself, hothers⟩ := lport_portQuiet s p .disabled
    exact ⟨by rw [hself]; exact ⟨rfl, rfl⟩, hothers⟩

theorem execLnkPortCtlWrite_of_disable {v : Word32} (hup : s.barUp = true) (hadmin : f.val = s.adminPf) (hen : bit v.toNat 0 = false)
    (hmode : bits v.toNat 2 1 ≠ 3) : execLnkPortCtlWrite f p v s = .next ((s.softReg (LNK_PORT_CTL p) v.toNat).portDisable p) := by
  rw [execLnkPortCtlWrite, if_pos hup, State.portCtlWrite, if_pos hadmin]
  dsimp only
  rw [if_neg hmode, if_neg (by simp [hen])]

theorem execLnkPartIdWrite_of_admin {v : Word32} (hup : s.barUp = true) (hadmin : f.val = s.adminPf) : execLnkPartIdWrite f v s =
    .next ((List.range 16).foldl (fun t p => t.portEnable p) (s.softReg LNK_PART_ID v.toNat)) := by
  rw [execLnkPartIdWrite, if_neg (by simp [hup]), if_pos hadmin]

/-- Where an enabled port that is DISABLED goes once the part has an identifier (R388). -/
theorem state_portEnable {p : Nat} (hstate : (s.lport p).state = .disabled) (hen : s.rbit (LNK_PORT_CTL p) 0 = true)
    (hid : s.partId ≠ 0xFFFF) : ((s.portEnable p).lport p).state =
      if (s.lport p).fence then .fenced else if s.linkMode p = 2 then .test else .training := by
  rw [State.portEnable, if_pos ⟨hstate, hen, hid⟩]
  split
  · rw [lport_modLport]
  · rw [State.portStart, lport_modLport]

theorem state_portEnable_partId {p v : Nat} (hp : p < 16) (hstate : (s.lport p).state = .disabled) (hen : s.rbit (LNK_PORT_CTL p) 0 = true)
    (hv : bits v 15 0 ≠ 0xFFFF) : (((s.softReg LNK_PART_ID v).portEnable p).lport p).state =
      if (s.lport p).fence then .fenced else if s.linkMode p = 2 then .test else .training := by
  have hreg : (s.softReg LNK_PART_ID v).reg (LNK_PORT_CTL p) = s.reg (LNK_PORT_CTL p) :=
    State.reg_softReg_ne _ _ _ _ (by unfold LNK_PORT_CTL LNK_PART_ID; omega)
  have hmode : (s.softReg LNK_PART_ID v).linkMode p = s.linkMode p := State.fld_of_reg hreg 2 1
  rw [state_portEnable (s := s.softReg LNK_PART_ID v) hstate (by rw [State.rbit, hreg]; exact hen) (by rw [partId_part]; exact hv),
    lport_softReg, hmode]

theorem execPortTrainingDone_of_training {partner partnerPort : Nat}
    (hstate : (s.lport p).state = .training ∨ ((s.lport p).state = .down ∧ (s.lport p).retry = true)) :
    execPortTrainingDone p true partner partnerPort s = .next ((s.modLport p fun y =>
      { (y.quiet .up) with lanesOk := s.modeLanes p, partner := partner % 65536, partnerPort := partnerPort % 16 }).raise 0x0402 .all
        [(0, 1, p), (1, 1, s.linkMode p), (2, 2, partner), (4, 1, partnerPort)]) := by
  rw [execPortTrainingDone]
  exact (if_pos hstate).trans (if_pos rfl)

theorem execDownRetrainTimer_of_over (hstate : (s.lport p).state = .down) (hover : (s.lport p).downAt + 100000000 ≤ τ) :
    execDownRetrainTimer p τ s = .next ((s.at τ).modLport p fun y => { y with retry := true, downAt := τ }) :=
  congrArg Host.Outcome.next (if_pos ⟨hstate, hover⟩)

/-- Port p without the lock of a lane (R386). -/
def State.laneLost (s : State) (p lane : Nat) : State :=
  s.modLport p fun x => { x with lanesOk := putBits x.lanesOk lane lane 0, prbsLocked := putBits x.prbsLocked lane lane 0 }

theorem execLaneLossOfLock_of_used {lane : Nat} (hlane : bit (s.modeLanes p) lane = true) :
    execLaneLossOfLock p lane s = .next ((s.laneLost p lane).leaveUp p 1 .down) := congrArg Host.Outcome.next (if_pos hlane)

/-! ## The lane test -/

/-- The running lanes of port p whose checkers are locked, as a mask. -/
def State.lockedLanes (s : State) (p locked : Nat) : Nat :=
  (List.range 4).foldl (fun m k => if bit locked k && bit (s.fld (LNK_PRBS_CTL p) 3 0) k then m + 2 ^ k else m) 0

/-- Port p with the locks of its lanes and their errors counted (R438). -/
def State.prbsTested (s : State) (p locked : Nat) (errs : List Nat) : State :=
  (List.range 4).foldl (fun t k => if bit (s.lockedLanes p locked) k then t.count (LNK_PRBS_ERR p k) 31 0 ((errs[k]?).getD 0) else t)
    ((s.modLport p fun x => { x with prbsLocked := s.lockedLanes p locked }).setFld (LNK_PRBS_CTL p) 7 4 (s.lockedLanes p locked))

theorem execPrbsTest_of_test {locked : Nat} {errs : List Nat} (hstate : (s.lport p).state = .test) :
    execPrbsTest p locked errs s = .next (s.prbsTested p locked errs) := if_pos hstate

theorem prbsTested_locked (s : State) (p locked : Nat) (errs : List Nat) :
    ((s.prbsTested p locked errs).lport p).prbsLocked = s.lockedLanes p locked ∧
      (s.prbsTested p locked errs).fld (LNK_PRBS_CTL p) 7 4 = s.lockedLanes p locked := by
  obtain ⟨hlinks, hreg⟩ := foldl_prbs p (s.lockedLanes p locked) errs (List.range 4)
    ((s.modLport p fun x => { x with prbsLocked := s.lockedLanes p locked }).setFld (LNK_PRBS_CTL p) 7 4 (s.lockedLanes p locked))
  rw [State.prbsTested]
  refine ⟨?_, ?_⟩
  · rw [lport_of (congrArg _ hlinks), lport_of (congrArg _ (State.setFld_links ..)), lport_modLport]
  · rw [State.fld_of_reg hreg]
    exact fld_setFld_of_lt _ (by decide) (lanes_and fun k => bit locked k && bit (s.fld (LNK_PRBS_CTL p) 3 0) k).1

end

/-- Settles O38: each clause's conditions select one branch of its command, and the ports are read off the state answered. -/
theorem linkPortStates : Obligations.Link_port_states := by
  unfold Obligations.Link_port_states
  refine ⟨?ctl, ?partId, ?trained, ?down, ?retry, ?laneLoss, ?prbs⟩
  case ctl =>
    rintro f p v s ⟨hup, hadmin⟩ ⟨hen, hmode⟩
    obtain ⟨⟨hstate, hfence⟩, hothers⟩ := lport_portDisable (s.softReg (LNK_PORT_CTL p) v.toNat) p
    exact ⟨_, execLnkPortCtlWrite_of_disable hup hadmin hen hmode, hstate, hfence, hothers⟩
  case partId =>
    rintro f v s ⟨hup, hadmin⟩ hv
    obtain ⟨hregs, _, heach⟩ := foldl_portEnable (List.range 16) (s.softReg LNK_PART_ID v.toNat)
    refine ⟨_, execLnkPartIdWrite_of_admin hup hadmin, ?_, fun p hp hstate hen => ?_⟩
    · rw [State.partId, State.fld_of_reg (State.reg_of_regs hregs _)]
      exact partId_part s _
    · rw [heach List.nodup_range p (List.mem_range.2 hp), state_portEnable_partId hp hstate hen hv]
  case trained =>
    intro p partner partnerPort s hstate
    refine ⟨_, execPortTrainingDone_of_training hstate, ?_, fun q hq => ?_⟩
    · rw [lport_raise, lport_modLport]
    · rw [lport_raise, lport_modLport_ne _ _ _ _ hq]
  case down => exact fun p reason s hstate => ⟨_, rfl, lport_leaveUp s p reason _ hstate⟩
  case retry =>
    rintro p τ s ⟨hstate, hover⟩
    exact ⟨_, execDownRetrainTimer_of_over hstate hover, lport_modLport (s.at τ) p _, rfl, fun q hq => lport_modLport_ne (s.at τ) p q _ hq⟩
  case laneLoss =>
    rintro p lane s ⟨hstate, hlane⟩
    obtain ⟨hself, hothers⟩ := lport_leaveUp (s.laneLost p lane) p 1 .down (by rw [State.laneLost, lport_modLport]; exact hstate)
    refine ⟨_, execLaneLossOfLock_of_used hlane, ?_, ?_, fun q hq => ?_⟩
    · rw [hself]
      rfl
    · rw [hself, State.laneLost, lport_modLport]
      rfl
    · rw [hothers q hq, State.laneLost, lport_modLport_ne _ _ _ _ hq]
  case prbs =>
    intro p locked errs s hstate
    obtain ⟨hlocked, hfld⟩ := prbsTested_locked s p locked errs
    refine ⟨_, execPrbsTest_of_test hstate, fun k hk => ?_, hfld.trans hlocked.symm⟩
    rw [hfld]
    exact (lanes_and fun k => bit locked k && bit (s.fld (LNK_PRBS_CTL p) 3 0) k).2 k hk

/-! ## Flits and side words -/

section

variable {s u : State} {p : LinkId} {τ : Nat}

/-- Port p after the next flit in sequence has come (R391, R399). -/
def State.flitTaken (s : State) (p : Nat) : State :=
  (s.modLport p fun y => { y with rxIndex := (y.rxIndex + 1) % 65536 }).modLport p fun y =>
    { y with rxSeq := (y.rxSeq + 1) % 65536, nakFor := none }

theorem lport_flitTaken (s : State) (p : Nat) : (s.flitTaken p).lport p =
    { s.lport p with rxIndex := ((s.lport p).rxIndex + 1) % 65536, rxSeq := ((s.lport p).rxSeq + 1) % 65536, nakFor := none } := by
  rw [State.flitTaken, lport_modLport, lport_modLport]

theorem execFlitReceive_of_head {seq vc kind : Nat} {body : List Byte} (hstate : (s.lport p).state = .up) (hseq : seq = (s.lport p).rxSeq)
    (hkind : kind % 4 = 1) : execFlitReceive p seq vc kind body s = .next ((s.flitTaken p).takeFlit p (vc % 8) 1 body) := by
  simp only [execFlitReceive, hstate, hkind]
  rw [if_neg (by decide), if_neg (not_not_intro hseq), if_neg (by decide)]
  rfl

/-- A HEAD flit with all the data of its transaction, of an origin that is not fenced (R391, R437). -/
theorem takeFlit_whole {q vc : Nat} {body : List Byte} (hlen : (hdrOf body).length ≤ 192) (hbody : (hdrOf body).length + 64 ≤ body.length)
    (hfence : s.links.fenced.contains (hdrOf body).org = false) :
    (s.takeFlit q vc 1 body).links.inbox = s.links.inbox ++ [(q, ⟨hdrOf body, (body.drop 64).take (hdrOf body).length, vc⟩)] ∧
      ∃ used part, (s.takeFlit q vc 1 body).lport q = { s.lport q with rxUsed := used, rxPart := part } := by
  have hwhole : (hdrOf body).length ≤ ((body.drop 64).take (hdrOf body).length).length := by
    rw [List.length_take, List.length_drop]
    omega
  rw [State.takeFlit]
  dsimp only
  rw [if_pos rfl]
  dsimp only
  rw [Nat.min_eq_right hlen, if_pos hwhole]
  obtain ⟨hinbox, hport⟩ := gotTxn_ok (s.modLport q fun x => { x with rxUsed := mset 0 x.rxUsed vc (mget 0 x.rxUsed vc + 1) }) q vc
    ⟨hdrOf body, (body.drop 64).take (hdrOf body).length, 1⟩ hfence
  refine ⟨?_, mset 0 (s.lport q).rxUsed vc (mget 0 (s.lport q).rxUsed vc + 1), mdel (s.lport q).rxPart vc, ?_⟩
  · rw [hinbox, links_modLport, List.take_take, Nat.min_self]
  · rw [hport, lport_modLport]

theorem pump_of_empty {q : Nat} (h : (s.lport q).waiting = []) : s.pump q = s := by
  rw [State.pump, h]
  split <;> rfl

theorem execSideWordReceive_of_ack {w : Nat} (hstate : (s.lport p).state = .up) (hside : (s.lport p).sideBad = false)
    (hack : bits w 47 44 = 1) (hwaiting : (s.lport p).waiting = []) :
    execSideWordReceive p w s = .next (s.modLport p fun y => y.acked (bits w 43 28)) := by
  rw [execSideWordReceive]
  dsimp only
  rw [if_neg (not_not_intro hstate), if_neg (by simp [hside]), hack]
  exact congrArg _ (pump_of_empty (by rw [lport_modLport]; exact hwaiting))

/-- The state that counts an uncorrectable codeword (R399). -/
def State.fecCounted (s : State) (p τ : Nat) : State := ((s.at τ).count (LNK_FEC_UNCORR p) 31 0 1).total 4 1

theorem execUncorrectableCodeword_of_up (hstate : (s.lport p).state = .up) : execUncorrectableCodeword p τ s =
    .next ((s.fecCounted p τ).modLport p fun x => { x with nakFor := some (x.nakFor.getD x.rxSeq), sideBad := true }) :=
  congrArg Host.Outcome.next (if_pos hstate)

theorem execReplayBoundExceeded_of_over {x : SentFlit} (hmem : x ∈ (s.lport p).sent) (hreplayed : x.replayed = true)
    (hover : x.at_ + 20000 ≤ τ) : execReplayBoundExceeded p τ s = .next ((s.at τ).leaveUp p 0 .down) :=
  congrArg Host.Outcome.next (if_pos (List.any_eq_true.2 ⟨x, hmem, by simp [hreplayed, hover]⟩))

/-! ## Forwarding -/

theorem execTransactionForward_of_route {n i q : Nat} {tx : LTxn} {dl : Bool} (htake : s.takeInbox n [tx.hdr.op] = some (i, tx, u))
    (hinbox : s.links.inbox[n]? = some (i, tx)) (hself : s.isSelf tx.hdr.dst = false) (hhops : tx.hdr.hops + 1 < 64)
    (hroute : u.route tx.hdr.dst = some (q, dl)) (hstate : (u.lport q).state = .up) : execTransactionForward n s =
      .next (u.enqueue q { tx with hdr := { tx.hdr with hops := tx.hdr.hops + 1 }, vc := afterDateline dl tx.vc } none) := by
  rw [execTransactionForward, hinbox]
  dsimp only
  rw [if_neg (by simp [hself]), htake]
  dsimp only
  rw [if_neg (Nat.not_le.2 hhops), hroute]
  exact congrArg _ (if_pos hstate)

/-! ## Part time -/

/-- What LNK_TIME_STATUS shows of a lock (R435). -/
def timeStatus (hops : Nat) (offset : Int) : Nat := 2 ^ 31 + 2 ^ 24 * hops + off24 offset

theorem bits_timeStatus {hops : Nat} (offset : Int) (h : hops ≤ 127) :
    timeStatus hops offset < 2 ^ 32 ∧ bits (timeStatus hops offset) 31 31 = 1 ∧ bits (timeStatus hops offset) 30 24 = hops := by
  have hoff : off24 offset < 2 ^ 24 := by
    unfold off24 ofInt
    omega
  unfold timeStatus bits
  omega

theorem execTimeSample_of_master {partner hops : Nat} (hen : s.rbit LNK_TIME_CTL 16 = true) (hmaster : s.fld LNK_TIME_CTL 15 0 ≠ s.partId)
    (hroute : (s.route (s.fld LNK_TIME_CTL 15 0)).isSome = true) : ∃ (v : State) (time : TimeSt), execTimeSample partner hops τ s =
      .next ({ v with links := { v.links with time := time } }.setReg LNK_TIME_STATUS (timeStatus (min (hops + 1) 127) (partner - τ))) ∧
      (time.locked = true ∧ time.hops = min (hops + 1) 127 ∧ time.offset = partner - τ) ∧
      v.now = if s.links.time.everLocked = true then max s.now τ else partner := by
  refine ⟨_, _, if_pos ⟨hen, hmaster, hroute⟩, ⟨rfl, rfl, rfl⟩, ?_⟩
  by_cases hever : s.links.time.everLocked = true
  · simp only [State.at_links, if_pos hever]
    rfl
  · simp only [State.at_links, if_neg hever]

/-- The state that shows the loss of the lock (R436). -/
def State.unlockTime (s : State) (τ : Nat) : State :=
  ({ s.at τ with links := { s.links with time := { s.links.time with locked := false } } }.setFld LNK_TIME_STATUS 31 31 0).setFld
    LNK_STATUS 2 2 1

theorem execTimeUnlocked_of_over (hlocked : s.links.time.locked = true) (hover : s.links.time.lastSample + 1000000 ≤ τ) :
    ∃ pay, execTimeUnlocked τ s = .next ((s.unlockTime τ).raise 0x0406 .all pay) := ⟨_, if_pos ⟨hlocked, hover⟩⟩

theorem fld_unlockTime (s : State) (τ : Nat) : (s.unlockTime τ).fld LNK_TIME_STATUS 31 31 = 0 ∧ (s.unlockTime τ).fld LNK_STATUS 2 2 = 1 := by
  rw [State.unlockTime]
  refine ⟨?_, fld_setFld_bit _ _ _ (by decide)⟩
  rw [State.fld_setFld_ne _ _ _ _ _ _ _ _ (by decide), fld_setFld_bit _ _ _ (by decide)]

end

/-- Settles O39: each clause's conditions select one branch of its command, and the port, the inbox or the time is read off the state
answered. -/
theorem flitsAndPartTime : Obligations.Flits_and_part_time := by
  unfold Obligations.Flits_and_part_time
  refine ⟨?flit, ?sideWord, ?codeword, ?replayBound, ?forward, ?sample, ?unlocked⟩
  case flit =>
    rintro p seq vc kind body s ⟨hstate, rfl⟩ ⟨hkind, hlen, hbody⟩ hfence
    obtain ⟨hinbox, used, part, hport⟩ := takeFlit_whole (s := s.flitTaken p) (q := p) (vc := vc % 8) hlen hbody hfence
    refine ⟨_, execFlitReceive_of_head hstate rfl hkind, hinbox, ?_⟩
    rw [hport, lport_flitTaken]
    exact ⟨rfl, rfl, rfl⟩
  case sideWord =>
    rintro p w s ⟨hstate, hside⟩ ⟨hack, hwaiting⟩
    exact ⟨_, execSideWordReceive_of_ack hstate hside hack hwaiting, lport_modLport ..⟩
  case codeword =>
    intro p τ s hstate
    exact ⟨_, execUncorrectableCodeword_of_up hstate, lport_modLport .., State.fld_count (s.at τ) _ _ _ _ (by decide), rfl⟩
  case replayBound =>
    rintro p τ s x hstate ⟨hmem, hreplayed, hover⟩
    obtain ⟨hself, hothers⟩ := lport_leaveUp (s.at τ) p 0 .down hstate
    exact ⟨_, execReplayBoundExceeded_of_over hmem hreplayed hover, by rw [hself]; rfl, by rw [hself]; rfl, hothers⟩
  case forward =>
    rintro n s tx i q dl u ⟨htake, hinbox⟩ ⟨hself, hhops⟩ ⟨hroute, hstate⟩
    exact ⟨_, execTransactionForward_of_route htake hinbox hself hhops hroute hstate, rfl⟩
  case sample =>
    rintro partner hops τ s ⟨hen, hmaster, hroute⟩
    obtain ⟨v, time, hexec, ⟨hlocked, hhops, hoffset⟩, hnow⟩ := execTimeSample_of_master hen hmaster hroute
    obtain ⟨hlt, hbit, hfield⟩ := bits_timeStatus (partner - τ) (Nat.min_le_right (hops + 1) 127)
    refine ⟨_, hexec, hlocked, hhops, hoffset, ?_, ?_, fun hever => ?_, fun hever => ?_⟩
    · rw [State.fld_eq, State.reg_setReg, Nat.mod_eq_of_lt hlt, hbit]
    · rw [State.fld_eq, State.reg_setReg, Nat.mod_eq_of_lt hlt, hfield]
    · exact hnow.trans (if_neg (by simp [hever]))
    · exact hnow.trans (if_pos hever)
  case unlocked =>
    rintro τ s ⟨hlocked, hover⟩
    obtain ⟨pay, hexec⟩ := execTimeUnlocked_of_over hlocked hover
    obtain ⟨htime, hstatus⟩ := fld_unlockTime s τ
    refine ⟨_, hexec, ?_, ?_, ?_, ?_⟩
    · rw [State.raise_links]
      rfl
    · rw [fld_raise_all (by decide) (by decide), htime]
    · rw [fld_raise_all (by decide) (by decide), hstatus]
    · rw [State.raise_now]
      rfl

end Sys2Proof.Machine
end

section
/-! Events of the host ports (11_host.md R443 to R485); answers, aborts and time-outs of link transactions (10_omwen_links.md R415, R430 to
R432); the obligations O45 and O58. -/

namespace Sys2Proof.Machine

section

variable {s u : State} {p : PortId} {τ : Nat}

/-! ## Host ports -/

theorem port_foldl_loseCtx (cs : List Nat) (s : State) (q : Nat) : (cs.foldl State.loseCtx s).port q = s.port q :=
  port_foldl (fun u c q => State.port_of_ports (ports_loseCtx u c) q) cs s q

/-- A port with a grace time is lost from now (R450). -/
theorem port_losePort {p : Nat} (r : Nat) (hlost : (s.port p).lost = false) (hgrace : s.graceNs p ≠ 0) :
    (s.losePort p r).port p = { s.port p with lost := true, lostAt := s.now, grace := true } := by
  rw [State.losePort, if_neg (by simp [hlost])]
  dsimp only
  rw [if_neg hgrace, State.port_raise, port_foldl_loseCtx, State.port_of_ports (State.setFld_ports ..), State.port_modPort]

/-- A port whose data link goes loses what belongs to the link and, having a grace time, is lost (R450). -/
theorem port_linkGone {p : Nat} (r : Nat) (hdl : (s.port p).dlUp = true) (hlost : (s.port p).lost = false) (hgrace : s.graceNs p ≠ 0) :
    (s.linkGone p r).port p = { s.port p with
      dlUp := false, flit := false, speed := 0, width := 0, lost := true, lostAt := s.now, grace := true
      numVfs := 0, bar4 := 36, ide := [], ideKeys := [] } := by
  rw [State.linkGone, if_pos hdl, port_resetPort, State.port_modPort, port_losePort r hlost hgrace]

theorem execHostPortUp_of_ready {speed width : Nat} {flit : Bool} (hperst : (s.port p).perst = false) (hdl : (s.port p).dlUp = false)
    (hon : s.power.hostOn = true) (hhold : s.power.svc.hold = false) : ∃ pay, execHostPortUp p speed width flit s = .next ((s.modPort p fun x =>
      { x with dlUp := true, lost := false, flit := flit, speed := speed, width := width, compliance := false }).raise 0x0102 (.port p) pay) := by
  rw [execHostPortUp, if_neg (by simp [hperst, hdl, hon, hhold])]
  exact ⟨_, rfl⟩

theorem notEvt_portFlags (p : PortId) : NotEvt (PCIE_PORT_FLAGS p) := by
  have hp := p.isLt
  exact NotEvt.low (by unfold PCIE_PORT_FLAGS; omega)

theorem execHostGraceExpired_of_lost (hgrace : (s.port p).grace = true) (hover : (s.port p).lostAt + s.graceNs p ≤ τ)
    (hlost : (s.port p).lost = true) :
    ∃ (v : State) (pay : List (Nat × Nat × Nat)), execHostGraceExpired p τ s =
      .next (((v.modPort p fun y => { y with grace := false }).setFld (PCIE_PORT_FLAGS p) 1 1 1).raise 0x0103 (.port p) pay) :=
  ⟨_, _, (if_pos ⟨hgrace, hover⟩).trans (if_pos (Or.inl hlost))⟩

theorem execConfigurationRequest_of_up {vf off v : Nat} (w : Bool) (hans : (s.port p).answering = true) (hup : s.barUp = true) :
    execConfigurationRequest p vf w off v s = .next (if w then { s.configWrite p (vf % 16) off v with answer := [0] }
      else { s with answer := 0 :: natLe 4 (s.configRead p (vf % 16) off) }) := by
  rw [execConfigurationRequest, if_neg (by simp [hans]), if_neg (by simp [hup])]
  cases w <;> rfl

end

/-- Settles O45: each clause's conditions select one branch of its command, and the port is read off the state answered. -/
theorem hostPortEvents : Obligations.Host_port_events := by
  unfold Obligations.Host_port_events
  refine ⟨?perst, ?deassert, ?hot, ?lost, ?up, ?grace, ?flr, ?ide, ?cfgRead, ?cfgWrite, ?compliance⟩
  case perst =>
    intro p τ s
    refine ⟨_, rfl, rfl, ?_, ?_⟩
    · rw [State.port_modPort]
    · rw [State.port_modPort]
      exact dlUp_linkGone (s.at τ) p 1
  case deassert => exact fun p s => ⟨_, rfl, State.port_modPort ..⟩
  case hot => exact fun p τ s => ⟨_, rfl, rfl, dlUp_linkGone (s.at τ) p 2⟩
  case lost =>
    rintro p τ s ⟨hdl, hlost, hgrace⟩
    have hport := port_linkGone (s := s.at τ) 0 hdl hlost hgrace
    exact ⟨_, rfl, rfl, by rw [hport], by rw [hport], by rw [hport]; rfl⟩
  case up =>
    rintro p speed width flit s ⟨hperst, hdl, hon, hhold⟩
    obtain ⟨pay, hexec⟩ := execHostPortUp_of_ready (speed := speed) (width := width) (flit := flit) hperst hdl hon hhold
    exact ⟨_, hexec, by rw [State.port_raise, State.port_modPort]⟩
  case grace =>
    rintro p τ s ⟨hgrace, hover, hlost⟩
    obtain ⟨v, pay, hexec⟩ := execHostGraceExpired_of_lost hgrace hover hlost
    refine ⟨_, hexec, ?_, ?_⟩
    · rw [State.port_raise, State.port_of_ports (State.setFld_ports ..), State.port_modPort]
    · rw [State.fld_of_reg (State.reg_raise (notEvt_portFlags p)), fld_setFld_bit _ _ _ (by decide)]
  case flr => exact fun f s => ⟨_, rfl, rfl⟩
  case ide => exact fun p n τ s hsecure => ⟨_, if_pos hsecure, rfl⟩
  case cfgRead => exact fun p vf off v s ⟨hans, hup⟩ => ⟨_, execConfigurationRequest_of_up false hans hup, rfl⟩
  case cfgWrite => exact fun p vf off v s ⟨hans, hup⟩ => ⟨_, execConfigurationRequest_of_up true hans hup, rfl⟩
  case compliance =>
    rintro p s ⟨hperst, hdl⟩
    exact ⟨_, if_neg (by simp [hperst, hdl]), State.port_modPort ..⟩

/-! ## Answers, aborts and time-outs -/

section

variable {s u : State} {n k : Nat} {tx : LTxn} {x : Txn}

/-- The state in which transaction k waits after a HOLD, twice as long as the time before (R430). -/
def State.holdTxn (s : State) (k : Nat) (x : Txn) : State :=
  let w := if x.holdWait = 0 then 10000 else min 1000000 (2 * x.holdWait)
  { s with links := { s.links with txns := mput s.links.txns k { x with holdUntil := some (s.now + w), holdWait := w } } }

theorem execHoldReceive_of_txn {p : Nat} (htake : s.takeInbox n [5] = some (p, tx, u)) (htxn : u.txnOf tx.hdr = some (k, x)) :
    execHoldReceive n s = .next (u.holdTxn k x) := by
  simp only [execHoldReceive, htake, htxn]
  rfl

theorem execHoldResend_of_over {p : LinkId} {slot τ v q : Nat} {dl : Bool} (htxn : mfind s.links.txns (4096 * p.val + slot) = some x)
    (hhold : x.holdUntil = some v) (hover : v ≤ τ) (hu : u = { s.at τ with links := { s.links with
      txns := mput s.links.txns (4096 * p.val + slot) { x with holdUntil := none, sentAt := (s.at τ).now } } })
    (hself : u.isSelf x.dst = false) (hroute : u.route x.dst = some (q, dl)) (hup : (u.lport p).state = .up) :
    execHoldResend p slot τ s = .next (u.enqueue p { x.t with vc := afterDateline dl x.t.vc } (some (4096 * p.val + slot))) := by
  simp only [execHoldResend, State.at_links, htxn, hhold]
  rw [if_neg (Nat.not_lt.2 hover), ← hu, if_neg (by simp [hself]), hroute]
  exact congrArg _ (if_pos hup)

theorem execCompleteReceive_of_write {p : Nat} (htake : s.takeInbox n [3, 4] = some (p, tx, u)) (htxn : u.txnOf tx.hdr = some (k, x))
    (hop : tx.hdr.op = 4) : execCompleteReceive n s =
      .next (u.finishTxn k tx.hdr.status (if tx.hdr.status = 0x42 then tx.hdr.offset else x.t.hdr.offset)) := by
  simp only [execCompleteReceive, htake, htxn]
  rw [if_neg (by rw [hop]; decide)]

/-- The state without the accesses of the aborted number, which is remembered (R431). -/
def State.abortAccepts (s : State) (org tseq : Nat) : State :=
  { s.rememberTseq org tseq with links := { (s.rememberTseq org tseq).links with
    accepts := s.links.accepts.filter fun a => !(a.2.t.hdr.org == org && a.2.t.hdr.tseq == tseq) } }

theorem execAbortReceive_of_take {p : Nat} (htake : s.takeInbox n [7] = some (p, tx, u)) :
    execAbortReceive n s = .next (u.abortAccepts tx.hdr.org tx.hdr.tseq) := by
  simp only [execAbortReceive, htake]
  rfl

theorem mem_accepts_abortAccepts {org tseq : Nat} {a : Nat × Accept} : a ∈ (s.abortAccepts org tseq).links.accepts ↔
    a ∈ s.links.accepts ∧ ¬ (a.2.t.hdr.org = org ∧ a.2.t.hdr.tseq = tseq) := by
  rw [State.abortAccepts, List.mem_filter, Bool.not_eq_true', ← Bool.not_eq_true, Bool.and_eq_true, beq_iff_eq, beq_iff_eq]

theorem seenTseq_abortAccepts (s : State) (org tseq : Nat) : (s.abortAccepts org tseq).seenTseq org tseq = true := by
  simp [State.seenTseq, State.abortAccepts, State.rememberTseq]

theorem execTransactionTimeout_of_over {p : LinkId} {slot τ : Nat} (htxn : mfind s.links.txns (4096 * p.val + slot) = some x)
    (hhold : x.holdUntil = none) (hover : x.sentAt + 1000 * s.fld LNK_TIMEOUT 15 0 ≤ τ) :
    ∃ v : State, execTransactionTimeout p slot τ s = .next (v.finishTxn (4096 * p.val + slot) 0x44 x.t.hdr.offset) := by
  simp only [execTransactionTimeout, State.at_links, htxn]
  exact ⟨_, congrArg _ (if_pos ⟨by simp [hhold], hover⟩)⟩

end

/-- Settles O58: each clause's conditions select one branch of its command, and the transactions are read off the state answered. -/
theorem answersAndAborts : Obligations.Answers_and_aborts := by
  unfold Obligations.Answers_and_aborts
  refine ⟨?hold, ?resend, ?complete, ?abort, ?timeout⟩
  case hold =>
    rintro n s p tx u k x ⟨htake, htxn⟩
    exact ⟨_, execHoldReceive_of_txn htake htxn, mfind_mput_same ..⟩
  case resend =>
    rintro p slot τ s x v q dl u ⟨htxn, hhold, hover⟩ hu ⟨hself, hroute, hup⟩
    exact ⟨_, execHoldResend_of_over htxn hhold hover hu hself hroute hup, rfl⟩
  case complete =>
    rintro n s p tx u k x ⟨htake, htxn⟩ hop
    exact ⟨_, execCompleteReceive_of_write htake htxn hop, txns_finishTxn .., rfl⟩
  case abort =>
    intro n s p tx u htake
    refine ⟨_, execAbortReceive_of_take htake, fun a ha horg htseq => ?_, fun a ha hne => ?_, seenTseq_abortAccepts ..⟩
    · exact (mem_accepts_abortAccepts.1 ha).2 ⟨horg, htseq⟩
    · exact mem_accepts_abortAccepts.2 ⟨ha, fun ⟨horg, htseq⟩ => hne.elim (· horg) (· htseq)⟩
  case timeout =>
    rintro p slot τ s x ⟨htxn, hhold⟩ hover
    obtain ⟨v, hexec⟩ := execTransactionTimeout_of_over htxn hhold hover
    exact ⟨_, hexec, txns_finishTxn ..⟩

end Sys2Proof.Machine
end

section
/-! Entries of the work ring and collectives (10_omwen_links.md R417 to R429); the obligation O26. -/

namespace Sys2Proof.Machine

section

variable {s u v : State} {c : CtxId} {i n : Nat} {e : LinkEntry} {tx : LTxn}

/-! ## Entries of the work ring -/

theorem execLinkWorkPost_of_new {va : Nat} (hva : s.workVa c i = some va) (hsize : i < s.workSize c)
    (hpage : (s.ctx c).checkAll true (pagesOf va 64) = .ok ()) (hpost : byteAt (s.vpeek c va 1) 0 % 16 = 1)
    (hnew : mfind (s.ctx c).linkWork i = none) (hposted : (s.ctx c).posted.contains i = false) :
    execLinkWorkPost c i s = .next (s.modCtx c fun y => { y with posted := y.posted ++ [i] }) := by
  simp only [execLinkWorkPost, hva]
  rw [if_neg (Nat.not_le.2 hsize), hubNeeds_ok (u := ()) (by simpa using hpage)]
  simp only [hpost, hnew, hposted]
  rfl

/-- The entry counts n bytes more issued and one transaction more outstanding (R417). -/
def State.entryIssued (s : State) (c i n : Nat) : State :=
  (s.modEntry c i fun y => { y with issued := y.issued + n, out := y.out + 1, popped := y.popped + 0 }).progress c

theorem entryIssued_keeps {y : LinkEntry} (s : State) (h : mfind (s.ctx c).linkWork i = some y) :
    mfind ((s.entryIssued c i n).ctx c).linkWork i = some { y with issued := y.issued + n, out := y.out + 1 } ∧
      (s.entryIssued c i n).links = s.links := by
  rw [State.entryIssued, State.progress, State.modEntry, State.ctx_modCtx, State.ctx_modCtx, State.modCtx_links, State.modCtx_links, h]
  exact ⟨mfind_mput_same .., rfl⟩

theorem execLinkWorkStart_of_sent {bs : List Byte} (hentry : mfind (s.ctx c).linkWork i = some e) (hop : e.op = 0) (hsrcq : e.srcq = none)
    (hfail : e.fail = none) (hresult : e.result = none) (hissued : e.issued < e.len) (haway : (s.ctx c).awayFor e = false)
    (hn : n = min (e.len - e.issued) (65536 - (e.woff + e.issued) % 65536)) (hread : s.readAt c e.local_ e.issued n = .ok (bs, u))
    (hsend : u.sendTxn (.entry c i) c 1 e.group e.handle (e.woff + e.issued) n bs [] 1 (0, 0) = .sent v) :
    execLinkWorkStart c i s = .next (State.entryIssued { v with mem := { v.mem with
      sharedUsed := mset 0 v.mem.sharedUsed 0 (v.sharedUsed 0 + 0) } } c i n) := by
  simp only [execLinkWorkStart, hentry]
  rw [if_neg (by simp [LinkEntry.isColl, hop]), State.entryGo,
    if_neg (by simp [hfail, hresult, haway, Nat.not_le.2 hissued])]
  dsimp only
  rw [if_neg (by simp [hop]), hsrcq]
  dsimp only
  rw [← hn, State.linkRead, hread]
  dsimp only
  rw [if_pos hop, hsend]
  rfl

/-- An entry with no flag to set leaves the work ring in one step (R417, R428). -/
theorem endEntry_of_noFlag {st off : Nat} {tell : Bool} (hentry : mfind (s.ctx c).linkWork i = some e) (hflag : e.flagEn = false) :
    s.endEntry c i st off tell = (if st = 0 then (s.writeEntry c i 0 off 3).modCtx c fun x => { x with linkWork := mdel x.linkWork i }
      else s.failEntry c i st off tell).progress c := by
  simp [State.endEntry, hentry, hflag]

/-- The state in which an entry has left the ring as DONE (R428). -/
def State.entryDone (s : State) (c i : Nat) : State :=
  ((s.writeEntry c i 0 0 3).modCtx c fun x => { x with linkWork := mdel x.linkWork i }).progress c

theorem links_entryDone (s : State) (c i : Nat) : (s.entryDone c i).links = s.links := by
  rw [State.entryDone, State.progress, State.modCtx_links, State.modCtx_links, links_writeEntry]

theorem ctx_entryDone (s : State) (c i : Nat) : mfind ((s.entryDone c i).ctx c).linkWork i = none ∧
    ((s.entryDone c i).ctx c).dust.stepEnds = (s.ctx c).dust.stepEnds := by
  obtain ⟨_, _, _, _, hwrite⟩ := ctx_writeEntry s c i 0 0 3
  rw [State.entryDone, State.progress, State.ctx_modCtx, State.ctx_modCtx, hwrite]
  exact ⟨mfind_mdel_same .., rfl⟩

theorem execLinkWorkComplete_of_acknowledged (hentry : mfind (s.ctx c).linkWork i = some e) (hcoll : e.isColl = false)
    (hflag : e.flagEn = false) (hfail : e.fail = none) (hresult : e.result = none) (hissued : e.issued = e.len) (hout : e.out = 0) :
    execLinkWorkComplete c i s = .next (s.entryDone c i) := by
  simp only [execLinkWorkComplete, hentry, hfail, hresult]
  rw [if_neg (by simp [hcoll]), if_pos ⟨hissued, hout⟩, endEntry_of_noFlag hentry hflag]
  rfl

/-! ## Collectives -/

/-- The entry of the work ring that runs the collective of a chunk's or an abort's handle. -/
def Ctx.collOf (x : Ctx) (handle : Nat) : Option (Nat × LinkEntry) :=
  x.linkWork.find? fun e => e.2.isColl && e.2.group == handle / 2 ^ 24 && e.2.collSeq % 2 ^ 24 == handle % 2 ^ 24

theorem execCollAbortReceive_of_early {p c : Nat} {g : Group} (htake : s.takeInbox n [8] = some (p, tx, u))
    (hgroup : u.groupCtx (tx.hdr.handle / 2 ^ 24) = some c) (hnone : (u.ctx c).collOf tx.hdr.handle = none)
    (hcolls : mfind (u.ctx c).colls (tx.hdr.handle / 2 ^ 24) = some g) : ∃ t, execCollAbortReceive n s = .next t ∧
      mfind (t.ctx c).colls (tx.hdr.handle / 2 ^ 24) = some { g with aborted := (tx.hdr.handle % 2 ^ 24, tx.hdr.status) :: g.aborted } := by
  rw [Ctx.collOf] at hnone
  simp only [execCollAbortReceive, htake, hgroup, hnone]
  refine ⟨_, rfl, ?_⟩
  rw [State.ctx_modCtx, hcolls]
  exact mfind_mput_same ..

theorem execCollTimeout_of_over {τ : Nat} (hentry : mfind (s.ctx c).linkWork i = some e) (hcoll : e.isColl = true)
    (hflag : e.flagEn = false) (hresult : e.result = none) (hover : e.since + 1000000 * s.fld LNK_TIMEOUT 31 16 ≤ τ) :
    execCollTimeout c i τ s = .next (((s.at τ).failEntry c i 0x48 0 true).progress c) := by
  simp only [execCollTimeout, State.ctx_of_ctxs (State.at_ctxs (s := s) τ), hentry]
  exact congrArg _ ((if_pos ⟨hcoll, by simp [hresult], hover⟩).trans (endEntry_of_noFlag (s := s.at τ) hentry hflag))

theorem execCollChunkReceive_of_taken {p c : Nat} {g : Group} (htake : s.takeInbox n [6] = some (p, tx, u)) (hself : s.isSelf tx.hdr.dst = true)
    (hseen : u.seenTseq tx.hdr.org tx.hdr.tseq = false) (hfence : u.links.fenced.contains tx.hdr.org = false)
    (hgroup : u.groupCtx (tx.hdr.handle / 2 ^ 24) = some c) (hcolls : mfind (u.ctx c).colls (tx.hdr.handle / 2 ^ 24) = some g)
    (hmember : g.members.contains tx.hdr.org = true) (hfind : (u.ctx c).collOf tx.hdr.handle = some (i, e))
    (hmatch : e.mismatch tx.hdr.args = false) (hmbox : u.mboxFull c = false)
    (hroom : (u.ctx c).st ≠ .restoring ∧ (u.ctx c).awayFor e = false ∧ e.staged + ceilDiv tx.data.length 2048 ≤ 64)
    (hchunk : u.takeChunk c i e g (byteAt tx.hdr.args 3) tx.hdr.offset tx = .ok v) : execCollChunkReceive n s =
      .next (((v.rememberTseq tx.hdr.org tx.hdr.tseq).answer_ tx 4 0 tx.hdr.offset []).progress c) := by
  obtain ⟨hst, haway, hstaged⟩ := hroom
  rw [Ctx.collOf] at hfind
  simp only [execCollChunkReceive, htake, hself, hseen, hfence, hgroup, hcolls, hmember, hfind, hmatch, hmbox, hchunk]
  simp [hst, haway, Nat.not_lt.2 hstaged]

theorem linkWork_foldl_applyMerged {c : Nat} (cs : List (List Byte)) (js : List Nat) (s : State) :
    ((js.foldl (fun t j => t.applyMerged c e cs j) s).ctx c).linkWork = (s.ctx c).linkWork := by
  induction js generalizing s with
  | nil => rfl
  | cons j js ih => rw [List.foldl_cons, ih, linkWork_applyMerged]

theorem execStepEndExchange_of_contribs {g : Group} {cs : List (List Byte)}
    (hfind : ((s.ctx c).linkWork.find? fun e => e.2.op == 6 && e.2.result.isNone && e.2.fail.isNone) = some (i, e))
    (hentry : mfind (s.ctx c).linkWork i = some e) (hcolls : mfind (s.ctx c).colls e.group = some g) (hout : e.out = 0) (hbox : e.outbox = [])
    (hcs : e.contribs (List.range g.n) = some cs) (hflag : e.flagEn = false) :
    ∃ w : State, execStepEndExchange c s = .next (w.entryDone c i) ∧ e.group ∈ (w.ctx c).dust.stepEnds := by
  simp only [execStepEndExchange, hfind, hcolls, hcs]
  have hmerged := linkWork_foldl_applyMerged (e := e) (c := c) cs (List.range e.len) s
  rw [if_neg (by simp [hout, hbox]), endEntry_of_noFlag (by rw [State.ctx_modCtx]; exact hmerged ▸ hentry) hflag]
  exact ⟨_, rfl, by rw [State.ctx_modCtx]; exact List.mem_cons_self ..⟩

end

/-- Settles O26: each clause's conditions select one branch of its command, and the ring or the group is read off the state answered. -/
theorem linkWorkAndCollectives : Obligations.Link_work_and_collectives := by
  unfold Obligations.Link_work_and_collectives
  refine ⟨?post, ?start, ?complete, ?abort, ?timeout, ?chunk, ?stepEnd⟩
  case post =>
    rintro c i s va ⟨hva, hsize⟩ hpage hpost ⟨hnew, hposted⟩
    exact ⟨_, execLinkWorkPost_of_new hva hsize hpage hpost hnew hposted, rfl⟩
  case start =>
    rintro c i s e y n bs u v ⟨hentry, hop, hsrcq⟩ ⟨hfail, hresult, hissued, haway⟩ ⟨hn, hread⟩ hsend hy
    exact ⟨_, execLinkWorkStart_of_sent hentry hop hsrcq hfail hresult hissued haway hn hread hsend, entryIssued_keeps _ hy⟩
  case complete =>
    rintro c i s e ⟨hentry, hcoll, hflag⟩ ⟨hfail, hresult, hissued, hout⟩
    exact ⟨_, execLinkWorkComplete_of_acknowledged hentry hcoll hflag hfail hresult hissued hout, (ctx_entryDone ..).1, links_entryDone ..⟩
  case abort =>
    rintro n s p tx u c g ⟨htake, hgroup⟩ hnone hcolls
    exact execCollAbortReceive_of_early htake hgroup hnone hcolls
  case timeout =>
    rintro c i τ s e ⟨hentry, hcoll, hflag, hresult⟩ hover
    refine ⟨_, execCollTimeout_of_over hentry hcoll hflag hresult hover, ?_, ?_⟩
    · rw [State.progress, State.ctx_modCtx]
      exact linkWork_failEntry ..
    · exact (now_failEntry (s.at τ) c i 0x48 0 true).trans rfl
  case chunk =>
    rintro n s p tx u v c i e g ⟨htake, hself⟩ ⟨hseen, hfence⟩ ⟨hgroup, hcolls, hmember⟩ hfind ⟨hmatch, hmbox⟩ hroom hchunk
    exact ⟨_, execCollChunkReceive_of_taken htake hself hseen hfence hgroup hcolls hmember hfind hmatch hmbox hroom hchunk, rfl⟩
  case stepEnd =>
    rintro c s i e g cs ⟨hfind, hentry⟩ ⟨hcolls, hout, hbox, hcs, hflag⟩
    obtain ⟨w, hexec, hend⟩ := execStepEndExchange_of_contribs hfind hentry hcolls hout hbox hcs hflag
    obtain ⟨hleft, hkept⟩ := ctx_entryDone w c i
    exact ⟨_, hexec, hleft, by rw [hkept]; exact hend⟩

end Sys2Proof.Machine
end

section
/-! Membership notices, tables, the adoption of shards and rollback (10_omwen_links.md R406; 13_resilience.md R560 to R571); the obligation
O40. -/

namespace Sys2Proof.Machine

section

variable {s u : State} {c : CtxId} {k : Nat} {cmd : Cmd}

/-! ## Notices -/

theorem execMemberReceive_of_epoch {n p c : Nat} {tx : LTxn} {g : Group} (htake : s.takeInbox n [9] = some (p, tx, u))
    (hself : u.isSelf tx.hdr.dst = true) (hgroup : u.groupCtx (tx.hdr.handle / 2 ^ 24) = some c)
    (hcolls : mfind (u.ctx c).colls (tx.hdr.handle / 2 ^ 24) = some g) (hepoch : tx.hdr.offset = g.epoch)
    (hmember : g.members.contains tx.hdr.org = true) : execMemberReceive n s = .next (u.modCtx c fun x => { x with
      notices := mput x.notices (noticeKey (tx.hdr.handle / 2 ^ 24) g.epoch)
        ((x.noticesOf (tx.hdr.handle / 2 ^ 24) g.epoch).take (tx.hdr.handle % 256) tx.hdr.org (fieldLe tx.hdr.args 0 8)) }) := by
  simp only [execMemberReceive, htake, hgroup, hcolls]
  rw [if_neg (by simp [hself]), if_pos ⟨Or.inl hepoch, hmember⟩, hepoch]

theorem ctx_notify (s : State) (c gi kind epoch e removed d : Nat) : (s.notify c gi kind epoch e removed).ctx d = s.ctx d := by
  rw [State.notify]
  split
  · rfl
  · exact List.foldlRecOn (motive := fun t => t.ctx d = s.ctx d) _ _ rfl
      fun t ht m _ => (State.ctx_of_ctxs (ctxs_sendFree t _) d).trans ht

/-! ## Tables -/

theorem ctx_putMtab (s : State) (c : Nat) (bs : List Byte) (rank : Nat) : PtStep (s.ctx c) ((s.putMtab c bs rank).ctx c) := by
  rw [State.putMtab]
  split
  · exact .refl _
  · split
    · exact .refl _
    · split
      · exact .refl _
      · exact ctx_vpoke ..

/-- A table that removes nobody, with no entry and no fence to end, gives the context the table's group (R563). -/
theorem colls_installTable {c : Nat} {bs : List Byte} {m : MemberTable} (hnobody : m.removed = 0xFFFF) (hposted : (s.ctx c).posted = [])
    (hwork : (s.ctx c).linkWork = []) (hfenced : s.links.fenced = []) :
    ((s.installTable c bs m).ctx c).colls = mput (s.ctx c).colls m.group (s.groupOf m) := by
  have hfail : s.failGroup c m.group = s := by
    rw [State.failGroup, hposted, List.foldl_nil, hwork]
    rfl
  obtain ⟨_, _, _, _, hmtab⟩ := ctx_putMtab (s.modCtx c fun x => { x with colls := mput x.colls m.group (s.groupOf m) }) c
    (tableBytes bs) (s.groupOf m).rank
  rw [State.ctx_modCtx] at hmtab
  simp only [State.installTable, hnobody, if_true, hfail, foldl_unfence _ _ hfenced]
  rw [apply_ite (fun t : State => (t.ctx c).colls), apply_ite (fun t : State => (t.ctx c).colls), State.ctx_raise, State.ctx_setReg64,
    State.ctx_setReg64, State.ctx_of_ctxs (State.setReg_ctxs ..), State.ctx_of_ctxs (State.setReg_ctxs ..), hmtab, ite_self, ite_self]

/-- The state in which a good table that removes nobody is in force (R563). -/
def State.memberTaken (s : State) (c k : Nat) (bs : List Byte) (m : MemberTable) : State :=
  ((s.setPhase c k (.underway 1 m.epoch)).installTable c bs m).memberDone c 1 m.epoch 0

theorem execSetMembership_of_good {bs : List Byte} {m : MemberTable} (hcmd : s.cmdAt c k = some cmd) (hop : byteAt cmd.desc 0 = 0x0B)
    (hserves : s.serves 0x0B = true) (hphase : cmd.phase = .started) (hdesc : setMemberBad cmd.desc = false)
    (htakes : (s.ctx c).st.takesTable = true) (hflag : bit (byteAt cmd.desc 5) 0 = false)
    (hread : s.hostRead (s.ctxPort c) (fieldLe cmd.desc 8 8) (fieldLe cmd.desc 16 4) = some bs)
    (hidle : (∀ d, d < 64 → (s.ctx d).st ≠ .restoring) ∧ (s.ctx c).dust.queued = none ∧ (s.ctx c).dust.adoption = none)
    (hstatus : s.memberStatus c bs = 0) (htable : memberTable bs = some m) (hnobody : m.removed = 0xFFFF) (hbase : s.dustBase c = 0) :
    execSetMembership c k s = .next (s.memberTaken c k bs m) := by
  obtain ⟨hrestoring, hqueued, hadoption⟩ := hidle
  have hquiet : ((List.range 64).any fun e => (s.ctx e).st == .restoring && (mfind (s.ctx e).colls (byteAt bs 16)).isSome) = false := by
    rw [List.any_eq_false]
    intro d hd
    simp [hrestoring d (List.mem_range.1 hd)]
  have hranges : s.dustRanges c = [] := if_pos hbase
  rw [execSetMembership, onCmd_eq hcmd hop hserves]
  dsimp only
  rw [if_neg (by simp [hphase]), if_neg (by simp [hdesc]), if_neg (by simp [htakes]), hread]
  dsimp only
  rw [hquiet, hqueued, hadoption, hflag, if_neg (by simp), hstatus, htable]
  exact congrArg _ ((hubNeeds_ok (u := ()) (by rw [hranges]; rfl)).trans (if_pos hnobody))

theorem colls_memberTaken {bs : List Byte} {m : MemberTable} (hnobody : m.removed = 0xFFFF) (hposted : (s.ctx c).posted = [])
    (hwork : (s.ctx c).linkWork = []) (hfenced : s.links.fenced = []) : ((s.memberTaken c k bs m).ctx c).colls =
      mput (s.ctx c).colls m.group ((s.setPhase c k (.underway 1 m.epoch)).groupOf m) := by
  rw [State.memberTaken, colls_memberDone, colls_installTable (s := s.setPhase c k (.underway 1 m.epoch)) hnobody
    (by rw [ctx_setPhase]; exact hposted) (by rw [ctx_setPhase]; exact hwork) hfenced, ctx_setPhase]

/-! ## The adoption of a shard -/

/-- A share with nothing left to fetch is done at once (R566). -/
theorem adoptGo_of_empty {n : Nat} {a : Adoption} (hadoption : (s.ctx c).dust.adoption = some a) (hmine : a.mineDone = false)
    (hfailed : a.failedTwice = false) (hrollback : a.rollback = 0) (hcur : a.cur = none) (hentries : a.entries = []) :
    s.adoptGo c (n + 1) = s.shareDone c a := by
  rw [State.adoptGo, hadoption]
  dsimp only
  rw [if_neg (by simp [hmine, hfailed, hrollback]), hcur, hentries]

theorem execShardAdopted_of_empty {a : Adoption} (hadoption : (s.ctx c).dust.adoption = some a) (hmine : a.mineDone = false)
    (hfailed : a.failedTwice = false) (hrollback : a.rollback = 0) (hcur : a.cur = none) (hentries : a.entries = []) :
    execShardAdopted c s = .next (s.shareDone c a) := by
  have hfuel : adoptFuel a = 9 + 1 := by
    rw [adoptFuel, hcur, hentries]
    rfl
  simp only [execShardAdopted, hadoption, hfuel, adoptGo_of_empty hadoption hmine hfailed hrollback hcur hentries]

theorem dust_shareDone {a : Adoption} (hadoption : (s.ctx c).dust.adoption = some a) : ((s.shareDone c a).ctx c).dust =
    { (s.ctx c).dust.addAdopted a.pages with adoption := some { a with mineDone := true } } := by
  rw [State.shareDone]
  dsimp only
  rw [ctx_notify, State.ctx_raise, State.modAdopt, ctx_modDust, ctx_modDust]
  dsimp only [DustSt.addAdopted]
  rw [hadoption]
  rfl

theorem sameRings_modDust (s : State) (c : Nat) (f : DustSt → DustSt) : SameRings s (s.modDust c f) c :=
  ⟨by rw [ctx_modDust], by rw [ctx_modDust], rfl, rfl, fun _ _ _ => rfl⟩

theorem cmdAt_of_findCmd {op : Nat} {q : Cmd → Bool} (h : s.findCmd c op q = some (k, cmd)) : s.cmdAt c k = some cmd := by
  obtain ⟨_, hat⟩ := findAt_at h
  exact hat

theorem memberDone_of_noFlag {a epoch st : Nat} (hfind : s.findCmd c 0x0B (inPhase a epoch) = some (k, cmd))
    (hflag : bit (byteAt cmd.desc 5) 0 = false) : s.memberDone c a epoch st = s.complete c k st epoch := by
  rw [State.memberDone, hfind]
  simp [hflag]

/-- The state in which the command of a finished adoption has completed (R566). -/
def State.adoptionDone (s : State) (c k st epoch : Nat) : State := (s.modDust c fun d => { d with adoption := none }).complete c k st epoch

theorem dust_adoptionDone (s : State) (c k st epoch : Nat) : ((s.adoptionDone c k st epoch).ctx c).dust =
    { (s.ctx c).dust with adoption := none } := by
  obtain ⟨_, _, _, _, _, hctx⟩ := State.ctx_complete (s := s.modDust c fun d => { d with adoption := none }) c k st epoch
  rw [State.adoptionDone, hctx, ctx_modDust]

theorem execShardCommit_of_shared {a : Adoption} (hadoption : (s.ctx c).dust.adoption = some a) (hmine : a.mineDone = true)
    (hrollback : a.rollback = 0) (hshared : (s.ctx c).unshared a = []) (hfind : s.findCmd c 0x0B (inPhase 1 a.epoch) = some (k, cmd))
    (hflag : bit (byteAt cmd.desc 5) 0 = false) (hqueued : (s.ctx c).dust.queued = none) :
    execShardCommit c s = .next (s.adoptionDone c k (if a.abandoned then 0x64 else 0) a.epoch) := by
  have hheld : s.memberHeld c 1 a.epoch = false := by
    rw [State.memberHeld, hfind]
    simp [hflag]
  have hkept : (s.modDust c fun d => { d with adoption := none }).findCmd c 0x0B (inPhase 1 a.epoch) = some (k, cmd) := by
    rw [State.findCmd, ctx_modDust]
    exact hfind
  simp only [execShardCommit, hadoption]
  rw [if_pos ⟨hmine, Or.inl hrollback, by rw [hshared]; rfl⟩, if_neg (by simp [hheld]), memberDone_of_noFlag hkept hflag, ← State.adoptionDone,
    State.takeQueued, dust_adoptionDone]
  simp only [hqueued]

/-! ## Rollback -/

/-- The epoch on which the members agree when every offer is in: the lowest offered (R571). -/
def State.agreedEpoch (s : State) (c : Nat) (a : Adoption) : Nat :=
  if ((s.ctx c).noticesOf a.group a.epoch).offers.isEmpty then s.offer c else min ((s.ctx c).noticesOf a.group a.epoch).offered (s.offer c)

theorem execRollback_of_offered {a : Adoption} {g : Group} (hadoption : (s.ctx c).dust.adoption = some a)
    (hcolls : mfind (s.ctx c).colls a.group = some g) (hrollback : a.rollback = 1)
    (hall : (s.ctx c).allNoticed g s.partId ((s.ctx c).noticesOf a.group a.epoch).offers = true) : execRollback c s = .next
      ((s.modAdopt c fun b => { b with rollback := 2, agreed := some (s.agreedEpoch c a) }).notify c a.group 2 a.epoch (s.agreedEpoch c a) 0) := by
  simp only [execRollback, hadoption, hcolls, hrollback]
  exact congrArg _ (if_pos hall)

end

/-- Settles O40: each clause's conditions select one branch of its command, and the group or the adoption is read off the state answered. -/
theorem membershipChanges : Obligations.Membership_changes := by
  unfold Obligations.Membership_changes
  refine ⟨?receive, ?table, ?adopted, ?commit, ?rollback⟩
  case receive =>
    rintro n s p tx u c g ⟨htake, hself⟩ ⟨hgroup, hcolls⟩ ⟨hepoch, hmember⟩
    exact ⟨_, execMemberReceive_of_epoch htake hself hgroup hcolls hepoch hmember, by rw [State.ctx_modCtx]; exact mfind_mput_same ..⟩
  case table =>
    rintro c k s cmd bs m ⟨hcmd, hop, hserves, hphase⟩ ⟨hdesc, htakes, hflag⟩ hread hidle ⟨hstatus, htable, hnobody⟩
      ⟨hbase, hposted, hwork, hfenced⟩
    refine ⟨_, execSetMembership_of_good hcmd hop hserves hphase hdesc htakes hflag hread hidle hstatus htable hnobody hbase,
      (s.setPhase c k (.underway 1 m.epoch)).groupOf m, ?_, rfl, rfl, rfl, rfl, rfl⟩
    rw [colls_memberTaken hnobody hposted hwork hfenced]
    exact mfind_mput_same ..
  case adopted =>
    rintro c s a hadoption ⟨hmine, hfailed, hrollback, hcur, hentries⟩
    have hdust := dust_shareDone hadoption
    exact ⟨_, execShardAdopted_of_empty hadoption hmine hfailed hrollback hcur hentries, by rw [hdust], by rw [hdust]⟩
  case commit =>
    rintro c s a k cmd ⟨hadoption, hmine, hrollback, hshared⟩ ⟨hfind, hflag, hqueued⟩
    refine ⟨_, execShardCommit_of_shared hadoption hmine hrollback hshared hfind hflag hqueued, by rw [dust_adoptionDone], ?_⟩
    have hrings := sameRings_modDust s c fun d => { d with adoption := none }
    exact hrings.done (State.done_complete (cmd := cmd) _ _ ((congrArg (·.cmds[k]?) hrings.ring).trans (cmdAt_of_findCmd hfind)))
  case rollback =>
    rintro c s a g ⟨hadoption, hcolls, hrollback⟩ hall
    refine ⟨_, execRollback_of_offered hadoption hcolls hrollback hall, ?_⟩
    rw [ctx_notify, State.modAdopt, ctx_modDust, hadoption]
    rfl

end Sys2Proof.Machine
end

section
/-! Streams of the Stencil unit: issue, halt, segments and coupled queues (04_programs.md R130, R155, R159; 05_hawk.md R209; 09_memory.md
R347, R352); the obligation O44. -/

namespace Sys2Proof.Machine

section

variable {s u v : State} {a : AuId} {st : StnId} {c l : Nat}

@[simp] theorem Au.stn_putQueue (x : Au) (q : Nat) (y : Queue) (st : Nat) : (x.putQueue q y).stn st = x.stn st := rfl
@[simp] theorem Au.queue_putQueue_same (x : Au) (q : Nat) (y : Queue) : (x.putQueue q y).queue q = y := mget_mset_same _ _ _ _
theorem Au.queue_putQueue_ne (x : Au) {q r : Nat} (y : Queue) (h : r ≠ q) : (x.putQueue q y).queue r = x.queue r := mget_mset_ne _ _ _ _ _ h

theorem au_progress (s : State) (c n : Nat) : (s.progress c).au n = s.au n := rfl

/-! ## Issue -/

/-- An active Stencil with bytes left issues as its space and its direction say (R155). -/
theorem issueStn_of_active (hlive : s.live a = some (c, l)) (hst : ((s.au a).stn st).st = .active) (hrun : ((s.au a).stn st).halted = false)
    (hleft : ((s.au a).stn st).issued < (stnDesc ((s.au a).stn st).desc).total) : s.issueStn a st false =
      if (stnDesc ((s.au a).stn st).desc).space = 0 then s.issueHawk a st c
      else if (stnDesc ((s.au a).stn st).desc).write then s.issueWrite a st c else s.issueRead a st c false := by
  rw [State.issueStn, hlive]
  exact if_pos ⟨hst, by simp [hrun], hleft⟩

/-- Where a Stencil reads memory and its queue has room for the next segment, that segment is issued and counted (R155). -/
theorem issueRead_of_room {x : StnSlot} {d : StnDesc} {va dpa len n : Nat} {e : Pte} (hx : x = (s.au a).stn st) (hd : d = stnDesc x.desc)
    (hlocate : (s.ctx c).locate d.lbuf (d.addr x.issued) = some (.virt va))
    (hlen : len = min (min (d.run - x.issued % d.run) (toBoundary va)) (d.total - x.issued))
    (hroom : len ≤ (s.au a).roleFree d.queue d.scales - s.aheadBytes a st) (htrans : (s.ctx c).translate va false = .ok (n, e, dpa))
    (hseg : s.issueSeg {
      issuer := .stencil a st, die := auDie a, rsv := false, runahead := false, src := .virt c va
      dst := .queue a d.queue d.scales, len := len, data := [], bank := some (bankOf dpa) } = some u) :
    ∃ f : Queue → Queue, s.issueRead a st c false = (u.modAu a fun b =>
      (b.putStn st { b.stn st with issued := x.issued + len, segs := x.segs + 1 }).putQueue d.queue (f (b.queue d.queue))).progress c := by
  subst hx hd
  rw [State.issueRead]
  dsimp only
  rw [hlocate]
  dsimp only
  rw [← hlen, decide_eq_true hroom, if_neg (by decide), if_neg (by simp), htrans]
  dsimp only
  rw [hseg]
  exact ⟨fun q => if (stnDesc ((s.au a).stn st).desc).scales then { q with heldS := q.heldS + len } else { q with heldV := q.heldV + len }, rfl⟩

/-! ## The end of a stream, and a halt -/

/-- Stencil st of AU a is done and its queue end goes to the next one (R155). -/
def State.stnEnded (s : State) (a st : Nat) (d : StnDesc) : State := s.modAu a fun b =>
  ((b.endStnVisit st).putStn st { (b.endStnVisit st).stn st with st := .done, halted := false, waitSlot := none }).promote d.queue d.scales

theorem execStencilDone_of_moved {d : StnDesc} (hasg : (s.au a).asg = some (c, l)) (hd : d = stnDesc ((s.au a).stn st).desc)
    (hst : ((s.au a).stn st).st = .active) (hmoved : ((s.au a).stn st).moved = d.total) (hsegs : ((s.au a).stn st).segs = 0) :
    execStencilDone a st s = .next ((if d.doneEn then (s.stnEnded a st d).setFlag c d.doneFlag true else s.stnEnded a st d).progress c) := by
  subst hd
  rw [execStencilDone, hasg]
  exact if_pos ⟨hst, hmoved, hsegs⟩

theorem stnDoneFlag_lt (bs : List Byte) : (stnDesc bs).doneFlag < 256 := bits_lt _ 7 0

theorem flag_progress (s : State) (c f : Nat) : (s.progress c).flag c f = s.flag c f := by
  rw [State.flag, State.progress, State.ctx_modCtx, State.flag]

theorem execStreamHaltResume_of_translates {va : Nat} {d : StnDesc} (hlive : s.live a = some (c, l))
    (hd : d = stnDesc ((s.au a).stn st).desc) (hhalted : ((s.au a).stn st).halted = true)
    (hlocate : (s.ctx c).locate d.lbuf (d.addr ((s.au a).stn st).issued) = some (.virt va))
    (htrans : (match (s.ctx c).translate va d.write with | .ok _ => true | _ => false) = true) : execStreamHaltResume a st s =
      .next ((s.modAu a fun b => b.putStn st { (s.au a).stn st with halted := false }).progress c) := by
  subst hd
  rw [execStreamHaltResume, hlive]
  dsimp only
  rw [if_pos hhalted, hlocate]
  dsimp only
  cases hres : (s.ctx c).translate va (stnDesc ((s.au a).stn st).desc).write with
  | ok => rfl
  | wait | hold | bad =>
    rw [hres] at htrans
    cases htrans

/-! ## Segments and coupled queues -/

theorem finishSeg_of_put {id : Nat} {g : Seg} (hseg : mfind s.mem.segs id = some g) (hfree : s.segBlocked id g = false)
    (hput : (s.segBytes g).2.putEnd g.dst (s.segBytes g).1 g.runahead = some u) :
    s.finishSeg id = ((u.segNote g).freeSeg id).issuerProgress g.issuer := by
  rw [State.finishSeg, hseg]
  dsimp only
  rw [if_neg (by simp [hfree]), hput]

theorem mem_issuerProgress (s : State) (i : Issuer) : (s.issuerProgress i).mem = s.mem := by
  rw [State.issuerProgress]
  split
  · split <;> rfl
  · rfl

theorem coupled_ne {p q : Nat} (h : coupled p q = true) : p ≠ q := by
  rintro rfl
  simp [coupled] at h
  omega

/-- AU x after n bytes of queue p have gone over to queue q (R130). -/
def Au.handOver (x : Au) (p q n : Nat) : Au :=
  (x.putQueue p { x.queue p with data := (x.queue p).data.drop n }).push q ((x.queue p).data.take n)

theorem queue_handOver (x : Au) {p q : Nat} (n : Nat) (h : p ≠ q) : ((x.handOver p q n).queue p).data = (x.queue p).data.drop n ∧
    ((x.handOver p q n).queue q).data = (x.queue q).data ++ (x.queue p).data.take n := by
  rw [Au.handOver, Au.push]
  dsimp only
  rw [Au.queue_putQueue_ne _ _ h, Au.queue_putQueue_same, Au.queue_putQueue_same, Au.queue_putQueue_ne _ _ h.symm]
  exact ⟨rfl, rfl⟩

theorem execQueueRecordReady_of_room {p q : QueueId} {n : Nat} (hlive : s.live a = some (c, l)) (hcoupled : coupled p q = true)
    (hlink : (s.ctx c).linkBound l p = false) (hp : (s.au a).unbound p = true) (hq : (s.au a).unbound q = true)
    (hlevel : n ≤ ((s.au a).queue p).level) (hroom : (s.au a).qRoom q n = true) :
    execQueueRecordReady a p q n s = .next ((s.putAu a ((s.au a).handOver p q n)).progress c) := by
  rw [execQueueRecordReady, hlive]
  exact if_pos ⟨hcoupled, by simp [hlink], hp, hq, hlevel, hroom⟩

end

/-- Settles O44: each clause's conditions select one branch of its command, and the Stencil, the segment or the queue is read off the state
answered. -/
theorem streamsOfTheStencilUnit : Obligations.Streams_of_the_Stencil_unit := by
  unfold Obligations.Streams_of_the_Stencil_unit
  refine ⟨?read, ?issue, ?buffer, ?done, ?resume, ?complete, ?record⟩
  case read =>
    rintro a st s u c l va dpa len n e x d ⟨hlive, hx, hd, hst, hrun, hleft, hspace, hwrite⟩ ⟨hlocate, hlen, hroom⟩ htrans hseg
    have hok : (s.ctx c).translate va false = .ok (n, e, dpa) := by
      cases hres : (s.ctx c).translate va false with
      | ok => rw [hres] at htrans; exact congrArg _ (Option.some.inj htrans)
      | wait | hold | bad => rw [hres] at htrans; cases htrans
    obtain ⟨f, hread⟩ := issueRead_of_room hx hd hlocate hlen hroom hok hseg
    subst hx hd
    refine ⟨_, congrArg Host.Outcome.next (issueStn_of_active hlive hst hrun hleft), ?_⟩
    rw [if_neg (by simp [hspace]), if_neg (by simp [hwrite]), hread]
    refine ⟨rfl, ?_, ?_⟩ <;> rw [au_progress, State.au_modAu, Au.stn_putQueue, Au.stn_putStn_same]
  case issue =>
    rintro a st s c l ⟨hlive, hst, hrun, hleft⟩
    exact ⟨_, congrArg Host.Outcome.next (issueStn_of_active hlive hst hrun hleft), rfl⟩
  case buffer =>
    rintro a st s c l ⟨hlive, hst, hrun, hleft⟩
    exact ⟨_, congrArg Host.Outcome.next (issueStn_of_active hlive hst hrun hleft), rfl⟩
  case done =>
    rintro a st s u c l d ⟨hasg, hd, hst, hmoved, hsegs⟩ rfl
    refine ⟨_, execStencilDone_of_moved hasg hd hst hmoved hsegs, rfl, fun hdone => ?_⟩
    rw [if_pos hdone, flag_progress]
    exact flag_setFlag _ _ _ _ (hd ▸ stnDoneFlag_lt _)
  case resume =>
    rintro a st s c l va d ⟨hlive, hd, hhalted, hlocate⟩ htrans
    exact ⟨_, execStreamHaltResume_of_translates hlive hd hhalted hlocate htrans, by
      rw [au_progress, State.au_modAu, Au.stn_putStn_same]⟩
  case complete =>
    rintro id s u g ⟨hseg, hfree, hput⟩
    refine ⟨_, congrArg Host.Outcome.next (finishSeg_of_put hseg hfree hput), rfl, ?_⟩
    rw [mem_issuerProgress]
    exact freeSeg_segs ..
  case record =>
    rintro a p q n s c l ⟨hlive, hcoupled, hlink, hp, hq⟩ ⟨hlevel, hroom⟩
    refine ⟨_, execQueueRecordReady_of_room hlive hcoupled hlink hp hq hlevel hroom, ?_⟩
    rw [au_progress, State.au_putAu]
    exact queue_handOver _ n (coupled_ne hcoupled)

end Sys2Proof.Machine
end

section
/-! Programs: LOAD_PROGRAM and RUN (04_programs.md R173; 12_contexts.md R493), the step sizes (08_trowel.md R307), energy and the host's cap
(14_power_package.md R588, R598); the obligation O48. -/

namespace Sys2Proof.Machine

section

variable {s u w : State} {c : CtxId} {k : Nat} {cmd : Cmd}

theorem SameRings.cmdAt {c : Nat} (h : SameRings s u c) (hcmd : s.cmdAt c k = some cmd) : u.cmdAt c k = some cmd := by
  rw [State.cmdAt, h.ring]
  exact hcmd

/-! ## LOAD_PROGRAM -/

/-- The state in which a program that has been installed is READY and its command has completed (R173). -/
def State.programReady (s : State) (c k : Nat) (pay : List (Nat × Nat × Nat)) (va : Nat) : State :=
  ((s.enter c .ready).raise 0x0201 (.ctx c) pay).complete c k 0 va

theorem ctx_programReady (s : State) (c k : Nat) (pay : List (Nat × Nat × Nat)) (va : Nat) :
    ((s.programReady c k pay va).ctx c).st = .ready ∧ ((s.programReady c k pay va).ctx c).prog = (s.ctx c).prog ∧
      ((s.programReady c k pay va).ctx c).place = (s.ctx c).place ∧ ((s.programReady c k pay va).ctx c).flags = (s.ctx c).flags ∧
      ((s.programReady c k pay va).ctx c).ring.cmds = (s.ctx c).ring.cmds.eraseIdx k := by
  obtain ⟨_, _, _, _, _, hcomplete⟩ := State.ctx_complete (s := (s.enter c .ready).raise 0x0201 (.ctx c) pay) c k 0 va
  obtain ⟨_, _, henter⟩ := State.ctx_enter (s := s) c .ready
  rw [State.programReady, hcomplete, State.ctx_raise, henter]
  exact ⟨rfl, rfl, rfl, rfl, rfl⟩

theorem execLoadProgram_of_good {img : List Byte} (hcmd : s.cmdAt c k = some cmd) (hop : byteAt cmd.desc 0 = 0x01)
    (hserves : s.serves 0x01 = true) (hphase : cmd.phase = .started) (hdesc : loadBad cmd.desc = false)
    (hst : (s.ctx c).st = .empty ∨ (s.ctx c).st = .ready ∨ (s.ctx c).st = .faulted)
    (hread : (s.loadBegins c k).readImage c cmd.desc = .got img u) (hchecks : firstFail (imgFails img (u.reg HUB_FW_VERSION)) = none)
    (hinstall : u.install c img = some w) : ∃ pay va, execLoadProgram c k s = .next (w.programReady c k pay va) := by
  rw [execLoadProgram, onCmd_eq hcmd hop hserves, if_pos hphase, if_neg (by simp [hdesc])]
  dsimp only
  rw [if_pos hst, State.loadGo, hread]
  dsimp only
  rw [hchecks]
  dsimp only
  rw [hinstall]
  exact ⟨_, _, rfl⟩

/-! ## RUN -/

/-- What the logical AUs start from: the state, the program and the placement of a context are as another's. -/
structure Ctx.StartsAs (x y : Ctx) : Prop where
  st : y.st = x.st
  prog : y.prog = x.prog
  place : y.place = x.place

theorem startsAs_of_ptStep {x y : Ctx} (h : PtStep x y) : x.StartsAs y := by
  obtain ⟨_, _, _, _, rfl⟩ := h
  exact ⟨rfl, rfl, rfl⟩

theorem startsAs_runCoat (s : State) (c : Nat) : (s.ctx c).StartsAs ((s.runCoat c).ctx c) := by
  unfold State.runCoat
  extract_lets t
  have ht : (s.ctx c).StartsAs (t.ctx c) := by
    unfold t
    rw [State.ctx_modCtx]
    exact ⟨rfl, rfl, rfl⟩
  clear_value t
  split
  · exact ht
  · split
    · exact ht
    · next va _ =>
      obtain ⟨hst, hprog, hplace⟩ := startsAs_of_ptStep (ctx_vpoke t c va (natLe 8 (t.seedKey c)))
      rw [State.ctx_modCtx]
      exact ⟨hst.trans ht.st, hprog.trans ht.prog, hplace.trans ht.place⟩

/-- A RUN that is accepted makes the context RUNNING and keeps its program and its placement (R493). -/
theorem ctx_runBegins (s : State) (c k : Nat) : ((s.runBegins c k).ctx c).st = .running ∧
    ((s.runBegins c k).ctx c).prog = (s.ctx c).prog ∧ ((s.runBegins c k).ctx c).place = (s.ctx c).place := by
  obtain ⟨_, _, henter⟩ := State.ctx_enter (s := s.setPhase c k (.underway 0 0)) c .running
  unfold State.runBegins
  extract_lets t
  obtain ⟨hst, hprog, hplace⟩ := startsAs_runCoat t c
  rw [hst, hprog, hplace]
  unfold t
  rw [State.ctx_modCtx, henter, ctx_setPhase]
  exact ⟨rfl, rfl, rfl⟩

/-- The state in which a RUN has read its tables (R302, R526). -/
def State.runRead (s : State) (c k : Nat) : State := ((s.runBegins c k).keepTrowel c).keepDust c

theorem ctx_runRead (s : State) (c k : Nat) : ((s.runRead c k).ctx c).st = .running ∧
    ((s.runRead c k).ctx c).prog = (s.ctx c).prog ∧ ((s.runRead c k).ctx c).place = (s.ctx c).place := by
  rw [State.runRead, State.keepDust, ctx_modDust, State.keepTrowel, State.ctx_modCtx]
  dsimp only
  exact ctx_runBegins s c k

theorem execRun_of_good (hcmd : s.cmdAt c k = some cmd) (hop : byteAt cmd.desc 0 = 0x02) (hserves : s.serves 0x02 = true)
    (hphase : cmd.phase = .started) (hlo : zeroIn cmd.desc 4 8 = true) (hhi : zeroIn cmd.desc 16 64 = true) (hst : (s.ctx c).st = .ready)
    (hcoat : s.coatBase c = 0)
    (hpages : (s.ctx c).checkAll false ((s.trwRanges c ++ s.dustRanges c).map fun r => pagesOf r.1 r.2).flatten = .ok ())
    (htrowel : ((s.runBegins c k).trwTables c).bad = none) (hdust : (((s.runBegins c k).keepTrowel c).readDust c).bad = none) :
    execRun c k s = .next ((s.runRead c k).launchAll c (fieldLe cmd.desc 8 8)) := by
  have hranges : s.coatRanges c = ([], []) := if_pos hcoat
  rw [execRun, onCmd_eq hcmd hop hserves, if_neg (not_not_intro hphase), if_neg (by simp [hlo, hhi]), if_neg (not_not_intro hst)]
  dsimp only
  rw [hranges, List.append_nil, hubNeeds_ok hpages, State.hubWrites, hubNeeds_ok (u := ()) rfl]
  simp only [List.map_nil, List.flatten_nil, State.shadowRanges, State.runStarts, State.runTrowel, htrowel, State.runDust, hdust]
  rfl

/-! ## Step sizes -/

/-- The step sizes of a descriptor in the current or the next set of a context (R307). -/
def State.stepSet (s : State) (c : Nat) (d : List Byte) : State :=
  s.modCtx c fun x => { x with
    eta := if fieldLe d 8 8 = s.step_ c then { x.eta with cur := setStepInto d x.eta.cur } else { x.eta with next := setStepInto d x.eta.next } }

theorem execSetStep_of_good (hcmd : s.cmdAt c k = some cmd) (hop : byteAt cmd.desc 0 = 0x03) (hserves : s.serves 0x03 = true)
    (hsched : s.scheduled c = false) (hdesc : setStepBad cmd.desc = false)
    (hstep : fieldLe cmd.desc 8 8 = s.step_ c + 1 ∨ fieldLe cmd.desc 8 8 = s.step_ c ∧ ∀ g ∈ (s.ctx c).eta.started,
      g < fieldLe cmd.desc 4 2 ∨ fieldLe cmd.desc 4 2 + fieldLe cmd.desc 6 2 ≤ g) :
    execSetStep c k s = .next ((s.stepSet c cmd.desc).complete c k 0 0) := by
  have hnew : ¬ (fieldLe cmd.desc 8 8 < s.step_ c ∨ (fieldLe cmd.desc 8 8 = s.step_ c ∧ ((s.ctx c).eta.started.any fun g =>
      decide (fieldLe cmd.desc 4 2 ≤ g) && decide (g < fieldLe cmd.desc 4 2 + fieldLe cmd.desc 6 2)) = true)) := by
    rintro (hlt | ⟨heq, hany⟩)
    · omega
    · obtain ⟨g, hg, hnamed⟩ := List.any_eq_true.1 hany
      simp only [Bool.and_eq_true, decide_eq_true_eq] at hnamed
      rcases hstep with hnext | ⟨_, hfree⟩
      · omega
      · have := hfree g hg
        omega
  rw [execSetStep, onCmd_eq hcmd hop hserves]
  dsimp only
  rw [if_neg (by simp [hsched]), if_neg (by simp [hdesc]), if_neg hnew, if_neg (by omega)]
  rfl

/-! ## Energy and the host's cap -/

theorem execQueryEnergy_of_good (hcmd : s.cmdAt c k = some cmd) (hop : byteAt cmd.desc 0 = 0x11) (hserves : s.serves 0x11 = true)
    (hscope : byteAt cmd.desc 4 = 0 ∨ byteAt cmd.desc 4 = 1 ∧ fnIsPf (s.ownerOf c) = true) (hlo : zeroIn cmd.desc 5 8 = true)
    (hhi : zeroIn cmd.desc 20 64 = true) (halign : fieldLe cmd.desc 8 8 % 64 = 0)
    (hroom : fieldLe cmd.desc 8 8 = 0 ∨ (if byteAt cmd.desc 4 = 1 then 2320 else 64) ≤ fieldLe cmd.desc 16 4) :
    execQueryEnergy c k s = .next ((if fieldLe cmd.desc 8 8 = 0 then s
      else s.hostWrite (s.ctxPort c) (fieldLe cmd.desc 8 8) (s.energyRecord c (byteAt cmd.desc 4 == 1))).complete c k 0
        (mJ (if byteAt cmd.desc 4 = 1 then s.energy 0 0 else s.ctxEnergy c))) := by
  have hsize : ¬ (fieldLe cmd.desc 8 8 ≠ 0 ∧ fieldLe cmd.desc 16 4 < if byteAt cmd.desc 4 = 1 then 2320 else 64) := by omega
  have hallowed : byteAt cmd.desc 4 = 1 → fnIsPf (s.ownerOf c) = true := by
    rintro h
    rcases hscope with h0 | ⟨_, hpf⟩
    · omega
    · exact hpf
  have hone : ¬ 1 < byteAt cmd.desc 4 := by omega
  rw [execQueryEnergy, onCmd_eq hcmd hop hserves]
  simp only [beq_iff_eq]
  rw [if_neg (by simpa using hallowed), if_neg (by simp only [hone, hlo, hhi, halign, hsize]; decide)]

theorem execSetCap_of_good (hcmd : s.cmdAt c k = some cmd) (hop : byteAt cmd.desc 0 = 0x10) (hserves : s.serves 0x10 = true)
    (hphase : cmd.phase = .started) (hadmin : s.ownerOf c = s.adminPf) (htens : fieldLe cmd.desc 4 2 % 10 = 0)
    (hmin : 1000 ≤ fieldLe cmd.desc 4 2) (hmax : fieldLe cmd.desc 4 2 ≤ 2400) (hflags : byteAt cmd.desc 6 = 0)
    (hzero : zeroIn cmd.desc 7 64 = true) : execSetCap c k s =
      .next ((s.setHostCap (fieldLe cmd.desc 4 2)).complete c k 0 (s.setHostCap (fieldLe cmd.desc 4 2)).capResult) := by
  rw [execSetCap, onCmd_eq hcmd hop hserves, hphase]
  dsimp only
  rw [if_neg (not_not_intro hadmin), if_neg (by rw [hflags, hzero, htens, bits]; simp [Nat.not_lt.2 hmin, Nat.not_lt.2 hmax]),
    hflags, if_neg (by simp [bit])]

theorem sameRings_setHostCap (s : State) (c : CtxId) (w : Nat) : SameRings s (s.setHostCap w) c := by
  have hkept := State.setHostCap_kept (w := w) (m := 0x829) rfl (Kept.refl _ s)
  have hctx := State.ctx_of_ctxs (hkept.same .ctxs rfl) c
  refine ⟨by rw [hctx], by rw [hctx], hkept.same .ports rfl, hkept.same .now rfl, fun j hhi _ => ?_⟩
  have hlow : j < 0x300000 := by omega
  rw [State.setHostCap, reg_capStatus (NotEvt.low hlow) (by unfold PWR_CAP_STATUS; omega)]
  exact State.reg_setFld_ne _ _ _ _ _ _ (by unfold PWR_CAP; omega)

theorem fld_cap_complete (s : State) (c : CtxId) (k st res : Nat) : (s.complete c k st res).fld PWR_CAP 11 0 = s.hostCap :=
  State.fld_of_reg (reg_complete (NotEvt.mid (by decide) (by decide) (by decide)) (by unfold PWR_CAP CTX_RING_STATUS; omega)
    (by unfold PWR_CAP CTX_RING_EVT_CNT; omega)) 11 0

end

/-- Settles O48: each clause's conditions select one branch of its command, and the context is read off the state answered. -/
theorem programsAndTheirCommands : Obligations.Programs_and_their_commands := by
  unfold Obligations.Programs_and_their_commands
  refine ⟨?load, ?run, ?setStep, ?energy, ?cap⟩
  case load =>
    rintro c k s cmd img u w ⟨hcmd, hop, hserves⟩ ⟨hphase, hdesc⟩ hst hread ⟨hchecks, hinstall⟩
    obtain ⟨pay, va, hexec⟩ := execLoadProgram_of_good hcmd hop hserves hphase hdesc hst hread hchecks hinstall
    exact ⟨_, hexec, ctx_programReady w c k pay va⟩
  case run =>
    rintro c k s cmd p ⟨hcmd, hop, hserves⟩ ⟨hphase, hlo, hhi⟩ ⟨hst, hprog⟩ ⟨hcoat, hpages⟩ ⟨htrowel, hdust⟩
    obtain ⟨hrunning, hsame, hplace⟩ := ctx_runRead s c k
    obtain ⟨hkept, hcores⟩ := launchAll_facts (s.runRead c k) c (fieldLe cmd.desc 8 8) p (hsame.trans hprog)
    exact ⟨_, execRun_of_good hcmd hop hserves hphase hlo hhi hst hcoat hpages htrowel hdust, hkept.trans hrunning,
      fun l n hl => hcores l n ((congrArg (mfind · l) hplace).trans hl)⟩
  case setStep =>
    rintro c k s cmd ⟨hcmd, hop, hserves⟩ ⟨hsched, hdesc⟩ hstep
    have hctx : (s.stepSet c cmd.desc).ctx c = _ := State.ctx_modCtx ..
    have hrings : SameRings s (s.stepSet c cmd.desc) c := ⟨by rw [hctx], by rw [hctx], rfl, rfl, fun _ _ _ => rfl⟩
    obtain ⟨_, _, _, _, _, hdone⟩ := State.ctx_complete (s := s.stepSet c cmd.desc) c k 0 0
    refine ⟨_, execSetStep_of_good hcmd hop hserves hsched hdesc hstep, ?_, ?_⟩
    · rw [hdone, hctx]
    · exact hrings.done (State.done_complete _ _ (hrings.cmdAt hcmd))
  case energy =>
    rintro c k s cmd ⟨hcmd, hop, hserves⟩ hscope ⟨hlo, hhi, halign⟩ hroom
    refine ⟨_, execQueryEnergy_of_good hcmd hop hserves hscope hlo hhi halign hroom, ?_⟩
    split
    · exact State.done_complete _ _ hcmd
    · have hrings := sameRings_hostWrite s c (s.ctxPort c) (fieldLe cmd.desc 8 8) (s.energyRecord c (byteAt cmd.desc 4 == 1))
      exact hrings.done (State.done_complete _ _ (hrings.cmdAt hcmd))
  case cap =>
    rintro c k s cmd ⟨hcmd, hop, hserves⟩ ⟨hphase, hadmin⟩ ⟨htens, hmin, hmax⟩ ⟨hflags, hzero⟩
    have hrings := sameRings_setHostCap s c (fieldLe cmd.desc 4 2)
    refine ⟨_, execSetCap_of_good hcmd hop hserves hphase hadmin htens hmin hmax hflags hzero, ?_, _,
      hrings.done (State.done_complete _ _ (hrings.cmdAt hcmd))⟩
    rw [fld_cap_complete]
    exact hostCap_setHostCap (by omega)

end Sys2Proof.Machine
end

section
/-! Accesses to the registers of BAR0 and to BAR4 (11_host.md R452; 16_reference.md R667, R671, R673); the obligation O49. -/

namespace Sys2Proof.Machine

section

variable {s u : State} {f : FnId} {off : Nat} {r : RegAt}

/-! ## Writes -/

theorem execBar0RegisterWrite_of_word {v : Nat} (halign : off % 4 = 0) :
    execBar0RegisterWrite f off 4 v s = .next (s.writeWord f off (v % 2 ^ 32)) := congrArg Host.Outcome.next (if_pos ⟨rfl, halign⟩)

/-- A register that the function may not write stays; a denied write is counted where the register says so (R667). -/
theorem writeWord_of_foreign {w : Nat} (htarget : s.target f off = .reg r) (hrow : (s.rowWrite f r w).isNone = true) (hown : r.own = false) :
    s.writeWord f off w = if r.deny then s.denied f else s := by
  rw [State.writeWord, htarget]
  dsimp only
  rw [Option.isNone_iff_eq_none.1 hrow]
  exact if_pos (by simp [hown])

theorem execBar0RegisterWrite_of_badSize {size v : Nat} (hword : ¬ (size = 4 ∧ off % 4 = 0)) (hpair : ¬ (size = 8 ∧ off % 8 = 0))
    (hup : s.barUp = true) : execBar0RegisterWrite f off size v s = .next (s.badAccess f) := by
  rw [execBar0RegisterWrite, if_neg hword, if_neg hpair, if_pos hup]

/-! ## Reads -/

/-- A read of one word of a register (R671): the value goes into the answer, what it clears or latches into the state. -/
theorem bar0Read_of_reg (halign : off % 4 = 0) (htarget : s.target f off = .reg r) (hspec : (specAt r.off).isEmpty = false) :
    s.bar0Read f off 4 = { (s.readReg f r).2 with answer := natLe 4 (s.readReg f r).1 } := by
  rw [State.bar0Read, if_pos ⟨rfl, halign⟩, State.readWord, htarget]
  simp only [hspec]
  rfl

/-- The value that a read of register r gives, with the state after it. -/
def State.opened (s : State) (f : Nat) (r : RegAt) : Nat × State := s.openValue f r.off (s.reg r.key)

/-- The value of the high half of register r, opened with the low half (R673). -/
def State.openedHigh (s : State) (f : Nat) (r : RegAt) : Nat × State :=
  (s.opened f r).2.openValue f (r.off + 4) (s.reg (r.key + 4))

/-- What a read clears of a register that the function may write (R671). -/
def State.readClear (s : State) (r : RegAt) (v : Nat) : State := if r.own then s.setReg r.key (specClear (specAt r.off) v) else s

theorem readReg_of_single (hlo : roLo r.off = false) (hhi : 4 ≤ r.off → roLo (r.off - 4) = false) :
    s.readReg f r = ((s.opened f r).1, (s.opened f r).2.readClear r (s.reg r.key)) := by
  rw [State.readReg, if_neg (fun h => by simp [hhi h.1] at h)]
  simp only [hlo]
  rfl

theorem readReg_of_low (hlo : roLo r.off = true) (hhi : 4 ≤ r.off → roLo (r.off - 4) = false) : s.readReg f r = ((s.opened f r).1,
    ((s.openedHigh f r).2.modFn f fun x => { x with latches := mput x.latches r.key (s.openedHigh f r).1 }).readClear r (s.reg r.key)) := by
  rw [State.readReg, if_neg (fun h => by simp [hhi h.1] at h)]
  simp only [hlo]
  rfl

theorem readReg_of_latched {h : Nat} (hoff : 4 ≤ r.off) (hhi : roLo (r.off - 4) = true) (hlatch : mfind (s.fn f).latches (r.key - 4) = some h) :
    s.readReg f r = (h, s.modFn f fun x => { x with latches := mdel x.latches (r.key - 4) }) := by
  rw [State.readReg, if_pos ⟨hoff, hhi⟩, hlatch]

theorem reg_readClear (s : State) (r : RegAt) (v : Nat) : (r.own = true → (s.readClear r v).reg r.key = specClear (specAt r.off) v % 2 ^ 32) ∧
    (r.own = false → (s.readClear r v).reg r.key = s.reg r.key) := by
  rw [State.readClear]
  constructor <;> intro hown
  · rw [if_pos hown, State.reg_setReg]
  · rw [if_neg (by simp [hown])]

theorem fn_readClear (s : State) (r : RegAt) (v : Nat) (g : Nat) : (s.readClear r v).fn g = s.fn g := by
  rw [State.readClear]
  split <;> rfl

/-! ## BAR4 -/

theorem execBar4Access_of_read {p : PortId} {len : Nat} {data bs : List Byte} (hup : s.barUp = true)
    (hen : s.rbit (PCIE_BAR4_SEL_LO p) 7 = true) (howns : s.owns (portPf p) (s.fld (PCIE_BAR4_SEL_LO p) 5 0) = true)
    (hsize : off + len ≤ 2 ^ (s.port p).bar4) (hpage : off % 4096 + len ≤ 4096)
    (hread : s.vread (s.fld (PCIE_BAR4_SEL_LO p) 5 0) (s.bar4Base p + off) len = .ok (bs, u)) :
    execBar4Access p false off len data s = .next { u with answer := bs } := by
  rw [execBar4Access, if_neg (by simp [hup]), if_neg (by simp [hen, howns, Nat.not_lt.2 hsize, Nat.not_lt.2 hpage]), if_neg (by decide)]
  simp only [Bool.false_eq_true, if_false, hread]

theorem execBar4Access_of_write {p : PortId} {len : Nat} {data : List Byte} (hup : s.barUp = true)
    (hen : s.rbit (PCIE_BAR4_SEL_LO p) 7 = true) (howns : s.owns (portPf p) (s.fld (PCIE_BAR4_SEL_LO p) 5 0) = true)
    (hsize : off + data.length ≤ 2 ^ (s.port p).bar4) (hpage : off % 4096 + data.length ≤ 4096)
    (hwrite : s.vwrite (s.fld (PCIE_BAR4_SEL_LO p) 5 0) (s.bar4Base p + off) data = .ok u) :
    execBar4Access p true off len data s = .next { u with answer := [] } := by
  rw [execBar4Access, if_neg (by simp [hup]), if_neg (by simp [hen, howns, Nat.not_lt.2 hsize, Nat.not_lt.2 hpage]), if_pos rfl, hwrite]

end

/-- Settles O49: each clause's conditions select one branch of its access, and the register or the latch is read off the state answered. -/
theorem registerAccesses : Obligations.Register_accesses := by
  unfold Obligations.Register_accesses
  refine ⟨?put, ?soft, ?foreign, ?badSize, ?clear, ?low, ?high, ?read, ?write⟩
  case put =>
    rintro f off v s r ⟨halign, htarget, hrow, hown, hopen⟩
    exact ⟨_, execBar0RegisterWrite_of_word halign, writeWord_reg htarget hrow hown hopen⟩
  case soft =>
    rintro f off v s r ⟨halign, htarget, hrow, hown, hopen⟩ hsoft
    refine ⟨_, execBar0RegisterWrite_of_word halign, ?_⟩
    rw [writeWord_reg htarget hrow hown hopen, hsoft]
    exact ⟨reg_softReg .., fun k hk => State.reg_softReg_ne _ _ _ _ hk⟩
  case foreign =>
    rintro f off v s r ⟨halign, htarget, hrow, hown⟩
    exact ⟨_, execBar0RegisterWrite_of_word halign, writeWord_of_foreign htarget hrow hown⟩
  case badSize =>
    rintro f off size v s ⟨hword, hpair, hup⟩
    exact ⟨_, execBar0RegisterWrite_of_badSize hword hpair hup, fld_setFld_bit _ _ _ (by decide)⟩
  case clear =>
    rintro f off s r ⟨halign, htarget, hspec, hlo, hhi⟩
    obtain ⟨hcleared, hkept⟩ := reg_readClear (s.opened f r).2 r (s.reg r.key)
    refine ⟨_, congrArg Host.Outcome.next (bar0Read_of_reg halign htarget hspec), ?_⟩
    rw [readReg_of_single hlo hhi]
    exact ⟨rfl, hcleared, fun hown => (hkept hown).trans (reg_openValue ..)⟩
  case low =>
    rintro f off s r ⟨halign, htarget, hspec, hlo, hhi⟩
    refine ⟨_, congrArg Host.Outcome.next (bar0Read_of_reg halign htarget hspec), ?_⟩
    rw [readReg_of_low hlo hhi]
    refine ⟨rfl, ?_⟩
    rw [fn_answer, fn_readClear, State.fn_modFn]
    exact mfind_mput_same ..
  case high =>
    rintro f off h s r ⟨halign, htarget, hspec, hoff, hhi, hlatch⟩
    refine ⟨_, congrArg Host.Outcome.next (bar0Read_of_reg halign htarget hspec), ?_⟩
    rw [readReg_of_latched hoff hhi hlatch]
    refine ⟨rfl, ?_⟩
    rw [fn_answer, State.fn_modFn]
    exact mfind_mdel_same ..
  case read =>
    rintro p off len data bs s u ⟨hup, hen, howns, hsize, hpage⟩ hread
    exact ⟨_, execBar4Access_of_read hup hen howns hsize hpage hread, rfl⟩
  case write =>
    rintro p off len data s u ⟨hup, hen, howns, hsize, hpage⟩ hwrite
    exact ⟨_, execBar4Access_of_write hup hen howns hsize hpage hwrite, rfl⟩

end Sys2Proof.Machine
end

section
/-! Life cycle, debug, key management, sessions, JTAG, logs and diagnosis (11_host.md R454; 15_security_firmware.md R638 to R655); the
obligation O54. -/

namespace Sys2Proof.Machine

section

variable {s : State} {f : FnId} {v : Word32} {p : PortId} {req : List Byte}

/-! ## Life-cycle requests -/

/-- The 256 bytes of token and signature that the registers name, zeros where they cannot be read (R646). -/
def State.lcToken (s : State) : List Byte :=
  (s.hostRead s.adminPort (64 * (s.reg64 SEC_LC_REQ_ADDR_LO SEC_LC_REQ_ADDR_HI / 64)) 256).getD (List.replicate 256 0)

theorem execSecLcReqGo_of_go (hfw : s.fwUp = true) (hcore : s.sec.haltedCores.contains 3 = false) (hadmin : f.val = s.adminPf)
    (hgo : bit v.toNat 0 = true) : execSecLcReqGo f v s = .next (s.lcRequest (s.lcToken.take 192) (s.lcToken.drop 192) false) := by
  rw [execSecLcReqGo, if_neg (by rw [hfw, hcore]; decide), if_neg (not_not_intro hadmin), if_neg (by simp [hgo])]
  rfl

/-- A good token with no request under way makes the part busy with it (R646). -/
theorem lcRequest_of_good {k key : List Byte} (hidle : s.sec.lcReq = none) (hgood : s.tokenStatus k key = 0) :
    (s.lcRequest k key false).fld SEC_LC_REQ 1 1 = 1 ∧ ((s.lcRequest k key false).sec.lcReq.map fun r => r.kind) = some (byteAt k 4) := by
  rw [State.lcRequest, if_neg (by simp [hidle])]
  dsimp only
  rw [if_neg (not_not_intro hgood), if_neg (by decide), fld_onSec, sec_onSec]
  exact ⟨fld_setFld_bit _ _ _ (by decide), rfl⟩

theorem execLifecycleTransition_of_req {r : LcReq} (hreq : s.sec.lcReq = some r) (hfw : s.fwUp = true)
    (hcore : s.sec.haltedCores.contains 3 = false) (hkind : r.kind ≠ 4) : ∃ t, execLifecycleTransition s = .next t ∧
      t.sec = { (s.lcDo r).sec with sessions := [], lcReq := none, changed := true } := by
  rw [execLifecycleTransition, hreq]
  dsimp only
  rw [if_neg (by rw [hfw, hcore]; decide), if_neg hkind]
  refine ⟨_, rfl, ?_⟩
  rw [sec_lcAnswer, apply_ite State.sec, State.setFld_sec, ite_self, sec_newNonce, sec_lcChanged, sec_onSec, State.endSessions, sec_onSec]

/-! ## The end of a debug period -/

/-- The state in which a debug period, its sessions and the measurements taken in it are over (R649). -/
def State.debugOver (s : State) : State := s.pick.2.endDebug.endSessions.onSec fun x => { x with changed := true }

theorem sec_debugOver (s : State) : s.debugOver.sec = { s.sec with debugUntil := none, sessions := [], changed := true } := by
  rw [State.debugOver, sec_onSec, State.endSessions, sec_onSec, State.endDebug, sec_showFuses, State.setFld_sec, sec_onSec]
  rfl

theorem fld_lc_showFuses (s : State) : s.showFuses.fld SEC_LC 11 8 = s.fld SEC_LC 11 8 := by
  rw [State.showFuses]
  rw [State.fld_of_reg (State.reg_setReg_ne _ _ _ _ (by decide)), State.fld_setFld_below _ _ _ _ _ _ _ (by decide) (by decide),
    State.fld_setFld_above _ _ _ _ _ _ _ (by decide) (by decide) (by decide)]

theorem fld_debugOver (s : State) : s.debugOver.fld SEC_LC 11 8 = 0 := by
  rw [State.debugOver, fld_onSec, State.endSessions, fld_onSec, State.endDebug, fld_lc_showFuses]
  exact fld_setFld_of_lt _ (by decide) (by decide)

theorem execDebugExpiry_of_over {u w : Nat} (huntil : s.sec.debugUntil = some w) (hover : w ≤ max s.now u) :
    ∃ kind source, execDebugExpiry u s = .next ((s.at u).debugOver.lcChanged 2 kind source) := by
  rw [execDebugExpiry, sec_at, huntil]
  exact ⟨_, _, if_pos hover⟩

/-! ## Key management and sessions -/

theorem execIdeKmRequest_of_key (hfw : s.fwUp = true) (hcore : s.sec.haltedCores.contains 3 = false) (hdl : (s.port p).dlUp = true)
    (hsession : mget 0 s.sec.sessions p ≠ 0) (hcode : byteAt req 0 = 2) : execIdeKmRequest p req s =
      .next { s.modPort p fun x => { x with
        ideKeys := mput x.ideKeys (256 * byteAt req 1 + byteAt req 2) (beNat ((req.drop 3).take 32)) } with
        answer := natLe 1 3 ++ natLe 1 (byteAt req 1) } := by
  rw [execIdeKmRequest]
  dsimp only
  rw [if_neg (by rw [hfw, hcore, hdl]; simpa using hsession), hcode]
  rfl

theorem execIdeKmRequest_of_stop (hfw : s.fwUp = true) (hcore : s.sec.haltedCores.contains 3 = false) (hdl : (s.port p).dlUp = true)
    (hsession : mget 0 s.sec.sessions p ≠ 0) (hcode : byteAt req 0 = 5) : execIdeKmRequest p req s =
      .next { s.modPort p fun x => { x with
        ide := x.ide.filter fun i => i.num != byteAt req 1, ideKeys := x.ideKeys.filter fun e => e.1 / 256 != byteAt req 1 } with
        answer := natLe 1 6 ++ natLe 1 (byteAt req 1) } := by
  rw [execIdeKmRequest]
  dsimp only
  rw [if_neg (by rw [hfw, hcore, hdl]; simpa using hsession), hcode]
  rfl

/-- Port p with one session more (R454). -/
def State.sessionOpened (s : State) (p : Nat) : State :=
  s.pick.2.onSec fun x => { x with sessions := mset 0 x.sessions p (mget 0 x.sessions p + 1) }

theorem sessions_sessionOpened (s : State) (p : Nat) : mget 0 (s.sessionOpened p).sec.sessions p = mget 0 s.sec.sessions p + 1 := by
  rw [State.sessionOpened, sec_onSec]
  exact mget_mset_same 0 s.sec.sessions p (mget 0 s.sec.sessions p + 1)

theorem execSpdmRequest_of_keyExchange (hfw : s.fwUp = true) (hcore : s.sec.haltedCores.contains 3 = false) (hdl : (s.port p).dlUp = true)
    (hscrap : s.sec.fuses.scrap = false) (hversion : byteAt req 0 = 0x12) (hcode : byteAt req 1 = 0xE4)
    (hroom : mget 0 s.sec.sessions p < 2) : ∃ answer, execSpdmRequest p req s = .next { s.sessionOpened p with answer := answer } := by
  rw [execSpdmRequest]
  dsimp only
  rw [if_neg (by rw [hfw, hcore, hdl, hscrap]; decide), if_neg (not_not_intro hversion), hcode]
  exact ⟨_, congrArg _ (if_pos hroom)⟩

theorem execSpdmRequest_of_measurements (hfw : s.fwUp = true) (hcore : s.sec.haltedCores.contains 3 = false)
    (hdl : (s.port p).dlUp = true) (hscrap : s.sec.fuses.scrap = false) (hversion : byteAt req 0 = 0x12) (hcode : byteAt req 1 = 0xE0)
    (hplain : bit (byteAt req 2) 0 = false) (hall : byteAt req 3 = 0xFF) : execSpdmRequest p req s =
      .next { s with answer := natLe 1 0x12 ++ natLe 1 0x60 ++ (List.range' 1 6).flatMap s.measurement } := by
  rw [execSpdmRequest]
  dsimp only
  rw [if_neg (by rw [hfw, hcore, hdl, hscrap]; decide), if_neg (not_not_intro hversion), hcode,
    if_neg (by simp [hplain]), hall, if_neg (by decide), if_pos rfl]
  rfl

/-! ## JTAG and logs -/

/-- The state that counts an instruction which the life cycle does not allow (R655). -/
def State.jtagRefused (s : State) : State := { s.pick.2 with answer := [] }.count SEC_EVT_CNT 15 8 1

theorem execJtagInstruction_of_refused {ir dr : Nat} (hon : s.power.hostOn = true) (hreach : s.jtagReach ir dr = false) :
    ∃ sev, execJtagInstruction ir dr s = .next (s.jtagRefused.logAdd sev 0xFF 0x8010 []) := by
  rw [execJtagInstruction, if_neg (by simp [hon]), if_neg (by simp [hreach])]
  exact ⟨_, rfl⟩

theorem execSecLogHeadWrite_of_valid (hup : s.barUp = true) (hpf : fnIsPf f = true)
    (hfits : ringUsed (s.fld (SEC_LOG_TAIL (fnPort f)) 15 0) (v.toNat % 65536) ≤ s.logSize (fnPort f))
    (hback : ringUsed (s.fld (SEC_LOG_TAIL (fnPort f)) 15 0) (v.toNat % 65536) ≤
      ringUsed (s.fld (SEC_LOG_TAIL (fnPort f)) 15 0) (s.fld (SEC_LOG_HEAD (fnPort f)) 15 0)) : execSecLogHeadWrite f v s =
    .next ((s.setFld (SEC_LOG_HEAD (fnPort f)) 15 0 (v.toNat % 65536)).logReturned (fnPort f)) := by
  rw [execSecLogHeadWrite]
  rw [if_neg (by simp [hup, hpf, Nat.not_lt.2 hfits, Nat.not_lt.2 hback])]

theorem fld_logReturned {p k : Nat} (hlo : 0x501000 ≤ k) (hhi : k < 0x1000000) (hi lo : Nat) :
    (s.logReturned p).fld k hi lo = s.fld k hi lo := by
  rw [State.logReturned]
  split
  · rw [fld_raise_all (by omega) hhi, State.fld_setFld_ne _ _ _ _ _ _ _ _ (by unfold SEC_STATUS; omega), fld_onSec]
  · rfl

/-! ## Diagnosis -/

/-- The state in which a walk of the page table has shown what it found (R653): done, or failed with an entry of 0. -/
def State.diagShown (s : State) (p e : Nat) (done : Bool) : State :=
  if done then ((s.setReg64 (SEC_DIAG_PTE_LO p) (SEC_DIAG_PTE_HI p) e).setFld (SEC_DIAG_CTL p) 1 1 1).setFld (SEC_DIAG_CTL p) 2 2 0
  else ((s.setReg64 (SEC_DIAG_PTE_LO p) (SEC_DIAG_PTE_HI p) e).setFld (SEC_DIAG_CTL p) 2 2 1).setFld (SEC_DIAG_CTL p) 1 1 0

theorem execSecDiagGo_of_go (hup : s.barUp = true) (hpf : fnIsPf f = true) (hlevel : bits v.toNat 9 8 ≠ 3) (hgo : bit v.toNat 0 = true) :
    ∃ u e, execSecDiagGo f v s = .next (if (s.softReg (SEC_DIAG_CTL (fnPort f)) v.toNat).ownsAny f (bits v.toNat 15 10)
      then State.diagShown u (fnPort f) e true
      else (s.softReg (SEC_DIAG_CTL (fnPort f)) v.toNat).diagShown (fnPort f) 0 false) := by
  rw [execSecDiagGo]
  dsimp only
  rw [if_neg (by simp [hup, hpf]), if_neg hlevel, if_neg (by simp [hgo])]
  exact ⟨_, _, rfl⟩

theorem fld_diagShown_done (s : State) (p e : Nat) : (s.diagShown p e true).fld (SEC_DIAG_CTL p) 1 1 = 1 ∧
    (s.diagShown p e true).fld (SEC_DIAG_CTL p) 2 2 = 0 := by
  rw [State.diagShown, if_pos rfl, State.fld_setFld_below _ _ _ _ _ _ _ (by decide) (by decide)]
  exact ⟨fld_setFld_bit _ _ _ (by decide), fld_setFld_bit _ _ _ (by decide)⟩

theorem fld_diagShown_failed (s : State) (p : Nat) : (s.diagShown p 0 false).fld (SEC_DIAG_CTL p) 1 1 = 0 ∧
    (s.diagShown p 0 false).fld (SEC_DIAG_CTL p) 2 2 = 1 ∧ (s.diagShown p 0 false).reg64 (SEC_DIAG_PTE_LO p) (SEC_DIAG_PTE_HI p) = 0 := by
  have hlo : SEC_DIAG_PTE_LO p ≠ SEC_DIAG_CTL p := by
    unfold SEC_DIAG_PTE_LO SEC_DIAG_CTL
    omega
  have hhi : SEC_DIAG_PTE_HI p ≠ SEC_DIAG_CTL p := by
    unfold SEC_DIAG_PTE_HI SEC_DIAG_CTL
    omega
  rw [State.diagShown, if_neg (by decide)]
  refine ⟨fld_setFld_bit _ _ _ (by decide), ?_, ?_⟩
  · rw [State.fld_setFld_above _ _ _ _ _ _ _ (by decide) (by decide) (by decide)]
    exact fld_setFld_bit _ _ _ (by decide)
  rw [State.reg64, State.reg_setFld_ne _ _ _ _ _ _ hlo, State.reg_setFld_ne _ _ _ _ _ _ hlo, State.reg_setFld_ne _ _ _ _ _ _ hhi,
    State.reg_setFld_ne _ _ _ _ _ _ hhi]
  exact reg64_setReg64 _ _ _ _ (by unfold SEC_DIAG_PTE_LO SEC_DIAG_PTE_HI; omega) (by decide)

end

/-- Settles O54: each clause's conditions select one branch of its command, and the security state or the register is read off the state
answered. -/
theorem lifeCycleDebugAndLogs : Obligations.Life_cycle_debug_and_logs := by
  unfold Obligations.Life_cycle_debug_and_logs
  refine ⟨?request, ?good, ?transition, ?expiry, ?key, ?stop, ?exchange, ?measure, ?jtag, ?refused, ?log, ?head, ?diag, ?diagRefused⟩
  case request =>
    rintro f v s bs ⟨hfw, hcore, hadmin, hgo⟩ rfl
    exact ⟨_, execSecLcReqGo_of_go hfw hcore hadmin hgo, rfl⟩
  case good =>
    rintro f v s bs ⟨hfw, hcore, hadmin, hgo, hidle⟩ ⟨rfl, hgood⟩
    exact ⟨_, execSecLcReqGo_of_go hfw hcore hadmin hgo, lcRequest_of_good hidle hgood⟩
  case transition =>
    rintro s r ⟨hreq, hfw, hcore, hkind⟩
    obtain ⟨t, hexec, hsec⟩ := execLifecycleTransition_of_req hreq hfw hcore hkind
    exact ⟨t, hexec, by rw [hsec], by rw [hsec], by rw [hsec]⟩
  case expiry =>
    rintro u w s ⟨huntil, hover⟩
    obtain ⟨kind, source, hexec⟩ := execDebugExpiry_of_over huntil hover
    refine ⟨_, hexec, ?_⟩
    rw [sec_lcChanged, sec_debugOver, State.lcChanged, fld_raise_all (by decide) (by decide), fld_debugOver]
    exact ⟨rfl, rfl, rfl, rfl⟩
  case key =>
    rintro p req s ⟨hfw, hcore, hdl, hsession, hcode⟩
    refine ⟨_, execIdeKmRequest_of_key hfw hcore hdl hsession hcode, ?_, rfl⟩
    rw [port_answer, State.port_modPort]
    exact mfind_mput_same ..
  case stop =>
    rintro p req s ⟨hfw, hcore, hdl, hsession, hcode⟩
    refine ⟨_, execIdeKmRequest_of_stop hfw hcore hdl hsession hcode, ?_⟩
    rw [port_answer, State.port_modPort]
    exact ⟨rfl, rfl⟩
  case exchange =>
    rintro p req s ⟨hfw, hcore, hdl, hscrap, hversion⟩ ⟨hcode, hroom⟩
    obtain ⟨answer, hexec⟩ := execSpdmRequest_of_keyExchange hfw hcore hdl hscrap hversion hcode hroom
    exact ⟨_, hexec, sessions_sessionOpened s p⟩
  case measure =>
    rintro p req s ⟨hfw, hcore, hdl, hscrap, hversion⟩ ⟨hcode, hplain, hall⟩
    exact ⟨_, execSpdmRequest_of_measurements hfw hcore hdl hscrap hversion hcode hplain hall, rfl⟩
  case jtag =>
    rintro ir dr s ⟨hon, hreach⟩
    refine ⟨s.jtagRun ir dr, ?_, rfl⟩
    exact congrArg Host.Outcome.next ((if_neg (by simp [hon])).trans (if_pos hreach))
  case refused =>
    rintro ir dr s ⟨hon, hreach⟩
    obtain ⟨sev, hexec⟩ := execJtagInstruction_of_refused hon hreach
    obtain ⟨hreg, _, hseq, hanswer⟩ := logAdd_keeps s.jtagRefused sev 0xFF 0x8010 []
    refine ⟨_, hexec, ?_, hanswer, hseq⟩
    rw [State.fld_of_reg (hreg _ (by decide))]
    exact State.fld_count _ _ _ _ _ (by decide)
  case log =>
    intro sev src point data s hfw
    obtain ⟨_, hlogs, hseq, _⟩ := logAdd_keeps s (sev % 4) src (point % 65536) data
    exact ⟨_, congrArg Host.Outcome.next (if_pos hfw), hlogs, hseq⟩
  case head =>
    rintro f v s ⟨hup, hpf, hfits, hback⟩
    refine ⟨_, execSecLogHeadWrite_of_valid hup hpf hfits hback, ?_⟩
    have hf := f.isLt
    rw [fld_logReturned (by unfold SEC_LOG_HEAD; omega) (by unfold SEC_LOG_HEAD fnPort; omega)]
    exact fld_setFld_of_lt _ (by decide) (Nat.mod_lt _ (by decide))
  case diag =>
    rintro f v s ⟨hup, hpf, hlevel, hgo, howns⟩
    obtain ⟨u, e, hexec⟩ := execSecDiagGo_of_go hup hpf hlevel hgo
    rw [if_pos howns] at hexec
    exact ⟨_, hexec, fld_diagShown_done u (fnPort f) e⟩
  case diagRefused =>
    rintro f v s ⟨hup, hpf, hlevel, hgo, howns⟩
    obtain ⟨u, e, hexec⟩ := execSecDiagGo_of_go hup hpf hlevel hgo
    rw [if_neg (by simp [howns])] at hexec
    exact ⟨_, hexec, fld_diagShown_failed _ (fnPort f)⟩

end Sys2Proof.Machine
end
